-- ==== Sys2Proof/Word.lean ====
section
/-! DEFINITION. The word types of the machine and their plainest arithmetic: bytes, 32-bit and 64-bit words, sparse
tables keyed by a number. -/

namespace Sys2Proof

abbrev Byte := BitVec 8
abbrev Half := BitVec 16
abbrev Word := BitVec 32
abbrev DWord := BitVec 64

/-- A set of the 32 positions of a group, or of lane numbers within it: bit n stands for n. -/
abbrev Mask := BitVec 32

/-- A sparse table: keys strictly rising. -/
abbrev Tab (α : Type) := List (Nat × α)

end Sys2Proof
end

