-- ==== Sys2Proof/Config.lean ====
section
/-! DEFINITION. What one module fixes and the spec leaves open: free values without a body (nothing can be proved of
them), and the fused and named values of R373, R375 and R376. -/

namespace Sys2Proof.Config

/-- Free choice: which of several enabled actions, free slots or handles is taken (R137, R226, R276, R367 and the
order of independent agents); applied to the state's counter of free values (log entry 1). -/
opaque pick : Nat → Nat

/-- Free choice: a cached translation is still there (R201) (log entry 5). -/
opaque tlbStays : Nat → Bool

/-- Free choice: a stale L1 line is still there (R193, R203) (log entry 6). -/
opaque l1Stays : Nat → Bool

/-- Free value: a byte no rule gives, such as one that a padded entry of a sparsity queue keeps (R258, R267) (log
entry 1). -/
opaque freeByte : Nat → Byte

/-- Free value: a byte of the deck of a team that has exited, whose contents are lost (R190): by the counter of free values,
the team and the byte (log entry 1). -/
opaque lostByte : Nat → Nat → Nat → Byte

/-- Bytes an item takes in the slipway, whose layout is not architectural (R287) (log entry 1). -/
opaque slipItemBytes : Nat

/-- Manufacturer code of the identification code, from fuses (R373). -/
opaque jep106 : BitVec 11

/-- Silicon revision (R373). -/
opaque revision : BitVec 4

/-- SHAKE256 of a byte string to a number of bytes; the spec names the function and does not give it (R375, R376)
(log entry 9). -/
opaque shake256 : List Byte → Nat → List Byte

/-- ML-DSA-65 verification of a signature over a message under a key (R375) (log entry 9). -/
opaque mldsaVerify : List Byte → List Byte → List Byte → Bool

/-- ML-DSA-65 key pair of a 32-byte seed: public and private key (R376) (log entry 9). -/
opaque mldsaKeys : List Byte → List Byte × List Byte

/-- ML-DSA-65 signature of a message under a private key (R376) (log entry 9). -/
opaque mldsaSign : List Byte → List Byte → List Byte

/-- Fused entropy (R376). -/
opaque fusedEntropy : List Byte

/-- The device key pair, from the seed SHAKE256 of the fused entropy: the same at every boot (R376). -/
def deviceKeys : List Byte × List Byte := mldsaKeys (shake256 fusedEntropy 32)

/-- Fused digest of the image key (R375). -/
opaque fusedKeyDigest : List Byte

/-- Fused minimum security version (R375). -/
opaque fusedMinSvn : Nat

/-- Boundary-scan register contents (R373: as IEEE 1149.1) (log entry 10). -/
opaque boundaryScan : Nat → BitVec 64

/-- The order in which the banks of a core, or the units of its deck bank, are given to the teams there: by the core, the teams
and the bank, a smaller key first. No rule fixes it (R188, R189, R373) (log entry 10). -/
opaque bankKey : Nat → Bool → List Nat → Nat → Nat

/-- A byte of the banks or of the deck bank that is in no team's allotment, once the core has had a team (R188, R190, R193, R373)
(log entry 10). -/
opaque bankByte : Nat → Bool → Nat → Byte

/-- Words of the RESYNC summary whose coding no rule gives: tier states (R371) (log entry 10). -/
opaque tierStates : Nat → BitVec 64

/-- The 32 bytes of an outstanding fault in the RESYNC summary, whose layout no rule gives: address space, page and access
kind (R371) (log entry 10). -/
opaque faultEntry : Nat → Nat → Nat → BitVec 256

/-- The code of a register in the detail of a register-error trap, for a uniform or a lane register (R322, R336) (log
entry 10). -/
opaque registerCode : Bool → Nat → BitVec 64

/-- Registers of the CXL.io space whose offsets no rule gives (R360, R362, R364, R366, R368, R369, R372, R375-R377); queues count
2048 times their die. Those from queueHead to measuredPower are only read. -/
inductive DevReg where
  | queueBase (q : Nat)
  | queueSize (q : Nat)
  | queueCompletion (q : Nat)
  | queueVector (q : Nat)
  | vectorMask (port vector : Nat)
  | window (port window : Nat)
  | owner (die : Nat)
  | powerLimit
  | mailbox (offset : Nat)
  | queueHead (q : Nat)
  | mailboxStatus
  | freezeStatus
  | linkState (link : Nat)
  | deviceNumber
  /-- eight bytes of the attestation report -/
  | report (offset : Nat)
  | measuredPower
  | other
deriving DecidableEq, Repr, Inhabited

/-- Which register an offset of the region is, of those that the capability list's entries have no room for (R370) (log entry
10). -/
opaque freeRegister : Nat → DevReg

/-- The order of the registers of an entry, a smaller key first: no rule gives it (R370) (log entry 10). -/
opaque registerKey : DevReg → Nat

/-- The order of the capability list (a smaller key first), the words of an entry behind its header and the registers of R371
and R368, and the words between it and the next: no rule gives them (R370) (log entry 10). -/
opaque capabilityKey : Nat → Nat
opaque capabilityWords : Nat → Nat
opaque capabilityGap : Nat → Nat

/-- Measured power, averaged over 1 ms, in hundred watts, by the stroke counter (R377) (log entry 10). -/
opaque measuredPower : Nat → Nat

/-! ### Free orders -/

/-- Insertion by a key. -/
def insertBy {α : Type} (key : α → Nat) (x : α) : List α → List α
  | [] => [x]
  | y :: ys => if key x < key y then x :: y :: ys else y :: insertBy key x ys

/-- A list in the order of a key: a permutation of it. -/
def inOrder {α : Type} (key : α → Nat) (xs : List α) : List α := xs.foldr (insertBy key) []

/-- The 32 banks of a core, or the 32 units of its deck bank, in the order in which its teams have them. -/
def bankOrder (core : Nat) (deck : Bool) (tids : List Nat) : List Nat := inOrder (bankKey core deck tids) (List.range 32)

/-! ### The capability list (R370) -/

/-- The ids in use, in the order of the list. -/
def capabilityIds : List Nat := inOrder capabilityKey [1, 2, 3, 4, 5, 6]

/-- Registers that R371 and R368 place behind the header of an entry. -/
def placedWords (id : Nat) : Nat := if id = 1 then 5 else 0

/-- The registers that an entry holds besides (R370). Those of 16384 host queues and the mailbox of 64 MiB do not fit a length of
16 bits: they stand at offsets of the module's own (log entry 10). -/
def heldRegisters : Nat → List DevReg
  | 1 => [.mailboxStatus, .freezeStatus]
  | 3 => .deviceNumber :: (List.range 24).map .linkState
  | 4 => (List.range 8).map .owner
  | 5 => (List.range 672).map fun i => .report (8 * i)
  | 6 => [.powerLimit, .measuredPower]
  | _ => []

/-- Bytes of an entry, its header included: a multiple of 8 that fits 16 bits. -/
def capabilityLength (id : Nat) : Nat := 8 * (1 + placedWords id + (heldRegisters id).length + capabilityWords id % 4096)

/-- The entries of ids from an offset on: offset and id. -/
def capabilitiesFrom (offset : Nat) : List Nat → List (Nat × Nat)
  | [] => []
  | id :: ids => (offset, id) :: capabilitiesFrom (offset + capabilityLength id + 8 * capabilityGap id) ids

/-- The capability list, from offset 0x1000. -/
def capabilities : List (Nat × Nat) := capabilitiesFrom 0x1000 capabilityIds

/-- The header of the first of some entries: the offset of the next, 0 at the end, the length, version 1, the id. -/
def capabilityHeader : List (Nat × Nat) → Nat
  | [] => 0
  | (_, id) :: rest => 2 ^ 40 * ((rest.head?.map Prod.fst).getD 0) + 2 ^ 24 * capabilityLength id + 2 ^ 16 + id

/-- The header at an offset, if an entry begins there. -/
def headerAt (offset : Nat) : List (Nat × Nat) → Option Nat
  | [] => none
  | x :: xs => if x.1 = offset then some (capabilityHeader (x :: xs)) else headerAt offset xs

/-- The entry that holds an offset: where it begins, and its id. -/
def entryAt (offset : Nat) : Option (Nat × Nat) := capabilities.find? fun x => x.1 ≤ offset && offset < x.1 + capabilityLength x.2

/-- The register of an entry of an id at a word behind its header. -/
def entryRegister (id word : Nat) : DevReg :=
  if word < placedWords id then .other else (inOrder registerKey (heldRegisters id))[word - placedWords id]?.getD .other

/-- Registers that entries have no room for. -/
def DevReg.free : DevReg → Bool
  | .queueBase _ | .queueSize _ | .queueCompletion _ | .queueVector _ | .queueHead _ | .vectorMask _ _ | .window _ _ | .mailbox _ => true
  | _ => false

/-- Which register an offset of the region is: one of the entry that holds it, else one that no entry holds. -/
def deviceRegister (offset : Nat) : DevReg :=
  match entryAt offset with
  | some (o, id) => if offset % 8 = 0 && o < offset then entryRegister id ((offset - o) / 8 - 1) else .other
  | none => if (freeRegister offset).free then freeRegister offset else .other

/-- The offset of the management entry. -/
def managementEntry : Nat := ((capabilities.find? fun x => x.2 == 1).map Prod.fst).getD 0

end Sys2Proof.Config
end

