-- ==== Sys2Proof/Machine/Table.lean ====
section
/-! DEFINITION. Sparse tables and byte memories: lookup, update, removal, and memories whose unlisted bytes read zero
(R190, R374), kept in one canonical form: keys strictly rising and no byte equal to zero listed. -/

namespace Sys2Proof.Machine

def tget {α : Type} : Tab α → Nat → Option α
  | [], _ => none
  | (k, v) :: t, n => if n = k then some v else tget t n

def tset {α : Type} : Tab α → Nat → α → Tab α
  | [], n, v => [(n, v)]
  | (k, x) :: t, n, v =>
    if n = k then (n, v) :: t
    else if n < k then (n, v) :: (k, x) :: t
    else (k, x) :: tset t n v

def terase {α : Type} : Tab α → Nat → Tab α
  | [], _ => []
  | (k, x) :: t, n => if n = k then terase t n else (k, x) :: terase t n

/-- Update of an entry that is there. -/
def tmod {α : Type} (t : Tab α) (n : Nat) (f : α → α) : Tab α :=
  match tget t n with
  | some v => tset t n (f v)
  | none => t

/-- A byte of a memory whose unlisted bytes read zero. -/
def mrd (m : Tab Byte) (a : Nat) : Byte := (tget m a).getD 0

def mwr (m : Tab Byte) (a : Nat) (b : Byte) : Tab Byte :=
  if b = 0 then terase m a else tset m a b

/-- n bytes from an address. -/
def mread (m : Tab Byte) (a : Nat) : Nat → List Byte
  | 0 => []
  | n + 1 => mrd m a :: mread m (a + 1) n

def mwrite (m : Tab Byte) (a : Nat) : List Byte → Tab Byte
  | [] => m
  | b :: bs => mwrite (mwr m a b) (a + 1) bs

/-- Keys strictly rising. -/
def rising {α : Type} : Tab α → Bool
  | [] => true
  | [_] => true
  | (a, _) :: (b, y) :: t => a < b && rising ((b, y) :: t)

/-- The canonical form of a byte memory. -/
def Memory.wf (m : Tab Byte) : Bool := rising m && m.all (·.2 != 0)

/-- Little-endian value of bytes (R12). -/
def leNat : List Byte → Nat
  | [] => 0
  | b :: bs => b.toNat + 256 * leNat bs

/-- n little-endian bytes of a number (R12). -/
def leBytes : Nat → Nat → List Byte
  | 0, _ => []
  | n + 1, x => BitVec.ofNat 8 x :: leBytes n (x / 256)

def w32 (n : Nat) : Word := BitVec.ofNat 32 n
def w64 (n : Nat) : DWord := BitVec.ofNat 64 n

/-- Bits hi down to lo of a number (R4). -/
def bits (x hi lo : Nat) : Nat := x / 2 ^ lo % 2 ^ (hi + 1 - lo)

/-- Positions 0 to 31 of a mask, rising. -/
def positions (m : Mask) : List Nat := (List.range 32).filter (m.getLsbD ·)

def maskOf (ps : List Nat) : Mask := ps.foldl (fun m p => m ||| (1#32 <<< p)) 0

/-- Ranges [a, a+n) and [b, b+m) share a number. -/
def overlap (a n b m : Nat) : Bool := a < b + m && b < a + n

end Sys2Proof.Machine
end

