-- ==== Sys2Proof/Machine/Float.lean ====
section
/-! DEFINITION. Number formats and arithmetic (spec/02_number_formats.md): the formats of R17 laid out as numbers, exact
values, Round with an unbounded exponent (R23), the range rule (R25), the random stream (R26, R27), totalOrder (R19), exact
sums (R30, R33), the F4B block (R20, R28, R29). -/

namespace Sys2Proof.Machine

/-- A floating-point format: exponent and fraction bits, bias, largest finite code, infinity's code if any, the canonical
NaN (R17, R18). Codes leave out the sign. -/
structure FFmt where
  exp  : Nat
  frac : Nat
  bias : Nat
  top  : Nat
  inf  : Option Nat
  nan  : Nat
deriving DecidableEq, Repr

def fp64 : FFmt := ⟨11, 52, 1023, 0x7FEFFFFFFFFFFFFF, some 0x7FF0000000000000, 0x7FF8000000000000⟩
def fp32 : FFmt := ⟨8, 23, 127, 0x7F7FFFFF, some 0x7F800000, 0x7FC00000⟩
def fp16 : FFmt := ⟨5, 10, 15, 0x7BFF, some 0x7C00, 0x7E00⟩
def bf16 : FFmt := ⟨8, 7, 127, 0x7F7F, some 0x7F80, 0x7FC0⟩
def e5m2 : FFmt := ⟨5, 2, 15, 0x7B, some 0x7C, 0x7E⟩
def e4m3 : FFmt := ⟨4, 3, 7, 0x7E, none, 0x7F⟩
def acc40 : FFmt := ⟨8, 31, 127, 0x7F7FFFFFFF, some 0x7F80000000, 0x7FC0000000⟩
def e2m1 : FFmt := ⟨2, 1, 1, 7, none, 7⟩

/-- Bits of a format, sign included. -/
def FFmt.width (f : FFmt) : Nat := f.exp + f.frac + 1

/-- The exponent of the last place of the subnormals. -/
def FFmt.low (f : FFmt) : Int := 1 - (f.bias : Int) - f.frac

/-- The value of an encoding: a NaN, an infinity, or (-1)^neg m 2^e (R17). -/
inductive FVal where
  | nan
  | inf (neg : Bool)
  | fin (neg : Bool) (m : Nat) (e : Int)
deriving DecidableEq, Repr

/-- The value of an encoding (R17). -/
def FFmt.value (f : FFmt) (b : Nat) : FVal :=
  let neg := b / 2 ^ (f.exp + f.frac) % 2 == 1
  let c := b % 2 ^ (f.exp + f.frac)
  if f.inf = some c then .inf neg
  else if c > f.top then .nan
  else
    let x := c / 2 ^ f.frac
    let m := c % 2 ^ f.frac
    if x = 0 then .fin neg m f.low else .fin neg (2 ^ f.frac + m) (f.low + (x - 1 : Nat))

/-- Rounding modes by their codes (R23). -/
inductive RMode where
  | rne | rtz | rup | rdn | rna | sr
deriving DecidableEq, Repr

def RMode.ofCode : Nat → RMode
  | 0 => .rne | 1 => .rtz | 2 => .rup | 3 => .rdn | 4 => .rna | _ => .sr

/-- The modes that round away from zero by the remainder rem of den, the parity of the last place, and the draw (R23,
R27). -/
def roundsUp (mode : RMode) (neg : Bool) (odd : Bool) (rem den : Nat) (u : Word) : Bool :=
  match mode with
  | .rne => 2 * rem > den || (2 * rem == den && odd)
  | .rtz => false
  | .rup => rem != 0 && !neg
  | .rdn => rem != 0 && neg
  | .rna => 2 * rem ≥ den && rem != 0
  | .sr => rem != 0 && u.toNat < rem * 2 ^ 32 / den

/-- num / den as a numerator and denominator after division by 2^q. -/
def scaleDown (num den : Nat) (q : Int) : Nat × Nat :=
  match q with
  | .ofNat k => (num, den * 2 ^ k)
  | .negSucc k => (num * 2 ^ (k + 1), den)

/-- The binary exponent of num / den: the e with 2^e ≤ num / den < 2^(e+1). -/
def ratioExp (num den : Nat) : Int :=
  let e : Int := (Nat.log2 num : Int) - Nat.log2 den
  let (n, d) := scaleDown num den e
  if n < d then e - 1 else e

/-- num / den rounded to a multiple of 2^q by a mode. -/
def roundAt (mode : RMode) (neg : Bool) (num den : Nat) (q : Int) (u : Word) : Nat :=
  let (n, d) := scaleDown num den q
  let m := n / d
  if roundsUp mode neg (m % 2 == 1) (n % d) d u then m + 1 else m

/-- Round of R23 with an unbounded exponent: the code, sign left out, on the format's grid carried on past its top. -/
def FFmt.roundCode (f : FFmt) (mode : RMode) (neg : Bool) (num den : Nat) (u : Word) : Nat :=
  if num = 0 then 0
  else
    let q := max (ratioExp num den - f.frac) f.low
    (q - f.low).toNat * 2 ^ f.frac + roundAt mode neg num den q u

/-- Puts the sign on a code. -/
def FFmt.sign (f : FFmt) (neg : Bool) (code : Nat) : Nat :=
  if neg then 2 ^ (f.exp + f.frac) + code else code

/-- A mode that never leaves the largest finite value outwards for this sign (R25). -/
def RMode.inward (mode : RMode) (neg : Bool) : Bool :=
  match mode with
  | .rtz => true
  | .rup => neg
  | .rdn => !neg
  | _ => false

/-- The range rule of R25 for a code past the largest finite one. -/
def FFmt.beyond (f : FFmt) (sat : Bool) (neg : Bool) : Nat :=
  if sat then f.sign neg f.top
  else
    match f.inf with
    | some i => f.sign neg i
    | none => f.nan

/-- Round(num/den, f, mode) with the range rule (R23, R25); zero keeps the sign given. -/
def FFmt.round (f : FFmt) (mode : RMode) (sat neg : Bool) (num den : Nat) (u : Word) : Nat :=
  let c := f.roundCode mode neg num den u
  if c ≤ f.top then f.sign neg c
  else if mode.inward neg then f.sign neg f.top
  else f.beyond sat neg

/-- m 2^e as a numerator and a denominator. -/
def dyadic (m : Nat) (e : Int) : Nat × Nat :=
  match e with
  | .ofNat k => (m * 2 ^ k, 1)
  | .negSucc k => (m, 2 ^ (k + 1))

/-- An exact value narrowed to a format (R23, R25): infinities by the range rule, NaN canonical. -/
def FFmt.narrow (f : FFmt) (mode : RMode) (sat : Bool) (u : Word) : FVal → Nat
  | .nan => f.nan
  | .inf neg => f.beyond sat neg
  | .fin neg m e => let (n, d) := dyadic m e; f.round mode sat neg n d u

/-- Round by RNE without saturation, the lane arithmetic's rounding (R118). -/
def FFmt.rne (f : FFmt) (x : FVal) : Nat := f.narrow .rne false 0 x

/-- m 2^e as an integer multiple of 2^q, q ≤ e. -/
def mantAt (neg : Bool) (m : Nat) (e q : Int) : Int :=
  let k : Int := (m * 2 ^ (e - q).toNat : Nat)
  if neg then -k else k

/-- The sign of an exact zero sum: minus only when every addend is a negative zero (R33, R118). -/
def zeroSign (xs : List FVal) : Bool :=
  !xs.isEmpty && xs.all fun x => match x with | .fin true 0 _ => true | _ => false

/-- The exact sum of finite values. -/
def sumFin (xs : List FVal) : FVal :=
  let q := xs.foldl (fun q x => match x with | .fin _ m e => if m = 0 then q else min q e | _ => q) (0 : Int)
  let t := xs.foldl (fun t x => match x with | .fin n m e => if m = 0 then t else t + mantAt n m e q | _ => t) (0 : Int)
  if t = 0 then .fin (zeroSign xs) 0 q else .fin (t < 0) t.natAbs q

/-- The exact sum of values (R33): a NaN or opposite infinities give NaN, one infinity gives it. -/
def FVal.sum (xs : List FVal) : FVal :=
  if xs.contains .nan then .nan
  else
    match xs.contains (.inf false), xs.contains (.inf true) with
    | true, true => .nan
    | true, false => .inf false
    | false, true => .inf true
    | false, false => sumFin xs

def FVal.neg : FVal → FVal
  | .nan => .nan
  | .inf n => .inf !n
  | .fin n m e => .fin (!n) m e

def FVal.isZero : FVal → Bool
  | .fin _ 0 _ => true
  | _ => false

/-- The exact product (R118): infinity times zero is NaN. -/
def FVal.mul : FVal → FVal → FVal
  | .nan, _ => .nan
  | _, .nan => .nan
  | .inf a, .inf b => .inf (a != b)
  | .inf a, .fin b m _ => if m = 0 then .nan else .inf (a != b)
  | .fin a m _, .inf b => if m = 0 then .nan else .inf (a != b)
  | .fin a m e, .fin b n f => .fin (a != b) (m * n) (e + f)

def FVal.add (a b : FVal) : FVal := FVal.sum [a, b]

def FVal.isNeg : FVal → Bool
  | .nan => false
  | .inf n => n
  | .fin n _ _ => n

/-- The exact quotient rounded (R119): finite by zero is an infinity, 0/0 and ∞/∞ are NaN. -/
def FFmt.div (f : FFmt) (a b : FVal) : Nat :=
  match a, b with
  | .nan, _ => f.nan
  | _, .nan => f.nan
  | .inf _, .inf _ => f.nan
  | .inf n, .fin k _ _ => f.beyond false (n != k)
  | .fin n _ _, .inf k => f.sign (n != k) 0
  | .fin n m e, .fin k p q =>
    if p = 0 then (if m = 0 then f.nan else f.beyond false (n != k))
    else
      let (x, y) := dyadic m (e - q)
      f.round .rne false (n != k) x (y * p) 0

/-- A number strictly between two neighbours of a fine grid stands for an irrational one there: (2s+1)/2 for s < x < s+1. -/
def sticky (s : Nat) (exact : Bool) (k : Nat) : Nat × Nat :=
  if exact then (s, 2 ^ k) else (2 * s + 1, 2 ^ (k + 1))

/-- The correctly rounded square root (R121, R130). -/
def FFmt.sqrt (f : FFmt) (a : FVal) : Nat :=
  match a with
  | .nan => f.nan
  | .inf n => if n then f.nan else f.beyond false false
  | .fin n m e =>
    if m = 0 then f.sign n 0
    else if n then f.nan
    else
      -- √(m 2^e) = √(m 2^(e + 2k)) / 2^k with k large enough for two guard bits
      let k := f.frac + 4 + e.natAbs
      let (x, d) := dyadic m (e + 2 * k)
      let s := Nat.sqrt (x / d)
      let (p, q) := sticky s (s * s == x / d) k
      f.round .rne false false p q 0

/-- The correctly rounded reciprocal square root (R130). -/
def FFmt.rsqrt (f : FFmt) (a : FVal) : Nat :=
  match a with
  | .nan => f.nan
  | .inf n => if n then f.nan else f.sign false 0
  | .fin n m e =>
    if m = 0 then f.beyond false n
    else if n then f.nan
    else
      -- 1/√(m 2^e) = √(2^(2k - e) / m) / 2^k
      let k := f.frac + 8 + e.natAbs + Nat.log2 m
      let (x, d) := dyadic 1 (2 * (k : Int) - e)
      let s := Nat.sqrt (x / (d * m))
      let (p, q) := sticky s (s * s * m * d == x) k
      f.round .rne false false p q 0

/-- Comparison of finite and infinite values; none with a NaN (R120). -/
def FVal.lt? : FVal → FVal → Option Bool
  | .nan, _ => none
  | _, .nan => none
  | .inf a, .inf b => some (a && !b)
  | .inf a, .fin _ _ _ => some a
  | .fin _ _ _, .inf b => some !b
  | .fin a m e, .fin b n f =>
    let q := min e f
    some (mantAt a m e q < mantAt b n f q)

def FVal.eq? (a b : FVal) : Bool :=
  match a.lt? b, b.lt? a with
  | some false, some false => true
  | _, _ => false

/-- The key of totalOrder for w bits (R19). -/
def orderKey (w b : Nat) : Nat :=
  if b / 2 ^ (w - 1) % 2 = 1 then 2 ^ w - 1 - b % 2 ^ w else b % 2 ^ w + 2 ^ (w - 1)

/-- totalOrder(a, b) (R19). -/
def totalOrder (w a b : Nat) : Bool := orderKey w a ≤ orderKey w b

/-- The earlier and the later of two encodings by totalOrder, bits unchanged. -/
def orderMin (w a b : Nat) : Nat := if totalOrder w a b then a else b
def orderMax (w a b : Nat) : Nat := if totalOrder w a b then b else a

/-- FMIN and FMAX (R119): a NaN gives way, two give the canonical NaN, -0 lies below +0. -/
def FFmt.minMax (f : FFmt) (max : Bool) (a b : Nat) : Nat :=
  match f.value a, f.value b with
  | .nan, .nan => f.nan
  | .nan, _ => b
  | _, .nan => a
  | _, _ => if max then orderMax f.width a b else orderMin f.width a b

/-- a × b + c rounded once (R119). -/
def FFmt.fma (f : FFmt) (a b c : FVal) : Nat := f.rne (FVal.add (a.mul b) c)

/-- An integer rounding of a value (R23): none for a NaN, an infinity as its sign. -/
inductive IVal where
  | nan
  | inf (neg : Bool)
  | int (i : Int)
deriving DecidableEq, Repr

def FVal.toInt (mode : RMode) (u : Word) : FVal → IVal
  | .nan => .nan
  | .inf n => .inf n
  | .fin n m e =>
    let (x, d) := dyadic m e
    let k := roundAt mode n x d 0 u
    .int (if n then -(k : Int) else k)

/-- Clamp of an integer rounding to a range, NaN as 0 (R25, R123). -/
def IVal.clamp (lo hi : Int) : IVal → Int
  | .nan => 0
  | .inf n => if n then lo else hi
  | .int i => max lo (min hi i)

def intVal (i : Int) : FVal := .fin (i < 0) i.natAbs 0

/-! ### The random stream (R26) -/

def lcgStep (r : DWord) : DWord := r * 6364136223846793005#64 + 1442695040888963407#64

/-- The value a draw returns from a stepped stream. -/
def lcgOut (r : DWord) : Word := (r >>> 32).setWidth 32

/-! ### The F4B block (R20, R28) -/

/-- Value of an E2M1 magnitude in halves. -/
def e2m1Halves : Nat → Nat
  | 0 => 0 | 1 => 1 | 2 => 2 | 3 => 3 | 4 => 4 | 5 => 6 | 6 => 8 | _ => 12

/-- The value of an E8M0 scale byte; NaN for 0xFF (R17). -/
def scaleVal (e : Nat) : FVal := if e = 255 then .nan else .fin false 1 ((e : Int) - 127)

/-- The decoded value of a code under a scale and a spare byte (R20). -/
def f4bValue (code scale spare : Nat) : FVal :=
  if scale = 255 then .nan
  else if code = 8 then (e4m3.value spare).mul (scaleVal scale)
  else FVal.mul (.fin (code / 8 == 1) (e2m1Halves (code % 8)) (-1)) (scaleVal scale)

/-- ceil(log2(num/den)) for a positive ratio. -/
def ceilLog2 (num den : Nat) : Int :=
  let e := ratioExp num den
  let (n, d) := scaleDown num den e
  if n = d then e else e + 1

/-- A packed block: 16 codes, scale, spare. -/
structure F4Block where
  codes : List Nat
  scale : Nat
  spare : Nat
deriving DecidableEq, Repr

/-- Magnitude of a value as a ratio. -/
def FVal.mag : FVal → Nat × Nat
  | .fin _ m e => dyadic m e
  | _ => (0, 1)

def ratioLt (a b : Nat × Nat) : Bool := a.1 * b.2 < b.1 * a.2

/-- The first index of largest magnitude, with that magnitude. -/
def largest : List (Nat × FVal) → Option (Nat × (Nat × Nat))
  | [] => none
  | (i, x) :: t =>
    match largest t with
    | none => some (i, x.mag)
    | some (j, m) => if ratioLt x.mag m then some (j, m) else some (i, x.mag)

/-- x / 2^k. -/
def ratioShift (x : Nat × Nat) (k : Int) : Nat × Nat := scaleDown x.1 x.2 k

/-- PACK.f4b of 16 FP32 encodings (R28), with the f4b mode and sat bit and the draws of the elements. -/
def packF4b (mode : RMode) (sat : Bool) (xs : List Nat) (draws : List Word) : F4Block :=
  let vs := xs.map fp32.value
  if vs.any (fun v => match v with | .nan => true | .inf _ => !sat | _ => false) then ⟨List.replicate 16 0, 255, 0x80⟩
  else
    let vs := vs.map fun v => match v with | .inf n => fp32.value (fp32.sign n fp32.top) | v => v
    let ivs := (List.range vs.length).zip vs
    match largest ivs with
    | none => ⟨[], 127, 0x80⟩
    | some (j, m1) =>
      let m2 := match largest (ivs.filter (·.1 != j)) with | some (_, m) => m | none => (0, 1)
      let base := if m2.1 > 0 then m2 else m1
      let e : Nat := if base.1 = 0 then 127
        else (max 0 (min 254 (ceilLog2 base.1 (base.2 * 6) + 127))).toNat
      let k : Int := (e : Int) - 127
      let top := ratioShift m1 k
      let spares := top.1 > 6 * top.2
      let spare := if spares then
          match vs[j]? with
          | some (.fin n _ _) => e4m3.round .rne true n top.1 top.2 0
          | _ => 0x80
        else 0x80
      let codes := (ivs.zip draws).map fun (iv, u) =>
        if spares && iv.1 == j then 8
        else
          let r := ratioShift iv.2.mag k
          let c := min 7 (e2m1.roundCode mode iv.2.isNeg r.1 r.2 u)
          if c = 0 then 0 else if iv.2.isNeg then 8 + c else c
      ⟨codes, e, spare⟩

/-- Codes packed four bits each, the first lowest (R21). -/
def nibbles : List Nat → Nat
  | [] => 0
  | c :: cs => c + 16 * nibbles cs

end Sys2Proof.Machine
end

