-- ==== Sys2Proof/Syntax.lean ====
section
/-! DEFINITION. The instructions of the VYR-1728 as terms: one constructor per row of spec/opcode_table.json.
Rows with a word carry the operands their encoding names (R37-R42); the other rows are operations and events of the
device's other agents (engines, boathouse, host, links, management) and carry the data they arrive with. Register
fields are decoded into the kinds of R40 and R41; an extension word is held in the operand that reads it (R43). -/

namespace Sys2Proof

/-- A source field that names a lane register (R40). -/
inductive LSrc where
  | v (r : Nat)
  | l (i : Nat)
  | z
  | lid
  | ext (w : Word)
deriving DecidableEq, Repr

/-- A destination field that names a lane register (R40). -/
inductive LDst where
  | v (r : Nat)
  | z
deriving DecidableEq, Repr

/-- A source field that names a uniform register (R41). -/
inductive USrc where
  | s (r : Nat)
  | q (i : Nat)
  | z
  | ext32 (w : Word)
  | ext64 (w : DWord)
deriving DecidableEq, Repr

/-- A destination field that names a uniform register (R41). -/
inductive UDst where
  | s (r : Nat)
  | z
deriving DecidableEq, Repr

/-- The index or the scope of an LM access: a plain access has an index, an ordered one a scope (R37). -/
inductive Addr where
  | plain (b : LSrc)
  | ordered (scope : Nat)
deriving DecidableEq, Repr

/-- The destination of MRS: uniform, or a lane field when f7 bit 1 is set (R80). -/
inductive MDst where
  | u (d : UDst)
  | v (d : LDst)
deriving DecidableEq, Repr

/-- The source of MSR: uniform, or a lane field when f7 bit 1 is set (R80). -/
inductive MSrc where
  | u (a : USrc)
  | v (a : LSrc)
deriving DecidableEq, Repr

/-- One request or answer carried by a Wotis flit (R360): a local physical address of the device it is sent to, the
bytes it names, the data of a write, a copy or an answer, and for an atomic the operation (major and funct of R75); major 0x20 is a read, 0x21 a store, 0x22 copy data, 0 an answer. -/
structure PeerReq where
  tag     : Nat
  pa      : Nat
  size    : Nat
  data    : List Byte
  major   : Nat
  funct   : Nat
  operand : DWord
  swap    : DWord
  failed  : Bool
deriving DecidableEq, Repr

/-- A CXL.mem atomic of the host (R211, R252): the operation, by a major and a funct of R75, its operand and the swap value
of a CAS. -/
structure HostRmw where
  major   : Nat
  funct   : Nat
  operand : DWord
  swap    : DWord
deriving DecidableEq, Repr

/-- What a CXL.mem write of the host brings: bytes, or an atomic (R211, R221). -/
inductive HostStore where
  | bytes (data : List (BitVec 8))
  | rmw (x : HostRmw)
deriving DecidableEq, Repr

/-- A Wotis flit without its link-level check (R360): source and destination device, its kind (1 read, 2 write, 3 atomic, 4
response, 5 copy data, 6 event), the link that carries it, its number on that link, and its payload. -/
structure Flit where
  src  : Nat
  dst  : Nat
  kind : Nat
  link : Nat
  seq  : Nat
  reqs : List PeerReq
deriving DecidableEq, Repr

/-- Every instruction, operation and event of the part. -/
inductive Instr where
  /-- Lane 32-bit add, wrapping modulo 2^32. (R86) -/
  | add (d : LDst) (a b : LSrc) (n : Bool) (g : Nat)
  /-- Lane 32-bit subtract, wrapping. (R86) -/
  | sub (d : LDst) (a b : LSrc) (n : Bool) (g : Nat)
  /-- Lane signed minimum. (R86) -/
  | minI (d : LDst) (a b : LSrc) (n : Bool) (g : Nat)
  /-- Lane signed maximum. (R86) -/
  | maxI (d : LDst) (a b : LSrc) (n : Bool) (g : Nat)
  /-- Lane natural minimum. (R86) -/
  | minN (d : LDst) (a b : LSrc) (n : Bool) (g : Nat)
  /-- Lane natural maximum. (R86) -/
  | maxN (d : LDst) (a b : LSrc) (n : Bool) (g : Nat)
  /-- Lane signed absolute value, wrapping at 0x8000_0000. (R86) -/
  | abs (d : LDst) (a : LSrc) (n : Bool) (g : Nat)
  /-- Lane negation, wrapping. (R86) -/
  | neg (d : LDst) (a : LSrc) (n : Bool) (g : Nat)
  /-- Lane bitwise AND. (R87) -/
  | and (d : LDst) (a b : LSrc) (n : Bool) (g : Nat)
  /-- Lane bitwise OR. (R87) -/
  | or (d : LDst) (a b : LSrc) (n : Bool) (g : Nat)
  /-- Lane bitwise XOR. (R87) -/
  | xor (d : LDst) (a b : LSrc) (n : Bool) (g : Nat)
  /-- Lane AND with complement of b. (R87) -/
  | andn (d : LDst) (a b : LSrc) (n : Bool) (g : Nat)
  /-- Lane left shift; amounts of 32 or more give 0. (R87) -/
  | shl (d : LDst) (a b : LSrc) (n : Bool) (g : Nat)
  /-- Lane logical right shift. (R87) -/
  | shr (d : LDst) (a b : LSrc) (n : Bool) (g : Nat)
  /-- Lane arithmetic right shift. (R87) -/
  | sar (d : LDst) (a b : LSrc) (n : Bool) (g : Nat)
  /-- Lane rotate left by b[4:0]. (R87) -/
  | rol (d : LDst) (a b : LSrc) (n : Bool) (g : Nat)
  /-- Lane low 32 bits of product. (R88) -/
  | mul (d : LDst) (a b : LSrc) (n : Bool) (g : Nat)
  /-- Lane high 32 bits of signed product. (R88) -/
  | mulhI (d : LDst) (a b : LSrc) (n : Bool) (g : Nat)
  /-- Lane high 32 bits of natural product. (R88) -/
  | mulhN (d : LDst) (a b : LSrc) (n : Bool) (g : Nat)
  /-- Lane multiply-add into the destination. (R88) -/
  | mad (d : LDst) (a b : LSrc) (n : Bool) (g : Nat)
  /-- Lane signed division, never trapping. (R88) -/
  | divI (d : LDst) (a b : LSrc) (n : Bool) (g : Nat)
  /-- Lane natural division, never trapping. (R88) -/
  | divN (d : LDst) (a b : LSrc) (n : Bool) (g : Nat)
  /-- Lane signed remainder. (R88) -/
  | remI (d : LDst) (a b : LSrc) (n : Bool) (g : Nat)
  /-- Lane natural remainder. (R88) -/
  | remN (d : LDst) (a b : LSrc) (n : Bool) (g : Nat)
  /-- Lane count of leading zeros. (R89) -/
  | clz (d : LDst) (a : LSrc) (n : Bool) (g : Nat)
  /-- Lane population count. (R89) -/
  | popc (d : LDst) (a : LSrc) (n : Bool) (g : Nat)
  /-- Lane bit reversal. (R89) -/
  | brev (d : LDst) (a : LSrc) (n : Bool) (g : Nat)
  /-- Lane signed bit-field extract. (R89) -/
  | bfeI (d : LDst) (a b : LSrc) (n : Bool) (g : Nat)
  /-- Lane unsigned bit-field extract. (R89) -/
  | bfeN (d : LDst) (a b : LSrc) (n : Bool) (g : Nat)
  /-- Lane bit-field insert into the old destination. (R89) -/
  | bfi (d : LDst) (a b : LSrc) (n : Bool) (g : Nat)
  /-- Lane byte selection from a and old destination. (R89) -/
  | bmix (d : LDst) (a b : LSrc) (n : Bool) (g : Nat)
  /-- Lane sign extension from bit b[4:0]. (R89) -/
  | sext (d : LDst) (a b : LSrc) (n : Bool) (g : Nat)
  /-- Lane compare equal into a predicate. (R90) -/
  | eq (d : Nat) (a b : LSrc) (g : Nat)
  /-- Lane compare not equal into a predicate. (R90) -/
  | ne (d : Nat) (a b : LSrc) (g : Nat)
  /-- Lane signed less-than compare. (R90) -/
  | ltI (d : Nat) (a b : LSrc) (g : Nat)
  /-- Lane signed less-or-equal compare. (R90) -/
  | leI (d : Nat) (a b : LSrc) (g : Nat)
  /-- Lane natural less-than compare. (R90) -/
  | ltN (d : Nat) (a b : LSrc) (g : Nat)
  /-- Lane natural less-or-equal compare. (R90) -/
  | leN (d : Nat) (a b : LSrc) (g : Nat)
  /-- Lane test of (a AND b) not zero. (R90) -/
  | tst (d : Nat) (a b : LSrc) (g : Nat)
  /-- Predicate AND. (R91) -/
  | pand (d a b g : Nat)
  /-- Predicate OR. (R91) -/
  | por (d a b g : Nat)
  /-- Predicate XOR. (R91) -/
  | pxor (d a b g : Nat)
  /-- Predicate AND NOT. (R91) -/
  | pandn (d a b g : Nat)
  /-- Predicate complement. (R91) -/
  | pnot (d a g : Nat)
  /-- Predicate to lane register 0 or 1. (R91) -/
  | ptov (d : LDst) (a : Nat) (n : Bool) (g : Nat)
  /-- Lane register non-zero to predicate. (R91) -/
  | vtop (d : Nat) (a : LSrc) (g : Nat)
  /-- Lane move. (R92) -/
  | mov (d : LDst) (a : LSrc) (n : Bool) (g : Nat)
  /-- Lane select by a predicate named in the g field. (R92) -/
  | sel (d : LDst) (a b : LSrc) (n : Bool) (p : Nat)
  /-- Low 32 bits of a uniform register to each lane. (R92) -/
  | movs (d : LDst) (a : USrc) (n : Bool) (g : Nat)
  /-- High 32 bits of a uniform register to each lane. (R92) -/
  | movu (d : LDst) (a : USrc) (n : Bool) (g : Nat)
  /-- Lane 64-bit pair add. (R92) -/
  | add64 (d : LDst) (a b : LSrc) (n : Bool) (g : Nat)
  /-- Lane 64-bit pair subtract. (R92) -/
  | sub64 (d : LDst) (a b : LSrc) (n : Bool) (g : Nat)
  /-- Lane 64-bit left shift. (R92) -/
  | shl64 (d : LDst) (a b : LSrc) (n : Bool) (g : Nat)
  /-- Lane 64-bit address plus sign-extended offset. (R92) -/
  | lea (d : LDst) (a b : LSrc) (n : Bool) (g : Nat)
  /-- Lane add signed immediate. (R93) -/
  | addi (d : LDst) (a : LSrc) (i : BitVec 13)
  /-- Lane AND natural immediate. (R93) -/
  | andi (d : LDst) (a : LSrc) (i : BitVec 13)
  /-- Lane OR natural immediate. (R93) -/
  | ori (d : LDst) (a : LSrc) (i : BitVec 13)
  /-- Lane XOR natural immediate. (R93) -/
  | xori (d : LDst) (a : LSrc) (i : BitVec 13)
  /-- Lane left shift by immediate amount. (R93) -/
  | shiShl (d : LDst) (a : LSrc) (s : Nat)
  /-- Lane logical right shift by immediate. (R93) -/
  | shiShr (d : LDst) (a : LSrc) (s : Nat)
  /-- Lane arithmetic right shift by immediate. (R93) -/
  | shiSar (d : LDst) (a : LSrc) (s : Nat)
  /-- Lane rotate left by immediate. (R93) -/
  | shiRol (d : LDst) (a : LSrc) (s : Nat)
  /-- Lane compare equal with imm10 into a predicate. (R93) -/
  | cmpiEq (d : Nat) (a : LSrc) (i : BitVec 10)
  /-- Lane compare not equal with imm10. (R93) -/
  | cmpiNe (d : Nat) (a : LSrc) (i : BitVec 10)
  /-- Lane signed less-than with imm10. (R93) -/
  | cmpiLtI (d : Nat) (a : LSrc) (i : BitVec 10)
  /-- Lane signed less-or-equal with imm10. (R93) -/
  | cmpiLeI (d : Nat) (a : LSrc) (i : BitVec 10)
  /-- Lane natural less-than with imm10. (R93) -/
  | cmpiLtN (d : Nat) (a : LSrc) (i : BitVec 10)
  /-- Lane natural less-or-equal with imm10. (R93) -/
  | cmpiLeN (d : Nat) (a : LSrc) (i : BitVec 10)
  /-- Lane test against imm10. (R93) -/
  | cmpiTst (d : Nat) (a : LSrc) (i : BitVec 10)
  /-- Lane move signed immediate. (R93) -/
  | movi (d : LDst) (i : BitVec 13)
  /-- Lane 64-bit address plus immediate. (R93) -/
  | leai (d : LDst) (a : LSrc) (i : BitVec 13)
  /-- FP32 add, RNE. (R119) -/
  | fadd (d : LDst) (a b : LSrc) (n : Bool) (g : Nat)
  /-- FP32 subtract. (R119) -/
  | fsub (d : LDst) (a b : LSrc) (n : Bool) (g : Nat)
  /-- FP32 multiply. (R119) -/
  | fmul (d : LDst) (a b : LSrc) (n : Bool) (g : Nat)
  /-- FP32 fused multiply-add into the destination. (R119) -/
  | ffma (d : LDst) (a b : LSrc) (n : Bool) (g : Nat)
  /-- FP32 minimum with NaN handling. (R119) -/
  | fmin (d : LDst) (a b : LSrc) (n : Bool) (g : Nat)
  /-- FP32 maximum with NaN handling. (R119) -/
  | fmax (d : LDst) (a b : LSrc) (n : Bool) (g : Nat)
  /-- FP32 negated fused multiply-add. (R119) -/
  | fnma (d : LDst) (a b : LSrc) (n : Bool) (g : Nat)
  /-- FP32 correctly rounded divide. (R119) -/
  | fdiv (d : LDst) (a b : LSrc) (n : Bool) (g : Nat)
  /-- FP32 compare equal into a predicate. (R120) -/
  | fcmpEq (d : Nat) (a b : LSrc) (g : Nat)
  /-- FP32 compare not equal. (R120) -/
  | fcmpNe (d : Nat) (a b : LSrc) (g : Nat)
  /-- FP32 compare less-than. (R120) -/
  | fcmpLt (d : Nat) (a b : LSrc) (g : Nat)
  /-- FP32 compare less-or-equal. (R120) -/
  | fcmpLe (d : Nat) (a b : LSrc) (g : Nat)
  /-- FP32 unordered test. (R120) -/
  | fcmpUn (d : Nat) (a b : LSrc) (g : Nat)
  /-- FP32 strict total-order compare. (R120) -/
  | fcmpTolt (d : Nat) (a b : LSrc) (g : Nat)
  /-- FP32 total-order less-or-equal. (R120) -/
  | fcmpTole (d : Nat) (a b : LSrc) (g : Nat)
  /-- FP32 class test against a mask. (R120) -/
  | fcmpClass (d : Nat) (a b : LSrc) (g : Nat)
  /-- FP64 add. (R121) -/
  | dadd (d : LDst) (a b : LSrc) (n : Bool) (g : Nat)
  /-- FP64 subtract. (R121) -/
  | dsub (d : LDst) (a b : LSrc) (n : Bool) (g : Nat)
  /-- FP64 multiply. (R121) -/
  | dmul (d : LDst) (a b : LSrc) (n : Bool) (g : Nat)
  /-- FP64 fused multiply-add. (R121) -/
  | dfma (d : LDst) (a b : LSrc) (n : Bool) (g : Nat)
  /-- FP64 minimum. (R121) -/
  | dmin (d : LDst) (a b : LSrc) (n : Bool) (g : Nat)
  /-- FP64 maximum. (R121) -/
  | dmax (d : LDst) (a b : LSrc) (n : Bool) (g : Nat)
  /-- FP64 divide. (R121) -/
  | ddiv (d : LDst) (a b : LSrc) (n : Bool) (g : Nat)
  /-- FP64 square root. (R121) -/
  | dsqrt (d : LDst) (a : LSrc) (n : Bool) (g : Nat)
  /-- Packed FP16 add. (R122) -/
  | haddF16 (d : LDst) (a b : LSrc) (n : Bool) (g : Nat)
  /-- Packed FP16 multiply. (R122) -/
  | hmulF16 (d : LDst) (a b : LSrc) (n : Bool) (g : Nat)
  /-- Packed FP16 fused multiply-add. (R122) -/
  | hfmaF16 (d : LDst) (a b : LSrc) (n : Bool) (g : Nat)
  /-- Packed BF16 add. (R122) -/
  | haddBf16 (d : LDst) (a b : LSrc) (n : Bool) (g : Nat)
  /-- Packed BF16 multiply. (R122) -/
  | hmulBf16 (d : LDst) (a b : LSrc) (n : Bool) (g : Nat)
  /-- Packed BF16 fused multiply-add. (R122) -/
  | hfmaBf16 (d : LDst) (a b : LSrc) (n : Bool) (g : Nat)
  /-- Per-half total-order minimum. (R122) -/
  | hmin (d : LDst) (a b : LSrc) (n : Bool) (g : Nat)
  /-- Per-half total-order maximum. (R122) -/
  | hmax (d : LDst) (a b : LSrc) (n : Bool) (g : Nat)
  /-- FP32 to clamped .i32 with rounding code in b. (R123) -/
  | cvtI32F32 (d : LDst) (a : LSrc) (r : Nat) (n : Bool) (g : Nat)
  /-- FP32 to clamped .n32. (R123) -/
  | cvtN32F32 (d : LDst) (a : LSrc) (r : Nat) (n : Bool) (g : Nat)
  /-- .i32 to FP32. (R123) -/
  | cvtF32I32 (d : LDst) (a : LSrc) (r : Nat) (n : Bool) (g : Nat)
  /-- .n32 to FP32. (R123) -/
  | cvtF32N32 (d : LDst) (a : LSrc) (r : Nat) (n : Bool) (g : Nat)
  /-- FP32 to BF16 under cvm. (R123) -/
  | cvtBf16F32 (d : LDst) (a : LSrc) (n : Bool) (g : Nat)
  /-- FP32 to FP16 under cvm. (R123) -/
  | cvtF16F32 (d : LDst) (a : LSrc) (n : Bool) (g : Nat)
  /-- Exact BF16 to FP32 widening. (R123) -/
  | cvtF32Bf16 (d : LDst) (a : LSrc) (n : Bool) (g : Nat)
  /-- Exact FP16 to FP32 widening. (R123) -/
  | cvtF32F16 (d : LDst) (a : LSrc) (n : Bool) (g : Nat)
  /-- FP32 to E4M3 under cvm. (R124) -/
  | cvtE4m3F32 (d : LDst) (a : LSrc) (n : Bool) (g : Nat)
  /-- FP32 to E5M2 under cvm. (R124) -/
  | cvtE5m2F32 (d : LDst) (a : LSrc) (n : Bool) (g : Nat)
  /-- FP32 to sign-extended I8 under cvm. (R124) -/
  | cvtI8F32 (d : LDst) (a : LSrc) (n : Bool) (g : Nat)
  /-- .i32 to I8, wrap or clamp by cvm. (R124) -/
  | cvtI8I32 (d : LDst) (a : LSrc) (n : Bool) (g : Nat)
  /-- FP32 to sign-extended I16 under cvm. (R124) -/
  | cvtI16F32 (d : LDst) (a : LSrc) (n : Bool) (g : Nat)
  /-- .i32 to I16, wrap or clamp by cvm. (R124) -/
  | cvtI16I32 (d : LDst) (a : LSrc) (n : Bool) (g : Nat)
  /-- Exact E4M3 to FP32 widening. (R124) -/
  | cvtF32E4m3 (d : LDst) (a : LSrc) (n : Bool) (g : Nat)
  /-- Exact E5M2 to FP32 widening. (R124) -/
  | cvtF32E5m2 (d : LDst) (a : LSrc) (n : Bool) (g : Nat)
  /-- FP32 to BF16 with stochastic rounding. (R124) -/
  | cvtBf16F32Sr (d : LDst) (a : LSrc) (n : Bool) (g : Nat)
  /-- FP32 to E4M3 with stochastic rounding. (R124) -/
  | cvtE4m3F32Sr (d : LDst) (a : LSrc) (n : Bool) (g : Nat)
  /-- Packs one F4B block from 16 lanes' FP32 values. (R126) -/
  | packF4b (d : LDst) (a : LSrc) (n : Bool) (g : Nat)
  /-- Decodes one F4B element to FP32. (R127) -/
  | unpkF4b (d : LDst) (a b : LSrc) (n : Bool) (g : Nat)
  /-- Rewrites an F4B block scale by 2^k. (R128) -/
  | scaleF4b (d : LDst) (a b : LSrc) (n : Bool) (g : Nat)
  /-- Scale word for re-blocked MXFP4 data. (R129) -/
  | mx2f4b (d : LDst) (a : LSrc) (n : Bool) (g : Nat)
  /-- Correctly rounded FP32 reciprocal. (R130) -/
  | rcp (d : LDst) (a : LSrc) (n : Bool) (g : Nat)
  /-- Correctly rounded reciprocal square root. (R130) -/
  | rsq (d : LDst) (a : LSrc) (n : Bool) (g : Nat)
  /-- Correctly rounded square root. (R130) -/
  | sqrt (d : LDst) (a : LSrc) (n : Bool) (g : Nat)
  /-- Correctly rounded 2^a. (R130) -/
  | exp2 (d : LDst) (a : LSrc) (n : Bool) (g : Nat)
  /-- Correctly rounded log2. (R130) -/
  | log2 (d : LDst) (a : LSrc) (n : Bool) (g : Nat)
  /-- Correctly rounded sine. (R130) -/
  | sin (d : LDst) (a : LSrc) (n : Bool) (g : Nat)
  /-- Correctly rounded cosine. (R130) -/
  | cos (d : LDst) (a : LSrc) (n : Bool) (g : Nat)
  /-- Correctly rounded hyperbolic tangent. (R130) -/
  | tanh (d : LDst) (a : LSrc) (n : Bool) (g : Nat)
  /-- Rounds FP32 to an integral value by a mode in b. (R131) -/
  | frnd (d : LDst) (a : LSrc) (r : Nat) (n : Bool) (g : Nat)
  /-- Builds a 30-bit Morton key from a coordinate quad. (R132) -/
  | key3 (d : LDst) (a : LSrc) (n : Bool) (g : Nat)
  /-- Draws one value from the lane's lrng. (R133) -/
  | rng (d : LDst) (n : Bool) (g : Nat)
  /-- Seeds lrng from a plus lid times a constant. (R133) -/
  | seed (a : LSrc) (g : Nat)
  /-- FP32 multiply by 2^k. (R134) -/
  | fscale (d : LDst) (a b : LSrc) (n : Bool) (g : Nat)
  /-- Unbiased exponent of an FP32 value. (R134) -/
  | fexp (d : LDst) (a : LSrc) (n : Bool) (g : Nat)
  /-- Global load per active lane, plain or acquire. (R100) -/
  | ldg (d : LDst) (a : LSrc) (m : Addr) (z g : Nat)
  /-- Global store per active lane, plain or release. (R101) -/
  | stg (d a : LSrc) (m : Addr) (z g : Nat)
  /-- Scratch load. (R233) -/
  | lds (d : LDst) (a : LSrc) (m : Addr) (z g : Nat)
  /-- Scratch store. (R233) -/
  | sts (d a : LSrc) (m : Addr) (z g : Nat)
  /-- Deck load. (R233) -/
  | ldk (d : LDst) (a : LSrc) (m : Addr) (z g : Nat)
  /-- Deck store. (R233) -/
  | stk (d a : LSrc) (m : Addr) (z g : Nat)
  /-- X-buffer store. (R233) -/
  | stx (d a : LSrc) (m : Addr) (z g : Nat)
  /-- Polling load at the home L2 that demotes the lane. (R237) -/
  | ldp (d : LDst) (a : LSrc) (m : Addr) (z g : Nat)
  /-- 32-bit global atomic add. (R240) -/
  | atomgAdd (d : LDst) (a b : LSrc) (r : Bool) (g : Nat)
  /-- 32-bit global atomic signed min. (R240) -/
  | atomgMinI (d : LDst) (a b : LSrc) (r : Bool) (g : Nat)
  /-- 32-bit global atomic signed max. (R240) -/
  | atomgMaxI (d : LDst) (a b : LSrc) (r : Bool) (g : Nat)
  /-- 32-bit global atomic AND. (R240) -/
  | atomgAnd (d : LDst) (a b : LSrc) (r : Bool) (g : Nat)
  /-- 32-bit global atomic OR. (R240) -/
  | atomgOr (d : LDst) (a b : LSrc) (r : Bool) (g : Nat)
  /-- 32-bit global atomic XOR. (R240) -/
  | atomgXor (d : LDst) (a b : LSrc) (r : Bool) (g : Nat)
  /-- 32-bit global atomic exchange. (R240) -/
  | atomgExch (d : LDst) (a b : LSrc) (r : Bool) (g : Nat)
  /-- 32-bit global compare-and-swap; failure demotes. (R240) -/
  | atomgCas (d : LDst) (a : LSrc) (b : Nat) (r : Bool) (g : Nat)
  /-- 64-bit global atomic add. (R240) -/
  | atomgAddB64 (d : LDst) (a b : LSrc) (r : Bool) (g : Nat)
  /-- 64-bit global atomic signed min. (R240) -/
  | atomgMinIB64 (d : LDst) (a b : LSrc) (r : Bool) (g : Nat)
  /-- 64-bit global atomic signed max. (R240) -/
  | atomgMaxIB64 (d : LDst) (a b : LSrc) (r : Bool) (g : Nat)
  /-- 64-bit global atomic AND. (R240) -/
  | atomgAndB64 (d : LDst) (a b : LSrc) (r : Bool) (g : Nat)
  /-- 64-bit global atomic OR. (R240) -/
  | atomgOrB64 (d : LDst) (a b : LSrc) (r : Bool) (g : Nat)
  /-- 64-bit global atomic XOR. (R240) -/
  | atomgXorB64 (d : LDst) (a b : LSrc) (r : Bool) (g : Nat)
  /-- 64-bit global atomic exchange. (R240) -/
  | atomgExchB64 (d : LDst) (a b : LSrc) (r : Bool) (g : Nat)
  /-- 64-bit global compare-and-swap. (R240) -/
  | atomgCasB64 (d : LDst) (a : LSrc) (b : Nat) (r : Bool) (g : Nat)
  /-- Bounded global increment. (R241) -/
  | atomgIncb (d : LDst) (a b : LSrc) (r : Bool) (g : Nat)
  /-- Bounded global decrement. (R241) -/
  | atomgDecb (d : LDst) (a b : LSrc) (r : Bool) (g : Nat)
  /-- Global FP32 atomic add. (R241) -/
  | atomgFadd (d : LDst) (a b : LSrc) (r : Bool) (g : Nat)
  /-- Global FP32 atomic min. (R241) -/
  | atomgFmin (d : LDst) (a b : LSrc) (r : Bool) (g : Nat)
  /-- Global FP32 atomic max. (R241) -/
  | atomgFmax (d : LDst) (a b : LSrc) (r : Bool) (g : Nat)
  /-- Global natural atomic min. (R241) -/
  | atomgMinN (d : LDst) (a b : LSrc) (r : Bool) (g : Nat)
  /-- Global natural atomic max. (R241) -/
  | atomgMaxN (d : LDst) (a b : LSrc) (r : Bool) (g : Nat)
  /-- Scratch or deck atomic add. (R242) -/
  | atomsAdd (d : LDst) (a b : LSrc) (g : Nat)
  /-- Local atomic signed min. (R242) -/
  | atomsMinI (d : LDst) (a b : LSrc) (g : Nat)
  /-- Local atomic signed max. (R242) -/
  | atomsMaxI (d : LDst) (a b : LSrc) (g : Nat)
  /-- Local atomic AND. (R242) -/
  | atomsAnd (d : LDst) (a b : LSrc) (g : Nat)
  /-- Local atomic OR. (R242) -/
  | atomsOr (d : LDst) (a b : LSrc) (g : Nat)
  /-- Local atomic exchange. (R242) -/
  | atomsExch (d : LDst) (a b : LSrc) (g : Nat)
  /-- Local compare-and-swap. (R242) -/
  | atomsCas (d : LDst) (a : LSrc) (b g : Nat)
  /-- Local bounded increment. (R242) -/
  | atomsIncb (d : LDst) (a b : LSrc) (g : Nat)
  /-- Indexed read from a partition member. (R167) -/
  | xidx (d : LDst) (a b : LSrc) (n : Bool) (x : Nat)
  /-- Exchange between XOR-paired ranks. (R167) -/
  | xxor (d : LDst) (a b : LSrc) (n : Bool) (x : Nat)
  /-- Rotating read within a partition. (R167) -/
  | xrot (d : LDst) (a b : LSrc) (n : Bool) (x : Nat)
  /-- Shifting read without wrap. (R167) -/
  | xshift (d : LDst) (a b : LSrc) (n : Bool) (x : Nat)
  /-- Read from the group member with a given lid. (R167) -/
  | xlid (d : LDst) (a b : LSrc) (n : Bool)
  /-- Predicate true in any contributor. (R168) -/
  | pany (d a x : Nat)
  /-- Predicate true in every contributor. (R168) -/
  | pall (d a x : Nat)
  /-- Rank mask of contributors with a true predicate. (R168) -/
  | pmask (d : LDst) (a : Nat) (n : Bool) (x : Nat)
  /-- Mask of contributors with an equal value. (R169) -/
  | matchEq (d : LDst) (a : LSrc) (n : Bool) (x : Nat)
  /-- Compacts values of predicate-true contributors by rank. (R169) -/
  | compact (d : LDst) (a : LSrc) (b : Nat) (n : Bool) (x : Nat)
  /-- Integer sum over contributors. (R170) -/
  | redAdd (d : LDst) (a : LSrc) (n : Bool) (x : Nat)
  /-- Exact FP32 sum over contributors. (R170) -/
  | redFadd (d : LDst) (a : LSrc) (n : Bool) (x : Nat)
  /-- Signed minimum over contributors. (R170) -/
  | redMinI (d : LDst) (a : LSrc) (n : Bool) (x : Nat)
  /-- Natural minimum over contributors. (R170) -/
  | redMinN (d : LDst) (a : LSrc) (n : Bool) (x : Nat)
  /-- Total-order minimum over contributors. (R170) -/
  | redMinF (d : LDst) (a : LSrc) (n : Bool) (x : Nat)
  /-- Signed maximum over contributors. (R170) -/
  | redMaxI (d : LDst) (a : LSrc) (n : Bool) (x : Nat)
  /-- Natural maximum over contributors. (R170) -/
  | redMaxN (d : LDst) (a : LSrc) (n : Bool) (x : Nat)
  /-- Total-order maximum over contributors. (R170) -/
  | redMaxF (d : LDst) (a : LSrc) (n : Bool) (x : Nat)
  /-- Exclusive running sum by rank. (R170) -/
  | scanAdd (d : LDst) (a : LSrc) (n : Bool) (x : Nat)
  /-- Rank of the lane within a mask. (R169) -/
  | mrank (d : LDst) (a : LSrc) (n : Bool) (x : Nat)
  /-- Reads a word of a gather-area slot. (R165) -/
  | garg (d : LDst) (a b : LSrc) (n : Bool) (x : Nat)
  /-- Writes a word of a gather-area slot. (R165) -/
  | gres (d a b : LSrc) (x : Nat)
  /-- Each active lane pushes a 32-byte stage record to a record queue. (R308) -/
  | rpush (d : Nat) (a : LSrc) (g : Nat)
  /-- Per-lane indirect jump with optional link pair. (R106) -/
  | jml (d : LDst) (a : LSrc) (g : Nat)
  /-- Group-wide 16x16 BF16 fragment multiply-accumulate. (R180) -/
  | mfragBf16 (d a b : Nat) (u c : Bool) (g : Nat)
  /-- FP16 fragment multiply-accumulate. (R180) -/
  | mfragF16 (d a b : Nat) (u c : Bool) (g : Nat)
  /-- E4M3 fragment multiply-accumulate. (R180) -/
  | mfragE4m3 (d a b : Nat) (u c : Bool) (g : Nat)
  /-- E5M2 fragment multiply-accumulate. (R180) -/
  | mfragE5m2 (d a b : Nat) (u c : Bool) (g : Nat)
  /-- F4B fragment multiply-accumulate with scale sharing. (R180) -/
  | mfragF4b (d a b : Nat) (u : Bool) (s : Nat) (c : Bool) (g : Nat)
  /-- I8 fragment multiply-accumulate into .i32. (R180) -/
  | mfragI8 (d a b : Nat) (u c : Bool) (g : Nat)
  /-- Per-lane conditional branch on a predicate. (R104) -/
  | brl (p : Nat) (s : Bool) (o : BitVec 18)
  /-- Uniform 64-bit add. (R94) -/
  | uAdd (d : UDst) (a b : USrc) (n : Bool) (k : Nat)
  /-- Uniform 64-bit subtract. (R94) -/
  | uSub (d : UDst) (a b : USrc) (n : Bool) (k : Nat)
  /-- Uniform signed minimum. (R94) -/
  | uMinI (d : UDst) (a b : USrc) (n : Bool) (k : Nat)
  /-- Uniform signed maximum. (R94) -/
  | uMaxI (d : UDst) (a b : USrc) (n : Bool) (k : Nat)
  /-- Uniform natural minimum. (R94) -/
  | uMinN (d : UDst) (a b : USrc) (n : Bool) (k : Nat)
  /-- Uniform natural maximum. (R94) -/
  | uMaxN (d : UDst) (a b : USrc) (n : Bool) (k : Nat)
  /-- Uniform 64-bit multiply. (R94) -/
  | uMul (d : UDst) (a b : USrc) (n : Bool) (k : Nat)
  /-- Uniform high 64 bits of natural product. (R94) -/
  | uMulhN (d : UDst) (a b : USrc) (n : Bool) (k : Nat)
  /-- Uniform AND. (R94) -/
  | uAnd (d : UDst) (a b : USrc) (n : Bool) (k : Nat)
  /-- Uniform OR. (R94) -/
  | uOr (d : UDst) (a b : USrc) (n : Bool) (k : Nat)
  /-- Uniform XOR. (R94) -/
  | uXor (d : UDst) (a b : USrc) (n : Bool) (k : Nat)
  /-- Uniform AND NOT. (R94) -/
  | uAndn (d : UDst) (a b : USrc) (n : Bool) (k : Nat)
  /-- Uniform left shift. (R94) -/
  | uShl (d : UDst) (a b : USrc) (n : Bool) (k : Nat)
  /-- Uniform logical right shift. (R94) -/
  | uShr (d : UDst) (a b : USrc) (n : Bool) (k : Nat)
  /-- Uniform arithmetic right shift. (R94) -/
  | uSar (d : UDst) (a b : USrc) (n : Bool) (k : Nat)
  /-- Uniform count of leading zeros. (R94) -/
  | uClz (d : UDst) (a : USrc) (n : Bool) (k : Nat)
  /-- Uniform compare equal into a k predicate. (R95) -/
  | uEq (d : Nat) (a b : USrc) (k : Nat)
  /-- Uniform compare not equal. (R95) -/
  | uNe (d : Nat) (a b : USrc) (k : Nat)
  /-- Uniform signed less-than. (R95) -/
  | uLtI (d : Nat) (a b : USrc) (k : Nat)
  /-- Uniform signed less-or-equal. (R95) -/
  | uLeI (d : Nat) (a b : USrc) (k : Nat)
  /-- Uniform natural less-than. (R95) -/
  | uLtN (d : Nat) (a b : USrc) (k : Nat)
  /-- Uniform natural less-or-equal. (R95) -/
  | uLeN (d : Nat) (a b : USrc) (k : Nat)
  /-- Uniform bit test. (R95) -/
  | uTst (d : Nat) (a b : USrc) (k : Nat)
  /-- Uniform move. (R96) -/
  | uMov (d : UDst) (a : USrc) (n : Bool) (k : Nat)
  /-- Uniform select by a k predicate named in g. (R96) -/
  | uSel (d : UDst) (a b : USrc) (n : Bool) (c : Nat)
  /-- Uniform sign extension of the low 32 bits. (R96) -/
  | uMovs (d : UDst) (a : USrc) (n : Bool) (k : Nat)
  /-- k-predicate AND. (R96) -/
  | kopAnd (d a s k : Nat)
  /-- k-predicate OR. (R96) -/
  | kopOr (d a s k : Nat)
  /-- k-predicate XOR. (R96) -/
  | kopXor (d a s k : Nat)
  /-- k-predicate AND NOT. (R96) -/
  | kopAndn (d a s k : Nat)
  /-- k-predicate complement. (R96) -/
  | kopNot (d a k : Nat)
  /-- Lane value of the lowest issuing lane to a uniform register. (R96) -/
  | vtos (d : UDst) (a : LSrc) (n : Bool) (k : Nat)
  /-- Uniform population count. (R96) -/
  | uPopc (d : UDst) (a : USrc) (n : Bool) (k : Nat)
  /-- Uniform natural division. (R96) -/
  | uDivN (d : UDst) (a b : USrc) (n : Bool) (k : Nat)
  /-- Return: same-width, widened, serial or gather return by the s55 token. (R164) -/
  | ret (k : Nat)
  /-- Same-width indirect call through a uniform operand. (R14) -/
  | calli (a : USrc) (k : Nat)
  /-- Uniform add signed immediate. (R97) -/
  | saddi (d : UDst) (a : USrc) (i : BitVec 13)
  /-- Uniform AND zero-extended immediate. (R97) -/
  | sandi (d : UDst) (a : USrc) (i : BitVec 13)
  /-- Uniform OR zero-extended immediate. (R97) -/
  | sori (d : UDst) (a : USrc) (i : BitVec 13)
  /-- Uniform left shift by immediate. (R97) -/
  | sshiShl (d : UDst) (a : USrc) (s : Nat)
  /-- Uniform logical right shift by immediate. (R97) -/
  | sshiShr (d : UDst) (a : USrc) (s : Nat)
  /-- Uniform arithmetic right shift by immediate. (R97) -/
  | sshiSar (d : UDst) (a : USrc) (s : Nat)
  /-- Uniform compare equal with imm10. (R97) -/
  | scmpiEq (d : Nat) (a : USrc) (i : BitVec 10)
  /-- Uniform compare not equal with imm10. (R97) -/
  | scmpiNe (d : Nat) (a : USrc) (i : BitVec 10)
  /-- Uniform signed less-than with imm10. (R97) -/
  | scmpiLtI (d : Nat) (a : USrc) (i : BitVec 10)
  /-- Uniform signed less-or-equal with imm10. (R97) -/
  | scmpiLeI (d : Nat) (a : USrc) (i : BitVec 10)
  /-- Uniform natural less-than with imm10. (R97) -/
  | scmpiLtN (d : Nat) (a : USrc) (i : BitVec 10)
  /-- Uniform natural less-or-equal with imm10. (R97) -/
  | scmpiLeN (d : Nat) (a : USrc) (i : BitVec 10)
  /-- Uniform test against imm10. (R97) -/
  | scmpiTst (d : Nat) (a : USrc) (i : BitVec 10)
  /-- Uniform move signed immediate. (R97) -/
  | smovi (d : UDst) (i : BitVec 13)
  /-- Uniform 64-bit global load. (R103) -/
  | sld (d : UDst) (a : USrc) (i : BitVec 13)
  /-- Uniform 64-bit global store. (R103) -/
  | sst (d a : USrc) (i : BitVec 13)
  /-- Uniform branch on a k predicate. (R105) -/
  | bra (k : Nat) (s : Bool) (o : BitVec 21)
  /-- Same-width call by word offset with header check. (R14) -/
  | call (k : Nat) (s : Bool) (o : BitVec 21)
  /-- Repeat word re-issuing the next instruction with stepped fields. (R51) -/
  | rep (c : Nat) (x y z : Bool)
  /-- Guard word for the next instruction. (R46) -/
  | guard (p : Nat) (n : Bool)
  /-- Function header; executed it only advances vpc. (R13) -/
  | hdr (r : Nat) (c : Bool) (f : Nat) (t : BitVec 16)
  /-- Lands a code segment if needed and jumps into it. (R110) -/
  | jseg (a b : USrc)
  /-- Starts landing a code segment without waiting. (R111) -/
  | cfetch (a b : USrc)
  /-- Widened call running n callee lanes per caller with reductions. (R162) -/
  | widen (a : USrc) (b : LSrc)
  /-- Parks lanes for a gathered single-thread call. (R163) -/
  | gather (a : USrc) (t : Bool)
  /-- Team barrier arrival. (R171) -/
  | barTeam
  /-- Team barrier that ends a phase. (R171) -/
  | barTeamYield
  /-- Cluster barrier arrival. (R171) -/
  | barClus
  /-- Group barrier over a rank mask. (R172) -/
  | barMask (a : USrc)
  /-- Adds the issuing lanes to a rejoin mask. (R144) -/
  | joinEnrol (a : Nat)
  /-- Waits until every lane of a rejoin mask arrives. (R144) -/
  | joinWait (a : Nat)
  /-- Names the lowest issuing lane in a register and predicate. (R175) -/
  | elect (a : UDst) (c : Nat)
  /-- Sets a partition register to the whole group. (R176) -/
  | partitionWhole (a : Nat)
  /-- Partitions into blocks of 4. (R176) -/
  | partitionB4 (a : Nat)
  /-- Partitions into blocks of 8. (R176) -/
  | partitionB8 (a : Nat)
  /-- Partitions into blocks of 16. (R176) -/
  | partitionB16 (a : Nat)
  /-- Partitions by a 32-bit mask into two. (R176) -/
  | partitionMask (a : Nat) (b : USrc)
  /-- Parks and repacks the team's lanes by address. (R177) -/
  | regroup
  /-- Reads the lane map at a position. (R177) -/
  | lmap (a : UDst) (b : USrc)
  /-- No operation. (R115) -/
  | nop
  /-- Every lane of the issuing set exits. (R115) -/
  | exit
  /-- Raises the breakpoint trap. (R115) -/
  | brk
  /-- Raises the software trap with a detail operand. (R340) -/
  | trap (a : USrc)
  /-- Closes the idempotent region. (R340) -/
  | region
  /-- Switches the seat to another ready group. (R115) -/
  | yield
  /-- Invalidates landed code entries over a range. (R112) -/
  | cinv (a b : USrc)
  /-- Invalidates and waits for landings and loop buffers to clear. (R112) -/
  | cinvSync (a b : USrc)
  /-- Copy-engine move of one tensor box. (R293) -/
  | tcopy (a : USrc) (b : Nat) (c : USrc)
  /-- Multicast box copy to cluster columns. (R294) -/
  | tcopym (a : USrc) (b : Nat) (c : USrc)
  /-- Submits a matrix task parameter block. (R298) -/
  | mtask (a : USrc)
  /-- Submits an accumulator drain. (R301) -/
  | drain (a : USrc) (o : Bool)
  /-- Takes the next filled slot of a lane ring. (R297) -/
  | ringAcq (a : UDst) (b : USrc)
  /-- Frees the oldest handed-out ring slot. (R297) -/
  | ringRel (a : USrc)
  /-- Keyed stable sort of scratch pairs. (R304) -/
  | keySort (a : Nat) (b c : USrc) (k : Bool)
  /-- Keyed merge of two streams, optionally combining duplicates. (R304) -/
  | keyMerge (a : Nat) (b c : USrc) (k d : Bool)
  /-- Top-k scores by total order. (R304) -/
  | keyTopk (a : Nat) (b c : USrc)
  /-- Offsets array from sorted keys. (R304) -/
  | keyOffs (a : Nat) (b c : USrc)
  /-- Checks and clamps ragged row pointers. (R304) -/
  | keyCheck (a : Nat) (b c : USrc)
  /-- Batch translation prefill of TLBs. (R305) -/
  | xlatb (a b c : USrc)
  /-- Submits a task record with declared ring inputs to the dependency table. (R303) -/
  | seq (a : USrc)
  /-- Acquire-release fence at a scope. (R243) -/
  | fence (s : Nat)
  /-- Acquire fence at a scope. (R243) -/
  | fenceAcq (s : Nat)
  /-- Release fence at a scope. (R243) -/
  | fenceRel (s : Nat)
  /-- SC fence that drains the core and waits for a stroke tick. (R213) -/
  | fenceSc (s : Nat)
  /-- Waits until a completion-object count reaches a threshold. (R244) -/
  | cwait (a b : USrc)
  /-- Writes a suspension record into a deferred cell. (R246) -/
  | suspend (a : USrc) (b : Nat)
  /-- Data-less trigger of a deferred cell. (R247) -/
  | touch (a : USrc)
  /-- Evaluator writes the cell value and wakes waiters. (R248) -/
  | fulfill (a : USrc) (b : Nat)
  /-- Reads and optionally writes a cell tag. (R249) -/
  | celltag (a b : USrc) (c : UDst)
  /-- Submits a node descriptor and returns a handle or cause. (R309) -/
  | nlaunch (a : UDst) (b : USrc)
  /-- Posts one signal to a node. (R310) -/
  | nsignal (b : USrc)
  /-- Snapshot of a node's state. (R311) -/
  | nqstat (a : UDst) (b : USrc)
  /-- Reads a user-visible control register. (R312) -/
  | mrs (a : MDst) (b : Nat)
  /-- Writes a user-visible control register with its card's checks. (R312) -/
  | msr (a : MSrc) (b : Nat)
  /-- Prefetches or invalidates adapter cache lines. (R306) -/
  | adpf (a b c : USrc)
  /-- Cox reads 8 bytes of a stopped group's debug window. (R348) -/
  | dbgRd (a : UDst) (b c : USrc)
  /-- Cox writes 8 bytes of a stopped group's window. (R348) -/
  | dbgWr (a b c : USrc)
  /-- Saves a team to a context record and frees it. (R351) -/
  | ctxSave (a b : USrc)
  /-- Places a team from a context record. (R351) -/
  | ctxLoad (a : USrc)
  /-- Completes a placement request and releases the team. (R346) -/
  | place (a : USrc)
  /-- Takes the next cox queue entry. (R345) -/
  | evq (a : UDst) (b : USrc)
  /-- Reads a privileged register. (R353) -/
  | pmsrRd (a : UDst) (b : Nat)
  /-- Writes a privileged register without its own row. (R353) -/
  | pmsrWr (a : USrc) (b : Nat)
  /-- Cox lands a segment for a team. (R347) -/
  | cload (a b : USrc)
  /-- Ends a stop by resume, restart, skip or cox return. (R349) -/
  | rte (a b : USrc)
  /-- Ends a team. (R350) -/
  | kill (a : USrc)
  /-- Segment copy done; entry becomes LANDED and waiting fetches proceed. (R113) -/
  | landingComplete (core slot : Nat)
  /-- A trapped group without a report enters the freed cox queue. (R324) -/
  | trapQueueAdmit (core : Nat)
  /-- Parked callers divided into invocations and runs started. (R155) -/
  | gatherFiring (team : Nat)
  /-- Phase record written after engine operations complete; next phase queued. (R284) -/
  | phaseRecordWrite (team : Nat)
  /-- Held events written once the ring has room. (R339) -/
  | eventHoldRelease (die : Nat)
  /-- Evaluator request becomes a pool entry when one is free. (R285) -/
  | evaluatorRequest (die : Nat)
  /-- Parked starters retry as chains and entries free. (R226) -/
  | cellStarterRetry (die : Nat)
  /-- Overflow waiters retry every 1024 clocks. (R228) -/
  | cellWaiterRetry (group : Nat)
  /-- A write to a watched line re-runs the CWAIT loop. (R244) -/
  | cwaitRecheck (group : Nat)
  /-- Watcher without entry re-runs every 1024 clocks. (R244) -/
  | cwaitPoll (group : Nat)
  /-- Posted far atomic performed at its home. (R239) -/
  | postedAtomicPerform (core : Nat)
  /-- Reported fault of a posted atomic parks the lane. (R239) -/
  | postedAtomicFault (core : Nat)
  /-- Stroke counter ticks every 128 reference clocks. (R313) -/
  | strokeTick
  /-- A keel unit takes the next command and reads its operands. (R253) -/
  | engineCommandStart (core id : Nat)
  /-- Command finishes and updates its completion object. (R254) -/
  | commandComplete (core id : Nat)
  /-- Copy engine fills a ring slot once room exists. (R262) -/
  | ringFill (core id : Nat)
  /-- Sparsity entry arrives and a stalled task resumes. (R267) -/
  | sparsityQueueFill (core id : Nat)
  /-- Dependency table issues the oldest ready task. (R263) -/
  | taskIssue (core : Nat)
  /-- Matrix task finishes its k-steps, replays and drain. (R264) -/
  | matrixTaskEnd (core : Nat)
  /-- Adapter cache line filled; pending rows replayed. (R270) -/
  | adapterLineFill (core : Nat)
  /-- Task stops at the k-step producing a NaN; trap delivered. (R273) -/
  | matrixNanTrap (core : Nat)
  /-- Partial tile added at a target slot. (R220) -/
  | drainAddition (core : Nat)
  /-- Signal counted; node becomes ready at npred. (R278) -/
  | nodeSignal (handle : BitVec 32)
  /-- Boathouse places the highest fitting team. (R283) -/
  | placementDecision (die : Nat)
  /-- Team's groups released after landing. (R279) -/
  | teamStart (team : Nat)
  /-- Effective priority rises every 16384 strokes waited. (R283) -/
  | priorityAging (die : Nat)
  /-- Entry at priority 7 for 16384 strokes reserves cores. (R283) -/
  | reservation (die : Nat)
  /-- Arbiter hands one cluster to a requesting die. (R286) -/
  | packageArbiterHandout
  /-- Records join the open tile, closing it when full or flushed. (R281) -/
  | recordArrival (die queue : Nat)
  /-- Open tile closes at the timer's stroke tick. (R282) -/
  | flushTimerExpiry (die queue : Nat)
  /-- Slipway items return in order as space frees. (R287) -/
  | slipwayReturn (die : Nat)
  /-- Team ends once lanes exited and commands completed. (R337) -/
  | teamEnd (team : Nat)
  /-- New bank-role entry applied 64 clocks after the last old team exits. (R192) -/
  | menuEntryApply (core entry : Nat)
  /-- Enables the listed rings after in-flight ring commands complete. (R296) -/
  | ringtabWrite (group : Nat)
  /-- Invalidates one page's translations package-wide. (R354) -/
  | tlbinvPage (asid page : Nat)
  /-- Invalidates one address space's translations. (R354) -/
  | tlbinvAsid (asid : Nat)
  /-- Invalidates every translation. (R354) -/
  | tlbinvAll
  /-- Adds a core to the die's vacate set. (R353) -/
  | vacsetAdd (die core : Nat)
  /-- Empties the vacate set. (R353) -/
  | vacsetEmpty (die : Nat)
  /-- Starts a vacate of the set. (R334) -/
  | vacgo (die : Nat) (cobj : BitVec 64)
  /-- Groups still issuing at 8.2 us are hard-stopped. (R334) -/
  | vacateHardStop (die : Nat)
  /-- Context records written, cores freed, team queued. (R334) -/
  | vacateComplete (die : Nat)
  /-- Parked lanes and engines on a page replay. (R202) -/
  | pgdone (die asid page : Nat)
  /-- Clears the die's ECC counters. (R353) -/
  | eccClear (die : Nat)
  /-- Sets routes and replays peer-unreachable accesses. (R362) -/
  | wrouteWrite (v : BitVec 32)
  /-- Advances the event ring read index. (R353) -/
  | evheadWrite (die : Nat) (v : BitVec 32)
  /-- Announces new host work-queue entries. (R366) -/
  | hostQueueDoorbell (die queue port : Nat) (tail : BitVec 32)
  /-- Host entry submits a node; completion entry written. (R366) -/
  | hostSubmit (die queue : Nat)
  /-- Host entry signals a node. (R366) -/
  | hostSignal (die queue : Nat)
  /-- Host entry closes a record queue. (R366) -/
  | hostCloseQueue (die queue : Nat)
  /-- Coalescing interval ends; one held message sent. (R368) -/
  | msixCoalesceEnd (port vector : Nat)
  /-- Write-1-to-clear of management event status bits. (R368) -/
  | eventStatusClear (m : BitVec 32)
  /-- Write to a CXL.io register without its own row. (R370) -/
  | deviceRegisterWrite (offset : Nat) (v : BitVec 64)
  /-- Host write performed at the home L2. (R221) -/
  | cxlMemWrite (pa : Nat) (data : HostStore)
  /-- Host read returns raw bytes. (R221) -/
  | cxlMemRead (pa len : Nat)
  /-- Peer read flit received. (R360) -/
  | wotisRead (f : Flit)
  /-- Peer write flit received. (R360) -/
  | wotisWrite (f : Flit)
  /-- Peer atomic flit received. (R360) -/
  | wotisAtomic (f : Flit)
  /-- Response flit received. (R360) -/
  | wotisResponse (f : Flit)
  /-- Copy data flit received. (R360) -/
  | wotisCopyData (f : Flit)
  /-- Event flit received. (R360) -/
  | wotisEvent (f : Flit)
  /-- Link retrained; event raised. (R360) -/
  | linkRetrained (link : Nat)
  /-- Link taken out of service; traffic rerouted. (R360) -/
  | linkLost (link : Nat)
  /-- Starts writing the state summary. (R371) -/
  | resync
  /-- Summary written; status done or too small. (R371) -/
  | resyncDone
  /-- Nonce accepted for a signed report. (R376) -/
  | attestationRequest (nonce : BitVec 256)
  /-- Signed report ready. (R376) -/
  | attestationReportReady
  /-- Clock lowered on power over limit or 105 C. (R377) -/
  | throttle (die : Nat)
  /-- Package freezes at 115 C with an alert. (R377) -/
  | thermalFreeze
  /-- Sideband freeze stops every clock. (R372) -/
  | freeze
  /-- Power-on reset zeroing memories. (R374) -/
  | coldReset
  /-- Requested reset zeroing memories. (R374) -/
  | warmReset
  /-- Boot ROM verifies the mailbox image. (R375) -/
  | bootImageCheck
  /-- Debug port reset selects IDCODE. (R373) -/
  | testLogicReset
  /-- Boundary-scan external test. (R373) -/
  | extest
  /-- Boundary-scan sample and preload. (R373) -/
  | samplePreload
  /-- Reads the identification code. (R373) -/
  | idcode
  /-- Writes the debug address. (R373) -/
  | daddr (v : BitVec 64)
  /-- Reads 8 bytes at the debug address and steps it. (R373) -/
  | ddata
  /-- Reads debug status. (R373) -/
  | dstat
  /-- One-bit bypass register. (R373) -/
  | bypass
  /-- Issue of a unit whose word has a reserved major or an unassigned funct or sub-code raises the illegal-instruction trap. (R55) -/
  | illegalInstruction
  /-- An instruction fetch at an address that no LANDED or LANDING entry covers raises the code-not-landed trap, or auto-land when enabled. (R107) -/
  | codeNotLanded
  /-- Power is removed and the module becomes unpowered, with nothing on it running. (R377) -/
  | powerLoss
deriving DecidableEq, Repr

end Sys2Proof
end

