-- ==== Sys2Proof/WellFormed.lean ====
section
/-! DEFINITION. Well-formed instructions: the decode checks of R55 that an instruction's own fields decide (check 4 for
split sub-codes, check 5 for register codes, alignments, sizes, scopes and operand blocks). -/

namespace Sys2Proof

/-- Why an instruction is ill formed. -/
inductive WfError where
  /-- a register code, pair or quad outside R40, R41 -/
  | operand
  /-- a field outside its range (R42, R77, R80) -/
  | field
  /-- an operand block that would pass s55 (R289) -/
  | block
  /-- an access size the form does not allow (R37, R101, R233, R236, R237) -/
  | size
  /-- a reserved scope code (R38, R80) -/
  | scope
  /-- a control register number that is unassigned or used with the wrong kind (R80, R344) -/
  | number
  /-- fragment registers misaligned, past v55 or overlapping (R178) -/
  | fragment
  /-- extension words that differ, or both uniform kinds (R43) -/
  | extension
deriving DecidableEq, Repr

/-- Registers an LM access size names (R100). -/
def szRegs (z : Nat) : Nat := if z = 3 then 2 else if z = 4 then 4 else 1

/-- Bytes of an LM access size (R37). -/
def szBytes : Nat → Nat
  | 0 => 1 | 1 => 2 | 2 => 4 | 3 => 8 | 4 => 16 | 5 => 1 | _ => 2

/-- A register run of k registers starting at r stays aligned and inside v0 to v55 (R40). -/
def regRun (k r : Nat) : Bool := r % k == 0 && r + k ≤ 56

def LSrc.okWidth (k : Nat) : LSrc → Bool
  | .v r => regRun k r
  | .l i => i < 4 && k < 4
  | .z => true
  | .lid => k < 4
  | .ext _ => k < 4

def LDst.okWidth (k : Nat) : LDst → Bool
  | .v r => regRun k r
  | .z => true

def USrc.ok : USrc → Bool
  | .s r => r < 56
  | .q i => i < 4
  | _ => true

def UDst.ok : UDst → Bool
  | .s r => r < 56
  | .z => true

def MDst.ok : MDst → Bool
  | .u d => d.ok
  | .v d => d.okWidth 2

def MSrc.ok : MSrc → Bool
  | .u a => a.ok
  | .v a => a.okWidth 2

def MDst.isLane : MDst → Bool
  | .u _ => false
  | .v _ => true

def MSrc.isLane : MSrc → Bool
  | .u _ => false
  | .v _ => true

def Addr.ok : Addr → Bool
  | .plain b => b.okWidth 1
  | .ordered k => k < 6

/-- An ordered access is never 16 bytes wide (R236). -/
def Addr.okSize (z : Nat) : Addr → Bool
  | .plain _ => true
  | .ordered _ => z != 4

/-- The index operand of an LM access; an ordered one has none (R236). -/
def Addr.index : Addr → LSrc
  | .plain b => b
  | .ordered _ => .z

/-- The extension words of lane operands: one word, shared by every field that codes it (R43). -/
def laneWords (xs : List LSrc) : List Word :=
  (xs.filterMap fun x => match x with | .ext w => some w | _ => none).take 1

/-- The extension words of uniform operands: one word for ext32, two for ext64, low word first (R43). -/
def uniformWords (xs : List USrc) : List Word :=
  ((xs.filterMap fun x => match x with
    | .ext32 w => some [w]
    | .ext64 d => some [d.setWidth 32, (d >>> 32).setWidth 32]
    | _ => none).take 1).flatten

def MSrc.words : MSrc → List Word
  | .u a => uniformWords [a]
  | .v a => laneWords [a]

/-- All lane extension operands hold the same word. -/
def sameLane (xs : List LSrc) : Bool :=
  match xs.filterMap fun x => match x with | .ext w => some w | _ => none with
  | [] => true
  | w :: ws => ws.all (· == w)

/-- All uniform extension operands hold the same word or pair (R43 forbids both kinds in one instruction). -/
def sameUniform (xs : List USrc) : Bool :=
  match xs.filter fun x => match x with | .ext32 _ => true | .ext64 _ => true | _ => false with
  | [] => true
  | w :: ws => ws.all (· == w)

def runsOverlap (a n b m : Nat) : Bool := a < b + m && b < a + n

/-- The register blocks of MFRAG: C of 8, A and B of 4, with a side register each for F4B (R178). -/
def fragOk (f4b : Bool) (d a b : Nat) : Bool :=
  let k := if f4b then 5 else 4
  d % 8 == 0 && d + 8 ≤ 56 && a % 4 == 0 && a + k ≤ 56 && b % 4 == 0 && b + k ≤ 56 &&
    !runsOverlap d 8 a k && !runsOverlap d 8 b k

/-- Register numbers MRS reads (R312). -/
def mrsNumber (lane : Bool) (b : Nat) : Bool :=
  if lane then b == 2 || b == 3 else b < 2 || (4 ≤ b && b < 10)

/-- Register numbers MSR writes (R312). -/
def msrNumber (lane : Bool) (b : Nat) : Bool :=
  if lane then b == 2 else b == 0 || (4 ≤ b && b < 8)

/-- A flit of a kind (R360): device numbers of 10 bits, one of the 24 links, up to six requests, or one with the bytes of at
most one line. -/
def flitChecks (f : Flit) (kind : Nat) : List (Bool × WfError) :=
  [(f.kind == kind, .field), (f.src < 1024 && f.dst < 1024 && f.link < 24 && f.seq < 2 ^ 32, .field),
    (f.reqs.length ≤ 6 && f.reqs.all fun r => r.data.isEmpty || (f.reqs.length == 1 && r.pa % 128 + r.data.length ≤ 128),
      .field)]

/-- The checks of an instruction, each with the name it fails by. -/
def Instr.checks : Instr → List (Bool × WfError)
  | .add d a b _ g => [(d.okWidth 1, .operand), (a.okWidth 1, .operand), (b.okWidth 1, .operand), (g < 8, .field), (sameLane [a, b], .extension)]
  | .sub d a b _ g => [(d.okWidth 1, .operand), (a.okWidth 1, .operand), (b.okWidth 1, .operand), (g < 8, .field), (sameLane [a, b], .extension)]
  | .minI d a b _ g => [(d.okWidth 1, .operand), (a.okWidth 1, .operand), (b.okWidth 1, .operand), (g < 8, .field), (sameLane [a, b], .extension)]
  | .maxI d a b _ g => [(d.okWidth 1, .operand), (a.okWidth 1, .operand), (b.okWidth 1, .operand), (g < 8, .field), (sameLane [a, b], .extension)]
  | .minN d a b _ g => [(d.okWidth 1, .operand), (a.okWidth 1, .operand), (b.okWidth 1, .operand), (g < 8, .field), (sameLane [a, b], .extension)]
  | .maxN d a b _ g => [(d.okWidth 1, .operand), (a.okWidth 1, .operand), (b.okWidth 1, .operand), (g < 8, .field), (sameLane [a, b], .extension)]
  | .abs d a _ g => [(d.okWidth 1, .operand), (a.okWidth 1, .operand), (g < 8, .field)]
  | .neg d a _ g => [(d.okWidth 1, .operand), (a.okWidth 1, .operand), (g < 8, .field)]
  | .and d a b _ g => [(d.okWidth 1, .operand), (a.okWidth 1, .operand), (b.okWidth 1, .operand), (g < 8, .field), (sameLane [a, b], .extension)]
  | .or d a b _ g => [(d.okWidth 1, .operand), (a.okWidth 1, .operand), (b.okWidth 1, .operand), (g < 8, .field), (sameLane [a, b], .extension)]
  | .xor d a b _ g => [(d.okWidth 1, .operand), (a.okWidth 1, .operand), (b.okWidth 1, .operand), (g < 8, .field), (sameLane [a, b], .extension)]
  | .andn d a b _ g => [(d.okWidth 1, .operand), (a.okWidth 1, .operand), (b.okWidth 1, .operand), (g < 8, .field), (sameLane [a, b], .extension)]
  | .shl d a b _ g => [(d.okWidth 1, .operand), (a.okWidth 1, .operand), (b.okWidth 1, .operand), (g < 8, .field), (sameLane [a, b], .extension)]
  | .shr d a b _ g => [(d.okWidth 1, .operand), (a.okWidth 1, .operand), (b.okWidth 1, .operand), (g < 8, .field), (sameLane [a, b], .extension)]
  | .sar d a b _ g => [(d.okWidth 1, .operand), (a.okWidth 1, .operand), (b.okWidth 1, .operand), (g < 8, .field), (sameLane [a, b], .extension)]
  | .rol d a b _ g => [(d.okWidth 1, .operand), (a.okWidth 1, .operand), (b.okWidth 1, .operand), (g < 8, .field), (sameLane [a, b], .extension)]
  | .mul d a b _ g => [(d.okWidth 1, .operand), (a.okWidth 1, .operand), (b.okWidth 1, .operand), (g < 8, .field), (sameLane [a, b], .extension)]
  | .mulhI d a b _ g => [(d.okWidth 1, .operand), (a.okWidth 1, .operand), (b.okWidth 1, .operand), (g < 8, .field), (sameLane [a, b], .extension)]
  | .mulhN d a b _ g => [(d.okWidth 1, .operand), (a.okWidth 1, .operand), (b.okWidth 1, .operand), (g < 8, .field), (sameLane [a, b], .extension)]
  | .mad d a b _ g => [(d.okWidth 1, .operand), (a.okWidth 1, .operand), (b.okWidth 1, .operand), (g < 8, .field), (sameLane [a, b], .extension)]
  | .divI d a b _ g => [(d.okWidth 1, .operand), (a.okWidth 1, .operand), (b.okWidth 1, .operand), (g < 8, .field), (sameLane [a, b], .extension)]
  | .divN d a b _ g => [(d.okWidth 1, .operand), (a.okWidth 1, .operand), (b.okWidth 1, .operand), (g < 8, .field), (sameLane [a, b], .extension)]
  | .remI d a b _ g => [(d.okWidth 1, .operand), (a.okWidth 1, .operand), (b.okWidth 1, .operand), (g < 8, .field), (sameLane [a, b], .extension)]
  | .remN d a b _ g => [(d.okWidth 1, .operand), (a.okWidth 1, .operand), (b.okWidth 1, .operand), (g < 8, .field), (sameLane [a, b], .extension)]
  | .clz d a _ g => [(d.okWidth 1, .operand), (a.okWidth 1, .operand), (g < 8, .field)]
  | .popc d a _ g => [(d.okWidth 1, .operand), (a.okWidth 1, .operand), (g < 8, .field)]
  | .brev d a _ g => [(d.okWidth 1, .operand), (a.okWidth 1, .operand), (g < 8, .field)]
  | .bfeI d a b _ g => [(d.okWidth 1, .operand), (a.okWidth 1, .operand), (b.okWidth 1, .operand), (g < 8, .field), (sameLane [a, b], .extension)]
  | .bfeN d a b _ g => [(d.okWidth 1, .operand), (a.okWidth 1, .operand), (b.okWidth 1, .operand), (g < 8, .field), (sameLane [a, b], .extension)]
  | .bfi d a b _ g => [(d.okWidth 1, .operand), (a.okWidth 1, .operand), (b.okWidth 1, .operand), (g < 8, .field), (sameLane [a, b], .extension)]
  | .bmix d a b _ g => [(d.okWidth 1, .operand), (a.okWidth 1, .operand), (b.okWidth 1, .operand), (g < 8, .field), (sameLane [a, b], .extension)]
  | .sext d a b _ g => [(d.okWidth 1, .operand), (a.okWidth 1, .operand), (b.okWidth 1, .operand), (g < 8, .field), (sameLane [a, b], .extension)]
  | .eq d a b g => [(d < 64, .field), (a.okWidth 1, .operand), (b.okWidth 1, .operand), (g < 8, .field), (sameLane [a, b], .extension)]
  | .ne d a b g => [(d < 64, .field), (a.okWidth 1, .operand), (b.okWidth 1, .operand), (g < 8, .field), (sameLane [a, b], .extension)]
  | .ltI d a b g => [(d < 64, .field), (a.okWidth 1, .operand), (b.okWidth 1, .operand), (g < 8, .field), (sameLane [a, b], .extension)]
  | .leI d a b g => [(d < 64, .field), (a.okWidth 1, .operand), (b.okWidth 1, .operand), (g < 8, .field), (sameLane [a, b], .extension)]
  | .ltN d a b g => [(d < 64, .field), (a.okWidth 1, .operand), (b.okWidth 1, .operand), (g < 8, .field), (sameLane [a, b], .extension)]
  | .leN d a b g => [(d < 64, .field), (a.okWidth 1, .operand), (b.okWidth 1, .operand), (g < 8, .field), (sameLane [a, b], .extension)]
  | .tst d a b g => [(d < 64, .field), (a.okWidth 1, .operand), (b.okWidth 1, .operand), (g < 8, .field), (sameLane [a, b], .extension)]
  | .pand d a b g => [(d < 64, .field), (a < 64, .field), (b < 64, .field), (g < 8, .field)]
  | .por d a b g => [(d < 64, .field), (a < 64, .field), (b < 64, .field), (g < 8, .field)]
  | .pxor d a b g => [(d < 64, .field), (a < 64, .field), (b < 64, .field), (g < 8, .field)]
  | .pandn d a b g => [(d < 64, .field), (a < 64, .field), (b < 64, .field), (g < 8, .field)]
  | .pnot d a g => [(d < 64, .field), (a < 64, .field), (g < 8, .field)]
  | .ptov d a _ g => [(d.okWidth 1, .operand), (a < 64, .field), (g < 8, .field)]
  | .vtop d a g => [(d < 64, .field), (a.okWidth 1, .operand), (g < 8, .field)]
  | .mov d a _ g => [(d.okWidth 1, .operand), (a.okWidth 1, .operand), (g < 8, .field)]
  | .sel d a b _ p => [(d.okWidth 1, .operand), (a.okWidth 1, .operand), (b.okWidth 1, .operand), (p < 8, .field), (sameLane [a, b], .extension)]
  | .movs d a _ g => [(d.okWidth 1, .operand), (a.ok, .operand), (g < 8, .field)]
  | .movu d a _ g => [(d.okWidth 1, .operand), (a.ok, .operand), (g < 8, .field)]
  | .add64 d a b _ g => [(d.okWidth 2, .operand), (a.okWidth 2, .operand), (b.okWidth 2, .operand), (g < 8, .field), (sameLane [a, b], .extension)]
  | .sub64 d a b _ g => [(d.okWidth 2, .operand), (a.okWidth 2, .operand), (b.okWidth 2, .operand), (g < 8, .field), (sameLane [a, b], .extension)]
  | .shl64 d a b _ g => [(d.okWidth 2, .operand), (a.okWidth 2, .operand), (b.okWidth 1, .operand), (g < 8, .field), (sameLane [a, b], .extension)]
  | .lea d a b _ g => [(d.okWidth 2, .operand), (a.okWidth 2, .operand), (b.okWidth 1, .operand), (g < 8, .field), (sameLane [a, b], .extension)]
  | .addi d a _ => [(d.okWidth 1, .operand), (a.okWidth 1, .operand)]
  | .andi d a _ => [(d.okWidth 1, .operand), (a.okWidth 1, .operand)]
  | .ori d a _ => [(d.okWidth 1, .operand), (a.okWidth 1, .operand)]
  | .xori d a _ => [(d.okWidth 1, .operand), (a.okWidth 1, .operand)]
  | .shiShl d a s => [(d.okWidth 1, .operand), (a.okWidth 1, .operand), (s < 32, .field)]
  | .shiShr d a s => [(d.okWidth 1, .operand), (a.okWidth 1, .operand), (s < 32, .field)]
  | .shiSar d a s => [(d.okWidth 1, .operand), (a.okWidth 1, .operand), (s < 32, .field)]
  | .shiRol d a s => [(d.okWidth 1, .operand), (a.okWidth 1, .operand), (s < 32, .field)]
  | .cmpiEq d a _ => [(d < 64, .field), (a.okWidth 1, .operand)]
  | .cmpiNe d a _ => [(d < 64, .field), (a.okWidth 1, .operand)]
  | .cmpiLtI d a _ => [(d < 64, .field), (a.okWidth 1, .operand)]
  | .cmpiLeI d a _ => [(d < 64, .field), (a.okWidth 1, .operand)]
  | .cmpiLtN d a _ => [(d < 64, .field), (a.okWidth 1, .operand)]
  | .cmpiLeN d a _ => [(d < 64, .field), (a.okWidth 1, .operand)]
  | .cmpiTst d a _ => [(d < 64, .field), (a.okWidth 1, .operand)]
  | .movi d _ => [(d.okWidth 1, .operand)]
  | .leai d a _ => [(d.okWidth 2, .operand), (a.okWidth 2, .operand)]
  | .fadd d a b _ g => [(d.okWidth 1, .operand), (a.okWidth 1, .operand), (b.okWidth 1, .operand), (g < 8, .field), (sameLane [a, b], .extension)]
  | .fsub d a b _ g => [(d.okWidth 1, .operand), (a.okWidth 1, .operand), (b.okWidth 1, .operand), (g < 8, .field), (sameLane [a, b], .extension)]
  | .fmul d a b _ g => [(d.okWidth 1, .operand), (a.okWidth 1, .operand), (b.okWidth 1, .operand), (g < 8, .field), (sameLane [a, b], .extension)]
  | .ffma d a b _ g => [(d.okWidth 1, .operand), (a.okWidth 1, .operand), (b.okWidth 1, .operand), (g < 8, .field), (sameLane [a, b], .extension)]
  | .fmin d a b _ g => [(d.okWidth 1, .operand), (a.okWidth 1, .operand), (b.okWidth 1, .operand), (g < 8, .field), (sameLane [a, b], .extension)]
  | .fmax d a b _ g => [(d.okWidth 1, .operand), (a.okWidth 1, .operand), (b.okWidth 1, .operand), (g < 8, .field), (sameLane [a, b], .extension)]
  | .fnma d a b _ g => [(d.okWidth 1, .operand), (a.okWidth 1, .operand), (b.okWidth 1, .operand), (g < 8, .field), (sameLane [a, b], .extension)]
  | .fdiv d a b _ g => [(d.okWidth 1, .operand), (a.okWidth 1, .operand), (b.okWidth 1, .operand), (g < 8, .field), (sameLane [a, b], .extension)]
  | .fcmpEq d a b g => [(d < 64, .field), (a.okWidth 1, .operand), (b.okWidth 1, .operand), (g < 8, .field), (sameLane [a, b], .extension)]
  | .fcmpNe d a b g => [(d < 64, .field), (a.okWidth 1, .operand), (b.okWidth 1, .operand), (g < 8, .field), (sameLane [a, b], .extension)]
  | .fcmpLt d a b g => [(d < 64, .field), (a.okWidth 1, .operand), (b.okWidth 1, .operand), (g < 8, .field), (sameLane [a, b], .extension)]
  | .fcmpLe d a b g => [(d < 64, .field), (a.okWidth 1, .operand), (b.okWidth 1, .operand), (g < 8, .field), (sameLane [a, b], .extension)]
  | .fcmpUn d a b g => [(d < 64, .field), (a.okWidth 1, .operand), (b.okWidth 1, .operand), (g < 8, .field), (sameLane [a, b], .extension)]
  | .fcmpTolt d a b g => [(d < 64, .field), (a.okWidth 1, .operand), (b.okWidth 1, .operand), (g < 8, .field), (sameLane [a, b], .extension)]
  | .fcmpTole d a b g => [(d < 64, .field), (a.okWidth 1, .operand), (b.okWidth 1, .operand), (g < 8, .field), (sameLane [a, b], .extension)]
  | .fcmpClass d a b g => [(d < 64, .field), (a.okWidth 1, .operand), (b.okWidth 1, .operand), (g < 8, .field), (sameLane [a, b], .extension)]
  | .dadd d a b _ g => [(d.okWidth 2, .operand), (a.okWidth 2, .operand), (b.okWidth 2, .operand), (g < 8, .field), (sameLane [a, b], .extension)]
  | .dsub d a b _ g => [(d.okWidth 2, .operand), (a.okWidth 2, .operand), (b.okWidth 2, .operand), (g < 8, .field), (sameLane [a, b], .extension)]
  | .dmul d a b _ g => [(d.okWidth 2, .operand), (a.okWidth 2, .operand), (b.okWidth 2, .operand), (g < 8, .field), (sameLane [a, b], .extension)]
  | .dfma d a b _ g => [(d.okWidth 2, .operand), (a.okWidth 2, .operand), (b.okWidth 2, .operand), (g < 8, .field), (sameLane [a, b], .extension)]
  | .dmin d a b _ g => [(d.okWidth 2, .operand), (a.okWidth 2, .operand), (b.okWidth 2, .operand), (g < 8, .field), (sameLane [a, b], .extension)]
  | .dmax d a b _ g => [(d.okWidth 2, .operand), (a.okWidth 2, .operand), (b.okWidth 2, .operand), (g < 8, .field), (sameLane [a, b], .extension)]
  | .ddiv d a b _ g => [(d.okWidth 2, .operand), (a.okWidth 2, .operand), (b.okWidth 2, .operand), (g < 8, .field), (sameLane [a, b], .extension)]
  | .dsqrt d a _ g => [(d.okWidth 2, .operand), (a.okWidth 2, .operand), (g < 8, .field)]
  | .haddF16 d a b _ g => [(d.okWidth 1, .operand), (a.okWidth 1, .operand), (b.okWidth 1, .operand), (g < 8, .field), (sameLane [a, b], .extension)]
  | .hmulF16 d a b _ g => [(d.okWidth 1, .operand), (a.okWidth 1, .operand), (b.okWidth 1, .operand), (g < 8, .field), (sameLane [a, b], .extension)]
  | .hfmaF16 d a b _ g => [(d.okWidth 1, .operand), (a.okWidth 1, .operand), (b.okWidth 1, .operand), (g < 8, .field), (sameLane [a, b], .extension)]
  | .haddBf16 d a b _ g => [(d.okWidth 1, .operand), (a.okWidth 1, .operand), (b.okWidth 1, .operand), (g < 8, .field), (sameLane [a, b], .extension)]
  | .hmulBf16 d a b _ g => [(d.okWidth 1, .operand), (a.okWidth 1, .operand), (b.okWidth 1, .operand), (g < 8, .field), (sameLane [a, b], .extension)]
  | .hfmaBf16 d a b _ g => [(d.okWidth 1, .operand), (a.okWidth 1, .operand), (b.okWidth 1, .operand), (g < 8, .field), (sameLane [a, b], .extension)]
  | .hmin d a b _ g => [(d.okWidth 1, .operand), (a.okWidth 1, .operand), (b.okWidth 1, .operand), (g < 8, .field), (sameLane [a, b], .extension)]
  | .hmax d a b _ g => [(d.okWidth 1, .operand), (a.okWidth 1, .operand), (b.okWidth 1, .operand), (g < 8, .field), (sameLane [a, b], .extension)]
  | .cvtI32F32 d a r _ g => [(d.okWidth 1, .operand), (a.okWidth 1, .operand), (r < 6, .field), (g < 8, .field)]
  | .cvtN32F32 d a r _ g => [(d.okWidth 1, .operand), (a.okWidth 1, .operand), (r < 6, .field), (g < 8, .field)]
  | .cvtF32I32 d a r _ g => [(d.okWidth 1, .operand), (a.okWidth 1, .operand), (r < 6, .field), (g < 8, .field)]
  | .cvtF32N32 d a r _ g => [(d.okWidth 1, .operand), (a.okWidth 1, .operand), (r < 6, .field), (g < 8, .field)]
  | .cvtBf16F32 d a _ g => [(d.okWidth 1, .operand), (a.okWidth 1, .operand), (g < 8, .field)]
  | .cvtF16F32 d a _ g => [(d.okWidth 1, .operand), (a.okWidth 1, .operand), (g < 8, .field)]
  | .cvtF32Bf16 d a _ g => [(d.okWidth 1, .operand), (a.okWidth 1, .operand), (g < 8, .field)]
  | .cvtF32F16 d a _ g => [(d.okWidth 1, .operand), (a.okWidth 1, .operand), (g < 8, .field)]
  | .cvtE4m3F32 d a _ g => [(d.okWidth 1, .operand), (a.okWidth 1, .operand), (g < 8, .field)]
  | .cvtE5m2F32 d a _ g => [(d.okWidth 1, .operand), (a.okWidth 1, .operand), (g < 8, .field)]
  | .cvtI8F32 d a _ g => [(d.okWidth 1, .operand), (a.okWidth 1, .operand), (g < 8, .field)]
  | .cvtI8I32 d a _ g => [(d.okWidth 1, .operand), (a.okWidth 1, .operand), (g < 8, .field)]
  | .cvtI16F32 d a _ g => [(d.okWidth 1, .operand), (a.okWidth 1, .operand), (g < 8, .field)]
  | .cvtI16I32 d a _ g => [(d.okWidth 1, .operand), (a.okWidth 1, .operand), (g < 8, .field)]
  | .cvtF32E4m3 d a _ g => [(d.okWidth 1, .operand), (a.okWidth 1, .operand), (g < 8, .field)]
  | .cvtF32E5m2 d a _ g => [(d.okWidth 1, .operand), (a.okWidth 1, .operand), (g < 8, .field)]
  | .cvtBf16F32Sr d a _ g => [(d.okWidth 1, .operand), (a.okWidth 1, .operand), (g < 8, .field)]
  | .cvtE4m3F32Sr d a _ g => [(d.okWidth 1, .operand), (a.okWidth 1, .operand), (g < 8, .field)]
  | .packF4b d a _ g => [(d.okWidth 1, .operand), (a.okWidth 1, .operand), (g < 8, .field)]
  | .unpkF4b d a b _ g => [(d.okWidth 1, .operand), (a.okWidth 1, .operand), (b.okWidth 1, .operand), (g < 8, .field), (sameLane [a, b], .extension)]
  | .scaleF4b d a b _ g => [(d.okWidth 1, .operand), (a.okWidth 1, .operand), (b.okWidth 1, .operand), (g < 8, .field), (sameLane [a, b], .extension)]
  | .mx2f4b d a _ g => [(d.okWidth 1, .operand), (a.okWidth 1, .operand), (g < 8, .field)]
  | .rcp d a _ g => [(d.okWidth 1, .operand), (a.okWidth 1, .operand), (g < 8, .field)]
  | .rsq d a _ g => [(d.okWidth 1, .operand), (a.okWidth 1, .operand), (g < 8, .field)]
  | .sqrt d a _ g => [(d.okWidth 1, .operand), (a.okWidth 1, .operand), (g < 8, .field)]
  | .exp2 d a _ g => [(d.okWidth 1, .operand), (a.okWidth 1, .operand), (g < 8, .field)]
  | .log2 d a _ g => [(d.okWidth 1, .operand), (a.okWidth 1, .operand), (g < 8, .field)]
  | .sin d a _ g => [(d.okWidth 1, .operand), (a.okWidth 1, .operand), (g < 8, .field)]
  | .cos d a _ g => [(d.okWidth 1, .operand), (a.okWidth 1, .operand), (g < 8, .field)]
  | .tanh d a _ g => [(d.okWidth 1, .operand), (a.okWidth 1, .operand), (g < 8, .field)]
  | .frnd d a r _ g => [(d.okWidth 1, .operand), (a.okWidth 1, .operand), (r < 5, .field), (g < 8, .field)]
  | .key3 d a _ g => [(d.okWidth 1, .operand), (a.okWidth 4, .operand), (g < 8, .field)]
  | .rng d _ g => [(d.okWidth 1, .operand), (g < 8, .field)]
  | .seed a g => [(a.okWidth 2, .operand), (g < 8, .field)]
  | .fscale d a b _ g => [(d.okWidth 1, .operand), (a.okWidth 1, .operand), (b.okWidth 1, .operand), (g < 8, .field), (sameLane [a, b], .extension)]
  | .fexp d a _ g => [(d.okWidth 1, .operand), (a.okWidth 1, .operand), (g < 8, .field)]
  | .ldg d a m z g => [(d.okWidth (szRegs z), .operand), (a.okWidth 1, .operand), (m.ok, .scope), (z < 7, .size), (g < 8, .field), (m.okSize z, .size), (sameLane [a, m.index], .extension)]
  | .stg d a m z g => [(d.okWidth (szRegs z), .operand), (a.okWidth 1, .operand), (m.ok, .scope), (z < 5, .size), (g < 8, .field), (m.okSize z, .size), (sameLane [d, a, m.index], .extension)]
  | .lds d a m z g => [(d.okWidth (szRegs z), .operand), (a.okWidth 1, .operand), (m.ok, .scope), (z < 7, .size), (g < 8, .field), (m.okSize z, .size), (sameLane [a, m.index], .extension)]
  | .sts d a m z g => [(d.okWidth (szRegs z), .operand), (a.okWidth 1, .operand), (m.ok, .scope), (z < 5, .size), (g < 8, .field), (m.okSize z, .size), (sameLane [d, a, m.index], .extension)]
  | .ldk d a m z g => [(d.okWidth (szRegs z), .operand), (a.okWidth 1, .operand), (m.ok, .scope), (z < 7, .size), (g < 8, .field), (m.okSize z, .size), (sameLane [a, m.index], .extension)]
  | .stk d a m z g => [(d.okWidth (szRegs z), .operand), (a.okWidth 1, .operand), (m.ok, .scope), (z < 5, .size), (g < 8, .field), (m.okSize z, .size), (sameLane [d, a, m.index], .extension)]
  | .stx d a m z g => [(d.okWidth (szRegs z), .operand), (a.okWidth 1, .operand), (m.ok, .scope), (z < 5, .size), (g < 8, .field), (m.okSize z, .size), (sameLane [d, a, m.index], .extension)]
  | .ldp d a m z g => [(d.okWidth (szRegs z), .operand), (a.okWidth 1, .operand), (m.ok, .scope), (z < 7, .size), (g < 8, .field), (z != 4, .size), (m.okSize z, .size), (sameLane [a, m.index], .extension)]
  | .atomgAdd d a b _ g => [(d.okWidth 1, .operand), (a.okWidth 1, .operand), (b.okWidth 1, .operand), (g < 8, .field), (sameLane [a, b], .extension)]
  | .atomgMinI d a b _ g => [(d.okWidth 1, .operand), (a.okWidth 1, .operand), (b.okWidth 1, .operand), (g < 8, .field), (sameLane [a, b], .extension)]
  | .atomgMaxI d a b _ g => [(d.okWidth 1, .operand), (a.okWidth 1, .operand), (b.okWidth 1, .operand), (g < 8, .field), (sameLane [a, b], .extension)]
  | .atomgAnd d a b _ g => [(d.okWidth 1, .operand), (a.okWidth 1, .operand), (b.okWidth 1, .operand), (g < 8, .field), (sameLane [a, b], .extension)]
  | .atomgOr d a b _ g => [(d.okWidth 1, .operand), (a.okWidth 1, .operand), (b.okWidth 1, .operand), (g < 8, .field), (sameLane [a, b], .extension)]
  | .atomgXor d a b _ g => [(d.okWidth 1, .operand), (a.okWidth 1, .operand), (b.okWidth 1, .operand), (g < 8, .field), (sameLane [a, b], .extension)]
  | .atomgExch d a b _ g => [(d.okWidth 1, .operand), (a.okWidth 1, .operand), (b.okWidth 1, .operand), (g < 8, .field), (sameLane [a, b], .extension)]
  | .atomgCas d a b _ g => [(d.okWidth 1, .operand), (a.okWidth 1, .operand), (b < 55, .operand), (g < 8, .field)]
  | .atomgAddB64 d a b _ g => [(d.okWidth 2, .operand), (a.okWidth 1, .operand), (b.okWidth 2, .operand), (g < 8, .field), (sameLane [a, b], .extension)]
  | .atomgMinIB64 d a b _ g => [(d.okWidth 2, .operand), (a.okWidth 1, .operand), (b.okWidth 2, .operand), (g < 8, .field), (sameLane [a, b], .extension)]
  | .atomgMaxIB64 d a b _ g => [(d.okWidth 2, .operand), (a.okWidth 1, .operand), (b.okWidth 2, .operand), (g < 8, .field), (sameLane [a, b], .extension)]
  | .atomgAndB64 d a b _ g => [(d.okWidth 2, .operand), (a.okWidth 1, .operand), (b.okWidth 2, .operand), (g < 8, .field), (sameLane [a, b], .extension)]
  | .atomgOrB64 d a b _ g => [(d.okWidth 2, .operand), (a.okWidth 1, .operand), (b.okWidth 2, .operand), (g < 8, .field), (sameLane [a, b], .extension)]
  | .atomgXorB64 d a b _ g => [(d.okWidth 2, .operand), (a.okWidth 1, .operand), (b.okWidth 2, .operand), (g < 8, .field), (sameLane [a, b], .extension)]
  | .atomgExchB64 d a b _ g => [(d.okWidth 2, .operand), (a.okWidth 1, .operand), (b.okWidth 2, .operand), (g < 8, .field), (sameLane [a, b], .extension)]
  | .atomgCasB64 d a b _ g => [(d.okWidth 2, .operand), (a.okWidth 1, .operand), (b % 2 == 0 && b < 53, .operand), (g < 8, .field)]
  | .atomgIncb d a b _ g => [(d.okWidth 1, .operand), (a.okWidth 1, .operand), (b.okWidth 1, .operand), (g < 8, .field), (sameLane [a, b], .extension)]
  | .atomgDecb d a b _ g => [(d.okWidth 1, .operand), (a.okWidth 1, .operand), (b.okWidth 1, .operand), (g < 8, .field), (sameLane [a, b], .extension)]
  | .atomgFadd d a b _ g => [(d.okWidth 1, .operand), (a.okWidth 1, .operand), (b.okWidth 1, .operand), (g < 8, .field), (sameLane [a, b], .extension)]
  | .atomgFmin d a b _ g => [(d.okWidth 1, .operand), (a.okWidth 1, .operand), (b.okWidth 1, .operand), (g < 8, .field), (sameLane [a, b], .extension)]
  | .atomgFmax d a b _ g => [(d.okWidth 1, .operand), (a.okWidth 1, .operand), (b.okWidth 1, .operand), (g < 8, .field), (sameLane [a, b], .extension)]
  | .atomgMinN d a b _ g => [(d.okWidth 1, .operand), (a.okWidth 1, .operand), (b.okWidth 1, .operand), (g < 8, .field), (sameLane [a, b], .extension)]
  | .atomgMaxN d a b _ g => [(d.okWidth 1, .operand), (a.okWidth 1, .operand), (b.okWidth 1, .operand), (g < 8, .field), (sameLane [a, b], .extension)]
  | .atomsAdd d a b g => [(d.okWidth 1, .operand), (a.okWidth 1, .operand), (b.okWidth 1, .operand), (g < 8, .field), (sameLane [a, b], .extension)]
  | .atomsMinI d a b g => [(d.okWidth 1, .operand), (a.okWidth 1, .operand), (b.okWidth 1, .operand), (g < 8, .field), (sameLane [a, b], .extension)]
  | .atomsMaxI d a b g => [(d.okWidth 1, .operand), (a.okWidth 1, .operand), (b.okWidth 1, .operand), (g < 8, .field), (sameLane [a, b], .extension)]
  | .atomsAnd d a b g => [(d.okWidth 1, .operand), (a.okWidth 1, .operand), (b.okWidth 1, .operand), (g < 8, .field), (sameLane [a, b], .extension)]
  | .atomsOr d a b g => [(d.okWidth 1, .operand), (a.okWidth 1, .operand), (b.okWidth 1, .operand), (g < 8, .field), (sameLane [a, b], .extension)]
  | .atomsExch d a b g => [(d.okWidth 1, .operand), (a.okWidth 1, .operand), (b.okWidth 1, .operand), (g < 8, .field), (sameLane [a, b], .extension)]
  | .atomsCas d a b g => [(d.okWidth 1, .operand), (a.okWidth 1, .operand), (b < 55, .operand), (g < 8, .field)]
  | .atomsIncb d a b g => [(d.okWidth 1, .operand), (a.okWidth 1, .operand), (b.okWidth 1, .operand), (g < 8, .field), (sameLane [a, b], .extension)]
  | .xidx d a b _ x => [(d.okWidth 1, .operand), (a.okWidth 1, .operand), (b.okWidth 1, .operand), (x < 8, .field), (sameLane [a, b], .extension)]
  | .xxor d a b _ x => [(d.okWidth 1, .operand), (a.okWidth 1, .operand), (b.okWidth 1, .operand), (x < 8, .field), (sameLane [a, b], .extension)]
  | .xrot d a b _ x => [(d.okWidth 1, .operand), (a.okWidth 1, .operand), (b.okWidth 1, .operand), (x < 8, .field), (sameLane [a, b], .extension)]
  | .xshift d a b _ x => [(d.okWidth 1, .operand), (a.okWidth 1, .operand), (b.okWidth 1, .operand), (x < 8, .field), (sameLane [a, b], .extension)]
  | .xlid d a b _ => [(d.okWidth 1, .operand), (a.okWidth 1, .operand), (b.okWidth 1, .operand), (sameLane [a, b], .extension)]
  | .pany d a x => [(d < 64, .field), (a < 64, .field), (x < 8, .field)]
  | .pall d a x => [(d < 64, .field), (a < 64, .field), (x < 8, .field)]
  | .pmask d a _ x => [(d.okWidth 1, .operand), (a < 64, .field), (x < 8, .field)]
  | .matchEq d a _ x => [(d.okWidth 1, .operand), (a.okWidth 1, .operand), (x < 8, .field)]
  | .compact d a b _ x => [(d.okWidth 1, .operand), (a.okWidth 1, .operand), (b < 64, .field), (x < 8, .field)]
  | .redAdd d a _ x => [(d.okWidth 1, .operand), (a.okWidth 1, .operand), (x < 8, .field)]
  | .redFadd d a _ x => [(d.okWidth 1, .operand), (a.okWidth 1, .operand), (x < 8, .field)]
  | .redMinI d a _ x => [(d.okWidth 1, .operand), (a.okWidth 1, .operand), (x < 8, .field)]
  | .redMinN d a _ x => [(d.okWidth 1, .operand), (a.okWidth 1, .operand), (x < 8, .field)]
  | .redMinF d a _ x => [(d.okWidth 1, .operand), (a.okWidth 1, .operand), (x < 8, .field)]
  | .redMaxI d a _ x => [(d.okWidth 1, .operand), (a.okWidth 1, .operand), (x < 8, .field)]
  | .redMaxN d a _ x => [(d.okWidth 1, .operand), (a.okWidth 1, .operand), (x < 8, .field)]
  | .redMaxF d a _ x => [(d.okWidth 1, .operand), (a.okWidth 1, .operand), (x < 8, .field)]
  | .scanAdd d a _ x => [(d.okWidth 1, .operand), (a.okWidth 1, .operand), (x < 8, .field)]
  | .mrank d a _ x => [(d.okWidth 1, .operand), (a.okWidth 1, .operand), (x < 8, .field)]
  | .garg d a b _ x => [(d.okWidth 1, .operand), (a.okWidth 1, .operand), (b.okWidth 1, .operand), (x < 8, .field), (sameLane [a, b], .extension)]
  | .gres d a b x => [(d.okWidth 1, .operand), (a.okWidth 1, .operand), (b.okWidth 1, .operand), (x < 8, .field), (sameLane [d, a, b], .extension)]
  | .rpush d a g => [(d % 8 == 0 && d < 56, .operand), (a.okWidth 1, .operand), (g < 8, .field)]
  | .jml d a g => [(d.okWidth 2, .operand), (a.okWidth 2, .operand), (g < 8, .field)]
  | .mfragBf16 d a b _ _ g => [(g < 8, .field), (fragOk false d a b, .fragment)]
  | .mfragF16 d a b _ _ g => [(g < 8, .field), (fragOk false d a b, .fragment)]
  | .mfragE4m3 d a b _ _ g => [(g < 8, .field), (fragOk false d a b, .fragment)]
  | .mfragE5m2 d a b _ _ g => [(g < 8, .field), (fragOk false d a b, .fragment)]
  | .mfragF4b d a b _ s _ g => [(s < 4, .field), (g < 8, .field), (fragOk true d a b, .fragment)]
  | .mfragI8 d a b _ _ g => [(g < 8, .field), (fragOk false d a b, .fragment)]
  | .brl p _ _ => [(p < 64, .field)]
  | .uAdd d a b _ k => [(d.ok, .operand), (a.ok, .operand), (b.ok, .operand), (k < 8, .field), (sameUniform [a, b], .extension)]
  | .uSub d a b _ k => [(d.ok, .operand), (a.ok, .operand), (b.ok, .operand), (k < 8, .field), (sameUniform [a, b], .extension)]
  | .uMinI d a b _ k => [(d.ok, .operand), (a.ok, .operand), (b.ok, .operand), (k < 8, .field), (sameUniform [a, b], .extension)]
  | .uMaxI d a b _ k => [(d.ok, .operand), (a.ok, .operand), (b.ok, .operand), (k < 8, .field), (sameUniform [a, b], .extension)]
  | .uMinN d a b _ k => [(d.ok, .operand), (a.ok, .operand), (b.ok, .operand), (k < 8, .field), (sameUniform [a, b], .extension)]
  | .uMaxN d a b _ k => [(d.ok, .operand), (a.ok, .operand), (b.ok, .operand), (k < 8, .field), (sameUniform [a, b], .extension)]
  | .uMul d a b _ k => [(d.ok, .operand), (a.ok, .operand), (b.ok, .operand), (k < 8, .field), (sameUniform [a, b], .extension)]
  | .uMulhN d a b _ k => [(d.ok, .operand), (a.ok, .operand), (b.ok, .operand), (k < 8, .field), (sameUniform [a, b], .extension)]
  | .uAnd d a b _ k => [(d.ok, .operand), (a.ok, .operand), (b.ok, .operand), (k < 8, .field), (sameUniform [a, b], .extension)]
  | .uOr d a b _ k => [(d.ok, .operand), (a.ok, .operand), (b.ok, .operand), (k < 8, .field), (sameUniform [a, b], .extension)]
  | .uXor d a b _ k => [(d.ok, .operand), (a.ok, .operand), (b.ok, .operand), (k < 8, .field), (sameUniform [a, b], .extension)]
  | .uAndn d a b _ k => [(d.ok, .operand), (a.ok, .operand), (b.ok, .operand), (k < 8, .field), (sameUniform [a, b], .extension)]
  | .uShl d a b _ k => [(d.ok, .operand), (a.ok, .operand), (b.ok, .operand), (k < 8, .field), (sameUniform [a, b], .extension)]
  | .uShr d a b _ k => [(d.ok, .operand), (a.ok, .operand), (b.ok, .operand), (k < 8, .field), (sameUniform [a, b], .extension)]
  | .uSar d a b _ k => [(d.ok, .operand), (a.ok, .operand), (b.ok, .operand), (k < 8, .field), (sameUniform [a, b], .extension)]
  | .uClz d a _ k => [(d.ok, .operand), (a.ok, .operand), (k < 8, .field)]
  | .uEq d a b k => [(d < 8, .field), (a.ok, .operand), (b.ok, .operand), (k < 8, .field), (sameUniform [a, b], .extension)]
  | .uNe d a b k => [(d < 8, .field), (a.ok, .operand), (b.ok, .operand), (k < 8, .field), (sameUniform [a, b], .extension)]
  | .uLtI d a b k => [(d < 8, .field), (a.ok, .operand), (b.ok, .operand), (k < 8, .field), (sameUniform [a, b], .extension)]
  | .uLeI d a b k => [(d < 8, .field), (a.ok, .operand), (b.ok, .operand), (k < 8, .field), (sameUniform [a, b], .extension)]
  | .uLtN d a b k => [(d < 8, .field), (a.ok, .operand), (b.ok, .operand), (k < 8, .field), (sameUniform [a, b], .extension)]
  | .uLeN d a b k => [(d < 8, .field), (a.ok, .operand), (b.ok, .operand), (k < 8, .field), (sameUniform [a, b], .extension)]
  | .uTst d a b k => [(d < 8, .field), (a.ok, .operand), (b.ok, .operand), (k < 8, .field), (sameUniform [a, b], .extension)]
  | .uMov d a _ k => [(d.ok, .operand), (a.ok, .operand), (k < 8, .field)]
  | .uSel d a b _ c => [(d.ok, .operand), (a.ok, .operand), (b.ok, .operand), (c < 8, .field), (sameUniform [a, b], .extension)]
  | .uMovs d a _ k => [(d.ok, .operand), (a.ok, .operand), (k < 8, .field)]
  | .kopAnd d a s k => [(d < 8, .field), (a < 8, .field), (s < 8, .field), (k < 8, .field)]
  | .kopOr d a s k => [(d < 8, .field), (a < 8, .field), (s < 8, .field), (k < 8, .field)]
  | .kopXor d a s k => [(d < 8, .field), (a < 8, .field), (s < 8, .field), (k < 8, .field)]
  | .kopAndn d a s k => [(d < 8, .field), (a < 8, .field), (s < 8, .field), (k < 8, .field)]
  | .kopNot d a k => [(d < 8, .field), (a < 8, .field), (k < 8, .field)]
  | .vtos d a _ k => [(d.ok, .operand), (a.okWidth 1, .operand), (k < 8, .field)]
  | .uPopc d a _ k => [(d.ok, .operand), (a.ok, .operand), (k < 8, .field)]
  | .uDivN d a b _ k => [(d.ok, .operand), (a.ok, .operand), (b.ok, .operand), (k < 8, .field), (sameUniform [a, b], .extension)]
  | .ret k => [(k < 8, .field)]
  | .calli a k => [(a.ok, .operand), (k < 8, .field)]
  | .saddi d a _ => [(d.ok, .operand), (a.ok, .operand)]
  | .sandi d a _ => [(d.ok, .operand), (a.ok, .operand)]
  | .sori d a _ => [(d.ok, .operand), (a.ok, .operand)]
  | .sshiShl d a s => [(d.ok, .operand), (a.ok, .operand), (s < 64, .field)]
  | .sshiShr d a s => [(d.ok, .operand), (a.ok, .operand), (s < 64, .field)]
  | .sshiSar d a s => [(d.ok, .operand), (a.ok, .operand), (s < 64, .field)]
  | .scmpiEq d a _ => [(d < 8, .field), (a.ok, .operand)]
  | .scmpiNe d a _ => [(d < 8, .field), (a.ok, .operand)]
  | .scmpiLtI d a _ => [(d < 8, .field), (a.ok, .operand)]
  | .scmpiLeI d a _ => [(d < 8, .field), (a.ok, .operand)]
  | .scmpiLtN d a _ => [(d < 8, .field), (a.ok, .operand)]
  | .scmpiLeN d a _ => [(d < 8, .field), (a.ok, .operand)]
  | .scmpiTst d a _ => [(d < 8, .field), (a.ok, .operand)]
  | .smovi d _ => [(d.ok, .operand)]
  | .sld d a _ => [(d.ok, .operand), (a.ok, .operand)]
  | .sst d a _ => [(d.ok, .operand), (a.ok, .operand), (sameUniform [d, a], .extension)]
  | .bra k _ _ => [(k < 8, .field)]
  | .call k _ _ => [(k < 8, .field)]
  | .rep c _ _ _ => [(c < 64, .field)]
  | .guard p _ => [(p < 64, .field)]
  | .hdr r _ f _ => [(r < 4, .field), (f < 64, .field)]
  | .jseg a b => [(a.ok, .operand), (b.ok, .operand), (sameUniform [a, b], .extension)]
  | .cfetch a b => [(a.ok, .operand), (b.ok, .operand), (sameUniform [a, b], .extension)]
  | .widen a b => [(a.ok, .operand), (b.okWidth 1, .operand)]
  | .gather a _ => [(a.ok, .operand)]
  | .barTeam => []
  | .barTeamYield => []
  | .barClus => []
  | .barMask a => [(a.ok, .operand)]
  | .joinEnrol a => [(a < 4, .field)]
  | .joinWait a => [(a < 4, .field)]
  | .elect a c => [(a.ok, .operand), (c < 64, .field)]
  | .partitionWhole a => [(1 ≤ a && a < 8, .field)]
  | .partitionB4 a => [(1 ≤ a && a < 8, .field)]
  | .partitionB8 a => [(1 ≤ a && a < 8, .field)]
  | .partitionB16 a => [(1 ≤ a && a < 8, .field)]
  | .partitionMask a b => [(1 ≤ a && a < 8, .field), (b.ok, .operand)]
  | .regroup => []
  | .lmap a b => [(a.ok, .operand), (b.ok, .operand)]
  | .nop => []
  | .exit => []
  | .brk => []
  | .trap a => [(a.ok, .operand)]
  | .region => []
  | .yield => []
  | .cinv a b => [(a.ok, .operand), (b.ok, .operand), (sameUniform [a, b], .extension)]
  | .cinvSync a b => [(a.ok, .operand), (b.ok, .operand), (sameUniform [a, b], .extension)]
  | .tcopy a b c => [(a.ok, .operand), (b < 53, .block), (c.ok, .operand), (sameUniform [a, c], .extension)]
  | .tcopym a b c => [(a.ok, .operand), (b < 53, .block), (c.ok, .operand), (sameUniform [a, c], .extension)]
  | .mtask a => [(a.ok, .operand)]
  | .drain a _ => [(a.ok, .operand)]
  | .ringAcq a b => [(a.ok, .operand), (b.ok, .operand)]
  | .ringRel a => [(a.ok, .operand)]
  | .keySort a b c _ => [(a < 54, .block), (b.ok, .operand), (c.ok, .operand), (sameUniform [b, c], .extension)]
  | .keyMerge a b c _ _ => [(a < 54, .block), (b.ok, .operand), (c.ok, .operand), (sameUniform [b, c], .extension)]
  | .keyTopk a b c => [(a < 54, .block), (b.ok, .operand), (c.ok, .operand), (sameUniform [b, c], .extension)]
  | .keyOffs a b c => [(a < 54, .block), (b.ok, .operand), (c.ok, .operand), (sameUniform [b, c], .extension)]
  | .keyCheck a b c => [(a < 54, .block), (b.ok, .operand), (c.ok, .operand), (sameUniform [b, c], .extension)]
  | .xlatb a b c => [(a.ok, .operand), (b.ok, .operand), (c.ok, .operand), (sameUniform [a, b, c], .extension)]
  | .seq a => [(a.ok, .operand)]
  | .fence s => [(s < 6, .scope)]
  | .fenceAcq s => [(s < 6, .scope)]
  | .fenceRel s => [(s < 6, .scope)]
  | .fenceSc s => [(s < 5, .scope)]
  | .cwait a b => [(a.ok, .operand), (b.ok, .operand), (sameUniform [a, b], .extension)]
  | .suspend a b => [(a.ok, .operand), (b < 53, .block)]
  | .touch a => [(a.ok, .operand)]
  | .fulfill a b => [(a.ok, .operand), (b < 53, .block)]
  | .celltag a b c => [(a.ok, .operand), (b.ok, .operand), (c.ok, .operand), (sameUniform [a, b], .extension)]
  | .nlaunch a b => [(a.ok, .operand), (b.ok, .operand)]
  | .nsignal b => [(b.ok, .operand)]
  | .nqstat a b => [(a.ok, .operand), (b.ok, .operand)]
  | .mrs a b => [(a.ok, .operand), (mrsNumber a.isLane b, .number)]
  | .msr a b => [(a.ok, .operand), (msrNumber a.isLane b, .number)]
  | .adpf a b c => [(a.ok, .operand), (b.ok, .operand), (c.ok, .operand), (sameUniform [a, b, c], .extension)]
  | .dbgRd a b c => [(a.ok, .operand), (b.ok, .operand), (c.ok, .operand), (sameUniform [b, c], .extension)]
  | .dbgWr a b c => [(a.ok, .operand), (b.ok, .operand), (c.ok, .operand), (sameUniform [a, b, c], .extension)]
  | .ctxSave a b => [(a.ok, .operand), (b.ok, .operand), (sameUniform [a, b], .extension)]
  | .ctxLoad a => [(a.ok, .operand)]
  | .place a => [(a.ok, .operand)]
  | .evq a b => [(a.ok, .operand), (b.ok, .operand)]
  | .pmsrRd a b => [(a.ok, .operand), (b < 22, .number)]
  | .pmsrWr a b => [(a.ok, .operand), (b < 22, .number)]
  | .cload a b => [(a.ok, .operand), (b.ok, .operand), (sameUniform [a, b], .extension)]
  | .rte a b => [(a.ok, .operand), (b.ok, .operand), (sameUniform [a, b], .extension)]
  | .kill a => [(a.ok, .operand)]
  | .landingComplete core slot => [(core < 1728, .field), (slot < 64, .field)]
  | .trapQueueAdmit core => [(core < 1728, .field)]
  | .gatherFiring _ => []
  | .phaseRecordWrite _ => []
  | .eventHoldRelease die => [(die < 8, .field)]
  | .evaluatorRequest die => [(die < 8, .field)]
  | .cellStarterRetry die => [(die < 8, .field)]
  | .cellWaiterRetry group => [(group < 110592, .field)]
  | .cwaitRecheck group => [(group < 110592, .field)]
  | .cwaitPoll group => [(group < 110592, .field)]
  | .postedAtomicPerform core => [(core < 1728, .field)]
  | .postedAtomicFault core => [(core < 1728, .field)]
  | .strokeTick => []
  | .engineCommandStart core _ => [(core < 1728, .field)]
  | .commandComplete core _ => [(core < 1728, .field)]
  | .ringFill core _ => [(core < 1728, .field)]
  | .sparsityQueueFill core _ => [(core < 1728, .field)]
  | .taskIssue core => [(core < 1728, .field)]
  | .matrixTaskEnd core => [(core < 1728, .field)]
  | .adapterLineFill core => [(core < 1728, .field)]
  | .matrixNanTrap core => [(core < 1728, .field)]
  | .drainAddition core => [(core < 1728, .field)]
  | .nodeSignal _ => []
  | .placementDecision die => [(die < 8, .field)]
  | .teamStart _ => []
  | .priorityAging die => [(die < 8, .field)]
  | .reservation die => [(die < 8, .field)]
  | .packageArbiterHandout => []
  | .recordArrival die queue => [(die < 8, .field), (queue < 1024, .field)]
  | .flushTimerExpiry die queue => [(die < 8, .field), (queue < 1024, .field)]
  | .slipwayReturn die => [(die < 8, .field)]
  | .teamEnd _ => []
  | .menuEntryApply core entry => [(core < 1728, .field), (entry < 16, .field)]
  | .ringtabWrite group => [(group < 110592, .field)]
  | .tlbinvPage asid page => [(asid < 4096, .field), (page < 2 ^ 38, .field)]
  | .tlbinvAsid asid => [(asid < 4096, .field)]
  | .tlbinvAll => []
  | .vacsetAdd die core => [(die < 8, .field), (core < 216, .field)]
  | .vacsetEmpty die => [(die < 8, .field)]
  | .vacgo die _ => [(die < 8, .field)]
  | .vacateHardStop die => [(die < 8, .field)]
  | .vacateComplete die => [(die < 8, .field)]
  | .pgdone die asid page => [(die < 8, .field), (asid < 4096, .field), (page < 2 ^ 38, .field)]
  | .eccClear die => [(die < 8, .field)]
  | .wrouteWrite _ => []
  | .evheadWrite die _ => [(die < 8, .field)]
  | .hostQueueDoorbell die queue port _ => [(die < 8, .field), (queue < 2048, .field), (port < 2, .field)]
  | .hostSubmit die queue => [(die < 8, .field), (queue < 2048, .field)]
  | .hostSignal die queue => [(die < 8, .field), (queue < 2048, .field)]
  | .hostCloseQueue die queue => [(die < 8, .field), (queue < 2048, .field)]
  | .msixCoalesceEnd port vector => [(port < 2, .field), (vector < 2048, .field)]
  | .eventStatusClear _ => []
  | .deviceRegisterWrite _ _ => []
  | .cxlMemWrite pa (.bytes _) => [(pa < 2 ^ 53, .field)]
  | .cxlMemWrite pa (.rmw x) => [(pa < 2 ^ 53, .field), (0x28 ≤ x.major && x.major ≤ 0x2A, .field)]
  | .cxlMemRead pa _ => [(pa < 2 ^ 53, .field)]
  | .wotisRead f => flitChecks f 1
  | .wotisWrite f => flitChecks f 2
  | .wotisAtomic f => flitChecks f 3
  | .wotisResponse f => flitChecks f 4
  | .wotisCopyData f => flitChecks f 5
  | .wotisEvent f => flitChecks f 6
  | .linkRetrained link => [(link < 24, .field)]
  | .linkLost link => [(link < 24, .field)]
  | .resync => []
  | .resyncDone => []
  | .attestationRequest _ => []
  | .attestationReportReady => []
  | .throttle die => [(die < 8, .field)]
  | .thermalFreeze => []
  | .freeze => []
  | .coldReset => []
  | .warmReset => []
  | .bootImageCheck => []
  | .testLogicReset => []
  | .extest => []
  | .samplePreload => []
  | .idcode => []
  | .daddr _ => []
  | .ddata => []
  | .dstat => []
  | .bypass => []
  | .illegalInstruction => []
  | .codeNotLanded => []
  | .powerLoss => []

def firstError : List (Bool × WfError) → Except WfError Unit
  | [] => .ok ()
  | (true, _) :: cs => firstError cs
  | (false, e) :: _ => .error e

/-- The first failing check of an instruction, by name. -/
def Instr.check (i : Instr) : Except WfError Unit := firstError i.checks

/-- An instruction all of whose checks pass. -/
def Instr.wf (i : Instr) : Bool := i.checks.all (·.1)

end Sys2Proof
end

