-- ==== Sys2Proof/Decode.lean ====
section
/-! DEFINITION. The decoder and the encoder: words to instructions by the formats of R35-R43 and the maps of R75-R80,
total and rejecting by name; and the words of a well-formed instruction. Every row is a mask, a pattern and the way its
fields are read. -/

namespace Sys2Proof

/-- Why words decode to no instruction. -/
inductive Reject where
  /-- no word -/
  | empty
  /-- a reserved major (R74, check 2 of R55) -/
  | reservedMajor
  /-- an unassigned funct or sub-code, or a field that must be zero (R74, checks 4 and 5) -/
  | unassigned
  /-- a register code that names nothing there (R40, R41) -/
  | registerCode
  /-- uniform fields that code both ext32 and ext64 (R43) -/
  | extensionMix
  /-- the extension words do not follow -/
  | truncated
  /-- a check of WellFormed fails -/
  | illFormed (e : WfError)
deriving DecidableEq, Repr

abbrev Builder := Word → List Word → Except Reject Instr

/-- A row of the opcode map: the bits it fixes and how the others are read. -/
structure Row where
  mask  : Nat
  value : Nat
  build : Builder

/-- The field of k bits at bit lo. -/
def fld (w : Word) (lo k : Nat) : Nat := w.toNat / 2 ^ lo % 2 ^ k

def ldst (c : Nat) : Except Reject LDst :=
  if c < 56 then .ok (.v c) else if c = 60 then .ok .z else .error .registerCode

def lsrc (ext : List Word) (c : Nat) : Except Reject LSrc :=
  if c < 56 then .ok (.v c)
  else if c < 60 then .ok (.l (c - 56))
  else if c = 60 then .ok .z
  else if c = 61 then .ok .lid
  else if c = 62 then
    match ext with
    | w :: _ => .ok (.ext w)
    | [] => .error .truncated
  else .error .registerCode

def udst (c : Nat) : Except Reject UDst :=
  if c < 56 then .ok (.s c) else if c = 60 then .ok .z else .error .registerCode

def usrc (ext : List Word) (c : Nat) : Except Reject USrc :=
  if c < 56 then .ok (.s c)
  else if c < 60 then .ok (.q (c - 56))
  else if c = 60 then .ok .z
  else if c = 61 then
    match ext with
    | w :: _ => .ok (.ext32 w)
    | [] => .error .truncated
  else if c = 62 then
    match ext with
    | lo :: hi :: _ => .ok (.ext64 (hi ++ lo))
    | _ => .error .truncated
  else .error .registerCode

/-- How many uniform extension words the uniform field codes call for (R43). -/
def uniformExt (cs : List Nat) : Except Reject Nat :=
  match cs.contains 61, cs.contains 62 with
  | true, true => .error .extensionMix
  | true, false => .ok 1
  | false, true => .ok 2
  | false, false => .ok 0

/-- The index or scope of an LM word (R37). -/
def addr (ext : List Word) (w : Word) : Except Reject Addr :=
  if fld w 3 1 = 0 then do
    let b ← lsrc ext (fld w 7 6)
    pure (.plain b)
  else if fld w 7 3 = 0 then .ok (.ordered (fld w 10 3)) else .error .unassigned

def mdst (w : Word) : Except Reject MDst :=
  if fld w 1 1 = 0 then do
    let d ← udst (fld w 19 6)
    pure (.u d)
  else do
    let d ← ldst (fld w 19 6)
    pure (.v d)

def msrc (ext : List Word) (w : Word) : Except Reject MSrc :=
  if fld w 1 1 = 0 then do
    let a ← usrc ext (fld w 19 6)
    pure (.u a)
  else do
    let a ← lsrc ext (fld w 19 6)
    pure (.v a)

/- The rest of the decoder carries no code: an inductive of 415 constructors has more than the runtime of Lean can tag;
the kernel evaluates it all the same. -/
noncomputable section

def decD19L13L7B3N0 (mk : LDst → LSrc → LSrc → Bool → Nat → Instr) : Builder := fun w ext => do
  let x0 ← ldst (fld w 19 6)
  let x1 ← lsrc ext (fld w 13 6)
  let x2 ← lsrc ext (fld w 7 6)
  pure (mk x0 x1 x2 (fld w 3 1 == 1) (fld w 0 3))

def decD19L13B3N0 (mk : LDst → LSrc → Bool → Nat → Instr) : Builder := fun w ext => do
  let x0 ← ldst (fld w 19 6)
  let x1 ← lsrc ext (fld w 13 6)
  pure (mk x0 x1 (fld w 3 1 == 1) (fld w 0 3))

def decN19L13L7N0 (mk : Nat → LSrc → LSrc → Nat → Instr) : Builder := fun w ext => do
  let x1 ← lsrc ext (fld w 13 6)
  let x2 ← lsrc ext (fld w 7 6)
  pure (mk (fld w 19 6) x1 x2 (fld w 0 3))

def decN19N13N7N0w6663 (mk : Nat → Nat → Nat → Nat → Instr) : Builder := fun w _ => do
  pure (mk (fld w 19 6) (fld w 13 6) (fld w 7 6) (fld w 0 3))

def decN19N13N0 (mk : Nat → Nat → Nat → Instr) : Builder := fun w _ => do
  pure (mk (fld w 19 6) (fld w 13 6) (fld w 0 3))

def decD19N13B3N0 (mk : LDst → Nat → Bool → Nat → Instr) : Builder := fun w _ => do
  let x0 ← ldst (fld w 19 6)
  pure (mk x0 (fld w 13 6) (fld w 3 1 == 1) (fld w 0 3))

def decN19L13N0 (mk : Nat → LSrc → Nat → Instr) : Builder := fun w ext => do
  let x1 ← lsrc ext (fld w 13 6)
  pure (mk (fld w 19 6) x1 (fld w 0 3))

def decD19U13B3N0 (mk : LDst → USrc → Bool → Nat → Instr) : Builder := fun w ext => do
  let _ ← uniformExt [fld w 13 6]
  let x0 ← ldst (fld w 19 6)
  let x1 ← usrc ext (fld w 13 6)
  pure (mk x0 x1 (fld w 3 1 == 1) (fld w 0 3))

def decD19L13I0 (mk : LDst → LSrc → (BitVec 13) → Instr) : Builder := fun w ext => do
  let x0 ← ldst (fld w 19 6)
  let x1 ← lsrc ext (fld w 13 6)
  pure (mk x0 x1 (BitVec.ofNat 13 (fld w 0 13)))

def decD19L13N0w5 (mk : LDst → LSrc → Nat → Instr) : Builder := fun w ext => do
  let x0 ← ldst (fld w 19 6)
  let x1 ← lsrc ext (fld w 13 6)
  pure (mk x0 x1 (fld w 0 5))

def decN19L13I0 (mk : Nat → LSrc → (BitVec 10) → Instr) : Builder := fun w ext => do
  let x1 ← lsrc ext (fld w 13 6)
  pure (mk (fld w 19 6) x1 (BitVec.ofNat 10 (fld w 0 10)))

def decD19I0 (mk : LDst → (BitVec 13) → Instr) : Builder := fun w _ => do
  let x0 ← ldst (fld w 19 6)
  pure (mk x0 (BitVec.ofNat 13 (fld w 0 13)))

def decD19L13N10B3N0 (mk : LDst → LSrc → Nat → Bool → Nat → Instr) : Builder := fun w ext => do
  let x0 ← ldst (fld w 19 6)
  let x1 ← lsrc ext (fld w 13 6)
  pure (mk x0 x1 (fld w 10 3) (fld w 3 1 == 1) (fld w 0 3))

def decD19B3N0 (mk : LDst → Bool → Nat → Instr) : Builder := fun w _ => do
  let x0 ← ldst (fld w 19 6)
  pure (mk x0 (fld w 3 1 == 1) (fld w 0 3))

def decL13N0 (mk : LSrc → Nat → Instr) : Builder := fun w ext => do
  let x0 ← lsrc ext (fld w 13 6)
  pure (mk x0 (fld w 0 3))

def decD19L13M3N4N0 (mk : LDst → LSrc → Addr → Nat → Nat → Instr) : Builder := fun w ext => do
  let x0 ← ldst (fld w 19 6)
  let x1 ← lsrc ext (fld w 13 6)
  let x2 ← addr ext w
  pure (mk x0 x1 x2 (fld w 4 3) (fld w 0 3))

def decL19L13M3N4N0 (mk : LSrc → LSrc → Addr → Nat → Nat → Instr) : Builder := fun w ext => do
  let x0 ← lsrc ext (fld w 19 6)
  let x1 ← lsrc ext (fld w 13 6)
  let x2 ← addr ext w
  pure (mk x0 x1 x2 (fld w 4 3) (fld w 0 3))

def decD19L13N7B3N0 (mk : LDst → LSrc → Nat → Bool → Nat → Instr) : Builder := fun w ext => do
  let x0 ← ldst (fld w 19 6)
  let x1 ← lsrc ext (fld w 13 6)
  pure (mk x0 x1 (fld w 7 6) (fld w 3 1 == 1) (fld w 0 3))

def decD19L13L7N0 (mk : LDst → LSrc → LSrc → Nat → Instr) : Builder := fun w ext => do
  let x0 ← ldst (fld w 19 6)
  let x1 ← lsrc ext (fld w 13 6)
  let x2 ← lsrc ext (fld w 7 6)
  pure (mk x0 x1 x2 (fld w 0 3))

def decD19L13N7N0 (mk : LDst → LSrc → Nat → Nat → Instr) : Builder := fun w ext => do
  let x0 ← ldst (fld w 19 6)
  let x1 ← lsrc ext (fld w 13 6)
  pure (mk x0 x1 (fld w 7 6) (fld w 0 3))

def decD19L13L7B3 (mk : LDst → LSrc → LSrc → Bool → Instr) : Builder := fun w ext => do
  let x0 ← ldst (fld w 19 6)
  let x1 ← lsrc ext (fld w 13 6)
  let x2 ← lsrc ext (fld w 7 6)
  pure (mk x0 x1 x2 (fld w 3 1 == 1))

def decL19L13L7N0 (mk : LSrc → LSrc → LSrc → Nat → Instr) : Builder := fun w ext => do
  let x0 ← lsrc ext (fld w 19 6)
  let x1 ← lsrc ext (fld w 13 6)
  let x2 ← lsrc ext (fld w 7 6)
  pure (mk x0 x1 x2 (fld w 0 3))

def decD19L13N0w3 (mk : LDst → LSrc → Nat → Instr) : Builder := fun w ext => do
  let x0 ← ldst (fld w 19 6)
  let x1 ← lsrc ext (fld w 13 6)
  pure (mk x0 x1 (fld w 0 3))

def decN19N13N7B6B3N0 (mk : Nat → Nat → Nat → Bool → Bool → Nat → Instr) : Builder := fun w _ => do
  pure (mk (fld w 19 6) (fld w 13 6) (fld w 7 6) (fld w 6 1 == 1) (fld w 3 1 == 1) (fld w 0 3))

def decN19N13N7B6N4B3N0 (mk : Nat → Nat → Nat → Bool → Nat → Bool → Nat → Instr) : Builder := fun w _ => do
  pure (mk (fld w 19 6) (fld w 13 6) (fld w 7 6) (fld w 6 1 == 1) (fld w 4 2) (fld w 3 1 == 1) (fld w 0 3))

def decN19B18I0 (mk : Nat → Bool → (BitVec 18) → Instr) : Builder := fun w _ => do
  pure (mk (fld w 19 6) (fld w 18 1 == 1) (BitVec.ofNat 18 (fld w 0 18)))

def decE19U13U7B3N0 (mk : UDst → USrc → USrc → Bool → Nat → Instr) : Builder := fun w ext => do
  let _ ← uniformExt [fld w 13 6, fld w 7 6]
  let x0 ← udst (fld w 19 6)
  let x1 ← usrc ext (fld w 13 6)
  let x2 ← usrc ext (fld w 7 6)
  pure (mk x0 x1 x2 (fld w 3 1 == 1) (fld w 0 3))

def decE19U13B3N0 (mk : UDst → USrc → Bool → Nat → Instr) : Builder := fun w ext => do
  let _ ← uniformExt [fld w 13 6]
  let x0 ← udst (fld w 19 6)
  let x1 ← usrc ext (fld w 13 6)
  pure (mk x0 x1 (fld w 3 1 == 1) (fld w 0 3))

def decN19U13U7N0 (mk : Nat → USrc → USrc → Nat → Instr) : Builder := fun w ext => do
  let _ ← uniformExt [fld w 13 6, fld w 7 6]
  let x1 ← usrc ext (fld w 13 6)
  let x2 ← usrc ext (fld w 7 6)
  pure (mk (fld w 19 6) x1 x2 (fld w 0 3))

def decN19N13N7N0w6633 (mk : Nat → Nat → Nat → Nat → Instr) : Builder := fun w _ => do
  pure (mk (fld w 19 6) (fld w 13 6) (fld w 7 3) (fld w 0 3))

def decE19L13B3N0 (mk : UDst → LSrc → Bool → Nat → Instr) : Builder := fun w ext => do
  let x0 ← udst (fld w 19 6)
  let x1 ← lsrc ext (fld w 13 6)
  pure (mk x0 x1 (fld w 3 1 == 1) (fld w 0 3))

def decN0 (mk : Nat → Instr) : Builder := fun w _ => do
  pure (mk (fld w 0 3))

def decU13N0 (mk : USrc → Nat → Instr) : Builder := fun w ext => do
  let _ ← uniformExt [fld w 13 6]
  let x0 ← usrc ext (fld w 13 6)
  pure (mk x0 (fld w 0 3))

def decE19U13I0 (mk : UDst → USrc → (BitVec 13) → Instr) : Builder := fun w ext => do
  let _ ← uniformExt [fld w 13 6]
  let x0 ← udst (fld w 19 6)
  let x1 ← usrc ext (fld w 13 6)
  pure (mk x0 x1 (BitVec.ofNat 13 (fld w 0 13)))

def decE19U13N0 (mk : UDst → USrc → Nat → Instr) : Builder := fun w ext => do
  let _ ← uniformExt [fld w 13 6]
  let x0 ← udst (fld w 19 6)
  let x1 ← usrc ext (fld w 13 6)
  pure (mk x0 x1 (fld w 0 6))

def decN19U13I0 (mk : Nat → USrc → (BitVec 10) → Instr) : Builder := fun w ext => do
  let _ ← uniformExt [fld w 13 6]
  let x1 ← usrc ext (fld w 13 6)
  pure (mk (fld w 19 6) x1 (BitVec.ofNat 10 (fld w 0 10)))

def decE19I0 (mk : UDst → (BitVec 13) → Instr) : Builder := fun w _ => do
  let x0 ← udst (fld w 19 6)
  pure (mk x0 (BitVec.ofNat 13 (fld w 0 13)))

def decU19U13I0 (mk : USrc → USrc → (BitVec 13) → Instr) : Builder := fun w ext => do
  let _ ← uniformExt [fld w 19 6, fld w 13 6]
  let x0 ← usrc ext (fld w 19 6)
  let x1 ← usrc ext (fld w 13 6)
  pure (mk x0 x1 (BitVec.ofNat 13 (fld w 0 13)))

def decN22B21I0 (mk : Nat → Bool → (BitVec 21) → Instr) : Builder := fun w _ => do
  pure (mk (fld w 22 3) (fld w 21 1 == 1) (BitVec.ofNat 21 (fld w 0 21)))

def decN19B18B17B16 (mk : Nat → Bool → Bool → Bool → Instr) : Builder := fun w _ => do
  pure (mk (fld w 19 6) (fld w 18 1 == 1) (fld w 17 1 == 1) (fld w 16 1 == 1))

def decN19B18 (mk : Nat → Bool → Instr) : Builder := fun w _ => do
  pure (mk (fld w 19 6) (fld w 18 1 == 1))

def decN23B22N16I0 (mk : Nat → Bool → Nat → (BitVec 16) → Instr) : Builder := fun w _ => do
  pure (mk (fld w 23 2) (fld w 22 1 == 1) (fld w 16 6) (BitVec.ofNat 16 (fld w 0 16)))

def decU19U13 (mk : USrc → USrc → Instr) : Builder := fun w ext => do
  let _ ← uniformExt [fld w 19 6, fld w 13 6]
  let x0 ← usrc ext (fld w 19 6)
  let x1 ← usrc ext (fld w 13 6)
  pure (mk x0 x1)

def decU19L13 (mk : USrc → LSrc → Instr) : Builder := fun w ext => do
  let nu ← uniformExt [fld w 19 6]
  let x0 ← usrc ext (fld w 19 6)
  let x1 ← lsrc (ext.drop nu) (fld w 13 6)
  pure (mk x0 x1)

def decU19B0 (mk : USrc → Bool → Instr) : Builder := fun w ext => do
  let _ ← uniformExt [fld w 19 6]
  let x0 ← usrc ext (fld w 19 6)
  pure (mk x0 (fld w 0 1 == 1))

def decX0 (mk : Instr) : Builder := fun _ _ => do
  pure (mk)

def decU19 (mk : USrc → Instr) : Builder := fun w ext => do
  let _ ← uniformExt [fld w 19 6]
  let x0 ← usrc ext (fld w 19 6)
  pure (mk x0)

def decN19 (mk : Nat → Instr) : Builder := fun w _ => do
  pure (mk (fld w 19 6))

def decE19N7 (mk : UDst → Nat → Instr) : Builder := fun w _ => do
  let x0 ← udst (fld w 19 6)
  pure (mk x0 (fld w 7 6))

def decN19U13 (mk : Nat → USrc → Instr) : Builder := fun w ext => do
  let _ ← uniformExt [fld w 13 6]
  let x1 ← usrc ext (fld w 13 6)
  pure (mk (fld w 19 6) x1)

def decE19U13 (mk : UDst → USrc → Instr) : Builder := fun w ext => do
  let _ ← uniformExt [fld w 13 6]
  let x0 ← udst (fld w 19 6)
  let x1 ← usrc ext (fld w 13 6)
  pure (mk x0 x1)

def decU19N13U7 (mk : USrc → Nat → USrc → Instr) : Builder := fun w ext => do
  let _ ← uniformExt [fld w 19 6, fld w 7 6]
  let x0 ← usrc ext (fld w 19 6)
  let x2 ← usrc ext (fld w 7 6)
  pure (mk x0 (fld w 13 6) x2)

def decN19U13U7B4 (mk : Nat → USrc → USrc → Bool → Instr) : Builder := fun w ext => do
  let _ ← uniformExt [fld w 13 6, fld w 7 6]
  let x1 ← usrc ext (fld w 13 6)
  let x2 ← usrc ext (fld w 7 6)
  pure (mk (fld w 19 6) x1 x2 (fld w 4 1 == 1))

def decN19U13U7B4B3 (mk : Nat → USrc → USrc → Bool → Bool → Instr) : Builder := fun w ext => do
  let _ ← uniformExt [fld w 13 6, fld w 7 6]
  let x1 ← usrc ext (fld w 13 6)
  let x2 ← usrc ext (fld w 7 6)
  pure (mk (fld w 19 6) x1 x2 (fld w 4 1 == 1) (fld w 3 1 == 1))

def decN19U13U7 (mk : Nat → USrc → USrc → Instr) : Builder := fun w ext => do
  let _ ← uniformExt [fld w 13 6, fld w 7 6]
  let x1 ← usrc ext (fld w 13 6)
  let x2 ← usrc ext (fld w 7 6)
  pure (mk (fld w 19 6) x1 x2)

def decU19U13U7 (mk : USrc → USrc → USrc → Instr) : Builder := fun w ext => do
  let _ ← uniformExt [fld w 19 6, fld w 13 6, fld w 7 6]
  let x0 ← usrc ext (fld w 19 6)
  let x1 ← usrc ext (fld w 13 6)
  let x2 ← usrc ext (fld w 7 6)
  pure (mk x0 x1 x2)

def decU19N13 (mk : USrc → Nat → Instr) : Builder := fun w ext => do
  let _ ← uniformExt [fld w 19 6]
  let x0 ← usrc ext (fld w 19 6)
  pure (mk x0 (fld w 13 6))

def decU19U13E7 (mk : USrc → USrc → UDst → Instr) : Builder := fun w ext => do
  let _ ← uniformExt [fld w 19 6, fld w 13 6]
  let x0 ← usrc ext (fld w 19 6)
  let x1 ← usrc ext (fld w 13 6)
  let x2 ← udst (fld w 7 6)
  pure (mk x0 x1 x2)

def decU13 (mk : USrc → Instr) : Builder := fun w ext => do
  let _ ← uniformExt [fld w 13 6]
  let x0 ← usrc ext (fld w 13 6)
  pure (mk x0)

def decP19N13 (mk : MDst → Nat → Instr) : Builder := fun w _ => do
  let x0 ← mdst w
  pure (mk x0 (fld w 13 6))

def decQ19N13 (mk : MSrc → Nat → Instr) : Builder := fun w ext => do
  let x0 ← msrc ext w
  pure (mk x0 (fld w 13 6))

def decE19U13U7 (mk : UDst → USrc → USrc → Instr) : Builder := fun w ext => do
  let _ ← uniformExt [fld w 13 6, fld w 7 6]
  let x0 ← udst (fld w 19 6)
  let x1 ← usrc ext (fld w 13 6)
  let x2 ← usrc ext (fld w 7 6)
  pure (mk x0 x1 x2)

def decE19N13 (mk : UDst → Nat → Instr) : Builder := fun w _ => do
  let x0 ← udst (fld w 19 6)
  pure (mk x0 (fld w 13 6))

def rows00 : List Row := [
  ⟨0xFE000070, 0x00000000, decD19L13L7B3N0 Instr.add⟩,
  ⟨0xFE000070, 0x00000010, decD19L13L7B3N0 Instr.sub⟩,
  ⟨0xFE000070, 0x00000020, decD19L13L7B3N0 Instr.minI⟩,
  ⟨0xFE000070, 0x00000030, decD19L13L7B3N0 Instr.maxI⟩,
  ⟨0xFE000070, 0x00000040, decD19L13L7B3N0 Instr.minN⟩,
  ⟨0xFE000070, 0x00000050, decD19L13L7B3N0 Instr.maxN⟩,
  ⟨0xFE001FF0, 0x00000060, decD19L13B3N0 Instr.abs⟩,
  ⟨0xFE001FF0, 0x00000070, decD19L13B3N0 Instr.neg⟩]

def rows01 : List Row := [
  ⟨0xFE000070, 0x02000000, decD19L13L7B3N0 Instr.and⟩,
  ⟨0xFE000070, 0x02000010, decD19L13L7B3N0 Instr.or⟩,
  ⟨0xFE000070, 0x02000020, decD19L13L7B3N0 Instr.xor⟩,
  ⟨0xFE000070, 0x02000030, decD19L13L7B3N0 Instr.andn⟩,
  ⟨0xFE000070, 0x02000040, decD19L13L7B3N0 Instr.shl⟩,
  ⟨0xFE000070, 0x02000050, decD19L13L7B3N0 Instr.shr⟩,
  ⟨0xFE000070, 0x02000060, decD19L13L7B3N0 Instr.sar⟩,
  ⟨0xFE000070, 0x02000070, decD19L13L7B3N0 Instr.rol⟩]

def rows02 : List Row := [
  ⟨0xFE000070, 0x04000000, decD19L13L7B3N0 Instr.mul⟩,
  ⟨0xFE000070, 0x04000010, decD19L13L7B3N0 Instr.mulhI⟩,
  ⟨0xFE000070, 0x04000020, decD19L13L7B3N0 Instr.mulhN⟩,
  ⟨0xFE000070, 0x04000030, decD19L13L7B3N0 Instr.mad⟩,
  ⟨0xFE000070, 0x04000040, decD19L13L7B3N0 Instr.divI⟩,
  ⟨0xFE000070, 0x04000050, decD19L13L7B3N0 Instr.divN⟩,
  ⟨0xFE000070, 0x04000060, decD19L13L7B3N0 Instr.remI⟩,
  ⟨0xFE000070, 0x04000070, decD19L13L7B3N0 Instr.remN⟩]

def rows03 : List Row := [
  ⟨0xFE001FF0, 0x06000000, decD19L13B3N0 Instr.clz⟩,
  ⟨0xFE001FF0, 0x06000010, decD19L13B3N0 Instr.popc⟩,
  ⟨0xFE001FF0, 0x06000020, decD19L13B3N0 Instr.brev⟩,
  ⟨0xFE000070, 0x06000030, decD19L13L7B3N0 Instr.bfeI⟩,
  ⟨0xFE000070, 0x06000040, decD19L13L7B3N0 Instr.bfeN⟩,
  ⟨0xFE000070, 0x06000050, decD19L13L7B3N0 Instr.bfi⟩,
  ⟨0xFE000070, 0x06000060, decD19L13L7B3N0 Instr.bmix⟩,
  ⟨0xFE000070, 0x06000070, decD19L13L7B3N0 Instr.sext⟩]

def rows04 : List Row := [
  ⟨0xFE000078, 0x08000000, decN19L13L7N0 Instr.eq⟩,
  ⟨0xFE000078, 0x08000010, decN19L13L7N0 Instr.ne⟩,
  ⟨0xFE000078, 0x08000020, decN19L13L7N0 Instr.ltI⟩,
  ⟨0xFE000078, 0x08000030, decN19L13L7N0 Instr.leI⟩,
  ⟨0xFE000078, 0x08000040, decN19L13L7N0 Instr.ltN⟩,
  ⟨0xFE000078, 0x08000050, decN19L13L7N0 Instr.leN⟩,
  ⟨0xFE000078, 0x08000060, decN19L13L7N0 Instr.tst⟩]

def rows05 : List Row := [
  ⟨0xFE000078, 0x0A000000, decN19N13N7N0w6663 Instr.pand⟩,
  ⟨0xFE000078, 0x0A000010, decN19N13N7N0w6663 Instr.por⟩,
  ⟨0xFE000078, 0x0A000020, decN19N13N7N0w6663 Instr.pxor⟩,
  ⟨0xFE000078, 0x0A000030, decN19N13N7N0w6663 Instr.pandn⟩,
  ⟨0xFE001FF8, 0x0A000040, decN19N13N0 Instr.pnot⟩,
  ⟨0xFE001FF0, 0x0A000050, decD19N13B3N0 Instr.ptov⟩,
  ⟨0xFE001FF8, 0x0A000060, decN19L13N0 Instr.vtop⟩]

def rows06 : List Row := [
  ⟨0xFE001FF0, 0x0C000000, decD19L13B3N0 Instr.mov⟩,
  ⟨0xFE000070, 0x0C000010, decD19L13L7B3N0 Instr.sel⟩,
  ⟨0xFE001FF0, 0x0C000020, decD19U13B3N0 Instr.movs⟩,
  ⟨0xFE001FF0, 0x0C000030, decD19U13B3N0 Instr.movu⟩,
  ⟨0xFE000070, 0x0C000040, decD19L13L7B3N0 Instr.add64⟩,
  ⟨0xFE000070, 0x0C000050, decD19L13L7B3N0 Instr.sub64⟩,
  ⟨0xFE000070, 0x0C000060, decD19L13L7B3N0 Instr.shl64⟩,
  ⟨0xFE000070, 0x0C000070, decD19L13L7B3N0 Instr.lea⟩]

def rows08 : List Row := [
  ⟨0xFE000000, 0x10000000, decD19L13I0 Instr.addi⟩]

def rows09 : List Row := [
  ⟨0xFE000000, 0x12000000, decD19L13I0 Instr.andi⟩]

def rows0A : List Row := [
  ⟨0xFE000000, 0x14000000, decD19L13I0 Instr.ori⟩]

def rows0B : List Row := [
  ⟨0xFE000000, 0x16000000, decD19L13I0 Instr.xori⟩]

def rows0C : List Row := [
  ⟨0xFE001FE0, 0x18000000, decD19L13N0w5 Instr.shiShl⟩,
  ⟨0xFE001FE0, 0x18000800, decD19L13N0w5 Instr.shiShr⟩,
  ⟨0xFE001FE0, 0x18001000, decD19L13N0w5 Instr.shiSar⟩,
  ⟨0xFE001FE0, 0x18001800, decD19L13N0w5 Instr.shiRol⟩]

def rows0D : List Row := [
  ⟨0xFE001C00, 0x1A000000, decN19L13I0 Instr.cmpiEq⟩,
  ⟨0xFE001C00, 0x1A000400, decN19L13I0 Instr.cmpiNe⟩,
  ⟨0xFE001C00, 0x1A000800, decN19L13I0 Instr.cmpiLtI⟩,
  ⟨0xFE001C00, 0x1A000C00, decN19L13I0 Instr.cmpiLeI⟩,
  ⟨0xFE001C00, 0x1A001000, decN19L13I0 Instr.cmpiLtN⟩,
  ⟨0xFE001C00, 0x1A001400, decN19L13I0 Instr.cmpiLeN⟩,
  ⟨0xFE001C00, 0x1A001800, decN19L13I0 Instr.cmpiTst⟩]

def rows0E : List Row := [
  ⟨0xFE07E000, 0x1C000000, decD19I0 Instr.movi⟩]

def rows0F : List Row := [
  ⟨0xFE000000, 0x1E000000, decD19L13I0 Instr.leai⟩]

def rows10 : List Row := [
  ⟨0xFE000070, 0x20000000, decD19L13L7B3N0 Instr.fadd⟩,
  ⟨0xFE000070, 0x20000010, decD19L13L7B3N0 Instr.fsub⟩,
  ⟨0xFE000070, 0x20000020, decD19L13L7B3N0 Instr.fmul⟩,
  ⟨0xFE000070, 0x20000030, decD19L13L7B3N0 Instr.ffma⟩,
  ⟨0xFE000070, 0x20000040, decD19L13L7B3N0 Instr.fmin⟩,
  ⟨0xFE000070, 0x20000050, decD19L13L7B3N0 Instr.fmax⟩,
  ⟨0xFE000070, 0x20000060, decD19L13L7B3N0 Instr.fnma⟩,
  ⟨0xFE000070, 0x20000070, decD19L13L7B3N0 Instr.fdiv⟩]

def rows11 : List Row := [
  ⟨0xFE000078, 0x22000000, decN19L13L7N0 Instr.fcmpEq⟩,
  ⟨0xFE000078, 0x22000010, decN19L13L7N0 Instr.fcmpNe⟩,
  ⟨0xFE000078, 0x22000020, decN19L13L7N0 Instr.fcmpLt⟩,
  ⟨0xFE000078, 0x22000030, decN19L13L7N0 Instr.fcmpLe⟩,
  ⟨0xFE000078, 0x22000040, decN19L13L7N0 Instr.fcmpUn⟩,
  ⟨0xFE000078, 0x22000050, decN19L13L7N0 Instr.fcmpTolt⟩,
  ⟨0xFE000078, 0x22000060, decN19L13L7N0 Instr.fcmpTole⟩,
  ⟨0xFE000078, 0x22000070, decN19L13L7N0 Instr.fcmpClass⟩]

def rows12 : List Row := [
  ⟨0xFE000070, 0x24000000, decD19L13L7B3N0 Instr.dadd⟩,
  ⟨0xFE000070, 0x24000010, decD19L13L7B3N0 Instr.dsub⟩,
  ⟨0xFE000070, 0x24000020, decD19L13L7B3N0 Instr.dmul⟩,
  ⟨0xFE000070, 0x24000030, decD19L13L7B3N0 Instr.dfma⟩,
  ⟨0xFE000070, 0x24000040, decD19L13L7B3N0 Instr.dmin⟩,
  ⟨0xFE000070, 0x24000050, decD19L13L7B3N0 Instr.dmax⟩,
  ⟨0xFE000070, 0x24000060, decD19L13L7B3N0 Instr.ddiv⟩,
  ⟨0xFE001FF0, 0x24000070, decD19L13B3N0 Instr.dsqrt⟩]

def rows13 : List Row := [
  ⟨0xFE000070, 0x26000000, decD19L13L7B3N0 Instr.haddF16⟩,
  ⟨0xFE000070, 0x26000010, decD19L13L7B3N0 Instr.hmulF16⟩,
  ⟨0xFE000070, 0x26000020, decD19L13L7B3N0 Instr.hfmaF16⟩,
  ⟨0xFE000070, 0x26000030, decD19L13L7B3N0 Instr.haddBf16⟩,
  ⟨0xFE000070, 0x26000040, decD19L13L7B3N0 Instr.hmulBf16⟩,
  ⟨0xFE000070, 0x26000050, decD19L13L7B3N0 Instr.hfmaBf16⟩,
  ⟨0xFE000070, 0x26000060, decD19L13L7B3N0 Instr.hmin⟩,
  ⟨0xFE000070, 0x26000070, decD19L13L7B3N0 Instr.hmax⟩]

def rows14 : List Row := [
  ⟨0xFE0003F0, 0x28000000, decD19L13N10B3N0 Instr.cvtI32F32⟩,
  ⟨0xFE0003F0, 0x28000010, decD19L13N10B3N0 Instr.cvtN32F32⟩,
  ⟨0xFE0003F0, 0x28000020, decD19L13N10B3N0 Instr.cvtF32I32⟩,
  ⟨0xFE0003F0, 0x28000030, decD19L13N10B3N0 Instr.cvtF32N32⟩,
  ⟨0xFE001FF0, 0x28000040, decD19L13B3N0 Instr.cvtBf16F32⟩,
  ⟨0xFE001FF0, 0x28000050, decD19L13B3N0 Instr.cvtF16F32⟩,
  ⟨0xFE001FF0, 0x28000060, decD19L13B3N0 Instr.cvtF32Bf16⟩,
  ⟨0xFE001FF0, 0x28000070, decD19L13B3N0 Instr.cvtF32F16⟩]

def rows15 : List Row := [
  ⟨0xFE001FF0, 0x2A000000, decD19L13B3N0 Instr.cvtE4m3F32⟩,
  ⟨0xFE001FF0, 0x2A000010, decD19L13B3N0 Instr.cvtE5m2F32⟩,
  ⟨0xFE001FF0, 0x2A000020, decD19L13B3N0 Instr.cvtI8F32⟩,
  ⟨0xFE001FF0, 0x2A0000A0, decD19L13B3N0 Instr.cvtI8I32⟩,
  ⟨0xFE001FF0, 0x2A000030, decD19L13B3N0 Instr.cvtI16F32⟩,
  ⟨0xFE001FF0, 0x2A0000B0, decD19L13B3N0 Instr.cvtI16I32⟩,
  ⟨0xFE001FF0, 0x2A000040, decD19L13B3N0 Instr.cvtF32E4m3⟩,
  ⟨0xFE001FF0, 0x2A000050, decD19L13B3N0 Instr.cvtF32E5m2⟩,
  ⟨0xFE001FF0, 0x2A000060, decD19L13B3N0 Instr.cvtBf16F32Sr⟩,
  ⟨0xFE001FF0, 0x2A000070, decD19L13B3N0 Instr.cvtE4m3F32Sr⟩]

def rows16 : List Row := [
  ⟨0xFE001FF0, 0x2C000000, decD19L13B3N0 Instr.packF4b⟩,
  ⟨0xFE000070, 0x2C000010, decD19L13L7B3N0 Instr.unpkF4b⟩,
  ⟨0xFE000070, 0x2C000020, decD19L13L7B3N0 Instr.scaleF4b⟩,
  ⟨0xFE001FF0, 0x2C000030, decD19L13B3N0 Instr.mx2f4b⟩]

def rows17 : List Row := [
  ⟨0xFE001FF0, 0x2E000000, decD19L13B3N0 Instr.rcp⟩,
  ⟨0xFE001FF0, 0x2E000010, decD19L13B3N0 Instr.rsq⟩,
  ⟨0xFE001FF0, 0x2E000020, decD19L13B3N0 Instr.sqrt⟩,
  ⟨0xFE001FF0, 0x2E000030, decD19L13B3N0 Instr.exp2⟩,
  ⟨0xFE001FF0, 0x2E000040, decD19L13B3N0 Instr.log2⟩,
  ⟨0xFE001FF0, 0x2E000050, decD19L13B3N0 Instr.sin⟩,
  ⟨0xFE001FF0, 0x2E000060, decD19L13B3N0 Instr.cos⟩,
  ⟨0xFE001FF0, 0x2E000070, decD19L13B3N0 Instr.tanh⟩]

def rows18 : List Row := [
  ⟨0xFE0003F0, 0x30000000, decD19L13N10B3N0 Instr.frnd⟩,
  ⟨0xFE001FF0, 0x30000010, decD19L13B3N0 Instr.key3⟩,
  ⟨0xFE07FFF0, 0x30000020, decD19B3N0 Instr.rng⟩,
  ⟨0xFFF81FF8, 0x31E00030, decL13N0 Instr.seed⟩,
  ⟨0xFE000070, 0x30000040, decD19L13L7B3N0 Instr.fscale⟩,
  ⟨0xFE001FF0, 0x30000050, decD19L13B3N0 Instr.fexp⟩]

def rows20 : List Row := [
  ⟨0xFE000000, 0x40000000, decD19L13M3N4N0 Instr.ldg⟩]

def rows21 : List Row := [
  ⟨0xFE000000, 0x42000000, decL19L13M3N4N0 Instr.stg⟩]

def rows22 : List Row := [
  ⟨0xFE000000, 0x44000000, decD19L13M3N4N0 Instr.lds⟩]

def rows23 : List Row := [
  ⟨0xFE000000, 0x46000000, decL19L13M3N4N0 Instr.sts⟩]

def rows24 : List Row := [
  ⟨0xFE000000, 0x48000000, decD19L13M3N4N0 Instr.ldk⟩]

def rows25 : List Row := [
  ⟨0xFE000000, 0x4A000000, decL19L13M3N4N0 Instr.stk⟩]

def rows26 : List Row := [
  ⟨0xFE000000, 0x4C000000, decL19L13M3N4N0 Instr.stx⟩]

def rows27 : List Row := [
  ⟨0xFE000000, 0x4E000000, decD19L13M3N4N0 Instr.ldp⟩]

def rows28 : List Row := [
  ⟨0xFE000070, 0x50000000, decD19L13L7B3N0 Instr.atomgAdd⟩,
  ⟨0xFE000070, 0x50000010, decD19L13L7B3N0 Instr.atomgMinI⟩,
  ⟨0xFE000070, 0x50000020, decD19L13L7B3N0 Instr.atomgMaxI⟩,
  ⟨0xFE000070, 0x50000030, decD19L13L7B3N0 Instr.atomgAnd⟩,
  ⟨0xFE000070, 0x50000040, decD19L13L7B3N0 Instr.atomgOr⟩,
  ⟨0xFE000070, 0x50000050, decD19L13L7B3N0 Instr.atomgXor⟩,
  ⟨0xFE000070, 0x50000060, decD19L13L7B3N0 Instr.atomgExch⟩,
  ⟨0xFE000070, 0x50000070, decD19L13N7B3N0 Instr.atomgCas⟩]

def rows29 : List Row := [
  ⟨0xFE000070, 0x52000000, decD19L13L7B3N0 Instr.atomgAddB64⟩,
  ⟨0xFE000070, 0x52000010, decD19L13L7B3N0 Instr.atomgMinIB64⟩,
  ⟨0xFE000070, 0x52000020, decD19L13L7B3N0 Instr.atomgMaxIB64⟩,
  ⟨0xFE000070, 0x52000030, decD19L13L7B3N0 Instr.atomgAndB64⟩,
  ⟨0xFE000070, 0x52000040, decD19L13L7B3N0 Instr.atomgOrB64⟩,
  ⟨0xFE000070, 0x52000050, decD19L13L7B3N0 Instr.atomgXorB64⟩,
  ⟨0xFE000070, 0x52000060, decD19L13L7B3N0 Instr.atomgExchB64⟩,
  ⟨0xFE000070, 0x52000070, decD19L13N7B3N0 Instr.atomgCasB64⟩]

def rows2A : List Row := [
  ⟨0xFE000070, 0x54000000, decD19L13L7B3N0 Instr.atomgIncb⟩,
  ⟨0xFE000070, 0x54000010, decD19L13L7B3N0 Instr.atomgDecb⟩,
  ⟨0xFE000070, 0x54000020, decD19L13L7B3N0 Instr.atomgFadd⟩,
  ⟨0xFE000070, 0x54000030, decD19L13L7B3N0 Instr.atomgFmin⟩,
  ⟨0xFE000070, 0x54000040, decD19L13L7B3N0 Instr.atomgFmax⟩,
  ⟨0xFE000070, 0x54000050, decD19L13L7B3N0 Instr.atomgMinN⟩,
  ⟨0xFE000070, 0x54000060, decD19L13L7B3N0 Instr.atomgMaxN⟩]

def rows2B : List Row := [
  ⟨0xFE000078, 0x56000000, decD19L13L7N0 Instr.atomsAdd⟩,
  ⟨0xFE000078, 0x56000010, decD19L13L7N0 Instr.atomsMinI⟩,
  ⟨0xFE000078, 0x56000020, decD19L13L7N0 Instr.atomsMaxI⟩,
  ⟨0xFE000078, 0x56000030, decD19L13L7N0 Instr.atomsAnd⟩,
  ⟨0xFE000078, 0x56000040, decD19L13L7N0 Instr.atomsOr⟩,
  ⟨0xFE000078, 0x56000050, decD19L13L7N0 Instr.atomsExch⟩,
  ⟨0xFE000078, 0x56000060, decD19L13N7N0 Instr.atomsCas⟩,
  ⟨0xFE000078, 0x56000070, decD19L13L7N0 Instr.atomsIncb⟩]

def rows2C : List Row := [
  ⟨0xFE000070, 0x58000000, decD19L13L7B3N0 Instr.xidx⟩,
  ⟨0xFE000070, 0x58000010, decD19L13L7B3N0 Instr.xxor⟩,
  ⟨0xFE000070, 0x58000020, decD19L13L7B3N0 Instr.xrot⟩,
  ⟨0xFE000070, 0x58000030, decD19L13L7B3N0 Instr.xshift⟩,
  ⟨0xFE000077, 0x58000040, decD19L13L7B3 Instr.xlid⟩,
  ⟨0xFE001FF8, 0x58000050, decN19N13N0 Instr.pany⟩,
  ⟨0xFE001FF8, 0x58000060, decN19N13N0 Instr.pall⟩,
  ⟨0xFE001FF0, 0x58000070, decD19N13B3N0 Instr.pmask⟩]

def rows2D : List Row := [
  ⟨0xFE001FF0, 0x5A000000, decD19L13B3N0 Instr.matchEq⟩,
  ⟨0xFE000070, 0x5A000010, decD19L13N7B3N0 Instr.compact⟩,
  ⟨0xFE001FF0, 0x5A000020, decD19L13B3N0 Instr.redAdd⟩,
  ⟨0xFE001FF0, 0x5A000030, decD19L13B3N0 Instr.redFadd⟩,
  ⟨0xFE001FF0, 0x5A000040, decD19L13B3N0 Instr.redMinI⟩,
  ⟨0xFE001FF0, 0x5A0000C0, decD19L13B3N0 Instr.redMinN⟩,
  ⟨0xFE001FF0, 0x5A000140, decD19L13B3N0 Instr.redMinF⟩,
  ⟨0xFE001FF0, 0x5A000050, decD19L13B3N0 Instr.redMaxI⟩,
  ⟨0xFE001FF0, 0x5A0000D0, decD19L13B3N0 Instr.redMaxN⟩,
  ⟨0xFE001FF0, 0x5A000150, decD19L13B3N0 Instr.redMaxF⟩,
  ⟨0xFE001FF0, 0x5A000060, decD19L13B3N0 Instr.scanAdd⟩,
  ⟨0xFE001FF0, 0x5A000070, decD19L13B3N0 Instr.mrank⟩]

def rows2E : List Row := [
  ⟨0xFE000070, 0x5C000000, decD19L13L7B3N0 Instr.garg⟩,
  ⟨0xFE000078, 0x5C000010, decL19L13L7N0 Instr.gres⟩]

def rows2F : List Row := [
  ⟨0xFE001FF8, 0x5E000000, decN19L13N0 Instr.rpush⟩]

def rows30 : List Row := [
  ⟨0xFE000030, 0x60000000, decN19N13N7B6B3N0 Instr.mfragBf16⟩]

def rows31 : List Row := [
  ⟨0xFE000030, 0x62000000, decN19N13N7B6B3N0 Instr.mfragF16⟩]

def rows32 : List Row := [
  ⟨0xFE000030, 0x64000000, decN19N13N7B6B3N0 Instr.mfragE4m3⟩]

def rows33 : List Row := [
  ⟨0xFE000030, 0x66000000, decN19N13N7B6B3N0 Instr.mfragE5m2⟩]

def rows34 : List Row := [
  ⟨0xFE000000, 0x68000000, decN19N13N7B6N4B3N0 Instr.mfragF4b⟩]

def rows35 : List Row := [
  ⟨0xFE000030, 0x6A000000, decN19N13N7B6B3N0 Instr.mfragI8⟩]

def rows36 : List Row := [
  ⟨0xFE000000, 0x6C000000, decN19B18I0 Instr.brl⟩]

def rows37 : List Row := [
  ⟨0xFE001FF8, 0x6E000000, decD19L13N0w3 Instr.jml⟩]

def rows40 : List Row := [
  ⟨0xFE000070, 0x80000000, decE19U13U7B3N0 Instr.uAdd⟩,
  ⟨0xFE000070, 0x80000010, decE19U13U7B3N0 Instr.uSub⟩,
  ⟨0xFE000070, 0x80000020, decE19U13U7B3N0 Instr.uMinI⟩,
  ⟨0xFE000070, 0x80000030, decE19U13U7B3N0 Instr.uMaxI⟩,
  ⟨0xFE000070, 0x80000040, decE19U13U7B3N0 Instr.uMinN⟩,
  ⟨0xFE000070, 0x80000050, decE19U13U7B3N0 Instr.uMaxN⟩,
  ⟨0xFE000070, 0x80000060, decE19U13U7B3N0 Instr.uMul⟩,
  ⟨0xFE000070, 0x80000070, decE19U13U7B3N0 Instr.uMulhN⟩]

def rows41 : List Row := [
  ⟨0xFE000070, 0x82000000, decE19U13U7B3N0 Instr.uAnd⟩,
  ⟨0xFE000070, 0x82000010, decE19U13U7B3N0 Instr.uOr⟩,
  ⟨0xFE000070, 0x82000020, decE19U13U7B3N0 Instr.uXor⟩,
  ⟨0xFE000070, 0x82000030, decE19U13U7B3N0 Instr.uAndn⟩,
  ⟨0xFE000070, 0x82000040, decE19U13U7B3N0 Instr.uShl⟩,
  ⟨0xFE000070, 0x82000050, decE19U13U7B3N0 Instr.uShr⟩,
  ⟨0xFE000070, 0x82000060, decE19U13U7B3N0 Instr.uSar⟩,
  ⟨0xFE001FF0, 0x82000070, decE19U13B3N0 Instr.uClz⟩]

def rows42 : List Row := [
  ⟨0xFE000078, 0x84000000, decN19U13U7N0 Instr.uEq⟩,
  ⟨0xFE000078, 0x84000010, decN19U13U7N0 Instr.uNe⟩,
  ⟨0xFE000078, 0x84000020, decN19U13U7N0 Instr.uLtI⟩,
  ⟨0xFE000078, 0x84000030, decN19U13U7N0 Instr.uLeI⟩,
  ⟨0xFE000078, 0x84000040, decN19U13U7N0 Instr.uLtN⟩,
  ⟨0xFE000078, 0x84000050, decN19U13U7N0 Instr.uLeN⟩,
  ⟨0xFE000078, 0x84000060, decN19U13U7N0 Instr.uTst⟩]

def rows43 : List Row := [
  ⟨0xFE001FF0, 0x86000000, decE19U13B3N0 Instr.uMov⟩,
  ⟨0xFE000070, 0x86000010, decE19U13U7B3N0 Instr.uSel⟩,
  ⟨0xFE001FF0, 0x86000020, decE19U13B3N0 Instr.uMovs⟩,
  ⟨0xFE001C78, 0x86000030, decN19N13N7N0w6633 Instr.kopAnd⟩,
  ⟨0xFE001C78, 0x86000430, decN19N13N7N0w6633 Instr.kopOr⟩,
  ⟨0xFE001C78, 0x86000830, decN19N13N7N0w6633 Instr.kopXor⟩,
  ⟨0xFE001C78, 0x86000C30, decN19N13N7N0w6633 Instr.kopAndn⟩,
  ⟨0xFE001FF8, 0x86001030, decN19N13N0 Instr.kopNot⟩,
  ⟨0xFE001FF0, 0x86000040, decE19L13B3N0 Instr.vtos⟩,
  ⟨0xFE001FF0, 0x86000050, decE19U13B3N0 Instr.uPopc⟩,
  ⟨0xFE000070, 0x86000060, decE19U13U7B3N0 Instr.uDivN⟩]

def rows48 : List Row := [
  ⟨0xFE000000, 0x90000000, decE19U13I0 Instr.saddi⟩]

def rows49 : List Row := [
  ⟨0xFE000000, 0x92000000, decE19U13I0 Instr.sandi⟩]

def rows4A : List Row := [
  ⟨0xFE000000, 0x94000000, decE19U13I0 Instr.sori⟩]

def rows4B : List Row := [
  ⟨0xFE001FC0, 0x96000000, decE19U13N0 Instr.sshiShl⟩,
  ⟨0xFE001FC0, 0x96000800, decE19U13N0 Instr.sshiShr⟩,
  ⟨0xFE001FC0, 0x96001000, decE19U13N0 Instr.sshiSar⟩]

def rows4C : List Row := [
  ⟨0xFE001C00, 0x98000000, decN19U13I0 Instr.scmpiEq⟩,
  ⟨0xFE001C00, 0x98000400, decN19U13I0 Instr.scmpiNe⟩,
  ⟨0xFE001C00, 0x98000800, decN19U13I0 Instr.scmpiLtI⟩,
  ⟨0xFE001C00, 0x98000C00, decN19U13I0 Instr.scmpiLeI⟩,
  ⟨0xFE001C00, 0x98001000, decN19U13I0 Instr.scmpiLtN⟩,
  ⟨0xFE001C00, 0x98001400, decN19U13I0 Instr.scmpiLeN⟩,
  ⟨0xFE001C00, 0x98001800, decN19U13I0 Instr.scmpiTst⟩]

def rows4D : List Row := [
  ⟨0xFE07E000, 0x9A000000, decE19I0 Instr.smovi⟩]

def rows4E : List Row := [
  ⟨0xFE000000, 0x9C000000, decE19U13I0 Instr.sld⟩]

def rows4F : List Row := [
  ⟨0xFE000000, 0x9E000000, decU19U13I0 Instr.sst⟩]

def rows50 : List Row := [
  ⟨0xFE000000, 0xA0000000, decN22B21I0 Instr.bra⟩]

def rows51 : List Row := [
  ⟨0xFE000000, 0xA2000000, decN22B21I0 Instr.call⟩]

def rows52 : List Row := [
  ⟨0xFE001FFF, 0xA4000000, decU19U13 Instr.jseg⟩]

def rows53 : List Row := [
  ⟨0xFE001FFF, 0xA6000000, decU19U13 Instr.cfetch⟩]

def rows54 : List Row := [
  ⟨0xFE001FFF, 0xA8000000, decU19L13 Instr.widen⟩]

def rows55 : List Row := [
  ⟨0xFE07FFFE, 0xAA000000, decU19B0 Instr.gather⟩]

def rows56 : List Row := [
  ⟨0xFFFFFFF8, 0xAC000000, decN0 Instr.ret⟩]

def rows57 : List Row := [
  ⟨0xFFF81FF8, 0xAE000000, decU13N0 Instr.calli⟩]

def rows58 : List Row := [
  ⟨0xFFFFFFFF, 0xB0000000, decX0 Instr.barTeam⟩,
  ⟨0xFFFFFFFF, 0xB0000001, decX0 Instr.barTeamYield⟩,
  ⟨0xFFFFFFFF, 0xB0000002, decX0 Instr.barClus⟩,
  ⟨0xFE07FFFF, 0xB0000003, decU19 Instr.barMask⟩]

def rows59 : List Row := [
  ⟨0xFE07FFFF, 0xB2000000, decN19 Instr.joinEnrol⟩,
  ⟨0xFE07FFFF, 0xB2000001, decN19 Instr.joinWait⟩]

def rows5A : List Row := [
  ⟨0xFE07E07F, 0xB4000000, decE19N7 Instr.elect⟩,
  ⟨0xFE07FFFF, 0xB4000001, decN19 Instr.partitionWhole⟩,
  ⟨0xFE07FFFF, 0xB4000081, decN19 Instr.partitionB4⟩,
  ⟨0xFE07FFFF, 0xB4000101, decN19 Instr.partitionB8⟩,
  ⟨0xFE07FFFF, 0xB4000181, decN19 Instr.partitionB16⟩,
  ⟨0xFE001FFF, 0xB4000201, decN19U13 Instr.partitionMask⟩,
  ⟨0xFFFFFFFF, 0xB4000002, decX0 Instr.regroup⟩,
  ⟨0xFE001FFF, 0xB4000003, decE19U13 Instr.lmap⟩]

def rows5C : List Row := [
  ⟨0xFE00FFFF, 0xB8000000, decN19B18B17B16 Instr.rep⟩]

def rows5D : List Row := [
  ⟨0xFE03FFFF, 0xBA000000, decN19B18 Instr.guard⟩]

def rows5E : List Row := [
  ⟨0xFE000000, 0xBC000000, decN23B22N16I0 Instr.hdr⟩]

def rows5F : List Row := [
  ⟨0xFFFFFFFF, 0xBE000000, decX0 Instr.nop⟩,
  ⟨0xFFFFFFFF, 0xBE000001, decX0 Instr.exit⟩,
  ⟨0xFFFFFFFF, 0xBE000002, decX0 Instr.brk⟩,
  ⟨0xFE07FFFF, 0xBE000003, decU19 Instr.trap⟩,
  ⟨0xFFFFFFFF, 0xBE000004, decX0 Instr.region⟩,
  ⟨0xFFFFFFFF, 0xBE000005, decX0 Instr.yield⟩,
  ⟨0xFE001FFF, 0xBE000006, decU19U13 Instr.cinv⟩,
  ⟨0xFE001FFF, 0xBE000007, decU19U13 Instr.cinvSync⟩]

def rows60 : List Row := [
  ⟨0xFE00007F, 0xC0000000, decU19N13U7 Instr.tcopy⟩]

def rows61 : List Row := [
  ⟨0xFE00007F, 0xC2000000, decU19N13U7 Instr.tcopym⟩]

def rows62 : List Row := [
  ⟨0xFE07FFFF, 0xC4000000, decU19 Instr.mtask⟩]

def rows63 : List Row := [
  ⟨0xFE07FFFE, 0xC6000000, decU19B0 Instr.drain⟩]

def rows64 : List Row := [
  ⟨0xFE001FFF, 0xC8000000, decE19U13 Instr.ringAcq⟩,
  ⟨0xFE07FFFF, 0xC8000001, decU19 Instr.ringRel⟩]

def rows65 : List Row := [
  ⟨0xFE00006F, 0xCA000000, decN19U13U7B4 Instr.keySort⟩,
  ⟨0xFE000067, 0xCA000001, decN19U13U7B4B3 Instr.keyMerge⟩,
  ⟨0xFE00007F, 0xCA000002, decN19U13U7 Instr.keyTopk⟩,
  ⟨0xFE00007F, 0xCA000003, decN19U13U7 Instr.keyOffs⟩,
  ⟨0xFE00007F, 0xCA000004, decN19U13U7 Instr.keyCheck⟩]

def rows66 : List Row := [
  ⟨0xFE00007F, 0xCC000000, decU19U13U7 Instr.xlatb⟩]

def rows67 : List Row := [
  ⟨0xFE07FFFF, 0xCE000000, decU19 Instr.seq⟩]

def rows68 : List Row := [
  ⟨0xFFFFFFF8, 0xD0000000, decN0 Instr.fence⟩,
  ⟨0xFFFFFFF8, 0xD0000008, decN0 Instr.fenceAcq⟩,
  ⟨0xFFFFFFF8, 0xD0000010, decN0 Instr.fenceRel⟩,
  ⟨0xFFFFFFF8, 0xD0000018, decN0 Instr.fenceSc⟩]

def rows69 : List Row := [
  ⟨0xFE001FFF, 0xD2000000, decU19U13 Instr.cwait⟩]

def rows6A : List Row := [
  ⟨0xFE001FFF, 0xD4000000, decU19N13 Instr.suspend⟩,
  ⟨0xFE07FFFF, 0xD4000001, decU19 Instr.touch⟩,
  ⟨0xFE001FFF, 0xD4000002, decU19N13 Instr.fulfill⟩,
  ⟨0xFE00007F, 0xD4000003, decU19U13E7 Instr.celltag⟩]

def rows6B : List Row := [
  ⟨0xFE001FFF, 0xD6000000, decE19U13 Instr.nlaunch⟩,
  ⟨0xFFF81FFF, 0xD6000001, decU13 Instr.nsignal⟩,
  ⟨0xFE001FFF, 0xD6000002, decE19U13 Instr.nqstat⟩]

def rows6C : List Row := [
  ⟨0xFE001FFD, 0xD8000000, decP19N13 Instr.mrs⟩,
  ⟨0xFE001FFD, 0xD8000001, decQ19N13 Instr.msr⟩]

def rows6D : List Row := [
  ⟨0xFE00007F, 0xDA000000, decU19U13U7 Instr.adpf⟩]

def rows70 : List Row := [
  ⟨0xFE00007F, 0xE0000000, decE19U13U7 Instr.dbgRd⟩,
  ⟨0xFE00007F, 0xE0000001, decU19U13U7 Instr.dbgWr⟩]

def rows71 : List Row := [
  ⟨0xFE001FFF, 0xE2000000, decU19U13 Instr.ctxSave⟩,
  ⟨0xFE07FFFF, 0xE2000001, decU19 Instr.ctxLoad⟩]

def rows72 : List Row := [
  ⟨0xFE07FFFF, 0xE4000000, decU19 Instr.place⟩]

def rows73 : List Row := [
  ⟨0xFE001FFF, 0xE6000000, decE19U13 Instr.evq⟩]

def rows74 : List Row := [
  ⟨0xFE001FFF, 0xE8000000, decE19N13 Instr.pmsrRd⟩,
  ⟨0xFE001FFF, 0xE8000001, decU19N13 Instr.pmsrWr⟩]

def rows75 : List Row := [
  ⟨0xFE001FFF, 0xEA000000, decU19U13 Instr.cload⟩]

def rows76 : List Row := [
  ⟨0xFE001FFF, 0xEC000000, decU19U13 Instr.rte⟩]

def rows77 : List Row := [
  ⟨0xFE07FFFF, 0xEE000000, decU19 Instr.kill⟩]

/-- The rows of a major opcode, bit 31 the set (R75, R76, R79, R80); none for a reserved major (R74). -/
def rowsOf : Nat → Option (List Row)
  | 0 => some rows00
  | 1 => some rows01
  | 2 => some rows02
  | 3 => some rows03
  | 4 => some rows04
  | 5 => some rows05
  | 6 => some rows06
  | 8 => some rows08
  | 9 => some rows09
  | 10 => some rows0A
  | 11 => some rows0B
  | 12 => some rows0C
  | 13 => some rows0D
  | 14 => some rows0E
  | 15 => some rows0F
  | 16 => some rows10
  | 17 => some rows11
  | 18 => some rows12
  | 19 => some rows13
  | 20 => some rows14
  | 21 => some rows15
  | 22 => some rows16
  | 23 => some rows17
  | 24 => some rows18
  | 32 => some rows20
  | 33 => some rows21
  | 34 => some rows22
  | 35 => some rows23
  | 36 => some rows24
  | 37 => some rows25
  | 38 => some rows26
  | 39 => some rows27
  | 40 => some rows28
  | 41 => some rows29
  | 42 => some rows2A
  | 43 => some rows2B
  | 44 => some rows2C
  | 45 => some rows2D
  | 46 => some rows2E
  | 47 => some rows2F
  | 48 => some rows30
  | 49 => some rows31
  | 50 => some rows32
  | 51 => some rows33
  | 52 => some rows34
  | 53 => some rows35
  | 54 => some rows36
  | 55 => some rows37
  | 64 => some rows40
  | 65 => some rows41
  | 66 => some rows42
  | 67 => some rows43
  | 72 => some rows48
  | 73 => some rows49
  | 74 => some rows4A
  | 75 => some rows4B
  | 76 => some rows4C
  | 77 => some rows4D
  | 78 => some rows4E
  | 79 => some rows4F
  | 80 => some rows50
  | 81 => some rows51
  | 82 => some rows52
  | 83 => some rows53
  | 84 => some rows54
  | 85 => some rows55
  | 86 => some rows56
  | 87 => some rows57
  | 88 => some rows58
  | 89 => some rows59
  | 90 => some rows5A
  | 92 => some rows5C
  | 93 => some rows5D
  | 94 => some rows5E
  | 95 => some rows5F
  | 96 => some rows60
  | 97 => some rows61
  | 98 => some rows62
  | 99 => some rows63
  | 100 => some rows64
  | 101 => some rows65
  | 102 => some rows66
  | 103 => some rows67
  | 104 => some rows68
  | 105 => some rows69
  | 106 => some rows6A
  | 107 => some rows6B
  | 108 => some rows6C
  | 109 => some rows6D
  | 112 => some rows70
  | 113 => some rows71
  | 114 => some rows72
  | 115 => some rows73
  | 116 => some rows74
  | 117 => some rows75
  | 118 => some rows76
  | 119 => some rows77
  | _ => none

/-- The row of a major that a word matches. -/
def pick (w : Word) : List Row → Option Row
  | [] => none
  | r :: rs => if w.toNat &&& r.mask = r.value then some r else pick w rs

/-- The instruction that starts at the first word, with the words after it at hand for extensions; the checks of R55
that the words alone decide, in its order. -/
def decode : List Word → Except Reject Instr
  | [] => .error .empty
  | w :: ext =>
    match rowsOf (fld w 25 7) with
    | none => .error .reservedMajor
    | some rs =>
      match pick w rs with
      | none => .error .unassigned
      | some r => do
        let i ← r.build w ext
        match i.check with
        | .ok _ => pure i
        | .error e => .error (.illFormed e)

/-- The words of an instruction of nbits bits w, first word least significant, zeros above. -/
def tableWords (w : Nat) : List Word :=
  [BitVec.ofNat 32 w, BitVec.ofNat 32 (w / 2 ^ 32), BitVec.ofNat 32 (w / 2 ^ 64), BitVec.ofNat 32 (w / 2 ^ 96)]

/-- The instruction the decoder reads from bits numbered as the opcode table numbers them; the bits above nbits are 0. -/
def decodeTableWord (nbits w : Nat) : Option Instr :=
  (decode (tableWords (w % 2 ^ nbits))).toOption

end

/-- Codes of operands (R40, R41). -/
def LSrc.code : LSrc → Nat
  | .v r => r | .l i => 56 + i | .z => 60 | .lid => 61 | .ext _ => 62

def LDst.code : LDst → Nat
  | .v r => r | .z => 60

def USrc.code : USrc → Nat
  | .s r => r | .q i => 56 + i | .z => 60 | .ext32 _ => 61 | .ext64 _ => 62

def UDst.code : UDst → Nat
  | .s r => r | .z => 60

def Addr.code : Addr → Nat
  | .plain b => b.code * 2 ^ 7
  | .ordered k => k * 2 ^ 10 + 2 ^ 3

def MDst.code : MDst → Nat
  | .u d => d.code * 2 ^ 19
  | .v d => d.code * 2 ^ 19 + 2

def MSrc.code : MSrc → Nat
  | .u a => a.code * 2 ^ 19
  | .v a => a.code * 2 ^ 19 + 2

def encD19L13L7B3N0 (base : Nat) (x0 : LDst) (x1 : LSrc) (x2 : LSrc) (x3 : Bool) (x4 : Nat) : List Word :=
  BitVec.ofNat 32 (base + x0.code * 2 ^ 19 + x1.code * 2 ^ 13 + x2.code * 2 ^ 7 + x3.toNat * 2 ^ 3 + x4 * 2 ^ 0) :: laneWords [x1, x2]

def encD19L13B3N0 (base : Nat) (x0 : LDst) (x1 : LSrc) (x2 : Bool) (x3 : Nat) : List Word :=
  BitVec.ofNat 32 (base + x0.code * 2 ^ 19 + x1.code * 2 ^ 13 + x2.toNat * 2 ^ 3 + x3 * 2 ^ 0) :: laneWords [x1]

def encN19L13L7N0 (base : Nat) (x0 : Nat) (x1 : LSrc) (x2 : LSrc) (x3 : Nat) : List Word :=
  BitVec.ofNat 32 (base + x0 * 2 ^ 19 + x1.code * 2 ^ 13 + x2.code * 2 ^ 7 + x3 * 2 ^ 0) :: laneWords [x1, x2]

def encN19N13N7N0w6663 (base : Nat) (x0 : Nat) (x1 : Nat) (x2 : Nat) (x3 : Nat) : List Word :=
  BitVec.ofNat 32 (base + x0 * 2 ^ 19 + x1 * 2 ^ 13 + x2 * 2 ^ 7 + x3 * 2 ^ 0) :: []

def encN19N13N0 (base : Nat) (x0 : Nat) (x1 : Nat) (x2 : Nat) : List Word :=
  BitVec.ofNat 32 (base + x0 * 2 ^ 19 + x1 * 2 ^ 13 + x2 * 2 ^ 0) :: []

def encD19N13B3N0 (base : Nat) (x0 : LDst) (x1 : Nat) (x2 : Bool) (x3 : Nat) : List Word :=
  BitVec.ofNat 32 (base + x0.code * 2 ^ 19 + x1 * 2 ^ 13 + x2.toNat * 2 ^ 3 + x3 * 2 ^ 0) :: []

def encN19L13N0 (base : Nat) (x0 : Nat) (x1 : LSrc) (x2 : Nat) : List Word :=
  BitVec.ofNat 32 (base + x0 * 2 ^ 19 + x1.code * 2 ^ 13 + x2 * 2 ^ 0) :: laneWords [x1]

def encD19U13B3N0 (base : Nat) (x0 : LDst) (x1 : USrc) (x2 : Bool) (x3 : Nat) : List Word :=
  BitVec.ofNat 32 (base + x0.code * 2 ^ 19 + x1.code * 2 ^ 13 + x2.toNat * 2 ^ 3 + x3 * 2 ^ 0) :: uniformWords [x1]

def encD19L13I0 (base : Nat) (x0 : LDst) (x1 : LSrc) (x2 : BitVec 13) : List Word :=
  BitVec.ofNat 32 (base + x0.code * 2 ^ 19 + x1.code * 2 ^ 13 + x2.toNat * 2 ^ 0) :: laneWords [x1]

def encD19L13N0w5 (base : Nat) (x0 : LDst) (x1 : LSrc) (x2 : Nat) : List Word :=
  BitVec.ofNat 32 (base + x0.code * 2 ^ 19 + x1.code * 2 ^ 13 + x2 * 2 ^ 0) :: laneWords [x1]

def encN19L13I0 (base : Nat) (x0 : Nat) (x1 : LSrc) (x2 : BitVec 10) : List Word :=
  BitVec.ofNat 32 (base + x0 * 2 ^ 19 + x1.code * 2 ^ 13 + x2.toNat * 2 ^ 0) :: laneWords [x1]

def encD19I0 (base : Nat) (x0 : LDst) (x1 : BitVec 13) : List Word :=
  BitVec.ofNat 32 (base + x0.code * 2 ^ 19 + x1.toNat * 2 ^ 0) :: []

def encD19L13N10B3N0 (base : Nat) (x0 : LDst) (x1 : LSrc) (x2 : Nat) (x3 : Bool) (x4 : Nat) : List Word :=
  BitVec.ofNat 32 (base + x0.code * 2 ^ 19 + x1.code * 2 ^ 13 + x2 * 2 ^ 10 + x3.toNat * 2 ^ 3 + x4 * 2 ^ 0) :: laneWords [x1]

def encD19B3N0 (base : Nat) (x0 : LDst) (x1 : Bool) (x2 : Nat) : List Word :=
  BitVec.ofNat 32 (base + x0.code * 2 ^ 19 + x1.toNat * 2 ^ 3 + x2 * 2 ^ 0) :: []

def encL13N0 (base : Nat) (x0 : LSrc) (x1 : Nat) : List Word :=
  BitVec.ofNat 32 (base + x0.code * 2 ^ 13 + x1 * 2 ^ 0) :: laneWords [x0]

def encD19L13M3N4N0 (base : Nat) (x0 : LDst) (x1 : LSrc) (x2 : Addr) (x3 : Nat) (x4 : Nat) : List Word :=
  BitVec.ofNat 32 (base + x0.code * 2 ^ 19 + x1.code * 2 ^ 13 + x2.code + x3 * 2 ^ 4 + x4 * 2 ^ 0) :: laneWords [x1, x2.index]

def encL19L13M3N4N0 (base : Nat) (x0 : LSrc) (x1 : LSrc) (x2 : Addr) (x3 : Nat) (x4 : Nat) : List Word :=
  BitVec.ofNat 32 (base + x0.code * 2 ^ 19 + x1.code * 2 ^ 13 + x2.code + x3 * 2 ^ 4 + x4 * 2 ^ 0) :: laneWords [x0, x1, x2.index]

def encD19L13N7B3N0 (base : Nat) (x0 : LDst) (x1 : LSrc) (x2 : Nat) (x3 : Bool) (x4 : Nat) : List Word :=
  BitVec.ofNat 32 (base + x0.code * 2 ^ 19 + x1.code * 2 ^ 13 + x2 * 2 ^ 7 + x3.toNat * 2 ^ 3 + x4 * 2 ^ 0) :: laneWords [x1]

def encD19L13L7N0 (base : Nat) (x0 : LDst) (x1 : LSrc) (x2 : LSrc) (x3 : Nat) : List Word :=
  BitVec.ofNat 32 (base + x0.code * 2 ^ 19 + x1.code * 2 ^ 13 + x2.code * 2 ^ 7 + x3 * 2 ^ 0) :: laneWords [x1, x2]

def encD19L13N7N0 (base : Nat) (x0 : LDst) (x1 : LSrc) (x2 : Nat) (x3 : Nat) : List Word :=
  BitVec.ofNat 32 (base + x0.code * 2 ^ 19 + x1.code * 2 ^ 13 + x2 * 2 ^ 7 + x3 * 2 ^ 0) :: laneWords [x1]

def encD19L13L7B3 (base : Nat) (x0 : LDst) (x1 : LSrc) (x2 : LSrc) (x3 : Bool) : List Word :=
  BitVec.ofNat 32 (base + x0.code * 2 ^ 19 + x1.code * 2 ^ 13 + x2.code * 2 ^ 7 + x3.toNat * 2 ^ 3) :: laneWords [x1, x2]

def encL19L13L7N0 (base : Nat) (x0 : LSrc) (x1 : LSrc) (x2 : LSrc) (x3 : Nat) : List Word :=
  BitVec.ofNat 32 (base + x0.code * 2 ^ 19 + x1.code * 2 ^ 13 + x2.code * 2 ^ 7 + x3 * 2 ^ 0) :: laneWords [x0, x1, x2]

def encD19L13N0w3 (base : Nat) (x0 : LDst) (x1 : LSrc) (x2 : Nat) : List Word :=
  BitVec.ofNat 32 (base + x0.code * 2 ^ 19 + x1.code * 2 ^ 13 + x2 * 2 ^ 0) :: laneWords [x1]

def encN19N13N7B6B3N0 (base : Nat) (x0 : Nat) (x1 : Nat) (x2 : Nat) (x3 : Bool) (x4 : Bool) (x5 : Nat) : List Word :=
  BitVec.ofNat 32 (base + x0 * 2 ^ 19 + x1 * 2 ^ 13 + x2 * 2 ^ 7 + x3.toNat * 2 ^ 6 + x4.toNat * 2 ^ 3 + x5 * 2 ^ 0) :: []

def encN19N13N7B6N4B3N0 (base : Nat) (x0 : Nat) (x1 : Nat) (x2 : Nat) (x3 : Bool) (x4 : Nat) (x5 : Bool) (x6 : Nat) : List Word :=
  BitVec.ofNat 32 (base + x0 * 2 ^ 19 + x1 * 2 ^ 13 + x2 * 2 ^ 7 + x3.toNat * 2 ^ 6 + x4 * 2 ^ 4 + x5.toNat * 2 ^ 3 + x6 * 2 ^ 0) :: []

def encN19B18I0 (base : Nat) (x0 : Nat) (x1 : Bool) (x2 : BitVec 18) : List Word :=
  BitVec.ofNat 32 (base + x0 * 2 ^ 19 + x1.toNat * 2 ^ 18 + x2.toNat * 2 ^ 0) :: []

def encE19U13U7B3N0 (base : Nat) (x0 : UDst) (x1 : USrc) (x2 : USrc) (x3 : Bool) (x4 : Nat) : List Word :=
  BitVec.ofNat 32 (base + x0.code * 2 ^ 19 + x1.code * 2 ^ 13 + x2.code * 2 ^ 7 + x3.toNat * 2 ^ 3 + x4 * 2 ^ 0) :: uniformWords [x1, x2]

def encE19U13B3N0 (base : Nat) (x0 : UDst) (x1 : USrc) (x2 : Bool) (x3 : Nat) : List Word :=
  BitVec.ofNat 32 (base + x0.code * 2 ^ 19 + x1.code * 2 ^ 13 + x2.toNat * 2 ^ 3 + x3 * 2 ^ 0) :: uniformWords [x1]

def encN19U13U7N0 (base : Nat) (x0 : Nat) (x1 : USrc) (x2 : USrc) (x3 : Nat) : List Word :=
  BitVec.ofNat 32 (base + x0 * 2 ^ 19 + x1.code * 2 ^ 13 + x2.code * 2 ^ 7 + x3 * 2 ^ 0) :: uniformWords [x1, x2]

def encN19N13N7N0w6633 (base : Nat) (x0 : Nat) (x1 : Nat) (x2 : Nat) (x3 : Nat) : List Word :=
  BitVec.ofNat 32 (base + x0 * 2 ^ 19 + x1 * 2 ^ 13 + x2 * 2 ^ 7 + x3 * 2 ^ 0) :: []

def encE19L13B3N0 (base : Nat) (x0 : UDst) (x1 : LSrc) (x2 : Bool) (x3 : Nat) : List Word :=
  BitVec.ofNat 32 (base + x0.code * 2 ^ 19 + x1.code * 2 ^ 13 + x2.toNat * 2 ^ 3 + x3 * 2 ^ 0) :: laneWords [x1]

def encN0 (base : Nat) (x0 : Nat) : List Word :=
  BitVec.ofNat 32 (base + x0 * 2 ^ 0) :: []

def encU13N0 (base : Nat) (x0 : USrc) (x1 : Nat) : List Word :=
  BitVec.ofNat 32 (base + x0.code * 2 ^ 13 + x1 * 2 ^ 0) :: uniformWords [x0]

def encE19U13I0 (base : Nat) (x0 : UDst) (x1 : USrc) (x2 : BitVec 13) : List Word :=
  BitVec.ofNat 32 (base + x0.code * 2 ^ 19 + x1.code * 2 ^ 13 + x2.toNat * 2 ^ 0) :: uniformWords [x1]

def encE19U13N0 (base : Nat) (x0 : UDst) (x1 : USrc) (x2 : Nat) : List Word :=
  BitVec.ofNat 32 (base + x0.code * 2 ^ 19 + x1.code * 2 ^ 13 + x2 * 2 ^ 0) :: uniformWords [x1]

def encN19U13I0 (base : Nat) (x0 : Nat) (x1 : USrc) (x2 : BitVec 10) : List Word :=
  BitVec.ofNat 32 (base + x0 * 2 ^ 19 + x1.code * 2 ^ 13 + x2.toNat * 2 ^ 0) :: uniformWords [x1]

def encE19I0 (base : Nat) (x0 : UDst) (x1 : BitVec 13) : List Word :=
  BitVec.ofNat 32 (base + x0.code * 2 ^ 19 + x1.toNat * 2 ^ 0) :: []

def encU19U13I0 (base : Nat) (x0 : USrc) (x1 : USrc) (x2 : BitVec 13) : List Word :=
  BitVec.ofNat 32 (base + x0.code * 2 ^ 19 + x1.code * 2 ^ 13 + x2.toNat * 2 ^ 0) :: uniformWords [x0, x1]

def encN22B21I0 (base : Nat) (x0 : Nat) (x1 : Bool) (x2 : BitVec 21) : List Word :=
  BitVec.ofNat 32 (base + x0 * 2 ^ 22 + x1.toNat * 2 ^ 21 + x2.toNat * 2 ^ 0) :: []

def encN19B18B17B16 (base : Nat) (x0 : Nat) (x1 : Bool) (x2 : Bool) (x3 : Bool) : List Word :=
  BitVec.ofNat 32 (base + x0 * 2 ^ 19 + x1.toNat * 2 ^ 18 + x2.toNat * 2 ^ 17 + x3.toNat * 2 ^ 16) :: []

def encN19B18 (base : Nat) (x0 : Nat) (x1 : Bool) : List Word :=
  BitVec.ofNat 32 (base + x0 * 2 ^ 19 + x1.toNat * 2 ^ 18) :: []

def encN23B22N16I0 (base : Nat) (x0 : Nat) (x1 : Bool) (x2 : Nat) (x3 : BitVec 16) : List Word :=
  BitVec.ofNat 32 (base + x0 * 2 ^ 23 + x1.toNat * 2 ^ 22 + x2 * 2 ^ 16 + x3.toNat * 2 ^ 0) :: []

def encU19U13 (base : Nat) (x0 : USrc) (x1 : USrc) : List Word :=
  BitVec.ofNat 32 (base + x0.code * 2 ^ 19 + x1.code * 2 ^ 13) :: uniformWords [x0, x1]

def encU19L13 (base : Nat) (x0 : USrc) (x1 : LSrc) : List Word :=
  BitVec.ofNat 32 (base + x0.code * 2 ^ 19 + x1.code * 2 ^ 13) :: (uniformWords [x0] ++ laneWords [x1])

def encU19B0 (base : Nat) (x0 : USrc) (x1 : Bool) : List Word :=
  BitVec.ofNat 32 (base + x0.code * 2 ^ 19 + x1.toNat * 2 ^ 0) :: uniformWords [x0]

def encX0 (base : Nat) : List Word :=
  BitVec.ofNat 32 (base) :: []

def encU19 (base : Nat) (x0 : USrc) : List Word :=
  BitVec.ofNat 32 (base + x0.code * 2 ^ 19) :: uniformWords [x0]

def encN19 (base : Nat) (x0 : Nat) : List Word :=
  BitVec.ofNat 32 (base + x0 * 2 ^ 19) :: []

def encE19N7 (base : Nat) (x0 : UDst) (x1 : Nat) : List Word :=
  BitVec.ofNat 32 (base + x0.code * 2 ^ 19 + x1 * 2 ^ 7) :: []

def encN19U13 (base : Nat) (x0 : Nat) (x1 : USrc) : List Word :=
  BitVec.ofNat 32 (base + x0 * 2 ^ 19 + x1.code * 2 ^ 13) :: uniformWords [x1]

def encE19U13 (base : Nat) (x0 : UDst) (x1 : USrc) : List Word :=
  BitVec.ofNat 32 (base + x0.code * 2 ^ 19 + x1.code * 2 ^ 13) :: uniformWords [x1]

def encU19N13U7 (base : Nat) (x0 : USrc) (x1 : Nat) (x2 : USrc) : List Word :=
  BitVec.ofNat 32 (base + x0.code * 2 ^ 19 + x1 * 2 ^ 13 + x2.code * 2 ^ 7) :: uniformWords [x0, x2]

def encN19U13U7B4 (base : Nat) (x0 : Nat) (x1 : USrc) (x2 : USrc) (x3 : Bool) : List Word :=
  BitVec.ofNat 32 (base + x0 * 2 ^ 19 + x1.code * 2 ^ 13 + x2.code * 2 ^ 7 + x3.toNat * 2 ^ 4) :: uniformWords [x1, x2]

def encN19U13U7B4B3 (base : Nat) (x0 : Nat) (x1 : USrc) (x2 : USrc) (x3 : Bool) (x4 : Bool) : List Word :=
  BitVec.ofNat 32 (base + x0 * 2 ^ 19 + x1.code * 2 ^ 13 + x2.code * 2 ^ 7 + x3.toNat * 2 ^ 4 + x4.toNat * 2 ^ 3) :: uniformWords [x1, x2]

def encN19U13U7 (base : Nat) (x0 : Nat) (x1 : USrc) (x2 : USrc) : List Word :=
  BitVec.ofNat 32 (base + x0 * 2 ^ 19 + x1.code * 2 ^ 13 + x2.code * 2 ^ 7) :: uniformWords [x1, x2]

def encU19U13U7 (base : Nat) (x0 : USrc) (x1 : USrc) (x2 : USrc) : List Word :=
  BitVec.ofNat 32 (base + x0.code * 2 ^ 19 + x1.code * 2 ^ 13 + x2.code * 2 ^ 7) :: uniformWords [x0, x1, x2]

def encU19N13 (base : Nat) (x0 : USrc) (x1 : Nat) : List Word :=
  BitVec.ofNat 32 (base + x0.code * 2 ^ 19 + x1 * 2 ^ 13) :: uniformWords [x0]

def encU19U13E7 (base : Nat) (x0 : USrc) (x1 : USrc) (x2 : UDst) : List Word :=
  BitVec.ofNat 32 (base + x0.code * 2 ^ 19 + x1.code * 2 ^ 13 + x2.code * 2 ^ 7) :: uniformWords [x0, x1]

def encU13 (base : Nat) (x0 : USrc) : List Word :=
  BitVec.ofNat 32 (base + x0.code * 2 ^ 13) :: uniformWords [x0]

def encP19N13 (base : Nat) (x0 : MDst) (x1 : Nat) : List Word :=
  BitVec.ofNat 32 (base + x0.code + x1 * 2 ^ 13) :: []

def encQ19N13 (base : Nat) (x0 : MSrc) (x1 : Nat) : List Word :=
  BitVec.ofNat 32 (base + x0.code + x1 * 2 ^ 13) :: x0.words

def encE19U13U7 (base : Nat) (x0 : UDst) (x1 : USrc) (x2 : USrc) : List Word :=
  BitVec.ofNat 32 (base + x0.code * 2 ^ 19 + x1.code * 2 ^ 13 + x2.code * 2 ^ 7) :: uniformWords [x1, x2]

def encE19N13 (base : Nat) (x0 : UDst) (x1 : Nat) : List Word :=
  BitVec.ofNat 32 (base + x0.code * 2 ^ 19 + x1 * 2 ^ 13) :: []

/-- The words of a well-formed instruction: its word, then its extension words (R43); an event has none. -/
def encode : Instr → List Word
  | .add d a b n g => encD19L13L7B3N0 0x00000000 d a b n g
  | .sub d a b n g => encD19L13L7B3N0 0x00000010 d a b n g
  | .minI d a b n g => encD19L13L7B3N0 0x00000020 d a b n g
  | .maxI d a b n g => encD19L13L7B3N0 0x00000030 d a b n g
  | .minN d a b n g => encD19L13L7B3N0 0x00000040 d a b n g
  | .maxN d a b n g => encD19L13L7B3N0 0x00000050 d a b n g
  | .abs d a n g => encD19L13B3N0 0x00000060 d a n g
  | .neg d a n g => encD19L13B3N0 0x00000070 d a n g
  | .and d a b n g => encD19L13L7B3N0 0x02000000 d a b n g
  | .or d a b n g => encD19L13L7B3N0 0x02000010 d a b n g
  | .xor d a b n g => encD19L13L7B3N0 0x02000020 d a b n g
  | .andn d a b n g => encD19L13L7B3N0 0x02000030 d a b n g
  | .shl d a b n g => encD19L13L7B3N0 0x02000040 d a b n g
  | .shr d a b n g => encD19L13L7B3N0 0x02000050 d a b n g
  | .sar d a b n g => encD19L13L7B3N0 0x02000060 d a b n g
  | .rol d a b n g => encD19L13L7B3N0 0x02000070 d a b n g
  | .mul d a b n g => encD19L13L7B3N0 0x04000000 d a b n g
  | .mulhI d a b n g => encD19L13L7B3N0 0x04000010 d a b n g
  | .mulhN d a b n g => encD19L13L7B3N0 0x04000020 d a b n g
  | .mad d a b n g => encD19L13L7B3N0 0x04000030 d a b n g
  | .divI d a b n g => encD19L13L7B3N0 0x04000040 d a b n g
  | .divN d a b n g => encD19L13L7B3N0 0x04000050 d a b n g
  | .remI d a b n g => encD19L13L7B3N0 0x04000060 d a b n g
  | .remN d a b n g => encD19L13L7B3N0 0x04000070 d a b n g
  | .clz d a n g => encD19L13B3N0 0x06000000 d a n g
  | .popc d a n g => encD19L13B3N0 0x06000010 d a n g
  | .brev d a n g => encD19L13B3N0 0x06000020 d a n g
  | .bfeI d a b n g => encD19L13L7B3N0 0x06000030 d a b n g
  | .bfeN d a b n g => encD19L13L7B3N0 0x06000040 d a b n g
  | .bfi d a b n g => encD19L13L7B3N0 0x06000050 d a b n g
  | .bmix d a b n g => encD19L13L7B3N0 0x06000060 d a b n g
  | .sext d a b n g => encD19L13L7B3N0 0x06000070 d a b n g
  | .eq d a b g => encN19L13L7N0 0x08000000 d a b g
  | .ne d a b g => encN19L13L7N0 0x08000010 d a b g
  | .ltI d a b g => encN19L13L7N0 0x08000020 d a b g
  | .leI d a b g => encN19L13L7N0 0x08000030 d a b g
  | .ltN d a b g => encN19L13L7N0 0x08000040 d a b g
  | .leN d a b g => encN19L13L7N0 0x08000050 d a b g
  | .tst d a b g => encN19L13L7N0 0x08000060 d a b g
  | .pand d a b g => encN19N13N7N0w6663 0x0A000000 d a b g
  | .por d a b g => encN19N13N7N0w6663 0x0A000010 d a b g
  | .pxor d a b g => encN19N13N7N0w6663 0x0A000020 d a b g
  | .pandn d a b g => encN19N13N7N0w6663 0x0A000030 d a b g
  | .pnot d a g => encN19N13N0 0x0A000040 d a g
  | .ptov d a n g => encD19N13B3N0 0x0A000050 d a n g
  | .vtop d a g => encN19L13N0 0x0A000060 d a g
  | .mov d a n g => encD19L13B3N0 0x0C000000 d a n g
  | .sel d a b n p => encD19L13L7B3N0 0x0C000010 d a b n p
  | .movs d a n g => encD19U13B3N0 0x0C000020 d a n g
  | .movu d a n g => encD19U13B3N0 0x0C000030 d a n g
  | .add64 d a b n g => encD19L13L7B3N0 0x0C000040 d a b n g
  | .sub64 d a b n g => encD19L13L7B3N0 0x0C000050 d a b n g
  | .shl64 d a b n g => encD19L13L7B3N0 0x0C000060 d a b n g
  | .lea d a b n g => encD19L13L7B3N0 0x0C000070 d a b n g
  | .addi d a i => encD19L13I0 0x10000000 d a i
  | .andi d a i => encD19L13I0 0x12000000 d a i
  | .ori d a i => encD19L13I0 0x14000000 d a i
  | .xori d a i => encD19L13I0 0x16000000 d a i
  | .shiShl d a s => encD19L13N0w5 0x18000000 d a s
  | .shiShr d a s => encD19L13N0w5 0x18000800 d a s
  | .shiSar d a s => encD19L13N0w5 0x18001000 d a s
  | .shiRol d a s => encD19L13N0w5 0x18001800 d a s
  | .cmpiEq d a i => encN19L13I0 0x1A000000 d a i
  | .cmpiNe d a i => encN19L13I0 0x1A000400 d a i
  | .cmpiLtI d a i => encN19L13I0 0x1A000800 d a i
  | .cmpiLeI d a i => encN19L13I0 0x1A000C00 d a i
  | .cmpiLtN d a i => encN19L13I0 0x1A001000 d a i
  | .cmpiLeN d a i => encN19L13I0 0x1A001400 d a i
  | .cmpiTst d a i => encN19L13I0 0x1A001800 d a i
  | .movi d i => encD19I0 0x1C000000 d i
  | .leai d a i => encD19L13I0 0x1E000000 d a i
  | .fadd d a b n g => encD19L13L7B3N0 0x20000000 d a b n g
  | .fsub d a b n g => encD19L13L7B3N0 0x20000010 d a b n g
  | .fmul d a b n g => encD19L13L7B3N0 0x20000020 d a b n g
  | .ffma d a b n g => encD19L13L7B3N0 0x20000030 d a b n g
  | .fmin d a b n g => encD19L13L7B3N0 0x20000040 d a b n g
  | .fmax d a b n g => encD19L13L7B3N0 0x20000050 d a b n g
  | .fnma d a b n g => encD19L13L7B3N0 0x20000060 d a b n g
  | .fdiv d a b n g => encD19L13L7B3N0 0x20000070 d a b n g
  | .fcmpEq d a b g => encN19L13L7N0 0x22000000 d a b g
  | .fcmpNe d a b g => encN19L13L7N0 0x22000010 d a b g
  | .fcmpLt d a b g => encN19L13L7N0 0x22000020 d a b g
  | .fcmpLe d a b g => encN19L13L7N0 0x22000030 d a b g
  | .fcmpUn d a b g => encN19L13L7N0 0x22000040 d a b g
  | .fcmpTolt d a b g => encN19L13L7N0 0x22000050 d a b g
  | .fcmpTole d a b g => encN19L13L7N0 0x22000060 d a b g
  | .fcmpClass d a b g => encN19L13L7N0 0x22000070 d a b g
  | .dadd d a b n g => encD19L13L7B3N0 0x24000000 d a b n g
  | .dsub d a b n g => encD19L13L7B3N0 0x24000010 d a b n g
  | .dmul d a b n g => encD19L13L7B3N0 0x24000020 d a b n g
  | .dfma d a b n g => encD19L13L7B3N0 0x24000030 d a b n g
  | .dmin d a b n g => encD19L13L7B3N0 0x24000040 d a b n g
  | .dmax d a b n g => encD19L13L7B3N0 0x24000050 d a b n g
  | .ddiv d a b n g => encD19L13L7B3N0 0x24000060 d a b n g
  | .dsqrt d a n g => encD19L13B3N0 0x24000070 d a n g
  | .haddF16 d a b n g => encD19L13L7B3N0 0x26000000 d a b n g
  | .hmulF16 d a b n g => encD19L13L7B3N0 0x26000010 d a b n g
  | .hfmaF16 d a b n g => encD19L13L7B3N0 0x26000020 d a b n g
  | .haddBf16 d a b n g => encD19L13L7B3N0 0x26000030 d a b n g
  | .hmulBf16 d a b n g => encD19L13L7B3N0 0x26000040 d a b n g
  | .hfmaBf16 d a b n g => encD19L13L7B3N0 0x26000050 d a b n g
  | .hmin d a b n g => encD19L13L7B3N0 0x26000060 d a b n g
  | .hmax d a b n g => encD19L13L7B3N0 0x26000070 d a b n g
  | .cvtI32F32 d a r n g => encD19L13N10B3N0 0x28000000 d a r n g
  | .cvtN32F32 d a r n g => encD19L13N10B3N0 0x28000010 d a r n g
  | .cvtF32I32 d a r n g => encD19L13N10B3N0 0x28000020 d a r n g
  | .cvtF32N32 d a r n g => encD19L13N10B3N0 0x28000030 d a r n g
  | .cvtBf16F32 d a n g => encD19L13B3N0 0x28000040 d a n g
  | .cvtF16F32 d a n g => encD19L13B3N0 0x28000050 d a n g
  | .cvtF32Bf16 d a n g => encD19L13B3N0 0x28000060 d a n g
  | .cvtF32F16 d a n g => encD19L13B3N0 0x28000070 d a n g
  | .cvtE4m3F32 d a n g => encD19L13B3N0 0x2A000000 d a n g
  | .cvtE5m2F32 d a n g => encD19L13B3N0 0x2A000010 d a n g
  | .cvtI8F32 d a n g => encD19L13B3N0 0x2A000020 d a n g
  | .cvtI8I32 d a n g => encD19L13B3N0 0x2A0000A0 d a n g
  | .cvtI16F32 d a n g => encD19L13B3N0 0x2A000030 d a n g
  | .cvtI16I32 d a n g => encD19L13B3N0 0x2A0000B0 d a n g
  | .cvtF32E4m3 d a n g => encD19L13B3N0 0x2A000040 d a n g
  | .cvtF32E5m2 d a n g => encD19L13B3N0 0x2A000050 d a n g
  | .cvtBf16F32Sr d a n g => encD19L13B3N0 0x2A000060 d a n g
  | .cvtE4m3F32Sr d a n g => encD19L13B3N0 0x2A000070 d a n g
  | .packF4b d a n g => encD19L13B3N0 0x2C000000 d a n g
  | .unpkF4b d a b n g => encD19L13L7B3N0 0x2C000010 d a b n g
  | .scaleF4b d a b n g => encD19L13L7B3N0 0x2C000020 d a b n g
  | .mx2f4b d a n g => encD19L13B3N0 0x2C000030 d a n g
  | .rcp d a n g => encD19L13B3N0 0x2E000000 d a n g
  | .rsq d a n g => encD19L13B3N0 0x2E000010 d a n g
  | .sqrt d a n g => encD19L13B3N0 0x2E000020 d a n g
  | .exp2 d a n g => encD19L13B3N0 0x2E000030 d a n g
  | .log2 d a n g => encD19L13B3N0 0x2E000040 d a n g
  | .sin d a n g => encD19L13B3N0 0x2E000050 d a n g
  | .cos d a n g => encD19L13B3N0 0x2E000060 d a n g
  | .tanh d a n g => encD19L13B3N0 0x2E000070 d a n g
  | .frnd d a r n g => encD19L13N10B3N0 0x30000000 d a r n g
  | .key3 d a n g => encD19L13B3N0 0x30000010 d a n g
  | .rng d n g => encD19B3N0 0x30000020 d n g
  | .seed a g => encL13N0 0x31E00030 a g
  | .fscale d a b n g => encD19L13L7B3N0 0x30000040 d a b n g
  | .fexp d a n g => encD19L13B3N0 0x30000050 d a n g
  | .ldg d a m z g => encD19L13M3N4N0 0x40000000 d a m z g
  | .stg d a m z g => encL19L13M3N4N0 0x42000000 d a m z g
  | .lds d a m z g => encD19L13M3N4N0 0x44000000 d a m z g
  | .sts d a m z g => encL19L13M3N4N0 0x46000000 d a m z g
  | .ldk d a m z g => encD19L13M3N4N0 0x48000000 d a m z g
  | .stk d a m z g => encL19L13M3N4N0 0x4A000000 d a m z g
  | .stx d a m z g => encL19L13M3N4N0 0x4C000000 d a m z g
  | .ldp d a m z g => encD19L13M3N4N0 0x4E000000 d a m z g
  | .atomgAdd d a b r g => encD19L13L7B3N0 0x50000000 d a b r g
  | .atomgMinI d a b r g => encD19L13L7B3N0 0x50000010 d a b r g
  | .atomgMaxI d a b r g => encD19L13L7B3N0 0x50000020 d a b r g
  | .atomgAnd d a b r g => encD19L13L7B3N0 0x50000030 d a b r g
  | .atomgOr d a b r g => encD19L13L7B3N0 0x50000040 d a b r g
  | .atomgXor d a b r g => encD19L13L7B3N0 0x50000050 d a b r g
  | .atomgExch d a b r g => encD19L13L7B3N0 0x50000060 d a b r g
  | .atomgCas d a b r g => encD19L13N7B3N0 0x50000070 d a b r g
  | .atomgAddB64 d a b r g => encD19L13L7B3N0 0x52000000 d a b r g
  | .atomgMinIB64 d a b r g => encD19L13L7B3N0 0x52000010 d a b r g
  | .atomgMaxIB64 d a b r g => encD19L13L7B3N0 0x52000020 d a b r g
  | .atomgAndB64 d a b r g => encD19L13L7B3N0 0x52000030 d a b r g
  | .atomgOrB64 d a b r g => encD19L13L7B3N0 0x52000040 d a b r g
  | .atomgXorB64 d a b r g => encD19L13L7B3N0 0x52000050 d a b r g
  | .atomgExchB64 d a b r g => encD19L13L7B3N0 0x52000060 d a b r g
  | .atomgCasB64 d a b r g => encD19L13N7B3N0 0x52000070 d a b r g
  | .atomgIncb d a b r g => encD19L13L7B3N0 0x54000000 d a b r g
  | .atomgDecb d a b r g => encD19L13L7B3N0 0x54000010 d a b r g
  | .atomgFadd d a b r g => encD19L13L7B3N0 0x54000020 d a b r g
  | .atomgFmin d a b r g => encD19L13L7B3N0 0x54000030 d a b r g
  | .atomgFmax d a b r g => encD19L13L7B3N0 0x54000040 d a b r g
  | .atomgMinN d a b r g => encD19L13L7B3N0 0x54000050 d a b r g
  | .atomgMaxN d a b r g => encD19L13L7B3N0 0x54000060 d a b r g
  | .atomsAdd d a b g => encD19L13L7N0 0x56000000 d a b g
  | .atomsMinI d a b g => encD19L13L7N0 0x56000010 d a b g
  | .atomsMaxI d a b g => encD19L13L7N0 0x56000020 d a b g
  | .atomsAnd d a b g => encD19L13L7N0 0x56000030 d a b g
  | .atomsOr d a b g => encD19L13L7N0 0x56000040 d a b g
  | .atomsExch d a b g => encD19L13L7N0 0x56000050 d a b g
  | .atomsCas d a b g => encD19L13N7N0 0x56000060 d a b g
  | .atomsIncb d a b g => encD19L13L7N0 0x56000070 d a b g
  | .xidx d a b n x => encD19L13L7B3N0 0x58000000 d a b n x
  | .xxor d a b n x => encD19L13L7B3N0 0x58000010 d a b n x
  | .xrot d a b n x => encD19L13L7B3N0 0x58000020 d a b n x
  | .xshift d a b n x => encD19L13L7B3N0 0x58000030 d a b n x
  | .xlid d a b n => encD19L13L7B3 0x58000040 d a b n
  | .pany d a x => encN19N13N0 0x58000050 d a x
  | .pall d a x => encN19N13N0 0x58000060 d a x
  | .pmask d a n x => encD19N13B3N0 0x58000070 d a n x
  | .matchEq d a n x => encD19L13B3N0 0x5A000000 d a n x
  | .compact d a b n x => encD19L13N7B3N0 0x5A000010 d a b n x
  | .redAdd d a n x => encD19L13B3N0 0x5A000020 d a n x
  | .redFadd d a n x => encD19L13B3N0 0x5A000030 d a n x
  | .redMinI d a n x => encD19L13B3N0 0x5A000040 d a n x
  | .redMinN d a n x => encD19L13B3N0 0x5A0000C0 d a n x
  | .redMinF d a n x => encD19L13B3N0 0x5A000140 d a n x
  | .redMaxI d a n x => encD19L13B3N0 0x5A000050 d a n x
  | .redMaxN d a n x => encD19L13B3N0 0x5A0000D0 d a n x
  | .redMaxF d a n x => encD19L13B3N0 0x5A000150 d a n x
  | .scanAdd d a n x => encD19L13B3N0 0x5A000060 d a n x
  | .mrank d a n x => encD19L13B3N0 0x5A000070 d a n x
  | .garg d a b n x => encD19L13L7B3N0 0x5C000000 d a b n x
  | .gres d a b x => encL19L13L7N0 0x5C000010 d a b x
  | .rpush d a g => encN19L13N0 0x5E000000 d a g
  | .jml d a g => encD19L13N0w3 0x6E000000 d a g
  | .mfragBf16 d a b u c g => encN19N13N7B6B3N0 0x60000000 d a b u c g
  | .mfragF16 d a b u c g => encN19N13N7B6B3N0 0x62000000 d a b u c g
  | .mfragE4m3 d a b u c g => encN19N13N7B6B3N0 0x64000000 d a b u c g
  | .mfragE5m2 d a b u c g => encN19N13N7B6B3N0 0x66000000 d a b u c g
  | .mfragF4b d a b u s c g => encN19N13N7B6N4B3N0 0x68000000 d a b u s c g
  | .mfragI8 d a b u c g => encN19N13N7B6B3N0 0x6A000000 d a b u c g
  | .brl p s o => encN19B18I0 0x6C000000 p s o
  | .uAdd d a b n k => encE19U13U7B3N0 0x80000000 d a b n k
  | .uSub d a b n k => encE19U13U7B3N0 0x80000010 d a b n k
  | .uMinI d a b n k => encE19U13U7B3N0 0x80000020 d a b n k
  | .uMaxI d a b n k => encE19U13U7B3N0 0x80000030 d a b n k
  | .uMinN d a b n k => encE19U13U7B3N0 0x80000040 d a b n k
  | .uMaxN d a b n k => encE19U13U7B3N0 0x80000050 d a b n k
  | .uMul d a b n k => encE19U13U7B3N0 0x80000060 d a b n k
  | .uMulhN d a b n k => encE19U13U7B3N0 0x80000070 d a b n k
  | .uAnd d a b n k => encE19U13U7B3N0 0x82000000 d a b n k
  | .uOr d a b n k => encE19U13U7B3N0 0x82000010 d a b n k
  | .uXor d a b n k => encE19U13U7B3N0 0x82000020 d a b n k
  | .uAndn d a b n k => encE19U13U7B3N0 0x82000030 d a b n k
  | .uShl d a b n k => encE19U13U7B3N0 0x82000040 d a b n k
  | .uShr d a b n k => encE19U13U7B3N0 0x82000050 d a b n k
  | .uSar d a b n k => encE19U13U7B3N0 0x82000060 d a b n k
  | .uClz d a n k => encE19U13B3N0 0x82000070 d a n k
  | .uEq d a b k => encN19U13U7N0 0x84000000 d a b k
  | .uNe d a b k => encN19U13U7N0 0x84000010 d a b k
  | .uLtI d a b k => encN19U13U7N0 0x84000020 d a b k
  | .uLeI d a b k => encN19U13U7N0 0x84000030 d a b k
  | .uLtN d a b k => encN19U13U7N0 0x84000040 d a b k
  | .uLeN d a b k => encN19U13U7N0 0x84000050 d a b k
  | .uTst d a b k => encN19U13U7N0 0x84000060 d a b k
  | .uMov d a n k => encE19U13B3N0 0x86000000 d a n k
  | .uSel d a b n c => encE19U13U7B3N0 0x86000010 d a b n c
  | .uMovs d a n k => encE19U13B3N0 0x86000020 d a n k
  | .kopAnd d a s k => encN19N13N7N0w6633 0x86000030 d a s k
  | .kopOr d a s k => encN19N13N7N0w6633 0x86000430 d a s k
  | .kopXor d a s k => encN19N13N7N0w6633 0x86000830 d a s k
  | .kopAndn d a s k => encN19N13N7N0w6633 0x86000C30 d a s k
  | .kopNot d a k => encN19N13N0 0x86001030 d a k
  | .vtos d a n k => encE19L13B3N0 0x86000040 d a n k
  | .uPopc d a n k => encE19U13B3N0 0x86000050 d a n k
  | .uDivN d a b n k => encE19U13U7B3N0 0x86000060 d a b n k
  | .ret k => encN0 0xAC000000 k
  | .calli a k => encU13N0 0xAE000000 a k
  | .saddi d a i => encE19U13I0 0x90000000 d a i
  | .sandi d a i => encE19U13I0 0x92000000 d a i
  | .sori d a i => encE19U13I0 0x94000000 d a i
  | .sshiShl d a s => encE19U13N0 0x96000000 d a s
  | .sshiShr d a s => encE19U13N0 0x96000800 d a s
  | .sshiSar d a s => encE19U13N0 0x96001000 d a s
  | .scmpiEq d a i => encN19U13I0 0x98000000 d a i
  | .scmpiNe d a i => encN19U13I0 0x98000400 d a i
  | .scmpiLtI d a i => encN19U13I0 0x98000800 d a i
  | .scmpiLeI d a i => encN19U13I0 0x98000C00 d a i
  | .scmpiLtN d a i => encN19U13I0 0x98001000 d a i
  | .scmpiLeN d a i => encN19U13I0 0x98001400 d a i
  | .scmpiTst d a i => encN19U13I0 0x98001800 d a i
  | .smovi d i => encE19I0 0x9A000000 d i
  | .sld d a i => encE19U13I0 0x9C000000 d a i
  | .sst d a i => encU19U13I0 0x9E000000 d a i
  | .bra k s o => encN22B21I0 0xA0000000 k s o
  | .call k s o => encN22B21I0 0xA2000000 k s o
  | .rep c x y z => encN19B18B17B16 0xB8000000 c x y z
  | .guard p n => encN19B18 0xBA000000 p n
  | .hdr r c f t => encN23B22N16I0 0xBC000000 r c f t
  | .jseg a b => encU19U13 0xA4000000 a b
  | .cfetch a b => encU19U13 0xA6000000 a b
  | .widen a b => encU19L13 0xA8000000 a b
  | .gather a t => encU19B0 0xAA000000 a t
  | .barTeam => encX0 0xB0000000
  | .barTeamYield => encX0 0xB0000001
  | .barClus => encX0 0xB0000002
  | .barMask a => encU19 0xB0000003 a
  | .joinEnrol a => encN19 0xB2000000 a
  | .joinWait a => encN19 0xB2000001 a
  | .elect a c => encE19N7 0xB4000000 a c
  | .partitionWhole a => encN19 0xB4000001 a
  | .partitionB4 a => encN19 0xB4000081 a
  | .partitionB8 a => encN19 0xB4000101 a
  | .partitionB16 a => encN19 0xB4000181 a
  | .partitionMask a b => encN19U13 0xB4000201 a b
  | .regroup => encX0 0xB4000002
  | .lmap a b => encE19U13 0xB4000003 a b
  | .nop => encX0 0xBE000000
  | .exit => encX0 0xBE000001
  | .brk => encX0 0xBE000002
  | .trap a => encU19 0xBE000003 a
  | .region => encX0 0xBE000004
  | .yield => encX0 0xBE000005
  | .cinv a b => encU19U13 0xBE000006 a b
  | .cinvSync a b => encU19U13 0xBE000007 a b
  | .tcopy a b c => encU19N13U7 0xC0000000 a b c
  | .tcopym a b c => encU19N13U7 0xC2000000 a b c
  | .mtask a => encU19 0xC4000000 a
  | .drain a o => encU19B0 0xC6000000 a o
  | .ringAcq a b => encE19U13 0xC8000000 a b
  | .ringRel a => encU19 0xC8000001 a
  | .keySort a b c k => encN19U13U7B4 0xCA000000 a b c k
  | .keyMerge a b c k d => encN19U13U7B4B3 0xCA000001 a b c k d
  | .keyTopk a b c => encN19U13U7 0xCA000002 a b c
  | .keyOffs a b c => encN19U13U7 0xCA000003 a b c
  | .keyCheck a b c => encN19U13U7 0xCA000004 a b c
  | .xlatb a b c => encU19U13U7 0xCC000000 a b c
  | .seq a => encU19 0xCE000000 a
  | .fence s => encN0 0xD0000000 s
  | .fenceAcq s => encN0 0xD0000008 s
  | .fenceRel s => encN0 0xD0000010 s
  | .fenceSc s => encN0 0xD0000018 s
  | .cwait a b => encU19U13 0xD2000000 a b
  | .suspend a b => encU19N13 0xD4000000 a b
  | .touch a => encU19 0xD4000001 a
  | .fulfill a b => encU19N13 0xD4000002 a b
  | .celltag a b c => encU19U13E7 0xD4000003 a b c
  | .nlaunch a b => encE19U13 0xD6000000 a b
  | .nsignal b => encU13 0xD6000001 b
  | .nqstat a b => encE19U13 0xD6000002 a b
  | .mrs a b => encP19N13 0xD8000000 a b
  | .msr a b => encQ19N13 0xD8000001 a b
  | .adpf a b c => encU19U13U7 0xDA000000 a b c
  | .dbgRd a b c => encE19U13U7 0xE0000000 a b c
  | .dbgWr a b c => encU19U13U7 0xE0000001 a b c
  | .ctxSave a b => encU19U13 0xE2000000 a b
  | .ctxLoad a => encU19 0xE2000001 a
  | .place a => encU19 0xE4000000 a
  | .evq a b => encE19U13 0xE6000000 a b
  | .pmsrRd a b => encE19N13 0xE8000000 a b
  | .pmsrWr a b => encU19N13 0xE8000001 a b
  | .cload a b => encU19U13 0xEA000000 a b
  | .rte a b => encU19U13 0xEC000000 a b
  | .kill a => encU19 0xEE000000 a
  | .landingComplete _ _ => []
  | .trapQueueAdmit _ => []
  | .gatherFiring _ => []
  | .phaseRecordWrite _ => []
  | .eventHoldRelease _ => []
  | .evaluatorRequest _ => []
  | .cellStarterRetry _ => []
  | .cellWaiterRetry _ => []
  | .cwaitRecheck _ => []
  | .cwaitPoll _ => []
  | .postedAtomicPerform _ => []
  | .postedAtomicFault _ => []
  | .strokeTick => []
  | .engineCommandStart _ _ => []
  | .commandComplete _ _ => []
  | .ringFill _ _ => []
  | .sparsityQueueFill _ _ => []
  | .taskIssue _ => []
  | .matrixTaskEnd _ => []
  | .adapterLineFill _ => []
  | .matrixNanTrap _ => []
  | .drainAddition _ => []
  | .nodeSignal _ => []
  | .placementDecision _ => []
  | .teamStart _ => []
  | .priorityAging _ => []
  | .reservation _ => []
  | .packageArbiterHandout => []
  | .recordArrival _ _ => []
  | .flushTimerExpiry _ _ => []
  | .slipwayReturn _ => []
  | .teamEnd _ => []
  | .menuEntryApply _ _ => []
  | .ringtabWrite _ => []
  | .tlbinvPage _ _ => []
  | .tlbinvAsid _ => []
  | .tlbinvAll => []
  | .vacsetAdd _ _ => []
  | .vacsetEmpty _ => []
  | .vacgo _ _ => []
  | .vacateHardStop _ => []
  | .vacateComplete _ => []
  | .pgdone _ _ _ => []
  | .eccClear _ => []
  | .wrouteWrite _ => []
  | .evheadWrite _ _ => []
  | .hostQueueDoorbell _ _ _ _ => []
  | .hostSubmit _ _ => []
  | .hostSignal _ _ => []
  | .hostCloseQueue _ _ => []
  | .msixCoalesceEnd _ _ => []
  | .eventStatusClear _ => []
  | .deviceRegisterWrite _ _ => []
  | .cxlMemWrite _ _ => []
  | .cxlMemRead _ _ => []
  | .wotisRead _ => []
  | .wotisWrite _ => []
  | .wotisAtomic _ => []
  | .wotisResponse _ => []
  | .wotisCopyData _ => []
  | .wotisEvent _ => []
  | .linkRetrained _ => []
  | .linkLost _ => []
  | .resync => []
  | .resyncDone => []
  | .attestationRequest _ => []
  | .attestationReportReady => []
  | .throttle _ => []
  | .thermalFreeze => []
  | .freeze => []
  | .coldReset => []
  | .warmReset => []
  | .bootImageCheck => []
  | .testLogicReset => []
  | .extest => []
  | .samplePreload => []
  | .idcode => []
  | .daddr _ => []
  | .ddata => []
  | .dstat => []
  | .bypass => []
  | .illegalInstruction => []
  | .codeNotLanded => []
  | .powerLoss => []

/-- Words an instruction takes, extension words included. -/
def Instr.words (i : Instr) : Nat := (encode i).length

end Sys2Proof
end

