-- ==== Sys2Proof/Machine/State.lean ====
section
/-! DEFINITION. The state of the VYR-1728: everything the spec gives the package, its dies, cores, teams, groups and
lanes, as plain data, and State.reset. Keys: a core is its package core number 216 d + x + 18 y (R300); a group is 64 times
its core plus its group reference 16 seat + slot (R343); a team is a number that the model hands out. -/

namespace Sys2Proof.Machine

/-- Why the model stops. -/
inductive Fault where
  /-- Raised by a program instruction that is run with no unit under issue (State.cur is none or names no group or
  lane set); no step does it. Safe: the step function always sets the unit first. -/
  | noIssue
deriving DecidableEq, Repr

/-- Why the model gives an instruction no meaning. -/
inductive Refusal where
  /-- Raised by an arm of exec whose instruction has no meaning yet. Safe: nothing is claimed of it. -/
  | notModelled (mnemonic : String)
deriving DecidableEq, Repr

/-! ### Lanes and groups -/

/-- A latch with its valid bit (R9). -/
structure Latch where
  val   : DWord
  valid : Bool
deriving DecidableEq, Repr

/-- l0 to l3 or q0 to q3. -/
abbrev Latches := Vector Latch 4

def Latches.invalid : Latches := Vector.replicate 4 ⟨0, false⟩

/-- The uniform registers s0 to s55, k0 to k7 and q0 to q3 of a group or of a cox (R8, R341). Bit k0 is never read. -/
structure UFile where
  s : Vector DWord 56
  k : Vector Bool 8
  q : Latches
  /-- registers with an uncorrectable error (R336): s0 to s55, q0 to q3 from bit 56, k0 to k7 from bit 64 -/
  bad : BitVec 72
deriving DecidableEq, Repr

def UFile.reset : UFile := ⟨Vector.replicate 56 0, Vector.replicate 8 false, Latches.invalid, 0⟩

/-- The forms of barrier (R171, R172). -/
inductive BarKind where
  | team | teamYield | clus | mask
deriving DecidableEq, Repr

/-- What a waiting lane waits for (R140). -/
inductive WaitWhy where
  | join (j : Nat)
  | collective
  | widen (call : Nat)
  | callee (call : Nat)
deriving DecidableEq, Repr

/-- What a parked lane is parked for (R140, R332). -/
inductive ParkWhy where
  /-- a translation fault on a page of an address space (R202) -/
  | fault (asid page : Nat)
  /-- no route to a peer device (R362) -/
  | peer (dev : Nat)
  /-- an answer of a peer device (R363) -/
  | reply (tag : Nat)
  /-- a deferred cell under evaluation, by its physical address (R224) -/
  | cell (pa : Nat)
  /-- a starter without a chain or an entry (R226) -/
  | starter (pa : Nat)
  | barrier (b : BarKind)
  /-- a GATHER at an address, with its kind and its target (R154) -/
  | gather (team : Bool) (target unit : DWord)
  | regroup
  /-- a completion object, by its physical address (R244) -/
  | cwait (pa : Nat)
  | ringAcq (id : Nat)
  | phaseYield
  | slipway
  /-- the coupled reserve group of a level (R151) -/
  | reserve
deriving DecidableEq, Repr

/-- The states of a lane (R140) and the absent positions of a lane map (R146). -/
inductive LaneState where
  | active
  | waiting (w : WaitWhy)
  | parked (w : ParkWhy)
  | demoted
  | exited
  | absent
deriving DecidableEq, Repr

/-- One lane: its registers (R8), its state, its region-entry state (R327) and its bookkeeping. -/
structure Lane where
  state    : LaneState
  vpc      : DWord
  lid      : Word
  lrng     : DWord
  v        : Vector Word 56
  p        : Vector Bool 64
  l        : Latches
  /-- region entry address, lrng and latches (R327, R125, R50) -/
  entry    : DWord
  entryRng : DWord
  entryL   : Latches
  /-- the lanes a demoted lane still waits to see issue (R147) -/
  dem      : Mask
  /-- width nesting level (R148) -/
  nest     : Nat
  /-- issues of a REP unit already made, and its count as fixed at the first of them (R53) -/
  rep      : Nat
  repN     : Nat
  /-- bytes a peer device answered to this lane's parked access (R363) -/
  reply    : Option (List Byte)
  /-- the address of the instruction that closed its region and that it has not completed (R327) -/
  atClose  : Option DWord
  /-- registers with an uncorrectable error (R336): v0 to v55, l0 to l3 from bit 56, p0 to p63 from bit 64 -/
  bad      : BitVec 128
deriving DecidableEq, Repr

/-- Kinds of partition layout (R146, R331). -/
inductive PartKind where
  | whole | b4 | b8 | b16 | mask
deriving DecidableEq, Repr

/-- A partition register (R331). -/
structure Part where
  kind : PartKind
  mask : Mask
deriving DecidableEq, Repr

/-- Element formats of fragments and matrix operands (R178, R298). -/
inductive Fmt where
  | bf16 | f16 | e4m3 | e5m2 | f4b | i8
deriving DecidableEq, Repr

/-- Collective operations (R167-R170, R180). -/
inductive CollOp where
  | xidx | xxor | xrot | xshift | xlid
  | pany | pall | pmask
  | matchEq | compact | mrank
  | redAdd | redFadd | redMinI | redMinN | redMinF | redMaxI | redMaxN | redMaxF | scanAdd
  | mfrag (f : Fmt) (d a b sel : Nat) (acc : Bool)
deriving DecidableEq, Repr

/-- What an arrived member brought (R166): its operands are read at its arrival. -/
structure Arrival where
  pos     : Nat
  contrib : Bool
  a       : Word
  b       : Word
  pv      : Bool
deriving DecidableEq, Repr

/-- A collective under way: its address, operation, destination, layout and arrivals (R145, R176). -/
structure Collective where
  addr    : DWord
  op      : CollOp
  dst     : LDst
  pdst    : Nat
  nwb     : Bool
  next    : DWord
  /-- next issue of a REP unit, if any (R53) -/
  again   : Option Nat
  members : Mask
  arrived : List Arrival
deriving DecidableEq, Repr

/-- A block of a fresh group: the positions it takes and the caller it serves, with the widen index of its first lane
(R150, R152). -/
structure Block where
  start  : Nat
  size   : Nat
  caller : Nat
  base   : Nat
deriving DecidableEq, Repr

/-- What a group belongs to: the team itself, the fresh groups of a WIDEN, the coupled reserve, a gather thread. -/
inductive GroupKind where
  | own
  | fresh (call : Nat)
  | reserve (call : Nat)
  | thread (call : Nat)
deriving DecidableEq, Repr

/-- Why a stopped group stopped (R323, R329): lanes are its unit's issuing set, shown those its report names. -/
structure Stop where
  cause  : Nat
  unit   : DWord
  /-- the address after the unit and its extension words -/
  next   : DWord
  lanes  : Mask
  shown  : Mask
  d1     : DWord
  d2     : DWord
  hard   : Bool
  /-- 1 trap, 2 vacate, 3 stop by the cox (R329) -/
  reason : Nat
deriving DecidableEq, Repr

/-- What holds a group's next unit back (R139, R10). -/
inductive Hold where
  /-- the CINV.sync of these lanes at this address waits for the landing table and the loop buffers (R112) -/
  | landing (unit : DWord) (lanes : Mask)
  /-- the SC fence of these lanes at this address drains its core, then waits for the stroke tick with an index; its number in
  order of issue (R213) -/
  | scFence (unit : DWord) (lanes : Mask) (tick : Option DWord) (n : Nat)
  /-- the MSR of ringtab of these lanes at this address waits for ring commands (R296) -/
  | ringtab (unit next : DWord) (lanes : Mask) (v : DWord)
  /-- the JSEG of these lanes at this address waits for its segment to land (R110) -/
  | jseg (unit : DWord) (lanes : Mask) (target : DWord) (lines bayline base : Nat)
  /-- the unit at this address waits for a segment that auto-land lands (R325) -/
  | autoLand (unit : DWord) (lines bayline base : Nat)
deriving DecidableEq, Repr

/-- The BAR.mask bookkeeping of a group (R172, R331): first mask, union, the first differing mask. -/
structure BarMask where
  first  : Mask
  union  : Mask
  differ : Option Mask
deriving DecidableEq, Repr

/-- A group (R136, R137). -/
structure Group where
  tid      : Nat
  /-- index in the team; a fresh group counts on from 64 (R149) -/
  index    : Nat
  kind     : GroupKind
  blocks   : List Block
  frame    : Nat
  /-- the coupled bit of the callee it runs, none outside callees (R152) -/
  coupled  : Option Bool
  released : Bool
  u        : UFile
  cvm      : Word
  gbase    : DWord
  wsave    : DWord
  efaddr   : DWord
  parts    : Vector Part 8
  joins    : Vector Mask 4
  leader   : Option Nat
  colls    : List Collective
  barMask  : Option BarMask
  region   : DWord
  entryQ   : Latches
  stop     : Option Stop
  hold     : Option Hold
  /-- L1 lines that entered before this time are missed (R195); the time of the last acquire at .sys (R221) -/
  acq      : Nat
  sysAcq   : Nat
  lanes    : Vector Lane 32
deriving DecidableEq, Repr

/-! ### Width calls -/

/-- A contribution of a callee lane to its caller: widen index and v0 to v3 (R153, R164). -/
structure Contribution where
  idx : Nat
  v   : List Word
deriving DecidableEq, Repr

/-- How a caller of a WIDEN runs its callee (R150, R151). -/
inductive CallerMode where
  | none | fresh | serial | reserve
deriving DecidableEq, Repr

/-- What a lane that runs a callee itself goes back to (R151, R158): its lid, nesting level, frame, v0 to v7, lrng, the
address of its save slot (R149) and the address it continues at. -/
structure Saved where
  lid   : Word
  nest  : Nat
  frame : Nat
  v     : List Word
  lrng  : DWord
  slot  : Nat
  next  : DWord
deriving DecidableEq, Repr

/-- A caller of a WIDEN; s55 is the value its save slot gave back. -/
structure Caller where
  pos    : Nat
  count  : Nat
  mode   : CallerMode
  /-- invocations ended, or the widen index that runs now in a serial run -/
  ended  : Nat
  got    : List Contribution
  saved  : Saved
  s55    : Option DWord
deriving DecidableEq, Repr

/-- An open WIDEN (R150-R153). -/
structure WidenCall where
  tid     : Nat
  level   : Nat
  target  : DWord
  hdr     : Word
  gkey    : Nat
  next    : DWord
  callers : List Caller
  groups  : List Nat
  charge  : Nat
deriving DecidableEq, Repr

/-- One run of a gather invocation: callee and callers (group, position) in order (R155). -/
structure GatherRun where
  callee  : DWord
  callers : List (Nat × Nat)
deriving DecidableEq, Repr

/-- A firing of GATHER (R154-R159): the runs to make, the head under way once a thread is named. -/
structure Firing where
  level   : Nat
  /-- the headers of its runs have been read; a header failed and its lanes stay parked (R163) -/
  begun   : Bool
  stuck   : Bool
  runs    : List GatherRun
  callers : List (Nat × Nat)
  /-- group and position of the callee thread; none before the head run starts -/
  thread  : Option (Nat × Nat)
  /-- the thread has a block of its own (R158) -/
  block   : Bool
  hdr     : Word
  saved   : Option Saved
  /-- what the lowest caller's lane was parked for before a fault on its save slot parked it (R149) -/
  wait    : Option ParkWhy
deriving DecidableEq, Repr

/-! ### Teams -/

/-- A node descriptor, field by field (R274). -/
structure NodeDesc where
  entry : Nat
  args : Nat
  cobj : Nat
  gx : Nat
  gy : Nat
  gz : Nat
  dies : Nat
  groups : Nat
  cw : Nat
  ch : Nat
  menu : Nat
  rejoin : Bool
  prio : Nat
  reserve : Nat
  quota : Nat
  nbv : Nat
  cv : Nat
  cs : Nat
  sbanks : Nat
  xbanks : Nat
  wbanks : Nat
  deck : Nat
  autoLand : Bool
  trapNan : Bool
  asid : Nat
  rqid : Nat
  rqen : Bool
  tile : Nat
  flush : Nat
  seg : Nat
  npred : Nat
  /-- frame of the entry function, read at submission (R137) -/
  frame : Nat
deriving DecidableEq, Repr

/-- What a team runs (R277). -/
inductive TeamKind where
  | grid
  | tile
  | evaluator (pa : Nat)
deriving DecidableEq, Repr

/-- Barrier arrival of a team: which forms have been seen (R172, R329). -/
structure TeamBar where
  plain : Bool
  yield : Bool
deriving DecidableEq, Repr

/-- A team on a core. -/
structure Team where
  core     : Nat
  die      : Nat
  handle   : Word
  tidx     : Nat
  kind     : TeamKind
  desc     : NodeDesc
  /-- cluster coordinates in the grid, position in the rectangle (R277, R279) -/
  cx : Nat
  cy : Nat
  cz : Nat
  x : Nat
  y : Nat
  /-- the teams of the cluster, column by column (R189) -/
  cluster  : List Nat
  /-- allotments in bytes (R188, R189) -/
  sBytes : Nat
  xBytes : Nat
  wBytes : Nat
  deckBytes : Nat
  scratch  : Tab Byte
  xbuf     : Tab Byte
  wbuf     : Tab Byte
  deck     : Tab Byte
  /-- bytes of its banks and deck with an uncorrectable error (R235, R336): space as in Own, and byte -/
  badBytes : List (Nat × Nat)
  /-- code window and entry allotment (R107, R346) -/
  winFirst : Nat
  winLines : Nat
  allot    : Nat
  placed   : Bool
  landed   : Bool
  quota    : Nat
  wslots   : Nat
  rsv      : Nat
  gather   : Tab Word
  firings  : List Firing
  bar      : TeamBar
  ringtab  : DWord
  phase    : Nat
  records  : List (List Word)
  chain    : Option Nat
  matrix   : Bool
  /-- the cox has ended it; its end has been counted at its node -/
  ending   : Bool
  counted  : Bool
  /-- base priority of the entry it was placed from (R334) -/
  prio     : Nat
deriving DecidableEq, Repr

/-! ### Cores -/

/-- Landing table states (R107). -/
inductive LandState where
  | landing | landed
deriving DecidableEq, Repr

/-- A used entry of the landing table (R107); an unused one is EMPTY. -/
structure LandEntry where
  base    : Nat
  lines   : Nat
  bayline : Nat
  tid     : Nat
  /-- the address space its copy reads -/
  asid    : Nat
  state   : LandState
  /-- invalidated while LANDING (R113) -/
  dead    : Bool
  /-- completion objects of CFETCH (R111) with their address spaces -/
  cobjs   : List (Nat × Nat)
  /-- a translation fault holds the copy (R109) -/
  held    : Bool
  /-- order of landing, for eviction -/
  age     : Nat
deriving DecidableEq, Repr

/-- The loop buffer of a seat (R114): holder, address of its first word, the words; a CINV.sync covered them (R112). -/
structure LoopBuf where
  gkey  : Nat
  base  : Nat
  words : List Word
  drop  : Bool
deriving DecidableEq, Repr

/-- A seat (R139, R114, R181). -/
structure Seat where
  last   : Option Nat
  loop   : Option LoopBuf
  /-- the group, the first register of A and their number -/
  opHold : Option (Nat × Nat × Nat)
deriving DecidableEq, Repr

/-- A cached translation: address space, first page, pages of 64 KiB, the entry's word (R200, R201). -/
structure TlbEntry where
  asid  : Nat
  page  : Nat
  pages : Nat
  pte   : DWord
deriving DecidableEq, Repr

/-- A tile ring (R262, R295). -/
structure Ring where
  enabled : Bool
  tid     : Nat
  offset  : Nat
  slots   : Nat
  bytes   : Nat
  role    : Nat
  matrix  : Bool
  f : Nat
  a : Nat
  r : Nat
  /-- slots claimed by issued tasks beyond those handed out (R263) -/
  claimed : Nat
deriving DecidableEq, Repr

/-- Where a command stands. -/
inductive CmdState where
  | queued
  /-- issued by the dependency table (R263) -/
  | issued
  /-- at an element of a faulting page (R202) -/
  | fault (asid page : Nat)
  /-- at an element on an unreachable peer (R362) -/
  | peer (dev : Nat)
  | running
  /-- finished; its completion is not yet recorded (R254-R256) -/
  | done
  /-- its tile has left for another core's slot and waits to be added there (R220, R266) -/
  | sent
  /-- a matrix task stopped by the NaN trap, and whether the trap has been delivered (R273, R326) -/
  | nanStop (told : Bool)
deriving DecidableEq, Repr

/-- Bytes a command owns until it has written them (R217, R235): space 0 is global by physical address, 1 to 4 are a team's
scratch, deck, X and W; 5 is global by virtual address, for a page that was not mapped at the issue, with the address space in
the place of the team; 6 stands for all a team's spaces, and 8 for every byte of an address space, while the command cannot read
its own record (log entry 26); 7 is X that a task with adapters keeps from STX (R270). -/
structure Own where
  space : Nat
  tid   : Nat
  lo    : Nat
  len   : Nat
deriving DecidableEq, Repr

/-- An engine command (R253, R378). -/
structure Cmd where
  id     : Nat
  tid    : Nat
  gkey   : Nat
  major  : Nat
  f7     : Nat
  addr   : DWord
  cobj   : DWord
  ops    : List DWord
  cvm    : Word
  lrng   : DWord
  inputs : DWord
  seq    : Bool
  state  : CmdState
  /-- status, flags and detail for efaddr so far (R254-R256) -/
  status : Nat
  flags  : Nat
  /-- the flags of its drain alone, for the drain's own completion object (R256, R265) -/
  dflags : Nat
  detail : DWord
  /-- ring slots it holds: that of A and that of B for a matrix task, those of its rings for a copy (R261, R262, R299) -/
  slots  : List Nat
  /-- its place in the arrival at its unit: its own number, or for a task of the dependency table one taken at its issue (R253) -/
  order  : Nat
  /-- the slots it claimed at its issue and has neither taken nor freed: ring and count (R263) -/
  claims : List (Nat × Nat)
  /-- rings whose slots it has read for the last time (R262) -/
  spent  : List Nat
  /-- its failure has been offered to `efaddr` (R256) -/
  noted  : Bool
  /-- the group that issued it has ended -/
  orphan : Bool
  /-- `gbase` of that group at the issue (R305) -/
  gbase  : DWord
  /-- element at which a stopped command continues; k-step for a matrix task -/
  elem   : Nat
  /-- rows of a matrix task whose correction is still to be made (R269, R270) -/
  rows   : List Nat
  /-- adapter rows marked pending by a miss or a move (R270, R335) -/
  replay : Bool
  /-- the NaN trap is disarmed for the rest (R326) -/
  disarm : Bool
  owns   : List Own
  /-- bytes that peers answered, by peer address (R363) -/
  got    : Tab Byte
deriving DecidableEq, Repr

/-- A partial tile on its way to an accumulator slot (R220, R266). -/
structure PartTile where
  slot   : Nat
  ord    : Option Nat
  m      : Nat
  n      : Nat
  tile   : List (BitVec 40)
  /-- core and command it came from -/
  src    : Nat
  cmd    : Nat
deriving DecidableEq, Repr

/-- A line of the adapter cache (R270): part 0 is A, 1 is B. -/
structure AdLine where
  id    : Nat
  layer : Nat
  block : Nat
  part  : Nat
  data  : List Byte
  /-- filled for a pending row that has not been replayed -/
  pin   : Bool
  /-- invalidated while it was pinned (R306) -/
  dead  : Bool
deriving DecidableEq, Repr

/-- A posted far atomic (R239): the lane and unit it came from, the access, what it waits for once it has been tried, and the
trap that it, or a store refused at a peer (R231), has still to raise once its group runs again (R323): cause, details and
the lanes of its report. -/
structure Posted where
  gkey    : Nat
  pos     : Nat
  unit    : DWord
  va      : Nat
  major   : Nat
  funct   : Nat
  operand : DWord
  swap    : DWord
  wait    : Option ParkWhy
  trap    : Option (Nat × DWord × DWord × Mask)
deriving DecidableEq, Repr

/-- A trap report (R323). -/
structure Report where
  gkey   : Nat
  cause  : Nat
  place  : Word
  lanes  : Mask
  unit   : DWord
  region : DWord
  d1     : DWord
  d2     : DWord
deriving DecidableEq, Repr

/-- The cox (R341). -/
structure Cox where
  u      : UFile
  mem    : Tab Byte
  pc     : DWord
  vec    : DWord
  cause  : DWord
  epc    : DWord
  stat   : Byte
  halted : Bool
  /-- issues of a REP unit already made, and its count (R53) -/
  rep    : Nat
  repN   : Nat
  /-- the team whose groups a CTX.save is stopping (R351) -/
  saving : Option Nat
deriving DecidableEq, Repr

/-- A core: what its teams, groups and lanes do not hold. -/
structure Core where
  menu     : Option Nat
  land     : List LandEntry
  landAge  : Nat
  bay      : Tab Byte
  seats    : Vector Seat 4
  /-- L1: the time each line entered (R193, R195); bytes whose copy there is older than home -/
  l1       : Tab Nat
  l1Time   : Nat
  stale    : Tab Byte
  /-- bytes whose copy there is older than a write of the host or of a peer that no agent of the device has met since (R203,
  R221) -/
  hostStale : Tab Byte
  tlb      : List TlbEntry
  rings    : Vector Ring 16
  vq       : List Cmd
  dt       : List Cmd
  acc      : Vector (Tab (BitVec 40)) 2
  /-- partial tiles waiting to be added, in order of arrival, and per slot the sequence numbers of the ordered round -/
  tiles    : List PartTile
  rounds   : Vector (List Nat) 2
  sq       : Vector (List (List Byte)) 4
  adapters : List AdLine
  posted   : List Posted
  cox      : Cox
  reports  : List Report
  /-- trapped groups without a report (R324) -/
  trapWait : List Nat
  /-- teams whose placement request waits for the cox (R346) -/
  places   : List Nat
deriving DecidableEq, Repr

/-! ### Dies -/

/-- What is kept of a team's core while it stands in a context record (R329, R334): its rings by number, and where it
used the matrix engine the tiles on their way to its slots, the ordered rounds of the slots and the sparsity queues. Its groups, commands and faulted posted atomics meanwhile stand at
core number 1728, where nothing runs. -/
structure Kept where
  tid    : Nat
  /-- where its record was written -/
  place  : Nat
  rings  : Tab Ring
  tiles  : List PartTile
  rounds : Vector (List Nat) 2
  sq     : Vector (List (List Byte)) 4
deriving DecidableEq, Repr

/-- A ready-pool entry's content (R277). -/
inductive PoolItem where
  /-- the clusters of a node, 4096 times its die plus its entry, from an index on -/
  | grid (entry next stop : Nat)
  | tile (entry : Nat) (records : List (List Word))
  /-- a resumed phase: the record of each of its teams, and the team data it goes on with -/
  | phase (records : List Nat) (teams : List Team)
  | evaluator (pa : Nat) (desc : NodeDesc) (s0 s1 s2 s3 : DWord)
  /-- a vacated cluster: a context record for each team, with what the boathouse keeps of it -/
  | vacated (records : List Nat) (kept : List Kept)
deriving DecidableEq, Repr

/-- A ready-pool entry (R283): base priority, the stroke it entered at, the stroke its e reached 7. -/
structure PoolEntry where
  item  : PoolItem
  prio  : Nat
  since : DWord
  at7   : Option DWord
  /-- effective priority as last computed -/
  e     : Nat
  /-- it holds the die's reservation -/
  res   : Bool
deriving DecidableEq, Repr

/-- A node-table entry (R276, R278, R282). -/
structure Node where
  desc   : NodeDesc
  gen    : Nat
  /-- signals still required -/
  need   : Nat
  ready  : Bool
  closed : Bool
  /-- clusters handed to the pool or arbiter, teams alive, teams or tiles ended -/
  teams  : Nat
  live   : Nat
  ended  : Nat
deriving DecidableEq, Repr

/-- A record queue (R281, R282): node entry, open tile, stroke the timer started at. -/
structure RecQueue where
  node    : Option Nat
  closed  : Bool
  arrive  : List (List Word)
  opened  : List (List Word)
  start   : Option DWord
  /-- the open tile was to close with the queue and waits for room (R282) -/
  shut    : Bool
deriving DecidableEq, Repr

/-- Slipway items (R287). -/
inductive SlipItem where
  | pool (e : PoolEntry)
  | record (queue : Nat) (r : List Word)
deriving DecidableEq, Repr

/-- A host work queue (R366, R368): ring base and entries, completion ring, head, tail, vector, port. -/
structure HostQueue where
  base   : Nat
  size   : Nat
  cbase  : Nat
  head   : Word
  tail   : Word
  chead  : Nat
  vector : Half
  port   : Nat
  held   : Option (Nat × Nat)
deriving DecidableEq, Repr

/-- A chain of evaluations (R226, R229): the evaluations it holds, its link, and the wait that set the link (group and
cell). -/
structure Chain where
  live : Nat
  link : Option Nat
  wait : Option (Nat × Nat)
deriving DecidableEq, Repr

/-- A waiter of a cell, in the order in which its trigger arrived at the directory (R228): lanes of a group parked at their
access, the lanes' posted atomics (R239), or a peer's request (R231). -/
structure Waiter where
  /-- the group, and the virtual address of the cell it named -/
  gkey   : Nat
  va     : Nat
  lanes  : Mask
  posted : Bool
  peer   : Option (Nat × PeerReq)
deriving DecidableEq, Repr

/-- An evaluation in the cell table (R226). -/
structure CellEntry where
  pa      : Nat
  chain   : Nat
  /-- team of the evaluator once placed -/
  team    : Option Nat
  rsize   : Nat
  notify  : Bool
  hold    : Bool
  prio    : Nat
  /-- in order of arrival (R228, R231) -/
  waiters : List Waiter
deriving DecidableEq, Repr

/-- An evaluator request on the event queue (R285). -/
structure EvalReq where
  pa    : Nat
  desc  : NodeDesc
  prio  : Nat
  s0    : DWord
  s1    : DWord
  s2    : DWord
  s3    : DWord
deriving DecidableEq, Repr

/-- A parked starter (R226): lanes of a group or their posted atomics, or a peer's request that would start the evaluation; a
faulting template page it waits for. -/
structure Starter where
  pa    : Nat
  gkey  : Nat
  mask  : Mask
  posted : Bool
  peer  : Option (Nat × PeerReq)
  fault : Option (Nat × Nat)
deriving DecidableEq, Repr

/-- A vacate under way (R334): cores named, teams taken, completion object. -/
structure Vacate where
  cores : List Nat
  teams : List Nat
  cobj  : DWord
  hard  : Bool
deriving DecidableEq, Repr

/-- A privileged event (R339); die and sequence number are added when it is written. -/
structure Event where
  kind   : Nat
  cause  : Nat
  access : Nat
  addr   : DWord
  aux    : DWord
  mask   : Mask
  tidx   : Nat
  handle : Word
  gref   : Nat
  core   : Nat
  asid   : Nat
  seq    : Word
deriving DecidableEq, Repr

/-- One die: its boathouse, directory, host queues and privileged registers. -/
structure Die where
  tsel     : BitVec 12
  ctxbase  : DWord
  phbase   : DWord
  slipbase : DWord
  slipsize : Word
  ecc      : DWord
  evbase   : DWord
  evsize   : Word
  evtail   : Word
  evhead   : Word
  vacset   : List Nat
  vacates  : List Vacate
  evseq    : Word
  /-- the hold of 256 numbered events, and the events whose sources wait for room in it (R339) -/
  evhold   : List Event
  evwait   : List Event
  /-- outstanding faults: address space, page, access kind (R202) -/
  faults   : List (Nat × Nat × Nat)
  nodes    : Tab Node
  gens     : Tab Nat
  pool     : List PoolEntry
  /-- rotating order of the nodes of each level at dispatch: level and node of those served, oldest first (R283) -/
  served   : List (Nat × Nat)
  /-- reserved cores (R283) -/
  reserved : List Nat
  queues   : Tab RecQueue
  slip     : List SlipItem
  slipHead : Nat
  slipTail : Nat
  /-- groups parked for the slipway, in order (R287) -/
  stalled  : List Nat
  /-- bytes that peers answered to reads of the die's own units, by device and address, until they are used (R363) -/
  got      : List (Nat × Nat × List Byte)
  slipEvent : Bool
  host     : Tab HostQueue
  chains   : Tab Chain
  cells    : List CellEntry
  evals    : List EvalReq
  starters : List Starter
  /-- watchers of completion objects: group, line, and whether the line was written since (R244) -/
  watches  : List (Nat × Nat × Bool)
  tlb      : List TlbEntry
  strays   : Nat
  /-- phase records in use, and teams that ended a phase while others of their cluster have not (R160, R284) -/
  phases   : List Nat
  yielded  : List (Nat × Nat × Team)
  /-- moved instances with their priorities, on the privileged event queue until the pool takes them (R334, R339) -/
  moved    : List (PoolItem × Nat)
  owner    : Option Nat
  throttle : Nat
deriving DecidableEq, Repr

/-! ### The package -/

/-- A grid the package arbiter holds (R286): die and entry of its node, clusters from an index on. -/
structure ArbEntry where
  die   : Nat
  entry : Nat
  next  : Nat
  stop  : Nat
  /-- as in a pool entry: the stroke it entered at, that its e reached 7, its e; the dies that hold a reservation for it -/
  since : DWord
  at7   : Option DWord
  e     : Nat
  res   : List Nat
deriving DecidableEq, Repr

/-- State of an MSI-X vector of a port (R368). -/
structure MsiVec where
  masked  : Bool
  within  : Bool
  pending : Bool
deriving DecidableEq, Repr

/-- An access of this device under way to a peer (R363): whose lane or command it is, and the request. -/
structure PeerWait where
  gkey : Nat
  /-- a lane below 32, 64 plus a command's number; 0 for a unit of a die -/
  pos  : Nat
  /-- the address space of a die's unit, whose die gkey then is -/
  unit : Option Nat
  dev  : Nat
  req  : PeerReq
  /-- the address the lane named -/
  va   : Nat
  /-- all the lanes whose access it is, by group and position, and those that a report of it shows (R323) -/
  lanes : List (Nat × Nat)
  shown : Mask
deriving DecidableEq, Repr

/-- An access of the host to memory (R211, R221): bytes written, an atomic, bytes read. -/
inductive HostAccess where
  | write (pa : Nat) (data : List Byte)
  | rmw (pa : Nat) (x : HostRmw)
  | read (pa n : Nat)
deriving DecidableEq, Repr

/-- Instructions of the debug port (R373). -/
inductive JtagIr where
  | extest | samplePreload | idcode | daddr | ddata | dstat | bypass
deriving DecidableEq, Repr

/-- The instruction of a code of the 6-bit instruction register: all others act as BYPASS (R373). -/
def JtagIr.ofCode (x : BitVec 6) : JtagIr :=
  match x.toNat with
  | 0x00 => .extest | 0x01 => .samplePreload | 0x02 => .idcode | 0x10 => .daddr | 0x11 => .ddata | 0x12 => .dstat
  | _ => .bypass

/-- The unit under issue: the agent, its address, its first word, the instruction's word, the following address, the
issuing set, the parts of its guard and repeat, the issue's place in the repeat and the count kept since its first issue
(R46, R51, R53, R54, R141); lanes that had closed their region with this unit before (R327), and whether another group of
the seat would issue (R115). -/
structure Issue where
  cox   : Bool
  core  : Nat
  gkey  : Nat
  addr  : DWord
  first : Word
  word  : Word
  next  : DWord
  lanes : Mask
  guard : Option (Nat × Bool)
  rep   : Option (Nat × Bool × Bool × Bool)
  idx   : Nat
  kept  : Nat
  again : Mask
  others : Bool
deriving DecidableEq, Repr

/-- Which agent moves: an event of another agent, a group of a core, a waiter that replays its access at a fulfilled cell
(R228), or a core's cox. -/
inductive Turn where
  | event (i : Instr)
  | issue (gkey : Nat)
  | replay (w : Waiter)
  | cox (core : Nat)
  /-- ECC corrects a soft error on a die, and counts it (R336) -/
  | corrected (die : Nat)
  /-- the check bits of a line go bad (R336) -/
  | spoiled (pa : Nat)
deriving DecidableEq, Repr

/-- The whole device. -/
structure State where
  powered  : Bool
  frozen   : Bool
  booted   : Bool
  stroke   : DWord
  mem      : List Host.Cell
  tags     : Tab (BitVec 2)
  hostMem  : List Host.Cell
  /-- lines whose check bits are bad, with the bytes not rewritten since (R336) -/
  bad      : Tab (BitVec 128)
  troots   : Tab DWord
  devid    : Half
  wrsel    : Half
  routes   : Tab Word
  /-- links out of service (R360) -/
  lostLinks : List Nat
  cores    : Tab Core
  teams    : Tab Team
  /-- what is kept of teams that a cox saved (R351) -/
  saved    : List Kept
  groups   : Tab Group
  calls    : Tab WidenCall
  dies     : Vector Die 8
  arb      : List ArbEntry
  arbLast  : Nat
  wotisOut : List Flit
  /-- next sequence number of each link (R360) -/
  wotisSeq : Tab Nat
  peerWaits : Tab PeerWait
  /-- CXL.io registers: RESYNC, event status and enable, mailbox status, power limit, the rest by offset -/
  rsBuf    : DWord
  rsSize   : DWord
  rsStat   : Nat
  /-- address and size that the running RESYNC took at its start (R371) -/
  rsAddr   : DWord
  rsLen    : DWord
  evStatus : Word
  evEnable : Word
  cxlio    : Tab DWord
  mailbox  : List Byte
  boxStat  : Nat
  image    : List Byte
  msix     : Vector (Tab MsiVec) 2
  sent     : List (Nat × Nat)
  nonce    : Option (BitVec 256)
  report   : List Byte
  power    : Nat
  alert    : Bool
  hostRead : List Byte
  /-- host accesses that wait for a command's writes, in order (R217, R221) -/
  hostWaits : List HostAccess
  /-- the CXL.mem windows, two per port: the range of R196 that each presents, by its place in the table there (R364) -/
  windows  : Vector Nat 4
  ir       : JtagIr
  daddr    : DWord
  dr       : DWord
  dvalid   : Bool
  /-- the next read of the debug port gives the tag of the cell read before (R373) -/
  dtag     : Bool
  derror   : Bool
  /-- SC fences placed in the order S: stroke index, core, seat, number in order of issue (R213) -/
  scOrder  : List (DWord × Nat × Nat × Nat)
  /-- the model's own: which agent moves next, counter of free values, next number handed out, the unit under issue -/
  agenda   : List Turn
  fresh    : Nat
  nextId   : Nat
  cur      : Option Issue
deriving DecidableEq, Repr

/-! ### Reset (R374 and the cards) -/

def Seat.reset : Seat := ⟨none, none, none⟩

def Ring.reset : Ring := ⟨false, 0, 0, 0, 0, 0, false, 0, 0, 0, 0⟩

def Cox.reset : Cox := ⟨UFile.reset, [], 0, 0, 0, 0, 0, false, 0, 0, none⟩

def Core.reset : Core where
  menu := none
  land := []
  landAge := 0
  bay := []
  seats := Vector.replicate 4 Seat.reset
  l1 := []
  l1Time := 0
  stale := []
  hostStale := []
  tlb := []
  rings := Vector.replicate 16 Ring.reset
  vq := []
  dt := []
  acc := Vector.replicate 2 []
  tiles := []
  rounds := Vector.replicate 2 []
  sq := Vector.replicate 4 []
  adapters := []
  posted := []
  cox := Cox.reset
  reports := []
  trapWait := []
  places := []

def Die.reset : Die where
  tsel := 0
  ctxbase := 0
  phbase := 0
  slipbase := 0
  slipsize := 0
  ecc := 0
  evbase := 0
  evsize := 0
  evtail := 0
  evhead := 0
  vacset := []
  vacates := []
  evseq := 0
  evhold := []
  evwait := []
  faults := []
  nodes := []
  gens := []
  pool := []
  served := []
  reserved := []
  queues := []
  slip := []
  slipHead := 0
  slipTail := 0
  stalled := []
  got := []
  slipEvent := false
  host := []
  chains := []
  cells := []
  evals := []
  starters := []
  watches := []
  tlb := []
  strays := 0
  phases := []
  yielded := []
  moved := []
  owner := none
  throttle := 0

/-- The device right after a reset (R374): every register at its card's value, no team, all memory zero, every tag
VALUE, the stroke counter 0, the boot ROM waiting for an image. -/
def State.reset : State where
  powered := true
  frozen := false
  booted := false
  stroke := 0
  mem := []
  tags := []
  hostMem := []
  bad := []
  troots := []
  devid := 0
  wrsel := 0
  routes := []
  lostLinks := []
  cores := []
  teams := []
  saved := []
  groups := []
  calls := []
  dies := Vector.replicate 8 Die.reset
  arb := []
  arbLast := 0
  wotisOut := []
  wotisSeq := []
  peerWaits := []
  rsBuf := 0
  rsSize := 0
  rsStat := 0
  rsAddr := 0
  rsLen := 0
  evStatus := 0
  evEnable := 0
  cxlio := []
  mailbox := []
  boxStat := 0
  image := []
  msix := Vector.replicate 2 []
  sent := []
  nonce := none
  report := []
  power := 66
  alert := false
  hostRead := []
  hostWaits := []
  windows := #v[0, 2, 0, 2]
  ir := .idcode
  daddr := 0
  dr := 0
  dvalid := false
  dtag := false
  derror := false
  scOrder := []
  agenda := []
  fresh := 0
  nextId := 1
  cur := none

end Sys2Proof.Machine
end

