-- ==== Sys2Proof/Machine/Operands.lean ====
section
/-! DEFINITION. Operand forms: register files and latches (R8, R9), lane and uniform source and destination fields (R40,
R41), guards (R45-R47), and the fields an instruction names (R55, checks 5 and 7). -/

namespace Sys2Proof.Machine

/-! ### Registers of a lane and of a uniform file -/

/-- A lane position that holds no lane. -/
def Lane.blank : Lane where
  state := .absent
  vpc := 0
  lid := 0
  lrng := 0
  v := Vector.replicate 56 0
  p := Vector.replicate 64 false
  l := Latches.invalid
  entry := 0
  entryRng := 0
  entryL := Latches.invalid
  dem := 0
  nest := 0
  rep := 0
  repN := 0
  reply := none
  atClose := none
  bad := 0

def Lane.reg (l : Lane) (r : Nat) : Word := l.v[r]?.getD 0

/-- A write rewrites a register's check bits (R336). -/
def Lane.setReg (l : Lane) (r : Nat) (x : Word) : Lane :=
  { l with v := l.v.setIfInBounds r x, bad := l.bad &&& ~~~(1#128 <<< r) }

/-- A lane predicate; p0 is always true (R8). -/
def Lane.pred (l : Lane) (n : Nat) : Bool := n == 0 || l.p[n]?.getD false

/-- A write to p0 is ignored (R42). -/
def Lane.setPred (l : Lane) (n : Nat) (b : Bool) : Lane :=
  if n = 0 then l else { l with p := l.p.setIfInBounds n b, bad := l.bad &&& ~~~(1#128 <<< (64 + n)) }

/-- The push of R9. -/
def Latches.push (q : Latches) (x : DWord) : Latches := #v[⟨x, true⟩, q[0], q[1], q[2]]

def Latches.get (q : Latches) (i : Nat) : DWord := (q[i]?.map Latch.val).getD 0

def Latches.valid (q : Latches) (i : Nat) : Bool := (q[i]?.map Latch.valid).getD false

/-- A push moves the errors of latches along with their values (R336): four bits from bit 56 on. -/
def pushBad {w : Nat} (b : BitVec w) : BitVec w :=
  let m := BitVec.ofNat w (15 * 2 ^ 56)
  (b &&& ~~~m) ||| (((b &&& m) <<< 1) &&& m)

def Lane.push (l : Lane) (x : DWord) : Lane := { l with l := l.l.push x, bad := pushBad l.bad }

/-- Lane registers r to r + n - 1 as one value, the first lowest. -/
def Lane.run (l : Lane) (r : Nat) : Nat → Nat
  | 0 => 0
  | n + 1 => (l.reg r).toNat + 2 ^ 32 * l.run (r + 1) n

/-- Registers r, r + 1, ... take a value 32 bits at a time. -/
def Lane.setRun (l : Lane) (r : Nat) : Nat → Nat → Lane
  | 0, _ => l
  | n + 1, x => (l.setReg r (BitVec.ofNat 32 x)).setRun (r + 1) n (x / 2 ^ 32)

def UFile.reg (u : UFile) (r : Nat) : DWord := u.s[r]?.getD 0

def UFile.setReg (u : UFile) (r : Nat) (x : DWord) : UFile :=
  { u with s := u.s.setIfInBounds r x, bad := u.bad &&& ~~~(1#72 <<< r) }

/-- A uniform predicate; k0 is always true (R8). -/
def UFile.pred (u : UFile) (n : Nat) : Bool := n == 0 || u.k[n]?.getD false

def UFile.setPred (u : UFile) (n : Nat) (b : Bool) : UFile :=
  if n = 0 then u else { u with k := u.k.setIfInBounds n b, bad := u.bad &&& ~~~(1#72 <<< (64 + n)) }

def UFile.push (u : UFile) (x : DWord) : UFile := { u with q := u.q.push x, bad := pushBad u.bad }

/-- The value of s(r) to s(r + n - 1), the first lowest. -/
def UFile.run (u : UFile) (r : Nat) : Nat → Nat
  | 0 => 0
  | n + 1 => (u.reg r).toNat + 2 ^ 64 * u.run (r + 1) n

end Sys2Proof.Machine

namespace Sys2Proof

open Machine

/-! ### Lane fields (R40, R43) -/

/-- A 32-bit source; a latch gives its bits 31:0 (R9). -/
def LSrc.r32 (l : Lane) : LSrc → Word
  | .v r => l.reg r
  | .l i => (l.l.get i).setWidth 32
  | .z => 0
  | .lid => l.lid
  | .ext w => w

/-- A 64-bit source: a pair, a whole latch, lid zero-extended, the extension word sign-extended. -/
def LSrc.r64 (l : Lane) : LSrc → DWord
  | .v r => (l.reg (r + 1)) ++ (l.reg r)
  | .l i => l.l.get i
  | .z => 0
  | .lid => l.lid.setWidth 64
  | .ext w => w.signExtend 64

/-- A source of n registers as one value; only registers and z name 128 bits. -/
def LSrc.wide (l : Lane) (n : Nat) : LSrc → Nat
  | .v r => l.run r n
  | x => if n = 2 then (x.r64 l).toNat else (x.r32 l).toNat

/-- The old value of a 32-bit destination read as a source; z reads zero (R88). -/
def LDst.old32 (l : Lane) : LDst → Word
  | .v r => l.reg r
  | .z => 0

def LDst.old64 (l : Lane) : LDst → DWord
  | .v r => (l.reg (r + 1)) ++ (l.reg r)
  | .z => 0

def LDst.isZ : LDst → Bool
  | .z => true
  | .v _ => false

/-- The register write alone. -/
def LDst.set32 (x : Word) (l : Lane) : LDst → Lane
  | .v r => l.setReg r x
  | .z => l

def LDst.set64 (x : DWord) (l : Lane) : LDst → Lane
  | .v r => (l.setReg r (x.setWidth 32)).setReg (r + 1) ((x >>> 32).setWidth 32)
  | .z => l

def LDst.setWide (n : Nat) (x : Nat) (l : Lane) : LDst → Lane
  | .v r => l.setRun r n x
  | .z => l

/-- A 32-bit result: pushed, and written back unless n suppresses it (R9, R48). -/
def LDst.put32 (d : LDst) (n : Bool) (x : Word) (l : Lane) : Lane :=
  let l' := if n then l else d.set32 x l
  l'.push (x.setWidth 64)

def LDst.put64 (d : LDst) (n : Bool) (x : DWord) (l : Lane) : Lane :=
  let l' := if n then l else d.set64 x l
  l'.push x

/-! ### Uniform fields (R41, R43) -/

def USrc.get (u : UFile) : USrc → DWord
  | .s r => u.reg r
  | .q i => u.q.get i
  | .z => 0
  | .ext32 w => w.signExtend 64
  | .ext64 d => d

def UDst.set (x : DWord) (u : UFile) : UDst → UFile
  | .s r => u.setReg r x
  | .z => u

/-- A uniform result: pushed into q0 to q3, written back unless n suppresses it (R9, R48). -/
def UDst.put (d : UDst) (n : Bool) (x : DWord) (u : UFile) : UFile :=
  let u' := if n then u else d.set x u
  u'.push x

/-! ### What an instruction names -/

/-- A field of an instruction that names lane registers or reads a latch: what frames (R137, R152) and latch checks
(R55) look at. -/
inductive Field where
  | src (x : LSrc) (k : Nat)
  | dst (x : LDst) (k : Nat)
  /-- a destination whose old value is an operand -/
  | acc (x : LDst) (k : Nat)
  | usrc (x : USrc)
  | mdst (x : MDst)
  | msrc (x : MSrc)
  /-- k lane registers from r -/
  | run (r k : Nat)
  /-- k uniform registers from r -/
  | urun (r k : Nat)
deriving DecidableEq, Repr

/-- One more than the highest lane register the field names. -/
def Field.top : Field → Nat
  | .src (.v r) k => r + k
  | .dst (.v r) k => r + k
  | .acc (.v r) k => r + k
  | .mdst (.v (.v r)) => r + 2
  | .msrc (.v (.v r)) => r + 2
  | .run r k => r + k
  | _ => 0

/-- The lane latch the field reads. -/
def Field.laneLatch : Field → Option Nat
  | .src (.l i) _ => some i
  | .msrc (.v (.l i)) => some i
  | _ => none

/-- The uniform latch the field reads. -/
def Field.uniformLatch : Field → Option Nat
  | .usrc (.q i) => some i
  | .msrc (.u (.q i)) => some i
  | _ => none

/-- The fields of an instruction that name lane registers or latches. -/
def fieldsOf : Instr → List Field
  | .add d a b _ _ => [.dst d 1, .src a 1, .src b 1]
  | .sub d a b _ _ => [.dst d 1, .src a 1, .src b 1]
  | .minI d a b _ _ => [.dst d 1, .src a 1, .src b 1]
  | .maxI d a b _ _ => [.dst d 1, .src a 1, .src b 1]
  | .minN d a b _ _ => [.dst d 1, .src a 1, .src b 1]
  | .maxN d a b _ _ => [.dst d 1, .src a 1, .src b 1]
  | .abs d a _ _ => [.dst d 1, .src a 1]
  | .neg d a _ _ => [.dst d 1, .src a 1]
  | .and d a b _ _ => [.dst d 1, .src a 1, .src b 1]
  | .or d a b _ _ => [.dst d 1, .src a 1, .src b 1]
  | .xor d a b _ _ => [.dst d 1, .src a 1, .src b 1]
  | .andn d a b _ _ => [.dst d 1, .src a 1, .src b 1]
  | .shl d a b _ _ => [.dst d 1, .src a 1, .src b 1]
  | .shr d a b _ _ => [.dst d 1, .src a 1, .src b 1]
  | .sar d a b _ _ => [.dst d 1, .src a 1, .src b 1]
  | .rol d a b _ _ => [.dst d 1, .src a 1, .src b 1]
  | .mul d a b _ _ => [.dst d 1, .src a 1, .src b 1]
  | .mulhI d a b _ _ => [.dst d 1, .src a 1, .src b 1]
  | .mulhN d a b _ _ => [.dst d 1, .src a 1, .src b 1]
  | .mad d a b _ _ => [.acc d 1, .src a 1, .src b 1]
  | .divI d a b _ _ => [.dst d 1, .src a 1, .src b 1]
  | .divN d a b _ _ => [.dst d 1, .src a 1, .src b 1]
  | .remI d a b _ _ => [.dst d 1, .src a 1, .src b 1]
  | .remN d a b _ _ => [.dst d 1, .src a 1, .src b 1]
  | .clz d a _ _ => [.dst d 1, .src a 1]
  | .popc d a _ _ => [.dst d 1, .src a 1]
  | .brev d a _ _ => [.dst d 1, .src a 1]
  | .bfeI d a b _ _ => [.dst d 1, .src a 1, .src b 1]
  | .bfeN d a b _ _ => [.dst d 1, .src a 1, .src b 1]
  | .bfi d a b _ _ => [.acc d 1, .src a 1, .src b 1]
  | .bmix d a b _ _ => [.acc d 1, .src a 1, .src b 1]
  | .sext d a b _ _ => [.dst d 1, .src a 1, .src b 1]
  | .eq _ a b _ => [.src a 1, .src b 1]
  | .ne _ a b _ => [.src a 1, .src b 1]
  | .ltI _ a b _ => [.src a 1, .src b 1]
  | .leI _ a b _ => [.src a 1, .src b 1]
  | .ltN _ a b _ => [.src a 1, .src b 1]
  | .leN _ a b _ => [.src a 1, .src b 1]
  | .tst _ a b _ => [.src a 1, .src b 1]
  | .ptov d _ _ _ => [.dst d 1]
  | .vtop _ a _ => [.src a 1]
  | .mov d a _ _ => [.dst d 1, .src a 1]
  | .sel d a b _ _ => [.dst d 1, .src a 1, .src b 1]
  | .movs d a _ _ => [.dst d 1, .usrc a]
  | .movu d a _ _ => [.dst d 1, .usrc a]
  | .add64 d a b _ _ => [.dst d 2, .src a 2, .src b 2]
  | .sub64 d a b _ _ => [.dst d 2, .src a 2, .src b 2]
  | .shl64 d a b _ _ => [.dst d 2, .src a 2, .src b 1]
  | .lea d a b _ _ => [.dst d 2, .src a 2, .src b 1]
  | .addi d a _ => [.dst d 1, .src a 1]
  | .andi d a _ => [.dst d 1, .src a 1]
  | .ori d a _ => [.dst d 1, .src a 1]
  | .xori d a _ => [.dst d 1, .src a 1]
  | .shiShl d a _ => [.dst d 1, .src a 1]
  | .shiShr d a _ => [.dst d 1, .src a 1]
  | .shiSar d a _ => [.dst d 1, .src a 1]
  | .shiRol d a _ => [.dst d 1, .src a 1]
  | .cmpiEq _ a _ => [.src a 1]
  | .cmpiNe _ a _ => [.src a 1]
  | .cmpiLtI _ a _ => [.src a 1]
  | .cmpiLeI _ a _ => [.src a 1]
  | .cmpiLtN _ a _ => [.src a 1]
  | .cmpiLeN _ a _ => [.src a 1]
  | .cmpiTst _ a _ => [.src a 1]
  | .movi d _ => [.dst d 1]
  | .leai d a _ => [.dst d 2, .src a 2]
  | .fadd d a b _ _ => [.dst d 1, .src a 1, .src b 1]
  | .fsub d a b _ _ => [.dst d 1, .src a 1, .src b 1]
  | .fmul d a b _ _ => [.dst d 1, .src a 1, .src b 1]
  | .ffma d a b _ _ => [.acc d 1, .src a 1, .src b 1]
  | .fmin d a b _ _ => [.dst d 1, .src a 1, .src b 1]
  | .fmax d a b _ _ => [.dst d 1, .src a 1, .src b 1]
  | .fnma d a b _ _ => [.acc d 1, .src a 1, .src b 1]
  | .fdiv d a b _ _ => [.dst d 1, .src a 1, .src b 1]
  | .fcmpEq _ a b _ => [.src a 1, .src b 1]
  | .fcmpNe _ a b _ => [.src a 1, .src b 1]
  | .fcmpLt _ a b _ => [.src a 1, .src b 1]
  | .fcmpLe _ a b _ => [.src a 1, .src b 1]
  | .fcmpUn _ a b _ => [.src a 1, .src b 1]
  | .fcmpTolt _ a b _ => [.src a 1, .src b 1]
  | .fcmpTole _ a b _ => [.src a 1, .src b 1]
  | .fcmpClass _ a b _ => [.src a 1, .src b 1]
  | .dadd d a b _ _ => [.dst d 2, .src a 2, .src b 2]
  | .dsub d a b _ _ => [.dst d 2, .src a 2, .src b 2]
  | .dmul d a b _ _ => [.dst d 2, .src a 2, .src b 2]
  | .dfma d a b _ _ => [.acc d 2, .src a 2, .src b 2]
  | .dmin d a b _ _ => [.dst d 2, .src a 2, .src b 2]
  | .dmax d a b _ _ => [.dst d 2, .src a 2, .src b 2]
  | .ddiv d a b _ _ => [.dst d 2, .src a 2, .src b 2]
  | .dsqrt d a _ _ => [.dst d 2, .src a 2]
  | .haddF16 d a b _ _ => [.dst d 1, .src a 1, .src b 1]
  | .hmulF16 d a b _ _ => [.dst d 1, .src a 1, .src b 1]
  | .hfmaF16 d a b _ _ => [.acc d 1, .src a 1, .src b 1]
  | .haddBf16 d a b _ _ => [.dst d 1, .src a 1, .src b 1]
  | .hmulBf16 d a b _ _ => [.dst d 1, .src a 1, .src b 1]
  | .hfmaBf16 d a b _ _ => [.acc d 1, .src a 1, .src b 1]
  | .hmin d a b _ _ => [.dst d 1, .src a 1, .src b 1]
  | .hmax d a b _ _ => [.dst d 1, .src a 1, .src b 1]
  | .cvtI32F32 d a _ _ _ => [.dst d 1, .src a 1]
  | .cvtN32F32 d a _ _ _ => [.dst d 1, .src a 1]
  | .cvtF32I32 d a _ _ _ => [.dst d 1, .src a 1]
  | .cvtF32N32 d a _ _ _ => [.dst d 1, .src a 1]
  | .cvtBf16F32 d a _ _ => [.dst d 1, .src a 1]
  | .cvtF16F32 d a _ _ => [.dst d 1, .src a 1]
  | .cvtF32Bf16 d a _ _ => [.dst d 1, .src a 1]
  | .cvtF32F16 d a _ _ => [.dst d 1, .src a 1]
  | .cvtE4m3F32 d a _ _ => [.dst d 1, .src a 1]
  | .cvtE5m2F32 d a _ _ => [.dst d 1, .src a 1]
  | .cvtI8F32 d a _ _ => [.dst d 1, .src a 1]
  | .cvtI8I32 d a _ _ => [.dst d 1, .src a 1]
  | .cvtI16F32 d a _ _ => [.dst d 1, .src a 1]
  | .cvtI16I32 d a _ _ => [.dst d 1, .src a 1]
  | .cvtF32E4m3 d a _ _ => [.dst d 1, .src a 1]
  | .cvtF32E5m2 d a _ _ => [.dst d 1, .src a 1]
  | .cvtBf16F32Sr d a _ _ => [.dst d 1, .src a 1]
  | .cvtE4m3F32Sr d a _ _ => [.dst d 1, .src a 1]
  | .packF4b d a _ _ => [.dst d 1, .src a 1]
  | .unpkF4b d a b _ _ => [.dst d 1, .src a 1, .src b 1]
  | .scaleF4b d a b _ _ => [.dst d 1, .src a 1, .src b 1]
  | .mx2f4b d a _ _ => [.dst d 1, .src a 1]
  | .rcp d a _ _ => [.dst d 1, .src a 1]
  | .rsq d a _ _ => [.dst d 1, .src a 1]
  | .sqrt d a _ _ => [.dst d 1, .src a 1]
  | .exp2 d a _ _ => [.dst d 1, .src a 1]
  | .log2 d a _ _ => [.dst d 1, .src a 1]
  | .sin d a _ _ => [.dst d 1, .src a 1]
  | .cos d a _ _ => [.dst d 1, .src a 1]
  | .tanh d a _ _ => [.dst d 1, .src a 1]
  | .frnd d a _ _ _ => [.dst d 1, .src a 1]
  | .key3 d a _ _ => [.dst d 1, .src a 4]
  | .rng d _ _ => [.dst d 1]
  | .seed a _ => [.src a 2]
  | .fscale d a b _ _ => [.dst d 1, .src a 1, .src b 1]
  | .fexp d a _ _ => [.dst d 1, .src a 1]
  | .ldg d a m z _ => [.dst d (szRegs z), .src a 1, .src m.index 1]
  | .stg d a m z _ => [.src d (szRegs z), .src a 1, .src m.index 1]
  | .lds d a m z _ => [.dst d (szRegs z), .src a 1, .src m.index 1]
  | .sts d a m z _ => [.src d (szRegs z), .src a 1, .src m.index 1]
  | .ldk d a m z _ => [.dst d (szRegs z), .src a 1, .src m.index 1]
  | .stk d a m z _ => [.src d (szRegs z), .src a 1, .src m.index 1]
  | .stx d a m z _ => [.src d (szRegs z), .src a 1, .src m.index 1]
  | .ldp d a m z _ => [.dst d (szRegs z), .src a 1, .src m.index 1]
  | .atomgAdd d a b _ _ => [.dst d 1, .src a 1, .src b 1]
  | .atomgMinI d a b _ _ => [.dst d 1, .src a 1, .src b 1]
  | .atomgMaxI d a b _ _ => [.dst d 1, .src a 1, .src b 1]
  | .atomgAnd d a b _ _ => [.dst d 1, .src a 1, .src b 1]
  | .atomgOr d a b _ _ => [.dst d 1, .src a 1, .src b 1]
  | .atomgXor d a b _ _ => [.dst d 1, .src a 1, .src b 1]
  | .atomgExch d a b _ _ => [.dst d 1, .src a 1, .src b 1]
  | .atomgCas d a b _ _ => [.dst d 1, .src a 1, .run b 2]
  | .atomgAddB64 d a b _ _ => [.dst d 2, .src a 1, .src b 2]
  | .atomgMinIB64 d a b _ _ => [.dst d 2, .src a 1, .src b 2]
  | .atomgMaxIB64 d a b _ _ => [.dst d 2, .src a 1, .src b 2]
  | .atomgAndB64 d a b _ _ => [.dst d 2, .src a 1, .src b 2]
  | .atomgOrB64 d a b _ _ => [.dst d 2, .src a 1, .src b 2]
  | .atomgXorB64 d a b _ _ => [.dst d 2, .src a 1, .src b 2]
  | .atomgExchB64 d a b _ _ => [.dst d 2, .src a 1, .src b 2]
  | .atomgCasB64 d a b _ _ => [.dst d 2, .src a 1, .run b 4]
  | .atomgIncb d a b _ _ => [.dst d 1, .src a 1, .src b 1]
  | .atomgDecb d a b _ _ => [.dst d 1, .src a 1, .src b 1]
  | .atomgFadd d a b _ _ => [.dst d 1, .src a 1, .src b 1]
  | .atomgFmin d a b _ _ => [.dst d 1, .src a 1, .src b 1]
  | .atomgFmax d a b _ _ => [.dst d 1, .src a 1, .src b 1]
  | .atomgMinN d a b _ _ => [.dst d 1, .src a 1, .src b 1]
  | .atomgMaxN d a b _ _ => [.dst d 1, .src a 1, .src b 1]
  | .atomsAdd d a b _ => [.dst d 1, .src a 1, .src b 1]
  | .atomsMinI d a b _ => [.dst d 1, .src a 1, .src b 1]
  | .atomsMaxI d a b _ => [.dst d 1, .src a 1, .src b 1]
  | .atomsAnd d a b _ => [.dst d 1, .src a 1, .src b 1]
  | .atomsOr d a b _ => [.dst d 1, .src a 1, .src b 1]
  | .atomsExch d a b _ => [.dst d 1, .src a 1, .src b 1]
  | .atomsCas d a b _ => [.dst d 1, .src a 1, .run b 2]
  | .atomsIncb d a b _ => [.dst d 1, .src a 1, .src b 1]
  | .xidx d a b _ _ => [.dst d 1, .src a 1, .src b 1]
  | .xxor d a b _ _ => [.dst d 1, .src a 1, .src b 1]
  | .xrot d a b _ _ => [.dst d 1, .src a 1, .src b 1]
  | .xshift d a b _ _ => [.dst d 1, .src a 1, .src b 1]
  | .xlid d a b _ => [.dst d 1, .src a 1, .src b 1]
  | .pmask d _ _ _ => [.dst d 1]
  | .matchEq d a _ _ => [.dst d 1, .src a 1]
  | .compact d a _ _ _ => [.dst d 1, .src a 1]
  | .redAdd d a _ _ => [.dst d 1, .src a 1]
  | .redFadd d a _ _ => [.dst d 1, .src a 1]
  | .redMinI d a _ _ => [.dst d 1, .src a 1]
  | .redMinN d a _ _ => [.dst d 1, .src a 1]
  | .redMinF d a _ _ => [.dst d 1, .src a 1]
  | .redMaxI d a _ _ => [.dst d 1, .src a 1]
  | .redMaxN d a _ _ => [.dst d 1, .src a 1]
  | .redMaxF d a _ _ => [.dst d 1, .src a 1]
  | .scanAdd d a _ _ => [.dst d 1, .src a 1]
  | .mrank d a _ _ => [.dst d 1, .src a 1]
  | .garg d a b _ _ => [.dst d 1, .src a 1, .src b 1]
  | .gres d a b _ => [.src d 1, .src a 1, .src b 1]
  | .rpush d a _ => [.src a 1, .run d 8]
  | .jml d a _ => [.dst d 2, .src a 2]
  | .mfragBf16 d a b _ acc _ => [if acc then .run d 8 else .dst (.v d) 8, .run a 4, .run b 4]
  | .mfragF16 d a b _ acc _ => [if acc then .run d 8 else .dst (.v d) 8, .run a 4, .run b 4]
  | .mfragE4m3 d a b _ acc _ => [if acc then .run d 8 else .dst (.v d) 8, .run a 4, .run b 4]
  | .mfragE5m2 d a b _ acc _ => [if acc then .run d 8 else .dst (.v d) 8, .run a 4, .run b 4]
  | .mfragF4b d a b _ _ acc _ => [if acc then .run d 8 else .dst (.v d) 8, .run a 5, .run b 5]
  | .mfragI8 d a b _ acc _ => [if acc then .run d 8 else .dst (.v d) 8, .run a 4, .run b 4]
  | .uAdd _ a b _ _ => [.usrc a, .usrc b]
  | .uSub _ a b _ _ => [.usrc a, .usrc b]
  | .uMinI _ a b _ _ => [.usrc a, .usrc b]
  | .uMaxI _ a b _ _ => [.usrc a, .usrc b]
  | .uMinN _ a b _ _ => [.usrc a, .usrc b]
  | .uMaxN _ a b _ _ => [.usrc a, .usrc b]
  | .uMul _ a b _ _ => [.usrc a, .usrc b]
  | .uMulhN _ a b _ _ => [.usrc a, .usrc b]
  | .uAnd _ a b _ _ => [.usrc a, .usrc b]
  | .uOr _ a b _ _ => [.usrc a, .usrc b]
  | .uXor _ a b _ _ => [.usrc a, .usrc b]
  | .uAndn _ a b _ _ => [.usrc a, .usrc b]
  | .uShl _ a b _ _ => [.usrc a, .usrc b]
  | .uShr _ a b _ _ => [.usrc a, .usrc b]
  | .uSar _ a b _ _ => [.usrc a, .usrc b]
  | .uClz _ a _ _ => [.usrc a]
  | .uEq _ a b _ => [.usrc a, .usrc b]
  | .uNe _ a b _ => [.usrc a, .usrc b]
  | .uLtI _ a b _ => [.usrc a, .usrc b]
  | .uLeI _ a b _ => [.usrc a, .usrc b]
  | .uLtN _ a b _ => [.usrc a, .usrc b]
  | .uLeN _ a b _ => [.usrc a, .usrc b]
  | .uTst _ a b _ => [.usrc a, .usrc b]
  | .uMov _ a _ _ => [.usrc a]
  | .uSel _ a b _ _ => [.usrc a, .usrc b]
  | .uMovs _ a _ _ => [.usrc a]
  | .vtos _ a _ _ => [.src a 1]
  | .uPopc _ a _ _ => [.usrc a]
  | .uDivN _ a b _ _ => [.usrc a, .usrc b]
  | .calli a _ => [.usrc a]
  | .saddi _ a _ => [.usrc a]
  | .sandi _ a _ => [.usrc a]
  | .sori _ a _ => [.usrc a]
  | .sshiShl _ a _ => [.usrc a]
  | .sshiShr _ a _ => [.usrc a]
  | .sshiSar _ a _ => [.usrc a]
  | .scmpiEq _ a _ => [.usrc a]
  | .scmpiNe _ a _ => [.usrc a]
  | .scmpiLtI _ a _ => [.usrc a]
  | .scmpiLeI _ a _ => [.usrc a]
  | .scmpiLtN _ a _ => [.usrc a]
  | .scmpiLeN _ a _ => [.usrc a]
  | .scmpiTst _ a _ => [.usrc a]
  | .sld _ a _ => [.usrc a]
  | .sst d a _ => [.usrc d, .usrc a]
  | .jseg a b => [.usrc a, .usrc b]
  | .cfetch a b => [.usrc a, .usrc b]
  | .widen a b => [.usrc a, .src b 1]
  | .gather a _ => [.usrc a]
  | .barMask a => [.usrc a]
  | .partitionMask _ b => [.usrc b]
  | .lmap _ b => [.usrc b]
  | .trap a => [.usrc a]
  | .cinv a b => [.usrc a, .usrc b]
  | .cinvSync a b => [.usrc a, .usrc b]
  | .tcopy a b c => [.usrc a, .urun b 4, .usrc c]
  | .tcopym a b c => [.usrc a, .urun b 4, .usrc c]
  | .mtask a => [.usrc a]
  | .drain a _ => [.usrc a]
  | .ringAcq _ b => [.usrc b]
  | .ringRel a => [.usrc a]
  | .keySort a b c _ => [.urun a 3, .usrc b, .usrc c]
  | .keyMerge a b c _ _ => [.urun a 3, .usrc b, .usrc c]
  | .keyTopk a b c => [.urun a 3, .usrc b, .usrc c]
  | .keyOffs a b c => [.urun a 3, .usrc b, .usrc c]
  | .keyCheck a b c => [.urun a 3, .usrc b, .usrc c]
  | .ret _ => [.urun 55 1]
  | .xlatb a b c => [.usrc a, .usrc b, .usrc c]
  | .seq a => [.usrc a]
  | .cwait a b => [.usrc a, .usrc b]
  | .suspend a b => [.usrc a, .urun b 4]
  | .touch a => [.usrc a]
  | .fulfill a b => [.usrc a, .urun b 4]
  | .celltag a b _ => [.usrc a, .usrc b]
  | .nlaunch _ b => [.usrc b]
  | .nsignal b => [.usrc b]
  | .nqstat _ b => [.usrc b]
  | .mrs a _ => [.mdst a]
  | .msr a _ => [.msrc a]
  | .adpf a b c => [.usrc a, .usrc b, .usrc c]
  | .dbgRd _ b c => [.usrc b, .usrc c]
  | .dbgWr a b c => [.usrc a, .usrc b, .usrc c]
  | .ctxSave a b => [.usrc a, .usrc b]
  | .ctxLoad a => [.usrc a]
  | .place a => [.usrc a]
  | .evq _ b => [.usrc b]
  | .pmsrWr a _ => [.usrc a]
  | .cload a b => [.usrc a, .usrc b]
  | .rte a b => [.usrc a, .usrc b]
  | .kill a => [.usrc a]
  | _ => []

namespace Machine

/-- Its fields all lie below a frame (R137, R152). -/
def fitsFrame (f : Nat) (i : Instr) : Bool := (fieldsOf i).all (·.top ≤ f)

/-- Lane predicates and uniform predicates that an instruction reads apart from its guard (R46, R104-R106). -/
def predsOf : Instr → List Nat × List Nat
  | .sel _ _ _ _ p => ([p], [])
  | .pand _ a b _ | .por _ a b _ | .pxor _ a b _ | .pandn _ a b _ => ([a, b], [])
  | .pnot _ a _ | .ptov _ a _ _ => ([a], [])
  | .brl p _ _ => ([p], [])
  | .pany _ a _ | .pall _ a _ | .pmask _ a _ _ => ([a], [])
  | .compact _ _ b _ _ => ([b], [])
  | .uSel _ _ _ _ c => ([], [c])
  | .kopAnd _ a b _ | .kopOr _ a b _ | .kopXor _ a b _ | .kopAndn _ a b _ => ([], [a, b])
  | .kopNot _ a _ => ([], [a])
  | .bra k _ _ | .call k _ _ => ([], [k])
  | _ => ([], [])

def laneLatches (i : Instr) : List Nat := (fieldsOf i).filterMap Field.laneLatch

def uniformLatches (i : Instr) : List Nat := (fieldsOf i).filterMap Field.uniformLatch

/-! ### Guards (R45, R46) -/

/-- The guard of a lane: the GUARD word where the unit has one, else the g field. -/
def Issue.holds (c : Issue) (g : Nat) (l : Lane) : Bool :=
  match c.guard with
  | some (p, neg) => l.pred p != neg
  | none => l.pred g

/-- The guard of a uniform instruction. -/
def Issue.kholds (c : Issue) (k : Nat) (u : UFile) : Bool :=
  match c.guard with
  | some (p, neg) => u.pred p != neg
  | none => u.pred k

/-- An address of code: bits 63:54 and 1:0 of a `vpc` are zero (R8). -/
def codeAddr (a : DWord) : DWord := a &&& 0x003FFFFFFFFFFFFC#64

/-- Issues the unit makes in all: 1, or the count of its REP (R51). -/
def Issue.count (c : Issue) : Nat :=
  match c.rep with
  | some (n, _) => n
  | none => 1

/-- A lane moves past an issue of its unit: to the next issue of a REP, else to the following unit (R10, R53). -/
def Issue.advance (c : Issue) (l : Lane) : Lane :=
  if c.idx + 1 < c.count then { l with rep := c.idx + 1, repN := c.count } else { l with vpc := c.next, rep := 0 }

end Machine

end Sys2Proof
end

