-- ==== Sys2Proof/Machine/Ops.lean ====
section
/-! DEFINITION. Named operations over the state: parts of the state, physical bytes with the L1 copies of other cores
(R193), privileged events (R339), taking a trap (R322-R324, R341), resuming from one (R324, R328, R349), and regions
(R327). -/

namespace Sys2Proof.Machine

abbrev Out := Host.Outcome State Fault Refusal

/-- Why a unit does not complete: a precise trap with its details (R322), a trap that leaves a cell failed (R223, R230), or
a resource it waits for (R139). A trap names the lanes that raised it (R323), or none for the whole issuing set; that of an
error in bank or deck data names the local address (R235). -/
inductive Halt where
  | trap (cause : Nat) (d1 d2 : DWord) (lanes : Option Mask := none)
  | cellFail (pa : Nat) (notify : Bool) (chain : Nat) (d1 : DWord) (lanes : Option Mask := none)
  | bankError (kind : Nat) (la : DWord) (lanes : Mask)
  | hold
deriving DecidableEq, Repr

/-- Two traps of one cause. -/
def Halt.sameCause : Halt → Halt → Bool
  | .trap a _ _ _, .trap b _ _ _ => a == b
  | _, _ => false

/-- A trap is raised by the lanes that fail as it does. -/
def Halt.raisedBy (h : Halt) (f : Halt → List Nat) : Halt :=
  match h with
  | .trap cause d1 d2 _ => .trap cause d1 d2 (some (maskOf (f h)))
  | h => h

abbrev Res := Except Halt State

/-! ### Parts of the state -/

def State.core (s : State) (n : Nat) : Core := (tget s.cores n).getD Core.reset

def State.setCore (s : State) (n : Nat) (k : Core) : State := { s with cores := tset s.cores n k }

def State.modCore (s : State) (n : Nat) (f : Core → Core) : State := s.setCore n (f (s.core n))

def State.setGroup (s : State) (k : Nat) (g : Group) : State := { s with groups := tset s.groups k g }

def State.modGroup (s : State) (k : Nat) (f : Group → Group) : State :=
  match tget s.groups k with
  | some g => s.setGroup k (f g)
  | none => s

def State.setTeam (s : State) (k : Nat) (t : Team) : State := { s with teams := tset s.teams k t }

def State.modTeam (s : State) (k : Nat) (f : Team → Team) : State :=
  match tget s.teams k with
  | some t => s.setTeam k (f t)
  | none => s

def State.die (s : State) (d : Nat) : Die := s.dies[d]?.getD Die.reset

def State.modDie (s : State) (d : Nat) (f : Die → Die) : State :=
  { s with dies := s.dies.setIfInBounds d (f (s.die d)) }

def Group.lane (g : Group) (p : Nat) : Lane := g.lanes[p]?.getD Lane.blank

def Group.setLane (g : Group) (p : Nat) (l : Lane) : Group := { g with lanes := g.lanes.setIfInBounds p l }

/-- Every position of a mask changes by f. -/
def Group.mapLanes (g : Group) (m : Mask) (f : Lane → Lane) : Group :=
  { g with lanes := Vector.ofFn fun i => if m.getLsbD i then f g.lanes[i] else g.lanes[i] }

def State.modLane (s : State) (k p : Nat) (f : Lane → Lane) : State :=
  s.modGroup k fun g => g.setLane p (f (g.lane p))

/-- The core of a group key. -/
def coreOf (gkey : Nat) : Nat := gkey / 64

/-- The core number at which teams in context records stand. -/
def noCore : Nat := 1728

/-- The core that keeps a group's posted atomics: for a group in a context record that of such teams (R232, R334). -/
def postCore (gkey : Nat) : Nat := min (coreOf gkey) noCore

/-- The die of a core. -/
def dieOf (core : Nat) : Nat := core / 216

/-- Active and demoted lanes are runnable (R140). -/
def Lane.runnable (l : Lane) : Bool :=
  match l.state with
  | .active => true
  | .demoted => true
  | _ => false

def Lane.gone (l : Lane) : Bool :=
  match l.state with
  | .exited => true
  | .absent => true
  | _ => false

/-- The positions whose lanes meet a test. -/
def Group.where (g : Group) (f : Lane → Bool) : Mask := maskOf ((List.range 32).filter fun p => f (g.lane p))

/-- Insertion by a key, ties by the number itself. -/
def insertBy (key : Nat → Nat) (x : Nat) : List Nat → List Nat
  | [] => [x]
  | y :: ys => if key x < key y then x :: y :: ys else y :: insertBy key x ys

def sortBy (key : Nat → Nat) : List Nat → List Nat
  | [] => []
  | x :: xs => insertBy key x (sortBy key xs)

/-- Positions of a mask in ascending logical order (R6): by lid, then by position. -/
def Group.order (g : Group) (m : Mask) : List Nat := sortBy (fun p => 32 * (g.lane p).lid.toNat + p) (positions m)

/-- A number no free value has been applied to yet. -/
def State.draw (s : State) : Nat × State := (s.fresh, { s with fresh := s.fresh + 1 })

/-- A free choice below n (log entry 1). -/
def State.choose (s : State) (n : Nat) : Nat × State := (Config.pick s.fresh % n, { s with fresh := s.fresh + 1 })

/-! ### Physical memory (R196) -/

/-- Host physical addresses stand above the local ones in one numbering. -/
def hostBase : Nat := 2 ^ 52

/-- The range of R196 an address lies in: first address, one past the last, interleaved. -/
def rangeOf (pa : Nat) : Option (Nat × Nat × Bool) :=
  if pa < 0x8000000000 then some (0, 0x8000000000, true)
  else if pa < 0x10000000000 then some (0x8000000000, 0x10000000000, false)
  else if 0x40000000000 ≤ pa ∧ pa < 0x60000000000 then some (0x40000000000, 0x60000000000, true)
  else if 0x60000000000 ≤ pa ∧ pa < 0x80000000000 then some (0x60000000000, 0x80000000000, false)
  else none

def populated (pa : Nat) : Bool := (rangeOf pa).isSome

/-- HBM4E, where cell tags exist (R196). -/
def isHbm (pa : Nat) : Bool := pa < 0x10000000000

/-- The home die of a local line (R196); a host line counts as die 0's here, which decides nothing visible. -/
def homeDie (pa : Nat) : Nat :=
  if pa < 0x8000000000 then (bits pa 14 12) ^^^ (bits pa 17 15)
  else if pa < 0x10000000000 then bits pa 38 36
  else if pa < 0x60000000000 then (bits pa 14 12) ^^^ (bits pa 17 15)
  else if pa < 0x80000000000 then bits pa 40 38
  else 0

/-- A byte at its home. -/
def State.byte (s : State) (a : Nat) : Byte := if a < hostBase then mrd s.mem a else mrd s.hostMem (a - hostBase)

def State.bytes (s : State) (a : Nat) : Nat → List Byte
  | 0 => []
  | n + 1 => s.byte a :: s.bytes (a + 1) n

/-- The little-endian value of n bytes at their home. -/
def State.num (s : State) (a n : Nat) : Nat := leNat (s.bytes a n)

/-- A line of 128 bytes (R193). -/
def lineOf (a : Nat) : Nat := a / 128

/-- The core's L1 holds the line. -/
def Core.inL1 (k : Core) (line : Nat) : Bool := (tget k.l1 line).isSome

/-- What a copy kept of writes from outside is gone for a range of bytes, with the aligned 8 bytes around them, which a load
reads whole (R102). -/
def Core.forgetHost (k : Core) (a n : Nat) : Core :=
  { k with hostStale := k.hostStale.filter fun x => x.1 / 8 < a / 8 || (a + n - 1) / 8 < x.1 / 8 }

/-- A write at home leaves a core's copy older (R193): the copy keeps what it had. -/
def Core.outdated (k : Core) (a : Nat) (old new : Byte) : Core :=
  if old = new ∨ k.inL1 (lineOf a) = false ∨ (tget k.stale a).isSome then k
  else { k with stale := tset k.stale a old }

/-- A byte of a line with bad check bits is rewritten; with the last of them the line is good again (R336). -/
def State.rewritten (s : State) (a : Nat) : State :=
  match tget s.bad (lineOf a) with
  | none => s
  | some m =>
    let m := m &&& ~~~(1#128 <<< (a % 128))
    { s with bad := if m = 0 then terase s.bad (lineOf a) else tset s.bad (lineOf a) m }

/-- The first line of a range with bad check bits. -/
def State.badLine (s : State) (a n : Nat) : Option Nat :=
  (s.bad.find? fun x => lineOf a ≤ x.1 && x.1 ≤ lineOf (a + n - 1)).map fun x => 128 * x.1

/-- One byte written at its home; the copy of the writing core, if any, follows (R193). -/
def State.setByte (s : State) (own : Option Nat) (a : Nat) (b : Byte) : State :=
  let old := s.byte a
  let s := if s.bad.isEmpty then s else s.rewritten a
  let cores := s.cores.map fun (n, k) =>
    let k := k.forgetHost a 1
    (n, if own = some n then { k with stale := terase k.stale a } else k.outdated a old b)
  if a < hostBase then { s with mem := mwr s.mem a b, cores := cores }
  else { s with hostMem := mwr s.hostMem (a - hostBase) b, cores := cores }

def State.setBytes (s : State) (own : Option Nat) (a : Nat) : List Byte → State
  | [] => s
  | b :: bs => (s.setByte own a b).setBytes own (a + 1) bs

/-- The watchers of lines learn of a write of n bytes to them (R244). -/
def State.notice (s : State) (a n : Nat) : State :=
  { s with dies := Vector.ofFn fun i => { s.dies[i] with
      watches := s.dies[i].watches.map fun w =>
        if lineOf a ≤ w.2.1 ∧ 128 * w.2.1 < a + n ∧ homeDie (128 * w.2.1) = i then (w.1, w.2.1, true) else w } }

/-- A store at home by a core or by another agent. -/
def State.store (s : State) (own : Option Nat) (a : Nat) (bs : List Byte) : State := (s.setBytes own a bs).notice a bs.length

/-- What the copy of a core has of a byte before a write from outside, where that write outdates it. -/
def Core.beforeHost (k : Core) (a : Nat) (old new : Byte) : Option Byte :=
  if !k.inL1 (lineOf a) then none
  else
    match tget k.hostStale a with
    | some b => some b
    | none => if (tget k.stale a).isSome || old = new then none else some old

/-- A byte written by the host or a peer at its home: copies in L1 keep what they had (R203, R221). -/
def State.hostByte (s : State) (a : Nat) (b : Byte) : State :=
  let t := s.setByte none a b
  { t with cores := t.cores.map fun x =>
      let k := s.core x.1
      match k.beforeHost a (s.byte a) b with
      | some o => (x.1, { x.2 with hostStale := tset k.hostStale a o })
      | none => (x.1, { x.2 with hostStale := k.hostStale }) }

def State.hostBytes (s : State) (a : Nat) : List Byte → State
  | [] => s
  | b :: bs => (s.hostByte a b).hostBytes (a + 1) bs

/-- A store of the host or a peer: bytes at their home, tags as they are. -/
def State.hostStore (s : State) (a : Nat) (bs : List Byte) : State := (s.hostBytes a bs).notice a bs.length

/-- The core's copy of a range is older than a write from outside that nothing in the device has met since. -/
def Core.hostOld (k : Core) (a n : Nat) : Bool := k.hostStale.any fun x => a / 8 ≤ x.1 / 8 && x.1 / 8 ≤ (a + n - 1) / 8

/-- Only writes from outside have outdated the core's copy of the aligned 8 bytes around a range. -/
def Core.onlyHostOld (k : Core) (a n : Nat) : Bool :=
  k.hostOld a n && k.stale.all fun x => x.1 / 8 < a / 8 || (a + n - 1) / 8 < x.1 / 8 || tget k.hostStale x.1 == some x.2

/-- An access of an agent of the device meets bytes at home: what was written there from outside is now ordered among its
accesses (R210). -/
def State.metHost (s : State) (a n : Nat) : State :=
  if s.cores.any fun x => x.2.hostOld a n then
    { s with cores := s.cores.map fun (c, k) => (c, k.forgetHost a n) }
  else s

/-- After an acquire at .sys no copy serves what was written from outside before it, to whoever is ordered after it (R203,
R209). -/
def State.forgetHost (s : State) : State := { s with cores := s.cores.map fun (c, k) => (c, { k with hostStale := [] }) }

/-- An engine's store: the written line leaves the issuing core's L1 (R193). -/
def State.engineStore (s : State) (core a : Nat) (bs : List Byte) : State :=
  let s := s.store none a bs
  s.modCore core fun k =>
    { k with l1 := k.l1.filter fun (x, _) => x < lineOf a || lineOf (a + bs.length - 1) < x,
             stale := k.stale.filter fun (x, _) => lineOf x < lineOf a || lineOf (a + bs.length - 1) < lineOf x,
             hostStale := k.hostStale.filter fun (x, _) => lineOf x < lineOf a || lineOf (a + bs.length - 1) < lineOf x }

/-- The tag of the cell an address lies in (R222). -/
def State.tag (s : State) (pa : Nat) : BitVec 2 := (tget s.tags (pa / 32)).getD 0

def State.setTag (s : State) (pa : Nat) (t : BitVec 2) : State :=
  { s with tags := if t = 0 then terase s.tags (pa / 32) else tset s.tags (pa / 32) t }

/-! ### Messages and privileged events (R339, R368) -/

/-- A message of a vector: coalesced while it is masked or within the interval (R368). -/
def State.message (s : State) (port v : Nat) : State :=
  let t := s.msix[port]?.getD []
  let m := (tget t v).getD ⟨false, false, false⟩
  if m.masked || m.within then { s with msix := s.msix.setIfInBounds port (tset t v { m with pending := true }) }
  else { s with msix := s.msix.setIfInBounds port (tset t v { m with within := true }), sent := s.sent ++ [(port, v)] }

/-- Vector 0 on each port. -/
def State.tellHost (s : State) : State := (s.message 0 0).message 1 0

/-- Status bits are set; one of them that is enabled sends vector 0 on each port (R368). -/
def State.raiseStatus (s : State) (m : Word) : State :=
  let s := { s with evStatus := s.evStatus ||| m }
  if m &&& s.evEnable = 0 then s else s.tellHost

/-- The 64 bytes of an event (R339). -/
def Event.bytes (e : Event) (die : Nat) : List Byte :=
  leBytes 1 e.kind ++ leBytes 1 die ++ leBytes 1 e.cause ++ leBytes 1 e.access ++ leBytes 4 e.seq.toNat ++
    leBytes 4 (e.asid + 2 ^ 12 * e.core + 2 ^ 24 * e.gref) ++ leBytes 4 e.handle.toNat ++ leBytes 4 e.tidx ++
    leBytes 4 e.mask.toNat ++ leBytes 8 e.addr.toNat ++ leBytes 8 e.aux.toNat ++ leBytes 24 0

/-- The ring takes events: enabled, with space, and none held before (R339, R353). -/
def Die.ringOpen (d : Die) : Bool := d.evbase != 0 && d.evtail - d.evhead < d.evsize

/-- One event goes to the ring. -/
def State.ringPut (s : State) (die : Nat) (e : Event) : State :=
  let d := s.die die
  let a := bits d.evbase.toNat 51 12 * 4096 + 64 * (d.evtail.toNat % d.evsize.toNat)
  let empty := d.evtail == d.evhead
  let s := (s.store none a (e.bytes die)).modDie die fun d => { d with evtail := d.evtail + 1 }
  if empty then s.raiseStatus ((1#32 <<< (16 + die)) ||| 8#32) else s

/-- The first event whose source waits enters the hold, numbered, once fewer than 256 stand there (R339). -/
def Die.takeHeld (d : Die) : Die :=
  match d.evwait with
  | [] => d
  | e :: es =>
    if d.evhold.length < 256 then
      { d with evseq := d.evseq + 1, evhold := d.evhold ++ [{ e with seq := d.evseq }], evwait := es }
    else d

/-- Held events go out in order while the ring has space, and waiting ones follow into the hold. -/
def State.ringDrain (s : State) (die : Nat) : Nat → State
  | 0 => s
  | n + 1 =>
    let s := s.modDie die Die.takeHeld
    match (s.die die).evhold with
    | e :: es =>
      if (s.die die).ringOpen then
        ((s.ringPut die e).modDie die fun d => { d with evhold := es }).ringDrain die n
      else s
    | [] => s

/-- An event arises on a die: it goes to the ring behind all earlier ones, as soon as the ring takes it (R339). -/
def State.raiseEvent (s : State) (die : Nat) (e : Event) : State :=
  let s := s.modDie die fun d => { d with evwait := d.evwait ++ [e] }
  s.ringDrain die ((s.die die).evhold.length + (s.die die).evwait.length)

/-- An event of no group, core or team. -/
def Event.plain (kind : Nat) : Event where
  kind := kind
  cause := 0
  access := 0
  addr := 0
  aux := 0
  mask := 0
  tidx := 0
  handle := 0
  gref := 0xFF
  core := 0x7FF
  asid := 0
  seq := 0

/-! ### Traps (R322-R325) -/

/-- The group's `where` (R314). -/
def whereOf (gkey : Nat) : Word :=
  BitVec.ofNat 32 (coreOf gkey + 2 ^ 15 * dieOf (coreOf gkey) + 2 ^ 18 * (gkey % 16) + 2 ^ 24 * (gkey % 64 / 16))

/-- The seat of a group. -/
def seatOf (gkey : Nat) : Nat := gkey % 64 / 16

def Core.modSeat (k : Core) (n : Nat) (f : Seat → Seat) : Core :=
  { k with seats := k.seats.setIfInBounds n (f (k.seats[n]?.getD Seat.reset)) }

/-- A stopped or switched-out group leaves its loop buffer and its operand hold (R114, R181, R338). -/
def State.leaveSeat (s : State) (gkey : Nat) : State :=
  s.modCore (coreOf gkey) fun k => k.modSeat (seatOf gkey) fun x =>
    { x with
      loop := if (x.loop.map (·.gkey)) = some gkey then none else x.loop
      opHold := if (x.opHold.map Prod.fst) = some gkey then none else x.opHold }

/-- The group is removed: its slot is free, and its commands go on without it. -/
def State.dropGroup (s : State) (k : Nat) : State :=
  let f := fun (c : Cmd) => if c.gkey = k then { c with orphan := true } else c
  let s := (s.leaveSeat k).modCore (coreOf k) fun x => { x with vq := x.vq.map f, dt := x.dt.map f }
  { s with groups := terase s.groups k }

/-- A cause the cox raises itself (R341). -/
def State.coxCause (s : State) (core : Nat) (pc : DWord) (cause : Nat) : State :=
  let x := (s.core core).cox
  if x.cause = 0 then
    s.modCore core fun k =>
      { k with cox := { x with cause := BitVec.ofNat 64 cause, epc := pc, pc := x.vec, rep := 0 } }
  else
    let s := s.modCore core fun k => { k with cox := { x with halted := true } }
    (s.raiseEvent (dieOf core)
      { Event.plain 9 with
        cause := bits x.cause.toNat 7 0, addr := x.epc, aux := BitVec.ofNat 64 core, core := core }).raiseStatus 4

/-- An event names a group, its team and its lanes (R339). -/
def Event.ofGroup (e : Event) (s : State) (gkey : Nat) (mask : Mask) : Event :=
  let t := (tget s.groups gkey).bind fun g => tget s.teams g.tid
  { e with
    mask := mask
    tidx := (t.map (·.tidx)).getD 0
    handle := (t.map (·.handle)).getD 0
    gref := gkey % 64
    core := coreOf gkey
    asid := (t.map (·.desc.asid)).getD 0 }

/-- An uncorrectable memory error is counted at the line's home and reported to the host on a die, with what consumed the data
(R336, R339, R368). -/
def State.reportError (s : State) (die line kind : Nat) (who : Event → Event) : State :=
  let s := s.modDie (homeDie line) fun d => { d with ecc := d.ecc + 0x100000000#64 }
  (s.raiseEvent die (who { Event.plain 8 with cause := kind, addr := w64 line })).raiseStatus 2

/-- An error in what a core's group consumed. -/
def State.memoryError (s : State) (core line kind : Nat) (who : Event → Event) : State :=
  s.reportError (dieOf core) line kind fun e => who { e with core := core }

/-- An error in what a unit of a die consumed. -/
def State.dieError (s : State) (die line kind : Nat) : State := s.reportError die line kind id

/-- The report joins the cox queue; while it holds 64, or earlier groups wait for it, the group waits behind them (R324). -/
def Core.report (k : Core) (r : Report) : Core :=
  if k.reports.length < 64 && k.trapWait.isEmpty then { k with reports := k.reports ++ [r] } else { k with trapWait := k.trapWait ++ [r.gkey] }

/-- The report of a stopped group (R323); a uniform unit reports all positions. -/
def reportOf (gkey : Nat) (g : Group) (x : Stop) : Report where
  gkey := gkey
  cause := x.cause
  place := whereOf gkey
  lanes := x.shown
  unit := x.unit
  region := g.region
  d1 := x.d1
  d2 := x.d2

/-- An uncorrectable error in bank or deck data: counted on the core's die and reported with the local address (R235, R336;
log entry 22). -/
def State.bankError (s : State) (c : Issue) (kind : Nat) (la : DWord) (lanes : Mask) : State :=
  let s := s.modDie (dieOf c.core) fun d => { d with ecc := d.ecc + 0x100000000#64 }
  (s.raiseEvent (dieOf c.core) ({ Event.plain 8 with cause := kind, addr := la }.ofGroup s c.gkey lanes)).raiseStatus 2

/-- The unit under issue traps: the whole group stops at it, its report goes to the core's cox with the lanes that raised
it, all of them for a uniform unit (R323); on the cox itself control goes to coxvec (R341). -/
def State.stopAt (s : State) (c : Issue) (cause : Nat) (d1 d2 : DWord) (lanes : Mask) : State :=
  if c.cox then s.coxCause c.core c.addr cause
  else
    match tget s.groups c.gkey with
    | none => s
    | some g =>
      let x : Stop := ⟨cause, c.addr, c.next, c.lanes, if c.word.getLsbD 31 then 0xFFFFFFFF#32 else lanes, d1, d2, false, 1⟩
      let r := reportOf c.gkey g x
      ((s.setGroup c.gkey { g with stop := some x }).leaveSeat c.gkey).modCore (coreOf c.gkey) (·.report r)

/-- Taking a trap (R323); a memory error is counted and reported to the host as well (R336). -/
def State.takeTrap (s : State) (c : Issue) (cause : Nat) (d1 d2 : DWord) (lanes : Mask := c.lanes) : State :=
  let who := fun (e : Event) => if c.cox then e else e.ofGroup s c.gkey lanes
  (if cause = 0x30 then s.memoryError c.core d1.toNat d2.toNat who else s).stopAt c cause d1 d2 lanes

/-- The trap raised against a group outside its own issue, at the address and lanes given, with the lanes that its report
shows (all of them for a uniform unit, R323); a group in a context record is reported when it is placed (R352). A group that
has stopped takes no further trap. -/
def State.trapGroup (s : State) (gkey : Nat) (unit : DWord) (lanes shown : Mask) (cause : Nat) (d1 d2 : DWord) : State :=
  match tget s.groups gkey with
  | none => s
  | some g =>
    if g.stop.isSome then s
    else
      let s := if cause = 0x30 then s.memoryError (coreOf gkey) d1.toNat d2.toNat (·.ofGroup s gkey lanes) else s
      let x : Stop := ⟨cause, unit, unit, lanes, shown, d1, d2, false, 1⟩
      let s := s.setGroup gkey { g with stop := some x }
      if noCore ≤ coreOf gkey then s
      else (s.leaveSeat gkey).modCore (coreOf gkey) (·.report (reportOf gkey g x))

/-! ### Regions (R327, R328) -/

/-- A lane's region-entry state after a closing instruction (R327): it continues where its `vpc` stands, or, where it
waits with its `vpc` at the unit, at the unit after it. -/
def Issue.closeLane (c : Issue) (l : Lane) : Lane :=
  { l with
    entry := if !l.runnable && l.vpc == c.addr then c.next else l.vpc
    entryRng := l.lrng
    entryL := l.l
    atClose := if l.runnable then none else some c.addr }

/-- The close of an idempotent region by the unit under issue (R50, R125, R327). A replay, by lanes that had closed their
region with this unit when they parked at it, is no new issue and leaves the counter. -/
def Group.close (c : Issue) (g : Group) : Group :=
  { g.mapLanes c.lanes c.closeLane with
    region := if c.again != 0 && c.lanes &&& ~~~c.again == 0 then g.region else g.region + 1
    entryQ := g.u.q }

/-- The lane has not completed the instruction that closed its region: it waits or is parked there, or was woken and has
still to replay it. -/
def Lane.atClosing (l : Lane) : Bool :=
  match l.atClose with
  | some a => !l.runnable || l.vpc == a
  | none => false

/-- A lane at a region restart (R328): one at its closing instruction keeps its wait; any other drops the bytes of a peer that
it has not used. -/
def Lane.restart (l : Lane) : Lane :=
  let r := { l with lrng := l.entryRng, l := l.entryL }
  if l.gone || l.atClosing then r else { r with vpc := l.entry, state := .active, rep := 0, dem := 0, reply := none }

/-- A region restart (R328): entries, lrng, latches and REP go back; arrivals made after the entry are withdrawn. -/
def Group.restart (g : Group) : Group :=
  let kept := g.where Lane.atClosing
  { g.mapLanes 0xFFFFFFFF#32 Lane.restart with
    u := { g.u with q := g.entryQ }
    colls := (g.colls.map fun x => { x with arrived := x.arrived.filter fun a => kept.getLsbD a.pos }).filter
      fun x => !x.arrived.isEmpty
    hold := none
    stop := none }

/-- Resumption at the stop point after a trap (R324): every latch invalid. -/
def Group.resume (g : Group) : Group :=
  { g.mapLanes 0xFFFFFFFF#32 (fun l => { l with l := Latches.invalid }) with
    u := { g.u with q := Latches.invalid }, stop := none }

/-- Resumption past a BRK or TRAP (R349, mode 2): the unit's issuing set moves to the address given. -/
def Group.resumeAfter (g : Group) (x : Stop) : Group :=
  g.resume.mapLanes x.lanes fun l => if l.vpc = x.unit then { l with vpc := x.next, rep := 0 } else l

end Sys2Proof.Machine
end

