-- ==== Sys2Proof/Machine/Translate.lean ====
section
/-! DEFINITION. Translation (R197-R201, R361, R369): the table walk, its faults, the accessed and dirty bits, the
translation buffers of a core and a die, and the translation fault of lanes and engines (R202). -/

namespace Sys2Proof.Machine

/-- What an access is, with the codes of R339. -/
inductive Acc where
  | load | store | atomic | engRead | engWrite | land | cell
deriving DecidableEq, Repr

def Acc.code : Acc → Nat
  | .load => 1 | .store => 2 | .atomic => 3 | .engRead => 4 | .engWrite => 5 | .land => 6 | .cell => 7

def Acc.reads : Acc → Bool
  | .store => false
  | .engWrite => false
  | _ => true

def Acc.writes : Acc → Bool
  | .store => true
  | .atomic => true
  | .engWrite => true
  | _ => false

/-- Where a virtual address leads: a physical address (hostBase up for a host leaf), whether cell tags are in force, or
a peer device. -/
inductive Place where
  | here (pa : Nat) (tagged : Bool)
  | peer (dev pa : Nat)
deriving DecidableEq, Repr

/-- A translation or the cause of its fault: 1 not-present, 2 bad-entry, 3 tag-placement, 4 read, 5 write (R199, R339). -/
inductive Xlate where
  | to (p : Place)
  | fault (cause : Nat)
deriving DecidableEq, Repr

/-! ### Entries (R198) -/

def pteValid (e : Nat) : Bool := bits e 63 63 == 1
def pteKind (e : Nat) : Nat := bits e 62 61
def pteDev (e : Nat) : Nat := bits e 60 51
def pteHome (e : Nat) : Nat := bits e 50 48
def pteIl (e : Nat) : Bool := bits e 47 47 == 1
def pteTagged (e : Nat) : Bool := bits e 46 46 == 1
def pteContig (e : Nat) : Bool := bits e 45 45 == 1
def pteRd (e : Nat) : Bool := bits e 44 44 == 1
def pteWr (e : Nat) : Bool := bits e 43 43 == 1
def ptePa (e : Nat) : Nat := bits e 35 0

/-- 64 KiB pages a leaf of a level maps (R197). -/
def leafPages : Nat → Nat
  | 1 => 2 ^ 26
  | 2 => 2 ^ 13
  | _ => 1

/-- The package is partitioned when some die has an owner (R369). -/
def State.partitioned (s : State) : Bool := s.dies.toList.any fun d => d.owner.isSome

/-- The local pages a leaf maps lie in one range of R196 that agrees with il and home, and in the partition of the die
that translates (R199, R369). -/
def localLeafOk (s : State) (die level e : Nat) : Bool :=
  let a := ptePa e * 65536
  let z := a + leafPages level * 65536 - 1
  match rangeOf a with
  | none => false
  | some (_, hi, il) =>
    z < hi && pteIl e == il &&
      (if il then pteHome e == 0 && !s.partitioned
       else homeDie a == pteHome e && homeDie z == pteHome e &&
         (!s.partitioned || (s.die (pteHome e)).owner == (s.die die).owner))

/-- The kind of a leaf agrees with its other fields (R198, R361). -/
def leafOk (s : State) (die level e : Nat) : Bool :=
  bits e 40 36 == 0 && ptePa e % leafPages level == 0 &&
    match pteKind e with
    | 0 => pteDev e == 0 && localLeafOk s die level e
    | 1 => pteDev e == 0 && pteHome e == 0 && !pteIl e
    | 2 => pteHome e == 0 && !pteIl e && !pteTagged e
    | _ => false

/-- A pointer to a table that lies wholly in populated local memory (R199). -/
def pointerOk (level e : Nat) : Bool :=
  bits e 40 36 == 0 && pteDev e == 0 && pteHome e == 0 && !pteIl e && level < 3 &&
    match rangeOf (ptePa e * 65536) with
    | some (_, hi, _) => ptePa e * 65536 + 65536 ≤ hi
    | none => false

/-- The index of a level (R197). -/
def walkIndex (va : Nat) : Nat → Nat
  | 1 => bits va 53 42
  | 2 => bits va 41 29
  | _ => bits va 28 16

/-- The leaf a walk finds: its address, its level and the entry; or the fault's cause (R199). -/
inductive Walk where
  | leaf (addr level e : Nat)
  | fault (cause : Nat)
deriving DecidableEq, Repr

/-- The walk from a level's table, n levels left (R197). -/
def walkFrom (s : State) (die va : Nat) (table level : Nat) : Nat → Walk
  | 0 => .fault 2
  | n + 1 =>
    let a := table + 8 * walkIndex va level
    let e := s.num a 8
    if !pteValid e then .fault 1
    else if pteKind e = 3 then
      if pointerOk level e then walkFrom s die va (ptePa e * 65536) (level + 1) n else .fault 2
    else if !leafOk s die level e then .fault 2
    else if pteTagged e && !(pteKind e = 0 && isHbm (ptePa e * 65536)) then .fault 3
    else .leaf a level e

/-- The walk of an address space (R197, R353): without a valid root it faults not-present. -/
def State.walk (s : State) (die asid va : Nat) : Walk :=
  let r := ((tget s.troots asid).getD 0).toNat
  if bits r 0 0 = 1 then walkFrom s die va (bits r 51 16 * 65536) 1 3 else .fault 1

/-- The permission fault of an entry for an access (R199). -/
def permission (e : Nat) (k : Acc) : Option Nat :=
  if k.writes && !pteWr e then some 5
  else if k.reads && !pteRd e then some 4
  else none

/-- Where an entry that maps pages from a first page on sends an address. -/
def Place.ofEntry (e page va : Nat) : Place :=
  let a := ptePa e * 65536 + (va - page * 65536)
  match pteKind e with
  | 1 => .here (hostBase + a) false
  | 2 => .peer (pteDev e) a
  | _ => .here a (pteTagged e)

/-- The walker's atomic OR of acc, and of dirty for a store or an atomic (R198). -/
def State.mark (s : State) (addr e : Nat) (k : Acc) : State :=
  let m := e ||| 2 ^ 42 ||| (if k.writes then 2 ^ 41 else 0)
  if m = e then s else s.store none addr (leBytes 8 m)

/-! ### Translation buffers (R200, R201) -/

def TlbEntry.covers (t : TlbEntry) (asid page : Nat) : Bool := t.asid == asid && t.page ≤ page && page < t.page + t.pages

/-- A buffer of a size takes an entry; what it replaced is gone. -/
def tlbAdd (n : Nat) (t : TlbEntry) (ts : List TlbEntry) : List TlbEntry :=
  (t :: ts.filter fun x => !(x.asid == t.asid && overlap x.page x.pages t.page t.pages)).take n

/-- The entry a walk leaves in a buffer: a contig leaf stands for its whole 2 MiB run (R200). -/
def TlbEntry.ofLeaf (asid va level e : Nat) : TlbEntry :=
  let n := if level = 3 && pteContig e then 32 else leafPages level
  let page := va / 65536 / n * n
  let pa := ptePa e / n * n
  ⟨asid, page, n, BitVec.ofNat 64 (e - ptePa e + pa)⟩

/-- Both levels hold a translation. -/
def State.tlbFill (s : State) (core : Nat) (t : TlbEntry) : State :=
  (s.modCore core fun k => { k with tlb := tlbAdd 256 t k.tlb }).modDie (dieOf core)
    fun d => { d with tlb := tlbAdd 16384 t d.tlb }

/-- A cached translation that covers a page, if the free choice says it is still there (R201). -/
def State.cached (s : State) (core asid page : Nat) : Option TlbEntry × State :=
  match ((s.core core).tlb ++ (s.die (dieOf core)).tlb).find? (·.covers asid page) with
  | none => (none, s)
  | some t => if Config.tlbStays s.fresh then (some t, (s.draw).2) else (none, (s.draw).2)

/-- The translation of an address for an access of a core (R197-R201). -/
def State.translate (s : State) (core asid va : Nat) (k : Acc) : Xlate × State :=
  match s.cached core asid (va / 65536) with
  | (some t, s) =>
    match permission t.pte.toNat k with
    | some f => (.fault f, s)
    | none => (.to (Place.ofEntry t.pte.toNat t.page va), s)
  | (none, s) =>
    match s.walk (dieOf core) asid va with
    | .fault f => (.fault f, s)
    | .leaf addr level e =>
      match permission e k with
      | some f => (.fault f, s)
      | none =>
        let t := TlbEntry.ofLeaf asid va level e
        (.to (Place.ofEntry e (va / 65536 / leafPages level * leafPages level) va), (s.mark addr e k).tlbFill core t)

/-! ### Faults (R202) -/

/-- A fault of a page and access kind is raised at most once at a time on a die; peers count with codes from 16 on. -/
def State.faultOnce (s : State) (die asid page kind : Nat) (e : Event) : State :=
  if (s.die die).faults.contains (asid, page, kind) then s
  else (s.modDie die fun d => { d with faults := d.faults ++ [(asid, page, kind)] }).raiseEvent die e

/-- The event of a lane's fault: the team, group and lanes concerned (R202, R339). -/
def laneEvent (s : State) (gkey : Nat) (g : Group) (kind cause : Nat) (k : Acc) (va : Nat) (aux : Nat) (mask : Mask) :
    Event :=
  let t := tget s.teams g.tid
  { Event.plain kind with
    cause := cause, access := k.code, addr := BitVec.ofNat 64 va, aux := BitVec.ofNat 64 aux, mask := mask
    tidx := (t.map (·.tidx)).getD 0
    handle := (t.map (·.handle)).getD 0
    gref := gkey % 64
    core := coreOf gkey
    asid := (t.map (·.desc.asid)).getD 0 }

/-- The address space of a group's team. -/
def State.asidOf (s : State) (g : Group) : Nat := ((tget s.teams g.tid).map (·.desc.asid)).getD 0

/-- A lane parks; its unit is replayed when it is woken. -/
def State.park (s : State) (gkey p : Nat) (w : ParkWhy) : State := s.modLane gkey p fun l => { l with state := .parked w }

/-- A lane parks on a translation fault and the event is raised (R202); mask holds the lanes of the instruction that
address the page. -/
def State.laneFault (s : State) (gkey : Nat) (g : Group) (p va cause : Nat) (k : Acc) (mask : Mask) : State :=
  let asid := s.asidOf g
  (s.park gkey p (.fault asid (va / 65536))).faultOnce (dieOf (coreOf gkey)) asid (va / 65536) k.code
    (laneEvent s gkey g 1 cause k va 0 mask)

/-- A lane parks because no route leads to a device (R362). -/
def State.peerFault (s : State) (gkey : Nat) (g : Group) (p va dev : Nat) (k : Acc) (mask : Mask) : State :=
  (s.park gkey p (.peer dev)).faultOnce (dieOf (coreOf gkey)) (s.asidOf g) (va / 65536) (16 + k.code)
    (laneEvent s gkey g 2 0 k va dev mask)

/-- The event of an engine command's fault (R202, R339). -/
def State.engineFault (s : State) (core asid : Nat) (va cause : Nat) (k : Acc) (major : Nat) (who : Event → Event) : State :=
  s.faultOnce (dieOf core) asid (va / 65536) k.code
    (who { Event.plain 1 with
      cause := cause, access := k.code, addr := BitVec.ofNat 64 va, aux := BitVec.ofNat 64 major })

/-- Links of a route that are in service (R360, R362). -/
def State.routeOk (s : State) (dev : Nat) : Bool :=
  let r := ((tget s.routes dev).getD 0).toNat
  bits r 31 31 == 1 && (List.range 24).any fun l => bits r l l == 1 && !s.lostLinks.contains l

end Sys2Proof.Machine
end

