-- ==== Sys2Proof/Machine/Desc.lean ====
section
/-! DEFINITION. Records read from memory: segment descriptors (R108), node descriptors with their checks (R274, R275), the
frame of an entry (R137), the bank-role menu (R191), suspension records (R223), and reads by a die's own units. -/

namespace Sys2Proof.Machine

/-! ### Banks and capacities -/

/-- Banks per role of a menu entry: L, S, W, X (R191). -/
def menuBanks : Nat → Nat × Nat × Nat × Nat
  | 0 => (8, 8, 8, 8) | 1 => (16, 8, 4, 4) | 2 => (4, 4, 12, 12) | 3 => (4, 4, 16, 8)
  | 4 => (4, 4, 8, 16) | 5 => (2, 6, 12, 12) | 6 => (8, 16, 4, 4) | 7 => (24, 8, 0, 0)
  | 8 => (2, 2, 14, 14) | 9 => (8, 24, 0, 0) | 10 => (4, 12, 8, 8) | 11 => (32, 0, 0, 0)
  | 12 => (2, 4, 18, 8) | 13 => (2, 4, 8, 18) | 14 => (6, 10, 8, 8) | _ => (16, 16, 0, 0)

def bankBytes : Nat := 16384

/-- Banks a team takes of a role: a claim of 0 takes them all (R188). -/
def claim (field all : Nat) : Nat := if field = 0 then all else field

/-! ### Segment descriptors (R108) -/

structure SegDesc where
  lines   : Nat
  bayline : Nat
  base    : Nat
deriving DecidableEq, Repr

/-- The descriptor in 16 bytes, unless it breaks R108. -/
def SegDesc.parse (n : Nat) : Option SegDesc :=
  let d : SegDesc := ⟨bits n 82 73, bits n 72 64, bits n 53 8 * 256⟩
  if bits n 127 83 != 0 || bits n 63 54 != 0 || bits n 7 0 != 0 || d.lines == 0 || d.lines > 512 ||
      d.bayline + d.lines > 512 then none
  else some d

def SegDesc.covers (d : SegDesc) (a : Nat) : Bool := d.base ≤ a && a < d.base + 256 * d.lines

/-! ### Node descriptors (R274, R275) -/

def NodeDesc.parse (n frame : Nat) : NodeDesc where
  entry := bits n 53 0
  args := bits n 117 64
  cobj := bits n 181 128
  gx := bits n 207 192
  gy := bits n 223 208
  gz := bits n 239 224
  dies := bits n 247 240
  groups := bits n 261 256 + 1
  cw := bits n 265 262
  ch := bits n 269 266
  menu := bits n 273 270
  rejoin := bits n 274 274 == 1
  prio := bits n 277 275
  reserve := bits n 281 278
  quota := bits n 291 282
  nbv := bits n 299 292
  cv := bits n 304 300
  cs := bits n 308 305
  sbanks := bits n 324 320
  xbanks := bits n 329 325
  wbanks := bits n 334 330
  deck := bits n 340 335
  autoLand := bits n 341 341 == 1
  trapNan := bits n 342 342 == 1
  asid := bits n 355 344
  rqid := bits n 396 384
  rqen := bits n 397 397 == 1
  tile := bits n 403 398 + 1
  flush := bits n 419 404
  seg := bits n 501 448
  npred := bits n 527 512
  frame := frame

/-- The reserved bits of a node descriptor are zero. -/
def nodeReserved (n : Nat) : Bool :=
  [(2047, 576), (575, 528), (511, 502), (447, 420), (383, 356), (343, 343), (319, 309), (255, 248), (191, 182),
    (127, 118), (63, 54)].all fun (h, l) => bits n h l == 0

/-- Group slots, lane slots and register pages of a team (R137, R138). -/
def NodeDesc.slots (d : NodeDesc) : Nat := d.groups + (d.quota + 7) / 8 + d.reserve
def NodeDesc.laneSlots (d : NodeDesc) : Nat := 32 * d.groups + 4 * d.quota + 32 * d.reserve
def NodeDesc.pages (d : NodeDesc) : Nat :=
  d.groups * ((d.frame + 7) / 8 + 1) + d.quota + (d.quota + 7) / 8 + 8 * d.reserve

/-- A mesh of 18 × 12 has a W × H rectangle (R275). -/
def NodeDesc.fitsMesh (d : NodeDesc) : Bool := d.cw ≤ 18 && d.ch ≤ 12

/-- S bytes the team is allotted (R188). -/
def NodeDesc.sBytes (d : NodeDesc) : Nat := bankBytes * claim d.sbanks (menuBanks d.menu).2.1
def NodeDesc.wBytes (d : NodeDesc) : Nat := bankBytes * claim d.wbanks (menuBanks d.menu).2.2.1
def NodeDesc.xBytes (d : NodeDesc) : Nat := bankBytes * claim d.xbanks (menuBanks d.menu).2.2.2
def NodeDesc.deckBytes (d : NodeDesc) : Nat := 262144 * claim d.deck 32

/-- The checks of R275 that the descriptor alone decides; queue says the record queue is bound to another live node. -/
def nodeCause (n : Nat) (d : NodeDesc) (frameOk queue diesOk : Bool) : Option Nat :=
  if !nodeReserved n || d.entry % 4 != 0 || d.seg % 16 != 0 || d.cobj % 16 != 0 || d.gx == 0 || d.gy == 0 ||
      d.gz == 0 || d.cw == 0 || d.ch == 0 || d.cw * d.ch > 12 || d.reserve > 8 || d.cs > 8 || d.cv > 16 ||
      d.quota > 512 || d.cw > 12 || d.ch > 12 || !frameOk || (d.rqen && !(d.gx == 1 && d.gy == 1 && d.gz == 1)) then some 1
  else if d.nbv > 1 then some 2
  else if d.slots > 64 || d.laneSlots > 2048 || d.pages > 512 then some 3
  else if d.sbanks > (menuBanks d.menu).2.1 || d.wbanks > (menuBanks d.menu).2.2.1 ||
      d.xbanks > (menuBanks d.menu).2.2.2 || d.deck > 32 then some 4
  else if d.rqen && (queue || d.sBytes < 32 * d.tile) then some 5
  else if !diesOk || !d.fitsMesh then some 6
  else none

/-- The HDR word's frame (R13, R137): the frame of a same-width header, none for a header of another kind, 56 for any
other word. -/
def headerFrame (w : Nat) : Option Nat :=
  if bits w 31 25 != 0x5E then some 56
  else if bits w 24 23 == 0 && 1 ≤ bits w 21 16 && bits w 21 16 ≤ 56 then some (bits w 21 16)
  else none

/-! ### Group slots (R137) -/

/-- A free group slot of a core, on any of its seats, chosen freely (R137). -/
def State.newSlot (s : State) (core : Nat) : Option (Nat × State) :=
  match (List.range 64).filter fun k => (tget s.groups (64 * core + k)).isNone with
  | [] => none
  | k :: ks =>
    let (i, s) := s.choose (ks.length + 1)
    some (64 * core + (k :: ks)[i]?.getD k, s)

/-! ### Requests to peers (R360, R363) -/

/-- The link that carries a flit to a device: the first of its route that is in service (log entry 18), 24 where there is
none and the flit is not carried. -/
def State.linkTo (s : State) (dev : Nat) : Nat :=
  let r := ((tget s.routes dev).getD 0).toNat
  ((List.range 24).find? fun l => bits r 31 31 == 1 && bits r l l == 1 && !s.lostLinks.contains l).getD 24

/-- Bytes 15 to 0 of a flit (R360): sequence number, source, destination and kind. -/
def flitHead (f : Flit) : Nat := f.kind + 2 ^ 64 * f.dst + 2 ^ 80 * f.src + 2 ^ 96 * f.seq

/-- The kind of the flit that carries a request. -/
def requestKind (r : PeerReq) : Nat :=
  if r.major = 0x20 then 1 else if r.major = 0x21 then 2 else if r.major = 0x22 then 5 else 3

/-- A flit with one request or answer leaves over a link, numbered there (R360). -/
def State.sendFlit (s : State) (kind dev : Nat) (r : PeerReq) : State :=
  let l := s.linkTo dev
  let n := (tget s.wotisSeq l).getD 0
  { s with
    wotisOut := s.wotisOut ++ [⟨s.devid.toNat, dev, kind, l, n, [r]⟩]
    wotisSeq := tset s.wotisSeq l ((n + 1) % 2 ^ 32) }

/-- Bytes cut where lines begin: a request has one line (R360). -/
def byLine : Nat → List Byte → List (Nat × List Byte)
  | _, [] => []
  | pa, b :: bs =>
    match byLine (pa + 1) bs with
    | [] => [(pa, [b])]
    | (q, cs) :: rest => if q % 128 = 0 then (pa, [b]) :: (q, cs) :: rest else (pa, b :: cs) :: rest

/-- A request of a lane, of an engine command or of a die's unit leaves for a peer (PeerWait); its answer names the tag. With it go
the lanes whose access it is and those that a report shows. -/
def State.requestOf (s : State) (w : Nat × Nat × Option Nat) (m : List (Nat × Nat) × Mask) (dev va : Nat) (r : PeerReq) : Nat × State :=
  let tag := s.nextId
  let r := { r with tag := tag }
  (tag, { s with
    nextId := tag + 1
    peerWaits := tset s.peerWaits tag ⟨w.1, w.2.1, w.2.2, dev, r, va, m.1, m.2⟩ }.sendFlit (requestKind r) dev r)

def PeerReq.read (pa n : Nat) : PeerReq := ⟨0, pa, n, [], 0x20, 0, 0, 0, false⟩

/-! ### Ownership of engine commands (R217, R235) -/

def Own.meets (o : Own) (space tid a n : Nat) : Bool :=
  o.space == space && (space == 0 || o.tid == tid) && overlap o.lo o.len a n

/-- A peer's byte in one numbering with those of other peers. -/
def peerKey (dev pa : Nat) : Nat := (2 + dev) * 2 ^ 52 + pa

/-- Where an address lies, at home or at a peer, in one numbering. -/
def Place.key : Place → Nat
  | .here pa _ => pa
  | .peer dev pa => peerKey dev pa

/-- Where a virtual address lies, looked up without an effect, if its page is mapped. -/
def State.peekSpot (s : State) (die asid va : Nat) : Option Place :=
  match s.walk die asid va with
  | .fault _ => none
  | .leaf _ level e => some (Place.ofEntry e (va / 65536 / leafPages level * leafPages level) va)

/-- The physical address of a virtual one, looked up without an effect, where its page is mapped here. -/
def State.peekPlace (s : State) (die asid va : Nat) : Option Nat :=
  match s.peekSpot die asid va with
  | some (.here pa _) => some pa
  | _ => none

/-- Owned bytes of a command of a core meet a range as the page tables stand now. -/
def State.ownMeets (s : State) (core : Nat) (o : Own) (space tid a n : Nat) : Bool :=
  match o.space with
  | 5 =>
    if space == 5 then tid == o.tid && overlap o.lo o.len a n
    else space == 0 && ((s.peekSpot (dieOf core) o.tid o.lo).map fun x => overlap x.key o.len a n) == some true
  | 6 => 1 ≤ space && space ≤ 4 && (tid == o.tid || ((tget s.teams o.tid).map fun t => t.cluster.contains tid) == some true)
  | _ => o.meets space tid a n

/-- Bytes that an accepted command for which f holds has still to write. -/
def State.ownedBy (s : State) (f : Cmd → Bool) (space tid a n : Nat) : Bool :=
  s.cores.any fun x => (x.2.vq ++ x.2.dt).any fun c => f c && c.owns.any fun o => s.ownMeets x.1 o space tid a n

/-- Bytes that an accepted command of a core has still to write. -/
def State.ownedAt (s : State) (core space tid a n : Nat) : Bool :=
  ((s.core core).vq ++ (s.core core).dt).any fun c => c.owns.any fun o => s.ownMeets core o space tid a n

/-- Bytes that an accepted command has still to write. -/
def State.owned (s : State) (space tid a n : Nat) : Bool := s.ownedBy (fun _ => true) space tid a n

/-- A command whose own record cannot be read yet may write anywhere in an address space. -/
def State.unknownIn (s : State) (asid : Nat) : Bool := s.owned 8 asid 0 1

/-- n bytes of a place, met in an address space, that an accepted command has still to write (R217). -/
def State.ownsPlace (s : State) (asid : Nat) (x : Place) (n : Nat) : Bool := s.owned 0 0 x.key n || s.unknownIn asid

/-- The same of the commands of one core: its own lanes issued them. -/
def State.ownsPlaceAt (s : State) (core asid : Nat) (x : Place) (n : Nat) : Bool :=
  s.ownedAt core 0 0 x.key n || s.ownedAt core 8 asid 0 1

/-! ### Reads by a die's units -/

/-- Bytes a peer answered to a die's unit, and the die without them. -/
def Die.takeGot (d : Die) (dev pa n : Nat) : Option (List Byte × Die) :=
  (d.got.find? fun x => x.1 == dev && x.2.1 == pa && x.2.2.length == n).map fun x =>
    (x.2.2, { d with got := d.got.filter fun y => !(y.1 == dev && y.2.1 == pa) })

/-- The place an address of a space is at for a die's unit; the cause of a fault. -/
def State.diePlace (s : State) (die asid va : Nat) (k : Acc) : Except Nat (Place × State) :=
  match s.walk die asid va with
  | .fault f => .error f
  | .leaf addr level e =>
    match permission e k with
    | some f => .error f
    | none => .ok (Place.ofEntry e (va / 65536 / leafPages level * leafPages level) va, s.mark addr e k)

/-- n bytes in an address space read at home by a unit of a die; the cause of a fault, 6 while a peer has not answered, 7
while a command has still to write them, 8 for an uncorrectable error (R336). -/
def State.dieRead (s : State) (die asid va n : Nat) (k : Acc) : Except Nat (List Byte × State) :=
  match s.diePlace die asid va k with
  | .error f => .error f
  | .ok (.here pa _, s) =>
    if s.owned 0 0 pa n then .error 7 else if (s.badLine pa n).isSome then .error 8 else .ok (s.bytes pa n, s.metHost pa n)
  | .ok (.peer dev pa, s) =>
    match (s.die die).takeGot dev pa n with
    | some (bs, d) => .ok (bs, s.modDie die fun _ => d)
    | none => .error 6

/-- Where a read of a die's unit stopped: the read, and its cause as dieRead gives it. -/
structure DieStop where
  asid  : Nat
  va    : Nat
  size  : Nat
  cause : Nat
deriving DecidableEq, Repr

def DieStop.page (x : DieStop) : Nat := x.va / 65536

/-- The read waits for a command's write and is tried again (R217). -/
def DieStop.waits (x : DieStop) : Bool := x.cause == 7

/-- The line with an uncorrectable error at which a read of a die's unit stopped (R336). -/
def State.badAt (s : State) (die : Nat) (x : DieStop) (k : Acc) : Option Nat :=
  if x.cause != 8 then none
  else
    match s.diePlace die x.asid x.va k with
    | .ok (.here pa _, s) => s.badLine pa x.size
    | _ => none

/-- A read of a die's unit stops: a fault is raised, with the parts of its event given; a peer is asked, and its answer
resolves the page for the waiting access (R202, R362, R363). -/
def State.dieFault (s : State) (die : Nat) (x : DieStop) (k : Acc) (e : Event) : State :=
  let e := { e with access := k.code, addr := w64 x.va, asid := x.asid }
  let waits := fun (s : State) =>
    if (s.die die).faults.contains (x.asid, x.page, k.code) then s
    else s.modDie die fun d => { d with faults := d.faults ++ [(x.asid, x.page, k.code)] }
  match x.cause, s.diePlace die x.asid x.va k with
  | 6, .ok (.peer dev pa, s) =>
    if s.peerWaits.any fun w => w.2.unit.isSome && w.2.gkey == die && w.2.dev == dev && w.2.req.pa == pa then waits s
    else if s.routeOk dev then waits (s.requestOf (die, k.code, some x.asid) ([], 0) dev x.va (PeerReq.read pa x.size)).2
    else waits (s.faultOnce die x.asid x.page (16 + k.code) { e with kind := 2, cause := 0, aux := w64 dev })
  | 7, _ => s
  | c, _ => s.faultOnce die x.asid x.page k.code { e with kind := 1, cause := c }

/-- A node descriptor with the frame of its entry, as the boathouse of a die reads it (R137, R274): the number, the
descriptor and whether the header is allowed; or where the read stopped. -/
def State.readNode (s : State) (die asid va : Nat) (k : Acc) : Except DieStop (Nat × NodeDesc × Bool × State) :=
  match s.dieRead die asid va 256 k with
  | .error f => .error ⟨asid, va, 256, f⟩
  | .ok (bs, s) =>
    let n := leNat bs
    let d := NodeDesc.parse n 56
    if d.entry < 4 then .ok (n, d, true, s)
    else
      match s.dieRead die d.asid (d.entry - 4) 4 k with
      | .error f => if f < 6 then .ok (n, d, true, s) else .error ⟨d.asid, d.entry - 4, 4, f⟩
      | .ok (ws, s) =>
        match headerFrame (leNat ws) with
        | some f => .ok (n, { d with frame := f }, true, s)
        | none => .ok (n, d, false, s)

/-! ### Suspension records (R223) -/

structure CellRec where
  cellva : Nat
  asid   : Nat
  notify : Bool
  hold   : Bool
  rsize  : Nat
  prio   : Nat
  hint   : Nat
  args   : Nat
  tmpl   : Nat
deriving DecidableEq, Repr

def CellRec.parse (n : Nat) : CellRec where
  cellva := bits n 245 192
  asid := bits n 153 142
  notify := bits n 141 141 == 1
  hold := bits n 140 140 == 1
  rsize := bits n 139 134
  prio := bits n 133 131
  hint := bits n 130 128
  args := bits n 117 64
  tmpl := bits n 53 8 * 256

/-- A record keeps the map of R223. -/
def cellRecOk (n : Nat) : Bool :=
  bits n 255 246 == 0 && bits n 196 192 == 0 && bits n 191 154 == 0 && 1 ≤ bits n 139 134 && bits n 139 134 ≤ 32 &&
    bits n 130 128 ≤ 2 && bits n 127 118 == 0 && bits n 66 64 == 0 && bits n 63 54 == 0 && bits n 7 0 == 0

end Sys2Proof.Machine
end

