-- ==== Sys2Proof/Machine/Landing.lean ====
section
/-! DEFINITION. The code bay and its landing table (R107-R113), code targets (R11), headers of functions (R13, R14), the
loop buffer (R114), auto-land (R325). -/

namespace Sys2Proof.Machine

/-! ### The landing table (R107) -/

def LandEntry.covers (e : LandEntry) (a : Nat) : Bool := e.base ≤ a && a < e.base + 256 * e.lines

/-- What a fetch comes to. -/
inductive Fetched where
  | word (w : Word)
  | wait
  | missing
deriving DecidableEq, Repr

/-- The word of a LANDED entry. -/
def Core.bayWord (k : Core) (e : LandEntry) (a : Nat) : Word :=
  BitVec.ofNat 32 (leNat (mread k.bay (e.bayline * 256 + (a - e.base)) 4))

/-- A fetch from the bay: LANDED entries give the word, LANDING ones make it wait. -/
def Core.fetch (k : Core) (a : Nat) : Fetched :=
  match k.land.find? fun e => e.covers a && e.state == .landed with
  | some e => .word (k.bayWord e a)
  | none => if k.land.any (·.covers a) then .wait else .missing

/-- The loop buffer's word, while the group holds the buffer (R114). -/
def LoopBuf.word (b : LoopBuf) (gkey a : Nat) : Option Word :=
  if b.gkey == gkey && !b.drop && b.base ≤ a && (a - b.base) % 4 == 0 then b.words[(a - b.base) / 4]? else none

/-- A fetch of a group: from its loop buffer, else from the bay. -/
def Core.fetchFor (k : Core) (gkey a : Nat) : Fetched :=
  match ((k.seats[seatOf gkey]?.bind (·.loop)).bind (·.word gkey a)) with
  | some w => .word w
  | none => k.fetch a

/-! ### Code targets and headers (R11, R13, R14) -/

/-- CheckCodeTarget (R11) for a group: none when the target is good. -/
def checkTarget (k : Core) (gkey : Nat) (a : DWord) : Option Halt :=
  if a >>> 54 != 0 then some (.trap 0x06 a 0)
  else if a.toNat % 4 != 0 then some (.trap 0x07 a 0)
  else
    match k.fetchFor gkey a.toNat with
    | .word _ => none
    | .wait => some .hold
    | .missing => some (.trap 0x08 a 0)

/-- A function's header (R13); codes are those of v0 to v3. -/
structure Header where
  rule    : Nat
  coupled : Bool
  frame   : Nat
  codes   : List Nat
deriving DecidableEq, Repr

/-- A header word, unless it is no HDR word or has a reserved rule or frame (R14). -/
def Header.parse (w : Word) : Option Header :=
  let n := w.toNat
  let f := bits n 21 16
  if bits n 31 25 == 0x5E && bits n 24 23 != 3 && 1 ≤ f && f ≤ 56 then
    some ⟨bits n 24 23, bits n 22 22 == 1, f, [bits n 3 0, bits n 7 4, bits n 11 8, bits n 15 12]⟩
  else none

/-- The checks of a call (R14): the target, the word before it, its header, and the rule required. -/
def checkCall (k : Core) (gkey : Nat) (target : DWord) (rule : Nat) : Except Halt Header :=
  match checkTarget k gkey target with
  | some h => .error h
  | none =>
    match checkTarget k gkey (target - 4) with
    | some h => .error h
    | none =>
      match k.fetchFor gkey (target - 4).toNat with
      | .word w =>
        match Header.parse w with
        | none => .error (.trap 0x0B target (w.setWidth 64))
        | some h => if h.rule = rule then .ok h else .error (.trap 0x0C target (w.setWidth 64))
      | _ => .error .hold

/-! ### Landing (R108, R109) -/

/-- An entry leaves the table, or, while LANDING, is marked to leave after its copy (R113). -/
def invalidate (f : LandEntry → Bool) : List LandEntry → List LandEntry
  | [] => []
  | e :: es =>
    if f e then
      (if e.state = .landing then { e with dead := true } :: invalidate f es else invalidate f es)
    else e :: invalidate f es

/-- The team's entry landed longest ago; entries stand in the order in which they landed, those still landing last (log entry
38). -/
def oldestEntry (tid : Nat) (es : List LandEntry) : Option Nat :=
  ((es.filter fun e => e.tid == tid && !e.dead && e.state == .landed) ++
    (es.filter fun e => e.tid == tid && !e.dead && e.state == .landing)).head?.map (·.age)

def LandEntry.equals (e : LandEntry) (d : SegDesc) : Bool := e.base == d.base && e.lines == d.lines && e.bayline == d.bayline

/-- An entry that is LANDING or LANDED and equals a descriptor (R110): one that stays before one that was invalidated and
still copies (R113). -/
def Core.equalEntry (k : Core) (d : SegDesc) : Option LandEntry :=
  match k.land.find? fun e => !e.dead && e.equals d with
  | some e => some e
  | none => k.land.find? (·.equals d)

/-- Land(D) up to the start of its copy (R109); none while the table has no EMPTY entry. Entries that were invalidated and are still
LANDING do not count toward the allotment (log entry 38). -/
def Core.startLanding (k : Core) (tid asid allot : Nat) (d : SegDesc) (cobjs : List (Nat × Nat)) : Option Core :=
  let es := invalidate (fun e => overlap e.base (256 * e.lines) d.base (256 * d.lines) ||
    overlap e.bayline e.lines d.bayline d.lines) k.land
  let own := es.filter fun e => e.tid == tid && !e.dead
  let es := if allot ≤ own.length then
      match oldestEntry tid es with
      | some n => invalidate (fun e => e.age == n) es
      | none => es
    else es
  if es.length ≥ 64 then none
  else
    some { k with
      landAge := k.landAge + 1
      land := es ++ [{ base := d.base, lines := d.lines, bayline := d.bayline, tid := tid, asid := asid, state := .landing, dead := false, cobjs := cobjs, held := false, age := k.landAge }] }

/-- The lines lie in the team's code window (R108). -/
def Team.inWindow (t : Team) (d : SegDesc) : Bool :=
  t.winFirst ≤ d.bayline && d.bayline + d.lines ≤ t.winFirst + t.winLines

/-! ### Auto-land (R325) -/

/-- What the search of the node's descriptors comes to. -/
inductive Found where
  | desc (d : SegDesc)
  | none
  | fault (x : DieStop)
deriving DecidableEq, Repr

/-- The first descriptor that covers a target, from an address on. -/
def State.findSegment (s : State) (die asid target va : Nat) : Nat → Found × State
  | 0 => (.none, s)
  | n + 1 =>
    match s.dieRead die asid va 16 .land with
    | .error f => (.fault ⟨asid, va, 16, f⟩, s)
    | .ok (bs, s) =>
      let x := leNat bs
      if bits x 82 73 = 0 then (.none, s)
      else if bits x 53 8 * 256 ≤ target && target < bits x 53 8 * 256 + 256 * bits x 82 73 then
        match SegDesc.parse x with
        | some d => (.desc d, s)
        | none => (.none, s)
      else s.findSegment die asid target (va + 16) n

/-- A code-not-landed trap of an auto-landing team is served without a report: the segment lands and the group
waits and re-executes its unit. None where it cannot be served. -/
def State.autoLand (s : State) (c : Issue) (target : DWord) : Option State :=
  match tget s.groups c.gkey with
  | none => none
  | some g =>
    match tget s.teams g.tid with
    | none => none
    | some t =>
      if !t.desc.autoLand then none
      else
        match s.findSegment t.die t.desc.asid target.toNat t.desc.seg 64 with
        | (.none, _) => none
        | (.fault x, s) =>
          if x.waits then some s else
          if let some line := s.badAt t.die x .land then some (s.takeTrap c 0x30 (w64 line) 4) else
          let m := g.where Lane.runnable
          some ((s.modGroup c.gkey fun g => g.mapLanes m fun l => { l with state := .parked (.fault x.asid x.page) }).dieFault
            t.die x .land ((Event.plain 1).ofGroup s c.gkey m))
        | (.desc d, s) =>
          if !t.inWindow d then none
          else
            match (s.core t.core).startLanding g.tid t.desc.asid t.allot d [] with
            | some k =>
              some ((s.setCore t.core k).modGroup c.gkey fun g =>
                { g with hold := some (.autoLand c.addr d.lines d.bayline d.base) })
            | none => some s

/-- The segment that a group waits for is still landing. -/
def State.autoLanding (s : State) (gkey : Nat) (g : Group) : Bool :=
  match g.hold with
  | some (.autoLand _ lines bayline base) =>
    (s.core (coreOf gkey)).land.any fun e => e.state == .landing && e.equals ⟨lines, bayline, base⟩
  | _ => false

/-! ### The loop buffer (R114) -/

/-- Lane source fields and uniform source fields of a lane-set word of major m and funct f, by their lowest bits (R37, R40,
R43, R75-R77): a field that must be zero, a sub-field and the first register of a run are none, and a word that no map assigns
has none, for only an instruction has extension words (log entry 37). -/
def laneSources (w m f : Nat) : List Nat × List Nat :=
  if m = 0x04 then ((if f = 7 then [] else [13, 7]), [])
  else if m ≤ 0x03 then ((if m = 0x00 ∧ 6 ≤ f ∨ m = 0x03 ∧ f ≤ 2 then [13] else [13, 7]), [])
  else if m = 0x05 then ((if f = 6 then [13] else []), [])
  else if m = 0x06 then (if f = 2 ∨ f = 3 then ([], [13]) else ((if f = 0 then [13] else [13, 7]), []))
  else if 0x08 ≤ m ∧ m ≤ 0x0F then ((if m = 0x0E ∨ m = 0x0D ∧ bits w 12 10 = 7 then [] else [13]), [])
  else if 0x10 ≤ m ∧ m ≤ 0x13 then ((if m = 0x12 ∧ f = 7 then [13] else [13, 7]), [])
  else if m = 0x14 then ((if f ≤ 3 ∧ 6 ≤ bits w 12 10 then [] else [13]), [])
  else if m = 0x15 ∨ m = 0x17 then ([13], [])
  else if m = 0x16 then ((if f = 0 ∨ f = 3 then [13] else if f ≤ 2 then [13, 7] else []), [])
  else if m = 0x18 then
    ((if f = 4 then [13, 7] else if f = 2 ∨ 6 ≤ f ∨ f = 0 ∧ 5 ≤ bits w 12 10 then [] else [13]), [])
  else if 0x20 ≤ m ∧ m ≤ 0x27 then
    ((if m = 0x21 ∨ m = 0x23 ∨ m = 0x25 ∨ m = 0x26 then [19] else []) ++ [13] ++ (if bits w 3 3 = 0 then [7] else []), [])
  else if m = 0x2A then ((if f = 7 then [] else [13, 7]), [])
  else if 0x28 ≤ m ∧ m ≤ 0x2B then ((if m ≤ 0x29 ∧ f = 7 ∨ m = 0x2B ∧ f = 6 then [13] else [13, 7]), [])
  else if m = 0x2C then ((if f < 5 then [13, 7] else []), [])
  else if m = 0x2D then ((if (f = 4 ∨ f = 5) ∧ bits w 8 7 = 3 then [] else [13]), [])
  else if m = 0x2E then ((if f = 0 then [13, 7] else if f = 1 then [19, 13, 7] else []), [])
  else if m = 0x2F ∨ m = 0x37 then ((if f = 0 then [13] else []), [])
  else ([], [])

/-- An MSR of a uniform source to a register of this number is assigned (R80, R312). -/
def msrAssigned (n : Nat) : Bool := n == 0 || 4 ≤ n && n ≤ 7

/-- The same of a uniform-set word of major m and sub-code f7 (R39, R41, R43, R78-R80, R344). -/
def uniformSources (w m f7 : Nat) : List Nat × List Nat :=
  let f := bits w 6 4
  let only := fun (x : List Nat × List Nat) => if f7 = 0 then x else ([], [])
  if m = 0x02 then ([], if f = 7 then [] else [13, 7])
  else if m ≤ 0x01 then ([], if m = 0x01 ∧ f = 7 then [13] else [13, 7])
  else if m = 0x03 then
    (if f = 4 then ([13], []) else ([], if f = 1 ∨ f = 6 then [13, 7] else if f = 3 ∨ f = 7 then [] else [13]))
  else if 0x08 ≤ m ∧ m ≤ 0x0F then
    ([], if m = 0x0D ∨ m = 0x0B ∧ bits w 12 11 = 3 ∨ m = 0x0C ∧ bits w 12 10 = 7 then []
      else if m = 0x0F then [19, 13] else [13])
  else
    match m with
    | 0x12 | 0x13 | 0x29 | 0x35 | 0x36 => only ([], [19, 13])
    | 0x14 => only ([13], [19])
    | 0x15 | 0x23 => ([], [19])
    | 0x22 | 0x27 | 0x32 | 0x37 => only ([], [19])
    | 0x17 => ([], if f = 0 then [13] else [])
    | 0x33 => only ([], [13])
    | 0x18 => ([], if f7 = 3 then [19] else [])
    | 0x1A => ([], if f7 = 3 ∨ bits w 12 0 = 0x201 then [13] else [])
    | 0x1F => ([], if f7 = 3 then [19] else if f7 = 6 ∨ f7 = 7 then [19, 13] else [])
    | 0x20 | 0x21 => only ([], [19, 7])
    | 0x26 | 0x2D => only ([], [19, 13, 7])
    | 0x24 => ([], if f7 = 0 then [13] else if f7 = 1 then [19] else [])
    | 0x25 => ([], if bits w 2 0 ≤ 4 then [13, 7] else [])
    | 0x2A => ([], if f7 ≤ 2 then [19] else if f7 = 3 then [19, 13] else [])
    | 0x2B => ([], if f7 ≤ 2 then [13] else [])
    | 0x2C =>
      if f7 = 1 ∧ msrAssigned (bits w 18 13) then ([], [19])
      else if f7 = 3 ∧ bits w 18 13 = 2 then ([19], []) else ([], [])
    | 0x30 => ([], if f7 = 0 then [13, 7] else if f7 = 1 then [19, 13, 7] else [])
    | 0x31 => ([], if f7 = 0 then [19, 13] else if f7 = 1 then [19] else [])
    | 0x34 => ([], if f7 = 1 then [19] else [])
    | _ => ([], [])

def sourceFields (w : Nat) : List Nat × List Nat :=
  if bits w 31 31 = 0 then laneSources w (bits w 30 25) (bits w 6 4) else uniformSources w (bits w 30 25) (bits w 6 0)

/-- Extension words that follow an instruction word (R43). -/
def extensions (w : Nat) : Nat :=
  let (ls, us) := sourceFields w
  (if ls.any fun p => bits w (p + 5) p == 62 then 1 else 0) +
    (if us.any fun p => bits w (p + 5) p == 62 then 2 else if us.any fun p => bits w (p + 5) p == 61 then 1 else 0)

/-- A word that may not stand in a captured body: a control transfer, a trap or a REP (R114). -/
def breaksBody (w : Nat) : Bool :=
  let m := bits w 30 25
  if bits w 31 31 = 0 then m == 0x36 || m == 0x37
  else m == 0x10 || m == 0x11 || m == 0x12 || m == 0x14 || m == 0x15 || m == 0x16 || m == 0x17 || m == 0x18 ||
    m == 0x1C || (m == 0x1F && 1 ≤ bits w 6 0 && bits w 6 0 ≤ 3)

/-- The body from a word on, up to the branch as its last word. -/
def bodyOk : List Word → Nat → Bool
  | [], _ => false
  | [_], n => n == 0
  | w :: ws, 0 => !breaksBody w.toNat && bodyOk ws (extensions w.toNat)
  | _ :: ws, n + 1 => bodyOk ws n

/-- The words a group would fetch from an address on. -/
def Core.wordsFrom (k : Core) (gkey a : Nat) : Nat → Option (List Word)
  | 0 => some []
  | n + 1 =>
    match k.fetchFor gkey a with
    | .word w => (k.wordsFrom gkey (a + 4) n).map (w :: ·)
    | _ => none

/-- A taken branch loads its body into the seat's buffer when it may. -/
def Core.capture (k : Core) (gkey branch target : Nat) : Core :=
  if target ≤ branch && branch - target ≤ 63 * 4 then
    match k.wordsFrom gkey target ((branch - target) / 4 + 1) with
    | some ws =>
      if bodyOk ws 0 then k.modSeat (seatOf gkey) fun x => { x with loop := some ⟨gkey, target, ws, false⟩ } else k
    | none => k
  else k

/-- The buffer as an issue of a group at an address finds it: another holder, an address outside the body, and a covering
CINV.sync release it. -/
def Seat.atIssue (x : Seat) (gkey a : Nat) : Seat :=
  match x.loop with
  | none => x
  | some b =>
    if b.gkey == gkey && !b.drop && b.base ≤ a && a < b.base + 4 * b.words.length then x else { x with loop := none }

end Sys2Proof.Machine
end

