-- ==== Sys2Proof/Machine/Cells.lean ====
section
/-! DEFINITION. Deferred cells (R222-R232): the state machine of a cell, chains and the cell table, the trigger, waking and
failing a cell. -/

namespace Sys2Proof.Machine

def tagValue : BitVec 2 := 0
def tagSuspended : BitVec 2 := 1
def tagEvaluating : BitVec 2 := 2
def tagFailed : BitVec 2 := 3

/-- First byte of the cell an address lies in. -/
def cellOf (pa : Nat) : Nat := pa / 32 * 32

/-- The evaluation of a cell, in the home directory of its die (R226). -/
def State.evaluation (s : State) (pa : Nat) : Option CellEntry :=
  (s.die (homeDie pa)).cells.find? fun e => e.pa == cellOf pa

def State.modEvaluation (s : State) (pa : Nat) (f : CellEntry → CellEntry) : State :=
  s.modDie (homeDie pa) fun d => { d with cells := d.cells.map fun e => if e.pa = cellOf pa then f e else e }

/-- A chain by its id: origin die and index (R226). -/
def State.chain (s : State) (c : Nat) : Option Chain := tget (s.die (c / 512)).chains (c % 512)

def State.modChain (s : State) (c : Nat) (f : Chain → Chain) : State :=
  s.modDie (c / 512) fun d => { d with chains := tmod d.chains (c % 512) f }

/-- The chain of a group's team, none outside evaluators: a team whose evaluation has ended is no evaluator any more (log
entry 27). -/
def State.chainOf (s : State) (g : Group) : Option Nat :=
  (tget s.teams g.tid).bind fun t =>
    match t.kind with
    | .evaluator pa => ((s.evaluation pa).filter fun e => e.team == some g.tid).bind fun _ => t.chain
    | _ => none

/-- The priority a waiting team gives: that of its node, or for an evaluator that of its cell (R227). -/
def State.teamPrio (s : State) (tid : Nat) : Nat :=
  match tget s.teams tid with
  | none => 0
  | some t =>
    match t.kind with
    | .evaluator pa => ((s.evaluation pa).map (·.prio)).getD t.prio
    | _ => t.desc.prio

/-- Detail of the chain traps: A in bits 43:32, B in bits 11:0 (R322). -/
def chainDetail (a b : Nat) : DWord := BitVec.ofNat 64 (a * 2 ^ 32 + b)

/-! ### Priority (R227) -/

/-- The effective priority of an entry at a stroke (R283). -/
def PoolEntry.effective (e : PoolEntry) (stroke : DWord) : Nat := min 7 (e.prio + (stroke - e.since).toNat / 16384)

/-- The entry at a stroke, with the stroke at which its e reached 7. -/
def PoolEntry.age (stroke : DWord) (e : PoolEntry) : PoolEntry :=
  let v := e.effective stroke
  { e with
    e := v
    at7 := if v ≥ 7 && e.at7.isNone then some (e.since + w64 (16384 * (7 - e.prio))) else e.at7 }

/-- The base priority of an entry rises at a stroke (R227). -/
def PoolEntry.raise (stroke : DWord) (p : Nat) (e : PoolEntry) : PoolEntry :=
  let x := { e.age stroke with prio := max e.prio p }
  let v := x.effective stroke
  { x with e := v, at7 := if v ≥ 7 && x.at7.isNone then some stroke else x.at7 }

/-- A pool entry holds the evaluator of a cell: not yet placed, vacated, or between two phases (R227, R334). -/
def PoolItem.evaluates (pa : Nat) (team : Option Nat) : PoolItem → Bool
  | .evaluator q _ _ _ _ _ => q == pa
  | .vacated _ kept => kept.any fun k => some k.tid == team
  | .phase _ teams => teams.any fun t => t.kind == .evaluator pa
  | _ => false

/-- A cell's priority rises to p, wherever its evaluator waits to be placed, and with it that of the cell its evaluator
waits on. -/
def State.raisePrio (s : State) (pa p : Nat) : Nat → State
  | 0 => s
  | n + 1 =>
    match s.evaluation pa with
    | none => s
    | some e =>
      if e.hold || p ≤ e.prio then s
      else
        let s := s.modEvaluation pa fun e => { e with prio := p }
        let s := { s with dies := Vector.ofFn fun i =>
          { s.dies[i] with
            evals := s.dies[i].evals.map fun r => if r.pa = e.pa then { r with prio := max r.prio p } else r
            pool := s.dies[i].pool.map fun x =>
              if x.item.evaluates e.pa e.team then x.raise s.stroke p else x
            slip := s.dies[i].slip.map fun y => match y with
              | .pool x => .pool (if x.item.evaluates e.pa e.team then { x with prio := max x.prio p } else x)
              | .record q r => .record q r
            moved := s.dies[i].moved.map fun x => if x.1.evaluates e.pa e.team then (x.1, max x.2 p) else x } }
        match e.team with
        | none => s
        | some t =>
          let s := s.modTeam t fun t => { t with prio := max t.prio p }
          let held := s.dies.toList.flatMap fun d => d.cells.filterMap fun x =>
            if x.waiters.any (fun w => w.peer.isNone && ((tget s.groups w.gkey).map (·.tid)) == some t) then some x.pa
            else none
          held.foldl (fun s q => s.raisePrio q p n) s

/-! ### Ending an evaluation (R226, R228, R230) -/

/-- An evaluation leaves the table; its chain loses a nesting level, and ends with the last. -/
def State.freeEvaluation (s : State) (e : CellEntry) : State :=
  let s := s.modDie (homeDie e.pa) fun d => { d with cells := d.cells.filter fun x => x.pa != e.pa }
  match s.chain e.chain with
  | none => s
  | some c =>
    if c.live ≤ 1 then s.modDie (e.chain / 512) fun d => { d with chains := terase d.chains (e.chain % 512) }
    else s.modChain e.chain fun c => { c with live := c.live - 1 }

/-- The wait of a group on a cell ends: a chain's link that this wait set is cleared (R229), its evaluation ended or not. -/
def State.unlink (s : State) (gkey pa : Nat) : State :=
  if s.dies.any fun d => d.chains.any fun x => x.2.wait == some (gkey, pa) then
    { s with dies := Vector.ofFn fun i => { s.dies[i] with
        chains := s.dies[i].chains.map fun x =>
          if x.2.wait = some (gkey, pa) then (x.1, { x.2 with link := none, wait := none }) else x } }
  else s

/-- The lanes of a mask that are parked on a cell become active again. -/
def Group.wakeCell (g : Group) (pa : Nat) (m : Mask) : Group :=
  g.mapLanes m fun l => if l.state = .parked (.cell pa) then { l with state := .active } else l

/-- Posted atomics of lanes that wait on a cell are to be performed again (R239). -/
def Core.wakePosted (k : Core) (w : Waiter) (pa : Nat) : Core :=
  { k with posted := k.posted.map fun x =>
      if x.gkey = w.gkey ∧ w.lanes.getLsbD x.pos ∧ x.wait = some (.cell pa) then { x with wait := none } else x }

/-- Lanes of a waiter's record go on: parked there no more, their chain's link cleared. -/
def State.wakeWaiter (s : State) (pa : Nat) (w : Waiter) : State :=
  let s := (s.unlink w.gkey pa).modGroup w.gkey (·.wakeCell pa w.lanes)
  if w.posted then s.modCore (postCore w.gkey) (·.wakePosted w pa) else s

/-- Every waiter of a cell replays its access, before anything else and in order of arrival (R228). -/
def State.wakeWaiters (s : State) (e : CellEntry) : State :=
  let s := (e.waiters.filter (·.peer.isNone)).foldl (fun s w => s.wakeWaiter e.pa w) s
  { s with agenda := e.waiters.map Turn.replay ++ s.agenda }

/-- An answer to a peer's request leaves over Wotis (R360, R363). -/
def State.answer (s : State) (dev : Nat) (r : PeerReq) : State :=
  s.sendFlit 4 dev { r with major := 0 }

/-- The answer that a peer's access failed: its funct is the cause by which the requesting lane traps (log entry 18). -/
def refusedReq (r : PeerReq) (cause : Nat) : PeerReq := { r with failed := true, data := [], funct := cause }

/-- The lanes that the report of a trap raised outside an issue shows: all, where the unit at an address is uniform (R323). -/
def State.shownAt (s : State) (gkey : Nat) (unit : DWord) (m : Mask) : Mask :=
  let word := fun (a : DWord) => match (s.core (coreOf gkey)).fetchFor gkey a.toNat with | .word w => w | _ => 0
  let past := fun (a : DWord) (major : Nat) => if bits (word a).toNat 31 25 = major then a + 4 else a
  if (word (past (past unit 0x5C) 0x5D)).getLsbD 31 then 0xFFFFFFFF#32 else m

/-- Posted atomics of a group trap: those of the first one's unit together. While the group is stopped, and for the other
units, the trap is kept with the atomic and raised when the group runs again (R239, R323; log entry 40). -/
def State.postedTraps (s : State) (gkey : Nat) (xs : List Posted) (cause : Nat) (d1 : Posted → DWord) (d2 : DWord) : State :=
  match tget s.groups gkey, xs with
  | some g, x :: _ =>
    let now := if g.stop.isSome then [] else xs.filter fun y => y.unit == x.unit
    let late := fun (y : Posted) => xs.contains y && !now.contains y
    let s := s.modCore (postCore gkey) fun k => { k with
      posted := (k.posted.filter fun y => !now.contains y).map fun y =>
        if late y then { y with wait := none, trap := some (cause, d1 y, d2, 1#32 <<< y.pos) } else y }
    let m := maskOf (now.map (·.pos))
    if now.isEmpty then s else s.trapGroup gkey x.unit m m cause (d1 x) d2
  | _, _ => s

/-- First byte of the cell that a posted atomic addresses, as it named it. -/
def Posted.cell (x : Posted) : DWord := BitVec.ofNat 64 (x.va / 32 * 32)

/-- A waiter of a failed cell traps at its access (R230), with the virtual address of the cell (R322); the lanes of a group that
is stopped find the failed cell when they replay. A peer is answered that its access failed. -/
def State.failWaiter (s : State) (pa : Nat) (w : Waiter) : State :=
  match w.peer with
  | some (dev, r) => s.answer dev (refusedReq r 0x1E)
  | none =>
    match tget s.groups w.gkey with
    | none => s
    | some g =>
      let parked := w.lanes &&& g.where fun l => l.state = .parked (.cell pa)
      let mine := (s.core (postCore w.gkey)).posted.filter fun x =>
        w.posted && x.gkey == w.gkey && w.lanes.getLsbD x.pos && x.wait == some (.cell pa)
      let s := (s.unlink w.gkey pa).modGroup w.gkey (·.wakeCell pa w.lanes)
      if w.posted then s.postedTraps w.gkey mine 0x1E Posted.cell 0
      else
        match positions parked with
        | p :: _ =>
          let unit := (g.lane p).vpc
          let m := parked &&& g.where fun l => l.vpc == unit
          s.trapGroup w.gkey unit m (s.shownAt w.gkey unit m) 0x1E (BitVec.ofNat 64 w.va) 0
        | [] => s

/-- A cell fails (R230): tag FAILED, bytes as they stand, entry and nesting level freed, waiters trap, peers are answered,
and with notify an event is raised. -/
def State.failCell (s : State) (pa : Nat) (notify : Bool) (chain : Nat) : State :=
  let e := s.evaluation pa
  let s := s.setTag pa tagFailed
  let s := match e with
    | none => s
    | some e =>
      e.waiters.foldl (fun s w => s.failWaiter e.pa w) (s.freeEvaluation e)
  if notify then
    s.raiseEvent (homeDie pa) { Event.plain 3 with addr := BitVec.ofNat 64 (cellOf pa), aux := BitVec.ofNat 64 chain }
  else s

/-! ### The checks of a later trigger (R229) -/

/-- Following the links from B: the trap's cause, or none. -/
def State.followLinks (s : State) (a c depth : Nat) : Nat → Option Nat
  | 0 => none
  | n + 1 =>
    match (s.chain c).bind (·.link) with
    | none => none
    | some l => if l = a then some 0x21 else if depth + 1 > 8 then some 0x22 else s.followLinks a l (depth + 1) n

/-- The cause by which a trigger of chain a on a cell under chain b traps. -/
def State.waitCheck (s : State) (a : Option Nat) (b : Nat) : Option Nat :=
  match a with
  | none => none
  | some a => if a = b then some 0x20 else s.followLinks a b 1 9

/-- The waits of a group that are over: lanes of its waiter records and of its parked starts that are parked there no more leave
them (R328, R337). -/
def State.endWaits (s : State) (gkey : Nat) : State :=
  let parked := fun (pa : Nat) =>
    match tget s.groups gkey with
    | some g => g.where fun l => l.state = .parked (.cell pa)
    | none => 0
  let left := fun (e : CellEntry) (w : Waiter) =>
    if w.peer.isSome || w.posted || w.gkey != gkey then some w
    else if w.lanes &&& parked e.pa = 0 then none else some { w with lanes := w.lanes &&& parked e.pa }
  let ended := s.dies.toList.flatMap fun d => d.cells.filterMap fun e =>
    if e.waiters.any (fun w => w.peer.isNone && w.gkey == gkey) &&
      !(e.waiters.filterMap (left e)).any (fun w => w.peer.isNone && w.gkey == gkey) then some e.pa else none
  let starting := fun (x : Starter) =>
    if x.peer.isSome || x.posted || x.gkey != gkey then some x
    else
      let m := x.mask &&& match tget s.groups gkey with
        | some g => g.where fun l => l.state = .parked (.starter x.pa)
        | none => 0
      if m = 0 then none else some { x with mask := m }
  let s := { s with dies := Vector.ofFn fun i =>
    { s.dies[i] with
      cells := s.dies[i].cells.map fun e => { e with waiters := e.waiters.filterMap (left e) }
      starters := s.dies[i].starters.filterMap starting } }
  ended.foldl (fun s pa => s.unlink gkey pa) s

/-! ### The trigger (R224-R226) -/

/-- What a trigger comes to: the access may proceed, the lanes park, a fault on the template's page, an uncorrectable error in
the record or the template (R336), or a trap; a trap may leave the cell failed (R223, R230). -/
inductive Trig where
  | go
  | parked (w : ParkWhy)
  | fault (x : DieStop)
  | bad (line : Nat)
  | trap (cause : Nat) (d2 : DWord)
  | failed (notify : Bool)

/-- Indices of a die with no live chain. -/
def Die.freeChains (d : Die) : List Nat := (List.range 512).filter fun i => (tget d.chains i).isNone

/-- Entries of the cell table held by chains of other dies. -/
def Die.foreignEntries (die : Nat) (d : Die) : Nat := (d.cells.filter fun e => e.chain / 512 != die).length

/-- A free entry for a chain in a die's cell table, 8 kept for every live chain of the die's own (R226). -/
def State.entryFree (s : State) (home chain : Nat) : Bool :=
  let d := s.die home
  if chain / 512 = home then d.cells.length < 4096
  else d.foreignEntries home + 8 * d.chains.length < 4096

/-- A new chain on a die, if there is one whose 8 entries can be reserved beside the entries foreign chains hold (R226). -/
def State.newChain (s : State) (die : Nat) : Option (Nat × State) :=
  match (s.die die).freeChains with
  | [] => none
  | c :: cs =>
    if 4096 < (s.die die).foreignEntries die + 8 * ((s.die die).chains.length + 1) then none
    else
      let (i, s) := s.choose (cs.length + 1)
      some (512 * die + ((c :: cs)[i]?.getD c), s)

/-- The die a hint places the evaluator on (R227): with ANY one of the home die's partition (R369). -/
def State.hintDie (s : State) (hint home starter : Nat) : Nat × State :=
  match hint with
  | 0 => (home, s)
  | 1 => (starter, s)
  | _ =>
    let ds := (List.range 8).filter fun d => !s.partitioned || (s.die d).owner == (s.die home).owner
    let (i, s) := s.choose ds.length
    (ds[i]?.getD home, s)

/-- The die of a group that triggers; of a team in a context record, the die that takes it up again (R334). -/
def State.groupDie (s : State) (gkey : Nat) : Nat :=
  if coreOf gkey < noCore then dieOf (coreOf gkey)
  else (((tget s.groups gkey).bind fun g => tget s.teams g.tid).map (·.die)).getD 0

/-- The starter's evaluation begins (R225-R227): EVALUATING, an entry with its first waiter, the evaluator requested. -/
def State.beginEvaluation (s : State) (pa chain starter prio : Nat) (r : CellRec) (d : NodeDesc) (first : Waiter) : State :=
  let home := homeDie pa
  let p := if r.hold then r.prio else max r.prio prio
  let s := s.setTag pa tagEvaluating
  let s := s.modDie (chain / 512) fun x =>
    let c := match tget x.chains (chain % 512) with | some c => { c with live := c.live + 1 } | none => ⟨1, none, none⟩
    { x with chains := tset x.chains (chain % 512) c }
  let s := s.modDie home fun x =>
    { x with cells := x.cells ++ [⟨cellOf pa, chain, none, r.rsize, r.notify, r.hold, p, [first]⟩] }
  let (die, s) := s.hintDie r.hint home starter
  s.modDie die fun x => { x with evals := x.evals ++ [⟨cellOf pa, d, p, BitVec.ofNat 64 r.cellva, BitVec.ofNat 64 r.args,
    BitVec.ofNat 64 chain, BitVec.ofNat 64 r.rsize⟩] }

/-- The starter at a SUSPENDED cell: the record and the template are read, then a chain and an entry are taken. -/
def State.startCell (s : State) (pa starter : Nat) (chain : Option Nat) (prio : Nat) (first : Waiter) : Trig × State :=
  let n := s.num (cellOf pa) 32
  let r := CellRec.parse n
  if let some line := s.badLine (cellOf pa) 32 then (.bad line, s)
  else if !cellRecOk n then (.failed r.notify, s)
  else
    match s.readNode starter r.asid r.tmpl .cell with
    | .error x => match s.badAt starter x .cell with
      | some line => (.bad line, s)
      | none => (.fault x, s)
    | .ok (t, d, frameOk, s) =>
      if (nodeCause t d frameOk false true).isSome || !(d.gx == 1 && d.gy == 1 && d.gz == 1 && d.cw == 1 && d.ch == 1) then
        (.failed r.notify, s)
      else
        match chain with
        | some c =>
          if ((s.chain c).map (·.live)).getD 0 ≥ 8 then (.trap 0x22 (chainDetail c c), s)
          else if s.entryFree (homeDie pa) c then
            (.parked (.cell (cellOf pa)), s.beginEvaluation pa c starter prio r d first)
          else (.parked (.starter (cellOf pa)), s)
        | none =>
          match s.newChain starter with
          | none => (.parked (.starter (cellOf pa)), s)
          | some (c, s') =>
            if s.entryFree (homeDie pa) c then
              (.parked (.cell (cellOf pa)), s'.beginEvaluation pa c starter prio r d first)
            else (.parked (.starter (cellOf pa)), s)

/-- A lane access of a group that reaches the home of a cell (R224, R225); w names the lanes that trigger. -/
def State.trigger (s : State) (g : Group) (w : Waiter) (pa : Nat) : Trig × State :=
  let t := s.tag pa
  if t = tagValue then (.go, s)
  else if t = tagFailed then (.trap 0x1E 0, s)
  else if t = tagSuspended then
    match s.startCell pa (s.groupDie w.gkey) (s.chainOf g) (s.teamPrio g.tid) w with
    | (.parked (.starter q), s) =>
      (.parked (.starter q), s.modDie (homeDie pa) fun d => { d with starters := d.starters ++ [⟨q, w.gkey, w.lanes, w.posted, none, none⟩] })
    | r => r
  else
    match s.evaluation pa with
    | none => (.parked (.cell (cellOf pa)), s)
    | some e =>
      match s.waitCheck (s.chainOf g) e.chain with
      | some cause => (.trap cause (chainDetail ((s.chainOf g).getD 0) e.chain), s)
      | none =>
        let s := match s.chainOf g with
          | none => s
          | some a => s.modChain a fun c => { c with link := some e.chain, wait := some (w.gkey, cellOf pa) }
        let s := s.modEvaluation pa fun e => { e with waiters := e.waiters ++ [w] }
        (.parked (.cell (cellOf pa)), s.raisePrio pa (s.teamPrio g.tid) 64)

/-- The group's team evaluates the cell. -/
def State.evaluates (s : State) (g : Group) (pa : Nat) : Bool :=
  match s.evaluation pa with
  | some e => e.team = some g.tid
  | none => false

/-- What a store does to a cell not in VALUE (R225, R231): full says that it covers all 32 bytes. Answer: the cause of
the trap, or the tag the cell then has. -/
def State.storeCell (s : State) (g : Option Group) (pa : Nat) (full : Bool) : Except Nat (BitVec 2) :=
  let t := s.tag pa
  if t = tagValue then .ok tagValue
  else if t = tagEvaluating then
    match g with
    | some g => if s.evaluates g pa then .ok tagEvaluating else .error 0x1D
    | none => .error 0x1D
  else if full then .ok tagValue
  else .error 0x1C

end Sys2Proof.Machine
end

