-- ==== Sys2Proof/Machine/Units.lean ====
section
/-! DEFINITION. The frame in which every unit runs: how it settles, the units of lane work and of uniform work, guards,
and the close of regions (R10, R46, R47, R141, R323, R327, R341). -/

namespace Sys2Proof.Machine

/-! ### The frame of a unit -/

/-- A unit's outcome: its next state; nothing but its withdrawal from issue while a resource holds it back (R139); the trap
taken; or a code-not-landed trap served by auto-land (R325). -/
def settle (s : State) (c : Issue) : Res → Out
  | .ok s' => .next s'
  | .error .hold => .next { s with cur := none }
  | .error (.cellFail pa notify chain d1 m) => .next ((s.failCell pa notify chain).takeTrap c 0x1E d1 0 (m.getD c.lanes))
  | .error (.bankError kind la m) => .next ((s.bankError c kind la m).stopAt c 0x30 la (BitVec.ofNat 64 kind) m)
  | .error (.trap cause d1 d2 m) =>
    match if cause = 0x08 then s.autoLand c d1 else none with
    | some s' => .next s'
    | none => .next (s.takeTrap c cause d1 d2 (m.getD c.lanes))

/-- A unit that only a group can run; on the cox it raises the illegal-instruction cause (R341). -/
def groupUnit (s : State) (body : Issue → Group → Res) : Out :=
  match s.cur with
  | none => .fault .noIssue
  | some c =>
    if c.cox then .next (s.takeTrap c 0x01 0 0)
    else
      match tget s.groups c.gkey with
      | none => .fault .noIssue
      | some g => settle s c (body c g)

/-- A unit of lane work without traps: f for the lanes whose guard is true, then every lane of the set moves on. -/
def lanesUnit (gd : Nat) (f : Group → Lane → Lane) (s : State) : Out :=
  groupUnit s fun c g =>
    .ok (s.setGroup c.gkey (g.mapLanes c.lanes fun l => c.advance (if c.holds gd l then f g l else l)))

/-- The cox moves past an issue of its unit. -/
def Cox.advance (c : Issue) (x : Cox) : Cox :=
  if c.idx + 1 < c.count then { x with rep := c.idx + 1, repN := c.count } else { x with pc := c.next, rep := 0 }

/-- A uniform unit over the registers of a group or of the cox (R341), without traps. -/
def uniformUnit (k : Nat) (f : UFile → UFile) (s : State) : Out :=
  match s.cur with
  | none => .fault .noIssue
  | some c =>
    if c.cox then
      .next (s.modCore c.core fun n =>
        { n with cox := Cox.advance c { n.cox with u := if c.kholds k n.cox.u then f n.cox.u else n.cox.u } })
    else
      match tget s.groups c.gkey with
      | none => .fault .noIssue
      | some g =>
        .next (s.setGroup c.gkey
          { g.mapLanes c.lanes c.advance with u := if c.kholds k g.u then f g.u else g.u })

/-- A uniform unit of a group with its own effect; when its guard is false the lanes only move on (R47). -/
def guardedUnit (k : Nat) (s : State) (body : Issue → Group → Res) : Out :=
  groupUnit s fun c g =>
    if c.kholds k g.u then body c g else .ok (s.setGroup c.gkey (g.mapLanes c.lanes c.advance))

/-- The same for a unit that closes the region (R327): it closes it whatever its guard. -/
def closingUnit (k : Nat) (s : State) (body : Issue → Group → Res) : Out :=
  groupUnit s fun c g =>
    match if c.kholds k g.u then body c g else .ok (s.setGroup c.gkey (g.mapLanes c.lanes c.advance)) with
    | .ok s' => .ok (s'.modGroup c.gkey (Group.close c))
    | .error h => .error h

/-- A closing unit of lane work under a lane guard. -/
def closingLanes (s : State) (body : Issue → Group → Res) : Out :=
  groupUnit s fun c g =>
    match body c g with
    | .ok s' => .ok (s'.modGroup c.gkey (Group.close c))
    | .error h => .error h

/-- The lanes of the issuing set move on. -/
def State.advance (s : State) (c : Issue) : State := s.modGroup c.gkey fun g => g.mapLanes c.lanes c.advance

/-- The lanes of the issuing set whose guard is true. -/
def Issue.taking (c : Issue) (gd : Nat) (g : Group) : Mask := c.lanes &&& g.where (c.holds gd)

/-- The elected lane (R142): the lowest logical lane of a mask. -/
def Group.elected (g : Group) (m : Mask) : Option Nat := (g.order m).head?

/-- A fold that stops at a trap. -/
def eachRes {α : Type} (f : α → State → Res) : List α → State → Res
  | [], s => .ok s
  | x :: xs, s =>
    match f x s with
    | .ok s' => eachRes f xs s'
    | .error h => .error h

end Sys2Proof.Machine
end

