-- ==== Sys2Proof/Machine/Access.lean ====
section
/-! DEFINITION. Accesses of lanes and uniform units: addresses and their checks (R99, R234), L1 (R193, R195), loads,
stores and atomics of global memory (R100-R103, R202, R224, R225, R237-R242, R363), local spaces (R187-R189, R233-R236),
acquires and releases (R195, R215, R236, R239). -/

namespace Sys2Proof.Machine

/-! ### Addresses -/

/-- The first address that fails the checks of R99. -/
def badAddress (size : Nat) : List DWord → Option Halt
  | [] => none
  | a :: as =>
    if a >>> 54 != 0 then some (.trap 0x16 a 0)
    else if a.toNat % size != 0 then some (.trap 0x17 a (BitVec.ofNat 64 size))
    else badAddress size as

/-- The check of R99 over lanes: the first failure traps, raised by every lane that fails with its cause. -/
def badLanes (size : Nat) (xs : List (Nat × DWord)) : Option Halt :=
  match badAddress size (xs.map Prod.snd) with
  | some (.trap cause d1 d2 _) =>
    let same := xs.filter fun x => match badAddress size [x.2] with | some (.trap k _ _ _) => k == cause | _ => false
    some (.trap cause d1 d2 (some (maskOf (same.map Prod.fst))))
  | h => h

/-- The effective address of R99. -/
def effective (gbase : DWord) (a index : Word) (size : Nat) : DWord :=
  gbase + a.setWidth 64 + index.signExtend 64 * BitVec.ofNat 64 size

/-- Positions whose address meets the same granule as one address. -/
def sameGranule (size : Nat) (xs : List (Nat × DWord)) (a : DWord) : Mask :=
  maskOf ((xs.filter fun x => x.2.toNat / size == a.toNat / size).map Prod.fst)

/-! ### L1 (R193, R195) -/

/-- The group's load may use the core's copy of a line: it entered after the group's last acquire. -/
def Core.hit (k : Core) (acq line : Nat) : Bool :=
  match tget k.l1 line with
  | some t => acq ≤ t
  | none => false

/-- Lines L1 has room for: L banks of 16 KiB (R193). -/
def Core.l1Room (k : Core) : Nat :=
  match k.menu with
  | some e => 128 * (menuBanks e).1
  | none => 0

/-- The line that entered first. -/
def oldestLine : Tab Nat → Option (Nat × Nat)
  | [] => none
  | (l, t) :: xs =>
    match oldestLine xs with
    | some (m, u) => if u < t then some (m, u) else some (l, t)
    | none => some (l, t)

def Core.dropLine (k : Core) (line : Nat) : Core :=
  { k with
    l1 := terase k.l1 line
    stale := k.stale.filter fun x => lineOf x.1 != line
    hostStale := k.hostStale.filter fun x => lineOf x.1 != line }

/-- A line enters L1 with the bytes of its home; a full L1 gives up its oldest line. -/
def Core.fillLine (k : Core) (line : Nat) : Core :=
  if k.l1Room = 0 then k
  else
    let k := k.dropLine line
    let k := { k with l1 := tset k.l1 line k.l1Time }
    if k.l1.length ≤ k.l1Room then k
    else match oldestLine k.l1 with
      | some (l, _) => k.dropLine l
      | none => k

/-- Some byte of a range is older in the core's copy than at home. -/
def Core.isStale (k : Core) (a n : Nat) : Bool := (List.range n).any fun i => (tget k.stale (a + i)).isSome

/-- Bytes as the core's copy has them. -/
def State.staleBytes (s : State) (k : Core) (a : Nat) : Nat → List Byte
  | 0 => []
  | n + 1 => ((tget k.stale a).getD (s.byte a)) :: s.staleBytes k (a + 1) n

/-- A read at home leaves no older copy of those bytes in the reading core (R210), nor of the aligned 8 bytes around them,
which are read whole (R102). -/
def State.refresh (s : State) (core a n : Nat) : State :=
  let s := s.metHost a n
  if (s.core core).isStale (a / 8 * 8) ((a + n + 7) / 8 * 8 - a / 8 * 8) then
    s.modCore core fun k => { k with stale := k.stale.filter fun x => x.1 / 8 < a / 8 || (a + n - 1) / 8 < x.1 / 8 }
  else s

/-- A group has what another has acquired (R209, R210). -/
def Group.learn (g h : Group) : Group := { g with acq := max g.acq h.acq, sysAcq := max g.sysAcq h.sysAcq }

/-- An acquire of a group (R195): from .clus up its later loads miss every line now in L1, and at .sys also what was written
from outside (R221, log entry 6); at .team it has what its team has acquired (R210). -/
def State.acquire (s : State) (gkey scope : Nat) : State :=
  if scope ≥ 2 then
    let t := (s.core (coreOf gkey)).l1Time + 1
    let s := if scope = 5 then s.forgetHost else s
    (s.modCore (coreOf gkey) fun k => { k with l1Time := t }).modGroup gkey fun g =>
      { g with acq := t, sysAcq := if scope = 5 then t else g.sysAcq }
  else if scope = 1 then
    s.modGroup gkey fun g =>
      (s.groups.filter fun x => x.2.tid == g.tid).foldl (fun g x => g.learn x.2) g
  else s

/-! ### Peers (R362, R363) -/

def PeerReq.write (pa : Nat) (bs : List Byte) : PeerReq := ⟨0, pa, bs.length, bs, 0x21, 0, 0, 0, false⟩
def PeerReq.atomic (pa n major funct : Nat) (b swap : DWord) : PeerReq := ⟨0, pa, n, [], major, funct, b, swap, false⟩

/-- Whose access a lane makes: its own, or that of a whole issuing set, which a report shows as all lanes (R323). -/
def whose (gkey p : Nat) : Option Mask → List (Nat × Nat) × Mask
  | none => ([(gkey, p)], 1#32 <<< p)
  | some m => ((positions m).map fun q => (gkey, q), 0xFFFFFFFF#32)

/-- An access of a lane to a peer meets bytes that a command has still to write there, unless the peer has answered it. -/
def State.peerOwns (s : State) (g : Group) (p dev pa n : Nat) : Bool :=
  (g.lane p).reply.isNone && s.ownsPlace (s.asidOf g) (.peer dev pa) n

/-- A lane's access to a peer, for itself or for an issuing set: the answer if it has arrived, else the request is sent and the
lane parks (R362, R363). -/
def State.askPeer (s : State) (gkey : Nat) (g : Group) (p va dev : Nat) (k : Acc) (r : PeerReq) (set : Option Mask)
    (mask : Mask) :
    Option (List Byte) × State :=
  match (g.lane p).reply with
  | some bs => (some bs, s.modLane gkey p fun l => { l with reply := none })
  | none =>
    if s.routeOk dev then
      let (tag, s) := s.requestOf (gkey, p, none) (whose gkey p set) dev va r
      (none, s.park gkey p (.reply tag))
    else (none, s.peerFault gkey g p va dev k mask)

/-! ### Cells met by a lane -/

/-- The running lanes of a mask park for one reason. -/
def State.parkRunning (s : State) (gkey : Nat) (m : Mask) (w : ParkWhy) : State :=
  s.modGroup gkey fun g => g.mapLanes (m &&& g.where Lane.runnable) fun l => { l with state := .parked w }

/-- The lanes of a mask park for one reason. -/
def State.parkAll (s : State) (gkey : Nat) (m : Mask) (w : ParkWhy) : State :=
  s.modGroup gkey fun g => g.mapLanes m fun l => { l with state := .parked w }

/-! ### Atomic operations (R240-R242) -/

def signed (w x : Nat) : Int := if x < 2 ^ (w - 1) then x else (x : Int) - 2 ^ w

/-- Operations of the atomics. -/
inductive AtomOp where
  | add | minI | maxI | and | or | xor | exch | cas | incb | decb | fadd | fmin | fmax | minN | maxN
deriving DecidableEq, Repr

/-- The new value of a word of w bits, none where it is left unchanged. -/
def atomicValue (w : Nat) (op : AtomOp) (old b swap : Nat) : Option Nat :=
  match op with
  | .add => some ((old + b) % 2 ^ w)
  | .minI => some (if signed w b < signed w old then b else old)
  | .maxI => some (if signed w old < signed w b then b else old)
  | .and => some (old &&& b)
  | .or => some (old ||| b)
  | .xor => some (old ^^^ b)
  | .exch => some b
  | .cas => if old = b then some swap else none
  | .incb => if old < b then some (old + 1) else none
  | .decb => if b < old then some (old - 1) else none
  | .fadd => some (fp32.rne (FVal.add (fp32.value old) (fp32.value b)))
  | .fmin => some (fp32.minMax false old b)
  | .fmax => some (fp32.minMax true old b)
  | .minN => some (min old b)
  | .maxN => some (max old b)

/-- The operation of an atomic major and funct (R75). -/
def atomicName : Nat → Nat → AtomOp
  | 0x2A, 0 => .incb | 0x2A, 1 => .decb | 0x2A, 2 => .fadd | 0x2A, 3 => .fmin | 0x2A, 4 => .fmax
  | 0x2A, 5 => .minN | 0x2A, _ => .maxN
  | 0x2B, 0 => .add | 0x2B, 1 => .minI | 0x2B, 2 => .maxI | 0x2B, 3 => .and | 0x2B, 4 => .or
  | 0x2B, 5 => .exch | 0x2B, 6 => .cas | 0x2B, _ => .incb
  | _, 0 => .add | _, 1 => .minI | _, 2 => .maxI | _, 3 => .and | _, 4 => .or | _, 5 => .xor
  | _, 6 => .exch | _, _ => .cas

/-- Bytes of the word of an atomic major. -/
def atomicBytes (major : Nat) : Nat := if major = 0x29 then 8 else 4

/-- The RMW at a physical address (R211): the old value, and the state after it. -/
def State.rmw (s : State) (own : Option Nat) (pa major funct : Nat) (b swap : DWord) : Nat × State :=
  let n := atomicBytes major
  let old := s.num pa n
  match atomicValue (8 * n) (atomicName major funct) old (b.toNat % 2 ^ (8 * n)) (swap.toNat % 2 ^ (8 * n)) with
  | some v => (old, s.store own pa (leBytes n v))
  | none => (old, s)

/-- An RMW that the host or a peer makes at a physical address (R211, R221). -/
def State.hostAtomic (s : State) (pa major funct : Nat) (b swap : DWord) : Nat × State :=
  let n := atomicBytes major
  let old := s.num pa n
  match atomicValue (8 * n) (atomicName major funct) old (b.toNat % 2 ^ (8 * n)) (swap.toNat % 2 ^ (8 * n)) with
  | some v => (old, s.hostStore pa (leBytes n v))
  | none => (old, s)

/-- A CAS whose compare failed demotes its lane (R147, R240). -/
def casFailed (major funct old : Nat) (b : DWord) : Bool :=
  atomicName major funct == .cas && old != b.toNat % 2 ^ (8 * atomicBytes major)

/-! ### Demotion (R147) -/

/-- Lanes become demoted by a unit of an issuing set: each records the group's other runnable lanes, but for those that the same
unit demotes (log entry 26). -/
def Group.demote (g : Group) (set m : Mask) : Group :=
  let run := g.where Lane.runnable
  let same := m &&& run ||| set &&& g.where fun l => l.state == .demoted
  { g with lanes := Vector.ofFn fun i =>
      if m.getLsbD i && (g.lanes[i]).runnable then { g.lanes[i] with state := .demoted, dem := run &&& ~~~same }
      else if same.getLsbD i then { g.lanes[i] with dem := (g.lanes[i]).dem &&& ~~~same }
      else g.lanes[i] }

/-! ### Posted far atomics (R239) -/

/-- The posted atomics of lanes of a group. -/
def Posted.of (gkey : Nat) (m : Mask) (x : Posted) : Bool := x.gkey == gkey && m.getLsbD x.pos

def State.postedWaits (s : State) (x : Posted) (w : ParkWhy) : State :=
  s.modCore (postCore x.gkey) fun k => { k with posted := k.posted.replace x { x with wait := some w } }

def State.dropPosted (s : State) (x : Posted) : State :=
  s.modCore (postCore x.gkey) fun k => { k with posted := k.posted.erase x }

/-- The event of a template's read that stopped (R223). -/
def cellEvent (s : State) (gkey : Nat) (m : Mask) : Event := (Event.plain 1).ofGroup s gkey m

/-- A posted atomic alone is tried: performed, sent to a peer, or left to wait for a page, a route or a cell. -/
def State.performOne (s : State) (x : Posted) : Except Halt State :=
  match tget s.groups x.gkey with
  | none => .ok s
  | some g =>
    let core := coreOf x.gkey
    let n := atomicBytes x.major
    let m := 1#32 <<< x.pos
    let page := x.va / 65536
    let cell := BitVec.ofNat 64 (x.va / 32 * 32)
    match s.translate core (s.asidOf g) x.va .atomic with
    | (.fault f, s) =>
      .ok ((s.postedWaits x (.fault (s.asidOf g) page)).faultOnce (dieOf core) (s.asidOf g) page Acc.atomic.code
        (laneEvent s x.gkey g 1 f .atomic x.va 0 m))
    | (.to (.peer dev pa), s) =>
      if s.ownsPlace (s.asidOf g) (.peer dev pa) n then .error .hold
      else if s.routeOk dev then
        let (tag, s) := s.requestOf (x.gkey, x.pos, none) (whose x.gkey x.pos none) dev x.va (PeerReq.atomic pa n x.major x.funct x.operand x.swap)
        .ok (s.postedWaits x (.reply tag))
      else
        .ok ((s.postedWaits x (.peer dev)).faultOnce (dieOf core) (s.asidOf g) page (16 + Acc.atomic.code)
          (laneEvent s x.gkey g 2 0 .atomic x.va dev m))
    | (.to (.here pa tagged), s) =>
      if s.ownsPlace (s.asidOf g) (.here pa tagged) n then .error .hold
      else if tagged && s.tag pa != tagValue then
        match s.trigger g ⟨x.gkey, x.va / 32 * 32, m, true, none⟩ pa with
        | (.go, s) => .ok s
        | (.parked w, s) => .ok (s.postedWaits x w)
        | (.fault y, s) =>
          if y.waits then .error .hold else
          .ok ((s.postedWaits x (.fault y.asid y.page)).dieFault (dieOf core) y .cell (cellEvent s x.gkey m))
        | (.bad line, _) => .error (.trap 0x30 (w64 line) 2 (some m))
        | (.trap cause d2, _) => .error (.trap cause cell d2 (some m))
        | (.failed notify, _) => .error (.cellFail pa notify ((s.chainOf g).getD 0) cell (some m))
      else if (s.badLine pa n).isSome then .error (.trap 0x30 (w64 ((s.badLine pa n).getD 0)) 2 (some m))
      else
        let (old, s) := s.rmw (some core) pa x.major x.funct x.operand x.swap
        let s := (s.refresh core pa n).dropPosted x
        .ok (if casFailed x.major x.funct old x.operand then s.modGroup x.gkey fun g => g.demote 0 m else s)

/-- A posted atomic would trigger a cell. -/
def State.postedTriggers (s : State) (x : Posted) : Bool :=
  match tget s.groups x.gkey with
  | none => false
  | some g =>
    match (s.translate (coreOf x.gkey) (s.asidOf g) x.va .atomic).1 with
    | .to (.here pa tagged) => tagged && s.tag pa != tagValue
    | _ => false

/-- Posted atomics of a lane that stand before one of them. -/
def Posted.earlier (x : Posted) (xs : List Posted) : List Posted :=
  (xs.takeWhile (· != x)).filter fun y => y.gkey == x.gkey && y.pos == x.pos && y.trap.isNone

/-- A posted atomic is tried; before it triggers a cell, those that its lane issued earlier are performed (R219). -/
def State.performPosted (s : State) (x : Posted) : Except Halt State :=
  let before := fun (s : State) => x.earlier (s.core (postCore x.gkey)).posted
  if (before s).isEmpty || !s.postedTriggers x then s.performOne x
  else
    match eachRes (fun y s => match s.performOne y with | .ok s => .ok s | .error _ => .error .hold)
      ((before s).filter (·.wait.isNone)) s with
    | .error h => .error h
    | .ok s => if (before s).isEmpty then s.performOne x else .error .hold

/-- A posted atomic that traps leaves, and its lane's group stops. -/
def State.postedTrap (s : State) (x : Posted) (cause : Nat) (d1 d2 : DWord) : State :=
  s.postedTraps x.gkey [x] cause (fun _ => d1) d2

/-- The trap of a posted atomic, or of a store refused at a peer, that its group's stop kept back is raised once the group runs
again (R323). -/
def State.lateTrap (s : State) (x : Posted) (t : Nat × DWord × DWord × Mask) : State :=
  match tget s.groups x.gkey with
  | none => s.dropPosted x
  | some g => if g.stop.isSome then s else (s.dropPosted x).trapGroup x.gkey x.unit t.2.2.2 t.2.2.2 t.1 t.2.1 t.2.2.1

/-- A posted atomic is tried outside the issue of its lane's group; not while its team is in a context record. -/
def State.tryPosted (s : State) (x : Posted) : State :=
  if noCore ≤ coreOf x.gkey then s
  else
    match x.trap with
    | some t => s.lateTrap x t
    | none =>
      match s.performPosted x with
      | .ok s => s
      | .error .hold => s
      | .error (.bankError _ _ _) => s
      | .error (.trap cause d1 d2 _) => s.postedTrap x cause d1 d2
      | .error (.cellFail pa notify chain d1 _) => (s.failCell pa notify chain).postedTrap x 0x1E d1 0

/-- Posted atomics of a core that wait for nothing and meet a test are performed in order; one that cannot be holds the unit
back, and goes its own way by its own event (R239). -/
def State.flushPosted (s : State) (gkey : Nat) (f : Posted → Bool) : Res :=
  eachRes (fun x s => match s.performPosted x with | .ok s => .ok s | .error _ => .error .hold)
    ((s.core (coreOf gkey)).posted.filter fun x => x.wait.isNone && x.trap.isNone && f x) s

/-- Posted atomics of a core whose wait is over are tried again at once: the atomic alone is replayed (R239). -/
def State.retryPosted (s : State) (core : Nat) (f : Posted → Bool) : State :=
  ((s.core core).posted.filter f).foldl (fun s x =>
    let y := { x with wait := none }
    (s.modCore core fun k => { k with posted := k.posted.replace x y }).tryPosted y) s

/-- Posted atomics of lanes that a fulfilled cell woke are tried again. -/
def State.performWoken (s : State) (gkey : Nat) (m : Mask) : State :=
  s.retryPosted (postCore gkey) fun x => x.of gkey m && x.wait.isNone && x.trap.isNone

/-- A lane whose posted atomic waits for a page, a route or a cell parks before its next unit; one that is not running goes
on as it is (R239). -/
def State.parkPosted (s : State) (core : Nat) : State :=
  (s.core core).posted.foldl (fun s x =>
    match x.wait with
    | none => s
    | some (.reply _) => s
    | some w => s.parkRunning x.gkey (1#32 <<< x.pos) w) s

/-- The posted atomics that meet a test are performed, else the unit that waits for them is held back (R239, R363). -/
def State.complete (s : State) (gkey : Nat) (f : Posted → Bool) : Res :=
  match s.flushPosted gkey f with
  | .error h => .error h
  | .ok s => if (s.core (coreOf gkey)).posted.any f then .error .hold else .ok s

/-- A unit that waits for the posted atomics of its issuing set. -/
def settled (s : State) (c : Issue) (f : State → Res) : Res :=
  match s.complete c.gkey (Posted.of c.gkey c.lanes) with
  | .error h => .error h
  | .ok s => f s

/-- An access of a lane comes after its own posted atomics on the same bytes (R12). -/
def State.settleLane (s : State) (gkey p va n : Nat) : Res :=
  if (s.core (coreOf gkey)).posted.any fun x => x.of gkey (1#32 <<< p) && overlap x.va 8 va n then
    s.complete gkey (Posted.of gkey (1#32 <<< p))
  else .ok s

/-- Stores that peers have still to acknowledge (R363): of lanes of a group, or of a whole core. -/
def State.unacknowledged (s : State) (gkey : Nat) (lanes : Mask) (wide : Bool) : Bool :=
  s.peerWaits.any fun x =>
    x.2.unit.isNone && x.2.pos < 32 && x.2.req.major != 0x20 &&
      if wide then coreOf x.2.gkey == coreOf gkey else x.2.lanes.any fun y => y.1 == gkey && lanes.getLsbD y.2

/-- What a release waits for (R214, R215, R239, R363): the posted atomics of the issuing lanes are performed and their
stores at peers acknowledged; from .clus up the stores of the whole core. -/
def State.release (s : State) (gkey : Nat) (lanes : Mask) (scope : Nat) : Res :=
  match s.complete gkey (Posted.of gkey lanes) with
  | .error h => .error h
  | .ok s => if s.unacknowledged gkey lanes (2 ≤ scope) then .error .hold else .ok s

/-! ### Cells met by a lane -/

/-- A trigger by the lanes of a mask that address one cell (R224-R230). Their own posted atomics come before it (R219). -/
def State.meetCell (s : State) (gkey : Nat) (g : Group) (m : Mask) (pa va : Nat) : Res :=
  let cell := va / 32 * 32
  match s.complete gkey (Posted.of gkey m) with
  | .error h => .error h
  | .ok s =>
    let m := match tget s.groups gkey with | some x => m &&& x.where Lane.runnable | none => m
    if m = 0 then .ok s
    else
      match s.trigger g ⟨gkey, cell, m, false, none⟩ pa with
      | (.go, s) => .ok s
      | (.parked w, s) => .ok (s.parkAll gkey m w)
      | (.fault y, s) =>
        if y.waits then .error .hold else
        .ok ((s.parkAll gkey m (.fault y.asid y.page)).dieFault (dieOf (coreOf gkey)) y .cell (cellEvent s gkey m))
      | (.bad line, _) => .error (.trap 0x30 (w64 line) 1 (some m))
      | (.trap cause d2, _) => .error (.trap cause (BitVec.ofNat 64 cell) d2 (some m))
      | (.failed notify, _) => .error (.cellFail pa notify ((s.chainOf g).getD 0) (BitVec.ofNat 64 cell) (some m))

/-- One lane's RMW on global memory: the old value if it was performed, else the lane parked (R202, R224, R238, R363); near
gives the lanes whose addresses lie in the same granule of a size. -/
def State.laneRmw (s : State) (gkey : Nat) (g : Group) (p va major funct : Nat) (b swap : DWord) (near : Nat → Mask) :
    Except Halt (Option Nat × State) :=
  let core := coreOf gkey
  let n := atomicBytes major
  match s.translate core (s.asidOf g) va .atomic with
  | (.fault f, s) => .ok (none, s.laneFault gkey g p va f .atomic (near 65536))
  | (.to (.peer dev pa), s) =>
    if s.peerOwns g p dev pa n then .error .hold
    else
      let (r, s) := s.askPeer gkey g p va dev .atomic (PeerReq.atomic pa n major funct b swap) none (near 65536)
      .ok (r.map leNat, s)
  | (.to (.here pa tagged), s) =>
    if s.ownsPlace (s.asidOf g) (.here pa tagged) n then .error .hold
    else if tagged && s.tag pa != tagValue then
      match s.meetCell gkey g (near 32) pa va with
      | .ok s => .ok (none, s)
      | .error h => .error h
    else if (s.badLine pa n).isSome then .error (.trap 0x30 (w64 ((s.badLine pa n).getD 0)) 2 (some (near 128)))
    else
      let (old, s) := s.rmw (some core) pa major funct b swap
      .ok (some old, s.refresh core pa n)

/-! ### Lane accesses -/

def State.laneRuns (s : State) (gkey p : Nat) : Bool :=
  match tget s.groups gkey with
  | some g => (g.lane p).runnable
  | none => false

/-- A lane completes its part of the unit. -/
def State.finish (s : State) (c : Issue) (p : Nat) (f : Lane → Lane) : State := s.modLane c.gkey p fun l => c.advance (f l)

/-- Lanes of the issuing set outside a mask move on. -/
def State.skip (s : State) (c : Issue) (m : Mask) : State := s.modGroup c.gkey fun g => g.mapLanes (c.lanes &&& ~~~m) c.advance

/-- Addresses of the lanes that take part, in ascending logical order. -/
def addresses (g : Group) (m : Mask) (f : Lane → DWord) : List (Nat × DWord) := (g.order m).map fun p => (p, f (g.lane p))

/-- Accesses of lanes whose addresses all passed the checks (R99): each lane that is not parked by then acts. -/
def eachLane (c : Issue) (size : Nat) (xs : List (Nat × DWord)) (act : Nat → Nat → (Nat → Mask) → State → Res)
    (s : State) : Res :=
  eachRes (fun x s =>
    match s.settleLane c.gkey x.1 x.2.toNat size with
    | .error h => .error h
    | .ok s =>
      if s.laneRuns c.gkey x.1 then
        act x.1 x.2.toNat (fun n => sameGranule n xs x.2) s
      else .ok s) xs s

/-- The first of the cells of n bytes from an address on that is not in VALUE, by its index (R224). -/
def State.openCell (s : State) (pa n : Nat) : Option Nat :=
  (List.range ((n + 31) / 32)).find? fun i => s.tag (pa + 32 * i) != tagValue

/-- Bytes a lane loads, for itself or for an issuing set (R100, R193, R202, R224); l1 = false reads at home (R237). A copy that only writes from outside outdated may
still serve a load after an acquire below .sys (R203, R221). -/
def State.laneLoad (s : State) (l1 : Bool) (gkey : Nat) (g : Group) (p va n : Nat) (set : Option Mask) (near : Nat → Mask) :
    Except Halt (Option (List Byte) × State) :=
  let core := coreOf gkey
  match s.translate core (s.asidOf g) va .load with
  | (.fault f, s) => .ok (none, s.laneFault gkey g p va f .load (near 65536))
  | (.to (.peer dev pa), s) =>
    if s.peerOwns g p dev pa n then .error .hold
    else .ok (s.askPeer gkey g p va dev .load (PeerReq.read pa n) set (near 65536))
  | (.to (.here pa tagged), s) =>
    let k := s.core core
    let open_ := if tagged then s.openCell pa n else none
    let old := k.isStale pa n || open_.isSome
    let home := fun (s : State) =>
      if s.ownsPlace (s.asidOf g) (.here pa tagged) n then .error .hold
      else if let some i := open_ then
        match s.meetCell gkey g (near 32) (pa + 32 * i) (va + 32 * i) with
        | .ok s => .ok (none, s)
        | .error h => .error h
      else if (s.badLine pa n).isSome then .error (.trap 0x30 (w64 ((s.badLine pa n).getD 0)) 1 (some (near 128)))
      else
        let clean := !s.owned 0 0 (lineOf pa * 128) 128 && (!isHbm pa || (List.range 4).all fun i => s.tag (lineOf pa * 128 + 32 * i) == tagValue)
        let bs := s.bytes pa n
        if l1 && clean then .ok (some bs, (s.metHost pa n).modCore core (·.fillLine (lineOf pa)))
        else .ok (some bs, s.refresh core pa n)
    let free := !s.ownsPlaceAt core (s.asidOf g) (.here pa tagged) n
    if l1 && k.hit g.acq (lineOf pa) && free then
      if !old then .ok (some (s.bytes pa n), s)
      else if Config.l1Stays s.fresh then .ok (some (s.staleBytes k pa n), (s.draw).2)
      else home ((s.draw).2.modCore core (·.dropLine (lineOf pa)))
    else if l1 && k.hit g.sysAcq (lineOf pa) && free && k.onlyHostOld pa n && Config.l1Stays s.fresh then
      .ok (some (s.staleBytes k pa n), (s.draw).2)
    else home (if k.hostOld pa n then (s.draw).2 else s)

/-- A load's result in its lane register (R100). -/
def loadPut (d : LDst) (z : Nat) (bs : List Byte) (l : Lane) : Lane :=
  let x := leNat bs
  match z with
  | 3 => d.put64 false (BitVec.ofNat 64 x) l
  | 4 => d.setWide 4 x l
  | 5 => d.put32 false ((BitVec.ofNat 8 x).signExtend 32) l
  | 6 => d.put32 false ((BitVec.ofNat 16 x).signExtend 32) l
  | _ => d.put32 false (BitVec.ofNat 32 x) l

/-- The bytes a store writes (R101). -/
def storeData (d : LSrc) (z : Nat) (l : Lane) : List Byte := leBytes (szBytes z) (d.wide l (szRegs z))

/-- Where a store of a lane goes. -/
inductive Target where
  | here (p va pa : Nat) (tagged : Bool)
  | peer (p va dev pa : Nat)
deriving DecidableEq, Repr

def Target.place : Target → Place
  | .here _ _ pa tagged => .here pa tagged
  | .peer _ _ dev pa => .peer dev pa

/-- Translation of the lanes' store addresses: the lanes that fault park (R202). -/
def State.storeTargets (s : State) (gkey : Nat) (g : Group) (xs : List (Nat × DWord)) :
    List (Nat × DWord) → List Target × State
  | [] => ([], s)
  | (p, a) :: ys =>
    if !s.laneRuns gkey p then s.storeTargets gkey g xs ys
    else
      let va := a.toNat
      match s.translate (coreOf gkey) (s.asidOf g) va .store with
      | (.fault f, s) => (s.laneFault gkey g p va f .store (sameGranule 65536 xs a)).storeTargets gkey g xs ys
      | (.to (.peer dev pa), s) =>
        if s.routeOk dev then
          let (ts, s) := s.storeTargets gkey g xs ys
          (.peer p va dev pa :: ts, s)
        else (s.peerFault gkey g p va dev .store (sameGranule 65536 xs a)).storeTargets gkey g xs ys
      | (.to (.here pa tagged), s) =>
        let (ts, s) := s.storeTargets gkey g xs ys
        (.here p va pa tagged :: ts, s)

/-- Bytes of a cell that the stores of one instruction cover (R225). -/
def covered (size cell : Nat) (ts : List Target) : Nat :=
  ((List.range 32).filter fun i => ts.any fun t =>
    match t with
    | .here _ _ pa _ => pa ≤ cell + i && cell + i < pa + size
    | .peer _ _ _ _ => false).length

/-- The lanes whose stores meet one cell. -/
def cellLanes (cell : Nat) (ts : List Target) : Mask :=
  maskOf (ts.filterMap fun t => match t with | .here p _ pa true => if cellOf pa = cell then some p else none | _ => none)

/-- A store to a cell not in VALUE is allowed for every target (R225); the first refusal traps. -/
def State.cellsOk (s : State) (g : Group) (size : Nat) (ts : List Target) : List Target → Option Halt
  | [] => none
  | .here _ va pa true :: rest =>
    match s.storeCell (some g) pa (covered size (cellOf pa) ts == 32) with
    | .error cause => some (.trap cause (BitVec.ofNat 64 (va / 32 * 32)) 0 (some (cellLanes (cellOf pa) ts)))
    | .ok _ => s.cellsOk g size ts rest
  | _ :: rest => s.cellsOk g size ts rest

/-- The stores of one instruction that meet the cell of a peer's address: lanes and physical addresses. -/
def peerMates (dev pa : Nat) (ts : List Target) : List (Nat × Nat) :=
  ts.filterMap fun t => match t with | .peer q _ d a => if d = dev ∧ cellOf a = cellOf pa then some (q, a) else none | _ => none

/-- Stores that together cover their cell at a peer: its 32 bytes, the higher logical lane's where two meet (R102); none where
they leave a byte out. -/
def wholeCell (size : Nat) (g : Group) (data : Lane → List Byte) (cell : Nat) (ms : List (Nat × Nat)) : Option (List Byte) :=
  (List.range 32).mapM fun i =>
    (ms.reverse.find? fun (m : Nat × Nat) => m.2 ≤ cell + i && cell + i < m.2 + size).bind fun m => (data (g.lane m.1))[cell + i - m.2]?

/-- The stores themselves, in ascending logical order (R102); a full store re-arms its cell as VALUE (R225). Those that cover a
whole cell at a peer go there as one (R231). -/
def State.storeAll (s : State) (c : Issue) (g : Group) (size : Nat) (data : Lane → List Byte) (ts : List Target) :
    List Target → State
  | [] => s
  | .here p _ pa tagged :: rest =>
    let t := if tagged then
        match s.storeCell (some g) pa (covered size (cellOf pa) ts == 32) with
        | .ok t => some t
        | .error _ => none
      else none
    let s := s.store (some (coreOf c.gkey)) pa (data (g.lane p))
    let s := match t with | some t => s.setTag pa t | none => s
    (s.finish c p id).storeAll c g size data ts rest
  | .peer p va dev pa :: rest =>
    let ms := peerMates dev pa ts
    let send := fun (who : List (Nat × Nat) × Mask) (r : PeerReq) => (s.requestOf (c.gkey, p, none) who dev va r).2
    let s := match wholeCell size g data (cellOf pa) ms with
      | none => send (whose c.gkey p none) (PeerReq.write pa (data (g.lane p)))
      | some bs =>
        if (ms.head?.map Prod.fst) = some p then
          send (ms.map fun (m : Nat × Nat) => (c.gkey, m.1), maskOf (ms.map Prod.fst)) (PeerReq.write (cellOf pa) bs)
        else s
    (s.finish c p id).storeAll c g size data ts rest

/-- A store unit on global memory (R101, R102, R202, R225). -/
def State.storeLanes (s : State) (c : Issue) (g : Group) (m : Mask) (size : Nat) (addr : Lane → DWord)
    (data : Lane → List Byte) : Res :=
  let xs := addresses g m addr
  match badLanes size xs with
  | some h => .error h
  | none =>
    match eachRes (fun x s => s.settleLane c.gkey x.1 x.2.toNat size) xs (s.skip c m) with
    | .error h => .error h
    | .ok s =>
      let (ts, s) := s.storeTargets c.gkey g xs xs
      if ts.any fun t => s.ownsPlace (s.asidOf g) t.place size then .error .hold
      else
        match s.cellsOk g size ts ts with
        | some h => .error h
        | none => .ok (s.storeAll c g size data ts ts)

/-- A load unit on global memory. -/
def State.loadLanes (s : State) (l1 : Bool) (c : Issue) (g : Group) (m : Mask) (size : Nat) (addr : Lane → DWord)
    (put : List Byte → Lane → Lane) : Res :=
  let xs := addresses g m addr
  match badLanes size xs with
  | some h => .error h
  | none =>
    eachLane c size xs (fun p va near s =>
      match s.laneLoad l1 c.gkey g p va size none near with
      | .error h => .error h
      | .ok (some bs, s) => .ok (s.finish c p (put bs))
      | .ok (none, s) => .ok s) (s.skip c m)

/-! ### Local spaces (R187-R189, R233-R235) -/

/-- The spaces a lane names, with the codes of Own. -/
inductive Space where
  | scratch | deck | x
deriving DecidableEq, Repr

def Space.code : Space → Nat
  | .scratch => 1 | .deck => 2 | .x => 3

/-- The local address (R234): LDK and STK set bit 31. -/
def localAddress (sp : Space) (a index : Word) (size : Nat) : Word :=
  let la := a + index * BitVec.ofNat 32 size
  if sp = .deck then la ||| 0x80000000#32 else la

/-- The trap of a local address, if any: alignment, then range (R234). -/
def localTrap (t : Team) (sp : Space) (size : Nat) (la : Word) : Option Halt :=
  let x := la.toNat
  let bad := Halt.trap 0x16 (la.setWidth 64) 0
  if x % size != 0 then some (.trap 0x17 (la.setWidth 64) (BitVec.ofNat 64 size))
  else
    match sp with
    | .scratch => if bits x 31 31 = 1 || bits x 30 0 + size > t.sBytes then some bad else none
    | .deck =>
      if bits x 30 27 != 0 || bits x 26 23 ≥ t.cluster.length || bits x 22 0 + size > t.deckBytes then some bad else none
    | .x => if x + size > t.xBytes then some bad else none

/-- The team that holds a local address, and the byte within its allotment. -/
def localHome (t : Team) (tid : Nat) (sp : Space) (la : Word) : Nat × Nat :=
  match sp with
  | .deck => (t.cluster[bits la.toNat 26 23]?.getD tid, bits la.toNat 22 0)
  | .scratch => (tid, bits la.toNat 30 0)
  | .x => (tid, la.toNat)

def Team.space (t : Team) : Space → Tab Byte
  | .scratch => t.scratch
  | .deck => t.deck
  | .x => t.xbuf

def Team.setSpace (t : Team) (sp : Space) (m : Tab Byte) : Team :=
  match sp with
  | .scratch => { t with scratch := m }
  | .deck => { t with deck := m }
  | .x => { t with xbuf := m }

/-- Bytes written anew have good check bits again (R336). -/
def Team.rewrite (t : Team) (code a n : Nat) : Team :=
  { t with badBytes := t.badBytes.filter fun x => !(x.1 == code && a ≤ x.2 && x.2 < a + n) }

/-- A byte of a range of a team's space has an uncorrectable error. -/
def State.badLocal (s : State) (tid code a n : Nat) : Bool :=
  ((tget s.teams tid).map fun t => t.badBytes.any fun x => x.1 == code && a ≤ x.2 && x.2 < a + n).getD false

/-- Bytes of a space of a team; those of a team that has exited are lost (R190). -/
def State.localBytes (s : State) (tid : Nat) (sp : Space) (a n : Nat) : List Byte :=
  match tget s.teams tid with
  | some t => mread (t.space sp) a n
  | none => (List.range n).map fun i => Config.lostByte s.fresh tid (a + i)

def State.setLocal (s : State) (tid : Nat) (sp : Space) (a : Nat) (bs : List Byte) : State :=
  s.modTeam tid fun t => (t.setSpace sp (mwrite (t.space sp) a bs)).rewrite sp.code a bs.length

/-- The first local address that traps. -/
def firstLocalTrap (t : Team) (sp : Nat → Space) (size : Nat) : List (Nat × Word) → Option Halt
  | [] => none
  | (p, la) :: xs =>
    match localTrap t (sp p) size la with
    | some h => some h
    | none => firstLocalTrap t sp size xs

/-- A unit on local space: addresses checked for every lane, then each lane acts on its team and byte. The kind is that of a
memory error in what it reads (R322), none for a store. -/
def State.localLanes (s : State) (c : Issue) (g : Group) (m : Mask) (size : Nat) (kind : Option Nat) (sp : Lane → Space) (la : Lane → Word)
    (act : Nat → Space → Nat → Nat → State → State) : Res :=
  match tget s.teams g.tid with
  | none => .error .hold
  | some t =>
    let xs := (g.order m).map fun p => (p, la (g.lane p))
    let spOf := fun p => sp (g.lane p)
    match firstLocalTrap t spOf size xs with
    | some h => .error (h.raisedBy fun x => (xs.filter fun y => localTrap t (spOf y.1) size y.2 |>.any (·.sameCause x)).map Prod.fst)
    | none =>
      let held := fun (x : Nat × Word) =>
        let h := localHome t g.tid (spOf x.1) x.2
        s.owned (spOf x.1).code h.1 h.2 size || (kind != some 1 && spOf x.1 == .x && s.owned 7 h.1 h.2 size)
      if xs.any held then .error .hold
      else
        let bad := xs.filter fun x => let h := localHome t g.tid (spOf x.1) x.2; s.badLocal h.1 (spOf x.1).code h.2 size
        match kind, bad with
        | some k, x :: _ => .error (.bankError k (x.2.setWidth 64) (maskOf (bad.map Prod.fst)))
        | _, _ =>
        .ok (xs.foldl (fun s x =>
          let h := localHome t g.tid (spOf x.1) x.2
          let s := act x.1 (spOf x.1) h.1 h.2 s
          if (tget s.teams h.1).isNone then (s.draw).2 else s) (s.skip c m))

/-! ### Uniform accesses (R103) -/

/-- A uniform read at an address without gbase, from L1 or at home: the bytes, or the whole issuing set parked. -/
def State.uniformRead (s : State) (l1 : Bool) (c : Issue) (g : Group) (va n : Nat) :
    Except Halt (Option (List Byte) × State) :=
  let answered := (positions c.lanes).filter fun p => (g.lane p).reply.isSome
  match answered ++ positions c.lanes with
  | [] => .ok (none, s)
  | p :: _ =>
    match s.laneLoad l1 c.gkey g p va n (some c.lanes) (fun _ => c.lanes) with
    | .error h => .error h
    | .ok (some bs, s) => .ok (some bs, s)
    | .ok (none, s) =>
      match tget s.groups c.gkey with
      | none => .ok (none, s)
      | some g =>
        match (g.lane p).state with
        | .parked w => .ok (none, s.parkAll c.gkey c.lanes w)
        | _ => .ok (none, s)

def State.uniformLoad (s : State) (c : Issue) (g : Group) (va n : Nat) : Except Halt (Option (List Byte) × State) :=
  s.uniformRead true c g va n

end Sys2Proof.Machine
end

