-- ==== Sys2Proof/Machine/Calls.lean ====
section
/-! DEFINITION. The width call a lane runs in, its frame and its coupled bit (R148, R151, R152, R157, R158); partitions, their
members and ranks (R145, R146, R166, R176). -/

namespace Sys2Proof.Machine

/-! ### The innermost call of a lane -/

/-- What a lane runs: no open callee, a lane of a fresh or reserve group, an invocation in its own lane, a gather callee
thread in a block of its own, or one in the lowest caller's lane. -/
inductive Inner where
  | none
  | widened (call : Nat)
  | serial (call : Nat)
  | thread (tid level : Nat)
  | threadHere (tid level : Nat)
deriving DecidableEq, Repr

/-- The caller of an open WIDEN that runs the callee in its own lane at a position. -/
def WidenCall.serialAt (w : WidenCall) (gkey p : Nat) : Option Caller :=
  if w.gkey = gkey then w.callers.find? fun x => x.pos == p && x.mode == .serial && x.ended < x.count else none

/-- The calls a lane takes part in as a callee, with their levels. -/
def State.innerList (s : State) (gkey : Nat) (g : Group) (p : Nat) : List (Nat × Inner) :=
  let own := match g.kind with
    | .own => []
    | .fresh c => [(((tget s.calls c).map (·.level)).getD 0, Inner.widened c)]
    | .reserve c => [(((tget s.calls c).map (·.level)).getD 0, Inner.widened c)]
    | .thread level => [(level, Inner.thread g.tid level)]
  let serial := s.calls.filterMap fun (i, w) => (w.serialAt gkey p).map fun _ => (w.level, Inner.serial i)
  let here := ((tget s.teams g.tid).map (·.firings)).getD [] |>.filterMap fun f =>
    if f.thread = some (gkey, p) && !f.block then some (f.level, Inner.threadHere g.tid f.level) else none
  own ++ serial ++ here

def deepest : List (Nat × Inner) → Nat × Inner
  | [] => (0, .none)
  | x :: xs => let y := deepest xs; if x.1 > y.1 then x else y

/-- The innermost call a lane runs in as a callee. -/
def State.inner (s : State) (gkey : Nat) (g : Group) (p : Nat) : Inner :=
  if (g.lane p).nest = 0 then .none else (deepest (s.innerList gkey g p)).2

/-- The firing of a level of a team that is under way. -/
def Team.firing (t : Team) (level : Nat) : Option Firing := t.firings.find? fun f => f.level == level && f.thread.isSome

/-- The header word of the call. -/
def State.innerHdr (s : State) : Inner → Option Word
  | .none => none
  | .widened c => (tget s.calls c).map (·.hdr)
  | .serial c => (tget s.calls c).map (·.hdr)
  | .thread tid level => ((tget s.teams tid).bind (·.firing level)).map (·.hdr)
  | .threadHere tid level => ((tget s.teams tid).bind (·.firing level)).map (·.hdr)

def hdrFrame (w : Word) : Nat := bits w.toNat 21 16
def hdrCoupled (w : Word) : Bool := bits w.toNat 22 22 == 1

/-- Reduction code of v0 to v3. -/
def hdrCode (w : Word) (n : Nat) : Nat := bits w.toNat (4 * n + 3) (4 * n)

/-- The frame a lane runs under (R137, R152): that of its innermost callee alone, also where it is above its group's (log entry
13). -/
def State.frameAt (s : State) (gkey : Nat) (g : Group) (p : Nat) : Nat :=
  match s.innerHdr (s.inner gkey g p) with
  | some w => hdrFrame w
  | none => g.frame

/-- Some lane of a mask runs in a callee. -/
def State.anyInner (s : State) (gkey : Nat) (g : Group) (m : Mask) : Bool :=
  (positions m).any fun p => s.inner gkey g p != .none

/-- The lanes of a mask that run in a callee with coupled = 0 (R152). -/
def State.uncoupled (s : State) (gkey : Nat) (g : Group) (m : Mask) : List Nat :=
  (positions m).filter fun p =>
    match s.innerHdr (s.inner gkey g p) with
    | some w => !hdrCoupled w
    | none => false

/-- A unit of cross-lane work traps in an uncoupled callee (R152). -/
def coupledOnly (s : State) (c : Issue) (g : Group) (r : Res) : Res :=
  match s.uncoupled c.gkey g c.lanes with
  | [] => r
  | ps => .error (.trap 0x11 (c.word.setWidth 64) 0 (some (maskOf ps)))

/-! ### Partitions (R146, R166, R176) -/

/-- Positions a to a + n - 1. -/
def blockMask (a n : Nat) : Mask := maskOf ((List.range 32).filter fun p => a ≤ p && p < a + n)

/-- The block of a fresh group that holds a position. -/
def Group.blockAt (g : Group) (p : Nat) : Option Block := g.blocks.find? fun b => b.start ≤ p && p < b.start + b.size

/-- g0 as a position sees it. -/
def State.wholeMask (s : State) (gkey : Nat) (g : Group) (p : Nat) : Mask :=
  match s.inner gkey g p with
  | .serial _ => 1#32 <<< p
  | .threadHere _ _ => 1#32 <<< p
  | _ =>
    match g.blockAt p with
    | some b => blockMask b.start b.size
    | none => 0xFFFFFFFF#32

/-- The layout of a partition kind inside g0. -/
def Part.within (x : Part) (whole : Mask) (p : Nat) : Mask :=
  match x.kind with
  | .whole => whole
  | .b4 => whole &&& blockMask (p / 4 * 4) 4
  | .b8 => whole &&& blockMask (p / 8 * 8) 8
  | .b16 => whole &&& blockMask (p / 16 * 16) 16
  | .mask => if x.mask.getLsbD p then whole &&& x.mask else whole &&& ~~~x.mask

def Group.part (g : Group) (n : Nat) : Part := if n = 0 then ⟨.whole, 0⟩ else g.parts[n]?.getD ⟨.whole, 0⟩

/-- The members of the partition gn that holds a position: absent positions are none, exited lanes are members. -/
def State.membersOf (s : State) (gkey : Nat) (g : Group) (n p : Nat) : Mask :=
  (g.part n).within (s.wholeMask gkey g p) p &&& g.where fun l => l.state != .absent

/-- The rank of a position among members. -/
def rankOf (m : Mask) (p : Nat) : Nat := ((positions m).filter (· < p)).length

/-- The position of a rank. -/
def atRank (m : Mask) (r : Nat) : Option Nat := (positions m)[r]?

end Sys2Proof.Machine
end

