-- ==== Sys2Proof/Machine/MemLane.lean ====
section
/-! DEFINITION. Lane and uniform accesses to memory (R100-R103, R233-R237) and atomics (R238-R242). -/

namespace Sys2Proof.Machine

/-! ### Addresses and ordering of an LM access (R99, R236) -/

/-- The scope of an ordered access. -/
def scopeOf : Addr → Option Nat
  | .plain _ => none
  | .ordered n => some n

/-- An ordered load is an acquire once it has read. -/
def acquireAfter (c : Issue) (m : Addr) : Res → Res
  | .ok s => .ok (match scopeOf m with | some n => s.acquire c.gkey n | none => s)
  | .error h => .error h

/-- An ordered store is a release before it writes; the lanes that the release did not park go on with it (R239). -/
def releaseBefore (s : State) (c : Issue) (m : Addr) (f : Issue → State → Res) : Res :=
  match scopeOf m with
  | some n =>
    match s.release c.gkey c.lanes n with
    | .error h => .error h
    | .ok s => f { c with lanes := c.lanes &&& maskOf ((positions c.lanes).filter fun p => s.laneRuns c.gkey p) } s
  | none => f c s

/-! ### Global memory (R100, R101, R237) -/

def execLdg (d : LDst) (a : LSrc) (m : Addr) (z g : Nat) (s : State) : Out :=
  groupUnit s fun c gr =>
    acquireAfter c m (s.loadLanes true c gr (c.taking g gr) (szBytes z)
      (fun l => effective gr.gbase (a.r32 l) (m.index.r32 l) (szBytes z)) (loadPut d z))

def execStg (d a : LSrc) (m : Addr) (z g : Nat) (s : State) : Out :=
  groupUnit s fun c gr =>
    releaseBefore s c m fun c s =>
      s.storeLanes c gr (c.taking g gr) (szBytes z) (fun l => effective gr.gbase (a.r32 l) (m.index.r32 l) (szBytes z))
        (storeData d z)

/-- LDP reads at home, and every lane that has performed it is demoted (R147, R237). -/
def execLdp (d : LDst) (a : LSrc) (m : Addr) (z g : Nat) (s : State) : Out :=
  groupUnit s fun c gr =>
    let t := c.taking g gr
    match s.loadLanes false c gr t (szBytes z) (fun l => effective gr.gbase (a.r32 l) (m.index.r32 l) (szBytes z))
      (loadPut d z) with
    | .error h => .error h
    | .ok s => acquireAfter c m (.ok (s.modGroup c.gkey fun x => x.demote c.lanes (t &&& x.where Lane.runnable)))

/-! ### Local spaces (R233-R236) -/

/-- A load from a local space. -/
def localLoad (sp : Space) (d : LDst) (a : LSrc) (m : Addr) (z g : Nat) (s : State) : Out :=
  groupUnit s fun c gr =>
    acquireAfter c m (s.localLanes c gr (c.taking g gr) (szBytes z) (some 1) (fun _ => sp)
      (fun l => localAddress sp (a.r32 l) (m.index.r32 l) (szBytes z))
      fun p sp tid x s => s.finish c p (loadPut d z (s.localBytes tid sp x (szBytes z))))

/-- A store to a local space, lanes in ascending logical order (R235). -/
def localStore (sp : Space) (d a : LSrc) (m : Addr) (z g : Nat) (s : State) : Out :=
  groupUnit s fun c gr =>
    releaseBefore s c m fun c s =>
      s.localLanes c gr (c.taking g gr) (szBytes z) none (fun _ => sp)
        (fun l => localAddress sp (a.r32 l) (m.index.r32 l) (szBytes z))
        fun p sp tid x s => (s.setLocal tid sp x (storeData d z (gr.lane p))).finish c p id

def execLds (d : LDst) (a : LSrc) (m : Addr) (z g : Nat) (s : State) : Out :=
  localLoad .scratch d a m z g s

def execSts (d a : LSrc) (m : Addr) (z g : Nat) (s : State) : Out :=
  localStore .scratch d a m z g s

def execLdk (d : LDst) (a : LSrc) (m : Addr) (z g : Nat) (s : State) : Out :=
  localLoad .deck d a m z g s

def execStk (d a : LSrc) (m : Addr) (z g : Nat) (s : State) : Out :=
  localStore .deck d a m z g s

def execStx (d a : LSrc) (m : Addr) (z g : Nat) (s : State) : Out :=
  localStore .x d a m z g s

/-! ### Uniform accesses (R103, R341) -/

/-- The cox's memories: its own below 0x10000, else local physical memory (R341). -/
def State.coxRead (s : State) (core a n : Nat) : List Byte :=
  if a < 0x10000 then mread (s.core core).cox.mem a n else s.bytes a n

def State.coxWrite (s : State) (core a : Nat) (bs : List Byte) : State :=
  if a < 0x10000 then s.modCore core fun k => { k with cox := { k.cox with mem := mwrite k.cox.mem a bs } }
  else s.store none a bs

/-- The cause of a cox access, if any: bad address, misaligned, or unpopulated memory. -/
def coxBad (a : DWord) (n : Nat) : Option Nat :=
  if a >>> 54 != 0 then some 0x16
  else if a.toNat % n != 0 then some 0x17
  else if a.toNat < 0x10000 || populated a.toNat then none
  else some 0x16

/-- A cox access to physical memory waits for bytes that a command has still to write (R217). -/
def State.coxWaits (s : State) (c : Issue) (a : DWord) (k n : Nat) : Bool :=
  c.kholds k (s.core c.core).cox.u && 0x10000 ≤ a.toNat && s.owned 0 0 a.toNat n

/-- A uniform unit of the cox with its own effect and causes (R341); f gives the new state or a cause. -/
def coxUnit (s : State) (c : Issue) (f : Cox → Except Nat State) : Out :=
  match f (s.core c.core).cox with
  | .error cause => .next (s.takeTrap c cause 0 0)
  | .ok s => .next (s.modCore c.core fun k => { k with cox := k.cox.advance c })

/-- A unit that both a group and the cox can run. -/
def groupOrCox (s : State) (cox : Issue → Out) (body : Issue → Group → Res) : Out :=
  match s.cur with
  | none => .fault .noIssue
  | some c => if c.cox then cox c else groupUnit s body

/-- A unit of its own on the cox and on a group. -/
def orCox (s : State) (cox : Issue → Out) (group : Out) : Out :=
  match s.cur with
  | none => .fault .noIssue
  | some c => if c.cox then cox c else group

/-- A guarded unit of the cox (R47, R341). -/
def coxGuarded (s : State) (c : Issue) (f : Cox → Except Nat State) : Out :=
  coxUnit s c fun x => if c.kholds 0 x.u then f x else .ok s

/-- A unit of the cox on n bytes at an address: its causes come first (R341). -/
def coxAt (s : State) (c : Issue) (a : USrc) (n : Nat) (f : Cox → Nat → Except Nat State) : Out :=
  coxGuarded s c fun x =>
    match coxBad (a.get x.u) n with
    | some cause => .error cause
    | none => f x (a.get x.u).toNat

/-- The address of SLD and SST. -/
def uniformAddress (a : USrc) (i : BitVec 13) (u : UFile) : DWord := a.get u + i.signExtend 64

def execSld (d : UDst) (a : USrc) (i : BitVec 13) (s : State) : Out :=
  groupOrCox s
    (fun c =>
      if s.coxWaits c (uniformAddress a i (s.core c.core).cox.u) 0 8 then .next { s with cur := none }
      else coxUnit s c fun x =>
      if c.kholds 0 x.u then
        let ea := uniformAddress a i x.u
        match coxBad ea 8 with
        | some cause => .error cause
        | none =>
          let v := w64 (leNat (s.coxRead c.core ea.toNat 8))
          .ok (s.modCore c.core fun k => { k with cox := { k.cox with u := d.put false v k.cox.u } })
      else .ok s)
    fun c g =>
      if !c.kholds 0 g.u then .ok (s.advance c)
      else
        let ea := uniformAddress a i g.u
        match badAddress 8 [ea] with
        | some h => .error h
        | none =>
          match eachRes (fun p s => s.settleLane c.gkey p ea.toNat 8) (positions c.lanes) s with
          | .error h => .error h
          | .ok s =>
            match s.uniformLoad c g ea.toNat 8 with
            | .error h => .error h
            | .ok (none, s) => .ok s
            | .ok (some bs, s) =>
              .ok ((s.modGroup c.gkey fun g => { g with u := d.put false (w64 (leNat bs)) g.u }).advance c)

/-- The store of a uniform unit for the whole issuing set: parks it on a fault or traps on a cell (R103, R202, R225). -/
def State.uniformStore (s : State) (c : Issue) (g : Group) (va : Nat) (bs : List Byte) : Res :=
  match positions c.lanes with
  | [] => .ok s
  | p :: _ =>
    match s.translate (coreOf c.gkey) (s.asidOf g) va .store with
    | (.fault f, s) =>
      .ok ((s.laneFault c.gkey g p va f .store c.lanes).parkAll c.gkey c.lanes (.fault (s.asidOf g) (va / 65536)))
    | (.to (.peer dev pa), s) =>
      if s.ownsPlace (s.asidOf g) (.peer dev pa) bs.length then .error .hold
      else if s.routeOk dev then .ok ((s.requestOf (c.gkey, p, none) (whose c.gkey p (some c.lanes)) dev va (PeerReq.write pa bs)).2.advance c)
      else .ok ((s.peerFault c.gkey g p va dev .store c.lanes).parkAll c.gkey c.lanes (.peer dev))
    | (.to (.here pa tagged), s) =>
      if s.ownsPlace (s.asidOf g) (.here pa tagged) bs.length then .error .hold
      else if tagged then
        match s.storeCell (some g) pa (bs.length == 32) with
        | .error cause => .error (.trap cause (w64 (va / 32 * 32)) 0)
        | .ok t => .ok (((s.store (some (coreOf c.gkey)) pa bs).setTag pa t).advance c)
      else .ok ((s.store (some (coreOf c.gkey)) pa bs).advance c)

def execSst (d a : USrc) (i : BitVec 13) (s : State) : Out :=
  groupOrCox s
    (fun c =>
      if s.coxWaits c (uniformAddress a i (s.core c.core).cox.u) 0 8 then .next { s with cur := none }
      else coxUnit s c fun x =>
      if c.kholds 0 x.u then
        let ea := uniformAddress a i x.u
        match coxBad ea 8 with
        | some cause => .error cause
        | none => .ok (s.coxWrite c.core ea.toNat (leBytes 8 (d.get x.u).toNat))
      else .ok s)
    fun c g =>
      if !c.kholds 0 g.u then .ok (s.advance c)
      else
        let ea := uniformAddress a i g.u
        match badAddress 8 [ea] with
        | some h => .error h
        | none =>
          match eachRes (fun p s => s.settleLane c.gkey p ea.toNat 8) (positions c.lanes) s with
          | .error h => .error h
          | .ok s => s.uniformStore c g ea.toNat (leBytes 8 (d.get g.u).toNat)

/-! ### Atomics on global memory (R238-R241) -/

/-- The old value of an atomic in its destination; z takes and pushes nothing (R238). -/
def atomicPut (major : Nat) (d : LDst) (old : Nat) (l : Lane) : Lane :=
  if d.isZ then l
  else if major = 0x29 then d.put64 false (w64 old) l
  else d.put32 false (BitVec.ofNat 32 old) l

/-- A lane whose RMW is done: its result, and the demotion of a failed CAS (R147, R240). -/
def State.rmwDone (s : State) (c : Issue) (p major funct : Nat) (d : LDst) (old : Nat) (b : DWord) : State :=
  let s := s.finish c p (atomicPut major d old)
  if casFailed major funct old b then s.modGroup c.gkey fun g => g.demote c.lanes (1#32 <<< p) else s

/-- Posted far atomics of a unit (R239): sent, and the lanes go on at once. -/
def postAll (c : Issue) (major funct : Nat) (b swap : Lane → DWord) (g : Group) (xs : List (Nat × DWord)) : List Posted :=
  xs.map fun (p, a) => ⟨c.gkey, p, c.addr, a.toNat, major, funct, b (g.lane p), swap (g.lane p), none, none⟩

/-- An ATOMG: operands b and swap, the far bit r. -/
def atomG (major funct : Nat) (d : LDst) (a : LSrc) (b swap : Lane → DWord) (r : Bool) (g : Nat) (s : State) : Out :=
  closingLanes s fun c gr =>
    let n := atomicBytes major
    let m := c.taking g gr
    let xs := addresses gr m fun l => effective gr.gbase (a.r32 l) 0 n
    match badLanes n xs with
    | some h => .error h
    | none =>
      if r && d.isZ then
        .ok ((s.modCore (coreOf c.gkey) fun k => { k with posted := k.posted ++ postAll c major funct b swap gr xs }).advance c)
      else
        eachLane c n xs (fun p va near s =>
          match s.laneRmw c.gkey gr p va major funct (b (gr.lane p)) (swap (gr.lane p)) near with
          | .error h => .error h
          | .ok (some old, s) => .ok (s.rmwDone c p major funct d old (b (gr.lane p)))
          | .ok (none, s) => .ok s) (s.skip c m)

/-- 32-bit operands. -/
def atomG32 (major funct : Nat) (d : LDst) (a b : LSrc) (r : Bool) (g : Nat) (s : State) : Out :=
  atomG major funct d a (fun l => (b.r32 l).setWidth 64) (fun _ => 0) r g s

/-- 64-bit operands. -/
def atomG64 (funct : Nat) (d : LDst) (a b : LSrc) (r : Bool) (g : Nat) (s : State) : Out :=
  atomG 0x29 funct d a (fun l => b.r64 l) (fun _ => 0) r g s

def execAtomgAdd (d : LDst) (a b : LSrc) (r : Bool) (g : Nat) (s : State) : Out :=
  atomG32 0x28 0 d a b r g s

def execAtomgMinI (d : LDst) (a b : LSrc) (r : Bool) (g : Nat) (s : State) : Out :=
  atomG32 0x28 1 d a b r g s

def execAtomgMaxI (d : LDst) (a b : LSrc) (r : Bool) (g : Nat) (s : State) : Out :=
  atomG32 0x28 2 d a b r g s

def execAtomgAnd (d : LDst) (a b : LSrc) (r : Bool) (g : Nat) (s : State) : Out :=
  atomG32 0x28 3 d a b r g s

def execAtomgOr (d : LDst) (a b : LSrc) (r : Bool) (g : Nat) (s : State) : Out :=
  atomG32 0x28 4 d a b r g s

def execAtomgXor (d : LDst) (a b : LSrc) (r : Bool) (g : Nat) (s : State) : Out :=
  atomG32 0x28 5 d a b r g s

def execAtomgExch (d : LDst) (a b : LSrc) (r : Bool) (g : Nat) (s : State) : Out :=
  atomG32 0x28 6 d a b r g s

def execAtomgCas (d : LDst) (a : LSrc) (b : Nat) (r : Bool) (g : Nat) (s : State) : Out :=
  atomG 0x28 7 d a (fun l => (l.reg b).setWidth 64) (fun l => (l.reg (b + 1)).setWidth 64) r g s

def execAtomgAddB64 (d : LDst) (a b : LSrc) (r : Bool) (g : Nat) (s : State) : Out :=
  atomG64 0 d a b r g s

def execAtomgMinIB64 (d : LDst) (a b : LSrc) (r : Bool) (g : Nat) (s : State) : Out :=
  atomG64 1 d a b r g s

def execAtomgMaxIB64 (d : LDst) (a b : LSrc) (r : Bool) (g : Nat) (s : State) : Out :=
  atomG64 2 d a b r g s

def execAtomgAndB64 (d : LDst) (a b : LSrc) (r : Bool) (g : Nat) (s : State) : Out :=
  atomG64 3 d a b r g s

def execAtomgOrB64 (d : LDst) (a b : LSrc) (r : Bool) (g : Nat) (s : State) : Out :=
  atomG64 4 d a b r g s

def execAtomgXorB64 (d : LDst) (a b : LSrc) (r : Bool) (g : Nat) (s : State) : Out :=
  atomG64 5 d a b r g s

def execAtomgExchB64 (d : LDst) (a b : LSrc) (r : Bool) (g : Nat) (s : State) : Out :=
  atomG64 6 d a b r g s

def execAtomgCasB64 (d : LDst) (a : LSrc) (b : Nat) (r : Bool) (g : Nat) (s : State) : Out :=
  atomG 0x29 7 d a (fun l => (LSrc.v b).r64 l) (fun l => (LSrc.v (b + 2)).r64 l) r g s

def execAtomgIncb (d : LDst) (a b : LSrc) (r : Bool) (g : Nat) (s : State) : Out :=
  atomG32 0x2A 0 d a b r g s

def execAtomgDecb (d : LDst) (a b : LSrc) (r : Bool) (g : Nat) (s : State) : Out :=
  atomG32 0x2A 1 d a b r g s

def execAtomgFadd (d : LDst) (a b : LSrc) (r : Bool) (g : Nat) (s : State) : Out :=
  atomG32 0x2A 2 d a b r g s

def execAtomgFmin (d : LDst) (a b : LSrc) (r : Bool) (g : Nat) (s : State) : Out :=
  atomG32 0x2A 3 d a b r g s

def execAtomgFmax (d : LDst) (a b : LSrc) (r : Bool) (g : Nat) (s : State) : Out :=
  atomG32 0x2A 4 d a b r g s

def execAtomgMinN (d : LDst) (a b : LSrc) (r : Bool) (g : Nat) (s : State) : Out :=
  atomG32 0x2A 5 d a b r g s

def execAtomgMaxN (d : LDst) (a b : LSrc) (r : Bool) (g : Nat) (s : State) : Out :=
  atomG32 0x2A 6 d a b r g s

/-! ### Atomics on local spaces (R242) -/

/-- Bit 31 of the address chooses the deck (R238). -/
def atomSpace (a : LSrc) (l : Lane) : Space := if (a.r32 l).getLsbD 31 then .deck else .scratch

def atomS (funct : Nat) (d : LDst) (a : LSrc) (b swap : Lane → DWord) (g : Nat) (s : State) : Out :=
  closingLanes s fun c gr =>
    s.localLanes c gr (c.taking g gr) 4 (some 2) (atomSpace a) (fun l => a.r32 l)
      fun p sp tid x s =>
        let old := leNat (s.localBytes tid sp x 4)
        let l := gr.lane p
        let s := match atomicValue 32 (atomicName 0x2B funct) old ((b l).toNat % 2 ^ 32) ((swap l).toNat % 2 ^ 32) with
          | some v => s.setLocal tid sp x (leBytes 4 v)
          | none => s
        s.rmwDone c p 0x2B funct d old (b l)

def atomS32 (funct : Nat) (d : LDst) (a b : LSrc) (g : Nat) (s : State) : Out :=
  atomS funct d a (fun l => (b.r32 l).setWidth 64) (fun _ => 0) g s

def execAtomsAdd (d : LDst) (a b : LSrc) (g : Nat) (s : State) : Out :=
  atomS32 0 d a b g s

def execAtomsMinI (d : LDst) (a b : LSrc) (g : Nat) (s : State) : Out :=
  atomS32 1 d a b g s

def execAtomsMaxI (d : LDst) (a b : LSrc) (g : Nat) (s : State) : Out :=
  atomS32 2 d a b g s

def execAtomsAnd (d : LDst) (a b : LSrc) (g : Nat) (s : State) : Out :=
  atomS32 3 d a b g s

def execAtomsOr (d : LDst) (a b : LSrc) (g : Nat) (s : State) : Out :=
  atomS32 4 d a b g s

def execAtomsExch (d : LDst) (a b : LSrc) (g : Nat) (s : State) : Out :=
  atomS32 5 d a b g s

def execAtomsCas (d : LDst) (a : LSrc) (b g : Nat) (s : State) : Out :=
  atomS 6 d a (fun l => (l.reg b).setWidth 64) (fun l => (l.reg (b + 1)).setWidth 64) g s

def execAtomsIncb (d : LDst) (a b : LSrc) (g : Nat) (s : State) : Out :=
  atomS32 7 d a b g s

end Sys2Proof.Machine
end

