-- ==== Sys2Proof/Machine/Control.lean ====
section
/-! DEFINITION. Branches, jumps, same-width calls, prefixes and plain control forms (R13, R14, R46, R51, R104-R106, R115,
R340), and the traps of a word or a fetch that fails (R55, R107). -/

namespace Sys2Proof.Machine

/-! ### Shared forms -/

/-- The cox goes to an address of its code, which lies in its own memory (log entry 11). -/
def coxTarget (a : DWord) : Option Nat :=
  if a >>> 54 != 0 then some 0x06
  else if a.toNat % 4 != 0 then some 0x07
  else if a.toNat < 0x10000 then none
  else some 0x08

def Cox.jump (a : DWord) (x : Cox) : Cox := { x with pc := a, rep := 0 }

/-- A control unit of the cox: f gives the new cox or a cause. -/
def coxControl (s : State) (c : Issue) (f : Cox → Except Nat Cox) : Out :=
  match f (s.core c.core).cox with
  | .error cause => .next (s.takeTrap c cause 0 0)
  | .ok x => .next (s.modCore c.core fun k => { k with cox := x })

/-- Lanes of a mask continue at an address. -/
def Group.jump (g : Group) (m : Mask) (a : DWord) : Group := g.mapLanes m fun l => { l with vpc := a, rep := 0 }

/-- A unit that only moves on, of a group or of the cox. -/
def plainUnit (s : State) : Out := uniformUnit 0 id s

/-- Every valid bit of a group's latches is cleared (R49). -/
def Group.clearLatches (g : Group) : Group :=
  { g.mapLanes 0xFFFFFFFF#32 (fun l => { l with l := Latches.invalid }) with u := { g.u with q := Latches.invalid } }

/-! ### Branches and jumps -/

/-- BRL (R104). -/
def execBrl (p : Nat) (neg : Bool) (o : BitVec 18) (s : State) : Out :=
  groupUnit s fun c g =>
    let target := c.addr + 4 * o.signExtend 64
    let m := c.lanes &&& g.where fun l => l.pred p != neg
    let rest := g.mapLanes (c.lanes &&& ~~~m) fun l => { l with vpc := c.next }
    if m = 0 then .ok (s.setGroup c.gkey rest)
    else
      match checkTarget (s.core (coreOf c.gkey)) c.gkey target with
      | some h => .error h
      | none =>
        .ok ((s.setGroup c.gkey (rest.jump m target)).modCore (coreOf c.gkey) fun k =>
          k.capture c.gkey c.addr.toNat target.toNat)

/-- BRA (R105). -/
def execBra (k : Nat) (neg : Bool) (o : BitVec 21) (s : State) : Out :=
  groupOrCox s
    (fun c => coxControl s c fun x =>
      let target := c.addr + 4 * o.signExtend 64
      if x.u.pred k != neg then
        match coxTarget target with
        | some cause => .error cause
        | none => .ok (x.jump target)
      else .ok (x.advance c))
    fun c g =>
      let target := c.addr + 4 * o.signExtend 64
      if g.u.pred k != neg then
        match checkTarget (s.core (coreOf c.gkey)) c.gkey target with
        | some h => .error h
        | none =>
          .ok ((s.setGroup c.gkey (g.jump c.lanes target)).modCore (coreOf c.gkey) fun x =>
            x.capture c.gkey c.addr.toNat target.toNat)
      else .ok (s.advance c)

/-- The first target of a list that fails its check. -/
def firstBadTarget (k : Core) (gkey : Nat) : List DWord → Option Halt
  | [] => none
  | a :: as =>
    match checkTarget k gkey a with
    | some h => some h
    | none => firstBadTarget k gkey as

/-- JML (R106). -/
def execJml (d : LDst) (a : LSrc) (g : Nat) (s : State) : Out :=
  groupUnit s fun c gr =>
    let m := c.taking g gr
    match firstBadTarget (s.core (coreOf c.gkey)) c.gkey ((gr.order m).map fun p => a.r64 (gr.lane p)) with
    | some h => .error h
    | none =>
      .ok ((s.skip c m).modGroup c.gkey fun x => x.mapLanes m fun l =>
        { d.set64 c.next l with vpc := a.r64 l, rep := 0 })

/-! ### Same-width calls (R14) -/

/-- A call to a function whose frame exceeds that of the callee the lanes run in traps (R152). -/
def State.frameCheck (s : State) (c : Issue) (g : Group) (h : Header) : Option Halt :=
  match (positions c.lanes).find? fun p => s.inner c.gkey g p != .none && s.frameAt c.gkey g p < h.frame with
  | some p => some (.trap 0x0D (c.word.setWidth 64) (w64 (s.frameAt c.gkey g p)))
  | none => none

/-- A taken CALL or CALLI of a group. -/
def State.callTo (s : State) (c : Issue) (g : Group) (target : DWord) : Res :=
  match checkCall (s.core (coreOf c.gkey)) c.gkey target 0 with
  | .error h => .error h
  | .ok h =>
    match s.frameCheck c g h with
    | some t => .error t
    | none => .ok (s.setGroup c.gkey ({ g with u := g.u.setReg 55 c.next }.jump c.lanes target))

/-- A call of the cox: its header stands in its own memory. -/
def Cox.callTo (c : Issue) (target : DWord) (x : Cox) : Except Nat Cox :=
  match coxTarget target with
  | some cause => .error cause
  | none =>
    match coxTarget (target - 4) with
    | some cause => .error cause
    | none =>
      match Header.parse (w32 (leNat (mread x.mem (target - 4).toNat 4))) with
      | none => .error 0x0B
      | some h => if h.rule = 0 then .ok ({ x with u := x.u.setReg 55 c.next }.jump target) else .error 0x0C

def execCall (k : Nat) (neg : Bool) (o : BitVec 21) (s : State) : Out :=
  groupOrCox s
    (fun c => coxControl s c fun x =>
      if x.u.pred k != neg then x.callTo c (c.addr + 4 * o.signExtend 64) else .ok (x.advance c))
    fun c g =>
      match if g.u.pred k != neg then s.callTo c g (c.addr + 4 * o.signExtend 64) else .ok (s.advance c) with
      | .error h => .error h
      | .ok s => .ok (s.modGroup c.gkey (Group.close c))

def execCalli (a : USrc) (k : Nat) (s : State) : Out :=
  groupOrCox s
    (fun c => coxControl s c fun x => if c.kholds k x.u then x.callTo c (a.get x.u) else .ok (x.advance c))
    fun c g =>
      match if c.kholds k g.u then s.callTo c g (a.get g.u) else .ok (s.advance c) with
      | .error h => .error h
      | .ok s => .ok (s.modGroup c.gkey (Group.close c))

/-! ### Header and prefixes as words (R13, R46, R51) -/

/-- HDR has no effect but the advance. -/
def execHdr (_r : Nat) (_coupled : Bool) (_f : Nat) (_t : BitVec 16) (s : State) : Out :=
  plainUnit s

/-- GUARD gives the unit under issue its guard. -/
def execGuard (p : Nat) (n : Bool) (s : State) : Out :=
  match s.cur with
  | none => .fault .noIssue
  | some c => .next { s with cur := some { c with guard := some (p, n) } }

/-- REP gives the unit under issue its count and steps; 0 stands for 64, and later issues take the count kept from the first
(R53). -/
def execRep (n : Nat) (d a b : Bool) (s : State) : Out :=
  match s.cur with
  | none => .fault .noIssue
  | some c => .next { s with cur := some { c with rep := some (if c.idx != 0 then c.kept else if n = 0 then 64 else n, d, a, b) } }

/-! ### Plain forms (R115, R340) -/

def execNop (s : State) : Out :=
  plainUnit s

/-- BRK raises the breakpoint trap; a false guard skips it. -/
def execBrk (s : State) : Out :=
  groupOrCox s
    (fun c => coxControl s c fun x => if c.kholds 0 x.u then .error 0x04 else .ok (x.advance c))
    fun c g => if c.kholds 0 g.u then .error (.trap 0x04 0 0) else .ok (s.advance c)

/-- TRAP raises the software trap with its operand (R340). -/
def execTrap (a : USrc) (s : State) : Out :=
  groupOrCox s
    (fun c => coxControl s c fun x => if c.kholds 0 x.u then .error 0x05 else .ok (x.advance c))
    fun c g => if c.kholds 0 g.u then .error (.trap 0x05 (a.get g.u) 0) else .ok (s.advance c)

/-- REGION closes the region whatever its guard (R327, R340). -/
def execRegion (s : State) : Out :=
  groupOrCox s (fun c => coxControl s c fun x => .ok (x.advance c))
    fun c _ => .ok ((s.advance c).modGroup c.gkey (Group.close c))

/-- YIELD: the seat goes to another group that would issue, if any, and the latches are cleared by R49. -/
def execYield (s : State) : Out :=
  groupOrCox s (fun c => coxControl s c fun x => .ok (x.advance c))
    fun c g =>
      let s := s.advance c
      if c.kholds 0 g.u && c.others then .ok ((s.leaveSeat c.gkey).modGroup c.gkey Group.clearLatches)
      else .ok s

/-! ### Words and fetches that fail (R55, R107) -/

/-- A reserved or unassigned word, or one that fails the checks of R55: the first word of the unit is the detail. -/
def execIllegalInstruction (s : State) : Out :=
  match s.cur with
  | none => .fault .noIssue
  | some c => .next (s.takeTrap c 0x01 (c.first.setWidth 64) 0)

/-- A fetch that no entry serves; `next` of the unit holds the address. With auto-land the segment lands instead. -/
def execCodeNotLanded (s : State) : Out :=
  groupOrCox s (fun c => .next (s.takeTrap c 0x08 c.next 0))
    fun c _ => .error (.trap 0x08 c.next 0)

end Sys2Proof.Machine
end

