-- ==== Sys2Proof/Machine/Flags.lean ====
section
/-! DEFINITION. Numerical flags of the engines (R34) and accumulation of exact k-step sums (R30, R31). Lane instructions
record no flags (R18). -/

namespace Sys2Proof.Machine

/-! ### Flag bits (R34) -/

def flagInvalid : Nat := 1
def flagOver : Nat := 2
def flagNanin : Nat := 4
def flagUnder : Nat := 8
def flagReplay : Nat := 16
def flagSqstall : Nat := 32

/-- over and under of a value narrowed by Round with a mode, and its range rule. -/
def FFmt.narrowFlags (f : FFmt) (mode : RMode) (u : Word) (x : FVal) : Nat :=
  match x with
  | .fin neg m e =>
    let (n, d) := dyadic m e
    let c := f.roundCode mode neg n d u
    if m = 0 then 0
    else if c > f.top && !mode.inward neg then flagOver
    else if c < 2 ^ f.frac && !((f.value (f.sign neg c)).eq? x) then flagUnder
    else 0
  | _ => 0

/-- Flags of a NaN that a result holds: nanin for a NaN operand, else invalid. -/
def nanFlags (operandNan resultNan : Bool) : Nat :=
  if operandNan then flagNanin else if resultNan then flagInvalid else 0

def FVal.isNan (x : FVal) : Bool := x == .nan

/-! ### Accumulation (R30, R31) -/

/-- An exact real sum has no negative zero. -/
def FVal.plain : FVal → FVal
  | .fin n m e => if m = 0 then .fin false 0 e else .fin n m e
  | x => x

/-- A subnormal replaced by zero of the same sign (R31). -/
def FFmt.flush (f : FFmt) (b : Nat) : Nat :=
  let c := b % 2 ^ (f.exp + f.frac)
  if c < 2 ^ f.frac then b - c else b

/-- One addition to an accumulator of a format: the new value and its flags. -/
def FFmt.accumulate (f : FFmt) (flush : Bool) (acc : Nat) (products : List FVal) (operandNan : Bool) : Nat × Nat :=
  let sum := (FVal.sum products).plain
  let x := FVal.add (f.value acc) sum
  let r := f.rne x
  let r' := if flush then f.flush r else r
  let nan := nanFlags operandNan (x.isNan && !(f.value acc).isNan)
  (r', f.narrowFlags .rne 0 x ||| nan ||| (if r' = r then 0 else flagUnder))

/-- Consecutive groups of four. -/
def fours {α : Type} : List α → List (List α)
  | a :: b :: c :: d :: t => [a, b, c, d] :: fours t
  | [] => []
  | t => [t]

/-- The additions one k-step makes: one sum, or groups of four under nbv 0. Each product comes with whether one of its
operands is a NaN. -/
def FFmt.kStep (f : FFmt) (nbv : Nat) (acc : Nat) (products : List (FVal × Bool)) : Nat × Nat :=
  let gs := if nbv = 0 then fours products else [products]
  gs.foldl (fun (a, fl) g =>
    let (a', fl') := f.accumulate (nbv == 0) a (g.map Prod.fst) (g.any Prod.snd)
    (a', fl ||| fl')) (acc, 0)

end Sys2Proof.Machine
end

