-- ==== Sys2Proof/Machine/Rendezvous.lean ====
section
/-! DEFINITION. What completes when lanes arrive or exit: collectives (R145, R166-R170, R179, R180), joins (R144),
barriers (R171-R173), REGROUP (R146), and the test of GATHER (R154, R155). -/

namespace Sys2Proof.Machine

/-! ### Results of collectives -/

/-- A contributor: rank and what it brought. -/
abbrev Contrib := Nat × Arrival

def contribAt (cs : List Contrib) (r : Int) : Option Arrival := (cs.find? fun x => (x.1 : Int) == r).map Prod.snd

/-- The rank a member reads from (R167). -/
def sourceRank (op : CollOp) (r s : Nat) (b : Word) : Int :=
  match op with
  | .xxor => ((r ^^^ (b.toNat % 32) : Nat) : Int)
  | .xrot => (((r + b.toNat) % s : Nat) : Int)
  | .xshift => (r : Int) + b.toInt
  | _ => (b.toNat : Int)

/-- An exchange: a of the source, else its own (R167). -/
def exchange (cs : List Contrib) (s : Nat) (src : Int) (own : Word) : Word :=
  if src < s then match contribAt cs src with | some x => x.a | none => own else own

/-- The member XLID names: the lowest-positioned one with that lid. -/
def lidSource (g : Group) (members : Mask) (cs : List Contrib) (b own : Word) : Word :=
  match (positions members).find? fun p => (g.lane p).lid == b with
  | some p => match cs.find? fun x => x.2.pos == p with | some x => x.2.a | none => own
  | none => own

/-- The operation of a reduction over two contributions. -/
def reduceWords (f : Word → Word → Word) : List Word → Word
  | [] => 0
  | [x] => x
  | x :: xs => f x (reduceWords f xs)

def wordMinI (a b : Word) : Word := if a.toInt ≤ b.toInt then a else b
def wordMaxI (a b : Word) : Word := if a.toInt ≤ b.toInt then b else a
def wordMinN (a b : Word) : Word := if a.toNat ≤ b.toNat then a else b
def wordMaxN (a b : Word) : Word := if a.toNat ≤ b.toNat then b else a
def wordMinF (a b : Word) : Word := if totalOrder 32 a.toNat b.toNat then a else b
def wordMaxF (a b : Word) : Word := if totalOrder 32 a.toNat b.toNat then b else a

/-- The exact FP32 sum of contributions (R33). -/
def exactSum (xs : List Word) : Word := w32 (fp32.rne (FVal.sum (xs.map fun x => fp32.value x.toNat)))

/-- A mask with the ranks of some contributors. -/
def rankMask (cs : List Contrib) (f : Arrival → Bool) : Word := maskOf ((cs.filter fun x => f x.2).map Prod.fst)

/-- The word result of a contributor of rank r (R167-R170). -/
def collWord (op : CollOp) (g : Group) (members : Mask) (cs : List Contrib) (r : Nat) (x : Arrival) : Word :=
  let s := (positions members).length
  let as := cs.map fun c => c.2.a
  match op with
  | .xlid => lidSource g members cs x.b x.a
  | .pmask => rankMask cs (·.pv)
  | .matchEq => rankMask cs fun y => y.a == x.a
  | .compact =>
    match ((cs.filter fun c => c.2.pv).map fun c => c.2.a)[r]? with
    | some a => a
    | none => 0
  | .mrank => w32 ((positions x.a).filter (· < r)).length
  | .redAdd => as.foldl (· + ·) 0
  | .redFadd => exactSum as
  | .redMinI => reduceWords wordMinI as
  | .redMinN => reduceWords wordMinN as
  | .redMinF => reduceWords wordMinF as
  | .redMaxI => reduceWords wordMaxI as
  | .redMaxN => reduceWords wordMaxN as
  | .redMaxF => reduceWords wordMaxF as
  | .scanAdd => ((cs.filter fun c => c.1 < r).map fun c => c.2.a).foldl (· + ·) 0
  | op => exchange cs s (sourceRank op r s x.b) x.a

/-- The predicate result of PANY and PALL, none for the other forms. -/
def collPred (op : CollOp) (cs : List Contrib) : Option Bool :=
  match op with
  | .pany => some (cs.any fun c => c.2.pv)
  | .pall => some (cs.all fun c => c.2.pv)
  | _ => none

/-! ### Fragments (R178-R180) -/

/-- Bits of an element of a fragment, and elements along K of a step (R30). -/
def Fmt.bits : Fmt → Nat
  | .bf16 => 16 | .f16 => 16 | .e4m3 => 8 | .e5m2 => 8 | .i8 => 8 | .f4b => 4

def Fmt.step : Fmt → Nat
  | .bf16 => 16 | .f16 => 16 | .e4m3 => 32 | .e5m2 => 32 | .i8 => 32 | .f4b => 64

/-- The value of an element; F4B elements take a scale and a spare byte. -/
def Fmt.elem (f : Fmt) (x scale spare : Nat) : FVal :=
  match f with
  | .bf16 => Sys2Proof.Machine.bf16.value x
  | .f16 => Sys2Proof.Machine.fp16.value x
  | .e4m3 => Sys2Proof.Machine.e4m3.value x
  | .e5m2 => Sys2Proof.Machine.e5m2.value x
  | .i8 => intVal (BitVec.ofNat 8 x).toInt
  | .f4b => f4bValue x scale spare

/-- Element k of row r of A, or column r of B, from the lanes that supply operands (R179). -/
def fragElem (f : Fmt) (g : Group) (supply : Mask) (reg : Nat) (share : Bool) (r k : Nat) : FVal :=
  let half := f.step / 2
  let p := r + 16 * (k / half)
  let i := k % half
  if supply.getLsbD p then
    let l := g.lane p
    let x := bits (l.run reg 4) (f.bits * i + f.bits - 1) (f.bits * i)
    let side := (l.reg (reg + 4)).toNat
    let b := if share then 0 else i / 16
    f.elem x (bits side (16 * b + 7) (16 * b)) (bits side (16 * b + 15) (16 * b + 8))
  else .fin false 0 0

/-- One element of C (R180). -/
def fragC (f : Fmt) (g : Group) (supply : Mask) (nbv a b sel : Nat) (c : Word) (i j : Nat) : Word :=
  let ps := (List.range f.step).map fun k =>
    let x := fragElem f g supply a (sel % 2 == 1) i k
    let y := fragElem f g supply b (sel / 2 == 1) j k
    (x.mul y, x.isNan || y.isNan)
  match f with
  | .i8 =>
    let sum := ps.foldl (fun t p => match p.1 with | .fin n m e => t + mantAt n m e 0 | _ => t) (0 : Int)
    c + BitVec.ofInt 32 sum
  | _ => w32 (fp32.kStep nbv c.toNat ps).1

/-- The C registers of a lane: row r, columns 8h to 8h + 7. -/
def fragLane (f : Fmt) (g : Group) (supply : Mask) (nbv d a b sel : Nat) (acc : Bool) (p : Nat) (l : Lane) : Lane :=
  (List.range 8).foldl (fun x j =>
    x.setReg (d + j) (fragC f g supply nbv a b sel (if acc then l.reg (d + j) else 0) (p % 16) (8 * (p / 16) + j))) l

/-! ### Completion of a collective (R145, R166) -/

/-- The lane goes on after its collective. -/
def Collective.resume (x : Collective) (l : Lane) : Lane :=
  match x.again with
  | some i => { l with state := .active, rep := i }
  | none => { l with state := .active, vpc := x.next, rep := 0 }

/-- The lane of an arrived member with its result. -/
def Collective.result (x : Collective) (g : Group) (nbv : Nat) (y : Arrival) : Lane :=
  let l := g.lane y.pos
  if !y.contrib then l
  else
    let cs := (x.arrived.filter (·.contrib)).map fun z => (rankOf x.members z.pos, z)
    let cs := (List.range 32).flatMap fun r => cs.filter fun c => c.1 == r
    match x.op with
    | .mfrag f d a b sel acc => fragLane f g (maskOf (cs.map fun c => c.2.pos)) nbv d a b sel acc y.pos l
    | op =>
      match collPred op cs with
      | some v => l.setPred x.pdst v
      | none => x.dst.put32 x.nwb (collWord op g x.members cs (rankOf x.members y.pos) y) l

/-- Every non-exited member has arrived. -/
def Collective.full (x : Collective) (g : Group) : Bool :=
  (positions x.members).all fun p => (g.lane p).gone || x.arrived.any (·.pos == p)

/-- Complete collectives of a group are carried out. -/
def Group.finishColls (g : Group) (nbv : Nat) : Group :=
  let done := g.colls.filter (·.full g)
  let g' := done.foldl (fun h x => x.arrived.foldl (fun h y => h.setLane y.pos (x.resume (x.result g nbv y))) h) g
  { g' with colls := g.colls.filter fun x => !x.full g }

/-! ### Joins (R144) -/

/-- The lanes of a rejoin mask become active once all wait at it or have exited. -/
def Group.finishJoin (g : Group) (j : Nat) : Group :=
  let m := g.joins[j]?.getD 0
  let wait := g.where fun l => l.state == .waiting (.join j)
  if m != 0 && (positions m).all fun p => wait.getLsbD p || (g.lane p).gone then
    { g.mapLanes (wait &&& m) (fun l => { l with state := .active }) with joins := g.joins.setIfInBounds j 0 }
  else g

def Group.finishJoins (g : Group) : Group := (List.range 4).foldl Group.finishJoin g

/-! ### Barriers (R171-R173) -/

def Group.atBarrier (g : Group) (b : BarKind) : Mask := g.where fun l => l.state == .parked (.barrier b)

/-- Every non-exited lane is parked at a barrier of one of the kinds. -/
def Group.allAt (g : Group) (ks : List BarKind) : Bool :=
  (List.range 32).all fun p => (g.lane p).gone || ks.any fun b => (g.lane p).state == .parked (.barrier b)

/-- The groups a team places its own lanes in. -/
def State.ownGroups (s : State) (tid : Nat) : List (Nat × Group) :=
  s.groups.filter fun (_, g) => g.tid == tid && g.kind == .own

def Group.wakeBarrier (g : Group) (b : BarKind) : Group :=
  g.mapLanes (g.atBarrier b) fun l => { l with state := .active }

/-- A completed barrier wakes the lanes of groups and acts as their acquire at its scope. -/
def State.wakeGroups (s : State) (ks : List Nat) (b : BarKind) (scope : Nat) : State :=
  ks.foldl (fun s k => (s.acquire k scope).modGroup k (·.wakeBarrier b)) s

/-- The lanes of U by rank have all arrived (R172). -/
def Group.maskArrived (g : Group) (u : Mask) : Bool :=
  let members := g.where fun l => l.state != .absent
  (positions members).all fun p =>
    !u.getLsbD (rankOf members p) || (g.lane p).gone || (g.lane p).state == .parked (.barrier .mask)

/-- BAR.mask completes, or its masks differ and the group traps, its lanes still parked; the union begins anew. -/
def State.finishMask (s : State) (gkey : Nat) (unit : DWord) (lanes : Mask) : State :=
  match tget s.groups gkey with
  | none => s
  | some g =>
    match g.barMask with
    | none => s
    | some b =>
      if !g.maskArrived b.union then s
      else
        match b.differ with
        | some m =>
          if g.stop.isSome then s
          else (s.setGroup gkey { g with barMask := none }).trapGroup gkey unit lanes 0xFFFFFFFF#32 0x15
            (b.first.setWidth 64) (m.setWidth 64)
        | none => s.setGroup gkey { g.wakeBarrier .mask with barMask := none }

/-- The team barrier: completes, ends the phase, or traps on mixed forms. -/
def State.finishTeam (s : State) (tid gkey : Nat) (unit : DWord) (lanes : Mask) : State :=
  match tget s.teams tid with
  | none => s
  | some t =>
    let gs := s.ownGroups tid
    if !(t.bar.plain || t.bar.yield) || !gs.all fun x => x.2.allAt [.team, .teamYield] then s
    else if t.bar.plain && t.bar.yield then
      if (tget s.groups gkey).any fun g => g.stop.isSome then s
      else (s.setTeam tid { t with bar := ⟨false, false⟩ }).trapGroup gkey unit lanes 0xFFFFFFFF#32 0x15 1 2
    else if t.bar.plain then
      (s.wakeGroups (gs.map Prod.fst) .team 1).setTeam tid { t with bar := ⟨false, false⟩ }
    else
      ((gs.map Prod.fst).foldl (fun s k => s.modGroup k fun g =>
        g.mapLanes (g.atBarrier .teamYield) fun l => { l with state := .parked .phaseYield }) s).setTeam tid
          { t with bar := ⟨false, false⟩ }

/-- The cluster barrier. -/
def State.finishCluster (s : State) (tid : Nat) : State :=
  match tget s.teams tid with
  | none => s
  | some t =>
    let gs := t.cluster.flatMap s.ownGroups
    if gs.any (fun x => x.2.atBarrier .clus != 0) && gs.all fun x => x.2.allAt [.clus] then
      s.wakeGroups (gs.map Prod.fst) .clus 2
    else s

/-! ### REGROUP (R146, R177) -/

/-- The lane is parked at a REGROUP, at a barrier, or gone. -/
def Lane.regroupReady (l : Lane) : Bool :=
  l.gone || match l.state with | .parked .regroup => true | .parked (.barrier _) => true | _ => false

/-- The addresses of REGROUPs at which lanes are parked, with their lanes by logical number; a lane's `vpc` stands at the
unit after its REGROUP. -/
def regroupLanes (gs : List (Nat × Group)) : List (DWord × List (Nat × Lane)) :=
  let ls := gs.flatMap fun (k, g) => (positions (g.where fun l => l.state == .parked .regroup)).map fun p => (k, g.lane p)
  let vs := sortBy id ((ls.map fun x => x.2.vpc.toNat).eraseDups)
  vs.map fun v =>
    let here := ls.filter fun x => x.2.vpc.toNat == v
    let ids := sortBy id ((here.map fun x => x.2.lid.toNat).eraseDups)
    (w64 v, ids.flatMap fun i => here.filter fun x => x.2.lid.toNat == i)

def chunks {α : Type} : Nat → List α → List (List α)
  | 0, _ => []
  | n + 1, xs => if xs.isEmpty then [] else xs.take 32 :: chunks n (xs.drop 32)

/-- A lane goes on after its REGROUP: its latches are invalid, as they stand after the instruction that closed its region
(R50, R146). -/
def Lane.regrouped (l : Lane) : Lane :=
  { l with state := .active, l := Latches.invalid, entryL := Latches.invalid, atClose := none, dem := 0 }

/-- A group that takes repacked lanes: uniform state of the group that held its lowest logical lane, and what any of the
lanes' groups has acquired (R210). -/
def regroupInto (home : Group) (from_ : List Group) (index : Nat) (xs : List (Nat × Lane)) : Group :=
  from_.foldl Group.learn { home with
    index := index
    u := { home.u with q := Latches.invalid }
    entryQ := Latches.invalid
    leader := none
    colls := []
    barMask := none
    lanes := Vector.ofFn fun i =>
      match xs[i.val]? with
      | some (_, l) => l.regrouped
      | none => Lane.blank }

/-- A group slot for a group of an index of a team: that of the group that has the index, else a free one. -/
def State.regroupSlot (s : State) (t : Team) (gs : List (Nat × Group)) (index : Nat) : Option (Nat × State) :=
  match gs.find? fun x => x.2.index == index with
  | some x => some (x.1, s)
  | none => s.newSlot t.core

/-- The lanes parked at REGROUP go on where they are. -/
def Group.regroupHere (g : Group) : Group :=
  let m := g.where fun l => l.state == .parked .regroup
  if m = 0 then g
  else { g.mapLanes m Lane.regrouped with u := { g.u with q := Latches.invalid }, entryQ := Latches.invalid, leader := none }

/-- Parts of the repacked lanes go into groups of a team: index, lanes. -/
def State.regroupParts (s : State) (t : Team) (gs : List (Nat × Group)) : List (Nat × List (Nat × Lane)) → State
  | [] => s
  | (index, xs) :: rest =>
    match xs, s.regroupSlot t gs index with
    | (src, _) :: _, some (k, s) =>
      match gs.find? (·.1 == src) with
      | some (_, home) =>
        let from_ := (gs.filter fun x => xs.any (·.1 == x.1)).map Prod.snd
        (s.setGroup k (regroupInto home from_ index xs)).regroupParts t gs rest
      | none => s.regroupParts t gs rest
    | _, _ => s.regroupParts t gs rest

/-- Accesses at peers that lanes of a team have under way go with the lanes, which are known by their logical numbers. -/
def State.moveWaits (before s : State) (tid : Nat) : State :=
  let now := fun (y : Nat × Nat) =>
    match (tget before.groups y.1).filter fun g => g.tid == tid && g.kind == .own with
    | none => y
    | some g =>
      ((s.ownGroups tid).findSome? fun x =>
        ((List.range 32).find? fun p => (x.2.lane p).state != .absent && (x.2.lane p).lid == (g.lane y.2).lid).map fun p => (x.1, p)).getD y
  { s with peerWaits := s.peerWaits.map fun x =>
      if x.2.unit.isSome || 32 ≤ x.2.pos then x
      else
        let w := now (x.2.gkey, x.2.pos)
        let ls := x.2.lanes.map now
        (x.1, { x.2 with
          gkey := w.1, pos := w.2, lanes := ls
          shown := if x.2.shown = 0xFFFFFFFF#32 then x.2.shown
            else maskOf (ls.filterMap fun y => if y.1 = w.1 then some y.2 else none) }) }

/-- REGROUP repacks the lanes of a team once all are ready: groups of the indices at which no lane is at a barrier are
filled in order, and those left over are freed. Where the team has too few such indices the lanes go on where they are (log
entry 12). -/
def State.finishRegroup (s : State) (tid : Nat) : State :=
  match tget s.teams tid with
  | none => s
  | some t =>
    let gs := s.ownGroups tid
    let parked := regroupLanes gs
    if parked.isEmpty || gs.any (fun x => x.2.stop.isSome) ||
        !gs.all fun x => (List.range 32).all fun p => (x.2.lane p).regroupReady then s
    else
      let parts := parked.flatMap fun x => chunks 64 x.2
      let kept := gs.filter fun x => (List.range 32).any fun p =>
        match (x.2.lane p).state with | .parked (.barrier _) => true | _ => false
      let free := (List.range t.desc.groups).filter fun i => !kept.any fun x => x.2.index == i
      if free.length < parts.length then gs.foldl (fun s x => s.modGroup x.1 Group.regroupHere) s
      else
        let s := kept.foldl (fun s x => s.modGroup x.1 fun g =>
          g.mapLanes (g.where fun l => l.state == .parked .regroup) fun _ => Lane.blank) s
        let used := free.take parts.length
        let s := s.moveWaits (s.regroupParts t gs (used.zip parts)) tid
        let spare := gs.filter fun x => !kept.any (·.1 == x.1) && !used.contains x.2.index
        spare.foldl (fun s x => s.dropGroup x.1) s

/-! ### The test of GATHER (R154, R155) -/

def Lane.gatherReady (l : Lane) : Bool :=
  l.gone || match l.state with | .parked (.gather _ _ _) => true | .parked (.barrier _) => true | _ => false

/-- The groups that combine with a group under `.team`; a reserve group combines only with itself (log entry 13). -/
def State.gatherSet (s : State) (gkey : Nat) (g : Group) (team : Bool) : List (Nat × Group) :=
  if !team then [(gkey, g)]
  else
    match g.kind with
    | .own => s.ownGroups g.tid
    | .fresh c => s.groups.filter fun (_, h) => h.kind == .fresh c
    | _ => [(gkey, g)]

/-- A caller parked at a GATHER: group, position, lid, target, nesting level. -/
structure Gatherer where
  gkey   : Nat
  pos    : Nat
  lid    : Nat
  target : DWord
  level  : Nat
deriving DecidableEq, Repr

/-- A lane is free to be a caller: no open firing holds it, but for those whose callee thread it runs (R158). -/
def Team.freeCaller (t : Team) (k p : Nat) : Bool :=
  t.firings.all fun f => !f.callers.contains (k, p) || (f.thread == some (k, p) && !f.block)

/-- Callers of a kind that no firing holds yet, in ascending logical order. -/
def gatherers (t : Team) (set : List (Nat × Group)) (team : Bool) : List Gatherer :=
  let xs := set.flatMap fun (k, g) => (List.range 32).filterMap fun p =>
    match (g.lane p).state with
    | .parked (.gather b target _) =>
      if b == team && t.freeCaller k p then
        some (⟨k, p, (g.lane p).lid.toNat, target, (g.lane p).nest + 1⟩ : Gatherer)
      else none
    | _ => none
  let ids := sortBy id ((xs.map (·.lid)).eraseDups)
  ids.flatMap fun i => xs.filter fun x => x.lid == i

def runsOf (n : Nat) (target : DWord) (xs : List (Nat × Nat)) : List GatherRun :=
  match n with
  | 0 => []
  | n + 1 => if xs.isEmpty then [] else ⟨target, xs.take 512⟩ :: runsOf n target (xs.drop 512)

/-- The runs of a firing: one invocation per callee address, ascending, cut at 512 callers. -/
def firingOf (level : Nat) (xs : List Gatherer) : Firing :=
  let ts := sortBy id ((xs.map fun x => x.target.toNat).eraseDups)
  { level := level
    begun := false
    stuck := false
    saved := none
    runs := ts.flatMap fun t => runsOf 64 (w64 t) ((xs.filter fun x => x.target.toNat == t).map fun x => (x.gkey, x.pos))
    callers := xs.map fun x => (x.gkey, x.pos)
    thread := none
    block := false
    hdr := 0
    wait := none }

/-- The test of a kind for the combining set of a group: where it holds, its callers are fixed in a firing per level. -/
def State.testGather (s : State) (gkey : Nat) (team : Bool) : State :=
  match tget s.groups gkey with
  | none => s
  | some g =>
    match tget s.teams g.tid with
    | none => s
    | some t =>
      let set := s.gatherSet gkey g team
      if !set.all fun x => (List.range 32).all fun p => (x.2.lane p).gatherReady then s
      else
        let xs := gatherers t set team
        let levels := sortBy id ((xs.map (·.level)).eraseDups)
        s.setTeam g.tid { t with firings := t.firings ++ levels.map fun v => firingOf v (xs.filter fun x => x.level == v) }

/-! ### All of them -/

/-- What an arrival or an exit in a group may complete; the unit and lanes name the arrival for a barrier trap. -/
def State.rendezvous (s : State) (gkey : Nat) (unit : DWord) (lanes : Mask) : State :=
  match tget s.groups gkey with
  | none => s
  | some g =>
    let nbv := ((tget s.teams g.tid).map (·.desc.nbv)).getD 1
    let s := s.setGroup gkey ((g.finishColls nbv).finishJoins)
    let s := s.finishMask gkey unit lanes
    let s := s.finishTeam g.tid gkey unit lanes
    let s := (s.finishCluster g.tid).finishRegroup g.tid
    (s.testGather gkey false).testGather gkey true

end Sys2Proof.Machine
end

