-- ==== Sys2Proof/Machine/Cross.lean ====
section
/-! DEFINITION. Collectives (R166-R170), barriers and joins (R171-R174), election, partitions and the lane map (R175-R177),
fragments (R178-R181). -/

namespace Sys2Proof.Machine

/-! ### Arrival at a collective (R145, R166) -/

/-- What a unit of a collective gives its arrivals. -/
structure CollUnit where
  op   : CollOp
  dst  : LDst
  pdst : Nat
  nwb  : Bool
  part : Nat
  /-- the guard field (MFRAG has one) -/
  g    : Nat
  a    : Lane → Word
  b    : Lane → Word
  pv   : Lane → Bool

/-- The member's arrival joins a collective under way at this address that has it as a member, else it begins one. -/
def joinColl (c : Issue) (u : CollUnit) (members : Mask) (x : Arrival) : List Collective → List Collective
  | [] => [{ addr := c.addr, op := u.op, dst := u.dst, pdst := u.pdst, nwb := u.nwb, next := c.next, again := if c.idx + 1 < c.count then some (c.idx + 1) else none, members := members, arrived := [x] }]
  | y :: ys =>
    if y.addr == c.addr && y.members.getLsbD x.pos && !y.arrived.any (·.pos == x.pos) then
      { y with arrived := y.arrived ++ [x] } :: ys
    else y :: joinColl c u members x ys

/-- Members of the unit's partition for a position; XLID has the whole group (R167). -/
def State.collMembers (s : State) (gkey : Nat) (g : Group) (u : CollUnit) (p : Nat) : Mask :=
  match u.op, s.inner gkey g p with
  | .xlid, .serial _ => s.membersOf gkey g 0 p
  | .xlid, .threadHere _ _ => s.membersOf gkey g 0 p
  | .xlid, _ => g.where fun l => l.state != .absent
  | _, _ => s.membersOf gkey g u.part p

/-- The lanes of the issuing set arrive and wait. -/
def State.arrive (s : State) (c : Issue) (g : Group) (u : CollUnit) : State :=
  let colls := (positions c.lanes).foldl (fun xs p =>
    let l := g.lane p
    joinColl c u (s.collMembers c.gkey g u p) ⟨p, c.holds u.g l, u.a l, u.b l, u.pv l⟩ xs) g.colls
  (s.setGroup c.gkey
    { g.mapLanes c.lanes (fun l =>
        { l with state := .waiting .collective, repN := if c.idx + 1 < c.count then c.count else l.repN }) with colls := colls }).rendezvous
    c.gkey c.addr c.lanes

def collective (u : CollUnit) (s : State) : Out :=
  groupUnit s fun c g => coupledOnly s c g (.ok (s.arrive c g u))

/-- Two lane operands, a word result. -/
def coll2 (op : CollOp) (d : LDst) (a b : LSrc) (n : Bool) (x : Nat) (s : State) : Out :=
  collective ⟨op, d, 0, n, x, 0, fun l => a.r32 l, fun l => b.r32 l, fun _ => false⟩ s

/-- One lane operand, a word result. -/
def coll1 (op : CollOp) (d : LDst) (a : LSrc) (n : Bool) (x : Nat) (s : State) : Out :=
  collective ⟨op, d, 0, n, x, 0, fun l => a.r32 l, fun _ => 0, fun _ => false⟩ s

/-- A predicate operand and a predicate result (R168). -/
def collP (op : CollOp) (d a x : Nat) (s : State) : Out :=
  collective ⟨op, .z, d, false, x, 0, fun _ => 0, fun _ => 0, fun l => l.pred a⟩ s

/-! ### Exchanges, predicates, matching, reductions -/

def execXidx (d : LDst) (a b : LSrc) (n : Bool) (x : Nat) (s : State) : Out :=
  coll2 .xidx d a b n x s

def execXxor (d : LDst) (a b : LSrc) (n : Bool) (x : Nat) (s : State) : Out :=
  coll2 .xxor d a b n x s

def execXrot (d : LDst) (a b : LSrc) (n : Bool) (x : Nat) (s : State) : Out :=
  coll2 .xrot d a b n x s

def execXshift (d : LDst) (a b : LSrc) (n : Bool) (x : Nat) (s : State) : Out :=
  coll2 .xshift d a b n x s

def execXlid (d : LDst) (a b : LSrc) (n : Bool) (s : State) : Out :=
  coll2 .xlid d a b n 0 s

def execPany (d a x : Nat) (s : State) : Out :=
  collP .pany d a x s

def execPall (d a x : Nat) (s : State) : Out :=
  collP .pall d a x s

def execPmask (d : LDst) (a : Nat) (n : Bool) (x : Nat) (s : State) : Out :=
  collective ⟨.pmask, d, 0, n, x, 0, fun _ => 0, fun _ => 0, fun l => l.pred a⟩ s

def execMatchEq (d : LDst) (a : LSrc) (n : Bool) (x : Nat) (s : State) : Out :=
  coll1 .matchEq d a n x s

def execCompact (d : LDst) (a : LSrc) (b : Nat) (n : Bool) (x : Nat) (s : State) : Out :=
  collective ⟨.compact, d, 0, n, x, 0, fun l => a.r32 l, fun _ => 0, fun l => l.pred b⟩ s

def execMrank (d : LDst) (a : LSrc) (n : Bool) (x : Nat) (s : State) : Out :=
  coll1 .mrank d a n x s

def execRedAdd (d : LDst) (a : LSrc) (n : Bool) (x : Nat) (s : State) : Out :=
  coll1 .redAdd d a n x s

def execRedFadd (d : LDst) (a : LSrc) (n : Bool) (x : Nat) (s : State) : Out :=
  coll1 .redFadd d a n x s

def execRedMinI (d : LDst) (a : LSrc) (n : Bool) (x : Nat) (s : State) : Out :=
  coll1 .redMinI d a n x s

def execRedMinN (d : LDst) (a : LSrc) (n : Bool) (x : Nat) (s : State) : Out :=
  coll1 .redMinN d a n x s

def execRedMinF (d : LDst) (a : LSrc) (n : Bool) (x : Nat) (s : State) : Out :=
  coll1 .redMinF d a n x s

def execRedMaxI (d : LDst) (a : LSrc) (n : Bool) (x : Nat) (s : State) : Out :=
  coll1 .redMaxI d a n x s

def execRedMaxN (d : LDst) (a : LSrc) (n : Bool) (x : Nat) (s : State) : Out :=
  coll1 .redMaxN d a n x s

def execRedMaxF (d : LDst) (a : LSrc) (n : Bool) (x : Nat) (s : State) : Out :=
  coll1 .redMaxF d a n x s

def execScanAdd (d : LDst) (a : LSrc) (n : Bool) (x : Nat) (s : State) : Out :=
  coll1 .scanAdd d a n x s

/-! ### Fragments (R178-R181) -/

/-- The operand hold of the seat on n registers from a on (R181): kept under reuse, else released. -/
def State.holdOperand (s : State) (c : Issue) (a n : Nat) (reuse : Bool) : State :=
  s.modCore (coreOf c.gkey) fun k => k.modSeat (seatOf c.gkey) fun x =>
    { x with opHold := if reuse then some (c.gkey, a, n) else none }

def mfrag (f : Fmt) (d a b sel : Nat) (reuse acc : Bool) (g : Nat) (s : State) : Out :=
  groupUnit s fun c gr =>
    let width := fun (p : Nat) => (positions (s.wholeMask c.gkey gr p)).length
    let narrow := (positions c.lanes).filter fun p => width p < 32
    coupledOnly s c gr
      (match narrow with
      | p :: _ => .error (.trap 0x14 (c.word.setWidth 64) (w64 (width p)) (some (maskOf narrow)))
      | [] =>
        .ok ((s.holdOperand c a (if f = .f4b then 5 else 4) reuse).arrive c gr
          ⟨.mfrag f d a b sel acc, .z, 0, false, 0, g, fun _ => 0, fun _ => 0, fun _ => false⟩))

def execMfragBf16 (d a b : Nat) (u acc : Bool) (g : Nat) (s : State) : Out :=
  mfrag .bf16 d a b 0 u acc g s

def execMfragF16 (d a b : Nat) (u acc : Bool) (g : Nat) (s : State) : Out :=
  mfrag .f16 d a b 0 u acc g s

def execMfragE4m3 (d a b : Nat) (u acc : Bool) (g : Nat) (s : State) : Out :=
  mfrag .e4m3 d a b 0 u acc g s

def execMfragE5m2 (d a b : Nat) (u acc : Bool) (g : Nat) (s : State) : Out :=
  mfrag .e5m2 d a b 0 u acc g s

def execMfragF4b (d a b : Nat) (u : Bool) (sel : Nat) (acc : Bool) (g : Nat) (s : State) : Out :=
  mfrag .f4b d a b sel u acc g s

def execMfragI8 (d a b : Nat) (u acc : Bool) (g : Nat) (s : State) : Out :=
  mfrag .i8 d a b 0 u acc g s

/-! ### Barriers (R152, R171-R173) -/

/-- An instruction that no lane of a callee may issue (R152). -/
def outsideOnly (s : State) (c : Issue) (g : Group) (r : Res) : Res :=
  if s.anyInner c.gkey g c.lanes then .error (.trap 0x01 (c.first.setWidth 64) 0) else r

/-- Lanes of a mask park after their unit. -/
def Group.parkAfter (c : Issue) (g : Group) (m : Mask) (w : ParkWhy) : Group :=
  g.mapLanes m fun l => { c.advance l with state := .parked w }

/-- The lanes of a group that are still runnable and lie in a mask. -/
def State.stillRunning (s : State) (gkey : Nat) (m : Mask) : Mask :=
  match tget s.groups gkey with
  | some g => m &&& g.where Lane.runnable
  | none => 0

/-- Arrival of the issuing set at a barrier of the team or cluster: a release first (R173), then the lanes park. -/
def barArrive (b : BarKind) (scope : Nat) (mark : TeamBar → TeamBar) (s : State) : Out :=
  closingUnit 0 s fun c g =>
    outsideOnly s c g
      (match s.release c.gkey c.lanes scope with
      | .error h => .error h
      | .ok s =>
        let m := s.stillRunning c.gkey c.lanes
        let s := (s.modGroup c.gkey fun g => g.parkAfter c m (.barrier b)).modTeam g.tid fun t => { t with bar := mark t.bar }
        .ok (s.rendezvous c.gkey c.addr c.lanes))

def execBarTeam (s : State) : Out :=
  barArrive .team 1 (fun b => { b with plain := true }) s

def execBarTeamYield (s : State) : Out :=
  barArrive .teamYield 1 (fun b => { b with yield := true }) s

def execBarClus (s : State) : Out :=
  barArrive .clus 2 id s

/-- A recorded mask of BAR.mask (R172). -/
def BarMask.record (m : Mask) : Option BarMask → BarMask
  | none => ⟨m, m, none⟩
  | some b => { b with union := b.union ||| m, differ := if b.differ.isNone && b.first != m then some m else b.differ }

def execBarMask (a : USrc) (s : State) : Out :=
  closingUnit 0 s fun c g =>
    let m := (a.get g.u).setWidth 32
    outsideOnly s c g
      (if m = 0 then .ok (s.advance c)
      else
        match s.release c.gkey c.lanes 0 with
        | .error h => .error h
        | .ok s =>
          let run := s.stillRunning c.gkey c.lanes
          let members := g.where fun l => l.state != .absent
          let inside := maskOf ((positions run).filter fun p => m.getLsbD (rankOf members p))
          let s := s.modGroup c.gkey fun g =>
            { (g.parkAfter c inside (.barrier .mask)).mapLanes (run &&& ~~~inside) c.advance with
              barMask := some (BarMask.record m g.barMask) }
          .ok (s.rendezvous c.gkey c.addr c.lanes))

/-! ### Joins (R144, R174) -/

def execJoinEnrol (j : Nat) (s : State) : Out :=
  guardedUnit 0 s fun c g =>
    .ok (s.setGroup c.gkey
      { g.mapLanes c.lanes c.advance with joins := g.joins.setIfInBounds j (g.joins[j]?.getD 0 ||| c.lanes) })

def execJoinWait (j : Nat) (s : State) : Out :=
  guardedUnit 0 s fun c g =>
    let m := c.lanes &&& g.joins[j]?.getD 0
    .ok ((s.setGroup c.gkey ((g.mapLanes c.lanes c.advance).mapLanes m fun l =>
      { l with state := .waiting (.join j) })).rendezvous c.gkey c.addr c.lanes)

/-! ### Election, partitions, lane map (R175-R177) -/

def execElect (d : UDst) (p : Nat) (s : State) : Out :=
  guardedUnit 0 s fun c g =>
    match g.elected c.lanes with
    | none => .ok (s.advance c)
    | some e =>
      let u := d.put false ((g.lane e).lid.setWidth 64) g.u
      .ok (s.setGroup c.gkey
        { (g.mapLanes c.lanes fun l => c.advance (l.setPred p false)).mapLanes (1#32 <<< e) (fun l => l.setPred p true) with u := u })

/-- PARTITION writes a partition register. -/
def partition (n : Nat) (x : Group → Part) (s : State) : Out :=
  guardedUnit 0 s fun c g =>
    .ok (s.setGroup c.gkey { g.mapLanes c.lanes c.advance with parts := g.parts.setIfInBounds n (x g) })

def execPartitionWhole (n : Nat) (s : State) : Out :=
  partition n (fun _ => ⟨.whole, 0⟩) s

def execPartitionB4 (n : Nat) (s : State) : Out :=
  partition n (fun _ => ⟨.b4, 0⟩) s

def execPartitionB8 (n : Nat) (s : State) : Out :=
  partition n (fun _ => ⟨.b8, 0⟩) s

def execPartitionB16 (n : Nat) (s : State) : Out :=
  partition n (fun _ => ⟨.b16, 0⟩) s

def execPartitionMask (n : Nat) (b : USrc) (s : State) : Out :=
  partition n (fun g => ⟨.mask, (b.get g.u).setWidth 32⟩) s

def execLmap (d : UDst) (b : USrc) (s : State) : Out :=
  guardedUnit 0 s fun c g =>
    let l := g.lane ((b.get g.u).toNat % 32)
    let x := if l.state = .absent then 0xFFFFFFFFFFFFFFFF#64 else l.lid.setWidth 64
    .ok (s.setGroup c.gkey { g.mapLanes c.lanes c.advance with u := d.put false x g.u })

/-- REGROUP parks its issuing set and closes the region; the repacking follows when the team is ready (R125, R146). -/
def execRegroup (s : State) : Out :=
  groupUnit s fun c g =>
    if !c.kholds 0 g.u then .ok ((s.advance c).modGroup c.gkey (Group.close c))
    else
      outsideOnly s c g
        (settled s c fun s =>
          .ok ((s.modGroup c.gkey fun g => (g.parkAfter c c.lanes .regroup).close c).rendezvous c.gkey c.addr c.lanes))

end Sys2Proof.Machine
end

