-- ==== Sys2Proof/Machine/Width.lean ====
section
/-! DEFINITION. Width calls (R148-R159, R162-R165): WIDEN with its claims, fresh groups, serial runs and the coupled
reserve; GATHER and its firings; RET, GARG, GRES and EXIT. -/

namespace Sys2Proof.Machine

/-! ### Shared parts -/

/-- The return token of a level (R164). -/
def token (level : Nat) : DWord := 0x8000000000000000#64 + w64 level

def golden : DWord := 0x9E3779B97F4A7C15#64

/-- The word before a function. -/
def headerWord (k : Core) (gkey : Nat) (target : DWord) : Word :=
  match k.fetchFor gkey (target - 4).toNat with
  | .word w => w
  | _ => 0

/-- The checks of a width call (R14, R70): rule, and no reserved code among those allowed. -/
def checkWidth (k : Core) (gkey : Nat) (target : DWord) (rule : Nat) (codeOk : Nat → Bool) : Except Halt Header :=
  match checkCall k gkey target rule with
  | .error h => .error h
  | .ok h => if h.codes.all codeOk then .ok h else .error (.trap 0x0B target ((headerWord k gkey target).setWidth 64))

/-- A result register from the contributions in widen-index order (R33, R153). -/
def reduceCode (code : Nat) (xs : List Word) (old : Word) : Word :=
  match code, xs with
  | 0, _ => old
  | 14, xs => w32 xs.length
  | 12, x :: _ => x
  | 12, [] => old
  | 13, xs => match xs.getLast? with | some x => x | none => old
  | 1, xs => xs.foldl (· + ·) 0
  | 2, xs => if xs.isEmpty then 0 else exactSum xs
  | 3, xs => if xs.isEmpty then 0x7FFFFFFF#32 else reduceWords wordMinI xs
  | 4, xs => if xs.isEmpty then 0x80000000#32 else reduceWords wordMaxI xs
  | 5, xs => if xs.isEmpty then 0xFFFFFFFF#32 else reduceWords wordMinN xs
  | 6, xs => if xs.isEmpty then 0 else reduceWords wordMaxN xs
  | 7, xs => if xs.isEmpty then 0x7FFFFFFF#32 else reduceWords wordMinF xs
  | 8, xs => if xs.isEmpty then 0xFFFFFFFF#32 else reduceWords wordMaxF xs
  | 9, xs => xs.foldl (· &&& ·) 0xFFFFFFFF#32
  | 10, xs => xs.foldl (· ||| ·) 0
  | _, xs => xs.foldl (· ^^^ ·) 0

/-- The lowest widening group slot of a team that is not in use (log entry 13). -/
def State.wideSlot (s : State) (tid : Nat) : Nat :=
  (((List.range 64).find? fun k => !s.groups.any fun x => x.2.tid == tid && x.2.index == 64 + k).getD 0) + 64

/-- v0 to v7 of a lane. -/
def Lane.args (l : Lane) : List Word := (List.range 8).map l.reg

/-! ### Entry of a callee lane (R152) -/

/-- A lane in its entry state at widen index i: registers below the frame, no other register changes. So a return register at or
above the frame has what the lane held before (log entry 13). -/
def Lane.enter (l : Lane) (frame : Nat) (target : DWord) (level i : Nat) (v : List Word) (lrng : DWord) : Lane :=
  let r := lrng + w64 i * golden
  { l with
    state := .active, vpc := target, lid := w32 i, lrng := r
    v := Vector.ofFn fun n => if n.val < frame then v[n.val]?.getD 0 else l.v[n]
    p := Vector.replicate 64 false
    l := Latches.invalid, entry := target, entryRng := r, entryL := Latches.invalid, dem := 0, nest := level, rep := 0
    reply := none, atClose := none, bad := l.bad &&& BitVec.ofNat 128 (2 ^ 56 - 2 ^ frame) }

/-- A group that a width call opens, with the calling group's uniform values and the token in s55. -/
def calleeGroup (g : Group) (kind : GroupKind) (index : Nat) (blocks : List Block) (hdr : Word) (level : Nat)
    (lanes : Vector Lane 32) : Group where
  tid := g.tid
  index := index
  kind := kind
  blocks := blocks
  frame := hdrFrame hdr
  coupled := some (hdrCoupled hdr)
  released := true
  u := { UFile.reset with s := g.u.s.setIfInBounds 55 (token level) }
  cvm := g.cvm
  gbase := g.gbase
  wsave := g.wsave
  efaddr := 0
  parts := Vector.replicate 8 ⟨.whole, 0⟩
  joins := Vector.replicate 4 0
  leader := none
  colls := []
  barMask := none
  region := 0
  entryQ := Latches.invalid
  stop := none
  hold := none
  acq := g.acq
  sysAcq := g.sysAcq
  lanes := lanes

/-- Lanes of the blocks of a group, from the callers' arguments (R150, R152). -/
def blockLanes (callers : List Caller) (blocks : List Block) (frame : Nat) (target : DWord) (level : Nat) : Vector Lane 32 :=
  Vector.ofFn fun p =>
    match blocks.find? fun b => b.start ≤ p.val && p.val < b.start + b.size with
    | none => Lane.blank
    | some b =>
      match callers[b.caller]? with
      | none => Lane.blank
      | some x =>
        let i := b.base + (p.val - b.start)
        if i < x.count then Lane.blank.enter frame target level i x.saved.v x.saved.lrng else Lane.blank

/-! ### The save area (R149) -/

/-- The record a group saves into: its index, or 64 and up for widening group slots; a reserve group's record follows
them (log entry 13). -/
def saveSlot (g : Group) (level p : Nat) : Nat :=
  bits g.wsave.toNat 53 16 * 65536 + 65536 * g.index + 8192 * (level - 1) + 256 * p

/-- The cells of a save slot that a save of a frame writes to, and whether it writes all of a cell. -/
def savedCells (frame : Nat) : List (Nat × Bool) :=
  ((List.range 8).filter fun i => 32 * i < 4 * frame || i == 7).map fun i => (i, i != 7 && 32 * (i + 1) ≤ 4 * frame)

/-- Where a lane's save slot lies; none when the lane parked on its fault. Its stores meet cells like any others (R225). -/
def State.slotPlace (s : State) (gkey : Nat) (g : Group) (p va frame : Nat) : Except Halt (Option Place × State) :=
  let m := 1#32 <<< p
  if va ≥ 2 ^ 54 then .error (.trap 0x16 (w64 va) 0 (some m))
  else
    match s.translate (coreOf gkey) (s.asidOf g) va .store with
    | (.fault f, s) => .ok (none, s.laneFault gkey g p va f .store m)
    | (.to (.peer dev pa), s) =>
      if s.ownsPlace (s.asidOf g) (.peer dev pa) 248 then .error .hold
      else if s.routeOk dev then .ok (some (.peer dev pa), s) else .ok (none, s.peerFault gkey g p va dev .store m)
    | (.to (.here pa tagged), s) =>
      if s.ownsPlace (s.asidOf g) (.here pa tagged) 248 then .error .hold
      else
        let stop := (savedCells frame).findSome? fun x =>
          match if tagged then s.storeCell (some g) (pa + 32 * x.1) x.2 else .ok tagValue with
          | .error cause => some (Halt.trap cause (w64 (va + 32 * x.1)) 0 (some m))
          | .ok _ => none
        match stop with
        | some h => .error h
        | none => .ok (some (.here pa tagged), s)

/-- The bytes of the pieces saved: registers of the frame, and predicates, lrng and s55. -/
def saveFrame (l : Lane) (frame : Nat) : List Byte := ((List.range frame).map fun r => leBytes 4 (l.reg r).toNat).flatten

def predBits (l : Lane) : Nat := (List.range 64).foldl (fun n i => if l.pred i then n + 2 ^ i else n) 0

def saveTail (l : Lane) (s55 : DWord) : List Byte :=
  leBytes 8 (predBits l) ++ leBytes 8 l.lrng.toNat ++ leBytes 8 s55.toNat

/-- The plain stores of a save: a cell that it writes whole is in VALUE after it (R225). -/
def State.saveLane (s : State) (gkey : Nat) (g : Group) (p va : Nat) (l : Lane) (frame : Nat) (s55 : DWord) : Place → State
  | .here pa tagged =>
    let s := if tagged then (savedCells frame).foldl (fun s x =>
        match s.storeCell (some g) (pa + 32 * x.1) x.2 with
        | .ok t => s.setTag (pa + 32 * x.1) t
        | .error _ => s) s
      else s
    (s.store (some (coreOf gkey)) pa (saveFrame l frame)).store (some (coreOf gkey)) (pa + 224) (saveTail l s55)
  | .peer dev pa =>
    (byLine pa (saveFrame l frame) ++ byLine (pa + 224) (saveTail l s55)).foldl (fun s x =>
      (s.requestOf (gkey, p, none) (whose gkey p none) dev (va + x.1 - pa) (PeerReq.write x.1 x.2)).2) s

/-- A lane restored from its slot's bytes. -/
def Lane.restore (l : Lane) (x : Saved) (bs : List Byte) : Lane :=
  { l with
    v := Vector.ofFn fun r => if r.val < x.frame then w32 (leNat ((bs.drop (4 * r.val)).take 4)) else l.v[r]
    p := Vector.ofFn fun i => bits (leNat ((bs.drop 224).take 8)) i.val i.val == 1
    lrng := w64 (leNat ((bs.drop 232).take 8))
    lid := x.lid, nest := x.nest, l := Latches.invalid
    bad := l.bad &&& BitVec.ofNat 128 (2 ^ 56 - 2 ^ x.frame) }

/-- The saved s55. -/
def savedS55 (bs : List Byte) : DWord := w64 (leNat ((bs.drop 240).take 8))

/-! ### Claims of a WIDEN (R150) -/

/-- Where a caller's invocation runs: nowhere, a block, whole groups, or not placed. -/
inductive Spot where
  | idle
  | block (gi start size : Nat)
  | groups (gi n : Nat)
  | fall
deriving DecidableEq, Repr

/-- Claims so far: quota and group slots left, groups opened, and the group and position where the last block ends. -/
structure Claims where
  quota  : Nat
  slots  : Nat
  opened : Nat
  tail   : Option (Nat × Nat)
  spots  : List Spot

def blockSize (n : Nat) : Nat := if n ≤ 4 then 4 else if n ≤ 8 then 8 else if n ≤ 16 then 16 else 32

/-- One caller's claim. -/
def Claims.add (c : Claims) (n : Nat) : Claims :=
  if n = 0 then { c with spots := c.spots ++ [.idle] }
  else if n > 32 then
    let m := (n + 31) / 32
    if 8 * m ≤ c.quota && m ≤ c.slots then
      { c with quota := c.quota - 8 * m, slots := c.slots - m, opened := c.opened + m, spots := c.spots ++ [.groups c.opened m] }
    else { c with spots := c.spots ++ [.fall] }
  else
    let b := blockSize n
    let here : Option (Nat × Nat) := match c.tail with
      | some (gi, z) => let a := (z + b - 1) / b * b; if a + b ≤ 32 then some (gi, a) else none
      | none => none
    match here with
    | some (gi, a) =>
      if b / 4 ≤ c.quota then
        { c with quota := c.quota - b / 4, tail := some (gi, a + b), spots := c.spots ++ [.block gi a b] }
      else { c with spots := c.spots ++ [.fall] }
    | none =>
      if b / 4 ≤ c.quota && 1 ≤ c.slots then
        { c with quota := c.quota - b / 4, slots := c.slots - 1, opened := c.opened + 1, tail := some (c.opened, b)
                 spots := c.spots ++ [.block c.opened 0 b] }
      else { c with spots := c.spots ++ [.fall] }

/-- The blocks of the opened group of an index. -/
def blocksOf (gi : Nat) (spots : List Spot) : List Block :=
  ((List.range spots.length).zip spots).flatMap fun (i, x) =>
    match x with
    | .block k a b => if k = gi then [⟨a, b, i, 0⟩] else []
    | .groups k m => if k ≤ gi && gi < k + m then [⟨0, 32, i, 32 * (gi - k)⟩] else []
    | _ => []

/-! ### Results and the end of a WIDEN (R153) -/

/-- v0 to v3 of a caller from the contributions, in widen-index order. -/
def Lane.results (l : Lane) (hdr : Word) (got : List Contribution) : Lane :=
  let order := sortBy id (got.map (·.idx))
  let vals := fun r => order.filterMap fun i => (got.find? fun x => x.idx == i).map fun x => x.v[r]?.getD 0
  (List.range 4).foldl (fun x r => x.setReg r (reduceCode (hdrCode hdr r) (vals r) (l.reg r))) l

/-- A group has what groups of a list have acquired (R209). -/
def State.learnFrom (s : State) (ks : List Nat) (g : Group) : Group :=
  ks.foldl (fun g k => match tget s.groups k with | some h => g.learn h | none => g) g

/-- Every caller has its results: the issuing set resumes, and what the call held is free, its quota too (log entry 13). -/
def State.finishWiden (s : State) (id : Nat) : State :=
  match tget s.calls id with
  | none => s
  | some w =>
    if !w.callers.all fun x => x.mode == .none then s
    else
      let m := maskOf (w.callers.map (·.pos))
      let s := s.modGroup w.gkey fun g =>
        let g := g.mapLanes (m &&& g.where fun l => !l.gone) fun l =>
          { l with state := .active, vpc := w.next, l := Latches.invalid, entryL := Latches.invalid, rep := 0 }
        let u := match w.callers.findSome? (·.s55) with | some x => g.u.setReg 55 x | none => g.u
        s.learnFrom w.groups { g with u := u }
      let s := w.groups.foldl State.dropGroup s
      let s := s.modTeam w.tid fun t => { t with quota := t.quota + w.charge, wslots := t.wslots + w.groups.length }
      { s with calls := terase s.calls id }

/-- A caller of a WIDEN at an index changes. -/
def State.modCaller (s : State) (id i : Nat) (f : Caller → Caller) : State :=
  { s with calls := tmod s.calls id fun w =>
      { w with callers := match w.callers[i]? with | some x => w.callers.set i (f x) | none => w.callers } }

/-- The caller's results are formed in its lane, which waits on for the others. -/
def State.callerDone (s : State) (id i : Nat) : State :=
  match (tget s.calls id).bind fun w => (w.callers[i]?).map fun x => (w, x) with
  | none => s
  | some (w, x) =>
    let s := s.modLane w.gkey x.pos fun l => { l.results w.hdr x.got with state := .waiting (.widen id) }
    (s.modCaller id i fun x => { x with mode := .none }).finishWiden id

/-! ### The coupled reserve (R138, R151) -/

/-- The group index a reserve group of a level saves under. -/
def reserveIndex (t : Team) (level : Nat) : Nat := 64 + (t.desc.quota + 7) / 8 + (level - 1)

/-- The reserve group takes the lanes of a caller from a widen index on, after what its earlier lanes have acquired (R209). -/
def State.fillReserve (s : State) (id i base key : Nat) : State :=
  match tget s.calls id with
  | none => s
  | some w =>
    match tget s.groups w.gkey, tget s.teams w.tid, w.callers[i]? with
    | some g, some t, some x =>
      let size := if x.count ≤ 32 then blockSize x.count else 32
      let bs : List Block := [⟨0, size, i, base⟩]
      s.setGroup key (s.learnFrom [key] (calleeGroup g (.reserve id) (reserveIndex t w.level) bs w.hdr w.level
        (blockLanes w.callers bs (hdrFrame w.hdr) w.target w.level)))
    | _, _, _ => s

/-- The next caller of a team's level that waits for its reserve group. -/
def State.reserveNext (s : State) (tid level : Nat) : Option (Nat × Nat) :=
  (s.calls.filter fun x => x.2.tid == tid && x.2.level == level).findSome? fun (id, w) =>
    ((List.range w.callers.length).find? fun i =>
      match w.callers[i]? with
      | some x => x.mode == .reserve && ((tget s.groups w.gkey).any fun g => (g.lane x.pos).state == .parked .reserve)
      | none => false).map fun i => (id, i)

/-- The reserve group of a level starts a waiting caller when it is free. -/
def State.startReserve (s : State) (tid level : Nat) : State :=
  match tget s.teams tid with
  | none => s
  | some t =>
    if bits t.rsv level level = 1 then s
    else
      match s.reserveNext tid level, s.newSlot t.core with
      | some (id, i), some (key, s) =>
        match (tget s.calls id).bind fun w => (w.callers[i]?).map fun x => (w.gkey, x.pos) with
        | none => s
        | some (gkey, p) =>
          let s := s.modTeam tid fun t => { t with rsv := t.rsv + 2 ^ level }
          (s.modLane gkey p fun l => { l with state := .waiting (.widen id) }).fillReserve id i 0 key
      | _, _ => s

/-- An invocation's lanes have ended so far; when the last has, its results are formed, else a reserve group whose lanes
have all ended takes the next ones. -/
def State.calleeEnded (s : State) (id i gkey : Nat) : State :=
  let s := s.modCaller id i fun x => { x with ended := x.ended + 1 }
  match (tget s.calls id).bind fun w => (w.callers[i]?).map fun x => (w, x) with
  | none => s
  | some (w, x) =>
    if x.mode = .reserve then
      if x.ended = x.count then
        let s := (s.modGroup w.gkey (s.learnFrom [gkey])).dropGroup gkey
        let s := s.modTeam w.tid fun t => { t with rsv := t.rsv - 2 ^ w.level }
        (s.callerDone id i).startReserve w.tid w.level
      else if x.ended % 32 = 0 then s.fillReserve id i x.ended gkey
      else s
    else if x.ended = x.count then s.callerDone id i
    else s

/-! ### WIDEN (R150, R162) -/

/-- The save slots of the lanes that fall back, all translated first; none when one of them parked. -/
def State.slotPlaces (s : State) (gkey : Nat) (g : Group) (level : Nat) (frame : Nat → Nat) :
    List Nat → Except Halt (Option (List (Nat × Place)) × State)
  | [] => .ok (some [], s)
  | p :: ps =>
    match s.slotPlace gkey g p (saveSlot g level p) (frame p) with
    | .error h => .error h
    | .ok (x, s) =>
      match s.slotPlaces gkey g level frame ps with
      | .error h => .error h
      | .ok (xs, s) => .ok (x.bind fun a => xs.map fun b => (p, a) :: b, s)

/-- Fresh groups of a WIDEN, opened one after another on a core. -/
def State.openGroups (s : State) (core id : Nat) (g : Group) (level : Nat) (hdr : Word) (target : DWord)
    (callers : List Caller) (spots : List Spot) : Nat → Nat → Option State
  | _, 0 => some s
  | gi, n + 1 =>
    let bs := blocksOf gi spots
    match s.newSlot core with
    | none => none
    | some (key, s) =>
      let x := calleeGroup g (.fresh id) (s.wideSlot g.tid) bs hdr level (blockLanes callers bs (hdrFrame hdr) target level)
      let s := s.setGroup key x
      let s := { s with calls := tmod s.calls id fun w => { w with groups := w.groups ++ [key] } }
      s.openGroups core id g level hdr target callers spots (gi + 1) n

/-- The caller's record at the WIDEN. -/
def callerOf (c : Issue) (g : Group) (frame : Nat → Nat) (coupled : Bool) (level p n : Nat) (x : Spot) : Caller where
  pos := p
  count := n
  mode := match x with
    | .idle => .none
    | .fall => if coupled then .reserve else .serial
    | _ => .fresh
  ended := 0
  got := []
  s55 := none
  saved :=
    let l := g.lane p
    ⟨l.lid, l.nest, frame p, l.args, l.lrng, saveSlot g level p, c.next⟩

/-- The lanes that fall back save, then start index 0 in their own lane. -/
def State.startSerial (s : State) (c : Issue) (g : Group) (hdr : Word) (target : DWord) (level : Nat)
    (callers : List Caller) (places : List (Nat × Place)) : State :=
  let s55 := g.u.reg 55
  places.foldl (fun s (p, place) =>
    match callers.find? (·.pos == p) with
    | none => s
    | some x =>
      let s := s.saveLane c.gkey g p x.saved.slot (g.lane p) x.saved.frame s55 place
      s.modGroup c.gkey fun h =>
        { h.setLane p ((g.lane p).enter (hdrFrame hdr) target level 0 x.saved.v x.saved.lrng) with
          u := { h.u.setReg 55 (token level) with q := Latches.invalid } }) s

def State.widen (s : State) (c : Issue) (g : Group) (target : DWord) (counts : Lane → Nat) : Res :=
  let core := coreOf c.gkey
  match checkWidth (s.core core) c.gkey target 1 (· != 15) with
  | .error h => .error h
  | .ok _ =>
    let hdr := headerWord (s.core core) c.gkey target
    let order := g.order c.lanes
    let level := (order.foldl (fun m p => max m (g.lane p).nest) 0) + 1
    let big := maskOf (order.filter fun p => counts (g.lane p) > 1024)
    if level > 8 then .error (.trap 0x0E target 8)
    else if big != 0 then .error (.trap 0x0F target (big.setWidth 64))
    else
      match tget s.teams g.tid with
      | none => .error .hold
      | some t =>
        let claims := order.foldl (fun k p => k.add (counts (g.lane p))) (⟨t.quota, t.wslots, 0, none, []⟩ : Claims)
        let fall := ((order.zip claims.spots).filter fun x => x.2 == .fall).map Prod.fst
        if hdrCoupled hdr && !fall.isEmpty && level > t.desc.reserve then .error (.trap 0x10 target (w64 level))
        else
          match s.slotPlaces c.gkey g level (s.frameAt c.gkey g) (if hdrCoupled hdr then [] else fall) with
          | .error h => .error h
          | .ok (none, s) =>
            .ok (s.modGroup c.gkey fun x => x.close { c with lanes := c.lanes &&& x.where fun l => !l.runnable })
          | .ok (some places, s) =>
            let callers := (order.zip claims.spots).map fun (p, x) =>
              callerOf c g (s.frameAt c.gkey g) (hdrCoupled hdr) level p (counts (g.lane p)) x
            let id := s.nextId
            let w : WidenCall := ⟨g.tid, level, target, hdr, c.gkey, c.next, callers, [], t.quota - claims.quota⟩
            let s := { s with nextId := id + 1, calls := tset s.calls id w }
            let s := s.setTeam g.tid { t with quota := claims.quota, wslots := claims.slots }
            match s.openGroups (coreOf c.gkey) id g level hdr target callers claims.spots 0 claims.opened with
            | none => .error .hold
            | some s =>
              let s := s.modGroup c.gkey fun h =>
                (h.mapLanes c.lanes fun l => { l with state := .waiting (.widen id), vpc := c.next, rep := 0 }).mapLanes
                  (if hdrCoupled hdr then maskOf fall else 0) fun l => { l with state := .parked .reserve }
              let s := s.startSerial c g hdr target level callers places
              let s := callers.foldl (fun s x =>
                if x.mode = .none then s.modLane c.gkey x.pos fun l => l.results hdr [] else s) s
              .ok (((s.startReserve g.tid level).finishWiden id).modGroup c.gkey (Group.close c))

/-- WIDEN: a lane whose guard is true is a caller; with a k guard all are (R162). It closes the region of the lanes for which
it is issued: where a save slot faults, of the lanes that parked on it alone (log entry 13). -/
def execWiden (a : USrc) (b : LSrc) (s : State) : Out :=
  groupUnit s fun c g =>
    if !c.kholds 0 g.u then .ok ((s.advance c).modGroup c.gkey (Group.close c))
    else settled s c fun s => s.widen c g (a.get g.u) fun l => (b.r32 l).toNat

/-! ### GATHER (R154-R158, R163) -/

def execGather (a : USrc) (team : Bool) (s : State) : Out :=
  closingUnit 0 s fun c g =>
    let target := a.get g.u
    if (positions c.lanes).any fun p => (g.lane p).nest + 1 > 8 then .error (.trap 0x0E target 8)
    else
      settled s c fun s =>
        .ok ((s.modGroup c.gkey fun g => g.parkAfter c c.lanes (.gather team target c.addr)).rendezvous c.gkey c.addr c.lanes)

/-- The caller's GATHER: its address and the unit after it. -/
def Lane.gatherUnit (l : Lane) : DWord :=
  match l.state with
  | .parked (.gather _ _ unit) => unit
  | _ => l.vpc

/-- A firing of a level in a team changes. -/
def Team.modFiring (t : Team) (level : Nat) (f : Firing → Firing) : Team :=
  let rec go : List Firing → List Firing
    | [] => []
    | x :: xs => if x.level = level then f x :: xs else x :: go xs
  { t with firings := go t.firings }

/-- The headers of the runs of a firing (R155, R163): the first that fails, with its lowest caller. -/
def State.badRun (s : State) (core : Nat) : List GatherRun → Option (Nat × Nat × Halt)
  | [] => none
  | r :: rs =>
    match r.callers with
    | [] => s.badRun core rs
    | (k, p) :: _ =>
      match checkWidth (s.core core) k r.callee 2 (fun x => x == 0 || x == 12) with
      | .error h => some (k, p, h)
      | .ok _ => s.badRun core rs

/-- The callers' v0 to v7 go into the slots of the gather area, caller i into slot i (R156). -/
def gatherArea (s : State) (area : Tab Word) : Nat → List (Nat × Nat) → Tab Word
  | _, [] => area
  | i, (k, p) :: xs =>
    let l := ((tget s.groups k).map (·.lane p)).getD Lane.blank
    gatherArea s ((List.range 8).foldl (fun a r => tset a (8 * i + r) (l.reg r)) area) (i + 1) xs

/-- The groups of callers. -/
def GatherRun.groups (r : GatherRun) : List Nat := (r.callers.map Prod.fst).eraseDups

/-- The callee thread in the lowest caller's lane, which saves first (R158): a fault on its slot parks it on that fault, and a
trap stops its group at its GATHER (R149). -/
def State.startHere (s : State) (tid : Nat) (t : Team) (f : Firing) (r : GatherRun) (hdr : Word) (v : List Word)
    (area : Tab Word) (k p : Nat) (g : Group) : State :=
  let l := g.lane p
  let va := saveSlot g f.level p
  let frame := s.frameAt k g p
  let here := match l.state with | .parked w => some w | _ => f.wait
  match s.slotPlace k g p va frame with
  | .error (.trap cause d1 d2 _) => s.trapGroup k l.gatherUnit (1#32 <<< p) 0xFFFFFFFF#32 cause d1 d2
  | .error _ => s
  | .ok (none, s) => s.setTeam tid (t.modFiring f.level fun x => { x with wait := here })
  | .ok (some place, s) =>
    let s := s.saveLane k g p va l frame (g.u.reg 55) place
    let saved : Saved := ⟨l.lid, l.nest, frame, l.args, l.lrng, va, l.vpc⟩
    let s := s.modGroup k fun h =>
      s.learnFrom r.groups { h.setLane p (l.enter (hdrFrame hdr) r.callee f.level 0 v l.lrng) with
        u := { h.u.setReg 55 (token f.level) with q := Latches.invalid }, entryQ := Latches.invalid }
    s.setTeam tid ({ t with gather := area }.modFiring f.level fun x =>
      { x with thread := some (k, p), block := false, hdr := hdr, saved := some saved, wait := here })

/-- A run starts: slots, then the callee thread in a block of its own if one is free, else in the lowest caller's lane. It
begins after what all its callers have acquired (R209). -/
def State.startRun (s : State) (tid : Nat) (t : Team) (f : Firing) (r : GatherRun) (k p : Nat) : State :=
  match tget s.groups k with
  | none => s
  | some g =>
    let hdr := headerWord (s.core t.core) k r.callee
    let l := g.lane p
    let v := w32 r.callers.length :: List.replicate 7 0
    let area := gatherArea s t.gather 0 r.callers
    match if 1 ≤ t.quota && 1 ≤ t.wslots then s.newSlot t.core else none with
    | some (key, s) =>
      let bs : List Block := [⟨0, 4, 0, 0⟩]
      let lanes := Vector.ofFn fun i => if i.val = 0 then Lane.blank.enter (hdrFrame hdr) r.callee f.level 0 v l.lrng else Lane.blank
      let s := s.setGroup key
        (s.learnFrom r.groups (calleeGroup g (.thread f.level) (s.wideSlot tid) bs hdr f.level lanes))
      s.setTeam tid ({ t with quota := t.quota - 1, wslots := t.wslots - 1, gather := area }.modFiring f.level fun x =>
        { x with thread := some (key, 0), block := true, hdr := hdr })
    | none => s.startHere tid t f r hdr v area k p g

/-- The run may start: its lowest caller's lane waits for no page of its save slot, and its group is not stopped. -/
def State.runnable (s : State) (f : Firing) : Bool :=
  f.thread.isNone && f.wait.isNone && !f.stuck &&
    match f.runs.head?.bind (·.callers.head?) with
    | some (k, _) => (tget s.groups k).any fun g => g.stop.isNone
    | none => false

/-- The first firing of some level whose next run may start. -/
def State.nextFiring (s : State) (t : Team) : Option Firing :=
  (t.firings.filter fun f => (t.firings.find? fun x => x.level == f.level) == some f).find? s.runnable

/-- Lanes whose fault on a save slot is over are again parked at their GATHER, and their run may start. -/
def State.retryRuns (s : State) : State :=
  s.teams.foldl (fun s x => x.2.firings.foldl (fun s f =>
    match f.wait, f.thread, f.runs.head?.bind (·.callers.head?) with
    | some w, none, some (k, p) =>
      if (tget s.groups k).any fun g => (g.lane p).state == .active then
        (s.modLane k p fun l => { l with state := .parked w }).modTeam x.1 fun t =>
          t.modFiring f.level fun y => { y with wait := none }
      else s
    | _, _, _ => s) s) s

/-- The GATHER of a caller, as the unit for which auto-land lands a callee (R325). -/
def gatherIssue (k p : Nat) (unit : DWord) : Issue where
  cox := false
  core := coreOf k
  gkey := k
  addr := unit
  first := 0
  word := 0x80000000#32
  next := unit
  lanes := 1#32 <<< p
  guard := none
  rep := none
  idx := 0
  kept := 0
  again := 0
  others := false

/-- GATHER_FIRING: the headers of a firing are read, then its runs start one after another (R155-R158, R163). -/
def execGatherFiring (tid : Nat) (s : State) : Out :=
  match tget s.teams tid with
  | none => .next s
  | some t =>
    match s.nextFiring t with
    | none => .next s
    | some f =>
      match f.runs with
      | [] => .next s
      | r :: _ =>
        match if f.begun then none else s.badRun t.core f.runs with
        | some (k, p, .trap cause d1 d2 _) =>
          let unit := ((tget s.groups k).map fun g => (g.lane p).gatherUnit).getD 0
          match if cause = 0x08 then s.autoLand (gatherIssue k p unit) d1 else none with
          | some s => .next s
          | none =>
            let s := s.setTeam tid (t.modFiring f.level fun x => { x with stuck := true })
            .next (s.trapGroup k unit (1#32 <<< p) 0xFFFFFFFF#32 cause d1 d2)
        | some _ => .next s
        | none =>
          match r.callers with
          | [] => .next s
          | (k, p) :: _ =>
            let t := t.modFiring f.level fun x => { x with begun := true }
            .next ((s.setTeam tid t).startRun tid t f r k p)

/-- v0 to v3 of a run's callers at the callee's RET (R159). -/
def State.gatherResults (s : State) (t : Team) (hdr : Word) (v : List Word) : Nat → List (Nat × Nat) → State
  | _, [] => s
  | i, (k, p) :: xs =>
    let s := s.modLane k p fun l =>
      { (List.range 4).foldl (fun x r =>
          x.setReg r (if hdrCode hdr r = 12 then v[r]?.getD 0 else (tget t.gather (8 * i + r)).getD 0)) l with
        l := Latches.invalid, entryL := Latches.invalid }
    s.gatherResults t hdr v (i + 1) xs

/-- The callers of a firing become active together, after its last run. -/
def State.endFiring (s : State) (tid : Nat) (f : Firing) : State :=
  let s := f.callers.foldl (fun s (k, p) => s.modLane k p fun l => { l with state := .active }) s
  s.modTeam tid fun t => { t with firings := t.firings.filter fun x => x != f }

/-- A gather callee thread returns. -/
def State.gatherRet (s : State) (c : Issue) (tid level p : Nat) : Res :=
  match tget s.teams tid, tget s.groups c.gkey with
  | some t, some g =>
    match t.firing level with
    | none => .error .hold
    | some f =>
      let run := (f.runs.head?.map (·.callers)).getD []
      let v := (g.lane p).args
      let finish := fun (s : State) =>
        let s := s.gatherResults t f.hdr v 0 run
        let f' : Firing := { f with runs := f.runs.drop 1, thread := none, saved := none, wait := none }
        let s := (f.runs.head?.map (·.groups)).getD [] |>.foldl (fun s k => s.modGroup k fun h => h.learn g) s
        let s := s.modTeam tid fun t => t.modFiring level fun _ => f'
        if f'.runs.isEmpty then s.endFiring tid f' else s
      match f.saved with
      | none =>
        let s := s.dropGroup c.gkey
        let s := s.modTeam tid fun t => { t with quota := t.quota + 1, wslots := t.wslots + 1 }
        .ok (finish s)
      | some x =>
        match s.laneLoad false c.gkey g p x.slot 248 none (fun _ => 1#32 <<< p) with
        | .error h => .error h
        | .ok (none, s) => .ok s
        | .ok (some bs, s) =>
          let s := s.modGroup c.gkey fun h =>
            let l := { (h.lane p).restore x bs with state := .parked (f.wait.getD (.gather false 0 c.addr)), vpc := x.next }
            { h.setLane p l with u := h.u.setReg 55 (savedS55 bs) }
          .ok (finish s)
  | _, _ => .error .hold

/-! ### RET (R14, R164) -/

/-- A lane of a parallel widened callee returns: its contribution, then it waits. -/
def State.parallelRet (s : State) (c : Issue) (g : Group) (id p : Nat) : State :=
  match g.blockAt p with
  | none => s
  | some b =>
    let l := g.lane p
    let s := s.modCaller id b.caller fun x => { x with got := x.got ++ [⟨l.lid.toNat, l.args.take 4⟩] }
    let idx := b.base + (p - b.start)
    let s := s.modCaller id b.caller fun x =>
      { x with got := match x.got.getLast? with | some y => x.got.dropLast ++ [{ y with idx := idx }] | none => x.got }
    let s := s.modLane c.gkey p fun l => { l with state := .waiting (.callee id) }
    s.calleeEnded id b.caller c.gkey

/-- A lane that runs the callee itself returns from an index. -/
def State.serialRet (s : State) (c : Issue) (g : Group) (id p : Nat) : Res :=
  match tget s.calls id with
  | none => .error .hold
  | some w =>
    match (List.range w.callers.length).find? fun i => (w.callers[i]?).any fun x => x.pos == p && x.mode == .serial with
    | none => .error .hold
    | some i =>
      match w.callers[i]? with
      | none => .error .hold
      | some x =>
        let l := g.lane p
        let add := fun (y : Caller) => { y with got := y.got ++ [⟨x.ended, l.args.take 4⟩], ended := x.ended + 1 }
        if x.ended + 1 < x.count then
          .ok ((s.modCaller id i add).modGroup c.gkey fun h =>
            { h.setLane p (l.enter (hdrFrame w.hdr) w.target w.level (x.ended + 1) x.saved.v x.saved.lrng) with
              u := { h.u with q := Latches.invalid } })
        else
          match s.laneLoad false c.gkey g p x.saved.slot 248 none (fun _ => 1#32 <<< p) with
          | .error h => .error h
          | .ok (none, s) => .ok s
          | .ok (some bs, s) =>
            let s := s.modLane c.gkey p fun l => { l.restore x.saved bs with vpc := w.next }
            let s := s.modCaller id i fun y => { add y with s55 := some (savedS55 bs) }
            .ok (s.callerDone id i)

/-- The return of one lane by the call it runs in. -/
def State.widthRet (s : State) (c : Issue) (p : Nat) : Res :=
  match tget s.groups c.gkey with
  | none => .ok s
  | some g =>
    match s.inner c.gkey g p with
    | .widened id => .ok (s.parallelRet c g id p)
    | .serial id => s.serialRet c g id p
    | .thread tid level => s.gatherRet c tid level p
    | .threadHere tid level => s.gatherRet c tid level p
    | .none => .error .hold

/-- s55 holds the token of the innermost open call of the lanes. -/
def State.atToken (s : State) (c : Issue) (g : Group) : Bool :=
  c.lanes != 0 && (positions c.lanes).all fun p =>
    s.inner c.gkey g p != .none && g.u.reg 55 == token (g.lane p).nest

def execRet (k : Nat) (s : State) : Out :=
  groupOrCox s
    (fun c => coxControl s c fun x =>
      if c.kholds k x.u then
        match coxTarget (x.u.reg 55) with
        | some cause => .error cause
        | none => .ok (x.jump (x.u.reg 55))
      else .ok (x.advance c))
    fun c g =>
      let r : Res :=
        if !c.kholds k g.u then .ok (s.advance c)
        else if s.atToken c g then settled s c (eachRes (fun p s => s.widthRet c p) (g.order c.lanes))
        else
          match checkTarget (s.core (coreOf c.gkey)) c.gkey (g.u.reg 55) with
          | some h => .error h
          | none => .ok (s.setGroup c.gkey (g.jump c.lanes (g.u.reg 55)))
      match r with
      | .error h => .error h
      | .ok s => .ok (s.modGroup c.gkey (Group.close c))

/-! ### The gather area (R165) -/

/-- The firing whose callee thread a lane is. -/
def State.threadFiring (s : State) (gkey : Nat) (g : Group) (p : Nat) : Option (Nat × Firing) :=
  match s.inner gkey g p with
  | .thread tid level => ((tget s.teams tid).bind (·.firing level)).map fun f => (tid, f)
  | .threadHere tid level => ((tget s.teams tid).bind (·.firing level)).map fun f => (tid, f)
  | _ => none

/-- A unit of the gather area: only in a gather callee thread, and coupled. -/
def gatherUnit (s : State) (f : Issue → Group → Nat → Nat → Firing → State → State) : Out :=
  groupUnit s fun c g =>
    coupledOnly s c g
      (if (positions c.lanes).any fun p => (s.threadFiring c.gkey g p).isNone then
        .error (.trap 0x13 (c.word.setWidth 64) 0)
      else
        .ok ((g.order c.lanes).foldl (fun s p =>
          match s.threadFiring c.gkey g p with
          | some (tid, x) => f c g p tid x s
          | none => s) s))

/-- Callers of the run under way. -/
def Firing.size (f : Firing) : Nat := (f.runs.head?.map fun r => r.callers.length).getD 0

def execGarg (d : LDst) (a b : LSrc) (n : Bool) (_x : Nat) (s : State) : Out :=
  gatherUnit s fun c g p tid f s =>
    let l := g.lane p
    if c.holds 0 l then
      let i := (a.r32 l).toNat
      let area := ((tget s.teams tid).map (·.gather)).getD []
      let w := if i < f.size then (tget area (8 * i + (b.r32 l).toNat % 8)).getD 0 else 0
      s.finish c p (d.put32 n w)
    else s.finish c p id

def execGres (d a b : LSrc) (_x : Nat) (s : State) : Out :=
  gatherUnit s fun c g p tid f s =>
    let l := g.lane p
    let i := (a.r32 l).toNat
    let s := s.finish c p id
    if c.holds 0 l && i < f.size then
      s.modTeam tid fun t => { t with gather := tset t.gather (8 * i + (b.r32 l).toNat % 8) (d.r32 l) }
    else s

/-! ### EXIT (R115, R152, R153, R159) -/

/-- The trap an EXIT raises in a serial run or a gather callee thread. -/
def State.exitTrap (s : State) (c : Issue) (g : Group) : Option Halt :=
  (positions c.lanes).findSome? fun p =>
    match s.inner c.gkey g p with
    | .serial _ => some (Halt.trap 0x01 (c.first.setWidth 64) 0)
    | .none => none
    | .widened _ => none
    | _ =>
      (s.threadFiring c.gkey g p).map fun (_, f) =>
        let run := f.runs.head?
        let first := ((run.bind fun r => r.callers.head?).bind fun (k, q) =>
          (tget s.groups k).map fun h => if some (k, q) == f.thread then (f.saved.map (·.lid)).getD 0 else (h.lane q).lid).getD 0
        .trap 0x12 ((run.map (·.callee)).getD 0) (first.setWidth 64)

/-- A lane exits once its posted atomics are performed (R239); in a parallel callee it contributes nothing. -/
def State.exitLane (s : State) (c : Issue) (p : Nat) : State :=
  match tget s.groups c.gkey with
  | none => s
  | some g =>
    let s' := s.modLane c.gkey p fun l => { l with state := .exited }
    match s.inner c.gkey g p, g.blockAt p with
    | .widened id, some b => s'.calleeEnded id b.caller c.gkey
    | _, _ => s'

def execExit (s : State) : Out :=
  guardedUnit 0 s fun c g =>
    match s.exitTrap c g with
    | some h => .error h
    | none =>
      settled s c fun s => .ok (((g.order c.lanes).foldl (fun s p => s.exitLane c p) s).rendezvous c.gkey c.addr c.lanes)

end Sys2Proof.Machine
end

