-- ==== Sys2Proof/Machine/Nodes.lean ====
section
/-! DEFINITION. Node tables, handles and signals (R276, R278), the ready pool's entry and the slipway (R277, R283, R287),
record queues and tiles (R281, R282), completion objects (R254), submission (R275). -/

namespace Sys2Proof.Machine

/-! ### Handles (R276) -/

def handleOf (die gen entry : Nat) : Word := w32 (2 ^ 25 * die + 2 ^ 12 * gen + entry)

def handleDie (h : Word) : Nat := bits h.toNat 27 25
def handleEntry (h : Word) : Nat := bits h.toNat 11 0

/-- The live node a handle names: its die, entry and node; none for 0 or a stale handle. -/
def State.findNode (s : State) (h : Word) : Option (Nat × Nat × Node) :=
  if bits h.toNat 31 28 != 0 then none
  else
    match tget (s.die (handleDie h)).nodes (handleEntry h) with
    | some n => if n.gen = bits h.toNat 24 12 then some (handleDie h, handleEntry h, n) else none
    | none => none

def State.modNode (s : State) (die entry : Nat) (f : Node → Node) : State :=
  s.modDie die fun d => { d with nodes := tmod d.nodes entry f }

/-- The k-th key that a table leaves free. -/
def nthFree {α : Type} : Tab α → Nat → Nat
  | [], k => k
  | (a, _) :: t, k => if a ≤ k then nthFree t (k + 1) else k

/-- The generation of an entry's next node. -/
def nextGen (last : Option Nat) : Nat :=
  match last with
  | none => 1
  | some g => if g ≥ 8191 then 1 else g + 1

/-! ### The slipway (R287) -/

/-- Bytes of the slipway. -/
def Die.slipRoom (d : Die) : Nat := 65536 * d.slipsize.toNat

def Die.slipFull (d : Die) : Bool := d.slipRoom < (d.slip.length + 1) * Config.slipItemBytes || d.slipRoom = 0

/-- Where the next item would lie. -/
def Die.slipNext (d : Die) : Nat := bits d.slipbase.toNat 53 16 * 65536 + d.slipTail % d.slipRoom

/-- The slipway has room for an item; where it has none, the event of the cause is raised once. -/
def State.slipRoom (s : State) (die : Nat) : Bool × State :=
  let d := s.die die
  if d.slipFull then
    if d.slipEvent then (false, s)
    else
      (false, (s.modDie die fun d => { d with slipEvent := true }).raiseEvent die
        { Event.plain 4 with addr := w64 (d.slipTail % (max 1 d.slipRoom)) })
  else
    match s.walk die 0 d.slipNext with
    | .fault _ =>
      (false, s.faultOnce die 0 (d.slipNext / 65536) 32 { Event.plain 5 with addr := w64 d.slipNext })
    | .leaf _ _ _ => (true, s)

/-- An item goes to the slipway, if there is room. -/
def State.slipAdd (s : State) (die : Nat) (x : SlipItem) : Bool × State :=
  match s.slipRoom die with
  | (true, s) =>
    (true, s.modDie die fun d => { d with slip := d.slip ++ [x], slipTail := d.slipTail + Config.slipItemBytes })
  | r => r

/-! ### The ready pool (R283) -/

/-- A new entry. -/
def PoolEntry.enter (item : PoolItem) (prio : Nat) (stroke : DWord) : PoolEntry where
  item := item
  prio := prio
  since := stroke
  at7 := if prio ≥ 7 then some stroke else none
  e := min 7 prio
  res := false

/-- The pool or the slipway of a die has room for an entry. -/
def State.poolRoom (s : State) (die : Nat) : Bool × State :=
  if (s.die die).pool.length < 8192 then (true, s) else s.slipRoom die

/-- An item enters the pool of a die, or its slipway; false when neither has room. -/
def State.poolAdd (s : State) (die : Nat) (item : PoolItem) (prio : Nat) : Bool × State :=
  let e := PoolEntry.enter item prio s.stroke
  if (s.die die).pool.length < 8192 then (true, s.modDie die fun d => { d with pool := d.pool ++ [e] })
  else s.slipAdd die (.pool e)

/-! ### Readiness (R277, R278, R286) -/

/-- Clusters of a node's grid. -/
def NodeDesc.clusters (d : NodeDesc) : Nat := d.gx * d.gy * d.gz

/-- A ready node's clusters go to its die's pool, or to the package arbiter when another die is named; a node with a
record queue has only its tiles. Without room the node stays unready with no signal left to receive. -/
def State.makeReady (s : State) (die entry : Nat) : Bool × State :=
  match tget (s.die die).nodes entry with
  | none => (true, s)
  | some n =>
    let on := fun (s : State) => s.modNode die entry fun n => { n with ready := true }
    if n.desc.rqen then (true, on s)
    else if n.desc.dies != 0 && n.desc.dies != 2 ^ die then
      (true, on { s with arb := s.arb ++ [⟨die, entry, 0, n.desc.clusters, s.stroke, if n.desc.prio ≥ 7 then some s.stroke else none, min 7 n.desc.prio, []⟩] })
    else
      match s.poolAdd die (.grid (4096 * die + entry) 0 n.desc.clusters) n.desc.prio with
      | (true, s) => (true, on s)
      | (false, s) => (false, s)

/-- Every die of the mask lies in the partition of an owner (R369). -/
def State.diesOk (s : State) (owner : Option Nat) (mask : Nat) : Bool :=
  !s.partitioned || (List.range 8).all fun i => bits mask i i = 0 || (s.die i).owner == owner

/-- A handle names no node of another partition than a die's: one partition does not reach another (R369, log entry 31). -/
def State.reaches (s : State) (die : Nat) (h : Word) : Bool :=
  (s.findNode h).all fun x => s.diesOk (s.die die).owner (2 ^ x.1)

/-- A signal to the node of a handle (R278): counted while the node is not ready; a stale generation is counted in the
die's statistics. -/
def State.signal (s : State) (h : Word) : State :=
  if h = 0 then s
  else
    match s.findNode h with
    | none =>
      if bits h.toNat 31 28 = 0 && (tget (s.die (handleDie h)).gens (handleEntry h)).getD 1 != bits h.toNat 24 12 then
        s.modDie (handleDie h) fun d => { d with strays := d.strays + 1 }
      else s
    | some (die, entry, n) =>
      if n.ready || n.need = 0 then s
      else
        let s := s.modNode die entry fun n => { n with need := n.need - 1 }
        if n.need = 1 then (s.makeReady die entry).2 else s

/-! ### Completion objects (R254) -/

/-- The update of a completion object at its home; a dependency whose target count is reached is signalled, where it lies in
the partition of the object's die (R369). -/
def State.updateObject (s : State) (pa status flags : Nat) : State :=
  let x := s.num pa 16
  let count := (bits x 31 0 + 1) % 2 ^ 32
  let st := if bits x 47 40 = 0 then status else bits x 47 40
  let s := s.store none pa (leBytes 4 count ++ leBytes 1 (bits x 39 32 ||| flags) ++ leBytes 1 st ++
    leBytes 2 (bits x 63 48 + 1))
  let h := w32 (bits x 127 96)
  if h != 0 && count = bits x 95 64 && (hostBase ≤ pa || s.reaches (homeDie pa) h) then s.signal h else s

/-- The update of an object at a peer (R363): its operand has the status, and the flags above it. -/
def PeerReq.update (pa status flags : Nat) : PeerReq := ⟨0, pa, 16, [], 0x23, 0, w64 (status + 256 * flags), 0, false⟩

/-- The update of a completion object where its address lies: at home, or by a request to a peer (R363); false while the peer
is not reachable, with the event raised. A cell not in VALUE has no update (R231, log entry 21). -/
def State.updateAt (s : State) (die asid va : Nat) (x : Place) (status flags : Nat) (e : Event) : Bool × State :=
  match x with
  | .peer dev pa =>
    if s.routeOk dev then
      (true, (s.requestOf (die, Acc.engWrite.code, some asid) ([], 0) dev va (PeerReq.update pa status flags)).2)
    else
      (false, s.faultOnce die asid (va / 65536) (16 + Acc.engWrite.code)
        { e with kind := 2, access := Acc.engWrite.code, addr := w64 va, aux := w64 dev, asid := asid })
  | .here pa tagged => (true, if tagged && s.tag pa != tagValue then s else s.updateObject pa status flags)

/-- An update of an object by a die's units: false while its page faults, the event raised. -/
def State.dieComplete (s : State) (die asid va status : Nat) (ev : Event) : Bool × State :=
  let fault := fun (f : Nat) =>
    (false, s.faultOnce die asid (va / 65536) Acc.engWrite.code
      { ev with cause := f, access := Acc.engWrite.code, addr := w64 va, asid := asid })
  match s.walk die asid va with
  | .fault f => fault f
  | .leaf addr level e =>
    match permission e .atomic with
    | some f => fault f
    | none =>
      (s.mark addr e .atomic).updateAt die asid va (Place.ofEntry e (va / 65536 / leafPages level * leafPages level) va)
        status 0 ev

/-! ### Record queues and tiles (R280-R282) -/

def recKeep (r : List Word) : Bool := bits ((r[2]?.getD 0).toNat) 16 16 == 1
def recFlush (r : List Word) : Bool := bits ((r[2]?.getD 0).toNat) 17 17 == 1
def recValid (r : List Word) : Nat := bits ((r[2]?.getD 0).toNat) 15 0

def RecQueue.empty : RecQueue := ⟨none, false, [], [], none, false⟩

def State.queue (s : State) (die q : Nat) : RecQueue := (tget (s.die die).queues q).getD RecQueue.empty

def State.setQueue (s : State) (die q : Nat) (x : RecQueue) : State :=
  s.modDie die fun d => { d with queues := tset d.queues q x }

/-- The node a queue is bound to. -/
def State.queueNode (s : State) (die q : Nat) : Option (Nat × Nat × Node) :=
  match (s.queue die q).node with
  | none => none
  | some h => s.findNode (w32 h)

/-- Records the die holds on chip. -/
def Die.records (d : Die) : Nat :=
  d.queues.foldl (fun n x => n + x.2.arrive.length + x.2.opened.length) 0 +
    d.pool.foldl (fun n e => match e.item with | .tile _ rs => n + rs.length | _ => n) 0

/-- The open tile closes and becomes a pool entry of the queue's die. -/
def State.closeTile (s : State) (die q : Nat) : Bool × State :=
  let x := s.queue die q
  if x.opened.isEmpty then (true, s)
  else
    match s.queueNode die q with
    | none => (true, s)
    | some (nd, entry, n) =>
      match s.poolAdd die (.tile (4096 * nd + entry) x.opened) n.desc.prio with
      | (false, s) => (false, s)
      | (true, s) =>
        (true, (s.setQueue die q { x with opened := [], start := none, shut := false }).modNode nd entry fun n =>
          { n with teams := n.teams + 1 })

/-- The flush timer of an open tile has expired at a stroke (R282): start + 18.75 flush strokes. -/
def timerDue (x : RecQueue) (flush : Nat) (stroke : DWord) : Bool :=
  match x.start with
  | none => false
  | some t => flush != 0 && 75 * flush ≤ 4 * (stroke - t).toNat

/-- The open tile of a closed queue that was open when the queue closed, or that no record is on its way to any more (R282,
R287). -/
def State.closeDue (s : State) (die q : Nat) : Bool :=
  let x := s.queue die q
  x.closed && !x.opened.isEmpty && (x.shut || (x.arrive.isEmpty &&
    !(s.die die).slip.any fun y => match y with | .record k _ => k == q | .pool _ => false))

/-- The open tile of a queue closes if its timer has expired, or if the queue is closed and its last record has come. -/
def State.expireTile (s : State) (die q : Nat) : Bool × State :=
  match s.queueNode die q with
  | none => (true, s)
  | some (_, _, n) =>
    if s.closeDue die q || timerDue (s.queue die q) n.desc.flush s.stroke then s.closeTile die q else (true, s)

/-- One record joins the open tile, after an expired tile has closed. -/
def State.joinTile (s : State) (die q : Nat) (r : List Word) : Bool × State :=
  match s.queueNode die q with
  | none => (true, s)
  | some (_, _, n) =>
    if recValid r = 0 && !recKeep r then (true, s)
    else
      match s.expireTile die q with
      | (false, s) => (false, s)
      | (true, s) =>
        let x := s.queue die q
        let o := x.opened ++ [r]
        let s' := s.setQueue die q { x with opened := o, start := if x.opened.isEmpty then some s.stroke else x.start }
        if o.length ≥ n.desc.tile || recFlush r then
          match s'.closeTile die q with
          | (true, s') => (true, s')
          | (false, s') => (false, s'.setQueue die q x)
        else (true, s')

/-- The records that have arrived at a queue join its tiles in order, as far as there is room. -/
def State.joinAll (s : State) (die q : Nat) : Nat → State
  | 0 => s
  | n + 1 =>
    match (s.queue die q).arrive with
    | [] => s
    | r :: rs =>
      match s.joinTile die q r with
      | (false, s) => s
      | (true, s) =>
        let x := s.queue die q
        (s.setQueue die q { x with arrive := rs }).joinAll die q n

/-! ### The end of a node (R282, R288) -/

/-- The node is done: its grid's teams have ended, or its closed queue's tiles have. -/
def State.nodeDone (s : State) (die entry : Nat) (n : Node) : Bool :=
  if n.desc.rqen then
    let q := s.queue (n.desc.rqid / 1024) (n.desc.rqid % 1024)
    n.closed && q.arrive.isEmpty && q.opened.isEmpty && n.teams = n.ended &&
      !(s.die (n.desc.rqid / 1024)).slip.any fun x => match x with
        | .record k _ => k == n.desc.rqid % 1024
        | .pool e => match e.item with | .tile k _ => k == 4096 * die + entry | _ => false
  else n.ended ≥ n.desc.clusters * n.desc.cw * n.desc.ch

/-- A node that is done updates its completion object and leaves its entry; false while the object's page faults. -/
def State.retire (s : State) (die entry : Nat) : Bool × State :=
  match tget (s.die die).nodes entry with
  | none => (true, s)
  | some n =>
    if !s.nodeDone die entry n then (true, s)
    else
      let e := { Event.plain 1 with handle := handleOf die n.gen entry }
      match if n.desc.cobj = 0 then (true, s) else s.dieComplete die n.desc.asid n.desc.cobj 0 e with
      | (false, s) => (false, s)
      | (true, s) =>
        let s := s.modDie die fun d =>
          { d with nodes := terase d.nodes entry, served := d.served.filter fun x => x.2 != 4096 * die + entry }
        (true,
          if n.desc.rqen then s.modDie (n.desc.rqid / 1024) fun d => { d with queues := terase d.queues (n.desc.rqid % 1024) }
          else s)

/-- The queue of a node closes (R282): the open tile closes at once, or as soon as there is room for it; records still in the
slipway make tiles of their own, and with no tile left the node retires. -/
def State.closeQueue (s : State) (die entry : Nat) : State :=
  match tget (s.die die).nodes entry with
  | none => s
  | some n =>
    if !n.desc.rqen || n.closed then s
    else
      let (qd, q) := (n.desc.rqid / 1024, n.desc.rqid % 1024)
      let s := s.joinAll qd q (s.queue qd q).arrive.length
      let s := (s.setQueue qd q { s.queue qd q with closed := true, shut := !(s.queue qd q).opened.isEmpty }).modNode die entry fun n => { n with closed := true }
      ((s.expireTile qd q).2.retire die entry).2

/-! ### Submission (R275, R276) -/

/-- What a submission comes to. -/
inductive Submitted where
  | accepted (h : Word)
  | rejected (cause : Nat)
  /-- the node table is full -/
  | tableFull
  /-- pool and slipway are full -/
  | poolFull
  /-- the completion object of a rejected node faults at this address -/
  | fault (va : Nat)
deriving DecidableEq, Repr

/-- The queue of a descriptor is bound to a live node. -/
def State.queueBound (s : State) (d : NodeDesc) : Bool := (s.queueNode (d.rqid / 1024) (d.rqid % 1024)).isSome

/-- A rejected node: its completion object, if it has one, is updated once with FORMAT (R275). -/
def State.reject (s : State) (die : Nat) (d : NodeDesc) (cause : Nat) : Submitted × State :=
  if d.cobj = 0 || d.cobj % 16 != 0 then (.rejected cause, s)
  else
    match s.dieComplete die d.asid d.cobj 3 (Event.plain 1) with
    | (true, s) => (.rejected cause, s)
    | (false, s) => (.fault d.cobj, s)

/-- The boathouse of a die takes a descriptor. -/
def State.submit (s : State) (die : Nat) (owner : Option Nat) (n : Nat) (d : NodeDesc) (frameOk : Bool) : Submitted × State :=
  let d := { d with dies := if d.dies = 0 then 2 ^ die else d.dies }
  match nodeCause n d frameOk (s.queueBound d) (s.diesOk owner d.dies) with
  | some cause => s.reject die d cause
  | none =>
    let x := s.die die
    if x.nodes.length ≥ 4096 then (.tableFull, s)
    else
      match if d.npred = 0 && !d.rqen && d.dies = 2 ^ die then s.poolRoom die else (true, s) with
      | (false, s) => (.poolFull, s)
      | (true, s) =>
        let (k, s) := s.choose (4096 - x.nodes.length)
        let entry := nthFree x.nodes k
        let gen := nextGen (tget x.gens entry)
        let node : Node := ⟨d, gen, d.npred, false, false, 0, 0, 0⟩
        let s := s.modDie die fun x => { x with nodes := tset x.nodes entry node, gens := tset x.gens entry gen }
        let s := if d.rqen then
            s.setQueue (d.rqid / 1024) (d.rqid % 1024) { RecQueue.empty with node := some (handleOf die gen entry).toNat }
          else s
        (.accepted (handleOf die gen entry), if d.npred = 0 then (s.makeReady die entry).2 else s)

end Sys2Proof.Machine
end

