-- ==== Sys2Proof/Machine/Land.lean ====
section
/-! DEFINITION. JSEG, CFETCH, CINV and the end of a landing (R108-R113). -/

namespace Sys2Proof.Machine

/-! ### Updates by a core (R111, R254) -/

/-- The address space of a team. -/
def State.teamAsid (s : State) (tid : Nat) : Nat := ((tget s.teams tid).map (·.desc.asid)).getD 0

/-- The update of a completion object for a core: false while its page faults, which raises the event given. -/
def State.coreComplete (s : State) (core asid va status flags : Nat) (e : Event) : Bool × State :=
  let e := { e with core := core }
  match s.translate core asid va .engWrite with
  | (.fault f, s) =>
    (false, s.faultOnce (dieOf core) asid (va / 65536) Acc.engWrite.code
      { e with cause := f, access := Acc.engWrite.code, addr := w64 va, asid := asid })
  | (.to x, s) => s.updateAt (dieOf core) asid va x status flags e

/-- The event of a team's engine or landing. -/
def State.teamEvent (s : State) (tid : Nat) (kind : Nat) : Event :=
  match tget s.teams tid with
  | none => Event.plain kind
  | some t => { Event.plain kind with tidx := t.tidx, handle := t.handle, core := t.core, asid := t.desc.asid }

/-- An event told as that of a team. -/
def State.asTeam (s : State) (tid : Nat) (x : Event) : Event :=
  let y := s.teamEvent tid x.kind
  { x with tidx := y.tidx, handle := y.handle, asid := y.asid }

/-! ### Descriptors (R108) -/

/-- The segment descriptor at an address, read by the issuing set: the checks of R108, or none with the lanes parked. -/
def State.readSegment (s : State) (c : Issue) (g : Group) (t : Team) (a : DWord) : Except Halt (Option SegDesc × State) :=
  match badAddress 16 [a] with
  | some h => .error h
  | none =>
    match s.uniformLoad c g a.toNat 16 with
    | .error h => .error h
    | .ok (none, s) => .ok (none, s)
    | .ok (some bs, s) =>
      match SegDesc.parse (leNat bs) with
      | none => .error (.trap 0x0A a 0)
      | some d => if t.inWindow d then .ok (some d, s) else .error (.trap 0x09 a 0)

/-! ### JSEG (R110) -/

/-- A JSEG whose descriptor is known: it goes to its target once an equal entry has landed, and lands it where there is
none; meanwhile its lanes hold their group (R139). -/
def State.jsegWait (s : State) (c : Issue) (g : Group) (t : Team) (d : SegDesc) (target : DWord) : State :=
  let hold := fun (s : State) => s.modGroup c.gkey fun g =>
    { g with hold := some (.jseg c.addr c.lanes target d.lines d.bayline d.base) }
  match (s.core (coreOf c.gkey)).equalEntry d with
  | some e =>
    if e.state = .landed then
      (s.modGroup c.gkey fun g => { g.jump c.lanes target with hold := none })
    else hold s
  | none =>
    match (s.core (coreOf c.gkey)).startLanding g.tid t.desc.asid t.allot d [] with
    | none => hold s
    | some k => hold (s.setCore (coreOf c.gkey) k)

/-- The unit under issue is the one for which its lanes hold the group. -/
def Issue.holds? (c : Issue) (unit : DWord) (lanes : Mask) : Bool := unit == c.addr && lanes == c.lanes

/-- A JSEG that holds its group has still to wait: an equal entry is LANDING, or the table has no EMPTY entry (log entry 38). -/
def State.jsegHeld (s : State) (gkey : Nat) (g : Group) (t : Team) (d : SegDesc) : Bool :=
  match (s.core (coreOf gkey)).equalEntry d with
  | some e => e.state != .landed
  | none => ((s.core (coreOf gkey)).startLanding g.tid t.desc.asid t.allot d []).isNone

def execJseg (a b : USrc) (s : State) : Out :=
  guardedUnit 0 s fun c g =>
    match tget s.teams g.tid with
    | none => .error .hold
    | some t =>
      let start := fun (_ : Unit) =>
        match s.readSegment c g t (a.get g.u) with
        | .error h => .error h
        | .ok (none, s) => .ok s
        | .ok (some d, s) =>
          let target := b.get g.u
          if target >>> 54 != 0 then .error (.trap 0x06 target 0)
          else if target.toNat % 4 != 0 then .error (.trap 0x07 target 0)
          else if !d.covers target.toNat then .error (.trap 0x0A (a.get g.u) 0)
          else .ok (s.jsegWait c g t d target)
      match g.hold with
      | some (.jseg unit m target lines bayline base) =>
        let d : SegDesc := ⟨lines, bayline, base⟩
        if !c.holds? unit m then start ()
        else if s.jsegHeld c.gkey g t d then .error .hold
        else .ok (s.jsegWait c g t d target)
      | _ => start ()

/-! ### CFETCH (R111) -/

/-- CFETCH completes without waiting for the segment; where the table has no EMPTY entry it is held back until there is one. It
joins an equal entry that is LANDING, invalidated or not, and its object is updated when that entry leaves LANDING; an object
address of 0 is no object, wherever it stands (log entry 38). -/
def execCfetch (a b : USrc) (s : State) : Out :=
  guardedUnit 0 s fun c g =>
    match tget s.teams g.tid with
    | none => .error .hold
    | some t =>
      let cobj := b.get g.u
      match badAddress 16 [cobj] with
      | some h => .error h
      | none =>
        match s.readSegment c g t (a.get g.u) with
        | .error h => .error h
        | .ok (none, s) => .ok s
        | .ok (some d, s) =>
          let core := coreOf c.gkey
          let objs := if cobj = 0 then [] else [(t.desc.asid, cobj.toNat)]
          match (s.core core).equalEntry d with
          | some e =>
            if e.state = .landed then
              if cobj = 0 then .ok (s.advance c)
              else
                match s.coreComplete core t.desc.asid cobj.toNat 0 0 (s.teamEvent g.tid 1) with
                | (true, s) => .ok (s.advance c)
                | (false, s) => .ok (s.parkAll c.gkey c.lanes (.fault t.desc.asid (cobj.toNat / 65536)))
            else
              .ok ((s.modCore core fun k =>
                { k with land := k.land.map fun x => if x.age = e.age then { x with cobjs := x.cobjs ++ objs } else x }).advance c)
          | none =>
            match (s.core core).startLanding g.tid t.desc.asid t.allot d objs with
            | none => .error .hold
            | some k => .ok ((s.setCore core k).advance c)

/-! ### CINV (R112) -/

/-- The range of a CINV: it ends at 2^54. -/
def cinvRange (a b : DWord) : Nat × Nat := (a.toNat, min (a.toNat + b.toNat) (2 ^ 54) - a.toNat)

/-- The entries a CINV of a team meets: its own, or those with a line in its window (log entry 38), overlapping the range. -/
def cinvHits (tid : Nat) (t : Team) (lo n : Nat) (e : LandEntry) : Bool :=
  (e.tid == tid || overlap e.bayline e.lines t.winFirst t.winLines) && n != 0 && overlap e.base (256 * e.lines) lo n

def execCinv (a b : USrc) (s : State) : Out :=
  guardedUnit 0 s fun c g =>
    match tget s.teams g.tid with
    | none => .error .hold
    | some t =>
      let (lo, n) := cinvRange (a.get g.u) (b.get g.u)
      .ok ((s.modCore (coreOf c.gkey) fun k => { k with land := invalidate (cinvHits g.tid t lo n) k.land }).advance c)

/-- A loop buffer holds a word of a range. -/
def LoopBuf.meets (b : LoopBuf) (lo n : Nat) : Bool := n != 0 && overlap b.base (4 * b.words.length) lo n

/-- The loop buffers that meet a range are to be emptied at their groups' next issue; the issuing group's own is. -/
def Core.dropLoops (k : Core) (gkey lo n : Nat) : Core :=
  { k with seats := Vector.ofFn fun i =>
      let x := k.seats[i]
      match x.loop with
      | none => x
      | some b =>
        if !b.meets lo n then x
        else if b.gkey = gkey then { x with loop := none }
        else { x with loop := some { b with drop := true } } }

/-- CINV.sync first invalidates, then holds its group until no entry of the range is LANDING and no loop buffer of the
core holds a word of it. -/
def execCinvSync (a b : USrc) (s : State) : Out :=
  guardedUnit 0 s fun c g =>
    match tget s.teams g.tid with
    | none => .error .hold
    | some t =>
      let core := coreOf c.gkey
      let (lo, n) := cinvRange (a.get g.u) (b.get g.u)
      let held := g.hold = some (.landing c.addr c.lanes)
      let s := if held then s
        else s.modCore core fun k => ({ k with land := invalidate (cinvHits g.tid t lo n) k.land }).dropLoops c.gkey lo n
      let k := s.core core
      let busy := k.land.any (fun e => e.dead && cinvHits g.tid t lo n e) ||
        (List.range 4).any fun i => ((k.seats[i]?.bind (·.loop)).map (·.meets lo n)).getD false
      if busy && held then .error .hold
      else if busy then .ok (s.modGroup c.gkey fun g => { g with hold := some (.landing c.addr c.lanes) })
      else .ok ((s.modGroup c.gkey fun g => { g with hold := none }).advance c)

/-! ### The end of a landing (R109, R113) -/

/-- The completion objects of an entry, one after the other; those left when one faults. -/
def State.landObjects (s : State) (core tid : Nat) : List (Nat × Nat) → List (Nat × Nat) × State
  | [] => ([], s)
  | (asid, va) :: xs =>
    match s.coreComplete core asid va 0 0 (s.teamEvent tid 1) with
    | (true, s) => s.landObjects core tid xs
    | (false, s) => ((asid, va) :: xs, s)

/-- Where the copy of a landing stops: bytes that a command has still to write, a fault or a peer's answer, a line with an
uncorrectable error. -/
inductive CopyStop where
  | waits
  | fault (x : DieStop)
  | bad (line : Nat)

/-- The segment's bytes in pieces of 256, as plain loads of the team (R109, R217); cells give their bytes as they stand (log
entry 38). -/
def State.segmentBytes (s : State) (core asid va : Nat) : Nat → Except CopyStop (List Byte × State)
  | 0 => .ok ([], s)
  | n + 1 =>
    let rest := fun (bs : List Byte) (s : State) =>
      match s.segmentBytes core asid (va + 256) n with
      | .error x => .error x
      | .ok (xs, s) => .ok (bs ++ xs, s)
    match s.translate core asid va .land with
    | (.fault f, _) => .error (.fault ⟨asid, va, 256, f⟩)
    | (.to (.peer dev pa), s) =>
      match (s.die (dieOf core)).takeGot dev pa 256 with
      | some (bs, d) => rest bs (s.modDie (dieOf core) fun _ => d)
      | none => .error (.fault ⟨asid, va, 256, 6⟩)
    | (.to (.here pa _), s) =>
      if s.owned 0 0 pa 256 then .error .waits
      else
        match s.badLine pa 256 with
        | some line => .error (.bad line)
        | none => rest (s.bytes pa 256) s

/-- A landing that meets an uncorrectable error traps the groups that wait for its segment; without one the error is only
reported, and a team that waits to start starts unlanded (R336). -/
def State.landingError (s : State) (core : Nat) (e : LandEntry) (line : Nat) : State :=
  let unit := fun (g : Group) => match g.hold with
    | some (.jseg u _ _ n b a) => if e.equals ⟨n, b, a⟩ then some u else none
    | some (.autoLand u n b a) => if e.equals ⟨n, b, a⟩ then some u else none
    | _ => none
  let waits := s.groups.filterMap fun x => if coreOf x.1 = core then (unit x.2).map fun u => (x.1, u) else none
  let who := fun (x : Event) => { s.asTeam e.tid x with asid := e.asid }
  if waits.isEmpty || e.dead then (s.memoryError core line 4 who).modTeam e.tid fun t => { t with landed := true }
  else waits.foldl (fun s x =>
    (s.modGroup x.1 fun g => { g with hold := none }).trapGroup x.1 x.2 0xFFFFFFFF#32 0xFFFFFFFF#32 0x30 (w64 line) 4) s

/-- LANDING_COMPLETE: the copy of the core's landing entry with this index is done. A translation fault holds the copy and
raises an event of the team. The bay has the bytes of the copies in the order in which they end (log entry 38); the completion
objects are updated when the entry leaves LANDING, but for one that an error keeps from landing. -/
def execLandingComplete (core slot : Nat) (s : State) : Out :=
  match (s.core core).land[slot]? with
  | none => .next s
  | some e =>
    if e.state != .landing then .next s
    else
      let change := fun (s : State) (f : LandEntry → LandEntry) =>
        s.modCore core fun k => { k with land := k.land.map fun x => if x.age = e.age then f x else x }
      let leave := fun (s : State) => s.modCore core fun k => { k with land := k.land.filter fun x => x.age != e.age }
      match s.segmentBytes core e.asid e.base e.lines with
      | .error .waits => .next s
      | .error (.fault x) =>
        .next (change (s.dieFault (dieOf core) x .land (s.teamEvent e.tid 1)) fun x => { x with held := true })
      | .error (.bad line) =>
        match if e.dead then s.landObjects core e.tid e.cobjs else ([], s) with
        | (x :: xs, s) => .next (change s fun y => { y with held := true, cobjs := x :: xs })
        | ([], s) => .next ((leave s).landingError core e line)
      | .ok (bs, s) =>
        match s.landObjects core e.tid e.cobjs with
        | (x :: xs, s) => .next (change s fun y => { y with held := true, cobjs := x :: xs })
        | ([], s) =>
          .next ((leave s).modCore core fun k =>
            { k with
              bay := mwrite k.bay (256 * e.bayline) bs
              land := k.land ++ (if e.dead then [] else [{ e with state := .landed, cobjs := [], held := false }]) })

/-- The event is due for an entry. -/
def LandEntry.due (e : LandEntry) : Bool := e.state == .landing && !e.held

end Sys2Proof.Machine
end

