-- ==== Sys2Proof/Machine/Cell.lean ====
section
/-! DEFINITION. Fences (R243), waits on completion objects (R244), the cell instructions (R245-R249), and the events of
cells, watchers, posted atomics and the stroke counter (R226, R228, R239, R244, R285, R313). -/

namespace Sys2Proof.Machine

/-! ### Fences (R213, R243) -/

/-- A unit goes on after what it waits for. -/
def released (r : Res) (f : State → Res) : Res :=
  match r with
  | .error h => .error h
  | .ok s => f s

/-- A fence on the cox: its accesses are performed as they issue, so that none is left to order (R341, log entry 11); an acquire
at .sys holds for whoever is ordered after it (R203). -/
def coxFence (n : Nat) (s : State) (c : Issue) : Out :=
  coxGuarded s c fun _ => .ok (if n = 5 then s.forgetHost else s)

def execFence (n : Nat) (s : State) : Out :=
  orCox s (coxFence n s) <| guardedUnit 0 s fun c _ =>
    released (s.release c.gkey c.lanes n) fun s => .ok ((s.acquire c.gkey n).advance c)

/-- A posted atomic of the issuing lanes is a read that an acquire fence follows: it is performed first (R208, R212). -/
def execFenceAcq (n : Nat) (s : State) : Out :=
  orCox s (coxFence n s) <| guardedUnit 0 s fun c _ =>
    settled s c fun s => .ok ((s.acquire c.gkey n).advance c)

def execFenceRel (n : Nat) (s : State) : Out :=
  orCox s (coxFence 0 s) <| guardedUnit 0 s fun c _ =>
    released (s.release c.gkey c.lanes n) fun s => .ok (s.advance c)

/-- Fences of S in order: by stroke tick, then core, then seat, then order of issue (R213). -/
def scInsert (x : DWord × Nat × Nat × Nat) : List (DWord × Nat × Nat × Nat) → List (DWord × Nat × Nat × Nat)
  | [] => [x]
  | y :: ys =>
    let key := fun (z : DWord × Nat × Nat × Nat) => [z.1.toNat, z.2.1, z.2.2.1, z.2.2.2]
    if key x < key y then x :: y :: ys else y :: scInsert x ys

/-- Accesses of a core at peers that have not been answered (R363). -/
def State.coreAsks (s : State) (core : Nat) : Bool :=
  s.peerWaits.any fun x => x.2.unit.isNone && x.2.pos < 32 && coreOf x.2.gkey == core

/-- An SC fence with its number in order of issue drains its core: every posted atomic and every access at a peer. Then it waits
for the next stroke tick. -/
def State.scDrain (s : State) (c : Issue) (i : Nat) : Res :=
  let hold := fun (s : State) (tick : Option DWord) => s.modGroup c.gkey fun g => { g with hold := some (.scFence c.addr c.lanes tick i) }
  match s.complete c.gkey fun _ => true with
  | .error h => .error h
  | .ok s => if s.coreAsks (coreOf c.gkey) then .error .hold else .ok (hold s (some (s.stroke + 1)))

/-- FENCE.sc takes its number when it is first issued, and holds its group; drained, it waits for the stroke tick by whose index
it takes its place in S (R139, R213). On the cox it is a fence like the others (log entry 11). -/
def execFenceSc (n : Nat) (s : State) : Out :=
  orCox s (coxFence n s) <| guardedUnit 0 s fun c g =>
    let start := fun (_ : Unit) =>
      let i := s.nextId
      let s := { s with nextId := i + 1 }
      match s.scDrain c i with
      | .ok s => .ok s
      | .error _ => .ok (s.modGroup c.gkey fun g => { g with hold := some (.scFence c.addr c.lanes none i) })
    match g.hold with
    | some (.scFence unit m tick i) =>
      if !c.holds? unit m then start ()
      else
        match tick with
        | none => s.scDrain c i
        | some t =>
          if s.stroke < t then .error .hold
          else
            let s := { s with scOrder := scInsert (t, coreOf c.gkey, seatOf c.gkey, i) s.scOrder }
            .ok (((s.acquire c.gkey n).modGroup c.gkey fun g => { g with hold := none }).advance c)
    | _ => start ()

/-! ### CWAIT (R244) -/

/-- A number for the line a CWAIT watches; objects on peer leaves stand above all memory. -/
def watchAddress (s : State) (core asid va : Nat) : Nat × Bool :=
  match (s.translate core asid va .load).1 with
  | .to (.here pa _) => (pa, true)
  | .to (.peer dev pa) => (2 ^ 53 * (dev + 1) + pa, false)
  | .fault _ => (va, false)

/-- The group becomes a watcher of a line if its die has a free watch entry (R244). -/
def State.watch (s : State) (gkey pa : Nat) : State :=
  if (s.die (homeDie pa)).watches.length < 1024 then
    s.modDie (homeDie pa) fun d => { d with watches := d.watches ++ [(gkey, lineOf pa, false)] }
  else s

/-- CWAIT on the cox: the object is named by its physical address, and the cox waits at the unit (R341, log entry 11). -/
def coxCwait (a b : USrc) (s : State) (c : Issue) : Out :=
  let u := (s.core c.core).cox.u
  let short := leNat (s.coxRead c.core (a.get u).toNat 4) < ((b.get u).setWidth 32 : Word).toNat
  if c.kholds 0 u && (coxBad (a.get u) 16).isNone && (short || s.coxWaits c (a.get u) 0 4) then .next { s with cur := none }
  else coxAt s c a 16 fun _ _ => .ok s

def execCwait (a b : USrc) (s : State) : Out :=
  orCox s (coxCwait a b s) <| guardedUnit 0 s fun c g =>
    let va := a.get g.u
    match badAddress 16 [va] with
    | some h => .error h
    | none =>
      match eachRes (fun p s => s.settleLane c.gkey p va.toNat 4) (positions c.lanes) s with
      | .error h => .error h
      | .ok s =>
      let (pa, watched) := watchAddress s (coreOf c.gkey) (s.asidOf g) va.toNat
      match s.uniformRead false c g va.toNat 4 with
      | .error h => .error h
      | .ok (none, s) => .ok s
      | .ok (some bs, s) =>
        if ((b.get g.u).setWidth 32 : Word).toNat ≤ leNat bs then .ok ((s.acquire c.gkey 4).advance c)
        else
          let s := (s.acquire c.gkey 4).parkAll c.gkey c.lanes (.cwait pa)
          .ok (if watched then s.watch c.gkey pa else s)

/-! ### Cell forms (R245) -/

/-- The common checks of a cell form: the cell's address and its tag's being in force; none with the lanes parked. An
untagged page gives false. -/
def State.cellAccess (s : State) (c : Issue) (g : Group) (va : DWord) (k : Acc) : Except Halt (Option (Nat × Bool) × State) :=
  match badAddress 32 [va] with
  | some h => .error h
  | none =>
    match s.translate (coreOf c.gkey) (s.asidOf g) va.toNat k with
    | (.fault f, s) =>
      match positions c.lanes with
      | [] => .ok (none, s)
      | p :: _ =>
        .ok (none, (s.laneFault c.gkey g p va.toNat f k c.lanes).parkAll c.gkey c.lanes
          (.fault (s.asidOf g) (va.toNat / 65536)))
    | (.to (.peer _ _), s) => .ok (some (0, false), s)
    | (.to (.here pa tagged), s) =>
      if tagged && s.ownsPlace (s.asidOf g) (.here pa tagged) 32 then .error .hold else .ok (some (pa, tagged), s)

/-- A cell form on the cox, whose accesses no page marks as tagged: cause 0x1A (R245, R341). -/
def coxCell (a : USrc) (s : State) (c : Issue) : Out := coxAt s c a 32 fun _ _ => .error 0x1A

/-- A cell form that needs a tagged page. -/
def cellForm (s : State) (a : USrc) (k : Acc) (body : Issue → Group → DWord → Nat → State → Res) : Out :=
  orCox s (coxCell a s) <| closingUnit 0 s fun c g =>
    let va := a.get g.u
    match s.cellAccess c g va k with
    | .error h => .error h
    | .ok (none, s) => .ok s
    | .ok (some (_, false), _) => .error (.trap 0x1A va 0)
    | .ok (some (pa, true), s) => body c g va pa s

/-- The 32 bytes of four uniform registers. -/
def UFile.block (u : UFile) (b : Nat) : List Byte := leBytes 32 (u.run b 4)

/-- The record a SUSPEND writes: its team's address space in place of the operand's (R246). -/
def withAsid (n asid : Nat) : Nat := n - bits n 153 142 * 2 ^ 142 + asid % 4096 * 2 ^ 142

def execSuspend (a : USrc) (b : Nat) (s : State) : Out :=
  cellForm s a .store fun c g va pa s =>
    let n := withAsid (g.u.run b 4) (s.asidOf g)
    if !cellRecOk n || bits n 245 197 != bits va.toNat 53 5 then .error (.trap 0x1B va 0)
    else if s.tag pa = tagEvaluating then .error (.trap 0x1D va 0)
    else
      released (s.release c.gkey c.lanes 4) fun s =>
        .ok (((s.store (some (coreOf c.gkey)) pa (leBytes 32 n)).setTag pa tagSuspended).advance c)

/-- TOUCH triggers without data; an untagged page is no cell (R245, R247), and the cox's memory has none. -/
def execTouch (a : USrc) (s : State) : Out :=
  orCox s (fun c => coxAt s c a 32 fun _ _ => .ok s) <| closingUnit 0 s fun c g =>
    let va := a.get g.u
    match s.cellAccess c g va .load with
    | .error h => .error h
    | .ok (none, s) => .ok s
    | .ok (some (_, false), s) => .ok (s.advance c)
    | .ok (some (pa, true), s) =>
      if s.tag pa = tagValue then .ok ((s.acquire c.gkey 4).advance c)
      else
        match s.meetCell c.gkey g c.lanes pa va.toNat with
        | .error h => .error h
        | .ok s => .ok s

/-- A peer's request is performed at this device (R231, R363), and answered. -/
def State.peerAct (s : State) (dev : Nat) (r : PeerReq) : State :=
  if r.major = 0x20 then s.answer dev { r with data := s.bytes r.pa r.size }
  else if r.major = 0x23 then
    (s.updateObject r.pa (bits r.operand.toNat 7 0) (bits r.operand.toNat 15 8)).answer dev { r with data := [] }
  else
    let (old, s) := s.hostAtomic r.pa r.major r.funct r.operand r.swap
    s.answer dev { r with data := leBytes (atomicBytes r.major) old }

/-- The first cell of a written range that forbids the write (R225, R231): one under evaluation, or one in SUSPENDED or FAILED
that is not covered whole. -/
def State.closedCell (s : State) (pa n : Nat) : Option Nat :=
  ((List.range (n / 32 + 2)).map fun i => cellOf pa + 32 * i).find? fun x =>
    x < pa + n && s.tag x != tagValue && (s.tag x == tagEvaluating || !(pa ≤ x && x + 32 ≤ pa + n))

/-- The cells of a range take VALUE where the write covers them whole. -/
def State.armCells (s : State) (pa n : Nat) : State :=
  ((List.range (n / 32 + 2)).map fun i => cellOf pa + 32 * i).foldl
    (fun s x => if x < pa + n && s.tag x != tagValue then s.setTag x tagValue else s) s

/-- A peer's write at this device: like a lane's store, or like an engine's (R225, R231); its acknowledgement. -/
def State.peerWrite (s : State) (dev : Nat) (r : PeerReq) : State :=
  match if isHbm r.pa then s.closedCell r.pa r.data.length else none with
  | some x => s.answer dev (refusedReq r (if s.tag x = tagEvaluating then 0x1D else 0x1C))
  | none =>
    let s := if isHbm r.pa then s.armCells r.pa r.data.length else s
    (s.hostStore r.pa r.data).answer dev { r with data := [] }

/-- An access of a peer at this device (R231). A load or an atomic triggers like a lane's at the first cell in its bytes that
is not in VALUE, without a chain; an update of a completion object there fails. All wait for bytes that a command here still
has to write (R217). -/
def State.servePeer (s : State) (dev : Nat) (r : PeerReq) : State :=
  let refuse := fun (s : State) => s.answer dev (refusedReq r 0x1E)
  let keep := fun (s : State) (fault : Option (Nat × Nat)) =>
    s.modDie (homeDie r.pa) fun d => { d with starters := d.starters ++ [⟨cellOf r.pa, 0, 0, false, some (dev, r), fault⟩] }
  if !populated r.pa then refuse s
  else if s.owned 0 0 r.pa r.size then keep s none
  else if r.major = 0x21 || r.major = 0x22 then s.peerWrite dev r
  else
    match if isHbm r.pa then s.openCell (cellOf r.pa) (r.pa + r.size - cellOf r.pa) else none with
    | none => s.peerAct dev r
    | some i =>
      let pa := cellOf r.pa + 32 * i
      let t := s.tag pa
      if t = tagFailed || r.major = 0x23 then refuse s
      else if t = tagEvaluating then
        s.modEvaluation pa fun e => { e with waiters := e.waiters ++ [⟨0, 0, 0, false, some (dev, r)⟩] }
      else
        match s.startCell pa (homeDie pa) none 0 ⟨0, 0, 0, false, some (dev, r)⟩ with
        | (.failed notify, _) => refuse (s.failCell pa notify 0)
        | (.bad line, s) => refuse (s.dieError (homeDie pa) line 1)
        | (.fault x, s) => keep (s.dieFault (homeDie pa) x .cell (Event.plain 1)) (if x.waits then none else some (x.asid, x.page))
        | (.parked (.starter _), s) => keep s none
        | (_, s) => s

/-- The waiters of a fulfilled cell replay, each as an acquire at .pkg (R219, R228). -/
def State.wakeAll (s : State) (e : CellEntry) : State :=
  (e.waiters.filter (·.peer.isNone)).foldl (fun s w => s.acquire w.gkey 4) (s.wakeWaiters e)

def execFulfill (a : USrc) (b : Nat) (s : State) : Out :=
  cellForm s a .store fun c g va pa s =>
    if s.tag pa != tagEvaluating then .error (.trap 0x1F va ((s.tag pa).setWidth 64))
    else
      match s.evaluation pa with
      | none => .error (.trap 0x1D va 0)
      | some e =>
        if e.team != some g.tid then .error (.trap 0x1D va 0)
        else
          released (s.release c.gkey c.lanes 4) fun s =>
            let bs := (g.u.block b).take e.rsize ++ leBytes (32 - e.rsize) 0
            let s := (s.store (some (coreOf c.gkey)) pa bs).setTag pa tagValue
            .ok (((s.freeEvaluation e).wakeAll e).advance c)

def execCelltag (a b : USrc) (d : UDst) (s : State) : Out :=
  orCox s (coxCell a s) <| closingUnit 0 s fun c g =>
    let va := a.get g.u
    let x := b.get g.u
    match s.cellAccess c g va (if x.getLsbD 2 then .load else .store) with
    | .error h => .error h
    | .ok (none, s) => .ok s
    | .ok (some (_, false), _) => .error (.trap 0x1A va 0)
    | .ok (some (pa, true), s) =>
      let old := s.tag pa
      let put := fun (s : State) => .ok ((s.modGroup c.gkey fun g => { g with u := d.put false (old.setWidth 64) g.u }).advance c)
      if x.getLsbD 2 then put s
      else if old = tagEvaluating || x.setWidth 2 = tagEvaluating then .error (.trap 0x1D va 0)
      else put (s.setTag pa (x.setWidth 2))

/-! ### Events of cells (R226, R228, R285) -/

/-- EVALUATOR_REQUEST: the first request on a die's event queue becomes a pool entry when one is free. -/
def execEvaluatorRequest (die : Nat) (s : State) : Out :=
  let d := s.die die
  match d.evals with
  | [] => .next s
  | r :: rs =>
    if d.pool.length < 8192 then
      .next (s.modDie die fun d =>
        { d with evals := rs, pool := d.pool ++ [PoolEntry.enter (.evaluator r.pa r.desc r.s0 r.s1 r.s2 r.s3) r.prio s.stroke] })
    else .next s

/-- A parked starter would now find a chain and an entry, and its team stands on a core; a peer's request that waits finds its
page resolved, and no command that still owns its bytes. -/
def State.starterReady (s : State) (x : Starter) : Bool :=
  let room := fun (die : Nat) => (s.newChain die).isSome && s.entryFree (homeDie x.pa) (512 * die)
  match x.peer with
  | some (_, r) =>
    let die := homeDie x.pa
    match x.fault with
    | some (asid, page) => !(s.die die).faults.contains (asid, page, Acc.cell.code)
    | none => !s.owned 0 0 r.pa r.size && (s.tag x.pa != tagSuspended || room die)
  | none =>
    coreOf x.gkey < noCore &&
      match (tget s.groups x.gkey).bind s.chainOf with
      | some c => s.entryFree (homeDie x.pa) c
      | none => room (dieOf (coreOf x.gkey))

/-- Lanes of a group parked for a reason become active and replay; posted atomics of it that waited for that are tried
again. -/
def State.wake (s : State) (gkey : Nat) (f : ParkWhy → Bool) : State :=
  (s.modGroup gkey fun g => g.mapLanes 0xFFFFFFFF#32 fun l =>
    match l.state with
    | .parked w => if f w then { l with state := .active } else l
    | _ => l).retryPosted (postCore gkey) fun x => x.gkey == gkey && x.wait.any f

/-- The lanes of a mask parked as starters of a cell. -/
def Group.starting (g : Group) (pa : Nat) (m : Mask) : Mask := m &&& g.where fun l => l.state = .parked (.starter pa)

/-- The lanes of a parked start become active; its posted atomics are tried again, or its lanes replay their access. -/
def State.retryStarter (s : State) (x : Starter) : State :=
  match tget s.groups x.gkey with
  | none => s
  | some g =>
    let m := g.starting x.pa x.mask
    let s := s.setGroup x.gkey (g.mapLanes m fun l => { l with state := .active })
    if x.posted then
      s.retryPosted (postCore x.gkey) fun y => y.of x.gkey x.mask && y.wait == some (.starter x.pa)
    else { s with agenda := .replay ⟨x.gkey, 0, m, false, none⟩ :: s.agenda }

/-- CELL_STARTER_RETRY: the first parked starter of a die's cells that can start replays, before anything else (R226). -/
def execCellStarterRetry (die : Nat) (s : State) : Out :=
  match (s.die die).starters.find? s.starterReady with
  | none => .next s
  | some x =>
    let s := s.modDie die fun d => { d with starters := d.starters.erase x }
    match x.peer with
    | some (dev, r) => .next (s.servePeer dev r)
    | none => .next (s.retryStarter x)

/-- Waiters beyond the 64 records of an entry. -/
def CellEntry.overflow (e : CellEntry) : List Waiter := (e.waiters.filter (·.peer.isNone)).drop 64

/-- The waiters of a group beyond the records of the cells they wait for. -/
def State.overflowWaiters (s : State) (gkey : Nat) : List (Nat × Waiter) :=
  s.dies.toList.flatMap fun d => d.cells.flatMap fun e =>
    (e.overflow.filter fun w => w.gkey == gkey).map fun w => (e.pa, w)

/-- CELL_WAITER_RETRY: the group's overflow waiters retry their accesses. -/
def execCellWaiterRetry (group : Nat) (s : State) : Out :=
  .next ((s.overflowWaiters group).foldl (fun s x =>
    let s := (s.modEvaluation x.1 fun e => { e with waiters := e.waiters.erase x.2 }).wakeWaiter x.1 x.2
    if x.2.posted then s.performWoken group x.2.lanes else s) s)

/-! ### Events of watchers (R244) -/

/-- The watches of a group that were touched. -/
def Die.touched (d : Die) (gkey : Nat) : List Nat :=
  (d.watches.filter fun w => w.1 == gkey && w.2.2).map fun w => w.2.1

def waitsOn (lines : List Nat) : ParkWhy → Bool
  | .cwait pa => lines.contains (lineOf pa)
  | _ => false

/-- CWAIT_RECHECK: a write to a watched line re-runs the group's loop. -/
def execCwaitRecheck (group : Nat) (s : State) : Out :=
  let lines := s.dies.toList.flatMap fun d => d.touched group
  let s := { s with dies := Vector.ofFn fun i =>
    { s.dies[i] with watches := s.dies[i].watches.filter fun w => !(w.1 == group && w.2.2) } }
  .next (s.wake group (waitsOn lines))

/-- Lanes of the group that wait without a watch entry. -/
def State.unwatched (s : State) (gkey : Nat) : ParkWhy → Bool
  | .cwait pa => !s.dies.toList.any fun d => d.watches.any fun w => w.1 == gkey && w.2.1 == lineOf pa
  | _ => false

/-- CWAIT_POLL: a watcher without an entry re-runs its loop. -/
def execCwaitPoll (group : Nat) (s : State) : Out :=
  .next (s.wake group (s.unwatched group))

/-! ### Posted atomics (R239) -/

/-- Posted atomics that wait for nothing and that no earlier one on their bytes stands before; those that only have their trap
to raise. -/
def firstPosted : List Posted → List Posted → List Posted
  | _, [] => []
  | before, x :: xs =>
    if x.trap.isSome then x :: firstPosted before xs
    else if x.wait.isNone && !before.any fun y => overlap y.va 8 x.va 8 then x :: firstPosted (x :: before) xs
    else firstPosted (x :: before) xs

/-- A posted atomic may be tried: one that only has its trap to raise, when its group runs. -/
def State.postedOpen (s : State) (x : Posted) : Bool :=
  x.trap.isNone || (tget s.groups x.gkey).all fun g => g.stop.isNone

/-- POSTED_ATOMIC_PERFORM: one posted atomic of the core is tried at its home. -/
def execPostedAtomicPerform (core : Nat) (s : State) : Out :=
  match (firstPosted [] (s.core core).posted).filter s.postedOpen with
  | [] => .next s
  | x :: xs =>
    let (i, s) := s.choose (xs.length + 1)
    .next (s.tryPosted ((x :: xs)[i]?.getD x))

/-- POSTED_ATOMIC_FAULT: the lanes of posted atomics that wait park before their next unit. -/
def execPostedAtomicFault (core : Nat) (s : State) : Out := .next (s.parkPosted core)

/-! ### The stroke counter (R313) -/

/-- STROKE_TICK. -/
def execStrokeTick (s : State) : Out :=
  .next { s with stroke := s.stroke + 1 }

end Sys2Proof.Machine
end

