-- ==== Sys2Proof/Machine/Engine.lean ====
section
/-! DEFINITION. What all engine commands share (R202, R217, R231, R253-R256, R262, R290): how a command stops, engine reads
and writes of global memory, local spaces and rings, ownership, and the end of a command. -/

namespace Sys2Proof.Machine

/-! ### Outcomes of engine work -/

/-- Why an engine stops: it waits in a state, or its command ends with a status and the detail for `efaddr` (R255). -/
inductive EStop where
  | wait (x : CmdState)
  | fail (status : Nat) (detail : DWord)
deriving DecidableEq, Repr

/-- The state reached, and a value or the reason of the stop. -/
abbrev ERes (α : Type) := State × Except EStop α

def ERes.next {α β : Type} (x : ERes α) (f : α → State → ERes β) : ERes β :=
  match x with
  | (s, .ok a) => f a s
  | (s, .error e) => (s, .error e)

def efail {α : Type} (s : State) (status : Nat) (detail : Nat) : ERes α := (s, .error (.fail status (w64 detail)))

def stRANGE : Nat := 1
def stALIGN : Nat := 2
def stFORMAT : Nat := 3
def stCELL : Nat := 4
def stORDER : Nat := 5
def stRAGGEDNEG : Nat := 6
def stRAGGEDOVER : Nat := 7
def stSKIPPED : Nat := 8
def stADAPTER : Nat := 9
def stBANKS : Nat := 10
def stMEMERR : Nat := 11
def stABORTED : Nat := 12

/-! ### Commands of a core -/

/-- Both paths, in order of acceptance. -/
def Core.cmds (k : Core) : List Cmd :=
  let all := k.vq ++ k.dt
  (sortBy id (all.map (·.id))).filterMap fun i => all.find? (·.id == i)

def Core.cmd (k : Core) (id : Nat) : Option Cmd := (k.vq ++ k.dt).find? (·.id == id)

def Core.modCmd (k : Core) (id : Nat) (f : Cmd → Cmd) : Core :=
  let g := fun (c : Cmd) => if c.id = id then f c else c
  { k with vq := k.vq.map g, dt := k.dt.map g }

def State.modCmd (s : State) (core id : Nat) (f : Cmd → Cmd) : State := s.modCore core (·.modCmd id f)

/-- A peer has still to answer the command: a read, or any access (R363). -/
def State.cmdAsks (s : State) (id : Nat) : Bool := s.peerWaits.any fun x => x.2.pos == 64 + id && x.2.req.major == 0x20
def State.cmdUnanswered (s : State) (id : Nat) : Bool := s.peerWaits.any fun x => x.2.pos == 64 + id

/-- An event names the command's team and group (R202, R339); one whose group has ended names no group. -/
def State.cmdEvent (s : State) (core : Nat) (c : Cmd) (e : Event) : Event :=
  let x := s.teamEvent c.tid 1
  { e with
    tidx := x.tidx, handle := x.handle, core := core, asid := s.teamAsid c.tid
    gref := if c.orphan then 0xFF else c.gkey % 64 }

/-- Bytes that commands accepted before this one have still to write (R217, R253). -/
def State.ownedBefore (s : State) (c : Cmd) (space tid a n : Nat) : Bool := s.ownedBy (·.id < c.id) space tid a n

/-! ### Global memory (R202, R217, R231) -/

/-- The first cell of a range whose tag is not VALUE. -/
def State.firstCell (s : State) (pa n : Nat) : Option Nat :=
  ((List.range (n / 32 + 2)).map fun i => cellOf pa + 32 * i).find? fun x => x < pa + n && s.tag x != tagValue

/-- The command waits at an element on a faulting page (R202). -/
def State.cmdFault (s : State) (core : Nat) (c : Cmd) (va cause : Nat) (k : Acc) : State × EStop :=
  let asid := s.teamAsid c.tid
  (s.engineFault core asid va cause k c.major (s.cmdEvent core c), .wait (.fault asid (va / 65536)))

/-- The command waits at an element on an unreachable peer (R362). -/
def State.cmdPeer (s : State) (core : Nat) (c : Cmd) (va dev : Nat) (k : Acc) : State × EStop :=
  (s.faultOnce (dieOf core) (s.teamAsid c.tid) (va / 65536) (16 + k.code)
    { s.cmdEvent core c (Event.plain 2) with access := k.code, addr := w64 va, aux := w64 dev }, .wait (.peer dev))

/-- An engine's translation; an address beyond 54 bits has no page (log entry 14). -/
def State.engTranslate (s : State) (core : Nat) (c : Cmd) (va : Nat) (k : Acc) : Xlate × State :=
  if 2 ^ 54 ≤ va then (.fault 1, s) else s.translate core (s.teamAsid c.tid) va k

/-- A range cut at the lines' borders: address and length. -/
def lineCuts (pa n : Nat) : List (Nat × Nat) :=
  (List.range ((pa + n - 1) / 128 + 1 - pa / 128)).map fun i =>
    let x := 128 * (pa / 128 + i)
    (max pa x, min (pa + n) (x + 128) - max pa x)

/-- Bytes of a peer that have been answered; the cuts of the range that have not. -/
def Cmd.peerBytes (c : Cmd) (dev pa n : Nat) : List Byte :=
  (List.range n).filterMap fun i => tget c.got (peerKey dev (pa + i))

def Cmd.unanswered (c : Cmd) (dev pa n : Nat) : List (Nat × Nat) :=
  (lineCuts pa n).filter fun x => (c.peerBytes dev x.1 x.2).length != x.2

/-- n bytes at a virtual address read at home by an engine. A peer is asked line by line; bytes that an earlier command has
still to write are waited for. -/
def State.engRead (s : State) (core : Nat) (c : Cmd) (va n : Nat) : Nat → ERes (List Byte)
  | 0 => (s, .ok [])
  | fuel + 1 =>
    if n = 0 then (s, .ok [])
    else
      let m := min n (65536 - va % 65536)
      match s.engTranslate core c va .engRead with
      | (.fault f, s) => let (s, e) := s.cmdFault core c va f .engRead; (s, .error e)
      | (.to (.peer dev pa), s) =>
        if s.ownedBefore c 0 0 (peerKey dev pa) m then (s, .error (.wait .running))
        else if (c.unanswered dev pa m).isEmpty then
          (s.engRead core c (va + m) (n - m) fuel).next fun xs s => (s, .ok (c.peerBytes dev pa m ++ xs))
        else if s.routeOk dev then
          ((c.unanswered dev pa m).foldl (fun s x =>
            (s.requestOf (c.gkey, 64 + c.id, none) ([], 0) dev (va + x.1 - pa) (PeerReq.read x.1 x.2)).2) s, .error (.wait .running))
        else let (s, e) := s.cmdPeer core c va dev .engRead; (s, .error e)
      | (.to (.here pa tagged), s) =>
        if s.ownedBefore c 0 0 pa m then (s, .error (.wait .running))
        else
          match if tagged then s.firstCell pa m else none with
          | some x => efail s stCELL (va + x - pa)
          | none =>
            match s.badLine pa m with
            | some line => efail (s.memoryError core line 5 (s.cmdEvent core c)) stMEMERR (va + max pa line - pa)
            | none => (s.engRead core c (va + m) (n - m) fuel).next fun xs s => (s.metHost pa m, .ok (s.bytes pa m ++ xs))

/-- The request that carries an engine's write: copy data for a copy, a write for a drain (R360). -/
def Cmd.peerWrite (c : Cmd) (pa : Nat) (bs : List Byte) : PeerReq :=
  { PeerReq.write pa bs with major := if c.major = 0x20 || c.major = 0x21 then 0x22 else 0x21 }

/-- Bytes written at a virtual address by an engine; whole says of a cell's address that the command writes all of it
(R231). -/
def State.engWrite (s : State) (core : Nat) (c : Cmd) (whole : Nat → Bool) (va : Nat) (bs : List Byte) : Nat → ERes Unit
  | 0 => (s, .ok ())
  | fuel + 1 =>
    if bs.isEmpty then (s, .ok ())
    else
      let m := min bs.length (65536 - va % 65536)
      match s.engTranslate core c va .engWrite with
      | (.fault f, s) => let (s, e) := s.cmdFault core c va f .engWrite; (s, .error e)
      | (.to (.peer dev pa), s) =>
        if s.ownedBefore c 0 0 (peerKey dev pa) m then (s, .error (.wait .running))
        else if s.routeOk dev then
          ((byLine pa (bs.take m)).foldl (fun s x =>
            (s.requestOf (c.gkey, 64 + c.id, none) ([], 0) dev (va + x.1 - pa) (c.peerWrite x.1 x.2)).2) s).engWrite core c whole
              (va + m) (bs.drop m) fuel
        else let (s, e) := s.cmdPeer core c va dev .engWrite; (s, .error e)
      | (.to (.here pa tagged), s) =>
        if s.ownedBefore c 0 0 pa m then (s, .error (.wait .running))
        else
          let bad := if tagged then
              ((List.range (m / 32 + 2)).map fun i => cellOf pa + 32 * i).find? fun x =>
                x < pa + m && s.tag x != tagValue && (s.tag x == tagEvaluating || !whole (va + x - pa))
            else none
          match bad with
          | some x => efail s stCELL (va + x - pa)
          | none =>
            let s := if tagged then s.armCells pa m else s
            (s.engineStore core pa (bs.take m)).engWrite core c whole (va + m) (bs.drop m) fuel

/-! ### Local spaces (R187, R189) -/

/-- Allotment of a space, by the codes of Own. -/
def Team.allotBytes (t : Team) (sp : Nat) : Nat :=
  match sp with
  | 1 => t.sBytes | 2 => t.deckBytes | 3 => t.xBytes | _ => t.wBytes

def Team.bank (t : Team) (sp : Nat) : Tab Byte :=
  match sp with
  | 1 => t.scratch | 2 => t.deck | 3 => t.xbuf | _ => t.wbuf

def Team.setBank (t : Team) (sp : Nat) (m : Tab Byte) : Team :=
  match sp with
  | 1 => { t with scratch := m } | 2 => { t with deck := m } | 3 => { t with xbuf := m } | _ => { t with wbuf := m }

/-- The team and the byte a local address of an engine names; none for a deck column or bits out of range. -/
def State.localSpot (s : State) (tid sp a : Nat) : Option (Nat × Nat) :=
  if sp = 2 then
    match tget s.teams tid with
    | none => none
    | some t => if bits a 30 27 != 0 then none else (t.cluster[bits a 26 23]?).map fun x => (x, bits a 22 0)
  else some (tid, a)

/-- The range of n bytes from a local address lies in its allotment. -/
def State.localOk (s : State) (tid sp a n : Nat) : Bool :=
  match s.localSpot tid sp a with
  | none => false
  | some (x, o) =>
    match tget s.teams x with
    | none => false
    | some t => o + n ≤ t.allotBytes sp

/-- n bytes from a local address; those of a team that has exited are lost (R190). -/
def State.localGet (s : State) (tid sp a n : Nat) : List Byte :=
  match s.localSpot tid sp a with
  | none => mread [] a n
  | some (x, o) =>
    match tget s.teams x with
    | none => (List.range n).map fun i => Config.lostByte s.fresh x (o + i)
    | some t => mread (t.bank sp) o n

def State.localPut (s : State) (tid sp a : Nat) (bs : List Byte) : State :=
  match s.localSpot tid sp a with
  | none => s
  | some (x, o) => s.modTeam x fun t => (t.setBank sp (mwrite (t.bank sp) o bs)).rewrite sp o bs.length

/-- Data of a local range that a command reads has an uncorrectable error. -/
def State.localBad (s : State) (tid sp a n : Nat) : Bool :=
  match s.localSpot tid sp a with
  | none => false
  | some (x, o) => s.badLocal x sp o n

/-- The command ends at bad data of a bank or of the deck: counted, reported with the local address, MEMERR (R255, R336; log
entry 22). -/
def State.localError {α : Type} (s : State) (core : Nat) (c : Cmd) (a : Nat) : ERes α :=
  let s := s.modDie (dieOf core) fun d => { d with ecc := d.ecc + 0x100000000#64 }
  efail ((s.raiseEvent (dieOf core) (s.cmdEvent core c { Event.plain 8 with cause := 5, addr := w64 a })).raiseStatus 2)
    stMEMERR a

/-- The first range of a space that has bad data. -/
def State.firstBad (s : State) (tid sp : Nat) (rs : List (Nat × Nat)) : Option Nat :=
  (rs.find? fun x => s.localBad tid sp x.1 x.2).map Prod.fst

/-- The bytes of a local range as owned or read by a command. -/
def State.localOwn (s : State) (tid sp a n : Nat) : List Own :=
  match s.localSpot tid sp a with
  | none => []
  | some (x, o) => [⟨sp, x, o, n⟩]

/-! ### Rings (R262, R295) -/

def Core.ring (k : Core) (i : Nat) : Ring := k.rings[i]?.getD Ring.reset

def Core.modRing (k : Core) (i : Nat) (f : Ring → Ring) : Core := { k with rings := k.rings.setIfInBounds i (f (k.ring i)) }

/-- The space of a ring's role. -/
def Ring.space (r : Ring) : Nat := match r.role with | 0 => 4 | 1 => 3 | _ => 1

/-- Address of a slot counted since the ring was enabled. -/
def Ring.slotBase (r : Ring) (n : Nat) : Nat := r.offset + n % r.slots * r.bytes

def Ring.full (r : Ring) : Bool := r.f == r.r + r.slots

def Ring.ofTeam (r : Ring) (tid : Nat) : Bool := r.enabled && r.tid == tid

/-- Lanes of the team that wait for a fill of a ring replay (R297). -/
def State.wakeRing (s : State) (tid i : Nat) : State :=
  (s.groups.filter fun x => x.2.tid == tid).foldl (fun s x => s.wake x.1 fun w => w == .ringAcq i) s

/-! ### Peeking at operands (R217) -/

/-- n bytes in an address space, read without an effect, as far as the page is mapped here. -/
def State.peek (s : State) (die asid va n : Nat) : Option (List Byte) := (s.peekPlace die asid va).map fun pa => s.bytes pa n

/-- n bytes of global memory within a page, as owned or read: physical where the page is mapped, virtual where it is not mapped
yet. -/
def State.peekOwn (s : State) (die asid va n : Nat) : List Own :=
  match s.peekSpot die asid va with
  | none => [⟨5, asid, va, n⟩]
  | some x => [⟨0, 0, x.key, n⟩]

/-- Owned or read bytes of a range of pages. -/
def State.peekOwns (s : State) (die asid va n : Nat) : Nat → List Own
  | 0 => []
  | fuel + 1 =>
    if n = 0 then []
    else
      let m := min n (65536 - va % 65536)
      s.peekOwn die asid va m ++ s.peekOwns die asid (va + m) (n - m) fuel

/-- The command's own record cannot be read yet, and what it writes is not known: local bytes, or global ones too. -/
def State.unknownOwns (s : State) (c : Cmd) (global : Bool) : List Own :=
  ⟨6, c.tid, 0, 0⟩ :: if global then [⟨8, s.teamAsid c.tid, 0, 1⟩] else []

def Cmd.isUnknown (c : Cmd) : Bool := c.owns.any (·.space == 6)

/-- Bytes as the page tables of a core's die place them now; virtual ones while their page is not mapped. -/
def State.resolve (s : State) (core : Nat) (o : Own) : Option Own :=
  match o.space with
  | 5 => some (((s.peekSpot (dieOf core) o.tid o.lo).map fun x => ⟨0, 0, x.key, o.len⟩).getD o)
  | 6 => none
  | 7 => none
  | 8 => none
  | _ => some o

/-- Bytes that a command writes meet bytes that another one of its core uses. -/
def State.clashes (s : State) (core : Nat) (xs ys : List Own) : Bool :=
  (ys.filterMap (s.resolve core)).any fun y => xs.any fun x => s.ownMeets core x y.space y.tid y.lo y.len

/-- A command uses bytes that an earlier one has still to write, or follows one of its team whose record could not be read
(R217, R253). -/
def State.heldBack (s : State) (core : Nat) (c : Cmd) (xs : List Own) : Bool :=
  (!xs.isEmpty && (s.core core).cmds.any fun x => x.id < c.id && x.tid == c.tid && x.isUnknown) ||
    (xs.any (fun x => x.space == 0 || x.space == 5) && s.ownedBefore c 8 (s.teamAsid c.tid) 0 1) ||
    (xs.filterMap (s.resolve core)).any fun y => s.ownedBefore c y.space y.tid y.lo y.len

/-! ### The end of a command (R254-R256, R291) -/

/-- The command has finished with a status: its bytes are no longer owned. -/
def Cmd.finish (c : Cmd) (status : Nat) (detail : DWord) : Cmd :=
  { c with state := .done, owns := [], got := [],
           status := if c.status = 0 then status else c.status
           detail := if c.status = 0 then detail else c.detail }

/-- What a run of engine work leaves of its command. -/
def State.settleCmd (s : State) (core id : Nat) : Except EStop Unit → State
  | .ok _ => s.modCmd core id fun c => c.finish 0 0
  | .error (.fail status detail) => s.modCmd core id fun c => c.finish status detail
  | .error (.wait x) => s.modCmd core id fun c => { c with state := x }

/-- The failure detail joins the `efaddr` of the group that issued the command while that holds none, once, and only if the
group has not ended (R256). -/
def State.recordFailure (s : State) (core : Nat) (c : Cmd) : State :=
  if c.status = 0 || c.noted then s
  else
    let s := s.modCmd core c.id fun x => { x with noted := true }
    if c.orphan then s
    else s.modGroup c.gkey fun g =>
      if bits g.efaddr.toNat 63 56 = 0 then { g with efaddr := w64 (2 ^ 56 * c.status + bits c.detail.toNat 53 0) } else g

/-- The command leaves its path. -/
def Core.removeCmd (k : Core) (c : Cmd) : Core :=
  { k with vq := k.vq.filter (·.id != c.id), dt := k.dt.filter (·.id != c.id) }

/-- Input i of a task word: enabled, count, ring (R302). -/
def taskInput (w : DWord) (i : Nat) : Option (Nat × Nat) :=
  let x := bits w.toNat (16 * i + 15) (16 * i)
  if bits x 11 11 = 1 then some (bits x 3 0, bits x 10 4) else none

def taskInputs (w : DWord) : List (Nat × Nat) := (List.range 4).filterMap (taskInput w)

/-- Slots of a ring that a task takes: its declared count, or one. -/
def Cmd.slotCount (c : Cmd) (ring : Nat) : Nat :=
  match (taskInputs c.inputs).filter fun x => x.1 == ring with
  | [] => 1
  | xs => xs.foldl (fun n x => n + x.2) 0

/-- An issued task claims the slots of its inputs (R263). -/
def Core.claim (k : Core) (c : Cmd) : Core × List (Nat × Nat) :=
  let rs := ((taskInputs c.inputs).map Prod.fst).eraseDups
  (rs.foldl (fun k i => k.modRing i fun r => { r with claimed := r.claimed + c.slotCount i }) k,
    rs.map fun i => (i, c.slotCount i))

/-- Slots that a task had claimed of rings and not taken are taken and freed. -/
def Core.freeClaims (k : Core) (c : Cmd) : Core :=
  c.claims.foldl (fun k x =>
    k.modRing x.1 fun r => { r with a := r.a + x.2, r := r.r + x.2, claimed := r.claimed - x.2 }) k

/-- Entries of the dependency table before a command's: those issued before it, in the order of their issue, and for one not yet
issued also the older ones. -/
def Core.before (k : Core) (id : Nat) : List Cmd := k.dt.takeWhile (·.id != id)

/-- The first slot of a ring that a task takes: the next beyond those claimed by tasks issued before it and not yet taken (R262,
R263, R303). -/
def Core.firstSlot (k : Core) (c : Cmd) (i : Nat) : Nat :=
  (k.ring i).a + (((k.before c.id).flatMap (·.claims)).filter fun x => x.1 == i).foldl (fun n x => n + x.2) 0

end Sys2Proof.Machine
end

