-- ==== Sys2Proof/Machine/Copy.lean ====
section
/-! DEFINITION. Tensor shape records (R257-R259) and the copy engine (R260-R262, R267, R292-R294). -/

namespace Sys2Proof.Machine

/-! ### Shape records (R257) -/

structure Shape where
  swizzle : Nat
  spoff   : Nat
  scoff   : Nat
  box     : List Nat
  stride  : List Nat
  size    : List Nat
  fmt     : Nat
  rank    : Nat
  pad     : Nat
  base    : Nat
deriving DecidableEq, Repr

def Shape.parse (n : Nat) : Shape where
  swizzle := bits n 510 508
  spoff := bits n 507 476
  scoff := bits n 475 444
  box := (List.range 5).map fun i => bits n (411 + 8 * i) (404 + 8 * i) + 1
  stride := (List.range 5).map fun i => bits n (259 + 36 * i) (224 + 36 * i)
  size := (List.range 5).map fun i => bits n (95 + 32 * i) (64 + 32 * i)
  fmt := bits n 63 60
  rank := bits n 59 57
  pad := bits n 56 55
  base := bits n 53 0

/-- Bytes of an element; 0 for f4b. -/
def shapeElem : Nat → Nat
  | 0 => 4 | 1 => 2 | 2 => 2 | 3 => 1 | 4 => 1 | 5 => 0 | 6 => 1 | 7 => 2 | _ => 4

def Shape.f4 (r : Shape) : Bool := r.fmt == 5

def Shape.boxAt (r : Shape) (i : Nat) : Nat := r.box[i]?.getD 1
def Shape.strideAt (r : Shape) (i : Nat) : Nat := r.stride[i]?.getD 0
def Shape.sizeAt (r : Shape) (i : Nat) : Nat := r.size[i]?.getD 0

/-- The status of a record that breaks R257; the offsets of F4B alone have no effect in other formats (log entry 28). -/
def Shape.bad (n : Nat) (r : Shape) : Option Nat :=
  let dims := (List.range 5).all fun i =>
    if i < r.rank then r.sizeAt i != 0 else r.sizeAt i == 0 && r.strideAt i == 0 && r.boxAt i == 1
  let f4 := r.sizeAt 0 % 16 == 0 && r.boxAt 0 % 16 == 0 && (List.range 5).all fun i => r.strideAt i % 8 == 0
  if bits n 511 511 != 0 || bits n 54 54 != 0 || r.rank == 0 || r.rank > 5 || r.fmt > 8 || r.pad == 3 || r.swizzle > 3 ||
      !dims || r.strideAt 0 != shapeElem r.fmt || (r.pad == 1 && r.fmt ≥ 6) || (r.f4 && !f4) then some stFORMAT
  else if r.f4 && r.base % 8 != 0 then some stALIGN
  else none

/-! ### The box (R258, R259) -/

/-- Units of a box: elements, or f4b blocks of 16. -/
def Shape.unitBox (r : Shape) (i : Nat) : Nat := if r.f4 && i = 0 then r.boxAt 0 / 16 else r.boxAt i

def Shape.units (r : Shape) : Nat := (List.range 5).foldl (fun n i => n * r.unitBox i) 1

/-- Element bytes of the dense box. -/
def Shape.elemBytes (r : Shape) : Nat := r.units * if r.f4 then 8 else shapeElem r.fmt

/-- All bytes of the dense box. -/
def Shape.bytes (r : Shape) : Nat := r.elemBytes + if r.f4 then 2 * r.units else 0

/-- Box elements a unit counts for. -/
def Shape.step (r : Shape) : Nat := if r.f4 then 16 else 1

def swz (s o : Nat) : Nat := o ^^^ (((o / 128) % 2 ^ s) * 16)

/-- One more than the highest byte that n dense bytes reach under a swizzle. -/
def swzExtent (s n : Nat) : Nat :=
  if n % 128 = 0 then n
  else (List.range (n % 128)).foldl (fun m i => max m (swz s (n / 128 * 128 + i) + 1)) 0

def Shape.extent (r : Shape) : Nat := if r.swizzle = 0 then r.bytes else swzExtent r.swizzle r.bytes

/-- The box index of unit k in dimension i. -/
def Shape.digit (r : Shape) (k : Nat) (i : Nat) : Nat :=
  k / (List.range i).foldl (fun n j => n * r.unitBox j) 1 % r.unitBox i

/-- The tensor coordinate of unit k in dimension i. -/
def Shape.coord (r : Shape) (origin : List Int) (k i : Nat) : Int :=
  (origin[i]?.getD 0) + (r.digit k i * (if i = 0 then r.step else 1) : Nat)

/-- The byte offset of unit k in the element array, none out of bounds. -/
def Shape.place (r : Shape) (c : List Int) (k : Nat) : Option Nat :=
  if (List.range r.rank).all fun i => 0 ≤ r.coord c k i && r.coord c k i < r.sizeAt i then
    some ((List.range r.rank).foldl (fun o i =>
      o + if i = 0 && r.f4 then (r.coord c k 0).toNat / 2 else (r.coord c k i).toNat * r.strideAt i) 0)
  else none

/-- Global address, dense offset and length of the parts of unit k at a byte offset of the element array. -/
def Shape.pieces (r : Shape) (k o : Nat) : List (Nat × Nat × Nat) :=
  if r.f4 then
    [(r.base + o, 8 * k, 8), (r.base + 256 * r.scoff + o / 8, r.elemBytes + k, 1),
      (r.base + 256 * r.spoff + o / 8, r.elemBytes + r.units + k, 1)]
  else [(r.base + o, k * shapeElem r.fmt, shapeElem r.fmt)]

/-- The canonical NaN of a record's format (R18). -/
def shapeNan : Nat → Nat
  | 0 => fp32.nan | 1 => fp16.nan | 2 => bf16.nan | 3 => e4m3.nan | _ => e5m2.nan

/-- Dense offset and bytes that padding writes for unit k. -/
def Shape.padding (r : Shape) (k : Nat) : List (Nat × List Byte) :=
  if r.pad = 2 then []
  else if r.f4 then
    [(8 * k, leBytes 8 0), (r.elemBytes + k, leBytes 1 (if r.pad = 0 then 0x7F else 0xFF)),
      (r.elemBytes + r.units + k, leBytes 1 0x80)]
  else [(k * shapeElem r.fmt, leBytes (shapeElem r.fmt) (if r.pad = 0 then 0 else shapeNan r.fmt))]

/-- The parts of the box that lie in the tensor. -/
def Shape.inside (r : Shape) (c : List Int) : List (Nat × Nat × Nat) :=
  (List.range r.units).flatMap fun k => match r.place c k with | some o => r.pieces k o | none => []

/-- The box covers every byte of the 32 from an address (R231). -/
def Shape.covers (r : Shape) (c : List Int) (x : Nat) : Bool :=
  let ps := (r.inside c).filter fun p => overlap p.1 p.2.2 x 32
  (List.range 32).all fun i => ps.any fun p => p.1 ≤ x + i && x + i < p.1 + p.2.2

/-! ### Operands of a copy (R292) -/

/-- Origin coordinates of the four operand words. -/
def copyOrigin (ops : List DWord) : List Int :=
  let w := fun (i : Nat) => (ops[i]?.getD 0).toNat
  let c := fun (x : Nat) => (BitVec.ofNat 32 x).toInt
  [c (bits (w 0) 31 0), c (bits (w 0) 63 32), c (bits (w 1) 31 0), c (bits (w 1) 63 32), c (bits (w 2) 31 0)]

def copyLocal (ops : List DWord) : Nat := bits (ops[2]?.getD 0).toNat 63 32
def copyMask (ops : List DWord) : Nat := bits (ops[3]?.getD 0).toNat 23 12
def copyId (ops : List DWord) : Nat := bits (ops[3]?.getD 0).toNat 11 8
def copyOut (ops : List DWord) : Bool := bits (ops[3]?.getD 0).toNat 4 4 == 1
def copyKind (ops : List DWord) : Nat := bits (ops[3]?.getD 0).toNat 3 0

/-- The space of a kind 0 to 3. -/
def copySpace : Nat → Nat
  | 0 => 1 | 1 => 3 | 2 => 4 | _ => 2

/-- The shape record of a command that has read it: its words stand after the four operands. -/
def Cmd.record (c : Cmd) : Nat := leNat ((c.ops.drop 4).flatMap fun w => leBytes 8 w.toNat)

def Cmd.shape (c : Cmd) : Shape := Shape.parse c.record

/-- The teams a copy writes to: its own, or those of the columns of its mask; none for a column past the cluster. -/
def State.copyTeams (s : State) (c : Cmd) : Option (List Nat) :=
  if c.major = 0x20 then some [c.tid]
  else
    match tget s.teams c.tid with
    | none => none
    | some t =>
      let cols := (List.range 12).filter fun i => bits (copyMask c.ops) i i == 1
      if cols.any (· ≥ t.cluster.length) then none else some (cols.filterMap fun i => t.cluster[i]?)

/-! ### Moving a unit -/

/-- The bytes of parts of the tensor, with their dense offsets. -/
def State.readPieces (s : State) (core : Nat) (c : Cmd) : List (Nat × Nat × Nat) → ERes (List (Nat × List Byte))
  | [] => (s, .ok [])
  | (va, o, n) :: ps =>
    (s.engRead core c va n n).next fun bs s => (s.readPieces core c ps).next fun xs s => (s, .ok ((o, bs) :: xs))

def State.writePieces (s : State) (core : Nat) (c : Cmd) (whole : Nat → Bool) : List (Nat × List Byte) → ERes Unit
  | [] => (s, .ok ())
  | (va, bs) :: ps => (s.engWrite core c whole va bs bs.length).next fun _ s => s.writePieces core c whole ps

/-- What unit k of the box holds: parts of the tensor, or padding. -/
def State.unitBytes (s : State) (core : Nat) (c : Cmd) (r : Shape) (k : Nat) : ERes (List (Nat × List Byte)) :=
  match r.place (copyOrigin c.ops) k with
  | none => (s, .ok (r.padding k))
  | some o => s.readPieces core c (r.pieces k o)

/-- A destination in local space: team, space, local address. -/
abbrev Dest := Nat × Nat × Nat

def State.putUnit (s : State) (r : Shape) (ds : List Dest) (xs : List (Nat × List Byte)) : State :=
  ds.foldl (fun s d => xs.foldl (fun s x => s.localPut d.1 d.2.1 (d.2.2 + swz r.swizzle x.1) x.2) s) s

/-- Units from k on are moved into local space; a stop leaves the element reached in the command. -/
def State.copyIn (s : State) (core : Nat) (c : Cmd) (r : Shape) (ds : List Dest) (k : Nat) : Nat → ERes Unit
  | 0 => (s, .ok ())
  | n + 1 =>
    match s.unitBytes core c r k with
    | (s, .error e) => (s.modCmd core c.id fun x => { x with elem := k * r.step }, .error e)
    | (s, .ok xs) => (s.putUnit r ds xs).copyIn core c r ds (k + 1) n

/-- Units from k on are moved from a local place to the tensor (R258). -/
def State.copyOutFrom (s : State) (core : Nat) (c : Cmd) (r : Shape) (sp a k : Nat) : Nat → ERes Unit
  | 0 => (s, .ok ())
  | n + 1 =>
    let ps := match r.place (copyOrigin c.ops) k with | some o => r.pieces k o | none => []
    let from_ := fun (p : Nat × Nat × Nat) => (a + swz r.swizzle p.2.1, p.2.2)
    let bs := ps.map fun p => (p.1, s.localGet c.tid sp (from_ p).1 p.2.2)
    match (match s.firstBad c.tid sp (ps.map from_) with
      | some x => s.localError core c x
      | none => s.writePieces core c (r.covers (copyOrigin c.ops)) bs) with
    | (s, .error e) => (s.modCmd core c.id fun x => { x with elem := k * r.step }, .error e)
    | (s, .ok _) => s.copyOutFrom core c r sp a (k + 1) n

/-! ### What a copy writes and reads (R217, R253) -/

/-- A command's shape record: as it has read it, or as it stands in memory now. -/
def State.peekRecord (s : State) (core : Nat) (c : Cmd) : Option Nat :=
  if c.ops.length > 4 then some c.record else (s.peek (dieOf core) (s.teamAsid c.tid) c.addr.toNat 64).map leNat

/-- The tensor's side of a copy. -/
def State.copyGlobal (s : State) (core : Nat) (c : Cmd) (r : Shape) : List Own :=
  (r.inside (copyOrigin c.ops)).flatMap fun p => s.peekOwns (dieOf core) (s.teamAsid c.tid) p.1 p.2.2 2

/-- The local side of a copy with a fixed place. -/
def State.copyLocals (s : State) (c : Cmd) (r : Shape) : List Own :=
  if copyKind c.ops ≥ 4 then []
  else ((s.copyTeams c).getD []).flatMap fun t => s.localOwn t (copySpace (copyKind c.ops)) (copyLocal c.ops) r.extent

/-- The shape record of a command that has not read it. -/
def State.copyRecordOwn (s : State) (core : Nat) (c : Cmd) : List Own :=
  if c.ops.length > 4 then [] else s.peekOwn (dieOf core) (s.teamAsid c.tid) c.addr.toNat 64

/-- What a copy owns; where its record cannot be read and its destination depends on it, it is not known. -/
def State.copyWrites (s : State) (core : Nat) (c : Cmd) : List Own :=
  match s.peekRecord core c with
  | none => if copyKind c.ops ≥ 4 then [] else s.unknownOwns c (copyOut c.ops)
  | some n =>
    let r := Shape.parse n
    if (r.bad n).isSome then [] else if copyOut c.ops then s.copyGlobal core c r else s.copyLocals c r

def State.copyReads (s : State) (core : Nat) (c : Cmd) : List Own :=
  s.copyRecordOwn core c ++
    match s.peekRecord core c with
    | none => []
    | some n =>
      let r := Shape.parse n
      if (r.bad n).isSome then [] else if copyOut c.ops then s.copyLocals c r else s.copyGlobal core c r

/-! ### The command (R293, R294) -/

/-- The command with its shape record read, what it owns settled by it, and the record's check. -/
def State.copyRecord (s : State) (core : Nat) (c : Cmd) : ERes Cmd :=
  let check := fun (c : Cmd) (s : State) =>
    match c.shape.bad c.record with
    | some st => efail s st c.addr.toNat
    | none =>
      if c.shape.f4 && (copyOrigin c.ops).head?.any (· % 16 != 0) then efail s stFORMAT c.addr.toNat else (s, .ok c)
  if c.ops.length > 4 then check c s
  else
    (s.engRead core c c.addr.toNat 64 64).next fun bs s =>
      let ws := (List.range 8).map fun i => w64 (leNat ((bs.drop (8 * i)).take 8))
      let c := { c with ops := c.ops ++ ws }
      let c := { c with owns := s.copyWrites core c }
      check c (s.modCmd core c.id fun x => { x with ops := c.ops, owns := c.owns })

/-- A copy up to the choice of a ring slot or a queue entry, where it waits; a copy of a fixed place runs to its end. -/
def State.copyStart (s : State) (core : Nat) (c : Cmd) : ERes Unit :=
  (s.copyRecord core c).next fun c s =>
    let r := c.shape
    let la := copyLocal c.ops
    let kind := copyKind c.ops
    match s.copyTeams c with
    | none => efail s stRANGE la
    | some ts =>
      if kind = 4 then
        let ok := ts.all fun t =>
          let g := (s.core (((tget s.teams t).map (·.core)).getD 0)).ring (copyId c.ops)
          g.ofTeam t && r.extent ≤ g.bytes
        if ok then (s, .error (.wait .running)) else efail s stRANGE la
      else if kind = 5 then
        if r.bytes % 1024 != 0 then efail s stFORMAT la else (s, .error (.wait .running))
      else
        let sp := copySpace kind
        if !ts.all fun t => s.localOk t sp la r.extent then efail s stRANGE la
        else if s.heldBack core c (s.copyReads core c ++ s.copyWrites core c) then (s, .error (.wait .running))
        else if copyOut c.ops then s.copyOutFrom core c r sp la (c.elem / r.step) (r.units - c.elem / r.step)
        else s.copyIn core c r (ts.map fun t => (t, sp, la)) (c.elem / r.step) (r.units - c.elem / r.step)

/-! ### Filling a ring slot (R261, R262) -/

/-- A destination of a copy into a ring: team, core, ring, the slot counted since the ring was enabled. -/
structure RingDest where
  tid  : Nat
  core : Nat
  ring : Ring
  slot : Nat

/-- The destinations of a copy into a ring, at the slots it has chosen, or at the next ones. -/
def State.ringDests (s : State) (c : Cmd) : List RingDest :=
  let ts := (s.copyTeams c).getD []
  ((List.range ts.length).zip ts).map fun (i, t) =>
    let k := ((tget s.teams t).map (·.core)).getD 0
    let r := (s.core k).ring (copyId c.ops)
    ⟨t, k, r, c.slots[i]?.getD r.f⟩

def RingDest.place (d : RingDest) : Dest := (d.tid, d.ring.space, d.ring.slotBase d.slot)

/-- The bytes of the slots. -/
def State.slotOwns (s : State) (ds : List RingDest) : List Own :=
  ds.flatMap fun d => s.localOwn d.tid d.ring.space d.place.2.2 d.ring.bytes

/-- A copy that has started and fills a ring of a core. -/
def Cmd.fills (c : Cmd) : Bool := (c.major == 0x20 || c.major == 0x21) && copyKind c.ops == 4

/-- Two copies fill one ring. -/
def State.shareRing (s : State) (x c : Cmd) : Bool :=
  x.fills && copyId x.ops == copyId c.ops && ((s.copyTeams x).getD []).any ((s.copyTeams c).getD []).contains

/-- The copy is the next of its rings: none that has chosen a slot of one stands before it, nor an earlier one of its core
(log entry 29). -/
def State.ringTurn (s : State) (core : Nat) (c : Cmd) : Bool :=
  !s.cores.any fun k => k.2.cmds.any fun x =>
    x.id != c.id && x.state != .done && (!x.slots.isEmpty || (k.1 == core && x.id < c.id)) && c.slots.isEmpty && s.shareRing x c

/-- The copy may fill: it has started, it is its turn, every named ring has a free slot or one chosen, and no earlier command
has still to write bytes of the slots (R253, R261, R262). -/
def State.ringFillDue (s : State) (core : Nat) (c : Cmd) : Bool :=
  c.fills && c.state == .running && c.ops.length > 4 && !s.cmdAsks c.id && s.ringTurn core c &&
    ((s.ringDests c).drop c.slots.length).all (fun d => !d.ring.full) && !s.heldBack core c (s.slotOwns (s.ringDests c))

/-- RING_FILL: the copy writes its slot of each named ring; their counters advance after the write. -/
def State.ringFill (s : State) (core : Nat) (c : Cmd) : State :=
  let ds := s.ringDests c
  let s := s.modCmd core c.id fun x => { x with slots := ds.map (·.slot), owns := s.slotOwns ds }
  let r := c.shape
  match s.copyIn core c r (ds.map RingDest.place) (c.elem / r.step) (r.units - c.elem / r.step) with
  | (s, .error e) => s.settleCmd core c.id (.error e)
  | (s, .ok u) =>
    let s := ds.foldl (fun s d =>
      (s.modCore d.core fun k => k.modRing (copyId c.ops) fun r => { r with f := r.f + 1 }).wakeRing d.tid (copyId c.ops)) s
    s.settleCmd core c.id (.ok u)

def execRingFill (core id : Nat) (s : State) : Out :=
  match (s.core core).cmd id with
  | none => .next s
  | some c => .next (if s.ringFillDue core c then s.ringFill core c else s)

/-! ### Filling a sparsity queue (R267, R293) -/

/-- An entry's bytes with some of them replaced. -/
def patch (bs : List Byte) (o : Nat) (xs : List Byte) : List Byte := bs.take o ++ xs ++ bs.drop (o + xs.length)

/-- The parts of units ks that lie in an entry, put into its bytes. -/
def State.entryBytes (s : State) (core : Nat) (c : Cmd) (r : Shape) (n : Nat) (bs : List Byte) : List Nat → ERes (List Byte)
  | [] => (s, .ok bs)
  | k :: ks =>
    (s.unitBytes core c r k).next fun xs s =>
      s.entryBytes core c r n (xs.foldl (fun bs x =>
        let o := swz r.swizzle x.1
        if o / 1024 = n then patch bs (o % 1024) x.2 else bs) bs) ks

/-- The units with a part in an entry. -/
def Shape.entryUnits (r : Shape) (n : Nat) : List Nat :=
  (List.range r.units).filter fun k => (r.pieces k 0).any fun p => p.2.1 / 1024 == n

/-- The copy fills a queue with room. -/
def State.queueFillDue (s : State) (core : Nat) (c : Cmd) : Bool :=
  (c.major == 0x20) && copyKind c.ops == 5 && c.state == .running && c.ops.length > 4 && !s.cmdAsks c.id &&
    !((s.core core).cmds.any fun x => x.id < c.id && x.major == 0x20 && copyKind x.ops == 5 &&
      copyId x.ops == copyId c.ops && x.state != .done) &&
    (((s.core core).sq[copyId c.ops]?.map List.length).getD 256) < 256

/-- SPARSITY_QUEUE_FILL: one entry of 1 KiB joins the queue; the copy ends with its last. -/
def State.queueFill (s : State) (core : Nat) (c : Cmd) : State :=
  let r := c.shape
  let (i, s) := s.draw
  match s.entryBytes core c r c.elem ((List.range 1024).map fun j => Config.freeByte (1024 * i + j)) (r.entryUnits c.elem) with
  | (s, .error e) => s.settleCmd core c.id (.error e)
  | (s, .ok bs) =>
    let s := s.modCore core fun k =>
      { k with sq := k.sq.setIfInBounds (copyId c.ops) ((k.sq[copyId c.ops]?.getD []) ++ [bs]) }
    if 1024 * (c.elem + 1) < r.bytes then s.modCmd core c.id fun x => { x with elem := c.elem + 1 }
    else s.settleCmd core c.id (.ok ())

def execSparsityQueueFill (core id : Nat) (s : State) : Out :=
  match (s.core core).cmd id with
  | none => .next s
  | some c => .next (if s.queueFillDue core c then s.queueFill core c else s)

end Sys2Proof.Machine
end

