-- ==== Sys2Proof/Machine/Keyed.lean ====
section
/-! DEFINITION. The keyed unit (R271, R304) and batch translation (R272, R305). -/

namespace Sys2Proof.Machine

/-! ### Operands of KEY (R80, R304) -/

/-- The KEY operation, duplicate and 16-bit bits of f7, and the operand words. -/
def keyOp (c : Cmd) : Nat := bits c.f7 2 0
def keyDup (c : Cmd) : Bool := bits c.f7 3 3 == 1
def keyK16 (c : Cmd) : Bool := bits c.f7 4 4 == 1
def keyLo (c : Cmd) (i : Nat) : Nat := bits (c.ops[i]?.getD 0).toNat 31 0
def keyHi (c : Cmd) (i : Nat) : Nat := bits (c.ops[i]?.getD 0).toNat 63 32

/-- The b operand. -/
def keyB (c : Cmd) : Nat := (c.ops[3]?.getD 0).toNat

/-- An array: offset, bytes, alignment. -/
abbrev KeyArray := Nat × Nat × Nat

/-- Inputs and outputs at their full declared extent. -/
def keyArrays (c : Cmd) : List KeyArray × List KeyArray :=
  let n := keyLo c 1
  match keyOp c with
  | 0 => ([(keyLo c 0, 8 * n, 8)], [(keyHi c 0, 8 * n, 8)])
  | 1 =>
    ([(keyLo c 0, 8 * n, 8), (keyLo c 2, 8 * keyHi c 1, 8)], [(keyHi c 0, 8 * (n + keyHi c 1), 8), (keyHi c 2, 4, 4)])
  | 2 => ([(keyLo c 0, 4 * n, 4)], [(keyHi c 0, 8 * min (keyB c) n, 8)])
  | 3 => ([(keyLo c 0, 4 * n, 4)], [(keyHi c 0, 4 * (keyB c + 1), 4)])
  | _ => ([(keyLo c 0, 4 * (n + 1), 4)], [(keyHi c 0, 4 * (n + 1), 4)])

/-- A limit is exceeded, or a blank field is not zero. -/
def keyFormat (c : Cmd) : Bool :=
  let n := keyLo c 1
  let blank := keyHi c 1 != 0 || (c.ops[2]?.getD 0) != 0
  match keyOp c with
  | 0 => n > 65536 || blank || keyB c != 0
  | 1 => n > 65536 || keyHi c 1 > 65536 || (if keyDup c then keyB c / 2 else keyB c) != 0
  | 2 => n > 4096 || blank || keyB c = 0 || keyB c > 16
  | 3 => n > 65536 || blank || keyB c > 65536
  | _ => n > 65536 || blank

/-- An input and an output overlap, other than an in-place sort. -/
def keyOverlap (c : Cmd) : Bool :=
  let (ins, outs) := keyArrays c
  ins.any fun i => outs.any fun o =>
    i.2.1 != 0 && o.2.1 != 0 && overlap i.1 i.2.1 o.1 o.2.1 && !(keyOp c = 0 && i.1 = o.1)

/-- The checks made before anything is written, in order (R304): status and detail. -/
def keyCheck (c : Cmd) (sBytes : Nat) : Option (Nat × Nat) :=
  let all := (keyArrays c).1 ++ (keyArrays c).2
  if keyFormat c then some (stFORMAT, 0)
  else
    match all.find? fun x => x.1 % x.2.2 != 0 with
    | some x => some (stALIGN, x.1)
    | none =>
      match all.find? fun x => x.1 + x.2.1 > sBytes with
      | some x => some (stRANGE, x.1)
      | none => if keyOverlap c then some (stFORMAT, 0) else none

/-! ### Arrays of words -/

def wordsOf : Nat → List Byte → List Nat
  | 0, _ => []
  | n + 1, bs => leNat (bs.take 4) :: wordsOf n (bs.drop 4)

def pairsOf : Nat → List Byte → List (Nat × Nat)
  | 0, _ => []
  | n + 1, bs => (leNat (bs.take 4), leNat ((bs.drop 4).take 4)) :: pairsOf n (bs.drop 8)

def wordBytes (xs : List Nat) : List Byte := xs.flatMap (leBytes 4)

def pairBytes (xs : List (Nat × Nat)) : List Byte := xs.flatMap fun p => leBytes 4 p.1 ++ leBytes 4 p.2

/-! ### The operations (R271) -/

def keyOf (k16 : Bool) (w : Nat) : Nat := if k16 then w % 65536 else w

def insertPair (k16 : Bool) (p : Nat × Nat) : List (Nat × Nat) → List (Nat × Nat)
  | [] => [p]
  | q :: qs => if keyOf k16 p.1 ≤ keyOf k16 q.1 then p :: q :: qs else q :: insertPair k16 p qs

/-- Ascending by key, equal keys in their input order. -/
def sortPairs (k16 : Bool) : List (Nat × Nat) → List (Nat × Nat)
  | [] => []
  | p :: ps => insertPair k16 p (sortPairs k16 ps)

/-- Merge under way: output so far with the values of each key, last first; or the ORDER failure's detail. -/
structure Merged where
  out  : List (Nat × List Nat)
  fail : Option Nat
deriving DecidableEq, Repr

/-- One element of stream t at index i joins the output. -/
def Merged.take (m : Merged) (k16 dup : Bool) (t i : Nat) (p : Nat × Nat) : Merged :=
  match m.out with
  | [] => { m with out := [(p.1, [p.2])] }
  | (k, vs) :: rest =>
    if keyOf k16 k < keyOf k16 p.1 then { m with out := (p.1, [p.2]) :: m.out }
    else if dup && keyOf k16 k = keyOf k16 p.1 then { m with out := (k, vs ++ [p.2]) :: rest }
    else { m with fail := some (i + 2 ^ 32 * t) }

/-- The merge of two streams from indices on; the lower head goes first, that of stream 1 among equals. -/
def mergePairs (k16 dup : Bool) (m : Merged) (i j : Nat) (xs ys : List (Nat × Nat)) : Nat → Merged
  | 0 => m
  | n + 1 =>
    if m.fail.isSome then m
    else
      match xs, ys with
      | [], [] => m
      | x :: xs, [] => mergePairs k16 dup (m.take k16 dup 0 i x) (i + 1) j xs [] n
      | [], y :: ys => mergePairs k16 dup (m.take k16 dup 1 j y) i (j + 1) [] ys n
      | x :: xs, y :: ys =>
        if keyOf k16 y.1 < keyOf k16 x.1 then mergePairs k16 dup (m.take k16 dup 1 j y) i (j + 1) (x :: xs) ys n
        else mergePairs k16 dup (m.take k16 dup 0 i x) (i + 1) j xs (y :: ys) n

/-- The value of a merged key: one value as it stands, but for a NaN, several summed by the value type; with its flags (R33,
R273). -/
def mergedValue (fp : Bool) (vs : List Nat) : Nat × Nat :=
  match vs with
  | [v] => if fp && (fp32.value v).isNan then (fp32.nan, flagNanin) else (v, 0)
  | _ =>
    if !fp then (vs.foldl (· + ·) 0 % 2 ^ 32, 0)
    else
      let xs := vs.map fp32.value
      let x := FVal.sum xs
      let flags := if xs.any FVal.isNan then flagNanin else if x.isNan then flagInvalid
        else fp32.narrowFlags .rne 0 x &&& flagOver
      (fp32.rne x, flags)

/-- Scores with their indices, descending by totalOrder, equal scores by lower index. -/
def insertScore (p : Nat × Nat) : List (Nat × Nat) → List (Nat × Nat)
  | [] => [p]
  | q :: qs => if orderKey 32 q.1 ≤ orderKey 32 p.1 then p :: q :: qs else q :: insertScore p qs

def sortScores : List (Nat × Nat) → List (Nat × Nat)
  | [] => []
  | p :: ps => insertScore p (sortScores ps)

/-- The keys up to the end of the run, and the index of an ORDER failure. -/
def offsKeys (range : Nat) (seen : List Nat) (last : Option Nat) (i : Nat) : List Nat → List Nat × Option Nat
  | [] => (seen.reverse, none)
  | k :: ks =>
    if last.any (k < ·) then (seen.reverse, some i)
    else if k ≥ range then (seen.reverse, none)
    else offsKeys range (k :: seen) (some k) (i + 1) ks

/-- The least index whose key is at least v. -/
def leastAt (v : Nat) : List Nat → Nat
  | [] => 0
  | k :: ks => if v ≤ k then 0 else 1 + leastAt v ks

/-- Running maxima from 0 (R271). -/
def runningMax (m : Int) : List Int → List Int
  | [] => []
  | p :: ps => max m p :: runningMax (max m p) ps

/-- The first r whose next pointer is lower. -/
def firstNegative (r : Nat) : List Int → Option Nat
  | a :: b :: ps => if b < a then some r else firstNegative (r + 1) (b :: ps)
  | _ => none

def firstOver (t : Int) (r : Nat) : List Int → Option Nat
  | [] => none
  | p :: ps => if t < p then some r else firstOver t (r + 1) ps

/-- Result of an operation: bytes written to scratch, status, detail, flags. -/
structure KeyResult where
  writes : List (Nat × List Byte)
  status : Nat
  detail : Nat
  flags  : Nat
deriving DecidableEq, Repr

/-- The operation on the scratch bytes that `get` reads. -/
def keyRun (c : Cmd) (get : Nat → Nat → List Byte) : KeyResult :=
  let n := keyLo c 1
  match keyOp c with
  | 0 => ⟨[(keyHi c 0, pairBytes (sortPairs (keyK16 c) (pairsOf n (get (keyLo c 0) (8 * n)))))], 0, 0, 0⟩
  | 1 =>
    let n2 := keyHi c 1
    let m := mergePairs (keyK16 c) (keyDup c) ⟨[], none⟩ 0 0 (pairsOf n (get (keyLo c 0) (8 * n)))
      (pairsOf n2 (get (keyLo c 2) (8 * n2))) (n + n2)
    let out := m.out.reverse.map fun p => (p.1, mergedValue (keyB c % 2 == 1) p.2)
    ⟨[(keyHi c 0, pairBytes (out.map fun p => (p.1, p.2.1))), (keyHi c 2, leBytes 4 out.length)],
      if m.fail.isSome then stORDER else 0, m.fail.getD 0, out.foldl (fun f p => f ||| p.2.2) 0⟩
  | 2 =>
    let xs := wordsOf n (get (keyLo c 0) (4 * n))
    ⟨[(keyHi c 0, pairBytes ((sortScores (xs.zip (List.range n))).take (keyB c)))], 0, 0, 0⟩
  | 3 =>
    let (ks, fail) := offsKeys (keyB c) [] none 0 (wordsOf n (get (keyLo c 0) (4 * n)))
    let top := match fail with | none => keyB c | some _ => ks.getLast?.getD 0
    ⟨[(keyHi c 0, wordBytes ((List.range (top + 1)).map fun v => leastAt v ks))], if fail.isSome then stORDER else 0,
      fail.getD 0, 0⟩
  | _ =>
    let t := (BitVec.ofNat 32 (keyB c)).toInt
    let p := (wordsOf (n + 1) (get (keyLo c 0) (4 * (n + 1)))).map fun w => (BitVec.ofNat 32 w).toInt
    let q := (runningMax 0 p).map fun x => ((BitVec.ofInt 32 (min x t)).toNat)
    let (st, d) := match firstNegative 0 p with
      | some r => (stRAGGEDNEG, r)
      | none => match firstOver t 0 p with | some r => (stRAGGEDOVER, r) | none => (0, 0)
    ⟨[(keyHi c 0, wordBytes q)], st, d, 0⟩

/-- A KEY command runs to its end. -/
def State.keyStart (s : State) (core : Nat) (c : Cmd) : ERes Unit :=
  let t := tget s.teams c.tid
  match keyCheck c ((t.map (·.sBytes)).getD 0) with
  | some (st, d) => efail s st d
  | none =>
    match s.firstBad c.tid 1 ((keyArrays c).1.map fun x => (x.1, x.2.1)) with
    | some a => s.localError core c a
    | none =>
      let r := keyRun c fun a n => s.localGet c.tid 1 a n
      let s := r.writes.foldl (fun s w => s.localPut c.tid 1 w.1 w.2) s
      let s := s.modCmd core c.id fun x => { x with flags := x.flags ||| r.flags }
      if r.status = 0 then (s, .ok ()) else efail s r.status r.detail

/-- What a KEY writes and reads. -/
def keyWrites (c : Cmd) : List Own := (keyArrays c).2.map fun x => ⟨1, c.tid, x.1, x.2.1⟩
def keyReads (c : Cmd) : List Own := (keyArrays c).1.map fun x => ⟨1, c.tid, x.1, x.2.1⟩

/-! ### XLATB (R272, R305) -/

/-- Pages of a list of addresses, each once, in order. -/
def pagesOf (gbase : Nat) (xs : List Nat) : List Nat := (xs.map fun x => (gbase + x) % 2 ^ 64 / 65536).eraseDups

/-- Both levels of the issuing core are filled for each page; the first page left out. -/
def State.fillPages (s : State) (core asid : Nat) (skip : Option Nat) : List Nat → Option Nat × State
  | [] => (skip, s)
  | page :: ps =>
    match if page < 2 ^ 38 then s.walk (dieOf core) asid (65536 * page) else .fault 1 with
    | .fault _ => s.fillPages core asid (skip.or (some page)) ps
    | .leaf addr level e =>
      ((s.mark addr e .engRead).tlbFill core (TlbEntry.ofLeaf asid (65536 * page) level e)).fillPages core asid skip ps

/-- An XLATB runs to its end, with `gbase` as it was at the issue (log entry 28). -/
def State.xlatbStart (s : State) (core : Nat) (c : Cmd) : ERes Unit :=
  let n := (c.ops[0]?.getD 0).toNat
  let a := c.addr.toNat
  if n = 0 then (s, .ok ())
  else if n > 1024 || a ≥ 2 ^ 32 then efail s stFORMAT a
  else if a % 8 != 0 then efail s stALIGN a
  else if !s.localOk c.tid 1 a (8 * n) then efail s stRANGE a
  else if s.localBad c.tid 1 a (8 * n) then s.localError core c a
  else
    let bs := s.localGet c.tid 1 a (8 * n)
    let xs := (List.range n).map fun i => leNat ((bs.drop (8 * i)).take 8)
    match s.fillPages core (s.teamAsid c.tid) none (pagesOf c.gbase.toNat xs) with
    | (none, s) => (s, .ok ())
    | (some page, s) => efail s stSKIPPED (65536 * page)

end Sys2Proof.Machine
end

