-- ==== Sys2Proof/Machine/Adapter.lean ====
section
/-! DEFINITION. Adapter tables, the adapter cache and its prefetch (R268, R270, R306), and a row's correction (R269). -/

namespace Sys2Proof.Machine

/-! ### Table entries (R268) -/

structure AdEntry where
  alpha : Nat
  wide  : Bool
  rank  : Nat
  b     : Nat
  a     : Nat
deriving DecidableEq, Repr

/-- Columns of B_id's rows. -/
def AdEntry.width (e : AdEntry) : Nat := if e.wide then 128 else 64

/-- An entry, unless its reserved bit is set. -/
def AdEntry.parse (n : Nat) : Option AdEntry :=
  if bits n 95 95 = 1 then none
  else some ⟨bits n 127 96, bits n 94 94 == 1, 8 * 2 ^ bits n 93 92, bits n 91 46 * 256, bits n 45 0 * 256⟩

/-! ### The cache (R270) -/

/-- Granules of 4 KiB a line takes. -/
def AdLine.granules (l : AdLine) : Nat := (l.data.length + 4095) / 4096

def granulesOf (ls : List AdLine) : Nat := ls.foldl (fun n l => n + l.granules) 0

/-- The least recently used lines of those that may go do so until n granules are free of 32; lines stand in order of their last
use. -/
def dropLines (may : AdLine → Bool) (n : Nat) : List AdLine → List AdLine
  | [] => []
  | l :: ls =>
    if granulesOf (l :: ls) + n ≤ 32 then l :: ls
    else if may l then dropLines may n ls
    else l :: dropLines may (n + l.granules) ls

/-- Room for n granules: from unpinned lines, and, for a row whose lines outnumber the free granules, from those of its own id
(R270). -/
def evictLines (row : Option Nat) (n : Nat) (ls : List AdLine) : List AdLine :=
  dropLines (fun l => row == some l.id) n (dropLines (fun l => !l.pin) n ls)

/-- A line joins the cache where there is room for it. -/
def cacheLine (row : Option Nat) (l : AdLine) (ls : List AdLine) : List AdLine :=
  let ls := evictLines row l.granules ls
  if granulesOf ls + l.granules ≤ 32 then ls ++ [l] else ls

/-- Where a line's bytes lie: address and length. -/
def lineSource (e : AdEntry) (block part : Nat) : Nat × Nat :=
  if part = 0 then (e.a + 512 * e.rank * block, 512 * e.rank) else (e.b, 2 * e.rank * e.width)

def Core.adLine (k : Core) (id layer block part : Nat) : Option AdLine :=
  k.adapters.find? fun l => l.id == id && l.layer == layer && l.block == block && l.part == part

/-- A present line has been used. -/
def Core.touchLine (k : Core) (l : AdLine) : Core := { k with adapters := k.adapters.erase l ++ [l] }

/-- The lines of an id are no longer pinned once its last pending row has been replayed; those invalidated meanwhile go
(R306). -/
def Core.unpin (k : Core) (id : Nat) : Core :=
  { k with adapters := (k.adapters.filter fun l => !(l.id == id && l.dead)).map fun l =>
      if l.id = id then { l with pin := false } else l }

/-- An invalidation of an id: its lines go, the pinned ones after their rows' replays. -/
def Core.dropId (k : Core) (id : Nat) : Core :=
  { k with adapters := (k.adapters.filter fun l => l.id != id || l.pin).map fun l =>
      if l.id = id then { l with dead := true } else l }

/-- A line's bytes: from the cache, else read at home and put there if room can be made, pinned if a pending row asked for it. -/
def State.adapterLine (s : State) (core : Nat) (c : Cmd) (e : AdEntry) (id layer block part : Nat) (pin : Bool) :
    ERes (List Byte) :=
  match (s.core core).adLine id layer block part with
  | some l => (s.modCore core (·.touchLine l), .ok l.data)
  | none =>
    let (va, n) := lineSource e block part
    (s.engRead core c va n n).next fun bs s =>
      let l : AdLine := ⟨id, layer, block, part, bs, pin, false⟩
      (s.modCore core fun k => { k with adapters := cacheLine (if pin then some id else none) l k.adapters }, .ok bs)

/-- The entry of an id: none where it breaks its layout. -/
def State.adapterEntry (s : State) (core : Nat) (c : Cmd) (table id : Nat) : ERes (Option AdEntry) :=
  (s.engRead core c (table + 16 * id) 16 16).next fun bs s => (s, .ok (AdEntry.parse (leNat bs)))

/-! ### ADPF (R306) -/

/-- The lines a prefetch word names: block and part; part B has only block 0. -/
def prefetchLines (w : Nat) : List (Nat × Nat) :=
  ((List.range (bits w 55 48 + 1)).map (· + bits w 47 32)).flatMap fun b =>
    (if bits w 56 56 = 1 then [(b, 0)] else []) ++ (if bits w 57 57 = 1 && b = 0 then [(b, 1)] else [])

def State.fillLines (s : State) (core : Nat) (c : Cmd) (e : AdEntry) (id layer i : Nat) : List (Nat × Nat) → ERes Unit
  | [] => (s, .ok ())
  | (b, p) :: xs =>
    match s.adapterLine core c e id layer b p false with
    | (s, .error x) => (s.modCmd core c.id fun x => { x with elem := i }, .error x)
    | (s, .ok _) => s.fillLines core c e id layer (i + 1) xs

def State.adpfStart (s : State) (core : Nat) (c : Cmd) : ERes Unit :=
  let w := (c.ops[0]?.getD 0).toNat
  let id := bits w 15 0
  if id = 0 then (s, .ok ())
  else if bits w 58 58 = 1 then
    (s.modCore core (·.dropId id), .ok ())
  else
    (s.adapterEntry core c c.addr.toNat id).next fun e s =>
      match e with
      | none => efail s stADAPTER (c.addr.toNat + 16 * id)
      | some e => s.fillLines core c e id (bits w 31 16) c.elem ((prefetchLines w).drop c.elem)

/-! ### The correction of a row (R269) -/

def bf16At (bs : List Byte) (i : Nat) : FVal := bf16.value (leNat ((bs.drop (2 * i)).take 2))

/-- Element (row, col) of A_id from its lines, and of B_id from its one line. -/
def elemA (lines : List (List Byte)) (e : AdEntry) (row col : Nat) : FVal :=
  bf16At (lines[row / 256]?.getD []) (row % 256 * e.rank + col)

def elemB (line : List Byte) (e : AdEntry) (row col : Nat) : FVal := bf16At line (row * e.width + col)

/-- Factors of the projection and of the correction. -/
def factor1 (trans : Bool) (la : List (List Byte)) (lb : List Byte) (e : AdEntry) (k j : Nat) : FVal :=
  if trans then elemB lb e j k else elemA la e k j

def factor2 (trans : Bool) (la : List (List Byte)) (lb : List Byte) (e : AdEntry) (j n : Nat) : FVal :=
  if trans then elemA la e n j else elemB lb e j n

/-- u[j] after all k-steps, with its flags; x gives the row's scaled elements. -/
def projection (x : Nat → FVal) (f1 : Nat → Nat → FVal) (step : Nat) (ksteps j : Nat) : Nat × Nat :=
  (List.range ksteps).foldl (fun (u, fl) t =>
    let ks := (List.range step).map (· + t * step)
    let nan := ks.any fun k => (x k).isNan || (f1 k j).isNan
    let (u, f) := acc40.accumulate false u (ks.map fun k => (x k).mul (f1 k j)) nan
    (u, fl ||| f)) (0, 0)

/-- Flags of the projections' rounding to BF16 (R34). -/
def roundingFlags (us : List Nat) : Nat :=
  us.foldl (fun f u => f ||| (bf16.narrowFlags .rne 0 (acc40.value u) &&& (flagOver ||| flagUnder))) 0

/-- The correction of column n from the projections. -/
def correction (us : List Nat) (f2 : Nat → Nat → FVal) (alpha n : Nat) : FVal × Bool :=
  let ps := (List.range us.length).map fun j => (bf16.value (bf16.rne (acc40.value (us[j]?.getD 0))), f2 j n)
  ((FVal.sum (ps.map fun p => p.1.mul p.2)).mul (fp32.value alpha),
    (fp32.value alpha).isNan || ps.any fun p => p.1.isNan || p.2.isNan)

/-- The row of C with its correction, and flags; `old` gives the row as it stands. -/
def correctRow (us : List Nat) (f2 : Nat → Nat → FVal) (alpha : Nat) (old : Nat → Nat) (n : Nat) : List (Nat × Nat) :=
  (List.range n).map fun i =>
    let (x, nan) := correction us f2 alpha i
    acc40.accumulate false (old i) [x] nan

end Sys2Proof.Machine
end

