-- ==== Sys2Proof/Machine/Special.lean ====
section
/-! DEFINITION. The special functions of R130, correctly rounded: a fixed-point value with an error bound is rounded at both
ends of its bound, and taken again at a higher precision while the two disagree. -/

namespace Sys2Proof.Machine

/-- Fraction bits of the working fixed point for a precision. -/
def work (p : Nat) : Nat := p + 64

/-- r 2^(n - w) rounded. -/
def roundFix (neg : Bool) (r w : Nat) (n : Int) : Nat :=
  let (a, b) := dyadic r (n - w)
  fp32.round .rne false neg a b 0

/-- Both ends of r ± err round to one FP32 code. -/
def bracketBy (err : Nat) (neg : Bool) (r w : Nat) (n : Int) : Option Nat :=
  let lo := roundFix neg (r - err) w n
  if lo == roundFix neg (r + err) w n then some lo else none

/-- The error bound of every series below: 2^56 last places of the working fixed point. -/
def bracket (neg : Bool) (r w : Nat) (n : Int) : Option Nat := bracketBy (2 ^ 56) neg r w n

/-- The first precision at which a function's value is decided. -/
def decided (f : Nat → Option Nat) : Nat :=
  match f 192 with
  | some x => x
  | none =>
    match f 448 with
    | some x => x
    | none => (f 960).getD fp32.nan

/-! ### Constants and series at 2^w -/

/-- Σ t / ((2i + 1) k^(2i)), i rising from i, with signs alternating when alt. -/
def atanSum (k2 : Nat) (alt : Bool) (t : Int) (i : Nat) : Nat → Int
  | 0 => 0
  | n + 1 => t / (2 * i + 1 : Nat) + atanSum k2 alt (if alt then -(t / (k2 : Int)) else t / (k2 : Int)) (i + 1) n

/-- atan(1/k). -/
def atanInv (k w : Nat) : Int := atanSum (k * k) true ((2 ^ w / k : Nat) : Int) 0 (w / 4 + 2)

/-- π by Machin's formula. -/
def piFix (w : Nat) : Nat := (16 * atanInv 5 w - 4 * atanInv 239 w).toNat

/-- ln 2 = 2 atanh(1/3). -/
def ln2Fix (w : Nat) : Nat := (2 * atanSum 9 false ((2 ^ w / 3 : Nat) : Int) 0 (w / 3 + 2)).toNat

/-- Σ t, each term t y / i of the one before it: the exponential. -/
def expSum (w y t i : Nat) : Nat → Nat
  | 0 => t
  | n + 1 => t + expSum w y (t * y / 2 ^ w / i) (i + 1) n

/-- e^y for y at 2^w, y ≤ 32. -/
def expFix (w y : Nat) : Nat := expSum w y (2 ^ w) 1 (w / 2 + 40)

/-- Σ t - t r² / ((i+1)(i+2)) + ...: sine from (r, 1), cosine from (1, 0). -/
def trigSum (w r : Nat) (t : Int) (i : Nat) : Nat → Int
  | 0 => t
  | n + 1 => t + trigSum w r (-(t * r * r / (2 ^ (2 * w) : Nat) / ((i + 1) * (i + 2) : Nat))) (i + 2) n

def sinFix (w r : Nat) : Nat := (trigSum w r (r : Int) 1 (w / 4 + 10)).toNat
def cosFix (w r : Nat) : Nat := (trigSum w r ((2 ^ w : Nat) : Int) 0 (w / 4 + 10)).toNat

/-- 2 atanh(z) at 2^w. -/
def atanhSum (w z t i : Nat) : Nat → Nat
  | 0 => 0
  | n + 1 => t / (2 * i + 1) + atanhSum w z (t * z / 2 ^ w * z / 2 ^ w) (i + 1) n

/-- ln(x / y) for x ≥ y. -/
def lnFix (w x y : Nat) : Nat :=
  let z := (x - y) * 2 ^ w / (x + y)
  2 * atanhSum w z z 0 (w / 2 + 2)

/-- m 2^e at 2^w, rounded down. -/
def fixed (m : Nat) (e : Int) (w : Nat) : Nat := let (a, b) := dyadic m (e + w); a / b

/-! ### The functions -/

/-- 2^a (R130). -/
def exp2Fp32 (a : FVal) : Nat :=
  match a with
  | .nan => fp32.nan
  | .inf n => if n then 0 else 0x7F800000
  | .fin neg m e =>
    if m = 0 then 0x3F800000
    else
      let (x, d) := dyadic m e
      if x ≥ 160 * d then (if neg then 0 else 0x7F800000)
      else
        -- a = n + f with 0 ≤ f < 1
        let k : Int := if neg then -((x + d - 1) / d : Nat) else (x / d : Nat)
        let f := if neg then ((x + d - 1) / d) * d - x else x % d
        if f = 0 then (let (p, q) := dyadic 1 k; fp32.round .rne false false p q 0)
        else decided fun p =>
          let w := work p
          let y := f * ln2Fix (w + 8) / (2 ^ 8 * d)
          bracket false (expFix w y) w k

/-- log₂ a (R130). -/
def log2Fp32 (a : FVal) : Nat :=
  match a with
  | .nan => fp32.nan
  | .inf n => if n then fp32.nan else 0x7F800000
  | .fin neg m e =>
    if m = 0 then 0xFF800000
    else if neg then fp32.nan
    else
      -- a = (m / 2^s) 2^k with 3/4 ≤ m / 2^s < 3/2
      let s := if 2 * m < 3 * 2 ^ Nat.log2 m then Nat.log2 m else Nat.log2 m + 1
      let k : Int := e + s
      if m = 2 ^ s then fp32.rne (intVal k)
      else decided fun p =>
        let w := work p
        let l : Int := if m ≥ 2 ^ s then (lnFix w m (2 ^ s) : Int) else -(lnFix w (2 ^ s) m : Int)
        let r : Int := k * (2 ^ w : Nat) + l * (2 ^ w : Nat) / (ln2Fix w : Int)
        bracket (r < 0) r.natAbs w 0

/-- The quadrant of a non-negative value and what is left of it, at 2^w. -/
def quadrant (m : Nat) (e : Int) (w : Nat) : Nat × Nat :=
  let v := w + 200
  let h := piFix v / 2
  let x := fixed m e v
  ((x / h) % 4, x % h / 2 ^ 200)

/-- sin a (R130); cos when quarter is 1. -/
def trigFp32 (quarter : Nat) (a : FVal) : Nat :=
  match a with
  | .nan => fp32.nan
  | .inf _ => fp32.nan
  | .fin neg m e =>
    if m = 0 then (if quarter = 0 then fp32.sign neg 0 else 0x3F800000)
    else decided fun p =>
      let w := work p
      let (q, r) := quadrant m e w
      let k := (q + quarter) % 4
      let v := if k % 2 = 0 then sinFix w r else cosFix w r
      let n := (k ≥ 2) != (neg && quarter == 0)
      bracket n v w 0

/-- tanh a (R130). -/
def tanhFp32 (a : FVal) : Nat :=
  match a with
  | .nan => fp32.nan
  | .inf n => fp32.sign n 0x3F800000
  | .fin neg m e =>
    if m = 0 then fp32.sign neg 0
    else
      let (x, d) := dyadic m e
      if x ≥ 16 * d then fp32.sign neg 0x3F800000
      else decided fun p =>
        let w := work p
        let t := expFix (w + 8) (fixed m (e + 1) (w + 8))
        bracket neg ((t - 2 ^ (w + 8)) * 2 ^ w / (t + 2 ^ (w + 8))) w 0

/-- 1/a (R130). -/
def rcpFp32 (a : FVal) : Nat := fp32.div (.fin false 1 0) a

end Sys2Proof.Machine
end

