-- ==== Sys2Proof/Machine/LaneFloat.lean ====
section
/-! DEFINITION. Lane floating-point, conversion, F4B and special-function instructions (R117-R134). -/

namespace Sys2Proof.Machine

/-! ### Shapes -/

def v32 (w : Word) : FVal := fp32.value w.toNat
def v64 (w : DWord) : FVal := fp64.value w.toNat

/-- An FP32 operation of one, two operands, and of two operands and the old destination, on encodings. -/
def float1 (f : Nat → Nat) (d : LDst) (a : LSrc) (n : Bool) (g : Nat) (s : State) : Out :=
  lanesUnit g (fun _ l => d.put32 n (w32 (f (a.r32 l).toNat)) l) s

def float2 (f : Nat → Nat → Nat) (d : LDst) (a b : LSrc) (n : Bool) (g : Nat) (s : State) : Out :=
  lanesUnit g (fun _ l => d.put32 n (w32 (f (a.r32 l).toNat (b.r32 l).toNat)) l) s

def float3 (f : Nat → Nat → Nat → Nat) (d : LDst) (a b : LSrc) (n : Bool) (g : Nat) (s : State) : Out :=
  lanesUnit g (fun _ l => d.put32 n (w32 (f (a.r32 l).toNat (b.r32 l).toNat (d.old32 l).toNat)) l) s

/-- FP64 operations on even pairs (R121). -/
def double2 (f : Nat → Nat → Nat) (d : LDst) (a b : LSrc) (n : Bool) (g : Nat) (s : State) : Out :=
  lanesUnit g (fun _ l => d.put64 n (w64 (f (a.r64 l).toNat (b.r64 l).toNat)) l) s

def double3 (f : Nat → Nat → Nat → Nat) (d : LDst) (a b : LSrc) (n : Bool) (g : Nat) (s : State) : Out :=
  lanesUnit g (fun _ l => d.put64 n (w64 (f (a.r64 l).toNat (b.r64 l).toNat (d.old64 l).toNat)) l) s

/-- A comparison into a predicate (R120). -/
def floatCmp (f : Nat → Nat → Bool) (d : Nat) (a b : LSrc) (g : Nat) (s : State) : Out :=
  lanesUnit g (fun _ l => l.setPred d (f (a.r32 l).toNat (b.r32 l).toNat)) s

/-! ### Arithmetic of one format (R119) -/

def FFmt.addOp (f : FFmt) (a b : Nat) : Nat := f.rne ((f.value a).add (f.value b))
def FFmt.subOp (f : FFmt) (a b : Nat) : Nat := f.rne ((f.value a).add (f.value b).neg)
def FFmt.mulOp (f : FFmt) (a b : Nat) : Nat := f.rne ((f.value a).mul (f.value b))
def FFmt.fmaOp (f : FFmt) (a b c : Nat) : Nat := f.fma (f.value a) (f.value b) (f.value c)
def FFmt.fnmaOp (f : FFmt) (a b c : Nat) : Nat := f.fma (f.value a).neg (f.value b) (f.value c)
def FFmt.divOp (f : FFmt) (a b : Nat) : Nat := f.div (f.value a) (f.value b)

def execFadd (d : LDst) (a b : LSrc) (n : Bool) (g : Nat) (s : State) : Out :=
  float2 fp32.addOp d a b n g s

def execFsub (d : LDst) (a b : LSrc) (n : Bool) (g : Nat) (s : State) : Out :=
  float2 fp32.subOp d a b n g s

def execFmul (d : LDst) (a b : LSrc) (n : Bool) (g : Nat) (s : State) : Out :=
  float2 fp32.mulOp d a b n g s

def execFfma (d : LDst) (a b : LSrc) (n : Bool) (g : Nat) (s : State) : Out :=
  float3 fp32.fmaOp d a b n g s

def execFmin (d : LDst) (a b : LSrc) (n : Bool) (g : Nat) (s : State) : Out :=
  float2 (fp32.minMax false) d a b n g s

def execFmax (d : LDst) (a b : LSrc) (n : Bool) (g : Nat) (s : State) : Out :=
  float2 (fp32.minMax true) d a b n g s

def execFnma (d : LDst) (a b : LSrc) (n : Bool) (g : Nat) (s : State) : Out :=
  float3 fp32.fnmaOp d a b n g s

def execFdiv (d : LDst) (a b : LSrc) (n : Bool) (g : Nat) (s : State) : Out :=
  float2 fp32.divOp d a b n g s

/-! ### Comparisons (R120) -/

def isNan (b : Nat) : Bool := fp32.value b == .nan

/-- a < b with neither a NaN. -/
def floatLt (a b : Nat) : Bool := ((fp32.value a).lt? (fp32.value b)) == some true

/-- The class of an encoding. -/
def classOf (b : Nat) : Nat :=
  let neg := bits b 31 31 == 1
  match fp32.value b with
  | .nan => if bits b 22 22 = 0 then 0 else 1
  | .inf n => if n then 2 else 9
  | .fin _ m _ =>
    if m = 0 then (if neg then 5 else 6)
    else if bits b 30 23 = 0 then (if neg then 4 else 7)
    else if neg then 3 else 8

def execFcmpEq (d : Nat) (a b : LSrc) (g : Nat) (s : State) : Out :=
  floatCmp (fun x y => (fp32.value x).eq? (fp32.value y)) d a b g s

def execFcmpNe (d : Nat) (a b : LSrc) (g : Nat) (s : State) : Out :=
  floatCmp (fun x y => !(fp32.value x).eq? (fp32.value y)) d a b g s

def execFcmpLt (d : Nat) (a b : LSrc) (g : Nat) (s : State) : Out :=
  floatCmp floatLt d a b g s

def execFcmpLe (d : Nat) (a b : LSrc) (g : Nat) (s : State) : Out :=
  floatCmp (fun x y => ((fp32.value y).lt? (fp32.value x)) == some false) d a b g s

def execFcmpUn (d : Nat) (a b : LSrc) (g : Nat) (s : State) : Out :=
  floatCmp (fun x y => isNan x || isNan y) d a b g s

def execFcmpTolt (d : Nat) (a b : LSrc) (g : Nat) (s : State) : Out :=
  floatCmp (fun x y => totalOrder 32 x y && x != y) d a b g s

def execFcmpTole (d : Nat) (a b : LSrc) (g : Nat) (s : State) : Out :=
  floatCmp (totalOrder 32) d a b g s

def execFcmpClass (d : Nat) (a b : LSrc) (g : Nat) (s : State) : Out :=
  floatCmp (fun x y => bits y (classOf x) (classOf x) == 1) d a b g s

/-! ### FP64 (R121) -/

def execDadd (d : LDst) (a b : LSrc) (n : Bool) (g : Nat) (s : State) : Out :=
  double2 fp64.addOp d a b n g s

def execDsub (d : LDst) (a b : LSrc) (n : Bool) (g : Nat) (s : State) : Out :=
  double2 fp64.subOp d a b n g s

def execDmul (d : LDst) (a b : LSrc) (n : Bool) (g : Nat) (s : State) : Out :=
  double2 fp64.mulOp d a b n g s

def execDfma (d : LDst) (a b : LSrc) (n : Bool) (g : Nat) (s : State) : Out :=
  double3 fp64.fmaOp d a b n g s

def execDmin (d : LDst) (a b : LSrc) (n : Bool) (g : Nat) (s : State) : Out :=
  double2 (fp64.minMax false) d a b n g s

def execDmax (d : LDst) (a b : LSrc) (n : Bool) (g : Nat) (s : State) : Out :=
  double2 (fp64.minMax true) d a b n g s

def execDdiv (d : LDst) (a b : LSrc) (n : Bool) (g : Nat) (s : State) : Out :=
  double2 fp64.divOp d a b n g s

def execDsqrt (d : LDst) (a : LSrc) (n : Bool) (g : Nat) (s : State) : Out :=
  double2 (fun x _ => fp64.sqrt (fp64.value x)) d a a n g s

/-! ### Packed 16-bit arithmetic (R122) -/

/-- Each half on its own. -/
def halves2 (f : Nat → Nat → Nat) (a b : Nat) : Nat := f (bits a 15 0) (bits b 15 0) + 2 ^ 16 * f (bits a 31 16) (bits b 31 16)

def halves3 (f : Nat → Nat → Nat → Nat) (a b c : Nat) : Nat :=
  f (bits a 15 0) (bits b 15 0) (bits c 15 0) + 2 ^ 16 * f (bits a 31 16) (bits b 31 16) (bits c 31 16)

def execHaddF16 (d : LDst) (a b : LSrc) (n : Bool) (g : Nat) (s : State) : Out :=
  float2 (halves2 fp16.addOp) d a b n g s

def execHmulF16 (d : LDst) (a b : LSrc) (n : Bool) (g : Nat) (s : State) : Out :=
  float2 (halves2 fp16.mulOp) d a b n g s

def execHfmaF16 (d : LDst) (a b : LSrc) (n : Bool) (g : Nat) (s : State) : Out :=
  float3 (halves3 fp16.fmaOp) d a b n g s

def execHaddBf16 (d : LDst) (a b : LSrc) (n : Bool) (g : Nat) (s : State) : Out :=
  float2 (halves2 bf16.addOp) d a b n g s

def execHmulBf16 (d : LDst) (a b : LSrc) (n : Bool) (g : Nat) (s : State) : Out :=
  float2 (halves2 bf16.mulOp) d a b n g s

def execHfmaBf16 (d : LDst) (a b : LSrc) (n : Bool) (g : Nat) (s : State) : Out :=
  float3 (halves3 bf16.fmaOp) d a b n g s

def execHmin (d : LDst) (a b : LSrc) (n : Bool) (g : Nat) (s : State) : Out :=
  float2 (halves2 (orderMin 16)) d a b n g s

def execHmax (d : LDst) (a b : LSrc) (n : Bool) (g : Nat) (s : State) : Out :=
  float2 (halves2 (orderMax 16)) d a b n g s

/-! ### Conversions (R24, R123, R124) -/

/-- The rounding mode and sat bit of the field of `cvm` that starts at a bit (R24). -/
def cvmMode (cvm : Word) (lo : Nat) : RMode := RMode.ofCode (bits cvm.toNat (lo + 2) lo)
def cvmSat (cvm : Word) (lo : Nat) : Bool := bits cvm.toNat (lo + 3) (lo + 3) == 1

def cvmFp16 : Nat := 0
def cvmBf16 : Nat := 4
def cvmE4m3 : Nat := 8
def cvmE5m2 : Nat := 12
def cvmF4b : Nat := 16
def cvmI8 : Nat := 20
def cvmI16 : Nat := 24

/-- A lane's draw (R26), taken only under SR. -/
def Lane.draw (l : Lane) (mode : RMode) : Word × Lane :=
  if mode = .sr then (lcgOut (lcgStep l.lrng), { l with lrng := lcgStep l.lrng }) else (0, l)

/-- A conversion to a floating-point format: rounding, then the range rule (R25). -/
def convert (f : FFmt) (mode : RMode) (sat : Bool) (x : FVal) (d : LDst) (n : Bool) (l : Lane) : Lane :=
  let (u, l') := l.draw mode
  d.put32 n (w32 (f.narrow mode sat u x)) l'

/-- A conversion of a floating-point value to an integer range (R25, R123). -/
def convertInt (mode : RMode) (lo hi : Int) (x : FVal) (d : LDst) (n : Bool) (l : Lane) : Lane :=
  let (u, l') := l.draw mode
  d.put32 n (BitVec.ofInt 32 ((x.toInt mode u).clamp lo hi)) l'

/-- A wider integer kept in its low bits or clamped (R25). -/
def shorten (w : Nat) (sat : Bool) (x : Word) : Word :=
  if sat then BitVec.ofInt 32 (max (-(2 ^ (w - 1) : Int)) (min (2 ^ (w - 1) - 1) x.toInt))
  else (x.setWidth w).signExtend 32

/-- Exact widening of the low bits of a source to FP32. -/
def widen32 (src : FFmt) (x : Nat) : Nat := fp32.rne (src.value (x % 2 ^ src.width))

def execCvtI32F32 (d : LDst) (a : LSrc) (r : Nat) (n : Bool) (g : Nat) (s : State) : Out :=
  lanesUnit g (fun _ l => convertInt (RMode.ofCode r) (-(2 ^ 31)) (2 ^ 31 - 1) (v32 (a.r32 l)) d n l) s

def execCvtN32F32 (d : LDst) (a : LSrc) (r : Nat) (n : Bool) (g : Nat) (s : State) : Out :=
  lanesUnit g (fun _ l => convertInt (RMode.ofCode r) 0 (2 ^ 32 - 1) (v32 (a.r32 l)) d n l) s

def execCvtF32I32 (d : LDst) (a : LSrc) (r : Nat) (n : Bool) (g : Nat) (s : State) : Out :=
  lanesUnit g (fun _ l => convert fp32 (RMode.ofCode r) false (intVal (a.r32 l).toInt) d n l) s

def execCvtF32N32 (d : LDst) (a : LSrc) (r : Nat) (n : Bool) (g : Nat) (s : State) : Out :=
  lanesUnit g (fun _ l => convert fp32 (RMode.ofCode r) false (intVal (a.r32 l).toNat) d n l) s

/-- A narrowing under the `cvm` field at a bit. -/
def cvtUnder (f : FFmt) (field : Nat) (d : LDst) (a : LSrc) (n : Bool) (g : Nat) (s : State) : Out :=
  lanesUnit g (fun gr l => convert f (cvmMode gr.cvm field) (cvmSat gr.cvm field) (v32 (a.r32 l)) d n l) s

def execCvtBf16F32 (d : LDst) (a : LSrc) (n : Bool) (g : Nat) (s : State) : Out :=
  cvtUnder bf16 cvmBf16 d a n g s

def execCvtF16F32 (d : LDst) (a : LSrc) (n : Bool) (g : Nat) (s : State) : Out :=
  cvtUnder fp16 cvmFp16 d a n g s

def execCvtF32Bf16 (d : LDst) (a : LSrc) (n : Bool) (g : Nat) (s : State) : Out :=
  float1 (widen32 bf16) d a n g s

def execCvtF32F16 (d : LDst) (a : LSrc) (n : Bool) (g : Nat) (s : State) : Out :=
  float1 (widen32 fp16) d a n g s

def execCvtE4m3F32 (d : LDst) (a : LSrc) (n : Bool) (g : Nat) (s : State) : Out :=
  cvtUnder e4m3 cvmE4m3 d a n g s

def execCvtE5m2F32 (d : LDst) (a : LSrc) (n : Bool) (g : Nat) (s : State) : Out :=
  cvtUnder e5m2 cvmE5m2 d a n g s

def execCvtI8F32 (d : LDst) (a : LSrc) (n : Bool) (g : Nat) (s : State) : Out :=
  lanesUnit g (fun gr l => convertInt (cvmMode gr.cvm cvmI8) (-128) 127 (v32 (a.r32 l)) d n l) s

def execCvtI8I32 (d : LDst) (a : LSrc) (n : Bool) (g : Nat) (s : State) : Out :=
  lanesUnit g (fun gr l => d.put32 n (shorten 8 (cvmSat gr.cvm cvmI8) (a.r32 l)) l) s

def execCvtI16F32 (d : LDst) (a : LSrc) (n : Bool) (g : Nat) (s : State) : Out :=
  lanesUnit g (fun gr l => convertInt (cvmMode gr.cvm cvmI16) (-32768) 32767 (v32 (a.r32 l)) d n l) s

def execCvtI16I32 (d : LDst) (a : LSrc) (n : Bool) (g : Nat) (s : State) : Out :=
  lanesUnit g (fun gr l => d.put32 n (shorten 16 (cvmSat gr.cvm cvmI16) (a.r32 l)) l) s

def execCvtF32E4m3 (d : LDst) (a : LSrc) (n : Bool) (g : Nat) (s : State) : Out :=
  float1 (widen32 e4m3) d a n g s

def execCvtF32E5m2 (d : LDst) (a : LSrc) (n : Bool) (g : Nat) (s : State) : Out :=
  float1 (widen32 e5m2) d a n g s

def execCvtBf16F32Sr (d : LDst) (a : LSrc) (n : Bool) (g : Nat) (s : State) : Out :=
  lanesUnit g (fun gr l => convert bf16 .sr (cvmSat gr.cvm cvmBf16) (v32 (a.r32 l)) d n l) s

def execCvtE4m3F32Sr (d : LDst) (a : LSrc) (n : Bool) (g : Nat) (s : State) : Out :=
  lanesUnit g (fun gr l => convert e4m3 .sr (cvmSat gr.cvm cvmE4m3) (v32 (a.r32 l)) d n l) s

/-! ### F4B (R126-R129) -/

/-- The word a rank of a packed block receives (R126). -/
def F4Block.word (b : F4Block) (i : Nat) : Nat :=
  match i % 4 with
  | 0 => nibbles (b.codes.take 8)
  | 1 => nibbles (b.codes.drop 8)
  | 2 => b.scale + 256 * b.spare
  | _ => 0

/-- The packed block a lane of a rank belongs to: absent lanes supply +0 and draw nothing (R126). -/
def packOf (mode : RMode) (sat : Bool) (g : Group) (taking members : Mask) (a : LSrc) (first : Nat) : F4Block :=
  let lane := fun i => (atRank members (first + i)).bind fun p => if taking.getLsbD p then some (g.lane p) else none
  let ids := List.range 16
  packF4b mode sat (ids.map fun i => ((lane i).map fun l => (a.r32 l).toNat).getD 0)
    (ids.map fun i => ((lane i).map fun l => (l.draw mode).1).getD 0)

def execPackF4b (d : LDst) (a : LSrc) (n : Bool) (g : Nat) (s : State) : Out :=
  groupUnit s fun c gr =>
    let m := c.taking g gr
    let mode := cvmMode gr.cvm cvmF4b
    coupledOnly s c gr (.ok (s.setGroup c.gkey ((positions c.lanes).foldl (fun x p =>
      let l := gr.lane p
      if m.getLsbD p then
        let members := s.membersOf c.gkey gr 0 p
        let r := rankOf members p
        let b := packOf mode (cvmSat gr.cvm cvmF4b) gr m members a (r / 16 * 16)
        x.setLane p (c.advance (d.put32 n (w32 (b.word (r % 16))) (l.draw mode).2))
      else x.setLane p (c.advance l)) gr)))

/-- The element an UNPK names (R127). -/
def unpackF4b (a b : Nat) : Nat :=
  let i := bits b 18 16
  fp32.rne (f4bValue (bits a (4 * i + 3) (4 * i)) (bits b 7 0) (bits b 15 8))

def execUnpkF4b (d : LDst) (a b : LSrc) (n : Bool) (g : Nat) (s : State) : Out :=
  float2 unpackF4b d a b n g s

/-- The scale word of R128. -/
def scaleF4b (sat : Bool) (a : Nat) (k : Int) : Nat :=
  let e := bits a 7 0
  let t := (e : Int) + k
  let e' := if e = 255 then 255 else if t > 254 then (if sat then 254 else 255) else t.toNat
  a / 256 * 256 + e'

def execScaleF4b (d : LDst) (a b : LSrc) (n : Bool) (g : Nat) (s : State) : Out :=
  lanesUnit g (fun gr l => d.put32 n (w32 (scaleF4b (cvmSat gr.cvm cvmF4b) (a.r32 l).toNat (b.r32 l).toInt)) l) s

def execMx2f4b (d : LDst) (a : LSrc) (n : Bool) (g : Nat) (s : State) : Out :=
  float1 (fun x => bits x 7 0 + 0x8000) d a n g s

/-! ### Special functions (R130) -/

def execRcp (d : LDst) (a : LSrc) (n : Bool) (g : Nat) (s : State) : Out :=
  float1 (fun x => rcpFp32 (fp32.value x)) d a n g s

def execRsq (d : LDst) (a : LSrc) (n : Bool) (g : Nat) (s : State) : Out :=
  float1 (fun x => fp32.rsqrt (fp32.value x)) d a n g s

def execSqrt (d : LDst) (a : LSrc) (n : Bool) (g : Nat) (s : State) : Out :=
  float1 (fun x => fp32.sqrt (fp32.value x)) d a n g s

def execExp2 (d : LDst) (a : LSrc) (n : Bool) (g : Nat) (s : State) : Out :=
  float1 (fun x => exp2Fp32 (fp32.value x)) d a n g s

def execLog2 (d : LDst) (a : LSrc) (n : Bool) (g : Nat) (s : State) : Out :=
  float1 (fun x => log2Fp32 (fp32.value x)) d a n g s

def execSin (d : LDst) (a : LSrc) (n : Bool) (g : Nat) (s : State) : Out :=
  float1 (fun x => trigFp32 0 (fp32.value x)) d a n g s

def execCos (d : LDst) (a : LSrc) (n : Bool) (g : Nat) (s : State) : Out :=
  float1 (fun x => trigFp32 1 (fp32.value x)) d a n g s

def execTanh (d : LDst) (a : LSrc) (n : Bool) (g : Nat) (s : State) : Out :=
  float1 (fun x => tanhFp32 (fp32.value x)) d a n g s

/-! ### Rounding, keys, random numbers, exponents (R131-R134) -/

/-- An integral FP32 value by a mode (R131). -/
def roundIntegral (mode : RMode) (x : Nat) : Nat :=
  match fp32.value x with
  | .nan => fp32.nan
  | .inf _ => x
  | .fin neg m e =>
    if m = 0 || e ≥ 0 then x
    else
      let (num, den) := dyadic m e
      fp32.round .rne false neg (roundAt mode neg num den 0 0) 1 0

def execFrnd (d : LDst) (a : LSrc) (r : Nat) (n : Bool) (g : Nat) (s : State) : Out :=
  float1 (roundIntegral (RMode.ofCode r)) d a n g s

/-- A coordinate of KEY3 and its flag: floor(w / h) clamped to 0 to 1023 (R132). -/
def keyCoord (w : FVal) (hm : Nat) (he : Int) : Nat × Bool :=
  match w with
  | .nan => (0, true)
  | .inf neg => if neg then (0, true) else (1023, true)
  | .fin neg m e =>
    let (x, y) := dyadic m (e - he)
    let (num, den) := (x, y * hm)
    if m = 0 then (0, false)
    else if neg then (0, true)
    else if num / den > 1023 then (1023, true)
    else (num / den, false)

/-- Bits i of three coordinates at 3i, 3i + 1, 3i + 2. -/
def interleave (x y z : Nat) : Nat → Nat
  | 0 => 0
  | i + 1 => interleave x y z i + 2 ^ (3 * i) * (bits x i i + 2 * bits y i i + 4 * bits z i i)

/-- The key of a quad, x in its lowest word (R132). -/
def mortonKey (q : Nat) : Nat :=
  match fp32.value (bits q 127 96) with
  | .fin false hm he =>
    if hm = 0 then 2 ^ 31
    else
      let x := keyCoord (fp32.value (bits q 31 0)) hm he
      let y := keyCoord (fp32.value (bits q 63 32)) hm he
      let z := keyCoord (fp32.value (bits q 95 64)) hm he
      interleave x.1 y.1 z.1 10 + (if x.2 || y.2 || z.2 then 2 ^ 31 else 0)
  | _ => 2 ^ 31

/-- A quad source: registers, or z as 0; the decoder admits no other code (R40). -/
def execKey3 (d : LDst) (a : LSrc) (n : Bool) (g : Nat) (s : State) : Out :=
  lanesUnit g (fun _ l => d.put32 n (w32 (mortonKey (a.wide l 4))) l) s

def execRng (d : LDst) (n : Bool) (g : Nat) (s : State) : Out :=
  lanesUnit g (fun _ l => d.put32 n (l.draw .sr).1 (l.draw .sr).2) s

def execSeed (a : LSrc) (g : Nat) (s : State) : Out :=
  lanesUnit g (fun _ l => { l with lrng := a.r64 l + l.lid.setWidth 64 * 0x9E3779B97F4A7C15#64 }) s

/-- a 2^k rounded (R134). -/
def scaleFp32 (a : Nat) (k : Int) : Nat :=
  match fp32.value a with
  | .nan => fp32.nan
  | .inf _ => a
  | .fin neg m e => if m = 0 then a else fp32.rne (.fin neg m (e + max (-2000) (min 2000 k)))

def execFscale (d : LDst) (a b : LSrc) (n : Bool) (g : Nat) (s : State) : Out :=
  lanesUnit g (fun _ l => d.put32 n (w32 (scaleFp32 (a.r32 l).toNat (b.r32 l).toInt)) l) s

/-- The unbiased exponent (R134). -/
def exponentOf (a : Nat) : Word :=
  match fp32.value a with
  | .fin _ m e => if m = 0 then 0x80000000#32 else BitVec.ofInt 32 ((Nat.log2 m : Int) + e)
  | _ => 0x7FFFFFFF#32

def execFexp (d : LDst) (a : LSrc) (n : Bool) (g : Nat) (s : State) : Out :=
  lanesUnit g (fun _ l => d.put32 n (exponentOf (a.r32 l).toNat) l) s

end Sys2Proof.Machine
end

