-- ==== Sys2Proof/Machine/Matrix.lean ====
section
/-! DEFINITION. The matrix engine: parameter blocks (R298, R299), k-steps (R30, R31, R264, R265), sparsity (R267), the NaN
trap (R273), drains (R220, R266, R300, R301), adapters of a task (R269, R270). -/

namespace Sys2Proof.Machine

/-! ### Parameter blocks (R298, R299) -/

structure Task where
  drain  : Nat
  cobj   : Nat
  layer  : Nat
  idoff  : Nat
  atab   : Nat
  bspare : Nat
  bscale : Nat
  bstride : Nat
  boff   : Nat
  aspare : Nat
  ascale : Nat
  astride : Nat
  aoff   : Nat
  ksteps : Nat
  bswz   : Nat
  aswz   : Nat
  trans  : Bool
  adapt  : Bool
  trapNan : Bool
  sqid   : Nat
  sparse : Bool
  bsrc   : Nat
  asrc   : Nat
  cont   : Bool
  slot   : Nat
  n      : Nat
  m      : Nat
  bfmt   : Nat
  afmt   : Nat
deriving DecidableEq, Repr

def Task.parse (x : Nat) : Task where
  drain := bits x 767 512
  cobj := bits x 501 448
  layer := bits x 431 416
  idoff := bits x 415 384
  atab := bits x 373 320
  bspare := bits x 319 288
  bscale := bits x 287 256
  bstride := bits x 255 224
  boff := bits x 223 192
  aspare := bits x 191 160
  ascale := bits x 159 128
  astride := bits x 127 96
  aoff := bits x 95 64
  ksteps := bits x 47 32 + 1
  bswz := bits x 27 25
  aswz := bits x 24 22
  trans := bits x 21 21 == 1
  adapt := bits x 20 20 == 1
  trapNan := bits x 19 19 == 1
  sqid := bits x 18 17
  sparse := bits x 16 16 == 1
  bsrc := bits x 15 14
  asrc := bits x 13 12
  cont := bits x 11 11 == 1
  slot := bits x 10 10
  n := if bits x 9 9 = 1 then 128 else 64
  m := if bits x 8 8 = 1 then 128 else 64
  bfmt := bits x 7 4
  afmt := bits x 3 0

def noArray : Nat := 0xFFFFFFFF

def fmtOf : Nat → Fmt
  | 0 => .bf16 | 1 => .f16 | 2 => .e4m3 | 3 => .e5m2 | 4 => .f4b | _ => .i8

def Task.step (t : Task) : Nat := (fmtOf t.afmt).step
def Task.k (t : Task) : Nat := t.ksteps * t.step

/-- Bytes of a row of A, and of B. -/
def Task.aRow (t : Task) : Nat := t.k * (fmtOf t.afmt).bits / 8
def Task.bRow (t : Task) : Nat := (if t.sparse then t.k / 2 else t.k) * (fmtOf t.bfmt).bits / 8

/-- The reserved bits of a block are zero. -/
def taskReserved (x : Nat) : Bool :=
  [(1023, 768), (511, 502), (447, 432), (383, 374), (63, 48), (31, 28)].all fun (h, l) => bits x h l == 0

/-- Scale and spare arrays suit a format. -/
def arraysOk (f scale spare : Nat) : Bool :=
  if f ≤ 1 then scale == noArray && spare == noArray
  else if f = 4 then scale != noArray && spare != noArray
  else spare == noArray

/-- The field combinations that R298 and R299 allow. -/
def Task.formatOk (x : Nat) (t : Task) : Bool :=
  taskReserved x && t.afmt ≤ 5 && t.bfmt ≤ 5 && (t.afmt == t.bfmt || (2 ≤ t.afmt && t.afmt ≤ 3 && 2 ≤ t.bfmt && t.bfmt ≤ 3)) &&
    arraysOk t.afmt t.ascale t.aspare && arraysOk t.bfmt t.bscale t.bspare && t.astride % 16 == 0 && t.bstride % 16 == 0 &&
    t.aRow ≤ t.astride && t.bRow ≤ t.bstride && t.aswz ≤ 3 && t.bswz ≤ 3 && (!t.trans || t.adapt) &&
    !(t.adapt && t.afmt == 5) && t.asrc ≤ 2 && t.bsrc ≤ 2 && (t.sparse || t.sqid == 0) &&
    (t.asrc != 2 || t.aoff < 16) && (t.bsrc != 2 || t.boff < 16)

/-- An operand: its space, the address its offsets count from, and for a ring the region its slots lie in and the bytes of those
that the task has. -/
structure Operand where
  space : Nat
  base  : Nat
  first : Nat
  lo    : Nat
  size  : Nat
  span  : Nat
deriving DecidableEq, Repr

/-- The operand of a source code; slot is the first of the n slots the task has of its ring. -/
def Core.operand (k : Core) (src off bank slot n : Nat) : Operand :=
  match src with
  | 0 => ⟨bank, 0, off, 0, 0, 0⟩
  | 1 => ⟨2, 0, off, 0, 0, 0⟩
  | _ => let r := k.ring off; ⟨r.space, r.slotBase slot, r.slotBase slot, r.offset, r.slots * r.bytes, n * r.bytes⟩

/-- Where a byte of an operand lies: the slots a task has of a ring follow each other around its region (log entry 28). -/
def Operand.place (o : Operand) (a : Nat) : Nat :=
  if a < o.base + o.span && o.size != 0 then o.lo + (a - o.lo) % o.size else a

/-- A range of an operand as ranges of its space, cut where the slots go around. -/
def Operand.parts (o : Operand) (x : Nat × Nat) : List (Nat × Nat) :=
  let inside := min x.2 (o.base + o.span - x.1)
  let before := min inside (o.lo + o.size - x.1)
  [(o.place x.1, before), (o.place (x.1 + before), inside - before), (x.1 + inside, x.2 - inside)].filter fun y => y.2 != 0

/-- The ranges of an operand's arrays, with swizzled rows: address and length. -/
def operandRanges (o : Operand) (rows stride row swzl scale spare k : Nat) : List (Nat × Nat) :=
  [(o.first, swzExtent swzl ((rows - 1) * stride + row))] ++
    (if scale = noArray then [] else [(o.base + scale, rows * (k / 16))]) ++
    (if spare = noArray then [] else [(o.base + spare, rows * (k / 16))])

/-- Operand A of a task with its slots, and operand B. -/
def Core.operandA (k : Core) (t : Task) (c : Cmd) : Operand :=
  k.operand t.asrc t.aoff 3 (c.slots[0]?.getD (k.firstSlot c t.aoff)) (c.slotCount t.aoff)
def Core.operandB (k : Core) (t : Task) (c : Cmd) : Operand :=
  k.operand t.bsrc t.boff 4 (c.slots[1]?.getD (k.firstSlot c t.boff)) (c.slotCount t.boff)

def Core.rangesA (k : Core) (t : Task) (c : Cmd) : List (Nat × Nat) :=
  (operandRanges (k.operandA t c) t.m t.astride t.aRow t.aswz t.ascale t.aspare t.k).flatMap (k.operandA t c).parts

def Core.rangesB (k : Core) (t : Task) (c : Cmd) : List (Nat × Nat) :=
  (operandRanges (k.operandB t c) t.n t.bstride t.bRow t.bswz t.bscale t.bspare t.k).flatMap (k.operandB t c).parts

/-- The first range of an operand outside its allotment. -/
def State.rangesOk (s : State) (tid : Nat) (o : Operand) (rs : List (Nat × Nat)) : Option Nat :=
  (rs.find? fun x => !s.localOk tid o.space x.1 x.2).map Prod.fst

/-- A ring source is an enabled matrix-reader ring of the team and of the operand's role. -/
def Core.ringSource (k : Core) (tid src off role : Nat) : Bool :=
  src != 2 || (let r := k.ring off; r.ofTeam tid && r.matrix && r.role == role)

/-- The check of a task before it starts: status and detail. -/
def State.taskCheck (s : State) (core : Nat) (c : Cmd) (x : Nat) (t : Task) : Option (Nat × Nat) :=
  let k := s.core core
  let tm := tget s.teams c.tid
  let held := fun (sp : Nat) => ((tm.map (·.allotBytes sp)).getD 0) != 0
  if !t.formatOk x || !k.ringSource c.tid t.asrc t.aoff 1 || !k.ringSource c.tid t.bsrc t.boff 0 then
    some (stFORMAT, c.addr.toNat)
  else if (t.asrc = 0 && !held 3) || (t.bsrc = 0 && !held 4) || (t.adapt && !held 3) then some (stBANKS, c.addr.toNat)
  else
    match (s.rangesOk c.tid (k.operandA t c) (k.rangesA t c)).or (s.rangesOk c.tid (k.operandB t c) (k.rangesB t c)) with
    | some a => some (stRANGE, a)
    | none =>
      if t.adapt && !s.localOk c.tid 3 t.idoff (2 * t.m) then some (stRANGE, t.idoff)
      else if t.afmt = 4 && (k.operandA t c).first % 8 != 0 then some (stALIGN, (k.operandA t c).first)
      else if t.bfmt = 4 && (k.operandB t c).first % 8 != 0 then some (stALIGN, (k.operandB t c).first)
      else if t.atab % 16 != 0 then some (stALIGN, t.atab)
      else if t.cobj % 16 != 0 then some (stALIGN, t.cobj)
      else none

/-! ### Elements of operands (R299) -/

/-- A byte of an operand. -/
def State.operandByte (s : State) (tid : Nat) (o : Operand) (a : Nat) : Nat := leNat (s.localGet tid o.space (o.place a) 1)

/-- Stored element e of a row, dense element k giving its block. -/
def State.operandElem (s : State) (tid : Nat) (o : Operand) (f : Fmt) (stride swzl scale spare kAll row e k : Nat) : FVal :=
  let at_ := fun (i : Nat) => o.first + swz swzl (row * stride + i)
  let side := fun (off dflt : Nat) =>
    if off = noArray then dflt else s.operandByte tid o (o.base + off + row * (kAll / 16) + k / 16)
  let sc := side scale 127
  let sp := side spare 0x80
  match f with
  | .f4b =>
    let b := s.operandByte tid o (at_ (e / 2))
    f4bValue (if e % 2 = 1 then b / 16 else b % 16) sc sp
  | _ =>
    let n := f.bits / 8
    let x := leNat (s.localGet tid o.space (o.place (at_ (e * n))) n)
    (f.elem x 127 0x80).mul (scaleVal sc)

/-- Row i of A over a k-step. -/
def State.rowA (s : State) (core : Nat) (c : Cmd) (t : Task) (step i : Nat) : List FVal :=
  let o := (s.core core).operandA t c
  (List.range t.step).map fun k =>
    let e := step * t.step + k
    s.operandElem c.tid o (fmtOf t.afmt) t.astride t.aswz t.ascale t.aspare t.k i e e

/-- The two kept places of a group of four for a column, from a sparsity entry (R267). -/
def keptOf (entry : List Byte) (n g : Nat) : Nat × Nat :=
  let x := leNat ((entry.drop ((16 * n + g) / 2)).take 1)
  let f := if (16 * n + g) % 2 = 1 then x / 16 else x % 16
  (f % 4, f / 4)

/-- Column n of B over a k-step; a sparse one holds its kept elements and +0 elsewhere. -/
def State.colB (s : State) (core : Nat) (c : Cmd) (t : Task) (entry : List Byte) (step n : Nat) : List FVal :=
  let o := (s.core core).operandB t c
  let elem := fun (e k : Nat) => s.operandElem c.tid o (fmtOf t.bfmt) t.bstride t.bswz t.bscale t.bspare t.k n e k
  (List.range t.step).map fun i =>
    let k := step * t.step + i
    if !t.sparse then elem k k
    else
      let (p, q) := keptOf entry n (i / 4)
      let e := step * (t.step / 2) + 2 * (i / 4)
      if i % 4 = p then elem e k else if i % 4 = q then elem (e + 1) k else .fin false 0 0

/-- Some field of the entry has its first index not below its second. -/
def badEntry (t : Task) (entry : List Byte) : Bool :=
  (List.range t.n).any fun n => (List.range (t.step / 4)).any fun g => let (p, q) := keptOf entry n g; p ≥ q

/-! ### Accumulators (R264, R265) -/

def Core.accAt (k : Core) (slot i j : Nat) : Nat := (((tget (k.acc[slot]?.getD []) (128 * i + j)).map BitVec.toNat)).getD 0

def accPut (a : Tab (BitVec 40)) (i j v : Nat) : Tab (BitVec 40) :=
  if v = 0 then terase a (128 * i + j) else tset a (128 * i + j) (BitVec.ofNat 40 v)

def Core.setAcc (k : Core) (slot : Nat) (a : Tab (BitVec 40)) : Core := { k with acc := k.acc.setIfInBounds slot a }

def accNan (v : Nat) : Bool := acc40.value v == .nan

/-- The results of a k-step for every element: row, column, old value, new value, flags. -/
def State.kStep (s : State) (core : Nat) (c : Cmd) (t : Task) (nbv : Nat) (entry : List Byte) (step : Nat) :
    List (Nat × Nat × Nat × Nat × Nat) :=
  let k := s.core core
  let cols := (List.range t.n).map fun j => s.colB core c t entry step j
  (List.range t.m).flatMap fun i =>
    let row := s.rowA core c t step i
    (List.range t.n).map fun j =>
      let ps := (row.zip (cols[j]?.getD [])).map fun p => (p.1.mul p.2, p.1.isNan || p.2.isNan)
      let old := k.accAt t.slot i j
      let (v, fl) := acc40.kStep nbv old ps
      (i, j, old, v, fl)

/-- Results are written to the slot, their flags to the command; the first element that became NaN. -/
def State.putResults (s : State) (core id slot : Nat) (xs : List (Nat × Nat × Nat × Nat × Nat)) : Option (Nat × Nat) × State :=
  let a := xs.foldl (fun a x => accPut a x.1 x.2.1 x.2.2.2.1) ((s.core core).acc[slot]?.getD [])
  let fl := xs.foldl (fun f x => f ||| x.2.2.2.2) 0
  ((xs.find? fun x => accNan x.2.2.2.1 && !accNan x.2.2.1).map fun x => (x.1, x.2.1),
    (s.modCore core (·.setAcc slot a)).modCmd core id fun c => { c with flags := c.flags ||| fl })

/-- The NaN trap of a task is armed (R273, R298, R325, R326). -/
def State.nanArmed (s : State) (c : Cmd) (t : Task) : Bool :=
  !c.disarm && (t.trapNan || ((tget s.teams c.tid).map (·.desc.trapNan)).getD false)

/-- The task stops; its detail is that of the trap. -/
def State.nanStop (s : State) (core id step i j : Nat) (corr : Bool) : State :=
  s.modCmd core id fun c =>
    { c with state := .nanStop false, detail := w64 ((if corr then 2 ^ 63 else 0) + 2 ^ 16 * step + 2 ^ 8 * i + j) }

/-- The k-steps of a task from the one its command stands at. -/
def State.runSteps (s : State) (core id : Nat) (t : Task) (nbv : Nat) : Nat → ERes Unit
  | 0 => (s, .ok ())
  | n + 1 =>
    match (s.core core).cmd id with
    | none => (s, .ok ())
    | some c =>
      if c.elem ≥ t.ksteps then (s, .ok ())
      else
        let go := fun (s : State) (entry : List Byte) =>
          match s.putResults core id t.slot (s.kStep core c t nbv entry c.elem) with
          | (first, s) =>
            let s := s.modCmd core id fun c => { c with elem := c.elem + 1 }
            match if s.nanArmed c t then first else none with
            | some (i, j) => (s.nanStop core id c.elem i j false, .error (.wait (.nanStop false)))
            | none => s.runSteps core id t nbv n
        if !t.sparse then go s []
        else
          match (s.core core).sq[t.sqid]?.getD [] with
          | [] => (s.modCmd core id fun c => { c with flags := c.flags ||| flagSqstall }, .error (.wait .running))
          | e :: es =>
            let s := s.modCore core fun k => { k with sq := k.sq.setIfInBounds t.sqid es }
            if badEntry t e then efail s stFORMAT 0 else go s e

/-! ### Adapters of a task (R269, R270) -/

/-- The id of a row. -/
def State.rowId (s : State) (c : Cmd) (t : Task) (i : Nat) : Nat := leNat (s.localGet c.tid 3 (t.idoff + 2 * i) 2)

/-- Blocks of A_id a task needs. -/
def Task.blocks (t : Task) : Nat := if t.trans then (t.n - 1) / 256 + 1 else (t.k - 1) / 256 + 1

/-- The entry serves the task's shape. -/
def AdEntry.serves (e : AdEntry) (t : Task) : Bool := (if t.trans then t.k else t.n) ≤ e.width

/-- Every line a row needs is in the cache. -/
def Core.linesPresent (k : Core) (t : Task) (id : Nat) : Bool :=
  (k.adLine id t.layer 0 1).isSome && (List.range t.blocks).all fun b => (k.adLine id t.layer b 0).isSome

def State.linesA (s : State) (core : Nat) (c : Cmd) (e : AdEntry) (t : Task) (id b : Nat) : Nat → ERes (List (List Byte))
  | 0 => (s, .ok [])
  | n + 1 =>
    (s.adapterLine core c e id t.layer b 0 true).next fun x s =>
      (s.linesA core c e t id (b + 1) n).next fun xs s => (s, .ok (x :: xs))

/-- The correction of a row, its lines filled where they are missing; the first column that became NaN. -/
def State.correct (s : State) (core : Nat) (c : Cmd) (e : AdEntry) (t : Task) (i id : Nat) : ERes (Option Nat) :=
  (s.linesA core c e t id 0 t.blocks).next fun la s =>
    (s.adapterLine core c e id t.layer 0 1 true).next fun lb s =>
      let rows := (List.range t.ksteps).flatMap fun step => s.rowA core c t step i
      let x := fun (k : Nat) => rows[k]?.getD (.fin false 0 0)
      let ps := (List.range e.rank).map fun j => projection x (factor1 t.trans la lb e) t.step t.ksteps j
      let old := fun (n : Nat) => (s.core core).accAt t.slot i n
      let cs := correctRow (ps.map Prod.fst) (factor2 t.trans la lb e) e.alpha old t.n
      let fl := ps.foldl (fun f p => f ||| p.2) (roundingFlags (ps.map Prod.fst))
      let xs := (List.range t.n).map fun n => let (v, f) := cs[n]?.getD (0, 0); (i, n, old n, v, f ||| fl)
      let (first, s) := s.putResults core c.id t.slot xs
      (s, .ok (first.map Prod.snd))

/-- A row of a task: 0 for a row without correction; a bad entry leaves its row uncorrected and gives ADAPTER. With fill
false a row with a missing line stays pending. -/
def State.rowStep (s : State) (core id : Nat) (t : Task) (fill : Bool) (i : Nat) : ERes Unit :=
  match (s.core core).cmd id with
  | none => (s, .ok ())
  | some c =>
    let a := s.rowId c t i
    let off := fun (s : State) =>
      let s := s.modCmd core id fun c => { c with rows := c.rows.filter (· != i) }
      if c.rows.any fun j => j != i && s.rowId c t j == a then s else s.modCore core (·.unpin a)
    if a = 0 then (off s, .ok ())
    else
      (s.adapterEntry core c t.atab a).next fun e s =>
        match e.filter (·.serves t) with
        | none =>
          (off (s.modCmd core id fun c =>
            if c.status = 0 then { c with status := stADAPTER, detail := w64 (t.atab + 16 * a) } else c), .ok ())
        | some e =>
          if !fill && !(s.core core).linesPresent t a then
            (s.modCmd core id fun c => { c with flags := c.flags ||| flagReplay }, .ok ())
          else
            (s.correct core c e t i a).next fun first s =>
              match if s.nanArmed c t then first else none with
              | some j => ((off s).nanStop core id (t.ksteps - 1) i j true, .error (.wait (.nanStop false)))
              | none => (off s, .ok ())

/-- The first pass over rows: those whose lines are present are corrected, the others stay pending. -/
def State.rowsPass (s : State) (core id : Nat) (t : Task) : List Nat → ERes Unit
  | [] => (s, .ok ())
  | i :: is => (s.rowStep core id t false i).next fun _ s => s.rowsPass core id t is

/-! ### Drains (R266, R300, R301) -/

/-- Bytes of an element of an output format, and the shape format it matches. -/
def outBytes : Nat → Nat
  | 0 => 4 | 1 => 2 | 2 => 2 | 3 => 1 | 4 => 1 | 5 => 1 | _ => 4
def outShape : Nat → Nat
  | 5 => 6 | 6 => 8 | f => f

def drainKind (d : Nat) : Nat := bits d 1 0
def drainSlot (d : Nat) : Nat := bits d 4 4
def drainM (d : Nat) : Nat := if bits d 5 5 = 1 then 128 else 64
def drainN (d : Nat) : Nat := if bits d 6 6 = 1 then 128 else 64
def drainOrd (d : Nat) : Bool := bits d 7 7 == 1
def drainSeq (d : Nat) : Nat := bits d 11 8
def drainFmt (d : Nat) : Nat := bits d 15 12
def drainSpace (d : Nat) : Nat := if bits d 16 16 = 1 then 1 else 3
def drainSwz (d : Nat) : Nat := bits d 19 17
def drainArg1 (d : Nat) : Nat := bits d 127 64
def drainArg2 (d : Nat) : Nat := bits d 191 128
def drainCobj (d : Nat) : Nat := bits d 245 192

/-- Origin of a drain of kind 2 in its tensor. -/
def drainOrigin (d : Nat) : List Int :=
  [(BitVec.ofNat 32 (drainArg2 d)).toInt, (BitVec.ofNat 32 (drainArg2 d / 2 ^ 32)).toInt]

/-- A drain's field combinations (R300). -/
def drainOk (d : Nat) : Bool :=
  bits d 255 246 == 0 && bits d 63 20 == 0 && bits d 3 2 == 0 && drainFmt d ≤ 6 &&
    match drainKind d with
    | 1 => drainSwz d ≤ 3 && drainArg2 d == 0 && bits d 127 96 % 16 == 0 && drainN d * outBytes (drainFmt d) ≤ bits d 127 96
    | 2 => bits d 127 118 == 0
    | 3 => bits d 127 81 == 0 && bits d 79 75 == 0 && drainArg2 d == 0 && drainFmt d == 0
    | _ => false

/-- An element converted for output: code, flags (R25, R30, R31, R300). -/
def drainElem (f nbv : Nat) (cvm : Word) (u : Word) (v : Nat) : Nat × Nat :=
  let x := acc40.value v
  let nan := if x.isNan then flagNanin else 0
  let int := fun (mode : RMode) (w : Nat) =>
    let r := (x.toInt mode u).clamp (-(2 ^ (w - 1) : Nat)) ((2 ^ (w - 1) : Nat) - 1)
    let ov := match x, x.toInt mode u with | .fin _ _ _, .int i => i != r | _, _ => false
    let under := match x with | .fin _ m _ => m != 0 && r == 0 | _ => false
    ((BitVec.ofInt w r).toNat, nan ||| (if ov then flagOver else 0) ||| (if under then flagUnder else 0))
  let fl := fun (g : FFmt) (mode : RMode) (sat : Bool) =>
    let r := g.narrow mode sat u x
    let r' := if nbv = 0 then g.flush r else r
    (r', nan ||| g.narrowFlags mode u x ||| (if r' = r then 0 else flagUnder))
  match f with
  | 0 => fl fp32 .rne false
  | 1 => fl fp16 (cvmMode cvm cvmFp16) (cvmSat cvm cvmFp16)
  | 2 => fl bf16 (cvmMode cvm cvmBf16) (cvmSat cvm cvmBf16)
  | 3 => fl e4m3 (cvmMode cvm cvmE4m3) (cvmSat cvm cvmE4m3)
  | 4 => fl e5m2 (cvmMode cvm cvmE5m2) (cvmSat cvm cvmE5m2)
  | 5 => int (cvmMode cvm cvmI8) 8
  | _ => int .rne 32

/-- The rounding of an output format draws. -/
def drainDraws (f : Nat) (cvm : Word) : Bool :=
  match f with
  | 1 => cvmMode cvm cvmFp16 == .sr
  | 2 => cvmMode cvm cvmBf16 == .sr
  | 3 => cvmMode cvm cvmE4m3 == .sr
  | 4 => cvmMode cvm cvmE5m2 == .sr
  | 5 => cvmMode cvm cvmI8 == .sr
  | _ => false

/-- Where an element of a drain goes: local space, memory, or nowhere. -/
inductive DrainTo where
  | bank (sp a : Nat)
  | memory (va : Nat) (r : Shape) (origin : List Int)
  | dropped
deriving DecidableEq, Repr

/-- The place of element (i, j) of a drain of kind 1 or 2. -/
def drainPlace (d : Nat) (r : Shape) (i j : Nat) : DrainTo :=
  if drainKind d = 1 then
    .bank (drainSpace d) (bits d 95 64 + swz (drainSwz d) (i * bits d 127 96 + j * outBytes (drainFmt d)))
  else
    match r.place (drainOrigin d) (i * drainN d + j) with
    | some o => .memory (r.base + o) r (drainOrigin d)
    | none => .dropped

/-- Elements of a drain from one on, each converted with one draw where its format draws (R301); off is the command's
element number of the first. -/
def State.drainFrom (s : State) (core id d : Nat) (r : Shape) (nbv off e : Nat) : Nat → ERes Unit
  | 0 => (s, .ok ())
  | n + 1 =>
    match (s.core core).cmd id with
    | none => (s, .ok ())
    | some c =>
      let i := e / drainN d
      let j := e % drainN d
      let (u, rng) := if drainDraws (drainFmt d) c.cvm then (lcgOut (lcgStep c.lrng), lcgStep c.lrng) else (0, c.lrng)
      let (x, fl) := drainElem (drainFmt d) nbv c.cvm u ((s.core core).accAt (drainSlot d) i j)
      let bs := leBytes (outBytes (drainFmt d)) x
      let out : ERes Unit :=
        match drainPlace d r i j with
        | .bank sp a => (s.localPut c.tid sp a bs, .ok ())
        | .memory va r origin => s.engWrite core c (r.covers origin) va bs bs.length
        | .dropped => (s, .ok ())
      match out with
      | (s, .error x) => (s.modCmd core id fun c => { c with elem := off + e }, .error x)
      | (s, .ok _) =>
        (s.modCmd core id fun c => { c with lrng := rng, flags := c.flags ||| fl, dflags := c.dflags ||| fl }).drainFrom core id d r nbv off (e + 1) n

/-- The block of a task that has read it. -/
def Cmd.block (c : Cmd) : Nat := leNat (c.ops.flatMap fun w => leBytes 8 w.toNat)
def Cmd.task (c : Cmd) : Task := Task.parse c.block

/-- Bytes of the block or descriptor of a command. -/
def Cmd.blockSize (c : Cmd) : Nat := if c.major = 0x22 then 128 else 32

/-- A command's block or descriptor: as it has read it, or as it stands in memory now. -/
def State.peekBlock (s : State) (core : Nat) (c : Cmd) : Option Nat :=
  if !c.ops.isEmpty then some c.block
  else (s.peek (dieOf core) (s.teamAsid c.tid) c.addr.toNat c.blockSize).map leNat

/-- A matrix task or a drain. -/
def Cmd.onSlot (c : Cmd) : Bool := c.major == 0x22 || c.major == 0x23

/-- A tile to the same slot of another core, of a command issued earlier, has still to leave: additions of one source are made in
its issue order (R220). -/
def State.tileBehind (s : State) (core id d : Nat) : Bool :=
  ((s.core core).before id).any fun x =>
    x.onSlot && x.state != .sent && x.state != .done &&
      match s.peekBlock core x with
      | none => true
      | some b =>
        let e := if x.major = 0x23 then b else (Task.parse b).drain
        drainKind e == 3 && bits e 74 64 == bits d 74 64 && bits e 80 80 == bits d 80 80

/-- The tile leaves for the slot of another core, and the source slot has been read (R220, R265). -/
def State.sendTile (s : State) (core id d : Nat) (ord : Bool) (c : Cmd) : ERes Unit :=
  let target := bits d 74 64
  let slot := bits d 80 80
  let grid := (tget s.teams c.tid).map (·.handle)
  if !s.teams.any fun x => x.2.core == target && some x.2.handle == grid then efail s stRANGE target
  else
    let k := s.core target
    let seqs := k.rounds[slot]?.getD []
    if !ord && s.tileBehind core id d then (s, .error (.wait .running))
    else if ord && (drainSeq d > 11 || seqs.contains (drainSeq d)) then efail s stFORMAT (drainSeq d)
    else
      let tile := (List.range (drainM d)).flatMap fun i => (List.range (drainN d)).map fun j =>
        BitVec.ofNat 40 ((s.core core).accAt (drainSlot d) i j)
      let p : PartTile := ⟨slot, if ord then some (drainSeq d) else none, drainM d, drainN d, tile, core, id⟩
      (s.modCore target fun k =>
        { k with tiles := k.tiles ++ [p], rounds := if ord then k.rounds.setIfInBounds slot (seqs ++ [drainSeq d]) else k.rounds },
        .error (.wait .sent))

/-- A drain of the command from element e on; off is the element number at which its elements start. -/
def State.drainRun (s : State) (core : Nat) (c : Cmd) (d : Nat) (ord : Bool) (off : Nat) : ERes Unit :=
  let nbv := ((tget s.teams c.tid).map (·.desc.nbv)).getD 1
  let e := c.elem - off
  let total := drainM d * drainN d
  if !drainOk d then efail s stFORMAT c.addr.toNat
  else if drainCobj d % 16 != 0 then efail s stALIGN (drainCobj d)
  else if drainKind d = 1 then
    let sp := drainSpace d
    let n := swzExtent (drainSwz d) ((drainM d - 1) * bits d 127 96 + drainN d * outBytes (drainFmt d))
    if ((tget s.teams c.tid).map (·.allotBytes sp)).getD 0 = 0 then efail s stBANKS (bits d 95 64)
    else if !s.localOk c.tid sp (bits d 95 64) n then efail s stRANGE (bits d 95 64)
    else s.drainFrom core c.id d (Shape.parse 0) nbv off e (total - e)
  else if drainKind d = 2 then
    let va := bits d 117 64
    if va % 64 != 0 then efail s stALIGN va
    else
      (s.engRead core c va 64 64).next fun bs s =>
        let r := Shape.parse (leNat bs)
        match r.bad (leNat bs) with
        | some st => efail s st va
        | none =>
          if r.rank != 2 || r.boxAt 0 != drainN d || r.boxAt 1 != drainM d || r.fmt != outShape (drainFmt d) then
            efail s stFORMAT va
          else s.drainFrom core c.id d r nbv off e (total - e)
  else s.sendTile core c.id d ord c

/-! ### What a command writes and reads (R217, R235, R253) -/

/-- Destination bytes of a drain as far as they are fixed; not known where its shape record cannot be read. -/
def State.drainWrites (s : State) (core : Nat) (c : Cmd) (d : Nat) : List Own :=
  if drainKind d = 1 then
    s.localOwn c.tid (drainSpace d) (bits d 95 64)
      (swzExtent (drainSwz d) ((drainM d - 1) * bits d 127 96 + drainN d * outBytes (drainFmt d)))
  else if drainKind d = 2 then
    match s.peek (dieOf core) (s.teamAsid c.tid) (bits d 117 64) 64 with
    | none => s.unknownOwns c true
    | some bs =>
      let r := Shape.parse (leNat bs)
      if (r.bad (leNat bs)).isSome then []
      else (r.inside (drainOrigin d)).flatMap fun p => s.peekOwns (dieOf core) (s.teamAsid c.tid) p.1 p.2.2 2
  else []

def State.drainReads (s : State) (core : Nat) (c : Cmd) (d : Nat) : List Own :=
  if drainKind d = 2 then s.peekOwn (dieOf core) (s.teamAsid c.tid) (bits d 117 64) 64 else []

/-- The parts of X that a task with adapters keeps from STX until it completes (R270). -/
def State.taskKeeps (s : State) (core : Nat) (c : Cmd) (t : Task) : List Own :=
  if t.adapt && (t.asrc == 0 || (t.asrc == 2 && !c.slots.isEmpty)) then
    ((s.core core).rangesA t c).map fun x => ⟨7, c.tid, x.1, x.2⟩
  else []

/-- What the adapters of a task read, as its row ids and its table stand: ids, entries, lines (R268, R270). -/
def State.adapterReads (s : State) (core : Nat) (c : Cmd) (t : Task) : List Own :=
  if !t.adapt then []
  else
    let ids := (((List.range t.m).map (s.rowId c t)).filter (· != 0)).eraseDups
    let own := fun (va n : Nat) => s.peekOwns (dieOf core) (s.teamAsid c.tid) va n 3
    ⟨3, c.tid, t.idoff, 2 * t.m⟩ :: ids.flatMap fun i =>
      own (t.atab + 16 * i) 16 ++
        match (s.peek (dieOf core) (s.teamAsid c.tid) (t.atab + 16 * i) 16).bind fun bs => AdEntry.parse (leNat bs) with
        | none => []
        | some e =>
          ((0, 1) :: (List.range t.blocks).map fun b => (b, 0)).flatMap fun x => own (lineSource e x.1 x.2).1 (lineSource e x.1 x.2).2

/-- What a command owns from its acceptance on. -/
def State.cmdWrites (s : State) (core : Nat) (c : Cmd) : List Own :=
  match c.major with
  | 0x20 => s.copyWrites core c
  | 0x21 => s.copyWrites core c
  | 0x22 =>
    match s.peekBlock core c with
    | none => s.unknownOwns c true
    | some x => let t := Task.parse x; s.taskKeeps core c t ++ s.drainWrites core c t.drain
  | 0x23 =>
    match s.peekBlock core c with
    | none => s.unknownOwns c true
    | some d => s.drainWrites core c d
  | 0x25 => keyWrites c
  | _ => []

/-- What a command reads at fixed places, and in the ring slots that it has or would take now. -/
def State.cmdReads (s : State) (core : Nat) (c : Cmd) : List Own :=
  let record := fun (n : Nat) => if c.ops.isEmpty then s.peekOwn (dieOf core) (s.teamAsid c.tid) c.addr.toNat n else []
  match c.major with
  | 0x20 => s.copyReads core c
  | 0x21 => s.copyReads core c
  | 0x22 =>
    record 128 ++
      match s.peekBlock core c with
      | none => []
      | some x =>
        let t := Task.parse x
        let k := s.core core
        (k.rangesA t c).flatMap (fun r => s.localOwn c.tid (k.operandA t c).space r.1 r.2) ++
          (k.rangesB t c).flatMap (fun r => s.localOwn c.tid (k.operandB t c).space r.1 r.2) ++
          s.adapterReads core c t ++ s.drainReads core c t.drain
  | 0x23 =>
    record 32 ++
      match s.peekBlock core c with
      | none => []
      | some d => s.drainReads core c d
  | 0x25 => keyReads c
  | 0x26 => [⟨1, c.tid, c.addr.toNat, 8 * (c.ops[0]?.getD 0).toNat⟩]
  | 0x2D =>
    s.peekOwn (dieOf core) (s.teamAsid c.tid) (c.addr.toNat + 16 * bits (c.ops[0]?.getD 0).toNat 15 0) 16
  | _ => []

/-- An earlier command has still to write bytes that this one reads or writes (R217, R253). -/
def State.blocked (s : State) (core : Nat) (c : Cmd) : Bool := s.heldBack core c (s.cmdReads core c ++ s.cmdWrites core c)

/-- A command of the matrix engine or the drain with its block or descriptor read, and what it owns settled by it. -/
def State.blockRead (s : State) (core : Nat) (c : Cmd) : ERes Cmd :=
  if !c.ops.isEmpty then (s, .ok c)
  else
    (s.engRead core c c.addr.toNat c.blockSize c.blockSize).next fun bs s =>
      let ws := (List.range (c.blockSize / 8)).map fun i => w64 (leNat ((bs.drop (8 * i)).take 8))
      let cobj := if c.major = 0x22 then bits (leNat bs) 501 448 else drainCobj (leNat bs)
      let c := { c with ops := ws, cobj := w64 cobj }
      let c := { c with owns := s.cmdWrites core c }
      (s.modCmd core c.id fun x => { x with ops := c.ops, cobj := c.cobj, owns := c.owns }, .ok c)

/-- A DRAIN reads its descriptor and runs; its words stand in the command. -/
def State.drainStart (s : State) (core : Nat) (c : Cmd) : ERes Unit :=
  (s.blockRead core c).next fun c s =>
    if s.blocked core c then (s, .error (.wait .running))
    else s.drainRun core c c.block (drainOrd c.block || c.f7 % 2 == 1) 0

/-! ### A task from its start to its end -/

/-- The rings a task reads from. -/
def Task.rings (t : Task) : List Nat :=
  ((if t.asrc = 2 then [t.aoff] else []) ++ (if t.bsrc = 2 then [t.boff] else [])).eraseDups

/-- The task takes its slots, those it claimed among them, once each ring has them filled. -/
def Core.takeSlots (k : Core) (t : Task) (c : Cmd) : Option (List Nat × Core) :=
  if t.rings.any fun i => (k.ring i).f < k.firstSlot c i + c.slotCount i then none
  else
    some ([if t.asrc = 2 then k.firstSlot c t.aoff else 0, if t.bsrc = 2 then k.firstSlot c t.boff else 0],
      t.rings.foldl (fun k i => k.modRing i fun r =>
        { r with
          a := r.a + c.slotCount i
          claimed := if c.claims.any (·.1 == i) then r.claimed - c.slotCount i else r.claimed }) k)

/-- The rings a task still reads from after its last k-step: that of A, while rows with adapters are pending (R270). -/
def Task.ringsLater (t : Task) : List Nat := if t.adapt && t.asrc == 2 then [t.aoff] else []

/-- The task's last read of its slots of some rings is complete: they are freed (R262). -/
def State.readsDone (s : State) (core : Nat) (c : Cmd) (rings : List Nat) : State :=
  if c.slots.isEmpty then s
  else
    let rs := rings.filter fun i => !c.spent.contains i
    (s.modCore core fun k => rs.foldl (fun k i => k.modRing i fun r => { r with r := r.r + c.slotCount i }) k).modCmd
      core c.id fun x => { x with spent := x.spent ++ rs }

/-- The start of a task: its ring slots, its checks, its slot at +0 unless it continues, its rows. -/
def State.taskBegin (s : State) (core : Nat) (c : Cmd) : ERes Cmd :=
  if !c.slots.isEmpty then (s, .ok c)
  else
    let t := c.task
    let k := s.core core
    if !t.formatOk c.block || !k.ringSource c.tid t.asrc t.aoff 1 || !k.ringSource c.tid t.bsrc t.boff 0 then
      efail s stFORMAT c.addr.toNat
    else
      match k.takeSlots t c with
      | none => (s, .error (.wait .running))
      | some (slots, k) =>
        let f := fun (x : Cmd) => { x with slots := slots, claims := x.claims.filter fun y => !t.rings.contains y.1, rows := if t.adapt then List.range t.m else [] }
        let s := (s.setCore core k).modCmd core c.id f
        match s.taskCheck core (f c) c.block t with
        | some (st, a) => efail s st a
        | none =>
          let k := s.core core
          let bad := (s.firstBad c.tid (k.operandA t (f c)).space (k.rangesA t (f c))).or
            ((s.firstBad c.tid (k.operandB t (f c)).space (k.rangesB t (f c))).or
              (if t.adapt then s.firstBad c.tid 3 [(t.idoff, 2 * t.m)] else none))
          match bad with
          | some a => s.localError core (f c) a
          | none => ((if t.cont then s else s.modCore core (·.setAcc t.slot [])), .ok (f c))

/-- The task as far as it can run: its k-steps, the first pass of its rows, its drain. A task that was moved has all its rows
pending (R335). -/
def State.taskRun (s : State) (core : Nat) (c : Cmd) : ERes Unit :=
  (s.blockRead core c).next fun c s =>
    let begun : ERes Cmd := if c.slots.isEmpty && s.blocked core c then (s, .error (.wait .running)) else s.taskBegin core c
    begun.next fun c s =>
      let t := c.task
      let nbv := ((tget s.teams c.tid).map (·.desc.nbv)).getD 1
      (s.runSteps core c.id t nbv (t.ksteps + 1)).next fun _ s =>
        let first := ((s.core core).cmd c.id).any fun x => x.elem == t.ksteps
        let rows := (((s.core core).cmd c.id).map (·.rows)).getD []
        (if first && !c.replay then s.rowsPass core c.id t rows else (s, .ok ())).next fun _ s =>
          let s := if first then
              (s.readsDone core c (t.rings.filter fun i => !t.ringsLater.contains i)).modCmd core c.id fun x =>
                { x with elem := t.ksteps + 1 }
            else s
          match (s.core core).cmd c.id with
          | none => (s, .ok ())
          | some c =>
            if !c.rows.isEmpty then (s, .error (.wait .running))
            else
              let s := s.readsDone core c t.rings
              if drainKind t.drain = 0 then (s, .ok ())
              else s.drainRun core c t.drain (drainOrd t.drain) (t.ksteps + 1)

end Sys2Proof.Machine
end

