-- ==== Sys2Proof/Machine/EngineIssue.lean ====
section
/-! DEFINITION. The instructions that hand commands to the engines (R253, R289-R306) and those of lane rings (R297). -/

namespace Sys2Proof.Machine

/-! ### The checks of R290 -/

/-- Checks 1 and 2 over address operands with their alignments: all for bits 63:54 first, then all for alignment. -/
def engineAddresses (xs : List (DWord × Nat)) : Option Halt :=
  match xs.find? (fun x : DWord × Nat => decide ((x.1 >>> 54 : DWord) ≠ 0)) with
  | some x => some (.trap 0x16 x.1 0)
  | none =>
    match xs.find? (fun x : DWord × Nat => x.1.toNat % x.2 != 0) with
    | some x => some (.trap 0x17 x.1 (w64 x.2))
    | none => none

/-- The trap of check 3 on an operand. -/
def badCommand (x : DWord) : Halt := .trap 0x18 x 3

/-- The control register and the local side of a TCOPY or TCOPYM are in their tables (R292). -/
def copyControlOk (k : Core) (tid major : Nat) (ops : List DWord) : Bool :=
  let x := (ops[3]?.getD 0).toNat
  let kind := copyKind ops
  bits x 63 24 == 0 && bits x 7 5 == 0 && kind ≤ 5 &&
    !(copyOut ops && (kind == 2 || kind == 4 || kind == 5)) &&
    (kind ≥ 4 || copyId ops == 0) && (kind < 4 || copyLocal ops == 0) &&
    (kind != 5 || copyId ops ≤ 3) && (kind != 4 || (k.ring (copyId ops)).ofTeam tid) &&
    if major = 0x20 then copyMask ops == 0
    else copyMask ops != 0 && !copyOut ops && kind != 3 && kind != 5

/-! ### Acceptance (R253, R290) -/

/-- The command takes an entry of the dependency table. -/
def Cmd.tabled (c : Cmd) : Bool := c.seq || c.major == 0x22 || c.major == 0x23

/-- A command of the group's elected lane, without a number and without what it owns. -/
def newCmd (g : Group) (c : Issue) (major f7 : Nat) (addr cobj : DWord) (ops : List DWord) (inputs : DWord) (seq : Bool) :
    Cmd where
  id := 0
  tid := g.tid
  gkey := c.gkey
  major := major
  f7 := f7
  addr := addr
  cobj := cobj
  ops := ops
  cvm := g.cvm
  lrng := match g.elected c.lanes with
    | some p => (g.lane p).lrng
    | none => 0
  inputs := inputs
  seq := seq
  state := .queued
  status := 0
  flags := 0
  dflags := 0
  detail := 0
  slots := []
  order := 0
  claims := []
  spent := []
  noted := false
  orphan := false
  gbase := g.gbase
  elem := 0
  rows := []
  replay := false
  disarm := false
  owns := []
  got := []

/-- The path the command takes is full. -/
def Core.pathFull (k : Core) (x : Cmd) : Bool := if x.tabled then 32 ≤ k.dt.length else 32 ≤ k.vq.length

/-- The command joins its path as the newest. -/
def State.enterCmd (s : State) (core : Nat) (x : Cmd) : State :=
  let x := { x with id := s.nextId, order := s.nextId, owns := s.cmdWrites core x }
  let s := { s with nextId := s.nextId + 1 }
  let s := s.modCore core fun k => if x.tabled then { k with dt := k.dt ++ [x] } else { k with vq := k.vq ++ [x] }
  if x.major = 0x22 || x.major = 0x23 then s.modTeam x.tid fun t => { t with matrix := true } else s

/-- A command that passed its checks: the group stalls while its path is full; acceptance is a release at .pkg. -/
def State.accept (s : State) (c : Issue) (x : Cmd) : Res :=
  let core := coreOf c.gkey
  if (s.core core).pathFull x then .error .hold
  else released (s.release c.gkey c.lanes 4) fun s => .ok ((s.enterCmd core x).advance c)

/-- An engine command: its address operands, its control check with the operand named, the command. -/
def engineUnit (s : State) (addrs : UFile → List (DWord × Nat)) (control : Issue → Group → Option DWord)
    (f : Issue → Group → Cmd) : Out :=
  closingUnit 0 s fun c g =>
    match engineAddresses (addrs g.u) with
    | some h => .error h
    | none =>
      match control c g with
      | some x => .error (badCommand x)
      | none => s.accept c (f c g)

/-! ### Copies (R292-R294) -/

/-- The four operand registers from a first one. -/
def UFile.four (u : UFile) (b : Nat) : List DWord := (List.range 4).map fun i => u.reg (b + i)

def copyUnit (major : Nat) (a : USrc) (b : Nat) (cobj : USrc) (s : State) : Out :=
  engineUnit s (fun u => [(a.get u, 64), (cobj.get u, 16)])
    (fun c g =>
      if copyControlOk (s.core (coreOf c.gkey)) g.tid major (g.u.four b) then none else some (g.u.reg (b + 3)))
    fun c g => newCmd g c major 0 (a.get g.u) (cobj.get g.u) (g.u.four b) 0 false

def execTcopy (a : USrc) (b : Nat) (c : USrc) (s : State) : Out := copyUnit 0x20 a b c s

def execTcopym (a : USrc) (b : Nat) (c : USrc) (s : State) : Out := copyUnit 0x21 a b c s

/-! ### Matrix tasks and drains (R298, R301) -/

def execMtask (a : USrc) (s : State) : Out :=
  engineUnit s (fun u => [(a.get u, 128)]) (fun _ _ => none) fun c g => newCmd g c 0x22 0 (a.get g.u) 0 [] 0 false

def execDrain (a : USrc) (ord : Bool) (s : State) : Out :=
  engineUnit s (fun u => [(a.get u, 32)]) (fun _ _ => none) fun c g =>
    newCmd g c 0x23 (if ord then 1 else 0) (a.get g.u) 0 [] 0 false

/-! ### Keyed operations (R80, R304) -/

/-- The f7 of a keyed operation. -/
def keyF7 (op : Nat) (dup k16 : Bool) : Nat := op + (if dup then 8 else 0) + if k16 then 16 else 0

def keyUnit (f7 a : Nat) (b cobj : USrc) (s : State) : Out :=
  engineUnit s (fun u => [(cobj.get u, 16)]) (fun _ _ => none) fun c g =>
    newCmd g c 0x25 f7 0 (cobj.get g.u) [g.u.reg a, g.u.reg (a + 1), g.u.reg (a + 2), b.get g.u] 0 false

def execKeySort (a : Nat) (b c : USrc) (k16 : Bool) (s : State) : Out := keyUnit (keyF7 0 false k16) a b c s

def execKeyMerge (a : Nat) (b c : USrc) (k16 dup : Bool) (s : State) : Out := keyUnit (keyF7 1 dup k16) a b c s

def execKeyTopk (a : Nat) (b c : USrc) (s : State) : Out := keyUnit (keyF7 2 false false) a b c s

def execKeyOffs (a : Nat) (b c : USrc) (s : State) : Out := keyUnit (keyF7 3 false false) a b c s

def execKeyCheck (a : Nat) (b c : USrc) (s : State) : Out := keyUnit (keyF7 4 false false) a b c s

/-! ### Translation and adapters (R305, R306) -/

def execXlatb (a b c : USrc) (s : State) : Out :=
  engineUnit s (fun u => [(c.get u, 16)]) (fun _ _ => none) fun i g =>
    newCmd g i 0x26 0 (a.get g.u) (c.get g.u) [b.get g.u] 0 false

def execAdpf (a b c : USrc) (s : State) : Out :=
  engineUnit s (fun u => [(a.get u, 16), (c.get u, 16)])
    (fun _ g => if bits (b.get g.u).toNat 63 59 = 0 then none else some (b.get g.u))
    fun i g => newCmd g i 0x2D 0 (a.get g.u) (c.get g.u) [b.get g.u] 0 false

/-! ### Sequenced tasks (R302, R303) -/

/-- The major that a record's kind submits. -/
def seqMajor : Nat → Nat
  | 0 => 0x22 | 1 => 0x23 | 2 => 0x20 | 3 => 0x21 | _ => 0x25

/-- The f7 values that a major assigns (R80, R289). -/
def seqF7Ok (major f7 : Nat) : Bool :=
  if major = 0x23 then f7 ≤ 1
  else if major = 0x25 then [0x00, 0x10, 0x01, 0x09, 0x11, 0x19, 0x02, 0x03, 0x04].contains f7
  else f7 == 0

/-- An input field names an enabled matrix-reader ring of the team with a count of 1 to 64. -/
def Core.inputOk (k : Core) (tid : Nat) (inputs i : Nat) : Bool :=
  let x := bits inputs (16 * i + 15) (16 * i)
  bits x 15 12 == 0 &&
    (bits x 11 11 == 0 ||
      (1 ≤ bits x 10 4 && bits x 10 4 ≤ 64 && (k.ring (bits x 3 0)).ofTeam tid && (k.ring (bits x 3 0)).matrix))

/-- The fields of a task record are in their table. -/
def Core.taskRecordOk (k : Core) (tid r : Nat) : Bool :=
  let major := seqMajor (bits r 66 64)
  bits r 66 64 ≤ 4 && bits r 127 74 == 0 && (List.range 4).all (k.inputOk tid (bits r 63 0)) &&
    seqF7Ok major (bits r 73 67) && (bits r 66 64 ≥ 2 || bits r 255 192 == 0) && (bits r 66 64 != 4 || bits r 191 128 == 0)

/-- The address operands of a record's command. -/
def seqAddresses (r : Nat) : List (DWord × Nat) :=
  let a := w64 (bits r 191 128)
  let o := w64 (bits r 255 192)
  match bits r 66 64 with
  | 0 => [(a, 128)]
  | 1 => [(a, 32)]
  | 4 => [(o, 16)]
  | _ => [(a, 64), (o, 16)]

/-- The command of a record. -/
def seqCmd (g : Group) (c : Issue) (r : Nat) : Cmd :=
  let ops := if bits r 66 64 ≤ 1 then [] else (List.range 4).map fun i => w64 (bits r (256 + 64 * i + 63) (256 + 64 * i))
  newCmd g c (seqMajor (bits r 66 64)) (bits r 73 67) (w64 (bits r 191 128)) (w64 (bits r 255 192)) ops (w64 (bits r 63 0)) true

def execSeq (a : USrc) (s : State) : Out :=
  closingUnit 0 s fun c g =>
    let va := a.get g.u
    match engineAddresses [(va, 64)] with
    | some h => .error h
    | none =>
      match s.uniformLoad c g va.toNat 64 with
      | .error h => .error h
      | .ok (none, s) => .ok s
      | .ok (some bs, s) =>
        let r := leNat bs
        let k := s.core (coreOf c.gkey)
        if !k.taskRecordOk g.tid r then .error (badCommand va)
        else
          match engineAddresses (seqAddresses r) with
          | some h => .error h
          | none =>
            let x := seqCmd g c r
            if (x.major = 0x20 || x.major = 0x21) && !copyControlOk k g.tid x.major x.ops then
              .error (badCommand (x.ops[3]?.getD 0))
            else s.accept c x

/-! ### Lane rings (R297) -/

/-- A ring operand names a lane-reader ring that the team has enabled. -/
def Core.laneRing (k : Core) (tid : Nat) (x : DWord) : Bool :=
  x >>> 4 == 0 && (k.ring x.toNat).ofTeam tid && !(k.ring x.toNat).matrix

def execRingAcq (d : UDst) (b : USrc) (s : State) : Out :=
  closingUnit 0 s fun c g =>
    let x := b.get g.u
    let core := coreOf c.gkey
    let r := (s.core core).ring x.toNat
    if !(s.core core).laneRing g.tid x then .error (badCommand x)
    else if r.a = r.f then .ok (s.parkAll c.gkey c.lanes (.ringAcq x.toNat))
    else
      let s := s.modCore core fun k => k.modRing x.toNat fun r => { r with a := r.a + 1 }
      let s := s.modGroup c.gkey fun g => { g with u := d.put false (w64 (r.slotBase r.a)) g.u }
      .ok ((s.acquire c.gkey 1).advance c)

def execRingRel (a : USrc) (s : State) : Out :=
  closingUnit 0 s fun c g =>
    let x := a.get g.u
    let core := coreOf c.gkey
    let r := (s.core core).ring x.toNat
    if !(s.core core).laneRing g.tid x || r.r = r.a then .error (badCommand x)
    else
      released (s.release c.gkey c.lanes 1) fun s =>
        .ok ((s.modCore core fun k => k.modRing x.toNat fun r => { r with r := r.r + 1 }).advance c)

end Sys2Proof.Machine
end

