-- ==== Sys2Proof/Machine/EngineEvents.lean ====
section
/-! DEFINITION. What the engines do beside the seats: the start of commands (R253), the issue of tasks (R263), the matrix
engine (R264-R270), the NaN trap (R273), additions at a slot (R220, R301), the end of commands (R254-R256). Each event has a
test that says when it is due; one that is not due changes nothing. -/

namespace Sys2Proof.Machine

/-! ### The start of a command (R253) -/

/-- The unit that runs a major: 0 copy engine, 1 keyed unit, 2 batch translation, 3 adapter fill, 4 drain, 5 matrix. -/
def engineOf : Nat → Nat
  | 0x20 => 0 | 0x21 => 0 | 0x25 => 1 | 0x26 => 2 | 0x2D => 3 | 0x23 => 4 | _ => 5

/-- Commands a unit runs at once. -/
def engineRoom (u : Nat) : Nat := if u = 0 then 8 else 1

/-- The command may be taken by its unit: it is in the vertical queue, or the dependency table has issued it. -/
def Cmd.offered (c : Cmd) : Bool := c.state == if c.tabled then .issued else .queued

/-- A unit has taken the command and not finished it. -/
def Cmd.inService (c : Cmd) : Bool :=
  match c.state with
  | .queued => false
  | .issued => false
  | .done => false
  | .sent => false
  | _ => true

/-- The unit has a place for the command, counting those that arrived earlier and wait for theirs (R253). -/
def Core.place (k : Core) (c : Cmd) : Bool :=
  let u := engineOf c.major
  let ahead := k.cmds.filter fun x =>
    x.id != c.id && engineOf x.major == u && (x.inService || (x.offered && x.order < c.order))
  ahead.length < engineRoom u

/-- The slots of a core that a command names (R263, R265); all while its block is not known. -/
def State.cmdSlots (s : State) (core : Nat) (c : Cmd) : List Nat :=
  if !c.onSlot then []
  else
    match s.peekBlock core c with
    | none => [0, 1]
    | some x =>
      if c.major = 0x23 then [drainSlot x]
      else let t := Task.parse x; t.slot :: if drainKind t.drain = 0 then [] else [drainSlot t.drain]

/-- An earlier task on a slot of the command has not finished, or an earlier drain of it has not finished reading it (R265). -/
def State.slotBusy (s : State) (core : Nat) (c : Cmd) (major : Nat) : Bool :=
  ((s.core core).before c.id).any fun x =>
    x.major == major && x.state != .done && x.state != .sent && (s.cmdSlots core x).any (s.cmdSlots core c).contains

/-- The command goes on after a peer's answer, or after an earlier command's write. -/
def State.resumable (s : State) (core : Nat) (c : Cmd) : Bool :=
  c.state == .running && !s.cmdAsks c.id && !s.blocked core c &&
    !((c.major == 0x20 || c.major == 0x21) && copyKind c.ops ≥ 4 && c.ops.length > 4)

/-! ### Records read ahead (R217) -/

/-- A command that has not started reads its record, block or descriptor, where what it owns depends on it and could not be
known at its issue. -/
def State.recordDue (s : State) (core : Nat) (c : Cmd) : Bool :=
  c.isUnknown && (c.state == .queued || c.state == .issued) && !s.cmdAsks c.id &&
    !(s.die (dieOf core)).faults.any fun f => f.1 == s.teamAsid c.tid

def State.readRecord (s : State) (core : Nat) (c : Cmd) : State :=
  let r := if c.onSlot then s.blockRead core c else s.copyRecord core c
  match r with
  | (s, .ok _) => s.modCmd core c.id fun x => { x with owns := s.cmdWrites core x }
  | (s, .error (.fail _ _)) => s.modCmd core c.id fun x => { x with owns := [] }
  | (s, .error (.wait _)) => s

def State.commandStartDue (s : State) (core : Nat) (c : Cmd) : Bool :=
  c.major != 0x22 &&
    (s.resumable core c ||
      (c.offered && (s.core core).place c && !s.blocked core c && !(c.major == 0x23 && s.slotBusy core c 0x22)))

/-- A command runs as far as it can. -/
def State.commandRun (s : State) (core : Nat) (c : Cmd) : ERes Unit :=
  match engineOf c.major with
  | 0 => s.copyStart core c
  | 1 => s.keyStart core c
  | 2 => s.xlatbStart core c
  | 3 => s.adpfStart core c
  | _ => s.drainStart core c

/-- What a run leaves is settled in its command. -/
def State.settleRun (core id : Nat) (x : ERes Unit) : State := x.1.settleCmd core id x.2

/-- ENGINE_COMMAND_START: the command runs, or reads its record ahead. -/
def execEngineCommandStart (core id : Nat) (s : State) : Out :=
  match (s.core core).cmd id with
  | none => .next s
  | some c =>
    .next (if s.commandStartDue core c then
        State.settleRun core id ((s.modCmd core id fun c => { c with state := .running }).commandRun core c)
      else if s.recordDue core c then s.readRecord core c else s)

/-! ### The issue of tasks (R263, R301) -/

def Core.unissued (k : Core) : List Cmd := k.dt.filter (·.state == .queued)

/-- Every input ring has the declared slots filled beyond those claimed. -/
def Core.inputsFilled (k : Core) (c : Cmd) : Bool :=
  let xs := taskInputs c.inputs
  xs.all fun x =>
    let r := k.ring x.1
    r.a + r.claimed + (xs.foldl (fun n y => if y.1 = x.1 then n + y.2 else n) 0) ≤ r.f

/-- The slots whose ordered round the command ends (R301). -/
def State.roundEnds (s : State) (core : Nat) (c : Cmd) : List Nat :=
  if c.major = 0x22 then
    match s.peekBlock core c with
    | none => []
    | some x =>
      let t := Task.parse x
      (if t.cont then [] else [t.slot]) ++ if drainKind t.drain = 0 then [] else [drainSlot t.drain]
  else s.cmdSlots core c

/-- A task is ready (R263); one whose block is not known yet, or behind one whose own is not, is not. -/
def State.taskReady (s : State) (core : Nat) (c : Cmd) : Bool :=
  let k := s.core core
  let older := (k.before c.id).filter (·.state == .queued)
  k.inputsFilled c && !(c.onSlot && (s.peekBlock core c).isNone) &&
    !(older.any fun x =>
      x.isUnknown || (s.cmdSlots core x).any (s.cmdSlots core c).contains ||
        s.clashes core (s.cmdWrites core x) (s.cmdReads core c) || s.clashes core (s.cmdWrites core c) (s.cmdReads core x)) &&
    !(k.tiles.any fun t => t.ord.isSome && (s.roundEnds core c).contains t.slot)

/-- The oldest ready task. -/
def State.nextTask (s : State) (core : Nat) : Option Cmd := (s.core core).unissued.find? (s.taskReady core)

/-- TASK_ISSUE: the task claims its slots and stands behind those issued before it; rounds it ends begin again. -/
def execTaskIssue (core : Nat) (s : State) : Out :=
  match s.nextTask core with
  | none => .next s
  | some c =>
    let ends := s.roundEnds core c
    let order := s.nextId
    let s := { s with nextId := order + 1 }
    .next (s.modCore core fun k =>
      let (k, claims) := k.claim c
      { k with
        dt := (k.dt.filter fun x => x.state != .queued) ++ [{ c with state := .issued, claims := claims, order := order }] ++
          k.dt.filter fun x => x.state == .queued && x.id != c.id
        rounds := Vector.ofFn fun i => if ends.contains i.val then [] else k.rounds[i] })

/-! ### The matrix engine (R264, R265) -/

/-- The task the engine is at: the first issued and not finished. -/
def Core.currentTask (k : Core) : Option Cmd :=
  k.dt.find? fun x => x.major == 0x22 && x.state != .queued && x.state != .done && x.state != .sent

/-- The engine can go on with its task: nothing it waits for is missing. -/
def State.taskMoves (s : State) (core : Nat) (c : Cmd) : Bool :=
  let k := s.core core
  if c.ops.isEmpty then true
  else
    let t := c.task
    if c.slots.isEmpty then
      !t.formatOk c.block || (k.takeSlots t c).isSome || t.rings.any fun i => !(k.ring i).ofTeam c.tid
    else if c.elem < t.ksteps then
      !t.sparse || !(k.sq[t.sqid]?.getD []).isEmpty || c.flags &&& flagSqstall = 0
    else c.elem = t.ksteps || c.rows.isEmpty

def State.taskDue (s : State) (core : Nat) (c : Cmd) : Bool :=
  (c.state == .issued && !s.blocked core c && !s.slotBusy core c 0x23 && s.taskMoves core c) ||
    (c.state == .running && !s.cmdAsks c.id && (!c.slots.isEmpty || !s.blocked core c) && s.taskMoves core c)

def State.matrixTaskDue (s : State) (core : Nat) : Bool :=
  match (s.core core).currentTask with
  | none => false
  | some c => s.taskDue core c

/-- MATRIX_TASK_END: the task runs on, to its end where nothing holds it. Its ring bytes of X stay kept while rows with
adapters are pending (R270). -/
def execMatrixTaskEnd (core : Nat) (s : State) : Out :=
  match (s.core core).currentTask with
  | none => .next s
  | some c =>
    if !s.taskDue core c then .next s
    else
      let s := State.settleRun core c.id ((s.modCmd core c.id fun c => { c with state := .running }).taskRun core c)
      match (s.core core).cmd c.id with
      | none => .next s
      | some c =>
        if c.inService && !c.slots.isEmpty && c.task.asrc == 2 then
          .next (s.modCmd core c.id fun x => { x with owns := (x.owns ++ s.taskKeeps core c c.task).eraseDups })
        else .next s

/-- The task whose pending rows wait for lines (R270). -/
def State.pendingTask (s : State) (core : Nat) : Option Cmd :=
  match (s.core core).currentTask with
  | none => none
  | some c =>
    if c.state == .running && !c.slots.isEmpty && c.elem > c.task.ksteps && !c.rows.isEmpty && !s.cmdAsks c.id then some c
    else none

/-- ADAPTER_LINE_FILL: the lines of the lowest pending row are filled and the row is replayed. -/
def execAdapterLineFill (core : Nat) (s : State) : Out :=
  match s.pendingTask core with
  | none => .next s
  | some c =>
    match c.rows with
    | [] => .next s
    | i :: _ =>
      match s.rowStep core c.id c.task true i with
      | (s, .ok _) => .next s
      | (s, .error e) => .next (s.settleCmd core c.id (.error e))

/-! ### The NaN trap (R273, R326) -/

/-- The unit boundary at which a group is stopped: the lowest address of a runnable lane. -/
def Group.boundary (g : Group) : DWord :=
  match positions (g.where Lane.runnable) with
  | [] => (g.lane 0).vpc
  | p :: ps => ps.foldl (fun a q => if (g.lane q).vpc < a then (g.lane q).vpc else a) (g.lane p).vpc

/-- A task stopped by a NaN whose group can take the trap now. -/
def State.nanTask (s : State) (core : Nat) : Option Cmd :=
  match (s.core core).currentTask with
  | none => none
  | some c =>
    if c.state != .nanStop false then none
    else
      match if c.orphan then none else tget s.groups c.gkey with
      | none => some c
      | some g => if g.stop.isNone then some c else none

/-- MATRIX_NAN_TRAP: the issuing group stops at its next unit boundary. A task whose group has ended goes on, disarmed. -/
def execMatrixNanTrap (core : Nat) (s : State) : Out :=
  match s.nanTask core with
  | none => .next s
  | some c =>
    match if c.orphan then none else tget s.groups c.gkey with
    | none => .next (s.modCmd core c.id fun c => { c with state := .running, disarm := true })
    | some g =>
      .next ((s.trapGroup c.gkey g.boundary 0xFFFFFFFF#32 0xFFFFFFFF#32 0x28 c.addr c.detail).modCmd core c.id fun c =>
        { c with state := .nanStop true })

/-- The stopped tasks of a resumed group go on, disarmed (R326). -/
def State.resumeTasks (s : State) (gkey : Nat) : State :=
  s.modCore (coreOf gkey) fun k =>
    { k with dt := k.dt.map fun c =>
        if c.gkey = gkey && !c.orphan && c.state == .nanStop true then { c with state := .running, disarm := true, detail := 0 } else c }

/-! ### Additions at a slot (R220, R266, R301) -/

/-- A tile may be added now. -/
def Core.addable (k : Core) (t : PartTile) : Bool :=
  match t.ord with
  | none => true
  | some q =>
    (List.range q).all fun j =>
      (k.rounds[t.slot]?.getD []).contains j && !k.tiles.any fun x => x.slot == t.slot && x.ord == some j

/-- One acc40 addition with RNE per element; neither the values sent nor the sums are flushed, whatever `nbv` (R31; log entry 30). -/
def Core.addTile (k : Core) (t : PartTile) : Core :=
  let xs := (List.range t.m).flatMap fun i => (List.range t.n).map fun j => (i, j)
  (xs.zip t.tile).foldl (fun k x =>
    let v := acc40.rne (FVal.add (acc40.value (k.accAt t.slot x.1.1 x.1.2)) (acc40.value x.2.toNat))
    k.setAcc t.slot (accPut (k.acc[t.slot]?.getD []) x.1.1 x.1.2 v)) k

/-- DRAIN_ADDITION: the first tile that may be added is; its drain has then finished. -/
def execDrainAddition (core : Nat) (s : State) : Out :=
  let k := s.core core
  match k.tiles.find? k.addable with
  | none => .next s
  | some t =>
    .next ((s.setCore core { k.addTile t with tiles := k.tiles.erase t }).settleCmd t.src t.cmd (.ok ()))

/-! ### The end of a command (R254-R256) -/

/-- The completion objects still to be updated, each with its status and flags: the command's, then that of the drain in a
task's block. The drain's object gets the flags of the drain alone, and not the task's adapter note (DEDUCED). -/
def Cmd.objects (c : Cmd) : List (Nat × Nat × Nat) :=
  (if c.cobj = 0 then [] else [(c.cobj.toNat, c.status, c.flags)]) ++
    if c.major = 0x22 && !c.ops.isEmpty && drainKind c.task.drain != 0 && drainCobj c.task.drain != 0 then
      [(drainCobj c.task.drain, if c.status = stADAPTER then 0 else c.status, c.dflags)]
    else []

/-- A command ended with its team before it read the block or descriptor that names its objects (R254, R337). -/
def Cmd.objectsUnread (c : Cmd) : Bool := c.onSlot && c.ops.isEmpty && c.status == stABORTED

/-- Its block is read for them; one that cannot be read names none. -/
def State.readObjects (s : State) (core : Nat) (c : Cmd) : State :=
  match s.blockRead core c with
  | (s, .ok _) => s.modCmd core c.id fun x => { x with owns := [] }
  | (s, .error (.fail _ _)) => s.modCmd core c.id fun x => { x with ops := [0] }
  | (s, .error (.wait _)) => s

/-- A finished command may be completed: every peer has answered it, and its next object has no fault outstanding and is not
owned by an earlier command (R202, R217, R363). -/
def State.completeDue (s : State) (core : Nat) (c : Cmd) : Bool :=
  c.state == .done && !s.cmdUnanswered c.id &&
    match c.objects with
    | [] =>
      !c.objectsUnread || !(s.die (dieOf core)).faults.contains (s.teamAsid c.tid, c.addr.toNat / 65536, Acc.engRead.code)
    | o :: _ =>
      !(s.die (dieOf core)).faults.contains (s.teamAsid c.tid, o.1 / 65536, Acc.engWrite.code) &&
        !s.heldBack core c (s.peekOwn (dieOf core) (s.teamAsid c.tid) o.1 16)

/-- The object lies in a cell that is not VALUE. -/
def State.inCell (s : State) (core : Nat) (c : Cmd) (va : Nat) : Bool :=
  match s.engTranslate core c va .engWrite with
  | (.to (.here pa tagged), _) => tagged && s.tag pa != tagValue
  | _ => false

/-- One object is updated; a misaligned one has no update, and one in a cell that is not VALUE ends the command with CELL
(R231, log entry 21). -/
def State.cmdObject (s : State) (core : Nat) (c : Cmd) (o : Nat × Nat × Nat) : Bool × State :=
  if o.1 % 16 != 0 then (true, s)
  else if s.inCell core c o.1 then
    (true, if c.status = 0 then s.recordFailure core { c with status := stCELL, detail := w64 o.1, noted := false } else s)
  else s.coreComplete core (s.teamAsid c.tid) o.1 o.2.1 o.2.2 (s.cmdEvent core c (Event.plain 1))

/-- The command leaves its path; slots that it still holds or had claimed are freed. -/
def State.freeCmd (s : State) (core : Nat) (c : Cmd) : State :=
  ((if c.major = 0x22 then s.readsDone core c c.task.rings else s).modCore core (·.freeClaims c)).modCore core (·.removeCmd c)

/-- COMMAND_COMPLETE: efaddr, then the objects, then the entry is free. A faulting page leaves the command as it is, with
the objects still to be updated. -/
def State.completeCmd (s : State) (core : Nat) (c : Cmd) : State :=
  let s := s.recordFailure core c
  match c.objects with
  | [] => s.freeCmd core c
  | o :: rest =>
    match s.cmdObject core c o with
    | (false, s) => s
    | (true, s) =>
      match rest with
      | [] => s.freeCmd core c
      | o' :: _ =>
        match (s.modCmd core c.id fun x => { x with cobj := 0 }).cmdObject core c o' with
        | (false, s) => s
        | (true, s) => s.freeCmd core c

def execCommandComplete (core id : Nat) (s : State) : Out :=
  match (s.core core).cmd id with
  | none => .next s
  | some c =>
    .next (if !s.completeDue core c then s else if c.objectsUnread then s.readObjects core c else s.completeCmd core c)

end Sys2Proof.Machine
end

