-- ==== Sys2Proof/Machine/NodeIssue.lean ====
section
/-! DEFINITION. RPUSH (R280, R281, R287, R307, R308), NLAUNCH (R309), NSIGNAL (R310) and NQSTAT (R311). -/

namespace Sys2Proof.Machine

/-! ### RPUSH (R307, R308) -/

/-- The record a lane forms from eight registers (R307): its words, and the bits that must be zero. -/
def Lane.record (l : Lane) (d : Nat) : List Word × Nat :=
  ((List.range 8).map fun i => if i = 2 then l.reg (d + 2) &&& 0x3FFFF#32 else l.reg (d + i), bits (l.reg (d + 2)).toNat 31 18)

/-- Records go to a queue: the store takes them while it has room and none of the queue's waits in the slipway, else the
slipway (R287). False leaves the state as it was, but for an event. -/
def State.takeRecords (s : State) (die q : Nat) : List (List Word) → Bool × State
  | [] => (true, s)
  | r :: rs =>
    let slipped := (s.die die).slip.any fun x => match x with
      | .record k _ => k == q
      | .pool _ => false
    if !slipped && (s.die die).records < 16384 then
      let x := s.queue die q
      (s.setQueue die q { x with arrive := x.arrive ++ [r] }).takeRecords die q rs
    else
      match s.slipAdd die (.record q r) with
      | (true, s') => s'.takeRecords die q rs
      | (false, s') => (false, s')

/-- The records that one RPUSH sends to one queue are taken together or not at all; where they need the slipway they go behind
what waits for it, unless that is the RPUSH itself (R287). -/
def State.pushRecords (s : State) (replay : Bool) (die q : Nat) (rs : List (List Word)) : Bool × State :=
  match s.takeRecords die q rs with
  | (true, s') =>
    if !replay && !(s.die die).stalled.isEmpty && (s.die die).slip.length < (s'.die die).slip.length then (false, s)
    else (true, s')
  | (false, s') =>
    (false, s.modDie die fun d => { d with
      slipEvent := (s'.die die).slipEvent, faults := (s'.die die).faults, evseq := (s'.die die).evseq
      evhold := (s'.die die).evhold, evwait := (s'.die die).evwait, evtail := (s'.die die).evtail })

/-- A queue refuses: it is bound to no live node, closed, or of a die of another partition. -/
def State.refuses (s : State) (own : Nat) (die q : Nat) : Bool :=
  (s.queueNode die q).isNone || (s.queue die q).closed || !s.diesOk (s.die own).owner (2 ^ die)

/-- What an RPUSH comes to, queue by queue: lanes whose records were accepted, refused, held by a full slipway. -/
structure Pushed where
  accepted : Mask
  refused  : Mask
  held     : Mask
  dies     : List Nat
  after    : State

/-- The selectors in order of their lowest lane, each with its lanes. -/
def selectors (xs : List (Nat × Nat)) : List (Nat × List Nat) :=
  ((xs.map Prod.snd).eraseDups).map fun v => (v, (xs.filter fun x => x.2 == v).map Prod.fst)

def pushAll (own : Nat) (replay : Bool) (record : Nat → List Word) (a : Pushed) : List (Nat × List Nat) → Pushed
  | [] => a
  | (sel, ps) :: rest =>
    let die := bits sel 12 10
    let q := bits sel 9 0
    if a.after.refuses own die q then pushAll own replay record { a with refused := a.refused ||| maskOf ps } rest
    else
      match a.after.pushRecords replay die q (ps.map record) with
      | (true, s) => pushAll own replay record { a with accepted := a.accepted ||| maskOf ps, after := s } rest
      | (false, s) => pushAll own replay record { a with held := a.held ||| maskOf ps, dies := a.dies ++ [die], after := s } rest

/-- Lanes park until the slipway of a die has room; their group waits in the die's order, one that replays in vain at the place
it had (R287). -/
def State.stall (s : State) (gkey : Nat) (replay : Bool) (m : Mask) (dies : List Nat) : State :=
  dies.foldl (fun s die => s.modDie die fun d =>
    if d.stalled.contains gkey then d
    else { d with stalled := if replay then gkey :: d.stalled else d.stalled ++ [gkey] }) (s.parkAll gkey m .slipway)

def execRpush (d : Nat) (a : LSrc) (gd : Nat) (s : State) : Out :=
  closingLanes s fun c g =>
    let m := c.taking gd g
    let xs := (g.order m).map fun p => (p, (a.r32 (g.lane p)).toNat)
    let skip := fun (s : State) => s.skip c m
    let wide := xs.filter fun x => 2 ^ 13 ≤ x.2
    if !wide.isEmpty then .error (.trap 0x01 (c.first.setWidth 64) 0 (some (maskOf (wide.map Prod.fst))))
    else
      let broken := xs.filter fun x => ((g.lane x.1).record d).2 != 0
      match broken with
      | x :: _ =>
        let m := maskOf (broken.map Prod.fst)
        .error (.trap 0x19 (w64 x.2) (m.setWidth 64) (some m))
      | [] =>
        released (s.release c.gkey m 4) fun s =>
          let r := pushAll (dieOf (coreOf c.gkey)) (c.again != 0) (fun p => ((g.lane p).record d).1) ⟨0, 0, 0, [], s⟩ (selectors xs)
          if r.held != 0 then
            .ok ((skip r.after).modGroup c.gkey (fun g => g.mapLanes r.accepted c.advance) |>.stall c.gkey
              (c.again != 0) (r.held ||| r.refused) r.dies)
          else if r.refused != 0 then
            let first := (xs.find? fun x => r.refused.getLsbD x.1).map Prod.snd
            .ok (r.after.takeTrap c 0x19 (w64 (first.getD 0)) (r.refused.setWidth 64) r.refused)
          else .ok (r.after.advance c)

/-! ### NLAUNCH (R309) -/

/-- The result of a launch in its destination and in q0 to q3. -/
def State.launchResult (s : State) (c : Issue) (d : UDst) (x : DWord) : State :=
  (s.modGroup c.gkey fun g => { g with u := d.put false x g.u }).advance c

/-- NLAUNCH: a descriptor or header with an uncorrectable error traps (R336), a fault on the descriptor, or on the object of a rejected node, parks the whole issuing set (log entry 17); one
that would enter the slipway before groups that wait for it waits behind them (R287). -/
def execNlaunch (d : UDst) (b : USrc) (s : State) : Out :=
  closingUnit 0 s fun c g =>
    let va := b.get g.u
    let die := dieOf (coreOf c.gkey)
    match engineAddresses [(va, 256)] with
    | some h => .error h
    | none =>
      match s.readNode die (s.asidOf g) va.toNat .engRead with
      | .error x =>
        if x.waits then .error .hold else
        match s.badAt die x .engRead with
        | some line => .error (.trap 0x30 (w64 line) 1)
        | none =>
        .ok ((s.parkAll c.gkey c.lanes (.fault x.asid x.page)).dieFault die x .engRead
          ((Event.plain 1).ofGroup s c.gkey c.lanes))
      | .ok (n, desc, frameOk, s) =>
        released (s.release c.gkey c.lanes 4) fun s =>
          match s.submit die (s.die die).owner n desc frameOk with
          | (.accepted h, t) =>
            if c.again = 0 && !(s.die die).stalled.isEmpty && (s.die die).slip.length < (t.die die).slip.length then
              .ok (s.stall c.gkey false c.lanes [die])
            else .ok (t.launchResult c d (h.setWidth 64))
          | (.rejected cause, s) => .ok (s.launchResult c d (0x8000000000000000#64 + w64 cause))
          | (.tableFull, _) => .error .hold
          | (.poolFull, s) => .ok (s.stall c.gkey (c.again != 0) c.lanes [die])
          | (.fault a, s) => .ok (s.parkAll c.gkey c.lanes (.fault desc.asid (a / 65536)))

/-! ### NSIGNAL (R278, R282, R310) -/

/-- A signal as NSIGNAL sends it from a die: a ready node with a record queue closes it, a node not ready counts it, one of
another partition is not reached (R369). -/
def State.nsignal (s : State) (own : Nat) (h : Word) : State :=
  match s.findNode h with
  | some (die, entry, n) =>
    if !s.reaches own h then s
    else if n.ready && n.desc.rqen then s.closeQueue die entry
    else s.signal h
  | none => s.signal h

def execNsignal (b : USrc) (s : State) : Out :=
  orCox s (fun c => coxGuarded s c fun x => .ok (s.nsignal (dieOf c.core) ((b.get x.u).setWidth 32))) <| closingUnit 0 s fun c g =>
    released (s.release c.gkey c.lanes 4) fun s => .ok ((s.nsignal (dieOf (coreOf c.gkey)) ((b.get g.u).setWidth 32)).advance c)

/-! ### NQSTAT (R311) -/

/-- The snapshot of a node as a group of a die sees it. -/
def State.nodeStatus (s : State) (own : Nat) (h : Word) : DWord :=
  match s.findNode h with
  | none => 0
  | some (die, _, n) =>
    if !s.diesOk (s.die own).owner (2 ^ die) then 0
    else
      let q := s.queue (n.desc.rqid / 1024) (n.desc.rqid % 1024)
      let state := if !n.ready then 1 else if n.desc.rqen && n.closed then 3 else 2
      let opened := if n.desc.rqen then q.opened.length else 0
      w64 (2 ^ 62 * state + 2 ^ 32 * n.need + 2 ^ 16 * opened + min n.live 0xFFFF)

def execNqstat (d : UDst) (b : USrc) (s : State) : Out :=
  orCox s (fun c => coxGuarded s c fun x =>
    let v := s.nodeStatus (dieOf c.core) ((b.get x.u).setWidth 32)
    .ok (s.modCore c.core fun k => { k with cox := { k.cox with u := d.put false v k.cox.u } })) <| guardedUnit 0 s fun c g =>
    let x := s.nodeStatus (dieOf (coreOf c.gkey)) ((b.get g.u).setWidth 32)
    .ok ((s.modGroup c.gkey fun g => { g with u := d.put false x g.u }).advance c)

end Sys2Proof.Machine
end

