-- ==== Sys2Proof/Machine/Registers.lean ====
section
/-! DEFINITION. MRS and MSR (R24, R80, R98, R133, R149, R256, R312-R314) and the ring list of a team (R295, R296). -/

namespace Sys2Proof.Machine

/-! ### Ring records (R295) -/

structure RingRec where
  id     : Nat
  slots  : Nat
  bytes  : Nat
  role   : Nat
  matrix : Bool
  offset : Nat
deriving DecidableEq, Repr

def RingRec.parse (n : Nat) : RingRec where
  id := bits n 3 0
  slots := bits n 53 48 + 1
  bytes := 256 * bits n 47 36
  role := bits n 55 54
  matrix := bits n 56 56 == 1
  offset := bits n 127 96

/-- The ring a record enables. -/
def RingRec.ring (r : RingRec) (tid : Nat) : Ring := ⟨true, tid, r.offset, r.slots, r.bytes, r.role, r.matrix, 0, 0, 0, 0⟩

/-- A record keeps R295 for a team. -/
def Team.ringOk (t : Team) (n : Nat) : Bool :=
  let r := RingRec.parse n
  bits n 95 57 == 0 && bits n 35 4 == 0 && r.offset % 256 == 0 && r.role ≤ 2 && 256 ≤ r.bytes && r.bytes ≤ 524288 &&
    (if r.matrix then r.role ≤ 1 else r.role == 2) && r.slots * r.bytes ≤ 524288 &&
    r.offset + r.slots * r.bytes ≤ t.allotBytes ((r.ring 0).space)

/-- Two records of a list that may not stand together. -/
def RingRec.clash (a b : RingRec) : Bool :=
  a.id == b.id || (a.role == b.role && overlap a.offset (a.slots * a.bytes) b.offset (b.slots * b.bytes))

def ringsClash : List RingRec → Bool
  | [] => false
  | r :: rs => rs.any r.clash || ringsClash rs

/-- A command in flight names a ring. -/
def State.namesRing (s : State) (core : Nat) (c : Cmd) : Bool :=
  c.fills || !(taskInputs c.inputs).isEmpty ||
    (c.major == 0x22 &&
      match s.peekBlock core c with
      | none => true
      | some x => (Task.parse x).asrc == 2 || (Task.parse x).bsrc == 2)

/-- Some command of a team that names a ring is in flight. -/
def State.ringBusy (s : State) (core tid : Nat) : Bool :=
  (s.core core).cmds.any fun c => c.tid == tid && s.namesRing core c

/-- The records of a list, read one by one by the issuing set; none with its lanes parked. -/
def State.readRings (s : State) (c : Issue) (g : Group) (va : Nat) : Nat → Except Halt (Option (List Nat) × State)
  | 0 => .ok (some [], s)
  | n + 1 =>
    match s.uniformLoad c g va 16 with
    | .error h => .error h
    | .ok (none, s) => .ok (none, s)
    | .ok (some bs, s) =>
      match s.readRings c g (va + 16) n with
      | .error h => .error h
      | .ok (none, s) => .ok (none, s)
      | .ok (some xs, s) => .ok (some (leNat bs :: xs), s)

/-- Rings of a team leave, and those of records come in their place. -/
def Core.setRings (k : Core) (tid : Nat) (rs : List RingRec) : Core :=
  { k with rings := Vector.ofFn fun i =>
      match rs.find? (·.id == i.val) with
      | some r => r.ring tid
      | none => if (k.rings[i]).ofTeam tid then Ring.reset else k.rings[i] }

/-- The list of a `ringtab` value comes into force (R296): the records are read, checked and enabled; false with the
lanes parked on a fault. -/
def State.enableRings (s : State) (c : Issue) (g : Group) (t : Team) (v : DWord) : Except Halt (Bool × State) :=
  let core := coreOf c.gkey
  match s.readRings c g (bits v.toNat 53 4 * 16) (bits v.toNat 3 0 + 1) with
  | .error h => .error h
  | .ok (none, s) => .ok (false, s)
  | .ok (some ns, s) =>
    let rs := ns.map RingRec.parse
    let foreign := rs.any fun r => let x := (s.core core).ring r.id; x.enabled && x.tid != g.tid
    if !ns.all t.ringOk || ringsClash rs || foreign then .error (badCommand v)
    else .ok (true, (s.modCore core (·.setRings g.tid rs)).modTeam g.tid fun t => { t with ringtab := v })

/-- MSR of ringtab: 0 disables every ring; another value waits for the ring commands in flight. -/
def State.writeRingtab (s : State) (c : Issue) (g : Group) (v : DWord) : Res :=
  if v >>> 54 != 0 then .error (.trap 0x01 (c.first.setWidth 64) 0)
  else
    match tget s.teams g.tid with
    | none => .error .hold
    | some t =>
      let core := coreOf c.gkey
      if v = 0 then
        .ok (((s.modCore core (·.setRings g.tid [])).modTeam g.tid fun t => { t with ringtab := 0 }).advance c)
      else if s.ringBusy core g.tid then
        .ok (s.modGroup c.gkey fun g => { g with hold := some (.ringtab c.addr c.next c.lanes v) })
      else
        match s.enableRings c g t v with
        | .error h => .error h
        | .ok (false, s) => .ok s
        | .ok (true, s) => .ok (s.advance c)

/-- The unit of a held MSR of ringtab. -/
def ringtabIssue (gkey : Nat) (unit next : DWord) (lanes : Mask) : Issue where
  cox := false
  core := coreOf gkey
  gkey := gkey
  addr := unit
  first := 0x80000000#32
  word := 0x80000000#32
  next := next
  lanes := lanes
  guard := none
  rep := none
  idx := 0
  kept := 0
  again := 0
  others := false

def State.ringtabDue (s : State) (gkey : Nat) : Bool :=
  match tget s.groups gkey with
  | none => false
  | some g =>
    match g.hold with
    | some (.ringtab _ _ _ _) => g.stop.isNone && !s.ringBusy (coreOf gkey) g.tid
    | _ => false

/-- RINGTAB_WRITE: the held MSR of a group completes; its lanes go on, with their entries behind it (R327). -/
def execRingtabWrite (group : Nat) (s : State) : Out :=
  if !s.ringtabDue group then .next s
  else
    match tget s.groups group with
    | none => .next s
    | some g =>
      match g.hold, tget s.teams g.tid with
      | some (.ringtab unit next lanes v), some t =>
        let c := ringtabIssue group unit next lanes
        match (s.modGroup group fun g => { g with hold := none }).enableRings c g t v with
        | .error h => settle (s.modGroup group fun g => { g with hold := none }) c (.error h)
        | .ok (false, s) => .next s
        | .ok (true, s) =>
          .next ((s.advance c).modGroup group fun g => { g.mapLanes lanes c.closeLane with entryQ := g.u.q })
      | _, _ => .next s

/-! ### MRS (R312-R314) -/

/-- The uniform register of a number. -/
def State.readRegister (s : State) (gkey : Nat) (g : Group) (n : Nat) : DWord :=
  let t := tget s.teams g.tid
  match n with
  | 0 => g.cvm.setWidth 64
  | 1 => w64 ((t.map (·.desc.nbv)).getD 0)
  | 4 => g.gbase
  | 5 => g.wsave
  | 6 => g.efaddr
  | 7 => (t.map (·.ringtab)).getD 0
  | 8 => s.stroke
  | _ => (whereOf gkey).setWidth 64

/-- The lane register of a number: `lrng`, or the address of the unit. -/
def laneRegister (c : Issue) (n : Nat) (l : Lane) : DWord := if n = 2 then l.lrng else c.addr

/-- MRS on the cox: the stroke counter is the one register that is no group's (R341, log entry 11). -/
def coxMrs (a : MDst) (n : Nat) (s : State) (c : Issue) : Out :=
  match a, n with
  | .u d, 8 => coxGuarded s c fun _ =>
      .ok (s.modCore c.core fun k => { k with cox := { k.cox with u := d.put false s.stroke k.cox.u } })
  | _, _ => .next (s.takeTrap c 0x01 0 0)

def execMrs (a : MDst) (n : Nat) (s : State) : Out :=
  orCox s (coxMrs a n s) <| guardedUnit 0 s fun c g =>
    match a with
    | .u d =>
      let x := s.readRegister c.gkey g n
      .ok ((s.modGroup c.gkey fun g => { g with u := d.put false x g.u }).advance c)
    | .v d =>
      .ok ((s.modGroup c.gkey fun g => g.mapLanes c.lanes fun l => d.put64 false (laneRegister c n l) l).advance c)

/-! ### MSR (R24, R98, R149, R256, R312) -/

/-- Every rnd field of a `cvm` value holds a code below 6 (R24). -/
def cvmOk (x : Nat) : Bool := (List.range 7).all fun i => bits x (4 * i + 2) (4 * i) < 6

/-- A write of a group's register: none where the card refuses the value. -/
def Group.writeRegister (g : Group) (n : Nat) (x : DWord) : Option Group :=
  match n with
  | 0 => if cvmOk x.toNat then some { g with cvm := x.setWidth 32 &&& 0x0FFFFFFF#32 } else none
  | 4 => if x >>> 54 = 0 then some { g with gbase := x } else none
  | 5 => if x >>> 54 = 0 then some { g with wsave := x &&& 0xFFFFFFFFFFFF0000#64 } else none
  | _ => if bits x.toNat 55 54 = 0 then some { g with efaddr := x } else none

def execMsr (a : MSrc) (n : Nat) (s : State) : Out :=
  closingUnit 0 s fun c g =>
    match a with
    | .v a => .ok ((s.modGroup c.gkey fun g => g.mapLanes c.lanes fun l => { l with lrng := a.r64 l }).advance c)
    | .u a =>
      let x := a.get g.u
      if n = 7 then s.writeRingtab c g x
      else
        match g.writeRegister n x with
        | none => .error (.trap 0x01 (c.first.setWidth 64) 0)
        | some g => .ok ((s.setGroup c.gkey g).advance c)

end Sys2Proof.Machine
end

