-- ==== Sys2Proof/Machine/Context.lean ====
section
/-! DEFINITION. Context records (R329-R332, R335, R378): the images of lanes, groups, teams and commands in memory, their
reading back, and the move of a team out of and into a core. -/

namespace Sys2Proof.Machine

/-! ### Lane records (R332) -/

def LaneState.code : LaneState → Nat
  | .active => 0
  | .waiting _ => 1
  | .parked _ => 2
  | .demoted => 3
  | .exited => 4
  | .absent => 7

/-- Park causes; a wait for the coupled reserve has no code (log entry 15). -/
def ParkWhy.code : ParkWhy → Nat
  | .fault _ _ => 1
  | .peer _ => 1
  | .reply _ => 1
  | .cell _ => 2
  | .starter _ => 2
  | .barrier _ => 3
  | .gather _ _ _ => 4
  | .regroup => 5
  | .cwait _ => 6
  | .ringAcq _ => 7
  | .phaseYield => 8
  | .slipway => 9
  | .reserve => 0

/-- Bits 8 to 10 of the state word. -/
def LaneState.barrierBits : LaneState → Nat
  | .parked (.barrier .team) => 0x100
  | .parked (.barrier .teamYield) => 0x100
  | .parked (.barrier .clus) => 0x200
  | .parked (.barrier .mask) => 0x400
  | _ => 0

def Lane.stateWord (l : Lane) : Nat :=
  l.state.code + (match l.state with | .parked w => 8 * w.code | _ => 0) + l.state.barrierBits + 0x800 * l.nest

def Latches.bytes (q : Latches) : List Byte := (List.range 4).flatMap fun i => leBytes 8 (q.get i).toNat

def Latches.validBits (q : Latches) : Nat := (List.range 4).foldl (fun n i => if q.valid i then n + 2 ^ i else n) 0

def Lane.image (l : Lane) : List Byte :=
  leBytes 8 l.vpc.toNat ++ leBytes 8 l.entry.toNat ++ leBytes 8 l.entryRng.toNat ++ leBytes 8 (predBits l) ++
    l.entryL.bytes ++ leBytes 4 l.entryL.validBits ++ leBytes 4 l.stateWord ++
    ((List.range 56).flatMap fun r => leBytes 4 (l.reg r).toNat) ++
    leBytes 8 l.lrng.toNat ++ l.l.bytes ++ leBytes 4 l.l.validBits ++ leBytes 20 0

/-- A reader of a record: the little-endian value of n bytes at an offset. -/
abbrev Reader := Nat → Nat → Nat

def Reader.from (f : Reader) (o : Nat) : Reader := fun a n => f (o + a) n

def readBytes (bs : List Byte) : Reader := fun o n => leNat ((bs.drop o).take n)

/-- Latches at an offset, with their valid bits at another. -/
def readLatches (f : Reader) (o v : Nat) : Latches :=
  Vector.ofFn fun i => ⟨w64 (f (o + 8 * i.val) 8), bits (f v 4) i.val i.val == 1⟩

/-- The state a record gives a lane: one that waits or is parked there is as the device has it, woken or not. -/
def readState (x : LaneState) (code : Nat) : LaneState :=
  match code with
  | 0 => .active
  | 3 => .demoted
  | 4 => .exited
  | 7 => .absent
  | _ => x

/-- A code address: bits 63:54 and 1:0 read as zero (R8). -/
def unitAddress (x : Nat) : DWord := w64 (bits x 53 2 * 4)

/-- A value of `cvm`, its reserved bits zero; a reserved rounding code in memory leaves the reset value (R4, R24, log entry 33). -/
def cvmValue (x : Nat) : Word := if cvmOk x then w32 (bits x 27 0) else 0

def Lane.read (l : Lane) (f : Reader) : Lane :=
  { l with
    vpc := unitAddress (f 0 8)
    entry := unitAddress (f 8 8)
    entryRng := w64 (f 16 8)
    p := Vector.ofFn fun i => i.val != 0 && bits (f 24 8) i.val i.val == 1
    entryL := readLatches f 32 64
    state := readState l.state (bits (f 68 4) 2 0)
    v := Vector.ofFn fun r => w32 (f (72 + 4 * r.val) 4)
    lrng := w64 (f 296 8)
    l := readLatches f 304 336 }

/-! ### Group records (R331) -/

def PartKind.code : PartKind → Nat
  | .whole => 0 | .b4 => 1 | .b8 => 2 | .b16 => 3 | .mask => 4

def PartKind.ofCode : Nat → PartKind
  | 1 => .b4 | 2 => .b8 | 3 => .b16 | 4 => .mask | _ => .whole

/-- k1 to k7 in bits 7:1. -/
def UFile.predBits (u : UFile) : Nat := (List.range 8).foldl (fun n i => if i != 0 && u.pred i then n + 2 ^ i else n) 0

/-- The cause of a trap that stopped the group, or 0. -/
def Group.stopCause (g : Group) : Nat :=
  match g.stop with
  | some x => if x.reason = 1 then x.cause else 0
  | none => 0

def Group.hardStopped (g : Group) : Bool := (g.stop.map (·.hard)).getD false

/-- The lane whose progress in a REP the group's record gives: the lowest position inside one. -/
def Group.repLane (g : Group) : Option Nat := (positions (g.where fun l => l.rep != 0)).head?

/-- The REP doubleword of a group: remaining count, index and active bit (R53). -/
def Group.repWord (g : Group) : Nat :=
  match g.repLane with
  | none => 0
  | some p => (g.lane p).repN - (g.lane p).rep + 2 ^ 7 * (g.lane p).rep + 2 ^ 15

/-- The progress that a doubleword gives goes to the lanes that stand where the lane it describes does; where no lane was
inside a REP, to those at the stop point. -/
def Group.readRep (g : Group) (old : Group) (unit : DWord) (w : Nat) : Group :=
  let at_ : Lane → Bool := match old.repLane with
    | some p => fun l => l.rep == (old.lane p).rep && l.repN == (old.lane p).repN
    | none => fun l => l.runnable && l.vpc == unit
  let n := if bits w 15 15 = 1 then bits w 13 7 else 0
  g.mapLanes (g.where at_) fun l => { l with rep := n, repN := if n = 0 then l.repN else n + bits w 6 0 }

/-- The group's record. -/
def Group.record (g : Group) : List Byte :=
  leBytes 8 g.region.toNat ++ leBytes 8 ((g.stop.map (·.unit)).getD g.boundary).toNat ++
    ((List.range 56).flatMap fun r => leBytes 8 (g.u.reg r).toNat) ++ g.entryQ.bytes ++
    leBytes 8 (g.entryQ.validBits + 2 ^ 8 * g.u.predBits + 2 ^ 16 * g.stopCause +
      (match g.leader with | some p => 2 ^ 24 * p + 2 ^ 31 | none => 0)) ++
    leBytes 8 g.cvm.toNat ++ leBytes 8 g.gbase.toNat ++ leBytes 8 g.wsave.toNat ++ leBytes 8 g.efaddr.toNat ++
    ((List.range 32).flatMap fun p =>
      leBytes 2 (if (g.lane p).state = .absent then 0xFFFF else (g.lane p).lid.toNat)) ++
    ((List.range 7).flatMap fun i =>
      leBytes 8 ((g.part (i + 1)).kind.code + 2 ^ 32 * (g.part (i + 1)).mask.toNat)) ++
    ((List.range 4).flatMap fun j => leBytes 4 (g.joins[j]?.getD 0).toNat) ++
    leBytes 8 g.repWord ++
    leBytes 8 (match g.barMask with | some b => b.first.toNat + 2 ^ 32 * b.union.toNat | none => 0) ++
    leBytes 16 0 ++ ((List.range 32).flatMap fun p => (g.lane p).image) ++
    (if g.hardStopped then leBytes 64 0
     else g.u.q.bytes ++ leBytes 8 g.u.q.validBits ++ leBytes 24 0)

/-- A group as its record has it, over what the device keeps of it. -/
def Group.readFields (g : Group) (f : Reader) : Group :=
  let k := f 496 8
  { g with
    region := w64 (f 0 8)
    stop := g.stop.map fun x => { x with unit := unitAddress (f 8 8) }
    u := { g.u with
      s := Vector.ofFn fun i => w64 (f (16 + 8 * i.val) 8)
      k := Vector.ofFn fun i => i.val != 0 && bits k (8 + i.val) (8 + i.val) == 1
      q := if g.hardStopped then g.u.q else readLatches f 12224 12256 }
    entryQ := readLatches f 464 496
    leader := if bits k 31 31 = 1 then some (bits k 28 24) else none
    cvm := cvmValue (f 504 4)
    gbase := w64 (bits (f 512 8) 53 0)
    wsave := w64 (bits (f 520 8) 53 16 * 65536)
    efaddr := w64 (bits (f 528 8) 63 56 * 2 ^ 56 + bits (f 528 8) 53 0)
    parts := Vector.ofFn fun i =>
      if i.val = 0 then g.parts[i]
      else ⟨PartKind.ofCode (bits (f (592 + 8 * i.val) 8) 2 0), w32 (f (596 + 8 * i.val) 4)⟩
    joins := Vector.ofFn fun j => w32 (f (656 + 4 * j.val) 4)
    barMask := g.barMask.map fun b => { b with first := w32 (f 680 4), union := w32 (f 684 4) }
    lanes := Vector.ofFn fun p =>
      let l := g.lanes[p].read (Reader.from f (704 + 360 * p.val))
      let id := f (536 + 2 * p.val) 2
      if id = 0xFFFF || id = l.lid.toNat then l else { l with lid := w32 id } }

/-- All of a group's record (R331). -/
def Group.read (g : Group) (f : Reader) : Group := (g.readFields f).readRep g (unitAddress (f 8 8)) (f 672 8)

/-! ### The groups and the header of a team (R329) -/

/-- The groups of a team in the order of its record: its own by index, then the others by slot. -/
def State.recordGroups (s : State) (tid : Nat) : List Nat :=
  let gs := s.groups.filter fun x => x.2.tid == tid
  sortBy (fun k => ((tget s.groups k).map (·.index)).getD 0) ((gs.filter fun x => x.2.kind == .own).map Prod.fst) ++
    (gs.filter fun x => x.2.kind != .own).map Prod.fst

/-- Lanes of a team in states that meet a test. -/
def State.countLanes (s : State) (tid : Nat) (f : LaneState → Bool) : Nat :=
  (s.groups.filter fun x => x.2.tid == tid).foldl (fun n x => n + (positions (x.2.where fun l => f l.state)).length) 0

/-- Counters of a ring of the team. -/
def Ring.word (r : Ring) : Nat := r.f % 2 ^ 16 + 2 ^ 16 * (r.a % 2 ^ 16) + 2 ^ 32 * (r.r % 2 ^ 16) + 2 ^ 63

/-- The first 256 bytes of a team's record. -/
def State.teamHeader (s : State) (tid : Nat) (t : Team) (reason : Nat) (hard : Bool) : List Byte :=
  let k := s.core t.core
  let gs := s.recordGroups tid
  let flags := (if hard then 1 else 0) + (if t.matrix then 2 else 0) + (if t.deckBytes = 0 then 0 else 4)
  let team := s.countLanes tid fun x => x.barrierBits == 0x100
  leBytes 4 t.handle.toNat ++ leBytes 4 t.tidx ++ leBytes 2 gs.length ++ leBytes 1 reason ++ leBytes 1 flags ++
    leBytes 4 0 ++
    leBytes 8 (team + (if t.bar.plain then 2 ^ 32 else 0) + (if t.bar.yield then 2 ^ 33 else 0)) ++
    leBytes 8 (s.countLanes tid fun x => x.barrierBits == 0x200) ++
    leBytes 8 (t.quota + 2 ^ 10 * ((t.desc.quota + 7) / 8 - t.wslots) +
      2 ^ 20 * ((List.range 9).filter fun i => bits t.rsv i i == 1).length) ++
    leBytes 8 t.ringtab.toNat ++
    ((List.range 16).flatMap fun i => leBytes 8 (if (k.ring i).ofTeam tid then (k.ring i).word else 0)) ++ leBytes 80 0

/-! ### Command images (R378) -/

/-- The task in flight in the matrix engine, carried by the spill. -/
def Core.inFlight (k : Core) (tid : Nat) : Option Cmd :=
  k.dt.find? fun c => c.tid == tid && c.major == 0x22 && c.inService

/-- Commands of a team that have images, in their order. -/
def Core.imaged (k : Core) (tid : Nat) : List Cmd :=
  k.cmds.filter fun c => c.tid == tid && !(c.major == 0x22 && c.inService)

/-- The command has started. -/
def Cmd.started (c : Cmd) : Bool := c.inService || c.state == .done || c.state == .sent

/-- The image of a command whose chosen slot, if any, is `slot`; the element at which a stopped command goes on is a box
element, an entry or an item, and 0 for a drain. -/
def Cmd.image (c : Cmd) (group slot : Nat) : List Byte :=
  let stopped := c.started
  let ring := c.fills && !c.slots.isEmpty
  let four := if c.major = 0x22 || c.major = 0x23 then [] else c.ops.take 4
  leBytes 1 (if c.seq && c.major = 0x22 then 0x27 else c.major) ++ leBytes 1 c.f7 ++
    leBytes 1 (group % 64 + if stopped then 0x80 else 0) ++
    leBytes 1 ((if c.seq then 1 else 0) + if ring then 2 + 4 * slot else 0) ++
    leBytes 4 (if stopped && c.major != 0x22 && c.major != 0x23 then c.elem else 0) ++ leBytes 8 (if c.seq then c.inputs.toNat else 0) ++ leBytes 8 c.addr.toNat ++
    leBytes 8 c.cobj.toNat ++ ((List.range 4).flatMap fun i => leBytes 8 (four[i]?.getD 0).toNat)

/-- A command as its image has it. -/
def Cmd.read (c : Cmd) (f : Reader) : Cmd :=
  { c with
    f7 := f 1 1
    elem := if bits (f 2 1) 7 7 = 1 && c.major != 0x22 && c.major != 0x23 then f 4 4 else c.elem
    inputs := if c.seq then w64 (f 8 8) else c.inputs
    addr := w64 (f 16 8)
    cobj := w64 (f 24 8)
    ops := if c.major = 0x22 || c.major = 0x23 then c.ops
      else ((List.range (min 4 c.ops.length)).map fun i => w64 (f (32 + 8 * i) 8)) ++ c.ops.drop 4 }

/-! ### The matrix spill (R22, R335) -/

/-- An acc40 value spilled: RNE to FP32, a finite one to a finite one. -/
def spillWord (b : Nat) : Nat :=
  let v := acc40.value b
  let r := fp32.rne v
  match v with
  | .fin neg _ _ => if r % 2 ^ 31 = 0x7F800000 then fp32.sign neg 0x7F7FFFFF else r
  | _ => r

/-- A spilled word widened. -/
def unspill (w : Nat) : BitVec 40 := BitVec.ofNat 40 (acc40.rne (fp32.value w))

def Core.spillSlot (k : Core) (slot : Nat) : List Byte :=
  (List.range 128).flatMap fun i => (List.range 128).flatMap fun j => leBytes 4 (spillWord (k.accAt slot i j))

def readSlot (f : Reader) (o : Nat) : Tab (BitVec 40) :=
  (List.range 16384).filterMap fun n =>
    let x := unspill (f (o + 4 * n) 4)
    if x = 0 then none else some (n, x)

/-- The k-step at which a task in flight stopped, its last one where it is behind its k-steps; a task stopped before its first
k-step has the index before 0 (log entry 30). -/
def Cmd.spilledStep (c : Cmd) : Nat :=
  (min c.elem (if c.slots.isEmpty then 0 else c.task.ksteps) + 2 ^ 64 - 1) % 2 ^ 64

def Core.spill (k : Core) (tid : Nat) (t : Team) : List Byte :=
  if !t.matrix then leBytes 131088 0
  else
    k.spillSlot 0 ++ k.spillSlot 1 ++
      match k.inFlight tid with
      | some c => leBytes 8 c.spilledStep ++ leBytes 8 c.addr.toNat
      | none => leBytes 16 0

/-! ### The record of a team (R329) -/

def recordE (n : Nat) : Nat := 16640 + 12288 * n

/-- Bytes padded with zeros to a length. -/
def padded (n : Nat) (bs : List Byte) : List Byte := bs ++ leBytes (n - bs.length) 0

def gatherBytes (area : Tab Word) : List Byte :=
  (List.range 4096).flatMap fun i => leBytes 4 ((tget area i).getD 0).toNat

/-- The whole record; the engine area names groups by their place among the group records. -/
def State.teamRecord (s : State) (tid : Nat) (t : Team) (reason : Nat) (hard : Bool) : List Byte :=
  let k := s.core t.core
  let gs := s.recordGroups tid
  let place := fun (c : Cmd) => if c.orphan then 0 else (gs.findIdx? (· == c.gkey)).getD 0
  let slot := fun (c : Cmd) => (c.slots[0]?.getD 0) % (k.ring (copyId c.ops)).slots
  s.teamHeader tid t reason hard ++ gatherBytes t.gather ++
    (gs.flatMap fun x => match tget s.groups x with | some g => g.record | none => []) ++
    padded 4096 ((k.imaged tid).flatMap fun c => c.image (place c) (slot c)) ++ k.spill tid t ++
    mread t.scratch 0 t.sBytes ++ mread t.xbuf 0 t.xBytes ++ mread t.wbuf 0 t.wBytes ++ mread t.deck 0 t.deckBytes

/-- Reserved bytes of a record are zero (R332, R342). -/
def recordOk (f : Reader) : Bool :=
  let n := f 8 2
  let unit := fun (o : Nat) => bits (f o 8) 63 54 == 0 && bits (f o 8) 1 0 == 0
  let lane := fun (o : Nat) =>
    unit o && unit (o + 8) && f (o + 340) 20 == 0 && bits (f (o + 64) 4) 31 4 == 0 && bits (f (o + 68) 4) 31 15 == 0 && bits (f (o + 336) 4) 31 4 == 0
  let group := fun (o : Nat) =>
    unit (o + 8) && bits (f (o + 504) 4) 31 28 == 0 && cvmOk (f (o + 504) 4) && bits (f (o + 512) 8) 63 54 == 0 &&
      bits (f (o + 520) 8) 63 54 == 0 && bits (f (o + 520) 8) 15 0 == 0 && bits (f (o + 528) 8) 55 54 == 0 &&
      f (o + 508) 4 == 0 && f (o + 688) 16 == 0 && f (o + 12264) 24 == 0 && bits (f (o + 12256) 8) 63 4 == 0 &&
      bits (f (o + 496) 8) 63 32 == 0 && bits (f (o + 496) 8) 30 29 == 0 && bits (f (o + 496) 8) 8 4 == 0 &&
      bits (f (o + 672) 8) 63 16 == 0 && bits (f (o + 672) 8) 14 14 == 0 &&
      ((List.range 7).all fun i => bits (f (o + 600 + 8 * i) 8) 31 3 == 0) &&
      (List.range 32).all fun j => lane (o + 704 + 360 * j)
  f 12 4 == 0 && f 176 80 == 0 && bits (f 16 8) 63 34 == 0 && f 28 4 == 0 && bits (f 32 8) 63 24 == 0 &&
    bits (f 40 8) 63 54 == 0 && ((List.range 16).all fun i => bits (f (48 + 8 * i) 8) 62 48 == 0) && bits (f 11 1) 7 3 == 0 && ((List.range n).all fun i => group (16640 + 12288 * i)) &&
    (List.range 64).all fun i => bits (f (16640 + 12288 * n + 64 * i + 2) 1) 6 6 == 0

/-! ### Renaming a group -/

/-- A group takes another key, wherever it is named. -/
def State.renameGroup (s : State) (a b : Nat) : State :=
  match tget s.groups a with
  | none => s
  | some g =>
    let f := fun (k : Nat) => if k = a then b else k
    let at1 := fun (x : Nat × Nat) => (f x.1, x.2)
    let waiter := fun (w : Waiter) => if w.peer.isSome then w else { w with gkey := f w.gkey }
    { s with
      groups := tset (terase s.groups a) b g
      calls := s.calls.map fun x => (x.1, { x.2 with gkey := f x.2.gkey, groups := x.2.groups.map f })
      teams := s.teams.map fun x => (x.1, { x.2 with firings := x.2.firings.map fun y =>
        { y with
          runs := y.runs.map fun r => { r with callers := r.callers.map at1 }
          callers := y.callers.map at1
          thread := y.thread.map at1 } })
      dies := Vector.ofFn fun i =>
        { s.dies[i] with
          chains := s.dies[i].chains.map fun x => (x.1, { x.2 with wait := x.2.wait.map fun w => (f w.1, w.2) })
          cells := s.dies[i].cells.map fun e => { e with waiters := e.waiters.map waiter }
          starters := s.dies[i].starters.map fun x => if x.peer.isSome then x else { x with gkey := f x.gkey }
          watches := s.dies[i].watches.map fun w => (f w.1, w.2)
          stalled := s.dies[i].stalled.map f }
      peerWaits := s.peerWaits.map fun x => (x.1, if x.2.unit.isSome then x.2 else { x.2 with gkey := f x.2.gkey, lanes := x.2.lanes.map at1 })
      agenda := s.agenda.map fun t => match t with | .replay w => .replay (waiter w) | t => t
      cores := s.cores.map fun x =>
        (x.1, { x.2 with
          vq := x.2.vq.map fun c => { c with gkey := f c.gkey }
          dt := x.2.dt.map fun c => { c with gkey := f c.gkey }
          posted := x.2.posted.map fun y => { y with gkey := f y.gkey } }) }

/-- The commands and posted atomics of a team go from a core to another. -/
def State.moveCommands (s : State) (tid a b : Nat) : State :=
  let k := s.core a
  let of := fun (gkey : Nat) => ((tget s.groups gkey).map (·.tid)) == some tid
  (s.setCore a { k with
    vq := k.vq.filter (·.tid != tid)
    dt := k.dt.filter (·.tid != tid)
    posted := k.posted.filter fun x => !of x.gkey }).modCore b fun y =>
      { y with
        vq := y.vq ++ k.vq.filter (·.tid == tid)
        dt := y.dt ++ k.dt.filter (·.tid == tid)
        posted := y.posted ++ k.posted.filter fun x => of x.gkey }

/-! ### Leaving a core (R330, R334, R351, R352) -/

/-- What a team's core holds beside its groups and commands is released (R113, R337). -/
def State.clearCore (s : State) (core tid : Nat) : State :=
  let of := fun (gkey : Nat) => ((tget s.groups gkey).map (·.tid)) == some tid
  s.modCore core fun k =>
    { k.setRings tid [] with
      land := invalidate (fun e => e.tid == tid) k.land
      reports := k.reports.filter fun r => !of r.gkey
      trapWait := k.trapWait.filter fun x => !of x
      places := k.places.filter (· != tid) }

/-- What is kept beside the record. -/
def State.keep (s : State) (tid base : Nat) (t : Team) : Kept :=
  let k := s.core t.core
  { tid := tid
    place := base
    rings := (List.range 16).filterMap fun i => if (k.ring i).ofTeam tid then some (i, k.ring i) else none
    tiles := if t.matrix then k.tiles else []
    rounds := if t.matrix then k.rounds else Vector.replicate 2 []
    sq := if t.matrix then k.sq else Vector.replicate 4 [] }

/-- A group of a team that leaves stands stopped and unreleased. -/
def Group.leave (reason : Nat) (g : Group) : Group :=
  { g with
    released := false
    stop := match g.stop with
      | some x => some x
      | none => some ⟨0, g.boundary, g.boundary, 0, 0, 0, 0, false, reason⟩ }

/-- A stopped team leaves its core: its record is written at a physical address, its groups, commands and faulted posted
atomics go to no core. -/
def State.leaveCore (s : State) (tid base reason : Nat) : Kept × State :=
  match tget s.teams tid with
  | none => (⟨tid, base, [], [], Vector.replicate 2 [], Vector.replicate 4 []⟩, s)
  | some t =>
    let gs := s.recordGroups tid
    let s := gs.foldl (fun s k => (s.modGroup k (Group.leave reason)).leaveSeat k) s
    let hard := gs.any fun k => ((tget s.groups k).map (·.hardStopped)).getD false
    let kept := s.keep tid base t
    let s := s.store none base (s.teamRecord tid t reason hard)
    let s := (s.clearCore t.core tid).moveCommands tid t.core noCore
    let s := if t.matrix then s.modCore t.core fun k =>
        { k with tiles := [], rounds := Vector.replicate 2 [], sq := Vector.replicate 4 [] } else s
    let s := gs.foldl (fun s k => { s.renameGroup k (64 * noCore + s.nextId) with nextId := s.nextId + 1 }) s
    (kept, s.setTeam tid { (tget s.teams tid).getD t with core := noCore, placed := false, landed := false })

/-! ### Entering a core (R334, R335, R352) -/

/-- A counter brought to a value modulo 2^16. -/
def counterTo (x n : Nat) : Nat := x + (n + 2 ^ 16 - x % 2 ^ 16) % 2 ^ 16

def Ring.read (r : Ring) (w : Nat) : Ring :=
  { r with f := counterTo r.f (bits w 15 0), a := counterTo r.a (bits w 31 16), r := counterTo r.r (bits w 47 32) }

/-- n bytes of an image as a memory. -/
def readImage (f : Reader) (o n : Nat) : Tab Byte :=
  (List.range n).filterMap fun i => let b : Byte := BitVec.ofNat 8 (f (o + i) 1); if b = 0 then none else some (i, b)

/-- The task in flight goes on from the k-step after that of the spill, with the replay flag and its rows pending, but for those
whose correction it has made (R335, log entry 30). -/
def Cmd.respill (c : Cmd) (step : Nat) : Cmd :=
  if c.slots.isEmpty then c
  else
    let c := if c.rows.isEmpty then c else { c with replay := true, flags := c.flags ||| flagReplay }
    if c.task.ksteps < c.elem then c else { c with elem := (step + 1) % 2 ^ 64 }

/-- A group that has been moved: a trap keeps it stopped, a hard stop restarts its regions, any other resumes. -/
def Group.arrive (g : Group) : Group :=
  let g := { g with hold := none }
  match g.stop with
  | none => g
  | some x => if x.reason = 1 then g else if x.hard then g.restart else { g with stop := none }

/-- The groups of a record take slots of a core, in order, with what the record holds; lines in that core's L1 are missed. -/
def State.placeGroups (s : State) (core : Nat) (f : Reader) : Nat → List Nat → State
  | _, [] => s
  | i, k :: ks =>
    match s.newSlot core with
    | none => s
    | some (key, s) =>
      let t := (s.core (coreOf key)).l1Time + 1
      let s := (s.modCore (coreOf key) fun x => { x with l1Time := t }).renameGroup k key
      let s := (s.modGroup key fun g => ({ g with acq := t, sysAcq := t }.read (Reader.from f (16640 + 12288 * i))).arrive).endWaits key
      let s := match tget s.groups key with
        | none => s
        | some g => match g.stop with
          | some x => s.modCore (coreOf key) (·.report (reportOf key g x))
          | none => s
      s.placeGroups core f (i + 1) ks

/-- A team in a record enters a core: everything is as the record has it; its groups wait for their release. -/
def State.enterCore (s : State) (kept : Kept) (base core : Nat) : State :=
  match tget s.teams kept.tid with
  | none => s
  | some t =>
    let f : Reader := fun o n => s.num (base + o) n
    let tid := kept.tid
    let gs := s.recordGroups tid
    let e := recordE gs.length
    let im := e + 135184
    let s := s.setTeam tid { t with
      core := core
      bar := ⟨bits (f 16 8) 32 32 == 1, bits (f 16 8) 33 33 == 1⟩
      quota := bits (f 32 8) 9 0
      ringtab := w64 (bits (f 40 8) 53 0)
      gather := (List.range 4096).filterMap fun i =>
        let w := w32 (f (256 + 4 * i) 4)
        if w = 0 then none else some (i, w)
      scratch := readImage f im t.sBytes
      xbuf := readImage f (im + t.sBytes) t.xBytes
      wbuf := readImage f (im + t.sBytes + t.xBytes) t.wBytes
      deck := readImage f (im + t.sBytes + t.xBytes + t.wBytes) t.deckBytes }
    let images := (s.core noCore).imaged tid
    let s := (images.zip (List.range images.length)).foldl (fun s x =>
      s.modCmd noCore x.1.id fun c => c.read (Reader.from f (e + 64 * x.2))) s
    let s := match (s.core noCore).inFlight tid with
      | some c => s.modCmd noCore c.id fun c => c.respill (f (e + 4096 + 131072) 8)
      | none => s
    let s := s.moveCommands tid noCore core
    let s := s.modCore core fun k =>
      { k with rings := Vector.ofFn fun i =>
          (tget kept.rings i.val).elim k.rings[i] fun r => r.read (f (48 + 8 * i.val) 8) }
    let s := if !t.matrix then s else s.modCore core fun k =>
      { k with
        acc := #v[readSlot f (e + 4096), readSlot f (e + 4096 + 65536)]
        tiles := k.tiles ++ kept.tiles
        rounds := kept.rounds
        sq := kept.sq }
    -- tiles on their way name the core their command now stands at
    let home := fun (y : PartTile) =>
      match s.cores.find? (fun (z : Nat × Core) => (z.2.cmd y.cmd).isSome) with
      | some z => { y with src := z.1 }
      | none => y
    let s := { s with cores := s.cores.map fun (x : Nat × Core) => (x.1, { x.2 with tiles := x.2.tiles.map home }) }
    (s.placeGroups core f 0 gs).finishRegroup tid

end Sys2Proof.Machine
end

