-- ==== Sys2Proof/Machine/Place.lean ====
section
/-! DEFINITION. Placement (R188-R192, R277, R279, R283-R286): what fits, which entry and which cores are chosen, the start
of a team, and the events of the boathouse that place. -/

namespace Sys2Proof.Machine

/-! ### Fit (R137, R138, R188, R192, R284) -/

def sumBy {α : Type} (f : α → Nat) (xs : List α) : Nat := xs.foldl (fun n x => n + f x) 0

/-- Teams on a core. -/
def State.teamsOn (s : State) (core : Nat) : List Team := (s.teams.filter fun x => x.2.core == core).map Prod.snd

/-- The core has room for a team of a descriptor (log entry 16). -/
def State.coreFits (s : State) (core : Nat) (d : NodeDesc) : Bool :=
  let ts := s.teamsOn core
  let (_, sb, wb, xb) := menuBanks d.menu
  ts.all (fun t => t.desc.menu == d.menu) &&
    sumBy (·.desc.slots) ts + d.slots ≤ 64 &&
    sumBy (·.desc.laneSlots) ts + d.laneSlots ≤ 2048 &&
    sumBy (·.desc.pages) ts + d.pages ≤ 512 &&
    sumBy (·.sBytes) ts + d.sBytes ≤ bankBytes * sb &&
    sumBy (·.wBytes) ts + d.wBytes ≤ bankBytes * wb &&
    sumBy (·.xBytes) ts + d.xBytes ≤ bankBytes * xb &&
    sumBy (·.deckBytes) ts + d.deckBytes ≤ 8388608

/-! ### Candidates (R277, R283, R286) -/

/-- An entry that a die may place from next: that of its pool or of the arbiter with an index. -/
structure Candidate where
  key   : Nat
  level : Nat
  res   : Bool
  desc  : NodeDesc
  w     : Nat
  h     : Nat
  arb   : Bool
  idx   : Nat
  /-- rings that a moved team brings, column by column -/
  rings : List (List Nat)
deriving DecidableEq, Repr

/-- The node of a key. -/
def State.nodeAt (s : State) (key : Nat) : Option Node := tget (s.die (key / 4096)).nodes (key % 4096)

/-- The rotation key of a team's node; evaluators stand apart. -/
def Team.key (t : Team) : Nat :=
  match t.kind with
  | .evaluator pa => 2 ^ 30 + pa
  | _ => 4096 * handleDie t.handle + handleEntry t.handle

/-- The rectangle of a team's cluster. -/
def Team.shape (t : Team) : Nat × Nat :=
  match t.kind with
  | .grid => (t.desc.cw, t.desc.ch)
  | _ => (1, 1)

/-- Key, descriptor, shape and rings of an item, while it may be placed. -/
def State.itemOf (s : State) (x : PoolItem) : Option (Nat × NodeDesc × Nat × Nat × List (List Nat)) :=
  match x with
  | .grid key _ _ => (s.nodeAt key).map fun n => (key, n.desc, n.desc.cw, n.desc.ch, [])
  | .tile key _ => (s.nodeAt key).bind fun n => if n.ready then some (key, n.desc, 1, 1, []) else none
  | .evaluator pa d _ _ _ _ => some (2 ^ 30 + pa, d, 1, 1, [])
  | .phase _ ts => ts.head?.map fun t => (t.key, t.desc, t.shape.1, t.shape.2, [])
  | .vacated _ ks =>
    (ks.head?.bind fun k => tget s.teams k.tid).map fun t =>
      (t.key, t.desc, t.shape.1, t.shape.2, ks.map fun k => k.rings.map Prod.fst)

/-- The candidates of a die, those of its pool first. -/
def State.candidates (s : State) (die : Nat) : List Candidate :=
  let d := s.die die
  ((List.range d.pool.length).zip d.pool).filterMap (fun x =>
    (s.itemOf x.2.item).map fun (key, desc, w, h, rings) =>
      ⟨key, x.2.effective s.stroke, x.2.res, desc, w, h, false, x.1, rings⟩) ++
  ((List.range s.arb.length).zip s.arb).filterMap (fun x =>
    match s.nodeAt (4096 * x.2.die + x.2.entry) with
    | none => none
    | some n =>
      if bits n.desc.dies die die = 1 then
        some ⟨4096 * x.2.die + x.2.entry, min 7 (n.desc.prio + (s.stroke - x.2.since).toNat / 16384), x.2.res.contains die,
          n.desc, n.desc.cw, n.desc.ch, true, x.1, []⟩
      else none)

/-! ### Choice of cores (R284) -/

/-- Cores of the rectangle with an origin, column by column. -/
def rectangle (die w h o : Nat) : List Nat :=
  (List.range h).flatMap fun y => (List.range w).map fun x => 216 * die + (o % 18 + x) + 18 * (o / 18 + y)

/-- Origins of rectangles of a die, ascending. -/
def origins (w h : Nat) : List Nat := (List.range 216).filter fun o => o % 18 + w ≤ 18 && o / 18 + h ≤ 12

/-- No new team may be placed on the core (R283, R334). -/
def State.barred (s : State) (die core : Nat) (res : Bool) : Bool :=
  let d := s.die die
  (!res && d.reserved.contains (core % 216)) || d.vacates.any fun v => v.cores.contains core

/-- The cores chosen for a candidate; empty asks for those chosen if all were empty. -/
def State.spot (s : State) (die : Nat) (c : Candidate) (empty : Bool) : Option (List Nat) :=
  let fits := fun (core : Nat) (rings : List Nat) =>
    (empty || (s.coreFits core c.desc && rings.all fun i => !((s.core core).ring i).enabled)) && !s.barred die core c.res
  let rings := fun (i : Nat) => c.rings[i]?.getD []
  if c.w = 1 && c.h = 1 then
    let all := (List.range 216).map fun i => 216 * die + i
    let used := all.filter fun k => !empty && !(s.teamsOn k).isEmpty
    let free := all.filter fun k => empty || (s.teamsOn k).isEmpty
    ((used ++ free).find? fun k => fits k (rings 0)).map fun k => [k]
  else
    ((origins c.w c.h).map (rectangle die c.w c.h)).find? fun ks =>
      ((List.range ks.length).zip ks).all fun x => fits x.2 (rings x.1)

/-! ### The choice of an entry (R283) -/

/-- The rotating list of the nodes of a level of a die, with the nodes not yet in it at its end, in the order of their
entries. -/
def State.rotation (s : State) (die level : Nat) : List Nat :=
  let keys := (((s.candidates die).filter fun c => c.level == level).map (·.key)).eraseDups
  let old := ((s.die die).served.filter fun x => x.1 == level && keys.contains x.2).map Prod.snd
  old ++ keys.filter fun k => !old.contains k

/-- The first node of a level, in rotation, that has a cluster or team to place that fits. -/
def State.bestAt (s : State) (die level : Nat) (cs : List Candidate) : List Nat → Option (Candidate × List Nat)
  | [] => none
  | k :: ks =>
    match (cs.filter fun c => c.key == k && c.level == level).findSome? fun c => (s.spot die c false).map fun x => (c, x) with
    | some r => some r
    | none => s.bestAt die level cs ks

/-- What a die would place next and its cores: levels from 7 down. -/
def State.best (s : State) (die : Nat) : Option (Candidate × List Nat) :=
  let cs := s.candidates die
  [7, 6, 5, 4, 3, 2, 1, 0].findSome? fun v => s.bestAt die v cs (s.rotation die v)

/-! ### New teams (R8, R72, R188-R190, R279) -/

/-- A team of a descriptor, with nothing in it yet. -/
def newTeam (core die : Nat) (handle : Word) (tidx : Nat) (kind : TeamKind) (d : NodeDesc) : Team where
  core := core
  die := die
  handle := handle
  tidx := tidx
  kind := kind
  desc := d
  cx := 0
  cy := 0
  cz := 0
  x := 0
  y := 0
  cluster := []
  sBytes := d.sBytes
  xBytes := d.xBytes
  wBytes := d.wBytes
  deckBytes := d.deckBytes
  scratch := []
  xbuf := []
  wbuf := []
  deck := []
  badBytes := []
  winFirst := 0
  winLines := 0
  allot := 0
  placed := false
  landed := false
  quota := d.quota
  wslots := (d.quota + 7) / 8
  rsv := 0
  gather := []
  firings := []
  bar := ⟨false, false⟩
  ringtab := 0
  phase := 0
  records := []
  chain := none
  matrix := false
  ending := false
  counted := false
  prio := d.prio

/-- A lane at its start. -/
def startLane (entry : DWord) (lid : Word) (lrng : DWord) : Lane :=
  { Lane.blank with
    state := .active, vpc := entry, lid := lid, lrng := lrng, entry := entry, entryRng := lrng }

/-- A group of a team at its start; the first uniform registers take the values of a list. -/
def startGroup (tid index frame : Nat) (us : List DWord) (lanes : Vector Lane 32) : Group where
  tid := tid
  index := index
  kind := .own
  blocks := []
  frame := frame
  coupled := none
  released := false
  u := { UFile.reset with s := Vector.ofFn fun i => us[i.val]?.getD 0 }
  cvm := 0
  gbase := 0
  wsave := 0
  efaddr := 0
  parts := Vector.replicate 8 ⟨.whole, 0⟩
  joins := Vector.replicate 4 0
  leader := none
  colls := []
  barMask := none
  region := 0
  entryQ := Latches.invalid
  stop := none
  hold := none
  acq := 0
  sysAcq := 0
  lanes := lanes

/-- Groups take free slots of a core. -/
def State.addGroups (s : State) (core : Nat) : List Group → State
  | [] => s
  | g :: gs =>
    match s.newSlot core with
    | some (k, s) => (s.setGroup k g).addGroups core gs
    | none => s

/-- The groups of a launched team: every lane active at the entry (R279). -/
def launchGroups (tid : Nat) (d : NodeDesc) (us : List DWord) : List Group :=
  (List.range d.groups).map fun i =>
    startGroup tid i d.frame us (Vector.ofFn fun p =>
      startLane (w64 d.entry) (w32 (32 * i + p.val)) (w64 (32 * i + p.val)))

/-- A team enters its core: its placement is asked of the cox (R346). -/
def State.addTeam (s : State) (tid : Nat) (t : Team) (gs : List Group) : State :=
  ((s.setTeam tid t).modCore t.core fun k => { k with places := k.places ++ [tid] }).addGroups t.core gs

/-- s0 to s4 of a grid team (R279). -/
def launchRegs (t : Team) (count : Nat) : List DWord :=
  [w64 t.desc.args, w64 t.tidx, w64 (t.cx + 2 ^ 16 * t.cy + 2 ^ 32 * t.cz + 2 ^ 48 * t.x + 2 ^ 52 * t.y), w64 count,
    t.handle.setWidth 64]

/-- Numbers for n teams. -/
def State.newTids (s : State) (n : Nat) : List Nat × State :=
  ((List.range n).map fun i => s.nextId + i, { s with nextId := s.nextId + n })

/-- The teams of a cluster, each on its core. -/
def State.placeCluster (s : State) (die : Nat) (handle : Word) (d : NodeDesc) (index : Nat) (cores : List Nat) : State :=
  let n := d.cw * d.ch
  let (tids, s) := s.newTids n
  ((List.range n).zip (tids.zip cores)).foldl (fun s x =>
    let (c, tid, core) := x
    let t := { newTeam core die handle (index * n + c) .grid d with
      cx := index % d.gx, cy := index / d.gx % d.gy, cz := index / (d.gx * d.gy)
      x := c % d.cw, y := c / d.cw, cluster := tids }
    s.addTeam tid t (launchGroups tid d (launchRegs t 0))) s

/-- A tile's team, with its records at scratch 0 (R281). -/
def State.placeTile (s : State) (die core : Nat) (handle : Word) (d : NodeDesc) (rs : List (List Word)) : State :=
  let (tids, s) := s.newTids 1
  let tid := tids.head?.getD 0
  let bs := rs.flatMap fun r => r.flatMap fun w => leBytes 4 w.toNat
  let t := { newTeam core die handle 0 .tile d with cluster := tids, records := rs, scratch := mwrite [] 0 bs }
  s.addTeam tid t (launchGroups tid d (launchRegs t rs.length))

/-- An evaluator's team (R227, R285). -/
def State.placeEvaluator (s : State) (die core pa : Nat) (d : NodeDesc) (us : List DWord) : State :=
  let (tids, s) := s.newTids 1
  let tid := tids.head?.getD 0
  let t := { newTeam core die 0 0 (.evaluator pa) d with
    cluster := tids, chain := us[2]?.map BitVec.toNat }
  (s.modEvaluation pa fun e => { e with team := some tid }).addTeam tid t (launchGroups tid d us)

/-! ### Resumed phases and moved teams (R160, R284, R334) -/

/-- A lane of a phase record: carry registers, `lrng` and `vpc`. -/
def phaseLane (f : Reader) (cv lid : Nat) (gone : Bool) : Lane :=
  if lid = 0xFFFF then Lane.blank
  else
    let l := startLane (w64 (f 0 8)) (w32 lid) (w64 (f 8 8))
    { l with
      state := if gone then .exited else .active
      v := Vector.ofFn fun r => if r.val < cv then w32 (f (16 + 4 * r.val) 4) else 0 }

/-- A group of a phase record. -/
def phaseGroup (tid index : Nat) (d : NodeDesc) (f : Reader) : Group :=
  { startGroup tid index d.frame ((List.range d.cs).map fun i => w64 (f (88 + 8 * i) 8))
      (Vector.ofFn fun j =>
        phaseLane (Reader.from f (152 + 80 * j.val)) d.cv (f (2 * j.val) 2) (bits (f 64 4) j.val j.val == 1)) with
    cvm := cvmValue (f 68 4), gbase := w64 (bits (f 72 8) 53 0), wsave := w64 (bits (f 80 8) 53 16 * 65536) }

def Die.phaseAddr (d : Die) (record : Nat) : Nat := bits d.phbase.toNat 51 18 * 2 ^ 18 + 2 ^ 18 * record

/-- A team goes on with its next phase from its record, which is free again; memory beside it is zero, the accumulators too
(R190). Reserved bytes of the record are not read (log entry 39). -/
def State.placePhase (s : State) (die core tid record : Nat) (t : Team) : State :=
  let f : Reader := fun o n => s.num ((s.die die).phaseAddr record + o) n
  let t' := { newTeam core t.die t.handle t.tidx t.kind t.desc with
    cx := t.cx, cy := t.cy, cz := t.cz, x := t.x, y := t.y, cluster := t.cluster, phase := t.phase, chain := t.chain }
  let gs := (List.range (f 12 1)).map fun i => phaseGroup tid i t.desc (Reader.from f (64 + 2752 * i))
  let s := s.modDie die fun d => { d with phases := d.phases.filter (· != record) }
  let s := s.modCore core fun k => { k with acc := Vector.replicate 2 [] }
  s.addTeam tid t' gs

/-- Where a context record of a die's directory lies: slots of 32 MiB, and an offset within (R330, R353). -/
def Die.contextAddr (d : Die) (x : Nat) : Nat := bits d.ctxbase.toNat 51 25 * 2 ^ 25 + x

/-- A moved team enters a core and its placement is asked of the cox; reserved bytes of its record are not read (log entry
39). -/
def State.placeMoved (s : State) (die core record prio : Nat) (k : Kept) : State :=
  ((s.enterCore k ((s.die die).contextAddr record) core).modTeam k.tid fun t => { t with prio := prio }).modCore core fun x => { x with places := x.places ++ [k.tid] }

/-! ### One placement -/

/-- The item of a pool entry is placed on cores; what is left of it stays in the pool. -/
def State.placeItem (s : State) (die prio : Nat) (x : PoolItem) (cores : List Nat) : State × Option PoolItem :=
  let core := cores.head?.getD 0
  match x with
  | .grid key next stop =>
    match s.nodeAt key with
    | none => (s, none)
    | some n =>
      (s.placeCluster die (handleOf (key / 4096) n.gen (key % 4096)) n.desc next cores,
        if next + 1 < stop then some (.grid key (next + 1) stop) else none)
  | .tile key rs =>
    match s.nodeAt key with
    | none => (s, none)
    | some n =>
      ((s.placeTile die core (handleOf (key / 4096) n.gen (key % 4096)) n.desc rs).modNode (key / 4096) (key % 4096)
        fun n => { n with live := n.live + 1 }, none)
  | .evaluator pa d a b c e => (s.placeEvaluator die core pa d [a, b, c, e], none)
  | .phase records ts =>
    ((records.zip ts).foldl (fun s y =>
      let c := y.2.x + y.2.desc.cw * y.2.y
      s.placePhase die (cores[c]?.getD core) (y.2.cluster[c]?.getD 0) y.1 y.2) s, none)
  | .vacated records ks =>
    ((records.zip ks).foldl (fun s y =>
      let c := ((tget s.teams y.2.tid).map fun t => t.x + t.desc.cw * t.y).getD 0
      s.placeMoved die (cores[c]?.getD core) y.1 prio y.2) s, none)

/-- A served node goes to the end of the rotating list of its level. -/
def State.serve (s : State) (die level key : Nat) : State :=
  let order := (s.rotation die level).filter (· != key) ++ [key]
  s.modDie die fun d => { d with served := (d.served.filter fun x => x.1 != level) ++ order.map fun k => (level, k) }

/-- The entry after a dispatch: its wait begins again, and its reservation is over. -/
def PoolEntry.again (e : PoolEntry) (item : PoolItem) (stroke : DWord) : PoolEntry :=
  { PoolEntry.enter item e.prio stroke with res := false }

/-- New teams keep the base priority of their entry. -/
def State.markPrio (s : State) (before p : Nat) : State :=
  { s with teams := s.teams.map fun x => if before ≤ x.1 then (x.1, { x.2 with prio := p }) else x }

/-- A die places from its pool. -/
def State.placeFromPool (s : State) (die : Nat) (c : Candidate) (cores : List Nat) : State :=
  match (s.die die).pool[c.idx]? with
  | none => s
  | some e =>
    let s := s.serve die c.level c.key
    let before := s.nextId
    let (s, rest) := s.placeItem die e.prio e.item cores
    let s := s.markPrio before e.prio
    s.modDie die fun d =>
      { d with
        reserved := if e.res then [] else d.reserved
        pool := match rest with
          | some x => d.pool.set c.idx (e.again x s.stroke)
          | none => d.pool.eraseIdx c.idx }

/-- PLACEMENT_DECISION: the best that a die has is placed, when it is one of the die's own pool. -/
def execPlacementDecision (die : Nat) (s : State) : Out :=
  match s.best die with
  | some (c, cores) => .next (if c.arb then s else s.placeFromPool die c cores)
  | none => .next s

def State.placementDue (s : State) (die : Nat) : Bool :=
  match s.best die with
  | some (c, _) => !c.arb
  | none => false

/-! ### The package arbiter (R286) -/

/-- Dies in the order in which they are served: after the one served last. -/
def State.arbOrder (s : State) : List Nat := (List.range 8).map fun i => (s.arbLast + 1 + i) % 8

/-- The first die that asks for a cluster, with its candidate and cores. -/
def State.asking (s : State) : Option (Nat × Candidate × List Nat) :=
  s.arbOrder.findSome? fun die =>
    match s.best die with
    | some (c, cores) => if c.arb then some (die, c, cores) else none
    | none => none

/-- PACKAGE_ARBITER_HANDOUT: one cluster goes to the first die that asks, and is placed there. -/
def execPackageArbiterHandout (s : State) : Out :=
  match s.asking with
  | none => .next s
  | some (die, c, cores) =>
    match s.arb[c.idx]? with
    | none => .next s
    | some e =>
      match tget (s.die e.die).nodes e.entry with
      | none => .next s
      | some n =>
        let s := s.serve die c.level c.key
        let s := s.placeCluster die (handleOf e.die n.gen e.entry) n.desc e.next cores
        let s := e.res.foldl (fun s d => s.modDie d fun x => { x with reserved := [] }) s
        let e' : ArbEntry := { e with
          next := e.next + 1, since := s.stroke, at7 := if n.desc.prio ≥ 7 then some s.stroke else none
          e := min 7 n.desc.prio, res := [] }
        .next { s with
          arbLast := die
          arb := if e'.next < e'.stop then s.arb.set c.idx e' else s.arb.eraseIdx c.idx }

/-! ### Aging and reservation (R283) -/

/-- An arbiter entry's effective priority. -/
def State.arbLevel (s : State) (x : ArbEntry) : Nat :=
  match tget (s.die x.die).nodes x.entry with
  | none => x.e
  | some n => min 7 (n.desc.prio + (s.stroke - x.since).toNat / 16384)

def State.ageArb (s : State) (x : ArbEntry) : ArbEntry :=
  let v := s.arbLevel x
  let p := ((tget (s.die x.die).nodes x.entry).map (·.desc.prio)).getD 0
  { x with e := v, at7 := if v ≥ 7 && x.at7.isNone then some (x.since + w64 (16384 * (7 - p))) else x.at7 }

/-- PRIORITY_AGING: the effective priorities of a die's entries follow the stroke counter. -/
def execPriorityAging (die : Nat) (s : State) : Out :=
  .next { s.modDie die (fun d => { d with pool := d.pool.map (PoolEntry.age s.stroke) }) with
    arb := s.arb.map fun x => if x.die = die then s.ageArb x else x }

def State.agingDue (s : State) (die : Nat) : Bool :=
  (s.die die).pool.any (fun e => e.age s.stroke != e) || s.arb.any fun x => x.die == die && s.ageArb x != x

/-- The stroke at which a candidate's e reached 7. -/
def State.reached (s : State) (die : Nat) (c : Candidate) : Option DWord :=
  if c.arb then (s.arb[c.idx]?).bind fun x => (s.ageArb x).at7
  else ((s.die die).pool[c.idx]?).bind fun e => (e.age s.stroke).at7

/-- A candidate that may reserve: at 7 for 16384 strokes without fitting. -/
def State.mayReserve (s : State) (die : Nat) (c : Candidate) : Bool :=
  match s.reached die c with
  | none => false
  | some t => 16384 ≤ (s.stroke - t).toNat && (s.spot die c false).isNone && (s.spot die c true).isSome

/-- The one that has waited longest. -/
def State.reserver (s : State) (die : Nat) : Option Candidate :=
  if !(s.die die).reserved.isEmpty then none
  else
    let cs := (s.candidates die).filter (s.mayReserve die)
    let waited := fun (c : Candidate) => ((s.reached die c).map fun t => (s.stroke - t).toNat).getD 0
    cs.find? fun c => cs.all fun x => waited x ≤ waited c

/-- RESERVATION: a die's oldest starved entry reserves the cores it would have if they were empty. -/
def execReservation (die : Nat) (s : State) : Out :=
  match s.reserver die with
  | none => .next s
  | some c =>
    match s.spot die c true with
    | none => .next s
    | some cores =>
      let s := s.modDie die fun d => { d with reserved := cores.map (· % 216) }
      .next (if c.arb then
          { s with arb := ((List.range s.arb.length).zip s.arb).map fun x =>
              if x.1 = c.idx then { x.2 with res := x.2.res ++ [die] } else x.2 }
        else s.modDie die fun d =>
          { d with pool := ((List.range d.pool.length).zip d.pool).map fun x =>
              if x.1 = c.idx then { x.2 with res := true } else x.2 })

/-! ### The start of a team (R192, R279, R346) -/

/-- MENU_ENTRY_APPLY: a core whose teams chose another entry applies it and loses its L1. -/
def execMenuEntryApply (core entry : Nat) (s : State) : Out :=
  let ts := s.teamsOn core
  if !ts.isEmpty && ts.all (fun t => t.desc.menu == entry) && (s.core core).menu != some entry then
    .next (s.modCore core fun k => { k with menu := some entry, l1 := [], stale := [], hostStale := [] })
  else .next s

/-- The entry a core has still to apply. -/
def State.menuDue (s : State) (core : Nat) : Option Nat :=
  match (s.teamsOn core).head? with
  | none => none
  | some t => if (s.core core).menu = some t.desc.menu then none else some t.desc.menu

/-- The fault of a team's landing is outstanding. -/
def State.landFaulted (s : State) (t : Team) : Bool :=
  (s.die t.die).faults.contains (t.desc.asid, t.desc.seg / 65536, Acc.land.code)

/-- A placed team's segment: read, and its landing started; a bad descriptor leaves it unlanded (R279), and so does one that an
uncorrectable error keeps from being read, which is reported (R336, log entry 22). -/
def State.landSegment (s : State) (tid : Nat) : State :=
  match tget s.teams tid with
  | none => s
  | some t =>
    let done := fun (s : State) => s.modTeam tid fun t => { t with landed := true }
    if !t.placed || t.landed then s
    else if t.desc.seg = 0 then done s
    else
      match s.dieRead t.die t.desc.asid t.desc.seg 16 .land with
      | .error f =>
        let x : DieStop := ⟨t.desc.asid, t.desc.seg, 16, f⟩
        match s.badAt t.die x .land with
        | some line => done (s.memoryError t.core line 4 (s.asTeam tid))
        | none => s.dieFault t.die x .land (s.teamEvent tid 1)
      | .ok (bs, s) =>
        match SegDesc.parse (leNat bs) with
        | none => done s
        | some d =>
          if !t.inWindow d then done s
          else
            match (s.core t.core).equalEntry d with
            | some e => if e.state = .landed then done s else s
            | none =>
              match (s.core t.core).startLanding tid t.desc.asid t.allot d [] with
              | some k => s.setCore t.core k
              | none => s

/-- Landing of the segment can go on now. -/
def State.landDue (s : State) (tid : Nat) (t : Team) : Bool :=
  t.placed && !t.landed && !s.landFaulted t &&
    !(s.core t.core).land.any fun e => e.tid == tid && e.state == .landing && !e.dead

/-- Every team of the cluster is placed and has landed, and its core has the menu entry. -/
def State.clusterReady (s : State) (t : Team) : Bool :=
  t.cluster.all fun i =>
    match tget s.teams i with
    | none => true
    | some x => x.placed && x.landed && (s.core x.core).menu == some x.desc.menu

/-- Groups of a team released together; each starts after what its launch follows (R209). -/
def State.releaseTeam (s : State) (tid : Nat) : State :=
  (s.groups.filter fun x => x.2.tid == tid).foldl (fun s x =>
    (s.acquire x.1 4).modGroup x.1 fun g => { g with released := true }) s

def State.unreleased (s : State) (tid : Nat) : Bool := s.groups.any fun x => x.2.tid == tid && !x.2.released

def State.teamStartDue (s : State) (tid : Nat) : Bool :=
  match tget s.teams tid with
  | none => false
  | some t => s.landDue tid t || (t.placed && t.landed && s.unreleased tid && s.clusterReady t)

/-- TEAM_START: the segment lands, and the groups of the cluster are released together. -/
def execTeamStart (team : Nat) (s : State) : Out :=
  let s := s.landSegment team
  match tget s.teams team with
  | none => .next s
  | some t =>
    if t.placed && t.landed && s.clusterReady t then .next (t.cluster.foldl State.releaseTeam s) else .next s

end Sys2Proof.Machine
end

