-- ==== Sys2Proof/Machine/Boathouse.lean ====
section
/-! DEFINITION. The boathouse beside placement: signals (R278), records and timers (R281, R282), the slipway (R287), the end
of teams (R113, R282, R288, R337) and of phases (R160, R284), held events (R339) and trap reports (R324). -/

namespace Sys2Proof.Machine

/-! ### Signals, records, timers -/

/-- NODE_SIGNAL: one signal arrives at the node of a handle. -/
def execNodeSignal (handle : BitVec 32) (s : State) : Out := .next (s.signal handle)

/-- The node of a closed queue is done and its last update waits for nothing. -/
def State.retireDue (s : State) (die q : Nat) : Bool :=
  match s.queueNode die q with
  | none => false
  | some (nd, entry, n) =>
    n.closed && s.nodeDone nd entry n &&
      !(s.die nd).faults.contains (n.desc.asid, n.desc.cobj / 65536, Acc.engWrite.code)

/-- RECORD_ARRIVAL: the records that have arrived at a queue join its tiles; a closed queue that is done retires its
node. -/
def execRecordArrival (die queue : Nat) (s : State) : Out :=
  let s := s.joinAll die queue (s.queue die queue).arrive.length
  match s.queueNode die queue with
  | some (nd, entry, n) => .next (if n.closed then (s.retire nd entry).2 else s)
  | none => .next s

def State.arrivalDue (s : State) (die q : Nat) : Bool :=
  s.retireDue die q ||
    match (s.queue die q).arrive with
    | [] => false
    | r :: _ => (s.joinTile die q r).1

/-- FLUSH_TIMER_EXPIRY: an open tile whose timer has expired closes. -/
def execFlushTimerExpiry (die queue : Nat) (s : State) : Out := .next (s.expireTile die queue).2

def State.timerExpired (s : State) (die q : Nat) : Bool :=
  match s.queueNode die q with
  | none => false
  | some (_, _, n) =>
    !(s.queue die q).opened.isEmpty && (s.closeDue die q || timerDue (s.queue die q) n.desc.flush s.stroke)

/-! ### Phases that wait for the pool (R160, R284) -/

/-- A yielded team's cluster has no team left that still runs its phase. -/
def State.phaseWhole (s : State) (die : Nat) (t : Team) : Bool :=
  let ys := (s.die die).yielded.map Prod.fst
  t.cluster.all fun i => ys.contains i || (tget s.teams i).isNone

/-- The first cluster of a die whose next phase may enter the pool. -/
def State.nextPhase (s : State) (die : Nat) : Option (List (Nat × Nat × Team)) :=
  ((s.die die).yielded.find? fun y => s.phaseWhole die y.2.2).map fun y =>
    (s.die die).yielded.filter fun z => y.2.2.cluster.contains z.1

/-- The base priority of the entry a team came from; an evaluator's as it has been raised (R227, R334). -/
def State.entryPrio (s : State) (t : Team) : Nat :=
  match t.kind with
  | .evaluator pa => max t.prio (((s.evaluation pa).map (·.prio)).getD 0)
  | _ => t.prio

/-- The base priority of a team's next phase: an evaluator's is never lowered (R227). -/
def State.phasePrio (s : State) (t : Team) : Nat :=
  match t.kind with
  | .evaluator _ => s.entryPrio t
  | _ => t.desc.prio

/-- The next phases of a die's clusters enter the pool at their base priority, as far as there is room. -/
def State.queuePhases (s : State) (die : Nat) : Nat → State
  | 0 => s
  | n + 1 =>
    match s.nextPhase die with
    | none => s
    | some ys =>
      match ys.head? with
      | none => s
      | some y =>
        match s.poolAdd die (.phase (ys.map fun z => z.2.1) (ys.map fun z => z.2.2)) (s.phasePrio y.2.2) with
        | (false, s) => s
        | (true, s) =>
          (s.modDie die fun d => { d with yielded := d.yielded.filter fun z => !y.2.2.cluster.contains z.1 }).queuePhases die n

/-! ### The slipway (R287) -/

/-- Nodes that are ready but have not entered the pool. -/
def Die.unentered (d : Die) : List Nat := (d.nodes.filter fun x => x.2.need == 0 && !x.2.ready).map Prod.fst

/-- The oldest item of the slipway may return. -/
def State.slipDue (s : State) (die : Nat) : Bool :=
  match (s.die die).slip with
  | [] => false
  | .pool _ :: _ => (s.die die).pool.length < 8192
  | .record _ _ :: _ => (s.die die).records < 16384

/-- Moved instances enter the pool or the slipway in order, as far as there is room (R287, R334). -/
def State.queueWaiting (s : State) (die : Nat) : Nat → State
  | 0 => s
  | n + 1 =>
    match (s.die die).moved with
    | [] => s
    | x :: xs =>
      match s.poolAdd die x.1 x.2 with
      | (false, s) => s
      | (true, s) => (s.modDie die fun d => { d with moved := xs }).queueWaiting die n

/-- Something waits for room that there now is: groups for the record store, too. -/
def State.roomDue (s : State) (die : Nat) : Bool :=
  let d := s.die die
  ((s.poolRoom die).1 && (!d.stalled.isEmpty || !d.unentered.isEmpty || !d.moved.isEmpty || (s.nextPhase die).isSome)) ||
    (d.records < 16384 && !d.stalled.isEmpty)

/-- The oldest item comes back; an entry waits in the pool from then on (R283). -/
def State.slipTake (s : State) (die : Nat) : State :=
  match (s.die die).slip with
  | [] => s
  | x :: xs =>
    let s := s.modDie die fun d => { d with slip := xs, slipHead := d.slipHead + Config.slipItemBytes, slipEvent := false }
    match x with
    | .pool e => s.modDie die fun d => { d with pool := d.pool ++ [PoolEntry.enter e.item e.prio s.stroke] }
    | .record q r =>
      if (s.queueNode die q).isNone then s
      else s.setQueue die q { s.queue die q with arrive := (s.queue die q).arrive ++ [r] }

/-- The group that has waited longest replays, before anything else. -/
def State.wakeStalled (s : State) (die : Nat) : State :=
  match (s.die die).stalled with
  | [] => s
  | k :: ks =>
    let m := match tget s.groups k with
      | some g => g.where fun l => l.state == .parked .slipway
      | none => 0
    let s := (s.modDie die fun d => { d with stalled := ks }).wake k fun w => w == .slipway
    { s with agenda := .replay ⟨k, 0, m, false, none⟩ :: s.agenda }

/-- SLIPWAY_RETURN: the oldest item returns when there is space for it; then what waited for room tries again. -/
def execSlipwayReturn (die : Nat) (s : State) : Out :=
  let s := if s.slipDue die then s.slipTake die else s
  if s.roomDue die then
    let s := s.queueWaiting die (s.die die).moved.length
    let s := (s.die die).unentered.foldl (fun s e => (s.makeReady die e).2) s
    .next ((s.queuePhases die (s.die die).yielded.length).wakeStalled die)
  else .next s

/-! ### The end of a team (R230, R282, R288, R337) -/

/-- Commands, posted atomics and stores to peers of a team that are not yet done (R239, R290, R363). -/
def State.teamBusy (s : State) (tid : Nat) : Bool :=
  let of := fun (gkey : Nat) => ((tget s.groups gkey).map (·.tid)) == some tid
  s.cores.any (fun x => x.2.cmds.any (fun c => c.tid == tid) || x.2.posted.any fun y => of y.gkey) ||
    s.peerWaits.any fun x => of x.2.gkey && x.2.req.major != 0x20

/-- Every lane of the team has exited. -/
def State.teamGone (s : State) (tid : Nat) : Bool :=
  s.groups.all fun x => x.2.tid != tid || (List.range 32).all fun p => (x.2.lane p).gone

/-- The evaluation a team leaves without a FULFILL fails (R230). -/
def State.endEvaluation (s : State) (tid : Nat) : State :=
  s.dies.toList.foldl (fun s d => d.cells.foldl (fun s e =>
    if e.team = some tid then s.failCell e.pa e.notify e.chain else s) s) s

/-- The completion object that a team's end updates itself: that of a tile's node or of an evaluator's template. -/
def Team.endObject (t : Team) : Nat :=
  match t.kind with
  | .grid => 0
  | _ => t.desc.cobj

/-- The team's end is counted at its node; false while the object's page faults. -/
def State.countEnd (s : State) (tid : Nat) (t : Team) : Bool × State :=
  if t.counted then (true, s)
  else
    match if t.endObject = 0 then (true, s) else s.dieComplete t.die t.desc.asid t.endObject 0 (s.teamEvent tid 1) with
    | (false, s) => (false, s)
    | (true, s) =>
      let s := s.modTeam tid fun t => { t with counted := true }
      match s.findNode t.handle with
      | none => (true, s)
      | some (die, entry, _) =>
        (true, s.modNode die entry fun n =>
          { n with ended := n.ended + 1, live := if t.kind = .tile then n.live - 1 else n.live })

/-- What the team held is free (R113, R337). -/
def State.freeTeam (s : State) (tid : Nat) (t : Team) : State :=
  let s := s.clearCore t.core tid
  let s := (s.recordGroups tid).foldl State.dropGroup s
  { s with
    teams := terase s.teams tid
    calls := s.calls.filter fun x => x.2.tid != tid
    dies := Vector.ofFn fun i =>
      { s.dies[i] with vacates := s.dies[i].vacates.map fun v => { v with teams := v.teams.filter (· != tid) } } }

/-- TEAM_END: a team whose lanes have exited and whose operations are done ends; its node may retire with it. -/
def State.endTeam (s : State) (tid : Nat) (t : Team) : State :=
  match (s.endEvaluation tid).countEnd tid t with
  | (false, s) => s
  | (true, s) =>
    match s.findNode t.handle with
    | none => s.freeTeam tid t
    | some (die, entry, _) =>
      match s.retire die entry with
      | (false, s) => s
      | (true, s) => (s.freeTeam tid t).queuePhases t.die (s.die t.die).yielded.length

/-- The page of an object that the end updates has no fault outstanding. -/
def State.endBlocked (s : State) (t : Team) : Bool :=
  let f := fun (die asid va : Nat) => va != 0 && (s.die die).faults.contains (asid, va / 65536, Acc.engWrite.code)
  (!t.counted && f t.die t.desc.asid t.endObject) ||
    match s.findNode t.handle with
    | none => false
    | some (die, _, n) => f die n.desc.asid n.desc.cobj

def State.teamEndDue (s : State) (tid : Nat) : Bool :=
  match tget s.teams tid with
  | none => false
  | some t => t.core < noCore && s.teamGone tid && !s.teamBusy tid && !s.endBlocked t

def execTeamEnd (team : Nat) (s : State) : Out :=
  match tget s.teams team with
  | none => .next s
  | some t => .next (if s.teamEndDue team then s.endTeam team t else s)

/-! ### The end of a phase (R160, R284) -/

/-- A lane of a phase record. -/
def Lane.phaseRecord (l : Lane) (cv : Nat) : List Byte :=
  leBytes 8 l.vpc.toNat ++ leBytes 8 l.lrng.toNat ++
    (List.range 16).flatMap fun r => leBytes 4 (if r < cv then (l.reg r).toNat else 0)

/-- A group of a phase record. -/
def Group.phaseRecord (g : Group) (d : NodeDesc) : List Byte :=
  ((List.range 32).flatMap fun p => leBytes 2 (if (g.lane p).state = .absent then 0xFFFF else (g.lane p).lid.toNat)) ++
    leBytes 4 (g.where fun l => l.state == .exited).toNat ++ leBytes 4 g.cvm.toNat ++ leBytes 8 g.gbase.toNat ++
    leBytes 8 g.wsave.toNat ++
    ((List.range 8).flatMap fun i => leBytes 8 (if i < d.cs then (g.u.reg i).toNat else 0)) ++
    ((List.range 32).flatMap fun p => (g.lane p).phaseRecord d.cv) ++ leBytes 40 0

/-- A team's phase record. -/
def State.phaseRecord (s : State) (tid : Nat) (t : Team) : List Byte :=
  let gs := (s.recordGroups tid).filterMap fun k => tget s.groups k
  leBytes 4 t.handle.toNat ++ leBytes 4 t.phase ++ leBytes 4 t.tidx ++ leBytes 1 gs.length ++ leBytes 1 t.desc.cv ++
    leBytes 1 t.desc.cs ++ leBytes 49 0 ++ gs.flatMap fun g => g.phaseRecord t.desc

/-- A phase record of a die that is not in use. -/
def Die.freePhase (d : Die) : Option Nat := (List.range (bits d.phbase.toNat 15 0)).find? fun i => !d.phases.contains i

/-- Every lane of the team waits for the next phase or has exited, and one of them waits. -/
def State.yielding (s : State) (tid : Nat) : Bool :=
  let gs := s.groups.filter fun x => x.2.tid == tid
  gs.all (fun x => (x.2.stop.map (·.reason)) != some 1 && (List.range 32).all fun p =>
    (x.2.lane p).gone || (x.2.lane p).state == .parked .phaseYield) && !s.teamGone tid

def State.phaseDue (s : State) (tid : Nat) : Bool :=
  match tget s.teams tid with
  | none => false
  | some t => t.core < noCore && s.yielding tid && !s.teamBusy tid && (s.die t.die).freePhase.isSome

/-- PHASE_RECORD_WRITE: the phase record is written, the team leaves its core, and the cluster's next phase is queued with
the last of its teams. -/
def execPhaseRecordWrite (team : Nat) (s : State) : Out :=
  match tget s.teams team with
  | none => .next s
  | some t =>
    match if s.phaseDue team then (s.die t.die).freePhase else none with
    | none => .next s
    | some i =>
      let s := s.store none ((s.die t.die).phaseAddr i) (s.phaseRecord team t)
      let s := s.freeTeam team t
      let s := s.modDie t.die fun d =>
        { d with phases := d.phases ++ [i], yielded := d.yielded ++ [(team, i, { t with phase := t.phase + 1 })] }
      .next (s.queuePhases t.die (s.die t.die).yielded.length)

/-! ### Held events and trap reports (R324, R339) -/

/-- EVENT_HOLD_RELEASE. -/
def execEventHoldRelease (die : Nat) (s : State) : Out :=
  .next (s.ringDrain die ((s.die die).evhold.length + (s.die die).evwait.length))

def State.holdDue (s : State) (die : Nat) : Bool := !(s.die die).evhold.isEmpty && (s.die die).ringOpen

def State.admitDue (s : State) (core : Nat) : Bool := (s.core core).reports.length < 64 && !(s.core core).trapWait.isEmpty

/-- TRAP_QUEUE_ADMIT: the group that trapped first of those without a report enters the queue. -/
def execTrapQueueAdmit (core : Nat) (s : State) : Out :=
  match (s.core core).trapWait with
  | [] => .next s
  | k :: ks =>
    if !s.admitDue core then .next s
    else
      let s := s.modCore core fun x => { x with trapWait := ks }
      match tget s.groups k with
      | none => .next s
      | some g =>
        match g.stop with
        | some x =>
          .next (if x.reason = 1 then s.modCore core fun y => { y with reports := y.reports ++ [reportOf k g x] } else s)
        | none => .next s

end Sys2Proof.Machine
end

