-- ==== Sys2Proof/Machine/System.lean ====
section
/-! DEFINITION. What system software does through privileged registers (R202, R334, R339, R353, R354, R362): translation
buffers, vacates, resolved pages, counters, routes and the event ring. -/

namespace Sys2Proof.Machine

/-! ### Translation buffers (R201, R354) -/

/-- No buffer of the package holds a translation that meets a test. -/
def State.tlbinv (s : State) (f : TlbEntry → Bool) : State :=
  { s with
    cores := s.cores.map fun x => (x.1, { x.2 with tlb := x.2.tlb.filter fun t => !f t })
    dies := Vector.ofFn fun i => { s.dies[i] with tlb := s.dies[i].tlb.filter fun t => !f t } }

def execTlbinvPage (asid page : Nat) (s : State) : Out := .next (s.tlbinv fun t => t.covers asid page)

def execTlbinvAsid (asid : Nat) (s : State) : Out := .next (s.tlbinv fun t => t.asid == asid)

def execTlbinvAll (s : State) : Out := .next (s.tlbinv fun _ => true)

/-! ### Stops for a move (R334, R351) -/

/-- The team is still to be moved by a vacate: none has taken it off its core meanwhile. -/
def Vacate.moves (v : Vacate) (tid : Nat) (t : Team) : Bool := v.teams.contains tid && v.cores.contains t.core

/-- Why the groups of a team are being stopped: 2 for a vacate, 3 for a CTX.save. -/
def State.stopReason (s : State) (tid : Nat) (t : Team) : Option Nat :=
  if (s.die t.die).vacates.any fun v => v.moves tid t then some 2
  else if (s.core t.core).cox.saving = some tid then some 3
  else none

/-- A group stops before its next unit. -/
def State.stopGroup (s : State) (gkey reason : Nat) (hard : Bool) : State :=
  match tget s.groups gkey with
  | none => s
  | some g =>
    if g.stop.isSome then s
    else
      (s.setGroup gkey { g with stop := some ⟨0, g.boundary, g.boundary, 0, 0, 0, 0, hard, reason⟩ }).leaveSeat gkey

/-- Every group of the teams being moved that meets a test stops. -/
def State.stopMoving (s : State) (f : Team → Group → Bool) (hard : Bool) : State :=
  s.groups.foldl (fun s x =>
    match tget s.teams x.2.tid with
    | none => s
    | some t =>
      match s.stopReason x.2.tid t with
      | some r => if f t x.2 then s.stopGroup x.1 r hard else s
      | none => s) s

/-- Groups whose lanes are all parked, waiting or gone stop at once (R334). -/
def State.stopParked (s : State) : State := s.stopMoving (fun _ g => g.where Lane.runnable == 0) false

/-! ### The vacate set (R353) -/

def State.vacsetAdd (s : State) (die core : Nat) : State :=
  s.modDie die fun d => if d.vacset.contains core then d else { d with vacset := d.vacset ++ [core] }

def State.vacsetEmpty (s : State) (die : Nat) : State := s.modDie die fun d => { d with vacset := [] }

def execVacsetAdd (die core : Nat) (s : State) : Out := .next (s.vacsetAdd die core)

def execVacsetEmpty (die : Nat) (s : State) : Out := .next (s.vacsetEmpty die)

/-- A vacate of the set begins (R334): the teams on its cores and the whole clusters of those teams; all their cores take no
new team. -/
def State.vacgo (s : State) (die : Nat) (cobj : DWord) : State :=
  let cores := (s.die die).vacset.map fun c => 216 * die + c
  let there := s.teams.filter fun x => cores.contains x.2.core
  let tids := (there.flatMap fun x => x.2.cluster).eraseDups.filter fun i => (tget s.teams i).any fun t => t.core < noCore
  let cores := (cores ++ tids.filterMap fun i => (tget s.teams i).map (·.core)).eraseDups
  (s.modDie die fun d => { d with vacset := [], vacates := d.vacates ++ [⟨cores, tids, cobj, false⟩] }).stopParked

def execVacgo (die : Nat) (cobj : BitVec 64) (s : State) : Out := .next (s.vacgo die cobj)

/-- VACATE_HARD_STOP: the groups of a die's vacates and saves that still issue are hard-stopped. -/
def execVacateHardStop (die : Nat) (s : State) : Out := .next (s.stopMoving (fun t _ => t.die == die) true)

def State.hardStopDue (s : State) (die : Nat) : Bool :=
  s.groups.any fun x =>
    x.2.stop.isNone && (tget s.teams x.2.tid).any fun t => t.die == die && (s.stopReason x.2.tid t).isSome

/-! ### The end of a vacate (R330, R334) -/

/-- A command stands still for a move: not started, at a fault, blocked on a ring, a queue or an earlier command, or at a
k-step. -/
def State.cmdQuiet (s : State) (core : Nat) (c : Cmd) : Bool :=
  match c.state with
  | .queued => true
  | .issued => true
  | .fault _ _ => true
  | .peer _ => true
  | .nanStop _ => true
  | .sent => true
  | .done => !s.completeDue core c
  | .running =>
    !s.cmdUnanswered c.id &&
      (c.major == 0x22 || s.blocked core c ||
        ((c.fills || (c.major == 0x20 && copyKind c.ops == 5)) && c.ops.length > 4 && !s.ringFillDue core c &&
          !s.queueFillDue core c))

/-- A team may be written to its record. -/
def State.teamQuiet (s : State) (tid : Nat) (t : Team) : Bool :=
  let of := fun (gkey : Nat) => ((tget s.groups gkey).map (·.tid)) == some tid
  (s.groups.all fun x => x.2.tid != tid || x.2.stop.isSome || x.2.where Lane.runnable == 0 || !x.2.released) &&
    (s.core t.core).cmds.all (fun c => c.tid != tid || s.cmdQuiet t.core c) &&
    !(s.core t.core).posted.any (fun x => of x.gkey && x.wait.isNone && x.trap.isNone) &&
    !s.peerWaits.any fun x => x.2.unit.isNone && of x.2.gkey

/-- A vacate may end: its teams are quiet, and none of them is about to end or to end its phase. -/
def State.vacateReady (s : State) (v : Vacate) : Bool :=
  v.teams.all fun i =>
    match tget s.teams i with
    | none => true
    | some t => !v.moves i t || (s.teamQuiet i t && !s.teamGone i && !s.yielding i)

/-- The lowest group slot of a team. -/
def State.lowSlot (s : State) (tid : Nat) : Nat := ((s.groups.filter fun x => x.2.tid == tid).map Prod.fst).head?.getD 0

def roundUp (n k : Nat) : Nat := (n + k - 1) / k * k

/-- The records of a core's teams, one after another from an offset of its slot: team, offset, length. -/
def State.layRecords (s : State) (at0 : Nat) : List Nat → List (Nat × Nat × Nat)
  | [] => []
  | tid :: ts =>
    match tget s.teams tid with
    | none => s.layRecords at0 ts
    | some t =>
      let n := recordE (s.recordGroups tid).length + 135184 + t.sBytes + t.xBytes + t.wBytes + t.deckBytes
      (tid, at0, n) :: s.layRecords (roundUp (at0 + n) 4096) ts

/-- The directory of a core's slot. -/
def State.directory (s : State) (xs : List (Nat × Nat × Nat)) : List Byte :=
  leBytes 4 xs.length ++ leBytes 4 0 ++ padded 4088 (xs.flatMap fun x =>
    let t := tget s.teams x.1
    leBytes 4 x.2.1 ++ leBytes 4 x.2.2 ++ leBytes 4 ((t.map (·.handle.toNat)).getD 0) ++
      leBytes 4 ((t.map (·.tidx)).getD 0))

/-- The teams of a vacate on one core are written to its slot; each with where its record lies in the context area. -/
def State.vacateCore (s : State) (die core : Nat) (tids : List Nat) : List (Nat × Nat × Kept) × State :=
  let order := sortBy s.lowSlot (tids.filter fun i => (tget s.teams i).any fun t => t.core == core)
  let xs := s.layRecords 4096 order
  if xs.isEmpty then ([], s)
  else
    let slot := 2 ^ 25 * (core % 216)
    let s := s.store none ((s.die die).contextAddr slot) (s.directory xs)
    xs.foldl (fun (r, s) x =>
      let (k, s) := s.leaveCore x.1 ((s.die die).contextAddr (slot + x.2.1)) 2
      (r ++ [(x.1, slot + x.2.1, k)], s)) ([], s)

/-- The moved clusters go to the privileged event queue of their die, one above their base priority, and from there to the pool
or the slipway (R287, R334). -/
def State.queueMoved (s : State) (die : Nat) (xs : List (Nat × Nat × Kept)) : State :=
  let clusters := (xs.filterMap fun x => (tget s.teams x.1).map (·.cluster)).eraseDups
  let s := clusters.foldl (fun s c =>
    let mine := c.filterMap fun i => xs.find? fun x => x.1 == i
    match mine.head?.bind fun x => tget s.teams x.1 with
    | none => s
    | some t =>
      let item := PoolItem.vacated (mine.map fun x => x.2.1) (mine.map fun x => x.2.2)
      s.modDie die fun d => { d with moved := d.moved ++ [(item, min 7 (s.entryPrio t + 1))] }) s
  s.queueWaiting die (s.die die).moved.length

/-- The records of a vacate are written and its teams queued. -/
def State.vacateWrite (s : State) (die : Nat) (v : Vacate) : State :=
  let there := v.teams.filter fun i => (tget s.teams i).any (v.moves i)
  let cores := (there.filterMap fun i => (tget s.teams i).map (·.core)).eraseDups
  let (xs, s) := cores.foldl (fun (r, s) core =>
    let (ys, s) := s.vacateCore die core there
    (r ++ ys, s)) (([] : List (Nat × Nat × Kept)), s)
  s.queueMoved die xs

/-- The update of a vacate's object waits for its page; it lies in address space 0 (log entry 17). -/
def State.vacateHeld (s : State) (die : Nat) (v : Vacate) : Bool :=
  v.teams.isEmpty && v.cobj != 0 && (s.die die).faults.contains (0, v.cobj.toNat / 65536, Acc.engWrite.code)

def State.vacateDue (s : State) (die : Nat) : Option Vacate :=
  (s.die die).vacates.find? fun v => s.vacateReady v && !s.vacateHeld die v

/-- VACATE_COMPLETE: the context records are written, the cores are free, the instances enter the pool, the object is
updated. -/
def execVacateComplete (die : Nat) (s : State) : Out :=
  match s.vacateDue die with
  | none => .next s
  | some v =>
    let s := s.vacateWrite die v
    let rest := (s.die die).vacates.erase v
    match if v.cobj = 0 then (true, s) else s.dieComplete die 0 v.cobj.toNat 0 (Event.plain 1) with
    | (true, s) => .next (s.modDie die fun d => { d with vacates := rest })
    | (false, s) => .next (s.modDie die fun d => { d with vacates := { v with cores := [], teams := [] } :: rest })

/-! ### Resolved pages (R202, R353) -/

/-- The group belongs to a die; one in a context record by its team. -/
def State.groupOn (s : State) (die gkey : Nat) (g : Group) : Bool :=
  if coreOf gkey < noCore then dieOf (coreOf gkey) == die else (tget s.teams g.tid).any fun t => t.die == die

/-- A stopped command is offered to its unit again. -/
def Cmd.replayed (c : Cmd) : Cmd :=
  if c.major = 0x22 then { c with state := if c.ops.isEmpty then .issued else .running }
  else { c with state := if c.tabled then .issued else .queued }

/-- Lanes of a die parked for a reason replay, and its commands stopped for one. -/
def State.replayDie (s : State) (die : Nat) (f : ParkWhy → Bool) (h : CmdState → Bool) : State :=
  let s := s.groups.foldl (fun s x => if s.groupOn die x.1 x.2 then s.wake x.1 f else s) s
  let g := fun (c : Cmd) => if h c.state then c.replayed else c
  { s with cores := s.cores.map fun x =>
      if dieOf x.1 = die || x.1 = noCore then (x.1, { x.2 with vq := x.2.vq.map g, dt := x.2.dt.map g }) else x }

/-- Posted atomics of a die whose wait is over are tried again, before their lanes go on (R239); those of a team in a context
record once it is placed. -/
def State.replayPosted (s : State) (die : Nat) (f : ParkWhy → Bool) : State :=
  let ended := fun (x : Posted) => (x.wait.map f).getD false
  let s := s.modCore noCore fun k => { k with posted := k.posted.map fun x => if ended x then { x with wait := none } else x }
  (s.cores.filter fun x => dieOf x.1 == die && x.1 < noCore).foldl (fun s x => s.retryPosted x.1 ended) s

/-- System software has resolved a page: what waited for it on the die replays, and a later fault is reported anew. -/
def State.pageDone (s : State) (die asid page : Nat) : State :=
  let s := s.modDie die fun d =>
    { d with
      faults := d.faults.filter fun x => !(x.1 == asid && x.2.1 == page && (x.2.2 < 16 || x.2.2 == 32))
      host := d.host.map fun x => (x.1, if x.2.held = some (asid, page) then { x.2 with held := none } else x.2) }
  let s := s.replayPosted die (· == .fault asid page)
  let s := s.replayDie die (fun w => w == .fault asid page) (fun x => x == .fault asid page)
  let free := fun (x : Nat × Core) =>
    if dieOf x.1 = die then (x.1, { x.2 with land := x.2.land.map fun e => { e with held := false } }) else x
  { s with cores := s.cores.map free }.retryRuns

def execPgdone (die asid page : Nat) (s : State) : Out := .next (s.pageDone die asid page)

/-! ### Counters, routes, the event ring -/

/-- ECC_CLEAR. -/
def execEccClear (die : Nat) (s : State) : Out := .next (s.modDie die fun d => { d with ecc := 0 })

/-- The peer device that a page of an address space lies at. -/
def State.pageDev (s : State) (die asid page : Nat) : Option Nat :=
  match s.walk die asid (65536 * page) with
  | .fault _ => none
  | .leaf _ level e =>
    match Place.ofEntry e (page / leafPages level * leafPages level) (65536 * page) with
    | .here _ _ => none
    | .peer dev _ => some dev

/-- What a die has parked for a device replays, and the reads of its units that wait for one of its pages (R362). -/
def State.routeSet (s : State) (dev die : Nat) : State :=
  let parked := (s.die die).faults.filter fun x => 16 ≤ x.2.2 && x.2.2 != 32 && s.pageDev die x.1 x.2.1 == some dev
  let s := s.modDie die fun d => { d with faults := d.faults.filter fun x => !parked.contains x }
  let s := s.replayPosted die (· == .peer dev)
  let s := s.replayDie die (fun w => w == .peer dev) (fun x => x == .peer dev)
  parked.foldl (fun s x =>
    if (s.die die).faults.contains (x.1, x.2.1, x.2.2 - 16) then s.pageDone die x.1 x.2.1 else s) s

/-- A route is set for the device that wrsel names, and what was parked for it replays (R362); bits 30:24 are zero. -/
def State.wroute (s : State) (v : Word) : State :=
  let dev := s.wrsel.toNat
  let v := v &&& 0x80FFFFFF#32
  ((List.range 8).foldl (fun (s : State) die => s.routeSet dev die) { s with routes := tset s.routes dev v }).retryRuns

def execWrouteWrite (v : BitVec 32) (s : State) : Out := .next (s.wroute v)

/-- EVHEAD_WRITE: held events then go out as far as the ring has space. -/
def State.evheadSet (s : State) (die : Nat) (v : Word) : State :=
  let s := s.modDie die fun d => { d with evhead := v }
  s.ringDrain die ((s.die die).evhold.length + (s.die die).evwait.length)

def execEvheadWrite (die : Nat) (v : BitVec 32) (s : State) : Out := .next (s.evheadSet die v)

end Sys2Proof.Machine
end

