-- ==== Sys2Proof/Machine/Cox.lean ====
section
/-! DEFINITION. The instructions of the cox (R341-R353). -/

namespace Sys2Proof.Machine

/-! ### The frame of a cox-only unit (R342) -/

/-- What a cox-only unit comes to. -/
inductive CoxRes where
  | done (s : State)
  | result (d : UDst) (x : DWord) (s : State)
  | refuse (code : Nat)
  /-- refused after an effect that stands -/
  | fail (code : Nat) (s : State)
  | cause (n : Nat)
  | wait (s : State)

/-- The cox goes on after a unit: k7 says whether it completed. -/
def State.coxNext (s : State) (c : Issue) (f : Cox → Cox) : State :=
  s.modCore c.core fun k => { k with cox := Cox.advance c (f k.cox) }

/-- The cox goes on after a unit that did not complete: k7 is false, and `coxstat` has the reason. -/
def State.coxRefuse (s : State) (c : Issue) (code : Nat) : State :=
  s.coxNext c fun x => { x with u := x.u.setPred 7 false, stat := BitVec.ofNat 8 code }

/-- A cox-only unit; outside the cox it raises the privilege trap (R55, R344). -/
def coxAct (s : State) (body : Issue → UFile → CoxRes) : Out :=
  match s.cur with
  | none => .fault .noIssue
  | some c =>
    if !c.cox then .next (s.takeTrap c 0x02 (c.word.setWidth 64) 0)
    else
      let u := (s.core c.core).cox.u
      if !c.kholds 0 u then .next (s.coxNext c id)
      else
        match body c u with
        | .done s => .next (s.coxNext c fun x => { x with u := x.u.setPred 7 true })
        | .result d v s => .next (s.coxNext c fun x => { x with u := (d.put false v x.u).setPred 7 true })
        | .refuse code => .next (s.coxRefuse c code)
        | .fail code s => .next (s.coxRefuse c code)
        | .cause n => .next (s.takeTrap c n 0 0)
        | .wait s => .next s

/-- A group reference of a core (R343): the group's key, or the refusal. -/
def State.groupRef (s : State) (core : Nat) (x : DWord) : Except Nat (Nat × Group) :=
  let n := x.toNat
  let key := 64 * core + bits n 5 0
  if bits n 7 6 != 0 then .error 5
  else
    match tget s.groups key with
    | none => .error 1
    | some g =>
      if bits n 63 32 = 0 then .ok (key, g)
      else
        match tget s.teams g.tid with
        | none => .error 1
        | some t => if t.handle.toNat = bits n 63 32 && t.tidx % 2 ^ 24 = bits n 31 8 then .ok (key, g) else .error 1

/-- A unit on the group of a reference. -/
def withGroup (s : State) (core : Nat) (x : DWord) (f : Nat → Group → CoxRes) : CoxRes :=
  match s.groupRef core x with
  | .error code => .refuse code
  | .ok (k, g) => f k g

/-- A unit on a stopped group. -/
def withStopped (s : State) (core : Nat) (x : DWord) (f : Nat → Group → Stop → CoxRes) : CoxRes :=
  withGroup s core x fun k g =>
    match g.stop with
    | some x => f k g x
    | none => .refuse 2

/-! ### The debug window (R333, R348) -/

/-- An entry of the wait list. -/
def waitEntry (kind object : Nat) (m : Mask) (gkey : Nat) : List Byte :=
  leBytes 8 (kind + 2 ^ 8 * object) ++ leBytes 8 (m.toNat + 2 ^ 32 * (gkey % 64))

/-- The cell a lane waits on, as a waiter or as a starter. -/
def Lane.cell (l : Lane) : Option Nat :=
  match l.state with
  | .parked (.cell pa) => some pa
  | .parked (.starter pa) => some pa
  | _ => none

/-- The cells that lanes of a group wait on. -/
def Group.cells (g : Group) : List Nat := ((List.range 32).filterMap fun p => (g.lane p).cell).eraseDups

/-- A lane of the group is parked at a GATHER of a kind. -/
def Group.gathers (g : Group) (team : Bool) : Bool :=
  (List.range 32).any fun p => match (g.lane p).state with | .parked (.gather k _ _) => k == team | _ => false

/-- The callers of a group in the open firings of its team that are still parked (R157, R333). -/
def Team.firingCallers (t : Team) (gkey : Nat) (g : Group) : Mask :=
  let parked := g.where fun l => match l.state with | .parked _ => true | _ => false
  parked &&& maskOf ((t.firings.flatMap fun f => f.callers.filter fun x => x.1 == gkey).map Prod.snd)

/-- What a group of a team is still waited for, or waits for (R333). -/
def State.groupWaits (s : State) (tid : Nat) (t : Team) (gkey : Nat) (g : Group) : List Byte :=
  let own := g.kind == .own
  let some' := fun (kind object : Nat) (m : Mask) => if m = 0 then [] else waitEntry kind object m gkey
  let team := if own && (t.bar.plain || t.bar.yield) then
      some' 1 0 (g.where fun l => !l.gone && l.state.barrierBits != 0x100) else []
  let clus := if own && (t.cluster.flatMap s.ownGroups).any (fun x => x.2.atBarrier .clus != 0) then
      some' 2 0 (g.where fun l => !l.gone && l.state.barrierBits != 0x200) else []
  let members := g.where fun l => l.state != .absent
  let mask := match g.barMask with
    | none => []
    | some b => some' 3 0 (maskOf ((positions members).filter fun p =>
        b.union.getLsbD (rankOf members p) && !(g.lane p).gone && (g.lane p).state.barrierBits != 0x400))
  let join := (List.range 4).flatMap fun j =>
    let m := g.joins[j]?.getD 0
    if (g.where fun l => l.state == .waiting (.join j)) = 0 then []
    else some' 4 j (m &&& g.where fun l => !l.gone && l.state != .waiting (.join j))
  let gath := g.gathers false || (s.groups.filter fun x => x.2.tid == tid).any fun x => x.2.gathers true
  let gather := some' 5 0 ((if gath then g.where fun l => !l.gatherReady else 0) ||| t.firingCallers gkey g)
  let cell := g.cells.flatMap fun pa => some' 6 pa (g.where fun l => l.cell == some pa)
  team ++ clus ++ mask ++ join ++ gather ++ cell

/-- The wait list: at most 256 entries, a zero entry ends it. -/
def State.waitList (s : State) (tid : Nat) (t : Team) : List Byte :=
  padded 4096 (((s.recordGroups tid).flatMap fun k =>
    match tget s.groups k with
    | some g => s.groupWaits tid t k g
    | none => []).take 4096)

/-- Bytes of an area, none for the reserved one. -/
def areaSize : Nat → Nat
  | 0 => 12288 | 1 => 256 | 2 => 4096 | _ => 0

/-- A window address lies in its area. -/
def windowOk (c : DWord) : Bool := bits c.toNat 15 0 % 8 == 0 && bits c.toNat 15 0 < areaSize (bits c.toNat 17 16)

/-- The bytes of an area of a group's window. -/
def State.windowBytes (s : State) (g : Group) (area : Nat) : List Byte :=
  match tget s.teams g.tid with
  | none => []
  | some t =>
    match area with
    | 0 => g.record
    | 1 => s.teamHeader g.tid t ((g.stop.map (·.reason)).getD 0) g.hardStopped
    | _ => s.waitList g.tid t

def execDbgRd (a : UDst) (b c : USrc) (s : State) : Out :=
  coxAct s fun i u =>
    withStopped s i.core (b.get u) fun _ g _ =>
      let w := c.get u
      if w >>> 18 != 0 then .refuse 5
      else if !windowOk w then .refuse 3
      else .result a (w64 (readBytes (s.windowBytes g (bits w.toNat 17 16)) (bits w.toNat 15 0) 8)) s

/-- An offset of a group record that the window may write. -/
def writable (o : Nat) : Bool :=
  (16 ≤ o && o < 464) || o == 504 || o == 512 ||
    (704 ≤ o && o < 12224 &&
      let n := (o - 704) % 360
      n < 32 || (72 ≤ n && n < 304))

/-- A value that the field at an offset can hold: cvm, gbase and addresses by their cards. -/
def windowValueOk (o : Nat) (x : DWord) : Bool :=
  if o = 504 then x >>> 32 == 0 && cvmOk x.toNat && bits x.toNat 31 28 == 0
  else if o = 512 then x >>> 54 == 0
  else if 704 ≤ o && (o - 704) % 360 < 16 then x >>> 54 == 0 && x.toNat % 4 == 0
  else true

/-- A lane with a doubleword of its record written. -/
def Lane.poke (l : Lane) (o : Nat) (x : DWord) : Lane :=
  if o = 0 then { l with vpc := x }
  else if o = 8 then { l with entry := x }
  else if o = 16 then { l with entryRng := x }
  else if o = 24 then
    { l with p := Vector.ofFn fun i => i.val != 0 && x.getLsbD i.val, bad := l.bad &&& 0xFFFFFFFFFFFFFFFF#128 }
  else if o = 296 then { l with lrng := x }
  else (l.setReg ((o - 72) / 4) (x.setWidth 32)).setReg ((o - 72) / 4 + 1) ((x >>> 32).setWidth 32)

/-- A group with a doubleword of its record written, at an offset that the window may write. -/
def Group.poke (g : Group) (o : Nat) (x : DWord) : Group :=
  if o < 464 then { g with u := g.u.setReg ((o - 16) / 8) x }
  else if o = 504 then { g with cvm := x.setWidth 32 }
  else if o = 512 then { g with gbase := x }
  else g.setLane ((o - 704) / 360) ((g.lane ((o - 704) / 360)).poke ((o - 704) % 360) x)

def execDbgWr (a b c : USrc) (s : State) : Out :=
  coxAct s fun i u =>
    withStopped s i.core (b.get u) fun k g _ =>
      let w := c.get u
      let o := bits w.toNat 15 0
      let x := a.get u
      if w >>> 18 != 0 then .refuse 5
      else if !windowOk w || bits w.toNat 17 16 != 0 || !writable o then .refuse 3
      else if !windowValueOk o x then .refuse 5
      else .done (s.setGroup k (g.poke o x))

/-! ### Traps, placements and code (R345-R347) -/

/-- The 48 bytes of a trap report (R323). -/
def Report.bytes (r : Report) : List Byte :=
  leBytes 4 r.cause ++ leBytes 4 r.place.toNat ++ leBytes 4 0 ++ leBytes 4 r.lanes.toNat ++ leBytes 8 r.unit.toNat ++
    leBytes 8 r.region.toNat ++ leBytes 8 r.d1.toNat ++ leBytes 8 r.d2.toNat

/-- The mask of a team's group references. -/
def State.refMask (s : State) (tid : Nat) : Nat :=
  (s.groups.filter fun x => x.2.tid == tid).foldl (fun n x => n + 2 ^ (x.1 % 64)) 0

/-- The 64 bytes of a placement request (R346). -/
def State.requestBytes (s : State) (tid : Nat) : List Byte :=
  match tget s.teams tid with
  | none => leBytes 64 0
  | some t =>
    leBytes 4 t.handle.toNat ++ leBytes 4 t.tidx ++ leBytes 8 (s.refMask tid) ++ leBytes 8 t.desc.seg ++ leBytes 40 0

/-- The next entry of the cox queue (R345). -/
def Core.nextEntry (k : Core) : Option (Report ⊕ Nat) :=
  match k.reports.find? fun r => r.cause == 0x30 || r.cause == 0x31 with
  | some r => some (.inl r)
  | none =>
    match k.reports.find? fun r => r.cause == 0x28 with
    | some r => some (.inl r)
    | none =>
      match k.places with
      | t :: _ => some (.inr t)
      | [] => k.reports.head?.map .inl

def State.setCoxBytes (s : State) (core a : Nat) (bs : List Byte) : State :=
  s.modCore core fun k => { k with cox := { k.cox with mem := mwrite k.cox.mem a bs } }

def execEvq (a : UDst) (b : USrc) (s : State) : Out :=
  coxAct s fun i u =>
    let x := (b.get u).toNat
    if x % 64 != 0 || x ≥ 0x10000 then .cause 0x16
    else
      match (s.core i.core).nextEntry with
      | none => .wait s
      | some (.inl r) =>
        .result a 1 ((s.modCore i.core fun k => { k with reports := k.reports.erase r }).setCoxBytes i.core x r.bytes)
      | some (.inr t) =>
        .result a 2 ((s.modCore i.core fun k => { k with places := k.places.drop 1 }).setCoxBytes i.core x (s.requestBytes t))

/-- A code window meets that of another placed team of the core, or the allotments exceed 64 (R346). -/
def State.windowClash (s : State) (core tid first lines allot : Nat) : Bool :=
  let ts := (s.teams.filter fun x => x.2.core == core && x.1 != tid && x.2.placed).map Prod.snd
  first + lines > 512 || (ts.any fun t => overlap t.winFirst t.winLines first lines && lines != 0 && t.winLines != 0) ||
    sumBy (·.allot) ts + allot > 64

/-- The team that a request names: of the core, not placed, with those groups. -/
def State.requested (s : State) (core : Nat) (f : Reader) : Option Nat :=
  (s.teams.find? fun x =>
    x.2.core == core && !x.2.placed && x.2.handle.toNat == f 0 4 && x.2.tidx == f 4 4 && s.refMask x.1 == f 8 8).map Prod.fst

def execPlace (a : USrc) (s : State) : Out :=
  coxAct s fun i u =>
    let x := (a.get u).toNat
    if x + 64 > 0x10000 then .cause 0x16
    else
      let f : Reader := fun o n => leNat (mread (s.core i.core).cox.mem (x + o) n)
      match s.requested i.core f with
      | none => .refuse 1
      | some tid =>
        let (ws, first, lines, allot) := (f 24 8, f 32 2, f 34 2, f 36 1)
        if f 37 27 != 0 || 2 ^ 54 ≤ ws || ws % 65536 != 0 || allot = 0 then .refuse 5
        else if s.windowClash i.core tid first lines allot then .refuse 4
        else
          let s := s.modTeam tid fun t => { t with placed := true, winFirst := first, winLines := lines, allot := allot }
          let s := (s.groups.filter fun x => x.2.tid == tid).foldl (fun s y =>
            s.modGroup y.1 fun g => { g with wsave := w64 ws }) s
          .done (s.landSegment tid)

/-- CLOAD: Land of a descriptor for a team, and the wait until it is LANDED; the wait stands in the cox's issue count. A
descriptor with an uncorrectable error is reported and refused like an invalid one (R336, log entry 22). -/
def execCload (a b : USrc) (s : State) : Out :=
  coxAct s fun i u =>
    withGroup s i.core (b.get u) fun _ g =>
      match tget s.teams g.tid with
      | none => .refuse 1
      | some t =>
        let va := a.get u
        if va >>> 54 != 0 then .cause 0x16
        else if va.toNat % 16 != 0 then .cause 0x17
        else
          match s.dieRead t.die t.desc.asid va.toNat 16 .land with
          | .error f =>
            let x : DieStop := ⟨t.desc.asid, va.toNat, 16, f⟩
            match s.badAt t.die x .land with
            | some line => .fail 5 (s.memoryError i.core line 4 (s.asTeam g.tid))
            | none => .wait (s.dieFault t.die x .land (s.teamEvent g.tid 1))
          | .ok (bs, s) =>
            match SegDesc.parse (leNat bs) with
            | none => .refuse 5
            | some d =>
              if !t.inWindow d then .refuse 4
              else
                let start := fun (_ : Unit) =>
                  match (s.core i.core).startLanding g.tid t.desc.asid t.allot d [] with
                  | some k => CoxRes.wait (s.setCore i.core { k with cox := { k.cox with rep := 1 } })
                  | none => .wait s
                if (s.core i.core).cox.rep = 0 then start ()
                else
                  match (s.core i.core).equalEntry d with
                  | some e => if e.state = .landed then .done s else .wait s
                  | none => start ()

/-! ### The end of a stop and of a team (R326, R328, R349, R350) -/

/-- A trapped group of a team that is being moved stays stopped for the move. -/
def State.holdStop (s : State) (gkey : Nat) : State :=
  match tget s.groups gkey with
  | none => s
  | some g =>
    match (tget s.teams g.tid).bind fun t => s.stopReason g.tid t with
    | none => s
    | some r => s.stopGroup gkey r false

/-- What RTE makes of a stopped group; none where the cause does not allow the mode. -/
def Group.rte (g : Group) (x : Stop) (mode : Nat) : Option Group :=
  if x.reason != 1 then none
  else
    match mode with
    | 0 => some g.resume
    | 1 => some g.restart
    | _ => if x.cause = 0x04 || x.cause = 0x05 then some (g.resumeAfter x) else none

def execRte (a b : USrc) (s : State) : Out :=
  match s.cur with
  | none => .fault .noIssue
  | some c =>
    let u := (s.core c.core).cox.u
    if c.cox && c.kholds 0 u && b.get u = 3 then
      -- the cox returns to coxepc
      .next (s.modCore c.core fun k =>
        { k with cox := { k.cox with u := k.cox.u.setPred 7 true, pc := k.cox.epc, cause := 0, rep := 0 } })
    else
      coxAct s fun i u =>
        let m := b.get u
        if m >>> 2 != 0 then .refuse 5
        else
          withStopped s i.core (a.get u) fun k g x =>
            match g.rte x m.toNat with
            | none => .refuse 7
            | some g =>
              let s := (s.setGroup k g).endWaits k
              .done (((if m = 2 then s else s.resumeTasks k).holdStop k).finishRegroup g.tid)

/-- Nothing in the dies names the group any more, but for its posted atomics. -/
def State.forgetGroup (s : State) (k : Nat) : State :=
  let posted := fun (pa : Nat) => (s.core (coreOf k)).posted.any fun x => x.gkey == k && x.wait == some (.starter pa)
  { s with dies := Vector.ofFn fun i =>
      { s.dies[i] with
        starters := s.dies[i].starters.filter fun x => x.gkey != k || x.peer.isSome || posted x.pa
        watches := s.dies[i].watches.filter fun w => w.1 != k
        stalled := s.dies[i].stalled.filter (· != k) } }

/-- A team is ended (R337): its groups stop for good, its commands end ABORTED, its evaluation fails; its posted atomics are
still performed. -/
def State.killTeam (s : State) (tid : Nat) : State :=
  match tget s.teams tid with
  | none => s
  | some t =>
    let gs := s.recordGroups tid
    let s := gs.foldl (fun s k => (((s.forgetGroup k).leaveSeat k).modGroup k fun g =>
      { g.mapLanes 0xFFFFFFFF#32 (fun l => if l.state = .absent then l else { l with state := .exited }) with
        stop := none, hold := none, colls := [], barMask := none }).endWaits k) s
    let s := s.modCore t.core fun k =>
      let f := fun (c : Cmd) => if c.tid = tid && c.state != .done then c.finish stABORTED 0 else c
      { k with
        vq := k.vq.map f
        dt := k.dt.map f
        reports := k.reports.filter fun r => !gs.contains r.gkey
        trapWait := k.trapWait.filter fun x => !gs.contains x
        posted := k.posted.filter fun x => !(x.trap.isSome && gs.contains x.gkey)
        places := k.places.filter (· != tid)
        adapters := if (k.currentTask.map (·.tid)) = some tid then
            (k.adapters.filter fun l => !l.dead).map fun l => { l with pin := false }
          else k.adapters }
    let s := { s with
      calls := s.calls.filter fun x => x.2.tid != tid
      cores := s.cores.map fun (x : Nat × Core) => (x.1, { x.2 with tiles := x.2.tiles.filter fun y =>
        !((s.core t.core).cmds.any fun c => c.id == y.cmd && c.tid == tid) }) }
    let s := s.modTeam tid fun t => { t with firings := [], bar := ⟨false, false⟩, ending := true }
    (s.endEvaluation tid).finishCluster ((t.cluster.find? fun i => i != tid).getD tid)

def execKill (a : USrc) (s : State) : Out :=
  coxAct s fun i u => withGroup s i.core (a.get u) fun _ g => .done (s.killTeam g.tid)

/-! ### Saving and loading a team (R351) -/

def execCtxSave (a b : USrc) (s : State) : Out :=
  coxAct s fun i u =>
    let pa := (a.get u).toNat
    if pa % 4096 != 0 || !populated pa then .cause 0x16
    else
      withGroup s i.core (b.get u) fun _ g =>
        match tget s.teams g.tid with
        | none => .refuse 1
        | some t =>
          if t.desc.cw * t.desc.ch > 1 then .refuse 6
          else
            let s := (s.modCore i.core fun k => { k with cox := { k.cox with saving := some g.tid } }).stopParked
            if s.teamQuiet g.tid t && !s.teamGone g.tid && !s.yielding g.tid then
              let (kept, s) := s.leaveCore g.tid pa 3
              .done ({ s with saved := s.saved ++ [kept] }.modCore i.core fun k =>
                { k with cox := { k.cox with saving := none } })
            else .wait s

/-- The team of a record that a cox saved: of those with its handle and index, the one saved where the record lies, else the
one saved first (log entry 33). -/
def State.savedTeam (s : State) (pa : Nat) (f : Reader) : Option (Kept × Team) :=
  let xs := s.saved.filterMap fun k =>
    (tget s.teams k.tid).bind fun t => if t.handle.toNat = f 0 4 && t.tidx = f 4 4 then some (k, t) else none
  (xs.find? fun x => x.1.place == pa).or xs.head?

def execCtxLoad (a : USrc) (s : State) : Out :=
  coxAct s fun i u =>
    let pa := (a.get u).toNat
    if pa % 4096 != 0 || !populated pa then .cause 0x16
    else
      let f : Reader := fun o n => s.num (pa + o) n
      match s.savedTeam pa f with
      | none => .refuse 5
      | some (k, t) =>
        if t.desc.cw * t.desc.ch > 1 then .refuse 6
        else if !recordOk f || f 8 2 != (s.recordGroups k.tid).length then .refuse 5
        else if s.barred (dieOf i.core) i.core false || !s.coreFits i.core t.desc || k.rings.any (fun r => ((s.core i.core).ring r.1).enabled) ||
            s.windowClash i.core k.tid t.winFirst t.winLines t.allot then .refuse 4
        else
          let s := { s with saved := s.saved.erase k }
          let s := (s.enterCore k pa i.core).modTeam k.tid fun t => { t with placed := true, landed := true, die := dieOf i.core }
          .done s

/-! ### Privileged registers (R353, R354, R362) -/

/-- The value of a register as the cox of a core reads it; none where its access is W. -/
def State.readPriv (s : State) (core n : Nat) : Option DWord :=
  let x := (s.core core).cox
  let d := s.die (dieOf core)
  match n with
  | 0 => some x.vec
  | 1 => some x.cause
  | 2 => some x.epc
  | 3 => some (x.stat.setWidth 64)
  | 4 => some d.ctxbase
  | 5 => some d.phbase
  | 6 => some d.slipbase
  | 7 => some (d.slipsize.setWidth 64)
  | 8 => some (d.tsel.setWidth 64)
  | 9 => some ((tget s.troots d.tsel.toNat).getD 0)
  | 13 => some d.ecc
  | 15 => some (s.devid.setWidth 64)
  | 16 => some (s.wrsel.setWidth 64)
  | 17 => some (((tget s.routes s.wrsel.toNat).getD 0).setWidth 64)
  | 18 => some d.evbase
  | 19 => some (d.evsize.setWidth 64)
  | 20 => some (d.evtail.setWidth 64)
  | 21 => some (d.evhead.setWidth 64)
  | _ => none

def execPmsrRd (a : UDst) (b : Nat) (s : State) : Out :=
  coxAct s fun i _ =>
    if b > 21 then .cause 0x01
    else
      match s.readPriv i.core b with
      | some x => .result a x s
      | none => .refuse 8

/-- Every set bit of a value lies in one of the ranges. -/
def onlyBits (x : Nat) (rs : List (Nat × Nat)) : Bool := x == rs.foldl (fun n r => n + bits x r.1 r.2 * 2 ^ r.2) 0

/-- The checks of a register's card; a set bit outside its fields is refused with reason 5 (R342, R353, log entry 33). -/
def privOk (n x : Nat) : Bool :=
  match n with
  | 0 => onlyBits x [(15, 2)]
  | 4 => onlyBits x [(51, 25)]
  | 5 => onlyBits x [(51, 18), (15, 0)]
  | 6 => onlyBits x [(53, 16)]
  | 7 => x ≤ 65536
  | 8 => x < 4096
  | 9 => onlyBits x [(51, 16), (0, 0)]
  | 10 => bits x 63 62 != 3 && bits x 49 38 == 0
  | 11 => x == 0xFFFF || x < 216
  | 12 => x < 2 ^ 54 && x % 16 == 0
  | 14 => x < 2 ^ 50
  | 15 => x < 1024
  | 16 => x < 1024
  | 17 => onlyBits x [(31, 31), (23, 0)]
  | 18 => onlyBits x [(51, 12)]
  | 19 => (List.range 15).any fun i => x == 2 ^ (6 + i)
  | 21 => x < 2 ^ 32
  | _ => true

/-- A write of a register by the cox of a core. -/
def State.writePriv (s : State) (core n : Nat) (x : DWord) : State :=
  let die := dieOf core
  let cox := fun (f : Cox → Cox) => s.modCore core fun k => { k with cox := f k.cox }
  let put := fun (f : Die → Die) => s.modDie die f
  match n with
  | 0 => cox fun y => { y with vec := x }
  | 4 => put fun d => { d with ctxbase := x }
  | 5 => put fun d => { d with phbase := x }
  | 6 => put fun d => { d with slipbase := x }
  | 7 => put fun d => { d with slipsize := x.setWidth 32 }
  | 8 => put fun d => { d with tsel := x.setWidth 12 }
  | 9 => { s with troots := tset s.troots (s.die die).tsel.toNat x }
  | 10 =>
    match bits x.toNat 63 62 with
    | 0 => s.tlbinv fun t => t.covers (bits x.toNat 61 50) (bits x.toNat 37 0)
    | 1 => s.tlbinv fun t => t.asid == bits x.toNat 61 50
    | _ => s.tlbinv fun _ => true
  | 11 => if x = 0xFFFF then s.vacsetEmpty die else s.vacsetAdd die x.toNat
  | 12 => s.vacgo die x
  | 13 => put fun d => { d with ecc := x }
  | 14 => s.pageDone die (bits x.toNat 49 38) (bits x.toNat 37 0)
  | 15 => { s with devid := x.setWidth 16 }
  | 16 => { s with wrsel := x.setWidth 16 }
  | 17 => s.wroute (x.setWidth 32)
  | 18 => put fun d => { d with evbase := x }
  | 19 => put fun d => { d with evsize := x.setWidth 32 }
  | 21 => s.evheadSet die (x.setWidth 32)
  | _ => s

def execPmsrWr (a : USrc) (b : Nat) (s : State) : Out :=
  coxAct s fun i u =>
    if b > 21 then .cause 0x01
    else if b = 1 || b = 2 || b = 3 || b = 20 then .refuse 8
    else if !privOk b (a.get u).toNat then .refuse 5
    else .done (s.writePriv i.core b (a.get u))

end Sys2Proof.Machine
end

