-- ==== Sys2Proof/Machine/Host.lean ====
section
/-! DEFINITION. What the host and peers do (R221, R231, R360-R370): work queues, messages, registers of the CXL.io space,
memory accesses, Wotis flits and links. -/

namespace Sys2Proof.Machine

/-- The device runs: it has power and is not frozen (R372, R377). -/
def State.live (s : State) : Bool := s.powered && !s.frozen

/-- An event from outside, without effect on a device that does not run. -/
def outside (s : State) (f : State → State) : Out := .next (if s.live then f s else s)

/-- An event of the host's queues, which the device takes once its image runs: until then it is idle (R375). -/
def running (s : State) (f : State → State) : Out := outside s fun s => if s.booted then f s else s

/-- The host ports' links are up (R372). -/
def State.portsUp (s : State) : Bool := s.live

/-! ### Host work queues (R366-R368) -/

def HostQueue.reset : HostQueue := ⟨0, 0, 0, 0, 0, 0, 0, 0, none⟩

def State.hostQueue (s : State) (die q : Nat) : HostQueue := (tget (s.die die).host q).getD HostQueue.reset

def State.modHostQueue (s : State) (die q : Nat) (f : HostQueue → HostQueue) : State :=
  s.modDie die fun d => { d with host := tset d.host q (f (s.hostQueue die q)) }

/-- HOST_QUEUE_DOORBELL: the queue's tail moves, and its port is the one of the write. -/
def execHostQueueDoorbell (die queue port : Nat) (tail : BitVec 32) (s : State) : Out :=
  running s fun s => s.modHostQueue die queue fun q => { q with tail := tail, port := port }

/-- A queue has an entry to read, and every host write that preceded it has been made (R367). -/
def State.hostPending (s : State) (die q : Nat) : Bool :=
  let x := s.hostQueue die q
  x.head != x.tail && x.size != 0 && x.held.isNone && s.hostWaits.isEmpty

/-- The entry a queue is at, while it reads: not while the slipway is full (R367), nor, where it is disabled or its page is not
mapped, while the pool is (R287). -/
def State.hostEntry (s : State) (die q : Nat) : Option Nat :=
  let x := s.hostQueue die q
  let d := s.die die
  if !s.hostPending die q || !(s.poolRoom die).1 || (d.slipRoom != 0 && d.slipFull) then none
  else some (s.num (hostBase + x.base + 64 * (x.head.toNat % x.size)) 64)

def entryKind (e : Nat) : Nat := bits e 7 0

/-- Reserved fields of an entry are zero. -/
def entryOk (e : Nat) : Bool := bits e 511 128 == 0 && bits e 15 8 == 0

/-- The completion entry of the entry a queue is at, and the message of its vector. -/
def State.hostDone (s : State) (die q e : Nat) (handle cause : Nat) : State :=
  let x := s.hostQueue die q
  let a := hostBase + x.cbase + 16 * (x.chead % x.size)
  let s := s.store none a (leBytes 8 (bits e 51 16) ++ leBytes 4 (2 ^ 24 * cause) ++ leBytes 4 handle)
  let s := s.modHostQueue die q fun x => { x with head := x.head + 1, chead := x.chead + 1 }
  if x.vector.getLsbD 15 && bits x.vector.toNat 10 0 != 0 then s.message x.port (bits x.vector.toNat 10 0) else s

/-- The queue waits at its entry for a page. -/
def State.hostHeld (s : State) (die q asid page : Nat) : State :=
  s.modHostQueue die q fun x => { x with held := some (asid, page) }

/-- One submission (R367): a fault holds the queue, a full node table rejects it with cause 7; an accepted one is a
release of every earlier host write (R203). A descriptor with an uncorrectable
error is reported and rejected as malformed (R336, log entry 22). -/
def State.hostSubmit (s : State) (die q e : Nat) : State :=
  let va := bits e 127 64
  let asid := bits e 63 52
  if va % 256 != 0 || 2 ^ 54 ≤ va then s.hostDone die q e 0 1
  else
    match s.readNode die asid va .engRead with
    | .error x =>
      match s.badAt die x .engRead with
      | some line => (s.dieError die line 1).hostDone die q e 0 1
      | none => if x.waits then s else (s.dieFault die x .engRead (Event.plain 1)).hostHeld die q x.asid x.page
    | .ok (n, d, frameOk, s) =>
      match s.submit die (s.die die).owner n d frameOk with
      | (.accepted h, s) => s.forgetHost.hostDone die q e h.toNat 0
      | (.rejected cause, s) => s.hostDone die q e 0 cause
      | (.tableFull, s) =>
        match s.reject die d 7 with
        | (.fault a, s) => s.hostHeld die q d.asid (a / 65536)
        | (_, s) => s.hostDone die q e 0 7
      | (.poolFull, s) => s
      | (.fault a, s) => s.hostHeld die q d.asid (a / 65536)

/-- The node a handle names for a host queue, which serves only its die's partition (R369, log entry 31). -/
def State.hostNode (s : State) (die : Nat) (h : Word) : Option (Nat × Nat × Node) :=
  (s.findNode h).filter fun x => s.diesOk (s.die die).owner (2 ^ x.1)

/-- HOST_SUBMIT: an entry of kind 1, or one that no kind accepts; where the queue's die has no room the event of the cause is
raised, once (R287). -/
def execHostSubmit (die queue : Nat) (s : State) : Out :=
  running s fun s =>
    match s.hostEntry die queue with
    | none => if s.hostPending die queue then (s.poolRoom die).2 else s
    | some e =>
      if entryKind e = 1 && entryOk e then s.hostSubmit die queue e
      else if (entryKind e = 2 || entryKind e = 3) && entryOk e then s
      else s.hostDone die queue e 0 1

/-- HOST_SIGNAL: an entry of kind 2 signals as NSIGNAL does. -/
def execHostSignal (die queue : Nat) (s : State) : Out :=
  running s fun s =>
    match s.hostEntry die queue with
    | none => s
    | some e =>
      if entryKind e = 2 && entryOk e then
        let h := w32 (bits e 95 64)
        (s.nsignal die h).hostDone die queue e (bits e 95 64) 0
      else s

/-- HOST_CLOSE_QUEUE: an entry of kind 3 closes the record queue of a node. -/
def execHostCloseQueue (die queue : Nat) (s : State) : Out :=
  running s fun s =>
    match s.hostEntry die queue with
    | none => s
    | some e =>
      if entryKind e = 3 && entryOk e then
        let s := match s.hostNode die (w32 (bits e 95 64)) with
          | some (d, entry, _) => s.closeQueue d entry
          | none => s
        s.hostDone die queue e (bits e 95 64) 0
      else s

/-! ### Messages and the management entry (R368, R370) -/

def State.vec (s : State) (port v : Nat) : MsiVec := (tget (s.msix[port]?.getD []) v).getD ⟨false, false, false⟩

/-- A port has 2048 vectors (R364). -/
def State.setVec (s : State) (port v : Nat) (m : MsiVec) : State :=
  if 2048 ≤ v then s else { s with msix := s.msix.setIfInBounds port (tset (s.msix[port]?.getD []) v m) }

/-- A held message goes out once nothing holds it. -/
def State.sendHeld (s : State) (port v : Nat) : State :=
  let m := s.vec port v
  if m.pending && !m.masked && !m.within then
    { s.setVec port v { m with pending := false, within := true } with sent := s.sent ++ [(port, v)] }
  else s

/-- MSIX_COALESCE_END: the interval of a vector ends; one message follows if any completion came meanwhile. -/
def execMsixCoalesceEnd (port vector : Nat) (s : State) : Out :=
  outside s fun s => (s.setVec port vector { s.vec port vector with within := false }).sendHeld port vector

/-- Bit 3 of the event status is the OR of bits 23:16. -/
def statusSum (x : Word) : Word := (x &&& 0xFFFFFFF7#32) ||| if x &&& 0x00FF0000#32 = 0 then 0 else 8

/-- EVENT_STATUS_CLEAR. -/
def execEventStatusClear (m : BitVec 32) (s : State) : Out :=
  outside s fun s => { s with evStatus := statusSum (s.evStatus &&& ~~~m) }

/-- RESYNC starts when the status is not busy, and takes the buffer's address and size then (R371). -/
def State.resyncStart (s : State) : State :=
  if s.rsStat = 1 then s else { s with rsStat := 1, rsAddr := s.rsBuf, rsLen := s.rsSize }

/-- A mailbox with 8 bytes written at an offset. -/
def putBytes (m : List Byte) (o : Nat) (bs : List Byte) : List Byte := padded o (m.take o) ++ bs ++ m.drop (o + bs.length)

/-- A register of the region whose offset no rule gives. -/
def State.writeDevice (s : State) (offset : Nat) (v : DWord) (r : Config.DevReg) : State :=
  match r with
  | .queueBase q => s.modHostQueue (q / 2048) (q % 2048) fun x => { x with base := v.toNat }
  | .queueSize q => s.modHostQueue (q / 2048) (q % 2048) fun x => { x with size := v.toNat }
  | .queueCompletion q => s.modHostQueue (q / 2048) (q % 2048) fun x => { x with cbase := v.toNat }
  | .queueVector q => s.modHostQueue (q / 2048) (q % 2048) fun x => { x with vector := v.setWidth 16 }
  | .vectorMask port n => (s.setVec port n { s.vec port n with masked := v.getLsbD 0 }).sendHeld port n
  | .window port k =>
    if port < 2 ∧ k < 2 then { s with windows := s.windows.setIfInBounds (2 * port + k) v.toNat } else s
  | .owner die => s.modDie die fun d => { d with owner := if v.toNat < 8 then some v.toNat else none }
  | .powerLimit => if 20 ≤ v.toNat && v.toNat ≤ 66 then { s with power := v.toNat } else s
  | .mailbox o => { s with mailbox := putBytes s.mailbox o (leBytes 8 v.toNat) }
  | .queueHead _ | .mailboxStatus | .freezeStatus | .linkState _ | .deviceNumber | .report _ | .measuredPower => s
  | .other => { s with cxlio := tset s.cxlio offset v }

/-- DEVICE_REGISTER_WRITE: a header of the capability list keeps its value, the management entry goes by its offsets, any other
register by the module's layout. -/
def execDeviceRegisterWrite (offset : Nat) (v : BitVec 64) (s : State) : Out :=
  outside s fun s =>
    let m := Config.managementEntry
    if (Config.headerAt offset Config.capabilities).isSome then s
    else if offset = m + 8 then { s with rsBuf := v }
    else if offset = m + 16 then { s with rsSize := v }
    else if offset = m + 24 then (if v = 1 then s.resyncStart else s)
    else if offset = m + 32 then { s with evStatus := statusSum (s.evStatus &&& ~~~(v.setWidth 32)) }
    else if offset = m + 40 then
      let s := { s with evEnable := v.setWidth 32 &&& 0x00FF00FF#32 }
      if s.evStatus &&& s.evEnable = 0 then s else s.tellHost
    else s.writeDevice offset v (Config.deviceRegister offset)

/-! ### Host memory accesses (R211, R217, R221, R231, R364, R365) -/

/-- The ranges of R196, in the order of its table. -/
def memoryRanges : List (Nat × Nat) :=
  [(0, 0x8000000000), (0x8000000000, 0x10000000000), (0x40000000000, 0x60000000000), (0x60000000000, 0x80000000000)]

/-- The host reaches n bytes: in its own memory, or through a CXL.mem window of either port (R364). -/
def State.hostReaches (s : State) (pa n : Nat) : Bool :=
  hostBase ≤ pa || s.windows.toList.any fun w =>
    match memoryRanges[w]? with
    | some (lo, hi) => lo ≤ pa && pa + n ≤ hi
    | none => false

/-- A CXL.mem atomic of the host at the home of its word (R211, R252): the old value is what the host reads. -/
def State.hostRmw (s : State) (pa : Nat) (x : HostRmw) : State :=
  let (old, s) := s.hostAtomic pa x.major x.funct x.operand x.swap
  { s with hostRead := leBytes (atomicBytes x.major) old }

/-- The first byte an access of the host touches, and how many. -/
def hostRange : HostAccess → Nat × Nat
  | .write pa data => (pa, data.length)
  | .rmw pa x => (pa, atomicBytes x.major)
  | .read pa n => (pa, n)

/-- An access of the host is performed; outside its windows nothing is written, and zero is read. -/
def State.hostPerform (s : State) : HostAccess → State
  | .write pa data => if s.hostReaches pa data.length then s.hostStore pa data else s
  | .rmw pa x => if s.hostReaches pa (atomicBytes x.major) then s.hostRmw pa x else s
  | .read pa n => { s with hostRead := if s.hostReaches pa n then s.bytes pa n else leBytes n 0 }

/-- Accesses of the host are performed in their order, up to one that meets bytes a command has still to write (R217,
R221). -/
def State.hostRetry (s : State) : List HostAccess → State
  | [] => { s with hostWaits := [] }
  | x :: xs =>
    if s.owned 0 0 (hostRange x).1 (hostRange x).2 then { s with hostWaits := x :: xs } else (s.hostPerform x).hostRetry xs

/-- An access of the host comes behind those that wait. -/
def State.hostAccess (s : State) (x : HostAccess) : State := s.hostRetry (s.hostWaits ++ [x])

/-- CXL_MEM_WRITE: the bytes, or an atomic. -/
def execCxlMemWrite (pa : Nat) (data : HostStore) (s : State) : Out :=
  outside s fun s => s.hostAccess (match data with | .bytes bs => .write pa bs | .rmw x => .rmw pa x)

/-- CXL_MEM_READ: raw bytes, whatever the tags; none over a link that is down (R372). -/
def execCxlMemRead (pa len : Nat) (s : State) : Out :=
  .next (if s.portsUp then s.hostAccess (.read pa len) else { s with hostRead := [] })

/-! ### Wotis flits (R231, R360, R363) -/

/-- Requests of a flit, one after another. -/
def State.eachReq (s : State) (f : Flit) (g : PeerReq → State → State) : State := f.reqs.foldl (fun s r => g r s) s

/-- WOTIS_READ. -/
def execWotisRead (f : Flit) (s : State) : Out :=
  outside s fun s => s.eachReq f fun r s => s.servePeer f.src { r with major := 0x20 }

/-- WOTIS_ATOMIC. -/
def execWotisAtomic (f : Flit) (s : State) : Out :=
  outside s fun s => s.eachReq f fun r s => s.servePeer f.src r

/-- WOTIS_WRITE. -/
def execWotisWrite (f : Flit) (s : State) : Out :=
  outside s fun s => s.eachReq f fun r s => s.servePeer f.src { r with major := 0x21, size := r.data.length }

/-- WOTIS_COPY_DATA. -/
def execWotisCopyData (f : Flit) (s : State) : Out :=
  outside s fun s => s.eachReq f fun r s => s.servePeer f.src { r with major := 0x22, size := r.data.length }

/-- An answer to an engine command: the bytes of a read; the failure of a cell ends it with CELL (R231). -/
def State.commandAnswer (s : State) (w : PeerWait) (r : PeerReq) : State :=
  match s.cores.find? fun x => (x.2.cmd (w.pos - 64)).isSome with
  | none => s
  | some (core, _) =>
    s.modCmd core (w.pos - 64) fun c =>
      if r.failed then c.finish stCELL (w64 w.va)
      else if w.req.major != 0x20 then c
      else
        let put := fun (t : Tab Byte) (x : Nat × Byte) => tset t (peerKey w.dev (w.req.pa + x.1)) x.2
        { c with got := ((List.range r.data.length).zip r.data).foldl put c.got }

/-- An answer to a unit of a die: its bytes stand ready, and what waited for the page goes on (R362, R363). -/
def State.unitAnswer (s : State) (w : PeerWait) (asid : Nat) (r : PeerReq) : State :=
  if w.req.major != 0x20 then s
  else
    let s := if r.failed then s else s.modDie w.gkey fun d => { d with got := d.got ++ [(w.dev, w.req.pa, r.data)] }
    s.pageDone w.gkey asid (w.va / 65536)

/-- The cause by which a lane traps on a failed access at a peer (R225, R231; log entry 18). -/
def peerCause (r : PeerReq) : Nat := if r.funct = 0x1C || r.funct = 0x1D then r.funct else 0x1E

/-- An answer to a posted atomic: it has been performed, or it traps its lane (R230, R239). -/
def State.postedAnswer (s : State) (w : PeerWait) (r : PeerReq) (x : Posted) : State :=
  if r.failed then s.postedTrap x (peerCause r) (w64 (x.va / 32 * 32)) 0
  else
    let s := s.dropPosted x
    if casFailed x.major x.funct (leNat r.data) x.operand then
      s.modGroup w.gkey fun g => g.demote 0 (1#32 <<< w.pos)
    else s

/-- A store refused at a peer traps its lanes where they are by then (log entry 18), at once or when their group runs again. -/
def State.storeRefused (s : State) (w : PeerWait) (unit : DWord) (cause : Nat) (d1 : DWord) : State :=
  let x : Posted := ⟨w.gkey, w.pos, unit, w.va, w.req.major, w.req.funct, 0, 0, none, some (cause, d1, 0, w.shown)⟩
  let s := s.modCore (postCore w.gkey) fun k => { k with posted := k.posted ++ [x] }
  s.lateTrap x (cause, d1, 0, w.shown)

/-- An answer to a lane: its parked access goes on with the bytes, for all lanes whose access it is; a store is acknowledged. A
failure traps (R225, R230), in a stopped group when its lanes replay. -/
def State.laneAnswer (s : State) (w : PeerWait) (r : PeerReq) : State :=
  match (s.core (postCore w.gkey)).posted.find? (·.wait == some (.reply r.tag)) with
  | some x => s.postedAnswer w r x
  | none =>
    match tget s.groups w.gkey with
    | none => s
    | some g =>
      let l := g.lane w.pos
      let here := g.where fun l => l.state == .parked (.reply r.tag)
      let woken := g.mapLanes here fun l => { l with state := .active }
      let s := if here = 0 then s
        else s.setGroup w.gkey (if r.failed then woken
          else woken.setLane w.pos { woken.lane w.pos with reply := some r.data })
      let d1 := w64 (w.va / 32 * 32)
      if !r.failed then s
      else if here = 0 then s.storeRefused w l.vpc (peerCause r) d1
      else s.trapGroup w.gkey l.vpc here w.shown (peerCause r) d1 0

/-- WOTIS_RESPONSE: answers find the accesses they belong to by their tags. -/
def execWotisResponse (f : Flit) (s : State) : Out :=
  outside s fun s => s.eachReq f fun r s =>
    match tget s.peerWaits r.tag with
    | none => s
    | some w =>
      let s := { s with peerWaits := terase s.peerWaits r.tag }
      match w.unit with
      | some asid => s.unitAnswer w asid r
      | none => if w.pos ≥ 64 then s.commandAnswer w r else s.laneAnswer w r

/-- WOTIS_EVENT: a flit of kind 6 names no state of this device (R360). -/
def execWotisEvent (_f : Flit) (s : State) : Out := outside s id

/-! ### Links (R360) -/

/-- LINK_RETRAINED: the link is in service; the event goes to die 0 (log entry 18). -/
def execLinkRetrained (link : Nat) (s : State) : Out :=
  outside s fun s =>
    { s with lostLinks := s.lostLinks.filter (· != link) }.raiseEvent 0 { Event.plain 6 with aux := w64 link }

/-- LINK_LOST: the link carries nothing; traffic goes over the others of its routes. -/
def execLinkLost (link : Nat) (s : State) : Out :=
  outside s fun s =>
    ({ s with lostLinks := s.lostLinks.filter (· != link) ++ [link] }.raiseEvent 0
      { Event.plain 7 with aux := w64 link }).raiseStatus 0x40

end Sys2Proof.Machine
end

