-- ==== Sys2Proof/Machine/Device.lean ====
section
/-! DEFINITION. The device as a module (R371-R377): summary, freeze, debug port, reset, boot, attestation, power. -/

namespace Sys2Proof.Machine

/-! ### RESYNC (R371) -/

/-- RESYNC: a write of the command. -/
def execResync (s : State) : Out := outside s State.resyncStart

def resyncBytes : Nat := 266240

/-- A fault of a die that raised a translation event (R202): not a page that is only asked of a peer, nor one of the slipway. -/
def State.raisedFault (s : State) (die : Nat) (x : Nat × Nat × Nat) : Bool :=
  x.2.2 < 16 && !(s.die die).faults.contains (x.1, x.2.1, 16 + x.2.2) &&
    !s.peerWaits.any fun w => w.2.unit == some x.1 && w.2.gkey == die && w.2.pos == x.2.2 && w.2.va / 65536 == x.2.1

/-- The section of a die. -/
def State.dieSummary (s : State) (die : Nat) : List Byte :=
  let d := s.die die
  let faults := (d.faults.filter (s.raisedFault die)).take 256
  ((List.range 2048).flatMap fun q => leBytes 4 (s.hostQueue die q).head.toNat ++ leBytes 4 (s.hostQueue die q).tail.toNat) ++
    ([d.pool.length, d.nodes.length, d.slipHead, d.slipTail, d.stalled.length, d.chains.length, d.cells.length,
      (d.queues.filter fun x => !x.2.opened.isEmpty).length].flatMap (leBytes 8 ·)) ++
    padded 8192 (faults.flatMap fun x => leBytes 32 (Config.faultEntry x.1 x.2.1 x.2.2).toNat) ++
    padded 64 (leBytes 8 (d.owner.getD 0xFF) ++ leBytes 8 (Config.tierStates die).toNat ++ leBytes 8 d.ecc.toNat) ++
    leBytes 8064 0

/-- The summary: version, the stroke index of each section, the sections. -/
def State.summary (s : State) : List Byte :=
  leBytes 8 1 ++ ((List.range 8).flatMap fun _ => leBytes 8 s.stroke.toNat) ++ leBytes 4024 0 ++
    (List.range 8).flatMap s.dieSummary

/-- RESYNC_DONE: the summary is written, or the buffer is too small. -/
def execResyncDone (s : State) : Out :=
  outside s fun s =>
    if s.rsStat != 1 then s
    else if s.rsLen.toNat < resyncBytes then { s with rsStat := 3 }.raiseStatus 1
    else { s.store none (hostBase + s.rsAddr.toNat / 4096 * 4096) s.summary with rsStat := 2 }.raiseStatus 1

/-! ### Attestation (R376) -/

/-- ATTESTATION_REQUEST: a nonce is taken while none is outstanding. -/
def execAttestationRequest (nonce : BitVec 256) (s : State) : Out :=
  outside s fun s => if s.nonce.isSome then s else { s with nonce := some nonce }

/-- Security version of an image. -/
def imageSvn (m : List Byte) : Nat := leNat ((m.drop 4).take 4)

/-- The report but for its signature. -/
def State.reportBody (s : State) (nonce : BitVec 256) : List Byte :=
  leBytes 32 nonce.toNat ++ padded 64 (Config.shake256 s.image 64) ++ leBytes 4 (imageSvn s.image) ++
    leBytes 2 s.devid.toNat ++ ((List.range 8).flatMap fun d => leBytes 1 ((s.die d).owner.getD 0xFF)) ++
    padded 1952 Config.deviceKeys.1

/-- ATTESTATION_REPORT_READY. -/
def execAttestationReportReady (s : State) : Out :=
  outside s fun s =>
    match s.nonce with
    | none => s
    | some n =>
      let b := s.reportBody n
      { s with nonce := none, report := b ++ padded 3309 (Config.mldsaSign Config.deviceKeys.2 b) }.raiseStatus 0x10

/-! ### Power and freeze (R372, R377) -/

/-- The power drawn is above the limit (R377). -/
def State.overLimit (s : State) : Bool := s.power < Config.measuredPower s.stroke.toNat

/-- THROTTLE: a die whose junction is too hot, or any die while the power is above its limit, goes one step of 150 MHz down, to 600 MHz; a status
bit when throttling begins. -/
def execThrottle (die : Nat) (s : State) : Out :=
  outside s fun s =>
    let s' := s.modDie die fun d => { d with throttle := min 12 (d.throttle + 1) }
    if s.dies.toList.all fun d => d.throttle == 0 then s'.raiseStatus 0x80 else s'

/-- FREEZE: every clock stops. -/
def execFreeze (s : State) : Out := outside s fun s => { s with frozen := true }

/-- THERMAL_FREEZE: the alert, then the freeze. -/
def execThermalFreeze (s : State) : Out :=
  outside s fun s => { (s.raiseStatus 0x80) with alert := true, frozen := true }

/-- POWER_LOSS: nothing runs. -/
def execPowerLoss (s : State) : Out := .next { s with powered := false }

/-! ### Reset and boot (R374, R375) -/

/-- A reset: every register at its reset value, every team ended, all memory zero; the host's memory is not the
device's. -/
def State.resetAgain (s : State) : State := { State.reset with hostMem := s.hostMem, fresh := s.fresh, nextId := s.nextId }

/-- COLD_RESET applies power. -/
def execColdReset (s : State) : Out := .next s.resetAgain

/-- WARM_RESET: also out of a freeze. -/
def execWarmReset (s : State) : Out := .next (if s.powered then s.resetAgain else s)

/-- Body of an image. -/
def imageBody (m : List Byte) : List Byte := (m.drop 5277).take (leNat ((m.drop 8).take 8))

/-- The first check an image fails, 0 when it passes. -/
def imageCheck (m : List Byte) : Nat :=
  let key := (m.drop 16).take 1952
  if Config.shake256 key 32 != Config.fusedKeyDigest then 1
  else if imageSvn m < Config.fusedMinSvn then 2
  else if !Config.mldsaVerify key (Config.shake256 (m.take 16 ++ imageBody m) 64) ((m.drop 1968).take 3309) then 3
  else 0

/-- The bytes of an image: what stands behind its body is none of it (R375). -/
def imageBytes (m : List Byte) : List Byte := m.take (5277 + (imageBody m).length)

/-- A passing image runs: every cox starts at its first word (log entry 11). -/
def State.boot (s : State) (m : List Byte) : State :=
  let mem := mwrite [] 0 ((imageBody m).take 0x10000)
  (List.range 1728).foldl (fun s n => s.modCore n fun k => { k with cox := { k.cox with mem := mem, pc := 0 } })
    { s with booted := true, image := imageBytes m, mailbox := [] }

/-- BOOT_IMAGE_CHECK. -/
def execBootImageCheck (s : State) : Out :=
  outside s fun s =>
    if s.booted then s
    else
      match imageCheck s.mailbox with
      | 0 => s.boot s.mailbox
      | n => { s with mailbox := [], boxStat := n }.raiseStatus 0x20

/-! ### The debug port (R373) -/

/-- Bytes of a bank, and of a unit of the deck bank (R188, R189). -/
def unitSize (deck : Bool) : Nat := if deck then 262144 else bankBytes

/-- The banks, or the deck units, that the teams of a core have: team, space and place in its allotment. -/
def State.bankUnits (s : State) (core : Nat) (deck : Bool) : List (Nat × Nat × Nat) :=
  (s.teams.filter fun x => x.2.core == core).flatMap fun x =>
    (if deck then [2] else [1, 3, 4]).flatMap fun sp =>
      (List.range (x.2.allotBytes sp / unitSize deck)).map fun i => (x.1, sp, i)

/-- A byte of the banks of a core, or of its deck bank: that of the allotment its bank belongs to, zero after a reset (R374; log
entry 10). -/
def State.bankByte (s : State) (core : Nat) (deck : Bool) (a : Nat) : Byte :=
  let n := unitSize deck
  let tids := (s.teams.filter fun x => x.2.core == core).map Prod.fst
  match ((Config.bankOrder core deck tids).zip (s.bankUnits core deck)).find? (·.1 == a / n) with
  | some (_, tid, sp, i) => ((tget s.teams tid).map fun t => mrd (t.bank sp) (n * i + a % n)).getD 0
  | none => if (s.core core).menu.isNone then 0 else Config.bankByte core deck a

/-- Eight bytes at a debug address; none where there is nothing to read. With bit 59 set, a read of memory is followed by one of
the tag of its cell (log entry 34). -/
def State.debugRead (s : State) (a : Nat) : Option DWord :=
  let core := bits a 58 48
  match bits a 63 60 with
  | 0 =>
    let pa := bits a 51 3 * 8
    if bits a 59 59 = 1 && s.dtag then some ((s.tag (pa - 8)).setWidth 64)
    else if !populated pa then none
    else some (w64 (s.num pa 8))
  | 1 =>
    let k := 64 * core + bits a 45 40
    match tget s.groups k with
    | none => none
    | some g =>
      let area := bits a 17 16
      let o := bits a 15 0
      if core < noCore && o % 8 = 0 && o < areaSize area then some (w64 (readBytes (s.windowBytes g area) o 8)) else none
  | 2 => if core < noCore then s.readPriv core (bits a 5 0) else none
  | 3 => if core < noCore then some (w64 (leNat (mread (s.core core).cox.mem (bits a 15 3 * 8) 8))) else none
  | 4 =>
    if core < noCore && bits a 18 3 * 8 < 524288 then
      some (w64 (leNat ((List.range 8).map fun i => s.bankByte core false (bits a 18 3 * 8 + i))))
    else none
  | 5 =>
    if core < noCore then
      some (w64 (leNat ((List.range 8).map fun i => s.bankByte core true (bits a 22 3 * 8 + i))))
    else none
  | 6 =>
    if core < noCore then some (w64 ((s.core core).accAt (bits a 14 14) (bits a 13 7) (bits a 6 0))) else none
  | _ => none

/-- An action at the debug port: without power nothing on the module runs (R377). -/
def atPort (s : State) (f : State → State) : Out := .next (if s.powered then f s else s)

/-- A code of the instruction register is loaded: the data register that it selects has this in it. -/
def State.selectIr (s : State) (code : BitVec 6) (dr : DWord) : State := { s with ir := JtagIr.ofCode code, dr := dr }

/-- TEST_LOGIC_RESET selects IDCODE. -/
def execTestLogicReset (s : State) : Out := atPort s fun s => s.selectIr 0x02 s.dr

/-- Instructions of the port select their register; the boundary scan is the module's own. -/
def execExtest (s : State) : Out := atPort s fun s => (s.draw.2).selectIr 0x00 (Config.boundaryScan s.fresh)

def execSamplePreload (s : State) : Out := atPort s fun s => (s.draw.2).selectIr 0x01 (Config.boundaryScan s.fresh)

/-- The identification code (R373). -/
def idcode : Word := Config.revision ++ 0x1728#16 ++ Config.jep106 ++ 1#1

def execIdcode (s : State) : Out := atPort s fun s => s.selectIr 0x02 (idcode.setWidth 64)

/-- DADDR: Update-DR writes the debug address. -/
def execDaddr (v : BitVec 64) (s : State) : Out := atPort s fun s => { s.selectIr 0x10 v with daddr := v, dtag := false }

/-- A debug address reads tags beside memory. -/
def readsTags (a : Nat) : Bool := bits a 63 59 == 1

/-- DDATA: Capture-DR reads 8 bytes, and the address steps by 8; zero outside a freeze and where nothing is. -/
def execDdata (s : State) : Out :=
  atPort s fun s =>
    let x := s.debugRead s.daddr.toNat
    let t := { s with daddr := s.daddr + 8, dtag := readsTags s.daddr.toNat && !s.dtag }
    match if s.frozen then x else none with
    | some v => { t.selectIr 0x11 v with dvalid := true, derror := false }
    | none => { t.selectIr 0x11 0 with dvalid := false, derror := x.isNone }

/-- DSTAT. -/
def execDstat (s : State) : Out :=
  let b := fun (x : Bool) (n : Nat) => if x then w64 (2 ^ n) else 0
  atPort s fun s => s.selectIr 0x12 (b s.frozen 0 ||| b s.dvalid 1 ||| b s.derror 2)

def execBypass (s : State) : Out := atPort s fun s => s.selectIr 0x3F 0

/-! ### The register region as the host reads it (R368-R372, R375-R377) -/

/-- A register whose offset no rule gives. -/
def State.readDevice (s : State) (offset : Nat) (r : Config.DevReg) : DWord :=
  let queue := fun (q : Nat) => s.hostQueue (q / 2048) (q % 2048)
  match r with
  | .queueBase q => w64 (queue q).base
  | .queueSize q => w64 (queue q).size
  | .queueCompletion q => w64 (queue q).cbase
  | .queueVector q => (queue q).vector.setWidth 64
  | .queueHead q => (queue q).head.setWidth 64
  | .vectorMask port n => if (s.vec port n).masked then 1 else 0
  | .window port k => w64 ((s.windows[2 * port + k]?).getD 0)
  | .owner die => w64 ((s.die die).owner.getD 0xFF)
  | .powerLimit => w64 s.power
  | .measuredPower => w64 (Config.measuredPower s.stroke.toNat)
  | .mailbox o => w64 (leNat (padded 8 ((s.mailbox.drop o).take 8)))
  | .mailboxStatus => w64 s.boxStat
  | .freezeStatus => if s.frozen then 1 else 0
  | .linkState l => if s.lostLinks.contains l then 0 else 1
  | .deviceNumber => s.devid.setWidth 64
  | .report o => w64 (leNat (padded 8 ((s.report.drop o).take 8)))
  | .other => (tget s.cxlio offset).getD 0

/-- What a read of the region at an offset gives: a header of the capability list, a register of the management entry by its
offset, any other register by the module's layout. No row of the opcode table is such a read; it changes nothing. -/
def State.deviceRegister (s : State) (offset : Nat) : DWord :=
  let m := Config.managementEntry
  match Config.headerAt offset Config.capabilities with
  | some h => w64 h
  | none =>
    if offset = m + 8 then s.rsBuf
    else if offset = m + 16 then s.rsSize
    else if offset = m + 24 then w64 s.rsStat
    else if offset = m + 32 then s.evStatus.setWidth 64
    else if offset = m + 40 then s.evEnable.setWidth 64
    else s.readDevice offset (Config.deviceRegister offset)

end Sys2Proof.Machine
end

