-- ==== Sys2Proof/Machine/Integer.lean ====
section
/-! DEFINITION. Integer arithmetic of both sets (R86-R89, R94-R96): pure functions of operand values. -/

namespace Sys2Proof.Machine

variable {w : Nat}

def minI (a b : BitVec w) : BitVec w := if b.slt a then b else a
def maxI (a b : BitVec w) : BitVec w := if a.slt b then b else a
def minN (a b : BitVec w) : BitVec w := if b < a then b else a
def maxN (a b : BitVec w) : BitVec w := if a < b then b else a

/-- |a|, wrapping at the most negative value (R86). -/
def absI (a : BitVec w) : BitVec w := if a.msb then -a else a

/-- Shifts by w or more give 0, or copies of the sign (R87). -/
def shiftL (a : BitVec w) (n : Nat) : BitVec w := if n < w then a <<< n else 0
def shiftR (a : BitVec w) (n : Nat) : BitVec w := if n < w then a >>> n else 0
def shiftA (a : BitVec w) (n : Nat) : BitVec w := a.sshiftRight (min n (w - 1))

def mulHighI (a b : BitVec w) : BitVec w := BitVec.ofInt w (a.toInt * b.toInt / 2 ^ w)
def mulHighN (a b : BitVec w) : BitVec w := BitVec.ofNat w (a.toNat * b.toNat / 2 ^ w)

/-- Division and remainder never trap (R88, R96). -/
def divI (a b : BitVec w) : BitVec w := if b = 0 then BitVec.allOnes w else a.sdiv b
def divN (a b : BitVec w) : BitVec w := if b = 0 then BitVec.allOnes w else a / b
def remI (a b : BitVec w) : BitVec w := if b = 0 then a else a.srem b
def remN (a b : BitVec w) : BitVec w := if b = 0 then a else a % b

/-- Leading zeros; w for 0. -/
def leadingZeros (a : BitVec w) : BitVec w :=
  BitVec.ofNat w (if a = 0 then w else w - 1 - Nat.log2 a.toNat)

def onesFrom (x : Nat) : Nat → Nat
  | 0 => 0
  | n + 1 => x % 2 + onesFrom (x / 2) n

/-- One bits. -/
def ones (a : BitVec w) : BitVec w := BitVec.ofNat w (onesFrom a.toNat w)

/-- The conditions of R90 and R95. -/
inductive Cond where
  | eq | ne | ltI | leI | ltN | leN | tst
deriving DecidableEq, Repr

def Cond.holds (c : Cond) (a b : BitVec w) : Bool :=
  match c with
  | .eq => a == b
  | .ne => a != b
  | .ltI => a.slt b
  | .leI => a.sle b
  | .ltN => a < b
  | .leN => a ≤ b
  | .tst => a &&& b != 0

/-! ### Bit fields (R89) -/

/-- Start and length of a field from its control register. -/
def fieldStart (b : Word) : Nat := bits b.toNat 7 0
def fieldLen (b : Word) : Nat := min (bits b.toNat 15 8) 32

/-- Bits st to st + len - 1 of a; past bit 31 zeros, or copies of the sign. -/
def extract (isSigned : Bool) (a b : Word) : Word :=
  let st := fieldStart b
  let n := fieldLen b
  let x : BitVec 64 := if isSigned then a.signExtend 64 else a.setWidth 64
  let f := (shiftA x st).toNat % 2 ^ n
  if n = 0 then 0
  else if isSigned && f ≥ 2 ^ (n - 1) then BitVec.ofInt 32 ((f : Int) - 2 ^ n)
  else BitVec.ofNat 32 f

/-- The field of the old value replaced from the low bits of a. -/
def insert (a b old : Word) : Word :=
  let st := fieldStart b
  let mask := shiftL (BitVec.ofNat 32 (2 ^ fieldLen b - 1)) st
  (old &&& ~~~mask) ||| (shiftL a st &&& mask)

/-- One byte of BMIX under its control nibble. -/
def mixByte (a old : Word) (c : Nat) : Byte :=
  let x := if c / 4 % 2 = 0 then a else old
  let y := (x >>> (8 * (c % 4))).setWidth 8
  if c / 8 % 2 = 1 then ~~~y else y

def mixBytes (a b old : Word) : Word :=
  let y := fun (j : Nat) => mixByte a old (bits b.toNat (4 * j + 3) (4 * j))
  y 3 ++ y 2 ++ y 1 ++ y 0

/-- Sign extension from bit k. -/
def extendFrom (a : Word) (k : Nat) : Word := (a <<< (31 - k)).sshiftRight (31 - k)

def rotateLeft (a : Word) (n : Nat) : Word := (a <<< (n % 32)) ||| (a >>> (32 - n % 32))

def reverse (a : Word) : Word := BitVec.ofNat 32 ((List.range 32).foldl (fun x i => 2 * x + (a.toNat / 2 ^ i) % 2) 0)

end Sys2Proof.Machine
end

