-- ==== Sys2Proof/Machine/LaneInt.lean ====
section
/-! DEFINITION. Lane integer, predicate and move instructions (R85-R93). -/

namespace Sys2Proof.Machine

/-! ### Shapes -/

/-- One operand, a 32-bit result. -/
def lane1 (f : Word → Word) (d : LDst) (a : LSrc) (n : Bool) (g : Nat) (s : State) : Out :=
  lanesUnit g (fun _ l => d.put32 n (f (a.r32 l)) l) s

/-- Two operands. -/
def lane2 (f : Word → Word → Word) (d : LDst) (a b : LSrc) (n : Bool) (g : Nat) (s : State) : Out :=
  lanesUnit g (fun _ l => d.put32 n (f (a.r32 l) (b.r32 l)) l) s

/-- Two operands and the old destination. -/
def lane3 (f : Word → Word → Word → Word) (d : LDst) (a b : LSrc) (n : Bool) (g : Nat) (s : State) : Out :=
  lanesUnit g (fun _ l => d.put32 n (f (a.r32 l) (b.r32 l) (d.old32 l)) l) s

/-- A predicate from two operands. -/
def lanePred (f : Word → Word → Bool) (d : Nat) (a b : LSrc) (g : Nat) (s : State) : Out :=
  lanesUnit g (fun _ l => l.setPred d (f (a.r32 l) (b.r32 l))) s

/-- A predicate from two predicates. -/
def predLogic (f : Bool → Bool → Bool) (d a b g : Nat) (s : State) : Out :=
  lanesUnit g (fun _ l => l.setPred d (f (l.pred a) (l.pred b))) s

/-- A 64-bit result from two 64-bit operands. -/
def lane64 (f : DWord → DWord → DWord) (d : LDst) (a b : LSrc) (n : Bool) (g : Nat) (s : State) : Out :=
  lanesUnit g (fun _ l => d.put64 n (f (a.r64 l) (b.r64 l)) l) s

/-- A 64-bit result from a 64-bit and a 32-bit operand. -/
def lane64by (f : DWord → Word → DWord) (d : LDst) (a b : LSrc) (n : Bool) (g : Nat) (s : State) : Out :=
  lanesUnit g (fun _ l => d.put64 n (f (a.r64 l) (b.r32 l)) l) s

/-- An immediate form: no guard field, no n bit (R93). -/
def laneImm (f : Word → Word) (d : LDst) (a : LSrc) (s : State) : Out := lane1 f d a false 0 s

/-- A compare with imm10, sign-extended (R77, R93). -/
def laneCmp (c : Cond) (d : Nat) (a : LSrc) (i : BitVec 10) (s : State) : Out :=
  lanesUnit 0 (fun _ l => l.setPred d (c.holds (a.r32 l) (i.signExtend 32))) s

/-! ### Arithmetic and logic (R86-R89) -/

def execAdd (d : LDst) (a b : LSrc) (n : Bool) (g : Nat) (s : State) : Out :=
  lane2 (· + ·) d a b n g s

def execSub (d : LDst) (a b : LSrc) (n : Bool) (g : Nat) (s : State) : Out :=
  lane2 (· - ·) d a b n g s

def execMinI (d : LDst) (a b : LSrc) (n : Bool) (g : Nat) (s : State) : Out :=
  lane2 minI d a b n g s

def execMaxI (d : LDst) (a b : LSrc) (n : Bool) (g : Nat) (s : State) : Out :=
  lane2 maxI d a b n g s

def execMinN (d : LDst) (a b : LSrc) (n : Bool) (g : Nat) (s : State) : Out :=
  lane2 minN d a b n g s

def execMaxN (d : LDst) (a b : LSrc) (n : Bool) (g : Nat) (s : State) : Out :=
  lane2 maxN d a b n g s

def execAnd (d : LDst) (a b : LSrc) (n : Bool) (g : Nat) (s : State) : Out :=
  lane2 (· &&& ·) d a b n g s

def execOr (d : LDst) (a b : LSrc) (n : Bool) (g : Nat) (s : State) : Out :=
  lane2 (· ||| ·) d a b n g s

def execXor (d : LDst) (a b : LSrc) (n : Bool) (g : Nat) (s : State) : Out :=
  lane2 (· ^^^ ·) d a b n g s

def execAndn (d : LDst) (a b : LSrc) (n : Bool) (g : Nat) (s : State) : Out :=
  lane2 (fun x y => x &&& ~~~y) d a b n g s

def execShl (d : LDst) (a b : LSrc) (n : Bool) (g : Nat) (s : State) : Out :=
  lane2 (fun x y => shiftL x y.toNat) d a b n g s

def execShr (d : LDst) (a b : LSrc) (n : Bool) (g : Nat) (s : State) : Out :=
  lane2 (fun x y => shiftR x y.toNat) d a b n g s

def execSar (d : LDst) (a b : LSrc) (n : Bool) (g : Nat) (s : State) : Out :=
  lane2 (fun x y => shiftA x y.toNat) d a b n g s

def execRol (d : LDst) (a b : LSrc) (n : Bool) (g : Nat) (s : State) : Out :=
  lane2 (fun x y => rotateLeft x y.toNat) d a b n g s

def execMul (d : LDst) (a b : LSrc) (n : Bool) (g : Nat) (s : State) : Out :=
  lane2 (· * ·) d a b n g s

def execMulhI (d : LDst) (a b : LSrc) (n : Bool) (g : Nat) (s : State) : Out :=
  lane2 mulHighI d a b n g s

def execMulhN (d : LDst) (a b : LSrc) (n : Bool) (g : Nat) (s : State) : Out :=
  lane2 mulHighN d a b n g s

def execDivI (d : LDst) (a b : LSrc) (n : Bool) (g : Nat) (s : State) : Out :=
  lane2 divI d a b n g s

def execDivN (d : LDst) (a b : LSrc) (n : Bool) (g : Nat) (s : State) : Out :=
  lane2 divN d a b n g s

def execRemI (d : LDst) (a b : LSrc) (n : Bool) (g : Nat) (s : State) : Out :=
  lane2 remI d a b n g s

def execRemN (d : LDst) (a b : LSrc) (n : Bool) (g : Nat) (s : State) : Out :=
  lane2 remN d a b n g s

def execBfeI (d : LDst) (a b : LSrc) (n : Bool) (g : Nat) (s : State) : Out :=
  lane2 (extract true) d a b n g s

def execBfeN (d : LDst) (a b : LSrc) (n : Bool) (g : Nat) (s : State) : Out :=
  lane2 (extract false) d a b n g s

def execSext (d : LDst) (a b : LSrc) (n : Bool) (g : Nat) (s : State) : Out :=
  lane2 (fun x y => extendFrom x (y.toNat % 32)) d a b n g s

def execMad (d : LDst) (a b : LSrc) (n : Bool) (g : Nat) (s : State) : Out :=
  lane3 (fun x y z => x * y + z) d a b n g s

def execBfi (d : LDst) (a b : LSrc) (n : Bool) (g : Nat) (s : State) : Out :=
  lane3 insert d a b n g s

def execBmix (d : LDst) (a b : LSrc) (n : Bool) (g : Nat) (s : State) : Out :=
  lane3 mixBytes d a b n g s

def execAbs (d : LDst) (a : LSrc) (n : Bool) (g : Nat) (s : State) : Out :=
  lane1 absI d a n g s

def execNeg (d : LDst) (a : LSrc) (n : Bool) (g : Nat) (s : State) : Out :=
  lane1 (- ·) d a n g s

def execClz (d : LDst) (a : LSrc) (n : Bool) (g : Nat) (s : State) : Out :=
  lane1 leadingZeros d a n g s

def execPopc (d : LDst) (a : LSrc) (n : Bool) (g : Nat) (s : State) : Out :=
  lane1 ones d a n g s

def execBrev (d : LDst) (a : LSrc) (n : Bool) (g : Nat) (s : State) : Out :=
  lane1 reverse d a n g s

def execMov (d : LDst) (a : LSrc) (n : Bool) (g : Nat) (s : State) : Out :=
  lane1 id d a n g s

/-! ### Predicates (R90, R91) -/

def execEq (d : Nat) (a b : LSrc) (g : Nat) (s : State) : Out :=
  lanePred (Cond.holds .eq) d a b g s

def execNe (d : Nat) (a b : LSrc) (g : Nat) (s : State) : Out :=
  lanePred (Cond.holds .ne) d a b g s

def execLtI (d : Nat) (a b : LSrc) (g : Nat) (s : State) : Out :=
  lanePred (Cond.holds .ltI) d a b g s

def execLeI (d : Nat) (a b : LSrc) (g : Nat) (s : State) : Out :=
  lanePred (Cond.holds .leI) d a b g s

def execLtN (d : Nat) (a b : LSrc) (g : Nat) (s : State) : Out :=
  lanePred (Cond.holds .ltN) d a b g s

def execLeN (d : Nat) (a b : LSrc) (g : Nat) (s : State) : Out :=
  lanePred (Cond.holds .leN) d a b g s

def execTst (d : Nat) (a b : LSrc) (g : Nat) (s : State) : Out :=
  lanePred (Cond.holds .tst) d a b g s

def execPand (d a b g : Nat) (s : State) : Out :=
  predLogic (· && ·) d a b g s

def execPor (d a b g : Nat) (s : State) : Out :=
  predLogic (· || ·) d a b g s

def execPxor (d a b g : Nat) (s : State) : Out :=
  predLogic (· != ·) d a b g s

def execPandn (d a b g : Nat) (s : State) : Out :=
  predLogic (fun x y => x && !y) d a b g s

def execPnot (d a g : Nat) (s : State) : Out :=
  predLogic (fun x _ => !x) d a 0 g s

def execPtov (d : LDst) (a : Nat) (n : Bool) (g : Nat) (s : State) : Out :=
  lanesUnit g (fun _ l => d.put32 n (if l.pred a then 1 else 0) l) s

def execVtop (d : Nat) (a : LSrc) (g : Nat) (s : State) : Out :=
  lanesUnit g (fun _ l => l.setPred d (a.r32 l != 0)) s

/-! ### Moves and 64-bit forms (R92) -/

def execSel (d : LDst) (a b : LSrc) (n : Bool) (p : Nat) (s : State) : Out :=
  lanesUnit 0 (fun _ l => d.put32 n (if l.pred p then a.r32 l else b.r32 l) l) s

def execMovs (d : LDst) (a : USrc) (n : Bool) (g : Nat) (s : State) : Out :=
  lanesUnit g (fun x l => d.put32 n ((a.get x.u).setWidth 32) l) s

def execMovu (d : LDst) (a : USrc) (n : Bool) (g : Nat) (s : State) : Out :=
  lanesUnit g (fun x l => d.put32 n ((a.get x.u >>> 32).setWidth 32) l) s

def execAdd64 (d : LDst) (a b : LSrc) (n : Bool) (g : Nat) (s : State) : Out :=
  lane64 (· + ·) d a b n g s

def execSub64 (d : LDst) (a b : LSrc) (n : Bool) (g : Nat) (s : State) : Out :=
  lane64 (· - ·) d a b n g s

def execShl64 (d : LDst) (a b : LSrc) (n : Bool) (g : Nat) (s : State) : Out :=
  lane64by (fun x y => shiftL x y.toNat) d a b n g s

def execLea (d : LDst) (a b : LSrc) (n : Bool) (g : Nat) (s : State) : Out :=
  lane64by (fun x y => x + y.signExtend 64) d a b n g s

/-! ### Immediates (R93) -/

def execAddi (d : LDst) (a : LSrc) (i : BitVec 13) (s : State) : Out :=
  laneImm (· + i.signExtend 32) d a s

def execAndi (d : LDst) (a : LSrc) (i : BitVec 13) (s : State) : Out :=
  laneImm (· &&& i.setWidth 32) d a s

def execOri (d : LDst) (a : LSrc) (i : BitVec 13) (s : State) : Out :=
  laneImm (· ||| i.setWidth 32) d a s

def execXori (d : LDst) (a : LSrc) (i : BitVec 13) (s : State) : Out :=
  laneImm (· ^^^ i.setWidth 32) d a s

def execShiShl (d : LDst) (a : LSrc) (k : Nat) (s : State) : Out :=
  laneImm (shiftL · k) d a s

def execShiShr (d : LDst) (a : LSrc) (k : Nat) (s : State) : Out :=
  laneImm (shiftR · k) d a s

def execShiSar (d : LDst) (a : LSrc) (k : Nat) (s : State) : Out :=
  laneImm (shiftA · k) d a s

def execShiRol (d : LDst) (a : LSrc) (k : Nat) (s : State) : Out :=
  laneImm (rotateLeft · k) d a s

def execCmpiEq (d : Nat) (a : LSrc) (i : BitVec 10) (s : State) : Out :=
  laneCmp .eq d a i s

def execCmpiNe (d : Nat) (a : LSrc) (i : BitVec 10) (s : State) : Out :=
  laneCmp .ne d a i s

def execCmpiLtI (d : Nat) (a : LSrc) (i : BitVec 10) (s : State) : Out :=
  laneCmp .ltI d a i s

def execCmpiLeI (d : Nat) (a : LSrc) (i : BitVec 10) (s : State) : Out :=
  laneCmp .leI d a i s

def execCmpiLtN (d : Nat) (a : LSrc) (i : BitVec 10) (s : State) : Out :=
  laneCmp .ltN d a i s

def execCmpiLeN (d : Nat) (a : LSrc) (i : BitVec 10) (s : State) : Out :=
  laneCmp .leN d a i s

def execCmpiTst (d : Nat) (a : LSrc) (i : BitVec 10) (s : State) : Out :=
  laneCmp .tst d a i s

def execMovi (d : LDst) (i : BitVec 13) (s : State) : Out :=
  laneImm (fun _ => i.signExtend 32) d .z s

def execLeai (d : LDst) (a : LSrc) (i : BitVec 13) (s : State) : Out :=
  lanesUnit 0 (fun _ l => d.put64 false (a.r64 l + i.signExtend 64) l) s

end Sys2Proof.Machine
end

