-- ==== Sys2Proof/Machine/Uniform.lean ====
section
/-! DEFINITION. Uniform integer, predicate and move instructions (R94-R97), of a group or of the cox (R341). -/

namespace Sys2Proof.Machine

/-! ### Shapes -/

def uni1 (f : DWord → DWord) (d : UDst) (a : USrc) (n : Bool) (k : Nat) (s : State) : Out :=
  uniformUnit k (fun u => d.put n (f (a.get u)) u) s

def uni2 (f : DWord → DWord → DWord) (d : UDst) (a b : USrc) (n : Bool) (k : Nat) (s : State) : Out :=
  uniformUnit k (fun u => d.put n (f (a.get u) (b.get u)) u) s

def uniPred (f : DWord → DWord → Bool) (d : Nat) (a b : USrc) (k : Nat) (s : State) : Out :=
  uniformUnit k (fun u => u.setPred d (f (a.get u) (b.get u))) s

def kLogic (f : Bool → Bool → Bool) (d a b k : Nat) (s : State) : Out :=
  uniformUnit k (fun u => u.setPred d (f (u.pred a) (u.pred b))) s

/-- An immediate form: no guard field, no n bit (R97). -/
def uniImm (f : DWord → DWord) (d : UDst) (a : USrc) (s : State) : Out := uni1 f d a false 0 s

def uniCmp (c : Cond) (d : Nat) (a : USrc) (i : BitVec 10) (s : State) : Out :=
  uniformUnit 0 (fun u => u.setPred d (c.holds (a.get u) (i.signExtend 64))) s

/-! ### Arithmetic and logic (R94, R96) -/

def execUAdd (d : UDst) (a b : USrc) (n : Bool) (k : Nat) (s : State) : Out :=
  uni2 (· + ·) d a b n k s

def execUSub (d : UDst) (a b : USrc) (n : Bool) (k : Nat) (s : State) : Out :=
  uni2 (· - ·) d a b n k s

def execUMinI (d : UDst) (a b : USrc) (n : Bool) (k : Nat) (s : State) : Out :=
  uni2 minI d a b n k s

def execUMaxI (d : UDst) (a b : USrc) (n : Bool) (k : Nat) (s : State) : Out :=
  uni2 maxI d a b n k s

def execUMinN (d : UDst) (a b : USrc) (n : Bool) (k : Nat) (s : State) : Out :=
  uni2 minN d a b n k s

def execUMaxN (d : UDst) (a b : USrc) (n : Bool) (k : Nat) (s : State) : Out :=
  uni2 maxN d a b n k s

def execUMul (d : UDst) (a b : USrc) (n : Bool) (k : Nat) (s : State) : Out :=
  uni2 (· * ·) d a b n k s

def execUMulhN (d : UDst) (a b : USrc) (n : Bool) (k : Nat) (s : State) : Out :=
  uni2 mulHighN d a b n k s

def execUAnd (d : UDst) (a b : USrc) (n : Bool) (k : Nat) (s : State) : Out :=
  uni2 (· &&& ·) d a b n k s

def execUOr (d : UDst) (a b : USrc) (n : Bool) (k : Nat) (s : State) : Out :=
  uni2 (· ||| ·) d a b n k s

def execUXor (d : UDst) (a b : USrc) (n : Bool) (k : Nat) (s : State) : Out :=
  uni2 (· ^^^ ·) d a b n k s

def execUAndn (d : UDst) (a b : USrc) (n : Bool) (k : Nat) (s : State) : Out :=
  uni2 (fun x y => x &&& ~~~y) d a b n k s

def execUShl (d : UDst) (a b : USrc) (n : Bool) (k : Nat) (s : State) : Out :=
  uni2 (fun x y => shiftL x y.toNat) d a b n k s

def execUShr (d : UDst) (a b : USrc) (n : Bool) (k : Nat) (s : State) : Out :=
  uni2 (fun x y => shiftR x y.toNat) d a b n k s

def execUSar (d : UDst) (a b : USrc) (n : Bool) (k : Nat) (s : State) : Out :=
  uni2 (fun x y => shiftA x y.toNat) d a b n k s

def execUDivN (d : UDst) (a b : USrc) (n : Bool) (k : Nat) (s : State) : Out :=
  uni2 divN d a b n k s

def execUClz (d : UDst) (a : USrc) (n : Bool) (k : Nat) (s : State) : Out :=
  uni1 leadingZeros d a n k s

def execUPopc (d : UDst) (a : USrc) (n : Bool) (k : Nat) (s : State) : Out :=
  uni1 ones d a n k s

def execUMov (d : UDst) (a : USrc) (n : Bool) (k : Nat) (s : State) : Out :=
  uni1 id d a n k s

def execUMovs (d : UDst) (a : USrc) (n : Bool) (k : Nat) (s : State) : Out :=
  uni1 (fun x => (x.setWidth 32).signExtend 64) d a n k s

def execUSel (d : UDst) (a b : USrc) (n : Bool) (c : Nat) (s : State) : Out :=
  uniformUnit 0 (fun u => d.put n (if u.pred c then a.get u else b.get u) u) s

/-! ### Predicates (R95, R96) -/

def execUEq (d : Nat) (a b : USrc) (k : Nat) (s : State) : Out :=
  uniPred (Cond.holds .eq) d a b k s

def execUNe (d : Nat) (a b : USrc) (k : Nat) (s : State) : Out :=
  uniPred (Cond.holds .ne) d a b k s

def execULtI (d : Nat) (a b : USrc) (k : Nat) (s : State) : Out :=
  uniPred (Cond.holds .ltI) d a b k s

def execULeI (d : Nat) (a b : USrc) (k : Nat) (s : State) : Out :=
  uniPred (Cond.holds .leI) d a b k s

def execULtN (d : Nat) (a b : USrc) (k : Nat) (s : State) : Out :=
  uniPred (Cond.holds .ltN) d a b k s

def execULeN (d : Nat) (a b : USrc) (k : Nat) (s : State) : Out :=
  uniPred (Cond.holds .leN) d a b k s

def execUTst (d : Nat) (a b : USrc) (k : Nat) (s : State) : Out :=
  uniPred (Cond.holds .tst) d a b k s

def execKopAnd (d a b k : Nat) (s : State) : Out :=
  kLogic (· && ·) d a b k s

def execKopOr (d a b k : Nat) (s : State) : Out :=
  kLogic (· || ·) d a b k s

def execKopXor (d a b k : Nat) (s : State) : Out :=
  kLogic (· != ·) d a b k s

def execKopAndn (d a b k : Nat) (s : State) : Out :=
  kLogic (fun x y => x && !y) d a b k s

def execKopNot (d a k : Nat) (s : State) : Out :=
  kLogic (fun x _ => !x) d a 0 k s

/-! ### A lane value (R96, R141) -/

/-- The lowest logical lane of the issuing set gives its value; the cox has no lanes (R341). -/
def execVtos (d : UDst) (a : LSrc) (n : Bool) (k : Nat) (s : State) : Out :=
  guardedUnit k s fun c g =>
    let x := match g.elected c.lanes with
      | some p => (a.r32 (g.lane p)).setWidth 64
      | none => 0
    .ok ((s.setGroup c.gkey { g with u := d.put n x g.u }).advance c)

/-! ### Immediates (R97) -/

def execSaddi (d : UDst) (a : USrc) (i : BitVec 13) (s : State) : Out :=
  uniImm (· + i.signExtend 64) d a s

def execSandi (d : UDst) (a : USrc) (i : BitVec 13) (s : State) : Out :=
  uniImm (· &&& i.setWidth 64) d a s

def execSori (d : UDst) (a : USrc) (i : BitVec 13) (s : State) : Out :=
  uniImm (· ||| i.setWidth 64) d a s

def execSshiShl (d : UDst) (a : USrc) (k : Nat) (s : State) : Out :=
  uniImm (shiftL · k) d a s

def execSshiShr (d : UDst) (a : USrc) (k : Nat) (s : State) : Out :=
  uniImm (shiftR · k) d a s

def execSshiSar (d : UDst) (a : USrc) (k : Nat) (s : State) : Out :=
  uniImm (shiftA · k) d a s

def execScmpiEq (d : Nat) (a : USrc) (i : BitVec 10) (s : State) : Out :=
  uniCmp .eq d a i s

def execScmpiNe (d : Nat) (a : USrc) (i : BitVec 10) (s : State) : Out :=
  uniCmp .ne d a i s

def execScmpiLtI (d : Nat) (a : USrc) (i : BitVec 10) (s : State) : Out :=
  uniCmp .ltI d a i s

def execScmpiLeI (d : Nat) (a : USrc) (i : BitVec 10) (s : State) : Out :=
  uniCmp .leI d a i s

def execScmpiLtN (d : Nat) (a : USrc) (i : BitVec 10) (s : State) : Out :=
  uniCmp .ltN d a i s

def execScmpiLeN (d : Nat) (a : USrc) (i : BitVec 10) (s : State) : Out :=
  uniCmp .leN d a i s

def execScmpiTst (d : Nat) (a : USrc) (i : BitVec 10) (s : State) : Out :=
  uniCmp .tst d a i s

def execSmovi (d : UDst) (i : BitVec 13) (s : State) : Out :=
  uniImm (fun _ => i.signExtend 64) d .z s

end Sys2Proof.Machine
end

