-- ==== Sys2Proof/Machine/Dispatch.lean ====
section
/-! DEFINITION. The dispatch of every instruction, operation and event to its meaning. -/

namespace Sys2Proof.Machine

def exec (i : Instr) (s : State) : Host.Outcome State Fault Refusal :=
  match i with
  | .add d a b n g => Sys2Proof.Machine.execAdd d a b n g s
  | .sub d a b n g => Sys2Proof.Machine.execSub d a b n g s
  | .minI d a b n g => Sys2Proof.Machine.execMinI d a b n g s
  | .maxI d a b n g => Sys2Proof.Machine.execMaxI d a b n g s
  | .minN d a b n g => Sys2Proof.Machine.execMinN d a b n g s
  | .maxN d a b n g => Sys2Proof.Machine.execMaxN d a b n g s
  | .abs d a n g => Sys2Proof.Machine.execAbs d a n g s
  | .neg d a n g => Sys2Proof.Machine.execNeg d a n g s
  | .and d a b n g => Sys2Proof.Machine.execAnd d a b n g s
  | .or d a b n g => Sys2Proof.Machine.execOr d a b n g s
  | .xor d a b n g => Sys2Proof.Machine.execXor d a b n g s
  | .andn d a b n g => Sys2Proof.Machine.execAndn d a b n g s
  | .shl d a b n g => Sys2Proof.Machine.execShl d a b n g s
  | .shr d a b n g => Sys2Proof.Machine.execShr d a b n g s
  | .sar d a b n g => Sys2Proof.Machine.execSar d a b n g s
  | .rol d a b n g => Sys2Proof.Machine.execRol d a b n g s
  | .mul d a b n g => Sys2Proof.Machine.execMul d a b n g s
  | .mulhI d a b n g => Sys2Proof.Machine.execMulhI d a b n g s
  | .mulhN d a b n g => Sys2Proof.Machine.execMulhN d a b n g s
  | .mad d a b n g => Sys2Proof.Machine.execMad d a b n g s
  | .divI d a b n g => Sys2Proof.Machine.execDivI d a b n g s
  | .divN d a b n g => Sys2Proof.Machine.execDivN d a b n g s
  | .remI d a b n g => Sys2Proof.Machine.execRemI d a b n g s
  | .remN d a b n g => Sys2Proof.Machine.execRemN d a b n g s
  | .clz d a n g => Sys2Proof.Machine.execClz d a n g s
  | .popc d a n g => Sys2Proof.Machine.execPopc d a n g s
  | .brev d a n g => Sys2Proof.Machine.execBrev d a n g s
  | .bfeI d a b n g => Sys2Proof.Machine.execBfeI d a b n g s
  | .bfeN d a b n g => Sys2Proof.Machine.execBfeN d a b n g s
  | .bfi d a b n g => Sys2Proof.Machine.execBfi d a b n g s
  | .bmix d a b n g => Sys2Proof.Machine.execBmix d a b n g s
  | .sext d a b n g => Sys2Proof.Machine.execSext d a b n g s
  | .eq d a b g => Sys2Proof.Machine.execEq d a b g s
  | .ne d a b g => Sys2Proof.Machine.execNe d a b g s
  | .ltI d a b g => Sys2Proof.Machine.execLtI d a b g s
  | .leI d a b g => Sys2Proof.Machine.execLeI d a b g s
  | .ltN d a b g => Sys2Proof.Machine.execLtN d a b g s
  | .leN d a b g => Sys2Proof.Machine.execLeN d a b g s
  | .tst d a b g => Sys2Proof.Machine.execTst d a b g s
  | .pand d a b g => Sys2Proof.Machine.execPand d a b g s
  | .por d a b g => Sys2Proof.Machine.execPor d a b g s
  | .pxor d a b g => Sys2Proof.Machine.execPxor d a b g s
  | .pandn d a b g => Sys2Proof.Machine.execPandn d a b g s
  | .pnot d a g => Sys2Proof.Machine.execPnot d a g s
  | .ptov d a n g => Sys2Proof.Machine.execPtov d a n g s
  | .vtop d a g => Sys2Proof.Machine.execVtop d a g s
  | .mov d a n g => Sys2Proof.Machine.execMov d a n g s
  | .sel d a b n p => Sys2Proof.Machine.execSel d a b n p s
  | .movs d a n g => Sys2Proof.Machine.execMovs d a n g s
  | .movu d a n g => Sys2Proof.Machine.execMovu d a n g s
  | .add64 d a b n g => Sys2Proof.Machine.execAdd64 d a b n g s
  | .sub64 d a b n g => Sys2Proof.Machine.execSub64 d a b n g s
  | .shl64 d a b n g => Sys2Proof.Machine.execShl64 d a b n g s
  | .lea d a b n g => Sys2Proof.Machine.execLea d a b n g s
  | .addi d a im => Sys2Proof.Machine.execAddi d a im s
  | .andi d a im => Sys2Proof.Machine.execAndi d a im s
  | .ori d a im => Sys2Proof.Machine.execOri d a im s
  | .xori d a im => Sys2Proof.Machine.execXori d a im s
  | .shiShl d a w => Sys2Proof.Machine.execShiShl d a w s
  | .shiShr d a w => Sys2Proof.Machine.execShiShr d a w s
  | .shiSar d a w => Sys2Proof.Machine.execShiSar d a w s
  | .shiRol d a w => Sys2Proof.Machine.execShiRol d a w s
  | .cmpiEq d a im => Sys2Proof.Machine.execCmpiEq d a im s
  | .cmpiNe d a im => Sys2Proof.Machine.execCmpiNe d a im s
  | .cmpiLtI d a im => Sys2Proof.Machine.execCmpiLtI d a im s
  | .cmpiLeI d a im => Sys2Proof.Machine.execCmpiLeI d a im s
  | .cmpiLtN d a im => Sys2Proof.Machine.execCmpiLtN d a im s
  | .cmpiLeN d a im => Sys2Proof.Machine.execCmpiLeN d a im s
  | .cmpiTst d a im => Sys2Proof.Machine.execCmpiTst d a im s
  | .movi d im => Sys2Proof.Machine.execMovi d im s
  | .leai d a im => Sys2Proof.Machine.execLeai d a im s
  | .fadd d a b n g => Sys2Proof.Machine.execFadd d a b n g s
  | .fsub d a b n g => Sys2Proof.Machine.execFsub d a b n g s
  | .fmul d a b n g => Sys2Proof.Machine.execFmul d a b n g s
  | .ffma d a b n g => Sys2Proof.Machine.execFfma d a b n g s
  | .fmin d a b n g => Sys2Proof.Machine.execFmin d a b n g s
  | .fmax d a b n g => Sys2Proof.Machine.execFmax d a b n g s
  | .fnma d a b n g => Sys2Proof.Machine.execFnma d a b n g s
  | .fdiv d a b n g => Sys2Proof.Machine.execFdiv d a b n g s
  | .fcmpEq d a b g => Sys2Proof.Machine.execFcmpEq d a b g s
  | .fcmpNe d a b g => Sys2Proof.Machine.execFcmpNe d a b g s
  | .fcmpLt d a b g => Sys2Proof.Machine.execFcmpLt d a b g s
  | .fcmpLe d a b g => Sys2Proof.Machine.execFcmpLe d a b g s
  | .fcmpUn d a b g => Sys2Proof.Machine.execFcmpUn d a b g s
  | .fcmpTolt d a b g => Sys2Proof.Machine.execFcmpTolt d a b g s
  | .fcmpTole d a b g => Sys2Proof.Machine.execFcmpTole d a b g s
  | .fcmpClass d a b g => Sys2Proof.Machine.execFcmpClass d a b g s
  | .dadd d a b n g => Sys2Proof.Machine.execDadd d a b n g s
  | .dsub d a b n g => Sys2Proof.Machine.execDsub d a b n g s
  | .dmul d a b n g => Sys2Proof.Machine.execDmul d a b n g s
  | .dfma d a b n g => Sys2Proof.Machine.execDfma d a b n g s
  | .dmin d a b n g => Sys2Proof.Machine.execDmin d a b n g s
  | .dmax d a b n g => Sys2Proof.Machine.execDmax d a b n g s
  | .ddiv d a b n g => Sys2Proof.Machine.execDdiv d a b n g s
  | .dsqrt d a n g => Sys2Proof.Machine.execDsqrt d a n g s
  | .haddF16 d a b n g => Sys2Proof.Machine.execHaddF16 d a b n g s
  | .hmulF16 d a b n g => Sys2Proof.Machine.execHmulF16 d a b n g s
  | .hfmaF16 d a b n g => Sys2Proof.Machine.execHfmaF16 d a b n g s
  | .haddBf16 d a b n g => Sys2Proof.Machine.execHaddBf16 d a b n g s
  | .hmulBf16 d a b n g => Sys2Proof.Machine.execHmulBf16 d a b n g s
  | .hfmaBf16 d a b n g => Sys2Proof.Machine.execHfmaBf16 d a b n g s
  | .hmin d a b n g => Sys2Proof.Machine.execHmin d a b n g s
  | .hmax d a b n g => Sys2Proof.Machine.execHmax d a b n g s
  | .cvtI32F32 d a r n g => Sys2Proof.Machine.execCvtI32F32 d a r n g s
  | .cvtN32F32 d a r n g => Sys2Proof.Machine.execCvtN32F32 d a r n g s
  | .cvtF32I32 d a r n g => Sys2Proof.Machine.execCvtF32I32 d a r n g s
  | .cvtF32N32 d a r n g => Sys2Proof.Machine.execCvtF32N32 d a r n g s
  | .cvtBf16F32 d a n g => Sys2Proof.Machine.execCvtBf16F32 d a n g s
  | .cvtF16F32 d a n g => Sys2Proof.Machine.execCvtF16F32 d a n g s
  | .cvtF32Bf16 d a n g => Sys2Proof.Machine.execCvtF32Bf16 d a n g s
  | .cvtF32F16 d a n g => Sys2Proof.Machine.execCvtF32F16 d a n g s
  | .cvtE4m3F32 d a n g => Sys2Proof.Machine.execCvtE4m3F32 d a n g s
  | .cvtE5m2F32 d a n g => Sys2Proof.Machine.execCvtE5m2F32 d a n g s
  | .cvtI8F32 d a n g => Sys2Proof.Machine.execCvtI8F32 d a n g s
  | .cvtI8I32 d a n g => Sys2Proof.Machine.execCvtI8I32 d a n g s
  | .cvtI16F32 d a n g => Sys2Proof.Machine.execCvtI16F32 d a n g s
  | .cvtI16I32 d a n g => Sys2Proof.Machine.execCvtI16I32 d a n g s
  | .cvtF32E4m3 d a n g => Sys2Proof.Machine.execCvtF32E4m3 d a n g s
  | .cvtF32E5m2 d a n g => Sys2Proof.Machine.execCvtF32E5m2 d a n g s
  | .cvtBf16F32Sr d a n g => Sys2Proof.Machine.execCvtBf16F32Sr d a n g s
  | .cvtE4m3F32Sr d a n g => Sys2Proof.Machine.execCvtE4m3F32Sr d a n g s
  | .packF4b d a n g => Sys2Proof.Machine.execPackF4b d a n g s
  | .unpkF4b d a b n g => Sys2Proof.Machine.execUnpkF4b d a b n g s
  | .scaleF4b d a b n g => Sys2Proof.Machine.execScaleF4b d a b n g s
  | .mx2f4b d a n g => Sys2Proof.Machine.execMx2f4b d a n g s
  | .rcp d a n g => Sys2Proof.Machine.execRcp d a n g s
  | .rsq d a n g => Sys2Proof.Machine.execRsq d a n g s
  | .sqrt d a n g => Sys2Proof.Machine.execSqrt d a n g s
  | .exp2 d a n g => Sys2Proof.Machine.execExp2 d a n g s
  | .log2 d a n g => Sys2Proof.Machine.execLog2 d a n g s
  | .sin d a n g => Sys2Proof.Machine.execSin d a n g s
  | .cos d a n g => Sys2Proof.Machine.execCos d a n g s
  | .tanh d a n g => Sys2Proof.Machine.execTanh d a n g s
  | .frnd d a r n g => Sys2Proof.Machine.execFrnd d a r n g s
  | .key3 d a n g => Sys2Proof.Machine.execKey3 d a n g s
  | .rng d n g => Sys2Proof.Machine.execRng d n g s
  | .seed a g => Sys2Proof.Machine.execSeed a g s
  | .fscale d a b n g => Sys2Proof.Machine.execFscale d a b n g s
  | .fexp d a n g => Sys2Proof.Machine.execFexp d a n g s
  | .ldg d a m z g => Sys2Proof.Machine.execLdg d a m z g s
  | .stg d a m z g => Sys2Proof.Machine.execStg d a m z g s
  | .lds d a m z g => Sys2Proof.Machine.execLds d a m z g s
  | .sts d a m z g => Sys2Proof.Machine.execSts d a m z g s
  | .ldk d a m z g => Sys2Proof.Machine.execLdk d a m z g s
  | .stk d a m z g => Sys2Proof.Machine.execStk d a m z g s
  | .stx d a m z g => Sys2Proof.Machine.execStx d a m z g s
  | .ldp d a m z g => Sys2Proof.Machine.execLdp d a m z g s
  | .atomgAdd d a b r g => Sys2Proof.Machine.execAtomgAdd d a b r g s
  | .atomgMinI d a b r g => Sys2Proof.Machine.execAtomgMinI d a b r g s
  | .atomgMaxI d a b r g => Sys2Proof.Machine.execAtomgMaxI d a b r g s
  | .atomgAnd d a b r g => Sys2Proof.Machine.execAtomgAnd d a b r g s
  | .atomgOr d a b r g => Sys2Proof.Machine.execAtomgOr d a b r g s
  | .atomgXor d a b r g => Sys2Proof.Machine.execAtomgXor d a b r g s
  | .atomgExch d a b r g => Sys2Proof.Machine.execAtomgExch d a b r g s
  | .atomgCas d a b r g => Sys2Proof.Machine.execAtomgCas d a b r g s
  | .atomgAddB64 d a b r g => Sys2Proof.Machine.execAtomgAddB64 d a b r g s
  | .atomgMinIB64 d a b r g => Sys2Proof.Machine.execAtomgMinIB64 d a b r g s
  | .atomgMaxIB64 d a b r g => Sys2Proof.Machine.execAtomgMaxIB64 d a b r g s
  | .atomgAndB64 d a b r g => Sys2Proof.Machine.execAtomgAndB64 d a b r g s
  | .atomgOrB64 d a b r g => Sys2Proof.Machine.execAtomgOrB64 d a b r g s
  | .atomgXorB64 d a b r g => Sys2Proof.Machine.execAtomgXorB64 d a b r g s
  | .atomgExchB64 d a b r g => Sys2Proof.Machine.execAtomgExchB64 d a b r g s
  | .atomgCasB64 d a b r g => Sys2Proof.Machine.execAtomgCasB64 d a b r g s
  | .atomgIncb d a b r g => Sys2Proof.Machine.execAtomgIncb d a b r g s
  | .atomgDecb d a b r g => Sys2Proof.Machine.execAtomgDecb d a b r g s
  | .atomgFadd d a b r g => Sys2Proof.Machine.execAtomgFadd d a b r g s
  | .atomgFmin d a b r g => Sys2Proof.Machine.execAtomgFmin d a b r g s
  | .atomgFmax d a b r g => Sys2Proof.Machine.execAtomgFmax d a b r g s
  | .atomgMinN d a b r g => Sys2Proof.Machine.execAtomgMinN d a b r g s
  | .atomgMaxN d a b r g => Sys2Proof.Machine.execAtomgMaxN d a b r g s
  | .atomsAdd d a b g => Sys2Proof.Machine.execAtomsAdd d a b g s
  | .atomsMinI d a b g => Sys2Proof.Machine.execAtomsMinI d a b g s
  | .atomsMaxI d a b g => Sys2Proof.Machine.execAtomsMaxI d a b g s
  | .atomsAnd d a b g => Sys2Proof.Machine.execAtomsAnd d a b g s
  | .atomsOr d a b g => Sys2Proof.Machine.execAtomsOr d a b g s
  | .atomsExch d a b g => Sys2Proof.Machine.execAtomsExch d a b g s
  | .atomsCas d a b g => Sys2Proof.Machine.execAtomsCas d a b g s
  | .atomsIncb d a b g => Sys2Proof.Machine.execAtomsIncb d a b g s
  | .xidx d a b n x => Sys2Proof.Machine.execXidx d a b n x s
  | .xxor d a b n x => Sys2Proof.Machine.execXxor d a b n x s
  | .xrot d a b n x => Sys2Proof.Machine.execXrot d a b n x s
  | .xshift d a b n x => Sys2Proof.Machine.execXshift d a b n x s
  | .xlid d a b n => Sys2Proof.Machine.execXlid d a b n s
  | .pany d a x => Sys2Proof.Machine.execPany d a x s
  | .pall d a x => Sys2Proof.Machine.execPall d a x s
  | .pmask d a n x => Sys2Proof.Machine.execPmask d a n x s
  | .matchEq d a n x => Sys2Proof.Machine.execMatchEq d a n x s
  | .compact d a b n x => Sys2Proof.Machine.execCompact d a b n x s
  | .redAdd d a n x => Sys2Proof.Machine.execRedAdd d a n x s
  | .redFadd d a n x => Sys2Proof.Machine.execRedFadd d a n x s
  | .redMinI d a n x => Sys2Proof.Machine.execRedMinI d a n x s
  | .redMinN d a n x => Sys2Proof.Machine.execRedMinN d a n x s
  | .redMinF d a n x => Sys2Proof.Machine.execRedMinF d a n x s
  | .redMaxI d a n x => Sys2Proof.Machine.execRedMaxI d a n x s
  | .redMaxN d a n x => Sys2Proof.Machine.execRedMaxN d a n x s
  | .redMaxF d a n x => Sys2Proof.Machine.execRedMaxF d a n x s
  | .scanAdd d a n x => Sys2Proof.Machine.execScanAdd d a n x s
  | .mrank d a n x => Sys2Proof.Machine.execMrank d a n x s
  | .garg d a b n x => Sys2Proof.Machine.execGarg d a b n x s
  | .gres d a b x => Sys2Proof.Machine.execGres d a b x s
  | .rpush d a g => Sys2Proof.Machine.execRpush d a g s
  | .jml d a g => Sys2Proof.Machine.execJml d a g s
  | .mfragBf16 d a b u c g => Sys2Proof.Machine.execMfragBf16 d a b u c g s
  | .mfragF16 d a b u c g => Sys2Proof.Machine.execMfragF16 d a b u c g s
  | .mfragE4m3 d a b u c g => Sys2Proof.Machine.execMfragE4m3 d a b u c g s
  | .mfragE5m2 d a b u c g => Sys2Proof.Machine.execMfragE5m2 d a b u c g s
  | .mfragF4b d a b u w c g => Sys2Proof.Machine.execMfragF4b d a b u w c g s
  | .mfragI8 d a b u c g => Sys2Proof.Machine.execMfragI8 d a b u c g s
  | .brl p w o => Sys2Proof.Machine.execBrl p w o s
  | .uAdd d a b n k => Sys2Proof.Machine.execUAdd d a b n k s
  | .uSub d a b n k => Sys2Proof.Machine.execUSub d a b n k s
  | .uMinI d a b n k => Sys2Proof.Machine.execUMinI d a b n k s
  | .uMaxI d a b n k => Sys2Proof.Machine.execUMaxI d a b n k s
  | .uMinN d a b n k => Sys2Proof.Machine.execUMinN d a b n k s
  | .uMaxN d a b n k => Sys2Proof.Machine.execUMaxN d a b n k s
  | .uMul d a b n k => Sys2Proof.Machine.execUMul d a b n k s
  | .uMulhN d a b n k => Sys2Proof.Machine.execUMulhN d a b n k s
  | .uAnd d a b n k => Sys2Proof.Machine.execUAnd d a b n k s
  | .uOr d a b n k => Sys2Proof.Machine.execUOr d a b n k s
  | .uXor d a b n k => Sys2Proof.Machine.execUXor d a b n k s
  | .uAndn d a b n k => Sys2Proof.Machine.execUAndn d a b n k s
  | .uShl d a b n k => Sys2Proof.Machine.execUShl d a b n k s
  | .uShr d a b n k => Sys2Proof.Machine.execUShr d a b n k s
  | .uSar d a b n k => Sys2Proof.Machine.execUSar d a b n k s
  | .uClz d a n k => Sys2Proof.Machine.execUClz d a n k s
  | .uEq d a b k => Sys2Proof.Machine.execUEq d a b k s
  | .uNe d a b k => Sys2Proof.Machine.execUNe d a b k s
  | .uLtI d a b k => Sys2Proof.Machine.execULtI d a b k s
  | .uLeI d a b k => Sys2Proof.Machine.execULeI d a b k s
  | .uLtN d a b k => Sys2Proof.Machine.execULtN d a b k s
  | .uLeN d a b k => Sys2Proof.Machine.execULeN d a b k s
  | .uTst d a b k => Sys2Proof.Machine.execUTst d a b k s
  | .uMov d a n k => Sys2Proof.Machine.execUMov d a n k s
  | .uSel d a b n c => Sys2Proof.Machine.execUSel d a b n c s
  | .uMovs d a n k => Sys2Proof.Machine.execUMovs d a n k s
  | .kopAnd d a w k => Sys2Proof.Machine.execKopAnd d a w k s
  | .kopOr d a w k => Sys2Proof.Machine.execKopOr d a w k s
  | .kopXor d a w k => Sys2Proof.Machine.execKopXor d a w k s
  | .kopAndn d a w k => Sys2Proof.Machine.execKopAndn d a w k s
  | .kopNot d a k => Sys2Proof.Machine.execKopNot d a k s
  | .vtos d a n k => Sys2Proof.Machine.execVtos d a n k s
  | .uPopc d a n k => Sys2Proof.Machine.execUPopc d a n k s
  | .uDivN d a b n k => Sys2Proof.Machine.execUDivN d a b n k s
  | .ret k => Sys2Proof.Machine.execRet k s
  | .calli a k => Sys2Proof.Machine.execCalli a k s
  | .saddi d a im => Sys2Proof.Machine.execSaddi d a im s
  | .sandi d a im => Sys2Proof.Machine.execSandi d a im s
  | .sori d a im => Sys2Proof.Machine.execSori d a im s
  | .sshiShl d a w => Sys2Proof.Machine.execSshiShl d a w s
  | .sshiShr d a w => Sys2Proof.Machine.execSshiShr d a w s
  | .sshiSar d a w => Sys2Proof.Machine.execSshiSar d a w s
  | .scmpiEq d a im => Sys2Proof.Machine.execScmpiEq d a im s
  | .scmpiNe d a im => Sys2Proof.Machine.execScmpiNe d a im s
  | .scmpiLtI d a im => Sys2Proof.Machine.execScmpiLtI d a im s
  | .scmpiLeI d a im => Sys2Proof.Machine.execScmpiLeI d a im s
  | .scmpiLtN d a im => Sys2Proof.Machine.execScmpiLtN d a im s
  | .scmpiLeN d a im => Sys2Proof.Machine.execScmpiLeN d a im s
  | .scmpiTst d a im => Sys2Proof.Machine.execScmpiTst d a im s
  | .smovi d im => Sys2Proof.Machine.execSmovi d im s
  | .sld d a im => Sys2Proof.Machine.execSld d a im s
  | .sst d a im => Sys2Proof.Machine.execSst d a im s
  | .bra k w o => Sys2Proof.Machine.execBra k w o s
  | .call k w o => Sys2Proof.Machine.execCall k w o s
  | .rep c x y z => Sys2Proof.Machine.execRep c x y z s
  | .guard p n => Sys2Proof.Machine.execGuard p n s
  | .hdr r c f t => Sys2Proof.Machine.execHdr r c f t s
  | .jseg a b => Sys2Proof.Machine.execJseg a b s
  | .cfetch a b => Sys2Proof.Machine.execCfetch a b s
  | .widen a b => Sys2Proof.Machine.execWiden a b s
  | .gather a t => Sys2Proof.Machine.execGather a t s
  | .barTeam => Sys2Proof.Machine.execBarTeam s
  | .barTeamYield => Sys2Proof.Machine.execBarTeamYield s
  | .barClus => Sys2Proof.Machine.execBarClus s
  | .barMask a => Sys2Proof.Machine.execBarMask a s
  | .joinEnrol a => Sys2Proof.Machine.execJoinEnrol a s
  | .joinWait a => Sys2Proof.Machine.execJoinWait a s
  | .elect a c => Sys2Proof.Machine.execElect a c s
  | .partitionWhole a => Sys2Proof.Machine.execPartitionWhole a s
  | .partitionB4 a => Sys2Proof.Machine.execPartitionB4 a s
  | .partitionB8 a => Sys2Proof.Machine.execPartitionB8 a s
  | .partitionB16 a => Sys2Proof.Machine.execPartitionB16 a s
  | .partitionMask a b => Sys2Proof.Machine.execPartitionMask a b s
  | .regroup => Sys2Proof.Machine.execRegroup s
  | .lmap a b => Sys2Proof.Machine.execLmap a b s
  | .nop => Sys2Proof.Machine.execNop s
  | .exit => Sys2Proof.Machine.execExit s
  | .brk => Sys2Proof.Machine.execBrk s
  | .trap a => Sys2Proof.Machine.execTrap a s
  | .region => Sys2Proof.Machine.execRegion s
  | .yield => Sys2Proof.Machine.execYield s
  | .cinv a b => Sys2Proof.Machine.execCinv a b s
  | .cinvSync a b => Sys2Proof.Machine.execCinvSync a b s
  | .tcopy a b c => Sys2Proof.Machine.execTcopy a b c s
  | .tcopym a b c => Sys2Proof.Machine.execTcopym a b c s
  | .mtask a => Sys2Proof.Machine.execMtask a s
  | .drain a o => Sys2Proof.Machine.execDrain a o s
  | .ringAcq a b => Sys2Proof.Machine.execRingAcq a b s
  | .ringRel a => Sys2Proof.Machine.execRingRel a s
  | .keySort a b c k => Sys2Proof.Machine.execKeySort a b c k s
  | .keyMerge a b c k d => Sys2Proof.Machine.execKeyMerge a b c k d s
  | .keyTopk a b c => Sys2Proof.Machine.execKeyTopk a b c s
  | .keyOffs a b c => Sys2Proof.Machine.execKeyOffs a b c s
  | .keyCheck a b c => Sys2Proof.Machine.execKeyCheck a b c s
  | .xlatb a b c => Sys2Proof.Machine.execXlatb a b c s
  | .seq a => Sys2Proof.Machine.execSeq a s
  | .fence w => Sys2Proof.Machine.execFence w s
  | .fenceAcq w => Sys2Proof.Machine.execFenceAcq w s
  | .fenceRel w => Sys2Proof.Machine.execFenceRel w s
  | .fenceSc w => Sys2Proof.Machine.execFenceSc w s
  | .cwait a b => Sys2Proof.Machine.execCwait a b s
  | .suspend a b => Sys2Proof.Machine.execSuspend a b s
  | .touch a => Sys2Proof.Machine.execTouch a s
  | .fulfill a b => Sys2Proof.Machine.execFulfill a b s
  | .celltag a b c => Sys2Proof.Machine.execCelltag a b c s
  | .nlaunch a b => Sys2Proof.Machine.execNlaunch a b s
  | .nsignal b => Sys2Proof.Machine.execNsignal b s
  | .nqstat a b => Sys2Proof.Machine.execNqstat a b s
  | .mrs a b => Sys2Proof.Machine.execMrs a b s
  | .msr a b => Sys2Proof.Machine.execMsr a b s
  | .adpf a b c => Sys2Proof.Machine.execAdpf a b c s
  | .dbgRd a b c => Sys2Proof.Machine.execDbgRd a b c s
  | .dbgWr a b c => Sys2Proof.Machine.execDbgWr a b c s
  | .ctxSave a b => Sys2Proof.Machine.execCtxSave a b s
  | .ctxLoad a => Sys2Proof.Machine.execCtxLoad a s
  | .place a => Sys2Proof.Machine.execPlace a s
  | .evq a b => Sys2Proof.Machine.execEvq a b s
  | .pmsrRd a b => Sys2Proof.Machine.execPmsrRd a b s
  | .pmsrWr a b => Sys2Proof.Machine.execPmsrWr a b s
  | .cload a b => Sys2Proof.Machine.execCload a b s
  | .rte a b => Sys2Proof.Machine.execRte a b s
  | .kill a => Sys2Proof.Machine.execKill a s
  | .landingComplete core slot => Sys2Proof.Machine.execLandingComplete core slot s
  | .trapQueueAdmit core => Sys2Proof.Machine.execTrapQueueAdmit core s
  | .gatherFiring team => Sys2Proof.Machine.execGatherFiring team s
  | .phaseRecordWrite team => Sys2Proof.Machine.execPhaseRecordWrite team s
  | .eventHoldRelease die => Sys2Proof.Machine.execEventHoldRelease die s
  | .evaluatorRequest die => Sys2Proof.Machine.execEvaluatorRequest die s
  | .cellStarterRetry die => Sys2Proof.Machine.execCellStarterRetry die s
  | .cellWaiterRetry group => Sys2Proof.Machine.execCellWaiterRetry group s
  | .cwaitRecheck group => Sys2Proof.Machine.execCwaitRecheck group s
  | .cwaitPoll group => Sys2Proof.Machine.execCwaitPoll group s
  | .postedAtomicPerform core => Sys2Proof.Machine.execPostedAtomicPerform core s
  | .postedAtomicFault core => Sys2Proof.Machine.execPostedAtomicFault core s
  | .strokeTick => Sys2Proof.Machine.execStrokeTick s
  | .engineCommandStart core id => Sys2Proof.Machine.execEngineCommandStart core id s
  | .commandComplete core id => Sys2Proof.Machine.execCommandComplete core id s
  | .ringFill core id => Sys2Proof.Machine.execRingFill core id s
  | .sparsityQueueFill core id => Sys2Proof.Machine.execSparsityQueueFill core id s
  | .taskIssue core => Sys2Proof.Machine.execTaskIssue core s
  | .matrixTaskEnd core => Sys2Proof.Machine.execMatrixTaskEnd core s
  | .adapterLineFill core => Sys2Proof.Machine.execAdapterLineFill core s
  | .matrixNanTrap core => Sys2Proof.Machine.execMatrixNanTrap core s
  | .drainAddition core => Sys2Proof.Machine.execDrainAddition core s
  | .nodeSignal handle => Sys2Proof.Machine.execNodeSignal handle s
  | .placementDecision die => Sys2Proof.Machine.execPlacementDecision die s
  | .teamStart team => Sys2Proof.Machine.execTeamStart team s
  | .priorityAging die => Sys2Proof.Machine.execPriorityAging die s
  | .reservation die => Sys2Proof.Machine.execReservation die s
  | .packageArbiterHandout => Sys2Proof.Machine.execPackageArbiterHandout s
  | .recordArrival die queue => Sys2Proof.Machine.execRecordArrival die queue s
  | .flushTimerExpiry die queue => Sys2Proof.Machine.execFlushTimerExpiry die queue s
  | .slipwayReturn die => Sys2Proof.Machine.execSlipwayReturn die s
  | .teamEnd team => Sys2Proof.Machine.execTeamEnd team s
  | .menuEntryApply core entry => Sys2Proof.Machine.execMenuEntryApply core entry s
  | .ringtabWrite group => Sys2Proof.Machine.execRingtabWrite group s
  | .tlbinvPage asid page => Sys2Proof.Machine.execTlbinvPage asid page s
  | .tlbinvAsid asid => Sys2Proof.Machine.execTlbinvAsid asid s
  | .tlbinvAll => Sys2Proof.Machine.execTlbinvAll s
  | .vacsetAdd die core => Sys2Proof.Machine.execVacsetAdd die core s
  | .vacsetEmpty die => Sys2Proof.Machine.execVacsetEmpty die s
  | .vacgo die cobj => Sys2Proof.Machine.execVacgo die cobj s
  | .vacateHardStop die => Sys2Proof.Machine.execVacateHardStop die s
  | .vacateComplete die => Sys2Proof.Machine.execVacateComplete die s
  | .pgdone die asid page => Sys2Proof.Machine.execPgdone die asid page s
  | .eccClear die => Sys2Proof.Machine.execEccClear die s
  | .wrouteWrite v => Sys2Proof.Machine.execWrouteWrite v s
  | .evheadWrite die v => Sys2Proof.Machine.execEvheadWrite die v s
  | .hostQueueDoorbell die queue port tail => Sys2Proof.Machine.execHostQueueDoorbell die queue port tail s
  | .hostSubmit die queue => Sys2Proof.Machine.execHostSubmit die queue s
  | .hostSignal die queue => Sys2Proof.Machine.execHostSignal die queue s
  | .hostCloseQueue die queue => Sys2Proof.Machine.execHostCloseQueue die queue s
  | .msixCoalesceEnd port vector => Sys2Proof.Machine.execMsixCoalesceEnd port vector s
  | .eventStatusClear m => Sys2Proof.Machine.execEventStatusClear m s
  | .deviceRegisterWrite offset v => Sys2Proof.Machine.execDeviceRegisterWrite offset v s
  | .cxlMemWrite pa data => Sys2Proof.Machine.execCxlMemWrite pa data s
  | .cxlMemRead pa len => Sys2Proof.Machine.execCxlMemRead pa len s
  | .wotisRead f => Sys2Proof.Machine.execWotisRead f s
  | .wotisWrite f => Sys2Proof.Machine.execWotisWrite f s
  | .wotisAtomic f => Sys2Proof.Machine.execWotisAtomic f s
  | .wotisResponse f => Sys2Proof.Machine.execWotisResponse f s
  | .wotisCopyData f => Sys2Proof.Machine.execWotisCopyData f s
  | .wotisEvent f => Sys2Proof.Machine.execWotisEvent f s
  | .linkRetrained link => Sys2Proof.Machine.execLinkRetrained link s
  | .linkLost link => Sys2Proof.Machine.execLinkLost link s
  | .resync => Sys2Proof.Machine.execResync s
  | .resyncDone => Sys2Proof.Machine.execResyncDone s
  | .attestationRequest nonce => Sys2Proof.Machine.execAttestationRequest nonce s
  | .attestationReportReady => Sys2Proof.Machine.execAttestationReportReady s
  | .throttle die => Sys2Proof.Machine.execThrottle die s
  | .thermalFreeze => Sys2Proof.Machine.execThermalFreeze s
  | .freeze => Sys2Proof.Machine.execFreeze s
  | .coldReset => Sys2Proof.Machine.execColdReset s
  | .warmReset => Sys2Proof.Machine.execWarmReset s
  | .bootImageCheck => Sys2Proof.Machine.execBootImageCheck s
  | .testLogicReset => Sys2Proof.Machine.execTestLogicReset s
  | .extest => Sys2Proof.Machine.execExtest s
  | .samplePreload => Sys2Proof.Machine.execSamplePreload s
  | .idcode => Sys2Proof.Machine.execIdcode s
  | .daddr v => Sys2Proof.Machine.execDaddr v s
  | .ddata => Sys2Proof.Machine.execDdata s
  | .dstat => Sys2Proof.Machine.execDstat s
  | .bypass => Sys2Proof.Machine.execBypass s
  | .illegalInstruction => Sys2Proof.Machine.execIllegalInstruction s
  | .codeNotLanded => Sys2Proof.Machine.execCodeNotLanded s
  | .powerLoss => Sys2Proof.Machine.execPowerLoss s

end Sys2Proof.Machine
end

