-- ==== Sys2Proof/Machine/Fetch.lean ====
section
/-! DEFINITION. Units and their issue: the words of a unit and their checks (R43, R46, R51-R55), the issuing set (R141,
R143, R147), the bookkeeping of an issue (R49, R114, R139), the issue of a group and of a cox, and the turns that the
device's agents may take. -/

namespace Sys2Proof.Machine

/-! ### Stepped fields (R51, R52) -/

/-- The register bank a stepped field runs through. -/
inductive Bank where
  | lane | uniform | pred | kpred
deriving DecidableEq, Repr

def Bank.size : Bank → Nat
  | .lane => 56 | .uniform => 56 | .pred => 64 | .kpred => 8

/-- A register field of a word: its lowest bit, its bank, the registers it steps by, and the registers from its first to the
last of its operand (R51, R178; log entry 19 for fragments). -/
structure StepField where
  lo    : Nat
  bank  : Bank
  width : Nat
  span  : Nat
deriving DecidableEq, Repr

/-- The register fields d, a and b of the instructions that a REP may precede. -/
def stepFields : Instr → List StepField
  | .add _ _ _ _ _ | .sub _ _ _ _ _ | .minI _ _ _ _ _ | .maxI _ _ _ _ _ | .minN _ _ _ _ _ | .maxN _ _ _ _ _
  | .and _ _ _ _ _ | .or _ _ _ _ _ | .xor _ _ _ _ _ | .andn _ _ _ _ _ | .shl _ _ _ _ _ | .shr _ _ _ _ _
  | .sar _ _ _ _ _ | .rol _ _ _ _ _ | .mul _ _ _ _ _ | .mulhI _ _ _ _ _ | .mulhN _ _ _ _ _ | .mad _ _ _ _ _
  | .divI _ _ _ _ _ | .divN _ _ _ _ _ | .remI _ _ _ _ _ | .remN _ _ _ _ _ | .bfeI _ _ _ _ _ | .bfeN _ _ _ _ _
  | .bfi _ _ _ _ _ | .bmix _ _ _ _ _ | .sext _ _ _ _ _ | .sel _ _ _ _ _ | .fadd _ _ _ _ _ | .fsub _ _ _ _ _
  | .fmul _ _ _ _ _ | .ffma _ _ _ _ _ | .fmin _ _ _ _ _ | .fmax _ _ _ _ _ | .fnma _ _ _ _ _ | .fdiv _ _ _ _ _
  | .haddF16 _ _ _ _ _ | .hmulF16 _ _ _ _ _ | .hfmaF16 _ _ _ _ _ | .haddBf16 _ _ _ _ _ | .hmulBf16 _ _ _ _ _
  | .hfmaBf16 _ _ _ _ _ | .hmin _ _ _ _ _ | .hmax _ _ _ _ _ | .unpkF4b _ _ _ _ _ | .scaleF4b _ _ _ _ _
  | .fscale _ _ _ _ _ => [⟨19, .lane, 1, 1⟩, ⟨13, .lane, 1, 1⟩, ⟨7, .lane, 1, 1⟩]
  | .abs _ _ _ _ | .neg _ _ _ _ | .clz _ _ _ _ | .popc _ _ _ _ | .brev _ _ _ _ | .mov _ _ _ _ | .addi _ _ _
  | .andi _ _ _ | .ori _ _ _ | .xori _ _ _ | .shiShl _ _ _ | .shiShr _ _ _ | .shiSar _ _ _ | .shiRol _ _ _
  | .cvtI32F32 _ _ _ _ _ | .cvtN32F32 _ _ _ _ _ | .cvtF32I32 _ _ _ _ _ | .cvtF32N32 _ _ _ _ _
  | .cvtBf16F32 _ _ _ _ | .cvtF16F32 _ _ _ _ | .cvtF32Bf16 _ _ _ _ | .cvtF32F16 _ _ _ _ | .cvtE4m3F32 _ _ _ _
  | .cvtE5m2F32 _ _ _ _ | .cvtI8F32 _ _ _ _ | .cvtI8I32 _ _ _ _ | .cvtI16F32 _ _ _ _ | .cvtI16I32 _ _ _ _
  | .cvtF32E4m3 _ _ _ _ | .cvtF32E5m2 _ _ _ _ | .cvtBf16F32Sr _ _ _ _ | .cvtE4m3F32Sr _ _ _ _
  | .packF4b _ _ _ _ | .mx2f4b _ _ _ _ | .rcp _ _ _ _ | .rsq _ _ _ _ | .sqrt _ _ _ _ | .exp2 _ _ _ _
  | .log2 _ _ _ _ | .sin _ _ _ _ | .cos _ _ _ _ | .tanh _ _ _ _ | .frnd _ _ _ _ _ | .fexp _ _ _ _ => [⟨19, .lane, 1, 1⟩, ⟨13, .lane, 1, 1⟩]
  | .eq _ _ _ _ | .ne _ _ _ _ | .ltI _ _ _ _ | .leI _ _ _ _ | .ltN _ _ _ _ | .leN _ _ _ _ | .tst _ _ _ _
  | .fcmpEq _ _ _ _ | .fcmpNe _ _ _ _ | .fcmpLt _ _ _ _ | .fcmpLe _ _ _ _ | .fcmpUn _ _ _ _ | .fcmpTolt _ _ _ _
  | .fcmpTole _ _ _ _ | .fcmpClass _ _ _ _ => [⟨19, .pred, 1, 1⟩, ⟨13, .lane, 1, 1⟩, ⟨7, .lane, 1, 1⟩]
  | .pand _ _ _ _ | .por _ _ _ _ | .pxor _ _ _ _ | .pandn _ _ _ _ => [⟨19, .pred, 1, 1⟩, ⟨13, .pred, 1, 1⟩, ⟨7, .pred, 1, 1⟩]
  | .pnot _ _ _ => [⟨19, .pred, 1, 1⟩, ⟨13, .pred, 1, 1⟩]
  | .ptov _ _ _ _ => [⟨19, .lane, 1, 1⟩, ⟨13, .pred, 1, 1⟩]
  | .vtop _ _ _ | .cmpiEq _ _ _ | .cmpiNe _ _ _ | .cmpiLtI _ _ _ | .cmpiLeI _ _ _ | .cmpiLtN _ _ _
  | .cmpiLeN _ _ _ | .cmpiTst _ _ _ => [⟨19, .pred, 1, 1⟩, ⟨13, .lane, 1, 1⟩]
  | .movs _ _ _ _ | .movu _ _ _ _ => [⟨19, .lane, 1, 1⟩, ⟨13, .uniform, 1, 1⟩]
  | .add64 _ _ _ _ _ | .sub64 _ _ _ _ _ | .dadd _ _ _ _ _ | .dsub _ _ _ _ _ | .dmul _ _ _ _ _ | .dfma _ _ _ _ _
  | .dmin _ _ _ _ _ | .dmax _ _ _ _ _ | .ddiv _ _ _ _ _ => [⟨19, .lane, 2, 2⟩, ⟨13, .lane, 2, 2⟩, ⟨7, .lane, 2, 2⟩]
  | .shl64 _ _ _ _ _ | .lea _ _ _ _ _ => [⟨19, .lane, 2, 2⟩, ⟨13, .lane, 2, 2⟩, ⟨7, .lane, 1, 1⟩]
  | .movi _ _ | .rng _ _ _ => [⟨19, .lane, 1, 1⟩]
  | .leai _ _ _ | .dsqrt _ _ _ _ => [⟨19, .lane, 2, 2⟩, ⟨13, .lane, 2, 2⟩]
  | .key3 _ _ _ _ => [⟨19, .lane, 1, 1⟩, ⟨13, .lane, 4, 4⟩]
  | .seed _ _ => [⟨13, .lane, 2, 2⟩]
  | .ldg _ _ _ z _ | .stg _ _ _ z _ | .lds _ _ _ z _ | .sts _ _ _ z _ | .ldk _ _ _ z _ | .stk _ _ _ z _
  | .stx _ _ _ z _ | .ldp _ _ _ z _ => [⟨19, .lane, (szRegs z), (szRegs z)⟩, ⟨13, .lane, 1, 1⟩, ⟨7, .lane, 1, 1⟩]
  | .mfragBf16 _ _ _ _ _ _ | .mfragF16 _ _ _ _ _ _ | .mfragE4m3 _ _ _ _ _ _ | .mfragE5m2 _ _ _ _ _ _
  | .mfragI8 _ _ _ _ _ _ => [⟨19, .lane, 4, 8⟩, ⟨13, .lane, 4, 4⟩, ⟨7, .lane, 4, 4⟩]
  | .mfragF4b _ _ _ _ _ _ _ => [⟨19, .lane, 4, 8⟩, ⟨13, .lane, 4, 5⟩, ⟨7, .lane, 4, 5⟩]
  | .uAdd _ _ _ _ _ | .uSub _ _ _ _ _ | .uMinI _ _ _ _ _ | .uMaxI _ _ _ _ _ | .uMinN _ _ _ _ _
  | .uMaxN _ _ _ _ _ | .uMul _ _ _ _ _ | .uMulhN _ _ _ _ _ | .uAnd _ _ _ _ _ | .uOr _ _ _ _ _ | .uXor _ _ _ _ _
  | .uAndn _ _ _ _ _ | .uShl _ _ _ _ _ | .uShr _ _ _ _ _ | .uSar _ _ _ _ _ | .uSel _ _ _ _ _ | .uDivN _ _ _ _ _ => [⟨19, .uniform, 1, 1⟩, ⟨13, .uniform, 1, 1⟩, ⟨7, .uniform, 1, 1⟩]
  | .uClz _ _ _ _ | .uMov _ _ _ _ | .uMovs _ _ _ _ | .uPopc _ _ _ _ | .saddi _ _ _ | .sandi _ _ _ | .sori _ _ _
  | .sshiShl _ _ _ | .sshiShr _ _ _ | .sshiSar _ _ _ | .sld _ _ _ | .sst _ _ _ => [⟨19, .uniform, 1, 1⟩, ⟨13, .uniform, 1, 1⟩]
  | .uEq _ _ _ _ | .uNe _ _ _ _ | .uLtI _ _ _ _ | .uLeI _ _ _ _ | .uLtN _ _ _ _ | .uLeN _ _ _ _ | .uTst _ _ _ _ => [⟨19, .kpred, 1, 1⟩, ⟨13, .uniform, 1, 1⟩, ⟨7, .uniform, 1, 1⟩]
  | .kopAnd _ _ _ _ | .kopOr _ _ _ _ | .kopXor _ _ _ _ | .kopAndn _ _ _ _ | .kopNot _ _ _ => [⟨19, .kpred, 1, 1⟩, ⟨13, .kpred, 1, 1⟩]
  | .vtos _ _ _ _ => [⟨19, .uniform, 1, 1⟩, ⟨13, .lane, 1, 1⟩]
  | .scmpiEq _ _ _ | .scmpiNe _ _ _ | .scmpiLtI _ _ _ | .scmpiLeI _ _ _ | .scmpiLtN _ _ _ | .scmpiLeN _ _ _
  | .scmpiTst _ _ _ => [⟨19, .kpred, 1, 1⟩, ⟨13, .uniform, 1, 1⟩]
  | .smovi _ _ => [⟨19, .uniform, 1, 1⟩]
  | _ => []

/-- The word may stand after a REP (R52). -/
def repable (w : Word) : Bool :=
  let m := bits w.toNat 30 25
  if w.getLsbD 31 then m ≤ 3 || (8 ≤ m && m ≤ 0x0F)
  else m ≤ 6 || (8 ≤ m && m ≤ 0x18) || (0x30 ≤ m && m ≤ 0x35) || (0x20 ≤ m && m ≤ 0x27 && !w.getLsbD 3)

/-- The stepped fields of a unit; none when a step names no register field. -/
def steppedFields (i : Instr) (d a b : Bool) : Option (List StepField) :=
  let wanted := (if d then [19] else []) ++ (if a then [13] else []) ++ if b then [7] else []
  wanted.mapM fun lo => (stepFields i).find? (·.lo == lo)

/-- A stepped field names a register and stays in its bank to the last of n issues. -/
def StepField.ok (w : Word) (n : Nat) (f : StepField) : Bool :=
  fld w f.lo 6 < f.bank.size && fld w f.lo 6 + (n - 1) * f.width + f.span ≤ f.bank.size

/-- The word of issue k. -/
def stepWord (w : Word) (k : Nat) (fs : List StepField) : Word :=
  fs.foldl (fun w f => w + BitVec.ofNat 32 (k * f.width * 2 ^ f.lo)) w

/-! ### Guards (R46) -/

/-- The word has a guard field of its own (R45, R46). -/
def hasGuard (w : Word) : Bool :=
  let m := bits w.toNat 30 25
  let f := bits w.toNat 6 4
  if w.getLsbD 31 then (m ≤ 3 && !(m == 3 && f == 1)) || m == 0x16 || m == 0x17
    else (m ≤ 6 && !(m == 6 && f == 1)) || (0x10 ≤ m && m ≤ 0x18) || (0x20 ≤ m && m ≤ 0x2B) || m == 0x2F ||
      (0x30 ≤ m && m ≤ 0x35) || m == 0x37

/-- The word's own guard field is not zero. -/
def guardSet (w : Word) : Bool := hasGuard w && bits w.toNat 2 0 != 0

/-- REP, GUARD and HDR words. -/
def isPrefix (w : Word) : Bool := 0x5C ≤ bits w.toNat 31 25 && bits w.toNat 31 25 ≤ 0x5E

/-- A GUARD of a predicate may stand before a word. -/
def guardOk (w : Word) (p : Nat) : Bool :=
  let m := bits w.toNat 31 25
  !guardSet w && !isPrefix w && m != 0x36 && m != 0x50 && m != 0x51 && (!w.getLsbD 31 || p < 8)

/-- A word of a cox-only major (R55). -/
def coxOnly (w : Word) : Bool := 0x70 ≤ bits w.toNat 31 25 && bits w.toNat 31 25 ≤ 0x77

/-! ### Words of a unit (R43, R54, R55) -/

/-- What the checks of a unit come to: prefixes and the instruction to run, a trap, or a wait for a segment. -/
inductive Checked where
  | run (c : Issue) (pre : List Instr) (i : Instr)
  | trap (c : Issue) (cause : Nat) (d1 d2 : DWord) (lanes : Mask)
  | wait

/- An instruction with a high constructor number has no code; the kernel evaluates what follows all the same. -/
noncomputable section

/-- A word by the checks of R11. -/
def readWord (get : Nat → Fetched) (c : Issue) (a : DWord) : Except Checked Word :=
  if a >>> 54 != 0 then .error (.trap c 0x06 a 0 c.lanes)
  else
    match get a.toNat with
    | .word w => .ok w
    | .wait => .error .wait
    | .missing => .error (.run { c with next := a } [] .codeNotLanded)

def readWords (get : Nat → Fetched) (c : Issue) (a : DWord) : Nat → Except Checked (List Word)
  | 0 => .ok []
  | n + 1 =>
    match readWord get c a with
    | .error e => .error e
    | .ok w =>
      match readWords get c (a + 4) n with
      | .error e => .error e
      | .ok ws => .ok (w :: ws)

/-- The words of a unit: its prefixes, and its instruction with its extension words. -/
structure Words where
  rep   : Option Word
  guard : Option Word
  at_   : DWord
  ws    : List Word

/-- A word with its extensions. -/
def readRest (get : Nat → Fetched) (c : Issue) (rep guard : Option Word) (a : DWord) (w : Word) : Except Checked Words :=
  match readWords get c (a + 4) (extensions w.toNat) with
  | .error e => .error e
  | .ok ws => .ok ⟨rep, guard, a, w :: ws⟩

/-- After a possible REP: a possible GUARD, then the rest. -/
def readGuarded (get : Nat → Fetched) (c : Issue) (rep : Option Word) (a : DWord) (w : Word) : Except Checked Words :=
  if bits w.toNat 31 25 = 0x5D then
    match readWord get c (a + 4) with
    | .error e => .error e
    | .ok w2 => readRest get c rep (some w) (a + 4) w2
  else readRest get c rep none a w

/-- The words from a unit's first word on. -/
def readUnit (get : Nat → Fetched) (c : Issue) (w : Word) : Except Checked Words :=
  if bits w.toNat 31 25 = 0x5C then
    match readWord get c (c.addr + 4) with
    | .error e => .error e
    | .ok w1 => readGuarded get c (some w) (c.addr + 4) w1
  else readGuarded get c none c.addr w

/-- The instruction of a prefix word, if there is a word. -/
def prefixOf : Option Word → Except Reject (List Instr)
  | none => .ok []
  | some w =>
    match decode [w] with
    | .ok i => .ok [i]
    | .error e => .error e

/-- The guard fits the word (R46). -/
def guardFits (w : Word) : List Instr → Bool
  | [.guard p _] => guardOk w p
  | _ => true

/-- The word of an issue of a unit under its REP: none where R51 or R52 forbid it. -/
def repWord (w : Word) (i : Instr) (k kept : Nat) : List Instr → Option Word
  | [.rep n d a b] =>
    if isPrefix w || !repable w then none
    else
      match steppedFields i d a b with
      | none => none
      | some fs => if fs.all (StepField.ok w (if k != 0 then kept else if n = 0 then 64 else n)) then some (stepWord w k fs) else none
  | _ => some w

/-- The predicate of a unit's guard: that of its GUARD word, else that of its own guard field, else the constant 0 (R45,
R46). -/
def guardPred (w : Word) : List Instr → Nat
  | [.guard p _] => p
  | _ => if hasGuard w then bits w.toNat 2 0 else 0

/-- What a unit's checks ask of the agent that issues it: the frame an instruction overruns, with the lanes whose frame it
is, the invalid latch it reads, and the register with an uncorrectable error it reads under a guard predicate (R336), by
its code and the lane's position; each with the lanes concerned. -/
structure Probe where
  frame : Instr → Option (Nat × Mask)
  latch : Instr → Option (Nat × Mask)
  bad   : Bool → Nat → Instr → Option (DWord × Nat × Mask)

/-- The checks of R55 after the fetch. Checks 2 to 7 follow the rule's order; among the failures of one check the order is
the model's (log entry 37): inside check 5 the codes of the word come before the frame (R137), and the frame before a
prefix's own codes; a lane-set word on the cox (R341) fails before its latches are looked at. -/
def checkUnit (rd : Probe) (c : Issue) (u : Words) : Checked :=
  let w := u.ws.headD 0
  let illegal := Checked.run c [] .illegalInstruction
  match decode u.ws with
  | .error .reservedMajor => illegal
  | r =>
    if coxOnly w && !c.cox then .trap c 0x02 (w.setWidth 64) 0 c.lanes
    else
      match r with
      | .error _ => illegal
      | .ok i0 =>
        match rd.frame i0 with
        | some f => .trap c 0x0D (w.setWidth 64) (w64 f.1) f.2
        | none =>
          match prefixOf u.rep, prefixOf u.guard with
          | .ok rep, .ok guard =>
            match if guardFits w guard then repWord w i0 c.idx c.kept rep else none with
            | none => illegal
            | some w' =>
              match decode (w' :: u.ws.drop 1) with
              | .error _ => illegal
              | .ok i =>
                match rd.frame i with
                | some f => .trap c 0x0D (w.setWidth 64) (w64 f.1) f.2
                | none =>
                  if c.cox && !w.getLsbD 31 then illegal
                  else
                    match rd.latch i with
                    | some n => .trap c 0x03 (w.setWidth 64) (w64 n.1) n.2
                    | none =>
                      match rd.bad (!w.getLsbD 31) (guardPred w guard) i with
                      | some (code, p, m) => .trap c 0x31 code (w64 p) m
                      | none => .run c (rep ++ guard) i
          | _, _ => illegal

/-- A unit read and checked. -/
def prepare (get : Nat → Fetched) (rd : Probe) (c : Issue) : Checked :=
  match readWord get c c.addr with
  | .error e => e
  | .ok w =>
    let c := { c with first := w, word := w }
    match readUnit get c w with
    | .error e => e
    | .ok u =>
      checkUnit rd
        { c with word := u.ws.headD 0, next := codeAddr (u.at_ + BitVec.ofNat 64 (4 * u.ws.length)) } u

/-! ### Registers that a unit reads (R336) -/

/-- The bits of Lane.bad and of UFile.bad that stand for the registers and latches a field reads. -/
def Field.reads : Field → List Nat × List Nat
  | .src (.v r) k => ((List.range k).map (r + ·), [])
  | .src (.l n) _ => ([56 + n], [])
  | .acc (.v r) k => ((List.range k).map (r + ·), [])
  | .usrc (.s r) => ([], [r])
  | .usrc (.q n) => ([], [56 + n])
  | .msrc (.v (.v r)) => ([r, r + 1], [])
  | .msrc (.v (.l n)) => ([56 + n], [])
  | .msrc (.u (.s r)) => ([], [r])
  | .msrc (.u (.q n)) => ([], [56 + n])
  | .run r k => ((List.range k).map (r + ·), [])
  | .urun r k => ([], (List.range k).map (r + ·))
  | _ => ([], [])

/-- The bits of what a unit reads: its fields, its predicates and its guard's predicate, whatever the guard's value (log
entry 22). -/
def readBits (lane : Bool) (guard : Nat) (i : Instr) : List Nat × List Nat :=
  let ps := ((predsOf i).1 ++ if lane then [guard] else []).filter (· != 0)
  let ks := ((predsOf i).2 ++ if lane then [] else [guard]).filter (· != 0)
  ((fieldsOf i).flatMap (fun f => (Field.reads f).1) ++ ps.map (64 + ·),
    (fieldsOf i).flatMap (fun f => (Field.reads f).2) ++ ks.map (64 + ·))

/-- The lanes whose registers a unit reads: those of the issuing set, and for a uniform instruction that reads a lane field
the lowest logical one (R141). -/
def Group.readers (g : Group) (m : Mask) : Instr → Mask
  | .vtos _ _ _ _ => ((g.order m).head?.map fun p => 1#32 <<< p).getD 0
  | _ => m

/-- A register with an error that the lanes of a mask read, by its code, the lane's position and the lanes concerned. -/
def Group.badRegister (g : Group) (m : Mask) (lane : Bool) (guard : Nat) (i : Instr) : Option (DWord × Nat × Mask) :=
  let reads := readBits lane guard i
  match reads.2.find? g.u.bad.getLsbD with
  | some r => some (Config.registerCode true r, (g.order m).headD 0, m)
  | none =>
    let ps := g.readers m i
    (reads.1.find? fun r => (g.where fun l => l.bad.getLsbD r) &&& ps != 0).map fun r =>
      let hit := (g.where fun l => l.bad.getLsbD r) &&& ps
      (Config.registerCode false r, (positions hit).headD 0, hit)

/-! ### The issuing set (R141, R143, R147) -/

/-- A demoted lane is eligible once every runnable lane recorded at its demotion has issued or stopped running. -/
def Lane.eligible (run : Mask) (l : Lane) : Bool :=
  match l.state with
  | .active => true
  | .demoted => l.dem &&& run == 0
  | _ => false

/-- Eligible lanes: all runnable ones where only demoted ones are left. -/
def Group.eligible (g : Group) : Mask :=
  let run := g.where Lane.runnable
  let demoted := g.where fun l => l.state == .demoted
  if run = demoted then run else g.where (Lane.eligible run)

/-- The lane of a mask with the lowest `vpc`, and among those the one whose REP is furthest behind. -/
def Group.hindmost (g : Group) : List Nat → Option Nat
  | [] => none
  | p :: ps =>
    match g.hindmost ps with
    | none => some p
    | some q =>
      let a := g.lane p
      let b := g.lane q
      if a.vpc < b.vpc || (a.vpc == b.vpc && a.rep ≤ b.rep) then some p else some q

/-- The lanes whose unit holds the group back: no other unit of the group issues before it (R139). -/
def Group.held (g : Group) : Mask :=
  let at_ := fun (unit : DWord) (m : Mask) => m &&& g.where fun l => l.runnable && l.vpc == unit
  match g.hold with
  | some (.jseg unit m _ _ _ _) => at_ unit m
  | some (.landing unit m) => at_ unit m
  | some (.scFence unit m _ _) => at_ unit m
  | _ => 0

/-- The lane whose address the group issues: that of a unit that holds it back; under MINPC the hindmost, under REJOIN the
leader. -/
def Group.pace (g : Group) (rejoin : Bool) : Option Nat :=
  let m := g.eligible
  if g.held != 0 then (positions g.held).head?
  else if rejoin then
    match g.leader with
    | some p => if m.getLsbD p then some p else (g.order m).head?
    | none => (g.order m).head?
  else g.hindmost (positions m)

/-- The issuing set of a pace lane. -/
def Group.issuing (g : Group) (p : Nat) : Mask :=
  if g.held != 0 then g.held
  else g.eligible &&& g.where fun l => l.vpc == (g.lane p).vpc && l.rep == (g.lane p).rep

/-! ### The issue of a group -/

/-- The unit a group would issue, before its words are read. -/
def issueBase (gkey : Nat) (g : Group) (p : Nat) : Issue where
  cox := false
  core := coreOf gkey
  gkey := gkey
  addr := (g.lane p).vpc
  first := 0
  word := 0
  next := (g.lane p).vpc
  lanes := g.issuing p
  guard := none
  rep := none
  idx := (g.lane p).rep
  kept := (g.lane p).repN
  again := g.issuing p &&& g.where fun l => l.atClose == some (g.lane p).vpc
  others := false

/-- The frame that an instruction overruns, and the lanes of a mask that have it. -/
def State.frameOver (s : State) (gkey : Nat) (g : Group) (m : Mask) (i : Instr) : Option (Nat × Mask) :=
  let past := (positions m).filter fun p => !fitsFrame (s.frameAt gkey g p) i
  past.head?.map fun p => (s.frameAt gkey g p, maskOf past)

/-- The invalid latch that an instruction reads, and the lanes of a mask that would read it. -/
def Group.staleLatch (g : Group) (m : Mask) (i : Instr) : Option (Nat × Mask) :=
  match (uniformLatches i).find? fun n => !g.u.q.valid n with
  | some n => some (n, m)
  | none =>
    let stale := fun n => g.readers m i &&& g.where fun l => !l.l.valid n
    ((laneLatches i).find? fun n => stale n != 0).map fun n => (n, stale n)

/-- The unit of a group, read and checked. -/
def State.prepareGroup (s : State) (g : Group) (c : Issue) : Checked :=
  prepare ((s.core c.core).fetchFor c.gkey)
    ⟨s.frameOver c.gkey g c.lanes, g.staleLatch c.lanes, g.badRegister c.lanes⟩ c

/-- The policy of a group's node. -/
def State.policy (s : State) (g : Group) : Bool := ((tget s.teams g.tid).map (·.desc.rejoin)).getD false

/-- A group could issue: released, not stopped, on a core, no MSR of `ringtab` of its own under way. -/
def Group.open_ (gkey : Nat) (g : Group) : Bool :=
  g.released && g.stop.isNone && coreOf gkey < noCore &&
    (match g.hold with | some (.ringtab _ _ _ _) => false | _ => true)

/-- The seat goes to a group: the group it leaves, unless stopped, loses its latches, its loop buffer and its hold (R49). -/
def State.switchSeat (s : State) (gkey : Nat) : State :=
  let core := coreOf gkey
  let last := ((s.core core).seats[seatOf gkey]?.bind (·.last))
  let s :=
    match last with
    | none => s
    | some k =>
      if k = gkey then s
      else
        match tget s.groups k with
        | none => s
        | some g => if g.stop.isSome then s else (s.leaveSeat k).setGroup k g.clearLatches
  s.modCore core fun k => k.modSeat (seatOf gkey) fun x => { x with last := some gkey }

/-- A demoted lane whose D is satisfied is active again (R140, R147). -/
def Lane.seen (m : Mask) (l : Lane) : Lane :=
  if l.state = .demoted then
    if l.dem &&& m = 0 then { l with dem := 0, state := .active } else { l with dem := l.dem &&& m }
  else l

/-- A lane that issues the unit at an address is no longer demoted, nor, unless it is that unit it replays, at the close of its
region (R327); the others have seen it issue (R147). -/
def Group.mark (g : Group) (addr : DWord) (m : Mask) : Group :=
  { g with lanes := Vector.ofFn fun p =>
      let l := g.lanes[p]
      if m.getLsbD p then
        { l with
          atClose := if l.atClose = some addr then l.atClose else none
          dem := 0, state := if l.state = .demoted then .active else l.state }
      else l.seen (~~~m) }

/-- The bookkeeping of an issue. -/
def State.beginIssue (s : State) (c : Issue) (leader : Option Nat) : State :=
  let s := s.switchSeat c.gkey
  let s := s.modCore c.core fun k => k.modSeat (seatOf c.gkey) fun x => x.atIssue c.gkey c.addr.toNat
  s.modGroup c.gkey fun g =>
    { g.mark c.addr c.lanes with
      leader := leader
      hold := match g.hold with | some (.autoLand _ _ _ _) => none | h => h }

/-- A unit runs: its prefixes, then its instruction. -/
def runUnit : List Instr → Instr → State → Out
  | [], i, s => exec i s
  | p :: ps, i, s =>
    match exec p s with
    | .next s => runUnit ps i s
    | o => o

/-- A group that closed its region while its team is being moved stops (R334, R351). -/
def State.stopClosed (s : State) (gkey : Nat) (region : DWord) : State :=
  match tget s.groups gkey with
  | none => s
  | some g =>
    if g.region = region then s
    else
      match (tget s.teams g.tid).bind fun t => s.stopReason g.tid t with
      | none => s
      | some r => s.stopGroup gkey r false

/-- What an issue leaves: the state as it was when the unit was held back. -/
def issued (before : State) (gkey : Nat) (region : DWord) : Out → Out
  | .next t => if t.cur.isNone then .next before else .next (t.stopClosed gkey region)
  | o => o

/-- Lane registers that an instruction writes by its fields: the first and their number. -/
def Field.writes : Field → Option (Nat × Nat)
  | .dst (.v r) k => some (r, k)
  | .acc (.v r) k => some (r, k)
  | .mdst (.v (.v r)) => some (r, 2)
  | _ => none

/-- An instruction of a group writes a register of its seat's operand hold, which is released (R181). -/
def State.writeHeld (s : State) (gkey : Nat) (i : Instr) : State :=
  let meets := fun (h : Nat × Nat × Nat) =>
    h.1 == gkey && (fieldsOf i).any fun f => (Field.writes f).any fun w => overlap w.1 w.2 h.2.1 h.2.2
  if ((s.core (coreOf gkey)).seats[seatOf gkey]?.bind (·.opHold)).any meets then
    s.modCore (coreOf gkey) fun k => k.modSeat (seatOf gkey) fun x => { x with opHold := none }
  else s

/-- A group's unit is read, checked and run. -/
def State.issueUnit (s : State) (g : Group) (c0 : Issue) (leader : Option Nat) : Out :=
  match s.prepareGroup g c0 with
  | .wait => .next s
  | .trap c cause d1 d2 m =>
    issued s c0.gkey g.region (.next ({ s.beginIssue c leader with cur := some c }.takeTrap c cause d1 d2 m))
  | .run c pre i =>
    issued s c0.gkey g.region (runUnit pre i { (s.beginIssue c leader).writeHeld c0.gkey i with cur := some c })

/-- The issue of a group: nothing where it is not ready. -/
def State.issueWith (s : State) (others : Bool) (gkey : Nat) : Out :=
  let s1 := s.parkPosted (coreOf gkey)
  match tget s1.groups gkey with
  | none => .next s
  | some g =>
    if !Group.open_ gkey g || s1.autoLanding gkey g then .next s
    else
      match g.pace (s1.policy g) with
      | none => .next s1
      | some p =>
        s1.issueUnit g { issueBase gkey g p with others := others } (if s1.policy g then some p else g.leader)

/-! ### The issue of a cox (R341) -/

/-- Code of the cox lies in its private memory (log entry 11). -/
def Cox.fetch (x : Cox) (a : Nat) : Fetched :=
  if a < 0x10000 then .word (w32 (leNat (mread x.mem a 4))) else .missing

def coxBase (core : Nat) (x : Cox) : Issue where
  cox := true
  core := core
  gkey := 64 * core
  addr := x.pc
  first := 0
  word := 0
  next := x.pc
  lanes := 0
  guard := none
  rep := none
  idx := x.rep
  kept := x.repN
  again := 0
  others := false

def Cox.staleLatch (x : Cox) (i : Instr) : Option (Nat × Mask) :=
  ((uniformLatches i).find? fun n => !x.u.q.valid n).map fun n => (n, 0)

def Cox.badRegister (x : Cox) (_lane : Bool) (guard : Nat) (i : Instr) : Option (DWord × Nat × Mask) :=
  ((readBits false guard i).2.find? x.u.bad.getLsbD).map fun r => (Config.registerCode true r, 0, 0)

/-- The issue of a core's cox: nothing while it is halted. -/
def State.issueCox (s : State) (core : Nat) : Out :=
  let x := (s.core core).cox
  if x.halted || noCore ≤ core then .next s
  else
    match prepare x.fetch ⟨fun _ => none, x.staleLatch, x.badRegister⟩ (coxBase core x) with
    | .wait => .next s
    | .trap c cause d1 d2 m => .next ({ s with cur := some c }.takeTrap c cause d1 d2 m)
    | .run c pre i => runUnit pre i { s with cur := some c }

/-! ### After every turn -/

/-- Lanes that stopped running count as seen by demoted ones (R147). -/
def Group.settleDem (g : Group) : Group :=
  let run := g.where Lane.runnable
  if (g.where fun l => l.state == .demoted) = 0 then g
  else { g with lanes := Vector.ofFn fun p => g.lanes[p].seen run }

/-- Under REJOIN a leader that has stopped being eligible is replaced at once by the lowest-numbered eligible lane (R143). What
counts is whether it is eligible after the turn (log entry 41). -/
def State.settleLeader (s : State) (g : Group) : Group :=
  if s.policy g then
    match g.leader with
    | some p => if g.eligible.getLsbD p then g else { g with leader := (g.order g.eligible).head? }
    | none => g
  else g

/-- A vacate or a save is under way. -/
def State.moving (s : State) : Bool := s.dies.any (fun d => !d.vacates.isEmpty) || s.cores.any fun x => x.2.cox.saving.isSome

/-- After a turn: no unit is under issue, host accesses that waited go on, and groups at rest of teams being moved stop. -/
def State.afterTurn (s : State) : State :=
  let s := { s with
    cur := none
    groups := s.groups.map fun (x : Nat × Group) => (x.1, s.settleLeader x.2.settleDem) }
  let s := if s.hostWaits.isEmpty then s else s.hostRetry s.hostWaits
  if s.moving then s.stopParked else s

/-! ### Turns -/

/-- Inputs from outside the device, which may come whether or not its clocks run. -/
def fromOutside : Instr → Bool
  | .hostQueueDoorbell _ _ _ _ | .eventStatusClear _ | .deviceRegisterWrite _ _ | .cxlMemWrite _ _ | .cxlMemRead _ _
  | .wotisRead _ | .wotisWrite _ | .wotisAtomic _ | .wotisResponse _ | .wotisCopyData _ | .wotisEvent _
  | .linkRetrained _ | .linkLost _ | .resync | .attestationRequest _ | .throttle _ | .thermalFreeze | .freeze
  | .coldReset | .warmReset | .bootImageCheck | .testLogicReset | .extest | .samplePreload | .idcode | .daddr _ | .ddata
  | .dstat | .bypass | .powerLoss => true
  | _ => false

/-- Instructions that only a unit runs. -/
def ofUnit (i : Instr) : Bool := !(encode i).isEmpty || i == .illegalInstruction || i == .codeNotLanded

def State.coreEvents (core : Nat) (k : Core) : List Instr :=
  ((List.range k.land.length).map fun n => Instr.landingComplete core n) ++
    (k.cmds.flatMap fun c => [.engineCommandStart core c.id, .commandComplete core c.id, .ringFill core c.id,
      .sparsityQueueFill core c.id]) ++
    [.trapQueueAdmit core, .postedAtomicPerform core, .taskIssue core, .matrixTaskEnd core, .adapterLineFill core,
      .matrixNanTrap core, .drainAddition core]

def State.dieEvents (die : Nat) (d : Die) : List Instr :=
  [.eventHoldRelease die, .evaluatorRequest die, .cellStarterRetry die, .placementDecision die, .priorityAging die,
    .reservation die, .slipwayReturn die, .vacateHardStop die, .vacateComplete die] ++
    (d.queues.flatMap fun x => [.recordArrival die x.1, .flushTimerExpiry die x.1]) ++
    d.host.flatMap fun x => [.hostSubmit die x.1, .hostSignal die x.1, .hostCloseQueue die x.1]

/-- The operations that the device's own agents may begin; each does nothing while it is not due. -/
def State.ownEvents (s : State) : List Instr :=
  (s.cores.flatMap fun x => if x.1 < noCore then State.coreEvents x.1 x.2 else []) ++
    (s.cores.filterMap fun x => (s.menuDue x.1).map fun e => Instr.menuEntryApply x.1 e) ++
    (s.teams.flatMap fun x => [.gatherFiring x.1, .phaseRecordWrite x.1, .teamStart x.1, .teamEnd x.1]) ++
    (s.groups.flatMap fun x => [.cellWaiterRetry x.1, .cwaitRecheck x.1, .cwaitPoll x.1, .ringtabWrite x.1]) ++
    ((List.range 8).flatMap fun d => State.dieEvents d (s.die d)) ++
    ((List.range 2).flatMap fun p => (s.msix[p]?.getD []).map fun v => .msixCoalesceEnd p v.1) ++
    [.packageArbiterHandout, .resyncDone, .attestationReportReady] ++
    if s.overLimit then (List.range 8).map .throttle else []

/-- An operation would change something. -/
def State.due (s : State) (i : Instr) : Bool :=
  match exec i s with
  | .next t => t != s
  | _ => false

/-- A group's next unit would issue. -/
def State.wouldIssue (s : State) (gkey : Nat) : Bool :=
  match s.issueWith false gkey with
  | .next t => t.afterTurn != s
  | _ => true

/-- The issue of a group, which knows whether another group of its seat would issue (R115). -/
def State.issueGroup (s : State) (gkey : Nat) : Out :=
  s.issueWith ((s.groups.map Prod.fst).any fun k => k != gkey && k / 16 == gkey / 16 && s.wouldIssue k) gkey

/-- A replayed access runs without its seat, which keeps the group it has (R49, R139). A stopped group makes it too (R219), but
for one that traps: that is left for its resumption. -/
def State.replayUnit (s : State) (g : Group) (c0 : Issue) : Out :=
  match s.prepareGroup g c0 with
  | .run c pre i =>
    let begun := s.modGroup c.gkey (·.mark c.addr c.lanes)
    match issued s c0.gkey g.region (runUnit pre i { begun.writeHeld c0.gkey i with cur := some c }) with
    | .next t => if g.stop.isSome && ((tget t.groups c0.gkey).map (·.stop)) != some g.stop then .next s else .next t
    | o => o
  | _ => .next s

/-- The replay of a waiter at a fulfilled cell (R228, R231, R239): lanes that are parked no more make their access, posted
atomics are performed, a peer's request is served. -/
def State.replay (s : State) (w : Waiter) : Out :=
  match w.peer with
  | some (dev, r) => .next (s.servePeer dev r)
  | none =>
    if w.posted then .next (s.performWoken w.gkey w.lanes)
    else
      match tget s.groups w.gkey with
      | none => .next s
      | some g =>
        if !g.released || noCore ≤ coreOf w.gkey then .next s
        else
          match g.hindmost (positions (w.lanes &&& g.where fun l => l.state == .active)) with
          | none => .next s
          | some p =>
            let m := w.lanes &&& g.where fun l => l.state == .active && l.vpc == (g.lane p).vpc && l.rep == (g.lane p).rep
            let c := issueBase w.gkey g p
            s.replayUnit g { c with lanes := m, again := m &&& g.where fun l => l.atClose == some c.addr }

/-- The next instruction of a group reads a latch (R49). -/
def State.readsLatch (s : State) (gkey : Nat) : Bool :=
  match tget s.groups gkey with
  | none => false
  | some g =>
    Group.open_ gkey g &&
      match g.pace (s.policy g) with
      | none => false
      | some p =>
        match s.prepareGroup g (issueBase gkey g p) with
        | .run _ _ i => !(laneLatches i).isEmpty || !(uniformLatches i).isEmpty
        | .trap _ cause _ _ _ => cause == 0x03
        | .wait => false

/-- A seat's groups in the order in which it serves them: after the one it issued last (R139). -/
def State.seatOrder (s : State) (core seat : Nat) : List Nat :=
  let ks := (s.groups.map Prod.fst).filter fun k => k / 16 == 4 * core + seat
  match (s.core core).seats[seat]?.bind (·.last) with
  | none => ks
  | some k => ks.filter (k < ·) ++ ks.filter (· ≤ k)

/-- The group a seat issues next: the one it issued last while a latch read is next there (R49), else the first that
would issue. -/
def State.seatTurn (s : State) (core seat : Nat) : Option Nat :=
  let kept := ((s.core core).seats[seat]?.bind (·.last)).filter s.readsLatch
  match kept with
  | some k => if s.wouldIssue k then some k else none
  | none => (s.seatOrder core seat).find? s.wouldIssue

/-- A cox has a unit to issue. -/
def State.coxWould (s : State) (core : Nat) : Bool :=
  match s.issueCox core with
  | .next t => t.afterTurn != s
  | _ => true

/-- The turns that may be taken now. -/
def State.turns (s : State) : List Turn :=
  if !s.live then []
  else if !s.booted then [.event .strokeTick]
  else
    [.event .strokeTick] ++ (s.ownEvents.filter s.due).map .event ++
      (s.cores.flatMap fun x =>
        if x.1 < noCore then ((List.range 4).filterMap (s.seatTurn x.1)).map .issue else []) ++
      s.cores.filterMap fun x => if x.1 < noCore && s.coxWould x.1 then some (.cox x.1) else none

/-- The device runs an image: until then its agents are idle, but for the stroke counter (R375). -/
def State.runs (s : State) : Bool := s.live && s.booted

/-- Bits 31:0 of `ecc` count one corrected error more (R336, R353). -/
def countCorrected (ecc : DWord) : DWord := (ecc &&& 0xFFFFFFFF00000000#64) ||| ((ecc + 1) &&& 0xFFFFFFFF#64)

/-- A turn is taken. -/
def State.take (s : State) (t : Turn) : Out :=
  match t with
  | .event i => if ofUnit i || (!s.runs && !fromOutside i && i != .strokeTick) || (!s.live && i == .strokeTick) then .next s else exec i s
  | .issue gkey => if s.runs then s.issueGroup gkey else .next s
  | .replay w => if s.runs then s.replay w else .next s
  | .cox core => if s.runs then s.issueCox core else .next s
  | .corrected die => .next (if s.live then s.modDie die fun d => { d with ecc := countCorrected d.ecc } else s)
  | .spoiled pa => .next (if s.live then { s with bad := tset s.bad (lineOf pa) 0xFFFFFFFFFFFFFFFFFFFFFFFFFFFFFFFF#128 } else s)

/-- Two groups hold the same in a run of lane registers. -/
def Group.sameRun (g h : Group) (a n : Nat) : Bool :=
  (List.range 32).all fun p => (List.range n).all fun i => (g.lane p).reg (a + i) == (h.lane p).reg (a + i)

/-- Operand holds whose registers have been written since are released (R181). -/
def State.releaseHolds (before s : State) : State :=
  let written := fun (h : Nat × Nat × Nat) =>
    match tget before.groups h.1, tget s.groups h.1 with
    | some g, some g' => !g.sameRun g' h.2.1 h.2.2
    | _, _ => false
  if s.cores.any fun x => x.2.seats.any fun y => y.opHold.any written then
    { s with cores := s.cores.map fun x =>
        (x.1, { x.2 with seats := x.2.seats.map fun y => if y.opHold.any written then { y with opHold := none } else y }) }
  else s

/-- A turn and what follows every turn. -/
def State.turn (s : State) (t : Turn) : Out :=
  match s.take t with
  | .next t => .next (State.releaseHolds s t).afterTurn
  | o => o

/-- The head of the agenda, else a free choice among the turns that may be taken (log entry 1). -/
def State.nextTurn (s : State) : Option Turn × State :=
  match s.agenda with
  | t :: ts => (some t, { s with agenda := ts })
  | [] =>
    let ts := s.turns
    if ts.isEmpty then (none, s) else let (i, s) := s.choose ts.length; (ts[i]?, s)

/-! ### One instruction for the next step (log entry 2) -/

/-- Descriptor of the team that stands for a load: one team of one group, without banks or deck. -/
def loadDesc : NodeDesc where
  entry := 0x10000
  args := 0
  cobj := 0
  gx := 1
  gy := 1
  gz := 1
  dies := 1
  groups := 1
  cw := 1
  ch := 1
  menu := 0
  rejoin := false
  prio := 0
  reserve := 0
  quota := 0
  nbv := 0
  cv := 0
  cs := 0
  sbanks := 0
  xbanks := 0
  wbanks := 0
  deck := 0
  autoLand := false
  trapNan := false
  asid := 0
  rqid := 0
  rqen := false
  tile := 0
  flush := 0
  seg := 0
  npred := 0
  frame := 56

/-- The team of a load. -/
def loadTeam : Team :=
  { newTeam 0 0 0 0 .grid loadDesc with cluster := [0], winLines := 512, allot := 1, placed := true, landed := true }

/-- Its group: lane 0 at the entry, the other lanes exited. -/
def loadGroup : Group :=
  { startGroup 0 0 56 [] (Vector.ofFn fun p =>
      let l := startLane 0x10000 (w32 p.val) (w64 p.val)
      if p.val = 0 then l else { l with state := .exited }) with released := true }

/-- Words placed for the next step. Those of a cox-only major stand at the start of the memory of core 0's cox, which goes
there; others stand in a landed segment of core 0, where a team of one group is about to issue them. -/
def State.placeWord (s : State) (ws : List Word) : State :=
  let bs := ws.flatMap fun w => leBytes 4 w.toNat
  let s := { s with powered := true, frozen := false, booted := true, cur := none }
  let k := s.core 0
  if coxOnly (ws.headD 0) then
    { s.setCore 0 { k with cox := { k.cox with mem := mwrite k.cox.mem 0 bs, pc := 0, halted := false, rep := 0 } } with
      agenda := [.cox 0] }
  else
    let e : LandEntry := ⟨0x10000, 1, 0, 0, 0, .landed, false, [], false, 0⟩
    { (s.setCore 0 { k with land := [e], bay := mwrite k.bay 0 bs, seats := Vector.replicate 4 Seat.reset }) with
      teams := tset s.teams 0 loadTeam
      groups := tset s.groups 0 loadGroup
      agenda := [.issue 0] }

end

end Sys2Proof.Machine
end

