-- ==== Sys2Proof/Machine/Step.lean ====
section
/-! DEFINITION. The step: one turn of one agent. The agenda names the next turns, inputs from outside among them; when it is
empty, one of the turns that may be taken is chosen freely. withFetchWord places one instruction for the next step. -/

namespace Sys2Proof.Machine

noncomputable section

/-- One turn. -/
def step (s : State) : Host.Outcome State Fault Refusal :=
  match s.nextTurn with
  | (some t, s) => s.turn t
  | (none, s) => .next s

/-- The state with an instruction stored where the next step fetches it (log entry 2). -/
def State.withFetchWord (s : State) (nbits w : Nat) : State := s.placeWord (tableWords (w % 2 ^ nbits))

end

end Sys2Proof.Machine
end

