-- ==== Sys2Proof/Safety.lean ====
section
/-! DEFINITION. What claims say of a run: which unit is under issue, what a unit leaves, and the invariants of a step. -/

namespace Sys2Proof.Machine

/-! ### Invariants -/

/-- Memories in canonical form. -/
def State.memoryOk (s : State) : Bool := Memory.wf s.mem && Memory.wf s.hostMem

/-- A demoted lane waits only for lanes of its group that still run (R147). -/
def Group.demOk (g : Group) : Prop :=
  ∀ p, p < 32 → (g.lane p).state = .demoted → (g.lane p).dem &&& ~~~(g.where Lane.runnable) = 0

/-- Between turns: no unit is under issue, and demoted lanes wait only for lanes that still run. -/
def State.Settled (s : State) : Prop := s.cur = none ∧ ∀ x ∈ s.groups, x.2.demOk

/-! ### The unit under issue -/

/-- Unit c is under issue by group g. -/
def State.Runs (s : State) (c : Issue) (g : Group) : Prop := s.cur = some c ∧ c.cox = false ∧ tget s.groups c.gkey = some g

/-- Unit c is under issue by the cox of its core. -/
def State.RunsCox (s : State) (c : Issue) : Prop := s.cur = some c ∧ c.cox = true

/-- A step's outcome is a next state with a property. -/
def Answers (o : Out) (P : State → Prop) : Prop := ∃ t, o = .next t ∧ P t

/-! ### What units leave -/

/-- A lane after a unit: outside the issuing set as before; inside it past the unit, changed by f first where its guard is
true (R10, R47). -/
def Issue.laneAfter (c : Issue) (gd : Nat) (f : Lane → Lane) (l : Lane) (p : Nat) : Lane :=
  if c.lanes.getLsbD p then c.advance (if c.holds gd l then f l else l) else l

/-- s with only the lanes of group c.gkey changed, each as f says. -/
def LanesAfter (o : Out) (s : State) (c : Issue) (g : Group) (f : Lane → Nat → Lane) : Prop :=
  ∃ g', o = .next (s.setGroup c.gkey g') ∧ g' = { g with lanes := g'.lanes } ∧ ∀ p, p < 32 → g'.lane p = f (g.lane p) p

/-- An instruction under guard field gd changes each lane that takes part by f, and nothing else of the state. -/
def LaneDoes (i : Instr) (gd : Nat) (f : Lane → Lane) : Prop :=
  ∀ s c g, s.Runs c g → LanesAfter (exec i s) s c g (c.laneAfter gd f)

/-- The same where f also reads the group's uniform state. -/
def LaneDoesIn (i : Instr) (gd : Nat) (f : Group → Lane → Lane) : Prop :=
  ∀ s c g, s.Runs c g → LanesAfter (exec i s) s c g (c.laneAfter gd (f g))

/-- An instruction under guard field k changes the uniform registers by f, of a group or of the cox, and nothing else but
that the unit is passed (R47, R341). -/
def UniformDoes (i : Instr) (k : Nat) (f : UFile → UFile) : Prop :=
  (∀ s c g, s.Runs c g →
    ∃ g', exec i s = .next (s.setGroup c.gkey g') ∧
      g' = { g with lanes := g'.lanes, u := if c.kholds k g.u then f g.u else g.u } ∧
      ∀ p, p < 32 → g'.lane p = if c.lanes.getLsbD p then c.advance (g.lane p) else g.lane p) ∧
  ∀ s c, s.RunsCox c →
    exec i s = .next (s.modCore c.core fun n =>
      { n with cox := Cox.advance c { n.cox with u := if c.kholds k n.cox.u then f n.cox.u else n.cox.u } })

/-- A word from its bits. -/
def ofBits {w : Nat} (f : Nat → Bool) : BitVec w :=
  BitVec.ofNat w (((List.range w).map fun i => if f i then 2 ^ i else 0).sum)

/-! ### Accesses -/

/-- Lane p alone takes part in the unit under guard field gd. -/
def Issue.One (c : Issue) (gd : Nat) (g : Group) (p : Nat) : Prop :=
  p < 32 ∧ c.taking gd g = 1#32 <<< p ∧ (g.lane p).runnable = true

/-- A lane after a unit in which lane p alone took part and was changed by f. -/
def Issue.oneAfter (c : Issue) (p : Nat) (f : Lane → Lane) (q : Nat) (l : Lane) : Lane :=
  if q = p then c.advance (f l) else if c.lanes.getLsbD q then c.advance l else l

/-- Nothing that group k has posted or sent to a peer is outstanding (R215, R239). -/
def State.quiet (s : State) (k : Nat) : Prop := (∀ x ∈ (s.core (coreOf k)).posted, x.gkey ≠ k) ∧ s.peerWaits = []

/-- No run of a firing waits for its first unit's parked lane (R158). -/
def State.noRunWaits (s : State) : Prop := ∀ x ∈ s.teams, ∀ f ∈ x.2.firings, f.wait = none

/-- An access of kind k by group g to n bytes at the virtual address va meets the bytes from pa on, of the device or of host
memory, and nothing hinders it: the address passes R99, the translation leads there (s1 is the state after it), every cell
there is in VALUE, no accepted command has still to write the bytes or may write anywhere in the address space, their check
bits are good, and the core has no older copy of them. -/
def State.Reaches (s : State) (c : Issue) (g : Group) (va : DWord) (n : Nat) (k : Acc) (pa : Nat) (s1 : State) : Prop :=
  va >>> 54 = 0 ∧ va.toNat % n = 0 ∧ s.quiet c.gkey ∧
    (∃ tagged, s.translate (coreOf c.gkey) (s.asidOf g) va.toNat k = (.to (.here pa tagged), s1) ∧
      (tagged = true → ∀ i, i < (n + 31) / 32 → s1.tag (pa + 32 * i) = tagValue)) ∧
    s1.ownsPlace (s1.asidOf g) (.here pa true) n = false ∧ s1.badLine pa n = none ∧
    (s1.core (coreOf c.gkey)).isStale pa n = false ∧
    (s1.core (coreOf c.gkey)).hostOld pa n = false

/-- A local access of a group's team to n bytes at la passes R234 and meets the bytes from x on of team t; no accepted command
has still to write them, or in X has still to read them (R270), and they have no memory error. -/
def State.Local (s : State) (g : Group) (sp : Space) (la : Word) (n t x : Nat) : Prop :=
  la.toNat % n = 0 ∧ (tget s.teams t).isSome = true ∧ s.owned sp.code t x n = false ∧
    (sp = .x → s.owned 7 t x n = false) ∧ s.badLocal t sp.code x n = false ∧
    ∃ tm, tget s.teams g.tid = some tm ∧
      match sp with
      | .scratch => la.toNat < 2 ^ 31 ∧ la.toNat + n ≤ tm.sBytes ∧ t = g.tid ∧ x = la.toNat
      | .deck => la.toNat / 2 ^ 27 % 16 = 0 ∧ x = la.toNat % 2 ^ 23 ∧ x + n ≤ tm.deckBytes ∧
          tm.cluster[la.toNat / 2 ^ 23 % 16]? = some t
      | .x => la.toNat + n ≤ tm.xBytes ∧ t = g.tid ∧ x = la.toNat

/-- Group k of t is h but for its lanes, given by f, and the times of its last acquires; the other groups are those of s. -/
def GroupBecomes (s t : State) (k : Nat) (h : Group) (f : Nat → Lane) : Prop :=
  (∃ g', tget t.groups k = some g' ∧ g' = { h with lanes := g'.lanes, acq := g'.acq, sysAcq := g'.sysAcq } ∧ ∀ q, q < 32 → g'.lane q = f q) ∧
    ∀ j, j ≠ k → tget t.groups j = tget s.groups j

/-- The same bytes at every address, and the same cell tags. -/
def SameMemory (s t : State) : Prop := (∀ a, t.byte a = s.byte a) ∧ ∀ a, t.tag a = s.tag a

/-- The n bytes from pa on hold x, every other byte is as before, and so is every tag. -/
def MemoryBut (s t : State) (pa n x : Nat) : Prop :=
  (∀ j, j < n → t.byte (pa + j) = BitVec.ofNat 8 (x / 256 ^ j)) ∧ (∀ a, a < pa ∨ pa + n ≤ a → t.byte a = s.byte a) ∧
    ∀ a, t.tag a = s.tag a

/-- The same of the bytes of one space of a team; every other team and space is as before. -/
def LocalBut (s t : State) (k : Nat) (sp : Space) (lo n x : Nat) : Prop :=
  (∃ tm tm', tget s.teams k = some tm ∧ tget t.teams k = some tm' ∧ tm' = tm.setSpace sp (tm'.space sp) ∧
    (∀ j, j < n → mrd (tm'.space sp) (lo + j) = BitVec.ofNat 8 (x / 256 ^ j)) ∧
    ∀ a, a < lo ∨ lo + n ≤ a → mrd (tm'.space sp) a = mrd (tm.space sp) a) ∧
    ∀ j, j ≠ k → tget t.teams j = tget s.teams j

/-- What a load of size code z makes of the value x of its bytes (R100). -/
def loaded (d : LDst) (z x : Nat) (l : Lane) : Lane :=
  match z with
  | 3 => d.put64 false (BitVec.ofNat 64 x) l
  | 4 => d.setWide 4 x l
  | 5 => d.put32 false (BitVec.ofInt 32 (BitVec.ofNat 8 x).toInt) l
  | 6 => d.put32 false (BitVec.ofInt 32 (BitVec.ofNat 16 x).toInt) l
  | _ => d.put32 false (BitVec.ofNat 32 x) l

/-- The value a store of size code z takes from its data field (R101). -/
def stored (d : LSrc) (z : Nat) (l : Lane) : Nat :=
  match z with
  | 3 => (d.r64 l).toNat
  | 4 => d.wide l 4
  | _ => (d.r32 l).toNat

/-- The old value of an atomic in its destination; with z there is no result (R238). -/
def returned (d : LDst) (n old : Nat) (l : Lane) : Lane :=
  match d with
  | .z => l
  | .v _ => if n = 8 then d.put64 false (BitVec.ofNat 64 old) l else d.put32 false (BitVec.ofNat 32 old) l

/-- The group after unit c closed the region (R238, R327): its counter steps, but not for a replay by lanes that had closed
their region with this unit when they parked. -/
def Group.closed (g : Group) (c : Issue) : Group :=
  { g with
    region := if c.again ≠ 0 ∧ c.lanes &&& ~~~c.again = 0 then g.region else g.region + 1
    entryQ := g.u.q }

/-- A lane q after lane p of the unit was demoted: p waits for the group's other runnable lanes, but neither waits for the other
among those of the issuing set that are demoted (R147; the last is the model's choice, log entry 26). -/
def Issue.demoted (c : Issue) (g : Group) (p q : Nat) (l : Lane) : Lane :=
  let same := 1#32 <<< p ||| c.lanes &&& g.where fun l => l.state == .demoted
  if q = p then { l with state := .demoted, dem := g.where Lane.runnable &&& ~~~same }
  else if same.getLsbD q then { l with dem := l.dem &&& ~~~same }
  else l

/-- Lane p after its atomic, f giving its result; the lane of a failed compare-and-swap is demoted (R147, R240). -/
def Issue.atomicAfter (c : Issue) (g : Group) (p : Nat) (failed : Bool) (f : Lane → Lane) (q : Nat) : Lane :=
  let l := c.closeLane (c.oneAfter p f q (g.lane q))
  let l := if c.lanes.getLsbD q then l else g.lane q
  if failed then c.demoted g p q l else l

/-- What the atomic of a major and funct does: its word has n bytes and takes new of its old value and the operands, or stays as
it is; cas for a compare-and-swap (R75, R240, R241). -/
def AtomicForm (major funct n : Nat) (cas : Bool) (new : Nat → Nat → Nat → Option Nat) : Prop :=
  let int := fun x : Nat => (BitVec.ofNat (8 * n) x).toInt
  let plain := fun (f : Nat → Nat → Nat) => cas = false ∧ new = fun old b _ => some (f old b)
  ((major = 0x28 ∧ n = 4 ∨ major = 0x29 ∧ n = 8) ∧
    (funct = 0 ∧ plain (fun old b => (old + b) % 2 ^ (8 * n)) ∨
      funct = 1 ∧ plain (fun old b => if int b < int old then b else old) ∨
      funct = 2 ∧ plain (fun old b => if int b < int old then old else b) ∨
      funct = 3 ∧ plain (fun old b => old &&& b) ∨ funct = 4 ∧ plain (fun old b => old ||| b) ∨
      funct = 5 ∧ plain (fun old b => old ^^^ b) ∨ funct = 6 ∧ plain (fun _ b => b) ∨
      funct = 7 ∧ cas = true ∧ new = fun old b swap => if old = b then some swap else none)) ∨
  (major = 0x2A ∧ n = 4 ∧
    (funct = 0 ∧ cas = false ∧ (new = fun old b _ => if old < b then some (old + 1) else none) ∨
      funct = 1 ∧ cas = false ∧ (new = fun old b _ => if b < old then some (old - 1) else none) ∨
      funct = 2 ∧ plain (fun old b => fp32.rne (FVal.sum [fp32.value old, fp32.value b])) ∨
      funct = 3 ∧ plain (fp32.minMax false) ∨ funct = 4 ∧ plain (fp32.minMax true) ∨
      funct = 5 ∧ plain (fun old b => if b < old then b else old) ∨
      funct = 6 ∧ plain (fun old b => if old < b then b else old)))

/-- An atomic on global memory with words of n bytes: the operands of a lane, and the new value from the old one and the
operands, none where the word stays as it is. Unless it is posted, the lane that takes part gets the old value and the word
takes the new one; a posted one is noted with its lane, its address and its operands, and the lanes go on (R238-R241). -/
def AtomicDoes (i : Instr) (n : Nat) (d : LDst) (a : LSrc) (b swap : Lane → Nat) (far : Bool) (gd : Nat) (cas : Bool)
    (new : Nat → Nat → Nat → Option Nat) : Prop :=
  ∀ s c g p, s.Runs c g → c.One gd g p →
    let va := BitVec.ofInt 64 (g.gbase.toNat + (a.r32 (g.lane p)).toNat)
    ((far && d.isZ) = false → ∀ pa s1, s.Reaches c g va n .atomic pa s1 →
      let old := s1.num pa n
      let x := new old (b (g.lane p)) (swap (g.lane p))
      Answers (exec i s) fun t =>
        GroupBecomes s t c.gkey (g.closed c) (c.atomicAfter g p (cas && x.isNone) (returned d n old)) ∧
        t.teams = s.teams ∧ (x = none → SameMemory s1 t) ∧ ∀ y, x = some y → MemoryBut s1 t pa n y) ∧
    ((far && d.isZ) = true → va >>> 54 = 0 → va.toNat % n = 0 →
      Answers (exec i s) fun t =>
        GroupBecomes s t c.gkey (g.closed c) (c.atomicAfter g p false id) ∧ t.teams = s.teams ∧ SameMemory s t ∧
        ∃ x : Posted, (t.core (coreOf c.gkey)).posted = (s.core (coreOf c.gkey)).posted ++ [x] ∧ x.gkey = c.gkey ∧
          x.pos = p ∧ x.va = va.toNat ∧ x.operand.toNat = b (g.lane p) ∧ x.swap.toNat = swap (g.lane p))

/-- The same on a local space, chosen by bit 31 of the address (R242). -/
def LocalAtomicDoes (i : Instr) (d : LDst) (a : LSrc) (b swap : Lane → Nat) (gd : Nat) (cas : Bool)
    (new : Nat → Nat → Nat → Option Nat) : Prop :=
  ∀ s c g p home lo, s.Runs c g → c.One gd g p →
    let la := a.r32 (g.lane p)
    let sp := if la.getLsbD 31 then Space.deck else Space.scratch
    s.Local g sp la 4 home lo →
      let old := leNat (s.localBytes home sp lo 4)
      let x := new old (b (g.lane p)) (swap (g.lane p))
      Answers (exec i s) fun t =>
        GroupBecomes s t c.gkey (g.closed c) (c.atomicAfter g p (cas && x.isNone) (returned d 4 old)) ∧
        SameMemory s t ∧ (x = none → t.teams = s.teams) ∧ ∀ y, x = some y → LocalBut s t home sp lo 4 y

/-! ### Control and cross-lane work -/

/-- A lane of the issuing set moves past the unit. -/
def Issue.moved (c : Issue) (g : Group) (q : Nat) : Lane := if c.lanes.getLsbD q then c.advance (g.lane q) else g.lane q

/-- The same where the unit closes the region (R327). -/
def Issue.movedClosed (c : Issue) (g : Group) (q : Nat) : Lane :=
  if c.lanes.getLsbD q then c.closeLane (c.advance (g.lane q)) else g.lane q

/-- The address is good and its code has landed (R11, R107). -/
def State.Landed (s : State) (gkey : Nat) (a : DWord) : Prop :=
  a >>> 54 = 0 ∧ a.toNat % 4 = 0 ∧ ∃ w, (s.core (coreOf gkey)).fetchFor gkey a.toNat = .word w

/-- The word before a function is a header of a rule, with a frame and result codes (R13). -/
def State.HasHeader (s : State) (gkey : Nat) (target : DWord) (rule : Nat) (w : Word) : Prop :=
  s.Landed gkey target ∧ s.Landed gkey (target - 4) ∧
    (s.core (coreOf gkey)).fetchFor gkey (target - 4).toNat = .word w ∧ w.toNat / 2 ^ 25 = 0x5E ∧
    w.toNat / 2 ^ 23 % 4 = rule ∧ rule < 3 ∧ 1 ≤ w.toNat / 2 ^ 16 % 64 ∧ w.toNat / 2 ^ 16 % 64 ≤ 56

/-- A group of its team's own, in no width call, with no collective and no masked barrier under way. -/
def State.Calm (s : State) (g : Group) : Prop :=
  g.kind = .own ∧ g.blocks = [] ∧ g.colls = [] ∧ g.barMask = none ∧ (∀ p, p < 32 → (g.lane p).nest = 0) ∧
    ∃ tm, tget s.teams g.tid = some tm ∧ g.tid ∈ tm.cluster

/-- Some lane outside the issuing set is active, so that no rendezvous of the whole group is complete. -/
def Issue.Others (c : Issue) (g : Group) : Prop := ∃ q, q < 32 ∧ c.lanes.getLsbD q = false ∧ (g.lane q).state = .active

/-- Every lane of the issuing set is active or demoted. -/
def Issue.Running (c : Issue) (g : Group) : Prop := ∀ q, q < 32 → c.lanes.getLsbD q = true → (g.lane q).runnable = true

/-- The members of a partition for a position of a calm group, lowest position first (R145, R146). -/
def Group.members (g : Group) (n p : Nat) : List Nat :=
  positions ((g.part n).within 0xFFFFFFFF#32 p &&& g.where fun l => l.state != .absent)

/-- Those of them that contribute (R166). -/
def Issue.contributors (c : Issue) (g : Group) (n p : Nat) : List Nat :=
  (g.members n p).filter fun q => (c.taking 0 g).getLsbD q

/-- What a lane reads of the member of a rank: its own value where there is none, or where it does not contribute (R167). -/
def Issue.exchanged (c : Issue) (g : Group) (n p : Nat) (a : LSrc) (rank : Int) : Word :=
  match if rank < 0 then none else (g.members n p)[rank.toNat]? with
  | some q => if (c.taking 0 g).getLsbD q then a.r32 (g.lane q) else a.r32 (g.lane p)
  | none => a.r32 (g.lane p)

/-- The rank of a member (R166). -/
def Group.rank (g : Group) (n p : Nat) : Nat := ((g.members n p).filter (· < p)).length

/-- A collective of a calm group whose every lane that is not gone issues it completes at once: each contributor p changes by
f p, and every lane goes on (R145, R166). -/
def CollectiveDoes (i : Instr) (gd : Nat) (f : State → Issue → Group → Nat → Lane → Lane → Prop) : Prop :=
  ∀ s c g, s.Runs c g → s.Calm g → g.joins = Vector.replicate 4 0 → c.lanes ≠ 0 → (c.lanes = g.where fun l => !l.gone) →
    Answers (exec i s) fun t => t.teams = s.teams ∧ SameMemory s t ∧
      ∃ h : Nat → Lane, GroupBecomes s t c.gkey g h ∧
        ∀ p, p < 32 →
          (c.lanes.getLsbD p = false → h p = g.lane p) ∧
          ((c.taking gd g).getLsbD p = true →
            ∃ l, f s c g p (g.lane p) l ∧ h p = { c.advance l with state := .active }) ∧
          (c.lanes.getLsbD p = true → (c.taking gd g).getLsbD p = false →
            h p = { c.advance (g.lane p) with state := .active })

/-! ### Code and cells -/

/-- p is the lowest position of the issuing set; it stands for the set in a uniform access. -/
def Issue.First (c : Issue) (p : Nat) : Prop := p < 32 ∧ c.lanes.getLsbD p = true ∧ ∀ q, q < p → c.lanes.getLsbD q = false

/-- The tagged cell at the virtual address va, its first byte at pa, which no accepted command has still to write or may write
anywhere in the address space; s1 is the state after the translation. -/
def State.CellAt (s : State) (c : Issue) (g : Group) (va : DWord) (k : Acc) (pa : Nat) (s1 : State) : Prop :=
  va >>> 54 = 0 ∧ va.toNat % 32 = 0 ∧ pa % 32 = 0 ∧ s.quiet c.gkey ∧ s1.ownsPlace (s1.asidOf g) (.here pa true) 32 = false ∧
    s.translate (coreOf c.gkey) (s.asidOf g) va.toNat k = (.to (.here pa true), s1)

/-- The cell at pa has tag t and its bytes hold x; no other byte or tag differs from s. -/
def CellBecomes (s t : State) (pa x : Nat) (tag : BitVec 2) : Prop :=
  (∀ j, j < 32 → t.byte (pa + j) = BitVec.ofNat 8 (x / 256 ^ j)) ∧ (∀ a, a < pa ∨ pa + 32 ≤ a → t.byte a = s.byte a) ∧
    ∀ a, t.tag a = if a / 32 = pa / 32 then tag else s.tag a

/-- The landing entries that a CINV of a team names: its own or in its window, overlapping the range (R112). -/
def cinvNames (tid : Nat) (tm : Team) (a b : DWord) (e : LandEntry) : Bool :=
  let hi := min (a.toNat + b.toNat) (2 ^ 54)
  (e.tid == tid || (e.bayline < tm.winFirst + tm.winLines && tm.winFirst < e.bayline + e.lines)) &&
    (a.toNat < hi && (e.base < hi && a.toNat < e.base + 256 * e.lines))

/-! ### Commands -/

/-- The last two operand registers of a copy name a local side that its team may use (R292). -/
def State.CopyControl (s : State) (g : Group) (core : Nat) (many : Bool) (ops : List DWord) : Prop :=
  let lo := (ops[2]?.getD 0).toNat / 2 ^ 32
  let x := (ops[3]?.getD 0).toNat
  let kind := x % 16
  let id := x / 2 ^ 8 % 16
  let out := x / 16 % 2
  let mask := x / 2 ^ 12 % 2 ^ 12
  x / 2 ^ 24 = 0 ∧ x / 32 % 8 = 0 ∧ kind ≤ 5 ∧ (out = 1 → kind = 0 ∨ kind = 1 ∨ kind = 3) ∧ (kind ≤ 3 → id = 0) ∧
    (4 ≤ kind → lo = 0) ∧ (kind = 5 → id ≤ 3) ∧
    (kind = 4 → ((s.core core).ring id).enabled = true ∧ ((s.core core).ring id).tid = g.tid) ∧
    (many = false → mask = 0) ∧ (many = true → mask ≠ 0 ∧ out = 0 ∧ kind ≠ 3 ∧ kind ≠ 5)

/-- Command y is as a group's issuing set hands it over: its major and f7, its operands, the conversion modes and the stream
of random numbers of its elected lane and its group's `gbase`, not begun and nothing found wrong (R24, R253, R290, R305). -/
def Cmd.Fresh (y : Cmd) (c : Issue) (g : Group) (major f7 : Nat) (addr cobj : DWord) (ops : List DWord) : Prop :=
  y.tid = g.tid ∧ y.gkey = c.gkey ∧ y.major = major ∧ y.f7 = f7 ∧ y.addr = addr ∧ y.cobj = cobj ∧ y.ops = ops ∧
    y.cvm = g.cvm ∧ (∀ p, g.elected c.lanes = some p → y.lrng = (g.lane p).lrng) ∧ y.state = .queued ∧ y.status = 0 ∧
    y.flags = 0 ∧ y.elem = 0 ∧ y.gbase = g.gbase ∧ y.spent = [] ∧ y.orphan = false

/-- In t, core n differs from that of s by one command with a property at the end of its vertical queue or dependency table,
and by nothing else that engines use. -/
def Entered (s t : State) (n : Nat) (tabled : Bool) (P : Cmd → Prop) : Prop :=
  ∃ y, P y ∧ (t.core n).dt = (s.core n).dt ++ (if tabled then [y] else []) ∧
    (t.core n).vq = (s.core n).vq ++ (if tabled then [] else [y]) ∧ (t.core n).rings = (s.core n).rings ∧
    (t.core n).acc = (s.core n).acc

/-- A lane ring of the issuing team that a value names (R297). -/
def State.LaneRing (s : State) (g : Group) (core : Nat) (x : DWord) (r : Ring) : Prop :=
  x.toNat < 16 ∧ (s.core core).rings[x.toNat]? = some r ∧ r.enabled = true ∧ r.tid = g.tid ∧ r.matrix = false

/-! ### The cox -/

/-- The cox of the core goes on past its unit, its uniform registers changed by f; k7 says that the unit completed (R342). -/
def Completes (s : State) (c : Issue) (f : UFile → UFile) : State :=
  s.modCore c.core fun n => { n with cox := Cox.advance c { n.cox with u := (f n.cox.u).setPred 7 true } }

/-- The cox goes on past a unit that was refused with a code in `coxstat`; k7 is false (R342). -/
def Refuses (s : State) (c : Issue) (code : Nat) : State :=
  s.modCore c.core fun n => { n with
    cox := Cox.advance c { n.cox with u := n.cox.u.setPred 7 false, stat := BitVec.ofNat 8 code } }

/-- The cox c runs with its guard true, and group k of its core is what a value refers to (R343). -/
def State.Refers (s : State) (c : Issue) (x : DWord) (k : Nat) (g : Group) : Prop :=
  x.toNat < 64 ∧ k = 64 * c.core + x.toNat ∧ tget s.groups k = some g

/-- Only cores may differ, and of them only core n. -/
def OnlyCore (s t : State) (n : Nat) : Prop :=
  t = { s with cores := t.cores } ∧ ∀ k, k ≠ n → tget t.cores k = tget s.cores k

/-- The numbers that little-endian fields of a memory hold: offset, length, value. -/
def Holds (m : Tab Byte) (a : Nat) (xs : List (Nat × Nat × Nat)) : Prop :=
  ∀ x ∈ xs, leNat (mread m (a + x.1) x.2.1) = x.2.2 % 256 ^ x.2.1

end Sys2Proof.Machine
end

