-- ==== Sys2Proof/Certificates/Slice0/Obligations.lean ====
section
/-! DEFINITION. Statements about the model, for the provers. A statement of several parts names them: each part is a
definition of its own just above it. -/

open Sys2Proof Sys2Proof.Machine

/-! ### Lane and uniform instructions -/

/-- R86: each active lane's result of major 0x00, modulo 2^32. -/
def Sys2Proof.Claims.LaneArithmetic : Prop :=
  ∀ (d : LDst) (a b : LSrc) (n : Bool) (gd : Nat),
    LaneDoes (.add d a b n gd) gd (fun l => d.put32 n (a.r32 l + b.r32 l) l) ∧
    LaneDoes (.sub d a b n gd) gd (fun l => d.put32 n (a.r32 l - b.r32 l) l) ∧
    LaneDoes (.minI d a b n gd) gd
      (fun l => d.put32 n (if (a.r32 l).toInt ≤ (b.r32 l).toInt then a.r32 l else b.r32 l) l) ∧
    LaneDoes (.maxI d a b n gd) gd
      (fun l => d.put32 n (if (a.r32 l).toInt ≤ (b.r32 l).toInt then b.r32 l else a.r32 l) l) ∧
    LaneDoes (.minN d a b n gd) gd
      (fun l => d.put32 n (if (a.r32 l).toNat ≤ (b.r32 l).toNat then a.r32 l else b.r32 l) l) ∧
    LaneDoes (.maxN d a b n gd) gd
      (fun l => d.put32 n (if (a.r32 l).toNat ≤ (b.r32 l).toNat then b.r32 l else a.r32 l) l) ∧
    LaneDoes (.abs d a n gd) gd (fun l => d.put32 n (BitVec.ofInt 32 |(a.r32 l).toInt|) l) ∧
    LaneDoes (.neg d a n gd) gd (fun l => d.put32 n (BitVec.ofInt 32 (0 - (a.r32 l).toInt)) l)

/-- R87: logic, shifts and the rotation of major 0x01. -/
def Sys2Proof.Claims.LaneLogicAndShifts : Prop :=
  ∀ (d : LDst) (a b : LSrc) (n : Bool) (gd : Nat),
    LaneDoes (.and d a b n gd) gd (fun l => d.put32 n (ofBits fun i => (a.r32 l).getLsbD i && (b.r32 l).getLsbD i) l) ∧
    LaneDoes (.or d a b n gd) gd (fun l => d.put32 n (ofBits fun i => (a.r32 l).getLsbD i || (b.r32 l).getLsbD i) l) ∧
    LaneDoes (.xor d a b n gd) gd (fun l => d.put32 n (ofBits fun i => (a.r32 l).getLsbD i != (b.r32 l).getLsbD i) l) ∧
    LaneDoes (.andn d a b n gd) gd
      (fun l => d.put32 n (ofBits fun i => (a.r32 l).getLsbD i && !(b.r32 l).getLsbD i) l) ∧
    LaneDoes (.shl d a b n gd) gd
      (fun l => d.put32 n (if 32 ≤ (b.r32 l).toNat then 0 else a.r32 l <<< (b.r32 l).toNat) l) ∧
    LaneDoes (.shr d a b n gd) gd
      (fun l => d.put32 n (if 32 ≤ (b.r32 l).toNat then 0 else a.r32 l >>> (b.r32 l).toNat) l) ∧
    LaneDoes (.sar d a b n gd) gd
      (fun l => d.put32 n (ofBits fun i =>
        if i + (b.r32 l).toNat < 32 then (a.r32 l).getLsbD (i + (b.r32 l).toNat) else (a.r32 l).getLsbD 31) l) ∧
    LaneDoes (.rol d a b n gd) gd
      (fun l => d.put32 n (ofBits fun i => (a.r32 l).getLsbD ((i + 32 - (b.r32 l).toNat % 32) % 32)) l)

/-- R88: products, quotients and remainders of major 0x02, their borderline results among them; none traps. -/
def Sys2Proof.Claims.LaneProductsAndQuotients : Prop :=
  ∀ (d : LDst) (a b : LSrc) (n : Bool) (gd : Nat),
    LaneDoes (.mul d a b n gd) gd (fun l => d.put32 n (BitVec.ofNat 32 ((a.r32 l).toNat * (b.r32 l).toNat)) l) ∧
    LaneDoes (.mulhI d a b n gd) gd
      (fun l => d.put32 n (BitVec.ofInt 32 ((a.r32 l).toInt * (b.r32 l).toInt / 2 ^ 32)) l) ∧
    LaneDoes (.mulhN d a b n gd) gd
      (fun l => d.put32 n (BitVec.ofNat 32 ((a.r32 l).toNat * (b.r32 l).toNat / 2 ^ 32)) l) ∧
    LaneDoes (.mad d a b n gd) gd
      (fun l => d.put32 n (BitVec.ofNat 32 ((a.r32 l).toNat * (b.r32 l).toNat + (d.old32 l).toNat)) l) ∧
    LaneDoes (.divI d a b n gd) gd
      (fun l => d.put32 n
        (if b.r32 l = 0 then 0xFFFFFFFF#32 else BitVec.ofInt 32 ((a.r32 l).toInt.tdiv (b.r32 l).toInt)) l) ∧
    LaneDoes (.divN d a b n gd) gd
      (fun l => d.put32 n
        (if b.r32 l = 0 then 0xFFFFFFFF#32 else BitVec.ofNat 32 ((a.r32 l).toNat / (b.r32 l).toNat)) l) ∧
    LaneDoes (.remI d a b n gd) gd
      (fun l => d.put32 n
        (if b.r32 l = 0 then a.r32 l
          else BitVec.ofInt 32 ((a.r32 l).toInt - (b.r32 l).toInt * (a.r32 l).toInt.tdiv (b.r32 l).toInt)) l) ∧
    LaneDoes (.remN d a b n gd) gd
      (fun l => d.put32 n (BitVec.ofNat 32 ((a.r32 l).toNat % (b.r32 l).toNat)) l)

/-- R89: counts, reversal, bit fields and byte selection of major 0x03. -/
def Sys2Proof.Claims.LaneBitFields : Prop :=
  ∀ (d : LDst) (a b : LSrc) (n : Bool) (gd : Nat),
    LaneDoes (.clz d a n gd) gd
      (fun l => d.put32 n (BitVec.ofNat 32
        ((List.range 32).takeWhile fun i => !(a.r32 l).getLsbD (31 - i)).length) l) ∧
    LaneDoes (.popc d a n gd) gd
      (fun l => d.put32 n (BitVec.ofNat 32 ((List.range 32).filter fun i => (a.r32 l).getLsbD i).length) l) ∧
    LaneDoes (.brev d a n gd) gd (fun l => d.put32 n (ofBits fun i => (a.r32 l).getLsbD (31 - i)) l) ∧
    LaneDoes (.bfeI d a b n gd) gd
      (fun l =>
        let st := (b.r32 l).toNat % 256
        let len := min ((b.r32 l).toNat / 256 % 256) 32
        let bit := fun i => (a.r32 l).getLsbD (min (st + i) 31)
        d.put32 n (if len = 0 then 0 else ofBits fun i => bit (min i (len - 1))) l) ∧
    LaneDoes (.bfeN d a b n gd) gd
      (fun l =>
        let st := (b.r32 l).toNat % 256
        let len := min ((b.r32 l).toNat / 256 % 256) 32
        d.put32 n (ofBits fun i => i < len && (st + i < 32 && (a.r32 l).getLsbD (st + i))) l) ∧
    LaneDoes (.bfi d a b n gd) gd
      (fun l =>
        let st := (b.r32 l).toNat % 256
        let len := min ((b.r32 l).toNat / 256 % 256) 32
        d.put32 n (ofBits fun i =>
          if st ≤ i ∧ i < st + len then (a.r32 l).getLsbD (i - st) else (d.old32 l).getLsbD i) l) ∧
    LaneDoes (.bmix d a b n gd) gd
      (fun l =>
        let ctl := fun j k => (b.r32 l).getLsbD (4 * j + k)
        d.put32 n (ofBits fun i =>
          let j := i / 8
          let x := if ctl j 2 then d.old32 l else a.r32 l
          let from_ := 2 * (ctl j 1).toNat + (ctl j 0).toNat
          x.getLsbD (8 * from_ + i % 8) != ctl j 3) l) ∧
    LaneDoes (.sext d a b n gd) gd
      (fun l => d.put32 n (ofBits fun i => (a.r32 l).getLsbD (min i ((b.r32 l).toNat % 32))) l)

/-- What lane integer arithmetic, logic, shifts, products, quotients and bit fields give. -/
def Obligations.LaneIntegerResults : Prop :=
  Claims.LaneArithmetic ∧ Claims.LaneLogicAndShifts ∧ Claims.LaneProductsAndQuotients ∧ Claims.LaneBitFields

/-- R90: the compares of major 0x04. -/
def Sys2Proof.Claims.LaneCompares : Prop :=
  ∀ (d : Nat) (a b : LSrc) (gd : Nat),
    LaneDoes (.eq d a b gd) gd (fun l => l.setPred d (decide (a.r32 l = b.r32 l))) ∧
    LaneDoes (.ne d a b gd) gd (fun l => l.setPred d (decide (a.r32 l ≠ b.r32 l))) ∧
    LaneDoes (.ltI d a b gd) gd (fun l => l.setPred d (decide ((a.r32 l).toInt < (b.r32 l).toInt))) ∧
    LaneDoes (.leI d a b gd) gd (fun l => l.setPred d (decide ((a.r32 l).toInt ≤ (b.r32 l).toInt))) ∧
    LaneDoes (.ltN d a b gd) gd (fun l => l.setPred d (decide ((a.r32 l).toNat < (b.r32 l).toNat))) ∧
    LaneDoes (.leN d a b gd) gd (fun l => l.setPred d (decide ((a.r32 l).toNat ≤ (b.r32 l).toNat))) ∧
    LaneDoes (.tst d a b gd) gd
      (fun l => l.setPred d ((List.range 32).any fun i => (a.r32 l).getLsbD i && (b.r32 l).getLsbD i))

/-- R91: predicate logic of major 0x05. -/
def Sys2Proof.Claims.LanePredicates : Prop :=
  ∀ (d a b gd : Nat) (x : LDst) (v : LSrc) (n : Bool),
    LaneDoes (.pand d a b gd) gd (fun l => l.setPred d (l.pred a && l.pred b)) ∧
    LaneDoes (.por d a b gd) gd (fun l => l.setPred d (l.pred a || l.pred b)) ∧
    LaneDoes (.pxor d a b gd) gd (fun l => l.setPred d (l.pred a ^^ l.pred b)) ∧
    LaneDoes (.pandn d a b gd) gd (fun l => l.setPred d (l.pred a && !l.pred b)) ∧
    LaneDoes (.pnot d a gd) gd (fun l => l.setPred d (!l.pred a)) ∧
    LaneDoes (.ptov x a n gd) gd (fun l => x.put32 n (BitVec.ofNat 32 (l.pred a).toNat) l) ∧
    LaneDoes (.vtop d v gd) gd (fun l => l.setPred d (decide ((v.r32 l).toNat ≠ 0)))

/-- R92: moves and the 64-bit forms of major 0x06. -/
def Sys2Proof.Claims.LaneMovesAndPairs : Prop :=
  ∀ (d : LDst) (a b : LSrc) (u : USrc) (n : Bool) (gd p : Nat),
    LaneDoes (.mov d a n gd) gd (fun l => d.put32 n (a.r32 l) l) ∧
    LaneDoes (.sel d a b n p) 0 (fun l => d.put32 n (if l.pred p then a.r32 l else b.r32 l) l) ∧
    LaneDoesIn (.movs d u n gd) gd (fun g l => d.put32 n (BitVec.ofNat 32 ((u.get g.u).toNat % 2 ^ 32)) l) ∧
    LaneDoesIn (.movu d u n gd) gd (fun g l => d.put32 n (BitVec.ofNat 32 ((u.get g.u).toNat / 2 ^ 32)) l) ∧
    LaneDoes (.add64 d a b n gd) gd
      (fun l => d.put64 n (BitVec.ofNat 64 ((a.r64 l).toNat + (b.r64 l).toNat)) l) ∧
    LaneDoes (.sub64 d a b n gd) gd
      (fun l => d.put64 n (BitVec.ofInt 64 ((a.r64 l).toInt - (b.r64 l).toInt)) l) ∧
    LaneDoes (.shl64 d a b n gd) gd
      (fun l => d.put64 n (if 64 ≤ (b.r32 l).toNat then 0 else a.r64 l <<< (b.r32 l).toNat) l) ∧
    LaneDoes (.lea d a b n gd) gd
      (fun l => d.put64 n (BitVec.ofInt 64 ((a.r64 l).toInt + (b.r32 l).toInt)) l)

/-- R93: the immediate forms; they have no guard field and no n bit. -/
def Sys2Proof.Claims.LaneImmediates : Prop :=
  ∀ (d : LDst) (p : Nat) (a : LSrc) (x : BitVec 13) (y : BitVec 10) (k : Nat), k < 32 →
    LaneDoes (.addi d a x) 0 (fun l => d.put32 false (BitVec.ofInt 32 ((a.r32 l).toInt + x.toInt)) l) ∧
    LaneDoes (.andi d a x) 0
      (fun l => d.put32 false (ofBits fun i => (a.r32 l).getLsbD i && (i < 13 && x.getLsbD i)) l) ∧
    LaneDoes (.ori d a x) 0
      (fun l => d.put32 false (ofBits fun i => (a.r32 l).getLsbD i || (i < 13 && x.getLsbD i)) l) ∧
    LaneDoes (.xori d a x) 0
      (fun l => d.put32 false (ofBits fun i => (a.r32 l).getLsbD i ^^ (i < 13 && x.getLsbD i)) l) ∧
    LaneDoes (.shiShl d a k) 0 (fun l => d.put32 false (a.r32 l <<< k) l) ∧
    LaneDoes (.shiShr d a k) 0 (fun l => d.put32 false (a.r32 l >>> k) l) ∧
    LaneDoes (.shiSar d a k) 0
      (fun l => d.put32 false (ofBits fun i => (a.r32 l).getLsbD (min (i + k) 31)) l) ∧
    LaneDoes (.shiRol d a k) 0
      (fun l => d.put32 false (ofBits fun i => (a.r32 l).getLsbD ((i + 32 - k) % 32)) l) ∧
    LaneDoes (.cmpiEq p a y) 0 (fun l => l.setPred p (decide ((a.r32 l).toInt = y.toInt))) ∧
    LaneDoes (.cmpiNe p a y) 0 (fun l => l.setPred p (decide ((a.r32 l).toInt ≠ y.toInt))) ∧
    LaneDoes (.cmpiLtI p a y) 0 (fun l => l.setPred p (decide ((a.r32 l).toInt < y.toInt))) ∧
    LaneDoes (.cmpiLeI p a y) 0 (fun l => l.setPred p (decide ((a.r32 l).toInt ≤ y.toInt))) ∧
    LaneDoes (.cmpiLtN p a y) 0
      (fun l => l.setPred p (decide ((a.r32 l).toNat < (BitVec.ofInt 32 y.toInt).toNat))) ∧
    LaneDoes (.cmpiLeN p a y) 0
      (fun l => l.setPred p (decide ((a.r32 l).toNat ≤ (BitVec.ofInt 32 y.toInt).toNat))) ∧
    LaneDoes (.cmpiTst p a y) 0
      (fun l => l.setPred p ((List.range 32).any fun i => (a.r32 l).getLsbD i && y.getLsbD (min i 9))) ∧
    LaneDoes (.movi d x) 0 (fun l => d.put32 false (BitVec.ofInt 32 x.toInt) l) ∧
    LaneDoes (.leai d a x) 0 (fun l => d.put64 false (BitVec.ofInt 64 ((a.r64 l).toInt + x.toInt)) l)

/-- What lane compares, predicate logic, moves, 64-bit forms and immediate forms give. -/
def Obligations.LaneComparesAndMoves : Prop :=
  Claims.LaneCompares ∧ Claims.LanePredicates ∧ Claims.LaneMovesAndPairs ∧ Claims.LaneImmediates

/-- R119: FP32 arithmetic of major 0x10: the exact result rounded once by RNE; a NaN gives way to a number in FMIN and FMAX,
and otherwise the smaller or larger value keeps its bits, with -0 below +0. -/
def Sys2Proof.Claims.FloatArithmetic : Prop :=
  ∀ (d : LDst) (a b : LSrc) (n : Bool) (gd : Nat),
    LaneDoes (.fadd d a b n gd) gd
      (fun l => d.put32 n (w32 (fp32.rne (FVal.sum [fp32.value (a.r32 l).toNat, fp32.value (b.r32 l).toNat]))) l) ∧
    LaneDoes (.fsub d a b n gd) gd
      (fun l => d.put32 n (w32 (fp32.rne (FVal.sum [fp32.value (a.r32 l).toNat, (fp32.value (b.r32 l).toNat).neg]))) l) ∧
    LaneDoes (.fmul d a b n gd) gd
      (fun l => d.put32 n (w32 (fp32.rne ((fp32.value (a.r32 l).toNat).mul (fp32.value (b.r32 l).toNat)))) l) ∧
    LaneDoes (.ffma d a b n gd) gd
      (fun l => d.put32 n (w32 (fp32.rne (FVal.sum
        [(fp32.value (a.r32 l).toNat).mul (fp32.value (b.r32 l).toNat), fp32.value (d.old32 l).toNat]))) l) ∧
    LaneDoes (.fnma d a b n gd) gd
      (fun l => d.put32 n (w32 (fp32.rne (FVal.sum
        [((fp32.value (a.r32 l).toNat).mul (fp32.value (b.r32 l).toNat)).neg, fp32.value (d.old32 l).toNat]))) l) ∧
    LaneDoes (.fdiv d a b n gd) gd
      (fun l => d.put32 n (w32 (fp32.div (fp32.value (a.r32 l).toNat) (fp32.value (b.r32 l).toNat))) l) ∧
    LaneDoes (.fmin d a b n gd) gd
      (fun l => d.put32 n
        (match fp32.value (a.r32 l).toNat, fp32.value (b.r32 l).toNat with
        | .nan, .nan => 0x7FC00000#32
        | .nan, _ => b.r32 l
        | _, .nan => a.r32 l
        | _, _ => if orderKey 32 (a.r32 l).toNat ≤ orderKey 32 (b.r32 l).toNat then a.r32 l else b.r32 l) l) ∧
    LaneDoes (.fmax d a b n gd) gd
      (fun l => d.put32 n
        (match fp32.value (a.r32 l).toNat, fp32.value (b.r32 l).toNat with
        | .nan, .nan => 0x7FC00000#32
        | .nan, _ => b.r32 l
        | _, .nan => a.r32 l
        | _, _ => if orderKey 32 (a.r32 l).toNat ≤ orderKey 32 (b.r32 l).toNat then b.r32 l else a.r32 l) l)

/-- R120: the comparisons of major 0x11. -/
def Sys2Proof.Claims.FloatComparisons : Prop :=
  ∀ (d : Nat) (a b : LSrc) (gd : Nat),
    LaneDoes (.fcmpEq d a b gd) gd (fun l =>
      let x := fp32.value (a.r32 l).toNat
      let y := fp32.value (b.r32 l).toNat
      l.setPred d (x.lt? y == some false && y.lt? x == some false)) ∧
    LaneDoes (.fcmpNe d a b gd) gd (fun l =>
      let x := fp32.value (a.r32 l).toNat
      let y := fp32.value (b.r32 l).toNat
      l.setPred d (!(x.lt? y == some false && y.lt? x == some false))) ∧
    LaneDoes (.fcmpLt d a b gd) gd (fun l =>
      let x := fp32.value (a.r32 l).toNat
      let y := fp32.value (b.r32 l).toNat
      l.setPred d (x.lt? y == some true)) ∧
    LaneDoes (.fcmpLe d a b gd) gd (fun l =>
      let x := fp32.value (a.r32 l).toNat
      let y := fp32.value (b.r32 l).toNat
      l.setPred d (y.lt? x == some false)) ∧
    LaneDoes (.fcmpUn d a b gd) gd (fun l =>
      let x := fp32.value (a.r32 l).toNat
      let y := fp32.value (b.r32 l).toNat
      l.setPred d (x == .nan || y == .nan)) ∧
    LaneDoes (.fcmpTolt d a b gd) gd (fun l =>
      let x := (a.r32 l).toNat
      let y := (b.r32 l).toNat
      l.setPred d (orderKey 32 x < orderKey 32 y)) ∧
    LaneDoes (.fcmpTole d a b gd) gd (fun l =>
      let x := (a.r32 l).toNat
      let y := (b.r32 l).toNat
      l.setPred d (orderKey 32 x ≤ orderKey 32 y)) ∧
    LaneDoes (.fcmpClass d a b gd) gd (fun l =>
      let x := (a.r32 l).toNat
      let neg := 2 ^ 31 ≤ x
      let e := x / 2 ^ 23 % 2 ^ 8
      let m := x % 2 ^ 23
      let k := if e = 255 then (if m = 0 then (if neg then 2 else 9) else if m < 2 ^ 22 then 0 else 1)
        else if e = 0 then (if m = 0 then (if neg then 5 else 6) else if neg then 4 else 7)
        else if neg then 3 else 8
      l.setPred d ((b.r32 l).getLsbD k))

/-- What FP32 arithmetic gives, and what its comparisons hold. -/
def Obligations.FloatResultsAndComparisons : Prop :=
  Claims.FloatArithmetic ∧ Claims.FloatComparisons

/-- R121: FP64 arithmetic of major 0x12, on even pairs. -/
def Sys2Proof.Claims.DoubleArithmetic : Prop :=
  ∀ (d : LDst) (a b : LSrc) (n : Bool) (gd : Nat),
    LaneDoes (.dadd d a b n gd) gd
      (fun l => d.put64 n (w64 (fp64.rne (FVal.sum [fp64.value (a.r64 l).toNat, fp64.value (b.r64 l).toNat]))) l) ∧
    LaneDoes (.dsub d a b n gd) gd
      (fun l => d.put64 n (w64 (fp64.rne (FVal.sum [fp64.value (a.r64 l).toNat, (fp64.value (b.r64 l).toNat).neg]))) l) ∧
    LaneDoes (.dmul d a b n gd) gd
      (fun l => d.put64 n (w64 (fp64.rne ((fp64.value (a.r64 l).toNat).mul (fp64.value (b.r64 l).toNat)))) l) ∧
    LaneDoes (.dfma d a b n gd) gd
      (fun l => d.put64 n (w64 (fp64.rne (FVal.sum
        [(fp64.value (a.r64 l).toNat).mul (fp64.value (b.r64 l).toNat), fp64.value (d.old64 l).toNat]))) l) ∧
    LaneDoes (.ddiv d a b n gd) gd
      (fun l => d.put64 n (w64 (fp64.div (fp64.value (a.r64 l).toNat) (fp64.value (b.r64 l).toNat))) l) ∧
    LaneDoes (.dsqrt d a n gd) gd
      (fun l => d.put64 n (w64 (fp64.sqrt (fp64.value (a.r64 l).toNat))) l) ∧
    LaneDoes (.dmin d a b n gd) gd
      (fun l => d.put64 n
        (match fp64.value (a.r64 l).toNat, fp64.value (b.r64 l).toNat with
        | .nan, .nan => 0x7FF8000000000000#64
        | .nan, _ => b.r64 l
        | _, .nan => a.r64 l
        | _, _ => if orderKey 64 (a.r64 l).toNat ≤ orderKey 64 (b.r64 l).toNat then a.r64 l else b.r64 l) l) ∧
    LaneDoes (.dmax d a b n gd) gd
      (fun l => d.put64 n
        (match fp64.value (a.r64 l).toNat, fp64.value (b.r64 l).toNat with
        | .nan, .nan => 0x7FF8000000000000#64
        | .nan, _ => b.r64 l
        | _, .nan => a.r64 l
        | _, _ => if orderKey 64 (a.r64 l).toNat ≤ orderKey 64 (b.r64 l).toNat then b.r64 l else a.r64 l) l)

/-- R122: packed 16-bit arithmetic of major 0x13: each half on its own, as the same operation of its format; HMIN and HMAX
by totalOrder. -/
def Sys2Proof.Claims.HalfArithmetic : Prop :=
  ∀ (d : LDst) (a b : LSrc) (n : Bool) (gd : Nat) (f : FFmt),
    (f = fp16 → LaneDoes (.haddF16 d a b n gd) gd (fun l =>
      let half := fun x y : Nat => f.rne (FVal.sum [f.value (x % 2 ^ 16), f.value (y % 2 ^ 16)])
      let x := (a.r32 l).toNat
      let y := (b.r32 l).toNat
      d.put32 n (w32 (half x y + 2 ^ 16 * half (x / 2 ^ 16) (y / 2 ^ 16))) l)) ∧
    (f = fp16 → LaneDoes (.hmulF16 d a b n gd) gd (fun l =>
      let half := fun x y : Nat => f.rne ((f.value (x % 2 ^ 16)).mul (f.value (y % 2 ^ 16)))
      let x := (a.r32 l).toNat
      let y := (b.r32 l).toNat
      d.put32 n (w32 (half x y + 2 ^ 16 * half (x / 2 ^ 16) (y / 2 ^ 16))) l)) ∧
    (f = fp16 → LaneDoes (.hfmaF16 d a b n gd) gd (fun l =>
      let half := fun x y z : Nat => f.rne (FVal.sum [(f.value (x % 2 ^ 16)).mul (f.value (y % 2 ^ 16)), f.value (z % 2 ^ 16)])
      let x := (a.r32 l).toNat
      let y := (b.r32 l).toNat
      let z := (d.old32 l).toNat
      d.put32 n (w32 (half x y z + 2 ^ 16 * half (x / 2 ^ 16) (y / 2 ^ 16) (z / 2 ^ 16))) l)) ∧
    (f = bf16 → LaneDoes (.haddBf16 d a b n gd) gd (fun l =>
      let half := fun x y : Nat => f.rne (FVal.sum [f.value (x % 2 ^ 16), f.value (y % 2 ^ 16)])
      let x := (a.r32 l).toNat
      let y := (b.r32 l).toNat
      d.put32 n (w32 (half x y + 2 ^ 16 * half (x / 2 ^ 16) (y / 2 ^ 16))) l)) ∧
    (f = bf16 → LaneDoes (.hmulBf16 d a b n gd) gd (fun l =>
      let half := fun x y : Nat => f.rne ((f.value (x % 2 ^ 16)).mul (f.value (y % 2 ^ 16)))
      let x := (a.r32 l).toNat
      let y := (b.r32 l).toNat
      d.put32 n (w32 (half x y + 2 ^ 16 * half (x / 2 ^ 16) (y / 2 ^ 16))) l)) ∧
    (f = bf16 → LaneDoes (.hfmaBf16 d a b n gd) gd (fun l =>
      let half := fun x y z : Nat => f.rne (FVal.sum [(f.value (x % 2 ^ 16)).mul (f.value (y % 2 ^ 16)), f.value (z % 2 ^ 16)])
      let x := (a.r32 l).toNat
      let y := (b.r32 l).toNat
      let z := (d.old32 l).toNat
      d.put32 n (w32 (half x y z + 2 ^ 16 * half (x / 2 ^ 16) (y / 2 ^ 16) (z / 2 ^ 16))) l)) ∧
    LaneDoes (.hmin d a b n gd) gd (fun l =>
      let half := fun x y : Nat => if orderKey 16 x ≤ orderKey 16 y then x % 2 ^ 16 else y % 2 ^ 16
      let x := (a.r32 l).toNat
      let y := (b.r32 l).toNat
      d.put32 n (w32 (half x y + 2 ^ 16 * half (x / 2 ^ 16) (y / 2 ^ 16))) l) ∧
    LaneDoes (.hmax d a b n gd) gd (fun l =>
      let half := fun x y : Nat => if orderKey 16 x ≤ orderKey 16 y then y % 2 ^ 16 else x % 2 ^ 16
      let x := (a.r32 l).toNat
      let y := (b.r32 l).toNat
      d.put32 n (w32 (half x y + 2 ^ 16 * half (x / 2 ^ 16) (y / 2 ^ 16))) l)

/-- What FP64 and packed 16-bit arithmetic give. -/
def Obligations.DoubleAndHalfResults : Prop :=
  Claims.DoubleArithmetic ∧ Claims.HalfArithmetic

/-- R123, R124: conversions between integers and floating-point formats: the exact value rounded by the mode that the
instruction or `cvm` names, clamped to the integer's range, or brought into the format's range by R25; under SR the lane
draws once. -/
def Obligations.ConvertedValues : Prop :=
  ∀ (d : LDst) (a : LSrc) (r : Nat) (n : Bool) (gd : Nat),
    LaneDoes (.cvtI32F32 d a r n gd) gd (fun l =>
      let x := l.draw (RMode.ofCode r)
      d.put32 n (BitVec.ofInt 32 (((fp32.value (a.r32 l).toNat).toInt (RMode.ofCode r) x.1).clamp (-2147483648) 2147483647)) x.2) ∧
    LaneDoes (.cvtN32F32 d a r n gd) gd (fun l =>
      let x := l.draw (RMode.ofCode r)
      d.put32 n (BitVec.ofInt 32 (((fp32.value (a.r32 l).toNat).toInt (RMode.ofCode r) x.1).clamp (0) 4294967295)) x.2) ∧
    LaneDoes (.cvtF32I32 d a r n gd) gd (fun l =>
      let x := l.draw (RMode.ofCode r)
      d.put32 n (w32 (fp32.narrow (RMode.ofCode r) (false) x.1 (intVal (a.r32 l).toInt))) x.2) ∧
    LaneDoes (.cvtF32N32 d a r n gd) gd (fun l =>
      let x := l.draw (RMode.ofCode r)
      d.put32 n (w32 (fp32.narrow (RMode.ofCode r) (false) x.1 (intVal (a.r32 l).toNat))) x.2) ∧
    LaneDoesIn (.cvtBf16F32 d a n gd) gd (fun g l =>
      let x := l.draw (RMode.ofCode (g.cvm.toNat / 2 ^ 4 % 8))
      d.put32 n (w32 (bf16.narrow (RMode.ofCode (g.cvm.toNat / 2 ^ 4 % 8)) (g.cvm.getLsbD 7) x.1 (fp32.value (a.r32 l).toNat))) x.2) ∧
    LaneDoesIn (.cvtF16F32 d a n gd) gd (fun g l =>
      let x := l.draw (RMode.ofCode (g.cvm.toNat / 2 ^ 0 % 8))
      d.put32 n (w32 (fp16.narrow (RMode.ofCode (g.cvm.toNat / 2 ^ 0 % 8)) (g.cvm.getLsbD 3) x.1 (fp32.value (a.r32 l).toNat))) x.2) ∧
    LaneDoesIn (.cvtE4m3F32 d a n gd) gd (fun g l =>
      let x := l.draw (RMode.ofCode (g.cvm.toNat / 2 ^ 8 % 8))
      d.put32 n (w32 (e4m3.narrow (RMode.ofCode (g.cvm.toNat / 2 ^ 8 % 8)) (g.cvm.getLsbD 11) x.1 (fp32.value (a.r32 l).toNat))) x.2) ∧
    LaneDoesIn (.cvtE5m2F32 d a n gd) gd (fun g l =>
      let x := l.draw (RMode.ofCode (g.cvm.toNat / 2 ^ 12 % 8))
      d.put32 n (w32 (e5m2.narrow (RMode.ofCode (g.cvm.toNat / 2 ^ 12 % 8)) (g.cvm.getLsbD 15) x.1 (fp32.value (a.r32 l).toNat))) x.2) ∧
    LaneDoesIn (.cvtI8F32 d a n gd) gd (fun g l =>
      let x := l.draw (RMode.ofCode (g.cvm.toNat / 2 ^ 20 % 8))
      d.put32 n (BitVec.ofInt 32 (((fp32.value (a.r32 l).toNat).toInt (RMode.ofCode (g.cvm.toNat / 2 ^ 20 % 8)) x.1).clamp (-128) 127)) x.2) ∧
    LaneDoesIn (.cvtI16F32 d a n gd) gd (fun g l =>
      let x := l.draw (RMode.ofCode (g.cvm.toNat / 2 ^ 24 % 8))
      d.put32 n (BitVec.ofInt 32 (((fp32.value (a.r32 l).toNat).toInt (RMode.ofCode (g.cvm.toNat / 2 ^ 24 % 8)) x.1).clamp (-32768) 32767)) x.2) ∧
    LaneDoesIn (.cvtI8I32 d a n gd) gd (fun g l =>
      d.put32 n (if g.cvm.getLsbD 23 then BitVec.ofInt 32 (max (-128) (min 127 (a.r32 l).toInt))
        else ofBits fun i => (a.r32 l).getLsbD (min i 7)) l) ∧
    LaneDoesIn (.cvtI16I32 d a n gd) gd (fun g l =>
      d.put32 n (if g.cvm.getLsbD 27 then BitVec.ofInt 32 (max (-32768) (min 32767 (a.r32 l).toInt))
        else ofBits fun i => (a.r32 l).getLsbD (min i 15)) l) ∧
    LaneDoes (.cvtF32Bf16 d a n gd) gd
      (fun l => d.put32 n (w32 (fp32.rne (bf16.value ((a.r32 l).toNat % 2 ^ 16)))) l) ∧
    LaneDoes (.cvtF32F16 d a n gd) gd
      (fun l => d.put32 n (w32 (fp32.rne (fp16.value ((a.r32 l).toNat % 2 ^ 16)))) l) ∧
    LaneDoes (.cvtF32E4m3 d a n gd) gd
      (fun l => d.put32 n (w32 (fp32.rne (e4m3.value ((a.r32 l).toNat % 2 ^ 8)))) l) ∧
    LaneDoes (.cvtF32E5m2 d a n gd) gd
      (fun l => d.put32 n (w32 (fp32.rne (e5m2.value ((a.r32 l).toNat % 2 ^ 8)))) l) ∧
    LaneDoesIn (.cvtBf16F32Sr d a n gd) gd (fun g l =>
      let x := l.draw (.sr)
      d.put32 n (w32 (bf16.narrow (.sr) (g.cvm.getLsbD 7) x.1 (fp32.value (a.r32 l).toNat))) x.2) ∧
    LaneDoesIn (.cvtE4m3F32Sr d a n gd) gd (fun g l =>
      let x := l.draw (.sr)
      d.put32 n (w32 (e4m3.narrow (.sr) (g.cvm.getLsbD 11) x.1 (fp32.value (a.r32 l).toNat))) x.2)

/-- R126-R129: the F4B block. PACK.f4b gives each lane that takes part one word of the block that the lanes of its sixteen
ranks of g0 form, a lane that does not take part counting as +0 and drawing nothing; UNPK decodes one element; SCALE adds to
the scale byte; MX2F4B adds the empty spare. PACK.f4b is stated outside uncoupled callees, where it traps (R152). -/
def Obligations.FourBitBlockWords : Prop :=
  (∀ (d : LDst) (a : LSrc) (n : Bool) (gd : Nat) s c g, s.Runs c g → s.uncoupled c.gkey g c.lanes = [] →
    LanesAfter (exec (.packF4b d a n gd) s) s c g (fun l p =>
      c.laneAfter gd (fun l =>
        let mode := RMode.ofCode (g.cvm.toNat / 2 ^ 16 % 8)
        let members := s.membersOf c.gkey g 0 p
        let r := rankOf members p
        let taking := fun i => ((positions members)[r / 16 * 16 + i]?).filter (c.taking gd g).getLsbD
        let b := packF4b mode (g.cvm.getLsbD 19)
          ((List.range 16).map fun i => ((taking i).map fun q => (a.r32 (g.lane q)).toNat).getD 0)
          ((List.range 16).map fun i => ((taking i).map fun q => ((g.lane q).draw mode).1).getD 0)
        d.put32 n (w32 (match r % 4 with
          | 0 => nibbles (b.codes.take 8)
          | 1 => nibbles (b.codes.drop 8)
          | 2 => b.scale + 256 * b.spare
          | _ => 0)) (l.draw mode).2) l p)) ∧
  ∀ (d : LDst) (a b : LSrc) (n : Bool) (gd : Nat),
    LaneDoes (.unpkF4b d a b n gd) gd (fun l =>
      let i := (b.r32 l).toNat / 2 ^ 16 % 8
      let code := (a.r32 l).toNat / 2 ^ (4 * i) % 16
      d.put32 n (w32 (fp32.rne (f4bValue code ((b.r32 l).toNat % 256) ((b.r32 l).toNat / 256 % 256)))) l) ∧
    LaneDoesIn (.scaleF4b d a b n gd) gd (fun g l =>
      let e := (a.r32 l).toNat % 256
      let t := (e : Int) + (b.r32 l).toInt
      let e' := if e = 255 then 255 else if 254 < t then (if g.cvm.getLsbD 19 then 254 else 255)
        else if t < 0 then 0 else t.toNat
      d.put32 n (w32 ((a.r32 l).toNat - e + e')) l) ∧
    LaneDoes (.mx2f4b d a n gd) gd
      (fun l => d.put32 n (BitVec.ofNat 32 ((a.r32 l).toNat % 256 + 0x8000)) l)

/-- R130: the special functions of major 0x17: the quotient and the square root, the special values of the table, and the exact
cases, at every m and e whose m 2^e is the number: EXP2 of a whole number, LOG2, RCP, SQRT and RSQ of a power of two. -/
def Obligations.SpecialFunctionValues : Prop :=
  ∀ (d : LDst) (a : LSrc) (n : Bool) (gd : Nat),
    ∃ rcp rsq sqrt exp2 log2 sin cos tanh : FVal → Nat,
      LaneDoes (.rcp d a n gd) gd (fun l => d.put32 n (w32 (rcp (fp32.value (a.r32 l).toNat))) l) ∧
      LaneDoes (.rsq d a n gd) gd (fun l => d.put32 n (w32 (rsq (fp32.value (a.r32 l).toNat))) l) ∧
      LaneDoes (.sqrt d a n gd) gd (fun l => d.put32 n (w32 (sqrt (fp32.value (a.r32 l).toNat))) l) ∧
      LaneDoes (.exp2 d a n gd) gd (fun l => d.put32 n (w32 (exp2 (fp32.value (a.r32 l).toNat))) l) ∧
      LaneDoes (.log2 d a n gd) gd (fun l => d.put32 n (w32 (log2 (fp32.value (a.r32 l).toNat))) l) ∧
      LaneDoes (.sin d a n gd) gd (fun l => d.put32 n (w32 (sin (fp32.value (a.r32 l).toNat))) l) ∧
      LaneDoes (.cos d a n gd) gd (fun l => d.put32 n (w32 (cos (fp32.value (a.r32 l).toNat))) l) ∧
      LaneDoes (.tanh d a n gd) gd (fun l => d.put32 n (w32 (tanh (fp32.value (a.r32 l).toNat))) l) ∧
      (∀ f ∈ [rcp, rsq, sqrt, exp2, log2, sin, cos, tanh], f .nan = 0x7FC00000) ∧
      (∀ s e, rcp (.fin s 0 e) = (if s then 0xFF800000 else 0x7F800000) ∧
        rsq (.fin s 0 e) = (if s then 0xFF800000 else 0x7F800000) ∧ sqrt (.fin s 0 e) = (if s then 0x80000000 else 0) ∧
        exp2 (.fin s 0 e) = 0x3F800000 ∧ log2 (.fin s 0 e) = 0xFF800000 ∧
        sin (.fin s 0 e) = (if s then 0x80000000 else 0) ∧ cos (.fin s 0 e) = 0x3F800000 ∧
        tanh (.fin s 0 e) = (if s then 0x80000000 else 0)) ∧
      (∀ s, rcp (.inf s) = (if s then 0x80000000 else 0) ∧ exp2 (.inf s) = (if s then 0 else 0x7F800000) ∧
        sin (.inf s) = 0x7FC00000 ∧ cos (.inf s) = 0x7FC00000 ∧ tanh (.inf s) = (if s then 0xBF800000 else 0x3F800000)) ∧
      rsq (.inf false) = 0 ∧ sqrt (.inf false) = 0x7F800000 ∧ log2 (.inf false) = 0x7F800000 ∧
      (∀ f ∈ [rsq, sqrt, log2], f (.inf true) = 0x7FC00000 ∧ ∀ m e, 0 < m → f (.fin true m e) = 0x7FC00000) ∧
      (∀ v, rcp v = fp32.div (.fin false 1 0) v ∧ sqrt v = fp32.sqrt v) ∧
      -- exact cases: m 2^e = k
      (∀ (m k : Nat) (e : Int), 0 < k → m * 2 ^ e.toNat = k * 2 ^ (-e).toNat →
        (k ≤ 127 → exp2 (.fin false m e) = (127 + k) * 2 ^ 23) ∧ (128 ≤ k → exp2 (.fin false m e) = 0x7F800000) ∧
        (k ≤ 126 → exp2 (.fin true m e) = (127 - k) * 2 ^ 23) ∧
        (127 ≤ k → k ≤ 149 → exp2 (.fin true m e) = 2 ^ (149 - k)) ∧ (150 ≤ k → exp2 (.fin true m e) = 0)) ∧
      -- m = 2^j, as every FP32 power of two has it
      ∀ (j : Nat) (e k : Int), j ≤ 23 → -149 ≤ e → e ≤ 104 → k = e + j →
        log2 (.fin false (2 ^ j) e) = fp32.rne (.fin (decide (k < 0)) k.natAbs 0) ∧
        (∀ s, -127 ≤ k → k ≤ 126 → rcp (.fin s (2 ^ j) e) = (127 - k).toNat * 2 ^ 23 + if s then 2 ^ 31 else 0) ∧
        (∀ h : Int, k = 2 * h → sqrt (.fin false (2 ^ j) e) = (127 + h).toNat * 2 ^ 23 ∧
          rsq (.fin false (2 ^ j) e) = (127 - h).toNat * 2 ^ 23)

/-- R131-R134: rounding to integers, Morton keys, the random stream, exponents. -/
def Obligations.RoundedValuesKeysAndExponents : Prop :=
  ∀ (d : LDst) (a b : LSrc) (r : Nat) (n : Bool) (gd : Nat), r < 5 →
    LaneDoes (.frnd d a r n gd) gd (fun l =>
      let x := (a.r32 l).toNat
      d.put32 n (w32 (match fp32.value x with
        | .nan => 0x7FC00000
        | .inf _ => x
        | .fin neg m e => if m = 0 ∨ 2 ^ 23 * 2 ^ (-e).toNat ≤ m * 2 ^ e.toNat then x
          else match (FVal.fin neg m e).toInt (RMode.ofCode r) 0 with
            | .int i => fp32.rne (.fin neg i.natAbs 0)
            | _ => x)) l) ∧
    LaneDoes (.key3 d a n gd) gd (fun l =>
      let q := a.wide l 4
      d.put32 n (w32 (match fp32.value (q / 2 ^ 96) with
        | .fin false hm he =>
          if hm = 0 then 2 ^ 31
          else
            -- floor(w / h), clamped, with the flag
            let coord := fun (w : FVal) =>
              match w with
              | .nan => (0, true)
              | .inf neg => (if neg then 0 else 1023, true)
              | .fin neg m e =>
                let k := e.natAbs + he.natAbs
                let num := m * 2 ^ (e + k).toNat
                let den := hm * 2 ^ (he + k).toNat
                if neg ∧ m ≠ 0 then (0, true) else (min (num / den) 1023, decide (1023 < num / den))
            let x := coord (fp32.value (q % 2 ^ 32))
            let y := coord (fp32.value (q / 2 ^ 32 % 2 ^ 32))
            let z := coord (fp32.value (q / 2 ^ 64 % 2 ^ 32))
            ((List.range 10).map fun i =>
              x.1 / 2 ^ i % 2 * 2 ^ (3 * i) + y.1 / 2 ^ i % 2 * 2 ^ (3 * i + 1) + z.1 / 2 ^ i % 2 * 2 ^ (3 * i + 2)).sum +
              (if x.2 || y.2 || z.2 then 2 ^ 31 else 0)
        | _ => 2 ^ 31)) l) ∧
    LaneDoes (.rng d n gd) gd (fun l =>
      let x := l.lrng * 6364136223846793005#64 + 1442695040888963407#64
      d.put32 n (BitVec.ofNat 32 (x.toNat / 2 ^ 32)) { l with lrng := x }) ∧
    LaneDoes (.seed a gd) gd (fun l =>
      { l with lrng := BitVec.ofNat 64 ((a.r64 l).toNat + l.lid.toNat * 0x9E3779B97F4A7C15) }) ∧
    LaneDoes (.fscale d a b n gd) gd (fun l =>
      let x := (a.r32 l).toNat
      d.put32 n (w32 (match fp32.value x with
        | .nan => 0x7FC00000
        | .inf _ => x
        | .fin neg m e => if m = 0 then x else fp32.rne (.fin neg m (e + max (-2000) (min 2000 (b.r32 l).toInt))))) l) ∧
    LaneDoes (.fexp d a n gd) gd (fun l =>
      d.put32 n (match fp32.value (a.r32 l).toNat with
        | .fin _ m e => if m = 0 then 0x80000000#32 else BitVec.ofInt 32 (Nat.log2 m + e)
        | _ => 0x7FFFFFFF#32) l)

/-- R94: uniform arithmetic, logic and shifts of majors 0x00 and 0x01, of a group or of the cox. -/
def Sys2Proof.Claims.UniformArithmetic : Prop :=
  ∀ (d : UDst) (a b : USrc) (n : Bool) (k : Nat),
    UniformDoes (.uAdd d a b n k) k (fun u => d.put n (a.get u + b.get u) u) ∧
    UniformDoes (.uSub d a b n k) k (fun u => d.put n (a.get u - b.get u) u) ∧
    UniformDoes (.uMinI d a b n k) k
      (fun u => d.put n (if (a.get u).toInt ≤ (b.get u).toInt then a.get u else b.get u) u) ∧
    UniformDoes (.uMaxI d a b n k) k
      (fun u => d.put n (if (a.get u).toInt ≤ (b.get u).toInt then b.get u else a.get u) u) ∧
    UniformDoes (.uMinN d a b n k) k
      (fun u => d.put n (if (a.get u).toNat ≤ (b.get u).toNat then a.get u else b.get u) u) ∧
    UniformDoes (.uMaxN d a b n k) k
      (fun u => d.put n (if (a.get u).toNat ≤ (b.get u).toNat then b.get u else a.get u) u) ∧
    UniformDoes (.uMul d a b n k) k
      (fun u => d.put n (BitVec.ofNat 64 ((a.get u).toNat * (b.get u).toNat)) u) ∧
    UniformDoes (.uMulhN d a b n k) k
      (fun u => d.put n (BitVec.ofNat 64 ((a.get u).toNat * (b.get u).toNat / 2 ^ 64)) u) ∧
    UniformDoes (.uAnd d a b n k) k
      (fun u => d.put n (ofBits fun i => (a.get u).getLsbD i && (b.get u).getLsbD i) u) ∧
    UniformDoes (.uOr d a b n k) k
      (fun u => d.put n (ofBits fun i => (a.get u).getLsbD i || (b.get u).getLsbD i) u) ∧
    UniformDoes (.uXor d a b n k) k
      (fun u => d.put n (ofBits fun i => (a.get u).getLsbD i != (b.get u).getLsbD i) u) ∧
    UniformDoes (.uAndn d a b n k) k
      (fun u => d.put n (ofBits fun i => (a.get u).getLsbD i && !(b.get u).getLsbD i) u) ∧
    UniformDoes (.uShl d a b n k) k
      (fun u => d.put n (if 64 ≤ (b.get u).toNat then 0 else a.get u <<< (b.get u).toNat) u) ∧
    UniformDoes (.uShr d a b n k) k
      (fun u => d.put n (if 64 ≤ (b.get u).toNat then 0 else a.get u >>> (b.get u).toNat) u) ∧
    UniformDoes (.uSar d a b n k) k
      (fun u => d.put n (ofBits fun i =>
        if i + (b.get u).toNat < 64 then (a.get u).getLsbD (i + (b.get u).toNat) else (a.get u).getLsbD 63) u) ∧
    UniformDoes (.uClz d a n k) k
      (fun u => d.put n (BitVec.ofNat 64 ((List.range 64).takeWhile fun i => !(a.get u).getLsbD (63 - i)).length) u)

/-- R95: the uniform compares of major 0x02; a write to k0 is ignored. -/
def Sys2Proof.Claims.UniformCompares : Prop :=
  ∀ (d : Nat) (a b : USrc) (k : Nat),
    UniformDoes (.uEq d a b k) k (fun u => u.setPred d (decide (a.get u = b.get u))) ∧
    UniformDoes (.uNe d a b k) k (fun u => u.setPred d (decide (a.get u ≠ b.get u))) ∧
    UniformDoes (.uLtI d a b k) k (fun u => u.setPred d (decide ((a.get u).toInt < (b.get u).toInt))) ∧
    UniformDoes (.uLeI d a b k) k (fun u => u.setPred d (decide ((a.get u).toInt ≤ (b.get u).toInt))) ∧
    UniformDoes (.uLtN d a b k) k (fun u => u.setPred d (decide ((a.get u).toNat < (b.get u).toNat))) ∧
    UniformDoes (.uLeN d a b k) k (fun u => u.setPred d (decide ((a.get u).toNat ≤ (b.get u).toNat))) ∧
    UniformDoes (.uTst d a b k) k
      (fun u => u.setPred d ((List.range 64).any fun i => (a.get u).getLsbD i && (b.get u).getLsbD i)) ∧
    ∀ (u : UFile) (x : Bool), u.setPred 0 x = u ∧ (u.setPred 0 x).pred 0 = true

/-- R96: the rest of major 0x03; VTOS takes the issuing lane of the lowest lid; that the lower position comes first among equal
lids is the model's choice (log entry 42). -/
def Sys2Proof.Claims.UniformMoves : Prop :=
  ∀ (d : UDst) (a b : USrc) (n : Bool) (k c x y z : Nat),
    UniformDoes (.uMov d a n k) k (fun u => d.put n (a.get u) u) ∧
    UniformDoes (.uSel d a b n c) 0 (fun u => d.put n (if u.pred c then a.get u else b.get u) u) ∧
    UniformDoes (.uMovs d a n k) k (fun u => d.put n (ofBits fun i => (a.get u).getLsbD (min i 31)) u) ∧
    UniformDoes (.kopAnd x y z k) k (fun u => u.setPred x (u.pred y && u.pred z)) ∧
    UniformDoes (.kopOr x y z k) k (fun u => u.setPred x (u.pred y || u.pred z)) ∧
    UniformDoes (.kopXor x y z k) k (fun u => u.setPred x (u.pred y ^^ u.pred z)) ∧
    UniformDoes (.kopAndn x y z k) k (fun u => u.setPred x (u.pred y && !u.pred z)) ∧
    UniformDoes (.kopNot x y k) k (fun u => u.setPred x (!u.pred y)) ∧
    UniformDoes (.uPopc d a n k) k
      (fun u => d.put n (BitVec.ofNat 64 ((List.range 64).filter fun i => (a.get u).getLsbD i).length) u) ∧
    UniformDoes (.uDivN d a b n k) k
      (fun u => d.put n
        (if b.get u = 0 then 0xFFFFFFFFFFFFFFFF#64 else BitVec.ofNat 64 ((a.get u).toNat / (b.get u).toNat)) u) ∧
    ∀ (v : LSrc) s c g p, s.Runs c g → c.kholds k g.u = true → p < 32 → c.lanes.getLsbD p = true →
      (∀ q, q < 32 → c.lanes.getLsbD q = true → (g.lane p).lid.toNat < (g.lane q).lid.toNat ∨
        ((g.lane p).lid = (g.lane q).lid ∧ p ≤ q)) →
      ∃ g', exec (.vtos d v n k) s = .next (s.setGroup c.gkey g') ∧
        g' = { g with lanes := g'.lanes, u := d.put n (BitVec.ofNat 64 (v.r32 (g.lane p)).toNat) g.u } ∧
        ∀ q, q < 32 → g'.lane q = if c.lanes.getLsbD q then c.advance (g.lane q) else g.lane q

/-- R97: the uniform immediate forms, which carry no guard. -/
def Sys2Proof.Claims.UniformImmediates : Prop :=
  ∀ (d : UDst) (p : Nat) (a : USrc) (x : BitVec 13) (y : BitVec 10) (m : Nat), m < 64 →
    UniformDoes (.saddi d a x) 0 (fun u => d.put false (BitVec.ofInt 64 ((a.get u).toInt + x.toInt)) u) ∧
    UniformDoes (.sandi d a x) 0
      (fun u => d.put false (ofBits fun i => (a.get u).getLsbD i && (i < 13 && x.getLsbD i)) u) ∧
    UniformDoes (.sori d a x) 0
      (fun u => d.put false (ofBits fun i => (a.get u).getLsbD i || (i < 13 && x.getLsbD i)) u) ∧
    UniformDoes (.sshiShl d a m) 0 (fun u => d.put false (a.get u <<< m) u) ∧
    UniformDoes (.sshiShr d a m) 0 (fun u => d.put false (a.get u >>> m) u) ∧
    UniformDoes (.sshiSar d a m) 0
      (fun u => d.put false (ofBits fun i => (a.get u).getLsbD (min (i + m) 63)) u) ∧
    UniformDoes (.scmpiEq p a y) 0 (fun u => u.setPred p (decide ((a.get u).toInt = y.toInt))) ∧
    UniformDoes (.scmpiNe p a y) 0 (fun u => u.setPred p (decide ((a.get u).toInt ≠ y.toInt))) ∧
    UniformDoes (.scmpiLtI p a y) 0 (fun u => u.setPred p (decide ((a.get u).toInt < y.toInt))) ∧
    UniformDoes (.scmpiLeI p a y) 0 (fun u => u.setPred p (decide ((a.get u).toInt ≤ y.toInt))) ∧
    UniformDoes (.scmpiLtN p a y) 0
      (fun u => u.setPred p (decide ((a.get u).toNat < (BitVec.ofInt 64 y.toInt).toNat))) ∧
    UniformDoes (.scmpiLeN p a y) 0
      (fun u => u.setPred p (decide ((a.get u).toNat ≤ (BitVec.ofInt 64 y.toInt).toNat))) ∧
    UniformDoes (.scmpiTst p a y) 0
      (fun u => u.setPred p ((List.range 64).any fun i => (a.get u).getLsbD i && y.getLsbD (min i 9))) ∧
    UniformDoes (.smovi d x) 0 (fun u => d.put false (BitVec.ofInt 64 x.toInt) u)

/-- What uniform arithmetic, compares, moves and immediate forms give, of a group and of the cox. -/
def Obligations.UniformResults : Prop :=
  Claims.UniformArithmetic ∧ Claims.UniformCompares ∧ Claims.UniformMoves ∧ Claims.UniformImmediates

/-- R9, R40, R42, R48: what a lane result does. It is pushed into l0 with a true valid bit, the older latches moving on, whether
its destination is a register or z and whether n suppresses the write; a register d takes it unless n does, and no other register,
predicate or address changes; a write to p0 changes nothing. -/
def Obligations.ResultsAndLatchPushes : Prop :=
  ∀ (l : Lane) (d : LDst) (n : Bool) (x : Word) (y : DWord),
    let pushed := fun (t : Lane) (v : DWord) => t.l[0] = ⟨v, true⟩ ∧ t.l[1] = l.l[0] ∧ t.l[2] = l.l[1] ∧ t.l[3] = l.l[2]
    let others := fun (t : Lane) => t = { l with v := t.v, l := t.l, bad := t.bad }
    pushed (d.put32 n x l) (x.setWidth 64) ∧ others (d.put32 n x l) ∧
    (∀ r, r < 56 → (d.put32 n x l).reg r = if d = .v r ∧ n = false then x else l.reg r) ∧
    pushed (d.put64 n y l) y ∧ others (d.put64 n y l) ∧
    (d.okWidth 2 = true → ∀ r, r < 56 → (d.put64 n y l).reg r =
      if n = false ∧ d = .v r then y.setWidth 32
      else if n = false ∧ 0 < r ∧ d = .v (r - 1) then (y >>> 32).setWidth 32 else l.reg r) ∧
    ∀ p b, l.setPred 0 b = l ∧ (0 < p → p < 64 → l.setPred p b = { l with p := (l.setPred p b).p, bad := (l.setPred p b).bad } ∧
      (l.setPred p b).pred p = b ∧ ∀ q, q ≠ p → (l.setPred p b).pred q = l.pred q)

/-! ### Memory -/

/-- R197-R199: a translation that no buffer answers changes, of memory, only the eight bytes of the leaf entry it finds, which
take acc and, for a store or an atomic, dirty; any other changes no byte and no tag. That only
the entry of the leaf is marked, and no entry of a table above it, is the model's reading (log entry 25). -/
def Obligations.TranslationTouchesOneEntry : Prop :=
  ∀ (s : State) (core asid va : Nat) (k : Acc),
    let t := (s.translate core asid va k).2
    t.groups = s.groups ∧ t.teams = s.teams ∧ t.troots = s.troots ∧ (∀ a, t.tag a = s.tag a) ∧
      match (s.cached core asid (va / 65536)).1, s.walk (dieOf core) asid va with
      | none, .leaf addr _ e =>
        if permission e k = none then
          (∀ a, a < addr ∨ addr + 8 ≤ a → t.byte a = s.byte a) ∧
            t.num addr 8 = e ||| 2 ^ 42 ||| (if k.writes then 2 ^ 41 else 0)
        else ∀ a, t.byte a = s.byte a
      | _, _ => ∀ a, t.byte a = s.byte a

/-- R99, R100, R237: a lane that takes part in an LDG gets the bytes at its address, extended as its size says; after an LDP
it is demoted as well. Whom it then waits for among lanes demoted with it is the model's reading (log entry 26). -/
def Sys2Proof.Claims.GlobalLoads : Prop :=
  ∀ (d : LDst) (a : LSrc) (m : Addr) (z gd : Nat) s c g p pa s1, z ≤ 6 → s.Runs c g → c.One gd g p →
    let n := szBytes z
    let l := g.lane p
    s.Reaches c g (BitVec.ofInt 64 (g.gbase.toNat + (a.r32 l).toNat + (m.index.r32 l).toInt * n)) n .load pa s1 →
    (Answers (exec (.ldg d a m z gd) s) fun t =>
      GroupBecomes s t c.gkey g (fun q => c.oneAfter p (loaded d z (s1.num pa n)) q (g.lane q)) ∧
      t.teams = s.teams ∧ SameMemory s1 t) ∧
    Answers (exec (.ldp d a m z gd) s) fun t =>
      GroupBecomes s t c.gkey g (fun q => c.demoted g p q (c.oneAfter p (loaded d z (s1.num pa n)) q (g.lane q))) ∧
      t.teams = s.teams ∧ SameMemory s1 t

/-- R99, R101: a lane that takes part in an STG writes its data at its address, and no other byte changes. -/
def Sys2Proof.Claims.GlobalStores : Prop :=
  ∀ (d a : LSrc) (m : Addr) (z gd : Nat) s c g p pa s1, z ≤ 4 → s.Runs c g → c.Running g → c.One gd g p →
    let n := szBytes z
    let l := g.lane p
    s.Reaches c g (BitVec.ofInt 64 (g.gbase.toNat + (a.r32 l).toNat + (m.index.r32 l).toInt * n)) n .store pa s1 →
    Answers (exec (.stg d a m z gd) s) fun t =>
      GroupBecomes s t c.gkey g (fun q => c.oneAfter p id q (g.lane q)) ∧ t.teams = s.teams ∧
      MemoryBut s1 t pa n (stored d z l)

/-- Loads and stores of global memory: their bytes, and nothing else. -/
def Obligations.GlobalAccessesMeetTheirBytes : Prop :=
  Claims.GlobalLoads ∧ Claims.GlobalStores

/-- R233-R236: LDS and LDK give each lane that takes part the bytes at its local address. -/
def Sys2Proof.Claims.LocalLoads : Prop :=
  ∀ (d : LDst) (a : LSrc) (m : Addr) (z gd : Nat) s c g (home : Nat → Nat × Nat), z ≤ 6 → s.Runs c g →
    let n := szBytes z
    let la := fun q => BitVec.ofInt 32 ((a.r32 (g.lane q)).toNat + (m.index.r32 (g.lane q)).toInt * n)
    let after := fun sp t => GroupBecomes s t c.gkey g (fun q =>
      if (c.taking gd g).getLsbD q then
        c.advance (loaded d z (leNat (s.localBytes (home q).1 sp (home q).2 n)) (g.lane q))
      else if c.lanes.getLsbD q then c.advance (g.lane q) else g.lane q) ∧ t.teams = s.teams ∧ SameMemory s t
    ((∀ q, (c.taking gd g).getLsbD q = true → s.Local g .scratch (la q) n (home q).1 (home q).2) →
      (∃ tm, tget s.teams g.tid = some tm) → Answers (exec (.lds d a m z gd) s) (after .scratch)) ∧
    ((∀ q, (c.taking gd g).getLsbD q = true → s.Local g .deck (la q ||| 0x80000000#32) n (home q).1 (home q).2) →
      (∃ tm, tget s.teams g.tid = some tm) → Answers (exec (.ldk d a m z gd) s) (after .deck))

/-- R233-R236: STS, STK and STX write a lane's data at its local address, and change no other byte. -/
def Sys2Proof.Claims.LocalStores : Prop :=
  ∀ (d a : LSrc) (m : Addr) (z gd : Nat) s c g p home lo, z ≤ 4 → s.Runs c g → c.Running g → s.quiet c.gkey → c.One gd g p →
    let n := szBytes z
    let l := g.lane p
    let la := BitVec.ofInt 32 ((a.r32 l).toNat + (m.index.r32 l).toInt * n)
    let after := fun sp t => GroupBecomes s t c.gkey g (fun q => c.oneAfter p id q (g.lane q)) ∧ SameMemory s t ∧
      LocalBut s t home sp lo n (stored d z l)
    (s.Local g .scratch la n home lo → Answers (exec (.sts d a m z gd) s) (after .scratch)) ∧
    (s.Local g .deck (la ||| 0x80000000#32) n home lo → Answers (exec (.stk d a m z gd) s) (after .deck)) ∧
    (s.Local g .x la n home lo → Answers (exec (.stx d a m z gd) s) (after .x))

/-- Loads and stores of the local spaces: their bytes, and nothing else. -/
def Obligations.LocalAccessesMeetTheirBytes : Prop :=
  Claims.LocalLoads ∧ Claims.LocalStores

/-- R103, R341: SLD and SST access eight bytes once for the issuing set, whose lowest position is p; the cox accesses its own
memory below 0x10000 and physical memory above. -/
def Obligations.UniformAccessesMeetTheirBytes : Prop :=
  ∀ (d : UDst) (x a : USrc) (i : BitVec 13),
    (∀ s c g p pa s1, s.Runs c g → c.kholds 0 g.u = true → p < 32 → c.lanes.getLsbD p = true →
      (∀ q, q < p → c.lanes.getLsbD q = false) →
      let va := BitVec.ofInt 64 ((a.get g.u).toInt + i.toInt)
      (s.Reaches c g va 8 .load pa s1 → Answers (exec (.sld d a i) s) fun t =>
        GroupBecomes s t c.gkey { g with u := d.put false (BitVec.ofNat 64 (s1.num pa 8)) g.u }
          (fun q => if c.lanes.getLsbD q then c.advance (g.lane q) else g.lane q) ∧ t.teams = s.teams ∧ SameMemory s1 t) ∧
      (s.Reaches c g va 8 .store pa s1 → Answers (exec (.sst x a i) s) fun t =>
        GroupBecomes s t c.gkey g (fun q => if c.lanes.getLsbD q then c.advance (g.lane q) else g.lane q) ∧
        t.teams = s.teams ∧ MemoryBut s1 t pa 8 (x.get g.u).toNat)) ∧
    ∀ s c, s.RunsCox c →
      let k := (s.core c.core).cox
      let va := BitVec.ofInt 64 ((a.get k.u).toInt + i.toInt)
      c.kholds 0 k.u = true → va.toNat % 8 = 0 →
      (va.toNat < 0x10000 ∨ populated va.toNat = true ∧ s.owned 0 0 va.toNat 8 = false) →
      (exec (.sld d a i) s = .next (s.modCore c.core fun n =>
        let v := if va.toNat < 0x10000 then leNat (mread k.mem va.toNat 8) else s.num va.toNat 8
        { n with cox := Cox.advance c { k with u := d.put false (BitVec.ofNat 64 v) k.u } })) ∧
      Answers (exec (.sst x a i) s) fun t =>
        t.groups = s.groups ∧ t.teams = s.teams ∧
        (va.toNat < 0x10000 → SameMemory s t ∧ (t.core c.core).cox =
          Cox.advance c { k with mem := mwrite k.mem va.toNat (leBytes 8 (x.get k.u).toNat) }) ∧
        (0x10000 ≤ va.toNat → MemoryBut s t va.toNat 8 (x.get k.u).toNat ∧ (t.core c.core).cox = Cox.advance c k)

/-- R238-R241: the atomics on global memory. -/
def Sys2Proof.Claims.GlobalAtomics : Prop :=
  ∀ (d : LDst) (a b : LSrc) (r : Nat) (far : Bool) (gd : Nat),
    AtomicDoes (.atomgAdd d a b far gd) 4 d a (fun l => (b.r32 l).toNat) (fun _ => 0) far gd false
      (fun old b _ => some ((old + b) % 2 ^ 32)) ∧
    AtomicDoes (.atomgMinI d a b far gd) 4 d a (fun l => (b.r32 l).toNat) (fun _ => 0) far gd false
      (fun old b _ => some (if (BitVec.ofNat 32 b).toInt < (BitVec.ofNat 32 old).toInt then b else old)) ∧
    AtomicDoes (.atomgMaxI d a b far gd) 4 d a (fun l => (b.r32 l).toNat) (fun _ => 0) far gd false
      (fun old b _ => some (if (BitVec.ofNat 32 b).toInt < (BitVec.ofNat 32 old).toInt then old else b)) ∧
    AtomicDoes (.atomgAnd d a b far gd) 4 d a (fun l => (b.r32 l).toNat) (fun _ => 0) far gd false
      (fun old b _ => some (old &&& b)) ∧
    AtomicDoes (.atomgOr d a b far gd) 4 d a (fun l => (b.r32 l).toNat) (fun _ => 0) far gd false
      (fun old b _ => some (old ||| b)) ∧
    AtomicDoes (.atomgXor d a b far gd) 4 d a (fun l => (b.r32 l).toNat) (fun _ => 0) far gd false
      (fun old b _ => some (old ^^^ b)) ∧
    AtomicDoes (.atomgExch d a b far gd) 4 d a (fun l => (b.r32 l).toNat) (fun _ => 0) far gd false
      (fun _ b _ => some b) ∧
    AtomicDoes (.atomgCas d a r far gd) 4 d a (fun l => (l.reg r).toNat) (fun l => (l.reg (r + 1)).toNat) far gd true
      (fun old b swap => if old = b then some swap else none) ∧
    AtomicDoes (.atomgAddB64 d a b far gd) 8 d a (fun l => (b.r64 l).toNat) (fun _ => 0) far gd false
      (fun old b _ => some ((old + b) % 2 ^ 64)) ∧
    AtomicDoes (.atomgMinIB64 d a b far gd) 8 d a (fun l => (b.r64 l).toNat) (fun _ => 0) far gd false
      (fun old b _ => some (if (BitVec.ofNat 64 b).toInt < (BitVec.ofNat 64 old).toInt then b else old)) ∧
    AtomicDoes (.atomgMaxIB64 d a b far gd) 8 d a (fun l => (b.r64 l).toNat) (fun _ => 0) far gd false
      (fun old b _ => some (if (BitVec.ofNat 64 b).toInt < (BitVec.ofNat 64 old).toInt then old else b)) ∧
    AtomicDoes (.atomgAndB64 d a b far gd) 8 d a (fun l => (b.r64 l).toNat) (fun _ => 0) far gd false
      (fun old b _ => some (old &&& b)) ∧
    AtomicDoes (.atomgOrB64 d a b far gd) 8 d a (fun l => (b.r64 l).toNat) (fun _ => 0) far gd false
      (fun old b _ => some (old ||| b)) ∧
    AtomicDoes (.atomgXorB64 d a b far gd) 8 d a (fun l => (b.r64 l).toNat) (fun _ => 0) far gd false
      (fun old b _ => some (old ^^^ b)) ∧
    AtomicDoes (.atomgExchB64 d a b far gd) 8 d a (fun l => (b.r64 l).toNat) (fun _ => 0) far gd false
      (fun _ b _ => some b) ∧
    AtomicDoes (.atomgCasB64 d a r far gd) 8 d a (fun l => (l.reg r).toNat + 2 ^ 32 * (l.reg (r + 1)).toNat)
      (fun l => (l.reg (r + 2)).toNat + 2 ^ 32 * (l.reg (r + 3)).toNat) far gd true
      (fun old b swap => if old = b then some swap else none) ∧
    AtomicDoes (.atomgIncb d a b far gd) 4 d a (fun l => (b.r32 l).toNat) (fun _ => 0) far gd false
      (fun old b _ => if old < b then some (old + 1) else none) ∧
    AtomicDoes (.atomgDecb d a b far gd) 4 d a (fun l => (b.r32 l).toNat) (fun _ => 0) far gd false
      (fun old b _ => if b < old then some (old - 1) else none) ∧
    AtomicDoes (.atomgFadd d a b far gd) 4 d a (fun l => (b.r32 l).toNat) (fun _ => 0) far gd false
      (fun old b _ => some (fp32.rne (FVal.sum [fp32.value old, fp32.value b]))) ∧
    AtomicDoes (.atomgFmin d a b far gd) 4 d a (fun l => (b.r32 l).toNat) (fun _ => 0) far gd false
      (fun old b _ => some (fp32.minMax false old b)) ∧
    AtomicDoes (.atomgFmax d a b far gd) 4 d a (fun l => (b.r32 l).toNat) (fun _ => 0) far gd false
      (fun old b _ => some (fp32.minMax true old b)) ∧
    AtomicDoes (.atomgMinN d a b far gd) 4 d a (fun l => (b.r32 l).toNat) (fun _ => 0) far gd false
      (fun old b _ => some (if b < old then b else old)) ∧
    AtomicDoes (.atomgMaxN d a b far gd) 4 d a (fun l => (b.r32 l).toNat) (fun _ => 0) far gd false
      (fun old b _ => some (if b < old then old else b))

/-- R242: the atomics on the team's scratch and on the cluster's deck. -/
def Sys2Proof.Claims.LocalAtomics : Prop :=
  ∀ (d : LDst) (a b : LSrc) (r gd : Nat),
    LocalAtomicDoes (.atomsAdd d a b gd) d a (fun l => (b.r32 l).toNat) (fun _ => 0) gd false
      (fun old b _ => some ((old + b) % 2 ^ 32)) ∧
    LocalAtomicDoes (.atomsMinI d a b gd) d a (fun l => (b.r32 l).toNat) (fun _ => 0) gd false
      (fun old b _ => some (if (BitVec.ofNat 32 b).toInt < (BitVec.ofNat 32 old).toInt then b else old)) ∧
    LocalAtomicDoes (.atomsMaxI d a b gd) d a (fun l => (b.r32 l).toNat) (fun _ => 0) gd false
      (fun old b _ => some (if (BitVec.ofNat 32 b).toInt < (BitVec.ofNat 32 old).toInt then old else b)) ∧
    LocalAtomicDoes (.atomsAnd d a b gd) d a (fun l => (b.r32 l).toNat) (fun _ => 0) gd false
      (fun old b _ => some (old &&& b)) ∧
    LocalAtomicDoes (.atomsOr d a b gd) d a (fun l => (b.r32 l).toNat) (fun _ => 0) gd false
      (fun old b _ => some (old ||| b)) ∧
    LocalAtomicDoes (.atomsExch d a b gd) d a (fun l => (b.r32 l).toNat) (fun _ => 0) gd false
      (fun _ b _ => some b) ∧
    LocalAtomicDoes (.atomsCas d a r gd) d a (fun l => (l.reg r).toNat) (fun l => (l.reg (r + 1)).toNat) gd true
      (fun old b swap => if old = b then some swap else none) ∧
    LocalAtomicDoes (.atomsIncb d a b gd) d a (fun l => (b.r32 l).toNat) (fun _ => 0) gd false
      (fun old b _ => if old < b then some (old + 1) else none)

/-- Atomics return the old value, write the new one and close the region. -/
def Obligations.AtomicsReadAndReplace : Prop :=
  Claims.GlobalAtomics ∧ Claims.LocalAtomics

/-! ### Control, parallel execution -/

/-- R104-R106: branches and jumps. BRL sends each lane to its own side; BRA moves the whole set, of a group or of the cox;
JML sends each lane that takes part to its own target and leaves the following address in the link pair. -/
def Sys2Proof.Claims.BranchesAndJumps : Prop :=
  ∀ s c g, s.Runs c g →
    (∀ (p : Nat) (neg : Bool) (o : BitVec 18),
      let target := BitVec.ofInt 64 (c.addr.toNat + 4 * o.toInt)
      ((∃ q, q < 32 ∧ c.lanes.getLsbD q = true ∧ ((g.lane q).pred p != neg) = true) → s.Landed c.gkey target) →
      Answers (exec (.brl p neg o) s) fun t =>
        GroupBecomes s t c.gkey g (fun q =>
          if c.lanes.getLsbD q then
            { g.lane q with vpc := if (g.lane q).pred p != neg then target else c.next, rep := if (g.lane q).pred p != neg then 0 else (g.lane q).rep }
          else g.lane q) ∧ t.teams = s.teams ∧ SameMemory s t) ∧
    (∀ (k : Nat) (neg : Bool) (o : BitVec 21),
      let target := BitVec.ofInt 64 (c.addr.toNat + 4 * o.toInt)
      ((g.u.pred k != neg) = true → s.Landed c.gkey target) →
      Answers (exec (.bra k neg o) s) fun t =>
        GroupBecomes s t c.gkey g (fun q =>
          if c.lanes.getLsbD q && (g.u.pred k != neg) then { g.lane q with vpc := target, rep := 0 } else c.moved g q) ∧
        t.teams = s.teams ∧ SameMemory s t) ∧
    ∀ (d : LDst) (a : LSrc) (gd : Nat),
      (∀ q, (c.taking gd g).getLsbD q = true → s.Landed c.gkey (a.r64 (g.lane q))) →
      Answers (exec (.jml d a gd) s) fun t =>
        GroupBecomes s t c.gkey g (fun q =>
          if (c.taking gd g).getLsbD q then { d.set64 c.next (g.lane q) with vpc := a.r64 (g.lane q), rep := 0 }
          else c.moved g q) ∧ t.teams = s.teams ∧ SameMemory s t

/-- R14: CALL and CALLI leave the following address in s55, unpushed, and go to a function of the same width; RET outside
callees goes where s55 leads. The calls and RET close the region, taken or not. -/
def Sys2Proof.Claims.CallsAndReturn : Prop :=
  ∀ s c g, s.Runs c g → (∀ q, q < 32 → (g.lane q).nest = 0) →
    let entered := fun (target : DWord) (t : State) =>
      GroupBecomes s t c.gkey { g.closed c with u := { g.u with s := g.u.s.set 55 c.next, bad := g.u.bad &&& ~~~(1#72 <<< 55) } }
        (fun q => if c.lanes.getLsbD q then c.closeLane { g.lane q with vpc := target, rep := 0 } else g.lane q) ∧
      t.teams = s.teams ∧ SameMemory s t
    let passed := fun (t : State) =>
      GroupBecomes s t c.gkey (g.closed c) (c.movedClosed g) ∧ t.teams = s.teams ∧ SameMemory s t
    (∀ (k : Nat) (neg : Bool) (o : BitVec 21) (w : Word),
      let target := BitVec.ofInt 64 (c.addr.toNat + 4 * o.toInt)
      ((g.u.pred k != neg) = true → s.HasHeader c.gkey target 0 w → Answers (exec (.call k neg o) s) (entered target)) ∧
      ((g.u.pred k != neg) = false → Answers (exec (.call k neg o) s) passed)) ∧
    (∀ (a : USrc) (k : Nat) (w : Word),
      (c.kholds k g.u = true → s.HasHeader c.gkey (a.get g.u) 0 w →
        Answers (exec (.calli a k) s) (entered (a.get g.u))) ∧
      (c.kholds k g.u = false → Answers (exec (.calli a k) s) passed)) ∧
    ∀ k : Nat,
      (c.kholds k g.u = true → s.Landed c.gkey (g.u.reg 55) → Answers (exec (.ret k) s) fun t =>
        GroupBecomes s t c.gkey (g.closed c)
          (fun q => if c.lanes.getLsbD q then c.closeLane { g.lane q with vpc := g.u.reg 55, rep := 0 } else g.lane q) ∧
        t.teams = s.teams ∧ SameMemory s t) ∧
      (c.kholds k g.u = false → Answers (exec (.ret k) s) passed)

/-- R341: the same transfers on the cox, whose code and headers stand in its own memory (log entry 11). -/
def Sys2Proof.Claims.CoxControl : Prop :=
  ∀ s c, s.RunsCox c →
    let x := (s.core c.core).cox
    let good := fun a : DWord => a.toNat < 0x10000 ∧ a.toNat % 4 = 0
    let put := fun y : Cox => Host.Outcome.next (s.modCore c.core fun n => { n with cox := y })
    let jump := fun (a : DWord) (y : Cox) => { y with pc := a, rep := 0 }
    let linked : Cox := { x with u := { x.u with s := x.u.s.set 55 c.next, bad := x.u.bad &&& ~~~(1#72 <<< 55) } }
    let header := fun a : DWord =>
      let w := leNat (mread x.mem (a - 4).toNat 4)
      w / 2 ^ 25 = 0x5E ∧ w / 2 ^ 23 % 4 = 0 ∧ 1 ≤ w / 2 ^ 16 % 64 ∧ w / 2 ^ 16 % 64 ≤ 56
    (∀ (k : Nat) (neg : Bool) (o : BitVec 21),
      let target := BitVec.ofInt 64 (c.addr.toNat + 4 * o.toInt)
      ((x.u.pred k != neg) = true → good target → exec (.bra k neg o) s = put (jump target x)) ∧
      ((x.u.pred k != neg) = false → exec (.bra k neg o) s = put (Cox.advance c x)) ∧
      ((x.u.pred k != neg) = true → good target → good (target - 4) → header target →
        exec (.call k neg o) s = put (jump target linked)) ∧
      ((x.u.pred k != neg) = false → exec (.call k neg o) s = put (Cox.advance c x))) ∧
    (∀ (a : USrc) (k : Nat),
      (c.kholds k x.u = true → good (a.get x.u) → good (a.get x.u - 4) → header (a.get x.u) →
        exec (.calli a k) s = put (jump (a.get x.u) linked)) ∧
      (c.kholds k x.u = false → exec (.calli a k) s = put (Cox.advance c x))) ∧
    ∀ k : Nat,
      (c.kholds k x.u = true → good (x.u.reg 55) → exec (.ret k) s = put (jump (x.u.reg 55) x)) ∧
      (c.kholds k x.u = false → exec (.ret k) s = put (Cox.advance c x))

/-- Where branches, jumps, calls and returns go, of a group and of the cox. -/
def Obligations.ControlTransfers : Prop :=
  Claims.BranchesAndJumps ∧ Claims.CallsAndReturn ∧ Claims.CoxControl

/-- R13, R46, R51, R115, R340: GUARD and REP only give the unit under issue its guard and its count, 0 standing for 64 (a later
issue of the same word takes the count kept from its first, R53); HDR
and NOP only move on; REGION closes the region; YIELD moves on and, when it gives the seat up, clears the group's latches; of
the cox, all but the prefixes only move on. -/
def Sys2Proof.Claims.PlainForms : Prop :=
  (∀ s c (p n : Nat) (neg d a b : Bool), s.cur = some c →
    exec (.guard p neg) s = .next { s with cur := some { c with guard := some (p, neg) } } ∧
    exec (.rep n d a b) s = .next { s with cur := some { c with rep := some (if c.idx ≠ 0 then c.kept else if n = 0 then 64 else n, d, a, b) } }) ∧
  (∀ s c g, s.Runs c g →
    (∀ i, i = .nop ∨ (∃ r co f t, i = .hdr r co f t) → LanesAfter (exec i s) s c g (fun _ q => c.moved g q)) ∧
    (Answers (exec .region s) fun t =>
      GroupBecomes s t c.gkey (g.closed c) (c.movedClosed g) ∧ t.teams = s.teams ∧ SameMemory s t) ∧
    (c.kholds 0 g.u = false → LanesAfter (exec .yield s) s c g (fun _ q => c.moved g q)) ∧
    Answers (exec .yield s) fun t =>
      t.teams = s.teams ∧ SameMemory s t ∧
        (GroupBecomes s t c.gkey g (c.moved g) ∨
          GroupBecomes s t c.gkey { g with u := { g.u with q := Latches.invalid } }
            (fun q => { c.moved g q with l := Latches.invalid }))) ∧
  ∀ s c, s.RunsCox c → ∀ i, i = .nop ∨ i = .region ∨ i = .yield ∨ (∃ r co f t, i = .hdr r co f t) →
    exec i s = .next (s.modCore c.core fun n => { n with cox := Cox.advance c n.cox })

/-- R322, R323, R340, R341: BRK and TRAP, unless their guard is false, take the breakpoint trap 0x04 and the software trap
0x05 with its operand: the group stops at the unit, no lane moves on, and the report joins the queue of the core's cox, or
waits for it while the queue is full or another group waits before it; the cox itself notes the cause and the address and goes to its vector. A false guard
only moves on. -/
def Sys2Proof.Claims.SoftwareTraps : Prop :=
  (∀ s c g (a : USrc) i cause d1, s.Runs c g → c.kholds 0 g.u = true →
    (i = .brk ∧ cause = 4 ∧ d1 = 0 ∨ i = .trap a ∧ cause = 5 ∧ d1 = a.get g.u) →
    Answers (exec i s) fun t =>
      (∃ x, tget t.groups c.gkey = some { g with stop := some x } ∧ x.cause = cause ∧ x.unit = c.addr ∧ x.next = c.next ∧
        x.lanes = c.lanes ∧ x.d1 = d1 ∧ x.d2 = 0) ∧
      (∀ j, j ≠ c.gkey → tget t.groups j = tget s.groups j) ∧ t.teams = s.teams ∧ SameMemory s t ∧
      let q := (s.core (coreOf c.gkey)).reports
      let q' := (t.core (coreOf c.gkey)).reports
      if q.length < 64 ∧ (s.core (coreOf c.gkey)).trapWait = [] then
        ∃ r : Report, q' = q ++ [r] ∧ r.gkey = c.gkey ∧ r.cause = cause ∧ r.unit = c.addr ∧ r.region = g.region ∧ r.d1 = d1
      else q' = q ∧ (t.core (coreOf c.gkey)).trapWait = (s.core (coreOf c.gkey)).trapWait ++ [c.gkey]) ∧
  (∀ s c g (a : USrc) i, s.Runs c g → c.kholds 0 g.u = false → i = .brk ∨ i = .trap a →
    Answers (exec i s) fun t => GroupBecomes s t c.gkey g (c.moved g) ∧ t.teams = s.teams ∧ SameMemory s t) ∧
  ∀ s c (a : USrc) i cause, s.RunsCox c → (i = .brk ∧ cause = 4 ∨ i = .trap a ∧ cause = 5) →
    let x := (s.core c.core).cox
    (c.kholds 0 x.u = false → exec i s = .next (s.modCore c.core fun n => { n with cox := Cox.advance c x })) ∧
    (c.kholds 0 x.u = true → x.cause = 0 → exec i s = .next (s.modCore c.core fun n =>
      { n with cox := { x with cause := BitVec.ofNat 64 cause, epc := c.addr, pc := x.vec, rep := 0 } }))

/-- Forms that only move on, prefixes, and the traps of BRK and TRAP. -/
def Obligations.PlainFormsAndSoftwareTraps : Prop :=
  Claims.PlainForms ∧ Claims.SoftwareTraps

/-- R115, R140, R144, R174: EXIT ends the lanes of its set, which stay at it; JOIN.enrol adds the set to a rejoin mask;
JOIN.wait lets its lanes in the mask wait there until all of the mask wait or have exited, and then all go on and the mask is
clear. Stated while another lane of the group is active and no posted atomic of the group is outstanding (R239). -/
def Sys2Proof.Claims.ExitAndJoin : Prop :=
  ∀ s c g, s.Runs c g → s.Calm g → c.Others g → s.quiet c.gkey → c.kholds 0 g.u = true →
    (g.joins = Vector.replicate 4 0 → Answers (exec .exit s) fun t =>
      GroupBecomes s t c.gkey g (fun q => if c.lanes.getLsbD q then { g.lane q with state := .exited } else g.lane q) ∧
      t.teams = s.teams ∧ SameMemory s t) ∧
    ∀ j, j < 4 →
      (Answers (exec (.joinEnrol j) s) fun t =>
        GroupBecomes s t c.gkey { g with joins := g.joins.setIfInBounds j (g.joins[j]?.getD 0 ||| c.lanes) } (c.moved g) ∧
        t.teams = s.teams ∧ SameMemory s t) ∧
      ((∀ i, i ≠ j → (g.joins[i]?).getD 0 = 0) →
        let m := (g.joins[j]?).getD 0
        let waits := fun q => m.getLsbD q && c.lanes.getLsbD q || (g.lane q).state == .waiting (.join j) && !c.lanes.getLsbD q
        let done := m ≠ 0 ∧ ∀ q, q < 32 → m.getLsbD q = true → waits q = true ∨ (g.lane q).gone = true
        Answers (exec (.joinWait j) s) fun t =>
          t.teams = s.teams ∧ SameMemory s t ∧
          (done → GroupBecomes s t c.gkey { g with joins := g.joins.setIfInBounds j 0 } (fun q =>
            if m.getLsbD q && waits q then { c.moved g q with state := .active } else c.moved g q)) ∧
          (¬ done → GroupBecomes s t c.gkey g (fun q =>
            if m.getLsbD q && c.lanes.getLsbD q then { c.moved g q with state := .waiting (.join j) } else c.moved g q)))

/-- R142, R146, R175-R177: ELECT names the lane of the lowest lid, in a register and in a predicate; PARTITION writes a
partition register; LMAP reads the lid held at a position, all ones where it is absent. -/
def Sys2Proof.Claims.ElectionAndLayout : Prop :=
  ∀ s c g, s.Runs c g → c.kholds 0 g.u = true →
    (∀ (d : UDst) (n p : Nat), p < 32 → c.lanes.getLsbD p = true →
      (∀ q, q < 32 → c.lanes.getLsbD q = true → (g.lane p).lid.toNat < (g.lane q).lid.toNat ∨
        ((g.lane p).lid = (g.lane q).lid ∧ p ≤ q)) →
      Answers (exec (.elect d n) s) fun t =>
        GroupBecomes s t c.gkey { g with u := d.put false (BitVec.ofNat 64 (g.lane p).lid.toNat) g.u } (fun q =>
          if c.lanes.getLsbD q then (c.advance (g.lane q)).setPred n (decide (q = p)) else g.lane q) ∧
        t.teams = s.teams ∧ SameMemory s t) ∧
    (∀ (n : Nat) (b : USrc) i x, (i = .partitionWhole n ∧ x = ⟨.whole, 0⟩) ∨ (i = .partitionB4 n ∧ x = ⟨.b4, 0⟩) ∨
        (i = .partitionB8 n ∧ x = ⟨.b8, 0⟩) ∨ (i = .partitionB16 n ∧ x = ⟨.b16, 0⟩) ∨
        (i = .partitionMask n b ∧ x = ⟨.mask, BitVec.ofNat 32 (b.get g.u).toNat⟩) →
      Answers (exec i s) fun t =>
        GroupBecomes s t c.gkey { g with parts := g.parts.setIfInBounds n x } (c.moved g) ∧ t.teams = s.teams ∧
        SameMemory s t) ∧
    ∀ (d : UDst) (b : USrc),
      let l := g.lane ((b.get g.u).toNat % 32)
      Answers (exec (.lmap d b) s) fun t =>
        GroupBecomes s t c.gkey
          { g with u := d.put false (if l.state = .absent then BitVec.allOnes 64 else BitVec.ofNat 64 l.lid.toNat) g.u }
          (c.moved g) ∧
        t.teams = s.teams ∧ SameMemory s t

/-- EXIT, JOIN, ELECT, PARTITION and LMAP. -/
def Obligations.ExitsJoinsAndElections : Prop :=
  Claims.ExitAndJoin ∧ Claims.ElectionAndLayout

/-- R146, R171-R173, R177: the lanes of a barrier's set, of a REGROUP's and of a GATHER's park past their unit, which closes
the region, and the arrival is noted; they stay parked while another lane of the group is active. A BAR.mask parks those lanes
whose rank is in the mask and completes for them once every lane of the mask is there; mask 0 is none. -/
def Sys2Proof.Claims.BarrierArrivals : Prop :=
  ∀ s c g, s.Runs c g → s.Calm g → g.joins = Vector.replicate 4 0 → c.Others g → c.Running g → s.quiet c.gkey →
    c.kholds 0 g.u = true →
    let parks := fun (w : ParkWhy) (q : Nat) =>
      if c.lanes.getLsbD q then c.closeLane { c.advance (g.lane q) with state := .parked w } else g.lane q
    let noted := fun (f : TeamBar → TeamBar) (t : State) => ∀ tm, tget s.teams g.tid = some tm →
      tget t.teams g.tid = some { tm with bar := f tm.bar }
    (∀ i b f, (i = .barTeam ∧ b = .team ∧ f = fun x => { x with plain := true }) ∨
        (i = .barTeamYield ∧ b = .teamYield ∧ f = fun x => { x with yield := true }) ∨
        (i = .barClus ∧ b = .clus ∧ f = id) →
      Answers (exec i s) fun t => GroupBecomes s t c.gkey (g.closed c) (parks (.barrier b)) ∧ SameMemory s t ∧ noted f t) ∧
    (Answers (exec .regroup s) fun t => GroupBecomes s t c.gkey (g.closed c) (parks .regroup) ∧ SameMemory s t) ∧
    (∀ (a : USrc) (team : Bool), Answers (exec (.gather a team) s) fun t =>
      GroupBecomes s t c.gkey (g.closed c) (parks (.gather team (a.get g.u) c.addr)) ∧ SameMemory s t ∧ t.teams = s.teams) ∧
    ∀ a : USrc,
      let m := BitVec.ofNat 32 (a.get g.u).toNat
      let inside := fun q => c.lanes.getLsbD q && m.getLsbD (g.rank 0 q)
      let all := ∀ q, q < 32 → (g.lane q).gone = false → m.getLsbD (g.rank 0 q) = true → c.lanes.getLsbD q = true
      (∀ q, (g.lane q).state ≠ .parked (.barrier .mask)) →
      Answers (exec (.barMask a) s) fun t => SameMemory s t ∧ t.teams = s.teams ∧
        (m = 0 ∨ all → GroupBecomes s t c.gkey (g.closed c)
          (fun q => if inside q then { c.movedClosed g q with state := .active } else c.movedClosed g q)) ∧
        (m ≠ 0 → ¬ all → GroupBecomes s t c.gkey { g.closed c with barMask := some ⟨m, m, none⟩ }
          (fun q => if inside q then parks (.barrier .mask) q else c.movedClosed g q))

/-- R171: where the issuing set is all of the only group of a team, BAR.team completes at once: the lanes go on and the
arrival is forgotten. -/
def Sys2Proof.Claims.TeamBarrierCompletes : Prop :=
  ∀ s c g tm, s.Runs c g → s.Calm g → g.joins = Vector.replicate 4 0 → c.Running g → s.quiet c.gkey →
    c.kholds 0 g.u = true → c.lanes ≠ 0 → (c.lanes = g.where fun l => !l.gone) → rising s.groups = true →
    s.ownGroups g.tid = [(c.gkey, g)] → tget s.teams g.tid = some tm → tm.bar.yield = false →
    Answers (exec .barTeam s) fun t =>
      GroupBecomes s t c.gkey (g.closed c)
        (fun q => if c.lanes.getLsbD q then c.closeLane { c.advance (g.lane q) with state := .active } else g.lane q) ∧
      SameMemory s t ∧ tget t.teams g.tid = some { tm with bar := ⟨false, false⟩ }

/-- Barrier, REGROUP and GATHER arrivals park their lanes; a barrier that all have reached lets them go on. -/
def Obligations.BarriersParkAndComplete : Prop :=
  Claims.BarrierArrivals ∧ Claims.TeamBarrierCompletes

/-- R166, R167: the exchanges. A contributor reads the value of the member of the rank its form names. -/
def Sys2Proof.Claims.Exchanges : Prop :=
  ∀ (d : LDst) (a b : LSrc) (n : Bool) (x : Nat),
    CollectiveDoes (.xidx d a b n x) 0 (fun _ c g p l l' =>
      l' = d.put32 n (c.exchanged g x p a (b.r32 l).toNat) l) ∧
    CollectiveDoes (.xxor d a b n x) 0 (fun _ c g p l l' =>
      l' = d.put32 n (c.exchanged g x p a ((g.rank x p ^^^ ((b.r32 l).toNat % 32) : Nat) : Int)) l) ∧
    CollectiveDoes (.xrot d a b n x) 0 (fun _ c g p l l' =>
      l' = d.put32 n (c.exchanged g x p a (((g.rank x p + (b.r32 l).toNat) % (g.members x p).length : Nat) : Int)) l) ∧
    CollectiveDoes (.xshift d a b n x) 0 (fun _ c g p l l' =>
      l' = d.put32 n (c.exchanged g x p a ((g.rank x p : Int) + (b.r32 l).toInt)) l) ∧
    CollectiveDoes (.xlid d a b n) 0 (fun _ c g _ l l' =>
      l' = d.put32 n
        (match (g.members 0 0).find? fun q => (g.lane q).lid = b.r32 l with
        | some q => if (c.taking 0 g).getLsbD q then a.r32 (g.lane q) else a.r32 l
        | none => a.r32 l) l)

/-- R168, R169: votes, matching, compaction, ranks of a mask. -/
def Sys2Proof.Claims.VotesAndMatching : Prop :=
  ∀ (d : LDst) (a : LSrc) (n : Bool) (x p q : Nat),
    CollectiveDoes (.pany p q x) 0 (fun _ c g i l l' =>
      l' = l.setPred p ((c.contributors g x i).any fun j => (g.lane j).pred q)) ∧
    CollectiveDoes (.pall p q x) 0 (fun _ c g i l l' =>
      l' = l.setPred p ((c.contributors g x i).all fun j => (g.lane j).pred q)) ∧
    CollectiveDoes (.pmask d q n x) 0 (fun _ c g i l l' =>
      l' = d.put32 n (ofBits fun r => ((g.members x i)[r]?).any fun j =>
        (c.taking 0 g).getLsbD j && (g.lane j).pred q) l) ∧
    CollectiveDoes (.matchEq d a n x) 0 (fun _ c g i l l' =>
      l' = d.put32 n (ofBits fun r => ((g.members x i)[r]?).any fun j =>
        (c.taking 0 g).getLsbD j && decide (a.r32 (g.lane j) = a.r32 l)) l) ∧
    CollectiveDoes (.compact d a q n x) 0 (fun _ c g i l l' =>
      l' = d.put32 n
        ((((c.contributors g x i).filter fun j => (g.lane j).pred q)[g.rank x i]?.map fun j => a.r32 (g.lane j)).getD 0) l) ∧
    CollectiveDoes (.mrank d a n x) 0 (fun _ _ g i l l' =>
      l' = d.put32 n (BitVec.ofNat 32 ((List.range 32).filter fun j => (a.r32 l).getLsbD j && decide (j < g.rank x i)).length) l)

/-- What exchanges, votes, matching and compaction give. -/
def Obligations.ExchangesAndVotes : Prop :=
  Claims.Exchanges ∧ Claims.VotesAndMatching

/-- R33, R170: reductions and the exclusive scan. A minimum or maximum is a contributed value that no other passes, by
totalOrder for `.f`; RED.fadd rounds the exact sum once. -/
def Sys2Proof.Claims.Reductions : Prop :=
  ∀ (d : LDst) (a : LSrc) (n : Bool) (x : Nat),
    let vals := fun (c : Issue) (g : Group) i => (c.contributors g x i).map fun j => a.r32 (g.lane j)
    let best := fun (le : Word → Word → Prop) (c : Issue) (g : Group) i (l l' : Lane) =>
      ∃ w, w ∈ vals c g i ∧ (∀ y ∈ vals c g i, le w y) ∧ l' = d.put32 n w l
    CollectiveDoes (.redAdd d a n x) 0 (fun _ c g i l l' =>
      l' = d.put32 n (BitVec.ofNat 32 ((vals c g i).map (·.toNat)).sum) l) ∧
    CollectiveDoes (.redFadd d a n x) 0 (fun _ c g i l l' =>
      l' = d.put32 n (w32 (fp32.rne (FVal.sum ((vals c g i).map fun y => fp32.value y.toNat)))) l) ∧
    CollectiveDoes (.redMinI d a n x) 0 (fun _ c g i l l' => best (fun w y => w.toInt ≤ y.toInt) c g i l l') ∧
    CollectiveDoes (.redMaxI d a n x) 0 (fun _ c g i l l' => best (fun w y => y.toInt ≤ w.toInt) c g i l l') ∧
    CollectiveDoes (.redMinN d a n x) 0 (fun _ c g i l l' => best (fun w y => w.toNat ≤ y.toNat) c g i l l') ∧
    CollectiveDoes (.redMaxN d a n x) 0 (fun _ c g i l l' => best (fun w y => y.toNat ≤ w.toNat) c g i l l') ∧
    CollectiveDoes (.redMinF d a n x) 0
      (fun _ c g i l l' => best (fun w y => orderKey 32 w.toNat ≤ orderKey 32 y.toNat) c g i l l') ∧
    CollectiveDoes (.redMaxF d a n x) 0
      (fun _ c g i l l' => best (fun w y => orderKey 32 y.toNat ≤ orderKey 32 w.toNat) c g i l l') ∧
    CollectiveDoes (.scanAdd d a n x) 0 (fun _ c g i l l' =>
      l' = d.put32 n (BitVec.ofNat 32
        (((c.contributors g x i).filter fun j => g.rank x j < g.rank x i).map fun j => (a.r32 (g.lane j)).toNat).sum) l)

/-- R178-R180: the fragment product. Each lane that takes part gets its eight elements of C, row p mod 16, columns from
8 (p div 16) on; nothing else of the lane changes. -/
def Sys2Proof.Claims.Fragments : Prop :=
  ∀ (d a b sel gd : Nat) (u acc : Bool) (f : Fmt) i,
    (i = .mfragBf16 d a b u acc gd ∧ f = .bf16 ∧ sel = 0) ∨ (i = .mfragF16 d a b u acc gd ∧ f = .f16 ∧ sel = 0) ∨
    (i = .mfragE4m3 d a b u acc gd ∧ f = .e4m3 ∧ sel = 0) ∨ (i = .mfragE5m2 d a b u acc gd ∧ f = .e5m2 ∧ sel = 0) ∨
    (i = .mfragF4b d a b u sel acc gd ∧ f = .f4b) ∨ (i = .mfragI8 d a b u acc gd ∧ f = .i8 ∧ sel = 0) →
    d + 8 ≤ 56 →
    CollectiveDoes i gd (fun s c g p l l' =>
      let nbv := ((tget s.teams g.tid).map (·.desc.nbv)).getD 1
      (∀ j, j < 8 → l'.reg (d + j) = fragC f g (c.taking gd g) nbv a b sel (if acc then l.reg (d + j) else 0) (p % 16)
        (8 * (p / 16) + j)) ∧
      (∀ r, r < d ∨ d + 8 ≤ r → l'.reg r = l.reg r) ∧ l' = { l with v := l'.v, bad := l'.bad })

/-- What reductions, the scan and the fragment product give. -/
def Obligations.ReductionsAndFragments : Prop :=
  Claims.Reductions ∧ Claims.Fragments

/-- R108, R110, R111: JSEG goes to its target when an entry equal to its descriptor has landed, and otherwise starts the landing
and holds its group; CFETCH starts a landing and moves on. That both wait, and invalidate nothing, while the landing table has
no EMPTY entry, and that an object address of 0 is no object, is the model's choice (log entries 24 and 38). -/
def Sys2Proof.Claims.CodeLanding : Prop :=
  ∀ (a b : USrc) s c g tm p pa s1 d, s.Runs c g → c.kholds 0 g.u = true → g.hold = none →
    tget s.teams g.tid = some tm → c.First p → s.Reaches c g (a.get g.u) 16 .load pa s1 →
    SegDesc.parse (s1.num pa 16) = some d → tm.winFirst ≤ d.bayline → d.bayline + d.lines ≤ tm.winFirst + tm.winLines →
    let k := s.core (coreOf c.gkey)
    let target := b.get g.u
    (target >>> 54 = 0 → target.toNat % 4 = 0 → d.base ≤ target.toNat → target.toNat < d.base + 256 * d.lines →
      (∀ e, k.equalEntry d = some e → e.state = .landed → Answers (exec (.jseg a b) s) fun t =>
        GroupBecomes s t c.gkey g
          (fun q => if c.lanes.getLsbD q then { g.lane q with vpc := target, rep := 0 } else g.lane q) ∧
        t.teams = s.teams ∧ SameMemory s1 t) ∧
      ∀ k', k.equalEntry d = none → k.startLanding g.tid tm.desc.asid tm.allot d [] = some k' → Answers (exec (.jseg a b) s) fun t =>
        GroupBecomes s t c.gkey { g with hold := some (.jseg c.addr c.lanes target d.lines d.bayline d.base) } g.lane ∧
        (t.core (coreOf c.gkey)).land = k'.land ∧ t.teams = s.teams ∧ SameMemory s1 t) ∧
    ∀ k', target >>> 54 = 0 → target.toNat % 16 = 0 → k.equalEntry d = none →
      k.startLanding g.tid tm.desc.asid tm.allot d (if target = 0 then [] else [(tm.desc.asid, target.toNat)]) = some k' →
      Answers (exec (.cfetch a b) s) fun t =>
        GroupBecomes s t c.gkey g (c.moved g) ∧ (t.core (coreOf c.gkey)).land = k'.land ∧ t.teams = s.teams ∧
        SameMemory s1 t

/-- R112, R113: CINV drops the landed entries that it names and marks those still landing; CINV.sync, where none is landing
and no other group's loop buffer holds a word of the range, does the same and moves on. That it names entries of other teams
wherever they overlap the range, if they have a line in its team's window, is the model's choice (log entry 38). -/
def Sys2Proof.Claims.CodeInvalidation : Prop :=
  ∀ (a b : USrc) s c g tm, s.Runs c g → c.kholds 0 g.u = true → tget s.teams g.tid = some tm →
    let k := s.core (coreOf c.gkey)
    let names := cinvNames g.tid tm (a.get g.u) (b.get g.u)
    (Answers (exec (.cinv a b) s) fun t =>
      GroupBecomes s t c.gkey g (c.moved g) ∧ t.teams = s.teams ∧ SameMemory s t ∧
      (t.core (coreOf c.gkey)).land = (k.land.filter fun e => !names e || e.state == .landing).map fun e =>
        if names e then { e with dead := true } else e) ∧
    (g.hold = none → (∀ e ∈ k.land, names e = true → e.state = .landed) →
      (∀ x ∈ k.seats.toList, ∀ y, x.loop = some y → y.gkey ≠ c.gkey →
        y.base + 4 * y.words.length ≤ (a.get g.u).toNat ∨
          min ((a.get g.u).toNat + (b.get g.u).toNat) (2 ^ 54) ≤ y.base) →
      Answers (exec (.cinvSync a b) s) fun t =>
        GroupBecomes s t c.gkey g (c.moved g) ∧ t.teams = s.teams ∧ SameMemory s t ∧
        (t.core (coreOf c.gkey)).land = k.land.filter fun e => !names e)

/-- R109, R113: at the end of a landing the segment's bytes stand in the code bay at the entry's lines, and the entry, unless
it was invalidated meanwhile, is LANDED and the youngest. That the bay takes the bytes of the copies in the order in which they
end, and that cells give their bytes as they stand, is the model's choice (log entry 38). -/
def Sys2Proof.Claims.LandingEnds : Prop :=
  ∀ s core slot e bs s1, (s.core core).land[slot]? = some e → e.state = .landing → e.cobjs = [] →
    s.segmentBytes core e.asid e.base e.lines = .ok (bs, s1) →
    Answers (exec (.landingComplete core slot) s) fun t =>
      t.groups = s.groups ∧ t.teams = s.teams ∧ SameMemory s1 t ∧
      (t.core core).land = ((s.core core).land.filter fun x => x.age != e.age) ++
        (if e.dead then [] else [{ e with state := .landed, held := false }]) ∧
      ∀ i, mrd (t.core core).bay i =
        if 256 * e.bayline ≤ i ∧ i < 256 * e.bayline + bs.length then bs[i - 256 * e.bayline]?.getD 0
        else mrd (s.core core).bay i

/-- JSEG, CFETCH, CINV and the end of a landing. -/
def Obligations.CodeLandsAndIsInvalidated : Prop :=
  Claims.CodeLanding ∧ Claims.CodeInvalidation ∧ Claims.LandingEnds

/-- R148-R150, R152: a WIDEN of one caller for 1 to 32 invocations, while lane slots and register pages of the team and a group
slot of the core (R137, R138) are left, opens a fresh group whose first block runs them, each with its widen index as lid, the caller's v0 to v7 below the frame, an lrng of its own, false
predicates, the calling group's uniform registers and the token of its level in s55; the caller waits. -/
def Obligations.WidenedCallsOpen : Prop :=
  ∀ (a : USrc) (b : LSrc) s c g tm p w, s.Runs c g → c.kholds 0 g.u = true → p < 32 → c.lanes = 1#32 <<< p →
    let l := g.lane p
    let n := (b.r32 l).toNat
    let size := if n ≤ 4 then 4 else if n ≤ 8 then 8 else if n ≤ 16 then 16 else 32
    let frame := w.toNat / 2 ^ 16 % 64
    s.HasHeader c.gkey (a.get g.u) 1 w → (∀ r, r < 4 → w.toNat / 16 ^ r % 16 ≠ 15) → l.nest < 8 → 1 ≤ n → n ≤ 32 →
    s.quiet c.gkey → tget s.teams g.tid = some tm → tm.core = coreOf c.gkey → size / 4 ≤ tm.quota → 1 ≤ tm.wslots →
    s.calls = [] → (∃ k, k < 64 ∧ tget s.groups (64 * coreOf c.gkey + k) = none) →
    Answers (exec (.widen a b) s) fun t =>
      SameMemory s t ∧ tget t.teams g.tid = some { tm with quota := tm.quota - size / 4, wslots := tm.wslots - 1 } ∧
      ∃ key id h, coreOf key = coreOf c.gkey ∧ tget s.groups key = none ∧ tget t.groups key = some h ∧
        (∃ g', tget t.groups c.gkey = some g' ∧ g' = { g.closed c with lanes := g'.lanes } ∧
          ∀ q, q < 32 → g'.lane q =
            if q = p then c.closeLane { l with state := .waiting (.widen id), vpc := c.next, rep := 0 } else g.lane q) ∧
        h.kind = .fresh id ∧ h.tid = g.tid ∧ h.frame = frame ∧ h.u.reg 55 = BitVec.ofNat 64 (2 ^ 63 + (l.nest + 1)) ∧
        (∀ r, r < 55 → h.u.reg r = g.u.reg r) ∧
        ∀ q, q < 32 →
          if q < n then
            (h.lane q).state = .active ∧ (h.lane q).vpc = a.get g.u ∧ (h.lane q).lid = BitVec.ofNat 32 q ∧
            (h.lane q).nest = l.nest + 1 ∧
            (h.lane q).lrng = BitVec.ofNat 64 (l.lrng.toNat + q * 0x9E3779B97F4A7C15) ∧
            (∀ r, r < 8 → r < frame → (h.lane q).reg r = l.reg r) ∧ (∀ r, 8 ≤ r → (h.lane q).reg r = 0) ∧
            ∀ r, 0 < r → (h.lane q).pred r = false
          else (h.lane q).state = .absent

/-- R153, R164: the RET of the last lane of a parallel invocation, its call having one caller x in another group, forms the
caller's v0 to v3 from the contributions in widen-index order, frees the fresh group and what it was charged, and sends the
caller on. -/
def Sys2Proof.Claims.WidenReturns : Prop :=
  ∀ s c g p id w x gc tm b k, s.Runs c g → c.kholds k g.u = true → p < 32 → c.lanes = 1#32 <<< p →
    s.inner c.gkey g p = .widened id → g.u.reg 55 = BitVec.ofNat 64 (2 ^ 63 + (g.lane p).nest) →
    g.blockAt p = some b → b.caller = 0 → tget s.calls id = some w → w.callers = [x] → x.mode = .fresh → x.s55 = none →
    x.ended + 1 = x.count → w.groups = [c.gkey] → w.gkey ≠ c.gkey → tget s.groups w.gkey = some gc →
    x.pos < 32 → (gc.lane x.pos).gone = false → tget s.teams w.tid = some tm → s.quiet c.gkey →
    Answers (exec (.ret k) s) fun t =>
      let l := g.lane p
      let got := x.got ++ [⟨b.base + (p - b.start), [l.reg 0, l.reg 1, l.reg 2, l.reg 3]⟩]
      let order := sortBy id (got.map (·.idx))
      SameMemory s t ∧ tget t.groups c.gkey = none ∧ tget t.calls id = none ∧
      tget t.teams w.tid = some { tm with quota := tm.quota + w.charge, wslots := tm.wslots + 1 } ∧
      ∃ g', tget t.groups w.gkey = some g' ∧
        (∀ q, q < 32 → q ≠ x.pos → g'.lane q = gc.lane q) ∧ (g'.lane x.pos).state = .active ∧
        (g'.lane x.pos).vpc = w.next ∧ (g'.lane x.pos).l = Latches.invalid ∧
        (∀ r, 4 ≤ r → (g'.lane x.pos).reg r = (gc.lane x.pos).reg r) ∧
        ∀ r, r < 4 → (g'.lane x.pos).reg r = reduceCode (w.hdr.toNat / 16 ^ r % 16)
          (order.filterMap fun i => (got.find? fun y => y.idx == i).map fun y => y.v[r]?.getD 0)
          ((gc.lane x.pos).reg r)

/-- R165: in a gather callee thread, GARG reads and GRES writes word b mod 8 of the slot of caller a; of a caller that is not
there GARG reads 0 and GRES writes nothing. -/
def Sys2Proof.Claims.GatherArea : Prop :=
  ∀ s c g p tid f tm, s.Runs c g → p < 32 → c.lanes = 1#32 <<< p → s.threadFiring c.gkey g p = some (tid, f) →
    s.uncoupled c.gkey g c.lanes = [] → tget s.teams tid = some tm →
    let l := g.lane p
    let size := (f.runs.head?.map fun r => r.callers.length).getD 0
    ∀ (d : LDst) (v a b : LSrc) (n : Bool) (x : Nat),
      let i := (a.r32 l).toNat
      let j := 8 * i + (b.r32 l).toNat % 8
      (Answers (exec (.garg d a b n x) s) fun t =>
        GroupBecomes s t c.gkey g (fun q => c.oneAfter p (fun l =>
          if c.holds 0 l then d.put32 n (if i < size then (tget tm.gather j).getD 0 else 0) l else l) q (g.lane q)) ∧
        t.teams = s.teams ∧ SameMemory s t) ∧
      Answers (exec (.gres v a b x) s) fun t =>
        GroupBecomes s t c.gkey g (fun q => c.oneAfter p (fun l => l) q (g.lane q)) ∧ SameMemory s t ∧
        tget t.teams tid = some
          (if c.holds 0 l && i < size then { tm with gather := tset tm.gather j (v.r32 l) } else tm)

/-- The last return of a widened call gives its caller its results; the argument area of gather callees. -/
def Obligations.WidenedCallsReturn : Prop :=
  Claims.WidenReturns ∧ Claims.GatherArea

/-! ### Fences, cells -/

/-- R195, R213, R243: FENCE, FENCE.acq and FENCE.rel move on once nothing posted is left; after an acquire at `.clus` or wider
no line that L1 holds serves the group's later loads. FENCE.sc takes its number at its first issue and holds its group; with no
posted atomic of its core and no access at a peer left it names the next stroke tick, waits for it, and then takes its place in
the order S: by tick, then core, then seat, then order of first issue. That FENCE.sc is an acquire of its scope too is the
model's reading (log entry 26). -/
def Sys2Proof.Claims.Fences : Prop :=
  ∀ (n : Nat) s c g, s.Runs c g → c.kholds 0 g.u = true → s.quiet c.gkey →
    (∀ x ∈ (s.core (coreOf c.gkey)).l1, x.2 ≤ (s.core (coreOf c.gkey)).l1Time) →
    let after := fun (h : Group) (t : State) =>
      GroupBecomes s t c.gkey h (c.moved g) ∧ t.teams = s.teams ∧ SameMemory s t
    let misses := fun (t : State) => 2 ≤ n → ∀ g' line, tget t.groups c.gkey = some g' →
      (t.core (coreOf c.gkey)).hit g'.acq line = false
    (Answers (exec (.fence n) s) fun t => after g t ∧ misses t) ∧
    (Answers (exec (.fenceAcq n) s) fun t => after g t ∧ misses t) ∧
    (Answers (exec (.fenceRel n) s) fun t => after g t ∧ t.cores = s.cores) ∧
    let upTo := fun (x y : DWord × Nat × Nat × Nat) => x.1.toNat < y.1.toNat ∨ x.1 = y.1 ∧ (x.2.1 < y.2.1 ∨ x.2.1 = y.2.1 ∧
      (x.2.2.1 < y.2.2.1 ∨ x.2.2.1 = y.2.2.1 ∧ x.2.2.2 ≤ y.2.2.2))
    let holds := fun (tick : Option DWord) (i : Nat) (t : State) =>
      GroupBecomes s t c.gkey { g with hold := some (.scFence c.addr c.lanes tick i) } g.lane ∧ t.teams = s.teams ∧
      SameMemory s t ∧ t.scOrder = s.scOrder
    let core := coreOf c.gkey
    (∀ tick i, g.hold = some (.scFence c.addr c.lanes (some tick) i) → tick.toNat ≤ s.stroke.toNat → Answers (exec (.fenceSc n) s) fun t =>
      after { g with hold := none } t ∧ misses t ∧
      t.scOrder.Perm ((tick, coreOf c.gkey, seatOf c.gkey, i) :: s.scOrder) ∧
      (s.scOrder.Pairwise upTo → t.scOrder.Pairwise upTo)) ∧
    (∀ tick i, g.hold = some (.scFence c.addr c.lanes (some tick) i) → s.stroke.toNat < tick.toNat →
      exec (.fenceSc n) s = .next { s with cur := none }) ∧
    (g.hold = none → (s.core core).posted = [] → Answers (exec (.fenceSc n) s) (holds (some (s.stroke + 1)) s.nextId)) ∧
    (∀ i, g.hold = some (.scFence c.addr c.lanes none i) → (s.core core).posted = [] →
      Answers (exec (.fenceSc n) s) (holds (some (s.stroke + 1)) i)) ∧
    (g.hold = none → (∃ x ∈ (s.core core).posted, x.wait.isSome = true) → (∀ x ∈ (s.core core).posted, x.wait.isSome = true) →
      Answers (exec (.fenceSc n) s) (holds none s.nextId))

/-- R244: CWAIT reads the count of an object at home: where it has reached the count asked for the lanes move on, else they
park for that object, by its physical address. -/
def Sys2Proof.Claims.WaitsForObjects : Prop :=
  ∀ (a b : USrc) s c g p pa s1, s.Runs c g → c.kholds 0 g.u = true → c.First p → (a.get g.u).toNat % 16 = 0 →
    s.Reaches c g (a.get g.u) 4 .load pa s1 →
    Answers (exec (.cwait a b) s) fun t => SameMemory s1 t ∧ t.teams = s.teams ∧
      if (b.get g.u).toNat % 2 ^ 32 ≤ s1.num pa 4 then GroupBecomes s t c.gkey g (c.moved g)
      else GroupBecomes s t c.gkey g (fun q =>
        if c.lanes.getLsbD q then { g.lane q with state := .parked (.cwait pa) } else g.lane q)

/-- FENCE in its four forms, and CWAIT. -/
def Obligations.FencesAndObjectWaits : Prop :=
  Claims.Fences ∧ Claims.WaitsForObjects

/-- R223, R245-R249: the cell instructions at a tagged cell. SUSPEND writes the record of its four registers with its team's
address space and tags the cell SUSPENDED; TOUCH passes a cell in VALUE, and an untagged page; FULFILL of the evaluator writes
rsize bytes and zeros, tags the cell VALUE and frees its entry, and wakes its waiters; CELLTAG reads a tag, or sets one, with
the old tag as its result. All close the region. That rsize is the record's at the trigger, and that TOUCH of a cell in VALUE is
an acquire, is the model's reading (log entries 26 and 27). -/
def Sys2Proof.Claims.CellInstructions : Prop :=
  ∀ (a x : USrc) (b : Nat) (d : UDst) s c g pa s1, s.Runs c g → c.kholds 0 g.u = true →
    let va := a.get g.u
    let after := fun (h : Group) (t : State) => GroupBecomes s t c.gkey h (c.movedClosed g)
    (s.CellAt c g va .store pa s1 →
      let n := g.u.run b 4
      let r := n - n / 2 ^ 142 % 2 ^ 12 * 2 ^ 142 + s.asidOf g % 2 ^ 12 * 2 ^ 142
      (cellRecOk r = true → r / 2 ^ 197 % 2 ^ 49 = va.toNat / 32 → s1.tag pa ≠ tagEvaluating →
        Answers (exec (.suspend a b) s) fun t =>
          after (g.closed c) t ∧ t.teams = s.teams ∧ CellBecomes s1 t pa r tagSuspended) ∧
      (∀ e, s1.tag pa = tagEvaluating → s1.evaluation pa = some e → e.team = some g.tid → e.waiters = [] →
        e.pa = pa → e.rsize ≤ 32 → Answers (exec (.fulfill a b) s) fun t =>
          after (g.closed c) t ∧ t.teams = s.teams ∧ CellBecomes s1 t pa (n % 256 ^ e.rsize) tagValue ∧
          t.evaluation pa = none) ∧
      ((x.get g.u).getLsbD 2 = false → s1.tag pa ≠ tagEvaluating → (x.get g.u).toNat % 4 ≠ 2 →
        Answers (exec (.celltag a x d) s) fun t =>
          after (Group.closed { g with u := d.put false (BitVec.ofNat 64 (s1.tag pa).toNat) g.u } c) t ∧
          t.teams = s.teams ∧ (∀ i, t.byte i = s1.byte i) ∧
          ∀ i, t.tag i = if i / 32 = pa / 32 then BitVec.ofNat 2 (x.get g.u).toNat else s1.tag i)) ∧
    (s.CellAt c g va .load pa s1 →
      (s1.tag pa = tagValue → Answers (exec (.touch a) s) fun t =>
        after (g.closed c) t ∧ t.teams = s.teams ∧ SameMemory s1 t) ∧
      ((x.get g.u).getLsbD 2 = true → Answers (exec (.celltag a x d) s) fun t =>
        after (Group.closed { g with u := d.put false (BitVec.ofNat 64 (s1.tag pa).toNat) g.u } c) t ∧
        t.teams = s.teams ∧ SameMemory s1 t)) ∧
    (va >>> 54 = 0 → va.toNat % 32 = 0 →
      s.translate (coreOf c.gkey) (s.asidOf g) va.toNat .load = (.to (.here pa false), s1) →
      Answers (exec (.touch a) s) fun t => after (g.closed c) t ∧ t.teams = s.teams ∧ SameMemory s1 t)

/-- R224, R226, R228, R229: a trigger by a team outside every chain at a cell under evaluation parks its lanes for the cell and
is recorded last among the entry's waiters; FULFILL makes the lanes of its waiters active again, and their replays are the
machine's next turns, in order of arrival, which is the model's choice (log entry 27). -/
def Sys2Proof.Claims.CellWaits : Prop :=
  (∀ (a : USrc) s c g pa s1 e, s.Runs c g → c.Running g → c.lanes ≠ 0 → c.kholds 0 g.u = true → s.CellAt c g (a.get g.u) .load pa s1 →
    s1.tag pa = tagEvaluating → s1.evaluation pa = some e → (∀ tm, tget s.teams g.tid = some tm → tm.chain = none) →
    s.teamPrio g.tid ≤ e.prio → Answers (exec (.touch a) s) fun t =>
      GroupBecomes s t c.gkey (g.closed c) (fun q =>
        if c.lanes.getLsbD q then c.closeLane { g.lane q with state := .parked (.cell pa) } else g.lane q) ∧
      t.teams = s.teams ∧ SameMemory s1 t ∧ ∃ e', t.evaluation pa = some e' ∧
        e'.waiters = e.waiters ++ [⟨c.gkey, (a.get g.u).toNat, c.lanes, false, none⟩]) ∧
  ∀ (a : USrc) (b : Nat) s c g pa s1 e w h, s.Runs c g → c.kholds 0 g.u = true →
    s.CellAt c g (a.get g.u) .store pa s1 → s1.tag pa = tagEvaluating → s1.evaluation pa = some e → e.team = some g.tid →
    e.waiters = [w] → w.peer = none → w.posted = false → e.pa = pa → w.gkey ≠ c.gkey → tget s.groups w.gkey = some h →
    Answers (exec (.fulfill a b) s) fun t =>
      t.agenda = .replay w :: s.agenda ∧ ∃ h', tget t.groups w.gkey = some h' ∧ ∀ q, q < 32 → h'.lane q =
        if w.lanes.getLsbD q = true ∧ (h.lane q).state = .parked (.cell pa) then { h.lane q with state := .active } else h.lane q

/-- SUSPEND, TOUCH, FULFILL and CELLTAG, and the waiters of a cell. -/
def Obligations.CellsFollowTheirTags : Prop :=
  Claims.CellInstructions ∧ Claims.CellWaits

/-- R226, R228, R285: a request of a cell's evaluator enters the die's ready pool; the waiters of a group beyond the 64 records
of an entry, and a starter that now finds a chain and an entry, are parked no more and replay. That the replay is the machine's
next turn, and in which order it retries, is the model's choice (log entries 1 and 27). -/
def Sys2Proof.Claims.CellEvents : Prop :=
  (∀ s die r rs, die < 8 → (s.die die).evals = r :: rs → (s.die die).pool.length < 8192 →
    Answers (exec (.evaluatorRequest die) s) fun t =>
      (t.die die).evals = rs ∧ t.groups = s.groups ∧ t.teams = s.teams ∧ SameMemory s t ∧
      ∃ e : PoolEntry, (t.die die).pool = (s.die die).pool ++ [e] ∧ e.prio = r.prio ∧ e.since = s.stroke ∧
        e.item = .evaluator r.pa r.desc r.s0 r.s1 r.s2 r.s3) ∧
  (∀ s die x h, (s.die die).starters.find? s.starterReady = some x → x.peer = none → x.posted = false →
    tget s.groups x.gkey = some h → die < 8 →
    let m := x.mask &&& h.where fun l => l.state = .parked (.starter x.pa)
    Answers (exec (.cellStarterRetry die) s) fun t =>
      (t.die die).starters = (s.die die).starters.erase x ∧ SameMemory s t ∧
      t.agenda = .replay ⟨x.gkey, 0, m, false, none⟩ :: s.agenda ∧
      ∃ h', tget t.groups x.gkey = some h' ∧ ∀ q, q < 32 → h'.lane q =
        if m.getLsbD q then { h.lane q with state := .active } else h.lane q) ∧
  ∀ s k h pa w, tget s.groups k = some h → s.overflowWaiters k = [(pa, w)] → w.posted = false →
    Answers (exec (.cellWaiterRetry k) s) fun t => SameMemory s t ∧
      ∃ h', tget t.groups k = some h' ∧ ∀ q, q < 32 → h'.lane q =
        if w.lanes.getLsbD q = true ∧ (h.lane q).state = .parked (.cell pa) then { h.lane q with state := .active } else h.lane q

/-- R244: a write to a watched line, and a poll where no watch entry was free, make the lanes that wait for the object active,
and they re-run their CWAIT. -/
def Sys2Proof.Claims.WatcherEvents : Prop :=
  ∀ s k h, tget s.groups k = some h →
    (∀ y ∈ (s.core (postCore k)).posted, ∀ pa, y.gkey = k → y.wait ≠ some (.cwait pa)) →
    let wakes := fun (f : Nat → Bool) (q : Nat) =>
      match (h.lane q).state with
      | .parked (.cwait pa) => if f pa then { h.lane q with state := .active } else h.lane q
      | _ => h.lane q
    (Answers (exec (.cwaitRecheck k) s) fun t => GroupBecomes s t k h
      (wakes fun pa => s.dies.toList.any fun d => d.watches.any fun w => w.1 == k && (w.2.1 == pa / 128 && w.2.2)) ∧
      t.teams = s.teams ∧ SameMemory s t) ∧
    Answers (exec (.cwaitPoll k) s) fun t => GroupBecomes s t k h
      (wakes fun pa => !s.dies.toList.any fun d => d.watches.any fun w => w.1 == k && w.2.1 == pa / 128) ∧
      t.teams = s.teams ∧ SameMemory s t

/-- R147, R239-R241: the only posted atomic of a core, of any form, is performed at its home: the word takes its new value, or
stays as it is, and the atomic is outstanding no more; the lane of a failed compare-and-swap is demoted. The lane of one that
waits, for a page, a cell or a peer's link, parks before its next unit. One whose trap its group's stop kept back raises it when
the group runs again; keeping it is the model's choice (log entry 40). -/
def Sys2Proof.Claims.PostedAtomics : Prop :=
  (∀ s core (x : Posted) g pa s1 tagged n cas new, AtomicForm x.major x.funct n cas new → core < 1728 → x.pos < 32 →
    (s.core core).posted = [x] → x.wait = none → x.trap = none → coreOf x.gkey = core → tget s.groups x.gkey = some g →
    { s with fresh := s.fresh + 1 }.translate core (s.asidOf g) x.va .atomic = (.to (.here pa tagged), s1) →
    (tagged = true → s1.tag pa = tagValue) → s1.ownsPlace (s1.asidOf g) (.here pa tagged) n = false → s1.badLine pa n = none →
    let y := new (s1.num pa n) (x.operand.toNat % 2 ^ (8 * n)) (x.swap.toNat % 2 ^ (8 * n))
    Answers (exec (.postedAtomicPerform core) s) fun t =>
      t.teams = s.teams ∧ (t.core core).posted = [] ∧
      (y = none → SameMemory s1 t) ∧ (∀ v, y = some v → MemoryBut s1 t pa n v) ∧
      ((cas && y.isNone) = false → t.groups = s.groups) ∧
      ((cas && y.isNone) = true → GroupBecomes s t x.gkey g fun q =>
        if q = x.pos ∧ (g.lane q).runnable = true then
          { g.lane q with state := .demoted, dem := g.where Lane.runnable &&& ~~~(1#32 <<< x.pos) } else g.lane q)) ∧
  (∀ s core (x : Posted) g cause d1 d2 m, core < 1728 → (s.core core).posted = [x] → coreOf x.gkey = core →
    x.trap = some (cause, d1, d2, m) → cause ≠ 0x30 → tget s.groups x.gkey = some g →
    (g.stop = none → Answers (exec (.postedAtomicPerform core) s) fun t =>
      (t.core core).posted = [] ∧ t.teams = s.teams ∧ SameMemory s t ∧
      (∃ y, tget t.groups x.gkey = some { g with stop := some y } ∧ y.cause = cause ∧ y.unit = x.unit ∧ y.lanes = m ∧
        y.d1 = d1 ∧ y.d2 = d2) ∧ ∀ j, j ≠ x.gkey → tget t.groups j = tget s.groups j) ∧
    (g.stop ≠ none → exec (.postedAtomicPerform core) s = .next s)) ∧
  ∀ s core (x : Posted) g w, (s.core core).posted = [x] → x.wait = some w → (∀ tag, w ≠ .reply tag) → x.pos < 32 →
    tget s.groups x.gkey = some g → (g.lane x.pos).runnable = true →
    Answers (exec (.postedAtomicFault core) s) fun t =>
      GroupBecomes s t x.gkey g (fun q =>
        if q = x.pos then { g.lane q with state := .parked w } else g.lane q) ∧
      t.teams = s.teams ∧ SameMemory s t

/-- R313: a stroke tick advances the stroke counter by one, and nothing else. -/
def Sys2Proof.Claims.StrokeTicks : Prop :=
  ∀ s : State, exec .strokeTick s = .next { s with stroke := s.stroke + 1 }

/-- Events of cells and waits, posted atomics, the stroke tick. -/
def Obligations.CellAndWaitEvents : Prop :=
  Claims.CellEvents ∧ Claims.WatcherEvents ∧ Claims.PostedAtomics ∧ Claims.StrokeTicks

/-! ### Engines, rings, nodes -/

/-- R253, R290, R292, R298, R301, R304-R306: a command whose address operands are good and whose control values are in their
tables is accepted while its path has room: it joins the vertical queue, or the dependency table for MTASK and DRAIN, with its
operands as they are, and the group goes on past it, its region closed. -/
def Sys2Proof.Claims.EngineCommands : Prop :=
  ∀ s c g, s.Runs c g → c.kholds 0 g.u = true → s.quiet c.gkey →
    let core := coreOf c.gkey
    let good := fun (x : DWord) (n : Nat) => x >>> 54 = 0 ∧ x.toNat % n = 0
    let does := fun (i : Instr) (major f7 : Nat) (addr cobj : DWord) (ops : List DWord) =>
      let tabled := major == 0x22 || major == 0x23
      (if tabled = true then (s.core core).dt.length < 32 else (s.core core).vq.length < 32) →
        Answers (exec i s) fun t =>
          GroupBecomes s t c.gkey (g.closed c) (c.movedClosed g) ∧ SameMemory s t ∧
          Entered s t core tabled (fun y => y.Fresh c g major f7 addr cobj ops ∧ y.seq = false) ∧
          ∀ k, tget t.teams k =
            if k = g.tid ∧ tabled = true then (tget s.teams k).map fun tm => { tm with matrix := true } else tget s.teams k
    (∀ (a x : USrc) (b : Nat),
      let ops := [g.u.reg b, g.u.reg (b + 1), g.u.reg (b + 2), g.u.reg (b + 3)]
      good (a.get g.u) 64 → good (x.get g.u) 16 →
        (s.CopyControl g core false ops → does (.tcopy a b x) 0x20 0 (a.get g.u) (x.get g.u) ops) ∧
        (s.CopyControl g core true ops → does (.tcopym a b x) 0x21 0 (a.get g.u) (x.get g.u) ops)) ∧
    (∀ a : USrc, good (a.get g.u) 128 → does (.mtask a) 0x22 0 (a.get g.u) 0 []) ∧
    (∀ (a : USrc) (o : Bool), good (a.get g.u) 32 → does (.drain a o) 0x23 o.toNat (a.get g.u) 0 []) ∧
    (∀ (a : Nat) (b x : USrc) (k d : Bool),
      let ops := [g.u.reg a, g.u.reg (a + 1), g.u.reg (a + 2), b.get g.u]
      good (x.get g.u) 16 →
        does (.keySort a b x k) 0x25 (0x10 * k.toNat) 0 (x.get g.u) ops ∧
        does (.keyMerge a b x k d) 0x25 (1 + 8 * d.toNat + 0x10 * k.toNat) 0 (x.get g.u) ops ∧
        does (.keyTopk a b x) 0x25 2 0 (x.get g.u) ops ∧ does (.keyOffs a b x) 0x25 3 0 (x.get g.u) ops ∧
        does (.keyCheck a b x) 0x25 4 0 (x.get g.u) ops) ∧
    (∀ a b x : USrc, good (x.get g.u) 16 → does (.xlatb a b x) 0x26 0 (a.get g.u) (x.get g.u) [b.get g.u]) ∧
    ∀ a b x : USrc, good (a.get g.u) 16 → good (x.get g.u) 16 → (b.get g.u).toNat / 2 ^ 59 = 0 →
      does (.adpf a b x) 0x2D 0 (a.get g.u) (x.get g.u) [b.get g.u]

/-- R290: a command whose address operand has one of bits 63:54 set takes the bad-address trap 0x16, and one whose address is
not aligned the misaligned-access trap 0x17; no command is issued. -/
def Sys2Proof.Claims.EngineCommandTraps : Prop :=
  ∀ s c g, s.Runs c g → c.kholds 0 g.u = true →
    let traps := fun (i : Instr) (cause : Nat) (d1 : DWord) =>
      Answers (exec i s) fun t =>
        (∃ x, tget t.groups c.gkey = some { g with stop := some x } ∧ x.cause = cause ∧ x.unit = c.addr ∧ x.d1 = d1) ∧
        (t.core (coreOf c.gkey)).dt = (s.core (coreOf c.gkey)).dt ∧ (t.core (coreOf c.gkey)).vq = (s.core (coreOf c.gkey)).vq ∧
        t.teams = s.teams ∧ SameMemory s t
    ∀ (a : USrc) (i : Instr) (n : Nat),
      (i = .mtask a ∧ n = 128) ∨ (i = .seq a ∧ n = 64) ∨ (∃ o, i = .drain a o ∧ n = 32) ∨
        (∃ r b x k d, i = .keySort r b a k ∧ n = 16 ∨ i = .keyMerge r b a k d ∧ n = 16 ∨ i = .keyTopk r b a ∧ n = 16 ∨
          i = .keyOffs r b a ∧ n = 16 ∨ i = .keyCheck r b a ∧ n = 16 ∨ i = .xlatb x b a ∧ n = 16) →
      (a.get g.u >>> 54 ≠ 0 → traps i 0x16 (a.get g.u)) ∧
      (a.get g.u >>> 54 = 0 → (a.get g.u).toNat % n ≠ 0 → traps i 0x17 (a.get g.u))

/-- An engine command enters its queue or table, or its address traps. -/
def Obligations.EngineCommandsEnterOrTrap : Prop :=
  Claims.EngineCommands ∧ Claims.EngineCommandTraps

/-- R302, R303: SEQ reads its record as a plain load; a record whose fields are in their table, and whose command passes its
own checks, enters the dependency table as the command of its kind, with its declared inputs. -/
def Obligations.SequencedTasksEnter : Prop :=
  ∀ (a : USrc) s c g p pa s1, s.Runs c g → c.kholds 0 g.u = true → c.First p → s.Reaches c g (a.get g.u) 64 .load pa s1 →
    let core := coreOf c.gkey
    let r := s1.num pa 64
    let word := fun n => BitVec.ofNat 64 (r / 2 ^ n)
    let good := fun (x : DWord) (n : Nat) => x >>> 54 = 0 ∧ x.toNat % n = 0
    let f7 := r / 2 ^ 67 % 2 ^ 7
    let ops := [word 256, word 320, word 384, word 448]
    let does := fun (major : Nat) (ops : List DWord) => Answers (exec (.seq a) s) fun t =>
      GroupBecomes s t c.gkey (g.closed c) (c.movedClosed g) ∧ SameMemory s1 t ∧
      Entered s t core true fun y => y.Fresh c g major f7 (word 128) (word 192) ops ∧ y.inputs = word 0 ∧ y.seq = true
    (s.core core).dt.length < 32 → r / 2 ^ 74 % 2 ^ 54 = 0 →
    (∀ i, i < 4 →
      let x := r / 2 ^ (16 * i) % 2 ^ 16
      let k := (s.core core).ring (x % 16)
      x / 2 ^ 12 = 0 ∧ (x / 2 ^ 11 % 2 = 1 → 1 ≤ x / 16 % 2 ^ 7 ∧ x / 16 % 2 ^ 7 ≤ 64 ∧ k.enabled = true ∧ k.tid = g.tid ∧
        k.matrix = true)) →
    (r / 2 ^ 64 % 8 = 0 → f7 = 0 → word 192 = 0 → good (word 128) 128 → does 0x22 []) ∧
    (r / 2 ^ 64 % 8 = 1 → f7 ≤ 1 → word 192 = 0 → good (word 128) 32 → does 0x23 []) ∧
    (r / 2 ^ 64 % 8 = 2 → f7 = 0 → good (word 128) 64 → good (word 192) 16 → s.CopyControl g core false ops → does 0x20 ops) ∧
    (r / 2 ^ 64 % 8 = 3 → f7 = 0 → good (word 128) 64 → good (word 192) 16 → s.CopyControl g core true ops → does 0x21 ops) ∧
    (r / 2 ^ 64 % 8 = 4 → f7 ∈ [0, 0x10, 1, 9, 0x11, 0x19, 2, 3, 4] → word 128 = 0 → good (word 192) 16 → does 0x25 ops)

/-- R297: RING.acq hands out the next filled slot of a lane ring of the team: its address is the result and the count of
slots handed out goes up; with no filled slot left the lanes park for the ring. RING.rel gives the oldest slot back. -/
def Sys2Proof.Claims.LaneRings : Prop :=
  ∀ s c g r, s.Runs c g → c.kholds 0 g.u = true → s.quiet c.gkey →
    let core := coreOf c.gkey
    let becomes := fun (t : State) (i : Nat) (r' : Ring) => ∀ j, (t.core core).rings[j]? =
      if j = i then some r' else (s.core core).rings[j]?
    (∀ (d : UDst) (b : USrc), s.LaneRing g core (b.get g.u) r →
      (r.a ≠ r.f → Answers (exec (.ringAcq d b) s) fun t =>
        GroupBecomes s t c.gkey
          (Group.closed { g with u := d.put false (BitVec.ofNat 64 (r.offset + r.a % r.slots * r.bytes)) g.u } c) (c.movedClosed g) ∧
        t.teams = s.teams ∧ SameMemory s t ∧ becomes t (b.get g.u).toNat { r with a := r.a + 1 }) ∧
      (r.a = r.f → Answers (exec (.ringAcq d b) s) fun t =>
        GroupBecomes s t c.gkey (g.closed c) (fun q =>
          if c.lanes.getLsbD q then c.closeLane { g.lane q with state := .parked (.ringAcq (b.get g.u).toNat) } else g.lane q) ∧
        t.teams = s.teams ∧ SameMemory s t ∧ t.cores = s.cores)) ∧
    ∀ a : USrc, s.LaneRing g core (a.get g.u) r → r.r ≠ r.a →
      Answers (exec (.ringRel a) s) fun t =>
        GroupBecomes s t c.gkey (g.closed c) (c.movedClosed g) ∧ t.teams = s.teams ∧ SameMemory s t ∧
        becomes t (a.get g.u).toNat { r with r := r.r + 1 }

/-- R295, R296: MSR of `ringtab` with 0 disables the rings of the team; with the address of a list of one good record, while
no command of the team is in flight, it enables the record's ring, empty, and disables the team's others. -/
def Sys2Proof.Claims.RingTables : Prop :=
  ∀ (a : USrc) s c g tm p pa s1, s.Runs c g → c.kholds 0 g.u = true → tget s.teams g.tid = some tm →
    let core := coreOf c.gkey
    let v := a.get g.u
    let after := fun (t : State) (i : Nat) (r : Ring) =>
      GroupBecomes s t c.gkey (g.closed c) (c.movedClosed g) ∧
      (∀ k, tget t.teams k = if k = g.tid then some { tm with ringtab := v } else tget s.teams k) ∧
      ∀ j, j < 16 → (t.core core).ring j =
        if j = i then r
        else if ((s.core core).ring j).enabled = true ∧ ((s.core core).ring j).tid = g.tid then Ring.reset
        else (s.core core).ring j
    (v = 0 → Answers (exec (.msr (.u a) 7) s) fun t => after t 16 Ring.reset ∧ SameMemory s t) ∧
    (v ≠ 0 → v >>> 54 = 0 → v.toNat % 16 = 0 → c.First p → s.Reaches c g v 16 .load pa s1 →
      (∀ x ∈ (s.core core).vq ++ (s.core core).dt, x.tid ≠ g.tid) →
      let r := s1.num pa 16
      let id := r % 16
      let role := r / 2 ^ 54 % 4
      let matrix := r / 2 ^ 56 % 2
      let slots := r / 2 ^ 48 % 64 + 1
      let bytes := 256 * (r / 2 ^ 36 % 2 ^ 12)
      let offset := r / 2 ^ 96
      r / 2 ^ 57 % 2 ^ 39 = 0 → r / 16 % 2 ^ 32 = 0 → offset % 256 = 0 → role ≤ 2 → 256 ≤ bytes → slots * bytes ≤ 524288 →
      (matrix = 1 ↔ role ≤ 1) →
      offset + slots * bytes ≤ (match role with | 0 => tm.wBytes | 1 => tm.xBytes | _ => tm.sBytes) →
      ((s.core core).ring id).enabled = false ∨ ((s.core core).ring id).tid = g.tid →
      Answers (exec (.msr (.u a) 7) s) fun t =>
        after t id ⟨true, g.tid, offset, slots, bytes, role, decide (matrix = 1), 0, 0, 0, 0⟩ ∧ SameMemory s1 t)

/-- R296: a held MSR of `ringtab` with a list of one good record completes once no command of the team names a ring: its lanes go
on and the record's ring is enabled, empty. While such a command is in flight it changes nothing. -/
def Sys2Proof.Claims.HeldRingTables : Prop :=
  ∀ s k g tm p pa s1 (unit next : DWord) (lanes : Mask) (v : DWord), tget s.groups k = some g → tget s.teams g.tid = some tm →
    g.hold = some (.ringtab unit next lanes v) → g.stop = none →
    (s.ringBusy (coreOf k) g.tid = true → exec (.ringtabWrite k) s = .next s) ∧
    (s.ringBusy (coreOf k) g.tid = false → v >>> 54 = 0 → v.toNat % 16 = 0 →
      let c := ringtabIssue k unit next lanes
      let h := { g with hold := none }
      c.First p → (s.setGroup k h).Reaches c h v 16 .load pa s1 →
      let r := s1.num pa 16
      let role := r / 2 ^ 54 % 4
      let slots := r / 2 ^ 48 % 64 + 1
      let bytes := 256 * (r / 2 ^ 36 % 2 ^ 12)
      r / 2 ^ 57 % 2 ^ 39 = 0 → r / 16 % 2 ^ 32 = 0 → r / 2 ^ 96 % 256 = 0 → role ≤ 2 → 256 ≤ bytes → slots * bytes ≤ 524288 →
      (r / 2 ^ 56 % 2 = 1 ↔ role ≤ 1) →
      r / 2 ^ 96 + slots * bytes ≤ (match role with | 0 => tm.wBytes | 1 => tm.xBytes | _ => tm.sBytes) →
      ((s.core (coreOf k)).ring (r % 16)).enabled = false ∨ ((s.core (coreOf k)).ring (r % 16)).tid = g.tid →
      Answers (exec (.ringtabWrite k) s) fun t => SameMemory s1 t ∧
        (∃ y, tget t.teams g.tid = some y ∧ y.ringtab = v) ∧
        (t.core (coreOf k)).ring (r % 16) =
          ⟨true, g.tid, r / 2 ^ 96, slots, bytes, role, decide (r / 2 ^ 56 % 2 = 1), 0, 0, 0, 0⟩ ∧
        ∃ h', tget t.groups k = some h' ∧ h'.hold = none ∧ ∀ q, q < 32 →
          (h'.lane q).vpc = if lanes.getLsbD q then next else (g.lane q).vpc)

/-- RING.acq and RING.rel, and MSR of ringtab, done at once or held. -/
def Obligations.RingsAndTheirTables : Prop :=
  Claims.LaneRings ∧ Claims.RingTables ∧ Claims.HeldRingTables

/-- R280, R307, R308: the record that one lane forms from its eight registers joins the arrivals of the queue it names, while
that queue is bound to a live node and open, the die's record store has room and none of the queue's records waits in the
slipway; the lanes move on. That the partition is told by the owners of the two dies is the model's choice (log entry 31). -/
def Sys2Proof.Claims.RecordPushes : Prop :=
  ∀ (d : Nat) (a : LSrc) (gd : Nat) s c g p, s.Runs c g → c.One gd g p → s.quiet c.gkey →
    let l := g.lane p
    let sel := (a.r32 l).toNat
    let die := sel / 2 ^ 10
    let q := sel % 2 ^ 10
    let r : List Word := [l.reg d, l.reg (d + 1), l.reg (d + 2), l.reg (d + 3), l.reg (d + 4), l.reg (d + 5), l.reg (d + 6),
      l.reg (d + 7)]
    sel < 2 ^ 13 → (l.reg (d + 2)).toNat < 2 ^ 18 → (s.queueNode die q).isSome = true → (s.queue die q).closed = false →
    (s.die die).owner = (s.die (dieOf (coreOf c.gkey))).owner → (s.die die).records < 16384 →
    (∀ x ∈ (s.die die).slip, ∀ y, x ≠ .record q y) →
    Answers (exec (.rpush d a gd) s) fun t =>
      GroupBecomes s t c.gkey (g.closed c) (c.movedClosed g) ∧ t.teams = s.teams ∧ SameMemory s t ∧
      t.queue die q = { s.queue die q with arrive := (s.queue die q).arrive ++ [r] } ∧
      ∀ i j, (i, j) ≠ (die, q) → t.queue i j = s.queue i j

/-- R275, R276, R309: NLAUNCH of a descriptor that passes the checks of R275, with a free node entry and room in the pool,
makes a node with the descriptor and its signals still to come, a dies field of 0 naming the issuing die, and its handle is
the result; a descriptor that fails them, and names no completion object, makes none, and the result is bit 63 with the cause.
-/
def Sys2Proof.Claims.NodeLaunches : Prop :=
  ∀ (x : UDst) (b : USrc) s c g n desc frameOk s1, s.Runs c g → c.kholds 0 g.u = true → s.quiet c.gkey →
    let die := dieOf (coreOf c.gkey)
    let va := b.get g.u
    let d : NodeDesc := if desc.dies = 0 then { desc with dies := 2 ^ die } else desc
    let cause := nodeCause n d frameOk (s1.queueBound d) (s1.diesOk (s1.die die).owner d.dies)
    let after := fun (t : State) (y : DWord) =>
      GroupBecomes s t c.gkey (Group.closed { g with u := x.put false y g.u } c) (c.movedClosed g) ∧ t.teams = s.teams ∧ SameMemory s1 t
    die < 8 → va >>> 54 = 0 → va.toNat % 256 = 0 →
    s.readNode die (s.asidOf g) va.toNat .engRead = .ok (n, desc, frameOk, s1) →
    (cause = none → (s1.die die).nodes.length < 4096 → (s1.die die).pool.length < 8192 →
      Answers (exec (.nlaunch x b) s) fun t =>
        ∃ h : Word, ∃ e y, after t (h.setWidth 64) ∧ h ≠ 0 ∧ t.findNode h = some (die, e, y) ∧ y.desc = d ∧ y.need = d.npred ∧
          y.ready = decide (d.npred = 0) ∧ y.closed = false ∧ y.live = 0 ∧
          ∀ i, i ≠ e → tget (t.die die).nodes i = tget (s.die die).nodes i) ∧
    ∀ k, cause = some k → d.cobj = 0 → Answers (exec (.nlaunch x b) s) fun t =>
      after t (BitVec.ofNat 64 (2 ^ 63 + k)) ∧ ∀ i, (t.die i).nodes = (s.die i).nodes

/-- RPUSH and NLAUNCH. -/
def Obligations.RecordPushesAndLaunches : Prop :=
  Claims.RecordPushes ∧ Claims.NodeLaunches

/-- R278, R310: NSIGNAL moves on at once, whatever its handle names. A node that is not ready has one signal fewer to wait for, and is ready when none is
left; for a ready node without a record queue, and for no node, nothing changes but the count of stray signals; one of another
partition is not reached. That the signal is counted at once, that the partition is told by the owners of the dies, and that the
live count, which a signal leaves, is taken at placement, is the model's choice (log entries 31 and 34). -/
def Sys2Proof.Claims.NodeSignals : Prop :=
  ∀ (b : USrc) s c g, s.Runs c g → c.kholds 0 g.u = true → s.quiet c.gkey →
    let h := BitVec.setWidth 32 (b.get g.u)
    let after := fun (t : State) =>
      GroupBecomes s t c.gkey (g.closed c) (c.movedClosed g) ∧ t.teams = s.teams ∧ SameMemory s t
    (∃ t, exec (.nsignal b) s = .next t ∧ GroupBecomes s t c.gkey (g.closed c) (c.movedClosed g) ∧ t.teams = s.teams) ∧
    let own := dieOf (coreOf c.gkey)
    (∀ die e y, s.findNode h = some (die, e, y) → die < 8 → s.partitioned = true → (s.die die).owner ≠ (s.die own).owner →
      Answers (exec (.nsignal b) s) fun t => after t ∧ t.dies = s.dies) ∧
    (∀ die e y, s.findNode h = some (die, e, y) → h ≠ 0 → y.ready = false → 1 ≤ y.need →
      (s.partitioned = false ∨ (s.die die).owner = (s.die own).owner) →
      (y.need = 1 → (s.die die).pool.length < 8192) →
      Answers (exec (.nsignal b) s) fun t => after t ∧
        t.findNode h = some (die, e, { y with need := y.need - 1, ready := decide (y.need = 1) }) ∧
        (y.need = 1 → y.desc.rqen = false → y.desc.dies = 2 ^ die →
          ∃ x : PoolEntry, (t.die die).pool = (s.die die).pool ++ [x] ∧ x.prio = y.desc.prio ∧ x.since = s.stroke ∧
            x.item = .grid (4096 * die + e) 0 (y.desc.gx * y.desc.gy * y.desc.gz))) ∧
    (∀ die e y, s.findNode h = some (die, e, y) → y.ready = true → y.desc.rqen = false →
      Answers (exec (.nsignal b) s) fun t => after t ∧ t.dies = s.dies) ∧
    (s.findNode h = none → Answers (exec (.nsignal b) s) fun t => after t ∧
      ∀ i, t.die i = { s.die i with strays := (t.die i).strays })

/-- R311: NQSTAT reads a snapshot of a node: its state in bits 63:62, the signals still required, the records of its open tile
and its live count; 0 for no node, and for one on a die that the issuing die's partition does not hold. It leaves the region open
(log entry 23); that the partition is told by owners, and when the live count is taken, is the model's choice (log entries 31 and
34). -/
def Sys2Proof.Claims.NodeSnapshots : Prop :=
  ∀ (x : UDst) (b : USrc) s c g, s.Runs c g → c.kholds 0 g.u = true →
    let h := BitVec.setWidth 32 (b.get g.u)
    let reads := fun (v : DWord) => ∃ t, exec (.nqstat x b) s = .next t ∧
      GroupBecomes s t c.gkey { g with u := x.put false v g.u } (c.moved g) ∧ t.teams = s.teams ∧ SameMemory s t ∧
        t.dies = s.dies
    (s.findNode h = none → reads 0) ∧
    ∀ die e y, s.findNode h = some (die, e, y) →
      let near := s.partitioned = false ∨ (s.die die).owner = (s.die (dieOf (coreOf c.gkey))).owner
      let state := if y.ready = false then 1 else if y.desc.rqen = true ∧ y.closed = true then 3 else 2
      let opened := if y.desc.rqen = true then (s.queue (y.desc.rqid / 1024) (y.desc.rqid % 1024)).opened.length else 0
      (near → reads (BitVec.ofNat 64 (2 ^ 62 * state + 2 ^ 32 * y.need + 2 ^ 16 * opened + min y.live 0xFFFF))) ∧
        (¬ near → die < 8 → reads 0)

/-- NSIGNAL and NQSTAT complete whatever their handle names: what they change and read. -/
def Obligations.NodeSignalsAndSnapshots : Prop :=
  Claims.NodeSignals ∧ Claims.NodeSnapshots

/-- R24, R98, R133, R149, R256, R312-R314: MRS reads the uniform registers by number, and for each lane of the issuing set its
random state or the address of the unit; MSR writes `cvm`, `gbase`, `wsave` and `efaddr`, where the value passes the card's
checks, and each lane's random state; a value that a card refuses takes the illegal-instruction trap and writes nothing. -/
def Obligations.SpecialRegisterReadsAndWrites : Prop :=
  ∀ s c g, s.Runs c g → c.kholds 0 g.u = true →
    (∀ (d : UDst) (n : Nat) (v : DWord),
      (n = 0 ∧ v = g.cvm.setWidth 64) ∨ (n = 1 ∧ ∃ tm, tget s.teams g.tid = some tm ∧ v = BitVec.ofNat 64 tm.desc.nbv) ∨
        (n = 4 ∧ v = g.gbase) ∨ (n = 5 ∧ v = g.wsave) ∨ (n = 6 ∧ v = g.efaddr) ∨
        (n = 7 ∧ ∃ tm, tget s.teams g.tid = some tm ∧ v = tm.ringtab) ∨ (n = 8 ∧ v = s.stroke) ∨
        (n = 9 ∧ v = BitVec.ofNat 64 (coreOf c.gkey + 2 ^ 15 * (coreOf c.gkey / 216) + 2 ^ 18 * (c.gkey % 16) +
          2 ^ 24 * (c.gkey / 16 % 4)) ∧ coreOf c.gkey < 1728) →
      Answers (exec (.mrs (.u d) n) s) fun t =>
        GroupBecomes s t c.gkey { g with u := d.put false v g.u } (c.moved g) ∧ t.teams = s.teams ∧ SameMemory s t) ∧
    (∀ (d : LDst) (n : Nat), n = 2 ∨ n = 3 → Answers (exec (.mrs (.v d) n) s) fun t =>
      GroupBecomes s t c.gkey g (fun q =>
        let l := g.lane q
        if c.lanes.getLsbD q then c.advance (d.put64 false (if n = 2 then l.lrng else c.addr) l) else l) ∧
      t.teams = s.teams ∧ SameMemory s t) ∧
    (∀ a : LSrc, Answers (exec (.msr (.v a) 2) s) fun t =>
      GroupBecomes s t c.gkey (g.closed c) (fun q =>
        let l := g.lane q
        if c.lanes.getLsbD q then c.closeLane (c.advance { l with lrng := a.r64 l }) else l) ∧
      t.teams = s.teams ∧ SameMemory s t) ∧
    ∀ (a : USrc) (n : Nat) (ok : Prop) (h : Group),
      let x := a.get g.u
      (n = 0 ∧ (ok ↔ ∀ i, i < 7 → x.toNat / 16 ^ i % 8 < 6) ∧ h = { g with cvm := BitVec.ofNat 32 (x.toNat % 2 ^ 28) }) ∨
        (n = 4 ∧ (ok ↔ x.toNat < 2 ^ 54) ∧ h = { g with gbase := x }) ∨
        (n = 5 ∧ (ok ↔ x.toNat < 2 ^ 54) ∧ h = { g with wsave := BitVec.ofNat 64 (x.toNat / 2 ^ 16 * 2 ^ 16) }) ∨
        (n = 6 ∧ (ok ↔ x.toNat / 2 ^ 54 % 4 = 0) ∧ h = { g with efaddr := x }) →
      (ok → Answers (exec (.msr (.u a) n) s) fun t =>
        GroupBecomes s t c.gkey (h.closed c) (c.movedClosed g) ∧ t.teams = s.teams ∧ SameMemory s t) ∧
      (¬ ok → Answers (exec (.msr (.u a) n) s) fun t =>
        (∃ y, tget t.groups c.gkey = some { g with stop := some y } ∧ y.cause = 1 ∧ y.unit = c.addr) ∧ SameMemory s t)

/-! ### The cox -/

/-- R353, R354, R362: PMSR.rd reads the registers of the cox, its die and the package by number, and PMSR.wr writes them where the
value passes the card's checks; a write of `tlbinv`, `vacset`, `vacgo`, `pgdone`, `wroute` and `evhead` does what the event of
that name does. A read of a write-only register and a write of a read-only one are refused with reason 8, a value that a card
refuses with reason 5. That bits set outside the fields of a register are refused with 5, where R4 alone would ignore them, and
that what is written to `ecc` is stored, is the model's choice (log entry 33). -/
def Obligations.PrivilegedRegisterReadsAndWrites : Prop :=
  ∀ s c, s.RunsCox c → c.kholds 0 (s.core c.core).cox.u = true → c.core < 1728 →
    let x := (s.core c.core).cox
    let n := c.core / 216
    let d := s.die n
    (∀ (r : UDst) (b : Nat) (v : DWord),
      (b, v) ∈ [(0, x.vec), (1, x.cause), (2, x.epc), (3, x.stat.setWidth 64), (4, d.ctxbase), (5, d.phbase), (6, d.slipbase),
        (7, d.slipsize.setWidth 64), (8, d.tsel.setWidth 64), (9, (tget s.troots d.tsel.toNat).getD 0), (13, d.ecc),
        (15, s.devid.setWidth 64), (16, s.wrsel.setWidth 64), (17, ((tget s.routes s.wrsel.toNat).getD 0).setWidth 64),
        (18, d.evbase), (19, d.evsize.setWidth 64), (20, d.evtail.setWidth 64), (21, d.evhead.setWidth 64)] →
      exec (.pmsrRd r b) s = .next (Completes s c (r.put false v))) ∧
    (∀ (r : UDst) (b : Nat), b ∈ [10, 11, 12, 14] → exec (.pmsrRd r b) s = .next (Refuses s c 8)) ∧
    (∀ (a : USrc) (b : Nat), b ∈ [1, 2, 3, 20] → exec (.pmsrWr a b) s = .next (Refuses s c 8)) ∧
    ∀ (a : USrc) (b : Nat),
      let v := a.get x.u
      let w := v.toNat
      let die := fun (f : Die → Die) => s.modDie n f
      let row := fun (ok : Prop) (t : State) =>
        (ok → exec (.pmsrWr a b) s = .next (Completes t c id)) ∧ (¬ ok → exec (.pmsrWr a b) s = .next (Refuses s c 5))
      let event := fun (ok : Prop) (i : Instr) =>
        (ok → Answers (exec i s) fun t => exec (.pmsrWr a b) s = .next (Completes t c id)) ∧
          (¬ ok → exec (.pmsrWr a b) s = .next (Refuses s c 5))
      (b = 0 → row (w < 2 ^ 16 ∧ w % 4 = 0) (s.modCore c.core fun k => { k with cox := { k.cox with vec := v } })) ∧
      (b = 4 → row (w < 2 ^ 52 ∧ w % 2 ^ 25 = 0) (die fun d => { d with ctxbase := v })) ∧
      (b = 5 → row (w < 2 ^ 52 ∧ w / 2 ^ 16 % 4 = 0) (die fun d => { d with phbase := v })) ∧
      (b = 6 → row (w < 2 ^ 54 ∧ w % 2 ^ 16 = 0) (die fun d => { d with slipbase := v })) ∧
      (b = 7 → row (w ≤ 65536) (die fun d => { d with slipsize := BitVec.ofNat 32 w })) ∧
      (b = 8 → row (w < 4096) (die fun d => { d with tsel := BitVec.ofNat 12 w })) ∧
      (b = 9 → row (w < 2 ^ 52 ∧ w / 2 % 2 ^ 15 = 0) { s with troots := tset s.troots d.tsel.toNat v }) ∧
      (b = 10 → event (w / 2 ^ 62 ≠ 3 ∧ w / 2 ^ 38 % 2 ^ 12 = 0)
        (if w / 2 ^ 62 = 0 then .tlbinvPage (w / 2 ^ 50 % 2 ^ 12) (w % 2 ^ 38)
          else if w / 2 ^ 62 = 1 then .tlbinvAsid (w / 2 ^ 50 % 2 ^ 12) else .tlbinvAll)) ∧
      (b = 11 → event (w = 0xFFFF ∨ w < 216) (if w = 0xFFFF then .vacsetEmpty n else .vacsetAdd n w)) ∧
      (b = 12 → event (w < 2 ^ 54 ∧ w % 16 = 0) (.vacgo n v)) ∧
      (b = 13 → exec (.pmsrWr a b) s = .next (Completes (die fun d => { d with ecc := v }) c id)) ∧
      (b = 14 → event (w < 2 ^ 50) (.pgdone n (w / 2 ^ 38) (w % 2 ^ 38))) ∧
      (b = 15 → row (w < 1024) { s with devid := BitVec.ofNat 16 w }) ∧
      (b = 16 → row (w < 1024) { s with wrsel := BitVec.ofNat 16 w }) ∧
      (b = 17 → event (w < 2 ^ 32 ∧ w / 2 ^ 24 % 2 ^ 7 = 0) (.wrouteWrite (BitVec.ofNat 32 w))) ∧
      (b = 18 → row (w < 2 ^ 52 ∧ w % 2 ^ 12 = 0) (die fun d => { d with evbase := v })) ∧
      (b = 19 → row (∃ i, 6 ≤ i ∧ i ≤ 20 ∧ w = 2 ^ i) (die fun d => { d with evsize := BitVec.ofNat 32 w })) ∧
      (b = 21 → event (w < 2 ^ 32) (.evheadWrite n (BitVec.ofNat 32 w)))

/-- R345: EVQ takes the next entry of the core's queue into the memory of the cox, 48 bytes of a trap report with result 1, or
64 bytes of a placement request with result 2: first causes 0x30 and 0x31, then 0x28, then placement requests, then the other
reports, each class in order of arrival. With an empty queue it waits. -/
def Sys2Proof.Claims.CoxQueue : Prop :=
  ∀ (a : UDst) (b : USrc) s c, s.RunsCox c →
    let k := s.core c.core
    let at0 := (b.get k.cox.u).toNat
    let urgent := fun (r : Report) => r.cause = 0x30 ∨ r.cause = 0x31
    let report := fun (l1 : List Report) (r : Report) (l2 : List Report) => Answers (exec (.evq a b) s) fun t =>
      OnlyCore s t c.core ∧
      ∃ m, t.core c.core = { k with
          reports := l1 ++ l2
          cox := Cox.advance c { k.cox with mem := m, u := (a.put false 1 k.cox.u).setPred 7 true } } ∧
        (∀ i, i < at0 ∨ at0 + 48 ≤ i → mrd m i = mrd k.cox.mem i) ∧
        Holds m at0 [(0, 4, r.cause), (4, 4, r.place.toNat), (8, 4, 0), (12, 4, r.lanes.toNat), (16, 8, r.unit.toNat),
          (24, 8, r.region.toNat), (32, 8, r.d1.toNat), (40, 8, r.d2.toNat)]
    c.kholds 0 k.cox.u = true → at0 % 64 = 0 → at0 < 0x10000 →
    (∀ l1 r l2, k.reports = l1 ++ r :: l2 → (∀ x ∈ l1, ¬ urgent x) → urgent r → report l1 r l2) ∧
    (∀ l1 r l2, k.reports = l1 ++ r :: l2 → (∀ x ∈ k.reports, ¬ urgent x) → (∀ x ∈ l1, x.cause ≠ 0x28) → r.cause = 0x28 →
      report l1 r l2) ∧
    ((∀ x ∈ k.reports, ¬ urgent x ∧ x.cause ≠ 0x28) →
      (∀ r l2, k.places = [] → k.reports = r :: l2 → report [] r l2) ∧
      (k.places = [] → k.reports = [] → exec (.evq a b) s = .next s) ∧
      ∀ tid ts tm, k.places = tid :: ts → tget s.teams tid = some tm → Answers (exec (.evq a b) s) fun t =>
        OnlyCore s t c.core ∧
        ∃ m, t.core c.core = { k with
            places := ts
            cox := Cox.advance c { k.cox with mem := m, u := (a.put false 2 k.cox.u).setPred 7 true } } ∧
          (∀ i, i < at0 ∨ at0 + 64 ≤ i → mrd m i = mrd k.cox.mem i) ∧
          Holds m at0 [(0, 4, tm.handle.toNat), (4, 4, tm.tidx), (8, 8, s.refMask tid), (16, 8, tm.desc.seg), (24, 40, 0)])

/-- R342, R343, R348: of a stopped group DBG.rd reads s0 to s55, `cvm` and `gbase` at their places in the group record, and
DBG.wr writes them there; a group that is not stopped is refused with reason 2, a slot without a group with reason 1. -/
def Sys2Proof.Claims.DebugWindow : Prop :=
  ∀ s c k g (r : UDst) (a b w : USrc), s.RunsCox c → c.kholds 0 (s.core c.core).cox.u = true →
    let u := (s.core c.core).cox.u
    let o := (w.get u).toNat
    let x := a.get u
    (s.Refers c (b.get u) k g →
      (g.stop = none → exec (.dbgRd r b w) s = .next (Refuses s c 2) ∧ exec (.dbgWr a b w) s = .next (Refuses s c 2)) ∧
      (g.stop ≠ none → (tget s.teams g.tid).isSome = true →
        (∀ i, i < 56 → o = 16 + 8 * i → exec (.dbgRd r b w) s = .next (Completes s c (r.put false (g.u.reg i)))) ∧
        (o = 504 → exec (.dbgRd r b w) s = .next (Completes s c (r.put false (g.cvm.setWidth 64)))) ∧
        (o = 512 → exec (.dbgRd r b w) s = .next (Completes s c (r.put false g.gbase))) ∧
        ∀ i cvm gbase, (∃ j, i = some j ∧ j < 56 ∧ o = 16 + 8 * j ∧ cvm = g.cvm ∧ gbase = g.gbase) ∨
            (i = none ∧ o = 504 ∧ x.toNat < 2 ^ 28 ∧ (∀ f, f < 7 → x.toNat / 16 ^ f % 8 < 6) ∧
              cvm = BitVec.ofNat 32 x.toNat ∧ gbase = g.gbase) ∨
            (i = none ∧ o = 512 ∧ x >>> 54 = 0 ∧ cvm = g.cvm ∧ gbase = x) →
          ∃ h, exec (.dbgWr a b w) s = .next (Completes (s.setGroup k h) c id) ∧ h.cvm = cvm ∧ h.gbase = gbase ∧
            h.lanes = g.lanes ∧ ∀ j, j < 56 → h.u.reg j = if i = some j then x else g.u.reg j)) ∧
    ((b.get u).toNat < 64 → tget s.groups (64 * c.core + (b.get u).toNat) = none →
      exec (.dbgRd r b w) s = .next (Refuses s c 1) ∧ exec (.dbgWr a b w) s = .next (Refuses s c 1))

/-- EVQ and the debug window. -/
def Obligations.CoxQueueAndDebugWindow : Prop :=
  Claims.CoxQueue ∧ Claims.DebugWindow

/-- R324, R326, R328, R349: RTE ends the stop of a trapped group: mode 0 resumes it with every latch invalid, mode 1 restarts its
region, from the entries of its lanes but for those that still have to replay the instruction that closed it, mode 2 moves the
lanes of a BRK or TRAP past the unit; mode 3 sends the cox back to `coxepc` and clears `coxcause`. Stated while no lane of the
team waits at a REGROUP that the end of the stop could complete. That mode 2 leaves every latch invalid, as R324 says of mode 0,
is the model's choice (log entry 33). -/
def Sys2Proof.Claims.EndOfStops : Prop :=
  ∀ s c (a b : USrc), s.RunsCox c → c.kholds 0 (s.core c.core).cox.u = true →
    let x := (s.core c.core).cox
    (b.get x.u = 3 → exec (.rte a b) s = .next (s.modCore c.core fun n =>
      { n with cox := { x with u := x.u.setPred 7 true, pc := x.epc, cause := 0, rep := 0 } })) ∧
    ∀ k g y, s.Refers c (a.get x.u) k g → g.stop = some y → y.reason = 1 →
      (∀ i, (s.die i).vacates = []) → (∀ i, (s.core i).cox.saving = none) →
      (∀ z ∈ s.groups, z.2.tid = g.tid → ∀ p, p < 32 → (z.2.lane p).state ≠ .parked .regroup) →
      let after := fun (f : Group → Prop) => Answers (exec (.rte a b) s) fun t =>
        (t.core c.core).cox = Cox.advance c { x with u := x.u.setPred 7 true } ∧ t.teams = s.teams ∧ SameMemory s t ∧
        (∃ h, tget t.groups k = some h ∧ h.stop = none ∧ f h) ∧ ∀ j, j ≠ k → tget t.groups j = tget s.groups j
      let resumed := fun (h : Group) (past : Nat → Bool) =>
        h = { g with lanes := h.lanes, u := { g.u with q := Latches.invalid }, stop := none } ∧
          ∀ p, p < 32 → h.lane p = { g.lane p with
            l := Latches.invalid
            vpc := if past p then y.next else (g.lane p).vpc
            rep := if past p then 0 else (g.lane p).rep }
      (b.get x.u = 0 → after fun h => resumed h fun _ => false) ∧
      (b.get x.u = 1 → after fun h => h.u = { g.u with q := g.entryQ } ∧ h.region = g.region ∧ h.hold = none ∧
        ∀ p, p < 32 → (h.lane p).lrng = (g.lane p).entryRng ∧ (h.lane p).l = (g.lane p).entryL ∧
          (∀ r, (h.lane p).reg r = (g.lane p).reg r) ∧
          ((g.lane p).runnable = true → (∀ e, (g.lane p).atClose = some e → (g.lane p).vpc ≠ e) → (h.lane p).vpc = (g.lane p).entry ∧ (h.lane p).state = .active)) ∧
      (b.get x.u = 2 → y.cause = 4 ∨ y.cause = 5 →
        after fun h => resumed h fun p => y.lanes.getLsbD p && ((g.lane p).vpc == y.unit)) ∧
      (b.get x.u = 2 → y.cause ≠ 4 → y.cause ≠ 5 → exec (.rte a b) s = .next (Refuses s c 7))

/-- R337, R350: KILL ends the team of its group: every lane of its groups is gone, none of its groups is stopped any more, its
commands are finished and its queued trap reports are withdrawn; memory stays as it is where the team was no evaluator. -/
def Sys2Proof.Claims.KilledTeams : Prop :=
  ∀ s c k g tm (a : USrc), s.RunsCox c → c.kholds 0 (s.core c.core).cox.u = true →
    s.Refers c (a.get (s.core c.core).cox.u) k g → tget s.teams g.tid = some tm →
    (∀ i, ∀ e ∈ (s.die i).cells, e.team ≠ some g.tid) →
    Answers (exec (.kill a) s) fun t => SameMemory s t ∧
      (∃ y, tget t.teams g.tid = some y ∧ y.ending = true) ∧ ((t.core c.core).cox.u.pred 7) = true ∧
      (∀ j h, tget s.groups j = some h → h.tid = g.tid →
        ∃ h', tget t.groups j = some h' ∧ h'.tid = g.tid ∧ h'.stop = none ∧ ∀ p, p < 32 → (h'.lane p).gone = true) ∧
      (∀ y ∈ (t.core tm.core).vq ++ (t.core tm.core).dt, y.tid = g.tid → y.state = .done) ∧
      ∀ r ∈ (t.core tm.core).reports, ∀ h, tget s.groups r.gkey = some h → h.tid ≠ g.tid

/-- RTE in its modes, and KILL. -/
def Obligations.StopsEndAndTeamsDie : Prop :=
  Claims.EndOfStops ∧ Claims.KilledTeams

/-- R346, R347: PLACE places the team that its request names with the request's code window and allotment, and gives its groups
the request's save area; CLOAD starts the landing of its segment for the team of its group, waits, and completes once the
segment has landed. PLACE is refused with reason 5 where the address of the save area has a reserved bit set. That it names its
team by handle, index and mask, and the reasons, are the model's choice (log entry 33). -/
def Sys2Proof.Claims.CoxPlacement : Prop :=
  ∀ s c (a b : USrc), s.RunsCox c → rising s.groups = true →
    let x := (s.core c.core).cox
    let va := a.get x.u
    c.kholds 0 x.u = true →
    (∀ tid tm,
      let field := fun (o n : Nat) => leNat (mread x.mem (va.toNat + o) n)
      va.toNat + 64 ≤ 0x10000 → s.requested c.core field = some tid → tget s.teams tid = some tm → tm.desc.seg = 0 →
      field 37 27 = 0 → 1 ≤ field 36 1 → field 36 1 ≤ 64 →
      s.windowClash c.core tid (field 32 2) (field 34 2) (field 36 1) = false →
      (2 ^ 54 ≤ field 24 8 ∨ field 24 8 % 65536 ≠ 0 → exec (.place a) s = .next (Refuses s c 5)) ∧
      (field 24 8 < 2 ^ 54 → field 24 8 % 65536 = 0 → Answers (exec (.place a) s) fun t => SameMemory s t ∧ ((t.core c.core).cox.u.pred 7) = true ∧
        (∀ k, tget t.teams k = if k = tid then some { tm with
          placed := true, landed := true, winFirst := field 32 2, winLines := field 34 2, allot := field 36 1 }
          else tget s.teams k) ∧
        ∀ k h, tget s.groups k = some h → tget t.groups k = some (if h.tid = tid then
          { h with wsave := BitVec.ofNat 64 (field 24 8) } else h))) ∧
    ∀ k g tm bs s1 d, s.Refers c (b.get x.u) k g → tget s.teams g.tid = some tm → va >>> 54 = 0 → va.toNat % 16 = 0 →
      s.dieRead tm.die tm.desc.asid va.toNat 16 .land = .ok (bs, s1) → SegDesc.parse (leNat bs) = some d →
      tm.winFirst ≤ d.bayline → d.bayline + d.lines ≤ tm.winFirst + tm.winLines →
      (∀ e, x.rep ≠ 0 → (s.core c.core).equalEntry d = some e → e.state = .landed →
        exec (.cload a b) s = .next (Completes s1 c id)) ∧
      (x.rep = 0 → (s.core c.core).land = [] → 1 ≤ tm.allot →
        Answers (exec (.cload a b) s) fun t => SameMemory s1 t ∧ (t.core c.core).cox = { x with rep := 1 } ∧
          ∃ e, (t.core c.core).land = [e] ∧ e.base = d.base ∧ e.lines = d.lines ∧ e.bayline = d.bayline ∧ e.tid = g.tid ∧
            e.state = .landing)

/-- R351: CTX.save of a team of one core, all of whose groups are stopped, with no command or atomic of its core outstanding,
writes the team's record from the given address on and takes the team off its core; CTX.load of such a record puts the team
back on the core, its scratch as the record has it. That the record's window and allotment are the setting, which needs no
PLACE, is the model's choice (log entry 33). -/
def Sys2Proof.Claims.SavedTeams : Prop :=
  ∀ s c (a b : USrc), s.RunsCox c →
    let x := (s.core c.core).cox
    let pa := (a.get x.u).toNat
    c.kholds 0 x.u = true → pa % 4096 = 0 → populated pa = true →
    (∀ k g tm, s.Refers c (b.get x.u) k g → tget s.teams g.tid = some tm → tm.core = c.core →
      tm.desc.cw * tm.desc.ch = 1 → (∀ y ∈ s.groups, y.2.tid = g.tid → y.2.stop.isSome = true) →
      (s.core c.core).vq = [] → (s.core c.core).dt = [] → (s.core c.core).posted = [] → s.peerWaits = [] →
      s.teamGone g.tid = false → s.yielding g.tid = false →
      Answers (exec (.ctxSave a b) s) fun t => ((t.core c.core).cox.u.pred 7) = true ∧
        (∃ kept, t.saved = s.saved ++ [kept] ∧ kept.tid = g.tid) ∧
        (∃ y, tget t.teams g.tid = some y ∧ y.core = 1728 ∧ y.placed = false ∧ y.handle = tm.handle ∧ y.tidx = tm.tidx) ∧
        t.num pa 4 = tm.handle.toNat ∧ t.num (pa + 4) 4 = tm.tidx % 2 ^ 32 ∧ t.num (pa + 10) 1 = 3) ∧
    ∀ k tm,
      let field : Reader := fun o n => s.num (pa + o) n
      s.savedTeam pa field = some (k, tm) → s.barred (c.core / 216) c.core false = false → tm.desc.cw * tm.desc.ch = 1 → recordOk field = true →
      field 8 2 = (s.recordGroups k.tid).length → s.coreFits c.core tm.desc = true → k.rings = [] →
      s.windowClash c.core k.tid tm.winFirst tm.winLines tm.allot = false →
      Answers (exec (.ctxLoad a) s) fun t => ((t.core c.core).cox.u.pred 7) = true ∧ t.saved = s.saved.erase k ∧
        SameMemory s t ∧
        ∃ y, tget t.teams k.tid = some y ∧ y.core = c.core ∧ y.placed = true ∧ y.landed = true ∧ y.die = c.core / 216 ∧
          ∀ j, j < tm.sBytes → mrd y.scratch j = s.byte (pa + recordE (s.recordGroups k.tid).length + 135184 + j)

/-- PLACE, CLOAD, CTX.save and CTX.load. -/
def Obligations.TeamsPlacedSavedAndLoaded : Prop :=
  Claims.CoxPlacement ∧ Claims.SavedTeams

/-- R341, R344: a cox-only instruction under issue by a group takes the privilege trap 0x02 with its word, and on the cox a
lane-set instruction raises the illegal-instruction cause 0x01. That the uniform-set words that need lanes, a group or a team
(barriers, JOIN, EXIT, WIDEN, engine commands) raise it there too is the model's choice (log entry 11). -/
def Sys2Proof.Claims.PrivilegeTraps : Prop :=
  (∀ s c g (r : UDst) (a b w : USrc) (n : Nat) i, s.Runs c g →
    i ∈ [.evq r a, .pmsrRd r n, .pmsrWr a n, .dbgRd r a b, .dbgWr a b w, .ctxSave a b, .ctxLoad a, .place a, .cload a b,
      .rte a b, .kill a] →
    Answers (exec i s) fun t =>
      (∃ y, tget t.groups c.gkey = some { g with stop := some y } ∧ y.cause = 2 ∧ y.unit = c.addr ∧ y.lanes = c.lanes ∧
        y.d1 = c.word.setWidth 64 ∧ y.d2 = 0) ∧
      (∀ j, j ≠ c.gkey → tget t.groups j = tget s.groups j) ∧ t.teams = s.teams ∧ SameMemory s t) ∧
  ∀ s c (d : LDst) (a b : LSrc) (u : USrc) (p n : Nat) (z : Bool) (o : BitVec 18) i, s.RunsCox c →
    i ∈ [.add d a b z n, .mov d a z n, .fadd d a b z n, .brl p z o, .jml d a n, .exit, .barTeam, .joinWait n, .widen u b,
      .mtask u, .seq u] →
    let x := (s.core c.core).cox
    (x.cause = 0 → exec i s = .next (s.modCore c.core fun k =>
      { k with cox := { x with cause := 1, epc := c.addr, pc := x.vec, rep := 0 } }))

/-- R341: uniform-set words on the cox that name no lane and no group: a fence only moves on, for the accesses of the cox are
performed as they issue; TOUCH and the forms of cells meet physical addresses, which no page marks as tagged; CWAIT waits until
the object at a physical address has its count; NSIGNAL signals, NQSTAT and MRS of `stroke` read. A false guard only moves on.
What these words do on the cox is the model's choice (log entry 11). -/
def Sys2Proof.Claims.CoxUniformWords : Prop :=
  ∀ s c, s.RunsCox c → c.core < 1728 →
    let x := (s.core c.core).cox
    let passes := fun (i : Instr) (u : UFile) => Answers (exec i s) fun t =>
      (t.core c.core).cox = Cox.advance c { x with u := u } ∧ t.groups = s.groups ∧ t.teams = s.teams ∧ SameMemory s t
    let raises := fun (i : Instr) (cause : Nat) => x.cause = 0 → exec i s = .next (s.modCore c.core fun k =>
      { k with cox := { x with cause := BitVec.ofNat 64 cause, epc := c.addr, pc := x.vec, rep := 0 } })
    (∀ n i, i ∈ [.fence n, .fenceAcq n, .fenceRel n, .fenceSc n] → passes i x.u) ∧
    (∀ (a w : USrc) (b : Nat) (d : UDst), c.kholds 0 x.u = false →
      ∀ i, i ∈ [.touch a, .suspend a b, .fulfill a b, .celltag a w d, .cwait a w, .nsignal a, .nqstat d a, .mrs (.u d) 8] →
        passes i x.u) ∧
    (c.kholds 0 x.u = true →
      (∀ (a w : USrc) (b : Nat) (d : UDst) i, i ∈ [.touch a, .suspend a b, .fulfill a b, .celltag a w d] →
        (a.get x.u >>> 54 ≠ 0 → raises i 0x16) ∧
        (a.get x.u >>> 54 = 0 → (a.get x.u).toNat % 32 ≠ 0 → raises i 0x17) ∧
        (a.get x.u >>> 54 = 0 → (a.get x.u).toNat % 32 = 0 → 0x10000 ≤ (a.get x.u).toNat →
          populated (a.get x.u).toNat = false → raises i 0x16) ∧
        ((a.get x.u).toNat % 32 = 0 → (a.get x.u).toNat < 0x10000 ∨ populated (a.get x.u).toNat = true →
          (i = .touch a → passes i x.u) ∧ (i ≠ .touch a → raises i 0x1A))) ∧
      (∀ a w : USrc, (a.get x.u).toNat % 16 = 0 → populated (a.get x.u).toNat = true → 0x10000 ≤ (a.get x.u).toNat →
        s.owned 0 0 (a.get x.u).toNat 4 = false →
        if (w.get x.u).toNat % 2 ^ 32 ≤ s.num (a.get x.u).toNat 4 then passes (.cwait a w) x.u
        else exec (.cwait a w) s = .next { s with cur := none }) ∧
      (∀ a : USrc, Answers (exec (.nsignal a) s) fun t =>
        (t.core c.core).cox = Cox.advance c x ∧ t.groups = s.groups ∧ t.teams = s.teams ∧
        t.dies = (s.nsignal (c.core / 216) (BitVec.setWidth 32 (a.get x.u))).dies) ∧
      ∀ (a : USrc) (d : UDst),
        passes (.nqstat d a) (d.put false (s.nodeStatus (c.core / 216) (BitVec.setWidth 32 (a.get x.u))) x.u) ∧
        passes (.mrs (.u d) 8) (d.put false s.stroke x.u))

/-- R55, R107, R322-R324: an illegal instruction takes trap 0x01 with its first word, and a fetch that no landing serves, of a
team without auto-land, trap 0x08 with the address; on the cox both go to its vector. A group that waits for a place in the
full queue enters it once there is one. -/
def Sys2Proof.Claims.FetchTraps : Prop :=
  (∀ s c g tm i cause d1, s.Runs c g → tget s.teams g.tid = some tm → tm.desc.autoLand = false →
    (i = .illegalInstruction ∧ cause = 1 ∧ d1 = c.first.setWidth 64 ∨ i = .codeNotLanded ∧ cause = 8 ∧ d1 = c.next) →
    Answers (exec i s) fun t =>
      (∃ x, tget t.groups c.gkey = some { g with stop := some x } ∧ x.cause = cause ∧ x.unit = c.addr ∧ x.lanes = c.lanes ∧
        x.d1 = d1 ∧ x.d2 = 0 ∧ x.reason = 1) ∧
      (∀ j, j ≠ c.gkey → tget t.groups j = tget s.groups j) ∧ t.teams = s.teams ∧ SameMemory s t) ∧
  (∀ s c i cause, s.RunsCox c → (s.core c.core).cox.cause = 0 →
    (i = .illegalInstruction ∧ cause = 1 ∨ i = .codeNotLanded ∧ cause = 8) →
    exec i s = .next (s.modCore c.core fun n =>
      { n with cox := { n.cox with cause := BitVec.ofNat 64 cause, epc := c.addr, pc := n.cox.vec, rep := 0 } })) ∧
  ∀ s core k ks g x, (s.core core).trapWait = k :: ks → tget s.groups k = some g → g.stop = some x → x.reason = 1 →
    ((s.core core).reports.length < 64 → Answers (exec (.trapQueueAdmit core) s) fun t =>
      OnlyCore s t core ∧ (t.core core).trapWait = ks ∧ ∃ r : Report, (t.core core).reports = (s.core core).reports ++ [r] ∧
        r.gkey = k ∧ r.cause = x.cause ∧ r.unit = x.unit ∧ r.region = g.region ∧ r.d1 = x.d1 ∧ r.d2 = x.d2) ∧
    (64 ≤ (s.core core).reports.length → exec (.trapQueueAdmit core) s = .next s)

/-- The privilege trap, the illegal-instruction trap, the code-not-landed trap, the trap queue. -/
def Obligations.PrivilegeAndFetchTraps : Prop :=
  Claims.PrivilegeTraps ∧ Claims.CoxUniformWords ∧ Claims.FetchTraps

/-! ### Work of the engines -/

/-- R271, R304: a KEY.sort that its unit starts, over n pairs within the scratch of its team, ends with OK and leaves the pairs
at its destination, all of them free of memory errors, in ascending order of their keys, pairs with one key in their input order; no other byte of scratch
changes. -/
def Obligations.KeyedSortsAreStable : Prop :=
  ∀ s core (c : Cmd) tm (k16 : Bool) (src dst n : Nat),
    (s.core core).vq = [c] → (s.core core).dt = [] → c.state = .queued → c.major = 0x25 → c.seq = false →
    c.f7 = 0x10 * k16.toNat → c.status = 0 → (∀ x ∈ s.cores, ∀ y ∈ x.2.vq ++ x.2.dt, y.id = c.id) →
    c.ops = [BitVec.ofNat 64 (src + 2 ^ 32 * dst), BitVec.ofNat 64 n, 0, 0] → src < 2 ^ 32 → dst < 2 ^ 32 → n ≤ 65536 →
    tget s.teams c.tid = some tm → tm.core = core → tm.badBytes = [] → src % 8 = 0 → dst % 8 = 0 → src + 8 * n ≤ tm.sBytes →
    dst + 8 * n ≤ tm.sBytes → (src = dst ∨ src + 8 * n ≤ dst ∨ dst + 8 * n ≤ src) →
    Answers (exec (.engineCommandStart core c.id) s) fun t =>
      let pairs := fun (m : Tab Byte) (a : Nat) =>
        (List.range n).map fun i => (leNat (mread m (a + 8 * i) 4), leNat (mread m (a + 8 * i + 4) 4))
      let key := fun (p : Nat × Nat) => if k16 then p.1 % 2 ^ 16 else p.1
      SameMemory s t ∧ t.groups = s.groups ∧
      (∃ y, (t.core core).vq = [y] ∧ y.id = c.id ∧ y.state = .done ∧ y.status = 0 ∧ y.flags = c.flags) ∧
      ∃ m, (∀ k, tget t.teams k = if k = c.tid then some { tm with scratch := m } else tget s.teams k) ∧
        (∀ a, a < dst ∨ dst + 8 * n ≤ a → mrd m a = mrd tm.scratch a) ∧
        (pairs m dst).Pairwise (fun p q => key p ≤ key q) ∧
        ∀ k, (pairs m dst).filter (fun p => key p == k) = (pairs tm.scratch src).filter fun p => key p == k

/-- R254, R256: when a finished command is completed its failure, once, joins the `efaddr` of the group that issued it, while
that lives, unless it holds one already, its
completion object has its count raised, its flags and its first failure joined and its sequence number raised, and its entry is
free. -/
def Sys2Proof.Claims.CompletedCommands : Prop :=
  ∀ s core (c : Cmd), (s.core core).vq = [c] → (s.core core).dt = [] → c.state = .done → c.major ≠ 0x22 → c.inputs = 0 →
    (c.major = 0x23 → c.ops ≠ []) → s.peerWaits = [] → (∀ x ∈ s.cores, ∀ y ∈ x.2.vq ++ x.2.dt, y.id = c.id) →
    let noted := fun (g : Group) =>
      if c.status ≠ 0 ∧ c.noted = false ∧ c.orphan = false ∧ g.efaddr.toNat / 2 ^ 56 = 0 then
        { g with efaddr := BitVec.ofNat 64 (2 ^ 56 * c.status + c.detail.toNat % 2 ^ 54) } else g
    let after := fun (t : State) => (t.core core).vq = [] ∧ t.teams = s.teams ∧
      ∀ k, tget t.groups k = (tget s.groups k).map fun g => if k = c.gkey then noted g else g
    (c.cobj = 0 → Answers (exec (.commandComplete core c.id) s) fun t => after t ∧ SameMemory s t) ∧
    ∀ pa tagged s1, c.cobj ≠ 0 → c.cobj.toNat % 16 = 0 → (s.die (dieOf core)).faults = [] →
      (s.recordFailure core c).translate core (s.teamAsid c.tid) c.cobj.toNat .engWrite = (.to (.here pa tagged), s1) →
      (tagged = true → s1.tag pa = tagValue) →
      let x := s1.num pa 16
      let count := (x + 1) % 2 ^ 32
      let flags := (x / 2 ^ 32 ||| c.flags) % 2 ^ 8
      let status := if x / 2 ^ 40 % 2 ^ 8 = 0 then c.status % 2 ^ 8 else x / 2 ^ 40 % 2 ^ 8
      x / 2 ^ 96 = 0 →
      Answers (exec (.commandComplete core c.id) s) fun t =>
        after t ∧ MemoryBut s1 t pa 8 (count + 2 ^ 32 * flags + 2 ^ 40 * status + 2 ^ 48 * ((x / 2 ^ 48 + 1) % 2 ^ 16))

/-- R263: the oldest task of the dependency table, its block readable, issues once every declared input has its slots filled beyond those handed out
and claimed, and claims them (log entry 29 says that it keeps the claims by ring and count); it then stands behind the tasks
already issued. -/
def Sys2Proof.Claims.TaskIssues : Prop :=
  ∀ s core (c : Cmd) l, (s.core core).dt = l ++ [c] → (∀ x ∈ l, x.state ≠ .queued) → c.state = .queued →
    (∀ x ∈ l, x.id ≠ c.id) → (s.core core).tiles = [] →
    (c.major = 0x22 ∨ c.major = 0x23 → (s.peekBlock core c).isSome = true) →
    let after := fun (claims : List (Nat × Nat)) (t : State) => t.groups = s.groups ∧ t.teams = s.teams ∧ SameMemory s t ∧
      (t.core core).dt = l ++ [{ c with state := .issued, claims := claims, order := s.nextId }]
    (c.inputs = 0 → Answers (exec (.taskIssue core) s) fun t => after [] t ∧ (t.core core).rings = (s.core core).rings) ∧
    ∀ i n, i < 16 → 1 ≤ n → n ≤ 64 → c.inputs = BitVec.ofNat 64 (2 ^ 11 + 16 * n + i) →
      let r := (s.core core).ring i
      (r.a + r.claimed + n ≤ r.f → Answers (exec (.taskIssue core) s) fun t => after [(i, n)] t ∧
        ∀ j, j < 16 → (t.core core).ring j = if j = i then { r with claimed := r.claimed + n } else (s.core core).ring j) ∧
      (r.f < r.a + r.claimed + n → exec (.taskIssue core) s = .next s)

/-- Completion of a command, and the issue of a task. -/
def Obligations.CommandsCompleteAndTasksIssue : Prop :=
  Claims.CompletedCommands ∧ Claims.TaskIssues

/-- R30, R31, R264, R265: the matrix engine takes its task, begun, dense, without adapters and without a drain, through the
k-steps that are left: each element of its accumulator slot becomes the rounded sum, step by step, of what it held and the
products of its row of A and its column of B; the task is then finished. The other slot keeps its contents. -/
def Obligations.MatrixTasksAccumulate : Prop :=
  ∀ s core (c : Cmd) tm, (s.core core).vq = [] → (s.core core).dt = [c] → c.major = 0x22 → c.state = .running →
    c.ops ≠ [] → c.slots ≠ [] → c.rows = [] → c.status = 0 → s.peerWaits = [] → (∀ x ∈ s.cores, x.2.tiles = []) →
    tget s.teams c.tid = some tm →
    let k := c.task
    k.sparse = false → k.adapt = false → k.drain % 4 = 0 → k.trapNan = false → tm.desc.trapNan = false → c.elem ≤ k.ksteps →
    Answers (exec (.matrixTaskEnd core) s) fun t =>
      let products := fun (i j n : Nat) =>
        ((s.rowA core c k n i).zip (s.colB core c k [] n j)).map fun p => (p.1.mul p.2, p.1.isNan || p.2.isNan)
      t.groups = s.groups ∧ t.teams = s.teams ∧ SameMemory s t ∧
      (∃ y, (t.core core).dt = [y] ∧ y.id = c.id ∧ y.state = .done ∧ y.status = 0) ∧
      (∀ i j, i < 128 → j < 128 → (t.core core).accAt k.slot i j =
        if i < k.m ∧ j < k.n then
          (List.range (k.ksteps - c.elem)).foldl (fun v n => (acc40.kStep tm.desc.nbv v (products i j (c.elem + n))).1 % 2 ^ 40)
            ((s.core core).accAt k.slot i j)
        else (s.core core).accAt k.slot i j) ∧
      ∀ i j, (t.core core).accAt (1 - k.slot) i j = (s.core core).accAt (1 - k.slot) i j

/-- R220, R266, R273, R301, R326: the first partial tile that may be added is: each element of its slot becomes the rounded sum
of what it held and the tile's element, and its drain is finished; a task stopped by a NaN stops its group with the NaN trap
0x28, or goes on disarmed where its group has ended. When the trap is taken, the task that goes on, and that neither the values
sent nor the sums are flushed, are the model's choice (log entry 30). -/
def Sys2Proof.Claims.TilesAndNans : Prop :=
  (∀ s core (x : PartTile) l1 l2, (s.core core).tiles = l1 ++ x :: l2 → (∀ y ∈ l1, (s.core core).addable y = false) →
    (s.core core).addable x = true → x.slot < 2 → x.n ≤ 128 → x.tile.length = x.m * x.n →
    Answers (exec (.drainAddition core) s) fun t =>
      (t.core core).tiles = l1 ++ l2 ∧ t.groups = s.groups ∧ t.teams = s.teams ∧ SameMemory s t ∧
      (∀ y ∈ (t.core x.src).vq ++ (t.core x.src).dt, y.id = x.cmd → y.state = .done) ∧
      (∀ i j, i < x.m → j < x.n → (t.core core).accAt x.slot i j =
        acc40.rne (FVal.add (acc40.value ((s.core core).accAt x.slot i j))
          (acc40.value (x.tile[i * x.n + j]?.getD 0).toNat)) % 2 ^ 40) ∧
      ∀ i j, (t.core core).accAt (1 - x.slot) i j = (s.core core).accAt (1 - x.slot) i j) ∧
  ∀ s core (c : Cmd), (s.core core).vq = [] → (s.core core).dt = [c] → c.major = 0x22 → c.state = .nanStop false →
    coreOf c.gkey = core → core < 1728 → c.orphan = false →
    (tget s.groups c.gkey = none → Answers (exec (.matrixNanTrap core) s) fun t =>
      (t.core core).dt = [{ c with state := .running, disarm := true }] ∧ t.groups = s.groups ∧ SameMemory s t) ∧
    ∀ g, tget s.groups c.gkey = some g → g.stop = none → Answers (exec (.matrixNanTrap core) s) fun t =>
      (t.core core).dt = [{ c with state := .nanStop true }] ∧ t.teams = s.teams ∧ SameMemory s t ∧
      (∃ x, tget t.groups c.gkey = some { g with stop := some x } ∧ x.cause = 0x28 ∧ x.d1 = c.addr ∧ x.d2 = c.detail) ∧
      ∀ j, j ≠ c.gkey → tget t.groups j = tget s.groups j

/-- R268-R270: where the lines of a pending row of a task are filled, a row of id 0 stays uncorrected, a row whose adapter has no
good entry is noted ADAPTER with the entry's address, and any other is corrected, as AdapterCorrections says; the row is pending
no more. -/
def Sys2Proof.Claims.AdapterRows : Prop :=
  ∀ s core (c : Cmd) i is, (s.core core).vq = [] → (s.core core).dt = [c] → c.major = 0x22 → c.state = .running →
    c.slots ≠ [] → c.rows = i :: is → i ∉ is → c.task.ksteps < c.elem → s.peerWaits = [] →
    let id := leNat (s.localGet c.tid 3 (c.task.idoff + 2 * i) 2)
    (id = 0 → Answers (exec (.adapterLineFill core) s) fun t =>
      (t.core core).dt = [{ c with rows := is }] ∧ (t.core core).acc = (s.core core).acc ∧ t.teams = s.teams ∧ SameMemory s t) ∧
    (∀ s1, id ≠ 0 → s.adapterEntry core c c.task.atab id = (s1, .ok none) → (s1.core core).dt = [c] → (s1.core core).vq = [] →
      c.status = 0 → Answers (exec (.adapterLineFill core) s) fun t =>
        (t.core core).dt = [{ c with rows := is, status := 9, detail := BitVec.ofNat 64 (c.task.atab + 16 * id) }] ∧
        (t.core core).acc = (s1.core core).acc ∧ SameMemory s1 t) ∧
    ∀ s1 s2 e, id ≠ 0 → s.adapterEntry core c c.task.atab id = (s1, .ok (some e)) →
      e.serves c.task = true → s1.correct core c e c.task i id = (s2, .ok none) →
      Answers (exec (.adapterLineFill core) s) fun t =>
        (t.core core).acc = (s2.core core).acc ∧ t.teams = s2.teams ∧ SameMemory s2 t ∧
        ∀ y ∈ (t.core core).vq ++ (t.core core).dt, y.id = c.id → i ∉ y.rows

/-- R269: the correction of a row whose lines are all in the cache: u[j], from +0 on, takes with each k-step the rounded sum of
itself and the step's products of the row and the first factor; then each element of the row takes the rounded sum of itself
and alpha times the sum of the products of the u[j], rounded to BF16, and the second factor. With transposition the factors are
those of B and A. No other element changes. -/
def Sys2Proof.Claims.AdapterCorrections : Prop :=
  ∀ s core (c : Cmd) (e : AdEntry) (t : Task) i id (la : List AdLine) (lb : AdLine) s2 found, t.slot < 2 → t.n ≤ 128 →
    la.length = t.blocks → (∀ b l, la[b]? = some l → (s.core core).adLine id t.layer b 0 = some l) →
    (s.core core).adLine id t.layer 0 1 = some lb → s.correct core c e t i id = (s2, .ok found) →
    let element := fun (bs : List Byte) (k : Nat) => bf16.value (leNat ((bs.drop (2 * k)).take 2))
    let a := fun (k j : Nat) => element ((la[k / 256]?.map (·.data)).getD []) (k % 256 * e.rank + j)
    let b := fun (j n : Nat) => element lb.data (j * e.width + n)
    let first := fun (k j : Nat) => if t.trans then b j k else a k j
    let second := fun (j n : Nat) => if t.trans then a n j else b j n
    let row := (List.range t.ksteps).flatMap fun step => s.rowA core c t step i
    let x := fun (k : Nat) => row[k]?.getD (.fin false 0 0)
    let plus := fun (v : Nat) (y : FVal) => acc40.rne (FVal.add (acc40.value v) y.plain)
    let u := fun (j : Nat) => (List.range t.ksteps).foldl (fun v step =>
      plus v (FVal.sum ((List.range t.step).map fun k => (x (k + step * t.step)).mul (first (k + step * t.step) j)))) 0
    let old := fun (k n : Nat) => (s.core core).accAt t.slot k n
    SameMemory s s2 ∧ s2.groups = s.groups ∧ s2.teams = s.teams ∧
      (∀ n, n < t.n → (s2.core core).accAt t.slot i n = plus (old i n) (FVal.sum
        [(FVal.sum ((List.range e.rank).map fun j => (bf16.value (bf16.rne (acc40.value (u j)))).mul (second j n))).mul
          (fp32.value e.alpha)]) % 2 ^ 40) ∧
      (∀ k n, n < 128 → k ≠ i ∨ t.n ≤ n → (s2.core core).accAt t.slot k n = old k n) ∧
      ∀ k n, (s2.core core).accAt (1 - t.slot) k n = (s.core core).accAt (1 - t.slot) k n

/-- Partial tiles are added, a NaN stops a task, adapter rows are corrected. -/
def Obligations.TilesNansAndAdapters : Prop :=
  Claims.TilesAndNans ∧ Claims.AdapterRows ∧ Claims.AdapterCorrections

/-- R262, R267, R293: a copy into a lane or matrix ring of its own team whose box moves into the ring's next slot counts the
slot as filled, is finished, and the lanes that waited for the ring are active again; a copy into a sparsity queue puts one
entry of 1 KiB into the queue and is finished with its last. -/
def Obligations.RingsAndQueuesFill : Prop :=
  ∀ s core (c : Cmd) tm s1 bs, (s.core core).vq = [c] → (s.core core).dt = [] → c.major = 0x20 → c.state = .running →
    c.ops.length = 12 → c.slots = [] → s.peerWaits = [] → tget s.teams c.tid = some tm → tm.core = core →
    (∀ x ∈ s.cores, ∀ y ∈ x.2.vq ++ x.2.dt, y.id = c.id) →
    let x := (c.ops[3]?.getD 0).toNat
    let i := x / 2 ^ 8 % 16
    let r := c.shape
    let g := (s.core core).ring i
    let ends := fun (t : State) (P : Cmd → Prop) => ∀ y ∈ (t.core core).vq ++ (t.core core).dt, y.id = c.id → P y
    (x % 16 = 4 → g.f ≠ g.r + g.slots → c.elem = 0 →
      (s.modCmd core c.id fun y => { y with
        slots := [g.f], owns := s.localOwn c.tid g.space (g.slotBase g.f) g.bytes }).copyIn core c r
          [(c.tid, g.space, g.slotBase g.f)] 0 r.units = (s1, .ok ()) →
      (∀ z ∈ s1.cores, ∀ y ∈ z.2.posted, y.wait ≠ some (.ringAcq i)) →
      Answers (exec (.ringFill core c.id) s) fun t =>
        t.teams = s1.teams ∧ SameMemory s1 t ∧ ends t (fun y => y.state = .done) ∧
        (∀ j, j < 16 → (t.core core).ring j =
          if j = i then { (s1.core core).ring i with f := ((s1.core core).ring i).f + 1 } else (s1.core core).ring j) ∧
        ∀ k h, rising s1.groups = true → tget s1.groups k = some h → ∃ h', tget t.groups k = some h' ∧ ∀ q, q < 32 →
          h'.lane q = if h.tid = c.tid ∧ (h.lane q).state = .parked (.ringAcq i) then { h.lane q with state := .active }
            else h.lane q) ∧
    (x % 16 = 5 → i < 4 → (((s.core core).sq[i]?).getD []).length < 256 →
      { s with fresh := s.fresh + 1 }.entryBytes core c r c.elem
        ((List.range 1024).map fun j => Config.freeByte (1024 * s.fresh + j)) (r.entryUnits c.elem) = (s1, .ok bs) →
      Answers (exec (.sparsityQueueFill core c.id) s) fun t =>
        t.groups = s1.groups ∧ t.teams = s1.teams ∧ SameMemory s1 t ∧
        ((t.core core).sq[i]?).getD [] = (((s1.core core).sq[i]?).getD []) ++ [bs] ∧
        (r.bytes ≤ 1024 * (c.elem + 1) → ends t fun y => y.state = .done) ∧
        (1024 * (c.elem + 1) < r.bytes → ends t fun y => y.elem = c.elem + 1))

/-! ### The boathouse -/

/-- R278, R280-R282: a signal at a node that is not ready leaves it one fewer to wait for; a record that arrives joins the open
tile of its queue, or is discarded where it is neither valid nor kept; a tile that is full or flushed, or whose timer has
expired, or that was open when its queue closed, or to which no record is still to come after that, closes and enters the pool.
That the flush bit of a discarded record has no effect is the model's choice (log entry 31). -/
def Sys2Proof.Claims.RecordsAndTiles : Prop :=
  (∀ s (h : Word) die e (y : Node), s.findNode h = some (die, e, y) → h ≠ 0 → y.ready = false → 1 < y.need →
    Answers (exec (.nodeSignal h) s) fun t => t.findNode h = some (die, e, { y with need := y.need - 1 }) ∧
      t.groups = s.groups ∧ t.teams = s.teams ∧ SameMemory s t) ∧
  ∀ s die q nd e (n : Node), die < 8 → s.queueNode die q = some (nd, e, n) → (s.die die).pool.length < 8192 → n.closed = false →
    let x := s.queue die q
    let closes := fun (t : State) (rs : List (List Word)) =>
      t.groups = s.groups ∧ t.teams = s.teams ∧ SameMemory s t ∧
      t.queue die q = { x with arrive := [], opened := [], start := none, shut := false } ∧
      t.queueNode die q = some (nd, e, { n with teams := n.teams + 1 }) ∧
      ∃ y : PoolEntry, (t.die die).pool = (s.die die).pool ++ [y] ∧ y.item = .tile (4096 * nd + e) rs ∧ y.prio = n.desc.prio ∧
        y.since = s.stroke
    let waits := fun (t : State) (y : RecQueue) =>
      t.groups = s.groups ∧ t.teams = s.teams ∧ SameMemory s t ∧ t.queue die q = y ∧ (t.die die).pool = (s.die die).pool
    (∀ r : List Word, x.arrive = [r] → x.shut = false → (x.start = none ∨ n.desc.flush = 0) →
      let w := (r[2]?.getD 0).toNat
      let kept := w % 2 ^ 16 ≠ 0 ∨ w / 2 ^ 16 % 2 = 1
      let full := n.desc.tile ≤ x.opened.length + 1 ∨ w / 2 ^ 17 % 2 = 1
      (¬ kept → Answers (exec (.recordArrival die q) s) fun t => waits t { x with arrive := [] }) ∧
      (kept → full → Answers (exec (.recordArrival die q) s) fun t => closes t (x.opened ++ [r])) ∧
      (kept → ¬ full → Answers (exec (.recordArrival die q) s) fun t =>
        waits t { x with arrive := [], opened := x.opened ++ [r], start := if x.opened = [] then some s.stroke else x.start })) ∧
    (x.closed = true → x.opened ≠ [] → x.arrive = [] → (x.shut = true ∨ ∀ r, .record q r ∉ (s.die die).slip) →
      Answers (exec (.flushTimerExpiry die q) s) fun t => closes t x.opened) ∧
    ∀ t0, x.closed = false → x.start = some t0 → x.opened ≠ [] → x.arrive = [] → n.desc.flush ≠ 0 →
      let due := 75 * n.desc.flush ≤ 4 * (s.stroke - t0).toNat
      (due → Answers (exec (.flushTimerExpiry die q) s) fun t => closes t x.opened) ∧
      (¬ due → exec (.flushTimerExpiry die q) s = .next s)

/-- R287: the oldest item of the slipway returns to the pool or to its queue while there is room, and the event of a full
slipway may come again; an entry waits in the pool from then on, and the group that has waited longest for room replays next. -/
def Sys2Proof.Claims.SlipwayReturns : Prop :=
  ∀ s die x xs, die < 8 → (s.die die).slip = x :: xs → (s.die die).nodes = [] → (s.die die).yielded = [] →
    (s.die die).moved = [] →
    let after := fun (t : State) =>
      (t.die die).slip = xs ∧ (t.die die).slipEvent = false ∧
        (t.die die).slipHead = (s.die die).slipHead + Config.slipItemBytes ∧ t.teams = s.teams ∧ SameMemory s t
    (∀ e, x = .pool e → (s.die die).stalled = [] → (s.die die).pool.length < 8192 →
      Answers (exec (.slipwayReturn die) s) fun t => after t ∧ t.groups = s.groups ∧
        ∃ y : PoolEntry, (t.die die).pool = (s.die die).pool ++ [y] ∧ y.item = e.item ∧ y.prio = e.prio ∧ y.since = s.stroke) ∧
    (∀ q r, x = .record q r → (s.die die).stalled = [] → (s.die die).records < 16384 → (s.queueNode die q).isSome = true →
      Answers (exec (.slipwayReturn die) s) fun t => after t ∧ t.groups = s.groups ∧
        t.queue die q = { s.queue die q with arrive := (s.queue die q).arrive ++ [r] }) ∧
    ∀ e k ks g, x = .pool e → (s.die die).stalled = k :: ks → (s.die die).pool.length < 8191 → tget s.groups k = some g →
      (∀ y ∈ (s.core (postCore k)).posted, y.wait ≠ some .slipway) →
      Answers (exec (.slipwayReturn die) s) fun t => after t ∧ (t.die die).stalled = ks ∧
        (∃ w, t.agenda = .replay w :: s.agenda ∧ w.gkey = k) ∧
        GroupBecomes s t k g fun q =>
          if (g.lane q).state = .parked .slipway then { g.lane q with state := .active } else g.lane q

/-- Signals, records, tiles, the slipway. -/
def Obligations.RecordsBecomeTiles : Prop :=
  Claims.RecordsAndTiles ∧ Claims.SlipwayReturns

/-- R190, R209, R279, R283, R284, R346: a decision places what the die would place next where that is an entry of its own pool,
and else leaves everything as it is. The only entry of a pool, a grid of clusters of one team, is placed on the lowest core where it
fits: a team of the grid's next index, whose groups have their lanes active at the entry with their lane ids, and s0 to s4 as
R279 says (in a cluster of one team x and y are 0); the team asks the cox for its placement, and the entry goes on to the next cluster or leaves the pool. -/
def Sys2Proof.Claims.Placements : Prop :=
  (∀ s die, ∃ t, exec (.placementDecision die) s = .next t ∧ (s.placementDue die = false → t = s) ∧
    ∀ c cores, s.best die = some (c, cores) → c.arb = false → t = s.placeFromPool die c cores) ∧
  ∀ s die (e : PoolEntry) key next stop (n : Node), die < 8 → (s.die die).pool = [e] → e.item = .grid key next stop →
    s.nodeAt key = some n → n.desc.cw = 1 → n.desc.ch = 1 → n.desc.groups ≤ 64 → s.arb = [] → s.teams = [] → s.groups = [] →
    (s.die die).vacates = [] → (s.die die).reserved = [] → s.coreFits (216 * die) n.desc = true →
    Answers (exec (.placementDecision die) s) fun t =>
      let core := 216 * die
      SameMemory s t ∧
      (if next + 1 < stop then ∃ y : PoolEntry, (t.die die).pool = [y] ∧ y.item = .grid key (next + 1) stop ∧ y.prio = e.prio
        else (t.die die).pool = []) ∧
      (t.core core).places = (s.core core).places ++ [s.nextId] ∧
      (∃ tm, t.teams = [(s.nextId, tm)] ∧ tm.core = core ∧ tm.die = die ∧ tm.tidx = next ∧ tm.kind = .grid ∧ tm.desc = n.desc ∧
        tm.cluster = [s.nextId] ∧ tm.placed = false ∧ tm.prio = e.prio ∧ tm.scratch = [] ∧
        tm.handle = handleOf (key / 4096) n.gen (key % 4096) ∧
        ∀ x ∈ t.groups, x.2.u.reg 4 = tm.handle.setWidth 64) ∧
      t.groups.length = n.desc.groups ∧
      let d := n.desc
      let s2 := next % d.gx + 2 ^ 16 * (next / d.gx % d.gy) + 2 ^ 32 * (next / (d.gx * d.gy) % d.gz)
      ∀ x ∈ t.groups, coreOf x.1 = core ∧ x.2.tid = s.nextId ∧ x.2.released = false ∧ x.2.frame = n.desc.frame ∧
        x.2.index < n.desc.groups ∧ x.2.u.reg 0 = BitVec.ofNat 64 n.desc.args ∧ x.2.u.reg 1 = BitVec.ofNat 64 next ∧ x.2.u.reg 2 = BitVec.ofNat 64 s2 ∧
        x.2.u.reg 3 = 0 ∧ (∀ r, 5 ≤ r → x.2.u.reg r = 0) ∧
        ∀ p, p < 32 → (x.2.lane p).state = .active ∧ (x.2.lane p).vpc = BitVec.ofNat 64 n.desc.entry ∧
          (x.2.lane p).lid = BitVec.ofNat 32 (32 * x.2.index + p) ∧ (x.2.lane p).lrng = BitVec.ofNat 64 (32 * x.2.index + p) ∧
          ∀ r, (x.2.lane p).reg r = 0

/-- R192, R279: a placed team of a cluster of one whose segment is none or has landed, on a core with its menu entry, starts: its
groups are released; a team that is not placed yet stays as it is. A core whose teams chose another menu entry applies it and
loses what its L1 holds; else nothing changes. -/
def Sys2Proof.Claims.TeamStarts : Prop :=
  (∀ s tid tm, tget s.teams tid = some tm → tm.cluster = [tid] → tm.placed = true → (tm.landed = true ∨ tm.desc.seg = 0) →
    (s.core tm.core).menu = some tm.desc.menu → rising s.groups = true →
    Answers (exec (.teamStart tid) s) fun t => SameMemory s t ∧
      (∀ k, tget t.teams k = if k = tid then some { tm with landed := true } else tget s.teams k) ∧
      ∀ k g, tget s.groups k = some g → ∃ a, tget t.groups k =
        some (if g.tid = tid then { g with released := true, acq := a } else g)) ∧
  (∀ s tid, ∃ t, exec (.teamStart tid) s = .next t ∧
    ((∀ tm, tget s.teams tid = some tm → tm.placed = false) → t = s)) ∧
  ∀ s core entry, ∃ t, exec (.menuEntryApply core entry) s = .next t ∧
    let due := s.teamsOn core ≠ [] ∧ (∀ x ∈ s.teamsOn core, x.desc.menu = entry) ∧ (s.core core).menu ≠ some entry
    (due → t = s.modCore core fun k => { k with menu := some entry, l1 := [], stale := [], hostStale := [] }) ∧ (¬ due → t = s)

/-- A placement decision, the start of a team and the application of a menu entry each complete: what they do. -/
def Obligations.TeamsArePlacedAndStart : Prop :=
  Claims.Placements ∧ Claims.TeamStarts

/-- R283, R284, R286: the package arbiter hands the next cluster of an entry to the first die that asks; priorities age by one
for each 16384 strokes, up to 7; the oldest starved entry of a die reserves the cores it would take if they were empty. -/
def Obligations.PoolsAgeAndReserve : Prop :=
  (∀ s die c cores e n, s.asking = some (die, c, cores) → s.arb[c.idx]? = some e → e.res = [] →
    tget (s.die e.die).nodes e.entry = some n → Answers (exec .packageArbiterHandout s) fun t =>
      let r := (s.serve die c.level c.key).placeCluster die (handleOf e.die n.gen e.entry) n.desc e.next cores
      t.teams = r.teams ∧ t.groups = r.groups ∧ t.arbLast = die ∧ SameMemory s t ∧
      (e.stop ≤ e.next + 1 → t.arb = s.arb.eraseIdx c.idx) ∧
      (e.next + 1 < e.stop → ∃ y : ArbEntry, t.arb = s.arb.set c.idx y ∧ y.next = e.next + 1 ∧ y.stop = e.stop ∧
        y.since = s.stroke)) ∧
  (∀ s die, die < 8 → s.arb = [] → Answers (exec (.priorityAging die) s) fun t =>
    t.groups = s.groups ∧ t.teams = s.teams ∧ SameMemory s t ∧
    (t.die die).pool = (s.die die).pool.map fun x =>
      let v := min 7 (x.prio + (s.stroke - x.since).toNat / 16384)
      { x with e := v, at7 := if 7 ≤ v ∧ x.at7 = none then some (x.since + BitVec.ofNat 64 (16384 * (7 - x.prio))) else x.at7 }) ∧
  ∀ s die c cores, die < 8 → s.reserver die = some c → s.spot die c true = some cores → c.arb = false →
    Answers (exec (.reservation die) s) fun t =>
      t.groups = s.groups ∧ t.teams = s.teams ∧ SameMemory s t ∧ (t.die die).reserved = cores.map (· % 216) ∧
      ∀ i : Nat, (t.die die).pool[i]? = ((s.die die).pool[i]?).map fun x => if i = c.idx then { x with res := true } else x

/-- R160, R284, R288, R337: a grid team whose lanes have exited and whose operations are done ends: what it held is free, and it
is counted at its node, which leaves the table with the last of its grid. A team all of whose lanes wait for the next phase is
written to its phase record and leaves its core, and its next phase enters the pool, at the base priority of its descriptor, or,
of an evaluator, at that of its cell, which its waiters have raised. -/
def Sys2Proof.Claims.EndsOfTeams : Prop :=
  (∀ s tid tm die e (n : Node), tget s.teams tid = some tm → tm.core < 1728 → s.teamGone tid = true → s.teamBusy tid = false →
    tm.kind = .grid → tm.counted = false → s.findNode tm.handle = some (die, e, n) → n.desc.rqen = false → n.desc.cobj = 0 →
    (∀ i, ∀ x ∈ (s.die i).cells, x.team ≠ some tid) → (∀ i, (s.die i).yielded = []) → rising s.groups = true →
    Answers (exec (.teamEnd tid) s) fun t => SameMemory s t ∧ tget t.teams tid = none ∧
      (∀ k, k ≠ tid → tget t.teams k = tget s.teams k) ∧
      (∀ k, tget t.groups k = (tget s.groups k).bind fun g => if g.tid = tid then none else some g) ∧
      tget (t.die die).nodes e =
        if n.desc.gx * n.desc.gy * n.desc.gz * n.desc.cw * n.desc.ch ≤ n.ended + 1 then none
        else some { n with ended := n.ended + 1 }) ∧
  ∀ s tid tm i, tget s.teams tid = some tm → tm.die < 8 → s.phaseDue tid = true → (s.die tm.die).freePhase = some i →
    tm.cluster = [tid] → (s.die tm.die).yielded = [] → (s.die tm.die).pool.length < 8192 →
    Answers (exec (.phaseRecordWrite tid) s) fun t =>
      let pa := (s.die tm.die).phbase.toNat / 2 ^ 18 % 2 ^ 34 * 2 ^ 18 + 2 ^ 18 * i
      tget t.teams tid = none ∧ (t.die tm.die).phases = (s.die tm.die).phases ++ [i] ∧
      (∃ y : PoolEntry, (t.die tm.die).pool = (s.die tm.die).pool ++ [y] ∧
        (match tm.kind with
        | .evaluator q => ∀ ev, s.evaluation q = some ev → y.prio = max tm.prio ev.prio
        | _ => y.prio = tm.desc.prio) ∧
        y.item = .phase [i] [{ tm with phase := tm.phase + 1 }]) ∧
      t.num pa 4 = tm.handle.toNat ∧ t.num (pa + 4) 4 = tm.phase % 2 ^ 32 ∧ t.num (pa + 8) 4 = tm.tidx % 2 ^ 32 ∧
      ∀ a, a < pa → t.byte a = s.byte a

/-- R155, R156, R158: a gather firing starts its run: a callee thread in a group of its own, active at the callee with the number
of its callers in v0, the callers' v0 to v7 in the slots of the gather area, and one lane and one group slot charged. -/
def Sys2Proof.Claims.GatherFirings : Prop :=
  ∀ s tid tm (f : Firing) (r : GatherRun) rs k p g w, tget s.teams tid = some tm → tm.firings = [f] → f.runs = r :: rs →
    f.begun = true → f.thread = none → f.stuck = false → f.wait = none → g.stop = none → r.callers.head? = some (k, p) → tget s.groups k = some g →
    g.tid = tid → coreOf k = tm.core → s.HasHeader k r.callee 2 w → 1 ≤ tm.quota → 1 ≤ tm.wslots →
    (∃ j, j < 64 ∧ tget s.groups (64 * tm.core + j) = none) →
    Answers (exec (.gatherFiring tid) s) fun t => SameMemory s t ∧
      (∃ y key h, tget t.teams tid = some y ∧ y.quota = tm.quota - 1 ∧ y.wslots = tm.wslots - 1 ∧
        coreOf key = tm.core ∧ tget s.groups key = none ∧ tget t.groups key = some h ∧ h.tid = tid ∧ h.kind = .thread f.level ∧
        (h.lane 0).state = .active ∧ (h.lane 0).vpc = r.callee ∧ (h.lane 0).reg 0 = BitVec.ofNat 32 r.callers.length ∧
        (∀ q, 1 ≤ q → q < 32 → (h.lane q).state = .absent) ∧
        (∀ i c j, r.callers[i]? = some c → j < 8 → (tget y.gather (8 * i + j)).getD 0 =
          ((tget s.groups c.1).map fun x => (x.lane c.2).reg j).getD (Lane.blank.reg j)) ∧
        ∀ j, j ≠ key → tget t.groups j = tget s.groups j)

/-- The end of a team, and a gather firing. -/
def Obligations.TeamsEndAndGathersFire : Prop :=
  Claims.EndsOfTeams ∧ Claims.GatherFirings

/-! ### Events of the die, the host, the device -/

/-- R201, R202, R336, R353, R354, R362: the events of system software on registers. An invalidation of translations takes those
that cover a page, those of an address space, or all out of every buffer; a resolved page lets the lanes and commands parked on
it replay and its later faults be reported anew; a route does the same for what was parked for its device, its bits 30:24 zero; the counters are
cleared; the vacate set gains a core or is empty. -/
def Sys2Proof.Claims.SystemRegisterEvents : Prop :=
  (∀ s i (f : TlbEntry → Bool),
    (∃ a p, i = .tlbinvPage a p ∧ f = fun x => x.asid == a && (decide (x.page ≤ p) && decide (p < x.page + x.pages))) ∨
      (∃ a, i = .tlbinvAsid a ∧ f = fun x => x.asid == a) ∨ (i = .tlbinvAll ∧ f = fun _ => true) →
    Answers (exec i s) fun t => t.groups = s.groups ∧ t.teams = s.teams ∧ SameMemory s t ∧
      (∀ k, (t.core k).tlb = (s.core k).tlb.filter fun x => !f x) ∧ ∀ k, (t.die k).tlb = (s.die k).tlb.filter fun x => !f x) ∧
  (∀ s die asid page k g, tget s.groups k = some g → rising s.groups = true → coreOf k < 1728 → dieOf (coreOf k) = die →
    (∀ x ∈ s.cores, ∀ y ∈ x.2.posted, y.wait ≠ some (.fault asid page)) → s.noRunWaits →
    Answers (exec (.pgdone die asid page) s) fun t => t.teams = s.teams ∧ SameMemory s t ∧
      (∃ h, tget t.groups k = some h ∧ ∀ q, q < 32 → h.lane q =
        if (g.lane q).state = .parked (.fault asid page) then { g.lane q with state := .active } else g.lane q) ∧
      ∀ a, a < 16 ∨ a = 32 → (asid, page, a) ∉ (t.die die).faults) ∧
  (∀ s (v : Word) k g, tget s.groups k = some g → rising s.groups = true → coreOf k < 1728 →
    (∀ x ∈ s.cores, ∀ y ∈ x.2.posted, y.wait ≠ some (.peer s.wrsel.toNat)) → s.noRunWaits → (∀ die, (s.die die).faults = []) →
    Answers (exec (.wrouteWrite v) s) fun t => t.teams = s.teams ∧ SameMemory s t ∧
      (∀ j, tget t.routes j = if j = s.wrsel.toNat then some (v &&& 0x80FFFFFF#32) else tget s.routes j) ∧
      ∃ h, tget t.groups k = some h ∧ ∀ q, q < 32 → h.lane q =
        if (g.lane q).state = .parked (.peer s.wrsel.toNat) then { g.lane q with state := .active } else g.lane q) ∧
  ∀ s die core, die < 8 →
    (Answers (exec (.eccClear die) s) fun t => t = { s with dies := t.dies } ∧
      ∀ j, t.die j = if j = die then { s.die j with ecc := 0 } else s.die j) ∧
    (Answers (exec (.vacsetEmpty die) s) fun t => t = { s with dies := t.dies } ∧
      ∀ j, t.die j = if j = die then { s.die j with vacset := [] } else s.die j) ∧
    Answers (exec (.vacsetAdd die core) s) fun t => t = { s with dies := t.dies } ∧ core ∈ (t.die die).vacset ∧
      ∀ j, t.die j = if j = die then { s.die j with vacset := (t.die die).vacset } else s.die j

/-- R339, R353: while the ring of a die has space, the oldest event held on chip goes to its slot, 64 bytes with its kind, die,
cause, access, number, addresses and masks, and the tail moves on; a write of `evhead` makes the space. A status bit tells of
the first event of an empty ring. -/
def Sys2Proof.Claims.EventRing : Prop :=
  ∀ s die (e : Event) (v : Word), die < 8 → (s.die die).evhold = [e] → (s.die die).evwait = [] → (s.die die).evbase ≠ 0 →
    let d := s.die die
    let pa := d.evbase.toNat / 2 ^ 12 % 2 ^ 40 * 2 ^ 12 + 64 * (d.evtail.toNat % d.evsize.toNat)
    let goes := fun (t : State) (head : Word) =>
      (t.die die).evhold = [] ∧ (t.die die).evtail = d.evtail + 1 ∧ (t.die die).evhead = head ∧ t.groups = s.groups ∧
      t.teams = s.teams ∧ (∀ a, a < pa ∨ pa + 64 ≤ a → t.byte a = s.byte a) ∧
      t.num pa 1 = e.kind % 2 ^ 8 ∧ t.num (pa + 1) 1 = die ∧ t.num (pa + 2) 1 = e.cause % 2 ^ 8 ∧
      t.num (pa + 3) 1 = e.access % 2 ^ 8 ∧ t.num (pa + 4) 4 = e.seq.toNat ∧
      t.num (pa + 8) 4 = (e.asid + 2 ^ 12 * e.core + 2 ^ 24 * e.gref) % 2 ^ 32 ∧ t.num (pa + 12) 4 = e.handle.toNat ∧
      t.num (pa + 16) 4 = e.tidx % 2 ^ 32 ∧ t.num (pa + 20) 4 = e.mask.toNat ∧ t.num (pa + 24) 8 = e.addr.toNat ∧
      t.num (pa + 32) 8 = e.aux.toNat ∧ (d.evtail = head → t.evStatus.getLsbD (16 + die) = true ∧ t.evStatus.getLsbD 3 = true)
    ((d.evtail - d.evhead).toNat < d.evsize.toNat → Answers (exec (.eventHoldRelease die) s) fun t => goes t d.evhead) ∧
    (d.evsize.toNat ≤ (d.evtail - d.evhead).toNat → exec (.eventHoldRelease die) s = .next s) ∧
    ((d.evtail - v).toNat < d.evsize.toNat → Answers (exec (.evheadWrite die v) s) fun t => goes t v)

/-- Events of system software on registers, and the event ring. -/
def Obligations.SystemEventsAndTheEventRing : Prop :=
  Claims.SystemRegisterEvents ∧ Claims.EventRing

/-- R330, R334: a vacate takes the cores of the vacate set, which is then empty, and stops the groups of their clusters that do
not run, the other cores of those clusters with them; a hard stop stops those that still run; a vacate whose one team, of a cluster of one, stands still writes the
directory of its core's slot and the team's record, takes the team off its core and puts it into the pool one priority
higher. -/
def Obligations.VacatesStopAndSave : Prop :=
  (∀ s die (cobj : DWord), die < 8 → Answers (exec (.vacgo die cobj) s) fun t => t.teams = s.teams ∧ SameMemory s t ∧
    (t.die die).vacset = [] ∧
    (∃ v : Vacate, (t.die die).vacates = (s.die die).vacates ++ [v] ∧ v.cobj = cobj ∧
      (∀ i, i ∈ v.teams ↔ (∃ y, tget s.teams i = some y ∧ y.core < 1728) ∧
        ∃ x ∈ s.teams, i ∈ x.2.cluster ∧ ∃ c ∈ (s.die die).vacset, x.2.core = 216 * die + c) ∧
      ∀ m, m ∈ v.cores ↔ (∃ c ∈ (s.die die).vacset, m = 216 * die + c) ∨
        ∃ i ∈ v.teams, ∃ y, tget s.teams i = some y ∧ y.core = m) ∧
    ∀ k g tm, rising s.groups = true → tget s.groups k = some g → tget s.teams g.tid = some tm →
      ((∃ p, p < 32 ∧ (g.lane p).runnable = true) → tget t.groups k = some g) ∧
      (g.stop = none → (∀ p, p < 32 → (g.lane p).runnable = false) → tm.die = die → g.tid ∈ tm.cluster → tm.core < 1728 →
        (∃ c ∈ (s.die die).vacset, tm.core = 216 * die + c) →
        ∃ x, tget t.groups k = some { g with stop := some x } ∧ x.reason = 2 ∧ x.hard = false)) ∧
  (∀ s die tid tm k g v, tget s.teams tid = some tm → tm.die = die → die < 8 → v ∈ (s.die die).vacates → tid ∈ v.teams →
    tm.core ∈ v.cores → rising s.groups = true → tget s.groups k = some g → g.tid = tid → g.stop = none →
    Answers (exec (.vacateHardStop die) s) fun t => t.teams = s.teams ∧ SameMemory s t ∧
      ∃ x, tget t.groups k = some { g with stop := some x } ∧ x.hard = true ∧ x.reason = 2 ∧ x.cause = 0) ∧
  ∀ s die v tid tm, s.vacateDue die = some v → v.teams = [tid] → v.cobj = 0 → tget s.teams tid = some tm → die < 8 →
    tm.core ∈ v.cores → tm.cluster = [tid] → tm.kind = .grid → (s.die die).moved = [] → (s.die die).pool.length < 8192 →
    Answers (exec (.vacateComplete die) s) fun t =>
      let slot := (s.die die).ctxbase.toNat / 2 ^ 25 % 2 ^ 27 * 2 ^ 25 + 2 ^ 25 * (tm.core % 216)
      (t.die die).vacates = (s.die die).vacates.erase v ∧
      (∃ y, tget t.teams tid = some y ∧ y.core = 1728 ∧ y.placed = false ∧ y.handle = tm.handle ∧ y.tidx = tm.tidx) ∧
      t.num slot 4 = 1 ∧ t.num (slot + 8) 4 = 4096 ∧ t.num (slot + 16) 4 = tm.handle.toNat ∧
      t.num (slot + 4096) 4 = tm.handle.toNat ∧ t.num (slot + 4100) 4 = tm.tidx % 2 ^ 32 ∧ t.num (slot + 4106) 1 = 2 ∧
      ∃ (y : PoolEntry) (kept : Kept), (t.die die).pool = (s.die die).pool ++ [y] ∧ y.prio = min 7 (tm.prio + 1) ∧
        y.item = .vacated [2 ^ 25 * (tm.core % 216) + 4096] [kept] ∧ kept.tid = tid

/-- R366-R368: a doorbell sets the tail and the port of a queue. The entry at a queue's head, of a kind that is accepted, is
done: a signal counts at its node, a close closes the record queue of its node, where the node is of the queue's partition; a
submission makes a node, or is rejected with its cause; the completion entry has the entry's tag, the handle and the cause,
and the head moves on. The partition test and cause 1 for a misaligned or reserved submission are the model's choices (log
entry 31), as are rings in host memory and a completion ring as long as its queue (log entry 34). -/
def Obligations.HostQueueEntries : Prop :=
  ∀ s die q, s.powered = true → s.frozen = false → s.booted = true → die < 8 →
    let x := s.hostQueue die q
    (∀ (port : Nat) (tail : Word), Answers (exec (.hostQueueDoorbell die q port tail) s) fun t => t = { s with dies := t.dies } ∧
      t.hostQueue die q = { x with tail := tail, port := port }) ∧
    (x.head ≠ x.tail → x.size ≠ 0 → x.held = none → (s.die die).pool.length < 8192 → s.hostWaits = [] →
      ((s.die die).slipRoom = 0 ∨ (s.die die).slipFull = false) → x.vector.getLsbD 15 = false →
      let e := s.num (hostBase + x.base + 64 * (x.head.toNat % x.size)) 64
      let a := hostBase + x.cbase + 16 * (x.chead % x.size)
      let done := fun (s1 t : State) (handle cause : Nat) =>
        MemoryBut s1 t a 16 (e / 2 ^ 16 % 2 ^ 36 + 2 ^ 88 * cause + 2 ^ 96 * handle) ∧ t.groups = s.groups ∧
        t.teams = s.teams ∧ t.hostQueue die q = { x with head := x.head + 1, chead := x.chead + 1 }
      let h := BitVec.ofNat 32 (e / 2 ^ 64)
      e / 2 ^ 128 = 0 → e / 2 ^ 8 % 2 ^ 8 = 0 →
      (e % 2 ^ 8 = 2 → ∀ nd i y, s.findNode h = some (nd, i, y) → s.diesOk (s.die die).owner (2 ^ nd) = true → h ≠ 0 → y.ready = false → 1 < y.need →
        Answers (exec (.hostSignal die q) s) fun t => done s t h.toNat 0 ∧
          t.findNode h = some (nd, i, { y with need := y.need - 1 })) ∧
      (e % 2 ^ 8 = 3 → ∀ nd i y, s.findNode h = some (nd, i, y) → s.diesOk (s.die die).owner (2 ^ nd) = true → y.desc.rqen = true → y.closed = false → y.teams ≠ y.ended →
        (s.queue (y.desc.rqid / 1024) (y.desc.rqid % 1024)).arrive = [] →
        (s.queue (y.desc.rqid / 1024) (y.desc.rqid % 1024)).opened = [] →
        (s.queue (y.desc.rqid / 1024) (y.desc.rqid % 1024)).start = none → y.desc.rqid / 1024 < 8 →
        Answers (exec (.hostCloseQueue die q) s) fun t => done s t h.toNat 0 ∧
          t.findNode h = some (nd, i, { y with closed := true }) ∧
          (t.queue (y.desc.rqid / 1024) (y.desc.rqid % 1024)).closed = true) ∧
      (e % 2 ^ 8 = 1 →
        (e / 2 ^ 64 % 256 ≠ 0 ∨ 2 ^ 54 ≤ e / 2 ^ 64 → Answers (exec (.hostSubmit die q) s) fun t => done s t 0 1) ∧
        ∀ n desc frameOk s1, e / 2 ^ 64 % 256 = 0 → e / 2 ^ 64 < 2 ^ 54 →
          s.readNode die (e / 2 ^ 52 % 2 ^ 12) (e / 2 ^ 64) .engRead = .ok (n, desc, frameOk, s1) →
          let d : NodeDesc := if desc.dies = 0 then { desc with dies := 2 ^ die } else desc
          let cause := nodeCause n d frameOk (s1.queueBound d) (s1.diesOk (s1.die die).owner d.dies)
          (∀ k, cause = some k → d.cobj = 0 → Answers (exec (.hostSubmit die q) s) fun t => done s1 t 0 k) ∧
          (cause = none → (s1.die die).nodes.length < 4096 → 1 ≤ d.npred → Answers (exec (.hostSubmit die q) s) fun t =>
            ∃ (g : Word) (i : Nat) (y : Node), g ≠ 0 ∧ done s1 t g.toNat 0 ∧ t.findNode g = some (die, i, y) ∧ y.desc = d ∧
              y.need = d.npred)))

/-- R368: a vector's interval ends, and a message that waited for it alone goes out; a clear of the event status leaves bit 3 the
OR of bits 23:16. R370, R371: the registers of the management entry take their values, and RESYNC starts unless it runs, with the
buffer's address and size of that time. -/
def Sys2Proof.Claims.MessagesAndRegisters : Prop :=
  ∀ s, s.powered = true → s.frozen = false →
    (∀ port v, port < 2 → v < 2048 → let m := s.vec port v
      Answers (exec (.msixCoalesceEnd port v) s) fun t => t = { s with msix := t.msix, sent := t.sent } ∧
        (m.pending = true → m.masked = false → t.sent = s.sent ++ [(port, v)] ∧ t.vec port v = ⟨false, true, false⟩) ∧
        (m.pending = false ∨ m.masked = true → t.sent = s.sent ∧ t.vec port v = { m with within := false })) ∧
    (∀ m : Word, Answers (exec (.eventStatusClear m) s) fun t => t = { s with evStatus := t.evStatus } ∧
      ∀ i, i < 32 → t.evStatus.getLsbD i =
        if i = 3 then (List.range 8).any fun j => s.evStatus.getLsbD (16 + j) && !m.getLsbD (16 + j)
        else s.evStatus.getLsbD i && !m.getLsbD i) ∧
    (∀ v : DWord,
      exec (.deviceRegisterWrite (Config.managementEntry + 8) v) s = .next { s with rsBuf := v } ∧
      exec (.deviceRegisterWrite (Config.managementEntry + 16) v) s = .next { s with rsSize := v } ∧
      ∀ i, i = .resync ∨ i = .deviceRegisterWrite (Config.managementEntry + 24) 1 →
        exec i s = .next (if s.rsStat = 1 then s else { s with rsStat := 1, rsAddr := s.rsBuf, rsLen := s.rsSize })) ∧
    (s.rsStat = 1 → s.rsLen.toNat < 266240 → s.evEnable = 0 → exec .resyncDone s = .next { s with rsStat := 3, evStatus := s.evStatus ||| 1 }) ∧
    (s.rsStat = 1 → 266240 ≤ s.rsLen.toNat → Answers (exec .resyncDone s) fun t => t.rsStat = 2 ∧ t.groups = s.groups ∧
      let a := hostBase + s.rsAddr.toNat / 4096 * 4096
      t.num a 8 = 1 ∧ (∀ i, i < 8 → t.num (a + 8 + 8 * i) 8 = s.stroke.toNat) ∧ ∀ b, b < a → t.byte b = s.byte b)

/-- R360, R372, R376, R377: a lost link carries nothing and one retrained is in service again; a nonce is taken while none is
outstanding, and the report that answers it begins with it; throttling steps a die down, to twelve steps at most; a freeze, a
thermal freeze and a loss of power stop the device. -/
def Sys2Proof.Claims.LinksAttestationPower : Prop :=
  ∀ s, s.powered = true → s.frozen = false →
    (∀ n, Answers (exec (.linkLost n) s) fun t => t.groups = s.groups ∧ t.teams = s.teams ∧
      t.lostLinks = s.lostLinks.filter (· ≠ n) ++ [n] ∧ t.evStatus.getLsbD 6 = true) ∧
    (∀ n, Answers (exec (.linkRetrained n) s) fun t => t.groups = s.groups ∧ t.teams = s.teams ∧
      t.lostLinks = s.lostLinks.filter (· ≠ n)) ∧
    (∀ x, exec (.attestationRequest x) s = .next { s with nonce := some (s.nonce.getD x) }) ∧
    (∀ x, s.nonce = some x → Answers (exec .attestationReportReady s) fun t => t.nonce = none ∧ t.groups = s.groups ∧
      SameMemory s t ∧ t.evStatus.getLsbD 4 = true ∧ leNat (t.report.take 32) = x.toNat) ∧
    (∀ die, die < 8 → Answers (exec (.throttle die) s) fun t => t.groups = s.groups ∧ SameMemory s t ∧
      (t.die die).throttle = min 12 ((s.die die).throttle + 1) ∧ (∀ i, i ≠ die → t.die i = s.die i) ∧
      ((∀ i, i < 8 → (s.die i).throttle = 0) → t.evStatus.getLsbD 7 = true)) ∧
    exec .freeze s = .next { s with frozen := true } ∧
    (Answers (exec .thermalFreeze s) fun t => t.frozen = true ∧ t.alert = true ∧ t.evStatus.getLsbD 7 = true ∧
      t.groups = s.groups ∧ SameMemory s t) ∧
    exec .powerLoss s = .next { s with powered := false }

/-- Messages, management registers, links, attestation, throttling and power. -/
def Obligations.MessagesLinksAndPower : Prop :=
  Claims.MessagesAndRegisters ∧ Claims.LinksAttestationPower

/-- R211, R217, R221, R231, R360, R363, R364: the host's accesses meet the bytes at their home, whatever the tags, and wait for
bytes that a command has still to write; the model lets one outside the host's memory and the windows read zero and write
nothing (log entry 18). A peer's read is answered with the bytes, its write with an acknowledgement once the bytes are there, its
atomic of any form with the old value, each by a flit of kind 4 numbered on its link; an answer to an access gives its lane the
bytes and makes active all lanes that wait for it; a flit of kind 6 changes nothing. That host and peers wait for bytes that a
command has still to write is the model's reading (log entry 26), and a flit of kind 6 without effect is its choice (log entry
34), like a read that gives nothing over a link that is down. -/
def Obligations.PeerAndHostAccesses : Prop :=
  (∀ s pa n, s.live = false → exec (.cxlMemRead pa n) s = .next { s with hostRead := [] }) ∧
  ∀ s, s.powered = true → s.frozen = false →
    (∀ pa data, s.hostWaits = [] → s.hostReaches pa data.length = true → s.owned 0 0 pa data.length = false →
      Answers (exec (.cxlMemWrite pa (.bytes data)) s) fun t =>
      (∀ j, j < data.length → t.byte (pa + j) = data[j]?.getD 0) ∧ (∀ a, a < pa ∨ pa + data.length ≤ a → t.byte a = s.byte a) ∧
      (∀ a, t.tag a = s.tag a) ∧ t.groups = s.groups ∧ t.teams = s.teams) ∧
    (∀ pa major funct operand swap n cas new, AtomicForm major funct n cas new → s.hostWaits = [] →
      s.hostReaches pa n = true → s.owned 0 0 pa n = false →
      let y := new (s.num pa n) (operand.toNat % 2 ^ (8 * n)) (swap.toNat % 2 ^ (8 * n))
      Answers (exec (.cxlMemWrite pa (.rmw ⟨major, funct, operand, swap⟩)) s) fun t =>
        (y = none → SameMemory s t) ∧ (∀ v, y = some v → MemoryBut s t pa n v) ∧ t.hostRead = leBytes n (s.num pa n) ∧
        t.groups = s.groups ∧ t.teams = s.teams) ∧
    (∀ pa n, s.hostWaits = [] → s.owned 0 0 pa n = false → exec (.cxlMemRead pa n) s =
      .next { s with hostRead := if s.hostReaches pa n = true then s.bytes pa n else leBytes n 0 }) ∧
    (∀ pa data, s.hostWaits = [] → (s.owned 0 0 pa data.length = false → s.hostReaches pa data.length = false →
        exec (.cxlMemWrite pa (.bytes data)) s = .next s) ∧
      (s.owned 0 0 pa data.length = true →
        exec (.cxlMemWrite pa (.bytes data)) s = .next { s with hostWaits := [.write pa data] })) ∧
    (∀ f : Flit, exec (.wotisEvent f) s = .next s) ∧
    (∀ src dst kind link seq (r : PeerReq), populated r.pa = true → (isHbm r.pa = true → ∀ a, s.tag a = tagValue) →
      (∀ n, s.owned 0 0 r.pa n = false) →
      let f : Flit := ⟨src, dst, kind, link, seq, [r]⟩
      let out := s.linkTo src
      let number := (tget s.wotisSeq out).getD 0
      let answers := fun (t : State) (size : Nat) (data : List Byte) =>
        t.wotisOut = s.wotisOut ++
          [⟨s.devid.toNat, src, 4, out, number, [{ r with size := size, data := data, major := 0 }]⟩] ∧
        tget t.wotisSeq out = some ((number + 1) % 2 ^ 32) ∧ t.groups = s.groups ∧ t.teams = s.teams
      r.failed = false →
      (Answers (exec (.wotisRead f) s) fun t => answers t r.size (s.bytes r.pa r.size) ∧ SameMemory s t) ∧
      (∀ i, i = .wotisWrite f ∨ i = .wotisCopyData f → Answers (exec i s) fun t =>
        answers t r.data.length [] ∧ (∀ j, j < r.data.length → t.byte (r.pa + j) = r.data[j]?.getD 0) ∧
        (∀ a, a < r.pa ∨ r.pa + r.data.length ≤ a → t.byte a = s.byte a) ∧ ∀ a, t.tag a = s.tag a) ∧
      ∀ n cas new, AtomicForm r.major r.funct n cas new →
        let y := new (s.num r.pa n) (r.operand.toNat % 2 ^ (8 * n)) (r.swap.toNat % 2 ^ (8 * n))
        Answers (exec (.wotisAtomic f) s) fun t => answers t r.size (leBytes n (s.num r.pa n)) ∧
          (y = none → SameMemory s t) ∧ ∀ v, y = some v → MemoryBut s t r.pa n v) ∧
    ∀ src dst kind link seq (r : PeerReq) w g, tget s.peerWaits r.tag = some w → w.unit = none → w.pos < 32 → tget s.groups w.gkey = some g →
      (g.lane w.pos).state = .parked (.reply r.tag) → r.failed = false →
      (∀ x ∈ (s.core (postCore w.gkey)).posted, x.wait ≠ some (.reply r.tag)) →
      Answers (exec (.wotisResponse ⟨src, dst, kind, link, seq, [r]⟩) s) fun t => t.teams = s.teams ∧ SameMemory s t ∧
        tget t.peerWaits r.tag = none ∧
        GroupBecomes s t w.gkey g fun q =>
          if q = w.pos then { g.lane q with state := .active, reply := some r.data }
          else if (g.lane q).state = .parked (.reply r.tag) then { g.lane q with state := .active } else g.lane q

/-- R374, R375: a cold reset, and a warm one while there is power, leave every register at its reset value, no team and all
memory of the device zero; the host's memory stays. A boot image in the mailbox whose key, version or signature fails is
discarded with the number of the check in the mailbox status; one that passes all boots every cox at its first word. The
values of registers whose reset the rules do not give (log entry 3), the host's memory kept (log entry 7), the cox's program at
address 0 of its memory (log entry 11) and the digest and signature functions (log entry 9) are the model's choices. -/
def Sys2Proof.Claims.ResetAndBoot : Prop :=
  ∀ s : State,
    let again := { State.reset with hostMem := s.hostMem, fresh := s.fresh, nextId := s.nextId }
    exec .coldReset s = .next again ∧ (s.powered = true → exec .warmReset s = .next again) ∧
    (s.powered = false → exec .warmReset s = .next s) ∧
    (s.powered = true → s.frozen = false → s.booted = false →
      let m := s.mailbox
      let key := (m.drop 16).take 1952
      let body := (m.drop 5277).take (leNat ((m.drop 8).take 8))
      let keyOk := Config.shake256 key 32 = Config.fusedKeyDigest
      let newOk := Config.fusedMinSvn ≤ leNat ((m.drop 4).take 4)
      let signOk := Config.mldsaVerify key (Config.shake256 (m.take 16 ++ body) 64) ((m.drop 1968).take 3309) = true
      let fails := fun (n : Nat) => Answers (exec .bootImageCheck s) fun t => t.booted = false ∧ t.mailbox = [] ∧ t.boxStat = n ∧
        t.evStatus.getLsbD 5 = true ∧ t.groups = s.groups ∧ SameMemory s t
      (¬ keyOk → fails 1) ∧ (keyOk → ¬ newOk → fails 2) ∧ (keyOk → newOk → ¬ signOk → fails 3) ∧
      (keyOk → newOk → signOk → Answers (exec .bootImageCheck s) fun t => t.booted = true ∧ t.image = m.take (5277 + body.length) ∧ t.mailbox = [] ∧
        t.groups = s.groups ∧ SameMemory s t ∧
        ∀ n, n < 1728 → (t.core n).cox.pc = 0 ∧ ∀ i, i < 0x10000 → mrd (t.core n).cox.mem i = body[i]?.getD 0))

/-- R373, R377: the instructions of the debug port, all others acting as BYPASS: IDCODE after a reset of the test logic, DADDR
writes the debug address, and DDATA during a freeze reads 8 bytes of memory there, the address then 8 higher, after them with
bit 59 of the address set the tag of their cell; without a freeze and where nothing is it reads zero, and DSTAT says which
it was. Without power the port does nothing. That memory and tag alternate is the model's reading (log entry 34). -/
def Sys2Proof.Claims.DebugPort : Prop :=
  (∀ s i, s.powered = false → i ∈ [.testLogicReset, .bypass, .idcode, .extest, .samplePreload, .ddata, .dstat] ∨
    (∃ v, i = .daddr v) → exec i s = .next s) ∧
  (∀ x : BitVec 6, x ∉ [0x00, 0x01, 0x02, 0x10, 0x11, 0x12] → JtagIr.ofCode x = .bypass) ∧
  ∀ s : State, s.powered = true →
    exec .testLogicReset s = .next { s with ir := .idcode } ∧ exec .bypass s = .next { s with ir := .bypass, dr := 0 } ∧
    (Answers (exec .idcode s) fun t => t = { s with ir := .idcode, dr := t.dr } ∧ t.dr.toNat < 2 ^ 32 ∧ t.dr.getLsbD 0 = true ∧
      t.dr.toNat / 2 ^ 12 % 2 ^ 16 = 0x1728) ∧
    (∀ i, i = .extest ∨ i = .samplePreload → Answers (exec i s) fun t =>
      t = { s with ir := if i = .extest then .extest else .samplePreload, dr := t.dr, fresh := s.fresh + 1 }) ∧
    (∀ v, exec (.daddr v) s = .next { s with ir := .daddr, dr := v, daddr := v, dtag := false }) ∧
    (∀ pa tags, pa < 2 ^ 52 → pa % 8 = 0 → s.daddr = BitVec.ofNat 64 (pa + if tags then 2 ^ 59 else 0) →
      let tagNext := tags && s.dtag
      let next := { s with ir := .ddata, daddr := s.daddr + 8, dtag := tags && !s.dtag, dr := 0, dvalid := false, derror := false }
      (s.frozen = true → tagNext = false → populated pa = true → exec .ddata s =
        .next { next with dr := BitVec.ofNat 64 (s.num pa 8), dvalid := true }) ∧
      (s.frozen = true → tagNext = true → exec .ddata s =
        .next { next with dr := BitVec.setWidth 64 (s.tag (pa - 8)), dvalid := true }) ∧
      (s.frozen = false → exec .ddata s = .next { next with derror := !tagNext && !populated pa }) ∧
      (tagNext = false → populated pa = false → exec .ddata s = .next { next with derror := true })) ∧
    Answers (exec .dstat s) fun t => t = { s with ir := .dstat, dr := t.dr } ∧
      ∀ i, i < 64 → t.dr.getLsbD i = if i = 0 then s.frozen else if i = 1 then s.dvalid else if i = 2 then s.derror else false

/-- Resets, the boot image check, the debug port. -/
def Obligations.ResetBootAndDebugPort : Prop :=
  Claims.ResetAndBoot ∧ Claims.DebugPort

/-! ### The step, encodings, invariants -/

/-- R10, R35, R43, R46, R51, R53, R55, R341: a step that takes the turn of a group whose next unit passes its checks runs exec of the
instruction that the words at the pace lane's address decode to, on the state with the unit under issue, and then does what
follows every turn; a GUARD before it gives the unit its guard, a REP its count, kept from the first issue on, and the stepped
word of the issue. The same of a cox, on which a lane-set word is illegal, and of an event. A unit that a resource holds back leaves no trace but the end of the turn. -/
def Obligations.StepRunsDecodedInstruction : Prop :=
  (∀ s k ts g p (pre ws : List Word) (w w' : Word) (i0 i : Instr) (guard : Option (Nat × Bool)) rep,
    let core := coreOf k
    let s0 := { s with agenda := ts }
    let va := (g.lane p).vpc
    let n := pre.length + 1 + ws.length
    let m := g.issuing p
    let count := fun (c : Nat) => if (g.lane p).rep ≠ 0 then (g.lane p).repN else if c = 0 then 64 else c
    let guards : List Instr := match guard with | some x => [.guard x.1 x.2] | none => []
    s.agenda = .issue k :: ts → s.runs = true → tget s.groups k = some g → Group.open_ k g = true →
    s0.autoLanding k g = false → (s.core core).posted = [] → g.pace (s.policy g) = some p →
    (∀ j, j < n → (va + BitVec.ofNat 64 (4 * j)) >>> 54 = 0 ∧
      (s.core core).fetchFor k (va + BitVec.ofNat 64 (4 * j)).toNat = .word ((pre ++ w :: ws)[j]?.getD 0)) →
    ws.length = extensions w.toNat → coxOnly w = false →
    bits w.toNat 31 25 ≠ 0x5C → bits w.toNat 31 25 ≠ 0x5D →
    decode (w :: ws) = .ok i0 → decode (w' :: ws) = .ok i →
    -- its prefixes
    (pre = [] ∧ guard = none ∧ rep = none ∧ w' = w ∨
      (∃ x q neg, pre = [x] ∧ decode [x] = .ok (.guard q neg) ∧ guardOk w q = true ∧ guard = some (q, neg) ∧ rep = none ∧
        w' = w) ∨
      ∃ x c d a b fs, pre = [x] ∧ decode [x] = .ok (.rep c d a b) ∧ isPrefix w = false ∧ repable w = true ∧
        steppedFields i0 d a b = some fs ∧ (∀ f ∈ fs, f.ok w (count c) = true) ∧
        w' = stepWord w (g.lane p).rep fs ∧ guard = none ∧ rep = some (count c, d, a, b)) →
    -- its checks
    s.frameOver k g m i0 = none → s.frameOver k g m i = none → g.staleLatch m i = none →
    g.badRegister m (!w.getLsbD 31) (guardPred w guards) i = none →
    let c : Issue := { issueBase k g p with
      first := (pre ++ [w])[0]?.getD 0, word := w, next := codeAddr (va + BitVec.ofNat 64 (4 * n)), guard := guard, rep := rep,
      others := (s.groups.map Prod.fst).any fun j => j != k && j / 16 == k / 16 && s0.wouldIssue j }
    let begun := (s0.beginIssue c (if s.policy g then some p else g.leader)).writeHeld k i
    step s = match exec i { begun with cur := some c } with
      | .next t => .next (s0.releaseHolds (if t.cur = none then s0 else t.stopClosed k g.region)).afterTurn
      | o => o) ∧
  (∀ s core ts (w : Word) (ws : List Word) i,
    let s0 := { s with agenda := ts }
    let x := (s.core core).cox
    s.agenda = .cox core :: ts → s.runs = true → core < 1728 → x.halted = false →
    (∀ j, j < 1 + ws.length → (x.pc + BitVec.ofNat 64 (4 * j)).toNat < 0x10000 ∧
      leNat (mread x.mem (x.pc + BitVec.ofNat 64 (4 * j)).toNat 4) = ((w :: ws)[j]?.getD 0).toNat) →
    ws.length = extensions w.toNat → bits w.toNat 31 25 ≠ 0x5C → bits w.toNat 31 25 ≠ 0x5D →
    decode (w :: ws) = .ok i →
    (w.getLsbD 31 = true → x.staleLatch i = none ∧ x.badRegister false (guardPred w []) i = none) →
    let c : Issue := { coxBase core x with
      first := w, word := w, next := codeAddr (x.pc + BitVec.ofNat 64 (4 * (1 + ws.length))) }
    step s = match exec (if w.getLsbD 31 then i else .illegalInstruction) { s0 with cur := some c } with
      | .next t => .next (s0.releaseHolds t).afterTurn
      | o => o) ∧
  ∀ s i ts, s.agenda = .event i :: ts → ofUnit i = false →
    (s.runs = true ∨ fromOutside i = true ∨ i = .strokeTick ∧ s.live = true) →
    step s = match exec i { s with agenda := ts } with
      | .next t => .next (State.releaseHolds { s with agenda := ts } t).afterTurn
      | o => o

/-- R35-R43, R75-R80: words written out from the formats decode to what they stand for. -/
def Obligations.WordsDecodeAsTheFormatsSay : Prop :=
  -- LR: major 0x00, d 1, a 2, b 3
  decode [0x00084180] = .ok (.add (.v 1) (.v 2) (.v 3) false 0) ∧
  -- LR with an extension word: d 4, a 5, b 62, n 1, g 3, funct 1
  decode [0x0020BF1B, 0xDEADBEEF] = .ok (.sub (.v 4) (.v 5) (.ext 0xDEADBEEF) true 3) ∧
  -- LI: major 0x08, d 5, a 6, imm13 -1
  decode [0x1028DFFF] = .ok (.addi (.v 5) (.v 6) (BitVec.ofInt 13 (-1))) ∧
  -- LM: major 0x20, d 8, a 9, b z, sz 2, o 0, g 1
  decode [0x40413E21] = .ok (.ldg (.v 8) (.v 9) (.plain .z) 2 1) ∧
  -- LM: major 0x21, d 8, a 9, o 1 with scope 4, sz 2
  decode [0x42413028] = .ok (.stg (.v 8) (.v 9) (.ordered 4) 2 0) ∧
  -- LA: major 0x28, d z, a 10, b 11, funct 6, far 1
  decode [0x51E145E8] = .ok (.atomgExch .z (.v 10) (.v 11) true 0) ∧
  -- LB: major 0x36, p 7, neg 1, off18 -2
  decode [0x6C3FFFFE] = .ok (.brl 7 true (BitVec.ofInt 18 (-2))) ∧
  -- UR: major 0x00, d 1, a 2, b 3, g k2
  decode [0x80084182] = .ok (.uAdd (.s 1) (.s 2) (.s 3) false 2) ∧
  -- UI: major 0x0D, d 3, imm13 5
  decode [0x9A180005] = .ok (.smovi (.s 3) 5) ∧
  -- UB: major 0x10, k 1, neg 0, off21 16
  decode [0xA0400010] = .ok (.bra 1 false 16) ∧
  -- UC: major 0x22, a ext64 with its two words, low word first
  decode [0xC5F00000, 0x00010000, 0x00000020] = .ok (.mtask (.ext64 0x0000002000010000)) ∧
  -- UP: the GUARD word, predicate 9, complemented
  decode [0xBA4C0000] = .ok (.guard 9 true)

/-- R35-R43, R76-R80: every instruction that has words is what its own words decode to, whatever its operands. -/
def Obligations.DecodeInvertsEncode : Prop :=
  ∀ i : Instr, i.wf = true → encode i ≠ [] → decode (encode i) = .ok i

/-- R74-R80: a word of a reserved major decodes to nothing, whatever follows it; so does one whose funct the tables of R75 and R79
leave unassigned, and one of a UC major with a value of f7 that R80 does not list. A decoded word is a well-formed instruction
that has words. -/
def Obligations.UnassignedWordsDecodeToNothing : Prop :=
  ∀ (w : Word) (ws : List Word),
    let m := w.toNat / 2 ^ 25
    let f := w.toNat / 2 ^ 4 % 8
    let f7 := w.toNat % 2 ^ 7
    (m ∈ [0x07, 0x19, 0x1A, 0x1B, 0x1C, 0x1D, 0x1E, 0x1F, 0x38, 0x39, 0x3A, 0x3B, 0x3C, 0x3D, 0x3E, 0x3F, 0x44, 0x45, 0x46, 0x47,
        0x5B, 0x6E, 0x6F, 0x78, 0x79, 0x7A, 0x7B, 0x7C, 0x7D, 0x7E, 0x7F] ↔ decode (w :: ws) = .error .reservedMajor) ∧
    ((m ∈ [0x04, 0x05, 0x2A, 0x42, 0x43] ∧ f = 7) ∨ (m = 0x16 ∧ 4 ≤ f) ∨ (m = 0x18 ∧ 6 ≤ f) ∨ (m = 0x2E ∧ 2 ≤ f) ∨
      (m ∈ [0x2F, 0x37, 0x56, 0x57] ∧ 1 ≤ f) → ∀ i, decode (w :: ws) ≠ .ok i) ∧
    ((m ∈ [0x52, 0x53, 0x54, 0x60, 0x61, 0x62, 0x66, 0x67, 0x69, 0x6D, 0x72, 0x73, 0x75, 0x76, 0x77] ∧ 1 ≤ f7) ∨
      (m ∈ [0x55, 0x59, 0x63, 0x64, 0x70, 0x71, 0x74] ∧ 2 ≤ f7) ∨ (m = 0x6B ∧ 3 ≤ f7) ∨
      (m ∈ [0x58, 0x5A, 0x6A, 0x6C] ∧ 4 ≤ f7) ∨ (m = 0x5F ∧ 8 ≤ f7) ∨
      (m = 0x65 ∧ f7 ∉ [0, 1, 2, 3, 4, 0x09, 0x10, 0x11, 0x19]) ∨
      (m = 0x68 ∧ (32 ≤ f7 ∨ 6 ≤ f7 % 8 ∨ f7 / 8 = 3 ∧ 5 ≤ f7 % 8)) → ∀ i, decode (w :: ws) ≠ .ok i) ∧
    ∀ i, decode (w :: ws) = .ok i → i.wf = true ∧ encode i ≠ []

/-- R374: after a reset the device is powered, has no team and no group, every byte of its memory reads zero and every cell tag
is VALUE, the stroke counter is 0, no firmware image is held; and the machine is between turns, its memories in canonical
form. -/
def Obligations.ResetLeavesAnEmptyMachine : Prop :=
  let s := State.reset
  s.powered = true ∧ s.booted = false ∧ s.image = [] ∧ s.teams = [] ∧ s.groups = [] ∧ s.stroke = 0 ∧
    (∀ a, s.byte a = 0) ∧ (∀ a, s.tag a = tagValue) ∧ s.Settled ∧ s.memoryOk = true ∧
    ∀ n, (s.core n).land = [] ∧ (s.core n).vq = [] ∧ (s.core n).dt = [] ∧ (s.core n).reports = []

/-- R139, R147, R190: a step from a state between turns, with its memories in canonical form, leaves such a state: no unit stays
under issue, and a demoted lane waits only for lanes of its group that still run. -/
def Obligations.StepKeepsMachineSettled : Prop :=
  ∀ s t, step s = .next t →
    (s.Settled → t.Settled) ∧ (s.memoryOk = true → t.memoryOk = true)

/-- R322, R340: every turn has an outcome that the specification gives: a step never faults and is never refused. -/
def Obligations.EveryStepAnswersNextState : Prop :=
  ∀ s, ∃ t, step s = .next t
end

