-- ==== Sys2Proof/Laws/Encoding.lean ====
section
/-! SUPPORT. Facts on which the round trip of encodings rests: words as sums of fields, rows found by their fixed bits, operand
codes, extension words. -/

namespace Sys2Proof.Laws

open Sys2Proof

/-! ### Fields of a number -/

/-- Under a run of k bits from lo on, a number keeps that field. -/
theorem land_run (x lo k : Nat) : x &&& ((2 ^ k - 1) * 2 ^ lo) = x / 2 ^ lo % 2 ^ k * 2 ^ lo := by
  apply Nat.eq_of_testBit_eq
  intro i
  simp only [Nat.testBit_and, Nat.testBit_mul_two_pow, Nat.testBit_two_pow_sub_one, Nat.testBit_mod_two_pow,
    Nat.testBit_div_two_pow]
  by_cases h : lo ≤ i
  · simp [h, Nat.sub_add_cancel h, Bool.and_comm]
  · simp [h]

/-- The same of a mask of a run above a lower mask. -/
theorem land_above (x lo k m : Nat) (h : m < 2 ^ lo) :
    x &&& ((2 ^ k - 1) * 2 ^ lo + m) = x / 2 ^ lo % 2 ^ k * 2 ^ lo + (x &&& m) := by
  have e : (2 ^ k - 1) * 2 ^ lo + m = (2 ^ k - 1) * 2 ^ lo ||| m := by
    rw [Nat.mul_comm, Nat.two_pow_add_eq_or_of_lt h]
  have h2 : x &&& m < 2 ^ lo := Nat.lt_of_le_of_lt Nat.and_le_right h
  rw [e, Nat.and_or_distrib_left, land_run, Nat.mul_comm _ (2 ^ lo), ← Nat.two_pow_add_eq_or_of_lt h2]

/-! ### The row of a word -/

/-- The row that words with these fixed bits match: each row before it asks for a fixed bit they do not have. -/
def pickFix (fix base : Nat) : List Row → Option Row
  | [] => none
  | r :: rs =>
    if (r.mask &&& fix == r.mask && base &&& r.mask == r.value) = true then some r
    else if (base &&& r.mask != r.value &&& fix) = true then pickFix fix base rs
    else none

noncomputable def rowAt (fix base : Nat) : Option Row := (rowsOf (base / 2 ^ 25)).bind (pickFix fix base)

theorem pick_of_fixed {w : Word} {fix base : Nat} (hw : w.toNat &&& fix = base) :
    ∀ {rs : List Row} {r : Row}, pickFix fix base rs = some r → pick w rs = some r
  | [], _, h => by simp [pickFix] at h
  | q :: rs, r, h => by
    unfold pickFix at h
    unfold pick
    split at h
    · rename_i c
      simp only [Bool.and_eq_true, beq_iff_eq] at c
      have e : w.toNat &&& q.mask = q.value := by
        rw [← c.2, ← hw, Nat.and_assoc, Nat.and_comm fix q.mask, c.1]
      rw [if_pos e]; exact h
    · split at h
      · rename_i c
        have e : ¬ (w.toNat &&& q.mask = q.value) := by
          intro e
          simp only [bne_iff_ne, ne_eq] at c
          apply c
          rw [← e, ← hw, Nat.and_assoc, Nat.and_assoc, Nat.and_comm fix q.mask]
        rw [if_neg e]; exact pick_of_fixed hw h
      · cases h

/-! ### Checks -/

/-- All checks of a list hold. -/
def Conj : List (Bool × WfError) → Prop
  | [] => True
  | c :: cs => c.1 = true ∧ Conj cs

theorem conj_of_all : ∀ {cs : List (Bool × WfError)}, cs.all (·.1) = true → Conj cs
  | [], _ => trivial
  | c :: cs, h => by
    simp only [List.all_cons, Bool.and_eq_true] at h
    exact ⟨h.1, conj_of_all h.2⟩

theorem conj_of_wf {i : Instr} (h : i.wf = true) : Conj i.checks := conj_of_all h

theorem firstError_ok : ∀ {cs : List (Bool × WfError)}, cs.all (·.1) = true → firstError cs = .ok ()
  | [], _ => rfl
  | c :: cs, h => by
    simp only [List.all_cons, Bool.and_eq_true] at h
    obtain ⟨b, e⟩ := c
    simp only at h
    simp only [firstError, h.1]
    exact firstError_ok h.2

/-- A word whose row is known, whose fields build a well-formed instruction, decodes to it. -/
theorem decode_of_row {w : Word} {ext : List Word} {fix base : Nat} {b : Builder} {i : Instr}
    (hr : rowAt fix base = some ⟨fix, base, b⟩) (hw : w.toNat &&& fix = base) (hm : fld w 25 7 = base / 2 ^ 25)
    (hb : b w ext = .ok i) (hi : i.wf = true) : decode (w :: ext) = .ok i := by
  unfold rowAt at hr
  cases hs : rowsOf (base / 2 ^ 25) with
  | none => rw [hs] at hr; cases hr
  | some rs =>
    rw [hs] at hr
    have hp := pick_of_fixed hw hr
    have hc : i.check = .ok () := firstError_ok hi
    simp only [decode, hm, hs, hp, hb, bind, Except.bind, hc, pure, Except.pure]

/-! ### Operand codes -/

theorem LDst.ok1 {k : Nat} {d : LDst} (hk : 0 < k) (h : d.okWidth k = true) : d.okWidth 1 = true := by
  cases d <;> simp_all [LDst.okWidth, regRun, Nat.mod_one]
  omega

theorem LSrc.ok1 {k : Nat} {a : LSrc} (hk : 0 < k) (h : a.okWidth k = true) : a.okWidth 1 = true := by
  cases a <;> simp_all [LSrc.okWidth, regRun, Nat.mod_one]
  omega

theorem LDst.code_lt {d : LDst} (h : d.okWidth 1 = true) : d.code < 64 := by
  cases d <;> simp_all [LDst.okWidth, regRun, LDst.code]
  omega

theorem LSrc.code_lt {a : LSrc} (h : a.okWidth 1 = true) : a.code < 64 := by
  cases a <;> simp_all [LSrc.okWidth, regRun, LSrc.code] <;> omega

theorem UDst.code_lt {d : UDst} (h : d.ok = true) : d.code < 64 := by
  cases d <;> simp_all [UDst.ok, UDst.code]
  omega

theorem USrc.code_lt {a : USrc} (h : a.ok = true) : a.code < 64 := by
  cases a <;> simp_all [USrc.ok, USrc.code] <;> omega

theorem ldst_code {d : LDst} (h : d.okWidth 1 = true) : ldst d.code = .ok d := by
  cases d with
  | v r => simp [LDst.okWidth, regRun] at h; simp [ldst, LDst.code, show r < 56 by omega]
  | z => rfl

theorem udst_code {d : UDst} (h : d.ok = true) : udst d.code = .ok d := by
  cases d with
  | s r => simp [UDst.ok] at h; simp [udst, UDst.code, h]
  | z => rfl

/-- The extension word of a lane operand, if it has one, comes first. -/
def LExt (a : LSrc) (ext : List Word) : Prop := ∀ w, a = .ext w → ∃ t, ext = w :: t

theorem lsrc_code {a : LSrc} {ext : List Word} (h : a.okWidth 1 = true) (hx : LExt a ext) : lsrc ext a.code = .ok a := by
  cases a with
  | v r => simp [LSrc.okWidth, regRun] at h; simp [lsrc, LSrc.code, show r < 56 by omega]
  | l i =>
    simp [LSrc.okWidth] at h
    simp [lsrc, LSrc.code, show ¬ (56 + i < 56) by omega, show 56 + i < 60 by omega]
  | z => rfl
  | lid => rfl
  | ext w => obtain ⟨t, rfl⟩ := hx w rfl; rfl

/-- The extension words of a uniform operand, if it has any, come first. -/
def UExt (a : USrc) (ext : List Word) : Prop :=
  (∀ w, a = .ext32 w → ∃ t, ext = w :: t) ∧
    ∀ d, a = .ext64 d → ∃ t, ext = d.setWidth 32 :: (d >>> 32).setWidth 32 :: t

theorem halves_append (d : BitVec 64) : ((d >>> 32).setWidth 32 : Word) ++ (d.setWidth 32 : Word) = d := by
  apply BitVec.eq_of_getLsbD_eq
  intro i hi
  simp only [BitVec.getLsbD_append, BitVec.getLsbD_setWidth, BitVec.getLsbD_ushiftRight]
  by_cases h : i < 32
  · simp [h]
  · simp [h, show i - 32 < 32 by omega, show 32 + (i - 32) = i by omega]

theorem usrc_code {a : USrc} {ext : List Word} (h : a.ok = true) (hx : UExt a ext) : usrc ext a.code = .ok a := by
  cases a with
  | s r => simp [USrc.ok] at h; simp [usrc, USrc.code, h]
  | q i =>
    simp [USrc.ok] at h
    simp [usrc, USrc.code, show ¬ (56 + i < 56) by omega, show 56 + i < 60 by omega]
  | z => rfl
  | ext32 w => obtain ⟨t, rfl⟩ := hx.1 w rfl; rfl
  | ext64 d =>
    obtain ⟨t, rfl⟩ := hx.2 d rfl
    simp [usrc, USrc.code, halves_append]

/-! ### Extension words -/

theorem LExt.of_same : ∀ {xs : List LSrc} {a : LSrc}, sameLane xs = true → a ∈ xs → LExt a (laneWords xs)
  | x :: xs, a, h, ha, w, e => by
    subst e
    cases x with
    | ext v =>
      have hv : (w == v) = true ∨ w = v := by
        rcases List.mem_cons.1 ha with e | hm
        · right; injection e
        · left
          simp only [sameLane, List.filterMap_cons] at h
          have : w ∈ xs.filterMap fun x => match x with | .ext w => some w | _ => none :=
            List.mem_filterMap.2 ⟨.ext w, hm, rfl⟩
          exact List.all_eq_true.1 h w this
      have : w = v := hv.elim (fun e => by simpa using e) id
      subst this
      exact ⟨_, rfl⟩
    | _ =>
      rcases List.mem_cons.1 ha with e | hm
      · cases e
      · exact LExt.of_same (xs := xs) h hm w rfl

theorem LExt.nil_of_same {xs : List LSrc} {a : LSrc} (h : sameLane xs = true) (ha : a ∈ xs) : LExt a (laneWords xs ++ []) := by
  rw [List.append_nil]; exact LExt.of_same h ha

theorem sameLane_one (a : LSrc) : sameLane [a] = true := by cases a <;> rfl

theorem sameUniform_one (a : USrc) : sameUniform [a] = true := by cases a <;> simp [sameUniform]

/-- An operand coded by extension words. -/
def USrc.isExt : USrc → Bool
  | .ext32 _ => true
  | .ext64 _ => true
  | _ => false

theorem sameUniform_tail {x : USrc} {xs : List USrc} (h : sameUniform (x :: xs) = true) (hx : USrc.isExt x = false) :
    sameUniform xs = true := by
  cases x <;> first | exact h | cases hx

theorem sameUniform_eq {x a : USrc} {xs : List USrc} (h : sameUniform (x :: xs) = true) (hx : USrc.isExt x = true)
    (ha : a ∈ x :: xs) (he : USrc.isExt a = true) : a = x := by
  rcases List.mem_cons.1 ha with e | hm
  · exact e
  · have : a ∈ xs.filter fun x => match x with | .ext32 _ => true | .ext64 _ => true | _ => false :=
      List.mem_filter.2 ⟨hm, by cases a <;> first | rfl | cases he⟩
    cases x with
    | ext32 w => simpa using List.all_eq_true.1 h a this
    | ext64 w => simpa using List.all_eq_true.1 h a this
    | _ => cases hx

theorem UExt.of_same : ∀ {xs : List USrc} {a : USrc}, sameUniform xs = true → a ∈ xs → UExt a (uniformWords xs)
  | x :: xs, a, h, ha => by
    cases hx : USrc.isExt x with
    | true =>
      refine ⟨fun w e => ?_, fun d e => ?_⟩
      · have := sameUniform_eq h hx ha (by rw [e]; rfl)
        subst this; subst e; exact ⟨_, rfl⟩
      · have := sameUniform_eq h hx ha (by rw [e]; rfl)
        subst this; subst e; exact ⟨_, rfl⟩
    | false =>
      rcases List.mem_cons.1 ha with e | hm
      · subst e
        exact ⟨fun w e => (by subst e; cases hx), fun d e => (by subst e; cases hx)⟩
      · have := UExt.of_same (sameUniform_tail h hx) hm
        cases x <;> first | exact this | cases hx

theorem code_61 {a : USrc} (h : a.ok = true) : a.code = 61 ↔ ∃ w, a = .ext32 w := by
  cases a <;> simp_all [USrc.ok, USrc.code] <;> omega

theorem code_62 {a : USrc} (h : a.ok = true) : a.code = 62 ↔ ∃ d, a = .ext64 d := by
  cases a <;> simp_all [USrc.ok, USrc.code] <;> omega

/-- All extension operands of a list are one. -/
theorem sameUniform_all : ∀ {xs : List USrc} {a b : USrc}, sameUniform xs = true → a ∈ xs → b ∈ xs → USrc.isExt a = true →
    USrc.isExt b = true → a = b
  | x :: xs, a, b, h, ha, hb, ea, eb => by
    cases hx : USrc.isExt x with
    | true => rw [sameUniform_eq h hx ha ea, sameUniform_eq h hx hb eb]
    | false =>
      rcases List.mem_cons.1 ha with e | ha
      · subst e; rw [hx] at ea; cases ea
      · rcases List.mem_cons.1 hb with e | hb
        · subst e; rw [hx] at eb; cases eb
        · exact sameUniform_all (sameUniform_tail h hx) ha hb ea eb

/-- The fields of operands that agree on their extension words call for a number of them. -/
theorem uniformExt_of_same {xs : List USrc} (h : sameUniform xs = true) (hok : ∀ x ∈ xs, x.ok = true) :
    ∃ n, uniformExt (xs.map USrc.code) = .ok n := by
  unfold uniformExt
  split
  · rename_i h1 h2
    simp only [List.contains_iff_mem, List.mem_map] at h1 h2
    obtain ⟨a, ha, ea⟩ := h1
    obtain ⟨b, hb, eb⟩ := h2
    obtain ⟨w, rfl⟩ := (code_61 (hok a ha)).1 ea
    obtain ⟨d, rfl⟩ := (code_62 (hok b hb)).1 eb
    cases sameUniform_all h ha hb rfl rfl
  all_goals exact ⟨_, rfl⟩

theorem toNat_beq_one (b : Bool) : (b.toNat == 1) = b := by cases b <;> rfl

theorem ofNat_self {w : Nat} (x : BitVec w) : BitVec.ofNat w x.toNat = x := by simp

theorem szRegs_pos (z : Nat) : 0 < szRegs z := by unfold szRegs; split <;> [decide; split <;> decide]

theorem lt_of_and {p : Bool} {v n m : Nat} (h : (p && decide (v < n)) = true) (hm : n ≤ m) : v < m := by
  simp only [Bool.and_eq_true, decide_eq_true_eq] at h
  omega

theorem fragOk_lt {f : Bool} {d a b : Nat} (h : fragOk f d a b = true) : d < 64 ∧ a < 64 ∧ b < 64 := by
  simp only [fragOk, Bool.and_eq_true, decide_eq_true_eq] at h
  omega

theorem mrsNumber_lt {l : Bool} {b : Nat} (h : mrsNumber l b = true) : b < 64 := by
  unfold mrsNumber at h
  cases l <;> simp at h <;> omega

theorem msrNumber_lt {l : Bool} {b : Nat} (h : msrNumber l b = true) : b < 64 := by
  unfold msrNumber at h
  cases l <;> simp at h <;> omega

end Sys2Proof.Laws
end

