-- ==== Sys2Proof/Laws/Forms.lean ====
section
/-! SUPPORT. The round trip of each instruction format: words laid out by the encoder of a format decode to the instruction
that its row builds. -/

namespace Sys2Proof.Laws

open Sys2Proof

/-! ### The fixed bits of formats as fields -/

theorem land_FE000000 (x : Nat) : x &&& 0xFE000000 = x / 2 ^ 25 % 2 ^ 7 * 2 ^ 25 := by
  rw [show 0xFE000000 = (2 ^ 7 - 1) * 2 ^ 25 from rfl, land_run]

theorem fixed_FE000000 {b : Nat} (h : b &&& 0xFE000000 = b) :
    b = b / 2 ^ 25 % 2 ^ 7 * 2 ^ 25 := by
  rw [← land_FE000000, h]

theorem land_FE000030 (x : Nat) : x &&& 0xFE000030 = x / 2 ^ 25 % 2 ^ 7 * 2 ^ 25 + (x / 2 ^ 4 % 2 ^ 2 * 2 ^ 4) := by
  rw [show 0xFE000030 = (2 ^ 7 - 1) * 2 ^ 25 + ((2 ^ 2 - 1) * 2 ^ 4) from rfl, land_above _ _ _ _ (by decide), land_run]

theorem fixed_FE000030 {b : Nat} (h : b &&& 0xFE000030 = b) :
    b = b / 2 ^ 25 % 2 ^ 7 * 2 ^ 25 + (b / 2 ^ 4 % 2 ^ 2 * 2 ^ 4) := by
  rw [← land_FE000030, h]

theorem land_FE000067 (x : Nat) : x &&& 0xFE000067 = x / 2 ^ 25 % 2 ^ 7 * 2 ^ 25 + (x / 2 ^ 5 % 2 ^ 2 * 2 ^ 5 + (x / 2 ^ 0 % 2 ^ 3 * 2 ^ 0)) := by
  rw [show 0xFE000067 = (2 ^ 7 - 1) * 2 ^ 25 + ((2 ^ 2 - 1) * 2 ^ 5 + ((2 ^ 3 - 1) * 2 ^ 0)) from rfl, land_above _ _ _ _ (by decide), land_above _ _ _ _ (by decide), land_run]

theorem fixed_FE000067 {b : Nat} (h : b &&& 0xFE000067 = b) :
    b = b / 2 ^ 25 % 2 ^ 7 * 2 ^ 25 + (b / 2 ^ 5 % 2 ^ 2 * 2 ^ 5 + (b / 2 ^ 0 % 2 ^ 3 * 2 ^ 0)) := by
  rw [← land_FE000067, h]

theorem land_FE00006F (x : Nat) : x &&& 0xFE00006F = x / 2 ^ 25 % 2 ^ 7 * 2 ^ 25 + (x / 2 ^ 5 % 2 ^ 2 * 2 ^ 5 + (x / 2 ^ 0 % 2 ^ 4 * 2 ^ 0)) := by
  rw [show 0xFE00006F = (2 ^ 7 - 1) * 2 ^ 25 + ((2 ^ 2 - 1) * 2 ^ 5 + ((2 ^ 4 - 1) * 2 ^ 0)) from rfl, land_above _ _ _ _ (by decide), land_above _ _ _ _ (by decide), land_run]

theorem fixed_FE00006F {b : Nat} (h : b &&& 0xFE00006F = b) :
    b = b / 2 ^ 25 % 2 ^ 7 * 2 ^ 25 + (b / 2 ^ 5 % 2 ^ 2 * 2 ^ 5 + (b / 2 ^ 0 % 2 ^ 4 * 2 ^ 0)) := by
  rw [← land_FE00006F, h]

theorem land_FE000070 (x : Nat) : x &&& 0xFE000070 = x / 2 ^ 25 % 2 ^ 7 * 2 ^ 25 + (x / 2 ^ 4 % 2 ^ 3 * 2 ^ 4) := by
  rw [show 0xFE000070 = (2 ^ 7 - 1) * 2 ^ 25 + ((2 ^ 3 - 1) * 2 ^ 4) from rfl, land_above _ _ _ _ (by decide), land_run]

theorem fixed_FE000070 {b : Nat} (h : b &&& 0xFE000070 = b) :
    b = b / 2 ^ 25 % 2 ^ 7 * 2 ^ 25 + (b / 2 ^ 4 % 2 ^ 3 * 2 ^ 4) := by
  rw [← land_FE000070, h]

theorem land_FE000077 (x : Nat) : x &&& 0xFE000077 = x / 2 ^ 25 % 2 ^ 7 * 2 ^ 25 + (x / 2 ^ 4 % 2 ^ 3 * 2 ^ 4 + (x / 2 ^ 0 % 2 ^ 3 * 2 ^ 0)) := by
  rw [show 0xFE000077 = (2 ^ 7 - 1) * 2 ^ 25 + ((2 ^ 3 - 1) * 2 ^ 4 + ((2 ^ 3 - 1) * 2 ^ 0)) from rfl, land_above _ _ _ _ (by decide), land_above _ _ _ _ (by decide), land_run]

theorem fixed_FE000077 {b : Nat} (h : b &&& 0xFE000077 = b) :
    b = b / 2 ^ 25 % 2 ^ 7 * 2 ^ 25 + (b / 2 ^ 4 % 2 ^ 3 * 2 ^ 4 + (b / 2 ^ 0 % 2 ^ 3 * 2 ^ 0)) := by
  rw [← land_FE000077, h]

theorem land_FE000078 (x : Nat) : x &&& 0xFE000078 = x / 2 ^ 25 % 2 ^ 7 * 2 ^ 25 + (x / 2 ^ 3 % 2 ^ 4 * 2 ^ 3) := by
  rw [show 0xFE000078 = (2 ^ 7 - 1) * 2 ^ 25 + ((2 ^ 4 - 1) * 2 ^ 3) from rfl, land_above _ _ _ _ (by decide), land_run]

theorem fixed_FE000078 {b : Nat} (h : b &&& 0xFE000078 = b) :
    b = b / 2 ^ 25 % 2 ^ 7 * 2 ^ 25 + (b / 2 ^ 3 % 2 ^ 4 * 2 ^ 3) := by
  rw [← land_FE000078, h]

theorem land_FE00007F (x : Nat) : x &&& 0xFE00007F = x / 2 ^ 25 % 2 ^ 7 * 2 ^ 25 + (x / 2 ^ 0 % 2 ^ 7 * 2 ^ 0) := by
  rw [show 0xFE00007F = (2 ^ 7 - 1) * 2 ^ 25 + ((2 ^ 7 - 1) * 2 ^ 0) from rfl, land_above _ _ _ _ (by decide), land_run]

theorem fixed_FE00007F {b : Nat} (h : b &&& 0xFE00007F = b) :
    b = b / 2 ^ 25 % 2 ^ 7 * 2 ^ 25 + (b / 2 ^ 0 % 2 ^ 7 * 2 ^ 0) := by
  rw [← land_FE00007F, h]

theorem land_FE0003F0 (x : Nat) : x &&& 0xFE0003F0 = x / 2 ^ 25 % 2 ^ 7 * 2 ^ 25 + (x / 2 ^ 4 % 2 ^ 6 * 2 ^ 4) := by
  rw [show 0xFE0003F0 = (2 ^ 7 - 1) * 2 ^ 25 + ((2 ^ 6 - 1) * 2 ^ 4) from rfl, land_above _ _ _ _ (by decide), land_run]

theorem fixed_FE0003F0 {b : Nat} (h : b &&& 0xFE0003F0 = b) :
    b = b / 2 ^ 25 % 2 ^ 7 * 2 ^ 25 + (b / 2 ^ 4 % 2 ^ 6 * 2 ^ 4) := by
  rw [← land_FE0003F0, h]

theorem land_FE001C00 (x : Nat) : x &&& 0xFE001C00 = x / 2 ^ 25 % 2 ^ 7 * 2 ^ 25 + (x / 2 ^ 10 % 2 ^ 3 * 2 ^ 10) := by
  rw [show 0xFE001C00 = (2 ^ 7 - 1) * 2 ^ 25 + ((2 ^ 3 - 1) * 2 ^ 10) from rfl, land_above _ _ _ _ (by decide), land_run]

theorem fixed_FE001C00 {b : Nat} (h : b &&& 0xFE001C00 = b) :
    b = b / 2 ^ 25 % 2 ^ 7 * 2 ^ 25 + (b / 2 ^ 10 % 2 ^ 3 * 2 ^ 10) := by
  rw [← land_FE001C00, h]

theorem land_FE001C78 (x : Nat) : x &&& 0xFE001C78 = x / 2 ^ 25 % 2 ^ 7 * 2 ^ 25 + (x / 2 ^ 10 % 2 ^ 3 * 2 ^ 10 + (x / 2 ^ 3 % 2 ^ 4 * 2 ^ 3)) := by
  rw [show 0xFE001C78 = (2 ^ 7 - 1) * 2 ^ 25 + ((2 ^ 3 - 1) * 2 ^ 10 + ((2 ^ 4 - 1) * 2 ^ 3)) from rfl, land_above _ _ _ _ (by decide), land_above _ _ _ _ (by decide), land_run]

theorem fixed_FE001C78 {b : Nat} (h : b &&& 0xFE001C78 = b) :
    b = b / 2 ^ 25 % 2 ^ 7 * 2 ^ 25 + (b / 2 ^ 10 % 2 ^ 3 * 2 ^ 10 + (b / 2 ^ 3 % 2 ^ 4 * 2 ^ 3)) := by
  rw [← land_FE001C78, h]

theorem land_FE001FC0 (x : Nat) : x &&& 0xFE001FC0 = x / 2 ^ 25 % 2 ^ 7 * 2 ^ 25 + (x / 2 ^ 6 % 2 ^ 7 * 2 ^ 6) := by
  rw [show 0xFE001FC0 = (2 ^ 7 - 1) * 2 ^ 25 + ((2 ^ 7 - 1) * 2 ^ 6) from rfl, land_above _ _ _ _ (by decide), land_run]

theorem fixed_FE001FC0 {b : Nat} (h : b &&& 0xFE001FC0 = b) :
    b = b / 2 ^ 25 % 2 ^ 7 * 2 ^ 25 + (b / 2 ^ 6 % 2 ^ 7 * 2 ^ 6) := by
  rw [← land_FE001FC0, h]

theorem land_FE001FE0 (x : Nat) : x &&& 0xFE001FE0 = x / 2 ^ 25 % 2 ^ 7 * 2 ^ 25 + (x / 2 ^ 5 % 2 ^ 8 * 2 ^ 5) := by
  rw [show 0xFE001FE0 = (2 ^ 7 - 1) * 2 ^ 25 + ((2 ^ 8 - 1) * 2 ^ 5) from rfl, land_above _ _ _ _ (by decide), land_run]

theorem fixed_FE001FE0 {b : Nat} (h : b &&& 0xFE001FE0 = b) :
    b = b / 2 ^ 25 % 2 ^ 7 * 2 ^ 25 + (b / 2 ^ 5 % 2 ^ 8 * 2 ^ 5) := by
  rw [← land_FE001FE0, h]

theorem land_FE001FF0 (x : Nat) : x &&& 0xFE001FF0 = x / 2 ^ 25 % 2 ^ 7 * 2 ^ 25 + (x / 2 ^ 4 % 2 ^ 9 * 2 ^ 4) := by
  rw [show 0xFE001FF0 = (2 ^ 7 - 1) * 2 ^ 25 + ((2 ^ 9 - 1) * 2 ^ 4) from rfl, land_above _ _ _ _ (by decide), land_run]

theorem fixed_FE001FF0 {b : Nat} (h : b &&& 0xFE001FF0 = b) :
    b = b / 2 ^ 25 % 2 ^ 7 * 2 ^ 25 + (b / 2 ^ 4 % 2 ^ 9 * 2 ^ 4) := by
  rw [← land_FE001FF0, h]

theorem land_FE001FF8 (x : Nat) : x &&& 0xFE001FF8 = x / 2 ^ 25 % 2 ^ 7 * 2 ^ 25 + (x / 2 ^ 3 % 2 ^ 10 * 2 ^ 3) := by
  rw [show 0xFE001FF8 = (2 ^ 7 - 1) * 2 ^ 25 + ((2 ^ 10 - 1) * 2 ^ 3) from rfl, land_above _ _ _ _ (by decide), land_run]

theorem fixed_FE001FF8 {b : Nat} (h : b &&& 0xFE001FF8 = b) :
    b = b / 2 ^ 25 % 2 ^ 7 * 2 ^ 25 + (b / 2 ^ 3 % 2 ^ 10 * 2 ^ 3) := by
  rw [← land_FE001FF8, h]

theorem land_FE001FFD (x : Nat) : x &&& 0xFE001FFD = x / 2 ^ 25 % 2 ^ 7 * 2 ^ 25 + (x / 2 ^ 2 % 2 ^ 11 * 2 ^ 2 + (x / 2 ^ 0 % 2 ^ 1 * 2 ^ 0)) := by
  rw [show 0xFE001FFD = (2 ^ 7 - 1) * 2 ^ 25 + ((2 ^ 11 - 1) * 2 ^ 2 + ((2 ^ 1 - 1) * 2 ^ 0)) from rfl, land_above _ _ _ _ (by decide), land_above _ _ _ _ (by decide), land_run]

theorem fixed_FE001FFD {b : Nat} (h : b &&& 0xFE001FFD = b) :
    b = b / 2 ^ 25 % 2 ^ 7 * 2 ^ 25 + (b / 2 ^ 2 % 2 ^ 11 * 2 ^ 2 + (b / 2 ^ 0 % 2 ^ 1 * 2 ^ 0)) := by
  rw [← land_FE001FFD, h]

theorem land_FE001FFF (x : Nat) : x &&& 0xFE001FFF = x / 2 ^ 25 % 2 ^ 7 * 2 ^ 25 + (x / 2 ^ 0 % 2 ^ 13 * 2 ^ 0) := by
  rw [show 0xFE001FFF = (2 ^ 7 - 1) * 2 ^ 25 + ((2 ^ 13 - 1) * 2 ^ 0) from rfl, land_above _ _ _ _ (by decide), land_run]

theorem fixed_FE001FFF {b : Nat} (h : b &&& 0xFE001FFF = b) :
    b = b / 2 ^ 25 % 2 ^ 7 * 2 ^ 25 + (b / 2 ^ 0 % 2 ^ 13 * 2 ^ 0) := by
  rw [← land_FE001FFF, h]

theorem land_FE00FFFF (x : Nat) : x &&& 0xFE00FFFF = x / 2 ^ 25 % 2 ^ 7 * 2 ^ 25 + (x / 2 ^ 0 % 2 ^ 16 * 2 ^ 0) := by
  rw [show 0xFE00FFFF = (2 ^ 7 - 1) * 2 ^ 25 + ((2 ^ 16 - 1) * 2 ^ 0) from rfl, land_above _ _ _ _ (by decide), land_run]

theorem fixed_FE00FFFF {b : Nat} (h : b &&& 0xFE00FFFF = b) :
    b = b / 2 ^ 25 % 2 ^ 7 * 2 ^ 25 + (b / 2 ^ 0 % 2 ^ 16 * 2 ^ 0) := by
  rw [← land_FE00FFFF, h]

theorem land_FE03FFFF (x : Nat) : x &&& 0xFE03FFFF = x / 2 ^ 25 % 2 ^ 7 * 2 ^ 25 + (x / 2 ^ 0 % 2 ^ 18 * 2 ^ 0) := by
  rw [show 0xFE03FFFF = (2 ^ 7 - 1) * 2 ^ 25 + ((2 ^ 18 - 1) * 2 ^ 0) from rfl, land_above _ _ _ _ (by decide), land_run]

theorem fixed_FE03FFFF {b : Nat} (h : b &&& 0xFE03FFFF = b) :
    b = b / 2 ^ 25 % 2 ^ 7 * 2 ^ 25 + (b / 2 ^ 0 % 2 ^ 18 * 2 ^ 0) := by
  rw [← land_FE03FFFF, h]

theorem land_FE07E000 (x : Nat) : x &&& 0xFE07E000 = x / 2 ^ 25 % 2 ^ 7 * 2 ^ 25 + (x / 2 ^ 13 % 2 ^ 6 * 2 ^ 13) := by
  rw [show 0xFE07E000 = (2 ^ 7 - 1) * 2 ^ 25 + ((2 ^ 6 - 1) * 2 ^ 13) from rfl, land_above _ _ _ _ (by decide), land_run]

theorem fixed_FE07E000 {b : Nat} (h : b &&& 0xFE07E000 = b) :
    b = b / 2 ^ 25 % 2 ^ 7 * 2 ^ 25 + (b / 2 ^ 13 % 2 ^ 6 * 2 ^ 13) := by
  rw [← land_FE07E000, h]

theorem land_FE07E07F (x : Nat) : x &&& 0xFE07E07F = x / 2 ^ 25 % 2 ^ 7 * 2 ^ 25 + (x / 2 ^ 13 % 2 ^ 6 * 2 ^ 13 + (x / 2 ^ 0 % 2 ^ 7 * 2 ^ 0)) := by
  rw [show 0xFE07E07F = (2 ^ 7 - 1) * 2 ^ 25 + ((2 ^ 6 - 1) * 2 ^ 13 + ((2 ^ 7 - 1) * 2 ^ 0)) from rfl, land_above _ _ _ _ (by decide), land_above _ _ _ _ (by decide), land_run]

theorem fixed_FE07E07F {b : Nat} (h : b &&& 0xFE07E07F = b) :
    b = b / 2 ^ 25 % 2 ^ 7 * 2 ^ 25 + (b / 2 ^ 13 % 2 ^ 6 * 2 ^ 13 + (b / 2 ^ 0 % 2 ^ 7 * 2 ^ 0)) := by
  rw [← land_FE07E07F, h]

theorem land_FE07FFF0 (x : Nat) : x &&& 0xFE07FFF0 = x / 2 ^ 25 % 2 ^ 7 * 2 ^ 25 + (x / 2 ^ 4 % 2 ^ 15 * 2 ^ 4) := by
  rw [show 0xFE07FFF0 = (2 ^ 7 - 1) * 2 ^ 25 + ((2 ^ 15 - 1) * 2 ^ 4) from rfl, land_above _ _ _ _ (by decide), land_run]

theorem fixed_FE07FFF0 {b : Nat} (h : b &&& 0xFE07FFF0 = b) :
    b = b / 2 ^ 25 % 2 ^ 7 * 2 ^ 25 + (b / 2 ^ 4 % 2 ^ 15 * 2 ^ 4) := by
  rw [← land_FE07FFF0, h]

theorem land_FE07FFFE (x : Nat) : x &&& 0xFE07FFFE = x / 2 ^ 25 % 2 ^ 7 * 2 ^ 25 + (x / 2 ^ 1 % 2 ^ 18 * 2 ^ 1) := by
  rw [show 0xFE07FFFE = (2 ^ 7 - 1) * 2 ^ 25 + ((2 ^ 18 - 1) * 2 ^ 1) from rfl, land_above _ _ _ _ (by decide), land_run]

theorem fixed_FE07FFFE {b : Nat} (h : b &&& 0xFE07FFFE = b) :
    b = b / 2 ^ 25 % 2 ^ 7 * 2 ^ 25 + (b / 2 ^ 1 % 2 ^ 18 * 2 ^ 1) := by
  rw [← land_FE07FFFE, h]

theorem land_FE07FFFF (x : Nat) : x &&& 0xFE07FFFF = x / 2 ^ 25 % 2 ^ 7 * 2 ^ 25 + (x / 2 ^ 0 % 2 ^ 19 * 2 ^ 0) := by
  rw [show 0xFE07FFFF = (2 ^ 7 - 1) * 2 ^ 25 + ((2 ^ 19 - 1) * 2 ^ 0) from rfl, land_above _ _ _ _ (by decide), land_run]

theorem fixed_FE07FFFF {b : Nat} (h : b &&& 0xFE07FFFF = b) :
    b = b / 2 ^ 25 % 2 ^ 7 * 2 ^ 25 + (b / 2 ^ 0 % 2 ^ 19 * 2 ^ 0) := by
  rw [← land_FE07FFFF, h]

theorem land_FFF81FF8 (x : Nat) : x &&& 0xFFF81FF8 = x / 2 ^ 19 % 2 ^ 13 * 2 ^ 19 + (x / 2 ^ 3 % 2 ^ 10 * 2 ^ 3) := by
  rw [show 0xFFF81FF8 = (2 ^ 13 - 1) * 2 ^ 19 + ((2 ^ 10 - 1) * 2 ^ 3) from rfl, land_above _ _ _ _ (by decide), land_run]

theorem fixed_FFF81FF8 {b : Nat} (h : b &&& 0xFFF81FF8 = b) :
    b = b / 2 ^ 19 % 2 ^ 13 * 2 ^ 19 + (b / 2 ^ 3 % 2 ^ 10 * 2 ^ 3) := by
  rw [← land_FFF81FF8, h]

theorem land_FFF81FFF (x : Nat) : x &&& 0xFFF81FFF = x / 2 ^ 19 % 2 ^ 13 * 2 ^ 19 + (x / 2 ^ 0 % 2 ^ 13 * 2 ^ 0) := by
  rw [show 0xFFF81FFF = (2 ^ 13 - 1) * 2 ^ 19 + ((2 ^ 13 - 1) * 2 ^ 0) from rfl, land_above _ _ _ _ (by decide), land_run]

theorem fixed_FFF81FFF {b : Nat} (h : b &&& 0xFFF81FFF = b) :
    b = b / 2 ^ 19 % 2 ^ 13 * 2 ^ 19 + (b / 2 ^ 0 % 2 ^ 13 * 2 ^ 0) := by
  rw [← land_FFF81FFF, h]

theorem land_FFFFFFF8 (x : Nat) : x &&& 0xFFFFFFF8 = x / 2 ^ 3 % 2 ^ 29 * 2 ^ 3 := by
  rw [show 0xFFFFFFF8 = (2 ^ 29 - 1) * 2 ^ 3 from rfl, land_run]

theorem fixed_FFFFFFF8 {b : Nat} (h : b &&& 0xFFFFFFF8 = b) :
    b = b / 2 ^ 3 % 2 ^ 29 * 2 ^ 3 := by
  rw [← land_FFFFFFF8, h]

theorem land_FFFFFFFF (x : Nat) : x &&& 0xFFFFFFFF = x / 2 ^ 0 % 2 ^ 32 * 2 ^ 0 := by
  rw [show 0xFFFFFFFF = (2 ^ 32 - 1) * 2 ^ 0 from rfl, land_run]

theorem fixed_FFFFFFFF {b : Nat} (h : b &&& 0xFFFFFFFF = b) :
    b = b / 2 ^ 0 % 2 ^ 32 * 2 ^ 0 := by
  rw [← land_FFFFFFFF, h]

/-! ### Formats -/

theorem rt_X0 {mk : Instr} {base : Nat} (hr : rowAt 0xFFFFFFFF base = some ⟨0xFFFFFFFF, base, decX0 mk⟩)
    (hb : base &&& 0xFFFFFFFF = base) (hi : mk.wf = true) : decode (encX0 base) = .ok mk := by
  have hb := fixed_FFFFFFFF hb
  have hn : (BitVec.ofNat 32 base : Word).toNat = base := by
    rw [BitVec.toNat_ofNat]; exact Nat.mod_eq_of_lt (by omega)
  refine decode_of_row hr ?_ ?_ rfl hi
  · rw [land_FFFFFFFF, hn]; omega
  · unfold fld; rw [hn]; omega

/-- The index or scope of an LM word is read back. -/
theorem addr_code {m : Addr} {ext : List Word} {w : Word} (h : m.ok = true) (hx : LExt m.index ext)
    (hw : w.toNat / 2 ^ 3 % 2 ^ 1 * 2 ^ 3 + w.toNat / 2 ^ 7 % 2 ^ 6 * 2 ^ 7 = m.code) : addr ext w = .ok m := by
  cases m with
  | plain b =>
    have hc := LSrc.code_lt h
    have f3 : fld w 3 1 = 0 := by unfold fld; simp only [Addr.code] at hw; omega
    have f7 : fld w 7 6 = b.code := by unfold fld; simp only [Addr.code] at hw; omega
    unfold addr
    rw [if_pos f3, f7, lsrc_code h hx]
    rfl
  | ordered k =>
    have hk : k < 6 := of_decide_eq_true h
    have f3 : fld w 3 1 = 1 := by unfold fld; simp only [Addr.code] at hw; omega
    have f7 : fld w 7 3 = 0 := by unfold fld; simp only [Addr.code] at hw; omega
    have f10 : fld w 10 3 = k := by unfold fld; simp only [Addr.code] at hw; omega
    unfold addr
    rw [if_neg (by rw [f3]; decide), if_pos f7, f10]

theorem addr_code_lt {m : Addr} (h : m.ok = true) : ∃ o b, m.code = o * 2 ^ 3 + b * 2 ^ 7 ∧ o < 2 ∧ b < 64 := by
  cases m with
  | plain b => exact ⟨0, b.code, by simp [Addr.code], by decide, LSrc.code_lt h⟩
  | ordered k =>
    have hk : k < 6 := of_decide_eq_true h
    exact ⟨1, 8 * k, by simp only [Addr.code]; omega, by decide, by omega⟩

theorem rt_D19L13M3N4N0 {mk : LDst → LSrc → Addr → Nat → Nat → Instr} {base : Nat} (x0 : LDst) (x1 : LSrc) (x2 : Addr)
    (x3 x4 : Nat) (hr : rowAt 0xFE000000 base = some ⟨0xFE000000, base, decD19L13M3N4N0 mk⟩)
    (hb : base &&& 0xFE000000 = base) (hx0 : x0.okWidth 1 = true) (hx1 : x1.okWidth 1 = true) (hx2 : x2.ok = true)
    (hx3 : x3 < 8) (hx4 : x4 < 8) (hs : sameLane [x1, x2.index] = true) (hi : (mk x0 x1 x2 x3 x4).wf = true) :
    decode (encD19L13M3N4N0 base x0 x1 x2 x3 x4) = .ok (mk x0 x1 x2 x3 x4) := by
  have cx0 := LDst.code_lt hx0
  have cx1 := LSrc.code_lt hx1
  obtain ⟨o, b, hm, ho, hbb⟩ := addr_code_lt hx2
  have ex1 : LExt x1 (laneWords [x1, x2.index]) := LExt.of_same hs (by simp)
  have ex2 : LExt x2.index (laneWords [x1, x2.index]) := LExt.of_same hs (by simp)
  have hb := fixed_FE000000 hb
  have v0 : base / 2 ^ 25 % 2 ^ 7 < 2 ^ 7 := Nat.mod_lt _ (by decide)
  generalize u0 : base / 2 ^ 25 % 2 ^ 7 = y0 at hb v0
  unfold encD19L13M3N4N0
  have hn : (BitVec.ofNat 32 (base + x0.code * 2 ^ 19 + x1.code * 2 ^ 13 + x2.code + x3 * 2 ^ 4 + x4 * 2 ^ 0) : Word).toNat =
      base + x0.code * 2 ^ 19 + x1.code * 2 ^ 13 + x2.code + x3 * 2 ^ 4 + x4 * 2 ^ 0 := by
    rw [BitVec.toNat_ofNat]; exact Nat.mod_eq_of_lt (by omega)
  generalize hw : (BitVec.ofNat 32 (base + x0.code * 2 ^ 19 + x1.code * 2 ^ 13 + x2.code + x3 * 2 ^ 4 + x4 * 2 ^ 0) : Word) = w
    at hn
  refine decode_of_row hr ?_ ?_ ?_ hi
  · rw [land_FE000000, hn]; omega
  · unfold fld; rw [hn]; omega
  · unfold decD19L13M3N4N0
    have f19 : fld w 19 6 = x0.code := by unfold fld; rw [hn]; omega
    have f13 : fld w 13 6 = x1.code := by unfold fld; rw [hn]; omega
    have f4 : fld w 4 3 = x3 := by unfold fld; rw [hn]; omega
    have f0 : fld w 0 3 = x4 := by unfold fld; rw [hn]; omega
    have fm : addr (laneWords [x1, x2.index]) w = .ok x2 := addr_code hx2 ex2 (by rw [hn]; omega)
    rw [f19, f13, f4, f0, ldst_code hx0, lsrc_code hx1 ex1, fm]
    rfl

theorem rt_L19L13M3N4N0 {mk : LSrc → LSrc → Addr → Nat → Nat → Instr} {base : Nat} (x0 x1 : LSrc) (x2 : Addr)
    (x3 x4 : Nat) (hr : rowAt 0xFE000000 base = some ⟨0xFE000000, base, decL19L13M3N4N0 mk⟩)
    (hb : base &&& 0xFE000000 = base) (hx0 : x0.okWidth 1 = true) (hx1 : x1.okWidth 1 = true) (hx2 : x2.ok = true)
    (hx3 : x3 < 8) (hx4 : x4 < 8) (hs : sameLane [x0, x1, x2.index] = true) (hi : (mk x0 x1 x2 x3 x4).wf = true) :
    decode (encL19L13M3N4N0 base x0 x1 x2 x3 x4) = .ok (mk x0 x1 x2 x3 x4) := by
  have cx0 := LSrc.code_lt hx0
  have cx1 := LSrc.code_lt hx1
  obtain ⟨o, b, hm, ho, hbb⟩ := addr_code_lt hx2
  have ex0 : LExt x0 (laneWords [x0, x1, x2.index]) := LExt.of_same hs (by simp)
  have ex1 : LExt x1 (laneWords [x0, x1, x2.index]) := LExt.of_same hs (by simp)
  have ex2 : LExt x2.index (laneWords [x0, x1, x2.index]) := LExt.of_same hs (by simp)
  have hb := fixed_FE000000 hb
  have v0 : base / 2 ^ 25 % 2 ^ 7 < 2 ^ 7 := Nat.mod_lt _ (by decide)
  generalize u0 : base / 2 ^ 25 % 2 ^ 7 = y0 at hb v0
  unfold encL19L13M3N4N0
  have hn : (BitVec.ofNat 32 (base + x0.code * 2 ^ 19 + x1.code * 2 ^ 13 + x2.code + x3 * 2 ^ 4 + x4 * 2 ^ 0) : Word).toNat =
      base + x0.code * 2 ^ 19 + x1.code * 2 ^ 13 + x2.code + x3 * 2 ^ 4 + x4 * 2 ^ 0 := by
    rw [BitVec.toNat_ofNat]; exact Nat.mod_eq_of_lt (by omega)
  generalize hw : (BitVec.ofNat 32 (base + x0.code * 2 ^ 19 + x1.code * 2 ^ 13 + x2.code + x3 * 2 ^ 4 + x4 * 2 ^ 0) : Word) = w
    at hn
  refine decode_of_row hr ?_ ?_ ?_ hi
  · rw [land_FE000000, hn]; omega
  · unfold fld; rw [hn]; omega
  · unfold decL19L13M3N4N0
    have f19 : fld w 19 6 = x0.code := by unfold fld; rw [hn]; omega
    have f13 : fld w 13 6 = x1.code := by unfold fld; rw [hn]; omega
    have f4 : fld w 4 3 = x3 := by unfold fld; rw [hn]; omega
    have f0 : fld w 0 3 = x4 := by unfold fld; rw [hn]; omega
    have fm : addr (laneWords [x0, x1, x2.index]) w = .ok x2 := addr_code hx2 ex2 (by rw [hn]; omega)
    rw [f19, f13, f4, f0, lsrc_code hx0 ex0, lsrc_code hx1 ex1, fm]
    rfl

/-- The extension words of one uniform operand, then those of one lane operand. -/
theorem usrc_then (a : USrc) (t : List Word) (h : a.ok = true) :
    uniformExt [a.code] = .ok (uniformWords [a]).length ∧ usrc (uniformWords [a] ++ t) a.code = .ok a ∧
      (uniformWords [a] ++ t).drop (uniformWords [a]).length = t := by
  refine ⟨?_, usrc_code h ?_, by simp⟩
  · cases a with
    | s r =>
      have : r < 56 := of_decide_eq_true h
      have h1 : [r].contains 61 = false := by simpa using fun e : 61 = r => by omega
      have h2 : [r].contains 62 = false := by simpa using fun e : 62 = r => by omega
      simp only [uniformExt, USrc.code, h1, h2]
      rfl
    | q i =>
      have : i < 4 := of_decide_eq_true h
      have h1 : [56 + i].contains 61 = false := by simpa using fun e : 61 = 56 + i => by omega
      have h2 : [56 + i].contains 62 = false := by simpa using fun e : 62 = 56 + i => by omega
      simp only [uniformExt, USrc.code, h1, h2]
      rfl
    | _ => rfl
  · refine ⟨fun w e => ?_, fun d e => ?_⟩ <;> subst e <;> exact ⟨_, rfl⟩

theorem rt_U19L13 {mk : USrc → LSrc → Instr} {base : Nat} (x0 : USrc) (x1 : LSrc)
    (hr : rowAt 0xFE001FFF base = some ⟨0xFE001FFF, base, decU19L13 mk⟩) (hb : base &&& 0xFE001FFF = base)
    (hx0 : x0.ok = true) (hx1 : x1.okWidth 1 = true) (hi : (mk x0 x1).wf = true) :
    decode (encU19L13 base x0 x1) = .ok (mk x0 x1) := by
  have cx0 := USrc.code_lt hx0
  have cx1 := LSrc.code_lt hx1
  have ex1 : LExt x1 (laneWords [x1]) := LExt.of_same (sameLane_one _) (by simp)
  obtain ⟨e1, e2, e3⟩ := usrc_then x0 (laneWords [x1]) hx0
  have hb := fixed_FE001FFF hb
  have v0 : base / 2 ^ 25 % 2 ^ 7 < 2 ^ 7 := Nat.mod_lt _ (by decide)
  have v1 : base / 2 ^ 0 % 2 ^ 13 < 2 ^ 13 := Nat.mod_lt _ (by decide)
  generalize u0 : base / 2 ^ 25 % 2 ^ 7 = y0 at hb v0
  generalize u1 : base / 2 ^ 0 % 2 ^ 13 = y1 at hb v1
  unfold encU19L13
  have hn : (BitVec.ofNat 32 (base + x0.code * 2 ^ 19 + x1.code * 2 ^ 13) : Word).toNat =
      base + x0.code * 2 ^ 19 + x1.code * 2 ^ 13 := by
    rw [BitVec.toNat_ofNat]; exact Nat.mod_eq_of_lt (by omega)
  generalize hw : (BitVec.ofNat 32 (base + x0.code * 2 ^ 19 + x1.code * 2 ^ 13) : Word) = w at hn
  refine decode_of_row hr ?_ ?_ ?_ hi
  · rw [land_FE001FFF, hn]; omega
  · unfold fld; rw [hn]; omega
  · unfold decU19L13
    have f19 : fld w 19 6 = x0.code := by unfold fld; rw [hn]; omega
    have f13 : fld w 13 6 = x1.code := by unfold fld; rw [hn]; omega
    rw [f19, f13, e1, e2]
    show (lsrc ((uniformWords [x0] ++ laneWords [x1]).drop (uniformWords [x0]).length) x1.code).bind _ = _
    rw [e3, lsrc_code hx1 ex1]
    rfl

theorem rt_P19N13 {mk : MDst → Nat → Instr} {base : Nat} (x0 : MDst) (x1 : Nat)
    (hr : rowAt 0xFE001FFD base = some ⟨0xFE001FFD, base, decP19N13 mk⟩) (hb : base &&& 0xFE001FFD = base)
    (hx0 : x0.ok = true) (hx1 : x1 < 64) (hi : (mk x0 x1).wf = true) :
    decode (encP19N13 base x0 x1) = .ok (mk x0 x1) := by
  obtain ⟨c, o, hc, hc1, ho⟩ : ∃ c o, x0.code = c * 2 ^ 19 + o * 2 ∧ c < 64 ∧ o < 2 := by
    cases x0 with
    | u d => exact ⟨d.code, 0, by simp [MDst.code], UDst.code_lt hx0, by decide⟩
    | v d => exact ⟨d.code, 1, by simp [MDst.code], LDst.code_lt (LDst.ok1 (by decide) hx0), by decide⟩
  have hb := fixed_FE001FFD hb
  have v0 : base / 2 ^ 25 % 2 ^ 7 < 2 ^ 7 := Nat.mod_lt _ (by decide)
  have v1 : base / 2 ^ 2 % 2 ^ 11 < 2 ^ 11 := Nat.mod_lt _ (by decide)
  have v2 : base / 2 ^ 0 % 2 ^ 1 < 2 ^ 1 := Nat.mod_lt _ (by decide)
  generalize u0 : base / 2 ^ 25 % 2 ^ 7 = y0 at hb v0
  generalize u1 : base / 2 ^ 2 % 2 ^ 11 = y1 at hb v1
  generalize u2 : base / 2 ^ 0 % 2 ^ 1 = y2 at hb v2
  unfold encP19N13
  have hn : (BitVec.ofNat 32 (base + x0.code + x1 * 2 ^ 13) : Word).toNat = base + x0.code + x1 * 2 ^ 13 := by
    rw [BitVec.toNat_ofNat]; exact Nat.mod_eq_of_lt (by omega)
  generalize hw : (BitVec.ofNat 32 (base + x0.code + x1 * 2 ^ 13) : Word) = w at hn
  refine decode_of_row hr ?_ ?_ ?_ hi
  · rw [land_FE001FFD, hn]; omega
  · unfold fld; rw [hn]; omega
  · unfold decP19N13
    have f13 : fld w 13 6 = x1 := by unfold fld; rw [hn]; omega
    have f1 : fld w 1 1 = o := by unfold fld; rw [hn]; omega
    have f19 : fld w 19 6 = c := by unfold fld; rw [hn]; omega
    have fd : mdst w = .ok x0 := by
      unfold mdst
      rw [f1, f19]
      cases x0 with
      | u d =>
        simp only [MDst.code] at hc
        have := UDst.code_lt (d := d) hx0
        rw [if_pos (by omega), show c = d.code by omega, udst_code hx0]; rfl
      | v d =>
        have h1 := LDst.ok1 (by decide) hx0
        simp only [MDst.code] at hc
        have := LDst.code_lt h1
        rw [if_neg (by omega), show c = d.code by omega, ldst_code h1]; rfl
    rw [fd, f13]
    rfl

theorem rt_Q19N13 {mk : MSrc → Nat → Instr} {base : Nat} (x0 : MSrc) (x1 : Nat)
    (hr : rowAt 0xFE001FFD base = some ⟨0xFE001FFD, base, decQ19N13 mk⟩) (hb : base &&& 0xFE001FFD = base)
    (hx0 : x0.ok = true) (hx1 : x1 < 64) (hi : (mk x0 x1).wf = true) :
    decode (encQ19N13 base x0 x1) = .ok (mk x0 x1) := by
  obtain ⟨c, o, hc, hc1, ho⟩ : ∃ c o, x0.code = c * 2 ^ 19 + o * 2 ∧ c < 64 ∧ o < 2 := by
    cases x0 with
    | u d => exact ⟨d.code, 0, by simp [MSrc.code], USrc.code_lt hx0, by decide⟩
    | v d => exact ⟨d.code, 1, by simp [MSrc.code], LSrc.code_lt (LSrc.ok1 (by decide) hx0), by decide⟩
  have hb := fixed_FE001FFD hb
  have v0 : base / 2 ^ 25 % 2 ^ 7 < 2 ^ 7 := Nat.mod_lt _ (by decide)
  have v1 : base / 2 ^ 2 % 2 ^ 11 < 2 ^ 11 := Nat.mod_lt _ (by decide)
  have v2 : base / 2 ^ 0 % 2 ^ 1 < 2 ^ 1 := Nat.mod_lt _ (by decide)
  generalize u0 : base / 2 ^ 25 % 2 ^ 7 = y0 at hb v0
  generalize u1 : base / 2 ^ 2 % 2 ^ 11 = y1 at hb v1
  generalize u2 : base / 2 ^ 0 % 2 ^ 1 = y2 at hb v2
  unfold encQ19N13
  have hn : (BitVec.ofNat 32 (base + x0.code + x1 * 2 ^ 13) : Word).toNat = base + x0.code + x1 * 2 ^ 13 := by
    rw [BitVec.toNat_ofNat]; exact Nat.mod_eq_of_lt (by omega)
  generalize hw : (BitVec.ofNat 32 (base + x0.code + x1 * 2 ^ 13) : Word) = w at hn
  refine decode_of_row hr ?_ ?_ ?_ hi
  · rw [land_FE001FFD, hn]; omega
  · unfold fld; rw [hn]; omega
  · unfold decQ19N13
    have f13 : fld w 13 6 = x1 := by unfold fld; rw [hn]; omega
    have f1 : fld w 1 1 = o := by unfold fld; rw [hn]; omega
    have f19 : fld w 19 6 = c := by unfold fld; rw [hn]; omega
    have fd : msrc x0.words w = .ok x0 := by
      unfold msrc
      rw [f1, f19]
      cases x0 with
      | u a =>
        simp only [MSrc.code] at hc
        have := USrc.code_lt (a := a) hx0
        rw [if_pos (by omega), show c = a.code by omega, MSrc.words,
          usrc_code hx0 (UExt.of_same (sameUniform_one _) (by simp))]
        rfl
      | v a =>
        have h1 := LSrc.ok1 (by decide) hx0
        simp only [MSrc.code] at hc
        have := LSrc.code_lt h1
        rw [if_neg (by omega), show c = a.code by omega, MSrc.words,
          lsrc_code h1 (LExt.of_same (sameLane_one _) (by simp))]
        rfl
    rw [fd, f13]
    rfl

theorem rt_D19L13L7B3N0 {mk : LDst → LSrc → LSrc → Bool → Nat → Instr} {base : Nat} (x0 : LDst) (x1 : LSrc) (x2 : LSrc) (x3 : Bool) (x4 : Nat)
    (hr : rowAt 0xFE000070 base = some ⟨0xFE000070, base, decD19L13L7B3N0 mk⟩) (hb : base &&& 0xFE000070 = base)
    (hx0 : x0.okWidth 1 = true) (hx1 : x1.okWidth 1 = true) (hx2 : x2.okWidth 1 = true) (hx4 : x4 < 8) (hs : sameLane [x1, x2] = true) (hi : (mk x0 x1 x2 x3 x4).wf = true) :
    decode (encD19L13L7B3N0 base x0 x1 x2 x3 x4) = .ok (mk x0 x1 x2 x3 x4) := by
  have cx0 := LDst.code_lt hx0
  have cx1 := LSrc.code_lt hx1
  have cx2 := LSrc.code_lt hx2
  have cx3 := Bool.toNat_le x3
  have ex1 : LExt x1 (laneWords [x1, x2]) := LExt.of_same hs (by simp)
  have ex2 : LExt x2 (laneWords [x1, x2]) := LExt.of_same hs (by simp)
  have hb := fixed_FE000070 hb
  have v0 : base / 2 ^ 25 % 2 ^ 7 < 2 ^ 7 := Nat.mod_lt _ (by decide)
  have v1 : base / 2 ^ 4 % 2 ^ 3 < 2 ^ 3 := Nat.mod_lt _ (by decide)
  generalize u0 : base / 2 ^ 25 % 2 ^ 7 = y0 at hb v0
  generalize u1 : base / 2 ^ 4 % 2 ^ 3 = y1 at hb v1
  unfold encD19L13L7B3N0
  have hn2 : (BitVec.ofNat 32 (base + x0.code * 2 ^ 19 + x1.code * 2 ^ 13 + x2.code * 2 ^ 7 + x3.toNat * 2 ^ 3 + x4 * 2 ^ 0) : Word).toNat = base + x0.code * 2 ^ 19 + x1.code * 2 ^ 13 + x2.code * 2 ^ 7 + x3.toNat * 2 ^ 3 + x4 * 2 ^ 0 := by
    rw [BitVec.toNat_ofNat]; exact Nat.mod_eq_of_lt (by omega)
  generalize hw : (BitVec.ofNat 32 (base + x0.code * 2 ^ 19 + x1.code * 2 ^ 13 + x2.code * 2 ^ 7 + x3.toNat * 2 ^ 3 + x4 * 2 ^ 0) : Word) = w at hn2
  refine decode_of_row hr ?_ ?_ ?_ hi
  · rw [land_FE000070, hn2]; omega
  · unfold fld; rw [hn2]; omega
  · unfold decD19L13L7B3N0
    have f19 : fld w 19 6 = x0.code := by unfold fld; rw [hn2]; omega
    have f13 : fld w 13 6 = x1.code := by unfold fld; rw [hn2]; omega
    have f7 : fld w 7 6 = x2.code := by unfold fld; rw [hn2]; omega
    have f3 : fld w 3 1 = x3.toNat := by unfold fld; rw [hn2]; omega
    have f0 : fld w 0 3 = x4 := by unfold fld; rw [hn2]; omega
    rw [f19, f13, f7, f3, f0, ldst_code hx0, lsrc_code hx1 ex1, lsrc_code hx2 ex2, toNat_beq_one]
    rfl

theorem rt_D19L13B3N0 {mk : LDst → LSrc → Bool → Nat → Instr} {base : Nat} (x0 : LDst) (x1 : LSrc) (x2 : Bool) (x3 : Nat)
    (hr : rowAt 0xFE001FF0 base = some ⟨0xFE001FF0, base, decD19L13B3N0 mk⟩) (hb : base &&& 0xFE001FF0 = base)
    (hx0 : x0.okWidth 1 = true) (hx1 : x1.okWidth 1 = true) (hx3 : x3 < 8) (hi : (mk x0 x1 x2 x3).wf = true) :
    decode (encD19L13B3N0 base x0 x1 x2 x3) = .ok (mk x0 x1 x2 x3) := by
  have cx0 := LDst.code_lt hx0
  have cx1 := LSrc.code_lt hx1
  have cx2 := Bool.toNat_le x2
  have ex1 : LExt x1 (laneWords [x1]) := LExt.of_same (sameLane_one _) (by simp)
  have hb := fixed_FE001FF0 hb
  have v0 : base / 2 ^ 25 % 2 ^ 7 < 2 ^ 7 := Nat.mod_lt _ (by decide)
  have v1 : base / 2 ^ 4 % 2 ^ 9 < 2 ^ 9 := Nat.mod_lt _ (by decide)
  generalize u0 : base / 2 ^ 25 % 2 ^ 7 = y0 at hb v0
  generalize u1 : base / 2 ^ 4 % 2 ^ 9 = y1 at hb v1
  unfold encD19L13B3N0
  have hn2 : (BitVec.ofNat 32 (base + x0.code * 2 ^ 19 + x1.code * 2 ^ 13 + x2.toNat * 2 ^ 3 + x3 * 2 ^ 0) : Word).toNat = base + x0.code * 2 ^ 19 + x1.code * 2 ^ 13 + x2.toNat * 2 ^ 3 + x3 * 2 ^ 0 := by
    rw [BitVec.toNat_ofNat]; exact Nat.mod_eq_of_lt (by omega)
  generalize hw : (BitVec.ofNat 32 (base + x0.code * 2 ^ 19 + x1.code * 2 ^ 13 + x2.toNat * 2 ^ 3 + x3 * 2 ^ 0) : Word) = w at hn2
  refine decode_of_row hr ?_ ?_ ?_ hi
  · rw [land_FE001FF0, hn2]; omega
  · unfold fld; rw [hn2]; omega
  · unfold decD19L13B3N0
    have f19 : fld w 19 6 = x0.code := by unfold fld; rw [hn2]; omega
    have f13 : fld w 13 6 = x1.code := by unfold fld; rw [hn2]; omega
    have f3 : fld w 3 1 = x2.toNat := by unfold fld; rw [hn2]; omega
    have f0 : fld w 0 3 = x3 := by unfold fld; rw [hn2]; omega
    rw [f19, f13, f3, f0, ldst_code hx0, lsrc_code hx1 ex1, toNat_beq_one]
    rfl

theorem rt_N19L13L7N0 {mk : Nat → LSrc → LSrc → Nat → Instr} {base : Nat} (x0 : Nat) (x1 : LSrc) (x2 : LSrc) (x3 : Nat)
    (hr : rowAt 0xFE000078 base = some ⟨0xFE000078, base, decN19L13L7N0 mk⟩) (hb : base &&& 0xFE000078 = base)
    (hx0 : x0 < 64) (hx1 : x1.okWidth 1 = true) (hx2 : x2.okWidth 1 = true) (hx3 : x3 < 8) (hs : sameLane [x1, x2] = true) (hi : (mk x0 x1 x2 x3).wf = true) :
    decode (encN19L13L7N0 base x0 x1 x2 x3) = .ok (mk x0 x1 x2 x3) := by
  have cx1 := LSrc.code_lt hx1
  have cx2 := LSrc.code_lt hx2
  have ex1 : LExt x1 (laneWords [x1, x2]) := LExt.of_same hs (by simp)
  have ex2 : LExt x2 (laneWords [x1, x2]) := LExt.of_same hs (by simp)
  have hb := fixed_FE000078 hb
  have v0 : base / 2 ^ 25 % 2 ^ 7 < 2 ^ 7 := Nat.mod_lt _ (by decide)
  have v1 : base / 2 ^ 3 % 2 ^ 4 < 2 ^ 4 := Nat.mod_lt _ (by decide)
  generalize u0 : base / 2 ^ 25 % 2 ^ 7 = y0 at hb v0
  generalize u1 : base / 2 ^ 3 % 2 ^ 4 = y1 at hb v1
  unfold encN19L13L7N0
  have hn2 : (BitVec.ofNat 32 (base + x0 * 2 ^ 19 + x1.code * 2 ^ 13 + x2.code * 2 ^ 7 + x3 * 2 ^ 0) : Word).toNat = base + x0 * 2 ^ 19 + x1.code * 2 ^ 13 + x2.code * 2 ^ 7 + x3 * 2 ^ 0 := by
    rw [BitVec.toNat_ofNat]; exact Nat.mod_eq_of_lt (by omega)
  generalize hw : (BitVec.ofNat 32 (base + x0 * 2 ^ 19 + x1.code * 2 ^ 13 + x2.code * 2 ^ 7 + x3 * 2 ^ 0) : Word) = w at hn2
  refine decode_of_row hr ?_ ?_ ?_ hi
  · rw [land_FE000078, hn2]; omega
  · unfold fld; rw [hn2]; omega
  · unfold decN19L13L7N0
    have f19 : fld w 19 6 = x0 := by unfold fld; rw [hn2]; omega
    have f13 : fld w 13 6 = x1.code := by unfold fld; rw [hn2]; omega
    have f7 : fld w 7 6 = x2.code := by unfold fld; rw [hn2]; omega
    have f0 : fld w 0 3 = x3 := by unfold fld; rw [hn2]; omega
    rw [f19, f13, f7, f0, lsrc_code hx1 ex1, lsrc_code hx2 ex2]
    rfl

theorem rt_N19N13N7N0w6663 {mk : Nat → Nat → Nat → Nat → Instr} {base : Nat} (x0 : Nat) (x1 : Nat) (x2 : Nat) (x3 : Nat)
    (hr : rowAt 0xFE000078 base = some ⟨0xFE000078, base, decN19N13N7N0w6663 mk⟩) (hb : base &&& 0xFE000078 = base)
    (hx0 : x0 < 64) (hx1 : x1 < 64) (hx2 : x2 < 64) (hx3 : x3 < 8) (hi : (mk x0 x1 x2 x3).wf = true) :
    decode (encN19N13N7N0w6663 base x0 x1 x2 x3) = .ok (mk x0 x1 x2 x3) := by
  have hb := fixed_FE000078 hb
  have v0 : base / 2 ^ 25 % 2 ^ 7 < 2 ^ 7 := Nat.mod_lt _ (by decide)
  have v1 : base / 2 ^ 3 % 2 ^ 4 < 2 ^ 4 := Nat.mod_lt _ (by decide)
  generalize u0 : base / 2 ^ 25 % 2 ^ 7 = y0 at hb v0
  generalize u1 : base / 2 ^ 3 % 2 ^ 4 = y1 at hb v1
  unfold encN19N13N7N0w6663
  have hn2 : (BitVec.ofNat 32 (base + x0 * 2 ^ 19 + x1 * 2 ^ 13 + x2 * 2 ^ 7 + x3 * 2 ^ 0) : Word).toNat = base + x0 * 2 ^ 19 + x1 * 2 ^ 13 + x2 * 2 ^ 7 + x3 * 2 ^ 0 := by
    rw [BitVec.toNat_ofNat]; exact Nat.mod_eq_of_lt (by omega)
  generalize hw : (BitVec.ofNat 32 (base + x0 * 2 ^ 19 + x1 * 2 ^ 13 + x2 * 2 ^ 7 + x3 * 2 ^ 0) : Word) = w at hn2
  refine decode_of_row hr ?_ ?_ ?_ hi
  · rw [land_FE000078, hn2]; omega
  · unfold fld; rw [hn2]; omega
  · unfold decN19N13N7N0w6663
    have f19 : fld w 19 6 = x0 := by unfold fld; rw [hn2]; omega
    have f13 : fld w 13 6 = x1 := by unfold fld; rw [hn2]; omega
    have f7 : fld w 7 6 = x2 := by unfold fld; rw [hn2]; omega
    have f0 : fld w 0 3 = x3 := by unfold fld; rw [hn2]; omega
    rw [f19, f13, f7, f0]
    rfl

theorem rt_N19N13N0 {mk : Nat → Nat → Nat → Instr} {base : Nat} (x0 : Nat) (x1 : Nat) (x2 : Nat)
    (hr : rowAt 0xFE001FF8 base = some ⟨0xFE001FF8, base, decN19N13N0 mk⟩) (hb : base &&& 0xFE001FF8 = base)
    (hx0 : x0 < 64) (hx1 : x1 < 64) (hx2 : x2 < 8) (hi : (mk x0 x1 x2).wf = true) :
    decode (encN19N13N0 base x0 x1 x2) = .ok (mk x0 x1 x2) := by
  have hb := fixed_FE001FF8 hb
  have v0 : base / 2 ^ 25 % 2 ^ 7 < 2 ^ 7 := Nat.mod_lt _ (by decide)
  have v1 : base / 2 ^ 3 % 2 ^ 10 < 2 ^ 10 := Nat.mod_lt _ (by decide)
  generalize u0 : base / 2 ^ 25 % 2 ^ 7 = y0 at hb v0
  generalize u1 : base / 2 ^ 3 % 2 ^ 10 = y1 at hb v1
  unfold encN19N13N0
  have hn2 : (BitVec.ofNat 32 (base + x0 * 2 ^ 19 + x1 * 2 ^ 13 + x2 * 2 ^ 0) : Word).toNat = base + x0 * 2 ^ 19 + x1 * 2 ^ 13 + x2 * 2 ^ 0 := by
    rw [BitVec.toNat_ofNat]; exact Nat.mod_eq_of_lt (by omega)
  generalize hw : (BitVec.ofNat 32 (base + x0 * 2 ^ 19 + x1 * 2 ^ 13 + x2 * 2 ^ 0) : Word) = w at hn2
  refine decode_of_row hr ?_ ?_ ?_ hi
  · rw [land_FE001FF8, hn2]; omega
  · unfold fld; rw [hn2]; omega
  · unfold decN19N13N0
    have f19 : fld w 19 6 = x0 := by unfold fld; rw [hn2]; omega
    have f13 : fld w 13 6 = x1 := by unfold fld; rw [hn2]; omega
    have f0 : fld w 0 3 = x2 := by unfold fld; rw [hn2]; omega
    rw [f19, f13, f0]
    rfl

theorem rt_D19N13B3N0 {mk : LDst → Nat → Bool → Nat → Instr} {base : Nat} (x0 : LDst) (x1 : Nat) (x2 : Bool) (x3 : Nat)
    (hr : rowAt 0xFE001FF0 base = some ⟨0xFE001FF0, base, decD19N13B3N0 mk⟩) (hb : base &&& 0xFE001FF0 = base)
    (hx0 : x0.okWidth 1 = true) (hx1 : x1 < 64) (hx3 : x3 < 8) (hi : (mk x0 x1 x2 x3).wf = true) :
    decode (encD19N13B3N0 base x0 x1 x2 x3) = .ok (mk x0 x1 x2 x3) := by
  have cx0 := LDst.code_lt hx0
  have cx2 := Bool.toNat_le x2
  have hb := fixed_FE001FF0 hb
  have v0 : base / 2 ^ 25 % 2 ^ 7 < 2 ^ 7 := Nat.mod_lt _ (by decide)
  have v1 : base / 2 ^ 4 % 2 ^ 9 < 2 ^ 9 := Nat.mod_lt _ (by decide)
  generalize u0 : base / 2 ^ 25 % 2 ^ 7 = y0 at hb v0
  generalize u1 : base / 2 ^ 4 % 2 ^ 9 = y1 at hb v1
  unfold encD19N13B3N0
  have hn2 : (BitVec.ofNat 32 (base + x0.code * 2 ^ 19 + x1 * 2 ^ 13 + x2.toNat * 2 ^ 3 + x3 * 2 ^ 0) : Word).toNat = base + x0.code * 2 ^ 19 + x1 * 2 ^ 13 + x2.toNat * 2 ^ 3 + x3 * 2 ^ 0 := by
    rw [BitVec.toNat_ofNat]; exact Nat.mod_eq_of_lt (by omega)
  generalize hw : (BitVec.ofNat 32 (base + x0.code * 2 ^ 19 + x1 * 2 ^ 13 + x2.toNat * 2 ^ 3 + x3 * 2 ^ 0) : Word) = w at hn2
  refine decode_of_row hr ?_ ?_ ?_ hi
  · rw [land_FE001FF0, hn2]; omega
  · unfold fld; rw [hn2]; omega
  · unfold decD19N13B3N0
    have f19 : fld w 19 6 = x0.code := by unfold fld; rw [hn2]; omega
    have f13 : fld w 13 6 = x1 := by unfold fld; rw [hn2]; omega
    have f3 : fld w 3 1 = x2.toNat := by unfold fld; rw [hn2]; omega
    have f0 : fld w 0 3 = x3 := by unfold fld; rw [hn2]; omega
    rw [f19, f13, f3, f0, ldst_code hx0, toNat_beq_one]
    rfl

theorem rt_N19L13N0 {mk : Nat → LSrc → Nat → Instr} {base : Nat} (x0 : Nat) (x1 : LSrc) (x2 : Nat)
    (hr : rowAt 0xFE001FF8 base = some ⟨0xFE001FF8, base, decN19L13N0 mk⟩) (hb : base &&& 0xFE001FF8 = base)
    (hx0 : x0 < 64) (hx1 : x1.okWidth 1 = true) (hx2 : x2 < 8) (hi : (mk x0 x1 x2).wf = true) :
    decode (encN19L13N0 base x0 x1 x2) = .ok (mk x0 x1 x2) := by
  have cx1 := LSrc.code_lt hx1
  have ex1 : LExt x1 (laneWords [x1]) := LExt.of_same (sameLane_one _) (by simp)
  have hb := fixed_FE001FF8 hb
  have v0 : base / 2 ^ 25 % 2 ^ 7 < 2 ^ 7 := Nat.mod_lt _ (by decide)
  have v1 : base / 2 ^ 3 % 2 ^ 10 < 2 ^ 10 := Nat.mod_lt _ (by decide)
  generalize u0 : base / 2 ^ 25 % 2 ^ 7 = y0 at hb v0
  generalize u1 : base / 2 ^ 3 % 2 ^ 10 = y1 at hb v1
  unfold encN19L13N0
  have hn2 : (BitVec.ofNat 32 (base + x0 * 2 ^ 19 + x1.code * 2 ^ 13 + x2 * 2 ^ 0) : Word).toNat = base + x0 * 2 ^ 19 + x1.code * 2 ^ 13 + x2 * 2 ^ 0 := by
    rw [BitVec.toNat_ofNat]; exact Nat.mod_eq_of_lt (by omega)
  generalize hw : (BitVec.ofNat 32 (base + x0 * 2 ^ 19 + x1.code * 2 ^ 13 + x2 * 2 ^ 0) : Word) = w at hn2
  refine decode_of_row hr ?_ ?_ ?_ hi
  · rw [land_FE001FF8, hn2]; omega
  · unfold fld; rw [hn2]; omega
  · unfold decN19L13N0
    have f19 : fld w 19 6 = x0 := by unfold fld; rw [hn2]; omega
    have f13 : fld w 13 6 = x1.code := by unfold fld; rw [hn2]; omega
    have f0 : fld w 0 3 = x2 := by unfold fld; rw [hn2]; omega
    rw [f19, f13, f0, lsrc_code hx1 ex1]
    rfl

theorem rt_D19U13B3N0 {mk : LDst → USrc → Bool → Nat → Instr} {base : Nat} (x0 : LDst) (x1 : USrc) (x2 : Bool) (x3 : Nat)
    (hr : rowAt 0xFE001FF0 base = some ⟨0xFE001FF0, base, decD19U13B3N0 mk⟩) (hb : base &&& 0xFE001FF0 = base)
    (hx0 : x0.okWidth 1 = true) (hx1 : x1.ok = true) (hx3 : x3 < 8) (hi : (mk x0 x1 x2 x3).wf = true) :
    decode (encD19U13B3N0 base x0 x1 x2 x3) = .ok (mk x0 x1 x2 x3) := by
  have cx0 := LDst.code_lt hx0
  have cx1 := USrc.code_lt hx1
  have cx2 := Bool.toNat_le x2
  have ex1 : UExt x1 (uniformWords [x1]) := UExt.of_same (sameUniform_one _) (by simp)
  obtain ⟨n, hn⟩ := uniformExt_of_same (xs := [x1]) (sameUniform_one _) (by simp [hx1])
  simp only [List.map] at hn
  have hb := fixed_FE001FF0 hb
  have v0 : base / 2 ^ 25 % 2 ^ 7 < 2 ^ 7 := Nat.mod_lt _ (by decide)
  have v1 : base / 2 ^ 4 % 2 ^ 9 < 2 ^ 9 := Nat.mod_lt _ (by decide)
  generalize u0 : base / 2 ^ 25 % 2 ^ 7 = y0 at hb v0
  generalize u1 : base / 2 ^ 4 % 2 ^ 9 = y1 at hb v1
  unfold encD19U13B3N0
  have hn2 : (BitVec.ofNat 32 (base + x0.code * 2 ^ 19 + x1.code * 2 ^ 13 + x2.toNat * 2 ^ 3 + x3 * 2 ^ 0) : Word).toNat = base + x0.code * 2 ^ 19 + x1.code * 2 ^ 13 + x2.toNat * 2 ^ 3 + x3 * 2 ^ 0 := by
    rw [BitVec.toNat_ofNat]; exact Nat.mod_eq_of_lt (by omega)
  generalize hw : (BitVec.ofNat 32 (base + x0.code * 2 ^ 19 + x1.code * 2 ^ 13 + x2.toNat * 2 ^ 3 + x3 * 2 ^ 0) : Word) = w at hn2
  refine decode_of_row hr ?_ ?_ ?_ hi
  · rw [land_FE001FF0, hn2]; omega
  · unfold fld; rw [hn2]; omega
  · unfold decD19U13B3N0
    have f19 : fld w 19 6 = x0.code := by unfold fld; rw [hn2]; omega
    have f13 : fld w 13 6 = x1.code := by unfold fld; rw [hn2]; omega
    have f3 : fld w 3 1 = x2.toNat := by unfold fld; rw [hn2]; omega
    have f0 : fld w 0 3 = x3 := by unfold fld; rw [hn2]; omega
    rw [f19, f13, f3, f0, ldst_code hx0, usrc_code hx1 ex1, hn, toNat_beq_one]
    rfl

theorem rt_D19L13I0 {mk : LDst → LSrc → BitVec 13 → Instr} {base : Nat} (x0 : LDst) (x1 : LSrc) (x2 : BitVec 13)
    (hr : rowAt 0xFE000000 base = some ⟨0xFE000000, base, decD19L13I0 mk⟩) (hb : base &&& 0xFE000000 = base)
    (hx0 : x0.okWidth 1 = true) (hx1 : x1.okWidth 1 = true) (hi : (mk x0 x1 x2).wf = true) :
    decode (encD19L13I0 base x0 x1 x2) = .ok (mk x0 x1 x2) := by
  have cx0 := LDst.code_lt hx0
  have cx1 := LSrc.code_lt hx1
  have cx2 := x2.isLt
  have ex1 : LExt x1 (laneWords [x1]) := LExt.of_same (sameLane_one _) (by simp)
  have hb := fixed_FE000000 hb
  have v0 : base / 2 ^ 25 % 2 ^ 7 < 2 ^ 7 := Nat.mod_lt _ (by decide)
  generalize u0 : base / 2 ^ 25 % 2 ^ 7 = y0 at hb v0
  unfold encD19L13I0
  have hn2 : (BitVec.ofNat 32 (base + x0.code * 2 ^ 19 + x1.code * 2 ^ 13 + x2.toNat * 2 ^ 0) : Word).toNat = base + x0.code * 2 ^ 19 + x1.code * 2 ^ 13 + x2.toNat * 2 ^ 0 := by
    rw [BitVec.toNat_ofNat]; exact Nat.mod_eq_of_lt (by omega)
  generalize hw : (BitVec.ofNat 32 (base + x0.code * 2 ^ 19 + x1.code * 2 ^ 13 + x2.toNat * 2 ^ 0) : Word) = w at hn2
  refine decode_of_row hr ?_ ?_ ?_ hi
  · rw [land_FE000000, hn2]; omega
  · unfold fld; rw [hn2]; omega
  · unfold decD19L13I0
    have f19 : fld w 19 6 = x0.code := by unfold fld; rw [hn2]; omega
    have f13 : fld w 13 6 = x1.code := by unfold fld; rw [hn2]; omega
    have f0 : fld w 0 13 = x2.toNat := by unfold fld; rw [hn2]; omega
    rw [f19, f13, f0, ldst_code hx0, lsrc_code hx1 ex1, ofNat_self]
    rfl

theorem rt_D19L13N0w5 {mk : LDst → LSrc → Nat → Instr} {base : Nat} (x0 : LDst) (x1 : LSrc) (x2 : Nat)
    (hr : rowAt 0xFE001FE0 base = some ⟨0xFE001FE0, base, decD19L13N0w5 mk⟩) (hb : base &&& 0xFE001FE0 = base)
    (hx0 : x0.okWidth 1 = true) (hx1 : x1.okWidth 1 = true) (hx2 : x2 < 32) (hi : (mk x0 x1 x2).wf = true) :
    decode (encD19L13N0w5 base x0 x1 x2) = .ok (mk x0 x1 x2) := by
  have cx0 := LDst.code_lt hx0
  have cx1 := LSrc.code_lt hx1
  have ex1 : LExt x1 (laneWords [x1]) := LExt.of_same (sameLane_one _) (by simp)
  have hb := fixed_FE001FE0 hb
  have v0 : base / 2 ^ 25 % 2 ^ 7 < 2 ^ 7 := Nat.mod_lt _ (by decide)
  have v1 : base / 2 ^ 5 % 2 ^ 8 < 2 ^ 8 := Nat.mod_lt _ (by decide)
  generalize u0 : base / 2 ^ 25 % 2 ^ 7 = y0 at hb v0
  generalize u1 : base / 2 ^ 5 % 2 ^ 8 = y1 at hb v1
  unfold encD19L13N0w5
  have hn2 : (BitVec.ofNat 32 (base + x0.code * 2 ^ 19 + x1.code * 2 ^ 13 + x2 * 2 ^ 0) : Word).toNat = base + x0.code * 2 ^ 19 + x1.code * 2 ^ 13 + x2 * 2 ^ 0 := by
    rw [BitVec.toNat_ofNat]; exact Nat.mod_eq_of_lt (by omega)
  generalize hw : (BitVec.ofNat 32 (base + x0.code * 2 ^ 19 + x1.code * 2 ^ 13 + x2 * 2 ^ 0) : Word) = w at hn2
  refine decode_of_row hr ?_ ?_ ?_ hi
  · rw [land_FE001FE0, hn2]; omega
  · unfold fld; rw [hn2]; omega
  · unfold decD19L13N0w5
    have f19 : fld w 19 6 = x0.code := by unfold fld; rw [hn2]; omega
    have f13 : fld w 13 6 = x1.code := by unfold fld; rw [hn2]; omega
    have f0 : fld w 0 5 = x2 := by unfold fld; rw [hn2]; omega
    rw [f19, f13, f0, ldst_code hx0, lsrc_code hx1 ex1]
    rfl

theorem rt_N19L13I0 {mk : Nat → LSrc → BitVec 10 → Instr} {base : Nat} (x0 : Nat) (x1 : LSrc) (x2 : BitVec 10)
    (hr : rowAt 0xFE001C00 base = some ⟨0xFE001C00, base, decN19L13I0 mk⟩) (hb : base &&& 0xFE001C00 = base)
    (hx0 : x0 < 64) (hx1 : x1.okWidth 1 = true) (hi : (mk x0 x1 x2).wf = true) :
    decode (encN19L13I0 base x0 x1 x2) = .ok (mk x0 x1 x2) := by
  have cx1 := LSrc.code_lt hx1
  have cx2 := x2.isLt
  have ex1 : LExt x1 (laneWords [x1]) := LExt.of_same (sameLane_one _) (by simp)
  have hb := fixed_FE001C00 hb
  have v0 : base / 2 ^ 25 % 2 ^ 7 < 2 ^ 7 := Nat.mod_lt _ (by decide)
  have v1 : base / 2 ^ 10 % 2 ^ 3 < 2 ^ 3 := Nat.mod_lt _ (by decide)
  generalize u0 : base / 2 ^ 25 % 2 ^ 7 = y0 at hb v0
  generalize u1 : base / 2 ^ 10 % 2 ^ 3 = y1 at hb v1
  unfold encN19L13I0
  have hn2 : (BitVec.ofNat 32 (base + x0 * 2 ^ 19 + x1.code * 2 ^ 13 + x2.toNat * 2 ^ 0) : Word).toNat = base + x0 * 2 ^ 19 + x1.code * 2 ^ 13 + x2.toNat * 2 ^ 0 := by
    rw [BitVec.toNat_ofNat]; exact Nat.mod_eq_of_lt (by omega)
  generalize hw : (BitVec.ofNat 32 (base + x0 * 2 ^ 19 + x1.code * 2 ^ 13 + x2.toNat * 2 ^ 0) : Word) = w at hn2
  refine decode_of_row hr ?_ ?_ ?_ hi
  · rw [land_FE001C00, hn2]; omega
  · unfold fld; rw [hn2]; omega
  · unfold decN19L13I0
    have f19 : fld w 19 6 = x0 := by unfold fld; rw [hn2]; omega
    have f13 : fld w 13 6 = x1.code := by unfold fld; rw [hn2]; omega
    have f0 : fld w 0 10 = x2.toNat := by unfold fld; rw [hn2]; omega
    rw [f19, f13, f0, lsrc_code hx1 ex1, ofNat_self]
    rfl

theorem rt_D19I0 {mk : LDst → BitVec 13 → Instr} {base : Nat} (x0 : LDst) (x1 : BitVec 13)
    (hr : rowAt 0xFE07E000 base = some ⟨0xFE07E000, base, decD19I0 mk⟩) (hb : base &&& 0xFE07E000 = base)
    (hx0 : x0.okWidth 1 = true) (hi : (mk x0 x1).wf = true) :
    decode (encD19I0 base x0 x1) = .ok (mk x0 x1) := by
  have cx0 := LDst.code_lt hx0
  have cx1 := x1.isLt
  have hb := fixed_FE07E000 hb
  have v0 : base / 2 ^ 25 % 2 ^ 7 < 2 ^ 7 := Nat.mod_lt _ (by decide)
  have v1 : base / 2 ^ 13 % 2 ^ 6 < 2 ^ 6 := Nat.mod_lt _ (by decide)
  generalize u0 : base / 2 ^ 25 % 2 ^ 7 = y0 at hb v0
  generalize u1 : base / 2 ^ 13 % 2 ^ 6 = y1 at hb v1
  unfold encD19I0
  have hn2 : (BitVec.ofNat 32 (base + x0.code * 2 ^ 19 + x1.toNat * 2 ^ 0) : Word).toNat = base + x0.code * 2 ^ 19 + x1.toNat * 2 ^ 0 := by
    rw [BitVec.toNat_ofNat]; exact Nat.mod_eq_of_lt (by omega)
  generalize hw : (BitVec.ofNat 32 (base + x0.code * 2 ^ 19 + x1.toNat * 2 ^ 0) : Word) = w at hn2
  refine decode_of_row hr ?_ ?_ ?_ hi
  · rw [land_FE07E000, hn2]; omega
  · unfold fld; rw [hn2]; omega
  · unfold decD19I0
    have f19 : fld w 19 6 = x0.code := by unfold fld; rw [hn2]; omega
    have f0 : fld w 0 13 = x1.toNat := by unfold fld; rw [hn2]; omega
    rw [f19, f0, ldst_code hx0, ofNat_self]
    rfl

theorem rt_D19L13N10B3N0 {mk : LDst → LSrc → Nat → Bool → Nat → Instr} {base : Nat} (x0 : LDst) (x1 : LSrc) (x2 : Nat) (x3 : Bool) (x4 : Nat)
    (hr : rowAt 0xFE0003F0 base = some ⟨0xFE0003F0, base, decD19L13N10B3N0 mk⟩) (hb : base &&& 0xFE0003F0 = base)
    (hx0 : x0.okWidth 1 = true) (hx1 : x1.okWidth 1 = true) (hx2 : x2 < 8) (hx4 : x4 < 8) (hi : (mk x0 x1 x2 x3 x4).wf = true) :
    decode (encD19L13N10B3N0 base x0 x1 x2 x3 x4) = .ok (mk x0 x1 x2 x3 x4) := by
  have cx0 := LDst.code_lt hx0
  have cx1 := LSrc.code_lt hx1
  have cx3 := Bool.toNat_le x3
  have ex1 : LExt x1 (laneWords [x1]) := LExt.of_same (sameLane_one _) (by simp)
  have hb := fixed_FE0003F0 hb
  have v0 : base / 2 ^ 25 % 2 ^ 7 < 2 ^ 7 := Nat.mod_lt _ (by decide)
  have v1 : base / 2 ^ 4 % 2 ^ 6 < 2 ^ 6 := Nat.mod_lt _ (by decide)
  generalize u0 : base / 2 ^ 25 % 2 ^ 7 = y0 at hb v0
  generalize u1 : base / 2 ^ 4 % 2 ^ 6 = y1 at hb v1
  unfold encD19L13N10B3N0
  have hn2 : (BitVec.ofNat 32 (base + x0.code * 2 ^ 19 + x1.code * 2 ^ 13 + x2 * 2 ^ 10 + x3.toNat * 2 ^ 3 + x4 * 2 ^ 0) : Word).toNat = base + x0.code * 2 ^ 19 + x1.code * 2 ^ 13 + x2 * 2 ^ 10 + x3.toNat * 2 ^ 3 + x4 * 2 ^ 0 := by
    rw [BitVec.toNat_ofNat]; exact Nat.mod_eq_of_lt (by omega)
  generalize hw : (BitVec.ofNat 32 (base + x0.code * 2 ^ 19 + x1.code * 2 ^ 13 + x2 * 2 ^ 10 + x3.toNat * 2 ^ 3 + x4 * 2 ^ 0) : Word) = w at hn2
  refine decode_of_row hr ?_ ?_ ?_ hi
  · rw [land_FE0003F0, hn2]; omega
  · unfold fld; rw [hn2]; omega
  · unfold decD19L13N10B3N0
    have f19 : fld w 19 6 = x0.code := by unfold fld; rw [hn2]; omega
    have f13 : fld w 13 6 = x1.code := by unfold fld; rw [hn2]; omega
    have f10 : fld w 10 3 = x2 := by unfold fld; rw [hn2]; omega
    have f3 : fld w 3 1 = x3.toNat := by unfold fld; rw [hn2]; omega
    have f0 : fld w 0 3 = x4 := by unfold fld; rw [hn2]; omega
    rw [f19, f13, f10, f3, f0, ldst_code hx0, lsrc_code hx1 ex1, toNat_beq_one]
    rfl

theorem rt_D19B3N0 {mk : LDst → Bool → Nat → Instr} {base : Nat} (x0 : LDst) (x1 : Bool) (x2 : Nat)
    (hr : rowAt 0xFE07FFF0 base = some ⟨0xFE07FFF0, base, decD19B3N0 mk⟩) (hb : base &&& 0xFE07FFF0 = base)
    (hx0 : x0.okWidth 1 = true) (hx2 : x2 < 8) (hi : (mk x0 x1 x2).wf = true) :
    decode (encD19B3N0 base x0 x1 x2) = .ok (mk x0 x1 x2) := by
  have cx0 := LDst.code_lt hx0
  have cx1 := Bool.toNat_le x1
  have hb := fixed_FE07FFF0 hb
  have v0 : base / 2 ^ 25 % 2 ^ 7 < 2 ^ 7 := Nat.mod_lt _ (by decide)
  have v1 : base / 2 ^ 4 % 2 ^ 15 < 2 ^ 15 := Nat.mod_lt _ (by decide)
  generalize u0 : base / 2 ^ 25 % 2 ^ 7 = y0 at hb v0
  generalize u1 : base / 2 ^ 4 % 2 ^ 15 = y1 at hb v1
  unfold encD19B3N0
  have hn2 : (BitVec.ofNat 32 (base + x0.code * 2 ^ 19 + x1.toNat * 2 ^ 3 + x2 * 2 ^ 0) : Word).toNat = base + x0.code * 2 ^ 19 + x1.toNat * 2 ^ 3 + x2 * 2 ^ 0 := by
    rw [BitVec.toNat_ofNat]; exact Nat.mod_eq_of_lt (by omega)
  generalize hw : (BitVec.ofNat 32 (base + x0.code * 2 ^ 19 + x1.toNat * 2 ^ 3 + x2 * 2 ^ 0) : Word) = w at hn2
  refine decode_of_row hr ?_ ?_ ?_ hi
  · rw [land_FE07FFF0, hn2]; omega
  · unfold fld; rw [hn2]; omega
  · unfold decD19B3N0
    have f19 : fld w 19 6 = x0.code := by unfold fld; rw [hn2]; omega
    have f3 : fld w 3 1 = x1.toNat := by unfold fld; rw [hn2]; omega
    have f0 : fld w 0 3 = x2 := by unfold fld; rw [hn2]; omega
    rw [f19, f3, f0, ldst_code hx0, toNat_beq_one]
    rfl

theorem rt_L13N0 {mk : LSrc → Nat → Instr} {base : Nat} (x0 : LSrc) (x1 : Nat)
    (hr : rowAt 0xFFF81FF8 base = some ⟨0xFFF81FF8, base, decL13N0 mk⟩) (hb : base &&& 0xFFF81FF8 = base)
    (hx0 : x0.okWidth 1 = true) (hx1 : x1 < 8) (hi : (mk x0 x1).wf = true) :
    decode (encL13N0 base x0 x1) = .ok (mk x0 x1) := by
  have cx0 := LSrc.code_lt hx0
  have ex0 : LExt x0 (laneWords [x0]) := LExt.of_same (sameLane_one _) (by simp)
  have hb := fixed_FFF81FF8 hb
  have v0 : base / 2 ^ 19 % 2 ^ 13 < 2 ^ 13 := Nat.mod_lt _ (by decide)
  have v1 : base / 2 ^ 3 % 2 ^ 10 < 2 ^ 10 := Nat.mod_lt _ (by decide)
  generalize u0 : base / 2 ^ 19 % 2 ^ 13 = y0 at hb v0
  generalize u1 : base / 2 ^ 3 % 2 ^ 10 = y1 at hb v1
  unfold encL13N0
  have hn2 : (BitVec.ofNat 32 (base + x0.code * 2 ^ 13 + x1 * 2 ^ 0) : Word).toNat = base + x0.code * 2 ^ 13 + x1 * 2 ^ 0 := by
    rw [BitVec.toNat_ofNat]; exact Nat.mod_eq_of_lt (by omega)
  generalize hw : (BitVec.ofNat 32 (base + x0.code * 2 ^ 13 + x1 * 2 ^ 0) : Word) = w at hn2
  refine decode_of_row hr ?_ ?_ ?_ hi
  · rw [land_FFF81FF8, hn2]; omega
  · unfold fld; rw [hn2]; omega
  · unfold decL13N0
    have f13 : fld w 13 6 = x0.code := by unfold fld; rw [hn2]; omega
    have f0 : fld w 0 3 = x1 := by unfold fld; rw [hn2]; omega
    rw [f13, f0, lsrc_code hx0 ex0]
    rfl

theorem rt_D19L13N7B3N0 {mk : LDst → LSrc → Nat → Bool → Nat → Instr} {base : Nat} (x0 : LDst) (x1 : LSrc) (x2 : Nat) (x3 : Bool) (x4 : Nat)
    (hr : rowAt 0xFE000070 base = some ⟨0xFE000070, base, decD19L13N7B3N0 mk⟩) (hb : base &&& 0xFE000070 = base)
    (hx0 : x0.okWidth 1 = true) (hx1 : x1.okWidth 1 = true) (hx2 : x2 < 64) (hx4 : x4 < 8) (hi : (mk x0 x1 x2 x3 x4).wf = true) :
    decode (encD19L13N7B3N0 base x0 x1 x2 x3 x4) = .ok (mk x0 x1 x2 x3 x4) := by
  have cx0 := LDst.code_lt hx0
  have cx1 := LSrc.code_lt hx1
  have cx3 := Bool.toNat_le x3
  have ex1 : LExt x1 (laneWords [x1]) := LExt.of_same (sameLane_one _) (by simp)
  have hb := fixed_FE000070 hb
  have v0 : base / 2 ^ 25 % 2 ^ 7 < 2 ^ 7 := Nat.mod_lt _ (by decide)
  have v1 : base / 2 ^ 4 % 2 ^ 3 < 2 ^ 3 := Nat.mod_lt _ (by decide)
  generalize u0 : base / 2 ^ 25 % 2 ^ 7 = y0 at hb v0
  generalize u1 : base / 2 ^ 4 % 2 ^ 3 = y1 at hb v1
  unfold encD19L13N7B3N0
  have hn2 : (BitVec.ofNat 32 (base + x0.code * 2 ^ 19 + x1.code * 2 ^ 13 + x2 * 2 ^ 7 + x3.toNat * 2 ^ 3 + x4 * 2 ^ 0) : Word).toNat = base + x0.code * 2 ^ 19 + x1.code * 2 ^ 13 + x2 * 2 ^ 7 + x3.toNat * 2 ^ 3 + x4 * 2 ^ 0 := by
    rw [BitVec.toNat_ofNat]; exact Nat.mod_eq_of_lt (by omega)
  generalize hw : (BitVec.ofNat 32 (base + x0.code * 2 ^ 19 + x1.code * 2 ^ 13 + x2 * 2 ^ 7 + x3.toNat * 2 ^ 3 + x4 * 2 ^ 0) : Word) = w at hn2
  refine decode_of_row hr ?_ ?_ ?_ hi
  · rw [land_FE000070, hn2]; omega
  · unfold fld; rw [hn2]; omega
  · unfold decD19L13N7B3N0
    have f19 : fld w 19 6 = x0.code := by unfold fld; rw [hn2]; omega
    have f13 : fld w 13 6 = x1.code := by unfold fld; rw [hn2]; omega
    have f7 : fld w 7 6 = x2 := by unfold fld; rw [hn2]; omega
    have f3 : fld w 3 1 = x3.toNat := by unfold fld; rw [hn2]; omega
    have f0 : fld w 0 3 = x4 := by unfold fld; rw [hn2]; omega
    rw [f19, f13, f7, f3, f0, ldst_code hx0, lsrc_code hx1 ex1, toNat_beq_one]
    rfl

theorem rt_D19L13L7N0 {mk : LDst → LSrc → LSrc → Nat → Instr} {base : Nat} (x0 : LDst) (x1 : LSrc) (x2 : LSrc) (x3 : Nat)
    (hr : rowAt 0xFE000078 base = some ⟨0xFE000078, base, decD19L13L7N0 mk⟩) (hb : base &&& 0xFE000078 = base)
    (hx0 : x0.okWidth 1 = true) (hx1 : x1.okWidth 1 = true) (hx2 : x2.okWidth 1 = true) (hx3 : x3 < 8) (hs : sameLane [x1, x2] = true) (hi : (mk x0 x1 x2 x3).wf = true) :
    decode (encD19L13L7N0 base x0 x1 x2 x3) = .ok (mk x0 x1 x2 x3) := by
  have cx0 := LDst.code_lt hx0
  have cx1 := LSrc.code_lt hx1
  have cx2 := LSrc.code_lt hx2
  have ex1 : LExt x1 (laneWords [x1, x2]) := LExt.of_same hs (by simp)
  have ex2 : LExt x2 (laneWords [x1, x2]) := LExt.of_same hs (by simp)
  have hb := fixed_FE000078 hb
  have v0 : base / 2 ^ 25 % 2 ^ 7 < 2 ^ 7 := Nat.mod_lt _ (by decide)
  have v1 : base / 2 ^ 3 % 2 ^ 4 < 2 ^ 4 := Nat.mod_lt _ (by decide)
  generalize u0 : base / 2 ^ 25 % 2 ^ 7 = y0 at hb v0
  generalize u1 : base / 2 ^ 3 % 2 ^ 4 = y1 at hb v1
  unfold encD19L13L7N0
  have hn2 : (BitVec.ofNat 32 (base + x0.code * 2 ^ 19 + x1.code * 2 ^ 13 + x2.code * 2 ^ 7 + x3 * 2 ^ 0) : Word).toNat = base + x0.code * 2 ^ 19 + x1.code * 2 ^ 13 + x2.code * 2 ^ 7 + x3 * 2 ^ 0 := by
    rw [BitVec.toNat_ofNat]; exact Nat.mod_eq_of_lt (by omega)
  generalize hw : (BitVec.ofNat 32 (base + x0.code * 2 ^ 19 + x1.code * 2 ^ 13 + x2.code * 2 ^ 7 + x3 * 2 ^ 0) : Word) = w at hn2
  refine decode_of_row hr ?_ ?_ ?_ hi
  · rw [land_FE000078, hn2]; omega
  · unfold fld; rw [hn2]; omega
  · unfold decD19L13L7N0
    have f19 : fld w 19 6 = x0.code := by unfold fld; rw [hn2]; omega
    have f13 : fld w 13 6 = x1.code := by unfold fld; rw [hn2]; omega
    have f7 : fld w 7 6 = x2.code := by unfold fld; rw [hn2]; omega
    have f0 : fld w 0 3 = x3 := by unfold fld; rw [hn2]; omega
    rw [f19, f13, f7, f0, ldst_code hx0, lsrc_code hx1 ex1, lsrc_code hx2 ex2]
    rfl

theorem rt_D19L13N7N0 {mk : LDst → LSrc → Nat → Nat → Instr} {base : Nat} (x0 : LDst) (x1 : LSrc) (x2 : Nat) (x3 : Nat)
    (hr : rowAt 0xFE000078 base = some ⟨0xFE000078, base, decD19L13N7N0 mk⟩) (hb : base &&& 0xFE000078 = base)
    (hx0 : x0.okWidth 1 = true) (hx1 : x1.okWidth 1 = true) (hx2 : x2 < 64) (hx3 : x3 < 8) (hi : (mk x0 x1 x2 x3).wf = true) :
    decode (encD19L13N7N0 base x0 x1 x2 x3) = .ok (mk x0 x1 x2 x3) := by
  have cx0 := LDst.code_lt hx0
  have cx1 := LSrc.code_lt hx1
  have ex1 : LExt x1 (laneWords [x1]) := LExt.of_same (sameLane_one _) (by simp)
  have hb := fixed_FE000078 hb
  have v0 : base / 2 ^ 25 % 2 ^ 7 < 2 ^ 7 := Nat.mod_lt _ (by decide)
  have v1 : base / 2 ^ 3 % 2 ^ 4 < 2 ^ 4 := Nat.mod_lt _ (by decide)
  generalize u0 : base / 2 ^ 25 % 2 ^ 7 = y0 at hb v0
  generalize u1 : base / 2 ^ 3 % 2 ^ 4 = y1 at hb v1
  unfold encD19L13N7N0
  have hn2 : (BitVec.ofNat 32 (base + x0.code * 2 ^ 19 + x1.code * 2 ^ 13 + x2 * 2 ^ 7 + x3 * 2 ^ 0) : Word).toNat = base + x0.code * 2 ^ 19 + x1.code * 2 ^ 13 + x2 * 2 ^ 7 + x3 * 2 ^ 0 := by
    rw [BitVec.toNat_ofNat]; exact Nat.mod_eq_of_lt (by omega)
  generalize hw : (BitVec.ofNat 32 (base + x0.code * 2 ^ 19 + x1.code * 2 ^ 13 + x2 * 2 ^ 7 + x3 * 2 ^ 0) : Word) = w at hn2
  refine decode_of_row hr ?_ ?_ ?_ hi
  · rw [land_FE000078, hn2]; omega
  · unfold fld; rw [hn2]; omega
  · unfold decD19L13N7N0
    have f19 : fld w 19 6 = x0.code := by unfold fld; rw [hn2]; omega
    have f13 : fld w 13 6 = x1.code := by unfold fld; rw [hn2]; omega
    have f7 : fld w 7 6 = x2 := by unfold fld; rw [hn2]; omega
    have f0 : fld w 0 3 = x3 := by unfold fld; rw [hn2]; omega
    rw [f19, f13, f7, f0, ldst_code hx0, lsrc_code hx1 ex1]
    rfl

theorem rt_D19L13L7B3 {mk : LDst → LSrc → LSrc → Bool → Instr} {base : Nat} (x0 : LDst) (x1 : LSrc) (x2 : LSrc) (x3 : Bool)
    (hr : rowAt 0xFE000077 base = some ⟨0xFE000077, base, decD19L13L7B3 mk⟩) (hb : base &&& 0xFE000077 = base)
    (hx0 : x0.okWidth 1 = true) (hx1 : x1.okWidth 1 = true) (hx2 : x2.okWidth 1 = true) (hs : sameLane [x1, x2] = true) (hi : (mk x0 x1 x2 x3).wf = true) :
    decode (encD19L13L7B3 base x0 x1 x2 x3) = .ok (mk x0 x1 x2 x3) := by
  have cx0 := LDst.code_lt hx0
  have cx1 := LSrc.code_lt hx1
  have cx2 := LSrc.code_lt hx2
  have cx3 := Bool.toNat_le x3
  have ex1 : LExt x1 (laneWords [x1, x2]) := LExt.of_same hs (by simp)
  have ex2 : LExt x2 (laneWords [x1, x2]) := LExt.of_same hs (by simp)
  have hb := fixed_FE000077 hb
  have v0 : base / 2 ^ 25 % 2 ^ 7 < 2 ^ 7 := Nat.mod_lt _ (by decide)
  have v1 : base / 2 ^ 4 % 2 ^ 3 < 2 ^ 3 := Nat.mod_lt _ (by decide)
  have v2 : base / 2 ^ 0 % 2 ^ 3 < 2 ^ 3 := Nat.mod_lt _ (by decide)
  generalize u0 : base / 2 ^ 25 % 2 ^ 7 = y0 at hb v0
  generalize u1 : base / 2 ^ 4 % 2 ^ 3 = y1 at hb v1
  generalize u2 : base / 2 ^ 0 % 2 ^ 3 = y2 at hb v2
  unfold encD19L13L7B3
  have hn2 : (BitVec.ofNat 32 (base + x0.code * 2 ^ 19 + x1.code * 2 ^ 13 + x2.code * 2 ^ 7 + x3.toNat * 2 ^ 3) : Word).toNat = base + x0.code * 2 ^ 19 + x1.code * 2 ^ 13 + x2.code * 2 ^ 7 + x3.toNat * 2 ^ 3 := by
    rw [BitVec.toNat_ofNat]; exact Nat.mod_eq_of_lt (by omega)
  generalize hw : (BitVec.ofNat 32 (base + x0.code * 2 ^ 19 + x1.code * 2 ^ 13 + x2.code * 2 ^ 7 + x3.toNat * 2 ^ 3) : Word) = w at hn2
  refine decode_of_row hr ?_ ?_ ?_ hi
  · rw [land_FE000077, hn2]; omega
  · unfold fld; rw [hn2]; omega
  · unfold decD19L13L7B3
    have f19 : fld w 19 6 = x0.code := by unfold fld; rw [hn2]; omega
    have f13 : fld w 13 6 = x1.code := by unfold fld; rw [hn2]; omega
    have f7 : fld w 7 6 = x2.code := by unfold fld; rw [hn2]; omega
    have f3 : fld w 3 1 = x3.toNat := by unfold fld; rw [hn2]; omega
    rw [f19, f13, f7, f3, ldst_code hx0, lsrc_code hx1 ex1, lsrc_code hx2 ex2, toNat_beq_one]
    rfl

theorem rt_L19L13L7N0 {mk : LSrc → LSrc → LSrc → Nat → Instr} {base : Nat} (x0 : LSrc) (x1 : LSrc) (x2 : LSrc) (x3 : Nat)
    (hr : rowAt 0xFE000078 base = some ⟨0xFE000078, base, decL19L13L7N0 mk⟩) (hb : base &&& 0xFE000078 = base)
    (hx0 : x0.okWidth 1 = true) (hx1 : x1.okWidth 1 = true) (hx2 : x2.okWidth 1 = true) (hx3 : x3 < 8) (hs : sameLane [x0, x1, x2] = true) (hi : (mk x0 x1 x2 x3).wf = true) :
    decode (encL19L13L7N0 base x0 x1 x2 x3) = .ok (mk x0 x1 x2 x3) := by
  have cx0 := LSrc.code_lt hx0
  have cx1 := LSrc.code_lt hx1
  have cx2 := LSrc.code_lt hx2
  have ex0 : LExt x0 (laneWords [x0, x1, x2]) := LExt.of_same hs (by simp)
  have ex1 : LExt x1 (laneWords [x0, x1, x2]) := LExt.of_same hs (by simp)
  have ex2 : LExt x2 (laneWords [x0, x1, x2]) := LExt.of_same hs (by simp)
  have hb := fixed_FE000078 hb
  have v0 : base / 2 ^ 25 % 2 ^ 7 < 2 ^ 7 := Nat.mod_lt _ (by decide)
  have v1 : base / 2 ^ 3 % 2 ^ 4 < 2 ^ 4 := Nat.mod_lt _ (by decide)
  generalize u0 : base / 2 ^ 25 % 2 ^ 7 = y0 at hb v0
  generalize u1 : base / 2 ^ 3 % 2 ^ 4 = y1 at hb v1
  unfold encL19L13L7N0
  have hn2 : (BitVec.ofNat 32 (base + x0.code * 2 ^ 19 + x1.code * 2 ^ 13 + x2.code * 2 ^ 7 + x3 * 2 ^ 0) : Word).toNat = base + x0.code * 2 ^ 19 + x1.code * 2 ^ 13 + x2.code * 2 ^ 7 + x3 * 2 ^ 0 := by
    rw [BitVec.toNat_ofNat]; exact Nat.mod_eq_of_lt (by omega)
  generalize hw : (BitVec.ofNat 32 (base + x0.code * 2 ^ 19 + x1.code * 2 ^ 13 + x2.code * 2 ^ 7 + x3 * 2 ^ 0) : Word) = w at hn2
  refine decode_of_row hr ?_ ?_ ?_ hi
  · rw [land_FE000078, hn2]; omega
  · unfold fld; rw [hn2]; omega
  · unfold decL19L13L7N0
    have f19 : fld w 19 6 = x0.code := by unfold fld; rw [hn2]; omega
    have f13 : fld w 13 6 = x1.code := by unfold fld; rw [hn2]; omega
    have f7 : fld w 7 6 = x2.code := by unfold fld; rw [hn2]; omega
    have f0 : fld w 0 3 = x3 := by unfold fld; rw [hn2]; omega
    rw [f19, f13, f7, f0, lsrc_code hx0 ex0, lsrc_code hx1 ex1, lsrc_code hx2 ex2]
    rfl

theorem rt_N19N13N7B6B3N0 {mk : Nat → Nat → Nat → Bool → Bool → Nat → Instr} {base : Nat} (x0 : Nat) (x1 : Nat) (x2 : Nat) (x3 : Bool) (x4 : Bool) (x5 : Nat)
    (hr : rowAt 0xFE000030 base = some ⟨0xFE000030, base, decN19N13N7B6B3N0 mk⟩) (hb : base &&& 0xFE000030 = base)
    (hx0 : x0 < 64) (hx1 : x1 < 64) (hx2 : x2 < 64) (hx5 : x5 < 8) (hi : (mk x0 x1 x2 x3 x4 x5).wf = true) :
    decode (encN19N13N7B6B3N0 base x0 x1 x2 x3 x4 x5) = .ok (mk x0 x1 x2 x3 x4 x5) := by
  have cx3 := Bool.toNat_le x3
  have cx4 := Bool.toNat_le x4
  have hb := fixed_FE000030 hb
  have v0 : base / 2 ^ 25 % 2 ^ 7 < 2 ^ 7 := Nat.mod_lt _ (by decide)
  have v1 : base / 2 ^ 4 % 2 ^ 2 < 2 ^ 2 := Nat.mod_lt _ (by decide)
  generalize u0 : base / 2 ^ 25 % 2 ^ 7 = y0 at hb v0
  generalize u1 : base / 2 ^ 4 % 2 ^ 2 = y1 at hb v1
  unfold encN19N13N7B6B3N0
  have hn2 : (BitVec.ofNat 32 (base + x0 * 2 ^ 19 + x1 * 2 ^ 13 + x2 * 2 ^ 7 + x3.toNat * 2 ^ 6 + x4.toNat * 2 ^ 3 + x5 * 2 ^ 0) : Word).toNat = base + x0 * 2 ^ 19 + x1 * 2 ^ 13 + x2 * 2 ^ 7 + x3.toNat * 2 ^ 6 + x4.toNat * 2 ^ 3 + x5 * 2 ^ 0 := by
    rw [BitVec.toNat_ofNat]; exact Nat.mod_eq_of_lt (by omega)
  generalize hw : (BitVec.ofNat 32 (base + x0 * 2 ^ 19 + x1 * 2 ^ 13 + x2 * 2 ^ 7 + x3.toNat * 2 ^ 6 + x4.toNat * 2 ^ 3 + x5 * 2 ^ 0) : Word) = w at hn2
  refine decode_of_row hr ?_ ?_ ?_ hi
  · rw [land_FE000030, hn2]; omega
  · unfold fld; rw [hn2]; omega
  · unfold decN19N13N7B6B3N0
    have f19 : fld w 19 6 = x0 := by unfold fld; rw [hn2]; omega
    have f13 : fld w 13 6 = x1 := by unfold fld; rw [hn2]; omega
    have f7 : fld w 7 6 = x2 := by unfold fld; rw [hn2]; omega
    have f6 : fld w 6 1 = x3.toNat := by unfold fld; rw [hn2]; omega
    have f3 : fld w 3 1 = x4.toNat := by unfold fld; rw [hn2]; omega
    have f0 : fld w 0 3 = x5 := by unfold fld; rw [hn2]; omega
    rw [f19, f13, f7, f6, f3, f0, toNat_beq_one, toNat_beq_one]
    rfl

theorem rt_N19N13N7B6N4B3N0 {mk : Nat → Nat → Nat → Bool → Nat → Bool → Nat → Instr} {base : Nat} (x0 : Nat) (x1 : Nat) (x2 : Nat) (x3 : Bool) (x4 : Nat) (x5 : Bool) (x6 : Nat)
    (hr : rowAt 0xFE000000 base = some ⟨0xFE000000, base, decN19N13N7B6N4B3N0 mk⟩) (hb : base &&& 0xFE000000 = base)
    (hx0 : x0 < 64) (hx1 : x1 < 64) (hx2 : x2 < 64) (hx4 : x4 < 4) (hx6 : x6 < 8) (hi : (mk x0 x1 x2 x3 x4 x5 x6).wf = true) :
    decode (encN19N13N7B6N4B3N0 base x0 x1 x2 x3 x4 x5 x6) = .ok (mk x0 x1 x2 x3 x4 x5 x6) := by
  have cx3 := Bool.toNat_le x3
  have cx5 := Bool.toNat_le x5
  have hb := fixed_FE000000 hb
  have v0 : base / 2 ^ 25 % 2 ^ 7 < 2 ^ 7 := Nat.mod_lt _ (by decide)
  generalize u0 : base / 2 ^ 25 % 2 ^ 7 = y0 at hb v0
  unfold encN19N13N7B6N4B3N0
  have hn2 : (BitVec.ofNat 32 (base + x0 * 2 ^ 19 + x1 * 2 ^ 13 + x2 * 2 ^ 7 + x3.toNat * 2 ^ 6 + x4 * 2 ^ 4 + x5.toNat * 2 ^ 3 + x6 * 2 ^ 0) : Word).toNat = base + x0 * 2 ^ 19 + x1 * 2 ^ 13 + x2 * 2 ^ 7 + x3.toNat * 2 ^ 6 + x4 * 2 ^ 4 + x5.toNat * 2 ^ 3 + x6 * 2 ^ 0 := by
    rw [BitVec.toNat_ofNat]; exact Nat.mod_eq_of_lt (by omega)
  generalize hw : (BitVec.ofNat 32 (base + x0 * 2 ^ 19 + x1 * 2 ^ 13 + x2 * 2 ^ 7 + x3.toNat * 2 ^ 6 + x4 * 2 ^ 4 + x5.toNat * 2 ^ 3 + x6 * 2 ^ 0) : Word) = w at hn2
  refine decode_of_row hr ?_ ?_ ?_ hi
  · rw [land_FE000000, hn2]; omega
  · unfold fld; rw [hn2]; omega
  · unfold decN19N13N7B6N4B3N0
    have f19 : fld w 19 6 = x0 := by unfold fld; rw [hn2]; omega
    have f13 : fld w 13 6 = x1 := by unfold fld; rw [hn2]; omega
    have f7 : fld w 7 6 = x2 := by unfold fld; rw [hn2]; omega
    have f6 : fld w 6 1 = x3.toNat := by unfold fld; rw [hn2]; omega
    have f4 : fld w 4 2 = x4 := by unfold fld; rw [hn2]; omega
    have f3 : fld w 3 1 = x5.toNat := by unfold fld; rw [hn2]; omega
    have f0 : fld w 0 3 = x6 := by unfold fld; rw [hn2]; omega
    rw [f19, f13, f7, f6, f4, f3, f0, toNat_beq_one, toNat_beq_one]
    rfl

theorem rt_N19B18I0 {mk : Nat → Bool → BitVec 18 → Instr} {base : Nat} (x0 : Nat) (x1 : Bool) (x2 : BitVec 18)
    (hr : rowAt 0xFE000000 base = some ⟨0xFE000000, base, decN19B18I0 mk⟩) (hb : base &&& 0xFE000000 = base)
    (hx0 : x0 < 64) (hi : (mk x0 x1 x2).wf = true) :
    decode (encN19B18I0 base x0 x1 x2) = .ok (mk x0 x1 x2) := by
  have cx1 := Bool.toNat_le x1
  have cx2 := x2.isLt
  have hb := fixed_FE000000 hb
  have v0 : base / 2 ^ 25 % 2 ^ 7 < 2 ^ 7 := Nat.mod_lt _ (by decide)
  generalize u0 : base / 2 ^ 25 % 2 ^ 7 = y0 at hb v0
  unfold encN19B18I0
  have hn2 : (BitVec.ofNat 32 (base + x0 * 2 ^ 19 + x1.toNat * 2 ^ 18 + x2.toNat * 2 ^ 0) : Word).toNat = base + x0 * 2 ^ 19 + x1.toNat * 2 ^ 18 + x2.toNat * 2 ^ 0 := by
    rw [BitVec.toNat_ofNat]; exact Nat.mod_eq_of_lt (by omega)
  generalize hw : (BitVec.ofNat 32 (base + x0 * 2 ^ 19 + x1.toNat * 2 ^ 18 + x2.toNat * 2 ^ 0) : Word) = w at hn2
  refine decode_of_row hr ?_ ?_ ?_ hi
  · rw [land_FE000000, hn2]; omega
  · unfold fld; rw [hn2]; omega
  · unfold decN19B18I0
    have f19 : fld w 19 6 = x0 := by unfold fld; rw [hn2]; omega
    have f18 : fld w 18 1 = x1.toNat := by unfold fld; rw [hn2]; omega
    have f0 : fld w 0 18 = x2.toNat := by unfold fld; rw [hn2]; omega
    rw [f19, f18, f0, toNat_beq_one, ofNat_self]
    rfl

theorem rt_D19L13N0w3 {mk : LDst → LSrc → Nat → Instr} {base : Nat} (x0 : LDst) (x1 : LSrc) (x2 : Nat)
    (hr : rowAt 0xFE001FF8 base = some ⟨0xFE001FF8, base, decD19L13N0w3 mk⟩) (hb : base &&& 0xFE001FF8 = base)
    (hx0 : x0.okWidth 1 = true) (hx1 : x1.okWidth 1 = true) (hx2 : x2 < 8) (hi : (mk x0 x1 x2).wf = true) :
    decode (encD19L13N0w3 base x0 x1 x2) = .ok (mk x0 x1 x2) := by
  have cx0 := LDst.code_lt hx0
  have cx1 := LSrc.code_lt hx1
  have ex1 : LExt x1 (laneWords [x1]) := LExt.of_same (sameLane_one _) (by simp)
  have hb := fixed_FE001FF8 hb
  have v0 : base / 2 ^ 25 % 2 ^ 7 < 2 ^ 7 := Nat.mod_lt _ (by decide)
  have v1 : base / 2 ^ 3 % 2 ^ 10 < 2 ^ 10 := Nat.mod_lt _ (by decide)
  generalize u0 : base / 2 ^ 25 % 2 ^ 7 = y0 at hb v0
  generalize u1 : base / 2 ^ 3 % 2 ^ 10 = y1 at hb v1
  unfold encD19L13N0w3
  have hn2 : (BitVec.ofNat 32 (base + x0.code * 2 ^ 19 + x1.code * 2 ^ 13 + x2 * 2 ^ 0) : Word).toNat = base + x0.code * 2 ^ 19 + x1.code * 2 ^ 13 + x2 * 2 ^ 0 := by
    rw [BitVec.toNat_ofNat]; exact Nat.mod_eq_of_lt (by omega)
  generalize hw : (BitVec.ofNat 32 (base + x0.code * 2 ^ 19 + x1.code * 2 ^ 13 + x2 * 2 ^ 0) : Word) = w at hn2
  refine decode_of_row hr ?_ ?_ ?_ hi
  · rw [land_FE001FF8, hn2]; omega
  · unfold fld; rw [hn2]; omega
  · unfold decD19L13N0w3
    have f19 : fld w 19 6 = x0.code := by unfold fld; rw [hn2]; omega
    have f13 : fld w 13 6 = x1.code := by unfold fld; rw [hn2]; omega
    have f0 : fld w 0 3 = x2 := by unfold fld; rw [hn2]; omega
    rw [f19, f13, f0, ldst_code hx0, lsrc_code hx1 ex1]
    rfl

theorem rt_E19U13U7B3N0 {mk : UDst → USrc → USrc → Bool → Nat → Instr} {base : Nat} (x0 : UDst) (x1 : USrc) (x2 : USrc) (x3 : Bool) (x4 : Nat)
    (hr : rowAt 0xFE000070 base = some ⟨0xFE000070, base, decE19U13U7B3N0 mk⟩) (hb : base &&& 0xFE000070 = base)
    (hx0 : x0.ok = true) (hx1 : x1.ok = true) (hx2 : x2.ok = true) (hx4 : x4 < 8) (hs : sameUniform [x1, x2] = true) (hi : (mk x0 x1 x2 x3 x4).wf = true) :
    decode (encE19U13U7B3N0 base x0 x1 x2 x3 x4) = .ok (mk x0 x1 x2 x3 x4) := by
  have cx0 := UDst.code_lt hx0
  have cx1 := USrc.code_lt hx1
  have cx2 := USrc.code_lt hx2
  have cx3 := Bool.toNat_le x3
  have ex1 : UExt x1 (uniformWords [x1, x2]) := UExt.of_same hs (by simp)
  have ex2 : UExt x2 (uniformWords [x1, x2]) := UExt.of_same hs (by simp)
  obtain ⟨n, hn⟩ := uniformExt_of_same (xs := [x1, x2]) hs (by simp [hx1, hx2])
  simp only [List.map] at hn
  have hb := fixed_FE000070 hb
  have v0 : base / 2 ^ 25 % 2 ^ 7 < 2 ^ 7 := Nat.mod_lt _ (by decide)
  have v1 : base / 2 ^ 4 % 2 ^ 3 < 2 ^ 3 := Nat.mod_lt _ (by decide)
  generalize u0 : base / 2 ^ 25 % 2 ^ 7 = y0 at hb v0
  generalize u1 : base / 2 ^ 4 % 2 ^ 3 = y1 at hb v1
  unfold encE19U13U7B3N0
  have hn2 : (BitVec.ofNat 32 (base + x0.code * 2 ^ 19 + x1.code * 2 ^ 13 + x2.code * 2 ^ 7 + x3.toNat * 2 ^ 3 + x4 * 2 ^ 0) : Word).toNat = base + x0.code * 2 ^ 19 + x1.code * 2 ^ 13 + x2.code * 2 ^ 7 + x3.toNat * 2 ^ 3 + x4 * 2 ^ 0 := by
    rw [BitVec.toNat_ofNat]; exact Nat.mod_eq_of_lt (by omega)
  generalize hw : (BitVec.ofNat 32 (base + x0.code * 2 ^ 19 + x1.code * 2 ^ 13 + x2.code * 2 ^ 7 + x3.toNat * 2 ^ 3 + x4 * 2 ^ 0) : Word) = w at hn2
  refine decode_of_row hr ?_ ?_ ?_ hi
  · rw [land_FE000070, hn2]; omega
  · unfold fld; rw [hn2]; omega
  · unfold decE19U13U7B3N0
    have f19 : fld w 19 6 = x0.code := by unfold fld; rw [hn2]; omega
    have f13 : fld w 13 6 = x1.code := by unfold fld; rw [hn2]; omega
    have f7 : fld w 7 6 = x2.code := by unfold fld; rw [hn2]; omega
    have f3 : fld w 3 1 = x3.toNat := by unfold fld; rw [hn2]; omega
    have f0 : fld w 0 3 = x4 := by unfold fld; rw [hn2]; omega
    rw [f19, f13, f7, f3, f0, udst_code hx0, usrc_code hx1 ex1, usrc_code hx2 ex2, hn, toNat_beq_one]
    rfl

theorem rt_E19U13B3N0 {mk : UDst → USrc → Bool → Nat → Instr} {base : Nat} (x0 : UDst) (x1 : USrc) (x2 : Bool) (x3 : Nat)
    (hr : rowAt 0xFE001FF0 base = some ⟨0xFE001FF0, base, decE19U13B3N0 mk⟩) (hb : base &&& 0xFE001FF0 = base)
    (hx0 : x0.ok = true) (hx1 : x1.ok = true) (hx3 : x3 < 8) (hi : (mk x0 x1 x2 x3).wf = true) :
    decode (encE19U13B3N0 base x0 x1 x2 x3) = .ok (mk x0 x1 x2 x3) := by
  have cx0 := UDst.code_lt hx0
  have cx1 := USrc.code_lt hx1
  have cx2 := Bool.toNat_le x2
  have ex1 : UExt x1 (uniformWords [x1]) := UExt.of_same (sameUniform_one _) (by simp)
  obtain ⟨n, hn⟩ := uniformExt_of_same (xs := [x1]) (sameUniform_one _) (by simp [hx1])
  simp only [List.map] at hn
  have hb := fixed_FE001FF0 hb
  have v0 : base / 2 ^ 25 % 2 ^ 7 < 2 ^ 7 := Nat.mod_lt _ (by decide)
  have v1 : base / 2 ^ 4 % 2 ^ 9 < 2 ^ 9 := Nat.mod_lt _ (by decide)
  generalize u0 : base / 2 ^ 25 % 2 ^ 7 = y0 at hb v0
  generalize u1 : base / 2 ^ 4 % 2 ^ 9 = y1 at hb v1
  unfold encE19U13B3N0
  have hn2 : (BitVec.ofNat 32 (base + x0.code * 2 ^ 19 + x1.code * 2 ^ 13 + x2.toNat * 2 ^ 3 + x3 * 2 ^ 0) : Word).toNat = base + x0.code * 2 ^ 19 + x1.code * 2 ^ 13 + x2.toNat * 2 ^ 3 + x3 * 2 ^ 0 := by
    rw [BitVec.toNat_ofNat]; exact Nat.mod_eq_of_lt (by omega)
  generalize hw : (BitVec.ofNat 32 (base + x0.code * 2 ^ 19 + x1.code * 2 ^ 13 + x2.toNat * 2 ^ 3 + x3 * 2 ^ 0) : Word) = w at hn2
  refine decode_of_row hr ?_ ?_ ?_ hi
  · rw [land_FE001FF0, hn2]; omega
  · unfold fld; rw [hn2]; omega
  · unfold decE19U13B3N0
    have f19 : fld w 19 6 = x0.code := by unfold fld; rw [hn2]; omega
    have f13 : fld w 13 6 = x1.code := by unfold fld; rw [hn2]; omega
    have f3 : fld w 3 1 = x2.toNat := by unfold fld; rw [hn2]; omega
    have f0 : fld w 0 3 = x3 := by unfold fld; rw [hn2]; omega
    rw [f19, f13, f3, f0, udst_code hx0, usrc_code hx1 ex1, hn, toNat_beq_one]
    rfl

theorem rt_N19U13U7N0 {mk : Nat → USrc → USrc → Nat → Instr} {base : Nat} (x0 : Nat) (x1 : USrc) (x2 : USrc) (x3 : Nat)
    (hr : rowAt 0xFE000078 base = some ⟨0xFE000078, base, decN19U13U7N0 mk⟩) (hb : base &&& 0xFE000078 = base)
    (hx0 : x0 < 64) (hx1 : x1.ok = true) (hx2 : x2.ok = true) (hx3 : x3 < 8) (hs : sameUniform [x1, x2] = true) (hi : (mk x0 x1 x2 x3).wf = true) :
    decode (encN19U13U7N0 base x0 x1 x2 x3) = .ok (mk x0 x1 x2 x3) := by
  have cx1 := USrc.code_lt hx1
  have cx2 := USrc.code_lt hx2
  have ex1 : UExt x1 (uniformWords [x1, x2]) := UExt.of_same hs (by simp)
  have ex2 : UExt x2 (uniformWords [x1, x2]) := UExt.of_same hs (by simp)
  obtain ⟨n, hn⟩ := uniformExt_of_same (xs := [x1, x2]) hs (by simp [hx1, hx2])
  simp only [List.map] at hn
  have hb := fixed_FE000078 hb
  have v0 : base / 2 ^ 25 % 2 ^ 7 < 2 ^ 7 := Nat.mod_lt _ (by decide)
  have v1 : base / 2 ^ 3 % 2 ^ 4 < 2 ^ 4 := Nat.mod_lt _ (by decide)
  generalize u0 : base / 2 ^ 25 % 2 ^ 7 = y0 at hb v0
  generalize u1 : base / 2 ^ 3 % 2 ^ 4 = y1 at hb v1
  unfold encN19U13U7N0
  have hn2 : (BitVec.ofNat 32 (base + x0 * 2 ^ 19 + x1.code * 2 ^ 13 + x2.code * 2 ^ 7 + x3 * 2 ^ 0) : Word).toNat = base + x0 * 2 ^ 19 + x1.code * 2 ^ 13 + x2.code * 2 ^ 7 + x3 * 2 ^ 0 := by
    rw [BitVec.toNat_ofNat]; exact Nat.mod_eq_of_lt (by omega)
  generalize hw : (BitVec.ofNat 32 (base + x0 * 2 ^ 19 + x1.code * 2 ^ 13 + x2.code * 2 ^ 7 + x3 * 2 ^ 0) : Word) = w at hn2
  refine decode_of_row hr ?_ ?_ ?_ hi
  · rw [land_FE000078, hn2]; omega
  · unfold fld; rw [hn2]; omega
  · unfold decN19U13U7N0
    have f19 : fld w 19 6 = x0 := by unfold fld; rw [hn2]; omega
    have f13 : fld w 13 6 = x1.code := by unfold fld; rw [hn2]; omega
    have f7 : fld w 7 6 = x2.code := by unfold fld; rw [hn2]; omega
    have f0 : fld w 0 3 = x3 := by unfold fld; rw [hn2]; omega
    rw [f19, f13, f7, f0, usrc_code hx1 ex1, usrc_code hx2 ex2, hn]
    rfl

theorem rt_N19N13N7N0w6633 {mk : Nat → Nat → Nat → Nat → Instr} {base : Nat} (x0 : Nat) (x1 : Nat) (x2 : Nat) (x3 : Nat)
    (hr : rowAt 0xFE001C78 base = some ⟨0xFE001C78, base, decN19N13N7N0w6633 mk⟩) (hb : base &&& 0xFE001C78 = base)
    (hx0 : x0 < 64) (hx1 : x1 < 64) (hx2 : x2 < 8) (hx3 : x3 < 8) (hi : (mk x0 x1 x2 x3).wf = true) :
    decode (encN19N13N7N0w6633 base x0 x1 x2 x3) = .ok (mk x0 x1 x2 x3) := by
  have hb := fixed_FE001C78 hb
  have v0 : base / 2 ^ 25 % 2 ^ 7 < 2 ^ 7 := Nat.mod_lt _ (by decide)
  have v1 : base / 2 ^ 10 % 2 ^ 3 < 2 ^ 3 := Nat.mod_lt _ (by decide)
  have v2 : base / 2 ^ 3 % 2 ^ 4 < 2 ^ 4 := Nat.mod_lt _ (by decide)
  generalize u0 : base / 2 ^ 25 % 2 ^ 7 = y0 at hb v0
  generalize u1 : base / 2 ^ 10 % 2 ^ 3 = y1 at hb v1
  generalize u2 : base / 2 ^ 3 % 2 ^ 4 = y2 at hb v2
  unfold encN19N13N7N0w6633
  have hn2 : (BitVec.ofNat 32 (base + x0 * 2 ^ 19 + x1 * 2 ^ 13 + x2 * 2 ^ 7 + x3 * 2 ^ 0) : Word).toNat = base + x0 * 2 ^ 19 + x1 * 2 ^ 13 + x2 * 2 ^ 7 + x3 * 2 ^ 0 := by
    rw [BitVec.toNat_ofNat]; exact Nat.mod_eq_of_lt (by omega)
  generalize hw : (BitVec.ofNat 32 (base + x0 * 2 ^ 19 + x1 * 2 ^ 13 + x2 * 2 ^ 7 + x3 * 2 ^ 0) : Word) = w at hn2
  refine decode_of_row hr ?_ ?_ ?_ hi
  · rw [land_FE001C78, hn2]; omega
  · unfold fld; rw [hn2]; omega
  · unfold decN19N13N7N0w6633
    have f19 : fld w 19 6 = x0 := by unfold fld; rw [hn2]; omega
    have f13 : fld w 13 6 = x1 := by unfold fld; rw [hn2]; omega
    have f7 : fld w 7 3 = x2 := by unfold fld; rw [hn2]; omega
    have f0 : fld w 0 3 = x3 := by unfold fld; rw [hn2]; omega
    rw [f19, f13, f7, f0]
    rfl

theorem rt_E19L13B3N0 {mk : UDst → LSrc → Bool → Nat → Instr} {base : Nat} (x0 : UDst) (x1 : LSrc) (x2 : Bool) (x3 : Nat)
    (hr : rowAt 0xFE001FF0 base = some ⟨0xFE001FF0, base, decE19L13B3N0 mk⟩) (hb : base &&& 0xFE001FF0 = base)
    (hx0 : x0.ok = true) (hx1 : x1.okWidth 1 = true) (hx3 : x3 < 8) (hi : (mk x0 x1 x2 x3).wf = true) :
    decode (encE19L13B3N0 base x0 x1 x2 x3) = .ok (mk x0 x1 x2 x3) := by
  have cx0 := UDst.code_lt hx0
  have cx1 := LSrc.code_lt hx1
  have cx2 := Bool.toNat_le x2
  have ex1 : LExt x1 (laneWords [x1]) := LExt.of_same (sameLane_one _) (by simp)
  have hb := fixed_FE001FF0 hb
  have v0 : base / 2 ^ 25 % 2 ^ 7 < 2 ^ 7 := Nat.mod_lt _ (by decide)
  have v1 : base / 2 ^ 4 % 2 ^ 9 < 2 ^ 9 := Nat.mod_lt _ (by decide)
  generalize u0 : base / 2 ^ 25 % 2 ^ 7 = y0 at hb v0
  generalize u1 : base / 2 ^ 4 % 2 ^ 9 = y1 at hb v1
  unfold encE19L13B3N0
  have hn2 : (BitVec.ofNat 32 (base + x0.code * 2 ^ 19 + x1.code * 2 ^ 13 + x2.toNat * 2 ^ 3 + x3 * 2 ^ 0) : Word).toNat = base + x0.code * 2 ^ 19 + x1.code * 2 ^ 13 + x2.toNat * 2 ^ 3 + x3 * 2 ^ 0 := by
    rw [BitVec.toNat_ofNat]; exact Nat.mod_eq_of_lt (by omega)
  generalize hw : (BitVec.ofNat 32 (base + x0.code * 2 ^ 19 + x1.code * 2 ^ 13 + x2.toNat * 2 ^ 3 + x3 * 2 ^ 0) : Word) = w at hn2
  refine decode_of_row hr ?_ ?_ ?_ hi
  · rw [land_FE001FF0, hn2]; omega
  · unfold fld; rw [hn2]; omega
  · unfold decE19L13B3N0
    have f19 : fld w 19 6 = x0.code := by unfold fld; rw [hn2]; omega
    have f13 : fld w 13 6 = x1.code := by unfold fld; rw [hn2]; omega
    have f3 : fld w 3 1 = x2.toNat := by unfold fld; rw [hn2]; omega
    have f0 : fld w 0 3 = x3 := by unfold fld; rw [hn2]; omega
    rw [f19, f13, f3, f0, udst_code hx0, lsrc_code hx1 ex1, toNat_beq_one]
    rfl

theorem rt_E19U13I0 {mk : UDst → USrc → BitVec 13 → Instr} {base : Nat} (x0 : UDst) (x1 : USrc) (x2 : BitVec 13)
    (hr : rowAt 0xFE000000 base = some ⟨0xFE000000, base, decE19U13I0 mk⟩) (hb : base &&& 0xFE000000 = base)
    (hx0 : x0.ok = true) (hx1 : x1.ok = true) (hi : (mk x0 x1 x2).wf = true) :
    decode (encE19U13I0 base x0 x1 x2) = .ok (mk x0 x1 x2) := by
  have cx0 := UDst.code_lt hx0
  have cx1 := USrc.code_lt hx1
  have cx2 := x2.isLt
  have ex1 : UExt x1 (uniformWords [x1]) := UExt.of_same (sameUniform_one _) (by simp)
  obtain ⟨n, hn⟩ := uniformExt_of_same (xs := [x1]) (sameUniform_one _) (by simp [hx1])
  simp only [List.map] at hn
  have hb := fixed_FE000000 hb
  have v0 : base / 2 ^ 25 % 2 ^ 7 < 2 ^ 7 := Nat.mod_lt _ (by decide)
  generalize u0 : base / 2 ^ 25 % 2 ^ 7 = y0 at hb v0
  unfold encE19U13I0
  have hn2 : (BitVec.ofNat 32 (base + x0.code * 2 ^ 19 + x1.code * 2 ^ 13 + x2.toNat * 2 ^ 0) : Word).toNat = base + x0.code * 2 ^ 19 + x1.code * 2 ^ 13 + x2.toNat * 2 ^ 0 := by
    rw [BitVec.toNat_ofNat]; exact Nat.mod_eq_of_lt (by omega)
  generalize hw : (BitVec.ofNat 32 (base + x0.code * 2 ^ 19 + x1.code * 2 ^ 13 + x2.toNat * 2 ^ 0) : Word) = w at hn2
  refine decode_of_row hr ?_ ?_ ?_ hi
  · rw [land_FE000000, hn2]; omega
  · unfold fld; rw [hn2]; omega
  · unfold decE19U13I0
    have f19 : fld w 19 6 = x0.code := by unfold fld; rw [hn2]; omega
    have f13 : fld w 13 6 = x1.code := by unfold fld; rw [hn2]; omega
    have f0 : fld w 0 13 = x2.toNat := by unfold fld; rw [hn2]; omega
    rw [f19, f13, f0, udst_code hx0, usrc_code hx1 ex1, hn, ofNat_self]
    rfl

theorem rt_E19U13N0 {mk : UDst → USrc → Nat → Instr} {base : Nat} (x0 : UDst) (x1 : USrc) (x2 : Nat)
    (hr : rowAt 0xFE001FC0 base = some ⟨0xFE001FC0, base, decE19U13N0 mk⟩) (hb : base &&& 0xFE001FC0 = base)
    (hx0 : x0.ok = true) (hx1 : x1.ok = true) (hx2 : x2 < 64) (hi : (mk x0 x1 x2).wf = true) :
    decode (encE19U13N0 base x0 x1 x2) = .ok (mk x0 x1 x2) := by
  have cx0 := UDst.code_lt hx0
  have cx1 := USrc.code_lt hx1
  have ex1 : UExt x1 (uniformWords [x1]) := UExt.of_same (sameUniform_one _) (by simp)
  obtain ⟨n, hn⟩ := uniformExt_of_same (xs := [x1]) (sameUniform_one _) (by simp [hx1])
  simp only [List.map] at hn
  have hb := fixed_FE001FC0 hb
  have v0 : base / 2 ^ 25 % 2 ^ 7 < 2 ^ 7 := Nat.mod_lt _ (by decide)
  have v1 : base / 2 ^ 6 % 2 ^ 7 < 2 ^ 7 := Nat.mod_lt _ (by decide)
  generalize u0 : base / 2 ^ 25 % 2 ^ 7 = y0 at hb v0
  generalize u1 : base / 2 ^ 6 % 2 ^ 7 = y1 at hb v1
  unfold encE19U13N0
  have hn2 : (BitVec.ofNat 32 (base + x0.code * 2 ^ 19 + x1.code * 2 ^ 13 + x2 * 2 ^ 0) : Word).toNat = base + x0.code * 2 ^ 19 + x1.code * 2 ^ 13 + x2 * 2 ^ 0 := by
    rw [BitVec.toNat_ofNat]; exact Nat.mod_eq_of_lt (by omega)
  generalize hw : (BitVec.ofNat 32 (base + x0.code * 2 ^ 19 + x1.code * 2 ^ 13 + x2 * 2 ^ 0) : Word) = w at hn2
  refine decode_of_row hr ?_ ?_ ?_ hi
  · rw [land_FE001FC0, hn2]; omega
  · unfold fld; rw [hn2]; omega
  · unfold decE19U13N0
    have f19 : fld w 19 6 = x0.code := by unfold fld; rw [hn2]; omega
    have f13 : fld w 13 6 = x1.code := by unfold fld; rw [hn2]; omega
    have f0 : fld w 0 6 = x2 := by unfold fld; rw [hn2]; omega
    rw [f19, f13, f0, udst_code hx0, usrc_code hx1 ex1, hn]
    rfl

theorem rt_N19U13I0 {mk : Nat → USrc → BitVec 10 → Instr} {base : Nat} (x0 : Nat) (x1 : USrc) (x2 : BitVec 10)
    (hr : rowAt 0xFE001C00 base = some ⟨0xFE001C00, base, decN19U13I0 mk⟩) (hb : base &&& 0xFE001C00 = base)
    (hx0 : x0 < 64) (hx1 : x1.ok = true) (hi : (mk x0 x1 x2).wf = true) :
    decode (encN19U13I0 base x0 x1 x2) = .ok (mk x0 x1 x2) := by
  have cx1 := USrc.code_lt hx1
  have cx2 := x2.isLt
  have ex1 : UExt x1 (uniformWords [x1]) := UExt.of_same (sameUniform_one _) (by simp)
  obtain ⟨n, hn⟩ := uniformExt_of_same (xs := [x1]) (sameUniform_one _) (by simp [hx1])
  simp only [List.map] at hn
  have hb := fixed_FE001C00 hb
  have v0 : base / 2 ^ 25 % 2 ^ 7 < 2 ^ 7 := Nat.mod_lt _ (by decide)
  have v1 : base / 2 ^ 10 % 2 ^ 3 < 2 ^ 3 := Nat.mod_lt _ (by decide)
  generalize u0 : base / 2 ^ 25 % 2 ^ 7 = y0 at hb v0
  generalize u1 : base / 2 ^ 10 % 2 ^ 3 = y1 at hb v1
  unfold encN19U13I0
  have hn2 : (BitVec.ofNat 32 (base + x0 * 2 ^ 19 + x1.code * 2 ^ 13 + x2.toNat * 2 ^ 0) : Word).toNat = base + x0 * 2 ^ 19 + x1.code * 2 ^ 13 + x2.toNat * 2 ^ 0 := by
    rw [BitVec.toNat_ofNat]; exact Nat.mod_eq_of_lt (by omega)
  generalize hw : (BitVec.ofNat 32 (base + x0 * 2 ^ 19 + x1.code * 2 ^ 13 + x2.toNat * 2 ^ 0) : Word) = w at hn2
  refine decode_of_row hr ?_ ?_ ?_ hi
  · rw [land_FE001C00, hn2]; omega
  · unfold fld; rw [hn2]; omega
  · unfold decN19U13I0
    have f19 : fld w 19 6 = x0 := by unfold fld; rw [hn2]; omega
    have f13 : fld w 13 6 = x1.code := by unfold fld; rw [hn2]; omega
    have f0 : fld w 0 10 = x2.toNat := by unfold fld; rw [hn2]; omega
    rw [f19, f13, f0, usrc_code hx1 ex1, hn, ofNat_self]
    rfl

theorem rt_E19I0 {mk : UDst → BitVec 13 → Instr} {base : Nat} (x0 : UDst) (x1 : BitVec 13)
    (hr : rowAt 0xFE07E000 base = some ⟨0xFE07E000, base, decE19I0 mk⟩) (hb : base &&& 0xFE07E000 = base)
    (hx0 : x0.ok = true) (hi : (mk x0 x1).wf = true) :
    decode (encE19I0 base x0 x1) = .ok (mk x0 x1) := by
  have cx0 := UDst.code_lt hx0
  have cx1 := x1.isLt
  have hb := fixed_FE07E000 hb
  have v0 : base / 2 ^ 25 % 2 ^ 7 < 2 ^ 7 := Nat.mod_lt _ (by decide)
  have v1 : base / 2 ^ 13 % 2 ^ 6 < 2 ^ 6 := Nat.mod_lt _ (by decide)
  generalize u0 : base / 2 ^ 25 % 2 ^ 7 = y0 at hb v0
  generalize u1 : base / 2 ^ 13 % 2 ^ 6 = y1 at hb v1
  unfold encE19I0
  have hn2 : (BitVec.ofNat 32 (base + x0.code * 2 ^ 19 + x1.toNat * 2 ^ 0) : Word).toNat = base + x0.code * 2 ^ 19 + x1.toNat * 2 ^ 0 := by
    rw [BitVec.toNat_ofNat]; exact Nat.mod_eq_of_lt (by omega)
  generalize hw : (BitVec.ofNat 32 (base + x0.code * 2 ^ 19 + x1.toNat * 2 ^ 0) : Word) = w at hn2
  refine decode_of_row hr ?_ ?_ ?_ hi
  · rw [land_FE07E000, hn2]; omega
  · unfold fld; rw [hn2]; omega
  · unfold decE19I0
    have f19 : fld w 19 6 = x0.code := by unfold fld; rw [hn2]; omega
    have f0 : fld w 0 13 = x1.toNat := by unfold fld; rw [hn2]; omega
    rw [f19, f0, udst_code hx0, ofNat_self]
    rfl

theorem rt_U19U13I0 {mk : USrc → USrc → BitVec 13 → Instr} {base : Nat} (x0 : USrc) (x1 : USrc) (x2 : BitVec 13)
    (hr : rowAt 0xFE000000 base = some ⟨0xFE000000, base, decU19U13I0 mk⟩) (hb : base &&& 0xFE000000 = base)
    (hx0 : x0.ok = true) (hx1 : x1.ok = true) (hs : sameUniform [x0, x1] = true) (hi : (mk x0 x1 x2).wf = true) :
    decode (encU19U13I0 base x0 x1 x2) = .ok (mk x0 x1 x2) := by
  have cx0 := USrc.code_lt hx0
  have cx1 := USrc.code_lt hx1
  have cx2 := x2.isLt
  have ex0 : UExt x0 (uniformWords [x0, x1]) := UExt.of_same hs (by simp)
  have ex1 : UExt x1 (uniformWords [x0, x1]) := UExt.of_same hs (by simp)
  obtain ⟨n, hn⟩ := uniformExt_of_same (xs := [x0, x1]) hs (by simp [hx0, hx1])
  simp only [List.map] at hn
  have hb := fixed_FE000000 hb
  have v0 : base / 2 ^ 25 % 2 ^ 7 < 2 ^ 7 := Nat.mod_lt _ (by decide)
  generalize u0 : base / 2 ^ 25 % 2 ^ 7 = y0 at hb v0
  unfold encU19U13I0
  have hn2 : (BitVec.ofNat 32 (base + x0.code * 2 ^ 19 + x1.code * 2 ^ 13 + x2.toNat * 2 ^ 0) : Word).toNat = base + x0.code * 2 ^ 19 + x1.code * 2 ^ 13 + x2.toNat * 2 ^ 0 := by
    rw [BitVec.toNat_ofNat]; exact Nat.mod_eq_of_lt (by omega)
  generalize hw : (BitVec.ofNat 32 (base + x0.code * 2 ^ 19 + x1.code * 2 ^ 13 + x2.toNat * 2 ^ 0) : Word) = w at hn2
  refine decode_of_row hr ?_ ?_ ?_ hi
  · rw [land_FE000000, hn2]; omega
  · unfold fld; rw [hn2]; omega
  · unfold decU19U13I0
    have f19 : fld w 19 6 = x0.code := by unfold fld; rw [hn2]; omega
    have f13 : fld w 13 6 = x1.code := by unfold fld; rw [hn2]; omega
    have f0 : fld w 0 13 = x2.toNat := by unfold fld; rw [hn2]; omega
    rw [f19, f13, f0, usrc_code hx0 ex0, usrc_code hx1 ex1, hn, ofNat_self]
    rfl

theorem rt_N22B21I0 {mk : Nat → Bool → BitVec 21 → Instr} {base : Nat} (x0 : Nat) (x1 : Bool) (x2 : BitVec 21)
    (hr : rowAt 0xFE000000 base = some ⟨0xFE000000, base, decN22B21I0 mk⟩) (hb : base &&& 0xFE000000 = base)
    (hx0 : x0 < 8) (hi : (mk x0 x1 x2).wf = true) :
    decode (encN22B21I0 base x0 x1 x2) = .ok (mk x0 x1 x2) := by
  have cx1 := Bool.toNat_le x1
  have cx2 := x2.isLt
  have hb := fixed_FE000000 hb
  have v0 : base / 2 ^ 25 % 2 ^ 7 < 2 ^ 7 := Nat.mod_lt _ (by decide)
  generalize u0 : base / 2 ^ 25 % 2 ^ 7 = y0 at hb v0
  unfold encN22B21I0
  have hn2 : (BitVec.ofNat 32 (base + x0 * 2 ^ 22 + x1.toNat * 2 ^ 21 + x2.toNat * 2 ^ 0) : Word).toNat = base + x0 * 2 ^ 22 + x1.toNat * 2 ^ 21 + x2.toNat * 2 ^ 0 := by
    rw [BitVec.toNat_ofNat]; exact Nat.mod_eq_of_lt (by omega)
  generalize hw : (BitVec.ofNat 32 (base + x0 * 2 ^ 22 + x1.toNat * 2 ^ 21 + x2.toNat * 2 ^ 0) : Word) = w at hn2
  refine decode_of_row hr ?_ ?_ ?_ hi
  · rw [land_FE000000, hn2]; omega
  · unfold fld; rw [hn2]; omega
  · unfold decN22B21I0
    have f22 : fld w 22 3 = x0 := by unfold fld; rw [hn2]; omega
    have f21 : fld w 21 1 = x1.toNat := by unfold fld; rw [hn2]; omega
    have f0 : fld w 0 21 = x2.toNat := by unfold fld; rw [hn2]; omega
    rw [f22, f21, f0, toNat_beq_one, ofNat_self]
    rfl

theorem rt_U19U13 {mk : USrc → USrc → Instr} {base : Nat} (x0 : USrc) (x1 : USrc)
    (hr : rowAt 0xFE001FFF base = some ⟨0xFE001FFF, base, decU19U13 mk⟩) (hb : base &&& 0xFE001FFF = base)
    (hx0 : x0.ok = true) (hx1 : x1.ok = true) (hs : sameUniform [x0, x1] = true) (hi : (mk x0 x1).wf = true) :
    decode (encU19U13 base x0 x1) = .ok (mk x0 x1) := by
  have cx0 := USrc.code_lt hx0
  have cx1 := USrc.code_lt hx1
  have ex0 : UExt x0 (uniformWords [x0, x1]) := UExt.of_same hs (by simp)
  have ex1 : UExt x1 (uniformWords [x0, x1]) := UExt.of_same hs (by simp)
  obtain ⟨n, hn⟩ := uniformExt_of_same (xs := [x0, x1]) hs (by simp [hx0, hx1])
  simp only [List.map] at hn
  have hb := fixed_FE001FFF hb
  have v0 : base / 2 ^ 25 % 2 ^ 7 < 2 ^ 7 := Nat.mod_lt _ (by decide)
  have v1 : base / 2 ^ 0 % 2 ^ 13 < 2 ^ 13 := Nat.mod_lt _ (by decide)
  generalize u0 : base / 2 ^ 25 % 2 ^ 7 = y0 at hb v0
  generalize u1 : base / 2 ^ 0 % 2 ^ 13 = y1 at hb v1
  unfold encU19U13
  have hn2 : (BitVec.ofNat 32 (base + x0.code * 2 ^ 19 + x1.code * 2 ^ 13) : Word).toNat = base + x0.code * 2 ^ 19 + x1.code * 2 ^ 13 := by
    rw [BitVec.toNat_ofNat]; exact Nat.mod_eq_of_lt (by omega)
  generalize hw : (BitVec.ofNat 32 (base + x0.code * 2 ^ 19 + x1.code * 2 ^ 13) : Word) = w at hn2
  refine decode_of_row hr ?_ ?_ ?_ hi
  · rw [land_FE001FFF, hn2]; omega
  · unfold fld; rw [hn2]; omega
  · unfold decU19U13
    have f19 : fld w 19 6 = x0.code := by unfold fld; rw [hn2]; omega
    have f13 : fld w 13 6 = x1.code := by unfold fld; rw [hn2]; omega
    rw [f19, f13, usrc_code hx0 ex0, usrc_code hx1 ex1, hn]
    rfl

theorem rt_U19B0 {mk : USrc → Bool → Instr} {base : Nat} (x0 : USrc) (x1 : Bool)
    (hr : rowAt 0xFE07FFFE base = some ⟨0xFE07FFFE, base, decU19B0 mk⟩) (hb : base &&& 0xFE07FFFE = base)
    (hx0 : x0.ok = true) (hi : (mk x0 x1).wf = true) :
    decode (encU19B0 base x0 x1) = .ok (mk x0 x1) := by
  have cx0 := USrc.code_lt hx0
  have cx1 := Bool.toNat_le x1
  have ex0 : UExt x0 (uniformWords [x0]) := UExt.of_same (sameUniform_one _) (by simp)
  obtain ⟨n, hn⟩ := uniformExt_of_same (xs := [x0]) (sameUniform_one _) (by simp [hx0])
  simp only [List.map] at hn
  have hb := fixed_FE07FFFE hb
  have v0 : base / 2 ^ 25 % 2 ^ 7 < 2 ^ 7 := Nat.mod_lt _ (by decide)
  have v1 : base / 2 ^ 1 % 2 ^ 18 < 2 ^ 18 := Nat.mod_lt _ (by decide)
  generalize u0 : base / 2 ^ 25 % 2 ^ 7 = y0 at hb v0
  generalize u1 : base / 2 ^ 1 % 2 ^ 18 = y1 at hb v1
  unfold encU19B0
  have hn2 : (BitVec.ofNat 32 (base + x0.code * 2 ^ 19 + x1.toNat * 2 ^ 0) : Word).toNat = base + x0.code * 2 ^ 19 + x1.toNat * 2 ^ 0 := by
    rw [BitVec.toNat_ofNat]; exact Nat.mod_eq_of_lt (by omega)
  generalize hw : (BitVec.ofNat 32 (base + x0.code * 2 ^ 19 + x1.toNat * 2 ^ 0) : Word) = w at hn2
  refine decode_of_row hr ?_ ?_ ?_ hi
  · rw [land_FE07FFFE, hn2]; omega
  · unfold fld; rw [hn2]; omega
  · unfold decU19B0
    have f19 : fld w 19 6 = x0.code := by unfold fld; rw [hn2]; omega
    have f0 : fld w 0 1 = x1.toNat := by unfold fld; rw [hn2]; omega
    rw [f19, f0, usrc_code hx0 ex0, hn, toNat_beq_one]
    rfl

theorem rt_N0 {mk : Nat → Instr} {base : Nat} (x0 : Nat)
    (hr : rowAt 0xFFFFFFF8 base = some ⟨0xFFFFFFF8, base, decN0 mk⟩) (hb : base &&& 0xFFFFFFF8 = base)
    (hx0 : x0 < 8) (hi : (mk x0).wf = true) :
    decode (encN0 base x0) = .ok (mk x0) := by
  have hb := fixed_FFFFFFF8 hb
  have v0 : base / 2 ^ 3 % 2 ^ 29 < 2 ^ 29 := Nat.mod_lt _ (by decide)
  generalize u0 : base / 2 ^ 3 % 2 ^ 29 = y0 at hb v0
  unfold encN0
  have hn2 : (BitVec.ofNat 32 (base + x0 * 2 ^ 0) : Word).toNat = base + x0 * 2 ^ 0 := by
    rw [BitVec.toNat_ofNat]; exact Nat.mod_eq_of_lt (by omega)
  generalize hw : (BitVec.ofNat 32 (base + x0 * 2 ^ 0) : Word) = w at hn2
  refine decode_of_row hr ?_ ?_ ?_ hi
  · rw [land_FFFFFFF8, hn2]; omega
  · unfold fld; rw [hn2]; omega
  · unfold decN0
    have f0 : fld w 0 3 = x0 := by unfold fld; rw [hn2]; omega
    rw [f0]
    rfl

theorem rt_U13N0 {mk : USrc → Nat → Instr} {base : Nat} (x0 : USrc) (x1 : Nat)
    (hr : rowAt 0xFFF81FF8 base = some ⟨0xFFF81FF8, base, decU13N0 mk⟩) (hb : base &&& 0xFFF81FF8 = base)
    (hx0 : x0.ok = true) (hx1 : x1 < 8) (hi : (mk x0 x1).wf = true) :
    decode (encU13N0 base x0 x1) = .ok (mk x0 x1) := by
  have cx0 := USrc.code_lt hx0
  have ex0 : UExt x0 (uniformWords [x0]) := UExt.of_same (sameUniform_one _) (by simp)
  obtain ⟨n, hn⟩ := uniformExt_of_same (xs := [x0]) (sameUniform_one _) (by simp [hx0])
  simp only [List.map] at hn
  have hb := fixed_FFF81FF8 hb
  have v0 : base / 2 ^ 19 % 2 ^ 13 < 2 ^ 13 := Nat.mod_lt _ (by decide)
  have v1 : base / 2 ^ 3 % 2 ^ 10 < 2 ^ 10 := Nat.mod_lt _ (by decide)
  generalize u0 : base / 2 ^ 19 % 2 ^ 13 = y0 at hb v0
  generalize u1 : base / 2 ^ 3 % 2 ^ 10 = y1 at hb v1
  unfold encU13N0
  have hn2 : (BitVec.ofNat 32 (base + x0.code * 2 ^ 13 + x1 * 2 ^ 0) : Word).toNat = base + x0.code * 2 ^ 13 + x1 * 2 ^ 0 := by
    rw [BitVec.toNat_ofNat]; exact Nat.mod_eq_of_lt (by omega)
  generalize hw : (BitVec.ofNat 32 (base + x0.code * 2 ^ 13 + x1 * 2 ^ 0) : Word) = w at hn2
  refine decode_of_row hr ?_ ?_ ?_ hi
  · rw [land_FFF81FF8, hn2]; omega
  · unfold fld; rw [hn2]; omega
  · unfold decU13N0
    have f13 : fld w 13 6 = x0.code := by unfold fld; rw [hn2]; omega
    have f0 : fld w 0 3 = x1 := by unfold fld; rw [hn2]; omega
    rw [f13, f0, usrc_code hx0 ex0, hn]
    rfl

theorem rt_U19 {mk : USrc → Instr} {base : Nat} (x0 : USrc)
    (hr : rowAt 0xFE07FFFF base = some ⟨0xFE07FFFF, base, decU19 mk⟩) (hb : base &&& 0xFE07FFFF = base)
    (hx0 : x0.ok = true) (hi : (mk x0).wf = true) :
    decode (encU19 base x0) = .ok (mk x0) := by
  have cx0 := USrc.code_lt hx0
  have ex0 : UExt x0 (uniformWords [x0]) := UExt.of_same (sameUniform_one _) (by simp)
  obtain ⟨n, hn⟩ := uniformExt_of_same (xs := [x0]) (sameUniform_one _) (by simp [hx0])
  simp only [List.map] at hn
  have hb := fixed_FE07FFFF hb
  have v0 : base / 2 ^ 25 % 2 ^ 7 < 2 ^ 7 := Nat.mod_lt _ (by decide)
  have v1 : base / 2 ^ 0 % 2 ^ 19 < 2 ^ 19 := Nat.mod_lt _ (by decide)
  generalize u0 : base / 2 ^ 25 % 2 ^ 7 = y0 at hb v0
  generalize u1 : base / 2 ^ 0 % 2 ^ 19 = y1 at hb v1
  unfold encU19
  have hn2 : (BitVec.ofNat 32 (base + x0.code * 2 ^ 19) : Word).toNat = base + x0.code * 2 ^ 19 := by
    rw [BitVec.toNat_ofNat]; exact Nat.mod_eq_of_lt (by omega)
  generalize hw : (BitVec.ofNat 32 (base + x0.code * 2 ^ 19) : Word) = w at hn2
  refine decode_of_row hr ?_ ?_ ?_ hi
  · rw [land_FE07FFFF, hn2]; omega
  · unfold fld; rw [hn2]; omega
  · unfold decU19
    have f19 : fld w 19 6 = x0.code := by unfold fld; rw [hn2]; omega
    rw [f19, usrc_code hx0 ex0, hn]
    rfl

theorem rt_N19 {mk : Nat → Instr} {base : Nat} (x0 : Nat)
    (hr : rowAt 0xFE07FFFF base = some ⟨0xFE07FFFF, base, decN19 mk⟩) (hb : base &&& 0xFE07FFFF = base)
    (hx0 : x0 < 64) (hi : (mk x0).wf = true) :
    decode (encN19 base x0) = .ok (mk x0) := by
  have hb := fixed_FE07FFFF hb
  have v0 : base / 2 ^ 25 % 2 ^ 7 < 2 ^ 7 := Nat.mod_lt _ (by decide)
  have v1 : base / 2 ^ 0 % 2 ^ 19 < 2 ^ 19 := Nat.mod_lt _ (by decide)
  generalize u0 : base / 2 ^ 25 % 2 ^ 7 = y0 at hb v0
  generalize u1 : base / 2 ^ 0 % 2 ^ 19 = y1 at hb v1
  unfold encN19
  have hn2 : (BitVec.ofNat 32 (base + x0 * 2 ^ 19) : Word).toNat = base + x0 * 2 ^ 19 := by
    rw [BitVec.toNat_ofNat]; exact Nat.mod_eq_of_lt (by omega)
  generalize hw : (BitVec.ofNat 32 (base + x0 * 2 ^ 19) : Word) = w at hn2
  refine decode_of_row hr ?_ ?_ ?_ hi
  · rw [land_FE07FFFF, hn2]; omega
  · unfold fld; rw [hn2]; omega
  · unfold decN19
    have f19 : fld w 19 6 = x0 := by unfold fld; rw [hn2]; omega
    rw [f19]
    rfl

theorem rt_E19N7 {mk : UDst → Nat → Instr} {base : Nat} (x0 : UDst) (x1 : Nat)
    (hr : rowAt 0xFE07E07F base = some ⟨0xFE07E07F, base, decE19N7 mk⟩) (hb : base &&& 0xFE07E07F = base)
    (hx0 : x0.ok = true) (hx1 : x1 < 64) (hi : (mk x0 x1).wf = true) :
    decode (encE19N7 base x0 x1) = .ok (mk x0 x1) := by
  have cx0 := UDst.code_lt hx0
  have hb := fixed_FE07E07F hb
  have v0 : base / 2 ^ 25 % 2 ^ 7 < 2 ^ 7 := Nat.mod_lt _ (by decide)
  have v1 : base / 2 ^ 13 % 2 ^ 6 < 2 ^ 6 := Nat.mod_lt _ (by decide)
  have v2 : base / 2 ^ 0 % 2 ^ 7 < 2 ^ 7 := Nat.mod_lt _ (by decide)
  generalize u0 : base / 2 ^ 25 % 2 ^ 7 = y0 at hb v0
  generalize u1 : base / 2 ^ 13 % 2 ^ 6 = y1 at hb v1
  generalize u2 : base / 2 ^ 0 % 2 ^ 7 = y2 at hb v2
  unfold encE19N7
  have hn2 : (BitVec.ofNat 32 (base + x0.code * 2 ^ 19 + x1 * 2 ^ 7) : Word).toNat = base + x0.code * 2 ^ 19 + x1 * 2 ^ 7 := by
    rw [BitVec.toNat_ofNat]; exact Nat.mod_eq_of_lt (by omega)
  generalize hw : (BitVec.ofNat 32 (base + x0.code * 2 ^ 19 + x1 * 2 ^ 7) : Word) = w at hn2
  refine decode_of_row hr ?_ ?_ ?_ hi
  · rw [land_FE07E07F, hn2]; omega
  · unfold fld; rw [hn2]; omega
  · unfold decE19N7
    have f19 : fld w 19 6 = x0.code := by unfold fld; rw [hn2]; omega
    have f7 : fld w 7 6 = x1 := by unfold fld; rw [hn2]; omega
    rw [f19, f7, udst_code hx0]
    rfl

theorem rt_N19U13 {mk : Nat → USrc → Instr} {base : Nat} (x0 : Nat) (x1 : USrc)
    (hr : rowAt 0xFE001FFF base = some ⟨0xFE001FFF, base, decN19U13 mk⟩) (hb : base &&& 0xFE001FFF = base)
    (hx0 : x0 < 64) (hx1 : x1.ok = true) (hi : (mk x0 x1).wf = true) :
    decode (encN19U13 base x0 x1) = .ok (mk x0 x1) := by
  have cx1 := USrc.code_lt hx1
  have ex1 : UExt x1 (uniformWords [x1]) := UExt.of_same (sameUniform_one _) (by simp)
  obtain ⟨n, hn⟩ := uniformExt_of_same (xs := [x1]) (sameUniform_one _) (by simp [hx1])
  simp only [List.map] at hn
  have hb := fixed_FE001FFF hb
  have v0 : base / 2 ^ 25 % 2 ^ 7 < 2 ^ 7 := Nat.mod_lt _ (by decide)
  have v1 : base / 2 ^ 0 % 2 ^ 13 < 2 ^ 13 := Nat.mod_lt _ (by decide)
  generalize u0 : base / 2 ^ 25 % 2 ^ 7 = y0 at hb v0
  generalize u1 : base / 2 ^ 0 % 2 ^ 13 = y1 at hb v1
  unfold encN19U13
  have hn2 : (BitVec.ofNat 32 (base + x0 * 2 ^ 19 + x1.code * 2 ^ 13) : Word).toNat = base + x0 * 2 ^ 19 + x1.code * 2 ^ 13 := by
    rw [BitVec.toNat_ofNat]; exact Nat.mod_eq_of_lt (by omega)
  generalize hw : (BitVec.ofNat 32 (base + x0 * 2 ^ 19 + x1.code * 2 ^ 13) : Word) = w at hn2
  refine decode_of_row hr ?_ ?_ ?_ hi
  · rw [land_FE001FFF, hn2]; omega
  · unfold fld; rw [hn2]; omega
  · unfold decN19U13
    have f19 : fld w 19 6 = x0 := by unfold fld; rw [hn2]; omega
    have f13 : fld w 13 6 = x1.code := by unfold fld; rw [hn2]; omega
    rw [f19, f13, usrc_code hx1 ex1, hn]
    rfl

theorem rt_E19U13 {mk : UDst → USrc → Instr} {base : Nat} (x0 : UDst) (x1 : USrc)
    (hr : rowAt 0xFE001FFF base = some ⟨0xFE001FFF, base, decE19U13 mk⟩) (hb : base &&& 0xFE001FFF = base)
    (hx0 : x0.ok = true) (hx1 : x1.ok = true) (hi : (mk x0 x1).wf = true) :
    decode (encE19U13 base x0 x1) = .ok (mk x0 x1) := by
  have cx0 := UDst.code_lt hx0
  have cx1 := USrc.code_lt hx1
  have ex1 : UExt x1 (uniformWords [x1]) := UExt.of_same (sameUniform_one _) (by simp)
  obtain ⟨n, hn⟩ := uniformExt_of_same (xs := [x1]) (sameUniform_one _) (by simp [hx1])
  simp only [List.map] at hn
  have hb := fixed_FE001FFF hb
  have v0 : base / 2 ^ 25 % 2 ^ 7 < 2 ^ 7 := Nat.mod_lt _ (by decide)
  have v1 : base / 2 ^ 0 % 2 ^ 13 < 2 ^ 13 := Nat.mod_lt _ (by decide)
  generalize u0 : base / 2 ^ 25 % 2 ^ 7 = y0 at hb v0
  generalize u1 : base / 2 ^ 0 % 2 ^ 13 = y1 at hb v1
  unfold encE19U13
  have hn2 : (BitVec.ofNat 32 (base + x0.code * 2 ^ 19 + x1.code * 2 ^ 13) : Word).toNat = base + x0.code * 2 ^ 19 + x1.code * 2 ^ 13 := by
    rw [BitVec.toNat_ofNat]; exact Nat.mod_eq_of_lt (by omega)
  generalize hw : (BitVec.ofNat 32 (base + x0.code * 2 ^ 19 + x1.code * 2 ^ 13) : Word) = w at hn2
  refine decode_of_row hr ?_ ?_ ?_ hi
  · rw [land_FE001FFF, hn2]; omega
  · unfold fld; rw [hn2]; omega
  · unfold decE19U13
    have f19 : fld w 19 6 = x0.code := by unfold fld; rw [hn2]; omega
    have f13 : fld w 13 6 = x1.code := by unfold fld; rw [hn2]; omega
    rw [f19, f13, udst_code hx0, usrc_code hx1 ex1, hn]
    rfl

theorem rt_N19B18B17B16 {mk : Nat → Bool → Bool → Bool → Instr} {base : Nat} (x0 : Nat) (x1 : Bool) (x2 : Bool) (x3 : Bool)
    (hr : rowAt 0xFE00FFFF base = some ⟨0xFE00FFFF, base, decN19B18B17B16 mk⟩) (hb : base &&& 0xFE00FFFF = base)
    (hx0 : x0 < 64) (hi : (mk x0 x1 x2 x3).wf = true) :
    decode (encN19B18B17B16 base x0 x1 x2 x3) = .ok (mk x0 x1 x2 x3) := by
  have cx1 := Bool.toNat_le x1
  have cx2 := Bool.toNat_le x2
  have cx3 := Bool.toNat_le x3
  have hb := fixed_FE00FFFF hb
  have v0 : base / 2 ^ 25 % 2 ^ 7 < 2 ^ 7 := Nat.mod_lt _ (by decide)
  have v1 : base / 2 ^ 0 % 2 ^ 16 < 2 ^ 16 := Nat.mod_lt _ (by decide)
  generalize u0 : base / 2 ^ 25 % 2 ^ 7 = y0 at hb v0
  generalize u1 : base / 2 ^ 0 % 2 ^ 16 = y1 at hb v1
  unfold encN19B18B17B16
  have hn2 : (BitVec.ofNat 32 (base + x0 * 2 ^ 19 + x1.toNat * 2 ^ 18 + x2.toNat * 2 ^ 17 + x3.toNat * 2 ^ 16) : Word).toNat = base + x0 * 2 ^ 19 + x1.toNat * 2 ^ 18 + x2.toNat * 2 ^ 17 + x3.toNat * 2 ^ 16 := by
    rw [BitVec.toNat_ofNat]; exact Nat.mod_eq_of_lt (by omega)
  generalize hw : (BitVec.ofNat 32 (base + x0 * 2 ^ 19 + x1.toNat * 2 ^ 18 + x2.toNat * 2 ^ 17 + x3.toNat * 2 ^ 16) : Word) = w at hn2
  refine decode_of_row hr ?_ ?_ ?_ hi
  · rw [land_FE00FFFF, hn2]; omega
  · unfold fld; rw [hn2]; omega
  · unfold decN19B18B17B16
    have f19 : fld w 19 6 = x0 := by unfold fld; rw [hn2]; omega
    have f18 : fld w 18 1 = x1.toNat := by unfold fld; rw [hn2]; omega
    have f17 : fld w 17 1 = x2.toNat := by unfold fld; rw [hn2]; omega
    have f16 : fld w 16 1 = x3.toNat := by unfold fld; rw [hn2]; omega
    rw [f19, f18, f17, f16, toNat_beq_one, toNat_beq_one, toNat_beq_one]
    rfl

theorem rt_N19B18 {mk : Nat → Bool → Instr} {base : Nat} (x0 : Nat) (x1 : Bool)
    (hr : rowAt 0xFE03FFFF base = some ⟨0xFE03FFFF, base, decN19B18 mk⟩) (hb : base &&& 0xFE03FFFF = base)
    (hx0 : x0 < 64) (hi : (mk x0 x1).wf = true) :
    decode (encN19B18 base x0 x1) = .ok (mk x0 x1) := by
  have cx1 := Bool.toNat_le x1
  have hb := fixed_FE03FFFF hb
  have v0 : base / 2 ^ 25 % 2 ^ 7 < 2 ^ 7 := Nat.mod_lt _ (by decide)
  have v1 : base / 2 ^ 0 % 2 ^ 18 < 2 ^ 18 := Nat.mod_lt _ (by decide)
  generalize u0 : base / 2 ^ 25 % 2 ^ 7 = y0 at hb v0
  generalize u1 : base / 2 ^ 0 % 2 ^ 18 = y1 at hb v1
  unfold encN19B18
  have hn2 : (BitVec.ofNat 32 (base + x0 * 2 ^ 19 + x1.toNat * 2 ^ 18) : Word).toNat = base + x0 * 2 ^ 19 + x1.toNat * 2 ^ 18 := by
    rw [BitVec.toNat_ofNat]; exact Nat.mod_eq_of_lt (by omega)
  generalize hw : (BitVec.ofNat 32 (base + x0 * 2 ^ 19 + x1.toNat * 2 ^ 18) : Word) = w at hn2
  refine decode_of_row hr ?_ ?_ ?_ hi
  · rw [land_FE03FFFF, hn2]; omega
  · unfold fld; rw [hn2]; omega
  · unfold decN19B18
    have f19 : fld w 19 6 = x0 := by unfold fld; rw [hn2]; omega
    have f18 : fld w 18 1 = x1.toNat := by unfold fld; rw [hn2]; omega
    rw [f19, f18, toNat_beq_one]
    rfl

theorem rt_N23B22N16I0 {mk : Nat → Bool → Nat → BitVec 16 → Instr} {base : Nat} (x0 : Nat) (x1 : Bool) (x2 : Nat) (x3 : BitVec 16)
    (hr : rowAt 0xFE000000 base = some ⟨0xFE000000, base, decN23B22N16I0 mk⟩) (hb : base &&& 0xFE000000 = base)
    (hx0 : x0 < 4) (hx2 : x2 < 64) (hi : (mk x0 x1 x2 x3).wf = true) :
    decode (encN23B22N16I0 base x0 x1 x2 x3) = .ok (mk x0 x1 x2 x3) := by
  have cx1 := Bool.toNat_le x1
  have cx3 := x3.isLt
  have hb := fixed_FE000000 hb
  have v0 : base / 2 ^ 25 % 2 ^ 7 < 2 ^ 7 := Nat.mod_lt _ (by decide)
  generalize u0 : base / 2 ^ 25 % 2 ^ 7 = y0 at hb v0
  unfold encN23B22N16I0
  have hn2 : (BitVec.ofNat 32 (base + x0 * 2 ^ 23 + x1.toNat * 2 ^ 22 + x2 * 2 ^ 16 + x3.toNat * 2 ^ 0) : Word).toNat = base + x0 * 2 ^ 23 + x1.toNat * 2 ^ 22 + x2 * 2 ^ 16 + x3.toNat * 2 ^ 0 := by
    rw [BitVec.toNat_ofNat]; exact Nat.mod_eq_of_lt (by omega)
  generalize hw : (BitVec.ofNat 32 (base + x0 * 2 ^ 23 + x1.toNat * 2 ^ 22 + x2 * 2 ^ 16 + x3.toNat * 2 ^ 0) : Word) = w at hn2
  refine decode_of_row hr ?_ ?_ ?_ hi
  · rw [land_FE000000, hn2]; omega
  · unfold fld; rw [hn2]; omega
  · unfold decN23B22N16I0
    have f23 : fld w 23 2 = x0 := by unfold fld; rw [hn2]; omega
    have f22 : fld w 22 1 = x1.toNat := by unfold fld; rw [hn2]; omega
    have f16 : fld w 16 6 = x2 := by unfold fld; rw [hn2]; omega
    have f0 : fld w 0 16 = x3.toNat := by unfold fld; rw [hn2]; omega
    rw [f23, f22, f16, f0, toNat_beq_one, ofNat_self]
    rfl

theorem rt_U19N13U7 {mk : USrc → Nat → USrc → Instr} {base : Nat} (x0 : USrc) (x1 : Nat) (x2 : USrc)
    (hr : rowAt 0xFE00007F base = some ⟨0xFE00007F, base, decU19N13U7 mk⟩) (hb : base &&& 0xFE00007F = base)
    (hx0 : x0.ok = true) (hx1 : x1 < 64) (hx2 : x2.ok = true) (hs : sameUniform [x0, x2] = true) (hi : (mk x0 x1 x2).wf = true) :
    decode (encU19N13U7 base x0 x1 x2) = .ok (mk x0 x1 x2) := by
  have cx0 := USrc.code_lt hx0
  have cx2 := USrc.code_lt hx2
  have ex0 : UExt x0 (uniformWords [x0, x2]) := UExt.of_same hs (by simp)
  have ex2 : UExt x2 (uniformWords [x0, x2]) := UExt.of_same hs (by simp)
  obtain ⟨n, hn⟩ := uniformExt_of_same (xs := [x0, x2]) hs (by simp [hx0, hx2])
  simp only [List.map] at hn
  have hb := fixed_FE00007F hb
  have v0 : base / 2 ^ 25 % 2 ^ 7 < 2 ^ 7 := Nat.mod_lt _ (by decide)
  have v1 : base / 2 ^ 0 % 2 ^ 7 < 2 ^ 7 := Nat.mod_lt _ (by decide)
  generalize u0 : base / 2 ^ 25 % 2 ^ 7 = y0 at hb v0
  generalize u1 : base / 2 ^ 0 % 2 ^ 7 = y1 at hb v1
  unfold encU19N13U7
  have hn2 : (BitVec.ofNat 32 (base + x0.code * 2 ^ 19 + x1 * 2 ^ 13 + x2.code * 2 ^ 7) : Word).toNat = base + x0.code * 2 ^ 19 + x1 * 2 ^ 13 + x2.code * 2 ^ 7 := by
    rw [BitVec.toNat_ofNat]; exact Nat.mod_eq_of_lt (by omega)
  generalize hw : (BitVec.ofNat 32 (base + x0.code * 2 ^ 19 + x1 * 2 ^ 13 + x2.code * 2 ^ 7) : Word) = w at hn2
  refine decode_of_row hr ?_ ?_ ?_ hi
  · rw [land_FE00007F, hn2]; omega
  · unfold fld; rw [hn2]; omega
  · unfold decU19N13U7
    have f19 : fld w 19 6 = x0.code := by unfold fld; rw [hn2]; omega
    have f13 : fld w 13 6 = x1 := by unfold fld; rw [hn2]; omega
    have f7 : fld w 7 6 = x2.code := by unfold fld; rw [hn2]; omega
    rw [f19, f13, f7, usrc_code hx0 ex0, usrc_code hx2 ex2, hn]
    rfl

theorem rt_N19U13U7B4 {mk : Nat → USrc → USrc → Bool → Instr} {base : Nat} (x0 : Nat) (x1 : USrc) (x2 : USrc) (x3 : Bool)
    (hr : rowAt 0xFE00006F base = some ⟨0xFE00006F, base, decN19U13U7B4 mk⟩) (hb : base &&& 0xFE00006F = base)
    (hx0 : x0 < 64) (hx1 : x1.ok = true) (hx2 : x2.ok = true) (hs : sameUniform [x1, x2] = true) (hi : (mk x0 x1 x2 x3).wf = true) :
    decode (encN19U13U7B4 base x0 x1 x2 x3) = .ok (mk x0 x1 x2 x3) := by
  have cx1 := USrc.code_lt hx1
  have cx2 := USrc.code_lt hx2
  have cx3 := Bool.toNat_le x3
  have ex1 : UExt x1 (uniformWords [x1, x2]) := UExt.of_same hs (by simp)
  have ex2 : UExt x2 (uniformWords [x1, x2]) := UExt.of_same hs (by simp)
  obtain ⟨n, hn⟩ := uniformExt_of_same (xs := [x1, x2]) hs (by simp [hx1, hx2])
  simp only [List.map] at hn
  have hb := fixed_FE00006F hb
  have v0 : base / 2 ^ 25 % 2 ^ 7 < 2 ^ 7 := Nat.mod_lt _ (by decide)
  have v1 : base / 2 ^ 5 % 2 ^ 2 < 2 ^ 2 := Nat.mod_lt _ (by decide)
  have v2 : base / 2 ^ 0 % 2 ^ 4 < 2 ^ 4 := Nat.mod_lt _ (by decide)
  generalize u0 : base / 2 ^ 25 % 2 ^ 7 = y0 at hb v0
  generalize u1 : base / 2 ^ 5 % 2 ^ 2 = y1 at hb v1
  generalize u2 : base / 2 ^ 0 % 2 ^ 4 = y2 at hb v2
  unfold encN19U13U7B4
  have hn2 : (BitVec.ofNat 32 (base + x0 * 2 ^ 19 + x1.code * 2 ^ 13 + x2.code * 2 ^ 7 + x3.toNat * 2 ^ 4) : Word).toNat = base + x0 * 2 ^ 19 + x1.code * 2 ^ 13 + x2.code * 2 ^ 7 + x3.toNat * 2 ^ 4 := by
    rw [BitVec.toNat_ofNat]; exact Nat.mod_eq_of_lt (by omega)
  generalize hw : (BitVec.ofNat 32 (base + x0 * 2 ^ 19 + x1.code * 2 ^ 13 + x2.code * 2 ^ 7 + x3.toNat * 2 ^ 4) : Word) = w at hn2
  refine decode_of_row hr ?_ ?_ ?_ hi
  · rw [land_FE00006F, hn2]; omega
  · unfold fld; rw [hn2]; omega
  · unfold decN19U13U7B4
    have f19 : fld w 19 6 = x0 := by unfold fld; rw [hn2]; omega
    have f13 : fld w 13 6 = x1.code := by unfold fld; rw [hn2]; omega
    have f7 : fld w 7 6 = x2.code := by unfold fld; rw [hn2]; omega
    have f4 : fld w 4 1 = x3.toNat := by unfold fld; rw [hn2]; omega
    rw [f19, f13, f7, f4, usrc_code hx1 ex1, usrc_code hx2 ex2, hn, toNat_beq_one]
    rfl

theorem rt_N19U13U7B4B3 {mk : Nat → USrc → USrc → Bool → Bool → Instr} {base : Nat} (x0 : Nat) (x1 : USrc) (x2 : USrc) (x3 : Bool) (x4 : Bool)
    (hr : rowAt 0xFE000067 base = some ⟨0xFE000067, base, decN19U13U7B4B3 mk⟩) (hb : base &&& 0xFE000067 = base)
    (hx0 : x0 < 64) (hx1 : x1.ok = true) (hx2 : x2.ok = true) (hs : sameUniform [x1, x2] = true) (hi : (mk x0 x1 x2 x3 x4).wf = true) :
    decode (encN19U13U7B4B3 base x0 x1 x2 x3 x4) = .ok (mk x0 x1 x2 x3 x4) := by
  have cx1 := USrc.code_lt hx1
  have cx2 := USrc.code_lt hx2
  have cx3 := Bool.toNat_le x3
  have cx4 := Bool.toNat_le x4
  have ex1 : UExt x1 (uniformWords [x1, x2]) := UExt.of_same hs (by simp)
  have ex2 : UExt x2 (uniformWords [x1, x2]) := UExt.of_same hs (by simp)
  obtain ⟨n, hn⟩ := uniformExt_of_same (xs := [x1, x2]) hs (by simp [hx1, hx2])
  simp only [List.map] at hn
  have hb := fixed_FE000067 hb
  have v0 : base / 2 ^ 25 % 2 ^ 7 < 2 ^ 7 := Nat.mod_lt _ (by decide)
  have v1 : base / 2 ^ 5 % 2 ^ 2 < 2 ^ 2 := Nat.mod_lt _ (by decide)
  have v2 : base / 2 ^ 0 % 2 ^ 3 < 2 ^ 3 := Nat.mod_lt _ (by decide)
  generalize u0 : base / 2 ^ 25 % 2 ^ 7 = y0 at hb v0
  generalize u1 : base / 2 ^ 5 % 2 ^ 2 = y1 at hb v1
  generalize u2 : base / 2 ^ 0 % 2 ^ 3 = y2 at hb v2
  unfold encN19U13U7B4B3
  have hn2 : (BitVec.ofNat 32 (base + x0 * 2 ^ 19 + x1.code * 2 ^ 13 + x2.code * 2 ^ 7 + x3.toNat * 2 ^ 4 + x4.toNat * 2 ^ 3) : Word).toNat = base + x0 * 2 ^ 19 + x1.code * 2 ^ 13 + x2.code * 2 ^ 7 + x3.toNat * 2 ^ 4 + x4.toNat * 2 ^ 3 := by
    rw [BitVec.toNat_ofNat]; exact Nat.mod_eq_of_lt (by omega)
  generalize hw : (BitVec.ofNat 32 (base + x0 * 2 ^ 19 + x1.code * 2 ^ 13 + x2.code * 2 ^ 7 + x3.toNat * 2 ^ 4 + x4.toNat * 2 ^ 3) : Word) = w at hn2
  refine decode_of_row hr ?_ ?_ ?_ hi
  · rw [land_FE000067, hn2]; omega
  · unfold fld; rw [hn2]; omega
  · unfold decN19U13U7B4B3
    have f19 : fld w 19 6 = x0 := by unfold fld; rw [hn2]; omega
    have f13 : fld w 13 6 = x1.code := by unfold fld; rw [hn2]; omega
    have f7 : fld w 7 6 = x2.code := by unfold fld; rw [hn2]; omega
    have f4 : fld w 4 1 = x3.toNat := by unfold fld; rw [hn2]; omega
    have f3 : fld w 3 1 = x4.toNat := by unfold fld; rw [hn2]; omega
    rw [f19, f13, f7, f4, f3, usrc_code hx1 ex1, usrc_code hx2 ex2, hn, toNat_beq_one, toNat_beq_one]
    rfl

theorem rt_N19U13U7 {mk : Nat → USrc → USrc → Instr} {base : Nat} (x0 : Nat) (x1 : USrc) (x2 : USrc)
    (hr : rowAt 0xFE00007F base = some ⟨0xFE00007F, base, decN19U13U7 mk⟩) (hb : base &&& 0xFE00007F = base)
    (hx0 : x0 < 64) (hx1 : x1.ok = true) (hx2 : x2.ok = true) (hs : sameUniform [x1, x2] = true) (hi : (mk x0 x1 x2).wf = true) :
    decode (encN19U13U7 base x0 x1 x2) = .ok (mk x0 x1 x2) := by
  have cx1 := USrc.code_lt hx1
  have cx2 := USrc.code_lt hx2
  have ex1 : UExt x1 (uniformWords [x1, x2]) := UExt.of_same hs (by simp)
  have ex2 : UExt x2 (uniformWords [x1, x2]) := UExt.of_same hs (by simp)
  obtain ⟨n, hn⟩ := uniformExt_of_same (xs := [x1, x2]) hs (by simp [hx1, hx2])
  simp only [List.map] at hn
  have hb := fixed_FE00007F hb
  have v0 : base / 2 ^ 25 % 2 ^ 7 < 2 ^ 7 := Nat.mod_lt _ (by decide)
  have v1 : base / 2 ^ 0 % 2 ^ 7 < 2 ^ 7 := Nat.mod_lt _ (by decide)
  generalize u0 : base / 2 ^ 25 % 2 ^ 7 = y0 at hb v0
  generalize u1 : base / 2 ^ 0 % 2 ^ 7 = y1 at hb v1
  unfold encN19U13U7
  have hn2 : (BitVec.ofNat 32 (base + x0 * 2 ^ 19 + x1.code * 2 ^ 13 + x2.code * 2 ^ 7) : Word).toNat = base + x0 * 2 ^ 19 + x1.code * 2 ^ 13 + x2.code * 2 ^ 7 := by
    rw [BitVec.toNat_ofNat]; exact Nat.mod_eq_of_lt (by omega)
  generalize hw : (BitVec.ofNat 32 (base + x0 * 2 ^ 19 + x1.code * 2 ^ 13 + x2.code * 2 ^ 7) : Word) = w at hn2
  refine decode_of_row hr ?_ ?_ ?_ hi
  · rw [land_FE00007F, hn2]; omega
  · unfold fld; rw [hn2]; omega
  · unfold decN19U13U7
    have f19 : fld w 19 6 = x0 := by unfold fld; rw [hn2]; omega
    have f13 : fld w 13 6 = x1.code := by unfold fld; rw [hn2]; omega
    have f7 : fld w 7 6 = x2.code := by unfold fld; rw [hn2]; omega
    rw [f19, f13, f7, usrc_code hx1 ex1, usrc_code hx2 ex2, hn]
    rfl

theorem rt_U19U13U7 {mk : USrc → USrc → USrc → Instr} {base : Nat} (x0 : USrc) (x1 : USrc) (x2 : USrc)
    (hr : rowAt 0xFE00007F base = some ⟨0xFE00007F, base, decU19U13U7 mk⟩) (hb : base &&& 0xFE00007F = base)
    (hx0 : x0.ok = true) (hx1 : x1.ok = true) (hx2 : x2.ok = true) (hs : sameUniform [x0, x1, x2] = true) (hi : (mk x0 x1 x2).wf = true) :
    decode (encU19U13U7 base x0 x1 x2) = .ok (mk x0 x1 x2) := by
  have cx0 := USrc.code_lt hx0
  have cx1 := USrc.code_lt hx1
  have cx2 := USrc.code_lt hx2
  have ex0 : UExt x0 (uniformWords [x0, x1, x2]) := UExt.of_same hs (by simp)
  have ex1 : UExt x1 (uniformWords [x0, x1, x2]) := UExt.of_same hs (by simp)
  have ex2 : UExt x2 (uniformWords [x0, x1, x2]) := UExt.of_same hs (by simp)
  obtain ⟨n, hn⟩ := uniformExt_of_same (xs := [x0, x1, x2]) hs (by simp [hx0, hx1, hx2])
  simp only [List.map] at hn
  have hb := fixed_FE00007F hb
  have v0 : base / 2 ^ 25 % 2 ^ 7 < 2 ^ 7 := Nat.mod_lt _ (by decide)
  have v1 : base / 2 ^ 0 % 2 ^ 7 < 2 ^ 7 := Nat.mod_lt _ (by decide)
  generalize u0 : base / 2 ^ 25 % 2 ^ 7 = y0 at hb v0
  generalize u1 : base / 2 ^ 0 % 2 ^ 7 = y1 at hb v1
  unfold encU19U13U7
  have hn2 : (BitVec.ofNat 32 (base + x0.code * 2 ^ 19 + x1.code * 2 ^ 13 + x2.code * 2 ^ 7) : Word).toNat = base + x0.code * 2 ^ 19 + x1.code * 2 ^ 13 + x2.code * 2 ^ 7 := by
    rw [BitVec.toNat_ofNat]; exact Nat.mod_eq_of_lt (by omega)
  generalize hw : (BitVec.ofNat 32 (base + x0.code * 2 ^ 19 + x1.code * 2 ^ 13 + x2.code * 2 ^ 7) : Word) = w at hn2
  refine decode_of_row hr ?_ ?_ ?_ hi
  · rw [land_FE00007F, hn2]; omega
  · unfold fld; rw [hn2]; omega
  · unfold decU19U13U7
    have f19 : fld w 19 6 = x0.code := by unfold fld; rw [hn2]; omega
    have f13 : fld w 13 6 = x1.code := by unfold fld; rw [hn2]; omega
    have f7 : fld w 7 6 = x2.code := by unfold fld; rw [hn2]; omega
    rw [f19, f13, f7, usrc_code hx0 ex0, usrc_code hx1 ex1, usrc_code hx2 ex2, hn]
    rfl

theorem rt_U19N13 {mk : USrc → Nat → Instr} {base : Nat} (x0 : USrc) (x1 : Nat)
    (hr : rowAt 0xFE001FFF base = some ⟨0xFE001FFF, base, decU19N13 mk⟩) (hb : base &&& 0xFE001FFF = base)
    (hx0 : x0.ok = true) (hx1 : x1 < 64) (hi : (mk x0 x1).wf = true) :
    decode (encU19N13 base x0 x1) = .ok (mk x0 x1) := by
  have cx0 := USrc.code_lt hx0
  have ex0 : UExt x0 (uniformWords [x0]) := UExt.of_same (sameUniform_one _) (by simp)
  obtain ⟨n, hn⟩ := uniformExt_of_same (xs := [x0]) (sameUniform_one _) (by simp [hx0])
  simp only [List.map] at hn
  have hb := fixed_FE001FFF hb
  have v0 : base / 2 ^ 25 % 2 ^ 7 < 2 ^ 7 := Nat.mod_lt _ (by decide)
  have v1 : base / 2 ^ 0 % 2 ^ 13 < 2 ^ 13 := Nat.mod_lt _ (by decide)
  generalize u0 : base / 2 ^ 25 % 2 ^ 7 = y0 at hb v0
  generalize u1 : base / 2 ^ 0 % 2 ^ 13 = y1 at hb v1
  unfold encU19N13
  have hn2 : (BitVec.ofNat 32 (base + x0.code * 2 ^ 19 + x1 * 2 ^ 13) : Word).toNat = base + x0.code * 2 ^ 19 + x1 * 2 ^ 13 := by
    rw [BitVec.toNat_ofNat]; exact Nat.mod_eq_of_lt (by omega)
  generalize hw : (BitVec.ofNat 32 (base + x0.code * 2 ^ 19 + x1 * 2 ^ 13) : Word) = w at hn2
  refine decode_of_row hr ?_ ?_ ?_ hi
  · rw [land_FE001FFF, hn2]; omega
  · unfold fld; rw [hn2]; omega
  · unfold decU19N13
    have f19 : fld w 19 6 = x0.code := by unfold fld; rw [hn2]; omega
    have f13 : fld w 13 6 = x1 := by unfold fld; rw [hn2]; omega
    rw [f19, f13, usrc_code hx0 ex0, hn]
    rfl

theorem rt_U19U13E7 {mk : USrc → USrc → UDst → Instr} {base : Nat} (x0 : USrc) (x1 : USrc) (x2 : UDst)
    (hr : rowAt 0xFE00007F base = some ⟨0xFE00007F, base, decU19U13E7 mk⟩) (hb : base &&& 0xFE00007F = base)
    (hx0 : x0.ok = true) (hx1 : x1.ok = true) (hx2 : x2.ok = true) (hs : sameUniform [x0, x1] = true) (hi : (mk x0 x1 x2).wf = true) :
    decode (encU19U13E7 base x0 x1 x2) = .ok (mk x0 x1 x2) := by
  have cx0 := USrc.code_lt hx0
  have cx1 := USrc.code_lt hx1
  have cx2 := UDst.code_lt hx2
  have ex0 : UExt x0 (uniformWords [x0, x1]) := UExt.of_same hs (by simp)
  have ex1 : UExt x1 (uniformWords [x0, x1]) := UExt.of_same hs (by simp)
  obtain ⟨n, hn⟩ := uniformExt_of_same (xs := [x0, x1]) hs (by simp [hx0, hx1])
  simp only [List.map] at hn
  have hb := fixed_FE00007F hb
  have v0 : base / 2 ^ 25 % 2 ^ 7 < 2 ^ 7 := Nat.mod_lt _ (by decide)
  have v1 : base / 2 ^ 0 % 2 ^ 7 < 2 ^ 7 := Nat.mod_lt _ (by decide)
  generalize u0 : base / 2 ^ 25 % 2 ^ 7 = y0 at hb v0
  generalize u1 : base / 2 ^ 0 % 2 ^ 7 = y1 at hb v1
  unfold encU19U13E7
  have hn2 : (BitVec.ofNat 32 (base + x0.code * 2 ^ 19 + x1.code * 2 ^ 13 + x2.code * 2 ^ 7) : Word).toNat = base + x0.code * 2 ^ 19 + x1.code * 2 ^ 13 + x2.code * 2 ^ 7 := by
    rw [BitVec.toNat_ofNat]; exact Nat.mod_eq_of_lt (by omega)
  generalize hw : (BitVec.ofNat 32 (base + x0.code * 2 ^ 19 + x1.code * 2 ^ 13 + x2.code * 2 ^ 7) : Word) = w at hn2
  refine decode_of_row hr ?_ ?_ ?_ hi
  · rw [land_FE00007F, hn2]; omega
  · unfold fld; rw [hn2]; omega
  · unfold decU19U13E7
    have f19 : fld w 19 6 = x0.code := by unfold fld; rw [hn2]; omega
    have f13 : fld w 13 6 = x1.code := by unfold fld; rw [hn2]; omega
    have f7 : fld w 7 6 = x2.code := by unfold fld; rw [hn2]; omega
    rw [f19, f13, f7, usrc_code hx0 ex0, usrc_code hx1 ex1, udst_code hx2, hn]
    rfl

theorem rt_U13 {mk : USrc → Instr} {base : Nat} (x0 : USrc)
    (hr : rowAt 0xFFF81FFF base = some ⟨0xFFF81FFF, base, decU13 mk⟩) (hb : base &&& 0xFFF81FFF = base)
    (hx0 : x0.ok = true) (hi : (mk x0).wf = true) :
    decode (encU13 base x0) = .ok (mk x0) := by
  have cx0 := USrc.code_lt hx0
  have ex0 : UExt x0 (uniformWords [x0]) := UExt.of_same (sameUniform_one _) (by simp)
  obtain ⟨n, hn⟩ := uniformExt_of_same (xs := [x0]) (sameUniform_one _) (by simp [hx0])
  simp only [List.map] at hn
  have hb := fixed_FFF81FFF hb
  have v0 : base / 2 ^ 19 % 2 ^ 13 < 2 ^ 13 := Nat.mod_lt _ (by decide)
  have v1 : base / 2 ^ 0 % 2 ^ 13 < 2 ^ 13 := Nat.mod_lt _ (by decide)
  generalize u0 : base / 2 ^ 19 % 2 ^ 13 = y0 at hb v0
  generalize u1 : base / 2 ^ 0 % 2 ^ 13 = y1 at hb v1
  unfold encU13
  have hn2 : (BitVec.ofNat 32 (base + x0.code * 2 ^ 13) : Word).toNat = base + x0.code * 2 ^ 13 := by
    rw [BitVec.toNat_ofNat]; exact Nat.mod_eq_of_lt (by omega)
  generalize hw : (BitVec.ofNat 32 (base + x0.code * 2 ^ 13) : Word) = w at hn2
  refine decode_of_row hr ?_ ?_ ?_ hi
  · rw [land_FFF81FFF, hn2]; omega
  · unfold fld; rw [hn2]; omega
  · unfold decU13
    have f13 : fld w 13 6 = x0.code := by unfold fld; rw [hn2]; omega
    rw [f13, usrc_code hx0 ex0, hn]
    rfl

theorem rt_E19U13U7 {mk : UDst → USrc → USrc → Instr} {base : Nat} (x0 : UDst) (x1 : USrc) (x2 : USrc)
    (hr : rowAt 0xFE00007F base = some ⟨0xFE00007F, base, decE19U13U7 mk⟩) (hb : base &&& 0xFE00007F = base)
    (hx0 : x0.ok = true) (hx1 : x1.ok = true) (hx2 : x2.ok = true) (hs : sameUniform [x1, x2] = true) (hi : (mk x0 x1 x2).wf = true) :
    decode (encE19U13U7 base x0 x1 x2) = .ok (mk x0 x1 x2) := by
  have cx0 := UDst.code_lt hx0
  have cx1 := USrc.code_lt hx1
  have cx2 := USrc.code_lt hx2
  have ex1 : UExt x1 (uniformWords [x1, x2]) := UExt.of_same hs (by simp)
  have ex2 : UExt x2 (uniformWords [x1, x2]) := UExt.of_same hs (by simp)
  obtain ⟨n, hn⟩ := uniformExt_of_same (xs := [x1, x2]) hs (by simp [hx1, hx2])
  simp only [List.map] at hn
  have hb := fixed_FE00007F hb
  have v0 : base / 2 ^ 25 % 2 ^ 7 < 2 ^ 7 := Nat.mod_lt _ (by decide)
  have v1 : base / 2 ^ 0 % 2 ^ 7 < 2 ^ 7 := Nat.mod_lt _ (by decide)
  generalize u0 : base / 2 ^ 25 % 2 ^ 7 = y0 at hb v0
  generalize u1 : base / 2 ^ 0 % 2 ^ 7 = y1 at hb v1
  unfold encE19U13U7
  have hn2 : (BitVec.ofNat 32 (base + x0.code * 2 ^ 19 + x1.code * 2 ^ 13 + x2.code * 2 ^ 7) : Word).toNat = base + x0.code * 2 ^ 19 + x1.code * 2 ^ 13 + x2.code * 2 ^ 7 := by
    rw [BitVec.toNat_ofNat]; exact Nat.mod_eq_of_lt (by omega)
  generalize hw : (BitVec.ofNat 32 (base + x0.code * 2 ^ 19 + x1.code * 2 ^ 13 + x2.code * 2 ^ 7) : Word) = w at hn2
  refine decode_of_row hr ?_ ?_ ?_ hi
  · rw [land_FE00007F, hn2]; omega
  · unfold fld; rw [hn2]; omega
  · unfold decE19U13U7
    have f19 : fld w 19 6 = x0.code := by unfold fld; rw [hn2]; omega
    have f13 : fld w 13 6 = x1.code := by unfold fld; rw [hn2]; omega
    have f7 : fld w 7 6 = x2.code := by unfold fld; rw [hn2]; omega
    rw [f19, f13, f7, udst_code hx0, usrc_code hx1 ex1, usrc_code hx2 ex2, hn]
    rfl

theorem rt_E19N13 {mk : UDst → Nat → Instr} {base : Nat} (x0 : UDst) (x1 : Nat)
    (hr : rowAt 0xFE001FFF base = some ⟨0xFE001FFF, base, decE19N13 mk⟩) (hb : base &&& 0xFE001FFF = base)
    (hx0 : x0.ok = true) (hx1 : x1 < 64) (hi : (mk x0 x1).wf = true) :
    decode (encE19N13 base x0 x1) = .ok (mk x0 x1) := by
  have cx0 := UDst.code_lt hx0
  have hb := fixed_FE001FFF hb
  have v0 : base / 2 ^ 25 % 2 ^ 7 < 2 ^ 7 := Nat.mod_lt _ (by decide)
  have v1 : base / 2 ^ 0 % 2 ^ 13 < 2 ^ 13 := Nat.mod_lt _ (by decide)
  generalize u0 : base / 2 ^ 25 % 2 ^ 7 = y0 at hb v0
  generalize u1 : base / 2 ^ 0 % 2 ^ 13 = y1 at hb v1
  unfold encE19N13
  have hn2 : (BitVec.ofNat 32 (base + x0.code * 2 ^ 19 + x1 * 2 ^ 13) : Word).toNat = base + x0.code * 2 ^ 19 + x1 * 2 ^ 13 := by
    rw [BitVec.toNat_ofNat]; exact Nat.mod_eq_of_lt (by omega)
  generalize hw : (BitVec.ofNat 32 (base + x0.code * 2 ^ 19 + x1 * 2 ^ 13) : Word) = w at hn2
  refine decode_of_row hr ?_ ?_ ?_ hi
  · rw [land_FE001FFF, hn2]; omega
  · unfold fld; rw [hn2]; omega
  · unfold decE19N13
    have f19 : fld w 19 6 = x0.code := by unfold fld; rw [hn2]; omega
    have f13 : fld w 13 6 = x1 := by unfold fld; rw [hn2]; omega
    rw [f19, f13, udst_code hx0]
    rfl

end Sys2Proof.Laws
end

