-- ==== Sys2Proof/Laws/State.lean ====
section
/-! SUPPORT. What every named update leaves of every field, so that no proof unfolds a record update. -/

namespace Sys2Proof.Machine

/-! ### Parts of the state -/

@[simp] theorem State.setCore_powered (s : State) (n : Nat) (k : Core) : (s.setCore n k).powered = s.powered := rfl

@[simp] theorem State.setCore_frozen (s : State) (n : Nat) (k : Core) : (s.setCore n k).frozen = s.frozen := rfl

@[simp] theorem State.setCore_booted (s : State) (n : Nat) (k : Core) : (s.setCore n k).booted = s.booted := rfl

@[simp] theorem State.setCore_stroke (s : State) (n : Nat) (k : Core) : (s.setCore n k).stroke = s.stroke := rfl

@[simp] theorem State.setCore_mem (s : State) (n : Nat) (k : Core) : (s.setCore n k).mem = s.mem := rfl

@[simp] theorem State.setCore_tags (s : State) (n : Nat) (k : Core) : (s.setCore n k).tags = s.tags := rfl

@[simp] theorem State.setCore_hostMem (s : State) (n : Nat) (k : Core) : (s.setCore n k).hostMem = s.hostMem := rfl

@[simp] theorem State.setCore_bad (s : State) (n : Nat) (k : Core) : (s.setCore n k).bad = s.bad := rfl

@[simp] theorem State.setCore_troots (s : State) (n : Nat) (k : Core) : (s.setCore n k).troots = s.troots := rfl

@[simp] theorem State.setCore_devid (s : State) (n : Nat) (k : Core) : (s.setCore n k).devid = s.devid := rfl

@[simp] theorem State.setCore_wrsel (s : State) (n : Nat) (k : Core) : (s.setCore n k).wrsel = s.wrsel := rfl

@[simp] theorem State.setCore_routes (s : State) (n : Nat) (k : Core) : (s.setCore n k).routes = s.routes := rfl

@[simp] theorem State.setCore_lostLinks (s : State) (n : Nat) (k : Core) : (s.setCore n k).lostLinks = s.lostLinks := rfl

@[simp] theorem State.setCore_cores (s : State) (n : Nat) (k : Core) : (s.setCore n k).cores = tset s.cores n k := rfl

@[simp] theorem State.setCore_teams (s : State) (n : Nat) (k : Core) : (s.setCore n k).teams = s.teams := rfl

@[simp] theorem State.setCore_saved (s : State) (n : Nat) (k : Core) : (s.setCore n k).saved = s.saved := rfl

@[simp] theorem State.setCore_groups (s : State) (n : Nat) (k : Core) : (s.setCore n k).groups = s.groups := rfl

@[simp] theorem State.setCore_calls (s : State) (n : Nat) (k : Core) : (s.setCore n k).calls = s.calls := rfl

@[simp] theorem State.setCore_dies (s : State) (n : Nat) (k : Core) : (s.setCore n k).dies = s.dies := rfl

@[simp] theorem State.setCore_arb (s : State) (n : Nat) (k : Core) : (s.setCore n k).arb = s.arb := rfl

@[simp] theorem State.setCore_arbLast (s : State) (n : Nat) (k : Core) : (s.setCore n k).arbLast = s.arbLast := rfl

@[simp] theorem State.setCore_wotisOut (s : State) (n : Nat) (k : Core) : (s.setCore n k).wotisOut = s.wotisOut := rfl

@[simp] theorem State.setCore_wotisSeq (s : State) (n : Nat) (k : Core) : (s.setCore n k).wotisSeq = s.wotisSeq := rfl

@[simp] theorem State.setCore_peerWaits (s : State) (n : Nat) (k : Core) : (s.setCore n k).peerWaits = s.peerWaits := rfl

@[simp] theorem State.setCore_rsBuf (s : State) (n : Nat) (k : Core) : (s.setCore n k).rsBuf = s.rsBuf := rfl

@[simp] theorem State.setCore_rsSize (s : State) (n : Nat) (k : Core) : (s.setCore n k).rsSize = s.rsSize := rfl

@[simp] theorem State.setCore_rsStat (s : State) (n : Nat) (k : Core) : (s.setCore n k).rsStat = s.rsStat := rfl

@[simp] theorem State.setCore_rsAddr (s : State) (n : Nat) (k : Core) : (s.setCore n k).rsAddr = s.rsAddr := rfl

@[simp] theorem State.setCore_rsLen (s : State) (n : Nat) (k : Core) : (s.setCore n k).rsLen = s.rsLen := rfl

@[simp] theorem State.setCore_evStatus (s : State) (n : Nat) (k : Core) : (s.setCore n k).evStatus = s.evStatus := rfl

@[simp] theorem State.setCore_evEnable (s : State) (n : Nat) (k : Core) : (s.setCore n k).evEnable = s.evEnable := rfl

@[simp] theorem State.setCore_cxlio (s : State) (n : Nat) (k : Core) : (s.setCore n k).cxlio = s.cxlio := rfl

@[simp] theorem State.setCore_mailbox (s : State) (n : Nat) (k : Core) : (s.setCore n k).mailbox = s.mailbox := rfl

@[simp] theorem State.setCore_boxStat (s : State) (n : Nat) (k : Core) : (s.setCore n k).boxStat = s.boxStat := rfl

@[simp] theorem State.setCore_image (s : State) (n : Nat) (k : Core) : (s.setCore n k).image = s.image := rfl

@[simp] theorem State.setCore_msix (s : State) (n : Nat) (k : Core) : (s.setCore n k).msix = s.msix := rfl

@[simp] theorem State.setCore_sent (s : State) (n : Nat) (k : Core) : (s.setCore n k).sent = s.sent := rfl

@[simp] theorem State.setCore_nonce (s : State) (n : Nat) (k : Core) : (s.setCore n k).nonce = s.nonce := rfl

@[simp] theorem State.setCore_report (s : State) (n : Nat) (k : Core) : (s.setCore n k).report = s.report := rfl

@[simp] theorem State.setCore_power (s : State) (n : Nat) (k : Core) : (s.setCore n k).power = s.power := rfl

@[simp] theorem State.setCore_alert (s : State) (n : Nat) (k : Core) : (s.setCore n k).alert = s.alert := rfl

@[simp] theorem State.setCore_hostRead (s : State) (n : Nat) (k : Core) : (s.setCore n k).hostRead = s.hostRead := rfl

@[simp] theorem State.setCore_hostWaits (s : State) (n : Nat) (k : Core) : (s.setCore n k).hostWaits = s.hostWaits := rfl

@[simp] theorem State.setCore_windows (s : State) (n : Nat) (k : Core) : (s.setCore n k).windows = s.windows := rfl

@[simp] theorem State.setCore_ir (s : State) (n : Nat) (k : Core) : (s.setCore n k).ir = s.ir := rfl

@[simp] theorem State.setCore_daddr (s : State) (n : Nat) (k : Core) : (s.setCore n k).daddr = s.daddr := rfl

@[simp] theorem State.setCore_dr (s : State) (n : Nat) (k : Core) : (s.setCore n k).dr = s.dr := rfl

@[simp] theorem State.setCore_dvalid (s : State) (n : Nat) (k : Core) : (s.setCore n k).dvalid = s.dvalid := rfl

@[simp] theorem State.setCore_dtag (s : State) (n : Nat) (k : Core) : (s.setCore n k).dtag = s.dtag := rfl

@[simp] theorem State.setCore_derror (s : State) (n : Nat) (k : Core) : (s.setCore n k).derror = s.derror := rfl

@[simp] theorem State.setCore_scOrder (s : State) (n : Nat) (k : Core) : (s.setCore n k).scOrder = s.scOrder := rfl

@[simp] theorem State.setCore_agenda (s : State) (n : Nat) (k : Core) : (s.setCore n k).agenda = s.agenda := rfl

@[simp] theorem State.setCore_fresh (s : State) (n : Nat) (k : Core) : (s.setCore n k).fresh = s.fresh := rfl

@[simp] theorem State.setCore_nextId (s : State) (n : Nat) (k : Core) : (s.setCore n k).nextId = s.nextId := rfl

@[simp] theorem State.setCore_cur (s : State) (n : Nat) (k : Core) : (s.setCore n k).cur = s.cur := rfl

@[simp] theorem State.modCore_powered (s : State) (n : Nat) (f : Core → Core) : (s.modCore n f).powered = s.powered := rfl

@[simp] theorem State.modCore_frozen (s : State) (n : Nat) (f : Core → Core) : (s.modCore n f).frozen = s.frozen := rfl

@[simp] theorem State.modCore_booted (s : State) (n : Nat) (f : Core → Core) : (s.modCore n f).booted = s.booted := rfl

@[simp] theorem State.modCore_stroke (s : State) (n : Nat) (f : Core → Core) : (s.modCore n f).stroke = s.stroke := rfl

@[simp] theorem State.modCore_mem (s : State) (n : Nat) (f : Core → Core) : (s.modCore n f).mem = s.mem := rfl

@[simp] theorem State.modCore_tags (s : State) (n : Nat) (f : Core → Core) : (s.modCore n f).tags = s.tags := rfl

@[simp] theorem State.modCore_hostMem (s : State) (n : Nat) (f : Core → Core) : (s.modCore n f).hostMem = s.hostMem := rfl

@[simp] theorem State.modCore_bad (s : State) (n : Nat) (f : Core → Core) : (s.modCore n f).bad = s.bad := rfl

@[simp] theorem State.modCore_troots (s : State) (n : Nat) (f : Core → Core) : (s.modCore n f).troots = s.troots := rfl

@[simp] theorem State.modCore_devid (s : State) (n : Nat) (f : Core → Core) : (s.modCore n f).devid = s.devid := rfl

@[simp] theorem State.modCore_wrsel (s : State) (n : Nat) (f : Core → Core) : (s.modCore n f).wrsel = s.wrsel := rfl

@[simp] theorem State.modCore_routes (s : State) (n : Nat) (f : Core → Core) : (s.modCore n f).routes = s.routes := rfl

@[simp] theorem State.modCore_lostLinks (s : State) (n : Nat) (f : Core → Core) : (s.modCore n f).lostLinks = s.lostLinks := rfl

@[simp] theorem State.modCore_cores (s : State) (n : Nat) (f : Core → Core) : (s.modCore n f).cores = tset s.cores n (f (s.core n)) := rfl

@[simp] theorem State.modCore_teams (s : State) (n : Nat) (f : Core → Core) : (s.modCore n f).teams = s.teams := rfl

@[simp] theorem State.modCore_saved (s : State) (n : Nat) (f : Core → Core) : (s.modCore n f).saved = s.saved := rfl

@[simp] theorem State.modCore_groups (s : State) (n : Nat) (f : Core → Core) : (s.modCore n f).groups = s.groups := rfl

@[simp] theorem State.modCore_calls (s : State) (n : Nat) (f : Core → Core) : (s.modCore n f).calls = s.calls := rfl

@[simp] theorem State.modCore_dies (s : State) (n : Nat) (f : Core → Core) : (s.modCore n f).dies = s.dies := rfl

@[simp] theorem State.modCore_arb (s : State) (n : Nat) (f : Core → Core) : (s.modCore n f).arb = s.arb := rfl

@[simp] theorem State.modCore_arbLast (s : State) (n : Nat) (f : Core → Core) : (s.modCore n f).arbLast = s.arbLast := rfl

@[simp] theorem State.modCore_wotisOut (s : State) (n : Nat) (f : Core → Core) : (s.modCore n f).wotisOut = s.wotisOut := rfl

@[simp] theorem State.modCore_wotisSeq (s : State) (n : Nat) (f : Core → Core) : (s.modCore n f).wotisSeq = s.wotisSeq := rfl

@[simp] theorem State.modCore_peerWaits (s : State) (n : Nat) (f : Core → Core) : (s.modCore n f).peerWaits = s.peerWaits := rfl

@[simp] theorem State.modCore_rsBuf (s : State) (n : Nat) (f : Core → Core) : (s.modCore n f).rsBuf = s.rsBuf := rfl

@[simp] theorem State.modCore_rsSize (s : State) (n : Nat) (f : Core → Core) : (s.modCore n f).rsSize = s.rsSize := rfl

@[simp] theorem State.modCore_rsStat (s : State) (n : Nat) (f : Core → Core) : (s.modCore n f).rsStat = s.rsStat := rfl

@[simp] theorem State.modCore_rsAddr (s : State) (n : Nat) (f : Core → Core) : (s.modCore n f).rsAddr = s.rsAddr := rfl

@[simp] theorem State.modCore_rsLen (s : State) (n : Nat) (f : Core → Core) : (s.modCore n f).rsLen = s.rsLen := rfl

@[simp] theorem State.modCore_evStatus (s : State) (n : Nat) (f : Core → Core) : (s.modCore n f).evStatus = s.evStatus := rfl

@[simp] theorem State.modCore_evEnable (s : State) (n : Nat) (f : Core → Core) : (s.modCore n f).evEnable = s.evEnable := rfl

@[simp] theorem State.modCore_cxlio (s : State) (n : Nat) (f : Core → Core) : (s.modCore n f).cxlio = s.cxlio := rfl

@[simp] theorem State.modCore_mailbox (s : State) (n : Nat) (f : Core → Core) : (s.modCore n f).mailbox = s.mailbox := rfl

@[simp] theorem State.modCore_boxStat (s : State) (n : Nat) (f : Core → Core) : (s.modCore n f).boxStat = s.boxStat := rfl

@[simp] theorem State.modCore_image (s : State) (n : Nat) (f : Core → Core) : (s.modCore n f).image = s.image := rfl

@[simp] theorem State.modCore_msix (s : State) (n : Nat) (f : Core → Core) : (s.modCore n f).msix = s.msix := rfl

@[simp] theorem State.modCore_sent (s : State) (n : Nat) (f : Core → Core) : (s.modCore n f).sent = s.sent := rfl

@[simp] theorem State.modCore_nonce (s : State) (n : Nat) (f : Core → Core) : (s.modCore n f).nonce = s.nonce := rfl

@[simp] theorem State.modCore_report (s : State) (n : Nat) (f : Core → Core) : (s.modCore n f).report = s.report := rfl

@[simp] theorem State.modCore_power (s : State) (n : Nat) (f : Core → Core) : (s.modCore n f).power = s.power := rfl

@[simp] theorem State.modCore_alert (s : State) (n : Nat) (f : Core → Core) : (s.modCore n f).alert = s.alert := rfl

@[simp] theorem State.modCore_hostRead (s : State) (n : Nat) (f : Core → Core) : (s.modCore n f).hostRead = s.hostRead := rfl

@[simp] theorem State.modCore_hostWaits (s : State) (n : Nat) (f : Core → Core) : (s.modCore n f).hostWaits = s.hostWaits := rfl

@[simp] theorem State.modCore_windows (s : State) (n : Nat) (f : Core → Core) : (s.modCore n f).windows = s.windows := rfl

@[simp] theorem State.modCore_ir (s : State) (n : Nat) (f : Core → Core) : (s.modCore n f).ir = s.ir := rfl

@[simp] theorem State.modCore_daddr (s : State) (n : Nat) (f : Core → Core) : (s.modCore n f).daddr = s.daddr := rfl

@[simp] theorem State.modCore_dr (s : State) (n : Nat) (f : Core → Core) : (s.modCore n f).dr = s.dr := rfl

@[simp] theorem State.modCore_dvalid (s : State) (n : Nat) (f : Core → Core) : (s.modCore n f).dvalid = s.dvalid := rfl

@[simp] theorem State.modCore_dtag (s : State) (n : Nat) (f : Core → Core) : (s.modCore n f).dtag = s.dtag := rfl

@[simp] theorem State.modCore_derror (s : State) (n : Nat) (f : Core → Core) : (s.modCore n f).derror = s.derror := rfl

@[simp] theorem State.modCore_scOrder (s : State) (n : Nat) (f : Core → Core) : (s.modCore n f).scOrder = s.scOrder := rfl

@[simp] theorem State.modCore_agenda (s : State) (n : Nat) (f : Core → Core) : (s.modCore n f).agenda = s.agenda := rfl

@[simp] theorem State.modCore_fresh (s : State) (n : Nat) (f : Core → Core) : (s.modCore n f).fresh = s.fresh := rfl

@[simp] theorem State.modCore_nextId (s : State) (n : Nat) (f : Core → Core) : (s.modCore n f).nextId = s.nextId := rfl

@[simp] theorem State.modCore_cur (s : State) (n : Nat) (f : Core → Core) : (s.modCore n f).cur = s.cur := rfl

@[simp] theorem State.setGroup_powered (s : State) (k : Nat) (g : Group) : (s.setGroup k g).powered = s.powered := rfl

@[simp] theorem State.setGroup_frozen (s : State) (k : Nat) (g : Group) : (s.setGroup k g).frozen = s.frozen := rfl

@[simp] theorem State.setGroup_booted (s : State) (k : Nat) (g : Group) : (s.setGroup k g).booted = s.booted := rfl

@[simp] theorem State.setGroup_stroke (s : State) (k : Nat) (g : Group) : (s.setGroup k g).stroke = s.stroke := rfl

@[simp] theorem State.setGroup_mem (s : State) (k : Nat) (g : Group) : (s.setGroup k g).mem = s.mem := rfl

@[simp] theorem State.setGroup_tags (s : State) (k : Nat) (g : Group) : (s.setGroup k g).tags = s.tags := rfl

@[simp] theorem State.setGroup_hostMem (s : State) (k : Nat) (g : Group) : (s.setGroup k g).hostMem = s.hostMem := rfl

@[simp] theorem State.setGroup_bad (s : State) (k : Nat) (g : Group) : (s.setGroup k g).bad = s.bad := rfl

@[simp] theorem State.setGroup_troots (s : State) (k : Nat) (g : Group) : (s.setGroup k g).troots = s.troots := rfl

@[simp] theorem State.setGroup_devid (s : State) (k : Nat) (g : Group) : (s.setGroup k g).devid = s.devid := rfl

@[simp] theorem State.setGroup_wrsel (s : State) (k : Nat) (g : Group) : (s.setGroup k g).wrsel = s.wrsel := rfl

@[simp] theorem State.setGroup_routes (s : State) (k : Nat) (g : Group) : (s.setGroup k g).routes = s.routes := rfl

@[simp] theorem State.setGroup_lostLinks (s : State) (k : Nat) (g : Group) : (s.setGroup k g).lostLinks = s.lostLinks := rfl

@[simp] theorem State.setGroup_cores (s : State) (k : Nat) (g : Group) : (s.setGroup k g).cores = s.cores := rfl

@[simp] theorem State.setGroup_teams (s : State) (k : Nat) (g : Group) : (s.setGroup k g).teams = s.teams := rfl

@[simp] theorem State.setGroup_saved (s : State) (k : Nat) (g : Group) : (s.setGroup k g).saved = s.saved := rfl

@[simp] theorem State.setGroup_groups (s : State) (k : Nat) (g : Group) : (s.setGroup k g).groups = tset s.groups k g := rfl

@[simp] theorem State.setGroup_calls (s : State) (k : Nat) (g : Group) : (s.setGroup k g).calls = s.calls := rfl

@[simp] theorem State.setGroup_dies (s : State) (k : Nat) (g : Group) : (s.setGroup k g).dies = s.dies := rfl

@[simp] theorem State.setGroup_arb (s : State) (k : Nat) (g : Group) : (s.setGroup k g).arb = s.arb := rfl

@[simp] theorem State.setGroup_arbLast (s : State) (k : Nat) (g : Group) : (s.setGroup k g).arbLast = s.arbLast := rfl

@[simp] theorem State.setGroup_wotisOut (s : State) (k : Nat) (g : Group) : (s.setGroup k g).wotisOut = s.wotisOut := rfl

@[simp] theorem State.setGroup_wotisSeq (s : State) (k : Nat) (g : Group) : (s.setGroup k g).wotisSeq = s.wotisSeq := rfl

@[simp] theorem State.setGroup_peerWaits (s : State) (k : Nat) (g : Group) : (s.setGroup k g).peerWaits = s.peerWaits := rfl

@[simp] theorem State.setGroup_rsBuf (s : State) (k : Nat) (g : Group) : (s.setGroup k g).rsBuf = s.rsBuf := rfl

@[simp] theorem State.setGroup_rsSize (s : State) (k : Nat) (g : Group) : (s.setGroup k g).rsSize = s.rsSize := rfl

@[simp] theorem State.setGroup_rsStat (s : State) (k : Nat) (g : Group) : (s.setGroup k g).rsStat = s.rsStat := rfl

@[simp] theorem State.setGroup_rsAddr (s : State) (k : Nat) (g : Group) : (s.setGroup k g).rsAddr = s.rsAddr := rfl

@[simp] theorem State.setGroup_rsLen (s : State) (k : Nat) (g : Group) : (s.setGroup k g).rsLen = s.rsLen := rfl

@[simp] theorem State.setGroup_evStatus (s : State) (k : Nat) (g : Group) : (s.setGroup k g).evStatus = s.evStatus := rfl

@[simp] theorem State.setGroup_evEnable (s : State) (k : Nat) (g : Group) : (s.setGroup k g).evEnable = s.evEnable := rfl

@[simp] theorem State.setGroup_cxlio (s : State) (k : Nat) (g : Group) : (s.setGroup k g).cxlio = s.cxlio := rfl

@[simp] theorem State.setGroup_mailbox (s : State) (k : Nat) (g : Group) : (s.setGroup k g).mailbox = s.mailbox := rfl

@[simp] theorem State.setGroup_boxStat (s : State) (k : Nat) (g : Group) : (s.setGroup k g).boxStat = s.boxStat := rfl

@[simp] theorem State.setGroup_image (s : State) (k : Nat) (g : Group) : (s.setGroup k g).image = s.image := rfl

@[simp] theorem State.setGroup_msix (s : State) (k : Nat) (g : Group) : (s.setGroup k g).msix = s.msix := rfl

@[simp] theorem State.setGroup_sent (s : State) (k : Nat) (g : Group) : (s.setGroup k g).sent = s.sent := rfl

@[simp] theorem State.setGroup_nonce (s : State) (k : Nat) (g : Group) : (s.setGroup k g).nonce = s.nonce := rfl

@[simp] theorem State.setGroup_report (s : State) (k : Nat) (g : Group) : (s.setGroup k g).report = s.report := rfl

@[simp] theorem State.setGroup_power (s : State) (k : Nat) (g : Group) : (s.setGroup k g).power = s.power := rfl

@[simp] theorem State.setGroup_alert (s : State) (k : Nat) (g : Group) : (s.setGroup k g).alert = s.alert := rfl

@[simp] theorem State.setGroup_hostRead (s : State) (k : Nat) (g : Group) : (s.setGroup k g).hostRead = s.hostRead := rfl

@[simp] theorem State.setGroup_hostWaits (s : State) (k : Nat) (g : Group) : (s.setGroup k g).hostWaits = s.hostWaits := rfl

@[simp] theorem State.setGroup_windows (s : State) (k : Nat) (g : Group) : (s.setGroup k g).windows = s.windows := rfl

@[simp] theorem State.setGroup_ir (s : State) (k : Nat) (g : Group) : (s.setGroup k g).ir = s.ir := rfl

@[simp] theorem State.setGroup_daddr (s : State) (k : Nat) (g : Group) : (s.setGroup k g).daddr = s.daddr := rfl

@[simp] theorem State.setGroup_dr (s : State) (k : Nat) (g : Group) : (s.setGroup k g).dr = s.dr := rfl

@[simp] theorem State.setGroup_dvalid (s : State) (k : Nat) (g : Group) : (s.setGroup k g).dvalid = s.dvalid := rfl

@[simp] theorem State.setGroup_dtag (s : State) (k : Nat) (g : Group) : (s.setGroup k g).dtag = s.dtag := rfl

@[simp] theorem State.setGroup_derror (s : State) (k : Nat) (g : Group) : (s.setGroup k g).derror = s.derror := rfl

@[simp] theorem State.setGroup_scOrder (s : State) (k : Nat) (g : Group) : (s.setGroup k g).scOrder = s.scOrder := rfl

@[simp] theorem State.setGroup_agenda (s : State) (k : Nat) (g : Group) : (s.setGroup k g).agenda = s.agenda := rfl

@[simp] theorem State.setGroup_fresh (s : State) (k : Nat) (g : Group) : (s.setGroup k g).fresh = s.fresh := rfl

@[simp] theorem State.setGroup_nextId (s : State) (k : Nat) (g : Group) : (s.setGroup k g).nextId = s.nextId := rfl

@[simp] theorem State.setGroup_cur (s : State) (k : Nat) (g : Group) : (s.setGroup k g).cur = s.cur := rfl

@[simp] theorem State.setTeam_powered (s : State) (k : Nat) (t : Team) : (s.setTeam k t).powered = s.powered := rfl

@[simp] theorem State.setTeam_frozen (s : State) (k : Nat) (t : Team) : (s.setTeam k t).frozen = s.frozen := rfl

@[simp] theorem State.setTeam_booted (s : State) (k : Nat) (t : Team) : (s.setTeam k t).booted = s.booted := rfl

@[simp] theorem State.setTeam_stroke (s : State) (k : Nat) (t : Team) : (s.setTeam k t).stroke = s.stroke := rfl

@[simp] theorem State.setTeam_mem (s : State) (k : Nat) (t : Team) : (s.setTeam k t).mem = s.mem := rfl

@[simp] theorem State.setTeam_tags (s : State) (k : Nat) (t : Team) : (s.setTeam k t).tags = s.tags := rfl

@[simp] theorem State.setTeam_hostMem (s : State) (k : Nat) (t : Team) : (s.setTeam k t).hostMem = s.hostMem := rfl

@[simp] theorem State.setTeam_bad (s : State) (k : Nat) (t : Team) : (s.setTeam k t).bad = s.bad := rfl

@[simp] theorem State.setTeam_troots (s : State) (k : Nat) (t : Team) : (s.setTeam k t).troots = s.troots := rfl

@[simp] theorem State.setTeam_devid (s : State) (k : Nat) (t : Team) : (s.setTeam k t).devid = s.devid := rfl

@[simp] theorem State.setTeam_wrsel (s : State) (k : Nat) (t : Team) : (s.setTeam k t).wrsel = s.wrsel := rfl

@[simp] theorem State.setTeam_routes (s : State) (k : Nat) (t : Team) : (s.setTeam k t).routes = s.routes := rfl

@[simp] theorem State.setTeam_lostLinks (s : State) (k : Nat) (t : Team) : (s.setTeam k t).lostLinks = s.lostLinks := rfl

@[simp] theorem State.setTeam_cores (s : State) (k : Nat) (t : Team) : (s.setTeam k t).cores = s.cores := rfl

@[simp] theorem State.setTeam_teams (s : State) (k : Nat) (t : Team) : (s.setTeam k t).teams = tset s.teams k t := rfl

@[simp] theorem State.setTeam_saved (s : State) (k : Nat) (t : Team) : (s.setTeam k t).saved = s.saved := rfl

@[simp] theorem State.setTeam_groups (s : State) (k : Nat) (t : Team) : (s.setTeam k t).groups = s.groups := rfl

@[simp] theorem State.setTeam_calls (s : State) (k : Nat) (t : Team) : (s.setTeam k t).calls = s.calls := rfl

@[simp] theorem State.setTeam_dies (s : State) (k : Nat) (t : Team) : (s.setTeam k t).dies = s.dies := rfl

@[simp] theorem State.setTeam_arb (s : State) (k : Nat) (t : Team) : (s.setTeam k t).arb = s.arb := rfl

@[simp] theorem State.setTeam_arbLast (s : State) (k : Nat) (t : Team) : (s.setTeam k t).arbLast = s.arbLast := rfl

@[simp] theorem State.setTeam_wotisOut (s : State) (k : Nat) (t : Team) : (s.setTeam k t).wotisOut = s.wotisOut := rfl

@[simp] theorem State.setTeam_wotisSeq (s : State) (k : Nat) (t : Team) : (s.setTeam k t).wotisSeq = s.wotisSeq := rfl

@[simp] theorem State.setTeam_peerWaits (s : State) (k : Nat) (t : Team) : (s.setTeam k t).peerWaits = s.peerWaits := rfl

@[simp] theorem State.setTeam_rsBuf (s : State) (k : Nat) (t : Team) : (s.setTeam k t).rsBuf = s.rsBuf := rfl

@[simp] theorem State.setTeam_rsSize (s : State) (k : Nat) (t : Team) : (s.setTeam k t).rsSize = s.rsSize := rfl

@[simp] theorem State.setTeam_rsStat (s : State) (k : Nat) (t : Team) : (s.setTeam k t).rsStat = s.rsStat := rfl

@[simp] theorem State.setTeam_rsAddr (s : State) (k : Nat) (t : Team) : (s.setTeam k t).rsAddr = s.rsAddr := rfl

@[simp] theorem State.setTeam_rsLen (s : State) (k : Nat) (t : Team) : (s.setTeam k t).rsLen = s.rsLen := rfl

@[simp] theorem State.setTeam_evStatus (s : State) (k : Nat) (t : Team) : (s.setTeam k t).evStatus = s.evStatus := rfl

@[simp] theorem State.setTeam_evEnable (s : State) (k : Nat) (t : Team) : (s.setTeam k t).evEnable = s.evEnable := rfl

@[simp] theorem State.setTeam_cxlio (s : State) (k : Nat) (t : Team) : (s.setTeam k t).cxlio = s.cxlio := rfl

@[simp] theorem State.setTeam_mailbox (s : State) (k : Nat) (t : Team) : (s.setTeam k t).mailbox = s.mailbox := rfl

@[simp] theorem State.setTeam_boxStat (s : State) (k : Nat) (t : Team) : (s.setTeam k t).boxStat = s.boxStat := rfl

@[simp] theorem State.setTeam_image (s : State) (k : Nat) (t : Team) : (s.setTeam k t).image = s.image := rfl

@[simp] theorem State.setTeam_msix (s : State) (k : Nat) (t : Team) : (s.setTeam k t).msix = s.msix := rfl

@[simp] theorem State.setTeam_sent (s : State) (k : Nat) (t : Team) : (s.setTeam k t).sent = s.sent := rfl

@[simp] theorem State.setTeam_nonce (s : State) (k : Nat) (t : Team) : (s.setTeam k t).nonce = s.nonce := rfl

@[simp] theorem State.setTeam_report (s : State) (k : Nat) (t : Team) : (s.setTeam k t).report = s.report := rfl

@[simp] theorem State.setTeam_power (s : State) (k : Nat) (t : Team) : (s.setTeam k t).power = s.power := rfl

@[simp] theorem State.setTeam_alert (s : State) (k : Nat) (t : Team) : (s.setTeam k t).alert = s.alert := rfl

@[simp] theorem State.setTeam_hostRead (s : State) (k : Nat) (t : Team) : (s.setTeam k t).hostRead = s.hostRead := rfl

@[simp] theorem State.setTeam_hostWaits (s : State) (k : Nat) (t : Team) : (s.setTeam k t).hostWaits = s.hostWaits := rfl

@[simp] theorem State.setTeam_windows (s : State) (k : Nat) (t : Team) : (s.setTeam k t).windows = s.windows := rfl

@[simp] theorem State.setTeam_ir (s : State) (k : Nat) (t : Team) : (s.setTeam k t).ir = s.ir := rfl

@[simp] theorem State.setTeam_daddr (s : State) (k : Nat) (t : Team) : (s.setTeam k t).daddr = s.daddr := rfl

@[simp] theorem State.setTeam_dr (s : State) (k : Nat) (t : Team) : (s.setTeam k t).dr = s.dr := rfl

@[simp] theorem State.setTeam_dvalid (s : State) (k : Nat) (t : Team) : (s.setTeam k t).dvalid = s.dvalid := rfl

@[simp] theorem State.setTeam_dtag (s : State) (k : Nat) (t : Team) : (s.setTeam k t).dtag = s.dtag := rfl

@[simp] theorem State.setTeam_derror (s : State) (k : Nat) (t : Team) : (s.setTeam k t).derror = s.derror := rfl

@[simp] theorem State.setTeam_scOrder (s : State) (k : Nat) (t : Team) : (s.setTeam k t).scOrder = s.scOrder := rfl

@[simp] theorem State.setTeam_agenda (s : State) (k : Nat) (t : Team) : (s.setTeam k t).agenda = s.agenda := rfl

@[simp] theorem State.setTeam_fresh (s : State) (k : Nat) (t : Team) : (s.setTeam k t).fresh = s.fresh := rfl

@[simp] theorem State.setTeam_nextId (s : State) (k : Nat) (t : Team) : (s.setTeam k t).nextId = s.nextId := rfl

@[simp] theorem State.setTeam_cur (s : State) (k : Nat) (t : Team) : (s.setTeam k t).cur = s.cur := rfl

@[simp] theorem State.modDie_powered (s : State) (d : Nat) (f : Die → Die) : (s.modDie d f).powered = s.powered := rfl

@[simp] theorem State.modDie_frozen (s : State) (d : Nat) (f : Die → Die) : (s.modDie d f).frozen = s.frozen := rfl

@[simp] theorem State.modDie_booted (s : State) (d : Nat) (f : Die → Die) : (s.modDie d f).booted = s.booted := rfl

@[simp] theorem State.modDie_stroke (s : State) (d : Nat) (f : Die → Die) : (s.modDie d f).stroke = s.stroke := rfl

@[simp] theorem State.modDie_mem (s : State) (d : Nat) (f : Die → Die) : (s.modDie d f).mem = s.mem := rfl

@[simp] theorem State.modDie_tags (s : State) (d : Nat) (f : Die → Die) : (s.modDie d f).tags = s.tags := rfl

@[simp] theorem State.modDie_hostMem (s : State) (d : Nat) (f : Die → Die) : (s.modDie d f).hostMem = s.hostMem := rfl

@[simp] theorem State.modDie_bad (s : State) (d : Nat) (f : Die → Die) : (s.modDie d f).bad = s.bad := rfl

@[simp] theorem State.modDie_troots (s : State) (d : Nat) (f : Die → Die) : (s.modDie d f).troots = s.troots := rfl

@[simp] theorem State.modDie_devid (s : State) (d : Nat) (f : Die → Die) : (s.modDie d f).devid = s.devid := rfl

@[simp] theorem State.modDie_wrsel (s : State) (d : Nat) (f : Die → Die) : (s.modDie d f).wrsel = s.wrsel := rfl

@[simp] theorem State.modDie_routes (s : State) (d : Nat) (f : Die → Die) : (s.modDie d f).routes = s.routes := rfl

@[simp] theorem State.modDie_lostLinks (s : State) (d : Nat) (f : Die → Die) : (s.modDie d f).lostLinks = s.lostLinks := rfl

@[simp] theorem State.modDie_cores (s : State) (d : Nat) (f : Die → Die) : (s.modDie d f).cores = s.cores := rfl

@[simp] theorem State.modDie_teams (s : State) (d : Nat) (f : Die → Die) : (s.modDie d f).teams = s.teams := rfl

@[simp] theorem State.modDie_saved (s : State) (d : Nat) (f : Die → Die) : (s.modDie d f).saved = s.saved := rfl

@[simp] theorem State.modDie_groups (s : State) (d : Nat) (f : Die → Die) : (s.modDie d f).groups = s.groups := rfl

@[simp] theorem State.modDie_calls (s : State) (d : Nat) (f : Die → Die) : (s.modDie d f).calls = s.calls := rfl

@[simp] theorem State.modDie_dies (s : State) (d : Nat) (f : Die → Die) : (s.modDie d f).dies = s.dies.setIfInBounds d (f (s.die d)) := rfl

@[simp] theorem State.modDie_arb (s : State) (d : Nat) (f : Die → Die) : (s.modDie d f).arb = s.arb := rfl

@[simp] theorem State.modDie_arbLast (s : State) (d : Nat) (f : Die → Die) : (s.modDie d f).arbLast = s.arbLast := rfl

@[simp] theorem State.modDie_wotisOut (s : State) (d : Nat) (f : Die → Die) : (s.modDie d f).wotisOut = s.wotisOut := rfl

@[simp] theorem State.modDie_wotisSeq (s : State) (d : Nat) (f : Die → Die) : (s.modDie d f).wotisSeq = s.wotisSeq := rfl

@[simp] theorem State.modDie_peerWaits (s : State) (d : Nat) (f : Die → Die) : (s.modDie d f).peerWaits = s.peerWaits := rfl

@[simp] theorem State.modDie_rsBuf (s : State) (d : Nat) (f : Die → Die) : (s.modDie d f).rsBuf = s.rsBuf := rfl

@[simp] theorem State.modDie_rsSize (s : State) (d : Nat) (f : Die → Die) : (s.modDie d f).rsSize = s.rsSize := rfl

@[simp] theorem State.modDie_rsStat (s : State) (d : Nat) (f : Die → Die) : (s.modDie d f).rsStat = s.rsStat := rfl

@[simp] theorem State.modDie_rsAddr (s : State) (d : Nat) (f : Die → Die) : (s.modDie d f).rsAddr = s.rsAddr := rfl

@[simp] theorem State.modDie_rsLen (s : State) (d : Nat) (f : Die → Die) : (s.modDie d f).rsLen = s.rsLen := rfl

@[simp] theorem State.modDie_evStatus (s : State) (d : Nat) (f : Die → Die) : (s.modDie d f).evStatus = s.evStatus := rfl

@[simp] theorem State.modDie_evEnable (s : State) (d : Nat) (f : Die → Die) : (s.modDie d f).evEnable = s.evEnable := rfl

@[simp] theorem State.modDie_cxlio (s : State) (d : Nat) (f : Die → Die) : (s.modDie d f).cxlio = s.cxlio := rfl

@[simp] theorem State.modDie_mailbox (s : State) (d : Nat) (f : Die → Die) : (s.modDie d f).mailbox = s.mailbox := rfl

@[simp] theorem State.modDie_boxStat (s : State) (d : Nat) (f : Die → Die) : (s.modDie d f).boxStat = s.boxStat := rfl

@[simp] theorem State.modDie_image (s : State) (d : Nat) (f : Die → Die) : (s.modDie d f).image = s.image := rfl

@[simp] theorem State.modDie_msix (s : State) (d : Nat) (f : Die → Die) : (s.modDie d f).msix = s.msix := rfl

@[simp] theorem State.modDie_sent (s : State) (d : Nat) (f : Die → Die) : (s.modDie d f).sent = s.sent := rfl

@[simp] theorem State.modDie_nonce (s : State) (d : Nat) (f : Die → Die) : (s.modDie d f).nonce = s.nonce := rfl

@[simp] theorem State.modDie_report (s : State) (d : Nat) (f : Die → Die) : (s.modDie d f).report = s.report := rfl

@[simp] theorem State.modDie_power (s : State) (d : Nat) (f : Die → Die) : (s.modDie d f).power = s.power := rfl

@[simp] theorem State.modDie_alert (s : State) (d : Nat) (f : Die → Die) : (s.modDie d f).alert = s.alert := rfl

@[simp] theorem State.modDie_hostRead (s : State) (d : Nat) (f : Die → Die) : (s.modDie d f).hostRead = s.hostRead := rfl

@[simp] theorem State.modDie_hostWaits (s : State) (d : Nat) (f : Die → Die) : (s.modDie d f).hostWaits = s.hostWaits := rfl

@[simp] theorem State.modDie_windows (s : State) (d : Nat) (f : Die → Die) : (s.modDie d f).windows = s.windows := rfl

@[simp] theorem State.modDie_ir (s : State) (d : Nat) (f : Die → Die) : (s.modDie d f).ir = s.ir := rfl

@[simp] theorem State.modDie_daddr (s : State) (d : Nat) (f : Die → Die) : (s.modDie d f).daddr = s.daddr := rfl

@[simp] theorem State.modDie_dr (s : State) (d : Nat) (f : Die → Die) : (s.modDie d f).dr = s.dr := rfl

@[simp] theorem State.modDie_dvalid (s : State) (d : Nat) (f : Die → Die) : (s.modDie d f).dvalid = s.dvalid := rfl

@[simp] theorem State.modDie_dtag (s : State) (d : Nat) (f : Die → Die) : (s.modDie d f).dtag = s.dtag := rfl

@[simp] theorem State.modDie_derror (s : State) (d : Nat) (f : Die → Die) : (s.modDie d f).derror = s.derror := rfl

@[simp] theorem State.modDie_scOrder (s : State) (d : Nat) (f : Die → Die) : (s.modDie d f).scOrder = s.scOrder := rfl

@[simp] theorem State.modDie_agenda (s : State) (d : Nat) (f : Die → Die) : (s.modDie d f).agenda = s.agenda := rfl

@[simp] theorem State.modDie_fresh (s : State) (d : Nat) (f : Die → Die) : (s.modDie d f).fresh = s.fresh := rfl

@[simp] theorem State.modDie_nextId (s : State) (d : Nat) (f : Die → Die) : (s.modDie d f).nextId = s.nextId := rfl

@[simp] theorem State.modDie_cur (s : State) (d : Nat) (f : Die → Die) : (s.modDie d f).cur = s.cur := rfl

@[simp] theorem State.setTag_powered (s : State) (a : Nat) (t : BitVec 2) : (s.setTag a t).powered = s.powered := rfl

@[simp] theorem State.setTag_frozen (s : State) (a : Nat) (t : BitVec 2) : (s.setTag a t).frozen = s.frozen := rfl

@[simp] theorem State.setTag_booted (s : State) (a : Nat) (t : BitVec 2) : (s.setTag a t).booted = s.booted := rfl

@[simp] theorem State.setTag_stroke (s : State) (a : Nat) (t : BitVec 2) : (s.setTag a t).stroke = s.stroke := rfl

@[simp] theorem State.setTag_mem (s : State) (a : Nat) (t : BitVec 2) : (s.setTag a t).mem = s.mem := rfl

@[simp] theorem State.setTag_hostMem (s : State) (a : Nat) (t : BitVec 2) : (s.setTag a t).hostMem = s.hostMem := rfl

@[simp] theorem State.setTag_bad (s : State) (a : Nat) (t : BitVec 2) : (s.setTag a t).bad = s.bad := rfl

@[simp] theorem State.setTag_troots (s : State) (a : Nat) (t : BitVec 2) : (s.setTag a t).troots = s.troots := rfl

@[simp] theorem State.setTag_devid (s : State) (a : Nat) (t : BitVec 2) : (s.setTag a t).devid = s.devid := rfl

@[simp] theorem State.setTag_wrsel (s : State) (a : Nat) (t : BitVec 2) : (s.setTag a t).wrsel = s.wrsel := rfl

@[simp] theorem State.setTag_routes (s : State) (a : Nat) (t : BitVec 2) : (s.setTag a t).routes = s.routes := rfl

@[simp] theorem State.setTag_lostLinks (s : State) (a : Nat) (t : BitVec 2) : (s.setTag a t).lostLinks = s.lostLinks := rfl

@[simp] theorem State.setTag_cores (s : State) (a : Nat) (t : BitVec 2) : (s.setTag a t).cores = s.cores := rfl

@[simp] theorem State.setTag_teams (s : State) (a : Nat) (t : BitVec 2) : (s.setTag a t).teams = s.teams := rfl

@[simp] theorem State.setTag_saved (s : State) (a : Nat) (t : BitVec 2) : (s.setTag a t).saved = s.saved := rfl

@[simp] theorem State.setTag_groups (s : State) (a : Nat) (t : BitVec 2) : (s.setTag a t).groups = s.groups := rfl

@[simp] theorem State.setTag_calls (s : State) (a : Nat) (t : BitVec 2) : (s.setTag a t).calls = s.calls := rfl

@[simp] theorem State.setTag_dies (s : State) (a : Nat) (t : BitVec 2) : (s.setTag a t).dies = s.dies := rfl

@[simp] theorem State.setTag_arb (s : State) (a : Nat) (t : BitVec 2) : (s.setTag a t).arb = s.arb := rfl

@[simp] theorem State.setTag_arbLast (s : State) (a : Nat) (t : BitVec 2) : (s.setTag a t).arbLast = s.arbLast := rfl

@[simp] theorem State.setTag_wotisOut (s : State) (a : Nat) (t : BitVec 2) : (s.setTag a t).wotisOut = s.wotisOut := rfl

@[simp] theorem State.setTag_wotisSeq (s : State) (a : Nat) (t : BitVec 2) : (s.setTag a t).wotisSeq = s.wotisSeq := rfl

@[simp] theorem State.setTag_peerWaits (s : State) (a : Nat) (t : BitVec 2) : (s.setTag a t).peerWaits = s.peerWaits := rfl

@[simp] theorem State.setTag_rsBuf (s : State) (a : Nat) (t : BitVec 2) : (s.setTag a t).rsBuf = s.rsBuf := rfl

@[simp] theorem State.setTag_rsSize (s : State) (a : Nat) (t : BitVec 2) : (s.setTag a t).rsSize = s.rsSize := rfl

@[simp] theorem State.setTag_rsStat (s : State) (a : Nat) (t : BitVec 2) : (s.setTag a t).rsStat = s.rsStat := rfl

@[simp] theorem State.setTag_rsAddr (s : State) (a : Nat) (t : BitVec 2) : (s.setTag a t).rsAddr = s.rsAddr := rfl

@[simp] theorem State.setTag_rsLen (s : State) (a : Nat) (t : BitVec 2) : (s.setTag a t).rsLen = s.rsLen := rfl

@[simp] theorem State.setTag_evStatus (s : State) (a : Nat) (t : BitVec 2) : (s.setTag a t).evStatus = s.evStatus := rfl

@[simp] theorem State.setTag_evEnable (s : State) (a : Nat) (t : BitVec 2) : (s.setTag a t).evEnable = s.evEnable := rfl

@[simp] theorem State.setTag_cxlio (s : State) (a : Nat) (t : BitVec 2) : (s.setTag a t).cxlio = s.cxlio := rfl

@[simp] theorem State.setTag_mailbox (s : State) (a : Nat) (t : BitVec 2) : (s.setTag a t).mailbox = s.mailbox := rfl

@[simp] theorem State.setTag_boxStat (s : State) (a : Nat) (t : BitVec 2) : (s.setTag a t).boxStat = s.boxStat := rfl

@[simp] theorem State.setTag_image (s : State) (a : Nat) (t : BitVec 2) : (s.setTag a t).image = s.image := rfl

@[simp] theorem State.setTag_msix (s : State) (a : Nat) (t : BitVec 2) : (s.setTag a t).msix = s.msix := rfl

@[simp] theorem State.setTag_sent (s : State) (a : Nat) (t : BitVec 2) : (s.setTag a t).sent = s.sent := rfl

@[simp] theorem State.setTag_nonce (s : State) (a : Nat) (t : BitVec 2) : (s.setTag a t).nonce = s.nonce := rfl

@[simp] theorem State.setTag_report (s : State) (a : Nat) (t : BitVec 2) : (s.setTag a t).report = s.report := rfl

@[simp] theorem State.setTag_power (s : State) (a : Nat) (t : BitVec 2) : (s.setTag a t).power = s.power := rfl

@[simp] theorem State.setTag_alert (s : State) (a : Nat) (t : BitVec 2) : (s.setTag a t).alert = s.alert := rfl

@[simp] theorem State.setTag_hostRead (s : State) (a : Nat) (t : BitVec 2) : (s.setTag a t).hostRead = s.hostRead := rfl

@[simp] theorem State.setTag_hostWaits (s : State) (a : Nat) (t : BitVec 2) : (s.setTag a t).hostWaits = s.hostWaits := rfl

@[simp] theorem State.setTag_windows (s : State) (a : Nat) (t : BitVec 2) : (s.setTag a t).windows = s.windows := rfl

@[simp] theorem State.setTag_ir (s : State) (a : Nat) (t : BitVec 2) : (s.setTag a t).ir = s.ir := rfl

@[simp] theorem State.setTag_daddr (s : State) (a : Nat) (t : BitVec 2) : (s.setTag a t).daddr = s.daddr := rfl

@[simp] theorem State.setTag_dr (s : State) (a : Nat) (t : BitVec 2) : (s.setTag a t).dr = s.dr := rfl

@[simp] theorem State.setTag_dvalid (s : State) (a : Nat) (t : BitVec 2) : (s.setTag a t).dvalid = s.dvalid := rfl

@[simp] theorem State.setTag_dtag (s : State) (a : Nat) (t : BitVec 2) : (s.setTag a t).dtag = s.dtag := rfl

@[simp] theorem State.setTag_derror (s : State) (a : Nat) (t : BitVec 2) : (s.setTag a t).derror = s.derror := rfl

@[simp] theorem State.setTag_scOrder (s : State) (a : Nat) (t : BitVec 2) : (s.setTag a t).scOrder = s.scOrder := rfl

@[simp] theorem State.setTag_agenda (s : State) (a : Nat) (t : BitVec 2) : (s.setTag a t).agenda = s.agenda := rfl

@[simp] theorem State.setTag_fresh (s : State) (a : Nat) (t : BitVec 2) : (s.setTag a t).fresh = s.fresh := rfl

@[simp] theorem State.setTag_nextId (s : State) (a : Nat) (t : BitVec 2) : (s.setTag a t).nextId = s.nextId := rfl

@[simp] theorem State.setTag_cur (s : State) (a : Nat) (t : BitVec 2) : (s.setTag a t).cur = s.cur := rfl

@[simp] theorem State.modGroup_powered (s : State) (k : Nat) (f : Group → Group) : (s.modGroup k f).powered = s.powered := by unfold State.modGroup; split <;> rfl

@[simp] theorem State.modGroup_frozen (s : State) (k : Nat) (f : Group → Group) : (s.modGroup k f).frozen = s.frozen := by unfold State.modGroup; split <;> rfl

@[simp] theorem State.modGroup_booted (s : State) (k : Nat) (f : Group → Group) : (s.modGroup k f).booted = s.booted := by unfold State.modGroup; split <;> rfl

@[simp] theorem State.modGroup_stroke (s : State) (k : Nat) (f : Group → Group) : (s.modGroup k f).stroke = s.stroke := by unfold State.modGroup; split <;> rfl

@[simp] theorem State.modGroup_mem (s : State) (k : Nat) (f : Group → Group) : (s.modGroup k f).mem = s.mem := by unfold State.modGroup; split <;> rfl

@[simp] theorem State.modGroup_tags (s : State) (k : Nat) (f : Group → Group) : (s.modGroup k f).tags = s.tags := by unfold State.modGroup; split <;> rfl

@[simp] theorem State.modGroup_hostMem (s : State) (k : Nat) (f : Group → Group) : (s.modGroup k f).hostMem = s.hostMem := by unfold State.modGroup; split <;> rfl

@[simp] theorem State.modGroup_bad (s : State) (k : Nat) (f : Group → Group) : (s.modGroup k f).bad = s.bad := by unfold State.modGroup; split <;> rfl

@[simp] theorem State.modGroup_troots (s : State) (k : Nat) (f : Group → Group) : (s.modGroup k f).troots = s.troots := by unfold State.modGroup; split <;> rfl

@[simp] theorem State.modGroup_devid (s : State) (k : Nat) (f : Group → Group) : (s.modGroup k f).devid = s.devid := by unfold State.modGroup; split <;> rfl

@[simp] theorem State.modGroup_wrsel (s : State) (k : Nat) (f : Group → Group) : (s.modGroup k f).wrsel = s.wrsel := by unfold State.modGroup; split <;> rfl

@[simp] theorem State.modGroup_routes (s : State) (k : Nat) (f : Group → Group) : (s.modGroup k f).routes = s.routes := by unfold State.modGroup; split <;> rfl

@[simp] theorem State.modGroup_lostLinks (s : State) (k : Nat) (f : Group → Group) : (s.modGroup k f).lostLinks = s.lostLinks := by unfold State.modGroup; split <;> rfl

@[simp] theorem State.modGroup_cores (s : State) (k : Nat) (f : Group → Group) : (s.modGroup k f).cores = s.cores := by unfold State.modGroup; split <;> rfl

@[simp] theorem State.modGroup_teams (s : State) (k : Nat) (f : Group → Group) : (s.modGroup k f).teams = s.teams := by unfold State.modGroup; split <;> rfl

@[simp] theorem State.modGroup_saved (s : State) (k : Nat) (f : Group → Group) : (s.modGroup k f).saved = s.saved := by unfold State.modGroup; split <;> rfl

@[simp] theorem State.modGroup_calls (s : State) (k : Nat) (f : Group → Group) : (s.modGroup k f).calls = s.calls := by unfold State.modGroup; split <;> rfl

@[simp] theorem State.modGroup_dies (s : State) (k : Nat) (f : Group → Group) : (s.modGroup k f).dies = s.dies := by unfold State.modGroup; split <;> rfl

@[simp] theorem State.modGroup_arb (s : State) (k : Nat) (f : Group → Group) : (s.modGroup k f).arb = s.arb := by unfold State.modGroup; split <;> rfl

@[simp] theorem State.modGroup_arbLast (s : State) (k : Nat) (f : Group → Group) : (s.modGroup k f).arbLast = s.arbLast := by unfold State.modGroup; split <;> rfl

@[simp] theorem State.modGroup_wotisOut (s : State) (k : Nat) (f : Group → Group) : (s.modGroup k f).wotisOut = s.wotisOut := by unfold State.modGroup; split <;> rfl

@[simp] theorem State.modGroup_wotisSeq (s : State) (k : Nat) (f : Group → Group) : (s.modGroup k f).wotisSeq = s.wotisSeq := by unfold State.modGroup; split <;> rfl

@[simp] theorem State.modGroup_peerWaits (s : State) (k : Nat) (f : Group → Group) : (s.modGroup k f).peerWaits = s.peerWaits := by unfold State.modGroup; split <;> rfl

@[simp] theorem State.modGroup_rsBuf (s : State) (k : Nat) (f : Group → Group) : (s.modGroup k f).rsBuf = s.rsBuf := by unfold State.modGroup; split <;> rfl

@[simp] theorem State.modGroup_rsSize (s : State) (k : Nat) (f : Group → Group) : (s.modGroup k f).rsSize = s.rsSize := by unfold State.modGroup; split <;> rfl

@[simp] theorem State.modGroup_rsStat (s : State) (k : Nat) (f : Group → Group) : (s.modGroup k f).rsStat = s.rsStat := by unfold State.modGroup; split <;> rfl

@[simp] theorem State.modGroup_rsAddr (s : State) (k : Nat) (f : Group → Group) : (s.modGroup k f).rsAddr = s.rsAddr := by unfold State.modGroup; split <;> rfl

@[simp] theorem State.modGroup_rsLen (s : State) (k : Nat) (f : Group → Group) : (s.modGroup k f).rsLen = s.rsLen := by unfold State.modGroup; split <;> rfl

@[simp] theorem State.modGroup_evStatus (s : State) (k : Nat) (f : Group → Group) : (s.modGroup k f).evStatus = s.evStatus := by unfold State.modGroup; split <;> rfl

@[simp] theorem State.modGroup_evEnable (s : State) (k : Nat) (f : Group → Group) : (s.modGroup k f).evEnable = s.evEnable := by unfold State.modGroup; split <;> rfl

@[simp] theorem State.modGroup_cxlio (s : State) (k : Nat) (f : Group → Group) : (s.modGroup k f).cxlio = s.cxlio := by unfold State.modGroup; split <;> rfl

@[simp] theorem State.modGroup_mailbox (s : State) (k : Nat) (f : Group → Group) : (s.modGroup k f).mailbox = s.mailbox := by unfold State.modGroup; split <;> rfl

@[simp] theorem State.modGroup_boxStat (s : State) (k : Nat) (f : Group → Group) : (s.modGroup k f).boxStat = s.boxStat := by unfold State.modGroup; split <;> rfl

@[simp] theorem State.modGroup_image (s : State) (k : Nat) (f : Group → Group) : (s.modGroup k f).image = s.image := by unfold State.modGroup; split <;> rfl

@[simp] theorem State.modGroup_msix (s : State) (k : Nat) (f : Group → Group) : (s.modGroup k f).msix = s.msix := by unfold State.modGroup; split <;> rfl

@[simp] theorem State.modGroup_sent (s : State) (k : Nat) (f : Group → Group) : (s.modGroup k f).sent = s.sent := by unfold State.modGroup; split <;> rfl

@[simp] theorem State.modGroup_nonce (s : State) (k : Nat) (f : Group → Group) : (s.modGroup k f).nonce = s.nonce := by unfold State.modGroup; split <;> rfl

@[simp] theorem State.modGroup_report (s : State) (k : Nat) (f : Group → Group) : (s.modGroup k f).report = s.report := by unfold State.modGroup; split <;> rfl

@[simp] theorem State.modGroup_power (s : State) (k : Nat) (f : Group → Group) : (s.modGroup k f).power = s.power := by unfold State.modGroup; split <;> rfl

@[simp] theorem State.modGroup_alert (s : State) (k : Nat) (f : Group → Group) : (s.modGroup k f).alert = s.alert := by unfold State.modGroup; split <;> rfl

@[simp] theorem State.modGroup_hostRead (s : State) (k : Nat) (f : Group → Group) : (s.modGroup k f).hostRead = s.hostRead := by unfold State.modGroup; split <;> rfl

@[simp] theorem State.modGroup_hostWaits (s : State) (k : Nat) (f : Group → Group) : (s.modGroup k f).hostWaits = s.hostWaits := by unfold State.modGroup; split <;> rfl

@[simp] theorem State.modGroup_windows (s : State) (k : Nat) (f : Group → Group) : (s.modGroup k f).windows = s.windows := by unfold State.modGroup; split <;> rfl

@[simp] theorem State.modGroup_ir (s : State) (k : Nat) (f : Group → Group) : (s.modGroup k f).ir = s.ir := by unfold State.modGroup; split <;> rfl

@[simp] theorem State.modGroup_daddr (s : State) (k : Nat) (f : Group → Group) : (s.modGroup k f).daddr = s.daddr := by unfold State.modGroup; split <;> rfl

@[simp] theorem State.modGroup_dr (s : State) (k : Nat) (f : Group → Group) : (s.modGroup k f).dr = s.dr := by unfold State.modGroup; split <;> rfl

@[simp] theorem State.modGroup_dvalid (s : State) (k : Nat) (f : Group → Group) : (s.modGroup k f).dvalid = s.dvalid := by unfold State.modGroup; split <;> rfl

@[simp] theorem State.modGroup_dtag (s : State) (k : Nat) (f : Group → Group) : (s.modGroup k f).dtag = s.dtag := by unfold State.modGroup; split <;> rfl

@[simp] theorem State.modGroup_derror (s : State) (k : Nat) (f : Group → Group) : (s.modGroup k f).derror = s.derror := by unfold State.modGroup; split <;> rfl

@[simp] theorem State.modGroup_scOrder (s : State) (k : Nat) (f : Group → Group) : (s.modGroup k f).scOrder = s.scOrder := by unfold State.modGroup; split <;> rfl

@[simp] theorem State.modGroup_agenda (s : State) (k : Nat) (f : Group → Group) : (s.modGroup k f).agenda = s.agenda := by unfold State.modGroup; split <;> rfl

@[simp] theorem State.modGroup_fresh (s : State) (k : Nat) (f : Group → Group) : (s.modGroup k f).fresh = s.fresh := by unfold State.modGroup; split <;> rfl

@[simp] theorem State.modGroup_nextId (s : State) (k : Nat) (f : Group → Group) : (s.modGroup k f).nextId = s.nextId := by unfold State.modGroup; split <;> rfl

@[simp] theorem State.modGroup_cur (s : State) (k : Nat) (f : Group → Group) : (s.modGroup k f).cur = s.cur := by unfold State.modGroup; split <;> rfl

@[simp] theorem State.modTeam_powered (s : State) (k : Nat) (f : Team → Team) : (s.modTeam k f).powered = s.powered := by unfold State.modTeam; split <;> rfl

@[simp] theorem State.modTeam_frozen (s : State) (k : Nat) (f : Team → Team) : (s.modTeam k f).frozen = s.frozen := by unfold State.modTeam; split <;> rfl

@[simp] theorem State.modTeam_booted (s : State) (k : Nat) (f : Team → Team) : (s.modTeam k f).booted = s.booted := by unfold State.modTeam; split <;> rfl

@[simp] theorem State.modTeam_stroke (s : State) (k : Nat) (f : Team → Team) : (s.modTeam k f).stroke = s.stroke := by unfold State.modTeam; split <;> rfl

@[simp] theorem State.modTeam_mem (s : State) (k : Nat) (f : Team → Team) : (s.modTeam k f).mem = s.mem := by unfold State.modTeam; split <;> rfl

@[simp] theorem State.modTeam_tags (s : State) (k : Nat) (f : Team → Team) : (s.modTeam k f).tags = s.tags := by unfold State.modTeam; split <;> rfl

@[simp] theorem State.modTeam_hostMem (s : State) (k : Nat) (f : Team → Team) : (s.modTeam k f).hostMem = s.hostMem := by unfold State.modTeam; split <;> rfl

@[simp] theorem State.modTeam_bad (s : State) (k : Nat) (f : Team → Team) : (s.modTeam k f).bad = s.bad := by unfold State.modTeam; split <;> rfl

@[simp] theorem State.modTeam_troots (s : State) (k : Nat) (f : Team → Team) : (s.modTeam k f).troots = s.troots := by unfold State.modTeam; split <;> rfl

@[simp] theorem State.modTeam_devid (s : State) (k : Nat) (f : Team → Team) : (s.modTeam k f).devid = s.devid := by unfold State.modTeam; split <;> rfl

@[simp] theorem State.modTeam_wrsel (s : State) (k : Nat) (f : Team → Team) : (s.modTeam k f).wrsel = s.wrsel := by unfold State.modTeam; split <;> rfl

@[simp] theorem State.modTeam_routes (s : State) (k : Nat) (f : Team → Team) : (s.modTeam k f).routes = s.routes := by unfold State.modTeam; split <;> rfl

@[simp] theorem State.modTeam_lostLinks (s : State) (k : Nat) (f : Team → Team) : (s.modTeam k f).lostLinks = s.lostLinks := by unfold State.modTeam; split <;> rfl

@[simp] theorem State.modTeam_cores (s : State) (k : Nat) (f : Team → Team) : (s.modTeam k f).cores = s.cores := by unfold State.modTeam; split <;> rfl

@[simp] theorem State.modTeam_saved (s : State) (k : Nat) (f : Team → Team) : (s.modTeam k f).saved = s.saved := by unfold State.modTeam; split <;> rfl

@[simp] theorem State.modTeam_groups (s : State) (k : Nat) (f : Team → Team) : (s.modTeam k f).groups = s.groups := by unfold State.modTeam; split <;> rfl

@[simp] theorem State.modTeam_calls (s : State) (k : Nat) (f : Team → Team) : (s.modTeam k f).calls = s.calls := by unfold State.modTeam; split <;> rfl

@[simp] theorem State.modTeam_dies (s : State) (k : Nat) (f : Team → Team) : (s.modTeam k f).dies = s.dies := by unfold State.modTeam; split <;> rfl

@[simp] theorem State.modTeam_arb (s : State) (k : Nat) (f : Team → Team) : (s.modTeam k f).arb = s.arb := by unfold State.modTeam; split <;> rfl

@[simp] theorem State.modTeam_arbLast (s : State) (k : Nat) (f : Team → Team) : (s.modTeam k f).arbLast = s.arbLast := by unfold State.modTeam; split <;> rfl

@[simp] theorem State.modTeam_wotisOut (s : State) (k : Nat) (f : Team → Team) : (s.modTeam k f).wotisOut = s.wotisOut := by unfold State.modTeam; split <;> rfl

@[simp] theorem State.modTeam_wotisSeq (s : State) (k : Nat) (f : Team → Team) : (s.modTeam k f).wotisSeq = s.wotisSeq := by unfold State.modTeam; split <;> rfl

@[simp] theorem State.modTeam_peerWaits (s : State) (k : Nat) (f : Team → Team) : (s.modTeam k f).peerWaits = s.peerWaits := by unfold State.modTeam; split <;> rfl

@[simp] theorem State.modTeam_rsBuf (s : State) (k : Nat) (f : Team → Team) : (s.modTeam k f).rsBuf = s.rsBuf := by unfold State.modTeam; split <;> rfl

@[simp] theorem State.modTeam_rsSize (s : State) (k : Nat) (f : Team → Team) : (s.modTeam k f).rsSize = s.rsSize := by unfold State.modTeam; split <;> rfl

@[simp] theorem State.modTeam_rsStat (s : State) (k : Nat) (f : Team → Team) : (s.modTeam k f).rsStat = s.rsStat := by unfold State.modTeam; split <;> rfl

@[simp] theorem State.modTeam_rsAddr (s : State) (k : Nat) (f : Team → Team) : (s.modTeam k f).rsAddr = s.rsAddr := by unfold State.modTeam; split <;> rfl

@[simp] theorem State.modTeam_rsLen (s : State) (k : Nat) (f : Team → Team) : (s.modTeam k f).rsLen = s.rsLen := by unfold State.modTeam; split <;> rfl

@[simp] theorem State.modTeam_evStatus (s : State) (k : Nat) (f : Team → Team) : (s.modTeam k f).evStatus = s.evStatus := by unfold State.modTeam; split <;> rfl

@[simp] theorem State.modTeam_evEnable (s : State) (k : Nat) (f : Team → Team) : (s.modTeam k f).evEnable = s.evEnable := by unfold State.modTeam; split <;> rfl

@[simp] theorem State.modTeam_cxlio (s : State) (k : Nat) (f : Team → Team) : (s.modTeam k f).cxlio = s.cxlio := by unfold State.modTeam; split <;> rfl

@[simp] theorem State.modTeam_mailbox (s : State) (k : Nat) (f : Team → Team) : (s.modTeam k f).mailbox = s.mailbox := by unfold State.modTeam; split <;> rfl

@[simp] theorem State.modTeam_boxStat (s : State) (k : Nat) (f : Team → Team) : (s.modTeam k f).boxStat = s.boxStat := by unfold State.modTeam; split <;> rfl

@[simp] theorem State.modTeam_image (s : State) (k : Nat) (f : Team → Team) : (s.modTeam k f).image = s.image := by unfold State.modTeam; split <;> rfl

@[simp] theorem State.modTeam_msix (s : State) (k : Nat) (f : Team → Team) : (s.modTeam k f).msix = s.msix := by unfold State.modTeam; split <;> rfl

@[simp] theorem State.modTeam_sent (s : State) (k : Nat) (f : Team → Team) : (s.modTeam k f).sent = s.sent := by unfold State.modTeam; split <;> rfl

@[simp] theorem State.modTeam_nonce (s : State) (k : Nat) (f : Team → Team) : (s.modTeam k f).nonce = s.nonce := by unfold State.modTeam; split <;> rfl

@[simp] theorem State.modTeam_report (s : State) (k : Nat) (f : Team → Team) : (s.modTeam k f).report = s.report := by unfold State.modTeam; split <;> rfl

@[simp] theorem State.modTeam_power (s : State) (k : Nat) (f : Team → Team) : (s.modTeam k f).power = s.power := by unfold State.modTeam; split <;> rfl

@[simp] theorem State.modTeam_alert (s : State) (k : Nat) (f : Team → Team) : (s.modTeam k f).alert = s.alert := by unfold State.modTeam; split <;> rfl

@[simp] theorem State.modTeam_hostRead (s : State) (k : Nat) (f : Team → Team) : (s.modTeam k f).hostRead = s.hostRead := by unfold State.modTeam; split <;> rfl

@[simp] theorem State.modTeam_hostWaits (s : State) (k : Nat) (f : Team → Team) : (s.modTeam k f).hostWaits = s.hostWaits := by unfold State.modTeam; split <;> rfl

@[simp] theorem State.modTeam_windows (s : State) (k : Nat) (f : Team → Team) : (s.modTeam k f).windows = s.windows := by unfold State.modTeam; split <;> rfl

@[simp] theorem State.modTeam_ir (s : State) (k : Nat) (f : Team → Team) : (s.modTeam k f).ir = s.ir := by unfold State.modTeam; split <;> rfl

@[simp] theorem State.modTeam_daddr (s : State) (k : Nat) (f : Team → Team) : (s.modTeam k f).daddr = s.daddr := by unfold State.modTeam; split <;> rfl

@[simp] theorem State.modTeam_dr (s : State) (k : Nat) (f : Team → Team) : (s.modTeam k f).dr = s.dr := by unfold State.modTeam; split <;> rfl

@[simp] theorem State.modTeam_dvalid (s : State) (k : Nat) (f : Team → Team) : (s.modTeam k f).dvalid = s.dvalid := by unfold State.modTeam; split <;> rfl

@[simp] theorem State.modTeam_dtag (s : State) (k : Nat) (f : Team → Team) : (s.modTeam k f).dtag = s.dtag := by unfold State.modTeam; split <;> rfl

@[simp] theorem State.modTeam_derror (s : State) (k : Nat) (f : Team → Team) : (s.modTeam k f).derror = s.derror := by unfold State.modTeam; split <;> rfl

@[simp] theorem State.modTeam_scOrder (s : State) (k : Nat) (f : Team → Team) : (s.modTeam k f).scOrder = s.scOrder := by unfold State.modTeam; split <;> rfl

@[simp] theorem State.modTeam_agenda (s : State) (k : Nat) (f : Team → Team) : (s.modTeam k f).agenda = s.agenda := by unfold State.modTeam; split <;> rfl

@[simp] theorem State.modTeam_fresh (s : State) (k : Nat) (f : Team → Team) : (s.modTeam k f).fresh = s.fresh := by unfold State.modTeam; split <;> rfl

@[simp] theorem State.modTeam_nextId (s : State) (k : Nat) (f : Team → Team) : (s.modTeam k f).nextId = s.nextId := by unfold State.modTeam; split <;> rfl

@[simp] theorem State.modTeam_cur (s : State) (k : Nat) (f : Team → Team) : (s.modTeam k f).cur = s.cur := by unfold State.modTeam; split <;> rfl

@[simp] theorem State.modLane_powered (s : State) (k p : Nat) (f : Lane → Lane) : (s.modLane k p f).powered = s.powered := State.modGroup_powered _ _ _

@[simp] theorem State.modLane_frozen (s : State) (k p : Nat) (f : Lane → Lane) : (s.modLane k p f).frozen = s.frozen := State.modGroup_frozen _ _ _

@[simp] theorem State.modLane_booted (s : State) (k p : Nat) (f : Lane → Lane) : (s.modLane k p f).booted = s.booted := State.modGroup_booted _ _ _

@[simp] theorem State.modLane_stroke (s : State) (k p : Nat) (f : Lane → Lane) : (s.modLane k p f).stroke = s.stroke := State.modGroup_stroke _ _ _

@[simp] theorem State.modLane_mem (s : State) (k p : Nat) (f : Lane → Lane) : (s.modLane k p f).mem = s.mem := State.modGroup_mem _ _ _

@[simp] theorem State.modLane_tags (s : State) (k p : Nat) (f : Lane → Lane) : (s.modLane k p f).tags = s.tags := State.modGroup_tags _ _ _

@[simp] theorem State.modLane_hostMem (s : State) (k p : Nat) (f : Lane → Lane) : (s.modLane k p f).hostMem = s.hostMem := State.modGroup_hostMem _ _ _

@[simp] theorem State.modLane_bad (s : State) (k p : Nat) (f : Lane → Lane) : (s.modLane k p f).bad = s.bad := State.modGroup_bad _ _ _

@[simp] theorem State.modLane_troots (s : State) (k p : Nat) (f : Lane → Lane) : (s.modLane k p f).troots = s.troots := State.modGroup_troots _ _ _

@[simp] theorem State.modLane_devid (s : State) (k p : Nat) (f : Lane → Lane) : (s.modLane k p f).devid = s.devid := State.modGroup_devid _ _ _

@[simp] theorem State.modLane_wrsel (s : State) (k p : Nat) (f : Lane → Lane) : (s.modLane k p f).wrsel = s.wrsel := State.modGroup_wrsel _ _ _

@[simp] theorem State.modLane_routes (s : State) (k p : Nat) (f : Lane → Lane) : (s.modLane k p f).routes = s.routes := State.modGroup_routes _ _ _

@[simp] theorem State.modLane_lostLinks (s : State) (k p : Nat) (f : Lane → Lane) : (s.modLane k p f).lostLinks = s.lostLinks := State.modGroup_lostLinks _ _ _

@[simp] theorem State.modLane_cores (s : State) (k p : Nat) (f : Lane → Lane) : (s.modLane k p f).cores = s.cores := State.modGroup_cores _ _ _

@[simp] theorem State.modLane_teams (s : State) (k p : Nat) (f : Lane → Lane) : (s.modLane k p f).teams = s.teams := State.modGroup_teams _ _ _

@[simp] theorem State.modLane_saved (s : State) (k p : Nat) (f : Lane → Lane) : (s.modLane k p f).saved = s.saved := State.modGroup_saved _ _ _

@[simp] theorem State.modLane_calls (s : State) (k p : Nat) (f : Lane → Lane) : (s.modLane k p f).calls = s.calls := State.modGroup_calls _ _ _

@[simp] theorem State.modLane_dies (s : State) (k p : Nat) (f : Lane → Lane) : (s.modLane k p f).dies = s.dies := State.modGroup_dies _ _ _

@[simp] theorem State.modLane_arb (s : State) (k p : Nat) (f : Lane → Lane) : (s.modLane k p f).arb = s.arb := State.modGroup_arb _ _ _

@[simp] theorem State.modLane_arbLast (s : State) (k p : Nat) (f : Lane → Lane) : (s.modLane k p f).arbLast = s.arbLast := State.modGroup_arbLast _ _ _

@[simp] theorem State.modLane_wotisOut (s : State) (k p : Nat) (f : Lane → Lane) : (s.modLane k p f).wotisOut = s.wotisOut := State.modGroup_wotisOut _ _ _

@[simp] theorem State.modLane_wotisSeq (s : State) (k p : Nat) (f : Lane → Lane) : (s.modLane k p f).wotisSeq = s.wotisSeq := State.modGroup_wotisSeq _ _ _

@[simp] theorem State.modLane_peerWaits (s : State) (k p : Nat) (f : Lane → Lane) : (s.modLane k p f).peerWaits = s.peerWaits := State.modGroup_peerWaits _ _ _

@[simp] theorem State.modLane_rsBuf (s : State) (k p : Nat) (f : Lane → Lane) : (s.modLane k p f).rsBuf = s.rsBuf := State.modGroup_rsBuf _ _ _

@[simp] theorem State.modLane_rsSize (s : State) (k p : Nat) (f : Lane → Lane) : (s.modLane k p f).rsSize = s.rsSize := State.modGroup_rsSize _ _ _

@[simp] theorem State.modLane_rsStat (s : State) (k p : Nat) (f : Lane → Lane) : (s.modLane k p f).rsStat = s.rsStat := State.modGroup_rsStat _ _ _

@[simp] theorem State.modLane_rsAddr (s : State) (k p : Nat) (f : Lane → Lane) : (s.modLane k p f).rsAddr = s.rsAddr := State.modGroup_rsAddr _ _ _

@[simp] theorem State.modLane_rsLen (s : State) (k p : Nat) (f : Lane → Lane) : (s.modLane k p f).rsLen = s.rsLen := State.modGroup_rsLen _ _ _

@[simp] theorem State.modLane_evStatus (s : State) (k p : Nat) (f : Lane → Lane) : (s.modLane k p f).evStatus = s.evStatus := State.modGroup_evStatus _ _ _

@[simp] theorem State.modLane_evEnable (s : State) (k p : Nat) (f : Lane → Lane) : (s.modLane k p f).evEnable = s.evEnable := State.modGroup_evEnable _ _ _

@[simp] theorem State.modLane_cxlio (s : State) (k p : Nat) (f : Lane → Lane) : (s.modLane k p f).cxlio = s.cxlio := State.modGroup_cxlio _ _ _

@[simp] theorem State.modLane_mailbox (s : State) (k p : Nat) (f : Lane → Lane) : (s.modLane k p f).mailbox = s.mailbox := State.modGroup_mailbox _ _ _

@[simp] theorem State.modLane_boxStat (s : State) (k p : Nat) (f : Lane → Lane) : (s.modLane k p f).boxStat = s.boxStat := State.modGroup_boxStat _ _ _

@[simp] theorem State.modLane_image (s : State) (k p : Nat) (f : Lane → Lane) : (s.modLane k p f).image = s.image := State.modGroup_image _ _ _

@[simp] theorem State.modLane_msix (s : State) (k p : Nat) (f : Lane → Lane) : (s.modLane k p f).msix = s.msix := State.modGroup_msix _ _ _

@[simp] theorem State.modLane_sent (s : State) (k p : Nat) (f : Lane → Lane) : (s.modLane k p f).sent = s.sent := State.modGroup_sent _ _ _

@[simp] theorem State.modLane_nonce (s : State) (k p : Nat) (f : Lane → Lane) : (s.modLane k p f).nonce = s.nonce := State.modGroup_nonce _ _ _

@[simp] theorem State.modLane_report (s : State) (k p : Nat) (f : Lane → Lane) : (s.modLane k p f).report = s.report := State.modGroup_report _ _ _

@[simp] theorem State.modLane_power (s : State) (k p : Nat) (f : Lane → Lane) : (s.modLane k p f).power = s.power := State.modGroup_power _ _ _

@[simp] theorem State.modLane_alert (s : State) (k p : Nat) (f : Lane → Lane) : (s.modLane k p f).alert = s.alert := State.modGroup_alert _ _ _

@[simp] theorem State.modLane_hostRead (s : State) (k p : Nat) (f : Lane → Lane) : (s.modLane k p f).hostRead = s.hostRead := State.modGroup_hostRead _ _ _

@[simp] theorem State.modLane_hostWaits (s : State) (k p : Nat) (f : Lane → Lane) : (s.modLane k p f).hostWaits = s.hostWaits := State.modGroup_hostWaits _ _ _

@[simp] theorem State.modLane_windows (s : State) (k p : Nat) (f : Lane → Lane) : (s.modLane k p f).windows = s.windows := State.modGroup_windows _ _ _

@[simp] theorem State.modLane_ir (s : State) (k p : Nat) (f : Lane → Lane) : (s.modLane k p f).ir = s.ir := State.modGroup_ir _ _ _

@[simp] theorem State.modLane_daddr (s : State) (k p : Nat) (f : Lane → Lane) : (s.modLane k p f).daddr = s.daddr := State.modGroup_daddr _ _ _

@[simp] theorem State.modLane_dr (s : State) (k p : Nat) (f : Lane → Lane) : (s.modLane k p f).dr = s.dr := State.modGroup_dr _ _ _

@[simp] theorem State.modLane_dvalid (s : State) (k p : Nat) (f : Lane → Lane) : (s.modLane k p f).dvalid = s.dvalid := State.modGroup_dvalid _ _ _

@[simp] theorem State.modLane_dtag (s : State) (k p : Nat) (f : Lane → Lane) : (s.modLane k p f).dtag = s.dtag := State.modGroup_dtag _ _ _

@[simp] theorem State.modLane_derror (s : State) (k p : Nat) (f : Lane → Lane) : (s.modLane k p f).derror = s.derror := State.modGroup_derror _ _ _

@[simp] theorem State.modLane_scOrder (s : State) (k p : Nat) (f : Lane → Lane) : (s.modLane k p f).scOrder = s.scOrder := State.modGroup_scOrder _ _ _

@[simp] theorem State.modLane_agenda (s : State) (k p : Nat) (f : Lane → Lane) : (s.modLane k p f).agenda = s.agenda := State.modGroup_agenda _ _ _

@[simp] theorem State.modLane_fresh (s : State) (k p : Nat) (f : Lane → Lane) : (s.modLane k p f).fresh = s.fresh := State.modGroup_fresh _ _ _

@[simp] theorem State.modLane_nextId (s : State) (k p : Nat) (f : Lane → Lane) : (s.modLane k p f).nextId = s.nextId := State.modGroup_nextId _ _ _

@[simp] theorem State.modLane_cur (s : State) (k p : Nat) (f : Lane → Lane) : (s.modLane k p f).cur = s.cur := State.modGroup_cur _ _ _

@[simp] theorem State.advance_powered (s : State) (c : Issue) : (s.advance c).powered = s.powered := State.modGroup_powered _ _ _

@[simp] theorem State.advance_frozen (s : State) (c : Issue) : (s.advance c).frozen = s.frozen := State.modGroup_frozen _ _ _

@[simp] theorem State.advance_booted (s : State) (c : Issue) : (s.advance c).booted = s.booted := State.modGroup_booted _ _ _

@[simp] theorem State.advance_stroke (s : State) (c : Issue) : (s.advance c).stroke = s.stroke := State.modGroup_stroke _ _ _

@[simp] theorem State.advance_mem (s : State) (c : Issue) : (s.advance c).mem = s.mem := State.modGroup_mem _ _ _

@[simp] theorem State.advance_tags (s : State) (c : Issue) : (s.advance c).tags = s.tags := State.modGroup_tags _ _ _

@[simp] theorem State.advance_hostMem (s : State) (c : Issue) : (s.advance c).hostMem = s.hostMem := State.modGroup_hostMem _ _ _

@[simp] theorem State.advance_bad (s : State) (c : Issue) : (s.advance c).bad = s.bad := State.modGroup_bad _ _ _

@[simp] theorem State.advance_troots (s : State) (c : Issue) : (s.advance c).troots = s.troots := State.modGroup_troots _ _ _

@[simp] theorem State.advance_devid (s : State) (c : Issue) : (s.advance c).devid = s.devid := State.modGroup_devid _ _ _

@[simp] theorem State.advance_wrsel (s : State) (c : Issue) : (s.advance c).wrsel = s.wrsel := State.modGroup_wrsel _ _ _

@[simp] theorem State.advance_routes (s : State) (c : Issue) : (s.advance c).routes = s.routes := State.modGroup_routes _ _ _

@[simp] theorem State.advance_lostLinks (s : State) (c : Issue) : (s.advance c).lostLinks = s.lostLinks := State.modGroup_lostLinks _ _ _

@[simp] theorem State.advance_cores (s : State) (c : Issue) : (s.advance c).cores = s.cores := State.modGroup_cores _ _ _

@[simp] theorem State.advance_teams (s : State) (c : Issue) : (s.advance c).teams = s.teams := State.modGroup_teams _ _ _

@[simp] theorem State.advance_saved (s : State) (c : Issue) : (s.advance c).saved = s.saved := State.modGroup_saved _ _ _

@[simp] theorem State.advance_calls (s : State) (c : Issue) : (s.advance c).calls = s.calls := State.modGroup_calls _ _ _

@[simp] theorem State.advance_dies (s : State) (c : Issue) : (s.advance c).dies = s.dies := State.modGroup_dies _ _ _

@[simp] theorem State.advance_arb (s : State) (c : Issue) : (s.advance c).arb = s.arb := State.modGroup_arb _ _ _

@[simp] theorem State.advance_arbLast (s : State) (c : Issue) : (s.advance c).arbLast = s.arbLast := State.modGroup_arbLast _ _ _

@[simp] theorem State.advance_wotisOut (s : State) (c : Issue) : (s.advance c).wotisOut = s.wotisOut := State.modGroup_wotisOut _ _ _

@[simp] theorem State.advance_wotisSeq (s : State) (c : Issue) : (s.advance c).wotisSeq = s.wotisSeq := State.modGroup_wotisSeq _ _ _

@[simp] theorem State.advance_peerWaits (s : State) (c : Issue) : (s.advance c).peerWaits = s.peerWaits := State.modGroup_peerWaits _ _ _

@[simp] theorem State.advance_rsBuf (s : State) (c : Issue) : (s.advance c).rsBuf = s.rsBuf := State.modGroup_rsBuf _ _ _

@[simp] theorem State.advance_rsSize (s : State) (c : Issue) : (s.advance c).rsSize = s.rsSize := State.modGroup_rsSize _ _ _

@[simp] theorem State.advance_rsStat (s : State) (c : Issue) : (s.advance c).rsStat = s.rsStat := State.modGroup_rsStat _ _ _

@[simp] theorem State.advance_rsAddr (s : State) (c : Issue) : (s.advance c).rsAddr = s.rsAddr := State.modGroup_rsAddr _ _ _

@[simp] theorem State.advance_rsLen (s : State) (c : Issue) : (s.advance c).rsLen = s.rsLen := State.modGroup_rsLen _ _ _

@[simp] theorem State.advance_evStatus (s : State) (c : Issue) : (s.advance c).evStatus = s.evStatus := State.modGroup_evStatus _ _ _

@[simp] theorem State.advance_evEnable (s : State) (c : Issue) : (s.advance c).evEnable = s.evEnable := State.modGroup_evEnable _ _ _

@[simp] theorem State.advance_cxlio (s : State) (c : Issue) : (s.advance c).cxlio = s.cxlio := State.modGroup_cxlio _ _ _

@[simp] theorem State.advance_mailbox (s : State) (c : Issue) : (s.advance c).mailbox = s.mailbox := State.modGroup_mailbox _ _ _

@[simp] theorem State.advance_boxStat (s : State) (c : Issue) : (s.advance c).boxStat = s.boxStat := State.modGroup_boxStat _ _ _

@[simp] theorem State.advance_image (s : State) (c : Issue) : (s.advance c).image = s.image := State.modGroup_image _ _ _

@[simp] theorem State.advance_msix (s : State) (c : Issue) : (s.advance c).msix = s.msix := State.modGroup_msix _ _ _

@[simp] theorem State.advance_sent (s : State) (c : Issue) : (s.advance c).sent = s.sent := State.modGroup_sent _ _ _

@[simp] theorem State.advance_nonce (s : State) (c : Issue) : (s.advance c).nonce = s.nonce := State.modGroup_nonce _ _ _

@[simp] theorem State.advance_report (s : State) (c : Issue) : (s.advance c).report = s.report := State.modGroup_report _ _ _

@[simp] theorem State.advance_power (s : State) (c : Issue) : (s.advance c).power = s.power := State.modGroup_power _ _ _

@[simp] theorem State.advance_alert (s : State) (c : Issue) : (s.advance c).alert = s.alert := State.modGroup_alert _ _ _

@[simp] theorem State.advance_hostRead (s : State) (c : Issue) : (s.advance c).hostRead = s.hostRead := State.modGroup_hostRead _ _ _

@[simp] theorem State.advance_hostWaits (s : State) (c : Issue) : (s.advance c).hostWaits = s.hostWaits := State.modGroup_hostWaits _ _ _

@[simp] theorem State.advance_windows (s : State) (c : Issue) : (s.advance c).windows = s.windows := State.modGroup_windows _ _ _

@[simp] theorem State.advance_ir (s : State) (c : Issue) : (s.advance c).ir = s.ir := State.modGroup_ir _ _ _

@[simp] theorem State.advance_daddr (s : State) (c : Issue) : (s.advance c).daddr = s.daddr := State.modGroup_daddr _ _ _

@[simp] theorem State.advance_dr (s : State) (c : Issue) : (s.advance c).dr = s.dr := State.modGroup_dr _ _ _

@[simp] theorem State.advance_dvalid (s : State) (c : Issue) : (s.advance c).dvalid = s.dvalid := State.modGroup_dvalid _ _ _

@[simp] theorem State.advance_dtag (s : State) (c : Issue) : (s.advance c).dtag = s.dtag := State.modGroup_dtag _ _ _

@[simp] theorem State.advance_derror (s : State) (c : Issue) : (s.advance c).derror = s.derror := State.modGroup_derror _ _ _

@[simp] theorem State.advance_scOrder (s : State) (c : Issue) : (s.advance c).scOrder = s.scOrder := State.modGroup_scOrder _ _ _

@[simp] theorem State.advance_agenda (s : State) (c : Issue) : (s.advance c).agenda = s.agenda := State.modGroup_agenda _ _ _

@[simp] theorem State.advance_fresh (s : State) (c : Issue) : (s.advance c).fresh = s.fresh := State.modGroup_fresh _ _ _

@[simp] theorem State.advance_nextId (s : State) (c : Issue) : (s.advance c).nextId = s.nextId := State.modGroup_nextId _ _ _

@[simp] theorem State.advance_cur (s : State) (c : Issue) : (s.advance c).cur = s.cur := State.modGroup_cur _ _ _

/-! ### Groups -/

@[simp] theorem Group.setLane_tid (g : Group) (p : Nat) (l : Lane) : (g.setLane p l).tid = g.tid := rfl

@[simp] theorem Group.setLane_index (g : Group) (p : Nat) (l : Lane) : (g.setLane p l).index = g.index := rfl

@[simp] theorem Group.setLane_kind (g : Group) (p : Nat) (l : Lane) : (g.setLane p l).kind = g.kind := rfl

@[simp] theorem Group.setLane_blocks (g : Group) (p : Nat) (l : Lane) : (g.setLane p l).blocks = g.blocks := rfl

@[simp] theorem Group.setLane_frame (g : Group) (p : Nat) (l : Lane) : (g.setLane p l).frame = g.frame := rfl

@[simp] theorem Group.setLane_coupled (g : Group) (p : Nat) (l : Lane) : (g.setLane p l).coupled = g.coupled := rfl

@[simp] theorem Group.setLane_released (g : Group) (p : Nat) (l : Lane) : (g.setLane p l).released = g.released := rfl

@[simp] theorem Group.setLane_u (g : Group) (p : Nat) (l : Lane) : (g.setLane p l).u = g.u := rfl

@[simp] theorem Group.setLane_cvm (g : Group) (p : Nat) (l : Lane) : (g.setLane p l).cvm = g.cvm := rfl

@[simp] theorem Group.setLane_gbase (g : Group) (p : Nat) (l : Lane) : (g.setLane p l).gbase = g.gbase := rfl

@[simp] theorem Group.setLane_wsave (g : Group) (p : Nat) (l : Lane) : (g.setLane p l).wsave = g.wsave := rfl

@[simp] theorem Group.setLane_efaddr (g : Group) (p : Nat) (l : Lane) : (g.setLane p l).efaddr = g.efaddr := rfl

@[simp] theorem Group.setLane_parts (g : Group) (p : Nat) (l : Lane) : (g.setLane p l).parts = g.parts := rfl

@[simp] theorem Group.setLane_joins (g : Group) (p : Nat) (l : Lane) : (g.setLane p l).joins = g.joins := rfl

@[simp] theorem Group.setLane_leader (g : Group) (p : Nat) (l : Lane) : (g.setLane p l).leader = g.leader := rfl

@[simp] theorem Group.setLane_colls (g : Group) (p : Nat) (l : Lane) : (g.setLane p l).colls = g.colls := rfl

@[simp] theorem Group.setLane_barMask (g : Group) (p : Nat) (l : Lane) : (g.setLane p l).barMask = g.barMask := rfl

@[simp] theorem Group.setLane_region (g : Group) (p : Nat) (l : Lane) : (g.setLane p l).region = g.region := rfl

@[simp] theorem Group.setLane_entryQ (g : Group) (p : Nat) (l : Lane) : (g.setLane p l).entryQ = g.entryQ := rfl

@[simp] theorem Group.setLane_stop (g : Group) (p : Nat) (l : Lane) : (g.setLane p l).stop = g.stop := rfl

@[simp] theorem Group.setLane_hold (g : Group) (p : Nat) (l : Lane) : (g.setLane p l).hold = g.hold := rfl

@[simp] theorem Group.setLane_acq (g : Group) (p : Nat) (l : Lane) : (g.setLane p l).acq = g.acq := rfl

@[simp] theorem Group.setLane_sysAcq (g : Group) (p : Nat) (l : Lane) : (g.setLane p l).sysAcq = g.sysAcq := rfl

@[simp] theorem Group.setLane_lanes (g : Group) (p : Nat) (l : Lane) : (g.setLane p l).lanes = g.lanes.setIfInBounds p l := rfl

@[simp] theorem Group.mapLanes_tid (g : Group) (m : Mask) (f : Lane → Lane) : (g.mapLanes m f).tid = g.tid := by unfold Group.mapLanes; rfl

@[simp] theorem Group.mapLanes_index (g : Group) (m : Mask) (f : Lane → Lane) : (g.mapLanes m f).index = g.index := by unfold Group.mapLanes; rfl

@[simp] theorem Group.mapLanes_kind (g : Group) (m : Mask) (f : Lane → Lane) : (g.mapLanes m f).kind = g.kind := by unfold Group.mapLanes; rfl

@[simp] theorem Group.mapLanes_blocks (g : Group) (m : Mask) (f : Lane → Lane) : (g.mapLanes m f).blocks = g.blocks := by unfold Group.mapLanes; rfl

@[simp] theorem Group.mapLanes_frame (g : Group) (m : Mask) (f : Lane → Lane) : (g.mapLanes m f).frame = g.frame := by unfold Group.mapLanes; rfl

@[simp] theorem Group.mapLanes_coupled (g : Group) (m : Mask) (f : Lane → Lane) : (g.mapLanes m f).coupled = g.coupled := by unfold Group.mapLanes; rfl

@[simp] theorem Group.mapLanes_released (g : Group) (m : Mask) (f : Lane → Lane) : (g.mapLanes m f).released = g.released := by unfold Group.mapLanes; rfl

@[simp] theorem Group.mapLanes_u (g : Group) (m : Mask) (f : Lane → Lane) : (g.mapLanes m f).u = g.u := by unfold Group.mapLanes; rfl

@[simp] theorem Group.mapLanes_cvm (g : Group) (m : Mask) (f : Lane → Lane) : (g.mapLanes m f).cvm = g.cvm := by unfold Group.mapLanes; rfl

@[simp] theorem Group.mapLanes_gbase (g : Group) (m : Mask) (f : Lane → Lane) : (g.mapLanes m f).gbase = g.gbase := by unfold Group.mapLanes; rfl

@[simp] theorem Group.mapLanes_wsave (g : Group) (m : Mask) (f : Lane → Lane) : (g.mapLanes m f).wsave = g.wsave := by unfold Group.mapLanes; rfl

@[simp] theorem Group.mapLanes_efaddr (g : Group) (m : Mask) (f : Lane → Lane) : (g.mapLanes m f).efaddr = g.efaddr := by unfold Group.mapLanes; rfl

@[simp] theorem Group.mapLanes_parts (g : Group) (m : Mask) (f : Lane → Lane) : (g.mapLanes m f).parts = g.parts := by unfold Group.mapLanes; rfl

@[simp] theorem Group.mapLanes_joins (g : Group) (m : Mask) (f : Lane → Lane) : (g.mapLanes m f).joins = g.joins := by unfold Group.mapLanes; rfl

@[simp] theorem Group.mapLanes_leader (g : Group) (m : Mask) (f : Lane → Lane) : (g.mapLanes m f).leader = g.leader := by unfold Group.mapLanes; rfl

@[simp] theorem Group.mapLanes_colls (g : Group) (m : Mask) (f : Lane → Lane) : (g.mapLanes m f).colls = g.colls := by unfold Group.mapLanes; rfl

@[simp] theorem Group.mapLanes_barMask (g : Group) (m : Mask) (f : Lane → Lane) : (g.mapLanes m f).barMask = g.barMask := by unfold Group.mapLanes; rfl

@[simp] theorem Group.mapLanes_region (g : Group) (m : Mask) (f : Lane → Lane) : (g.mapLanes m f).region = g.region := by unfold Group.mapLanes; rfl

@[simp] theorem Group.mapLanes_entryQ (g : Group) (m : Mask) (f : Lane → Lane) : (g.mapLanes m f).entryQ = g.entryQ := by unfold Group.mapLanes; rfl

@[simp] theorem Group.mapLanes_stop (g : Group) (m : Mask) (f : Lane → Lane) : (g.mapLanes m f).stop = g.stop := by unfold Group.mapLanes; rfl

@[simp] theorem Group.mapLanes_hold (g : Group) (m : Mask) (f : Lane → Lane) : (g.mapLanes m f).hold = g.hold := by unfold Group.mapLanes; rfl

@[simp] theorem Group.mapLanes_acq (g : Group) (m : Mask) (f : Lane → Lane) : (g.mapLanes m f).acq = g.acq := by unfold Group.mapLanes; rfl

@[simp] theorem Group.mapLanes_sysAcq (g : Group) (m : Mask) (f : Lane → Lane) : (g.mapLanes m f).sysAcq = g.sysAcq := by unfold Group.mapLanes; rfl

@[simp] theorem Group.close_tid (g : Group) (c : Issue) : (Group.close c g).tid = g.tid := by unfold Group.close Group.mapLanes; rfl

@[simp] theorem Group.close_index (g : Group) (c : Issue) : (Group.close c g).index = g.index := by unfold Group.close Group.mapLanes; rfl

@[simp] theorem Group.close_kind (g : Group) (c : Issue) : (Group.close c g).kind = g.kind := by unfold Group.close Group.mapLanes; rfl

@[simp] theorem Group.close_blocks (g : Group) (c : Issue) : (Group.close c g).blocks = g.blocks := by unfold Group.close Group.mapLanes; rfl

@[simp] theorem Group.close_frame (g : Group) (c : Issue) : (Group.close c g).frame = g.frame := by unfold Group.close Group.mapLanes; rfl

@[simp] theorem Group.close_coupled (g : Group) (c : Issue) : (Group.close c g).coupled = g.coupled := by unfold Group.close Group.mapLanes; rfl

@[simp] theorem Group.close_released (g : Group) (c : Issue) : (Group.close c g).released = g.released := by unfold Group.close Group.mapLanes; rfl

@[simp] theorem Group.close_u (g : Group) (c : Issue) : (Group.close c g).u = g.u := by unfold Group.close Group.mapLanes; rfl

@[simp] theorem Group.close_cvm (g : Group) (c : Issue) : (Group.close c g).cvm = g.cvm := by unfold Group.close Group.mapLanes; rfl

@[simp] theorem Group.close_gbase (g : Group) (c : Issue) : (Group.close c g).gbase = g.gbase := by unfold Group.close Group.mapLanes; rfl

@[simp] theorem Group.close_wsave (g : Group) (c : Issue) : (Group.close c g).wsave = g.wsave := by unfold Group.close Group.mapLanes; rfl

@[simp] theorem Group.close_efaddr (g : Group) (c : Issue) : (Group.close c g).efaddr = g.efaddr := by unfold Group.close Group.mapLanes; rfl

@[simp] theorem Group.close_parts (g : Group) (c : Issue) : (Group.close c g).parts = g.parts := by unfold Group.close Group.mapLanes; rfl

@[simp] theorem Group.close_joins (g : Group) (c : Issue) : (Group.close c g).joins = g.joins := by unfold Group.close Group.mapLanes; rfl

@[simp] theorem Group.close_leader (g : Group) (c : Issue) : (Group.close c g).leader = g.leader := by unfold Group.close Group.mapLanes; rfl

@[simp] theorem Group.close_colls (g : Group) (c : Issue) : (Group.close c g).colls = g.colls := by unfold Group.close Group.mapLanes; rfl

@[simp] theorem Group.close_barMask (g : Group) (c : Issue) : (Group.close c g).barMask = g.barMask := by unfold Group.close Group.mapLanes; rfl

@[simp] theorem Group.close_region (g : Group) (c : Issue) : (Group.close c g).region = if c.again != 0 && c.lanes &&& ~~~c.again == 0 then g.region else g.region + 1 := by unfold Group.close Group.mapLanes; rfl

@[simp] theorem Group.close_entryQ (g : Group) (c : Issue) : (Group.close c g).entryQ = g.u.q := by unfold Group.close Group.mapLanes; rfl

@[simp] theorem Group.close_stop (g : Group) (c : Issue) : (Group.close c g).stop = g.stop := by unfold Group.close Group.mapLanes; rfl

@[simp] theorem Group.close_hold (g : Group) (c : Issue) : (Group.close c g).hold = g.hold := by unfold Group.close Group.mapLanes; rfl

@[simp] theorem Group.close_acq (g : Group) (c : Issue) : (Group.close c g).acq = g.acq := by unfold Group.close Group.mapLanes; rfl

@[simp] theorem Group.close_sysAcq (g : Group) (c : Issue) : (Group.close c g).sysAcq = g.sysAcq := by unfold Group.close Group.mapLanes; rfl

@[simp] theorem Group.resume_tid (g : Group)  : (g.resume).tid = g.tid := by unfold Group.resume Group.mapLanes; rfl

@[simp] theorem Group.resume_index (g : Group)  : (g.resume).index = g.index := by unfold Group.resume Group.mapLanes; rfl

@[simp] theorem Group.resume_kind (g : Group)  : (g.resume).kind = g.kind := by unfold Group.resume Group.mapLanes; rfl

@[simp] theorem Group.resume_blocks (g : Group)  : (g.resume).blocks = g.blocks := by unfold Group.resume Group.mapLanes; rfl

@[simp] theorem Group.resume_frame (g : Group)  : (g.resume).frame = g.frame := by unfold Group.resume Group.mapLanes; rfl

@[simp] theorem Group.resume_coupled (g : Group)  : (g.resume).coupled = g.coupled := by unfold Group.resume Group.mapLanes; rfl

@[simp] theorem Group.resume_released (g : Group)  : (g.resume).released = g.released := by unfold Group.resume Group.mapLanes; rfl

@[simp] theorem Group.resume_cvm (g : Group)  : (g.resume).cvm = g.cvm := by unfold Group.resume Group.mapLanes; rfl

@[simp] theorem Group.resume_gbase (g : Group)  : (g.resume).gbase = g.gbase := by unfold Group.resume Group.mapLanes; rfl

@[simp] theorem Group.resume_wsave (g : Group)  : (g.resume).wsave = g.wsave := by unfold Group.resume Group.mapLanes; rfl

@[simp] theorem Group.resume_efaddr (g : Group)  : (g.resume).efaddr = g.efaddr := by unfold Group.resume Group.mapLanes; rfl

@[simp] theorem Group.resume_parts (g : Group)  : (g.resume).parts = g.parts := by unfold Group.resume Group.mapLanes; rfl

@[simp] theorem Group.resume_joins (g : Group)  : (g.resume).joins = g.joins := by unfold Group.resume Group.mapLanes; rfl

@[simp] theorem Group.resume_leader (g : Group)  : (g.resume).leader = g.leader := by unfold Group.resume Group.mapLanes; rfl

@[simp] theorem Group.resume_colls (g : Group)  : (g.resume).colls = g.colls := by unfold Group.resume Group.mapLanes; rfl

@[simp] theorem Group.resume_barMask (g : Group)  : (g.resume).barMask = g.barMask := by unfold Group.resume Group.mapLanes; rfl

@[simp] theorem Group.resume_region (g : Group)  : (g.resume).region = g.region := by unfold Group.resume Group.mapLanes; rfl

@[simp] theorem Group.resume_entryQ (g : Group)  : (g.resume).entryQ = g.entryQ := by unfold Group.resume Group.mapLanes; rfl

@[simp] theorem Group.resume_stop (g : Group)  : (g.resume).stop = none := by unfold Group.resume Group.mapLanes; rfl

@[simp] theorem Group.resume_hold (g : Group)  : (g.resume).hold = g.hold := by unfold Group.resume Group.mapLanes; rfl

@[simp] theorem Group.resume_acq (g : Group)  : (g.resume).acq = g.acq := by unfold Group.resume Group.mapLanes; rfl

@[simp] theorem Group.resume_sysAcq (g : Group)  : (g.resume).sysAcq = g.sysAcq := by unfold Group.resume Group.mapLanes; rfl

/-! ### Lanes -/

@[simp] theorem Lane.setReg_state (l : Lane) (r : Nat) (x : Word) : (l.setReg r x).state = l.state := rfl

@[simp] theorem Lane.setReg_vpc (l : Lane) (r : Nat) (x : Word) : (l.setReg r x).vpc = l.vpc := rfl

@[simp] theorem Lane.setReg_lid (l : Lane) (r : Nat) (x : Word) : (l.setReg r x).lid = l.lid := rfl

@[simp] theorem Lane.setReg_lrng (l : Lane) (r : Nat) (x : Word) : (l.setReg r x).lrng = l.lrng := rfl

@[simp] theorem Lane.setReg_v (l : Lane) (r : Nat) (x : Word) : (l.setReg r x).v = l.v.setIfInBounds r x := rfl

@[simp] theorem Lane.setReg_p (l : Lane) (r : Nat) (x : Word) : (l.setReg r x).p = l.p := rfl

@[simp] theorem Lane.setReg_l (l : Lane) (r : Nat) (x : Word) : (l.setReg r x).l = l.l := rfl

@[simp] theorem Lane.setReg_entry (l : Lane) (r : Nat) (x : Word) : (l.setReg r x).entry = l.entry := rfl

@[simp] theorem Lane.setReg_entryRng (l : Lane) (r : Nat) (x : Word) : (l.setReg r x).entryRng = l.entryRng := rfl

@[simp] theorem Lane.setReg_entryL (l : Lane) (r : Nat) (x : Word) : (l.setReg r x).entryL = l.entryL := rfl

@[simp] theorem Lane.setReg_dem (l : Lane) (r : Nat) (x : Word) : (l.setReg r x).dem = l.dem := rfl

@[simp] theorem Lane.setReg_nest (l : Lane) (r : Nat) (x : Word) : (l.setReg r x).nest = l.nest := rfl

@[simp] theorem Lane.setReg_rep (l : Lane) (r : Nat) (x : Word) : (l.setReg r x).rep = l.rep := rfl

@[simp] theorem Lane.setReg_repN (l : Lane) (r : Nat) (x : Word) : (l.setReg r x).repN = l.repN := rfl

@[simp] theorem Lane.setReg_reply (l : Lane) (r : Nat) (x : Word) : (l.setReg r x).reply = l.reply := rfl

@[simp] theorem Lane.setReg_atClose (l : Lane) (r : Nat) (x : Word) : (l.setReg r x).atClose = l.atClose := rfl

@[simp] theorem Lane.push_state (l : Lane) (x : DWord) : (l.push x).state = l.state := rfl

@[simp] theorem Lane.push_vpc (l : Lane) (x : DWord) : (l.push x).vpc = l.vpc := rfl

@[simp] theorem Lane.push_lid (l : Lane) (x : DWord) : (l.push x).lid = l.lid := rfl

@[simp] theorem Lane.push_lrng (l : Lane) (x : DWord) : (l.push x).lrng = l.lrng := rfl

@[simp] theorem Lane.push_v (l : Lane) (x : DWord) : (l.push x).v = l.v := rfl

@[simp] theorem Lane.push_p (l : Lane) (x : DWord) : (l.push x).p = l.p := rfl

@[simp] theorem Lane.push_l (l : Lane) (x : DWord) : (l.push x).l = l.l.push x := rfl

@[simp] theorem Lane.push_entry (l : Lane) (x : DWord) : (l.push x).entry = l.entry := rfl

@[simp] theorem Lane.push_entryRng (l : Lane) (x : DWord) : (l.push x).entryRng = l.entryRng := rfl

@[simp] theorem Lane.push_entryL (l : Lane) (x : DWord) : (l.push x).entryL = l.entryL := rfl

@[simp] theorem Lane.push_dem (l : Lane) (x : DWord) : (l.push x).dem = l.dem := rfl

@[simp] theorem Lane.push_nest (l : Lane) (x : DWord) : (l.push x).nest = l.nest := rfl

@[simp] theorem Lane.push_rep (l : Lane) (x : DWord) : (l.push x).rep = l.rep := rfl

@[simp] theorem Lane.push_repN (l : Lane) (x : DWord) : (l.push x).repN = l.repN := rfl

@[simp] theorem Lane.push_reply (l : Lane) (x : DWord) : (l.push x).reply = l.reply := rfl

@[simp] theorem Lane.push_atClose (l : Lane) (x : DWord) : (l.push x).atClose = l.atClose := rfl

@[simp] theorem Lane.setPred_state (l : Lane) (n : Nat) (b : Bool) : (l.setPred n b).state = l.state := by unfold Lane.setPred; split <;> rfl

@[simp] theorem Lane.setPred_vpc (l : Lane) (n : Nat) (b : Bool) : (l.setPred n b).vpc = l.vpc := by unfold Lane.setPred; split <;> rfl

@[simp] theorem Lane.setPred_lid (l : Lane) (n : Nat) (b : Bool) : (l.setPred n b).lid = l.lid := by unfold Lane.setPred; split <;> rfl

@[simp] theorem Lane.setPred_lrng (l : Lane) (n : Nat) (b : Bool) : (l.setPred n b).lrng = l.lrng := by unfold Lane.setPred; split <;> rfl

@[simp] theorem Lane.setPred_v (l : Lane) (n : Nat) (b : Bool) : (l.setPred n b).v = l.v := by unfold Lane.setPred; split <;> rfl

@[simp] theorem Lane.setPred_l (l : Lane) (n : Nat) (b : Bool) : (l.setPred n b).l = l.l := by unfold Lane.setPred; split <;> rfl

@[simp] theorem Lane.setPred_entry (l : Lane) (n : Nat) (b : Bool) : (l.setPred n b).entry = l.entry := by unfold Lane.setPred; split <;> rfl

@[simp] theorem Lane.setPred_entryRng (l : Lane) (n : Nat) (b : Bool) : (l.setPred n b).entryRng = l.entryRng := by unfold Lane.setPred; split <;> rfl

@[simp] theorem Lane.setPred_entryL (l : Lane) (n : Nat) (b : Bool) : (l.setPred n b).entryL = l.entryL := by unfold Lane.setPred; split <;> rfl

@[simp] theorem Lane.setPred_dem (l : Lane) (n : Nat) (b : Bool) : (l.setPred n b).dem = l.dem := by unfold Lane.setPred; split <;> rfl

@[simp] theorem Lane.setPred_nest (l : Lane) (n : Nat) (b : Bool) : (l.setPred n b).nest = l.nest := by unfold Lane.setPred; split <;> rfl

@[simp] theorem Lane.setPred_rep (l : Lane) (n : Nat) (b : Bool) : (l.setPred n b).rep = l.rep := by unfold Lane.setPred; split <;> rfl

@[simp] theorem Lane.setPred_repN (l : Lane) (n : Nat) (b : Bool) : (l.setPred n b).repN = l.repN := by unfold Lane.setPred; split <;> rfl

@[simp] theorem Lane.setPred_reply (l : Lane) (n : Nat) (b : Bool) : (l.setPred n b).reply = l.reply := by unfold Lane.setPred; split <;> rfl

@[simp] theorem Lane.setPred_atClose (l : Lane) (n : Nat) (b : Bool) : (l.setPred n b).atClose = l.atClose := by unfold Lane.setPred; split <;> rfl

/-! ### Uniform files -/

@[simp] theorem UFile.setReg_s (u : UFile) (r : Nat) (x : DWord) : (u.setReg r x).s = u.s.setIfInBounds r x := rfl

@[simp] theorem UFile.setReg_k (u : UFile) (r : Nat) (x : DWord) : (u.setReg r x).k = u.k := rfl

@[simp] theorem UFile.setReg_q (u : UFile) (r : Nat) (x : DWord) : (u.setReg r x).q = u.q := rfl

@[simp] theorem UFile.push_s (u : UFile) (x : DWord) : (u.push x).s = u.s := rfl

@[simp] theorem UFile.push_k (u : UFile) (x : DWord) : (u.push x).k = u.k := rfl

@[simp] theorem UFile.push_q (u : UFile) (x : DWord) : (u.push x).q = u.q.push x := rfl

@[simp] theorem UFile.setPred_s (u : UFile) (n : Nat) (b : Bool) : (u.setPred n b).s = u.s := by unfold UFile.setPred; split <;> rfl

@[simp] theorem UFile.setPred_q (u : UFile) (n : Nat) (b : Bool) : (u.setPred n b).q = u.q := by unfold UFile.setPred; split <;> rfl

/-! ### Cores -/

@[simp] theorem Core.modSeat_menu (k : Core) (n : Nat) (f : Seat → Seat) : (k.modSeat n f).menu = k.menu := rfl

@[simp] theorem Core.modSeat_land (k : Core) (n : Nat) (f : Seat → Seat) : (k.modSeat n f).land = k.land := rfl

@[simp] theorem Core.modSeat_landAge (k : Core) (n : Nat) (f : Seat → Seat) : (k.modSeat n f).landAge = k.landAge := rfl

@[simp] theorem Core.modSeat_bay (k : Core) (n : Nat) (f : Seat → Seat) : (k.modSeat n f).bay = k.bay := rfl

@[simp] theorem Core.modSeat_l1 (k : Core) (n : Nat) (f : Seat → Seat) : (k.modSeat n f).l1 = k.l1 := rfl

@[simp] theorem Core.modSeat_l1Time (k : Core) (n : Nat) (f : Seat → Seat) : (k.modSeat n f).l1Time = k.l1Time := rfl

@[simp] theorem Core.modSeat_stale (k : Core) (n : Nat) (f : Seat → Seat) : (k.modSeat n f).stale = k.stale := rfl

@[simp] theorem Core.modSeat_hostStale (k : Core) (n : Nat) (f : Seat → Seat) : (k.modSeat n f).hostStale = k.hostStale := rfl

@[simp] theorem Core.modSeat_tlb (k : Core) (n : Nat) (f : Seat → Seat) : (k.modSeat n f).tlb = k.tlb := rfl

@[simp] theorem Core.modSeat_rings (k : Core) (n : Nat) (f : Seat → Seat) : (k.modSeat n f).rings = k.rings := rfl

@[simp] theorem Core.modSeat_vq (k : Core) (n : Nat) (f : Seat → Seat) : (k.modSeat n f).vq = k.vq := rfl

@[simp] theorem Core.modSeat_dt (k : Core) (n : Nat) (f : Seat → Seat) : (k.modSeat n f).dt = k.dt := rfl

@[simp] theorem Core.modSeat_acc (k : Core) (n : Nat) (f : Seat → Seat) : (k.modSeat n f).acc = k.acc := rfl

@[simp] theorem Core.modSeat_tiles (k : Core) (n : Nat) (f : Seat → Seat) : (k.modSeat n f).tiles = k.tiles := rfl

@[simp] theorem Core.modSeat_rounds (k : Core) (n : Nat) (f : Seat → Seat) : (k.modSeat n f).rounds = k.rounds := rfl

@[simp] theorem Core.modSeat_sq (k : Core) (n : Nat) (f : Seat → Seat) : (k.modSeat n f).sq = k.sq := rfl

@[simp] theorem Core.modSeat_adapters (k : Core) (n : Nat) (f : Seat → Seat) : (k.modSeat n f).adapters = k.adapters := rfl

@[simp] theorem Core.modSeat_posted (k : Core) (n : Nat) (f : Seat → Seat) : (k.modSeat n f).posted = k.posted := rfl

@[simp] theorem Core.modSeat_cox (k : Core) (n : Nat) (f : Seat → Seat) : (k.modSeat n f).cox = k.cox := rfl

@[simp] theorem Core.modSeat_reports (k : Core) (n : Nat) (f : Seat → Seat) : (k.modSeat n f).reports = k.reports := rfl

@[simp] theorem Core.modSeat_trapWait (k : Core) (n : Nat) (f : Seat → Seat) : (k.modSeat n f).trapWait = k.trapWait := rfl

@[simp] theorem Core.modSeat_places (k : Core) (n : Nat) (f : Seat → Seat) : (k.modSeat n f).places = k.places := rfl

end Sys2Proof.Machine
end

