-- ==== Sys2Proof/Laws/Table.lean ====
section
/-! SUPPORT. Tables and byte memories: read after write, what a write leaves alone, and the canonical form. -/

namespace Sys2Proof.Machine

variable {α : Type}

/-! ### Read after write -/

@[simp] theorem tget_tset_self (t : Tab α) (n : Nat) (v : α) : tget (tset t n v) n = some v := by
  induction t with
  | nil => simp [tset, tget]
  | cons x t ih =>
    obtain ⟨k, y⟩ := x
    unfold tset
    split
    · simp [tget]
    · rename_i h
      split
      · simp [tget]
      · simp [tget, h, ih]

theorem tget_tset_ne (t : Tab α) {n m : Nat} (v : α) (h : m ≠ n) : tget (tset t n v) m = tget t m := by
  induction t with
  | nil => simp [tset, tget, h]
  | cons x t ih =>
    obtain ⟨k, y⟩ := x
    unfold tset
    split
    · rename_i e; subst e; simp [tget, h]
    · split
      · simp [tget, h]
      · simp only [tget]; split
        · rfl
        · exact ih

theorem tget_tset (t : Tab α) (n m : Nat) (v : α) : tget (tset t n v) m = if m = n then some v else tget t m := by
  split
  · rename_i h; subst h; exact tget_tset_self t m v
  · rename_i h; exact tget_tset_ne t v h

/-- The last of two updates of one key counts. -/
theorem tset_tset (t : Tab α) (n : Nat) (v w : α) : tset (tset t n v) n w = tset t n w := by
  induction t with
  | nil => simp [tset]
  | cons x t ih =>
    obtain ⟨k, y⟩ := x
    simp only [tset]
    split
    · simp [tset]
    · split
      · simp [tset]
      · rename_i h1 h2; simp [tset, h1, h2, ih]

@[simp] theorem tget_terase_self (t : Tab α) (n : Nat) : tget (terase t n) n = none := by
  induction t with
  | nil => rfl
  | cons x t ih =>
    obtain ⟨k, y⟩ := x
    unfold terase
    split
    · exact ih
    · rename_i h; simp [tget, h, ih]

theorem tget_terase_ne (t : Tab α) {n m : Nat} (h : m ≠ n) : tget (terase t n) m = tget t m := by
  induction t with
  | nil => rfl
  | cons x t ih =>
    obtain ⟨k, y⟩ := x
    unfold terase
    split
    · rename_i e; subst e; simp [tget, h, ih]
    · simp only [tget]; split
      · rfl
      · exact ih

theorem tget_tmod_ne (t : Tab α) {n m : Nat} (f : α → α) (h : m ≠ n) : tget (tmod t n f) m = tget t m := by
  unfold tmod
  split
  · exact tget_tset_ne t _ h
  · rfl

theorem tget_tmod_self (t : Tab α) (n : Nat) (f : α → α) : tget (tmod t n f) n = (tget t n).map f := by
  unfold tmod
  split
  · rename_i v h; simp [h]
  · rename_i h; simp [h]

/-- What a lookup finds is listed. -/
theorem mem_of_tget {t : Tab α} {n : Nat} {v : α} (h : tget t n = some v) : (n, v) ∈ t := by
  induction t with
  | nil => cases h
  | cons x t ih =>
    obtain ⟨k, y⟩ := x
    simp only [tget] at h
    split at h
    · rename_i e; subst e; cases h; exact List.mem_cons_self
    · exact List.mem_cons_of_mem _ (ih h)

/-- What a table lists after an update is the new entry or was listed before. -/
theorem mem_tset {t : Tab α} {n : Nat} {v : α} {x : Nat × α} (h : x ∈ tset t n v) : x = (n, v) ∨ x ∈ t := by
  induction t with
  | nil => exact .inl (List.mem_singleton.1 h)
  | cons y t ih =>
    obtain ⟨k, z⟩ := y
    unfold tset at h
    split at h
    · rcases List.mem_cons.1 h with e | e
      · exact .inl e
      · exact .inr (List.mem_cons_of_mem _ e)
    · split at h
      · rcases List.mem_cons.1 h with e | e
        · exact .inl e
        · exact .inr e
      · rcases List.mem_cons.1 h with e | e
        · exact .inr (e ▸ List.mem_cons_self)
        · exact (ih e).imp id (List.mem_cons_of_mem _)

theorem mem_terase {t : Tab α} {n : Nat} {x : Nat × α} (h : x ∈ terase t n) : x ∈ t := by
  induction t with
  | nil => exact h
  | cons y t ih =>
    obtain ⟨k, z⟩ := y
    unfold terase at h
    split at h
    · exact List.mem_cons_of_mem _ (ih h)
    · rcases List.mem_cons.1 h with e | e
      · exact e ▸ List.mem_cons_self
      · exact List.mem_cons_of_mem _ (ih e)

/-! ### Rising keys -/

theorem rising_cons (x : Nat × α) (t : Tab α) :
    rising (x :: t) = true ↔ (∀ y ∈ t, x.1 < y.1) ∧ rising t = true := by
  induction t generalizing x with
  | nil => simp [rising]
  | cons y t ih =>
    obtain ⟨a, u⟩ := x
    obtain ⟨b, v⟩ := y
    simp only [rising, Bool.and_eq_true, decide_eq_true_eq]
    constructor
    · rintro ⟨h, hr⟩
      refine ⟨fun z hz => ?_, hr⟩
      rcases List.mem_cons.1 hz with e | e
      · exact e ▸ h
      · exact Nat.lt_trans h (((ih (b, v)).1 hr).1 z e)
    · exact fun h => ⟨h.1 (b, v) List.mem_cons_self, h.2⟩

theorem rising_tset {t : Tab α} (n : Nat) (v : α) (h : rising t = true) : rising (tset t n v) = true := by
  induction t with
  | nil => rfl
  | cons x t ih =>
    obtain ⟨k, y⟩ := x
    have hx := (rising_cons (k, y) t).1 h
    unfold tset
    split
    · rename_i e; subst e; exact (rising_cons (n, v) t).2 ⟨hx.1, hx.2⟩
    · split
      · rename_i l
        refine (rising_cons (n, v) _).2 ⟨fun z hz => ?_, h⟩
        rcases List.mem_cons.1 hz with e | e
        · exact e ▸ l
        · exact Nat.lt_trans l (hx.1 z e)
      · rename_i e l
        refine (rising_cons (k, y) _).2 ⟨fun z hz => ?_, ih hx.2⟩
        rcases mem_tset hz with e' | e'
        · subst e'; show k < n; omega
        · exact hx.1 z e'

theorem rising_terase {t : Tab α} (n : Nat) (h : rising t = true) : rising (terase t n) = true := by
  induction t with
  | nil => rfl
  | cons x t ih =>
    obtain ⟨k, y⟩ := x
    have hx := (rising_cons (k, y) t).1 h
    unfold terase
    split
    · exact ih hx.2
    · exact (rising_cons (k, y) _).2 ⟨fun z hz => hx.1 z (mem_terase hz), ih hx.2⟩

/-- In a table with rising keys what is listed is what a lookup finds. -/
theorem tget_of_mem {t : Tab α} (h : rising t = true) {n : Nat} {v : α} (hm : (n, v) ∈ t) : tget t n = some v := by
  induction t with
  | nil => cases hm
  | cons x t ih =>
    obtain ⟨k, y⟩ := x
    have hx := (rising_cons (k, y) t).1 h
    rcases List.mem_cons.1 hm with e | e
    · cases e; simp [tget]
    · have : k < n := hx.1 _ e
      simp only [tget, if_neg (by omega : ¬ n = k)]
      exact ih hx.2 e

/-! ### Byte memories -/

theorem mrd_mwr (m : Tab Byte) (a x : Nat) (b : Byte) : mrd (mwr m a b) x = if x = a then b else mrd m x := by
  unfold mrd mwr
  split
  · rename_i hb
    split
    · rename_i e; subst e; simp [hb]
    · rename_i e; rw [tget_terase_ne m e]
  · rw [tget_tset]; split <;> rfl

@[simp] theorem mrd_mwr_self (m : Tab Byte) (a : Nat) (b : Byte) : mrd (mwr m a b) a = b := by simp [mrd_mwr]

theorem mrd_mwr_ne (m : Tab Byte) {a x : Nat} (b : Byte) (h : x ≠ a) : mrd (mwr m a b) x = mrd m x := by
  simp [mrd_mwr, h]

/-- A byte after a write of bytes from a on. -/
theorem mrd_mwrite (m : Tab Byte) (a x : Nat) (bs : List Byte) :
    mrd (mwrite m a bs) x = if a ≤ x ∧ x < a + bs.length then bs[x - a]?.getD 0 else mrd m x := by
  induction bs generalizing m a with
  | nil => simp [mwrite]
  | cons b bs ih =>
    simp only [mwrite, ih, mrd_mwr, List.length_cons]
    by_cases h : x = a
    · subst h
      simp
    · by_cases h2 : a + 1 ≤ x ∧ x < a + 1 + bs.length
      · rw [if_pos h2, if_pos (by omega), show x - a = (x - (a + 1)) + 1 by omega, List.getElem?_cons_succ]
      · rw [if_neg h2, if_neg h, if_neg (by omega)]

theorem Memory.wf_mwr {m : Tab Byte} (a : Nat) (b : Byte) (h : Memory.wf m = true) : Memory.wf (mwr m a b) = true := by
  unfold Memory.wf at *
  rw [Bool.and_eq_true, List.all_eq_true] at *
  unfold mwr
  split
  · exact ⟨rising_terase a h.1, fun x hx => h.2 x (mem_terase hx)⟩
  · rename_i hb
    refine ⟨rising_tset a b h.1, fun x hx => ?_⟩
    rcases mem_tset hx with e | e
    · subst e; simpa using hb
    · exact h.2 x e

theorem Memory.wf_mwrite {m : Tab Byte} (a : Nat) (bs : List Byte) (h : Memory.wf m = true) :
    Memory.wf (mwrite m a bs) = true := by
  induction bs generalizing m a with
  | nil => exact h
  | cons b bs ih => exact ih (a + 1) (Memory.wf_mwr a b h)

@[simp] theorem mread_length (m : Tab Byte) (a n : Nat) : (mread m a n).length = n := by
  induction n generalizing a with
  | zero => rfl
  | succ n ih => simp [mread, ih]

theorem mread_get (m : Tab Byte) (a n i : Nat) (h : i < n) : (mread m a n)[i]? = some (mrd m (a + i)) := by
  induction n generalizing a i with
  | zero => omega
  | succ n ih =>
    cases i with
    | zero => simp [mread]
    | succ i => simp only [mread, List.getElem?_cons_succ, ih (a + 1) i (by omega)]; congr 2; omega

/-! ### Little-endian numbers -/

@[simp] theorem leBytes_length (n x : Nat) : (leBytes n x).length = n := by
  induction n generalizing x with
  | zero => rfl
  | succ n ih => simp [leBytes, ih]

theorem leNat_leBytes (n x : Nat) : leNat (leBytes n x) = x % 256 ^ n := by
  induction n generalizing x with
  | zero => simp [leBytes, leNat, Nat.mod_one]
  | succ n ih =>
    simp only [leBytes, leNat, ih, BitVec.toNat_ofNat]
    rw [show 256 ^ (n + 1) = 256 * 256 ^ n by rw [Nat.pow_succ, Nat.mul_comm], Nat.mod_mul]

theorem leNat_lt (bs : List Byte) : leNat bs < 256 ^ bs.length := by
  induction bs with
  | nil => simp [leNat]
  | cons b bs ih =>
    have := b.isLt
    simp only [leNat, List.length_cons, Nat.pow_succ]
    omega

theorem leBytes_get (n x i : Nat) (h : i < n) : (leBytes n x)[i]? = some (BitVec.ofNat 8 (x / 256 ^ i)) := by
  induction n generalizing x i with
  | zero => omega
  | succ n ih =>
    cases i with
    | zero => simp [leBytes]
    | succ i =>
      simp only [leBytes, List.getElem?_cons_succ, ih (x / 256) i (by omega), Nat.div_div_eq_div_mul]
      rw [Nat.pow_succ, Nat.mul_comm 256]

end Sys2Proof.Machine
end

