-- ==== Sys2Proof/Laws/Groups.lean ====
section
/-! SUPPORT. Groups and lanes: reading a lane after an update of lanes, masks read by position, groups in the state. -/

namespace Sys2Proof.Machine

/-! ### Lanes -/

theorem Group.lane_mapLanes (g : Group) (m : Mask) (f : Lane → Lane) {p : Nat} (h : p < 32) :
    (g.mapLanes m f).lane p = if m.getLsbD p then f (g.lane p) else g.lane p := by
  unfold Group.lane Group.mapLanes
  simp only [Vector.getElem?_eq_getElem h, Vector.getElem_ofFn, Option.getD_some]
  rfl

theorem Group.lane_setLane (g : Group) (p : Nat) (l : Lane) {q : Nat} (h : q < 32) :
    (g.setLane p l).lane q = if q = p then l else g.lane q := by
  unfold Group.lane Group.setLane
  simp only [Vector.getElem?_eq_getElem h, Vector.getElem_setIfInBounds, Option.getD_some, @eq_comm _ p q]

/-! ### Masks -/

theorem bit_shift (p q : Nat) (h : q < 32) : ((1#32 <<< p : Mask)).getLsbD q = decide (q = p) := by
  rw [BitVec.getLsbD_shiftLeft, BitVec.getLsbD_one]
  by_cases e : q = p
  · subst e; simp [h]
  · by_cases k : q < p
    · simp [k, e]
    · simp [e, show q - p ≠ 0 by omega]

theorem foldl_mask (ps : List Nat) (m : Mask) {q : Nat} (h : q < 32) :
    (ps.foldl (fun m p => m ||| (1#32 <<< p)) m).getLsbD q = (m.getLsbD q || decide (q ∈ ps)) := by
  induction ps generalizing m with
  | nil => simp
  | cons p ps ih =>
    rw [List.foldl_cons, ih, BitVec.getLsbD_or, bit_shift p q h]
    by_cases e : q = p <;> simp [e]

theorem maskOf_bit (ps : List Nat) {q : Nat} (h : q < 32) : (maskOf ps).getLsbD q = decide (q ∈ ps) := by
  rw [maskOf, foldl_mask ps 0 h]; simp

/-- A mask by a property of lanes, read by position. -/
theorem Group.where_bit (g : Group) (f : Lane → Bool) {q : Nat} (h : q < 32) :
    (g.where f).getLsbD q = f (g.lane q) := by
  rw [Group.where, maskOf_bit _ h]
  cases k : f (g.lane q) <;> simp [k, h]

theorem mem_positions (m : Mask) (p : Nat) : p ∈ positions m ↔ p < 32 ∧ m.getLsbD p = true := by
  simp [positions]

/-- Two masks with the same bits are the same. -/
theorem mask_ext {m n : Mask} (h : ∀ q, q < 32 → m.getLsbD q = n.getLsbD q) : m = n :=
  BitVec.eq_of_getLsbD_eq h

theorem maskOf_positions (m : Mask) : maskOf (positions m) = m :=
  mask_ext fun q h => by
    rw [maskOf_bit _ h, Bool.eq_iff_iff, decide_eq_true_iff, mem_positions]
    exact ⟨And.right, fun k => ⟨h, k⟩⟩

/-- A mask by a property that no lane's update changes is unchanged. -/
theorem Group.where_congr {g h : Group} {f : Lane → Bool} (k : ∀ q, q < 32 → f (h.lane q) = f (g.lane q)) :
    h.where f = g.where f :=
  mask_ext fun q hq => by rw [Group.where_bit _ _ hq, Group.where_bit _ _ hq, k q hq]

/-! ### Groups in the state -/

@[simp] theorem State.tget_setGroup_self (s : State) (k : Nat) (g : Group) : tget (s.setGroup k g).groups k = some g := by simp

theorem State.tget_setGroup_ne (s : State) {k j : Nat} (g : Group) (h : j ≠ k) :
    tget (s.setGroup k g).groups j = tget s.groups j := by simp [tget_tset_ne _ _ h]

theorem State.modGroup_some {s : State} {k : Nat} {g : Group} (h : tget s.groups k = some g) (f : Group → Group) :
    s.modGroup k f = s.setGroup k (f g) := by
  unfold State.modGroup; rw [h]

theorem State.modGroup_none {s : State} {k : Nat} (h : tget s.groups k = none) (f : Group → Group) :
    s.modGroup k f = s := by
  unfold State.modGroup; rw [h]

theorem State.setGroup_setGroup (s : State) (k : Nat) (g h : Group) :
    (s.setGroup k g).setGroup k h = s.setGroup k h := by
  unfold State.setGroup
  simp only [tset_tset]

theorem State.modTeam_some {s : State} {k : Nat} {t : Team} (h : tget s.teams k = some t) (f : Team → Team) :
    s.modTeam k f = s.setTeam k (f t) := by
  unfold State.modTeam; rw [h]

theorem State.core_setCore (s : State) (n j : Nat) (k : Core) :
    (s.setCore n k).core j = if j = n then k else s.core j := by
  unfold State.core
  rw [State.setCore_cores, tget_tset]
  split <;> rfl

theorem State.core_modCore (s : State) (n j : Nat) (f : Core → Core) :
    (s.modCore n f).core j = if j = n then f (s.core n) else s.core j := State.core_setCore ..

end Sys2Proof.Machine
end

