-- ==== Sys2Proof/Laws/Memory.lean ====
section
/-! SUPPORT. Physical memory: what a store at home leaves at every address and in every other part of the state, and that the
canonical form is kept. -/

namespace Sys2Proof.Machine

/-! ### One byte -/

/-- The bookkeeping of check bits touches only the record of bad lines. -/
theorem State.rewritten_eq (s : State) (a : Nat) : ∃ b, s.rewritten a = { s with bad := b } := by
  unfold State.rewritten
  split
  · exact ⟨s.bad, rfl⟩
  · exact ⟨_, rfl⟩

/-- The two memories after a written byte, and what else may change: check bits and what L1 copies keep. -/
theorem State.setByte_eq (s : State) (own : Option Nat) (a : Nat) (b : Byte) :
    ∃ bad cores, s.setByte own a b = { s with
      mem := if a < hostBase then mwr s.mem a b else s.mem
      hostMem := if a < hostBase then s.hostMem else mwr s.hostMem (a - hostBase) b
      bad := bad, cores := cores } := by
  obtain ⟨r, hr⟩ := State.rewritten_eq s a
  unfold State.setByte
  rw [hr]
  dsimp only
  by_cases h : s.bad.isEmpty <;> by_cases k : a < hostBase <;>
    simp only [h, k, if_true, if_false, Bool.false_eq_true] <;> exact ⟨_, _, rfl⟩

theorem State.setByte_mems (s : State) (own : Option Nat) (a : Nat) (b : Byte) :
    (s.setByte own a b).mem = (if a < hostBase then mwr s.mem a b else s.mem) ∧
      (s.setByte own a b).hostMem = if a < hostBase then s.hostMem else mwr s.hostMem (a - hostBase) b := by
  obtain ⟨_, _, h⟩ := State.setByte_eq s own a b
  rw [h]
  exact ⟨rfl, rfl⟩

/-- Read after write of a byte at its home. -/
theorem State.byte_setByte (s : State) (own : Option Nat) (a x : Nat) (b : Byte) :
    (s.setByte own a b).byte x = if x = a then b else s.byte x := by
  unfold State.byte
  rw [(s.setByte_mems own a b).1, (s.setByte_mems own a b).2]
  by_cases ha : a < hostBase
  · by_cases hx : x < hostBase
    · simp [ha, hx, mrd_mwr]
    · simp [ha, hx, show x ≠ a by omega]
  · by_cases hx : x < hostBase
    · simp [ha, hx, show x ≠ a by omega]
    · simp only [if_neg ha, if_neg hx, mrd_mwr]
      by_cases e : x = a
      · simp [e]
      · rw [if_neg (by omega), if_neg e]

/-! ### Bytes in a row -/

/-- What a written run of bytes may change. -/
theorem State.setBytes_eq (s : State) (own : Option Nat) (a : Nat) (bs : List Byte) :
    ∃ m h bad cores, s.setBytes own a bs = { s with mem := m, hostMem := h, bad := bad, cores := cores } := by
  induction bs generalizing s a with
  | nil => exact ⟨_, _, _, _, rfl⟩
  | cons b bs ih =>
    obtain ⟨_, _, h⟩ := State.setByte_eq s own a b
    obtain ⟨m, hm, bd, cs, k⟩ := ih (s.setByte own a b) (a + 1)
    exact ⟨m, hm, bd, cs, by rw [State.setBytes, k, h]⟩

/-- Read after write of bytes at their home: those written, and every other as before. -/
theorem State.byte_setBytes (s : State) (own : Option Nat) (a x : Nat) (bs : List Byte) :
    (s.setBytes own a bs).byte x = if a ≤ x ∧ x < a + bs.length then bs[x - a]?.getD 0 else s.byte x := by
  induction bs generalizing s a with
  | nil => simp [State.setBytes]
  | cons b bs ih =>
    simp only [State.setBytes, ih, State.byte_setByte, List.length_cons]
    by_cases h : x = a
    · subst h; simp
    · by_cases h2 : a + 1 ≤ x ∧ x < a + 1 + bs.length
      · rw [if_pos h2, if_pos (by omega), show x - a = (x - (a + 1)) + 1 by omega, List.getElem?_cons_succ]
      · rw [if_neg h2, if_neg h, if_neg (by omega)]

theorem State.notice_eq (s : State) (a n : Nat) : s.notice a n = { s with dies := (s.notice a n).dies } := rfl

@[simp] theorem State.byte_notice (s : State) (a n x : Nat) : (s.notice a n).byte x = s.byte x := rfl

/-- Everything a store at home can do (R193, R244). -/
theorem State.store_eq (s : State) (own : Option Nat) (a : Nat) (bs : List Byte) :
    ∃ m h bad cores dies, s.store own a bs =
      { s with mem := m, hostMem := h, bad := bad, cores := cores, dies := dies } := by
  obtain ⟨m, h, bd, cs, k⟩ := State.setBytes_eq s own a bs
  exact ⟨m, h, bd, cs, _, by rw [State.store, State.notice_eq, k]⟩

theorem State.byte_store (s : State) (own : Option Nat) (a x : Nat) (bs : List Byte) :
    (s.store own a bs).byte x = if a ≤ x ∧ x < a + bs.length then bs[x - a]?.getD 0 else s.byte x :=
  State.byte_setBytes s own a x bs

theorem State.tag_store (s : State) (own : Option Nat) (a x : Nat) (bs : List Byte) : (s.store own a bs).tag x = s.tag x := by
  obtain ⟨_, _, _, _, _, h⟩ := State.store_eq s own a bs
  rw [h]; rfl

/-- A store of the little-endian bytes of a number is the store that claims speak of. -/
theorem State.memoryBut_store (s : State) (own : Option Nat) (a n x : Nat) :
    MemoryBut s (s.store own a (leBytes n x)) a n x := by
  refine ⟨fun j hj => ?_, fun y hy => ?_, fun y => State.tag_store ..⟩
  · rw [State.byte_store, if_pos (by simp; omega), Nat.add_sub_cancel_left, leBytes_get n x j hj]
    rfl
  · rw [State.byte_store, if_neg (by simp; omega)]

/-! ### Reading -/

@[simp] theorem State.bytes_length (s : State) (a n : Nat) : (s.bytes a n).length = n := by
  induction n generalizing a with
  | zero => rfl
  | succ n ih => simp [State.bytes, ih]

theorem State.bytes_congr {s t : State} (a n : Nat) (h : ∀ i, i < n → t.byte (a + i) = s.byte (a + i)) :
    t.bytes a n = s.bytes a n := by
  induction n generalizing a with
  | zero => rfl
  | succ n ih =>
    simp only [State.bytes]
    have h0 := h 0 (by omega)
    rw [Nat.add_zero] at h0
    rw [h0, ih (a + 1) fun i hi => by simpa [Nat.add_assoc, Nat.add_comm 1] using h (i + 1) (by omega)]

/-- A number is unchanged where its bytes are. -/
theorem State.num_congr {s t : State} (a n : Nat) (h : ∀ i, i < n → t.byte (a + i) = s.byte (a + i)) :
    t.num a n = s.num a n := by
  unfold State.num; rw [State.bytes_congr a n h]

theorem SameMemory.refl (s : State) : SameMemory s s := ⟨fun _ => rfl, fun _ => rfl⟩

theorem SameMemory.trans {s t u : State} (h : SameMemory s t) (k : SameMemory t u) : SameMemory s u :=
  ⟨fun a => (k.1 a).trans (h.1 a), fun a => (k.2 a).trans (h.2 a)⟩

/-- Equal memories and tags are the same memory. -/
theorem SameMemory.of_eq {s t : State} (h : t.mem = s.mem) (k : t.hostMem = s.hostMem) (g : t.tags = s.tags) :
    SameMemory s t :=
  ⟨fun a => by unfold State.byte; rw [h, k], fun a => by unfold State.tag; rw [g]⟩

/-! ### Canonical form -/

theorem State.memoryOk_setByte {s : State} (own : Option Nat) (a : Nat) (b : Byte) (h : s.memoryOk = true) :
    (s.setByte own a b).memoryOk = true := by
  unfold State.memoryOk at *
  rw [Bool.and_eq_true] at *
  rw [(s.setByte_mems own a b).1, (s.setByte_mems own a b).2]
  split
  · exact ⟨Memory.wf_mwr a b h.1, h.2⟩
  · exact ⟨h.1, Memory.wf_mwr _ b h.2⟩

theorem State.memoryOk_setBytes {s : State} (own : Option Nat) (a : Nat) (bs : List Byte) (h : s.memoryOk = true) :
    (s.setBytes own a bs).memoryOk = true := by
  induction bs generalizing s a with
  | nil => exact h
  | cons b bs ih => exact ih (a + 1) (State.memoryOk_setByte own a b h)

theorem State.memoryOk_store {s : State} (own : Option Nat) (a : Nat) (bs : List Byte) (h : s.memoryOk = true) :
    (s.store own a bs).memoryOk = true := State.memoryOk_setBytes (s := s) own a bs h

theorem State.memoryOk_reset : State.reset.memoryOk = true := by decide

/-! ### Tags -/

theorem State.tag_setTag (s : State) (a x : Nat) (t : BitVec 2) :
    (s.setTag a t).tag x = if x / 32 = a / 32 then t else s.tag x := by
  unfold State.tag State.setTag
  dsimp only
  split
  · rename_i h
    split
    · rename_i e; rw [e]; simp [h]
    · rename_i e; rw [tget_terase_ne _ e]
  · rw [tget_tset]
    split
    · rfl
    · rfl

@[simp] theorem State.byte_setTag (s : State) (a x : Nat) (t : BitVec 2) : (s.setTag a t).byte x = s.byte x := rfl

end Sys2Proof.Machine
end

