-- ==== Sys2Proof/Laws/PerInstr.lean ====
section
/-! SUPPORT. Statements about every instruction, one lemma per constructor: the round trip of its encoding. -/

namespace Sys2Proof.Laws

open Sys2Proof

/-- The words of a well-formed instruction that has words decode to it. -/
def RoundTrip.Statement (i : Instr) : Prop := i.wf = true → encode i ≠ [] → decode (encode i) = .ok i

theorem RoundTrip.add (d : LDst) (a : LSrc) (b : LSrc) (n : Bool) (g : Nat) : RoundTrip.Statement (.add d a b n g) := fun h _ => by
  obtain ⟨h0, h1, h2, h3, h4, _⟩ := conj_of_wf h
  exact rt_D19L13L7B3N0 (mk := Instr.add) (base := 0x00000000) d a b n g rfl rfl h0 h1 h2 (of_decide_eq_true h3) h4 h

theorem RoundTrip.sub (d : LDst) (a : LSrc) (b : LSrc) (n : Bool) (g : Nat) : RoundTrip.Statement (.sub d a b n g) := fun h _ => by
  obtain ⟨h0, h1, h2, h3, h4, _⟩ := conj_of_wf h
  exact rt_D19L13L7B3N0 (mk := Instr.sub) (base := 0x00000010) d a b n g rfl rfl h0 h1 h2 (of_decide_eq_true h3) h4 h

theorem RoundTrip.minI (d : LDst) (a : LSrc) (b : LSrc) (n : Bool) (g : Nat) : RoundTrip.Statement (.minI d a b n g) := fun h _ => by
  obtain ⟨h0, h1, h2, h3, h4, _⟩ := conj_of_wf h
  exact rt_D19L13L7B3N0 (mk := Instr.minI) (base := 0x00000020) d a b n g rfl rfl h0 h1 h2 (of_decide_eq_true h3) h4 h

theorem RoundTrip.maxI (d : LDst) (a : LSrc) (b : LSrc) (n : Bool) (g : Nat) : RoundTrip.Statement (.maxI d a b n g) := fun h _ => by
  obtain ⟨h0, h1, h2, h3, h4, _⟩ := conj_of_wf h
  exact rt_D19L13L7B3N0 (mk := Instr.maxI) (base := 0x00000030) d a b n g rfl rfl h0 h1 h2 (of_decide_eq_true h3) h4 h

theorem RoundTrip.minN (d : LDst) (a : LSrc) (b : LSrc) (n : Bool) (g : Nat) : RoundTrip.Statement (.minN d a b n g) := fun h _ => by
  obtain ⟨h0, h1, h2, h3, h4, _⟩ := conj_of_wf h
  exact rt_D19L13L7B3N0 (mk := Instr.minN) (base := 0x00000040) d a b n g rfl rfl h0 h1 h2 (of_decide_eq_true h3) h4 h

theorem RoundTrip.maxN (d : LDst) (a : LSrc) (b : LSrc) (n : Bool) (g : Nat) : RoundTrip.Statement (.maxN d a b n g) := fun h _ => by
  obtain ⟨h0, h1, h2, h3, h4, _⟩ := conj_of_wf h
  exact rt_D19L13L7B3N0 (mk := Instr.maxN) (base := 0x00000050) d a b n g rfl rfl h0 h1 h2 (of_decide_eq_true h3) h4 h

theorem RoundTrip.abs (d : LDst) (a : LSrc) (n : Bool) (g : Nat) : RoundTrip.Statement (.abs d a n g) := fun h _ => by
  obtain ⟨h0, h1, h2, _⟩ := conj_of_wf h
  exact rt_D19L13B3N0 (mk := Instr.abs) (base := 0x00000060) d a n g rfl rfl h0 h1 (of_decide_eq_true h2) h

theorem RoundTrip.neg (d : LDst) (a : LSrc) (n : Bool) (g : Nat) : RoundTrip.Statement (.neg d a n g) := fun h _ => by
  obtain ⟨h0, h1, h2, _⟩ := conj_of_wf h
  exact rt_D19L13B3N0 (mk := Instr.neg) (base := 0x00000070) d a n g rfl rfl h0 h1 (of_decide_eq_true h2) h

theorem RoundTrip.and (d : LDst) (a : LSrc) (b : LSrc) (n : Bool) (g : Nat) : RoundTrip.Statement (.and d a b n g) := fun h _ => by
  obtain ⟨h0, h1, h2, h3, h4, _⟩ := conj_of_wf h
  exact rt_D19L13L7B3N0 (mk := Instr.and) (base := 0x02000000) d a b n g rfl rfl h0 h1 h2 (of_decide_eq_true h3) h4 h

theorem RoundTrip.or (d : LDst) (a : LSrc) (b : LSrc) (n : Bool) (g : Nat) : RoundTrip.Statement (.or d a b n g) := fun h _ => by
  obtain ⟨h0, h1, h2, h3, h4, _⟩ := conj_of_wf h
  exact rt_D19L13L7B3N0 (mk := Instr.or) (base := 0x02000010) d a b n g rfl rfl h0 h1 h2 (of_decide_eq_true h3) h4 h

theorem RoundTrip.xor (d : LDst) (a : LSrc) (b : LSrc) (n : Bool) (g : Nat) : RoundTrip.Statement (.xor d a b n g) := fun h _ => by
  obtain ⟨h0, h1, h2, h3, h4, _⟩ := conj_of_wf h
  exact rt_D19L13L7B3N0 (mk := Instr.xor) (base := 0x02000020) d a b n g rfl rfl h0 h1 h2 (of_decide_eq_true h3) h4 h

theorem RoundTrip.andn (d : LDst) (a : LSrc) (b : LSrc) (n : Bool) (g : Nat) : RoundTrip.Statement (.andn d a b n g) := fun h _ => by
  obtain ⟨h0, h1, h2, h3, h4, _⟩ := conj_of_wf h
  exact rt_D19L13L7B3N0 (mk := Instr.andn) (base := 0x02000030) d a b n g rfl rfl h0 h1 h2 (of_decide_eq_true h3) h4 h

theorem RoundTrip.shl (d : LDst) (a : LSrc) (b : LSrc) (n : Bool) (g : Nat) : RoundTrip.Statement (.shl d a b n g) := fun h _ => by
  obtain ⟨h0, h1, h2, h3, h4, _⟩ := conj_of_wf h
  exact rt_D19L13L7B3N0 (mk := Instr.shl) (base := 0x02000040) d a b n g rfl rfl h0 h1 h2 (of_decide_eq_true h3) h4 h

theorem RoundTrip.shr (d : LDst) (a : LSrc) (b : LSrc) (n : Bool) (g : Nat) : RoundTrip.Statement (.shr d a b n g) := fun h _ => by
  obtain ⟨h0, h1, h2, h3, h4, _⟩ := conj_of_wf h
  exact rt_D19L13L7B3N0 (mk := Instr.shr) (base := 0x02000050) d a b n g rfl rfl h0 h1 h2 (of_decide_eq_true h3) h4 h

theorem RoundTrip.sar (d : LDst) (a : LSrc) (b : LSrc) (n : Bool) (g : Nat) : RoundTrip.Statement (.sar d a b n g) := fun h _ => by
  obtain ⟨h0, h1, h2, h3, h4, _⟩ := conj_of_wf h
  exact rt_D19L13L7B3N0 (mk := Instr.sar) (base := 0x02000060) d a b n g rfl rfl h0 h1 h2 (of_decide_eq_true h3) h4 h

theorem RoundTrip.rol (d : LDst) (a : LSrc) (b : LSrc) (n : Bool) (g : Nat) : RoundTrip.Statement (.rol d a b n g) := fun h _ => by
  obtain ⟨h0, h1, h2, h3, h4, _⟩ := conj_of_wf h
  exact rt_D19L13L7B3N0 (mk := Instr.rol) (base := 0x02000070) d a b n g rfl rfl h0 h1 h2 (of_decide_eq_true h3) h4 h

theorem RoundTrip.mul (d : LDst) (a : LSrc) (b : LSrc) (n : Bool) (g : Nat) : RoundTrip.Statement (.mul d a b n g) := fun h _ => by
  obtain ⟨h0, h1, h2, h3, h4, _⟩ := conj_of_wf h
  exact rt_D19L13L7B3N0 (mk := Instr.mul) (base := 0x04000000) d a b n g rfl rfl h0 h1 h2 (of_decide_eq_true h3) h4 h

theorem RoundTrip.mulhI (d : LDst) (a : LSrc) (b : LSrc) (n : Bool) (g : Nat) : RoundTrip.Statement (.mulhI d a b n g) := fun h _ => by
  obtain ⟨h0, h1, h2, h3, h4, _⟩ := conj_of_wf h
  exact rt_D19L13L7B3N0 (mk := Instr.mulhI) (base := 0x04000010) d a b n g rfl rfl h0 h1 h2 (of_decide_eq_true h3) h4 h

theorem RoundTrip.mulhN (d : LDst) (a : LSrc) (b : LSrc) (n : Bool) (g : Nat) : RoundTrip.Statement (.mulhN d a b n g) := fun h _ => by
  obtain ⟨h0, h1, h2, h3, h4, _⟩ := conj_of_wf h
  exact rt_D19L13L7B3N0 (mk := Instr.mulhN) (base := 0x04000020) d a b n g rfl rfl h0 h1 h2 (of_decide_eq_true h3) h4 h

theorem RoundTrip.mad (d : LDst) (a : LSrc) (b : LSrc) (n : Bool) (g : Nat) : RoundTrip.Statement (.mad d a b n g) := fun h _ => by
  obtain ⟨h0, h1, h2, h3, h4, _⟩ := conj_of_wf h
  exact rt_D19L13L7B3N0 (mk := Instr.mad) (base := 0x04000030) d a b n g rfl rfl h0 h1 h2 (of_decide_eq_true h3) h4 h

theorem RoundTrip.divI (d : LDst) (a : LSrc) (b : LSrc) (n : Bool) (g : Nat) : RoundTrip.Statement (.divI d a b n g) := fun h _ => by
  obtain ⟨h0, h1, h2, h3, h4, _⟩ := conj_of_wf h
  exact rt_D19L13L7B3N0 (mk := Instr.divI) (base := 0x04000040) d a b n g rfl rfl h0 h1 h2 (of_decide_eq_true h3) h4 h

theorem RoundTrip.divN (d : LDst) (a : LSrc) (b : LSrc) (n : Bool) (g : Nat) : RoundTrip.Statement (.divN d a b n g) := fun h _ => by
  obtain ⟨h0, h1, h2, h3, h4, _⟩ := conj_of_wf h
  exact rt_D19L13L7B3N0 (mk := Instr.divN) (base := 0x04000050) d a b n g rfl rfl h0 h1 h2 (of_decide_eq_true h3) h4 h

theorem RoundTrip.remI (d : LDst) (a : LSrc) (b : LSrc) (n : Bool) (g : Nat) : RoundTrip.Statement (.remI d a b n g) := fun h _ => by
  obtain ⟨h0, h1, h2, h3, h4, _⟩ := conj_of_wf h
  exact rt_D19L13L7B3N0 (mk := Instr.remI) (base := 0x04000060) d a b n g rfl rfl h0 h1 h2 (of_decide_eq_true h3) h4 h

theorem RoundTrip.remN (d : LDst) (a : LSrc) (b : LSrc) (n : Bool) (g : Nat) : RoundTrip.Statement (.remN d a b n g) := fun h _ => by
  obtain ⟨h0, h1, h2, h3, h4, _⟩ := conj_of_wf h
  exact rt_D19L13L7B3N0 (mk := Instr.remN) (base := 0x04000070) d a b n g rfl rfl h0 h1 h2 (of_decide_eq_true h3) h4 h

theorem RoundTrip.clz (d : LDst) (a : LSrc) (n : Bool) (g : Nat) : RoundTrip.Statement (.clz d a n g) := fun h _ => by
  obtain ⟨h0, h1, h2, _⟩ := conj_of_wf h
  exact rt_D19L13B3N0 (mk := Instr.clz) (base := 0x06000000) d a n g rfl rfl h0 h1 (of_decide_eq_true h2) h

theorem RoundTrip.popc (d : LDst) (a : LSrc) (n : Bool) (g : Nat) : RoundTrip.Statement (.popc d a n g) := fun h _ => by
  obtain ⟨h0, h1, h2, _⟩ := conj_of_wf h
  exact rt_D19L13B3N0 (mk := Instr.popc) (base := 0x06000010) d a n g rfl rfl h0 h1 (of_decide_eq_true h2) h

theorem RoundTrip.brev (d : LDst) (a : LSrc) (n : Bool) (g : Nat) : RoundTrip.Statement (.brev d a n g) := fun h _ => by
  obtain ⟨h0, h1, h2, _⟩ := conj_of_wf h
  exact rt_D19L13B3N0 (mk := Instr.brev) (base := 0x06000020) d a n g rfl rfl h0 h1 (of_decide_eq_true h2) h

theorem RoundTrip.bfeI (d : LDst) (a : LSrc) (b : LSrc) (n : Bool) (g : Nat) : RoundTrip.Statement (.bfeI d a b n g) := fun h _ => by
  obtain ⟨h0, h1, h2, h3, h4, _⟩ := conj_of_wf h
  exact rt_D19L13L7B3N0 (mk := Instr.bfeI) (base := 0x06000030) d a b n g rfl rfl h0 h1 h2 (of_decide_eq_true h3) h4 h

theorem RoundTrip.bfeN (d : LDst) (a : LSrc) (b : LSrc) (n : Bool) (g : Nat) : RoundTrip.Statement (.bfeN d a b n g) := fun h _ => by
  obtain ⟨h0, h1, h2, h3, h4, _⟩ := conj_of_wf h
  exact rt_D19L13L7B3N0 (mk := Instr.bfeN) (base := 0x06000040) d a b n g rfl rfl h0 h1 h2 (of_decide_eq_true h3) h4 h

theorem RoundTrip.bfi (d : LDst) (a : LSrc) (b : LSrc) (n : Bool) (g : Nat) : RoundTrip.Statement (.bfi d a b n g) := fun h _ => by
  obtain ⟨h0, h1, h2, h3, h4, _⟩ := conj_of_wf h
  exact rt_D19L13L7B3N0 (mk := Instr.bfi) (base := 0x06000050) d a b n g rfl rfl h0 h1 h2 (of_decide_eq_true h3) h4 h

theorem RoundTrip.bmix (d : LDst) (a : LSrc) (b : LSrc) (n : Bool) (g : Nat) : RoundTrip.Statement (.bmix d a b n g) := fun h _ => by
  obtain ⟨h0, h1, h2, h3, h4, _⟩ := conj_of_wf h
  exact rt_D19L13L7B3N0 (mk := Instr.bmix) (base := 0x06000060) d a b n g rfl rfl h0 h1 h2 (of_decide_eq_true h3) h4 h

theorem RoundTrip.sext (d : LDst) (a : LSrc) (b : LSrc) (n : Bool) (g : Nat) : RoundTrip.Statement (.sext d a b n g) := fun h _ => by
  obtain ⟨h0, h1, h2, h3, h4, _⟩ := conj_of_wf h
  exact rt_D19L13L7B3N0 (mk := Instr.sext) (base := 0x06000070) d a b n g rfl rfl h0 h1 h2 (of_decide_eq_true h3) h4 h

theorem RoundTrip.eq (d : Nat) (a : LSrc) (b : LSrc) (g : Nat) : RoundTrip.Statement (.eq d a b g) := fun h _ => by
  obtain ⟨h0, h1, h2, h3, h4, _⟩ := conj_of_wf h
  exact rt_N19L13L7N0 (mk := Instr.eq) (base := 0x08000000) d a b g rfl rfl (of_decide_eq_true h0) h1 h2 (of_decide_eq_true h3) h4 h

theorem RoundTrip.ne (d : Nat) (a : LSrc) (b : LSrc) (g : Nat) : RoundTrip.Statement (.ne d a b g) := fun h _ => by
  obtain ⟨h0, h1, h2, h3, h4, _⟩ := conj_of_wf h
  exact rt_N19L13L7N0 (mk := Instr.ne) (base := 0x08000010) d a b g rfl rfl (of_decide_eq_true h0) h1 h2 (of_decide_eq_true h3) h4 h

theorem RoundTrip.ltI (d : Nat) (a : LSrc) (b : LSrc) (g : Nat) : RoundTrip.Statement (.ltI d a b g) := fun h _ => by
  obtain ⟨h0, h1, h2, h3, h4, _⟩ := conj_of_wf h
  exact rt_N19L13L7N0 (mk := Instr.ltI) (base := 0x08000020) d a b g rfl rfl (of_decide_eq_true h0) h1 h2 (of_decide_eq_true h3) h4 h

theorem RoundTrip.leI (d : Nat) (a : LSrc) (b : LSrc) (g : Nat) : RoundTrip.Statement (.leI d a b g) := fun h _ => by
  obtain ⟨h0, h1, h2, h3, h4, _⟩ := conj_of_wf h
  exact rt_N19L13L7N0 (mk := Instr.leI) (base := 0x08000030) d a b g rfl rfl (of_decide_eq_true h0) h1 h2 (of_decide_eq_true h3) h4 h

theorem RoundTrip.ltN (d : Nat) (a : LSrc) (b : LSrc) (g : Nat) : RoundTrip.Statement (.ltN d a b g) := fun h _ => by
  obtain ⟨h0, h1, h2, h3, h4, _⟩ := conj_of_wf h
  exact rt_N19L13L7N0 (mk := Instr.ltN) (base := 0x08000040) d a b g rfl rfl (of_decide_eq_true h0) h1 h2 (of_decide_eq_true h3) h4 h

theorem RoundTrip.leN (d : Nat) (a : LSrc) (b : LSrc) (g : Nat) : RoundTrip.Statement (.leN d a b g) := fun h _ => by
  obtain ⟨h0, h1, h2, h3, h4, _⟩ := conj_of_wf h
  exact rt_N19L13L7N0 (mk := Instr.leN) (base := 0x08000050) d a b g rfl rfl (of_decide_eq_true h0) h1 h2 (of_decide_eq_true h3) h4 h

theorem RoundTrip.tst (d : Nat) (a : LSrc) (b : LSrc) (g : Nat) : RoundTrip.Statement (.tst d a b g) := fun h _ => by
  obtain ⟨h0, h1, h2, h3, h4, _⟩ := conj_of_wf h
  exact rt_N19L13L7N0 (mk := Instr.tst) (base := 0x08000060) d a b g rfl rfl (of_decide_eq_true h0) h1 h2 (of_decide_eq_true h3) h4 h

theorem RoundTrip.pand (d : Nat) (a : Nat) (b : Nat) (g : Nat) : RoundTrip.Statement (.pand d a b g) := fun h _ => by
  obtain ⟨h0, h1, h2, h3, _⟩ := conj_of_wf h
  exact rt_N19N13N7N0w6663 (mk := Instr.pand) (base := 0x0A000000) d a b g rfl rfl (of_decide_eq_true h0) (of_decide_eq_true h1) (of_decide_eq_true h2) (of_decide_eq_true h3) h

theorem RoundTrip.por (d : Nat) (a : Nat) (b : Nat) (g : Nat) : RoundTrip.Statement (.por d a b g) := fun h _ => by
  obtain ⟨h0, h1, h2, h3, _⟩ := conj_of_wf h
  exact rt_N19N13N7N0w6663 (mk := Instr.por) (base := 0x0A000010) d a b g rfl rfl (of_decide_eq_true h0) (of_decide_eq_true h1) (of_decide_eq_true h2) (of_decide_eq_true h3) h

theorem RoundTrip.pxor (d : Nat) (a : Nat) (b : Nat) (g : Nat) : RoundTrip.Statement (.pxor d a b g) := fun h _ => by
  obtain ⟨h0, h1, h2, h3, _⟩ := conj_of_wf h
  exact rt_N19N13N7N0w6663 (mk := Instr.pxor) (base := 0x0A000020) d a b g rfl rfl (of_decide_eq_true h0) (of_decide_eq_true h1) (of_decide_eq_true h2) (of_decide_eq_true h3) h

theorem RoundTrip.pandn (d : Nat) (a : Nat) (b : Nat) (g : Nat) : RoundTrip.Statement (.pandn d a b g) := fun h _ => by
  obtain ⟨h0, h1, h2, h3, _⟩ := conj_of_wf h
  exact rt_N19N13N7N0w6663 (mk := Instr.pandn) (base := 0x0A000030) d a b g rfl rfl (of_decide_eq_true h0) (of_decide_eq_true h1) (of_decide_eq_true h2) (of_decide_eq_true h3) h

theorem RoundTrip.pnot (d : Nat) (a : Nat) (g : Nat) : RoundTrip.Statement (.pnot d a g) := fun h _ => by
  obtain ⟨h0, h1, h2, _⟩ := conj_of_wf h
  exact rt_N19N13N0 (mk := Instr.pnot) (base := 0x0A000040) d a g rfl rfl (of_decide_eq_true h0) (of_decide_eq_true h1) (of_decide_eq_true h2) h

theorem RoundTrip.ptov (d : LDst) (a : Nat) (n : Bool) (g : Nat) : RoundTrip.Statement (.ptov d a n g) := fun h _ => by
  obtain ⟨h0, h1, h2, _⟩ := conj_of_wf h
  exact rt_D19N13B3N0 (mk := Instr.ptov) (base := 0x0A000050) d a n g rfl rfl h0 (of_decide_eq_true h1) (of_decide_eq_true h2) h

theorem RoundTrip.vtop (d : Nat) (a : LSrc) (g : Nat) : RoundTrip.Statement (.vtop d a g) := fun h _ => by
  obtain ⟨h0, h1, h2, _⟩ := conj_of_wf h
  exact rt_N19L13N0 (mk := Instr.vtop) (base := 0x0A000060) d a g rfl rfl (of_decide_eq_true h0) h1 (of_decide_eq_true h2) h

theorem RoundTrip.mov (d : LDst) (a : LSrc) (n : Bool) (g : Nat) : RoundTrip.Statement (.mov d a n g) := fun h _ => by
  obtain ⟨h0, h1, h2, _⟩ := conj_of_wf h
  exact rt_D19L13B3N0 (mk := Instr.mov) (base := 0x0C000000) d a n g rfl rfl h0 h1 (of_decide_eq_true h2) h

theorem RoundTrip.sel (d : LDst) (a : LSrc) (b : LSrc) (n : Bool) (p : Nat) : RoundTrip.Statement (.sel d a b n p) := fun h _ => by
  obtain ⟨h0, h1, h2, h3, h4, _⟩ := conj_of_wf h
  exact rt_D19L13L7B3N0 (mk := Instr.sel) (base := 0x0C000010) d a b n p rfl rfl h0 h1 h2 (of_decide_eq_true h3) h4 h

theorem RoundTrip.movs (d : LDst) (a : USrc) (n : Bool) (g : Nat) : RoundTrip.Statement (.movs d a n g) := fun h _ => by
  obtain ⟨h0, h1, h2, _⟩ := conj_of_wf h
  exact rt_D19U13B3N0 (mk := Instr.movs) (base := 0x0C000020) d a n g rfl rfl h0 h1 (of_decide_eq_true h2) h

theorem RoundTrip.movu (d : LDst) (a : USrc) (n : Bool) (g : Nat) : RoundTrip.Statement (.movu d a n g) := fun h _ => by
  obtain ⟨h0, h1, h2, _⟩ := conj_of_wf h
  exact rt_D19U13B3N0 (mk := Instr.movu) (base := 0x0C000030) d a n g rfl rfl h0 h1 (of_decide_eq_true h2) h

theorem RoundTrip.add64 (d : LDst) (a : LSrc) (b : LSrc) (n : Bool) (g : Nat) : RoundTrip.Statement (.add64 d a b n g) := fun h _ => by
  obtain ⟨h0, h1, h2, h3, h4, _⟩ := conj_of_wf h
  exact rt_D19L13L7B3N0 (mk := Instr.add64) (base := 0x0C000040) d a b n g rfl rfl (LDst.ok1 (by decide) h0) (LSrc.ok1 (by decide) h1) (LSrc.ok1 (by decide) h2) (of_decide_eq_true h3) h4 h

theorem RoundTrip.sub64 (d : LDst) (a : LSrc) (b : LSrc) (n : Bool) (g : Nat) : RoundTrip.Statement (.sub64 d a b n g) := fun h _ => by
  obtain ⟨h0, h1, h2, h3, h4, _⟩ := conj_of_wf h
  exact rt_D19L13L7B3N0 (mk := Instr.sub64) (base := 0x0C000050) d a b n g rfl rfl (LDst.ok1 (by decide) h0) (LSrc.ok1 (by decide) h1) (LSrc.ok1 (by decide) h2) (of_decide_eq_true h3) h4 h

theorem RoundTrip.shl64 (d : LDst) (a : LSrc) (b : LSrc) (n : Bool) (g : Nat) : RoundTrip.Statement (.shl64 d a b n g) := fun h _ => by
  obtain ⟨h0, h1, h2, h3, h4, _⟩ := conj_of_wf h
  exact rt_D19L13L7B3N0 (mk := Instr.shl64) (base := 0x0C000060) d a b n g rfl rfl (LDst.ok1 (by decide) h0) (LSrc.ok1 (by decide) h1) h2 (of_decide_eq_true h3) h4 h

theorem RoundTrip.lea (d : LDst) (a : LSrc) (b : LSrc) (n : Bool) (g : Nat) : RoundTrip.Statement (.lea d a b n g) := fun h _ => by
  obtain ⟨h0, h1, h2, h3, h4, _⟩ := conj_of_wf h
  exact rt_D19L13L7B3N0 (mk := Instr.lea) (base := 0x0C000070) d a b n g rfl rfl (LDst.ok1 (by decide) h0) (LSrc.ok1 (by decide) h1) h2 (of_decide_eq_true h3) h4 h

theorem RoundTrip.addi (d : LDst) (a : LSrc) (i : BitVec 13) : RoundTrip.Statement (.addi d a i) := fun h _ => by
  obtain ⟨h0, h1, _⟩ := conj_of_wf h
  exact rt_D19L13I0 (mk := Instr.addi) (base := 0x10000000) d a i rfl rfl h0 h1 h

theorem RoundTrip.andi (d : LDst) (a : LSrc) (i : BitVec 13) : RoundTrip.Statement (.andi d a i) := fun h _ => by
  obtain ⟨h0, h1, _⟩ := conj_of_wf h
  exact rt_D19L13I0 (mk := Instr.andi) (base := 0x12000000) d a i rfl rfl h0 h1 h

theorem RoundTrip.ori (d : LDst) (a : LSrc) (i : BitVec 13) : RoundTrip.Statement (.ori d a i) := fun h _ => by
  obtain ⟨h0, h1, _⟩ := conj_of_wf h
  exact rt_D19L13I0 (mk := Instr.ori) (base := 0x14000000) d a i rfl rfl h0 h1 h

theorem RoundTrip.xori (d : LDst) (a : LSrc) (i : BitVec 13) : RoundTrip.Statement (.xori d a i) := fun h _ => by
  obtain ⟨h0, h1, _⟩ := conj_of_wf h
  exact rt_D19L13I0 (mk := Instr.xori) (base := 0x16000000) d a i rfl rfl h0 h1 h

theorem RoundTrip.shiShl (d : LDst) (a : LSrc) (s : Nat) : RoundTrip.Statement (.shiShl d a s) := fun h _ => by
  obtain ⟨h0, h1, h2, _⟩ := conj_of_wf h
  exact rt_D19L13N0w5 (mk := Instr.shiShl) (base := 0x18000000) d a s rfl rfl h0 h1 (of_decide_eq_true h2) h

theorem RoundTrip.shiShr (d : LDst) (a : LSrc) (s : Nat) : RoundTrip.Statement (.shiShr d a s) := fun h _ => by
  obtain ⟨h0, h1, h2, _⟩ := conj_of_wf h
  exact rt_D19L13N0w5 (mk := Instr.shiShr) (base := 0x18000800) d a s rfl rfl h0 h1 (of_decide_eq_true h2) h

theorem RoundTrip.shiSar (d : LDst) (a : LSrc) (s : Nat) : RoundTrip.Statement (.shiSar d a s) := fun h _ => by
  obtain ⟨h0, h1, h2, _⟩ := conj_of_wf h
  exact rt_D19L13N0w5 (mk := Instr.shiSar) (base := 0x18001000) d a s rfl rfl h0 h1 (of_decide_eq_true h2) h

theorem RoundTrip.shiRol (d : LDst) (a : LSrc) (s : Nat) : RoundTrip.Statement (.shiRol d a s) := fun h _ => by
  obtain ⟨h0, h1, h2, _⟩ := conj_of_wf h
  exact rt_D19L13N0w5 (mk := Instr.shiRol) (base := 0x18001800) d a s rfl rfl h0 h1 (of_decide_eq_true h2) h

theorem RoundTrip.cmpiEq (d : Nat) (a : LSrc) (i : BitVec 10) : RoundTrip.Statement (.cmpiEq d a i) := fun h _ => by
  obtain ⟨h0, h1, _⟩ := conj_of_wf h
  exact rt_N19L13I0 (mk := Instr.cmpiEq) (base := 0x1A000000) d a i rfl rfl (of_decide_eq_true h0) h1 h

theorem RoundTrip.cmpiNe (d : Nat) (a : LSrc) (i : BitVec 10) : RoundTrip.Statement (.cmpiNe d a i) := fun h _ => by
  obtain ⟨h0, h1, _⟩ := conj_of_wf h
  exact rt_N19L13I0 (mk := Instr.cmpiNe) (base := 0x1A000400) d a i rfl rfl (of_decide_eq_true h0) h1 h

theorem RoundTrip.cmpiLtI (d : Nat) (a : LSrc) (i : BitVec 10) : RoundTrip.Statement (.cmpiLtI d a i) := fun h _ => by
  obtain ⟨h0, h1, _⟩ := conj_of_wf h
  exact rt_N19L13I0 (mk := Instr.cmpiLtI) (base := 0x1A000800) d a i rfl rfl (of_decide_eq_true h0) h1 h

theorem RoundTrip.cmpiLeI (d : Nat) (a : LSrc) (i : BitVec 10) : RoundTrip.Statement (.cmpiLeI d a i) := fun h _ => by
  obtain ⟨h0, h1, _⟩ := conj_of_wf h
  exact rt_N19L13I0 (mk := Instr.cmpiLeI) (base := 0x1A000C00) d a i rfl rfl (of_decide_eq_true h0) h1 h

theorem RoundTrip.cmpiLtN (d : Nat) (a : LSrc) (i : BitVec 10) : RoundTrip.Statement (.cmpiLtN d a i) := fun h _ => by
  obtain ⟨h0, h1, _⟩ := conj_of_wf h
  exact rt_N19L13I0 (mk := Instr.cmpiLtN) (base := 0x1A001000) d a i rfl rfl (of_decide_eq_true h0) h1 h

theorem RoundTrip.cmpiLeN (d : Nat) (a : LSrc) (i : BitVec 10) : RoundTrip.Statement (.cmpiLeN d a i) := fun h _ => by
  obtain ⟨h0, h1, _⟩ := conj_of_wf h
  exact rt_N19L13I0 (mk := Instr.cmpiLeN) (base := 0x1A001400) d a i rfl rfl (of_decide_eq_true h0) h1 h

theorem RoundTrip.cmpiTst (d : Nat) (a : LSrc) (i : BitVec 10) : RoundTrip.Statement (.cmpiTst d a i) := fun h _ => by
  obtain ⟨h0, h1, _⟩ := conj_of_wf h
  exact rt_N19L13I0 (mk := Instr.cmpiTst) (base := 0x1A001800) d a i rfl rfl (of_decide_eq_true h0) h1 h

theorem RoundTrip.movi (d : LDst) (i : BitVec 13) : RoundTrip.Statement (.movi d i) := fun h _ => by
  obtain ⟨h0, _⟩ := conj_of_wf h
  exact rt_D19I0 (mk := Instr.movi) (base := 0x1C000000) d i rfl rfl h0 h

theorem RoundTrip.leai (d : LDst) (a : LSrc) (i : BitVec 13) : RoundTrip.Statement (.leai d a i) := fun h _ => by
  obtain ⟨h0, h1, _⟩ := conj_of_wf h
  exact rt_D19L13I0 (mk := Instr.leai) (base := 0x1E000000) d a i rfl rfl (LDst.ok1 (by decide) h0) (LSrc.ok1 (by decide) h1) h

theorem RoundTrip.fadd (d : LDst) (a : LSrc) (b : LSrc) (n : Bool) (g : Nat) : RoundTrip.Statement (.fadd d a b n g) := fun h _ => by
  obtain ⟨h0, h1, h2, h3, h4, _⟩ := conj_of_wf h
  exact rt_D19L13L7B3N0 (mk := Instr.fadd) (base := 0x20000000) d a b n g rfl rfl h0 h1 h2 (of_decide_eq_true h3) h4 h

theorem RoundTrip.fsub (d : LDst) (a : LSrc) (b : LSrc) (n : Bool) (g : Nat) : RoundTrip.Statement (.fsub d a b n g) := fun h _ => by
  obtain ⟨h0, h1, h2, h3, h4, _⟩ := conj_of_wf h
  exact rt_D19L13L7B3N0 (mk := Instr.fsub) (base := 0x20000010) d a b n g rfl rfl h0 h1 h2 (of_decide_eq_true h3) h4 h

theorem RoundTrip.fmul (d : LDst) (a : LSrc) (b : LSrc) (n : Bool) (g : Nat) : RoundTrip.Statement (.fmul d a b n g) := fun h _ => by
  obtain ⟨h0, h1, h2, h3, h4, _⟩ := conj_of_wf h
  exact rt_D19L13L7B3N0 (mk := Instr.fmul) (base := 0x20000020) d a b n g rfl rfl h0 h1 h2 (of_decide_eq_true h3) h4 h

theorem RoundTrip.ffma (d : LDst) (a : LSrc) (b : LSrc) (n : Bool) (g : Nat) : RoundTrip.Statement (.ffma d a b n g) := fun h _ => by
  obtain ⟨h0, h1, h2, h3, h4, _⟩ := conj_of_wf h
  exact rt_D19L13L7B3N0 (mk := Instr.ffma) (base := 0x20000030) d a b n g rfl rfl h0 h1 h2 (of_decide_eq_true h3) h4 h

theorem RoundTrip.fmin (d : LDst) (a : LSrc) (b : LSrc) (n : Bool) (g : Nat) : RoundTrip.Statement (.fmin d a b n g) := fun h _ => by
  obtain ⟨h0, h1, h2, h3, h4, _⟩ := conj_of_wf h
  exact rt_D19L13L7B3N0 (mk := Instr.fmin) (base := 0x20000040) d a b n g rfl rfl h0 h1 h2 (of_decide_eq_true h3) h4 h

theorem RoundTrip.fmax (d : LDst) (a : LSrc) (b : LSrc) (n : Bool) (g : Nat) : RoundTrip.Statement (.fmax d a b n g) := fun h _ => by
  obtain ⟨h0, h1, h2, h3, h4, _⟩ := conj_of_wf h
  exact rt_D19L13L7B3N0 (mk := Instr.fmax) (base := 0x20000050) d a b n g rfl rfl h0 h1 h2 (of_decide_eq_true h3) h4 h

theorem RoundTrip.fnma (d : LDst) (a : LSrc) (b : LSrc) (n : Bool) (g : Nat) : RoundTrip.Statement (.fnma d a b n g) := fun h _ => by
  obtain ⟨h0, h1, h2, h3, h4, _⟩ := conj_of_wf h
  exact rt_D19L13L7B3N0 (mk := Instr.fnma) (base := 0x20000060) d a b n g rfl rfl h0 h1 h2 (of_decide_eq_true h3) h4 h

theorem RoundTrip.fdiv (d : LDst) (a : LSrc) (b : LSrc) (n : Bool) (g : Nat) : RoundTrip.Statement (.fdiv d a b n g) := fun h _ => by
  obtain ⟨h0, h1, h2, h3, h4, _⟩ := conj_of_wf h
  exact rt_D19L13L7B3N0 (mk := Instr.fdiv) (base := 0x20000070) d a b n g rfl rfl h0 h1 h2 (of_decide_eq_true h3) h4 h

theorem RoundTrip.fcmpEq (d : Nat) (a : LSrc) (b : LSrc) (g : Nat) : RoundTrip.Statement (.fcmpEq d a b g) := fun h _ => by
  obtain ⟨h0, h1, h2, h3, h4, _⟩ := conj_of_wf h
  exact rt_N19L13L7N0 (mk := Instr.fcmpEq) (base := 0x22000000) d a b g rfl rfl (of_decide_eq_true h0) h1 h2 (of_decide_eq_true h3) h4 h

theorem RoundTrip.fcmpNe (d : Nat) (a : LSrc) (b : LSrc) (g : Nat) : RoundTrip.Statement (.fcmpNe d a b g) := fun h _ => by
  obtain ⟨h0, h1, h2, h3, h4, _⟩ := conj_of_wf h
  exact rt_N19L13L7N0 (mk := Instr.fcmpNe) (base := 0x22000010) d a b g rfl rfl (of_decide_eq_true h0) h1 h2 (of_decide_eq_true h3) h4 h

theorem RoundTrip.fcmpLt (d : Nat) (a : LSrc) (b : LSrc) (g : Nat) : RoundTrip.Statement (.fcmpLt d a b g) := fun h _ => by
  obtain ⟨h0, h1, h2, h3, h4, _⟩ := conj_of_wf h
  exact rt_N19L13L7N0 (mk := Instr.fcmpLt) (base := 0x22000020) d a b g rfl rfl (of_decide_eq_true h0) h1 h2 (of_decide_eq_true h3) h4 h

theorem RoundTrip.fcmpLe (d : Nat) (a : LSrc) (b : LSrc) (g : Nat) : RoundTrip.Statement (.fcmpLe d a b g) := fun h _ => by
  obtain ⟨h0, h1, h2, h3, h4, _⟩ := conj_of_wf h
  exact rt_N19L13L7N0 (mk := Instr.fcmpLe) (base := 0x22000030) d a b g rfl rfl (of_decide_eq_true h0) h1 h2 (of_decide_eq_true h3) h4 h

theorem RoundTrip.fcmpUn (d : Nat) (a : LSrc) (b : LSrc) (g : Nat) : RoundTrip.Statement (.fcmpUn d a b g) := fun h _ => by
  obtain ⟨h0, h1, h2, h3, h4, _⟩ := conj_of_wf h
  exact rt_N19L13L7N0 (mk := Instr.fcmpUn) (base := 0x22000040) d a b g rfl rfl (of_decide_eq_true h0) h1 h2 (of_decide_eq_true h3) h4 h

theorem RoundTrip.fcmpTolt (d : Nat) (a : LSrc) (b : LSrc) (g : Nat) : RoundTrip.Statement (.fcmpTolt d a b g) := fun h _ => by
  obtain ⟨h0, h1, h2, h3, h4, _⟩ := conj_of_wf h
  exact rt_N19L13L7N0 (mk := Instr.fcmpTolt) (base := 0x22000050) d a b g rfl rfl (of_decide_eq_true h0) h1 h2 (of_decide_eq_true h3) h4 h

theorem RoundTrip.fcmpTole (d : Nat) (a : LSrc) (b : LSrc) (g : Nat) : RoundTrip.Statement (.fcmpTole d a b g) := fun h _ => by
  obtain ⟨h0, h1, h2, h3, h4, _⟩ := conj_of_wf h
  exact rt_N19L13L7N0 (mk := Instr.fcmpTole) (base := 0x22000060) d a b g rfl rfl (of_decide_eq_true h0) h1 h2 (of_decide_eq_true h3) h4 h

theorem RoundTrip.fcmpClass (d : Nat) (a : LSrc) (b : LSrc) (g : Nat) : RoundTrip.Statement (.fcmpClass d a b g) := fun h _ => by
  obtain ⟨h0, h1, h2, h3, h4, _⟩ := conj_of_wf h
  exact rt_N19L13L7N0 (mk := Instr.fcmpClass) (base := 0x22000070) d a b g rfl rfl (of_decide_eq_true h0) h1 h2 (of_decide_eq_true h3) h4 h

theorem RoundTrip.dadd (d : LDst) (a : LSrc) (b : LSrc) (n : Bool) (g : Nat) : RoundTrip.Statement (.dadd d a b n g) := fun h _ => by
  obtain ⟨h0, h1, h2, h3, h4, _⟩ := conj_of_wf h
  exact rt_D19L13L7B3N0 (mk := Instr.dadd) (base := 0x24000000) d a b n g rfl rfl (LDst.ok1 (by decide) h0) (LSrc.ok1 (by decide) h1) (LSrc.ok1 (by decide) h2) (of_decide_eq_true h3) h4 h

theorem RoundTrip.dsub (d : LDst) (a : LSrc) (b : LSrc) (n : Bool) (g : Nat) : RoundTrip.Statement (.dsub d a b n g) := fun h _ => by
  obtain ⟨h0, h1, h2, h3, h4, _⟩ := conj_of_wf h
  exact rt_D19L13L7B3N0 (mk := Instr.dsub) (base := 0x24000010) d a b n g rfl rfl (LDst.ok1 (by decide) h0) (LSrc.ok1 (by decide) h1) (LSrc.ok1 (by decide) h2) (of_decide_eq_true h3) h4 h

theorem RoundTrip.dmul (d : LDst) (a : LSrc) (b : LSrc) (n : Bool) (g : Nat) : RoundTrip.Statement (.dmul d a b n g) := fun h _ => by
  obtain ⟨h0, h1, h2, h3, h4, _⟩ := conj_of_wf h
  exact rt_D19L13L7B3N0 (mk := Instr.dmul) (base := 0x24000020) d a b n g rfl rfl (LDst.ok1 (by decide) h0) (LSrc.ok1 (by decide) h1) (LSrc.ok1 (by decide) h2) (of_decide_eq_true h3) h4 h

theorem RoundTrip.dfma (d : LDst) (a : LSrc) (b : LSrc) (n : Bool) (g : Nat) : RoundTrip.Statement (.dfma d a b n g) := fun h _ => by
  obtain ⟨h0, h1, h2, h3, h4, _⟩ := conj_of_wf h
  exact rt_D19L13L7B3N0 (mk := Instr.dfma) (base := 0x24000030) d a b n g rfl rfl (LDst.ok1 (by decide) h0) (LSrc.ok1 (by decide) h1) (LSrc.ok1 (by decide) h2) (of_decide_eq_true h3) h4 h

theorem RoundTrip.dmin (d : LDst) (a : LSrc) (b : LSrc) (n : Bool) (g : Nat) : RoundTrip.Statement (.dmin d a b n g) := fun h _ => by
  obtain ⟨h0, h1, h2, h3, h4, _⟩ := conj_of_wf h
  exact rt_D19L13L7B3N0 (mk := Instr.dmin) (base := 0x24000040) d a b n g rfl rfl (LDst.ok1 (by decide) h0) (LSrc.ok1 (by decide) h1) (LSrc.ok1 (by decide) h2) (of_decide_eq_true h3) h4 h

theorem RoundTrip.dmax (d : LDst) (a : LSrc) (b : LSrc) (n : Bool) (g : Nat) : RoundTrip.Statement (.dmax d a b n g) := fun h _ => by
  obtain ⟨h0, h1, h2, h3, h4, _⟩ := conj_of_wf h
  exact rt_D19L13L7B3N0 (mk := Instr.dmax) (base := 0x24000050) d a b n g rfl rfl (LDst.ok1 (by decide) h0) (LSrc.ok1 (by decide) h1) (LSrc.ok1 (by decide) h2) (of_decide_eq_true h3) h4 h

theorem RoundTrip.ddiv (d : LDst) (a : LSrc) (b : LSrc) (n : Bool) (g : Nat) : RoundTrip.Statement (.ddiv d a b n g) := fun h _ => by
  obtain ⟨h0, h1, h2, h3, h4, _⟩ := conj_of_wf h
  exact rt_D19L13L7B3N0 (mk := Instr.ddiv) (base := 0x24000060) d a b n g rfl rfl (LDst.ok1 (by decide) h0) (LSrc.ok1 (by decide) h1) (LSrc.ok1 (by decide) h2) (of_decide_eq_true h3) h4 h

theorem RoundTrip.dsqrt (d : LDst) (a : LSrc) (n : Bool) (g : Nat) : RoundTrip.Statement (.dsqrt d a n g) := fun h _ => by
  obtain ⟨h0, h1, h2, _⟩ := conj_of_wf h
  exact rt_D19L13B3N0 (mk := Instr.dsqrt) (base := 0x24000070) d a n g rfl rfl (LDst.ok1 (by decide) h0) (LSrc.ok1 (by decide) h1) (of_decide_eq_true h2) h

theorem RoundTrip.haddF16 (d : LDst) (a : LSrc) (b : LSrc) (n : Bool) (g : Nat) : RoundTrip.Statement (.haddF16 d a b n g) := fun h _ => by
  obtain ⟨h0, h1, h2, h3, h4, _⟩ := conj_of_wf h
  exact rt_D19L13L7B3N0 (mk := Instr.haddF16) (base := 0x26000000) d a b n g rfl rfl h0 h1 h2 (of_decide_eq_true h3) h4 h

theorem RoundTrip.hmulF16 (d : LDst) (a : LSrc) (b : LSrc) (n : Bool) (g : Nat) : RoundTrip.Statement (.hmulF16 d a b n g) := fun h _ => by
  obtain ⟨h0, h1, h2, h3, h4, _⟩ := conj_of_wf h
  exact rt_D19L13L7B3N0 (mk := Instr.hmulF16) (base := 0x26000010) d a b n g rfl rfl h0 h1 h2 (of_decide_eq_true h3) h4 h

theorem RoundTrip.hfmaF16 (d : LDst) (a : LSrc) (b : LSrc) (n : Bool) (g : Nat) : RoundTrip.Statement (.hfmaF16 d a b n g) := fun h _ => by
  obtain ⟨h0, h1, h2, h3, h4, _⟩ := conj_of_wf h
  exact rt_D19L13L7B3N0 (mk := Instr.hfmaF16) (base := 0x26000020) d a b n g rfl rfl h0 h1 h2 (of_decide_eq_true h3) h4 h

theorem RoundTrip.haddBf16 (d : LDst) (a : LSrc) (b : LSrc) (n : Bool) (g : Nat) : RoundTrip.Statement (.haddBf16 d a b n g) := fun h _ => by
  obtain ⟨h0, h1, h2, h3, h4, _⟩ := conj_of_wf h
  exact rt_D19L13L7B3N0 (mk := Instr.haddBf16) (base := 0x26000030) d a b n g rfl rfl h0 h1 h2 (of_decide_eq_true h3) h4 h

theorem RoundTrip.hmulBf16 (d : LDst) (a : LSrc) (b : LSrc) (n : Bool) (g : Nat) : RoundTrip.Statement (.hmulBf16 d a b n g) := fun h _ => by
  obtain ⟨h0, h1, h2, h3, h4, _⟩ := conj_of_wf h
  exact rt_D19L13L7B3N0 (mk := Instr.hmulBf16) (base := 0x26000040) d a b n g rfl rfl h0 h1 h2 (of_decide_eq_true h3) h4 h

theorem RoundTrip.hfmaBf16 (d : LDst) (a : LSrc) (b : LSrc) (n : Bool) (g : Nat) : RoundTrip.Statement (.hfmaBf16 d a b n g) := fun h _ => by
  obtain ⟨h0, h1, h2, h3, h4, _⟩ := conj_of_wf h
  exact rt_D19L13L7B3N0 (mk := Instr.hfmaBf16) (base := 0x26000050) d a b n g rfl rfl h0 h1 h2 (of_decide_eq_true h3) h4 h

theorem RoundTrip.hmin (d : LDst) (a : LSrc) (b : LSrc) (n : Bool) (g : Nat) : RoundTrip.Statement (.hmin d a b n g) := fun h _ => by
  obtain ⟨h0, h1, h2, h3, h4, _⟩ := conj_of_wf h
  exact rt_D19L13L7B3N0 (mk := Instr.hmin) (base := 0x26000060) d a b n g rfl rfl h0 h1 h2 (of_decide_eq_true h3) h4 h

theorem RoundTrip.hmax (d : LDst) (a : LSrc) (b : LSrc) (n : Bool) (g : Nat) : RoundTrip.Statement (.hmax d a b n g) := fun h _ => by
  obtain ⟨h0, h1, h2, h3, h4, _⟩ := conj_of_wf h
  exact rt_D19L13L7B3N0 (mk := Instr.hmax) (base := 0x26000070) d a b n g rfl rfl h0 h1 h2 (of_decide_eq_true h3) h4 h

theorem RoundTrip.cvtI32F32 (d : LDst) (a : LSrc) (r : Nat) (n : Bool) (g : Nat) : RoundTrip.Statement (.cvtI32F32 d a r n g) := fun h _ => by
  obtain ⟨h0, h1, h2, h3, _⟩ := conj_of_wf h
  exact rt_D19L13N10B3N0 (mk := Instr.cvtI32F32) (base := 0x28000000) d a r n g rfl rfl h0 h1 (Nat.lt_of_lt_of_le (of_decide_eq_true h2) (by decide)) (of_decide_eq_true h3) h

theorem RoundTrip.cvtN32F32 (d : LDst) (a : LSrc) (r : Nat) (n : Bool) (g : Nat) : RoundTrip.Statement (.cvtN32F32 d a r n g) := fun h _ => by
  obtain ⟨h0, h1, h2, h3, _⟩ := conj_of_wf h
  exact rt_D19L13N10B3N0 (mk := Instr.cvtN32F32) (base := 0x28000010) d a r n g rfl rfl h0 h1 (Nat.lt_of_lt_of_le (of_decide_eq_true h2) (by decide)) (of_decide_eq_true h3) h

theorem RoundTrip.cvtF32I32 (d : LDst) (a : LSrc) (r : Nat) (n : Bool) (g : Nat) : RoundTrip.Statement (.cvtF32I32 d a r n g) := fun h _ => by
  obtain ⟨h0, h1, h2, h3, _⟩ := conj_of_wf h
  exact rt_D19L13N10B3N0 (mk := Instr.cvtF32I32) (base := 0x28000020) d a r n g rfl rfl h0 h1 (Nat.lt_of_lt_of_le (of_decide_eq_true h2) (by decide)) (of_decide_eq_true h3) h

theorem RoundTrip.cvtF32N32 (d : LDst) (a : LSrc) (r : Nat) (n : Bool) (g : Nat) : RoundTrip.Statement (.cvtF32N32 d a r n g) := fun h _ => by
  obtain ⟨h0, h1, h2, h3, _⟩ := conj_of_wf h
  exact rt_D19L13N10B3N0 (mk := Instr.cvtF32N32) (base := 0x28000030) d a r n g rfl rfl h0 h1 (Nat.lt_of_lt_of_le (of_decide_eq_true h2) (by decide)) (of_decide_eq_true h3) h

theorem RoundTrip.cvtBf16F32 (d : LDst) (a : LSrc) (n : Bool) (g : Nat) : RoundTrip.Statement (.cvtBf16F32 d a n g) := fun h _ => by
  obtain ⟨h0, h1, h2, _⟩ := conj_of_wf h
  exact rt_D19L13B3N0 (mk := Instr.cvtBf16F32) (base := 0x28000040) d a n g rfl rfl h0 h1 (of_decide_eq_true h2) h

theorem RoundTrip.cvtF16F32 (d : LDst) (a : LSrc) (n : Bool) (g : Nat) : RoundTrip.Statement (.cvtF16F32 d a n g) := fun h _ => by
  obtain ⟨h0, h1, h2, _⟩ := conj_of_wf h
  exact rt_D19L13B3N0 (mk := Instr.cvtF16F32) (base := 0x28000050) d a n g rfl rfl h0 h1 (of_decide_eq_true h2) h

theorem RoundTrip.cvtF32Bf16 (d : LDst) (a : LSrc) (n : Bool) (g : Nat) : RoundTrip.Statement (.cvtF32Bf16 d a n g) := fun h _ => by
  obtain ⟨h0, h1, h2, _⟩ := conj_of_wf h
  exact rt_D19L13B3N0 (mk := Instr.cvtF32Bf16) (base := 0x28000060) d a n g rfl rfl h0 h1 (of_decide_eq_true h2) h

theorem RoundTrip.cvtF32F16 (d : LDst) (a : LSrc) (n : Bool) (g : Nat) : RoundTrip.Statement (.cvtF32F16 d a n g) := fun h _ => by
  obtain ⟨h0, h1, h2, _⟩ := conj_of_wf h
  exact rt_D19L13B3N0 (mk := Instr.cvtF32F16) (base := 0x28000070) d a n g rfl rfl h0 h1 (of_decide_eq_true h2) h

theorem RoundTrip.cvtE4m3F32 (d : LDst) (a : LSrc) (n : Bool) (g : Nat) : RoundTrip.Statement (.cvtE4m3F32 d a n g) := fun h _ => by
  obtain ⟨h0, h1, h2, _⟩ := conj_of_wf h
  exact rt_D19L13B3N0 (mk := Instr.cvtE4m3F32) (base := 0x2A000000) d a n g rfl rfl h0 h1 (of_decide_eq_true h2) h

theorem RoundTrip.cvtE5m2F32 (d : LDst) (a : LSrc) (n : Bool) (g : Nat) : RoundTrip.Statement (.cvtE5m2F32 d a n g) := fun h _ => by
  obtain ⟨h0, h1, h2, _⟩ := conj_of_wf h
  exact rt_D19L13B3N0 (mk := Instr.cvtE5m2F32) (base := 0x2A000010) d a n g rfl rfl h0 h1 (of_decide_eq_true h2) h

theorem RoundTrip.cvtI8F32 (d : LDst) (a : LSrc) (n : Bool) (g : Nat) : RoundTrip.Statement (.cvtI8F32 d a n g) := fun h _ => by
  obtain ⟨h0, h1, h2, _⟩ := conj_of_wf h
  exact rt_D19L13B3N0 (mk := Instr.cvtI8F32) (base := 0x2A000020) d a n g rfl rfl h0 h1 (of_decide_eq_true h2) h

theorem RoundTrip.cvtI8I32 (d : LDst) (a : LSrc) (n : Bool) (g : Nat) : RoundTrip.Statement (.cvtI8I32 d a n g) := fun h _ => by
  obtain ⟨h0, h1, h2, _⟩ := conj_of_wf h
  exact rt_D19L13B3N0 (mk := Instr.cvtI8I32) (base := 0x2A0000A0) d a n g rfl rfl h0 h1 (of_decide_eq_true h2) h

theorem RoundTrip.cvtI16F32 (d : LDst) (a : LSrc) (n : Bool) (g : Nat) : RoundTrip.Statement (.cvtI16F32 d a n g) := fun h _ => by
  obtain ⟨h0, h1, h2, _⟩ := conj_of_wf h
  exact rt_D19L13B3N0 (mk := Instr.cvtI16F32) (base := 0x2A000030) d a n g rfl rfl h0 h1 (of_decide_eq_true h2) h

theorem RoundTrip.cvtI16I32 (d : LDst) (a : LSrc) (n : Bool) (g : Nat) : RoundTrip.Statement (.cvtI16I32 d a n g) := fun h _ => by
  obtain ⟨h0, h1, h2, _⟩ := conj_of_wf h
  exact rt_D19L13B3N0 (mk := Instr.cvtI16I32) (base := 0x2A0000B0) d a n g rfl rfl h0 h1 (of_decide_eq_true h2) h

theorem RoundTrip.cvtF32E4m3 (d : LDst) (a : LSrc) (n : Bool) (g : Nat) : RoundTrip.Statement (.cvtF32E4m3 d a n g) := fun h _ => by
  obtain ⟨h0, h1, h2, _⟩ := conj_of_wf h
  exact rt_D19L13B3N0 (mk := Instr.cvtF32E4m3) (base := 0x2A000040) d a n g rfl rfl h0 h1 (of_decide_eq_true h2) h

theorem RoundTrip.cvtF32E5m2 (d : LDst) (a : LSrc) (n : Bool) (g : Nat) : RoundTrip.Statement (.cvtF32E5m2 d a n g) := fun h _ => by
  obtain ⟨h0, h1, h2, _⟩ := conj_of_wf h
  exact rt_D19L13B3N0 (mk := Instr.cvtF32E5m2) (base := 0x2A000050) d a n g rfl rfl h0 h1 (of_decide_eq_true h2) h

theorem RoundTrip.cvtBf16F32Sr (d : LDst) (a : LSrc) (n : Bool) (g : Nat) : RoundTrip.Statement (.cvtBf16F32Sr d a n g) := fun h _ => by
  obtain ⟨h0, h1, h2, _⟩ := conj_of_wf h
  exact rt_D19L13B3N0 (mk := Instr.cvtBf16F32Sr) (base := 0x2A000060) d a n g rfl rfl h0 h1 (of_decide_eq_true h2) h

theorem RoundTrip.cvtE4m3F32Sr (d : LDst) (a : LSrc) (n : Bool) (g : Nat) : RoundTrip.Statement (.cvtE4m3F32Sr d a n g) := fun h _ => by
  obtain ⟨h0, h1, h2, _⟩ := conj_of_wf h
  exact rt_D19L13B3N0 (mk := Instr.cvtE4m3F32Sr) (base := 0x2A000070) d a n g rfl rfl h0 h1 (of_decide_eq_true h2) h

theorem RoundTrip.packF4b (d : LDst) (a : LSrc) (n : Bool) (g : Nat) : RoundTrip.Statement (.packF4b d a n g) := fun h _ => by
  obtain ⟨h0, h1, h2, _⟩ := conj_of_wf h
  exact rt_D19L13B3N0 (mk := Instr.packF4b) (base := 0x2C000000) d a n g rfl rfl h0 h1 (of_decide_eq_true h2) h

theorem RoundTrip.unpkF4b (d : LDst) (a : LSrc) (b : LSrc) (n : Bool) (g : Nat) : RoundTrip.Statement (.unpkF4b d a b n g) := fun h _ => by
  obtain ⟨h0, h1, h2, h3, h4, _⟩ := conj_of_wf h
  exact rt_D19L13L7B3N0 (mk := Instr.unpkF4b) (base := 0x2C000010) d a b n g rfl rfl h0 h1 h2 (of_decide_eq_true h3) h4 h

theorem RoundTrip.scaleF4b (d : LDst) (a : LSrc) (b : LSrc) (n : Bool) (g : Nat) : RoundTrip.Statement (.scaleF4b d a b n g) := fun h _ => by
  obtain ⟨h0, h1, h2, h3, h4, _⟩ := conj_of_wf h
  exact rt_D19L13L7B3N0 (mk := Instr.scaleF4b) (base := 0x2C000020) d a b n g rfl rfl h0 h1 h2 (of_decide_eq_true h3) h4 h

theorem RoundTrip.mx2f4b (d : LDst) (a : LSrc) (n : Bool) (g : Nat) : RoundTrip.Statement (.mx2f4b d a n g) := fun h _ => by
  obtain ⟨h0, h1, h2, _⟩ := conj_of_wf h
  exact rt_D19L13B3N0 (mk := Instr.mx2f4b) (base := 0x2C000030) d a n g rfl rfl h0 h1 (of_decide_eq_true h2) h

theorem RoundTrip.rcp (d : LDst) (a : LSrc) (n : Bool) (g : Nat) : RoundTrip.Statement (.rcp d a n g) := fun h _ => by
  obtain ⟨h0, h1, h2, _⟩ := conj_of_wf h
  exact rt_D19L13B3N0 (mk := Instr.rcp) (base := 0x2E000000) d a n g rfl rfl h0 h1 (of_decide_eq_true h2) h

theorem RoundTrip.rsq (d : LDst) (a : LSrc) (n : Bool) (g : Nat) : RoundTrip.Statement (.rsq d a n g) := fun h _ => by
  obtain ⟨h0, h1, h2, _⟩ := conj_of_wf h
  exact rt_D19L13B3N0 (mk := Instr.rsq) (base := 0x2E000010) d a n g rfl rfl h0 h1 (of_decide_eq_true h2) h

theorem RoundTrip.sqrt (d : LDst) (a : LSrc) (n : Bool) (g : Nat) : RoundTrip.Statement (.sqrt d a n g) := fun h _ => by
  obtain ⟨h0, h1, h2, _⟩ := conj_of_wf h
  exact rt_D19L13B3N0 (mk := Instr.sqrt) (base := 0x2E000020) d a n g rfl rfl h0 h1 (of_decide_eq_true h2) h

theorem RoundTrip.exp2 (d : LDst) (a : LSrc) (n : Bool) (g : Nat) : RoundTrip.Statement (.exp2 d a n g) := fun h _ => by
  obtain ⟨h0, h1, h2, _⟩ := conj_of_wf h
  exact rt_D19L13B3N0 (mk := Instr.exp2) (base := 0x2E000030) d a n g rfl rfl h0 h1 (of_decide_eq_true h2) h

theorem RoundTrip.log2 (d : LDst) (a : LSrc) (n : Bool) (g : Nat) : RoundTrip.Statement (.log2 d a n g) := fun h _ => by
  obtain ⟨h0, h1, h2, _⟩ := conj_of_wf h
  exact rt_D19L13B3N0 (mk := Instr.log2) (base := 0x2E000040) d a n g rfl rfl h0 h1 (of_decide_eq_true h2) h

theorem RoundTrip.sin (d : LDst) (a : LSrc) (n : Bool) (g : Nat) : RoundTrip.Statement (.sin d a n g) := fun h _ => by
  obtain ⟨h0, h1, h2, _⟩ := conj_of_wf h
  exact rt_D19L13B3N0 (mk := Instr.sin) (base := 0x2E000050) d a n g rfl rfl h0 h1 (of_decide_eq_true h2) h

theorem RoundTrip.cos (d : LDst) (a : LSrc) (n : Bool) (g : Nat) : RoundTrip.Statement (.cos d a n g) := fun h _ => by
  obtain ⟨h0, h1, h2, _⟩ := conj_of_wf h
  exact rt_D19L13B3N0 (mk := Instr.cos) (base := 0x2E000060) d a n g rfl rfl h0 h1 (of_decide_eq_true h2) h

theorem RoundTrip.tanh (d : LDst) (a : LSrc) (n : Bool) (g : Nat) : RoundTrip.Statement (.tanh d a n g) := fun h _ => by
  obtain ⟨h0, h1, h2, _⟩ := conj_of_wf h
  exact rt_D19L13B3N0 (mk := Instr.tanh) (base := 0x2E000070) d a n g rfl rfl h0 h1 (of_decide_eq_true h2) h

theorem RoundTrip.frnd (d : LDst) (a : LSrc) (r : Nat) (n : Bool) (g : Nat) : RoundTrip.Statement (.frnd d a r n g) := fun h _ => by
  obtain ⟨h0, h1, h2, h3, _⟩ := conj_of_wf h
  exact rt_D19L13N10B3N0 (mk := Instr.frnd) (base := 0x30000000) d a r n g rfl rfl h0 h1 (Nat.lt_of_lt_of_le (of_decide_eq_true h2) (by decide)) (of_decide_eq_true h3) h

theorem RoundTrip.key3 (d : LDst) (a : LSrc) (n : Bool) (g : Nat) : RoundTrip.Statement (.key3 d a n g) := fun h _ => by
  obtain ⟨h0, h1, h2, _⟩ := conj_of_wf h
  exact rt_D19L13B3N0 (mk := Instr.key3) (base := 0x30000010) d a n g rfl rfl h0 (LSrc.ok1 (by decide) h1) (of_decide_eq_true h2) h

theorem RoundTrip.rng (d : LDst) (n : Bool) (g : Nat) : RoundTrip.Statement (.rng d n g) := fun h _ => by
  obtain ⟨h0, h1, _⟩ := conj_of_wf h
  exact rt_D19B3N0 (mk := Instr.rng) (base := 0x30000020) d n g rfl rfl h0 (of_decide_eq_true h1) h

theorem RoundTrip.seed (a : LSrc) (g : Nat) : RoundTrip.Statement (.seed a g) := fun h _ => by
  obtain ⟨h0, h1, _⟩ := conj_of_wf h
  exact rt_L13N0 (mk := Instr.seed) (base := 0x31E00030) a g rfl rfl (LSrc.ok1 (by decide) h0) (of_decide_eq_true h1) h

theorem RoundTrip.fscale (d : LDst) (a : LSrc) (b : LSrc) (n : Bool) (g : Nat) : RoundTrip.Statement (.fscale d a b n g) := fun h _ => by
  obtain ⟨h0, h1, h2, h3, h4, _⟩ := conj_of_wf h
  exact rt_D19L13L7B3N0 (mk := Instr.fscale) (base := 0x30000040) d a b n g rfl rfl h0 h1 h2 (of_decide_eq_true h3) h4 h

theorem RoundTrip.fexp (d : LDst) (a : LSrc) (n : Bool) (g : Nat) : RoundTrip.Statement (.fexp d a n g) := fun h _ => by
  obtain ⟨h0, h1, h2, _⟩ := conj_of_wf h
  exact rt_D19L13B3N0 (mk := Instr.fexp) (base := 0x30000050) d a n g rfl rfl h0 h1 (of_decide_eq_true h2) h

theorem RoundTrip.ldg (d : LDst) (a : LSrc) (m : Addr) (z : Nat) (g : Nat) : RoundTrip.Statement (.ldg d a m z g) := fun h _ => by
  obtain ⟨h0, h1, h2, h3, h4, _, h6, _⟩ := conj_of_wf h
  exact rt_D19L13M3N4N0 (mk := Instr.ldg) (base := 0x40000000) d a m z g rfl rfl (LDst.ok1 (szRegs_pos _) h0) h1 h2 (Nat.lt_of_lt_of_le (of_decide_eq_true h3) (by decide)) (of_decide_eq_true h4) h6 h

theorem RoundTrip.stg (d : LSrc) (a : LSrc) (m : Addr) (z : Nat) (g : Nat) : RoundTrip.Statement (.stg d a m z g) := fun h _ => by
  obtain ⟨h0, h1, h2, h3, h4, _, h6, _⟩ := conj_of_wf h
  exact rt_L19L13M3N4N0 (mk := Instr.stg) (base := 0x42000000) d a m z g rfl rfl (LSrc.ok1 (szRegs_pos _) h0) h1 h2 (Nat.lt_of_lt_of_le (of_decide_eq_true h3) (by decide)) (of_decide_eq_true h4) h6 h

theorem RoundTrip.lds (d : LDst) (a : LSrc) (m : Addr) (z : Nat) (g : Nat) : RoundTrip.Statement (.lds d a m z g) := fun h _ => by
  obtain ⟨h0, h1, h2, h3, h4, _, h6, _⟩ := conj_of_wf h
  exact rt_D19L13M3N4N0 (mk := Instr.lds) (base := 0x44000000) d a m z g rfl rfl (LDst.ok1 (szRegs_pos _) h0) h1 h2 (Nat.lt_of_lt_of_le (of_decide_eq_true h3) (by decide)) (of_decide_eq_true h4) h6 h

theorem RoundTrip.sts (d : LSrc) (a : LSrc) (m : Addr) (z : Nat) (g : Nat) : RoundTrip.Statement (.sts d a m z g) := fun h _ => by
  obtain ⟨h0, h1, h2, h3, h4, _, h6, _⟩ := conj_of_wf h
  exact rt_L19L13M3N4N0 (mk := Instr.sts) (base := 0x46000000) d a m z g rfl rfl (LSrc.ok1 (szRegs_pos _) h0) h1 h2 (Nat.lt_of_lt_of_le (of_decide_eq_true h3) (by decide)) (of_decide_eq_true h4) h6 h

theorem RoundTrip.ldk (d : LDst) (a : LSrc) (m : Addr) (z : Nat) (g : Nat) : RoundTrip.Statement (.ldk d a m z g) := fun h _ => by
  obtain ⟨h0, h1, h2, h3, h4, _, h6, _⟩ := conj_of_wf h
  exact rt_D19L13M3N4N0 (mk := Instr.ldk) (base := 0x48000000) d a m z g rfl rfl (LDst.ok1 (szRegs_pos _) h0) h1 h2 (Nat.lt_of_lt_of_le (of_decide_eq_true h3) (by decide)) (of_decide_eq_true h4) h6 h

theorem RoundTrip.stk (d : LSrc) (a : LSrc) (m : Addr) (z : Nat) (g : Nat) : RoundTrip.Statement (.stk d a m z g) := fun h _ => by
  obtain ⟨h0, h1, h2, h3, h4, _, h6, _⟩ := conj_of_wf h
  exact rt_L19L13M3N4N0 (mk := Instr.stk) (base := 0x4A000000) d a m z g rfl rfl (LSrc.ok1 (szRegs_pos _) h0) h1 h2 (Nat.lt_of_lt_of_le (of_decide_eq_true h3) (by decide)) (of_decide_eq_true h4) h6 h

theorem RoundTrip.stx (d : LSrc) (a : LSrc) (m : Addr) (z : Nat) (g : Nat) : RoundTrip.Statement (.stx d a m z g) := fun h _ => by
  obtain ⟨h0, h1, h2, h3, h4, _, h6, _⟩ := conj_of_wf h
  exact rt_L19L13M3N4N0 (mk := Instr.stx) (base := 0x4C000000) d a m z g rfl rfl (LSrc.ok1 (szRegs_pos _) h0) h1 h2 (Nat.lt_of_lt_of_le (of_decide_eq_true h3) (by decide)) (of_decide_eq_true h4) h6 h

theorem RoundTrip.ldp (d : LDst) (a : LSrc) (m : Addr) (z : Nat) (g : Nat) : RoundTrip.Statement (.ldp d a m z g) := fun h _ => by
  obtain ⟨h0, h1, h2, h3, h4, _, _, h7, _⟩ := conj_of_wf h
  exact rt_D19L13M3N4N0 (mk := Instr.ldp) (base := 0x4E000000) d a m z g rfl rfl (LDst.ok1 (szRegs_pos _) h0) h1 h2 (Nat.lt_of_lt_of_le (of_decide_eq_true h3) (by decide)) (of_decide_eq_true h4) h7 h

theorem RoundTrip.atomgAdd (d : LDst) (a : LSrc) (b : LSrc) (r : Bool) (g : Nat) : RoundTrip.Statement (.atomgAdd d a b r g) := fun h _ => by
  obtain ⟨h0, h1, h2, h3, h4, _⟩ := conj_of_wf h
  exact rt_D19L13L7B3N0 (mk := Instr.atomgAdd) (base := 0x50000000) d a b r g rfl rfl h0 h1 h2 (of_decide_eq_true h3) h4 h

theorem RoundTrip.atomgMinI (d : LDst) (a : LSrc) (b : LSrc) (r : Bool) (g : Nat) : RoundTrip.Statement (.atomgMinI d a b r g) := fun h _ => by
  obtain ⟨h0, h1, h2, h3, h4, _⟩ := conj_of_wf h
  exact rt_D19L13L7B3N0 (mk := Instr.atomgMinI) (base := 0x50000010) d a b r g rfl rfl h0 h1 h2 (of_decide_eq_true h3) h4 h

theorem RoundTrip.atomgMaxI (d : LDst) (a : LSrc) (b : LSrc) (r : Bool) (g : Nat) : RoundTrip.Statement (.atomgMaxI d a b r g) := fun h _ => by
  obtain ⟨h0, h1, h2, h3, h4, _⟩ := conj_of_wf h
  exact rt_D19L13L7B3N0 (mk := Instr.atomgMaxI) (base := 0x50000020) d a b r g rfl rfl h0 h1 h2 (of_decide_eq_true h3) h4 h

theorem RoundTrip.atomgAnd (d : LDst) (a : LSrc) (b : LSrc) (r : Bool) (g : Nat) : RoundTrip.Statement (.atomgAnd d a b r g) := fun h _ => by
  obtain ⟨h0, h1, h2, h3, h4, _⟩ := conj_of_wf h
  exact rt_D19L13L7B3N0 (mk := Instr.atomgAnd) (base := 0x50000030) d a b r g rfl rfl h0 h1 h2 (of_decide_eq_true h3) h4 h

theorem RoundTrip.atomgOr (d : LDst) (a : LSrc) (b : LSrc) (r : Bool) (g : Nat) : RoundTrip.Statement (.atomgOr d a b r g) := fun h _ => by
  obtain ⟨h0, h1, h2, h3, h4, _⟩ := conj_of_wf h
  exact rt_D19L13L7B3N0 (mk := Instr.atomgOr) (base := 0x50000040) d a b r g rfl rfl h0 h1 h2 (of_decide_eq_true h3) h4 h

theorem RoundTrip.atomgXor (d : LDst) (a : LSrc) (b : LSrc) (r : Bool) (g : Nat) : RoundTrip.Statement (.atomgXor d a b r g) := fun h _ => by
  obtain ⟨h0, h1, h2, h3, h4, _⟩ := conj_of_wf h
  exact rt_D19L13L7B3N0 (mk := Instr.atomgXor) (base := 0x50000050) d a b r g rfl rfl h0 h1 h2 (of_decide_eq_true h3) h4 h

theorem RoundTrip.atomgExch (d : LDst) (a : LSrc) (b : LSrc) (r : Bool) (g : Nat) : RoundTrip.Statement (.atomgExch d a b r g) := fun h _ => by
  obtain ⟨h0, h1, h2, h3, h4, _⟩ := conj_of_wf h
  exact rt_D19L13L7B3N0 (mk := Instr.atomgExch) (base := 0x50000060) d a b r g rfl rfl h0 h1 h2 (of_decide_eq_true h3) h4 h

theorem RoundTrip.atomgCas (d : LDst) (a : LSrc) (b : Nat) (r : Bool) (g : Nat) : RoundTrip.Statement (.atomgCas d a b r g) := fun h _ => by
  obtain ⟨h0, h1, h2, h3, _⟩ := conj_of_wf h
  exact rt_D19L13N7B3N0 (mk := Instr.atomgCas) (base := 0x50000070) d a b r g rfl rfl h0 h1 (Nat.lt_of_lt_of_le (of_decide_eq_true h2) (by decide)) (of_decide_eq_true h3) h

theorem RoundTrip.atomgAddB64 (d : LDst) (a : LSrc) (b : LSrc) (r : Bool) (g : Nat) : RoundTrip.Statement (.atomgAddB64 d a b r g) := fun h _ => by
  obtain ⟨h0, h1, h2, h3, h4, _⟩ := conj_of_wf h
  exact rt_D19L13L7B3N0 (mk := Instr.atomgAddB64) (base := 0x52000000) d a b r g rfl rfl (LDst.ok1 (by decide) h0) h1 (LSrc.ok1 (by decide) h2) (of_decide_eq_true h3) h4 h

theorem RoundTrip.atomgMinIB64 (d : LDst) (a : LSrc) (b : LSrc) (r : Bool) (g : Nat) : RoundTrip.Statement (.atomgMinIB64 d a b r g) := fun h _ => by
  obtain ⟨h0, h1, h2, h3, h4, _⟩ := conj_of_wf h
  exact rt_D19L13L7B3N0 (mk := Instr.atomgMinIB64) (base := 0x52000010) d a b r g rfl rfl (LDst.ok1 (by decide) h0) h1 (LSrc.ok1 (by decide) h2) (of_decide_eq_true h3) h4 h

theorem RoundTrip.atomgMaxIB64 (d : LDst) (a : LSrc) (b : LSrc) (r : Bool) (g : Nat) : RoundTrip.Statement (.atomgMaxIB64 d a b r g) := fun h _ => by
  obtain ⟨h0, h1, h2, h3, h4, _⟩ := conj_of_wf h
  exact rt_D19L13L7B3N0 (mk := Instr.atomgMaxIB64) (base := 0x52000020) d a b r g rfl rfl (LDst.ok1 (by decide) h0) h1 (LSrc.ok1 (by decide) h2) (of_decide_eq_true h3) h4 h

theorem RoundTrip.atomgAndB64 (d : LDst) (a : LSrc) (b : LSrc) (r : Bool) (g : Nat) : RoundTrip.Statement (.atomgAndB64 d a b r g) := fun h _ => by
  obtain ⟨h0, h1, h2, h3, h4, _⟩ := conj_of_wf h
  exact rt_D19L13L7B3N0 (mk := Instr.atomgAndB64) (base := 0x52000030) d a b r g rfl rfl (LDst.ok1 (by decide) h0) h1 (LSrc.ok1 (by decide) h2) (of_decide_eq_true h3) h4 h

theorem RoundTrip.atomgOrB64 (d : LDst) (a : LSrc) (b : LSrc) (r : Bool) (g : Nat) : RoundTrip.Statement (.atomgOrB64 d a b r g) := fun h _ => by
  obtain ⟨h0, h1, h2, h3, h4, _⟩ := conj_of_wf h
  exact rt_D19L13L7B3N0 (mk := Instr.atomgOrB64) (base := 0x52000040) d a b r g rfl rfl (LDst.ok1 (by decide) h0) h1 (LSrc.ok1 (by decide) h2) (of_decide_eq_true h3) h4 h

theorem RoundTrip.atomgXorB64 (d : LDst) (a : LSrc) (b : LSrc) (r : Bool) (g : Nat) : RoundTrip.Statement (.atomgXorB64 d a b r g) := fun h _ => by
  obtain ⟨h0, h1, h2, h3, h4, _⟩ := conj_of_wf h
  exact rt_D19L13L7B3N0 (mk := Instr.atomgXorB64) (base := 0x52000050) d a b r g rfl rfl (LDst.ok1 (by decide) h0) h1 (LSrc.ok1 (by decide) h2) (of_decide_eq_true h3) h4 h

theorem RoundTrip.atomgExchB64 (d : LDst) (a : LSrc) (b : LSrc) (r : Bool) (g : Nat) : RoundTrip.Statement (.atomgExchB64 d a b r g) := fun h _ => by
  obtain ⟨h0, h1, h2, h3, h4, _⟩ := conj_of_wf h
  exact rt_D19L13L7B3N0 (mk := Instr.atomgExchB64) (base := 0x52000060) d a b r g rfl rfl (LDst.ok1 (by decide) h0) h1 (LSrc.ok1 (by decide) h2) (of_decide_eq_true h3) h4 h

theorem RoundTrip.atomgCasB64 (d : LDst) (a : LSrc) (b : Nat) (r : Bool) (g : Nat) : RoundTrip.Statement (.atomgCasB64 d a b r g) := fun h _ => by
  obtain ⟨h0, h1, h2, h3, _⟩ := conj_of_wf h
  exact rt_D19L13N7B3N0 (mk := Instr.atomgCasB64) (base := 0x52000070) d a b r g rfl rfl (LDst.ok1 (by decide) h0) h1 (lt_of_and h2 (by decide)) (of_decide_eq_true h3) h

theorem RoundTrip.atomgIncb (d : LDst) (a : LSrc) (b : LSrc) (r : Bool) (g : Nat) : RoundTrip.Statement (.atomgIncb d a b r g) := fun h _ => by
  obtain ⟨h0, h1, h2, h3, h4, _⟩ := conj_of_wf h
  exact rt_D19L13L7B3N0 (mk := Instr.atomgIncb) (base := 0x54000000) d a b r g rfl rfl h0 h1 h2 (of_decide_eq_true h3) h4 h

theorem RoundTrip.atomgDecb (d : LDst) (a : LSrc) (b : LSrc) (r : Bool) (g : Nat) : RoundTrip.Statement (.atomgDecb d a b r g) := fun h _ => by
  obtain ⟨h0, h1, h2, h3, h4, _⟩ := conj_of_wf h
  exact rt_D19L13L7B3N0 (mk := Instr.atomgDecb) (base := 0x54000010) d a b r g rfl rfl h0 h1 h2 (of_decide_eq_true h3) h4 h

theorem RoundTrip.atomgFadd (d : LDst) (a : LSrc) (b : LSrc) (r : Bool) (g : Nat) : RoundTrip.Statement (.atomgFadd d a b r g) := fun h _ => by
  obtain ⟨h0, h1, h2, h3, h4, _⟩ := conj_of_wf h
  exact rt_D19L13L7B3N0 (mk := Instr.atomgFadd) (base := 0x54000020) d a b r g rfl rfl h0 h1 h2 (of_decide_eq_true h3) h4 h

theorem RoundTrip.atomgFmin (d : LDst) (a : LSrc) (b : LSrc) (r : Bool) (g : Nat) : RoundTrip.Statement (.atomgFmin d a b r g) := fun h _ => by
  obtain ⟨h0, h1, h2, h3, h4, _⟩ := conj_of_wf h
  exact rt_D19L13L7B3N0 (mk := Instr.atomgFmin) (base := 0x54000030) d a b r g rfl rfl h0 h1 h2 (of_decide_eq_true h3) h4 h

theorem RoundTrip.atomgFmax (d : LDst) (a : LSrc) (b : LSrc) (r : Bool) (g : Nat) : RoundTrip.Statement (.atomgFmax d a b r g) := fun h _ => by
  obtain ⟨h0, h1, h2, h3, h4, _⟩ := conj_of_wf h
  exact rt_D19L13L7B3N0 (mk := Instr.atomgFmax) (base := 0x54000040) d a b r g rfl rfl h0 h1 h2 (of_decide_eq_true h3) h4 h

theorem RoundTrip.atomgMinN (d : LDst) (a : LSrc) (b : LSrc) (r : Bool) (g : Nat) : RoundTrip.Statement (.atomgMinN d a b r g) := fun h _ => by
  obtain ⟨h0, h1, h2, h3, h4, _⟩ := conj_of_wf h
  exact rt_D19L13L7B3N0 (mk := Instr.atomgMinN) (base := 0x54000050) d a b r g rfl rfl h0 h1 h2 (of_decide_eq_true h3) h4 h

theorem RoundTrip.atomgMaxN (d : LDst) (a : LSrc) (b : LSrc) (r : Bool) (g : Nat) : RoundTrip.Statement (.atomgMaxN d a b r g) := fun h _ => by
  obtain ⟨h0, h1, h2, h3, h4, _⟩ := conj_of_wf h
  exact rt_D19L13L7B3N0 (mk := Instr.atomgMaxN) (base := 0x54000060) d a b r g rfl rfl h0 h1 h2 (of_decide_eq_true h3) h4 h

theorem RoundTrip.atomsAdd (d : LDst) (a : LSrc) (b : LSrc) (g : Nat) : RoundTrip.Statement (.atomsAdd d a b g) := fun h _ => by
  obtain ⟨h0, h1, h2, h3, h4, _⟩ := conj_of_wf h
  exact rt_D19L13L7N0 (mk := Instr.atomsAdd) (base := 0x56000000) d a b g rfl rfl h0 h1 h2 (of_decide_eq_true h3) h4 h

theorem RoundTrip.atomsMinI (d : LDst) (a : LSrc) (b : LSrc) (g : Nat) : RoundTrip.Statement (.atomsMinI d a b g) := fun h _ => by
  obtain ⟨h0, h1, h2, h3, h4, _⟩ := conj_of_wf h
  exact rt_D19L13L7N0 (mk := Instr.atomsMinI) (base := 0x56000010) d a b g rfl rfl h0 h1 h2 (of_decide_eq_true h3) h4 h

theorem RoundTrip.atomsMaxI (d : LDst) (a : LSrc) (b : LSrc) (g : Nat) : RoundTrip.Statement (.atomsMaxI d a b g) := fun h _ => by
  obtain ⟨h0, h1, h2, h3, h4, _⟩ := conj_of_wf h
  exact rt_D19L13L7N0 (mk := Instr.atomsMaxI) (base := 0x56000020) d a b g rfl rfl h0 h1 h2 (of_decide_eq_true h3) h4 h

theorem RoundTrip.atomsAnd (d : LDst) (a : LSrc) (b : LSrc) (g : Nat) : RoundTrip.Statement (.atomsAnd d a b g) := fun h _ => by
  obtain ⟨h0, h1, h2, h3, h4, _⟩ := conj_of_wf h
  exact rt_D19L13L7N0 (mk := Instr.atomsAnd) (base := 0x56000030) d a b g rfl rfl h0 h1 h2 (of_decide_eq_true h3) h4 h

theorem RoundTrip.atomsOr (d : LDst) (a : LSrc) (b : LSrc) (g : Nat) : RoundTrip.Statement (.atomsOr d a b g) := fun h _ => by
  obtain ⟨h0, h1, h2, h3, h4, _⟩ := conj_of_wf h
  exact rt_D19L13L7N0 (mk := Instr.atomsOr) (base := 0x56000040) d a b g rfl rfl h0 h1 h2 (of_decide_eq_true h3) h4 h

theorem RoundTrip.atomsExch (d : LDst) (a : LSrc) (b : LSrc) (g : Nat) : RoundTrip.Statement (.atomsExch d a b g) := fun h _ => by
  obtain ⟨h0, h1, h2, h3, h4, _⟩ := conj_of_wf h
  exact rt_D19L13L7N0 (mk := Instr.atomsExch) (base := 0x56000050) d a b g rfl rfl h0 h1 h2 (of_decide_eq_true h3) h4 h

theorem RoundTrip.atomsCas (d : LDst) (a : LSrc) (b : Nat) (g : Nat) : RoundTrip.Statement (.atomsCas d a b g) := fun h _ => by
  obtain ⟨h0, h1, h2, h3, _⟩ := conj_of_wf h
  exact rt_D19L13N7N0 (mk := Instr.atomsCas) (base := 0x56000060) d a b g rfl rfl h0 h1 (Nat.lt_of_lt_of_le (of_decide_eq_true h2) (by decide)) (of_decide_eq_true h3) h

theorem RoundTrip.atomsIncb (d : LDst) (a : LSrc) (b : LSrc) (g : Nat) : RoundTrip.Statement (.atomsIncb d a b g) := fun h _ => by
  obtain ⟨h0, h1, h2, h3, h4, _⟩ := conj_of_wf h
  exact rt_D19L13L7N0 (mk := Instr.atomsIncb) (base := 0x56000070) d a b g rfl rfl h0 h1 h2 (of_decide_eq_true h3) h4 h

theorem RoundTrip.xidx (d : LDst) (a : LSrc) (b : LSrc) (n : Bool) (x : Nat) : RoundTrip.Statement (.xidx d a b n x) := fun h _ => by
  obtain ⟨h0, h1, h2, h3, h4, _⟩ := conj_of_wf h
  exact rt_D19L13L7B3N0 (mk := Instr.xidx) (base := 0x58000000) d a b n x rfl rfl h0 h1 h2 (of_decide_eq_true h3) h4 h

theorem RoundTrip.xxor (d : LDst) (a : LSrc) (b : LSrc) (n : Bool) (x : Nat) : RoundTrip.Statement (.xxor d a b n x) := fun h _ => by
  obtain ⟨h0, h1, h2, h3, h4, _⟩ := conj_of_wf h
  exact rt_D19L13L7B3N0 (mk := Instr.xxor) (base := 0x58000010) d a b n x rfl rfl h0 h1 h2 (of_decide_eq_true h3) h4 h

theorem RoundTrip.xrot (d : LDst) (a : LSrc) (b : LSrc) (n : Bool) (x : Nat) : RoundTrip.Statement (.xrot d a b n x) := fun h _ => by
  obtain ⟨h0, h1, h2, h3, h4, _⟩ := conj_of_wf h
  exact rt_D19L13L7B3N0 (mk := Instr.xrot) (base := 0x58000020) d a b n x rfl rfl h0 h1 h2 (of_decide_eq_true h3) h4 h

theorem RoundTrip.xshift (d : LDst) (a : LSrc) (b : LSrc) (n : Bool) (x : Nat) : RoundTrip.Statement (.xshift d a b n x) := fun h _ => by
  obtain ⟨h0, h1, h2, h3, h4, _⟩ := conj_of_wf h
  exact rt_D19L13L7B3N0 (mk := Instr.xshift) (base := 0x58000030) d a b n x rfl rfl h0 h1 h2 (of_decide_eq_true h3) h4 h

theorem RoundTrip.xlid (d : LDst) (a : LSrc) (b : LSrc) (n : Bool) : RoundTrip.Statement (.xlid d a b n) := fun h _ => by
  obtain ⟨h0, h1, h2, h3, _⟩ := conj_of_wf h
  exact rt_D19L13L7B3 (mk := Instr.xlid) (base := 0x58000040) d a b n rfl rfl h0 h1 h2 h3 h

theorem RoundTrip.pany (d : Nat) (a : Nat) (x : Nat) : RoundTrip.Statement (.pany d a x) := fun h _ => by
  obtain ⟨h0, h1, h2, _⟩ := conj_of_wf h
  exact rt_N19N13N0 (mk := Instr.pany) (base := 0x58000050) d a x rfl rfl (of_decide_eq_true h0) (of_decide_eq_true h1) (of_decide_eq_true h2) h

theorem RoundTrip.pall (d : Nat) (a : Nat) (x : Nat) : RoundTrip.Statement (.pall d a x) := fun h _ => by
  obtain ⟨h0, h1, h2, _⟩ := conj_of_wf h
  exact rt_N19N13N0 (mk := Instr.pall) (base := 0x58000060) d a x rfl rfl (of_decide_eq_true h0) (of_decide_eq_true h1) (of_decide_eq_true h2) h

theorem RoundTrip.pmask (d : LDst) (a : Nat) (n : Bool) (x : Nat) : RoundTrip.Statement (.pmask d a n x) := fun h _ => by
  obtain ⟨h0, h1, h2, _⟩ := conj_of_wf h
  exact rt_D19N13B3N0 (mk := Instr.pmask) (base := 0x58000070) d a n x rfl rfl h0 (of_decide_eq_true h1) (of_decide_eq_true h2) h

theorem RoundTrip.matchEq (d : LDst) (a : LSrc) (n : Bool) (x : Nat) : RoundTrip.Statement (.matchEq d a n x) := fun h _ => by
  obtain ⟨h0, h1, h2, _⟩ := conj_of_wf h
  exact rt_D19L13B3N0 (mk := Instr.matchEq) (base := 0x5A000000) d a n x rfl rfl h0 h1 (of_decide_eq_true h2) h

theorem RoundTrip.compact (d : LDst) (a : LSrc) (b : Nat) (n : Bool) (x : Nat) : RoundTrip.Statement (.compact d a b n x) := fun h _ => by
  obtain ⟨h0, h1, h2, h3, _⟩ := conj_of_wf h
  exact rt_D19L13N7B3N0 (mk := Instr.compact) (base := 0x5A000010) d a b n x rfl rfl h0 h1 (of_decide_eq_true h2) (of_decide_eq_true h3) h

theorem RoundTrip.redAdd (d : LDst) (a : LSrc) (n : Bool) (x : Nat) : RoundTrip.Statement (.redAdd d a n x) := fun h _ => by
  obtain ⟨h0, h1, h2, _⟩ := conj_of_wf h
  exact rt_D19L13B3N0 (mk := Instr.redAdd) (base := 0x5A000020) d a n x rfl rfl h0 h1 (of_decide_eq_true h2) h

theorem RoundTrip.redFadd (d : LDst) (a : LSrc) (n : Bool) (x : Nat) : RoundTrip.Statement (.redFadd d a n x) := fun h _ => by
  obtain ⟨h0, h1, h2, _⟩ := conj_of_wf h
  exact rt_D19L13B3N0 (mk := Instr.redFadd) (base := 0x5A000030) d a n x rfl rfl h0 h1 (of_decide_eq_true h2) h

theorem RoundTrip.redMinI (d : LDst) (a : LSrc) (n : Bool) (x : Nat) : RoundTrip.Statement (.redMinI d a n x) := fun h _ => by
  obtain ⟨h0, h1, h2, _⟩ := conj_of_wf h
  exact rt_D19L13B3N0 (mk := Instr.redMinI) (base := 0x5A000040) d a n x rfl rfl h0 h1 (of_decide_eq_true h2) h

theorem RoundTrip.redMinN (d : LDst) (a : LSrc) (n : Bool) (x : Nat) : RoundTrip.Statement (.redMinN d a n x) := fun h _ => by
  obtain ⟨h0, h1, h2, _⟩ := conj_of_wf h
  exact rt_D19L13B3N0 (mk := Instr.redMinN) (base := 0x5A0000C0) d a n x rfl rfl h0 h1 (of_decide_eq_true h2) h

theorem RoundTrip.redMinF (d : LDst) (a : LSrc) (n : Bool) (x : Nat) : RoundTrip.Statement (.redMinF d a n x) := fun h _ => by
  obtain ⟨h0, h1, h2, _⟩ := conj_of_wf h
  exact rt_D19L13B3N0 (mk := Instr.redMinF) (base := 0x5A000140) d a n x rfl rfl h0 h1 (of_decide_eq_true h2) h

theorem RoundTrip.redMaxI (d : LDst) (a : LSrc) (n : Bool) (x : Nat) : RoundTrip.Statement (.redMaxI d a n x) := fun h _ => by
  obtain ⟨h0, h1, h2, _⟩ := conj_of_wf h
  exact rt_D19L13B3N0 (mk := Instr.redMaxI) (base := 0x5A000050) d a n x rfl rfl h0 h1 (of_decide_eq_true h2) h

theorem RoundTrip.redMaxN (d : LDst) (a : LSrc) (n : Bool) (x : Nat) : RoundTrip.Statement (.redMaxN d a n x) := fun h _ => by
  obtain ⟨h0, h1, h2, _⟩ := conj_of_wf h
  exact rt_D19L13B3N0 (mk := Instr.redMaxN) (base := 0x5A0000D0) d a n x rfl rfl h0 h1 (of_decide_eq_true h2) h

theorem RoundTrip.redMaxF (d : LDst) (a : LSrc) (n : Bool) (x : Nat) : RoundTrip.Statement (.redMaxF d a n x) := fun h _ => by
  obtain ⟨h0, h1, h2, _⟩ := conj_of_wf h
  exact rt_D19L13B3N0 (mk := Instr.redMaxF) (base := 0x5A000150) d a n x rfl rfl h0 h1 (of_decide_eq_true h2) h

theorem RoundTrip.scanAdd (d : LDst) (a : LSrc) (n : Bool) (x : Nat) : RoundTrip.Statement (.scanAdd d a n x) := fun h _ => by
  obtain ⟨h0, h1, h2, _⟩ := conj_of_wf h
  exact rt_D19L13B3N0 (mk := Instr.scanAdd) (base := 0x5A000060) d a n x rfl rfl h0 h1 (of_decide_eq_true h2) h

theorem RoundTrip.mrank (d : LDst) (a : LSrc) (n : Bool) (x : Nat) : RoundTrip.Statement (.mrank d a n x) := fun h _ => by
  obtain ⟨h0, h1, h2, _⟩ := conj_of_wf h
  exact rt_D19L13B3N0 (mk := Instr.mrank) (base := 0x5A000070) d a n x rfl rfl h0 h1 (of_decide_eq_true h2) h

theorem RoundTrip.garg (d : LDst) (a : LSrc) (b : LSrc) (n : Bool) (x : Nat) : RoundTrip.Statement (.garg d a b n x) := fun h _ => by
  obtain ⟨h0, h1, h2, h3, h4, _⟩ := conj_of_wf h
  exact rt_D19L13L7B3N0 (mk := Instr.garg) (base := 0x5C000000) d a b n x rfl rfl h0 h1 h2 (of_decide_eq_true h3) h4 h

theorem RoundTrip.gres (d : LSrc) (a : LSrc) (b : LSrc) (x : Nat) : RoundTrip.Statement (.gres d a b x) := fun h _ => by
  obtain ⟨h0, h1, h2, h3, h4, _⟩ := conj_of_wf h
  exact rt_L19L13L7N0 (mk := Instr.gres) (base := 0x5C000010) d a b x rfl rfl h0 h1 h2 (of_decide_eq_true h3) h4 h

theorem RoundTrip.rpush (d : Nat) (a : LSrc) (g : Nat) : RoundTrip.Statement (.rpush d a g) := fun h _ => by
  obtain ⟨h0, h1, h2, _⟩ := conj_of_wf h
  exact rt_N19L13N0 (mk := Instr.rpush) (base := 0x5E000000) d a g rfl rfl (lt_of_and h0 (by decide)) h1 (of_decide_eq_true h2) h

theorem RoundTrip.jml (d : LDst) (a : LSrc) (g : Nat) : RoundTrip.Statement (.jml d a g) := fun h _ => by
  obtain ⟨h0, h1, h2, _⟩ := conj_of_wf h
  exact rt_D19L13N0w3 (mk := Instr.jml) (base := 0x6E000000) d a g rfl rfl (LDst.ok1 (by decide) h0) (LSrc.ok1 (by decide) h1) (of_decide_eq_true h2) h

theorem RoundTrip.mfragBf16 (d : Nat) (a : Nat) (b : Nat) (u : Bool) (c : Bool) (g : Nat) : RoundTrip.Statement (.mfragBf16 d a b u c g) := fun h _ => by
  obtain ⟨h0, h1, _⟩ := conj_of_wf h
  exact rt_N19N13N7B6B3N0 (mk := Instr.mfragBf16) (base := 0x60000000) d a b u c g rfl rfl (fragOk_lt h1).1 (fragOk_lt h1).2.1 (fragOk_lt h1).2.2 (of_decide_eq_true h0) h

theorem RoundTrip.mfragF16 (d : Nat) (a : Nat) (b : Nat) (u : Bool) (c : Bool) (g : Nat) : RoundTrip.Statement (.mfragF16 d a b u c g) := fun h _ => by
  obtain ⟨h0, h1, _⟩ := conj_of_wf h
  exact rt_N19N13N7B6B3N0 (mk := Instr.mfragF16) (base := 0x62000000) d a b u c g rfl rfl (fragOk_lt h1).1 (fragOk_lt h1).2.1 (fragOk_lt h1).2.2 (of_decide_eq_true h0) h

theorem RoundTrip.mfragE4m3 (d : Nat) (a : Nat) (b : Nat) (u : Bool) (c : Bool) (g : Nat) : RoundTrip.Statement (.mfragE4m3 d a b u c g) := fun h _ => by
  obtain ⟨h0, h1, _⟩ := conj_of_wf h
  exact rt_N19N13N7B6B3N0 (mk := Instr.mfragE4m3) (base := 0x64000000) d a b u c g rfl rfl (fragOk_lt h1).1 (fragOk_lt h1).2.1 (fragOk_lt h1).2.2 (of_decide_eq_true h0) h

theorem RoundTrip.mfragE5m2 (d : Nat) (a : Nat) (b : Nat) (u : Bool) (c : Bool) (g : Nat) : RoundTrip.Statement (.mfragE5m2 d a b u c g) := fun h _ => by
  obtain ⟨h0, h1, _⟩ := conj_of_wf h
  exact rt_N19N13N7B6B3N0 (mk := Instr.mfragE5m2) (base := 0x66000000) d a b u c g rfl rfl (fragOk_lt h1).1 (fragOk_lt h1).2.1 (fragOk_lt h1).2.2 (of_decide_eq_true h0) h

theorem RoundTrip.mfragF4b (d : Nat) (a : Nat) (b : Nat) (u : Bool) (s : Nat) (c : Bool) (g : Nat) : RoundTrip.Statement (.mfragF4b d a b u s c g) := fun h _ => by
  obtain ⟨h0, h1, h2, _⟩ := conj_of_wf h
  exact rt_N19N13N7B6N4B3N0 (mk := Instr.mfragF4b) (base := 0x68000000) d a b u s c g rfl rfl (fragOk_lt h2).1 (fragOk_lt h2).2.1 (fragOk_lt h2).2.2 (of_decide_eq_true h0) (of_decide_eq_true h1) h

theorem RoundTrip.mfragI8 (d : Nat) (a : Nat) (b : Nat) (u : Bool) (c : Bool) (g : Nat) : RoundTrip.Statement (.mfragI8 d a b u c g) := fun h _ => by
  obtain ⟨h0, h1, _⟩ := conj_of_wf h
  exact rt_N19N13N7B6B3N0 (mk := Instr.mfragI8) (base := 0x6A000000) d a b u c g rfl rfl (fragOk_lt h1).1 (fragOk_lt h1).2.1 (fragOk_lt h1).2.2 (of_decide_eq_true h0) h

theorem RoundTrip.brl (p : Nat) (s : Bool) (o : BitVec 18) : RoundTrip.Statement (.brl p s o) := fun h _ => by
  obtain ⟨h0, _⟩ := conj_of_wf h
  exact rt_N19B18I0 (mk := Instr.brl) (base := 0x6C000000) p s o rfl rfl (of_decide_eq_true h0) h

theorem RoundTrip.uAdd (d : UDst) (a : USrc) (b : USrc) (n : Bool) (k : Nat) : RoundTrip.Statement (.uAdd d a b n k) := fun h _ => by
  obtain ⟨h0, h1, h2, h3, h4, _⟩ := conj_of_wf h
  exact rt_E19U13U7B3N0 (mk := Instr.uAdd) (base := 0x80000000) d a b n k rfl rfl h0 h1 h2 (of_decide_eq_true h3) h4 h

theorem RoundTrip.uSub (d : UDst) (a : USrc) (b : USrc) (n : Bool) (k : Nat) : RoundTrip.Statement (.uSub d a b n k) := fun h _ => by
  obtain ⟨h0, h1, h2, h3, h4, _⟩ := conj_of_wf h
  exact rt_E19U13U7B3N0 (mk := Instr.uSub) (base := 0x80000010) d a b n k rfl rfl h0 h1 h2 (of_decide_eq_true h3) h4 h

theorem RoundTrip.uMinI (d : UDst) (a : USrc) (b : USrc) (n : Bool) (k : Nat) : RoundTrip.Statement (.uMinI d a b n k) := fun h _ => by
  obtain ⟨h0, h1, h2, h3, h4, _⟩ := conj_of_wf h
  exact rt_E19U13U7B3N0 (mk := Instr.uMinI) (base := 0x80000020) d a b n k rfl rfl h0 h1 h2 (of_decide_eq_true h3) h4 h

theorem RoundTrip.uMaxI (d : UDst) (a : USrc) (b : USrc) (n : Bool) (k : Nat) : RoundTrip.Statement (.uMaxI d a b n k) := fun h _ => by
  obtain ⟨h0, h1, h2, h3, h4, _⟩ := conj_of_wf h
  exact rt_E19U13U7B3N0 (mk := Instr.uMaxI) (base := 0x80000030) d a b n k rfl rfl h0 h1 h2 (of_decide_eq_true h3) h4 h

theorem RoundTrip.uMinN (d : UDst) (a : USrc) (b : USrc) (n : Bool) (k : Nat) : RoundTrip.Statement (.uMinN d a b n k) := fun h _ => by
  obtain ⟨h0, h1, h2, h3, h4, _⟩ := conj_of_wf h
  exact rt_E19U13U7B3N0 (mk := Instr.uMinN) (base := 0x80000040) d a b n k rfl rfl h0 h1 h2 (of_decide_eq_true h3) h4 h

theorem RoundTrip.uMaxN (d : UDst) (a : USrc) (b : USrc) (n : Bool) (k : Nat) : RoundTrip.Statement (.uMaxN d a b n k) := fun h _ => by
  obtain ⟨h0, h1, h2, h3, h4, _⟩ := conj_of_wf h
  exact rt_E19U13U7B3N0 (mk := Instr.uMaxN) (base := 0x80000050) d a b n k rfl rfl h0 h1 h2 (of_decide_eq_true h3) h4 h

theorem RoundTrip.uMul (d : UDst) (a : USrc) (b : USrc) (n : Bool) (k : Nat) : RoundTrip.Statement (.uMul d a b n k) := fun h _ => by
  obtain ⟨h0, h1, h2, h3, h4, _⟩ := conj_of_wf h
  exact rt_E19U13U7B3N0 (mk := Instr.uMul) (base := 0x80000060) d a b n k rfl rfl h0 h1 h2 (of_decide_eq_true h3) h4 h

theorem RoundTrip.uMulhN (d : UDst) (a : USrc) (b : USrc) (n : Bool) (k : Nat) : RoundTrip.Statement (.uMulhN d a b n k) := fun h _ => by
  obtain ⟨h0, h1, h2, h3, h4, _⟩ := conj_of_wf h
  exact rt_E19U13U7B3N0 (mk := Instr.uMulhN) (base := 0x80000070) d a b n k rfl rfl h0 h1 h2 (of_decide_eq_true h3) h4 h

theorem RoundTrip.uAnd (d : UDst) (a : USrc) (b : USrc) (n : Bool) (k : Nat) : RoundTrip.Statement (.uAnd d a b n k) := fun h _ => by
  obtain ⟨h0, h1, h2, h3, h4, _⟩ := conj_of_wf h
  exact rt_E19U13U7B3N0 (mk := Instr.uAnd) (base := 0x82000000) d a b n k rfl rfl h0 h1 h2 (of_decide_eq_true h3) h4 h

theorem RoundTrip.uOr (d : UDst) (a : USrc) (b : USrc) (n : Bool) (k : Nat) : RoundTrip.Statement (.uOr d a b n k) := fun h _ => by
  obtain ⟨h0, h1, h2, h3, h4, _⟩ := conj_of_wf h
  exact rt_E19U13U7B3N0 (mk := Instr.uOr) (base := 0x82000010) d a b n k rfl rfl h0 h1 h2 (of_decide_eq_true h3) h4 h

theorem RoundTrip.uXor (d : UDst) (a : USrc) (b : USrc) (n : Bool) (k : Nat) : RoundTrip.Statement (.uXor d a b n k) := fun h _ => by
  obtain ⟨h0, h1, h2, h3, h4, _⟩ := conj_of_wf h
  exact rt_E19U13U7B3N0 (mk := Instr.uXor) (base := 0x82000020) d a b n k rfl rfl h0 h1 h2 (of_decide_eq_true h3) h4 h

theorem RoundTrip.uAndn (d : UDst) (a : USrc) (b : USrc) (n : Bool) (k : Nat) : RoundTrip.Statement (.uAndn d a b n k) := fun h _ => by
  obtain ⟨h0, h1, h2, h3, h4, _⟩ := conj_of_wf h
  exact rt_E19U13U7B3N0 (mk := Instr.uAndn) (base := 0x82000030) d a b n k rfl rfl h0 h1 h2 (of_decide_eq_true h3) h4 h

theorem RoundTrip.uShl (d : UDst) (a : USrc) (b : USrc) (n : Bool) (k : Nat) : RoundTrip.Statement (.uShl d a b n k) := fun h _ => by
  obtain ⟨h0, h1, h2, h3, h4, _⟩ := conj_of_wf h
  exact rt_E19U13U7B3N0 (mk := Instr.uShl) (base := 0x82000040) d a b n k rfl rfl h0 h1 h2 (of_decide_eq_true h3) h4 h

theorem RoundTrip.uShr (d : UDst) (a : USrc) (b : USrc) (n : Bool) (k : Nat) : RoundTrip.Statement (.uShr d a b n k) := fun h _ => by
  obtain ⟨h0, h1, h2, h3, h4, _⟩ := conj_of_wf h
  exact rt_E19U13U7B3N0 (mk := Instr.uShr) (base := 0x82000050) d a b n k rfl rfl h0 h1 h2 (of_decide_eq_true h3) h4 h

theorem RoundTrip.uSar (d : UDst) (a : USrc) (b : USrc) (n : Bool) (k : Nat) : RoundTrip.Statement (.uSar d a b n k) := fun h _ => by
  obtain ⟨h0, h1, h2, h3, h4, _⟩ := conj_of_wf h
  exact rt_E19U13U7B3N0 (mk := Instr.uSar) (base := 0x82000060) d a b n k rfl rfl h0 h1 h2 (of_decide_eq_true h3) h4 h

theorem RoundTrip.uClz (d : UDst) (a : USrc) (n : Bool) (k : Nat) : RoundTrip.Statement (.uClz d a n k) := fun h _ => by
  obtain ⟨h0, h1, h2, _⟩ := conj_of_wf h
  exact rt_E19U13B3N0 (mk := Instr.uClz) (base := 0x82000070) d a n k rfl rfl h0 h1 (of_decide_eq_true h2) h

theorem RoundTrip.uEq (d : Nat) (a : USrc) (b : USrc) (k : Nat) : RoundTrip.Statement (.uEq d a b k) := fun h _ => by
  obtain ⟨h0, h1, h2, h3, h4, _⟩ := conj_of_wf h
  exact rt_N19U13U7N0 (mk := Instr.uEq) (base := 0x84000000) d a b k rfl rfl (Nat.lt_of_lt_of_le (of_decide_eq_true h0) (by decide)) h1 h2 (of_decide_eq_true h3) h4 h

theorem RoundTrip.uNe (d : Nat) (a : USrc) (b : USrc) (k : Nat) : RoundTrip.Statement (.uNe d a b k) := fun h _ => by
  obtain ⟨h0, h1, h2, h3, h4, _⟩ := conj_of_wf h
  exact rt_N19U13U7N0 (mk := Instr.uNe) (base := 0x84000010) d a b k rfl rfl (Nat.lt_of_lt_of_le (of_decide_eq_true h0) (by decide)) h1 h2 (of_decide_eq_true h3) h4 h

theorem RoundTrip.uLtI (d : Nat) (a : USrc) (b : USrc) (k : Nat) : RoundTrip.Statement (.uLtI d a b k) := fun h _ => by
  obtain ⟨h0, h1, h2, h3, h4, _⟩ := conj_of_wf h
  exact rt_N19U13U7N0 (mk := Instr.uLtI) (base := 0x84000020) d a b k rfl rfl (Nat.lt_of_lt_of_le (of_decide_eq_true h0) (by decide)) h1 h2 (of_decide_eq_true h3) h4 h

theorem RoundTrip.uLeI (d : Nat) (a : USrc) (b : USrc) (k : Nat) : RoundTrip.Statement (.uLeI d a b k) := fun h _ => by
  obtain ⟨h0, h1, h2, h3, h4, _⟩ := conj_of_wf h
  exact rt_N19U13U7N0 (mk := Instr.uLeI) (base := 0x84000030) d a b k rfl rfl (Nat.lt_of_lt_of_le (of_decide_eq_true h0) (by decide)) h1 h2 (of_decide_eq_true h3) h4 h

theorem RoundTrip.uLtN (d : Nat) (a : USrc) (b : USrc) (k : Nat) : RoundTrip.Statement (.uLtN d a b k) := fun h _ => by
  obtain ⟨h0, h1, h2, h3, h4, _⟩ := conj_of_wf h
  exact rt_N19U13U7N0 (mk := Instr.uLtN) (base := 0x84000040) d a b k rfl rfl (Nat.lt_of_lt_of_le (of_decide_eq_true h0) (by decide)) h1 h2 (of_decide_eq_true h3) h4 h

theorem RoundTrip.uLeN (d : Nat) (a : USrc) (b : USrc) (k : Nat) : RoundTrip.Statement (.uLeN d a b k) := fun h _ => by
  obtain ⟨h0, h1, h2, h3, h4, _⟩ := conj_of_wf h
  exact rt_N19U13U7N0 (mk := Instr.uLeN) (base := 0x84000050) d a b k rfl rfl (Nat.lt_of_lt_of_le (of_decide_eq_true h0) (by decide)) h1 h2 (of_decide_eq_true h3) h4 h

theorem RoundTrip.uTst (d : Nat) (a : USrc) (b : USrc) (k : Nat) : RoundTrip.Statement (.uTst d a b k) := fun h _ => by
  obtain ⟨h0, h1, h2, h3, h4, _⟩ := conj_of_wf h
  exact rt_N19U13U7N0 (mk := Instr.uTst) (base := 0x84000060) d a b k rfl rfl (Nat.lt_of_lt_of_le (of_decide_eq_true h0) (by decide)) h1 h2 (of_decide_eq_true h3) h4 h

theorem RoundTrip.uMov (d : UDst) (a : USrc) (n : Bool) (k : Nat) : RoundTrip.Statement (.uMov d a n k) := fun h _ => by
  obtain ⟨h0, h1, h2, _⟩ := conj_of_wf h
  exact rt_E19U13B3N0 (mk := Instr.uMov) (base := 0x86000000) d a n k rfl rfl h0 h1 (of_decide_eq_true h2) h

theorem RoundTrip.uSel (d : UDst) (a : USrc) (b : USrc) (n : Bool) (c : Nat) : RoundTrip.Statement (.uSel d a b n c) := fun h _ => by
  obtain ⟨h0, h1, h2, h3, h4, _⟩ := conj_of_wf h
  exact rt_E19U13U7B3N0 (mk := Instr.uSel) (base := 0x86000010) d a b n c rfl rfl h0 h1 h2 (of_decide_eq_true h3) h4 h

theorem RoundTrip.uMovs (d : UDst) (a : USrc) (n : Bool) (k : Nat) : RoundTrip.Statement (.uMovs d a n k) := fun h _ => by
  obtain ⟨h0, h1, h2, _⟩ := conj_of_wf h
  exact rt_E19U13B3N0 (mk := Instr.uMovs) (base := 0x86000020) d a n k rfl rfl h0 h1 (of_decide_eq_true h2) h

theorem RoundTrip.kopAnd (d : Nat) (a : Nat) (s : Nat) (k : Nat) : RoundTrip.Statement (.kopAnd d a s k) := fun h _ => by
  obtain ⟨h0, h1, h2, h3, _⟩ := conj_of_wf h
  exact rt_N19N13N7N0w6633 (mk := Instr.kopAnd) (base := 0x86000030) d a s k rfl rfl (Nat.lt_of_lt_of_le (of_decide_eq_true h0) (by decide)) (Nat.lt_of_lt_of_le (of_decide_eq_true h1) (by decide)) (of_decide_eq_true h2) (of_decide_eq_true h3) h

theorem RoundTrip.kopOr (d : Nat) (a : Nat) (s : Nat) (k : Nat) : RoundTrip.Statement (.kopOr d a s k) := fun h _ => by
  obtain ⟨h0, h1, h2, h3, _⟩ := conj_of_wf h
  exact rt_N19N13N7N0w6633 (mk := Instr.kopOr) (base := 0x86000430) d a s k rfl rfl (Nat.lt_of_lt_of_le (of_decide_eq_true h0) (by decide)) (Nat.lt_of_lt_of_le (of_decide_eq_true h1) (by decide)) (of_decide_eq_true h2) (of_decide_eq_true h3) h

theorem RoundTrip.kopXor (d : Nat) (a : Nat) (s : Nat) (k : Nat) : RoundTrip.Statement (.kopXor d a s k) := fun h _ => by
  obtain ⟨h0, h1, h2, h3, _⟩ := conj_of_wf h
  exact rt_N19N13N7N0w6633 (mk := Instr.kopXor) (base := 0x86000830) d a s k rfl rfl (Nat.lt_of_lt_of_le (of_decide_eq_true h0) (by decide)) (Nat.lt_of_lt_of_le (of_decide_eq_true h1) (by decide)) (of_decide_eq_true h2) (of_decide_eq_true h3) h

theorem RoundTrip.kopAndn (d : Nat) (a : Nat) (s : Nat) (k : Nat) : RoundTrip.Statement (.kopAndn d a s k) := fun h _ => by
  obtain ⟨h0, h1, h2, h3, _⟩ := conj_of_wf h
  exact rt_N19N13N7N0w6633 (mk := Instr.kopAndn) (base := 0x86000C30) d a s k rfl rfl (Nat.lt_of_lt_of_le (of_decide_eq_true h0) (by decide)) (Nat.lt_of_lt_of_le (of_decide_eq_true h1) (by decide)) (of_decide_eq_true h2) (of_decide_eq_true h3) h

theorem RoundTrip.kopNot (d : Nat) (a : Nat) (k : Nat) : RoundTrip.Statement (.kopNot d a k) := fun h _ => by
  obtain ⟨h0, h1, h2, _⟩ := conj_of_wf h
  exact rt_N19N13N0 (mk := Instr.kopNot) (base := 0x86001030) d a k rfl rfl (Nat.lt_of_lt_of_le (of_decide_eq_true h0) (by decide)) (Nat.lt_of_lt_of_le (of_decide_eq_true h1) (by decide)) (of_decide_eq_true h2) h

theorem RoundTrip.vtos (d : UDst) (a : LSrc) (n : Bool) (k : Nat) : RoundTrip.Statement (.vtos d a n k) := fun h _ => by
  obtain ⟨h0, h1, h2, _⟩ := conj_of_wf h
  exact rt_E19L13B3N0 (mk := Instr.vtos) (base := 0x86000040) d a n k rfl rfl h0 h1 (of_decide_eq_true h2) h

theorem RoundTrip.uPopc (d : UDst) (a : USrc) (n : Bool) (k : Nat) : RoundTrip.Statement (.uPopc d a n k) := fun h _ => by
  obtain ⟨h0, h1, h2, _⟩ := conj_of_wf h
  exact rt_E19U13B3N0 (mk := Instr.uPopc) (base := 0x86000050) d a n k rfl rfl h0 h1 (of_decide_eq_true h2) h

theorem RoundTrip.uDivN (d : UDst) (a : USrc) (b : USrc) (n : Bool) (k : Nat) : RoundTrip.Statement (.uDivN d a b n k) := fun h _ => by
  obtain ⟨h0, h1, h2, h3, h4, _⟩ := conj_of_wf h
  exact rt_E19U13U7B3N0 (mk := Instr.uDivN) (base := 0x86000060) d a b n k rfl rfl h0 h1 h2 (of_decide_eq_true h3) h4 h

theorem RoundTrip.ret (k : Nat) : RoundTrip.Statement (.ret k) := fun h _ => by
  obtain ⟨h0, _⟩ := conj_of_wf h
  exact rt_N0 (mk := Instr.ret) (base := 0xAC000000) k rfl rfl (of_decide_eq_true h0) h

theorem RoundTrip.calli (a : USrc) (k : Nat) : RoundTrip.Statement (.calli a k) := fun h _ => by
  obtain ⟨h0, h1, _⟩ := conj_of_wf h
  exact rt_U13N0 (mk := Instr.calli) (base := 0xAE000000) a k rfl rfl h0 (of_decide_eq_true h1) h

theorem RoundTrip.saddi (d : UDst) (a : USrc) (i : BitVec 13) : RoundTrip.Statement (.saddi d a i) := fun h _ => by
  obtain ⟨h0, h1, _⟩ := conj_of_wf h
  exact rt_E19U13I0 (mk := Instr.saddi) (base := 0x90000000) d a i rfl rfl h0 h1 h

theorem RoundTrip.sandi (d : UDst) (a : USrc) (i : BitVec 13) : RoundTrip.Statement (.sandi d a i) := fun h _ => by
  obtain ⟨h0, h1, _⟩ := conj_of_wf h
  exact rt_E19U13I0 (mk := Instr.sandi) (base := 0x92000000) d a i rfl rfl h0 h1 h

theorem RoundTrip.sori (d : UDst) (a : USrc) (i : BitVec 13) : RoundTrip.Statement (.sori d a i) := fun h _ => by
  obtain ⟨h0, h1, _⟩ := conj_of_wf h
  exact rt_E19U13I0 (mk := Instr.sori) (base := 0x94000000) d a i rfl rfl h0 h1 h

theorem RoundTrip.sshiShl (d : UDst) (a : USrc) (s : Nat) : RoundTrip.Statement (.sshiShl d a s) := fun h _ => by
  obtain ⟨h0, h1, h2, _⟩ := conj_of_wf h
  exact rt_E19U13N0 (mk := Instr.sshiShl) (base := 0x96000000) d a s rfl rfl h0 h1 (of_decide_eq_true h2) h

theorem RoundTrip.sshiShr (d : UDst) (a : USrc) (s : Nat) : RoundTrip.Statement (.sshiShr d a s) := fun h _ => by
  obtain ⟨h0, h1, h2, _⟩ := conj_of_wf h
  exact rt_E19U13N0 (mk := Instr.sshiShr) (base := 0x96000800) d a s rfl rfl h0 h1 (of_decide_eq_true h2) h

theorem RoundTrip.sshiSar (d : UDst) (a : USrc) (s : Nat) : RoundTrip.Statement (.sshiSar d a s) := fun h _ => by
  obtain ⟨h0, h1, h2, _⟩ := conj_of_wf h
  exact rt_E19U13N0 (mk := Instr.sshiSar) (base := 0x96001000) d a s rfl rfl h0 h1 (of_decide_eq_true h2) h

theorem RoundTrip.scmpiEq (d : Nat) (a : USrc) (i : BitVec 10) : RoundTrip.Statement (.scmpiEq d a i) := fun h _ => by
  obtain ⟨h0, h1, _⟩ := conj_of_wf h
  exact rt_N19U13I0 (mk := Instr.scmpiEq) (base := 0x98000000) d a i rfl rfl (Nat.lt_of_lt_of_le (of_decide_eq_true h0) (by decide)) h1 h

theorem RoundTrip.scmpiNe (d : Nat) (a : USrc) (i : BitVec 10) : RoundTrip.Statement (.scmpiNe d a i) := fun h _ => by
  obtain ⟨h0, h1, _⟩ := conj_of_wf h
  exact rt_N19U13I0 (mk := Instr.scmpiNe) (base := 0x98000400) d a i rfl rfl (Nat.lt_of_lt_of_le (of_decide_eq_true h0) (by decide)) h1 h

theorem RoundTrip.scmpiLtI (d : Nat) (a : USrc) (i : BitVec 10) : RoundTrip.Statement (.scmpiLtI d a i) := fun h _ => by
  obtain ⟨h0, h1, _⟩ := conj_of_wf h
  exact rt_N19U13I0 (mk := Instr.scmpiLtI) (base := 0x98000800) d a i rfl rfl (Nat.lt_of_lt_of_le (of_decide_eq_true h0) (by decide)) h1 h

theorem RoundTrip.scmpiLeI (d : Nat) (a : USrc) (i : BitVec 10) : RoundTrip.Statement (.scmpiLeI d a i) := fun h _ => by
  obtain ⟨h0, h1, _⟩ := conj_of_wf h
  exact rt_N19U13I0 (mk := Instr.scmpiLeI) (base := 0x98000C00) d a i rfl rfl (Nat.lt_of_lt_of_le (of_decide_eq_true h0) (by decide)) h1 h

theorem RoundTrip.scmpiLtN (d : Nat) (a : USrc) (i : BitVec 10) : RoundTrip.Statement (.scmpiLtN d a i) := fun h _ => by
  obtain ⟨h0, h1, _⟩ := conj_of_wf h
  exact rt_N19U13I0 (mk := Instr.scmpiLtN) (base := 0x98001000) d a i rfl rfl (Nat.lt_of_lt_of_le (of_decide_eq_true h0) (by decide)) h1 h

theorem RoundTrip.scmpiLeN (d : Nat) (a : USrc) (i : BitVec 10) : RoundTrip.Statement (.scmpiLeN d a i) := fun h _ => by
  obtain ⟨h0, h1, _⟩ := conj_of_wf h
  exact rt_N19U13I0 (mk := Instr.scmpiLeN) (base := 0x98001400) d a i rfl rfl (Nat.lt_of_lt_of_le (of_decide_eq_true h0) (by decide)) h1 h

theorem RoundTrip.scmpiTst (d : Nat) (a : USrc) (i : BitVec 10) : RoundTrip.Statement (.scmpiTst d a i) := fun h _ => by
  obtain ⟨h0, h1, _⟩ := conj_of_wf h
  exact rt_N19U13I0 (mk := Instr.scmpiTst) (base := 0x98001800) d a i rfl rfl (Nat.lt_of_lt_of_le (of_decide_eq_true h0) (by decide)) h1 h

theorem RoundTrip.smovi (d : UDst) (i : BitVec 13) : RoundTrip.Statement (.smovi d i) := fun h _ => by
  obtain ⟨h0, _⟩ := conj_of_wf h
  exact rt_E19I0 (mk := Instr.smovi) (base := 0x9A000000) d i rfl rfl h0 h

theorem RoundTrip.sld (d : UDst) (a : USrc) (i : BitVec 13) : RoundTrip.Statement (.sld d a i) := fun h _ => by
  obtain ⟨h0, h1, _⟩ := conj_of_wf h
  exact rt_E19U13I0 (mk := Instr.sld) (base := 0x9C000000) d a i rfl rfl h0 h1 h

theorem RoundTrip.sst (d : USrc) (a : USrc) (i : BitVec 13) : RoundTrip.Statement (.sst d a i) := fun h _ => by
  obtain ⟨h0, h1, h2, _⟩ := conj_of_wf h
  exact rt_U19U13I0 (mk := Instr.sst) (base := 0x9E000000) d a i rfl rfl h0 h1 h2 h

theorem RoundTrip.bra (k : Nat) (s : Bool) (o : BitVec 21) : RoundTrip.Statement (.bra k s o) := fun h _ => by
  obtain ⟨h0, _⟩ := conj_of_wf h
  exact rt_N22B21I0 (mk := Instr.bra) (base := 0xA0000000) k s o rfl rfl (of_decide_eq_true h0) h

theorem RoundTrip.call (k : Nat) (s : Bool) (o : BitVec 21) : RoundTrip.Statement (.call k s o) := fun h _ => by
  obtain ⟨h0, _⟩ := conj_of_wf h
  exact rt_N22B21I0 (mk := Instr.call) (base := 0xA2000000) k s o rfl rfl (of_decide_eq_true h0) h

theorem RoundTrip.rep (c : Nat) (x : Bool) (y : Bool) (z : Bool) : RoundTrip.Statement (.rep c x y z) := fun h _ => by
  obtain ⟨h0, _⟩ := conj_of_wf h
  exact rt_N19B18B17B16 (mk := Instr.rep) (base := 0xB8000000) c x y z rfl rfl (of_decide_eq_true h0) h

theorem RoundTrip.guard (p : Nat) (n : Bool) : RoundTrip.Statement (.guard p n) := fun h _ => by
  obtain ⟨h0, _⟩ := conj_of_wf h
  exact rt_N19B18 (mk := Instr.guard) (base := 0xBA000000) p n rfl rfl (of_decide_eq_true h0) h

theorem RoundTrip.hdr (r : Nat) (c : Bool) (f : Nat) (t : BitVec 16) : RoundTrip.Statement (.hdr r c f t) := fun h _ => by
  obtain ⟨h0, h1, _⟩ := conj_of_wf h
  exact rt_N23B22N16I0 (mk := Instr.hdr) (base := 0xBC000000) r c f t rfl rfl (of_decide_eq_true h0) (of_decide_eq_true h1) h

theorem RoundTrip.jseg (a : USrc) (b : USrc) : RoundTrip.Statement (.jseg a b) := fun h _ => by
  obtain ⟨h0, h1, h2, _⟩ := conj_of_wf h
  exact rt_U19U13 (mk := Instr.jseg) (base := 0xA4000000) a b rfl rfl h0 h1 h2 h

theorem RoundTrip.cfetch (a : USrc) (b : USrc) : RoundTrip.Statement (.cfetch a b) := fun h _ => by
  obtain ⟨h0, h1, h2, _⟩ := conj_of_wf h
  exact rt_U19U13 (mk := Instr.cfetch) (base := 0xA6000000) a b rfl rfl h0 h1 h2 h

theorem RoundTrip.widen (a : USrc) (b : LSrc) : RoundTrip.Statement (.widen a b) := fun h _ => by
  obtain ⟨h0, h1, _⟩ := conj_of_wf h
  exact rt_U19L13 (mk := Instr.widen) (base := 0xA8000000) a b rfl rfl h0 h1 h

theorem RoundTrip.gather (a : USrc) (t : Bool) : RoundTrip.Statement (.gather a t) := fun h _ => by
  obtain ⟨h0, _⟩ := conj_of_wf h
  exact rt_U19B0 (mk := Instr.gather) (base := 0xAA000000) a t rfl rfl h0 h

theorem RoundTrip.barTeam : RoundTrip.Statement (.barTeam) := fun h _ => by
  exact rt_X0 (mk := Instr.barTeam) (base := 0xB0000000) rfl rfl  h

theorem RoundTrip.barTeamYield : RoundTrip.Statement (.barTeamYield) := fun h _ => by
  exact rt_X0 (mk := Instr.barTeamYield) (base := 0xB0000001) rfl rfl  h

theorem RoundTrip.barClus : RoundTrip.Statement (.barClus) := fun h _ => by
  exact rt_X0 (mk := Instr.barClus) (base := 0xB0000002) rfl rfl  h

theorem RoundTrip.barMask (a : USrc) : RoundTrip.Statement (.barMask a) := fun h _ => by
  obtain ⟨h0, _⟩ := conj_of_wf h
  exact rt_U19 (mk := Instr.barMask) (base := 0xB0000003) a rfl rfl h0 h

theorem RoundTrip.joinEnrol (a : Nat) : RoundTrip.Statement (.joinEnrol a) := fun h _ => by
  obtain ⟨h0, _⟩ := conj_of_wf h
  exact rt_N19 (mk := Instr.joinEnrol) (base := 0xB2000000) a rfl rfl (Nat.lt_of_lt_of_le (of_decide_eq_true h0) (by decide)) h

theorem RoundTrip.joinWait (a : Nat) : RoundTrip.Statement (.joinWait a) := fun h _ => by
  obtain ⟨h0, _⟩ := conj_of_wf h
  exact rt_N19 (mk := Instr.joinWait) (base := 0xB2000001) a rfl rfl (Nat.lt_of_lt_of_le (of_decide_eq_true h0) (by decide)) h

theorem RoundTrip.elect (a : UDst) (c : Nat) : RoundTrip.Statement (.elect a c) := fun h _ => by
  obtain ⟨h0, h1, _⟩ := conj_of_wf h
  exact rt_E19N7 (mk := Instr.elect) (base := 0xB4000000) a c rfl rfl h0 (of_decide_eq_true h1) h

theorem RoundTrip.partitionWhole (a : Nat) : RoundTrip.Statement (.partitionWhole a) := fun h _ => by
  obtain ⟨h0, _⟩ := conj_of_wf h
  exact rt_N19 (mk := Instr.partitionWhole) (base := 0xB4000001) a rfl rfl (lt_of_and h0 (by decide)) h

theorem RoundTrip.partitionB4 (a : Nat) : RoundTrip.Statement (.partitionB4 a) := fun h _ => by
  obtain ⟨h0, _⟩ := conj_of_wf h
  exact rt_N19 (mk := Instr.partitionB4) (base := 0xB4000081) a rfl rfl (lt_of_and h0 (by decide)) h

theorem RoundTrip.partitionB8 (a : Nat) : RoundTrip.Statement (.partitionB8 a) := fun h _ => by
  obtain ⟨h0, _⟩ := conj_of_wf h
  exact rt_N19 (mk := Instr.partitionB8) (base := 0xB4000101) a rfl rfl (lt_of_and h0 (by decide)) h

theorem RoundTrip.partitionB16 (a : Nat) : RoundTrip.Statement (.partitionB16 a) := fun h _ => by
  obtain ⟨h0, _⟩ := conj_of_wf h
  exact rt_N19 (mk := Instr.partitionB16) (base := 0xB4000181) a rfl rfl (lt_of_and h0 (by decide)) h

theorem RoundTrip.partitionMask (a : Nat) (b : USrc) : RoundTrip.Statement (.partitionMask a b) := fun h _ => by
  obtain ⟨h0, h1, _⟩ := conj_of_wf h
  exact rt_N19U13 (mk := Instr.partitionMask) (base := 0xB4000201) a b rfl rfl (lt_of_and h0 (by decide)) h1 h

theorem RoundTrip.regroup : RoundTrip.Statement (.regroup) := fun h _ => by
  exact rt_X0 (mk := Instr.regroup) (base := 0xB4000002) rfl rfl  h

theorem RoundTrip.lmap (a : UDst) (b : USrc) : RoundTrip.Statement (.lmap a b) := fun h _ => by
  obtain ⟨h0, h1, _⟩ := conj_of_wf h
  exact rt_E19U13 (mk := Instr.lmap) (base := 0xB4000003) a b rfl rfl h0 h1 h

theorem RoundTrip.nop : RoundTrip.Statement (.nop) := fun h _ => by
  exact rt_X0 (mk := Instr.nop) (base := 0xBE000000) rfl rfl  h

theorem RoundTrip.exit : RoundTrip.Statement (.exit) := fun h _ => by
  exact rt_X0 (mk := Instr.exit) (base := 0xBE000001) rfl rfl  h

theorem RoundTrip.brk : RoundTrip.Statement (.brk) := fun h _ => by
  exact rt_X0 (mk := Instr.brk) (base := 0xBE000002) rfl rfl  h

theorem RoundTrip.trap (a : USrc) : RoundTrip.Statement (.trap a) := fun h _ => by
  obtain ⟨h0, _⟩ := conj_of_wf h
  exact rt_U19 (mk := Instr.trap) (base := 0xBE000003) a rfl rfl h0 h

theorem RoundTrip.region : RoundTrip.Statement (.region) := fun h _ => by
  exact rt_X0 (mk := Instr.region) (base := 0xBE000004) rfl rfl  h

theorem RoundTrip.yield : RoundTrip.Statement (.yield) := fun h _ => by
  exact rt_X0 (mk := Instr.yield) (base := 0xBE000005) rfl rfl  h

theorem RoundTrip.cinv (a : USrc) (b : USrc) : RoundTrip.Statement (.cinv a b) := fun h _ => by
  obtain ⟨h0, h1, h2, _⟩ := conj_of_wf h
  exact rt_U19U13 (mk := Instr.cinv) (base := 0xBE000006) a b rfl rfl h0 h1 h2 h

theorem RoundTrip.cinvSync (a : USrc) (b : USrc) : RoundTrip.Statement (.cinvSync a b) := fun h _ => by
  obtain ⟨h0, h1, h2, _⟩ := conj_of_wf h
  exact rt_U19U13 (mk := Instr.cinvSync) (base := 0xBE000007) a b rfl rfl h0 h1 h2 h

theorem RoundTrip.tcopy (a : USrc) (b : Nat) (c : USrc) : RoundTrip.Statement (.tcopy a b c) := fun h _ => by
  obtain ⟨h0, h1, h2, h3, _⟩ := conj_of_wf h
  exact rt_U19N13U7 (mk := Instr.tcopy) (base := 0xC0000000) a b c rfl rfl h0 (Nat.lt_of_lt_of_le (of_decide_eq_true h1) (by decide)) h2 h3 h

theorem RoundTrip.tcopym (a : USrc) (b : Nat) (c : USrc) : RoundTrip.Statement (.tcopym a b c) := fun h _ => by
  obtain ⟨h0, h1, h2, h3, _⟩ := conj_of_wf h
  exact rt_U19N13U7 (mk := Instr.tcopym) (base := 0xC2000000) a b c rfl rfl h0 (Nat.lt_of_lt_of_le (of_decide_eq_true h1) (by decide)) h2 h3 h

theorem RoundTrip.mtask (a : USrc) : RoundTrip.Statement (.mtask a) := fun h _ => by
  obtain ⟨h0, _⟩ := conj_of_wf h
  exact rt_U19 (mk := Instr.mtask) (base := 0xC4000000) a rfl rfl h0 h

theorem RoundTrip.drain (a : USrc) (o : Bool) : RoundTrip.Statement (.drain a o) := fun h _ => by
  obtain ⟨h0, _⟩ := conj_of_wf h
  exact rt_U19B0 (mk := Instr.drain) (base := 0xC6000000) a o rfl rfl h0 h

theorem RoundTrip.ringAcq (a : UDst) (b : USrc) : RoundTrip.Statement (.ringAcq a b) := fun h _ => by
  obtain ⟨h0, h1, _⟩ := conj_of_wf h
  exact rt_E19U13 (mk := Instr.ringAcq) (base := 0xC8000000) a b rfl rfl h0 h1 h

theorem RoundTrip.ringRel (a : USrc) : RoundTrip.Statement (.ringRel a) := fun h _ => by
  obtain ⟨h0, _⟩ := conj_of_wf h
  exact rt_U19 (mk := Instr.ringRel) (base := 0xC8000001) a rfl rfl h0 h

theorem RoundTrip.keySort (a : Nat) (b : USrc) (c : USrc) (k : Bool) : RoundTrip.Statement (.keySort a b c k) := fun h _ => by
  obtain ⟨h0, h1, h2, h3, _⟩ := conj_of_wf h
  exact rt_N19U13U7B4 (mk := Instr.keySort) (base := 0xCA000000) a b c k rfl rfl (Nat.lt_of_lt_of_le (of_decide_eq_true h0) (by decide)) h1 h2 h3 h

theorem RoundTrip.keyMerge (a : Nat) (b : USrc) (c : USrc) (k : Bool) (d : Bool) : RoundTrip.Statement (.keyMerge a b c k d) := fun h _ => by
  obtain ⟨h0, h1, h2, h3, _⟩ := conj_of_wf h
  exact rt_N19U13U7B4B3 (mk := Instr.keyMerge) (base := 0xCA000001) a b c k d rfl rfl (Nat.lt_of_lt_of_le (of_decide_eq_true h0) (by decide)) h1 h2 h3 h

theorem RoundTrip.keyTopk (a : Nat) (b : USrc) (c : USrc) : RoundTrip.Statement (.keyTopk a b c) := fun h _ => by
  obtain ⟨h0, h1, h2, h3, _⟩ := conj_of_wf h
  exact rt_N19U13U7 (mk := Instr.keyTopk) (base := 0xCA000002) a b c rfl rfl (Nat.lt_of_lt_of_le (of_decide_eq_true h0) (by decide)) h1 h2 h3 h

theorem RoundTrip.keyOffs (a : Nat) (b : USrc) (c : USrc) : RoundTrip.Statement (.keyOffs a b c) := fun h _ => by
  obtain ⟨h0, h1, h2, h3, _⟩ := conj_of_wf h
  exact rt_N19U13U7 (mk := Instr.keyOffs) (base := 0xCA000003) a b c rfl rfl (Nat.lt_of_lt_of_le (of_decide_eq_true h0) (by decide)) h1 h2 h3 h

theorem RoundTrip.keyCheck (a : Nat) (b : USrc) (c : USrc) : RoundTrip.Statement (.keyCheck a b c) := fun h _ => by
  obtain ⟨h0, h1, h2, h3, _⟩ := conj_of_wf h
  exact rt_N19U13U7 (mk := Instr.keyCheck) (base := 0xCA000004) a b c rfl rfl (Nat.lt_of_lt_of_le (of_decide_eq_true h0) (by decide)) h1 h2 h3 h

theorem RoundTrip.xlatb (a : USrc) (b : USrc) (c : USrc) : RoundTrip.Statement (.xlatb a b c) := fun h _ => by
  obtain ⟨h0, h1, h2, h3, _⟩ := conj_of_wf h
  exact rt_U19U13U7 (mk := Instr.xlatb) (base := 0xCC000000) a b c rfl rfl h0 h1 h2 h3 h

theorem RoundTrip.seq (a : USrc) : RoundTrip.Statement (.seq a) := fun h _ => by
  obtain ⟨h0, _⟩ := conj_of_wf h
  exact rt_U19 (mk := Instr.seq) (base := 0xCE000000) a rfl rfl h0 h

theorem RoundTrip.fence (s : Nat) : RoundTrip.Statement (.fence s) := fun h _ => by
  obtain ⟨h0, _⟩ := conj_of_wf h
  exact rt_N0 (mk := Instr.fence) (base := 0xD0000000) s rfl rfl (Nat.lt_of_lt_of_le (of_decide_eq_true h0) (by decide)) h

theorem RoundTrip.fenceAcq (s : Nat) : RoundTrip.Statement (.fenceAcq s) := fun h _ => by
  obtain ⟨h0, _⟩ := conj_of_wf h
  exact rt_N0 (mk := Instr.fenceAcq) (base := 0xD0000008) s rfl rfl (Nat.lt_of_lt_of_le (of_decide_eq_true h0) (by decide)) h

theorem RoundTrip.fenceRel (s : Nat) : RoundTrip.Statement (.fenceRel s) := fun h _ => by
  obtain ⟨h0, _⟩ := conj_of_wf h
  exact rt_N0 (mk := Instr.fenceRel) (base := 0xD0000010) s rfl rfl (Nat.lt_of_lt_of_le (of_decide_eq_true h0) (by decide)) h

theorem RoundTrip.fenceSc (s : Nat) : RoundTrip.Statement (.fenceSc s) := fun h _ => by
  obtain ⟨h0, _⟩ := conj_of_wf h
  exact rt_N0 (mk := Instr.fenceSc) (base := 0xD0000018) s rfl rfl (Nat.lt_of_lt_of_le (of_decide_eq_true h0) (by decide)) h

theorem RoundTrip.cwait (a : USrc) (b : USrc) : RoundTrip.Statement (.cwait a b) := fun h _ => by
  obtain ⟨h0, h1, h2, _⟩ := conj_of_wf h
  exact rt_U19U13 (mk := Instr.cwait) (base := 0xD2000000) a b rfl rfl h0 h1 h2 h

theorem RoundTrip.suspend (a : USrc) (b : Nat) : RoundTrip.Statement (.suspend a b) := fun h _ => by
  obtain ⟨h0, h1, _⟩ := conj_of_wf h
  exact rt_U19N13 (mk := Instr.suspend) (base := 0xD4000000) a b rfl rfl h0 (Nat.lt_of_lt_of_le (of_decide_eq_true h1) (by decide)) h

theorem RoundTrip.touch (a : USrc) : RoundTrip.Statement (.touch a) := fun h _ => by
  obtain ⟨h0, _⟩ := conj_of_wf h
  exact rt_U19 (mk := Instr.touch) (base := 0xD4000001) a rfl rfl h0 h

theorem RoundTrip.fulfill (a : USrc) (b : Nat) : RoundTrip.Statement (.fulfill a b) := fun h _ => by
  obtain ⟨h0, h1, _⟩ := conj_of_wf h
  exact rt_U19N13 (mk := Instr.fulfill) (base := 0xD4000002) a b rfl rfl h0 (Nat.lt_of_lt_of_le (of_decide_eq_true h1) (by decide)) h

theorem RoundTrip.celltag (a : USrc) (b : USrc) (c : UDst) : RoundTrip.Statement (.celltag a b c) := fun h _ => by
  obtain ⟨h0, h1, h2, h3, _⟩ := conj_of_wf h
  exact rt_U19U13E7 (mk := Instr.celltag) (base := 0xD4000003) a b c rfl rfl h0 h1 h2 h3 h

theorem RoundTrip.nlaunch (a : UDst) (b : USrc) : RoundTrip.Statement (.nlaunch a b) := fun h _ => by
  obtain ⟨h0, h1, _⟩ := conj_of_wf h
  exact rt_E19U13 (mk := Instr.nlaunch) (base := 0xD6000000) a b rfl rfl h0 h1 h

theorem RoundTrip.nsignal (b : USrc) : RoundTrip.Statement (.nsignal b) := fun h _ => by
  obtain ⟨h0, _⟩ := conj_of_wf h
  exact rt_U13 (mk := Instr.nsignal) (base := 0xD6000001) b rfl rfl h0 h

theorem RoundTrip.nqstat (a : UDst) (b : USrc) : RoundTrip.Statement (.nqstat a b) := fun h _ => by
  obtain ⟨h0, h1, _⟩ := conj_of_wf h
  exact rt_E19U13 (mk := Instr.nqstat) (base := 0xD6000002) a b rfl rfl h0 h1 h

theorem RoundTrip.mrs (a : MDst) (b : Nat) : RoundTrip.Statement (.mrs a b) := fun h _ => by
  obtain ⟨h0, h1, _⟩ := conj_of_wf h
  exact rt_P19N13 (mk := Instr.mrs) (base := 0xD8000000) a b rfl rfl h0 (mrsNumber_lt h1) h

theorem RoundTrip.msr (a : MSrc) (b : Nat) : RoundTrip.Statement (.msr a b) := fun h _ => by
  obtain ⟨h0, h1, _⟩ := conj_of_wf h
  exact rt_Q19N13 (mk := Instr.msr) (base := 0xD8000001) a b rfl rfl h0 (msrNumber_lt h1) h

theorem RoundTrip.adpf (a : USrc) (b : USrc) (c : USrc) : RoundTrip.Statement (.adpf a b c) := fun h _ => by
  obtain ⟨h0, h1, h2, h3, _⟩ := conj_of_wf h
  exact rt_U19U13U7 (mk := Instr.adpf) (base := 0xDA000000) a b c rfl rfl h0 h1 h2 h3 h

theorem RoundTrip.dbgRd (a : UDst) (b : USrc) (c : USrc) : RoundTrip.Statement (.dbgRd a b c) := fun h _ => by
  obtain ⟨h0, h1, h2, h3, _⟩ := conj_of_wf h
  exact rt_E19U13U7 (mk := Instr.dbgRd) (base := 0xE0000000) a b c rfl rfl h0 h1 h2 h3 h

theorem RoundTrip.dbgWr (a : USrc) (b : USrc) (c : USrc) : RoundTrip.Statement (.dbgWr a b c) := fun h _ => by
  obtain ⟨h0, h1, h2, h3, _⟩ := conj_of_wf h
  exact rt_U19U13U7 (mk := Instr.dbgWr) (base := 0xE0000001) a b c rfl rfl h0 h1 h2 h3 h

theorem RoundTrip.ctxSave (a : USrc) (b : USrc) : RoundTrip.Statement (.ctxSave a b) := fun h _ => by
  obtain ⟨h0, h1, h2, _⟩ := conj_of_wf h
  exact rt_U19U13 (mk := Instr.ctxSave) (base := 0xE2000000) a b rfl rfl h0 h1 h2 h

theorem RoundTrip.ctxLoad (a : USrc) : RoundTrip.Statement (.ctxLoad a) := fun h _ => by
  obtain ⟨h0, _⟩ := conj_of_wf h
  exact rt_U19 (mk := Instr.ctxLoad) (base := 0xE2000001) a rfl rfl h0 h

theorem RoundTrip.place (a : USrc) : RoundTrip.Statement (.place a) := fun h _ => by
  obtain ⟨h0, _⟩ := conj_of_wf h
  exact rt_U19 (mk := Instr.place) (base := 0xE4000000) a rfl rfl h0 h

theorem RoundTrip.evq (a : UDst) (b : USrc) : RoundTrip.Statement (.evq a b) := fun h _ => by
  obtain ⟨h0, h1, _⟩ := conj_of_wf h
  exact rt_E19U13 (mk := Instr.evq) (base := 0xE6000000) a b rfl rfl h0 h1 h

theorem RoundTrip.pmsrRd (a : UDst) (b : Nat) : RoundTrip.Statement (.pmsrRd a b) := fun h _ => by
  obtain ⟨h0, h1, _⟩ := conj_of_wf h
  exact rt_E19N13 (mk := Instr.pmsrRd) (base := 0xE8000000) a b rfl rfl h0 (Nat.lt_of_lt_of_le (of_decide_eq_true h1) (by decide)) h

theorem RoundTrip.pmsrWr (a : USrc) (b : Nat) : RoundTrip.Statement (.pmsrWr a b) := fun h _ => by
  obtain ⟨h0, h1, _⟩ := conj_of_wf h
  exact rt_U19N13 (mk := Instr.pmsrWr) (base := 0xE8000001) a b rfl rfl h0 (Nat.lt_of_lt_of_le (of_decide_eq_true h1) (by decide)) h

theorem RoundTrip.cload (a : USrc) (b : USrc) : RoundTrip.Statement (.cload a b) := fun h _ => by
  obtain ⟨h0, h1, h2, _⟩ := conj_of_wf h
  exact rt_U19U13 (mk := Instr.cload) (base := 0xEA000000) a b rfl rfl h0 h1 h2 h

theorem RoundTrip.rte (a : USrc) (b : USrc) : RoundTrip.Statement (.rte a b) := fun h _ => by
  obtain ⟨h0, h1, h2, _⟩ := conj_of_wf h
  exact rt_U19U13 (mk := Instr.rte) (base := 0xEC000000) a b rfl rfl h0 h1 h2 h

theorem RoundTrip.kill (a : USrc) : RoundTrip.Statement (.kill a) := fun h _ => by
  obtain ⟨h0, _⟩ := conj_of_wf h
  exact rt_U19 (mk := Instr.kill) (base := 0xEE000000) a rfl rfl h0 h

theorem RoundTrip.landingComplete (core : Nat) (slot : Nat) : RoundTrip.Statement (.landingComplete core slot) := fun _ h => absurd rfl h

theorem RoundTrip.trapQueueAdmit (core : Nat) : RoundTrip.Statement (.trapQueueAdmit core) := fun _ h => absurd rfl h

theorem RoundTrip.gatherFiring (team : Nat) : RoundTrip.Statement (.gatherFiring team) := fun _ h => absurd rfl h

theorem RoundTrip.phaseRecordWrite (team : Nat) : RoundTrip.Statement (.phaseRecordWrite team) := fun _ h => absurd rfl h

theorem RoundTrip.eventHoldRelease (die : Nat) : RoundTrip.Statement (.eventHoldRelease die) := fun _ h => absurd rfl h

theorem RoundTrip.evaluatorRequest (die : Nat) : RoundTrip.Statement (.evaluatorRequest die) := fun _ h => absurd rfl h

theorem RoundTrip.cellStarterRetry (die : Nat) : RoundTrip.Statement (.cellStarterRetry die) := fun _ h => absurd rfl h

theorem RoundTrip.cellWaiterRetry (group : Nat) : RoundTrip.Statement (.cellWaiterRetry group) := fun _ h => absurd rfl h

theorem RoundTrip.cwaitRecheck (group : Nat) : RoundTrip.Statement (.cwaitRecheck group) := fun _ h => absurd rfl h

theorem RoundTrip.cwaitPoll (group : Nat) : RoundTrip.Statement (.cwaitPoll group) := fun _ h => absurd rfl h

theorem RoundTrip.postedAtomicPerform (core : Nat) : RoundTrip.Statement (.postedAtomicPerform core) := fun _ h => absurd rfl h

theorem RoundTrip.postedAtomicFault (core : Nat) : RoundTrip.Statement (.postedAtomicFault core) := fun _ h => absurd rfl h

theorem RoundTrip.strokeTick : RoundTrip.Statement (.strokeTick) := fun _ h => absurd rfl h

theorem RoundTrip.engineCommandStart (core : Nat) (id : Nat) : RoundTrip.Statement (.engineCommandStart core id) := fun _ h => absurd rfl h

theorem RoundTrip.commandComplete (core : Nat) (id : Nat) : RoundTrip.Statement (.commandComplete core id) := fun _ h => absurd rfl h

theorem RoundTrip.ringFill (core : Nat) (id : Nat) : RoundTrip.Statement (.ringFill core id) := fun _ h => absurd rfl h

theorem RoundTrip.sparsityQueueFill (core : Nat) (id : Nat) : RoundTrip.Statement (.sparsityQueueFill core id) := fun _ h => absurd rfl h

theorem RoundTrip.taskIssue (core : Nat) : RoundTrip.Statement (.taskIssue core) := fun _ h => absurd rfl h

theorem RoundTrip.matrixTaskEnd (core : Nat) : RoundTrip.Statement (.matrixTaskEnd core) := fun _ h => absurd rfl h

theorem RoundTrip.adapterLineFill (core : Nat) : RoundTrip.Statement (.adapterLineFill core) := fun _ h => absurd rfl h

theorem RoundTrip.matrixNanTrap (core : Nat) : RoundTrip.Statement (.matrixNanTrap core) := fun _ h => absurd rfl h

theorem RoundTrip.drainAddition (core : Nat) : RoundTrip.Statement (.drainAddition core) := fun _ h => absurd rfl h

theorem RoundTrip.nodeSignal (handle : BitVec 32) : RoundTrip.Statement (.nodeSignal handle) := fun _ h => absurd rfl h

theorem RoundTrip.placementDecision (die : Nat) : RoundTrip.Statement (.placementDecision die) := fun _ h => absurd rfl h

theorem RoundTrip.teamStart (team : Nat) : RoundTrip.Statement (.teamStart team) := fun _ h => absurd rfl h

theorem RoundTrip.priorityAging (die : Nat) : RoundTrip.Statement (.priorityAging die) := fun _ h => absurd rfl h

theorem RoundTrip.reservation (die : Nat) : RoundTrip.Statement (.reservation die) := fun _ h => absurd rfl h

theorem RoundTrip.packageArbiterHandout : RoundTrip.Statement (.packageArbiterHandout) := fun _ h => absurd rfl h

theorem RoundTrip.recordArrival (die : Nat) (queue : Nat) : RoundTrip.Statement (.recordArrival die queue) := fun _ h => absurd rfl h

theorem RoundTrip.flushTimerExpiry (die : Nat) (queue : Nat) : RoundTrip.Statement (.flushTimerExpiry die queue) := fun _ h => absurd rfl h

theorem RoundTrip.slipwayReturn (die : Nat) : RoundTrip.Statement (.slipwayReturn die) := fun _ h => absurd rfl h

theorem RoundTrip.teamEnd (team : Nat) : RoundTrip.Statement (.teamEnd team) := fun _ h => absurd rfl h

theorem RoundTrip.menuEntryApply (core : Nat) (entry : Nat) : RoundTrip.Statement (.menuEntryApply core entry) := fun _ h => absurd rfl h

theorem RoundTrip.ringtabWrite (group : Nat) : RoundTrip.Statement (.ringtabWrite group) := fun _ h => absurd rfl h

theorem RoundTrip.tlbinvPage (asid : Nat) (page : Nat) : RoundTrip.Statement (.tlbinvPage asid page) := fun _ h => absurd rfl h

theorem RoundTrip.tlbinvAsid (asid : Nat) : RoundTrip.Statement (.tlbinvAsid asid) := fun _ h => absurd rfl h

theorem RoundTrip.tlbinvAll : RoundTrip.Statement (.tlbinvAll) := fun _ h => absurd rfl h

theorem RoundTrip.vacsetAdd (die : Nat) (core : Nat) : RoundTrip.Statement (.vacsetAdd die core) := fun _ h => absurd rfl h

theorem RoundTrip.vacsetEmpty (die : Nat) : RoundTrip.Statement (.vacsetEmpty die) := fun _ h => absurd rfl h

theorem RoundTrip.vacgo (die : Nat) (cobj : BitVec 64) : RoundTrip.Statement (.vacgo die cobj) := fun _ h => absurd rfl h

theorem RoundTrip.vacateHardStop (die : Nat) : RoundTrip.Statement (.vacateHardStop die) := fun _ h => absurd rfl h

theorem RoundTrip.vacateComplete (die : Nat) : RoundTrip.Statement (.vacateComplete die) := fun _ h => absurd rfl h

theorem RoundTrip.pgdone (die : Nat) (asid : Nat) (page : Nat) : RoundTrip.Statement (.pgdone die asid page) := fun _ h => absurd rfl h

theorem RoundTrip.eccClear (die : Nat) : RoundTrip.Statement (.eccClear die) := fun _ h => absurd rfl h

theorem RoundTrip.wrouteWrite (v : BitVec 32) : RoundTrip.Statement (.wrouteWrite v) := fun _ h => absurd rfl h

theorem RoundTrip.evheadWrite (die : Nat) (v : BitVec 32) : RoundTrip.Statement (.evheadWrite die v) := fun _ h => absurd rfl h

theorem RoundTrip.hostQueueDoorbell (die : Nat) (queue : Nat) (port : Nat) (tail : BitVec 32) : RoundTrip.Statement (.hostQueueDoorbell die queue port tail) := fun _ h => absurd rfl h

theorem RoundTrip.hostSubmit (die : Nat) (queue : Nat) : RoundTrip.Statement (.hostSubmit die queue) := fun _ h => absurd rfl h

theorem RoundTrip.hostSignal (die : Nat) (queue : Nat) : RoundTrip.Statement (.hostSignal die queue) := fun _ h => absurd rfl h

theorem RoundTrip.hostCloseQueue (die : Nat) (queue : Nat) : RoundTrip.Statement (.hostCloseQueue die queue) := fun _ h => absurd rfl h

theorem RoundTrip.msixCoalesceEnd (port : Nat) (vector : Nat) : RoundTrip.Statement (.msixCoalesceEnd port vector) := fun _ h => absurd rfl h

theorem RoundTrip.eventStatusClear (m : BitVec 32) : RoundTrip.Statement (.eventStatusClear m) := fun _ h => absurd rfl h

theorem RoundTrip.deviceRegisterWrite (offset : Nat) (v : BitVec 64) : RoundTrip.Statement (.deviceRegisterWrite offset v) := fun _ h => absurd rfl h

theorem RoundTrip.cxlMemWrite (pa : Nat) (data : HostStore) : RoundTrip.Statement (.cxlMemWrite pa data) := fun _ h => absurd rfl h

theorem RoundTrip.cxlMemRead (pa : Nat) (len : Nat) : RoundTrip.Statement (.cxlMemRead pa len) := fun _ h => absurd rfl h

theorem RoundTrip.wotisRead (f : Flit) : RoundTrip.Statement (.wotisRead f) := fun _ h => absurd rfl h

theorem RoundTrip.wotisWrite (f : Flit) : RoundTrip.Statement (.wotisWrite f) := fun _ h => absurd rfl h

theorem RoundTrip.wotisAtomic (f : Flit) : RoundTrip.Statement (.wotisAtomic f) := fun _ h => absurd rfl h

theorem RoundTrip.wotisResponse (f : Flit) : RoundTrip.Statement (.wotisResponse f) := fun _ h => absurd rfl h

theorem RoundTrip.wotisCopyData (f : Flit) : RoundTrip.Statement (.wotisCopyData f) := fun _ h => absurd rfl h

theorem RoundTrip.wotisEvent (f : Flit) : RoundTrip.Statement (.wotisEvent f) := fun _ h => absurd rfl h

theorem RoundTrip.linkRetrained (link : Nat) : RoundTrip.Statement (.linkRetrained link) := fun _ h => absurd rfl h

theorem RoundTrip.linkLost (link : Nat) : RoundTrip.Statement (.linkLost link) := fun _ h => absurd rfl h

theorem RoundTrip.resync : RoundTrip.Statement (.resync) := fun _ h => absurd rfl h

theorem RoundTrip.resyncDone : RoundTrip.Statement (.resyncDone) := fun _ h => absurd rfl h

theorem RoundTrip.attestationRequest (nonce : BitVec 256) : RoundTrip.Statement (.attestationRequest nonce) := fun _ h => absurd rfl h

theorem RoundTrip.attestationReportReady : RoundTrip.Statement (.attestationReportReady) := fun _ h => absurd rfl h

theorem RoundTrip.throttle (die : Nat) : RoundTrip.Statement (.throttle die) := fun _ h => absurd rfl h

theorem RoundTrip.thermalFreeze : RoundTrip.Statement (.thermalFreeze) := fun _ h => absurd rfl h

theorem RoundTrip.freeze : RoundTrip.Statement (.freeze) := fun _ h => absurd rfl h

theorem RoundTrip.coldReset : RoundTrip.Statement (.coldReset) := fun _ h => absurd rfl h

theorem RoundTrip.warmReset : RoundTrip.Statement (.warmReset) := fun _ h => absurd rfl h

theorem RoundTrip.bootImageCheck : RoundTrip.Statement (.bootImageCheck) := fun _ h => absurd rfl h

theorem RoundTrip.testLogicReset : RoundTrip.Statement (.testLogicReset) := fun _ h => absurd rfl h

theorem RoundTrip.extest : RoundTrip.Statement (.extest) := fun _ h => absurd rfl h

theorem RoundTrip.samplePreload : RoundTrip.Statement (.samplePreload) := fun _ h => absurd rfl h

theorem RoundTrip.idcode : RoundTrip.Statement (.idcode) := fun _ h => absurd rfl h

theorem RoundTrip.daddr (v : BitVec 64) : RoundTrip.Statement (.daddr v) := fun _ h => absurd rfl h

theorem RoundTrip.ddata : RoundTrip.Statement (.ddata) := fun _ h => absurd rfl h

theorem RoundTrip.dstat : RoundTrip.Statement (.dstat) := fun _ h => absurd rfl h

theorem RoundTrip.bypass : RoundTrip.Statement (.bypass) := fun _ h => absurd rfl h

theorem RoundTrip.illegalInstruction : RoundTrip.Statement (.illegalInstruction) := fun _ h => absurd rfl h

theorem RoundTrip.codeNotLanded : RoundTrip.Statement (.codeNotLanded) := fun _ h => absurd rfl h

theorem RoundTrip.powerLoss : RoundTrip.Statement (.powerLoss) := fun _ h => absurd rfl h

end Sys2Proof.Laws
end

