-- ==== Sys2Proof/Laws/Units.lean ====
section
/-! SUPPORT. What each shared frame of units does (R10, R46, R47, R323, R327, R341): one lemma per frame, which says all it
can answer. -/

namespace Sys2Proof.Machine

/-! ### Settling -/

/-- A unit never stops the machine once a unit is under issue: whatever its body answers, there is a next state. -/
theorem settle_next (s : State) (c : Issue) (r : Res) : ∃ t, settle s c r = .next t := by
  match r with
  | .ok _ | .error .hold | .error (.cellFail _ _ _ _ _) | .error (.bankError _ _ _) => exact ⟨_, rfl⟩
  | .error (.trap _ _ _ _) => simp only [settle]; split <;> exact ⟨_, rfl⟩

@[simp] theorem settle_ok (s : State) (c : Issue) (t : State) : settle s c (.ok t) = .next t := rfl

@[simp] theorem settle_hold (s : State) (c : Issue) : settle s c (.error .hold) = .next { s with cur := none } := rfl

/-- Every trap but code-not-landed is taken as it is, by the lanes that raised it (R323, R325). -/
theorem settle_trap (s : State) (c : Issue) {cause : Nat} (d1 d2 : DWord) (m : Option Mask) (h : cause ≠ 0x08) :
    settle s c (.error (.trap cause d1 d2 m)) = .next (s.takeTrap c cause d1 d2 (m.getD c.lanes)) := by
  simp [settle, h]

/-! ### Units of a group -/

theorem groupUnit_runs {s : State} {c : Issue} {g : Group} (h : s.Runs c g) (body : Issue → Group → Res) :
    groupUnit s body = settle s c (body c g) := by
  unfold groupUnit
  simp [h.1, h.2.1, h.2.2]

/-- A unit that only a group can run raises the illegal-instruction cause on the cox (R341). -/
theorem groupUnit_cox {s : State} {c : Issue} (h : s.RunsCox c) (body : Issue → Group → Res) :
    groupUnit s body = .next (s.takeTrap c 0x01 0 0) := by
  unfold groupUnit
  simp [h.1, h.2]

/-- The only fault of the frame: no unit is under issue, or its group is gone. -/
theorem groupUnit_fault {s : State} {body : Issue → Group → Res} {f : Fault} (h : groupUnit s body = .fault f) :
    s.cur = none ∨ ∃ c, s.cur = some c ∧ c.cox = false ∧ tget s.groups c.gkey = none := by
  unfold groupUnit at h
  split at h
  · exact .inl ‹_›
  · rename_i c hc
    split at h
    · cases h
    · rename_i hx
      split at h
      · exact .inr ⟨c, hc, by simpa using hx, ‹_›⟩
      · obtain ⟨t, ht⟩ := settle_next s c (body c ‹_›)
        rw [ht] at h; cases h

/-! ### Lane work -/

theorem lanesUnit_runs {s : State} {c : Issue} {g : Group} (h : s.Runs c g) (gd : Nat) (f : Group → Lane → Lane) :
    lanesUnit gd f s =
      .next (s.setGroup c.gkey (g.mapLanes c.lanes fun l => c.advance (if c.holds gd l then f g l else l))) := by
  unfold lanesUnit
  rw [groupUnit_runs h]
  rfl

/-- A unit of lane work changes lanes alone, each as its guard says. -/
theorem lanesUnit_after {s : State} {c : Issue} {g : Group} (h : s.Runs c g) (gd : Nat) (f : Group → Lane → Lane) :
    LanesAfter (lanesUnit gd f s) s c g (c.laneAfter gd (f g)) :=
  ⟨_, lanesUnit_runs h gd f, rfl, fun p hp => by rw [Group.lane_mapLanes _ _ _ hp]; rfl⟩

theorem laneDoesIn_of_lanesUnit {i : Instr} {gd : Nat} {f : Group → Lane → Lane} (h : ∀ s, exec i s = lanesUnit gd f s) :
    LaneDoesIn i gd f := fun s c g r => by rw [h]; exact lanesUnit_after r gd f

theorem laneDoes_of_lanesUnit {i : Instr} {gd : Nat} {f : Lane → Lane} (h : ∀ s, exec i s = lanesUnit gd (fun _ => f) s) :
    LaneDoes i gd f := fun s c g r => by rw [h]; exact lanesUnit_after r gd fun _ => f

/-! ### Uniform work -/

theorem uniformUnit_runs {s : State} {c : Issue} {g : Group} (h : s.Runs c g) (k : Nat) (f : UFile → UFile) :
    uniformUnit k f s = .next (s.setGroup c.gkey
      { g.mapLanes c.lanes c.advance with u := if c.kholds k g.u then f g.u else g.u }) := by
  unfold uniformUnit
  simp [h.1, h.2.1, h.2.2]

theorem uniformUnit_cox {s : State} {c : Issue} (h : s.RunsCox c) (k : Nat) (f : UFile → UFile) :
    uniformUnit k f s = .next (s.modCore c.core fun n =>
      { n with cox := Cox.advance c { n.cox with u := if c.kholds k n.cox.u then f n.cox.u else n.cox.u } }) := by
  unfold uniformUnit
  simp [h.1, h.2]

theorem uniformDoes_of_uniformUnit {i : Instr} {k : Nat} {f : UFile → UFile} (h : ∀ s, exec i s = uniformUnit k f s) :
    UniformDoes i k f := by
  refine ⟨fun s c g r => ⟨_, (h s).trans (uniformUnit_runs r k f), ?_, fun p hp => ?_⟩,
    fun s c r => (h s).trans (uniformUnit_cox r k f)⟩
  · unfold Group.mapLanes; rfl
  · have e := Group.lane_mapLanes g c.lanes c.advance hp
    unfold Group.lane Group.mapLanes at *
    exact e

/-! ### Guarded and closing units -/

/-- A guarded unit whose guard is false only lets its lanes move on (R47). -/
theorem guardedUnit_false {s : State} {c : Issue} {g : Group} (h : s.Runs c g) {k : Nat} (hk : c.kholds k g.u = false)
    (body : Issue → Group → Res) :
    guardedUnit k s body = .next (s.setGroup c.gkey (g.mapLanes c.lanes c.advance)) := by
  unfold guardedUnit
  rw [groupUnit_runs h, hk]
  rfl

theorem guardedUnit_true {s : State} {c : Issue} {g : Group} (h : s.Runs c g) {k : Nat} (hk : c.kholds k g.u = true)
    (body : Issue → Group → Res) : guardedUnit k s body = settle s c (body c g) := by
  unfold guardedUnit
  rw [groupUnit_runs h, hk]
  rfl

/-- A closing unit whose body completes closes the region of its group (R327). -/
theorem closingUnit_ok {s t : State} {c : Issue} {g : Group} (h : s.Runs c g) {k : Nat} {body : Issue → Group → Res}
    (hk : c.kholds k g.u = true) (hb : body c g = .ok t) :
    closingUnit k s body = .next (t.modGroup c.gkey (Group.close c)) := by
  unfold closingUnit
  rw [groupUnit_runs h, hk, if_pos rfl, hb]
  rfl

/-- It closes the region also where its guard is false (R327). -/
theorem closingUnit_false {s : State} {c : Issue} {g : Group} (h : s.Runs c g) {k : Nat} {body : Issue → Group → Res}
    (hk : c.kholds k g.u = false) :
    closingUnit k s body = .next (s.setGroup c.gkey ((g.mapLanes c.lanes c.advance).close c)) := by
  unfold closingUnit
  rw [groupUnit_runs h, hk]
  show Host.Outcome.next ((s.setGroup c.gkey (g.mapLanes c.lanes c.advance)).modGroup c.gkey (Group.close c)) = _
  rw [State.modGroup_some (State.tget_setGroup_self ..), State.setGroup_setGroup]

theorem closingLanes_ok {s t : State} {c : Issue} {g : Group} (h : s.Runs c g) {body : Issue → Group → Res}
    (hb : body c g = .ok t) : closingLanes s body = .next (t.modGroup c.gkey (Group.close c)) := by
  unfold closingLanes
  rw [groupUnit_runs h, hb]
  rfl

theorem Group.lane_close (c : Issue) (g : Group) {p : Nat} (h : p < 32) :
    (g.close c).lane p = if c.lanes.getLsbD p then c.closeLane (g.lane p) else g.lane p := by
  have e := Group.lane_mapLanes g c.lanes c.closeLane h
  unfold Group.close
  unfold Group.lane Group.mapLanes at *
  exact e

/-! ### Traps -/

/-- A trap of a group whose cause is no memory error: the group stops with the trap's record, leaves its seat if it holds
one, and its core holds the report; groups other than its own are as before (R322-R324). -/
theorem State.takeTrap_runs {s : State} {c : Issue} {g : Group} (h : s.Runs c g) {cause : Nat} (d1 d2 : DWord) (m : Mask)
    (hc : cause ≠ 0x30) :
    ∃ x r, s.takeTrap c cause d1 d2 m =
        ((s.setGroup c.gkey { g with stop := some x }).leaveSeat c.gkey).modCore (coreOf c.gkey) (·.report r) ∧
      x.cause = cause ∧ x.unit = c.addr ∧ x.next = c.next ∧ x.lanes = c.lanes ∧ x.d1 = d1 ∧ x.d2 = d2 ∧
      x.shown = if c.word.getLsbD 31 then 0xFFFFFFFF#32 else m := by
  unfold State.takeTrap State.stopAt
  simp only [hc, if_false, h.2.1, h.2.2, Bool.false_eq_true]
  exact ⟨_, _, rfl, rfl, rfl, rfl, rfl, rfl, rfl, rfl⟩

/-! ### Folds -/

/-- A fold over a list of which every part completes completes, and keeps what every part keeps. -/
theorem eachRes_ok {α : Type} {f : α → State → Res} {P : State → Prop} {xs : List α}
    (h : ∀ x ∈ xs, ∀ s, P s → ∃ t, f x s = .ok t ∧ P t) {s : State} (hs : P s) : ∃ t, eachRes f xs s = .ok t ∧ P t := by
  induction xs generalizing s with
  | nil => exact ⟨s, rfl, hs⟩
  | cons x xs ih =>
    obtain ⟨t, ht, hp⟩ := h x (by simp) s hs
    simp only [eachRes, ht]
    exact ih (fun y hy => h y (by simp [hy])) hp

end Sys2Proof.Machine
end

