-- ==== Sys2Proof/Tests/Slice0.lean ====
section
/-! SUPPORT. The author's own tests: for every statement with hypotheses a state that meets them; words written out from the
spec's encodings; a term for every check of well-formedness; single instructions with values of the spec. -/

namespace Sys2Proof.Tests

open Sys2Proof Machine

set_option Elab.async false

/-! ### A small machine

Core 0 holds one team (number 0) of one group (key 0), whose code has landed at 0x10000. Its page tables stand at 0x20000 and
0x30000: addresses below 2^29 lead to the same physical addresses, those from 2^29 on to the same ones with cell tags. -/

def leaf : Nat := 2 ^ 63 + 2 ^ 47 + 2 ^ 44 + 2 ^ 43 + 2 ^ 42 + 2 ^ 41

def tables : Tab Byte :=
  mwrite (mwrite [] 0x20000 (leBytes 8 (2 ^ 63 + 3 * 2 ^ 61 + 3))) 0x30000 (leBytes 8 leaf ++ leBytes 8 (leaf + 2 ^ 46))

def demoTeam : Team :=
  { loadTeam with
    desc := { loadDesc with quota := 8 }, sBytes := 4096, xBytes := 4096, wBytes := 65536, deckBytes := 4096
    quota := 8, wslots := 1 }

/-- Lane p: v1 is an address, 0x1000 + 16 p, and v10 and v11 a code address; the other registers differ from lane to lane. -/
def demoLane (p : Nat) : Lane :=
  { startLane 0x10000 (w32 p) (w64 p) with
    v := Vector.ofFn fun r => if r.val = 1 then w32 (0x1000 + 16 * p) else if r.val = 10 then 0x10008
      else if r.val = 11 then 0 else w32 (r.val + 100 * p) }

def groupOf (f : Nat → Lane) (us : List DWord) : Group :=
  { startGroup 0 0 56 us (Vector.ofFn fun p => f p.val) with released := true }

/-- s1 is an address, s3 the start of a plain function, s4 of a widen callee, s5 of a gather callee, s6 and s7 tagged cells,
s8 to s11 a suspension record of the cell at s6. -/
def demoGroup : Group := groupOf demoLane [0, 0x1000, 7, 0x10008, 0x10010, 0x10018, 0x20001000, 0x20001020, 0, 0, 0x800, 0x20001000]

/-- The unit at 0x10000 under issue by some lanes of the group. -/
def unit (m : Mask) : Issue := ⟨false, 0, 0, 0x10000, 0, 0, 0x10004, m, none, none, 0, 0, 0, false⟩

/-- The same by the cox of core 0. -/
def coxIssue : Issue := ⟨true, 0, 0, 0x100, 0, 0, 0x104, 0, none, none, 0, 0, 0, false⟩

/-- Headers of the three rules, with frames of 56, stand before 0x10008, 0x10010 and 0x10018 (R13). -/
def header (rule : Nat) : Nat := 0x5E * 2 ^ 25 + rule * 2 ^ 23 + 56 * 2 ^ 16

def demoCore : Core :=
  { Core.reset with
    land := [⟨0x10000, 1, 0, 0, 0, .landed, false, [], false, 0⟩]
    bay := mwrite (mwrite (mwrite [] 4 (leBytes 4 (header 0))) 12 (leBytes 4 (header 1))) 20 (leBytes 4 (header 2)) }

def world (g : Group) (c : Issue) : State :=
  { State.reset with
    booted := true, mem := tables, troots := [(0, 0x20001)], cores := [(0, demoCore)], teams := [(0, demoTeam)], groups := [(0, g)]
    cur := some c }

/-- Lane 0 issues alone; all lanes issue. -/
def one : State := world demoGroup (unit 1)
def all : State := world demoGroup (unit 0xFFFFFFFF#32)

/-- The cox of core 0 issues, its uniform registers as given. -/
def coxWorld (us : List DWord) (f : Core → Core) : State :=
  { world demoGroup coxIssue with
    cores := [(0, f { demoCore with cox := { Cox.reset with u := { UFile.reset with s := Vector.ofFn fun i => us[i.val]?.getD 0 }, pc := 0x100 } })] }

/-! ### The hypotheses of the statements can be met

One theorem for each statement that has hypotheses, under the statement's name. -/

/-- Of the statements of lane work by LaneDoes, and of SpecialFunctions. -/
theorem witness_runs : one.Runs (unit 1) demoGroup := ⟨rfl, rfl, rfl⟩

/-- Of the statements of uniform work by UniformDoes. -/
theorem witness_runsCox : (coxWorld [] id).RunsCox coxIssue := ⟨rfl, rfl⟩

theorem witness_LaneImmediates : (31 : Nat) < 32 ∧ one.Runs (unit 1) demoGroup := ⟨by decide, rfl, rfl, rfl⟩

theorem witness_RoundingKeysAndExponents : (4 : Nat) < 5 ∧ one.Runs (unit 1) demoGroup := ⟨by decide, rfl, rfl, rfl⟩

theorem witness_UniformImmediates : (63 : Nat) < 64 ∧ one.Runs (unit 1) demoGroup := ⟨by decide, rfl, rfl, rfl⟩

theorem witness_FourBitBlocks :
    all.Runs (unit 0xFFFFFFFF#32) demoGroup ∧ all.uncoupled 0 demoGroup 0xFFFFFFFF#32 = [] := ⟨⟨rfl, rfl, rfl⟩, by decide +kernel⟩

theorem witness_UniformMoves :
    all.Runs (unit 0xFFFFFFFF#32) demoGroup ∧ (unit 0xFFFFFFFF#32).kholds 0 demoGroup.u = true ∧
      (unit 0xFFFFFFFF#32).lanes.getLsbD 0 = true ∧
      ∀ q, q < 32 → (unit 0xFFFFFFFF#32).lanes.getLsbD q = true → (demoGroup.lane 0).lid.toNat < (demoGroup.lane q).lid.toNat ∨
        ((demoGroup.lane 0).lid = (demoGroup.lane q).lid ∧ 0 ≤ q) :=
  ⟨⟨rfl, rfl, rfl⟩, by decide +kernel⟩

/-- An access meets its bytes, from what is decided of its state. -/
theorem reaches (s : State) (c : Issue) (g : Group) (va : DWord) (n : Nat) (k : Acc) (pa : Nat)
    (h : let t := s.translate (coreOf c.gkey) (s.asidOf g) va.toNat k
      (va >>> 54 = 0 ∧ va.toNat % n = 0 ∧ (s.core (coreOf c.gkey)).posted = [] ∧ s.peerWaits = []) ∧
        t.1 = .to (.here pa false) ∧ t.2.ownsPlace (t.2.asidOf g) (.here pa true) n = false ∧ t.2.badLine pa n = none ∧
        (t.2.core (coreOf c.gkey)).isStale pa n = false ∧ (t.2.core (coreOf c.gkey)).hostOld pa n = false) :
    s.Reaches c g va n k pa (s.translate (coreOf c.gkey) (s.asidOf g) va.toNat k).2 :=
  ⟨h.1.1, h.1.2.1, ⟨by rw [h.1.2.2.1]; simp, h.1.2.2.2⟩, ⟨false, Prod.ext h.2.1 rfl, by simp⟩, h.2.2⟩

theorem witness_one : (unit 1).One 0 demoGroup 0 :=
  ⟨by decide, by decide +kernel, by decide +kernel⟩

/-- The state after the translation of an address for lane 0's access. -/
def after (s : State) (va : DWord) (k : Acc) : State := (s.translate 0 0 va.toNat k).2

theorem witness_GlobalLoads :
    (6 : Nat) ≤ 6 ∧ one.Runs (unit 1) demoGroup ∧ (unit 1).One 0 demoGroup 0 ∧
      one.Reaches (unit 1) demoGroup
        (BitVec.ofInt 64 (demoGroup.gbase.toNat + ((LSrc.v 1).r32 (demoGroup.lane 0)).toNat +
          (((Addr.plain .z).index).r32 (demoGroup.lane 0)).toInt * szBytes 6)) (szBytes 6) .load 0x1000 (after one 0x1000 .load) :=
  ⟨by decide, ⟨rfl, rfl, rfl⟩, witness_one,
    reaches one (unit 1) demoGroup 0x1000 2 .load 0x1000 (by decide +kernel)⟩

/-- No posted atomic of a group and no access at a peer is outstanding. -/
theorem quietAt {s : State} {k : Nat} (h : ∀ x ∈ (s.core (coreOf k)).posted, x.gkey ≠ k) (p : s.peerWaits = [] := by rfl) :
    s.quiet k := ⟨h, p⟩

theorem running_one : (unit 1).Running demoGroup := by unfold Issue.Running; decide +kernel

theorem witness_GlobalStores :
    (4 : Nat) ≤ 4 ∧ one.Runs (unit 1) demoGroup ∧ (unit 1).Running demoGroup ∧ (unit 1).One 0 demoGroup 0 ∧
      one.Reaches (unit 1) demoGroup
        (BitVec.ofInt 64 (demoGroup.gbase.toNat + ((LSrc.v 1).r32 (demoGroup.lane 0)).toNat +
          (((Addr.plain .z).index).r32 (demoGroup.lane 0)).toInt * szBytes 4)) (szBytes 4) .store 0x1000 (after one 0x1000 .store) :=
  ⟨by decide, ⟨rfl, rfl, rfl⟩, running_one, witness_one,
    reaches one (unit 1) demoGroup 0x1000 16 .store 0x1000 (by decide +kernel)⟩

/-- The only position of mask 1. -/
theorem only_zero {q : Nat} (h : (1#32).getLsbD q = true) : q = 0 := by
  rw [BitVec.getLsbD_one] at h; simpa using h

theorem local_scratch : one.Local demoGroup .scratch 4 2 0 4 :=
  ⟨by decide, by decide +kernel, by decide +kernel, fun _ => by decide +kernel, by decide +kernel, demoTeam, rfl, by decide, by decide, rfl, rfl⟩

theorem local_deck : one.Local demoGroup .deck 0x80000004 2 0 4 :=
  ⟨by decide, by decide +kernel, by decide +kernel, fun _ => by decide +kernel, by decide +kernel, demoTeam, rfl, by decide, by decide, by decide, rfl⟩

theorem local_x : one.Local demoGroup .x 4 2 0 4 :=
  ⟨by decide, by decide +kernel, by decide +kernel, fun _ => by decide +kernel, by decide +kernel, demoTeam, rfl, by decide, rfl, rfl⟩

theorem witness_LocalLoads :
    (6 : Nat) ≤ 6 ∧ one.Runs (unit 1) demoGroup ∧
      (∀ q, ((unit 1).taking 0 demoGroup).getLsbD q = true → one.Local demoGroup .scratch
        (BitVec.ofInt 32 (((LSrc.v 4).r32 (demoGroup.lane q)).toNat + (((Addr.plain .z).index).r32 (demoGroup.lane q)).toInt * szBytes 6))
        (szBytes 6) 0 4) ∧
      (∀ q, ((unit 1).taking 0 demoGroup).getLsbD q = true → one.Local demoGroup .deck
        (BitVec.ofInt 32 (((LSrc.v 4).r32 (demoGroup.lane q)).toNat + (((Addr.plain .z).index).r32 (demoGroup.lane q)).toInt * szBytes 6)
          ||| 0x80000000#32) (szBytes 6) 0 4) ∧
      ∃ tm, tget one.teams demoGroup.tid = some tm := by
  have h : (unit 1).taking 0 demoGroup = 1#32 := by decide +kernel
  refine ⟨by decide, ⟨rfl, rfl, rfl⟩, fun q hq => ?_, fun q hq => ?_, demoTeam, rfl⟩
  · rw [h] at hq
    rw [only_zero hq]
    exact local_scratch
  · rw [h] at hq
    rw [only_zero hq]
    exact local_deck

theorem witness_LocalStores :
    (1 : Nat) ≤ 4 ∧ one.Runs (unit 1) demoGroup ∧ (unit 1).Running demoGroup ∧ one.quiet 0 ∧ (unit 1).One 0 demoGroup 0 ∧
      one.Local demoGroup .scratch
        (BitVec.ofInt 32 (((LSrc.v 4).r32 (demoGroup.lane 0)).toNat + (((Addr.plain .z).index).r32 (demoGroup.lane 0)).toInt * szBytes 1))
        (szBytes 1) 0 4 ∧
      one.Local demoGroup .deck
        (BitVec.ofInt 32 (((LSrc.v 4).r32 (demoGroup.lane 0)).toNat + (((Addr.plain .z).index).r32 (demoGroup.lane 0)).toInt * szBytes 1)
          ||| 0x80000000#32) (szBytes 1) 0 4 ∧
      one.Local demoGroup .x
        (BitVec.ofInt 32 (((LSrc.v 4).r32 (demoGroup.lane 0)).toNat + (((Addr.plain .z).index).r32 (demoGroup.lane 0)).toInt * szBytes 1))
        (szBytes 1) 0 4 :=
  ⟨by decide, ⟨rfl, rfl, rfl⟩, running_one, ⟨by decide +kernel, rfl⟩, witness_one, local_scratch, local_deck, local_x⟩

/-- A group's load and store; the cox's, in its own memory up to 0xFFF8 and in physical memory from 0x10000 on. -/
theorem witness_UniformAccesses :
    one.Runs (unit 1) demoGroup ∧ (unit 1).kholds 0 demoGroup.u = true ∧ (unit 1).lanes.getLsbD 0 = true ∧
      (∀ q, q < 0 → (unit 1).lanes.getLsbD q = false) ∧
      one.Reaches (unit 1) demoGroup (BitVec.ofInt 64 (((USrc.s 1).get demoGroup.u).toInt + (0#13).toInt)) 8 .load 0x1000
        (after one 0x1000 .load) ∧
      one.Reaches (unit 1) demoGroup (BitVec.ofInt 64 (((USrc.s 1).get demoGroup.u).toInt + (0#13).toInt)) 8 .store 0x1000
        (after one 0x1000 .store) ∧
      ∀ n ∈ [0xFFF8, 0x10000],
        (coxWorld [w64 n] id).cur = some coxIssue ∧ coxIssue.cox = true ∧
        coxIssue.kholds 0 ((coxWorld [w64 n] id).core 0).cox.u = true ∧
        BitVec.ofInt 64 (((USrc.s 0).get ((coxWorld [w64 n] id).core 0).cox.u).toInt + (0#13).toInt) = w64 n ∧
        (w64 n).toNat % 8 = 0 ∧ ((w64 n).toNat < 0x10000 ∨
          populated (w64 n).toNat = true ∧ (coxWorld [w64 n] id).owned 0 0 (w64 n).toNat 8 = false) :=
  ⟨⟨rfl, rfl, rfl⟩, by decide +kernel, by decide, by decide,
    reaches one (unit 1) demoGroup 0x1000 8 .load 0x1000 (by decide +kernel),
    reaches one (unit 1) demoGroup 0x1000 8 .store 0x1000 (by decide +kernel),
    by decide +kernel⟩

/-- An atomic on the word, or the doubleword, at v1; a posted one. -/
theorem witness_GlobalAtomics :
    one.Runs (unit 1) demoGroup ∧ (unit 1).One 0 demoGroup 0 ∧ (false && LDst.isZ (.v 2)) = false ∧ (true && LDst.isZ .z) = true ∧
      (∀ n ∈ [4, 8], one.Reaches (unit 1) demoGroup
        (BitVec.ofInt 64 (demoGroup.gbase.toNat + ((LSrc.v 1).r32 (demoGroup.lane 0)).toNat)) n .atomic 0x1000
        (after one 0x1000 .atomic)) := by
  refine ⟨⟨rfl, rfl, rfl⟩, witness_one, by decide, by decide, fun n hn => ?_⟩
  simp only [List.mem_cons, List.not_mem_nil, or_false] at hn
  rcases hn with rfl | rfl <;>
    exact reaches one (unit 1) demoGroup 0x1000 _ .atomic 0x1000 (by decide +kernel)

theorem witness_LocalAtomics :
    one.Runs (unit 1) demoGroup ∧ (unit 1).One 0 demoGroup 0 ∧
      one.Local demoGroup (if ((LSrc.v 4).r32 (demoGroup.lane 0)).getLsbD 31 then Space.deck else Space.scratch)
        ((LSrc.v 4).r32 (demoGroup.lane 0)) 4 0 4 :=
  ⟨⟨rfl, rfl, rfl⟩, witness_one, by
    rw [show (LSrc.v 4).r32 (demoGroup.lane 0) = 4 by decide +kernel, if_neg (by decide)]
    exact ⟨by decide, by decide +kernel, by decide +kernel, fun _ => by decide +kernel, by decide +kernel, demoTeam, rfl, by decide, by decide, rfl, rfl⟩⟩

/-! ### Control -/

theorem landed (a : DWord) (h1 : a >>> 54 = 0) (h2 : a.toNat % 4 = 0) (w : Word)
    (h3 : (one.core 0).fetchFor 0 a.toNat = .word w) : one.Landed 0 a := ⟨h1, h2, w, h3⟩

/-- A branch to the unit itself, on a true guard, and a jump of lane 0 to the address in v10 and v11. -/
theorem witness_BranchesAndJumps :
    one.Runs (unit 1) demoGroup ∧ one.Landed 0 (BitVec.ofInt 64 ((unit 1).addr.toNat + 4 * (0#18).toInt)) ∧
      (∃ q, q < 32 ∧ (unit 1).lanes.getLsbD q = true ∧ ((demoGroup.lane q).pred 0 != false) = true) ∧
      (demoGroup.u.pred 0 != false) = true ∧
      ∀ q, ((unit 1).taking 0 demoGroup).getLsbD q = true → one.Landed 0 ((LSrc.v 10).r64 (demoGroup.lane q)) := by
  have h : (unit 1).taking 0 demoGroup = 1#32 := by decide +kernel
  refine ⟨⟨rfl, rfl, rfl⟩, landed _ (by decide) (by decide) 0 (by decide +kernel), ⟨0, by decide, by decide, by decide +kernel⟩,
    by decide +kernel, fun q hq => ?_⟩
  rw [h] at hq
  rw [only_zero hq]
  exact landed _ (by decide +kernel) (by decide +kernel) 0 (by decide +kernel)

theorem header_at (g : Group) (a : DWord) (rule : Nat)
    (h : (a >>> 54 = 0 ∧ a.toNat % 4 = 0 ∧ (a - 4) >>> 54 = 0 ∧ (a - 4).toNat % 4 = 0) ∧
      demoCore.fetchFor 0 (a - 4).toNat = .word (w32 (header rule)) ∧ demoCore.fetchFor 0 a.toNat = .word 0 ∧
      (w32 (header rule)).toNat / 2 ^ 25 = 0x5E ∧ (w32 (header rule)).toNat / 2 ^ 23 % 4 = rule ∧ rule < 3 ∧
      (w32 (header rule)).toNat / 2 ^ 16 % 64 = 56) : (world g (unit 1)).HasHeader 0 a rule (w32 (header rule)) :=
  let ⟨⟨h0, h1, h2, h3⟩, h4, h5, h6, h7, h8, h9⟩ := h
  ⟨⟨h0, h1, 0, h5⟩, ⟨h2, h3, _, h4⟩, h4, h6, h7, h8, by omega, by omega⟩

/-- Calls of the function at 0x10008, by offset and by s3, taken and not; a return to the address in s55. -/
theorem witness_CallsAndReturn :
    one.Runs (unit 1) demoGroup ∧ (∀ q, q < 32 → (demoGroup.lane q).nest = 0) ∧ (demoGroup.u.pred 0 != false) = true ∧
      one.HasHeader 0 (BitVec.ofInt 64 ((unit 1).addr.toNat + 4 * (2#21).toInt)) 0 (w32 (header 0)) ∧
      (demoGroup.u.pred 1 != false) = false ∧ (unit 1).kholds 0 demoGroup.u = true ∧ (unit 1).kholds 1 demoGroup.u = false ∧
      one.HasHeader 0 ((USrc.s 3).get demoGroup.u) 0 (w32 (header 0)) :=
  have h := header_at demoGroup 0x10008 0 (by decide +kernel)
  ⟨⟨rfl, rfl, rfl⟩, by decide +kernel, by decide +kernel, h, by decide +kernel, by decide +kernel, by decide +kernel, h⟩

/-- The unit at 0x10000 under a GUARD whose predicate, p1 or k1, is false. -/
def guarded (m : Mask) : Issue := { unit m with guard := some (1, false) }

def coxGuarded : Issue := { coxIssue with guard := some (1, false) }

/-- A cox about to transfer to 0x100 + 8, s1 and s55, with a header before it. -/
def coxCaller : State :=
  coxWorld [0, 0x108] fun k =>
    { k with cox := { k.cox with mem := mwrite [] 0x104 (leBytes 4 (header 0)), u := { k.cox.u with s := k.cox.u.s.set 55 0x108 } } }

theorem witness_CoxControl :
    coxCaller.RunsCox coxIssue ∧
      let x := (coxCaller.core coxIssue.core).cox
      let target := BitVec.ofInt 64 (coxIssue.addr.toNat + 4 * (2#21).toInt)
      let w := leNat (mread x.mem (target - 4).toNat 4)
      (x.u.pred 0 != false) = true ∧ (x.u.pred 0 != true) = false ∧ coxIssue.kholds 0 x.u = true ∧ coxIssue.kholds 1 x.u = false ∧
        (USrc.s 1).get x.u = target ∧ x.u.reg 55 = target ∧ target.toNat < 0x10000 ∧ target.toNat % 4 = 0 ∧
        (target - 4).toNat < 0x10000 ∧ (target - 4).toNat % 4 = 0 ∧
        w / 2 ^ 25 = 0x5E ∧ w / 2 ^ 23 % 4 = 0 ∧ 1 ≤ w / 2 ^ 16 % 64 ∧ w / 2 ^ 16 % 64 ≤ 56 :=
  ⟨⟨rfl, rfl⟩, by decide +kernel⟩

theorem witness_PlainForms :
    one.cur = some (unit 1) ∧ one.Runs (unit 1) demoGroup ∧
      (world demoGroup (guarded 1)).Runs (guarded 1) demoGroup ∧ (guarded 1).kholds 0 demoGroup.u = false ∧
      (coxWorld [] id).RunsCox coxIssue := ⟨rfl, ⟨rfl, rfl, rfl⟩, ⟨rfl, rfl, rfl⟩, by decide +kernel, ⟨rfl, rfl⟩⟩

theorem witness_SoftwareTraps :
    one.Runs (unit 1) demoGroup ∧ (unit 1).kholds 0 demoGroup.u = true ∧
      (world demoGroup (guarded 1)).Runs (guarded 1) demoGroup ∧ (guarded 1).kholds 0 demoGroup.u = false ∧
      (coxWorld [] id).RunsCox coxIssue ∧ coxIssue.kholds 0 ((coxWorld [] id).core 0).cox.u = true ∧
      ((coxWorld [] id).core 0).cox.cause = 0 ∧ coxGuarded.kholds 0 ((coxWorld [] id).core 0).cox.u = false :=
  ⟨witness_runs, by decide +kernel, ⟨rfl, rfl, rfl⟩, by decide +kernel, witness_runsCox, by decide +kernel⟩

theorem calm : one.Calm demoGroup :=
  ⟨rfl, rfl, rfl, rfl, by decide +kernel, demoTeam, rfl, by decide⟩

theorem quiet : one.quiet 0 := quietAt (by decide +kernel)

theorem others : (unit 1).Others demoGroup := ⟨1, by decide, by decide, by decide +kernel⟩

/-- EXIT, JOIN.enrol and a JOIN.wait of lane 0 that lane 1 of the mask does not wait at; and one that completes the join: of the
mask of lanes 0 and 1, lane 1 waits. -/
def joining : Group := { demoGroup with joins := (Vector.replicate 4 0).set 3 1#32 }

theorem witness_ExitAndJoin :
    one.Runs (unit 1) demoGroup ∧ one.Calm demoGroup ∧ (unit 1).Others demoGroup ∧ one.quiet 0 ∧
      (unit 1).kholds 0 demoGroup.u = true ∧ demoGroup.joins = Vector.replicate 4 0 ∧ (∀ i, i ≠ 3 → (demoGroup.joins[i]?).getD 0 = 0) ∧
      (world joining (unit 1)).Runs (unit 1) joining ∧ (world joining (unit 1)).Calm joining ∧ (unit 1).Others joining ∧
      (world joining (unit 1)).quiet 0 ∧ (unit 1).kholds 0 joining.u = true ∧ (∀ i, i ≠ 3 → (joining.joins[i]?).getD 0 = 0) ∧ (joining.joins[3]?).getD 0 ≠ 0 ∧
      ∀ q, q < 32 → ((joining.joins[3]?).getD 0).getLsbD q = true →
        (((joining.joins[3]?).getD 0).getLsbD q && (unit 1).lanes.getLsbD q) = true := by
  refine ⟨⟨rfl, rfl, rfl⟩, calm, others, quiet, by decide +kernel, rfl, fun i _ => ?_, ⟨rfl, rfl, rfl⟩,
    ⟨rfl, rfl, rfl, rfl, by decide +kernel, demoTeam, rfl, by decide⟩, ⟨1, by decide, by decide, by decide +kernel⟩,
    quietAt (by decide +kernel), by decide +kernel, fun i h => ?_, by decide, by decide +kernel⟩
  · match i with
    | 0 | 1 | 2 | 3 => decide
    | n + 4 => rfl
  · match i with
    | 0 | 1 | 2 => decide
    | n + 4 => rfl

/-- A group whose positions from 2 on are absent. -/
def pair : Group := groupOf (fun p => if p < 2 then demoLane p else Lane.blank) [0, 0x1000, 3]

theorem pair_calm (c : Issue) : (world pair c).Calm pair :=
  ⟨rfl, rfl, rfl, rfl, by decide +kernel, demoTeam, rfl, by decide⟩

theorem running (m : Mask) (g : Group) (h : ∀ q, q < 32 → m.getLsbD q = true → (g.lane q).runnable = true) :
    (unit m).Running g := h

/-- Lane 0 of two arrives at barriers; BAR.mask with the masks 0, of both ranks, and of rank 0 alone. -/
theorem witness_BarrierArrivals :
    (world pair (unit 1)).Runs (unit 1) pair ∧ (world pair (unit 1)).Calm pair ∧ pair.joins = Vector.replicate 4 0 ∧
      (unit 1).Others pair ∧ (unit 1).Running pair ∧ (world pair (unit 1)).quiet 0 ∧ (unit 1).kholds 0 pair.u = true ∧
      (∀ q, (pair.lane q).state ≠ .parked (.barrier .mask)) ∧
      BitVec.ofNat 32 ((USrc.s 0).get pair.u).toNat = 0 ∧ BitVec.ofNat 32 ((USrc.s 2).get pair.u).toNat = 3 ∧
      (¬ ∀ q, q < 32 → (pair.lane q).gone = false → (3#32).getLsbD (pair.rank 0 q) = true → (unit 1).lanes.getLsbD q = true) ∧
      ∀ q, q < 32 → (pair.lane q).gone = false → (1#32).getLsbD (pair.rank 0 q) = true → (unit 1).lanes.getLsbD q = true := by
  refine ⟨⟨rfl, rfl, rfl⟩, pair_calm _, rfl, ⟨1, by decide, by decide, by decide +kernel⟩,
    running _ _ (by decide +kernel), quietAt (by decide +kernel), by decide +kernel, fun q => ?_, by decide +kernel⟩
  by_cases h : q < 32
  · exact (by decide +kernel : ∀ q, q < 32 → (pair.lane q).state ≠ .parked (.barrier .mask)) q h
  · have e : pair.lane q = Lane.blank := by
      unfold Group.lane
      rw [Vector.getElem?_eq_none (by omega)]; rfl
    rw [e]; decide

theorem witness_TeamBarrierCompletes :
    all.Runs (unit 0xFFFFFFFF#32) demoGroup ∧ all.Calm demoGroup ∧ demoGroup.joins = Vector.replicate 4 0 ∧
      (unit 0xFFFFFFFF#32).Running demoGroup ∧ all.quiet 0 ∧ (unit 0xFFFFFFFF#32).kholds 0 demoGroup.u = true ∧
      (unit 0xFFFFFFFF#32).lanes ≠ 0 ∧ (unit 0xFFFFFFFF#32).lanes = demoGroup.where (fun l => !l.gone) ∧
      rising all.groups = true ∧ all.ownGroups demoGroup.tid = [(0, demoGroup)] ∧ tget all.teams demoGroup.tid = some demoTeam ∧
      demoTeam.bar.yield = false :=
  ⟨⟨rfl, rfl, rfl⟩, ⟨rfl, rfl, rfl, rfl, by decide +kernel, demoTeam, rfl, by decide⟩, rfl, running _ _ (by decide +kernel),
    quietAt (by decide +kernel), by and_intros <;> first | rfl | decide +kernel⟩

theorem witness_ElectionAndLayout :
    all.Runs (unit 0xFFFFFFFF#32) demoGroup ∧ (unit 0xFFFFFFFF#32).kholds 0 demoGroup.u = true ∧
      (unit 0xFFFFFFFF#32).lanes.getLsbD 0 = true ∧
      ∀ q, q < 32 → (unit 0xFFFFFFFF#32).lanes.getLsbD q = true → (demoGroup.lane 0).lid.toNat < (demoGroup.lane q).lid.toNat ∨
        ((demoGroup.lane 0).lid = (demoGroup.lane q).lid ∧ 0 ≤ q) :=
  ⟨⟨rfl, rfl, rfl⟩, by decide +kernel, by decide +kernel, by decide +kernel⟩

/-- Of the statements by CollectiveDoes. -/
theorem witness_collective :
    all.Runs (unit 0xFFFFFFFF#32) demoGroup ∧ all.Calm demoGroup ∧ demoGroup.joins = Vector.replicate 4 0 ∧
      (unit 0xFFFFFFFF#32).lanes ≠ 0 ∧ (unit 0xFFFFFFFF#32).lanes = demoGroup.where (fun l => !l.gone) :=
  ⟨⟨rfl, rfl, rfl⟩, ⟨rfl, rfl, rfl, rfl, by decide +kernel, demoTeam, rfl, by decide⟩, rfl, by decide, by decide +kernel⟩

/-- The last destination block of a fragment product. -/
theorem witness_Fragments : (48 : Nat) + 8 ≤ 56 := by decide

/-! ### Code, width calls -/

/-- A segment descriptor of one line at a bay line, from an address on (R108). -/
def descriptor (base bayline : Nat) : Nat := base + bayline * 2 ^ 64 + 2 ^ 73

/-- The world with bytes at 0x1000. -/
def withData (s : State) (bs : List Byte) : State := { s with mem := mwrite s.mem 0x1000 bs }

theorem first_one : (unit 1).First 0 := by unfold Issue.First; decide

/-- A JSEG to 0x10000, landed, and one to 0x20000, at a bay line of its own. -/
theorem witness_CodeLanding :
    ∀ x ∈ [(descriptor 0x10000 0, 0x10000#64), (descriptor 0x20000 1, 0x20000#64)],
      let g := groupOf demoLane [0, 0x1000, x.2]
      let s := withData (world g (unit 1)) (leBytes 16 x.1)
      let d : SegDesc := ⟨1, x.1 / 2 ^ 64 % 512, x.2.toNat⟩
      let k := s.core 0
      s.Runs (unit 1) g ∧ (unit 1).kholds 0 g.u = true ∧ g.hold = none ∧ tget s.teams g.tid = some demoTeam ∧ (unit 1).First 0 ∧
        s.Reaches (unit 1) g ((USrc.s 1).get g.u) 16 .load 0x1000 (after s 0x1000 .load) ∧
        SegDesc.parse ((after s 0x1000 .load).num 0x1000 16) = some d ∧ demoTeam.winFirst ≤ d.bayline ∧
        d.bayline + d.lines ≤ demoTeam.winFirst + demoTeam.winLines ∧ (USrc.s 2).get g.u >>> 54 = 0 ∧
        ((USrc.s 2).get g.u).toNat % 16 = 0 ∧ d.base ≤ ((USrc.s 2).get g.u).toNat ∧
        ((USrc.s 2).get g.u).toNat < d.base + 256 * d.lines ∧
        (x.2 = 0x10000 → ∃ e, k.equalEntry d = some e ∧ e.state = .landed) ∧
        (x.2 = 0x20000 → k.equalEntry d = none ∧ (k.startLanding 0 0 demoTeam.allot d []).isSome = true ∧
          (k.startLanding 0 0 demoTeam.allot d [(0, 0x20000)]).isSome = true) := by
  intro x hx
  simp only [List.mem_cons, List.not_mem_nil, or_false] at hx
  rcases hx with rfl | rfl <;>
    exact ⟨⟨rfl, rfl, rfl⟩, by decide +kernel, rfl, rfl, first_one, reaches _ _ _ 0x1000 _ _ _ (by decide +kernel), by decide +kernel⟩

/-- The range of 256 bytes at 0x10000, whose entry has landed; no loop buffer is filled. -/
theorem witness_CodeInvalidation :
    let g := groupOf demoLane [0, 0x10000, 256]
    let s := world g (unit 1)
    s.Runs (unit 1) g ∧ (unit 1).kholds 0 g.u = true ∧ tget s.teams g.tid = some demoTeam ∧ g.hold = none ∧
      (∀ e ∈ (s.core 0).land, cinvNames 0 demoTeam ((USrc.s 1).get g.u) ((USrc.s 2).get g.u) e = true → e.state = .landed) ∧
      (∀ x ∈ (s.core 0).seats.toList, x.loop = none) := by
  exact ⟨⟨rfl, rfl, rfl⟩, by decide +kernel, rfl, rfl, by decide +kernel⟩

/-- A core whose second segment, at 0x20000, is landing. -/
def landingWorld : State :=
  { one with
    cores := [(0, { demoCore with land := demoCore.land ++ [⟨0x20000, 1, 1, 0, 0, .landing, false, [], false, 1⟩] })] }

theorem witness_LandingEnds :
    ∃ e bs s1, (landingWorld.core 0).land[1]? = some e ∧ e.state = .landing ∧ e.cobjs = [] ∧
      landingWorld.segmentBytes 0 e.asid e.base e.lines = .ok (bs, s1) := by
  have h : (landingWorld.segmentBytes 0 0 0x20000 1).isOk = true := by decide +kernel
  generalize hr : landingWorld.segmentBytes 0 0 0x20000 1 = r at h
  match r, h with
  | .ok (bs, s1), _ => exact ⟨⟨0x20000, 1, 1, 0, 0, .landing, false, [], false, 1⟩, bs, s1, rfl, rfl, rfl, hr⟩

/-- Lane 0 widens to the function at 0x10010, for 4 and for 32 invocations. -/
theorem witness_WidenOpens :
    ∀ r ∈ [4, 32], one.Runs (unit 1) demoGroup ∧ (unit 1).kholds 0 demoGroup.u = true ∧ (unit 1).lanes = 1#32 <<< 0 ∧
      one.HasHeader 0 ((USrc.s 4).get demoGroup.u) 1 (w32 (header 1)) ∧
      (∀ q, q < 4 → (w32 (header 1)).toNat / 16 ^ q % 16 ≠ 15) ∧ (demoGroup.lane 0).nest < 8 ∧
      ((LSrc.v r).r32 (demoGroup.lane 0)).toNat = r ∧ 1 ≤ r ∧ r ≤ 32 ∧ one.quiet 0 ∧ tget one.teams demoGroup.tid = some demoTeam ∧
      demoTeam.core = 0 ∧ 8 ≤ demoTeam.quota ∧ 1 ≤ demoTeam.wslots ∧ one.calls = [] ∧
      ∃ k, k < 64 ∧ tget one.groups (64 * 0 + k) = none := by
  intro r hr
  simp only [List.mem_cons, List.not_mem_nil, or_false] at hr
  rcases hr with rfl | rfl <;>
    exact ⟨⟨rfl, rfl, rfl⟩, by decide +kernel, rfl, header_at demoGroup 0x10010 1 (by decide +kernel), by decide, by decide +kernel,
      by decide +kernel, by decide, by decide, quiet, rfl, rfl, by decide +kernel, by decide, rfl, 1, by decide, rfl⟩

/-- A lane of a callee, one level down. -/
def calleeLane (p : Nat) : Lane := { demoLane p with nest := 1 }

/-- The one invocation of a WIDEN of lane 0 of group 0 runs in group 1. -/
def invoked : Group :=
  { groupOf (fun p => if p = 0 then calleeLane 0 else Lane.blank) [] with
    kind := .fresh 5, blocks := [⟨0, 4, 0, 0⟩], index := 64
    u := { UFile.reset with s := (Vector.replicate 56 0).set 55 (BitVec.ofNat 64 (2 ^ 63 + 1)) } }

def callerGroup : Group :=
  groupOf (fun p => if p = 0 then { demoLane 0 with state := .waiting (.widen 5) } else demoLane p) []

def widened : WidenCall :=
  { tid := 0, level := 1, target := 0x10010, hdr := w32 (header 1 + 0x0321), gkey := 0, next := 0x10008
    callers := [⟨0, 1, .fresh, 0, [], ⟨0, 0, 56, [], 0, 0, 0⟩, none⟩], groups := [1], charge := 1 }

def returning : State :=
  { world callerGroup { unit 1 with gkey := 1 } with groups := [(0, callerGroup), (1, invoked)], calls := [(5, widened)] }

theorem witness_WidenReturns :
    ∃ x b, returning.Runs { unit 1 with gkey := 1 } invoked ∧ returning.quiet 1 ∧ (unit 1).kholds 0 invoked.u = true ∧
      (unit 1).lanes = 1#32 <<< 0 ∧ returning.inner 1 invoked 0 = .widened 5 ∧
      invoked.u.reg 55 = BitVec.ofNat 64 (2 ^ 63 + (invoked.lane 0).nest) ∧ invoked.blockAt 0 = some b ∧ b.caller = 0 ∧
      tget returning.calls 5 = some widened ∧ widened.callers = [x] ∧ x.mode = .fresh ∧ x.s55 = none ∧ x.ended + 1 = x.count ∧
      widened.groups = [1] ∧ widened.gkey ≠ 1 ∧ tget returning.groups widened.gkey = some callerGroup ∧ x.pos < 32 ∧
      (callerGroup.lane x.pos).gone = false ∧ tget returning.teams widened.tid = some demoTeam :=
  ⟨_, _, ⟨rfl, rfl, rfl⟩, quietAt (by decide +kernel), by decide +kernel, rfl, by decide +kernel, by decide +kernel, by and_intros <;> first | rfl | decide +kernel⟩

/-- A gather callee thread of two callers, coupled, in group 1. -/
def firing : Firing :=
  { level := 1, begun := true, stuck := false, runs := [⟨0x10018, [(0, 0), (0, 1)]⟩], callers := [(0, 0), (0, 1)]
    thread := some (1, 0), block := true, hdr := w32 (header 2 + 2 ^ 22), saved := none, wait := none }

def threadGroup : Group :=
  { groupOf (fun p => if p = 0 then calleeLane 0 else Lane.blank) [] with kind := .thread 1, index := 64 }

def gathering : State :=
  { world demoGroup { unit 1 with gkey := 1 } with
    groups := [(0, demoGroup), (1, threadGroup)], teams := [(0, { demoTeam with firings := [firing] })] }

theorem witness_GatherArea :
    gathering.Runs { unit 1 with gkey := 1 } threadGroup ∧ (unit 1).lanes = 1#32 <<< 0 ∧
      gathering.threadFiring 1 threadGroup 0 = some (0, firing) ∧ gathering.uncoupled 1 threadGroup 1#32 = [] ∧
      tget gathering.teams 0 = some { demoTeam with firings := [firing] } :=
  ⟨⟨rfl, rfl, rfl⟩, by decide, by decide +kernel, by decide +kernel, rfl⟩

/-! ### Fences, waits, cells -/

/-- An SC fence at its first issue, one that has still to name its tick, one whose tick has come and one whose tick has not; L1
holds a line. -/
theorem witness_Fences :
    ∀ h ∈ [none, some (Hold.scFence 0x10000 1 none 3), some (.scFence 0x10000 1 (some 0) 3), some (.scFence 0x10000 1 (some 1) 3)],
      let g := { demoGroup with hold := h }
      let s := { world g (unit 1) with cores := [(0, { demoCore with l1 := [(32, 3)], l1Time := 3 })] }
      s.Runs (unit 1) g ∧ (unit 1).kholds 0 g.u = true ∧ s.quiet 0 ∧ (∀ x ∈ (s.core 0).l1, x.2 ≤ (s.core 0).l1Time) ∧
        (s.core 0).posted = [] ∧ (0#64).toNat ≤ s.stroke.toNat ∧ s.stroke.toNat < (1#64).toNat := by
  intro h _
  refine ⟨⟨rfl, rfl, rfl⟩, rfl, ⟨fun x hx => absurd hx List.not_mem_nil, rfl⟩, fun x hx => ?_, rfl, Nat.zero_le _, Nat.zero_lt_one⟩
  rw [List.mem_singleton.1 (show x ∈ [(32, 3)] from hx)]
  exact Nat.le_refl 3

/-- The object at 0x1000 counts 0: reached for a count of 0, not for one of 7. -/
theorem witness_WaitsForObjects :
    one.Runs (unit 1) demoGroup ∧ (unit 1).kholds 0 demoGroup.u = true ∧ (unit 1).First 0 ∧
      ((USrc.s 1).get demoGroup.u).toNat % 16 = 0 ∧
      one.Reaches (unit 1) demoGroup ((USrc.s 1).get demoGroup.u) 4 .load 0x1000 (after one 0x1000 .load) ∧
      ((USrc.s 0).get demoGroup.u).toNat % 2 ^ 32 ≤ (after one 0x1000 .load).num 0x1000 4 ∧
      ¬ ((USrc.s 2).get demoGroup.u).toNat % 2 ^ 32 ≤ (after one 0x1000 .load).num 0x1000 4 :=
  ⟨⟨rfl, rfl, rfl⟩, by decide +kernel, first_one, by decide +kernel,
    reaches one (unit 1) demoGroup 0x1000 4 .load 0x1000 (by decide +kernel), by decide +kernel⟩

theorem cell_at (s : State) (c : Issue) (g : Group) (va : DWord) (k : Acc) (pa : Nat)
    (h : let t := s.translate (coreOf c.gkey) (s.asidOf g) va.toNat k
      (va >>> 54 = 0 ∧ va.toNat % 32 = 0 ∧ pa % 32 = 0 ∧ (s.core (coreOf c.gkey)).posted = []) ∧ s.peerWaits = [] ∧
        t.2.ownsPlace (t.2.asidOf g) (.here pa true) 32 = false ∧ t.1 = .to (.here pa true)) :
    s.CellAt c g va k pa (s.translate (coreOf c.gkey) (s.asidOf g) va.toNat k).2 :=
  let ⟨⟨h1, h2, h3, h4⟩, h5, h6, h7⟩ := h
  ⟨h1, h2, h3, ⟨by rw [h4]; simp, h5⟩, h6, Prod.ext h7 rfl⟩

/-- SUSPEND of the record in s8 to s11 at the cell of s6; CELLTAG of it with s0. -/
theorem witness_CellInstructions :
    one.Runs (unit 1) demoGroup ∧ (unit 1).kholds 0 demoGroup.u = true ∧
      one.CellAt (unit 1) demoGroup ((USrc.s 6).get demoGroup.u) .store 0x1000 (after one 0x20001000 .store) ∧
      (let n := demoGroup.u.run 8 4
        let r := n - n / 2 ^ 142 % 2 ^ 12 * 2 ^ 142 + one.asidOf demoGroup % 2 ^ 12 * 2 ^ 142
        cellRecOk r = true ∧ r / 2 ^ 197 % 2 ^ 49 = ((USrc.s 6).get demoGroup.u).toNat / 32) ∧
      (after one 0x20001000 .store).tag 0x1000 ≠ tagEvaluating ∧ ((USrc.s 0).get demoGroup.u).getLsbD 2 = false ∧
      ((USrc.s 0).get demoGroup.u).toNat % 4 ≠ 2 :=
  ⟨⟨rfl, rfl, rfl⟩, by decide +kernel,
    cell_at one (unit 1) demoGroup 0x20001000 .store 0x1000 (by decide +kernel),
    by decide +kernel⟩

/-- TOUCH of the cell of s6, and CELLTAG of it with s2, whose bit 2 is set; TOUCH at an untagged page. -/
theorem witness_CellReads :
    one.CellAt (unit 1) demoGroup ((USrc.s 6).get demoGroup.u) .load 0x1000 (after one 0x20001000 .load) ∧
      (after one 0x20001000 .load).tag 0x1000 = tagValue ∧ ((USrc.s 2).get demoGroup.u).getLsbD 2 = true ∧
      (USrc.s 1).get demoGroup.u >>> 54 = 0 ∧ ((USrc.s 1).get demoGroup.u).toNat % 32 = 0 ∧
      one.translate 0 (one.asidOf demoGroup) ((USrc.s 1).get demoGroup.u).toNat .load =
        (.to (.here 0x1000 false), after one 0x1000 .load) :=
  ⟨cell_at one (unit 1) demoGroup 0x20001000 .load 0x1000 (by decide +kernel),
    by decide +kernel, by decide +kernel, by decide +kernel, by decide +kernel,
    Prod.ext (by decide +kernel) rfl⟩

/-- The evaluation of the cell at 0x1000. -/
def evaluation (team : Option Nat) (ws : List Waiter) : CellEntry := ⟨0x1000, 0, team, 32, false, false, 0, ws⟩

/-- The cell at 0x1000 is under evaluation by team 0; lane 3 of group 2 may wait for it. -/
def evaluating (team : Option Nat) (ws : List Waiter) : State :=
  let g2 := groupOf (fun p => if p = 3 then { demoLane 3 with state := .parked (.cell 0x1000) } else demoLane p) []
  { (one.modDie (homeDie 0x1000) fun d => { d with cells := [evaluation team ws] }) with
    tags := [(0x1000 / 32, tagEvaluating)], groups := [(0, demoGroup), (2, g2)] }

/-- Lane 3 of group 2 waits. -/
def waiterOf2 : Waiter := ⟨2, 0x20001000, 8#32, false, none⟩

/-- FULFILL by the evaluator of a cell that nothing waits for. -/
theorem witness_Fulfill :
    let s := evaluating (some 0) []
    let e := evaluation (some 0) []
    s.Runs (unit 1) demoGroup ∧ s.CellAt (unit 1) demoGroup ((USrc.s 6).get demoGroup.u) .store 0x1000 (after s 0x20001000 .store) ∧
      (after s 0x20001000 .store).tag 0x1000 = tagEvaluating ∧ (after s 0x20001000 .store).evaluation 0x1000 = some e ∧
      e.team = some demoGroup.tid ∧ e.waiters = [] ∧ e.pa = 0x1000 ∧ e.rsize ≤ 32 :=
  ⟨⟨rfl, rfl, rfl⟩, cell_at _ (unit 1) demoGroup 0x20001000 .store 0x1000 (by decide +kernel), by decide +kernel⟩

/-- TOUCH of a cell under evaluation by another team; FULFILL by its evaluator, while lane 3 of group 2 waits. -/
theorem witness_CellWaits :
    (let s := evaluating none []
     s.Runs (unit 1) demoGroup ∧ (unit 1).Running demoGroup ∧ (unit 1).lanes ≠ 0 ∧ (unit 1).kholds 0 demoGroup.u = true ∧
      s.CellAt (unit 1) demoGroup ((USrc.s 6).get demoGroup.u) .load 0x1000 (after s 0x20001000 .load) ∧
      (∀ tm, tget s.teams demoGroup.tid = some tm → tm.chain = none) ∧
      (after s 0x20001000 .load).tag 0x1000 = tagEvaluating ∧
      (after s 0x20001000 .load).evaluation 0x1000 = some (evaluation none []) ∧
      s.teamPrio demoGroup.tid ≤ (evaluation none []).prio) ∧
    (let s := evaluating (some 0) [waiterOf2]
     let e := evaluation (some 0) [waiterOf2]
     s.Runs (unit 1) demoGroup ∧ (unit 1).kholds 0 demoGroup.u = true ∧
      s.CellAt (unit 1) demoGroup ((USrc.s 6).get demoGroup.u) .store 0x1000 (after s 0x20001000 .store) ∧
      (after s 0x20001000 .store).tag 0x1000 = tagEvaluating ∧ (after s 0x20001000 .store).evaluation 0x1000 = some e ∧
      e.team = some demoGroup.tid ∧ e.waiters = [waiterOf2] ∧ waiterOf2.peer = none ∧ waiterOf2.posted = false ∧ e.pa = 0x1000 ∧
      waiterOf2.gkey ≠ (unit 1).gkey ∧ (tget s.groups waiterOf2.gkey).isSome = true) :=
  ⟨⟨⟨rfl, rfl, rfl⟩, running_one, by decide, by decide +kernel,
    cell_at _ (unit 1) demoGroup 0x20001000 .load 0x1000 (by decide +kernel), by intro tm h; cases h; rfl, by decide +kernel⟩,
   ⟨⟨rfl, rfl, rfl⟩, by decide +kernel, cell_at _ (unit 1) demoGroup 0x20001000 .store 0x1000 (by decide +kernel), by decide +kernel⟩⟩

/-! ### Events of cells and atomics -/

def withDie (f : Die → Die) : State := one.modDie 0 f

def request : EvalReq := ⟨0x1000, loadDesc, 3, 0, 0, 0, 0⟩

def starter : Starter := ⟨0x1000, 0, 8#32, false, none, none⟩

def starting : State :=
  let g := groupOf (fun p => if p = 3 then { demoLane 3 with state := .parked (.starter 0x1000) } else demoLane p) []
  (world g (unit 1)).modDie 0 fun d => { d with starters := [starter] }

/-- The 65th waiter of a cell is group 0. -/
def crowd : CellEntry :=
  evaluation none ((List.range 64).map (fun i => ⟨64 + i, 0x20001000, 1#32, false, none⟩) ++ [⟨0, 0x20001000, 8#32, false, none⟩])

theorem witness_CellEvents :
    ((withDie fun d => { d with evals := [request] }).die 0).evals = [request] ∧
      ((withDie fun d => { d with evals := [request] }).die 0).pool.length < 8192 ∧
      (starting.die 0).starters.find? starting.starterReady = some starter ∧ starter.peer = none ∧ starter.posted = false ∧
      (tget starting.groups 0).isSome = true ∧ (starting.core 0).posted = [] ∧ (tget one.groups 0).isSome = true ∧
      (withDie fun d => { d with cells := [crowd] }).overflowWaiters 0 = [(0x1000, ⟨0, 0x20001000, 8#32, false, none⟩)] := by
  and_intros <;> decide +kernel

theorem witness_WatcherEvents : tget one.groups 0 = some demoGroup ∧ (one.core (postCore 0)).posted = [] := ⟨rfl, rfl⟩

def posted (w : Option ParkWhy) : Posted := ⟨0, 3, 0x10000, 0x1000, 0x28, 0, 5, 0, w, none⟩

def posting (w : Option ParkWhy) : State := { one with cores := [(0, { demoCore with posted := [posted w] })] }

theorem witness_PostedAtomics :
    AtomicForm 0x28 0 4 false (fun old b _ => some ((old + b) % 2 ^ 32)) ∧
    AtomicForm 0x28 7 4 true (fun old b swap => if old = b then some swap else none) ∧
    (let s := posting none
     let s1 := (({ s with fresh := s.fresh + 1 } : State).translate 0 (s.asidOf demoGroup) 0x1000 .atomic).2
     (s.core 0).posted = [posted none] ∧ coreOf (posted none).gkey = 0 ∧ tget s.groups (posted none).gkey = some demoGroup ∧
      ({ s with fresh := s.fresh + 1 } : State).translate 0 (s.asidOf demoGroup) (posted none).va .atomic =
        (.to (.here 0x1000 false), s1) ∧
      s1.ownsPlace (s1.asidOf demoGroup) (.here 0x1000 false) 4 = false ∧ s1.badLine 0x1000 4 = none) ∧
    let s := posting (some (.fault 0 7))
    (s.core 0).posted = [posted (some (.fault 0 7))] ∧ (posted (some (.fault 0 7))).pos < 32 ∧
      (∀ tag, ParkWhy.fault 0 7 ≠ .reply tag) ∧ tget s.groups 0 = some demoGroup ∧ (demoGroup.lane 3).runnable = true :=
  ⟨.inl ⟨.inl ⟨rfl, rfl⟩, .inl ⟨rfl, rfl, rfl⟩⟩, .inl ⟨.inl ⟨rfl, rfl⟩, by repeat' first | exact ⟨rfl, rfl, rfl⟩ | apply Or.inr⟩,
    ⟨rfl, rfl, rfl, Prod.ext (by decide +kernel) rfl, by decide +kernel⟩, rfl, by decide, nofun, rfl, by decide +kernel⟩

/-- One whose trap was kept back, of a group that runs again or is stopped still; another group's, waiting, under an SC fence. -/
def kept : Posted := { posted none with trap := some (0x1D, 0x1000, 0, 8#32) }

theorem witness_PostedAtomics_kept :
    (∀ st : Option Stop,
      let s := { one with
        cores := [(0, { demoCore with posted := [kept] })], groups := [(0, { demoGroup with stop := st })] }
      (s.core 0).posted = [kept] ∧ coreOf kept.gkey = 0 ∧ kept.trap = some (0x1D, 0x1000, 0, 8#32) ∧ 0x1D ≠ 0x30 ∧
        tget s.groups kept.gkey = some { demoGroup with stop := st }) ∧
    let x := { posted (some (.fault 0 7)) with gkey := 1 }
    let s := { one with cores := [(0, { demoCore with posted := [x] })] }
    s.quiet 0 ∧ (s.core 0).posted = [x] ∧ x.wait.isSome = true ∧ demoGroup.hold = none :=
  ⟨fun _ => ⟨rfl, rfl, rfl, by decide, rfl⟩, ⟨by decide +kernel, rfl⟩, rfl, rfl, rfl⟩

/-! ### Commands -/

/-- s1 a shape or block at 0x1000, s2 the control of a TCOPY into scratch, s4 to s7 its operands; s8 to s11 those of a TCOPYM to
one team. -/
def commanding : Group := groupOf demoLane [0, 0x1000, 0, 0, 0, 0, 0, 0, 0, 0, 0, 0x1000]

theorem witness_EngineCommands :
    (world commanding (unit 1)).Runs (unit 1) commanding ∧ (unit 1).kholds 0 commanding.u = true ∧
      (world commanding (unit 1)).quiet 0 ∧ ((world commanding (unit 1)).core 0).dt.length < 32 ∧
      ((world commanding (unit 1)).core 0).vq.length < 32 ∧
      (USrc.s 1).get commanding.u >>> 54 = 0 ∧ ((USrc.s 1).get commanding.u).toNat % 128 = 0 ∧
      (world commanding (unit 1)).CopyControl commanding 0 false
        [commanding.u.reg 4, commanding.u.reg 5, commanding.u.reg 6, commanding.u.reg 7] ∧
      (world commanding (unit 1)).CopyControl commanding 0 true
        [commanding.u.reg 8, commanding.u.reg 9, commanding.u.reg 10, commanding.u.reg 11] ∧
      ((USrc.s 2).get commanding.u).toNat / 2 ^ 59 = 0 := by
  and_intros
  all_goals first | rfl | decide +kernel

/-- Addresses with bit 54 set; addresses that are aligned to 8 and no better. -/
theorem witness_EngineCommandTraps :
    let g := groupOf demoLane [0, 0x40000000000000, 0x1008]
    (world g (unit 1)).Runs (unit 1) g ∧ (unit 1).kholds 0 g.u = true ∧ (USrc.s 1).get g.u >>> 54 ≠ 0 ∧
      (USrc.s 2).get g.u >>> 54 = 0 ∧ ∀ n ∈ [128, 64, 32, 16], ((USrc.s 2).get g.u).toNat % n ≠ 0 :=
  ⟨⟨rfl, rfl, rfl⟩, by decide +kernel⟩

/-- A record of a kind: for MTASK its first input is 64 slots of ring 5; for TCOPYM it names one team. -/
def seqRecord (kind : Nat) : Nat :=
  kind * 2 ^ 64 + (if kind = 0 then 2 ^ 11 + 16 * 64 + 5 else 0) + (if kind = 3 then 2 ^ 12 * 2 ^ 448 else 0)

def lined (r : Ring) : Core := { demoCore with rings := demoCore.rings.set 5 r }

def sequencing (kind : Nat) : State :=
  { withData one (leBytes 64 (seqRecord kind)) with cores := [(0, lined ⟨true, 0, 0, 1, 256, 0, true, 0, 0, 0, 0⟩)] }

theorem witness_SequencedTasks :
    ∀ kind ∈ [0, 1, 2, 3, 4],
      let s := sequencing kind
      let r := (after s 0x1000 .load).num 0x1000 64
      let word := fun n => BitVec.ofNat 64 (r / 2 ^ n)
      s.Runs (unit 1) demoGroup ∧ (unit 1).kholds 0 demoGroup.u = true ∧ (unit 1).First 0 ∧
        s.Reaches (unit 1) demoGroup ((USrc.s 1).get demoGroup.u) 64 .load 0x1000 (after s 0x1000 .load) ∧
        (s.core 0).dt.length < 32 ∧ r / 2 ^ 74 % 2 ^ 54 = 0 ∧ r / 2 ^ 64 % 8 = kind ∧ r / 2 ^ 67 % 2 ^ 7 = 0 ∧
        word 128 = 0 ∧ word 192 = 0 ∧
        (∀ i, i < 4 →
          let x := r / 2 ^ (16 * i) % 2 ^ 16
          let k := (s.core 0).ring (x % 16)
          x / 2 ^ 12 = 0 ∧ (x / 2 ^ 11 % 2 = 1 → 1 ≤ x / 16 % 2 ^ 7 ∧ x / 16 % 2 ^ 7 ≤ 64 ∧ k.enabled = true ∧
            k.tid = demoGroup.tid ∧ k.matrix = true)) ∧
        (kind = 2 → s.CopyControl demoGroup 0 false [word 256, word 320, word 384, word 448]) ∧
        (kind = 3 → s.CopyControl demoGroup 0 true [word 256, word 320, word 384, word 448]) := by
  intro kind hk
  simp only [List.mem_cons, List.not_mem_nil, or_false] at hk
  rcases hk with rfl | rfl | rfl | rfl | rfl <;>
    exact ⟨⟨rfl, rfl, rfl⟩, by decide +kernel, first_one, reaches _ (unit 1) demoGroup 0x1000 64 .load 0x1000 (by decide +kernel),
      by
        and_intros
        all_goals first | decide +kernel | exact fun h => absurd h (by decide) | exact fun _ => by unfold State.CopyControl; decide +kernel⟩

/-- Lane ring 7 with a filled slot not yet handed out; with none; with one handed out. -/
def laneRing (f a r : Nat) : Ring := ⟨true, 0, 0, 4, 256, 2, false, f, a, r, 0⟩

def ringing (x : Ring) : State := { one with cores := [(0, { demoCore with rings := demoCore.rings.set 7 x })] }

theorem witness_LaneRings :
    ∀ x ∈ [laneRing 2 1 1, laneRing 1 1 1, laneRing 1 1 0],
      (ringing x).Runs (unit 1) demoGroup ∧ (unit 1).kholds 0 demoGroup.u = true ∧ (ringing x).quiet 0 ∧
        (ringing x).LaneRing demoGroup 0 ((USrc.s 2).get demoGroup.u) x ∧
        (x.f = 2 → x.a ≠ x.f) ∧ (x.f = 1 → x.a = x.f) ∧ (x.r = 0 → x.r ≠ x.a) := by
  intro x hx
  simp only [List.mem_cons, List.not_mem_nil, or_false] at hx
  rcases hx with rfl | rfl | rfl <;>
    exact ⟨⟨rfl, rfl, rfl⟩, by decide +kernel, quietAt (by decide +kernel), by unfold State.LaneRing; decide +kernel⟩

/-! ### Nodes and special registers -/

/-- A node of a descriptor with signals to come, entry 1 of die 0, of generation 1. -/
def nodeOf (d : NodeDesc) (need : Nat) : Node := ⟨d, 1, need, need == 0, false, 1, 0, 0⟩

def queued (d : NodeDesc) (need : Nat) (x : RecQueue) : State :=
  withDie fun e => { e with nodes := [(1, nodeOf d need)], queues := [(0, x)] }

def recordDesc : NodeDesc := { loadDesc with rqen := true, tile := 2, flush := 4 }

def openQueue : RecQueue := ⟨some 0x1001, false, [], [], none, false⟩

theorem witness_RecordPushes :
    let s := queued recordDesc 0 openQueue
    let sel := ((LSrc.v 0).r32 (demoGroup.lane 0)).toNat
    s.Runs (unit 1) demoGroup ∧ (unit 1).One 0 demoGroup 0 ∧ s.quiet 0 ∧ sel < 2 ^ 13 ∧
      ((demoGroup.lane 0).reg (16 + 2)).toNat < 2 ^ 18 ∧ (s.queueNode (sel / 2 ^ 10) (sel % 2 ^ 10)).isSome = true ∧
      (s.queue (sel / 2 ^ 10) (sel % 2 ^ 10)).closed = false ∧ (s.die (sel / 2 ^ 10)).owner = (s.die (dieOf 0)).owner ∧
      (s.die (sel / 2 ^ 10)).records < 16384 ∧ (s.die (sel / 2 ^ 10)).slip = [] :=
  ⟨⟨rfl, rfl, rfl⟩, witness_one, quietAt (by decide +kernel), by decide +kernel⟩

/-- A descriptor of one team of one group, with one predecessor; all zero, its sides are 0. -/
def goodDescriptor : Nat := 0x10000 + 2 ^ 192 + 2 ^ 208 + 2 ^ 224 + 2 ^ 262 + 2 ^ 266 + 2 ^ 512

/-- The state after the descriptor at 0x1000 has been read. -/
def afterNode (s : State) : State :=
  match s.readNode 0 0 0x1000 .engRead with
  | .ok x => x.2.2.2
  | .error _ => s

theorem readNode_eq (s : State) (n : Nat) (d : NodeDesc) (b : Bool)
    (h : (s.readNode 0 0 0x1000 .engRead).map (fun x => (x.1, x.2.1, x.2.2.1)) = .ok (n, d, b)) :
    s.readNode 0 0 0x1000 .engRead = .ok (n, d, b, afterNode s) := by
  unfold afterNode
  match hr : s.readNode 0 0 0x1000 .engRead, h with
  | .ok (_, _, _, _), h => cases h; rfl

theorem witness_NodeLaunches :
    ∀ x ∈ [(goodDescriptor, none), (0, some 1)],
      let s := withData one (leBytes 256 x.1)
      let s1 := afterNode s
      let d := { NodeDesc.parse x.1 56 with dies := 1 }
      s.Runs (unit 1) demoGroup ∧ (unit 1).kholds 0 demoGroup.u = true ∧ s.quiet 0 ∧ dieOf (coreOf 0) = 0 ∧
        (USrc.s 1).get demoGroup.u >>> 54 = 0 ∧ ((USrc.s 1).get demoGroup.u).toNat % 256 = 0 ∧
        s.readNode 0 0 0x1000 .engRead = .ok (x.1, NodeDesc.parse x.1 56, true, s1) ∧ s.asidOf demoGroup = 0 ∧
        (NodeDesc.parse x.1 56).dies = 0 ∧ nodeCause x.1 d true (s1.queueBound d) (s1.diesOk (s1.die 0).owner d.dies) = x.2 ∧
        (x.2 = some 1 → d.cobj = 0) ∧ (s1.die 0).nodes.length < 4096 ∧ (s1.die 0).pool.length < 8192 := by
  intro x hx
  simp only [List.mem_cons, List.not_mem_nil, or_false] at hx
  rcases hx with rfl | rfl <;>
    exact ⟨⟨rfl, rfl, rfl⟩, by decide +kernel, quietAt (by decide +kernel), by decide, by decide +kernel, by decide +kernel,
      readNode_eq _ _ _ _ (by decide +kernel), by decide +kernel⟩

/-- The handle of entry 1 of die 0 in s1; a node that waits for one signal, one that waits for two, a ready one, and none. -/
def handled : Group := groupOf demoLane [0, 0x1001]

theorem witness_NodeSignals :
    ∀ n ∈ [0, 1, 2],
      let s := { queued loadDesc n RecQueue.empty with groups := [(0, handled)] }
      s.Runs (unit 1) handled ∧ (unit 1).kholds 0 handled.u = true ∧ s.quiet 0 ∧
        s.findNode (BitVec.setWidth 32 ((USrc.s 1).get handled.u)) = some (0, 1, nodeOf loadDesc n) ∧
        BitVec.setWidth 32 ((USrc.s 1).get handled.u) ≠ 0 ∧ (nodeOf loadDesc n).ready = decide (n = 0) ∧
        (nodeOf loadDesc n).need = n ∧ (nodeOf loadDesc n).desc.rqen = false ∧ (nodeOf loadDesc n).desc.dies = 2 ^ 0 ∧
        (s.die 0).pool.length < 8192 ∧ s.findNode (BitVec.setWidth 32 ((USrc.s 0).get handled.u)) = none := by
  intro n hn
  simp only [List.mem_cons, List.not_mem_nil, or_false] at hn
  rcases hn with rfl | rfl | rfl <;>
    exact ⟨⟨rfl, rfl, rfl⟩, by decide +kernel, quietAt (by decide +kernel), by decide +kernel⟩

/-- A node of die 1, which another partition has. -/
theorem witness_NodeSignals_partition :
    let g := groupOf demoLane [0, 2 ^ 25 + 0x1001]
    let s := { one.modDie 1 fun d => { d with nodes := [(1, nodeOf loadDesc 1)], owner := some 1 } with groups := [(0, g)] }
    s.Runs (unit 1) g ∧ s.findNode (BitVec.setWidth 32 ((USrc.s 1).get g.u)) = some (1, 1, nodeOf loadDesc 1) ∧
      s.partitioned = true ∧ (s.die 1).owner ≠ (s.die (dieOf (coreOf 0))).owner :=
  ⟨⟨rfl, rfl, rfl⟩, by decide +kernel⟩

theorem witness_NodeSnapshots :
    let s := { queued recordDesc 2 openQueue with groups := [(0, handled)] }
    s.Runs (unit 1) handled ∧ (unit 1).kholds 0 handled.u = true ∧
      s.findNode (BitVec.setWidth 32 ((USrc.s 0).get handled.u)) = none ∧
      s.findNode (BitVec.setWidth 32 ((USrc.s 1).get handled.u)) = some (0, 1, nodeOf recordDesc 2) ∧
      (s.die 0).owner = (s.die (dieOf (coreOf 0))).owner :=
  ⟨⟨rfl, rfl, rfl⟩, by decide +kernel⟩

/-- Values at the edges of what MSR takes: each is good for `cvm`, for `gbase` and `wsave`, for `efaddr`, or for none. -/
theorem witness_SpecialRegisters :
    one.Runs (unit 1) demoGroup ∧ (unit 1).kholds 0 demoGroup.u = true ∧ tget one.teams demoGroup.tid = some demoTeam ∧
      coreOf (unit 1).gkey < 1728 ∧
      (∀ i, i < 7 → 0x5555555 / 16 ^ i % 8 < 6) ∧ (¬ ∀ i, i < 7 → 0x6000000 / 16 ^ i % 8 < 6) ∧ 2 ^ 54 - 1 < 2 ^ 54 ∧
      ¬ 2 ^ 54 < 2 ^ 54 ∧ (2 ^ 56) / 2 ^ 54 % 4 = 0 ∧ ¬ (2 ^ 55) / 2 ^ 54 % 4 = 0 :=
  ⟨⟨rfl, rfl, rfl⟩, by decide +kernel, rfl, by decide +kernel⟩

/-- A list of one record: ring 3, role 0, of a team with 64 KiB of W memory, 64 slots of 1 KiB. -/
def ringRecord : Nat := 3 + 4 * 2 ^ 36 + 63 * 2 ^ 48 + 2 ^ 56

theorem witness_RingTables :
    let s := withData one (leBytes 16 ringRecord)
    let r := (after s 0x1000 .load).num 0x1000 16
    s.Runs (unit 1) demoGroup ∧ (unit 1).kholds 0 demoGroup.u = true ∧ tget s.teams demoGroup.tid = some demoTeam ∧
      (USrc.s 0).get demoGroup.u = 0 ∧ (USrc.s 1).get demoGroup.u ≠ 0 ∧ (USrc.s 1).get demoGroup.u >>> 54 = 0 ∧
      ((USrc.s 1).get demoGroup.u).toNat % 16 = 0 ∧ (unit 1).First 0 ∧
      s.Reaches (unit 1) demoGroup ((USrc.s 1).get demoGroup.u) 16 .load 0x1000 (after s 0x1000 .load) ∧
      (∀ x ∈ (s.core 0).vq ++ (s.core 0).dt, x.tid ≠ demoGroup.tid) ∧
      r / 2 ^ 57 % 2 ^ 39 = 0 ∧ r / 16 % 2 ^ 32 = 0 ∧ r / 2 ^ 96 % 256 = 0 ∧ r / 2 ^ 54 % 4 ≤ 2 ∧
      256 ≤ 256 * (r / 2 ^ 36 % 2 ^ 12) ∧ (r / 2 ^ 48 % 64 + 1) * (256 * (r / 2 ^ 36 % 2 ^ 12)) ≤ 524288 ∧
      (r / 2 ^ 56 % 2 = 1 ↔ r / 2 ^ 54 % 4 ≤ 1) ∧
      r / 2 ^ 96 + (r / 2 ^ 48 % 64 + 1) * (256 * (r / 2 ^ 36 % 2 ^ 12)) ≤ demoTeam.wBytes ∧ r / 2 ^ 54 % 4 = 0 ∧
      ((s.core 0).ring (r % 16)).enabled = false :=
  ⟨⟨rfl, rfl, rfl⟩, by decide +kernel, rfl, by decide +kernel, by decide +kernel, by decide +kernel, by decide +kernel, first_one,
    reaches _ (unit 1) demoGroup 0x1000 16 .load 0x1000 (by decide +kernel), by decide +kernel⟩

/-! ### The cox -/

/-- The cox of core 0 and the edges of what the cards of its registers take. -/
theorem witness_PrivilegedRegisters :
    (coxWorld [] id).RunsCox coxIssue ∧ coxIssue.kholds 0 ((coxWorld [] id).core coxIssue.core).cox.u = true ∧ coxIssue.core < 1728 ∧
      (0xFFFC < 2 ^ 16 ∧ 0xFFFC % 4 = 0) ∧ ¬ (0x10000 < 2 ^ 16 ∧ 0x10000 % 4 = 0) ∧
      (2 ^ 25 < 2 ^ 52 ∧ 2 ^ 25 % 2 ^ 25 = 0) ∧ ¬ (2 ^ 24 < 2 ^ 52 ∧ 2 ^ 24 % 2 ^ 25 = 0) ∧ 65536 ≤ 65536 ∧ ¬ 65537 ≤ 65536 ∧
      (∃ i, 6 ≤ i ∧ i ≤ 20 ∧ 2 ^ 20 = 2 ^ i) ∧ (2 ^ 62 * 2 + 1) / 2 ^ 62 ≠ 3 ∧ ¬ (2 ^ 62 * 3) / 2 ^ 62 ≠ 3 :=
  ⟨⟨rfl, rfl⟩, by decide +kernel, by decide, by omega, by omega, by omega, by omega, by omega, by omega, ⟨20, by omega⟩, by omega⟩

def trapReport (cause : Nat) : Report := ⟨0, cause, 0, 1, 0x10000, 0, 0, 0⟩

/-- A queue of three reports, of which the last but one comes first; one of a placement request alone; an empty one. -/
theorem witness_CoxQueue :
    (∀ q ∈ [0x30, 0x31, 0x28, 5],
      let s := coxWorld [0, 0xFFC0] fun k => { k with reports := [trapReport 4, trapReport q, trapReport 4] }
      s.RunsCox coxIssue ∧ coxIssue.kholds 0 (s.core 0).cox.u = true ∧ ((USrc.s 1).get (s.core 0).cox.u).toNat % 64 = 0 ∧
        ((USrc.s 1).get (s.core 0).cox.u).toNat < 0x10000 ∧
        (s.core 0).reports = [trapReport 4] ++ trapReport q :: [trapReport 4] ∧
        (∀ x ∈ [trapReport 4], ¬ (x.cause = 0x30 ∨ x.cause = 0x31) ∧ x.cause ≠ 0x28) ∧
        (s.core 0).places = []) ∧
      let s := coxWorld [0, 0] fun k => { k with places := [0] }
      s.RunsCox coxIssue ∧ (s.core 0).reports = [] ∧ (s.core 0).places = [0] ∧ tget s.teams 0 = some demoTeam := by
  refine ⟨fun q hq => ?_, ⟨rfl, rfl⟩, rfl, rfl, rfl⟩
  simp only [List.mem_cons, List.not_mem_nil, or_false] at hq
  rcases hq with rfl | rfl | rfl | rfl <;>
    exact ⟨⟨rfl, rfl⟩, by decide +kernel⟩

def stopped (cause : Nat) : Stop := ⟨cause, 0x10000, 0x10004, 1, 1, 0, 0, false, 1⟩

/-- The group of core 0 has stopped; the cox of core 0 issues, its uniform registers as given. -/
def halted (cause : Nat) (us : List DWord) : State :=
  { coxWorld us id with groups := [(0, { demoGroup with stop := some (stopped cause) })] }

theorem refers {s : State} {c : Issue} {v : DWord} {k : Nat} {g : Group}
    (h : v.toNat < 64 ∧ k = 64 * c.core + v.toNat) (hg : tget s.groups k = some g) : s.Refers c v k g := ⟨h.1, h.2, hg⟩

/-- The debug window at s0 and s55, at `cvm` and at `gbase` of a stopped group, with values that are taken; a running group; and
an empty slot. -/
theorem witness_DebugWindow :
    let s := halted 4 [0, 16, 16 + 8 * 55, 504, 512, 63]
    let u := (s.core 0).cox.u
    s.RunsCox coxIssue ∧ coxIssue.kholds 0 u = true ∧
      s.Refers coxIssue ((USrc.s 0).get u) 0 { demoGroup with stop := some (stopped 4) } ∧ (tget s.teams 0).isSome = true ∧
      tget s.groups (64 * coxIssue.core + ((USrc.s 5).get u).toNat) = none ∧
      (coxWorld [0] id).Refers coxIssue 0 0 demoGroup ∧ demoGroup.stop = none ∧
      ((USrc.s 1).get u).toNat = 16 + 8 * 0 ∧ ((USrc.s 2).get u).toNat = 16 + 8 * 55 ∧ ((USrc.s 3).get u).toNat = 504 ∧
      ((USrc.s 4).get u).toNat = 512 ∧ ((USrc.s 4).get u).toNat < 2 ^ 28 ∧ (USrc.s 4).get u >>> 54 = 0 ∧
      (∀ f, f < 7 → ((USrc.s 4).get u).toNat / 16 ^ f % 8 < 6) ∧ ((USrc.s 5).get u).toNat < 64 :=
  ⟨⟨rfl, rfl⟩, by decide +kernel, refers (by decide +kernel) rfl, rfl, rfl, refers (by decide +kernel) rfl, rfl, by decide +kernel⟩

/-- RTE of groups stopped by a breakpoint and by another trap, in each mode. -/
theorem witness_EndOfStops :
    ∀ x ∈ [(4, 0), (4, 1), (4, 2), (5, 2), (1, 2), (1, 3)],
      let s := halted x.1 [0, w64 x.2]
      s.RunsCox coxIssue ∧ coxIssue.kholds 0 (s.core 0).cox.u = true ∧ (USrc.s 1).get (s.core 0).cox.u = w64 x.2 ∧
        s.Refers coxIssue ((USrc.s 0).get (s.core 0).cox.u) 0 { demoGroup with stop := some (stopped x.1) } ∧
        (stopped x.1).reason = 1 ∧ (∀ i, (s.die i).vacates = []) ∧ (∀ i, (s.core i).cox.saving = none) ∧
        ∀ z ∈ s.groups, z.2.tid = 0 → ∀ p, p < 32 → (z.2.lane p).state ≠ .parked .regroup := by
  have dies : ∀ i, ((Vector.replicate 8 Die.reset)[i]?.getD Die.reset).vacates = [] := fun i => by
    rw [Vector.getElem?_replicate]
    split <;> rfl
  intro x hx
  simp only [List.mem_cons, List.not_mem_nil, or_false] at hx
  rcases hx with rfl | rfl | rfl | rfl | rfl | rfl <;>
    exact ⟨⟨rfl, rfl⟩, by decide +kernel, by decide +kernel, refers (by decide +kernel) rfl, rfl, dies,
      fun i => match i with
        | 0 => rfl
        | _ + 1 => rfl, by decide +kernel⟩

theorem witness_KilledTeams :
    (halted 4 []).RunsCox coxIssue ∧ coxIssue.kholds 0 ((halted 4 []).core coxIssue.core).cox.u = true ∧
      (halted 4 []).Refers coxIssue ((USrc.s 0).get ((halted 4 []).core 0).cox.u) 0 { demoGroup with stop := some (stopped 4) } ∧
      tget (halted 4 []).teams 0 = some demoTeam ∧ ∀ d ∈ (halted 4 []).dies.toList, d.cells = [] :=
  ⟨⟨rfl, rfl⟩, by decide +kernel, refers (by decide +kernel) rfl, rfl, by decide +kernel⟩

/-- A team that waits for its placement, and its request in the memory of the cox: groups 1, window of 2 lines, allotment 3. -/
def placing : State :=
  { coxWorld [0x100] fun k => { k with
      cox := { k.cox with mem := mwrite (mwrite [] 0x108 (leBytes 8 1)) 0x122 (leBytes 2 2 ++ leBytes 1 3) }, places := [0] } with
    teams := [(0, { demoTeam with placed := false })] }

/-- CLOAD of the segment at 0x20000 for group 0, at its first issue and once it has landed. -/
def cloading (rep : Nat) (es : List LandEntry) : State :=
  withData (coxWorld [0x1000, 0] fun k => { k with land := es, cox := { k.cox with rep := rep } }) (leBytes 16 (descriptor 0x20000 1))

def readState (s : State) (die asid va n : Nat) (k : Acc) : State :=
  match s.dieRead die asid va n k with
  | .ok x => x.2
  | .error _ => s

theorem dieRead_eq (s : State) (die asid va n : Nat) (k : Acc) (bs : List Byte)
    (h : (s.dieRead die asid va n k).map (·.1) = .ok bs) :
    s.dieRead die asid va n k = .ok (bs, readState s die asid va n k) := by
  unfold readState
  match hr : s.dieRead die asid va n k, h with
  | .ok (_, _), h => cases h; rfl

/-- The fields of the request. -/
def field (o n : Nat) : Nat := leNat (mread (placing.core 0).cox.mem (0x100 + o) n)

theorem witness_CoxPlacement :
    (placing.RunsCox coxIssue ∧ rising placing.groups = true ∧ coxIssue.kholds 0 (placing.core 0).cox.u = true ∧
      ((USrc.s 0).get (placing.core 0).cox.u).toNat = 0x100 ∧ placing.requested 0 field = some 0 ∧
      tget placing.teams 0 = some { demoTeam with placed := false } ∧ demoTeam.desc.seg = 0 ∧ field 37 27 = 0 ∧ field 24 8 < 2 ^ 54 ∧
      1 ≤ field 36 1 ∧ field 36 1 ≤ 64 ∧ placing.windowClash 0 0 (field 32 2) (field 34 2) (field 36 1) = false) ∧
    ∀ x ∈ [(0, []), (1, [(⟨0x20000, 1, 1, 0, 0, .landed, false, [], false, 0⟩ : LandEntry)])],
      let s := cloading x.1 x.2
      let d : SegDesc := ⟨1, 1, 0x20000⟩
      s.RunsCox coxIssue ∧ rising s.groups = true ∧ s.Refers coxIssue ((USrc.s 1).get (s.core 0).cox.u) 0 demoGroup ∧
        tget s.teams 0 = some demoTeam ∧ ((USrc.s 0).get (s.core 0).cox.u) = 0x1000 ∧
        s.dieRead 0 0 0x1000 16 .land = .ok (leBytes 16 (descriptor 0x20000 1), readState s 0 0 0x1000 16 .land) ∧
        SegDesc.parse (leNat (leBytes 16 (descriptor 0x20000 1))) = some d ∧ demoTeam.winFirst ≤ d.bayline ∧
        d.bayline + d.lines ≤ demoTeam.winFirst + demoTeam.winLines ∧ 1 ≤ demoTeam.allot ∧ (s.core 0).cox.rep = x.1 ∧
        (x.1 = 0 → (s.core 0).land = []) ∧
        (x.1 = 1 → ∃ e, (s.core 0).equalEntry d = some e ∧ e.state = .landed) := by
  refine ⟨⟨⟨rfl, rfl⟩, by decide, by and_intros <;> first | rfl | decide +kernel⟩,
    fun x hx => ?_⟩
  simp only [List.mem_cons, List.not_mem_nil, or_false] at hx
  rcases hx with rfl | rfl
  · exact ⟨⟨rfl, rfl⟩, by decide, refers (by decide +kernel) rfl, rfl, by decide +kernel,
      dieRead_eq _ 0 0 0x1000 16 .land _ (by decide +kernel), by decide +kernel, by decide, by decide, by decide, rfl, fun _ => rfl,
      nofun⟩
  · exact ⟨⟨rfl, rfl⟩, by decide, refers (by decide +kernel) rfl, rfl, by decide +kernel,
      dieRead_eq _ 0 0 0x1000 16 .land _ (by decide +kernel), by decide +kernel, by decide, by decide, by decide, rfl, nofun,
      fun _ => ⟨_, rfl, rfl⟩⟩

/-- The stopped team of core 0, to be saved at 0x100000. -/
def saving : State := halted 4 [0x100000, 0]

/-- A team of one group in a record at 0x100000, to be loaded by the cox of core 0. -/
def savedKept : Kept := ⟨0, 0x100000, [], [], Vector.replicate 2 [], Vector.replicate 4 []⟩

def restoring : State :=
  { coxWorld [0x100000] id with
    mem := mwrite tables 0x100008 [1], saved := [savedKept]
    teams := [(0, { demoTeam with core := 1728, placed := false })]
    groups := [(64 * 1728, demoGroup)] }

theorem witness_SavedTeams :
    (saving.RunsCox coxIssue ∧ coxIssue.kholds 0 (saving.core 0).cox.u = true ∧
      ((USrc.s 0).get (saving.core 0).cox.u).toNat % 4096 = 0 ∧ populated ((USrc.s 0).get (saving.core 0).cox.u).toNat = true ∧
      saving.Refers coxIssue ((USrc.s 1).get (saving.core 0).cox.u) 0 { demoGroup with stop := some (stopped 4) } ∧
      tget saving.teams 0 = some demoTeam ∧ demoTeam.core = 0 ∧ demoTeam.desc.cw * demoTeam.desc.ch = 1 ∧
      (∀ y ∈ saving.groups, y.2.tid = 0 → y.2.stop.isSome = true) ∧ (saving.core 0).vq = [] ∧ (saving.core 0).dt = [] ∧
      (saving.core 0).posted = [] ∧ saving.peerWaits = [] ∧ saving.teamGone 0 = false ∧ saving.yielding 0 = false) ∧
    let field : Reader := fun o n => restoring.num (0x100000 + o) n
    restoring.RunsCox coxIssue ∧ coxIssue.kholds 0 (restoring.core 0).cox.u = true ∧
      ((USrc.s 0).get (restoring.core 0).cox.u).toNat = 0x100000 ∧
      restoring.savedTeam 0x100000 field = some (savedKept, { demoTeam with core := 1728, placed := false }) ∧
      restoring.barred 0 0 false = false ∧ demoTeam.desc.cw * demoTeam.desc.ch = 1 ∧ recordOk field = true ∧
      field 8 2 = (restoring.recordGroups 0).length ∧ restoring.coreFits 0 demoTeam.desc = true ∧ savedKept.rings = [] ∧
      restoring.windowClash 0 0 demoTeam.winFirst demoTeam.winLines demoTeam.allot = false :=
  ⟨⟨⟨rfl, rfl⟩, by decide +kernel, by decide +kernel, by decide +kernel, refers (by decide +kernel) rfl, rfl, by decide +kernel⟩, ⟨rfl, rfl⟩,
    by and_intros <;> decide +kernel⟩

/-- s1 is a cell, s2 the physical address of an object, s3 an address beyond the space, s4 a misaligned one, s5 one in a hole. -/
theorem witness_CoxUniformWords :
    let s := coxWorld [0, 0x1000, 0x20000, 0x40000000000000, 0x1008, 0x20000000000] id
    let u := (s.core 0).cox.u
    s.RunsCox coxIssue ∧ coxIssue.core < 1728 ∧ (s.core 0).cox.cause = 0 ∧ coxIssue.kholds 0 u = true ∧
      coxIssue.kholds 1 u = false ∧ ((USrc.s 1).get u).toNat % 32 = 0 ∧ ((USrc.s 1).get u).toNat < 0x10000 ∧
      ((USrc.s 2).get u).toNat % 16 = 0 ∧ populated ((USrc.s 2).get u).toNat = true ∧ 0x10000 ≤ ((USrc.s 2).get u).toNat ∧
      s.owned 0 0 ((USrc.s 2).get u).toNat 4 = false ∧ ((USrc.s 0).get u).toNat % 2 ^ 32 ≤ s.num ((USrc.s 2).get u).toNat 4 ∧
      ¬ ((USrc.s 1).get u).toNat % 2 ^ 32 ≤ s.num ((USrc.s 2).get u).toNat 4 ∧ (USrc.s 3).get u >>> 54 ≠ 0 ∧
      (USrc.s 4).get u >>> 54 = 0 ∧ ((USrc.s 4).get u).toNat % 32 ≠ 0 ∧ (USrc.s 5).get u >>> 54 = 0 ∧
      ((USrc.s 5).get u).toNat % 32 = 0 ∧ populated ((USrc.s 5).get u).toNat = false :=
  ⟨⟨rfl, rfl⟩, by decide +kernel⟩

theorem witness_PrivilegeTraps :
    one.Runs (unit 1) demoGroup ∧ (coxWorld [] id).RunsCox coxIssue ∧ ((coxWorld [] id).core coxIssue.core).cox.cause = 0 :=
  ⟨⟨rfl, rfl, rfl⟩, ⟨rfl, rfl⟩, rfl⟩

/-! ### Engines -/

/-- Command 9 of team 0 and group 0. -/
def command (major : Nat) (ops : List DWord) (state : CmdState) : Cmd where
  id := 9
  tid := 0
  gkey := 0
  major := major
  f7 := 0
  addr := 0x2000
  cobj := 0
  ops := ops
  cvm := 0
  lrng := 0
  inputs := 0
  seq := false
  state := state
  status := 0
  flags := 0
  dflags := 0
  detail := 0
  slots := []
  order := 0
  claims := []
  spent := []
  noted := false
  orphan := false
  gbase := 0
  elem := 0
  rows := []
  replay := false
  disarm := false
  owns := []
  got := []

def engine (f : Core → Core) : State := { one with cores := [(0, f demoCore)] }

/-- A sort of four pairs from 0 to 64, by 32 and by 16 bits of their keys; and of none. -/
def sorting (k16 : Bool) (n : Nat) : Cmd :=
  { command 0x25 [w64 (2 ^ 32 * 64), w64 n, 0, 0] .queued with f7 := 0x10 * k16.toNat }

theorem witness_KeyedSorts :
    ∀ x ∈ [(false, 4), (true, 4), (false, 0)],
      let c := sorting x.1 x.2
      let s := engine fun k => { k with vq := [c] }
      (s.core 0).vq = [c] ∧ (s.core 0).dt = [] ∧ c.state = .queued ∧ c.major = 0x25 ∧ c.seq = false ∧
        c.f7 = 0x10 * x.1.toNat ∧ c.status = 0 ∧ c.ops = [BitVec.ofNat 64 (0 + 2 ^ 32 * 64), BitVec.ofNat 64 x.2, 0, 0] ∧
        x.2 ≤ 65536 ∧ tget s.teams c.tid = some demoTeam ∧ demoTeam.core = 0 ∧ demoTeam.badBytes = [] ∧
        (∀ z ∈ s.cores, ∀ y ∈ z.2.vq ++ z.2.dt, y.id = c.id) ∧ 0 + 8 * x.2 ≤ demoTeam.sBytes ∧
        64 + 8 * x.2 ≤ demoTeam.sBytes ∧ 0 + 8 * x.2 ≤ 64 := by
  intro x hx
  simp only [List.mem_cons, List.not_mem_nil, or_false] at hx
  rcases hx with rfl | rfl | rfl <;>
    exact ⟨rfl, rfl, rfl, rfl, by and_intros <;> first | rfl | decide⟩

/-- A finished command without a completion object, and one whose object stands at 0x1000. -/
def finished (cobj : DWord) : State := engine fun k => { k with vq := [{ command 0x20 [] .done with cobj := cobj }] }

theorem witness_CompletedCommands :
    (finished 0).core 0 = { demoCore with vq := [command 0x20 [] .done] } ∧
      let c := { command 0x20 [] .done with cobj := 0x1000 }
      let s1 := (((finished 0x1000).recordFailure 0 c).translate 0 ((finished 0x1000).teamAsid 0) 0x1000 .engWrite).2
      ((finished 0x1000).core 0).vq = [c] ∧ ((finished 0x1000).core 0).dt = [] ∧ c.state = .done ∧ c.major ≠ 0x22 ∧ c.inputs = 0 ∧
        (finished 0x1000).peerWaits = [] ∧ (∀ z ∈ (finished 0x1000).cores, ∀ y ∈ z.2.vq ++ z.2.dt, y.id = c.id) ∧ c.cobj ≠ 0 ∧ c.cobj.toNat % 16 = 0 ∧ ((finished 0x1000).die 0).faults = [] ∧
        ((finished 0x1000).recordFailure 0 c).translate 0 ((finished 0x1000).teamAsid c.tid) c.cobj.toNat .engWrite =
          (.to (.here 0x1000 false), s1) ∧
        s1.num 0x1000 16 / 2 ^ 96 = 0 :=
  ⟨rfl, rfl, rfl, rfl, by decide, rfl, rfl, by decide, by decide, by decide, rfl, Prod.ext (by decide +kernel) rfl,
    by decide +kernel⟩

/-- A task behind an issued one, without inputs; with 64 slots of ring 15, filled to the last and filled but for one. -/
def tasked (inputs : DWord) (filled : Nat) : State :=
  engine fun k =>
    { k with
      dt := [{ command 0x22 [] .issued with id := 8 }, { command 0x22 [] .queued with inputs := inputs }]
      rings := k.rings.set 15 ⟨true, 0, 0, 64, 256, 0, true, filled, 0, 0, 0⟩ }

theorem witness_TaskIssues :
    ∀ x ∈ [(0, 0), (2 ^ 11 + 16 * 64 + 15, 64), (2 ^ 11 + 16 * 64 + 15, 63)],
      let s := tasked (BitVec.ofNat 64 x.1) x.2
      let c := { command 0x22 [] .queued with inputs := BitVec.ofNat 64 x.1 }
      let l := [{ command 0x22 [] .issued with id := 8 }]
      (s.core 0).dt = l ++ [c] ∧ (∀ y ∈ l, y.state ≠ .queued) ∧ c.state = .queued ∧ (∀ y ∈ l, y.id ≠ c.id) ∧
        (s.core 0).tiles = [] ∧ (s.peekBlock 0 c).isSome = true ∧ (x.2 = 64 → ((s.core 0).ring 15).a + ((s.core 0).ring 15).claimed + 64 ≤ ((s.core 0).ring 15).f) ∧
        (x.2 = 63 → ((s.core 0).ring 15).f < ((s.core 0).ring 15).a + ((s.core 0).ring 15).claimed + 64) := by
  intro x hx
  simp only [List.mem_cons, List.not_mem_nil, or_false] at hx
  rcases hx with rfl | rfl | rfl <;>
    exact ⟨rfl, by decide, rfl, by decide, rfl, by decide +kernel⟩

/-- A task of 64 rows, 64 columns and one k-step that has begun; after its one step, when only its drain would be left. -/
def task (elem : Nat) (rows : List Nat) : Cmd :=
  { command 0x22 [0, 0, 0, 0, 0, 0x8000] .running with slots := [0, 0], elem := elem, rows := rows }

theorem witness_MatrixTasks :
    ∀ elem ∈ [0, 1],
      let c := task elem []
      let s := engine fun k => { k with dt := [c] }
      (s.core 0).vq = [] ∧ (s.core 0).dt = [c] ∧ c.major = 0x22 ∧ c.state = .running ∧ c.ops ≠ [] ∧ c.slots ≠ [] ∧ c.rows = [] ∧
        c.status = 0 ∧ s.peerWaits = [] ∧ (∀ x ∈ s.cores, x.2.tiles = []) ∧ tget s.teams c.tid = some demoTeam ∧
        c.task.sparse = false ∧ c.task.adapt = false ∧ c.task.drain % 4 = 0 ∧ c.task.trapNan = false ∧
        demoTeam.desc.trapNan = false ∧ c.elem ≤ c.task.ksteps := by
  intro elem he
  simp only [List.mem_cons, List.not_mem_nil, or_false] at he
  rcases he with rfl | rfl <;>
    exact ⟨rfl, rfl, rfl, rfl, by decide, by decide, rfl, rfl, rfl, by decide, rfl, by decide +kernel⟩

/-- A tile of one element behind one of an ordered round that must wait; a task stopped by a NaN. -/
def tile (ord : Option Nat) : PartTile := ⟨1, ord, 1, 1, [0x00FF], 0, 9⟩

theorem witness_Tiles :
    let s := engine fun k => { k with tiles := [tile (some 1), tile none] }
    (s.core 0).tiles = [tile (some 1)] ++ tile none :: [] ∧ (s.core 0).addable (tile (some 1)) = false ∧
      (s.core 0).addable (tile none) = true ∧ (tile none).slot < 2 ∧ (tile none).n ≤ 128 ∧
      (tile none).tile.length = (tile none).m * (tile none).n :=
  ⟨rfl, by decide +kernel⟩

theorem witness_Nans :
    let c := { task 1 [] with state := .nanStop false }
    let s := engine fun k => { k with dt := [c] }
    (s.core 0).vq = [] ∧ (s.core 0).dt = [c] ∧ c.major = 0x22 ∧ coreOf c.gkey = 0 ∧ c.orphan = false ∧ tget s.groups c.gkey = some demoGroup ∧
      demoGroup.stop = none ∧ tget { s with groups := [] }.groups c.gkey = none :=
  ⟨rfl, rfl, rfl, rfl, rfl, by and_intros <;> rfl⟩

/-- A copy of one 32-bit element from 0x2000, into lane ring 3 or into sparsity queue 3, its record read. -/
def copying (kind : Nat) : Cmd :=
  command 0x20 [0, 0, 0, w64 (kind + 2 ^ 8 * 3), w64 (0x2000 + 2 ^ 57), 0x100000001, 0x100000001, 1, 0, 0, 0, 0] .running

def filling (kind : Nat) : State :=
  engine fun k => { k with vq := [copying kind], rings := k.rings.set 3 ⟨true, 0, 0, 4, 256, 2, false, 0, 0, 0, 0⟩ }

theorem witness_RingAndQueueFills :
    ∀ kind ∈ [4, 5],
      let c := copying kind
      let s := filling kind
      (s.core 0).vq = [c] ∧ (s.core 0).dt = [] ∧ c.major = 0x20 ∧ c.state = .running ∧ c.ops.length = 12 ∧ c.slots = [] ∧
        s.peerWaits = [] ∧ tget s.teams c.tid = some demoTeam ∧ demoTeam.core = 0 ∧
        (∀ z ∈ s.cores, ∀ y ∈ z.2.vq ++ z.2.dt, y.id = c.id) ∧ (c.ops[3]?.getD 0).toNat % 16 = kind ∧
        (c.ops[3]?.getD 0).toNat / 2 ^ 8 % 16 = 3 ∧ c.shape.units = 1 ∧
        (let g := (s.core 0).ring 3
          let s0 := s.modCmd 0 c.id fun y => { y with slots := [g.f], owns := s.localOwn c.tid g.space (g.slotBase g.f) g.bytes }
          let ds := [(c.tid, g.space, g.slotBase g.f)]
          g.f ≠ g.r + g.slots ∧ c.elem = 0 ∧ (s0.copyIn 0 c c.shape ds 0 c.shape.units).2 = .ok ()) ∧
        (((s.core 0).sq[3]?).getD []).length < 256 ∧
        (({ s with fresh := s.fresh + 1 } : State).entryBytes 0 c c.shape c.elem
          ((List.range 1024).map fun j => Config.freeByte (1024 * s.fresh + j)) (c.shape.entryUnits c.elem)).2.isOk = true := by
  intro kind hk
  simp only [List.mem_cons, List.not_mem_nil, or_false] at hk
  rcases hk with rfl | rfl <;>
    exact ⟨rfl, rfl, rfl, rfl, rfl, rfl, rfl, rfl, by decide +kernel⟩

/-- Row 0 is pending after the task's one k-step: its id is 0; or 1, with an entry whose reserved bit is set; or 1, with a good
entry. The adapter table stands at 0x2000. -/
def rowed (id entry : Nat) : State :=
  { engine fun k => { k with dt := [{ task 2 [0] with ops := [w64 (2 ^ 20 + 2 ^ 21), 0, 0, 0, 0, 0x2000, 0, 0x7E00000000] }] } with
    mem := mwrite tables 0x2010 (leBytes 16 entry), teams := [(0, { demoTeam with xbuf := mwrite [] 0 (leBytes 2 id) })] }

theorem witness_AdapterRows :
    ∀ x ∈ [(0, 0), (1, 2 ^ 95)],
      let s := rowed x.1 x.2
      ∃ c, (s.core 0).vq = [] ∧ (s.core 0).dt = [c] ∧ c.major = 0x22 ∧ c.state = .running ∧ c.slots ≠ [] ∧ c.rows = [0] ∧
        c.task.ksteps < c.elem ∧ s.peerWaits = [] ∧ leNat (s.localGet c.tid 3 (c.task.idoff + 2 * 0) 2) = x.1 ∧ c.status = 0 ∧
        (x.1 = 1 → (s.adapterEntry 0 c c.task.atab x.1).2 = .ok none ∧
          ((s.adapterEntry 0 c c.task.atab x.1).1.core 0).dt = [c] ∧ ((s.adapterEntry 0 c c.task.atab x.1).1.core 0).vq = []) := by
  intro x hx
  simp only [List.mem_cons, List.not_mem_nil, or_false] at hx
  rcases hx with rfl | rfl <;>
    exact ⟨_, rfl, rfl, rfl, rfl, by decide, rfl, by decide +kernel, rfl, by decide +kernel, rfl, by decide +kernel⟩

/-! ### The boathouse, the dies, the host -/

def record (mask : Nat) : List Word := [7, 8, w32 mask, 9, 10, 11, 12, 13]

/-- A signal of a node that needs two; records that are discarded, that fill a tile of two, that close one at once, that wait; a
timer at 4 units of 75/4 strokes, due at 75 and not at 74. -/
theorem witness_RecordsAndTiles :
    ((queued loadDesc 2 RecQueue.empty).findNode 0x1001 = some (0, 1, nodeOf loadDesc 2) ∧ (nodeOf loadDesc 2).ready = false ∧
      1 < (nodeOf loadDesc 2).need) ∧
    (∀ x ∈ [(0, ([] : List (List Word))), (1, [record 1]), (1 + 2 ^ 17, []), (1, [])],
      let s := queued recordDesc 0 { openQueue with arrive := [record x.1], opened := x.2 }
      let q := s.queue 0 0
      s.queueNode 0 0 = some (0, 1, nodeOf recordDesc 0) ∧ (s.die 0).pool.length < 8192 ∧ (nodeOf recordDesc 0).closed = false ∧
        q.arrive = [record x.1] ∧ (q.start = none ∨ recordDesc.flush = 0) ∧ ((record x.1)[2]?.getD 0).toNat = x.1 ∧
        (nodeOf recordDesc 0).desc.tile = 2 ∧ q.opened.length = x.2.length) ∧
    (∀ n ∈ [74, 75],
      let s := { queued recordDesc 0 { openQueue with opened := [record 1], start := some 0 } with stroke := w64 n }
      s.queueNode 0 0 = some (0, 1, nodeOf recordDesc 0) ∧ (s.die 0).pool.length < 8192 ∧ (s.queue 0 0).start = some 0 ∧
        (s.queue 0 0).closed = false ∧ (s.queue 0 0).opened ≠ [] ∧ (s.queue 0 0).arrive = [] ∧ (nodeOf recordDesc 0).desc.flush ≠ 0 ∧
        (75 * (nodeOf recordDesc 0).desc.flush ≤ 4 * (s.stroke - 0).toNat ↔ n = 75)) ∧
    let s := queued recordDesc 0 { openQueue with closed := true, opened := [record 1] }
    s.queueNode 0 0 = some (0, 1, nodeOf recordDesc 0) ∧ (s.queue 0 0).closed = true ∧ (s.queue 0 0).opened ≠ [] ∧
      (s.queue 0 0).arrive = [] ∧ (s.die 0).slip = [] := by
  refine ⟨⟨by decide +kernel, rfl, by decide⟩, fun x hx => ?_, fun n hn => ?_, by decide +kernel, rfl, by decide, rfl, rfl⟩
  · simp only [List.mem_cons, List.not_mem_nil, or_false] at hx
    rcases hx with rfl | rfl | rfl | rfl <;>
      exact ⟨by decide +kernel, by decide, rfl, rfl, .inl rfl, by decide, rfl, rfl⟩
  · simp only [List.mem_cons, List.not_mem_nil, or_false] at hn
    rcases hn with rfl | rfl <;>
      exact ⟨by decide +kernel, by decide, rfl, rfl, by decide +kernel⟩

def gridEntry (stop : Nat) : PoolEntry := ⟨.grid 1 0 stop, 2, 0, none, 2, false⟩

/-- The boathouse of die 0 holds a grid of one cluster, or of two; no team is on any core. -/
def dispatching (stop : Nat) : State :=
  State.reset.modDie 0 fun d => { d with pool := [gridEntry stop], nodes := [(1, nodeOf loadDesc 0)] }

theorem witness_Placements :
    ∀ stop ∈ [1, 2],
      let s := dispatching stop
      (s.die 0).pool = [gridEntry stop] ∧ (gridEntry stop).item = .grid 1 0 stop ∧ s.nodeAt 1 = some (nodeOf loadDesc 0) ∧
        loadDesc.cw = 1 ∧ loadDesc.ch = 1 ∧ loadDesc.groups ≤ 64 ∧ s.arb = [] ∧ s.teams = [] ∧ s.groups = [] ∧
        (s.die 0).vacates = [] ∧ (s.die 0).reserved = [] ∧ s.coreFits (216 * 0) loadDesc = true := by
  intro n hn
  simp only [List.mem_cons, List.not_mem_nil, or_false] at hn
  rcases hn with rfl | rfl <;>
    exact ⟨rfl, rfl, by decide +kernel, rfl, rfl, by decide, rfl, rfl, by decide +kernel⟩

def menued : State := { one with cores := [(0, { demoCore with menu := some 0 })] }

theorem witness_TeamStarts :
    (let s := menued
     tget s.teams 0 = some demoTeam ∧ demoTeam.cluster = [0] ∧ demoTeam.placed = true ∧ demoTeam.landed = true ∧
       (s.core demoTeam.core).menu = some demoTeam.desc.menu ∧ rising s.groups = true) ∧
      one.teamsOn 0 ≠ [] ∧ (∀ x ∈ one.teamsOn 0, x.desc.menu = 0) ∧ (one.core 0).menu ≠ some 0 :=
  ⟨⟨rfl, rfl, rfl, rfl, rfl, by decide⟩, by decide +kernel, by decide +kernel, by decide⟩

/-- The arbiter holds a grid of a node of die 0; a die whose cores all have teams of another menu entry, with an entry that has
been at 7 for 16384 strokes. -/
def arbitrated (stop : Nat) : State :=
  { State.reset.modDie 0 fun d => { d with nodes := [(1, nodeOf loadDesc 0)] } with arb := [⟨0, 1, 0, stop, 0, none, 0, []⟩] }

def starving : State :=
  { State.reset.modDie 0 fun d =>
      { d with pool := [⟨.grid 1 0 1, 7, 0, some 0, 7, false⟩], nodes := [(1, nodeOf loadDesc 0)] } with
    stroke := 16384
    teams := (List.range 216).map fun i => (i, { demoTeam with core := i, desc := { loadDesc with menu := 1 } }) }

def candidate (level : Nat) (arb : Bool) : Candidate := ⟨1, level, false, loadDesc, 1, 1, arb, 0, []⟩

theorem witness_ArbiterAgingReservation :
    (∀ stop ∈ [1, 2],
      let s := arbitrated stop
      s.asking = some (0, candidate 0 true, [0]) ∧ s.arb[(candidate 0 true).idx]? = some ⟨0, 1, 0, stop, 0, none, 0, []⟩ ∧
        tget (s.die 0).nodes 1 = some (nodeOf loadDesc 0)) ∧
      starving.reserver 0 = some (candidate 7 false) ∧ starving.spot 0 (candidate 7 false) true = some [0] ∧
      starving.arb = [] := by
  refine ⟨fun n hn => ?_, by decide +kernel, by decide +kernel, rfl⟩
  simp only [List.mem_cons, List.not_mem_nil, or_false] at hn
  rcases hn with rfl | rfl <;> exact ⟨by decide +kernel, rfl, rfl⟩

/-- The slipway of die 0 holds one item; a group may wait for room. -/
def slipping (x : SlipItem) (stalled : List Nat) : State :=
  one.modDie 0 fun d => { d with slip := [x], stalled := stalled }

theorem witness_SlipwayReturns :
    (∀ st ∈ [[], [0]],
      let s := slipping (.pool (gridEntry 1)) st
      (s.die 0).slip = [.pool (gridEntry 1)] ∧ (s.die 0).nodes = [] ∧ (s.die 0).yielded = [] ∧ (s.die 0).moved = [] ∧
        (∀ y ∈ (s.core 0).posted, y.wait ≠ some .slipway) ∧ (s.die 0).stalled = st ∧
        (s.die 0).pool.length < 8191 ∧ tget s.groups 0 = some demoGroup) ∧
      ((slipping (.record 0 (record 1)) []).die 0).records < 16384 :=
  ⟨fun st hs => by
    simp only [List.mem_cons, List.not_mem_nil, or_false] at hs
    rcases hs with rfl | rfl <;> exact ⟨rfl, rfl, rfl, rfl, by decide, rfl, by decide, rfl⟩, by decide +kernel⟩

/-- The queue that an item of the slipway returns to can be bound though the table of its own die is empty: it stands in die 1's. -/
def elsewhere : State :=
  ((one.modDie 0 fun d => { d with slip := [.record 0 (record 1)], queues := [(0, { openQueue with node := some (2 ^ 25 + 0x1001) })] }).modDie 1
    fun d => { d with nodes := [(1, nodeOf recordDesc 0)] })

theorem witness_SlipwayReturns_record :
    (elsewhere.die 0).slip = [.record 0 (record 1)] ∧ (elsewhere.die 0).nodes = [] ∧ (elsewhere.die 0).yielded = [] ∧
      (elsewhere.die 0).moved = [] ∧ (elsewhere.die 0).stalled = [] ∧ (elsewhere.die 0).records < 16384 ∧ (elsewhere.queueNode 0 0).isSome = true :=
  ⟨rfl, rfl, rfl, rfl, rfl, by decide +kernel⟩

def emptied (st : LaneState) : Group := groupOf (fun p => { demoLane p with state := st }) []

/-- The team of core 0 runs the only cluster of a node: all its lanes have exited, or wait for the next phase. -/
def ending (st : LaneState) (d : NodeDesc) : State :=
  { (world (emptied st) (unit 1)).modDie 0 fun e => { e with nodes := [(1, nodeOf d 0)], phbase := 2 ^ 18 + 1 } with
    teams := [(0, { demoTeam with handle := 0x1001 })] }

theorem of_dies (s : State) (h : ∀ x ∈ s.dies.toList, x.cells = [] ∧ x.yielded = []) (i : Nat) :
    (s.die i).cells = [] ∧ (s.die i).yielded = [] := by
  unfold State.die
  by_cases hi : i < 8
  · rw [Vector.getElem?_eq_getElem hi]; exact h _ (by simp)
  · rw [Vector.getElem?_eq_none (by omega)]; exact ⟨rfl, rfl⟩

theorem witness_EndsOfTeams :
    (∀ n ∈ [1, 2],
      let d := { loadDesc with gx := n }
      let s := ending .exited d
      tget s.teams 0 = some { demoTeam with handle := 0x1001 } ∧ demoTeam.core < 1728 ∧ s.teamGone 0 = true ∧ s.teamBusy 0 = false ∧
        demoTeam.kind = .grid ∧ demoTeam.counted = false ∧ s.findNode 0x1001 = some (0, 1, nodeOf d 0) ∧ d.rqen = false ∧ d.cobj = 0 ∧
        (∀ i, (s.die i).cells = [] ∧ (s.die i).yielded = []) ∧ rising s.groups = true ∧ d.gx * d.gy * d.gz * d.cw * d.ch = n) ∧
      let s := ending (.parked .phaseYield) loadDesc
      s.phaseDue 0 = true ∧ (s.die 0).freePhase = some 0 ∧ demoTeam.cluster = [0] ∧ (s.die 0).yielded = [] ∧
        (s.die 0).pool.length < 8192 := by
  refine ⟨fun n hn => ?_, by decide +kernel, by decide +kernel, rfl, rfl, by decide⟩
  simp only [List.mem_cons, List.not_mem_nil, or_false] at hn
  rcases hn with rfl | rfl <;>
    exact ⟨rfl, by decide, by decide +kernel, by decide +kernel, rfl, rfl, by decide +kernel, rfl, rfl, of_dies _ (by decide +kernel), by decide⟩

/-- A firing of two callers that has still to start its one run. -/
def fired : Firing := { firing with thread := none, block := false }

theorem witness_GatherFirings :
    let tm := { demoTeam with firings := [fired] }
    let s := { one with teams := [(0, tm)] }
    tget s.teams 0 = some tm ∧ fired.runs = [⟨0x10018, [(0, 0), (0, 1)]⟩] ∧ fired.begun = true ∧ fired.thread = none ∧
      fired.stuck = false ∧ fired.wait = none ∧ demoGroup.stop = none ∧ tget s.groups 0 = some demoGroup ∧
      one.HasHeader 0 0x10018 2 (w32 (header 2)) ∧ coreOf 0 = tm.core ∧ 1 ≤ tm.quota ∧ 1 ≤ tm.wslots ∧
      ∃ j, j < 64 ∧ tget s.groups (64 * 0 + j) = none :=
  ⟨rfl, rfl, rfl, rfl, rfl, rfl, rfl, rfl, header_at demoGroup 0x10018 2 (by decide +kernel), by decide, by decide,
    by decide, 1, by decide, rfl⟩

/-! ### Traps and events of the die -/

/-- Core 0 has a full queue of reports, or an empty one; its stopped group waits for a place. -/
def admitting (n : Nat) : State :=
  { halted 4 [] with cores := [(0, { demoCore with trapWait := [0], reports := List.replicate n (trapReport 4) })] }

theorem witness_FetchTraps :
    one.Runs (unit 1) demoGroup ∧ tget one.teams demoGroup.tid = some demoTeam ∧ demoTeam.desc.autoLand = false ∧
      (coxWorld [] id).RunsCox coxIssue ∧ ((coxWorld [] id).core 0).cox.cause = 0 ∧
      ∀ n ∈ [0, 63, 64], ((admitting n).core 0).trapWait = [0] ∧ ((admitting n).core 0).reports.length = n ∧
        tget (admitting n).groups 0 = some { demoGroup with stop := some (stopped 4) } ∧ (stopped 4).reason = 1 := by
  refine ⟨⟨rfl, rfl, rfl⟩, rfl, rfl, ⟨rfl, rfl⟩, rfl, fun n hn => ?_⟩
  simp only [List.mem_cons, List.not_mem_nil, or_false] at hn
  rcases hn with rfl | rfl | rfl <;> exact ⟨rfl, rfl, rfl, rfl⟩

/-- A group whose lane 3 waits for a page, one whose lane 3 waits for a route to device 0. -/
def parkedLane (w : ParkWhy) : Group :=
  groupOf (fun p => if p = 3 then { demoLane 3 with state := .parked w } else demoLane p) []

theorem witness_SystemRegisterEvents :
    ∀ i < 2,
      let g := parkedLane (if i = 0 then .fault 0 7 else .peer 0)
      let s := world g (unit 1)
      tget s.groups 0 = some g ∧ s.noRunWaits ∧ rising s.groups = true ∧ coreOf 0 < 1728 ∧ dieOf (coreOf 0) = 0 ∧
        (∀ x ∈ s.cores, x.2.posted = []) ∧ (∀ d ∈ s.dies.toList, d.faults = []) ∧
        (g.lane 3).state = .parked (if i = 0 then .fault 0 7 else .peer s.wrsel.toNat) := by
  intro i hi
  match i, hi with
  | 0, _ => exact ⟨rfl, by unfold State.noRunWaits; decide +kernel, by decide +kernel⟩
  | 1, _ => exact ⟨rfl, by unfold State.noRunWaits; decide +kernel, by decide +kernel⟩

/-- Die 0 holds an event; its ring of four slots at 0x100000 has had n events, of which none has been taken. -/
def eventful (n : Nat) : State :=
  withDie fun d => { d with evhold := [Event.plain 4], evbase := 0x100000, evsize := 4, evtail := w32 n }

theorem witness_EventRing :
    ∀ n ∈ [0, 3, 4],
      ((eventful n).die 0).evhold = [Event.plain 4] ∧ ((eventful n).die 0).evwait = [] ∧ ((eventful n).die 0).evbase ≠ 0 ∧
        ((((eventful n).die 0).evtail - ((eventful n).die 0).evhead).toNat < ((eventful n).die 0).evsize.toNat ↔ n < 4) ∧
        (((eventful n).die 0).evtail - w32 n).toNat < ((eventful n).die 0).evsize.toNat := by
  intro n hn
  simp only [List.mem_cons, List.not_mem_nil, or_false] at hn
  rcases hn with rfl | rfl | rfl <;> exact ⟨rfl, rfl, by decide +kernel⟩

/-- Core 0 is in the vacate set; its group runs, or its lanes are all parked. -/
def vacating (g : Group) : State := (world g (unit 1)).modDie 0 fun d => { d with vacset := [0] }

def vacate : Vacate := ⟨[0], [0], 0, false⟩

/-- The one team of core 0 is taken by a vacate; its group runs, or stands still. -/
def vacated (g : Group) : State :=
  (world g (unit 1)).modDie 0 fun d => { d with vacates := [vacate], ctxbase := 2 ^ 25 }

def still : Group := { demoGroup with stop := some { stopped 0 with reason := 2 } }

theorem witness_Vacates :
    (rising (vacating demoGroup).groups = true ∧ tget (vacating demoGroup).groups 0 = some demoGroup ∧
      tget (vacating demoGroup).teams 0 = some demoTeam ∧ (demoGroup.lane 0).runnable = true) ∧
    (let g := emptied (.parked .slipway)
     tget (vacating g).groups 0 = some g ∧ g.stop = none ∧ (∀ p, p < 32 → (g.lane p).runnable = false) ∧
       0 ∈ demoTeam.cluster ∧ 0 ∈ ((vacating g).die 0).vacset ∧ demoTeam.core = 216 * 0 + 0 ∧ demoTeam.die = 0) ∧
    (tget (vacated demoGroup).teams 0 = some demoTeam ∧ vacate ∈ ((vacated demoGroup).die 0).vacates ∧ 0 ∈ vacate.teams ∧
      demoTeam.core ∈ vacate.cores ∧ rising (vacated demoGroup).groups = true ∧ demoGroup.stop = none) ∧
    (vacated still).vacateDue 0 = some vacate ∧ vacate.teams = [0] ∧ vacate.cobj = 0 ∧ demoTeam.core ∈ vacate.cores ∧
      demoTeam.cluster = [0] ∧ demoTeam.kind = .grid ∧ ((vacated still).die 0).moved = [] ∧ ((vacated still).die 0).pool.length < 8192 := by
  have due : vacate ∈ ((vacated demoGroup).die 0).vacates ∧ 0 ∈ vacate.teams ∧ demoTeam.core ∈ vacate.cores ∧
      rising (vacated demoGroup).groups = true := by decide +kernel
  exact ⟨⟨by decide, rfl, rfl, by decide +kernel⟩, ⟨rfl, rfl, by decide +kernel⟩,
    ⟨rfl, due.1, due.2.1, due.2.2.1, due.2.2.2, rfl⟩, by decide +kernel⟩

/-- An MSR of `ringtab` of lane 0 at 0x10000, with the list at 0x1000, is held; a command of its team is in flight, or none. -/
def heldRings (cs : List Cmd) : State :=
  withData { one with
    groups := [(0, { demoGroup with hold := some (.ringtab 0x10000 0x10004 1 0x1000) })]
    cores := [(0, { demoCore with vq := cs })] } (leBytes 16 ringRecord)

theorem witness_HeldRingTables :
    (∀ b : Bool,
      let s := heldRings (if b then [{ copying 4 with slots := [3], state := .queued }] else [])
      let g := { demoGroup with hold := some (.ringtab 0x10000 0x10004 1 0x1000) }
      tget s.groups 0 = some g ∧ tget s.teams g.tid = some demoTeam ∧ g.stop = none ∧ s.ringBusy 0 0 = b) ∧
    let s := (heldRings []).setGroup 0 { demoGroup with hold := none }
    let c := ringtabIssue 0 0x10000 0x10004 1
    let r := (after s 0x1000 .load).num 0x1000 16
    c.First 0 ∧ s.Reaches c demoGroup 0x1000 16 .load 0x1000 (after s 0x1000 .load) ∧ r = ringRecord ∧
      ringRecord / 2 ^ 96 + (ringRecord / 2 ^ 48 % 64 + 1) * (256 * (ringRecord / 2 ^ 36 % 2 ^ 12)) ≤ demoTeam.wBytes ∧
      ((heldRings []).core 0).ring (ringRecord % 16) = Ring.reset := by
  refine ⟨fun b => ?_, by unfold Issue.First; decide,
    reaches _ (ringtabIssue 0 0x10000 0x10004 1) demoGroup 0x1000 16 .load 0x1000 (by decide +kernel), by decide +kernel⟩
  cases b <;> exact ⟨rfl, rfl, rfl, by decide +kernel⟩

/-! ### The host, peers and the module -/

/-- Queue 0 of die 0, 4 entries at host address 0x4000 and completions at 0x8000, with an entry at its head; it signals node 1. -/
def hostWorld (e : Nat) (need : Nat) (d : NodeDesc) (x : RecQueue) : State :=
  { queued d need x with
    dies := (queued d need x).dies.set 0
      { (queued d need x).die 0 with host := [(0, ⟨0x4000, 4, 0x8000, 0, 1, 0, 3, 0, none⟩)] }
    mem := mwrite tables 0x1000 (leBytes 256 goodDescriptor), hostMem := mwrite [] 0x4000 (leBytes 64 e) }

/-- Entries of a signal, of a close, and of submissions at 0x1000 and at a misaligned address. -/
def signalEntry : Nat := 2 + 2 ^ 16 * 77 + 2 ^ 64 * 0x1001
def closeEntry : Nat := 3 + 2 ^ 64 * 0x1001
def submitEntry (a : Nat) : Nat := 1 + 2 ^ 64 * a

/-- The state after the descriptor at 0x1000 has been read, and its node, on die 0. -/
def submitted : NodeDesc := { NodeDesc.parse goodDescriptor 56 with dies := 1 }

def entryAt (s : State) : Nat := s.num (hostBase + (s.hostQueue 0 0).base + 64 * ((s.hostQueue 0 0).head.toNat % (s.hostQueue 0 0).size)) 64

theorem witness_HostQueues :
    (∀ e ∈ [signalEntry, closeEntry, submitEntry 0x1000, submitEntry 0x1080],
      let s := hostWorld e 2 loadDesc RecQueue.empty
      let x := s.hostQueue 0 0
      s.powered = true ∧ s.frozen = false ∧ s.booted = true ∧ (s.die 0).slipRoom = 0 ∧ x.head ≠ x.tail ∧ x.size ≠ 0 ∧ x.held = none ∧ (s.die 0).pool.length < 8192 ∧ s.hostWaits = [] ∧
        x.vector.getLsbD 15 = false ∧ entryAt s = e ∧ e / 2 ^ 128 = 0 ∧ e / 2 ^ 8 % 2 ^ 8 = 0) ∧
      (signalEntry % 2 ^ 8 = 2 ∧ signalEntry / 2 ^ 64 = 0x1001 ∧
        (hostWorld signalEntry 2 loadDesc RecQueue.empty).findNode 0x1001 = some (0, 1, nodeOf loadDesc 2) ∧
        (hostWorld signalEntry 2 loadDesc RecQueue.empty).diesOk
          ((hostWorld signalEntry 2 loadDesc RecQueue.empty).die 0).owner (2 ^ 0) = true ∧ (nodeOf loadDesc 2).ready = false ∧ 1 < (nodeOf loadDesc 2).need) ∧
      (closeEntry % 2 ^ 8 = 3 ∧ closeEntry / 2 ^ 64 = 0x1001 ∧
        (hostWorld closeEntry 0 recordDesc openQueue).findNode 0x1001 = some (0, 1, nodeOf recordDesc 0) ∧
        (hostWorld closeEntry 0 recordDesc openQueue).diesOk
          ((hostWorld closeEntry 0 recordDesc openQueue).die 0).owner (2 ^ 0) = true ∧ recordDesc.rqen = true ∧ (nodeOf recordDesc 0).closed = false ∧ (nodeOf recordDesc 0).teams ≠ (nodeOf recordDesc 0).ended ∧
        recordDesc.rqid = 0 ∧ ((hostWorld closeEntry 0 recordDesc openQueue).queue 0 0).arrive = [] ∧
        ((hostWorld closeEntry 0 recordDesc openQueue).queue 0 0).opened = [] ∧
        ((hostWorld closeEntry 0 recordDesc openQueue).queue 0 0).start = none) ∧
      submitEntry 0x1080 % 2 ^ 8 = 1 ∧ submitEntry 0x1080 / 2 ^ 64 % 256 ≠ 0 ∧ submitEntry 0x1000 / 2 ^ 64 = 0x1000 := by
  refine ⟨fun e he => ?_, by decide +kernel⟩
  simp only [List.mem_cons, List.not_mem_nil, or_false] at he
  rcases he with rfl | rfl | rfl | rfl <;>
    exact ⟨rfl, rfl, rfl, by decide +kernel⟩

/-- A descriptor of the host that makes a node, and one that is rejected. -/
theorem witness_HostQueues_submit :
    ∀ x ∈ [(goodDescriptor, none), (0, some 1)],
      let s := { hostWorld (submitEntry 0x1000) 2 loadDesc RecQueue.empty with mem := mwrite tables 0x1000 (leBytes 256 x.1) }
      let s1 := afterNode s
      let d := { NodeDesc.parse x.1 56 with dies := 2 ^ 0 }
      s.readNode 0 (submitEntry 0x1000 / 2 ^ 52 % 2 ^ 12) 0x1000 .engRead = .ok (x.1, NodeDesc.parse x.1 56, true, s1) ∧
        (NodeDesc.parse x.1 56).dies = 0 ∧ nodeCause x.1 d true (s1.queueBound d) (s1.diesOk (s1.die 0).owner d.dies) = x.2 ∧
        (x.2 = some 1 → d.cobj = 0) ∧ (s1.die 0).nodes.length < 4096 ∧ (x.2 = none → 1 ≤ d.npred) := by
  intro x hx
  simp only [List.mem_cons, List.not_mem_nil, or_false] at hx
  rcases hx with rfl | rfl <;>
    exact ⟨readNode_eq _ _ _ _ (by decide +kernel), by decide +kernel⟩

/-- A vector whose message waits for its interval alone, one that is masked too; the ends of RESYNC with too small a buffer and
with one that is just large enough. -/
theorem witness_MessagesAndRegisters :
    one.powered = true ∧ one.frozen = false ∧
      (∀ m : Bool, let s := { one with msix := one.msix.set 1 [(5, ⟨m, true, true⟩)] }
        (s.vec 1 5).pending = true ∧ (s.vec 1 5).masked = m) ∧
      one.evEnable = 0 ∧ ({ one with rsStat := 1 } : State).rsStat = 1 ∧ (266239#64).toNat < 266240 ∧
      266240 ≤ (266240#64).toNat :=
  ⟨rfl, rfl, fun m => by cases m <;> exact ⟨rfl, rfl⟩, rfl, rfl, by decide, by decide⟩

/-- Lane 3 of the group waits for the answer with tag 9. -/
def answering : State :=
  { world (parkedLane (.reply 9)) (unit 1) with peerWaits := [(9, ⟨0, 3, none, 1, ⟨9, 0x1000, 4, [], 0x20, 0, 0, 0, false⟩, 0x1000, [(0, 3)], 8#32⟩)] }

theorem witness_PeersAndHostAccesses :
    one.powered = true ∧ one.frozen = false ∧ one.hostWaits = [] ∧ one.hostReaches 0x1000 16 = true ∧
      one.hostReaches 0x1FFFFFFFFF0 16 = false ∧ one.owned 0 0 0x1000 16 = false ∧ one.owned 0 0 0x1FFFFFFFFF0 16 = false ∧
      populated 0x1000 = true ∧ (∀ a, one.tag a = tagValue) ∧ (∀ n, one.owned 0 0 0x1000 n = false) ∧
      (let s := engine fun k => { k with vq := [{ copying 4 with owns := [⟨0, 0, 0x1000, 256⟩] }] }
       s.hostWaits = [] ∧ s.owned 0 0 0x1000 16 = true) ∧
      (∃ w, tget answering.peerWaits 9 = some w ∧ w.unit = none ∧ w.pos = 3 ∧ w.gkey = 0 ∧
        tget answering.groups w.gkey = some (parkedLane (.reply 9))) ∧
      ((parkedLane (.reply 9)).lane 3).state = .parked (.reply 9) ∧ answering.powered = true ∧ answering.frozen = false ∧
      (∀ x ∈ (answering.core (postCore 0)).posted, x.wait ≠ some (.reply 9)) ∧
      AtomicForm 0x29 6 8 false (fun _ b _ => some b) ∧ ({ one with frozen := true } : State).live = false := by
  have inside : one.hostReaches 0x1000 16 = true ∧ one.owned 0 0 0x1000 16 = false ∧ populated 0x1000 = true := by decide +kernel
  have outside : one.hostReaches 0x1FFFFFFFFF0 16 = false ∧ one.owned 0 0 0x1FFFFFFFFF0 16 = false := by decide +kernel
  have parked : ((parkedLane (.reply 9)).lane 3).state = .parked (.reply 9) := by decide +kernel
  exact ⟨rfl, rfl, rfl, inside.1, outside.1, inside.2.1, outside.2, inside.2.2, fun _ => rfl, fun _ => rfl, by decide +kernel,
    ⟨_, rfl, rfl, rfl, rfl, rfl⟩, parked, rfl, rfl, by decide,
    .inl ⟨.inr ⟨rfl, rfl⟩, .inr (.inr (.inr (.inr (.inr (.inr (.inl ⟨rfl, rfl, rfl⟩))))))⟩, rfl⟩

theorem witness_LinksAttestationPower :
    one.powered = true ∧ one.frozen = false ∧ ({ one with nonce := some 5 } : State).nonce = some 5 ∧
      ∀ i, i < 8 → (one.die i).throttle = 0 :=
  ⟨rfl, rfl, rfl, by decide +kernel⟩

/-- The three checks of an image rest on functions and fuses of which nothing is known: for this mailbox one of the four cases of
the statement applies. -/
theorem witness_ResetAndBoot :
    let s := { State.reset with mailbox := [1, 2, 3] }
    s.powered = true ∧ s.frozen = false ∧ s.booted = false ∧ ({ s with powered := false } : State).powered = false ∧
      ∀ a b c : Prop, ¬ a ∨ a ∧ ¬ b ∨ a ∧ b ∧ ¬ c ∨ a ∧ b ∧ c := by
  refine ⟨rfl, rfl, rfl, rfl, fun a b c => ?_⟩
  by_cases a <;> by_cases b <;> by_cases c <;> simp [*]

theorem witness_DebugPort :
    (∀ a ∈ [0x1008, 0x20000000000], a < 2 ^ 52 ∧ a % 8 = 0) ∧ populated 0x1008 = true ∧ populated 0x20000000000 = false ∧
      (∀ tags : Bool, ({ one with daddr := BitVec.ofNat 64 (0x1008 + if tags then 2 ^ 59 else 0) } : State).daddr =
        BitVec.ofNat 64 (0x1008 + if tags then 2 ^ 59 else 0)) ∧
      ({ one with dtag := true } : State).dtag = true ∧ one.dtag = false ∧
      ({ one with frozen := true } : State).frozen = true ∧ one.powered = true ∧ one.frozen = false ∧
      ({ one with powered := false } : State).powered = false ∧ (0x3F#6) ∉ [0x00#6, 0x01#6, 0x02#6, 0x10#6, 0x11#6, 0x12#6] :=
  ⟨by decide, by decide, by decide, fun _ => rfl, rfl, rfl, rfl, rfl, rfl, rfl, by decide⟩

/-! ### The step -/

/-- ADD v1, v2, v3. -/
def addWord : Word := 0x00084180

/-- Words placed for the next step by what stands before the unit (of the lane table: nothing, a GUARD by p5 complemented, a REP of
two issues that steps all three registers). -/
def placed (ws : List Word) : State := State.reset.placeWord ws

theorem witness_StepRunsUnit :
    let s := placed [addWord]
    s.agenda = [.issue 0] ∧ s.runs = true ∧ tget s.groups 0 = some loadGroup ∧ Group.open_ 0 loadGroup = true ∧
      ({ s with agenda := [] } : State).autoLanding 0 loadGroup = false ∧ (s.core 0).posted = [] ∧ loadGroup.pace (s.policy loadGroup) = some 0 ∧
      ((loadGroup.lane 0).vpc >>> 54 = 0 ∧ (s.core 0).fetchFor 0 (loadGroup.lane 0).vpc.toNat = .word addWord) ∧
      extensions addWord.toNat = 0 ∧ coxOnly addWord = false ∧ bits addWord.toNat 31 25 ≠ 0x5C ∧ bits addWord.toNat 31 25 ≠ 0x5D ∧
      decode [addWord] = .ok (.add (.v 1) (.v 2) (.v 3) false 0) ∧
      s.frameOver 0 loadGroup (loadGroup.issuing 0) (.add (.v 1) (.v 2) (.v 3) false 0) = none ∧
      loadGroup.staleLatch (loadGroup.issuing 0) (.add (.v 1) (.v 2) (.v 3) false 0) = none ∧
      loadGroup.badRegister (loadGroup.issuing 0) true (guardPred addWord []) (.add (.v 1) (.v 2) (.v 3) false 0) = none :=
  ⟨rfl, by decide +kernel, rfl, by decide +kernel⟩

theorem witness_StepRunsUnit_prefixes :
    (let s := placed [0xBA2C0000, addWord]
     decode [0xBA2C0000] = .ok (.guard 5 true) ∧ guardOk addWord 5 = true ∧
       (s.core 0).fetchFor 0 0x10000 = .word 0xBA2C0000 ∧ (s.core 0).fetchFor 0 0x10004 = .word addWord) ∧
      let s := placed [0xB8170000, addWord]
      let w' := stepWord addWord (loadGroup.lane 0).rep [⟨19, .lane, 1, 1⟩, ⟨13, .lane, 1, 1⟩, ⟨7, .lane, 1, 1⟩]
      decode [0xB8170000] = .ok (.rep 2 true true true) ∧ isPrefix addWord = false ∧ repable addWord = true ∧
        steppedFields (.add (.v 1) (.v 2) (.v 3) false 0) true true true = some [⟨19, .lane, 1, 1⟩, ⟨13, .lane, 1, 1⟩, ⟨7, .lane, 1, 1⟩] ∧
        (loadGroup.lane 0).rep = 0 ∧
        (∀ f ∈ ([⟨19, .lane, 1, 1⟩, ⟨13, .lane, 1, 1⟩, ⟨7, .lane, 1, 1⟩] : List StepField), f.ok addWord 2 = true) ∧
        decode [w'] = .ok (.add (.v 1) (.v 2) (.v 3) false 0) ∧
        (s.core 0).fetchFor 0 0x10000 = .word 0xB8170000 ∧ (s.core 0).fetchFor 0 0x10004 = .word addWord :=
  ⟨⟨by decide, by decide +kernel⟩, by decide, by decide +kernel⟩

theorem witness_StepRunsUnit_cox :
    let s := placed [0xE0000000]
    let x := (s.core 0).cox
    s.agenda = [.cox 0] ∧ s.runs = true ∧ x.halted = false ∧ x.pc.toNat < 0x10000 ∧
      leNat (mread x.mem x.pc.toNat 4) = (0xE0000000#32).toNat ∧ extensions (0xE0000000#32).toNat = 0 ∧
      bits (0xE0000000#32).toNat 31 25 ≠ 0x5C ∧ bits (0xE0000000#32).toNat 31 25 ≠ 0x5D ∧
      ∃ i, decode [0xE0000000] = .ok i ∧ x.staleLatch i = none ∧ x.badRegister false (guardPred 0xE0000000 []) i = none := by
  intro s x
  have fetched : s.runs = true ∧ x.halted = false ∧ x.pc.toNat < 0x10000 ∧
      leNat (mread x.mem x.pc.toNat 4) = (0xE0000000#32).toNat := by decide +kernel
  exact ⟨rfl, fetched.1, fetched.2.1, fetched.2.2.1, fetched.2.2.2, by decide, by decide, by decide, _, by rfl, by decide +kernel⟩

theorem witness_StepRunsUnit_event :
    ofUnit (.trapQueueAdmit 0) = false ∧ ofUnit .powerLoss = false ∧ fromOutside .powerLoss = true ∧
      ({ one with agenda := [.event (.trapQueueAdmit 0)], cur := none } : State).runs = true :=
  ⟨by decide, by decide, rfl, rfl⟩

/-- The destinations of ResultWrites: the last register of 32 bits, the last pair, z. -/
theorem witness_ResultWrites :
    (LDst.v 54).okWidth 2 = true ∧ (LDst.v 55).okWidth 2 = false ∧ LDst.z.okWidth 2 = true ∧ (0 : Nat) < 63 ∧ 63 < 64 := by decide

/-- Of DecodeOfEncode and UnassignedWords. -/
theorem witness_encodings :
    (Instr.mtask (.ext64 0x0000002000010000)).wf = true ∧ encode (.mtask (.ext64 0x0000002000010000)) ≠ [] ∧
      (0x0E000000#32).toNat / 2 ^ 25 = 0x07 ∧ (0x08000070#32).toNat / 2 ^ 25 = 0x04 ∧ (0x08000070#32).toNat / 2 ^ 4 % 8 = 7 ∧
      (0xD000001D#32).toNat / 2 ^ 25 = 0x68 ∧ (0xD000001D#32).toNat % 2 ^ 7 = 0x1D := by decide

noncomputable def answers (s : State) : Bool :=
  match step s with
  | .next _ => true
  | _ => false

theorem next_of_answers {s : State} (h : answers s = true) : ∃ t, step s = .next t := by
  unfold answers at h
  split at h
  · exact ⟨_, by assumption⟩
  · cases h

/-- A state between turns, with its memories in canonical form, from which a step leads on. -/
theorem witness_StepKeepsSettled :
    (placed [addWord]).Settled ∧ (placed [addWord]).memoryOk = true ∧ ∃ t, step (placed [addWord]) = .next t :=
  ⟨⟨rfl, by
    intro x hx
    have e : x = (0, loadGroup) := by
      have : (placed [addWord]).groups = [(0, loadGroup)] := rfl
      rw [this] at hx; simpa using hx
    subst e; unfold Group.demOk; decide +kernel⟩, by decide +kernel, next_of_answers (by decide +kernel)⟩

/-- The third case of AdapterRows: the entry of id 1 is good, and the cache holds its lines (short ones, whose absent elements read as zero). -/
def corrected : State :=
  (rowed 1 (0x10 + 2 ^ 46 * 0x20)).modCore 0 fun k =>
    { k with adapters := [⟨1, 0, 0, 0, [], false, false⟩, ⟨1, 0, 0, 1, [], false, false⟩] }

theorem witness_AdapterRows_corrected :
    let s := corrected
    ∃ c e, (s.core 0).dt = [c] ∧ c.rows = [0] ∧ leNat (s.localGet c.tid 3 (c.task.idoff + 2 * 0) 2) = 1 ∧
      (s.adapterEntry 0 c c.task.atab 1).2 = .ok (some e) ∧ e.serves c.task = true ∧
      ((s.adapterEntry 0 c c.task.atab 1).1.correct 0 c e c.task 0 1).2 = .ok none :=
  ⟨_, ⟨0, false, 8, 0x2000, 0x1000⟩, rfl, rfl, by decide +kernel⟩

theorem witness_AdapterCorrections :
    let s := corrected
    let c := { task 2 [0] with ops := [w64 (2 ^ 20 + 2 ^ 21), 0, 0, 0, 0, 0x2000, 0, 0x7E00000000] }
    let e : AdEntry := ⟨0, false, 8, 0x2000, 0x1000⟩
    let t := c.task
    ∃ l, (s.core 0).adLine 1 t.layer 0 0 = some l ∧ t.blocks = 1 ∧ (s.core 0).adLine 1 t.layer 0 1 = some ⟨1, 0, 0, 1, [], false, false⟩ ∧
      t.slot < 2 ∧ t.n ≤ 128 ∧ (s.correct 0 c e t 0 1).2 = .ok none :=
  ⟨⟨1, 0, 0, 0, [], false, false⟩, by decide +kernel⟩

/-! ### Decoding: words written out from the spec's formats, registers 8, 16 and 24 in the fields d, a and b -/

theorem test_decode_intArith :
    decode [0x00420C0B] = .ok (.add (.v 8) (.v 16) (.v 24) true 3) ∧
    decode [0x00420C1B] = .ok (.sub (.v 8) (.v 16) (.v 24) true 3) ∧
    decode [0x00420C2B] = .ok (.minI (.v 8) (.v 16) (.v 24) true 3) ∧
    decode [0x00420C3B] = .ok (.maxI (.v 8) (.v 16) (.v 24) true 3) ∧
    decode [0x00420C4B] = .ok (.minN (.v 8) (.v 16) (.v 24) true 3) ∧
    decode [0x00420C5B] = .ok (.maxN (.v 8) (.v 16) (.v 24) true 3) ∧
    decode [0x0042006B] = .ok (.abs (.v 8) (.v 16) true 3) ∧
    decode [0x0042007B] = .ok (.neg (.v 8) (.v 16) true 3) := by decide

theorem test_decode_intLogic :
    decode [0x02420C0B] = .ok (.and (.v 8) (.v 16) (.v 24) true 3) ∧
    decode [0x02420C1B] = .ok (.or (.v 8) (.v 16) (.v 24) true 3) ∧
    decode [0x02420C2B] = .ok (.xor (.v 8) (.v 16) (.v 24) true 3) ∧
    decode [0x02420C3B] = .ok (.andn (.v 8) (.v 16) (.v 24) true 3) ∧
    decode [0x02420C4B] = .ok (.shl (.v 8) (.v 16) (.v 24) true 3) ∧
    decode [0x02420C5B] = .ok (.shr (.v 8) (.v 16) (.v 24) true 3) ∧
    decode [0x02420C6B] = .ok (.sar (.v 8) (.v 16) (.v 24) true 3) ∧
    decode [0x02420C7B] = .ok (.rol (.v 8) (.v 16) (.v 24) true 3) := by decide

theorem test_decode_intMul :
    decode [0x04420C0B] = .ok (.mul (.v 8) (.v 16) (.v 24) true 3) ∧
    decode [0x04420C1B] = .ok (.mulhI (.v 8) (.v 16) (.v 24) true 3) ∧
    decode [0x04420C2B] = .ok (.mulhN (.v 8) (.v 16) (.v 24) true 3) ∧
    decode [0x04420C3B] = .ok (.mad (.v 8) (.v 16) (.v 24) true 3) ∧
    decode [0x04420C4B] = .ok (.divI (.v 8) (.v 16) (.v 24) true 3) ∧
    decode [0x04420C5B] = .ok (.divN (.v 8) (.v 16) (.v 24) true 3) ∧
    decode [0x04420C6B] = .ok (.remI (.v 8) (.v 16) (.v 24) true 3) ∧
    decode [0x04420C7B] = .ok (.remN (.v 8) (.v 16) (.v 24) true 3) := by decide

theorem test_decode_intBits :
    decode [0x0642000B] = .ok (.clz (.v 8) (.v 16) true 3) ∧
    decode [0x0642001B] = .ok (.popc (.v 8) (.v 16) true 3) ∧
    decode [0x0642002B] = .ok (.brev (.v 8) (.v 16) true 3) ∧
    decode [0x06420C3B] = .ok (.bfeI (.v 8) (.v 16) (.v 24) true 3) ∧
    decode [0x06420C4B] = .ok (.bfeN (.v 8) (.v 16) (.v 24) true 3) ∧
    decode [0x06420C5B] = .ok (.bfi (.v 8) (.v 16) (.v 24) true 3) ∧
    decode [0x06420C6B] = .ok (.bmix (.v 8) (.v 16) (.v 24) true 3) ∧
    decode [0x06420C7B] = .ok (.sext (.v 8) (.v 16) (.v 24) true 3) := by decide

theorem test_decode_intCompare :
    decode [0x08420C03] = .ok (.eq 8 (.v 16) (.v 24) 3) ∧
    decode [0x08420C13] = .ok (.ne 8 (.v 16) (.v 24) 3) ∧
    decode [0x08420C23] = .ok (.ltI 8 (.v 16) (.v 24) 3) ∧
    decode [0x08420C33] = .ok (.leI 8 (.v 16) (.v 24) 3) ∧
    decode [0x08420C43] = .ok (.ltN 8 (.v 16) (.v 24) 3) ∧
    decode [0x08420C53] = .ok (.leN 8 (.v 16) (.v 24) 3) ∧
    decode [0x08420C63] = .ok (.tst 8 (.v 16) (.v 24) 3) := by decide

theorem test_decode_predicates :
    decode [0x0A420C03] = .ok (.pand 8 16 24 3) ∧
    decode [0x0A420C13] = .ok (.por 8 16 24 3) ∧
    decode [0x0A420C23] = .ok (.pxor 8 16 24 3) ∧
    decode [0x0A420C33] = .ok (.pandn 8 16 24 3) ∧
    decode [0x0A420043] = .ok (.pnot 8 16 3) ∧
    decode [0x0A42005B] = .ok (.ptov (.v 8) 16 true 3) ∧
    decode [0x0A420063] = .ok (.vtop 8 (.v 16) 3) := by decide

theorem test_decode_moves :
    decode [0x0C42000B] = .ok (.mov (.v 8) (.v 16) true 3) ∧
    decode [0x0C420C1B] = .ok (.sel (.v 8) (.v 16) (.v 24) true 3) ∧
    decode [0x0C42002B] = .ok (.movs (.v 8) (.s 16) true 3) ∧
    decode [0x0C42003B] = .ok (.movu (.v 8) (.s 16) true 3) ∧
    decode [0x0C420C4B] = .ok (.add64 (.v 8) (.v 16) (.v 24) true 3) ∧
    decode [0x0C420C5B] = .ok (.sub64 (.v 8) (.v 16) (.v 24) true 3) ∧
    decode [0x0C420C6B] = .ok (.shl64 (.v 8) (.v 16) (.v 24) true 3) ∧
    decode [0x0C420C7B] = .ok (.lea (.v 8) (.v 16) (.v 24) true 3) := by decide

theorem test_decode_laneImmediates :
    decode [0x10421FFB] = .ok (.addi (.v 8) (.v 16) 0x1FFB#13) ∧
    decode [0x12421FFB] = .ok (.andi (.v 8) (.v 16) 0x1FFB#13) ∧
    decode [0x14421FFB] = .ok (.ori (.v 8) (.v 16) 0x1FFB#13) ∧
    decode [0x16421FFB] = .ok (.xori (.v 8) (.v 16) 0x1FFB#13) ∧
    decode [0x18420002] = .ok (.shiShl (.v 8) (.v 16) 2) ∧
    decode [0x18420802] = .ok (.shiShr (.v 8) (.v 16) 2) ∧
    decode [0x18421002] = .ok (.shiSar (.v 8) (.v 16) 2) ∧
    decode [0x18421802] = .ok (.shiRol (.v 8) (.v 16) 2) ∧
    decode [0x1A4203F9] = .ok (.cmpiEq 8 (.v 16) 0x3F9#10) ∧
    decode [0x1A4207F9] = .ok (.cmpiNe 8 (.v 16) 0x3F9#10) ∧
    decode [0x1A420BF9] = .ok (.cmpiLtI 8 (.v 16) 0x3F9#10) ∧
    decode [0x1A420FF9] = .ok (.cmpiLeI 8 (.v 16) 0x3F9#10) ∧
    decode [0x1A4213F9] = .ok (.cmpiLtN 8 (.v 16) 0x3F9#10) ∧
    decode [0x1A4217F9] = .ok (.cmpiLeN 8 (.v 16) 0x3F9#10) ∧
    decode [0x1A421BF9] = .ok (.cmpiTst 8 (.v 16) 0x3F9#10) ∧
    decode [0x1C401FFB] = .ok (.movi (.v 8) 0x1FFB#13) ∧
    decode [0x1E421FFB] = .ok (.leai (.v 8) (.v 16) 0x1FFB#13) := by decide

theorem test_decode_fp32 :
    decode [0x20420C0B] = .ok (.fadd (.v 8) (.v 16) (.v 24) true 3) ∧
    decode [0x20420C1B] = .ok (.fsub (.v 8) (.v 16) (.v 24) true 3) ∧
    decode [0x20420C2B] = .ok (.fmul (.v 8) (.v 16) (.v 24) true 3) ∧
    decode [0x20420C3B] = .ok (.ffma (.v 8) (.v 16) (.v 24) true 3) ∧
    decode [0x20420C4B] = .ok (.fmin (.v 8) (.v 16) (.v 24) true 3) ∧
    decode [0x20420C5B] = .ok (.fmax (.v 8) (.v 16) (.v 24) true 3) ∧
    decode [0x20420C6B] = .ok (.fnma (.v 8) (.v 16) (.v 24) true 3) ∧
    decode [0x20420C7B] = .ok (.fdiv (.v 8) (.v 16) (.v 24) true 3) ∧
    decode [0x22420C03] = .ok (.fcmpEq 8 (.v 16) (.v 24) 3) ∧
    decode [0x22420C13] = .ok (.fcmpNe 8 (.v 16) (.v 24) 3) ∧
    decode [0x22420C23] = .ok (.fcmpLt 8 (.v 16) (.v 24) 3) ∧
    decode [0x22420C33] = .ok (.fcmpLe 8 (.v 16) (.v 24) 3) ∧
    decode [0x22420C43] = .ok (.fcmpUn 8 (.v 16) (.v 24) 3) ∧
    decode [0x22420C53] = .ok (.fcmpTolt 8 (.v 16) (.v 24) 3) ∧
    decode [0x22420C63] = .ok (.fcmpTole 8 (.v 16) (.v 24) 3) ∧
    decode [0x22420C73] = .ok (.fcmpClass 8 (.v 16) (.v 24) 3) := by decide

theorem test_decode_fp64AndHalves :
    decode [0x24420C0B] = .ok (.dadd (.v 8) (.v 16) (.v 24) true 3) ∧
    decode [0x24420C1B] = .ok (.dsub (.v 8) (.v 16) (.v 24) true 3) ∧
    decode [0x24420C2B] = .ok (.dmul (.v 8) (.v 16) (.v 24) true 3) ∧
    decode [0x24420C3B] = .ok (.dfma (.v 8) (.v 16) (.v 24) true 3) ∧
    decode [0x24420C4B] = .ok (.dmin (.v 8) (.v 16) (.v 24) true 3) ∧
    decode [0x24420C5B] = .ok (.dmax (.v 8) (.v 16) (.v 24) true 3) ∧
    decode [0x24420C6B] = .ok (.ddiv (.v 8) (.v 16) (.v 24) true 3) ∧
    decode [0x2442007B] = .ok (.dsqrt (.v 8) (.v 16) true 3) ∧
    decode [0x26420C0B] = .ok (.haddF16 (.v 8) (.v 16) (.v 24) true 3) ∧
    decode [0x26420C1B] = .ok (.hmulF16 (.v 8) (.v 16) (.v 24) true 3) ∧
    decode [0x26420C2B] = .ok (.hfmaF16 (.v 8) (.v 16) (.v 24) true 3) ∧
    decode [0x26420C3B] = .ok (.haddBf16 (.v 8) (.v 16) (.v 24) true 3) ∧
    decode [0x26420C4B] = .ok (.hmulBf16 (.v 8) (.v 16) (.v 24) true 3) ∧
    decode [0x26420C5B] = .ok (.hfmaBf16 (.v 8) (.v 16) (.v 24) true 3) ∧
    decode [0x26420C6B] = .ok (.hmin (.v 8) (.v 16) (.v 24) true 3) ∧
    decode [0x26420C7B] = .ok (.hmax (.v 8) (.v 16) (.v 24) true 3) := by decide

theorem test_decode_conversions :
    decode [0x2842080B] = .ok (.cvtI32F32 (.v 8) (.v 16) 2 true 3) ∧
    decode [0x2842081B] = .ok (.cvtN32F32 (.v 8) (.v 16) 2 true 3) ∧
    decode [0x2842082B] = .ok (.cvtF32I32 (.v 8) (.v 16) 2 true 3) ∧
    decode [0x2842083B] = .ok (.cvtF32N32 (.v 8) (.v 16) 2 true 3) ∧
    decode [0x2842004B] = .ok (.cvtBf16F32 (.v 8) (.v 16) true 3) ∧
    decode [0x2842005B] = .ok (.cvtF16F32 (.v 8) (.v 16) true 3) ∧
    decode [0x2842006B] = .ok (.cvtF32Bf16 (.v 8) (.v 16) true 3) ∧
    decode [0x2842007B] = .ok (.cvtF32F16 (.v 8) (.v 16) true 3) ∧
    decode [0x2A42000B] = .ok (.cvtE4m3F32 (.v 8) (.v 16) true 3) ∧
    decode [0x2A42001B] = .ok (.cvtE5m2F32 (.v 8) (.v 16) true 3) ∧
    decode [0x2A42002B] = .ok (.cvtI8F32 (.v 8) (.v 16) true 3) ∧
    decode [0x2A4200AB] = .ok (.cvtI8I32 (.v 8) (.v 16) true 3) ∧
    decode [0x2A42003B] = .ok (.cvtI16F32 (.v 8) (.v 16) true 3) ∧
    decode [0x2A4200BB] = .ok (.cvtI16I32 (.v 8) (.v 16) true 3) ∧
    decode [0x2A42004B] = .ok (.cvtF32E4m3 (.v 8) (.v 16) true 3) ∧
    decode [0x2A42005B] = .ok (.cvtF32E5m2 (.v 8) (.v 16) true 3) ∧
    decode [0x2A42006B] = .ok (.cvtBf16F32Sr (.v 8) (.v 16) true 3) ∧
    decode [0x2A42007B] = .ok (.cvtE4m3F32Sr (.v 8) (.v 16) true 3) := by decide

theorem test_decode_blocksAndSpecials :
    decode [0x2C42000B] = .ok (.packF4b (.v 8) (.v 16) true 3) ∧
    decode [0x2C420C1B] = .ok (.unpkF4b (.v 8) (.v 16) (.v 24) true 3) ∧
    decode [0x2C420C2B] = .ok (.scaleF4b (.v 8) (.v 16) (.v 24) true 3) ∧
    decode [0x2C42003B] = .ok (.mx2f4b (.v 8) (.v 16) true 3) ∧
    decode [0x2E42000B] = .ok (.rcp (.v 8) (.v 16) true 3) ∧
    decode [0x2E42001B] = .ok (.rsq (.v 8) (.v 16) true 3) ∧
    decode [0x2E42002B] = .ok (.sqrt (.v 8) (.v 16) true 3) ∧
    decode [0x2E42003B] = .ok (.exp2 (.v 8) (.v 16) true 3) ∧
    decode [0x2E42004B] = .ok (.log2 (.v 8) (.v 16) true 3) ∧
    decode [0x2E42005B] = .ok (.sin (.v 8) (.v 16) true 3) ∧
    decode [0x2E42006B] = .ok (.cos (.v 8) (.v 16) true 3) ∧
    decode [0x2E42007B] = .ok (.tanh (.v 8) (.v 16) true 3) ∧
    decode [0x3042080B] = .ok (.frnd (.v 8) (.v 16) 2 true 3) ∧
    decode [0x3042001B] = .ok (.key3 (.v 8) (.v 16) true 3) ∧
    decode [0x3040002B] = .ok (.rng (.v 8) true 3) ∧
    decode [0x31E10033] = .ok (.seed (.v 8) 3) ∧
    decode [0x30420C4B] = .ok (.fscale (.v 8) (.v 16) (.v 24) true 3) ∧
    decode [0x3042005B] = .ok (.fexp (.v 8) (.v 16) true 3) := by decide

theorem test_decode_laneAccesses :
    decode [0x40420C23] = .ok (.ldg (.v 8) (.v 16) (.plain (.v 24)) 2 3) ∧
    decode [0x42420C23] = .ok (.stg (.v 8) (.v 16) (.plain (.v 24)) 2 3) ∧
    decode [0x44420C23] = .ok (.lds (.v 8) (.v 16) (.plain (.v 24)) 2 3) ∧
    decode [0x46420C23] = .ok (.sts (.v 8) (.v 16) (.plain (.v 24)) 2 3) ∧
    decode [0x48420C23] = .ok (.ldk (.v 8) (.v 16) (.plain (.v 24)) 2 3) ∧
    decode [0x4A420C23] = .ok (.stk (.v 8) (.v 16) (.plain (.v 24)) 2 3) ∧
    decode [0x4C420C23] = .ok (.stx (.v 8) (.v 16) (.plain (.v 24)) 2 3) ∧
    decode [0x4E420C23] = .ok (.ldp (.v 8) (.v 16) (.plain (.v 24)) 2 3) := by decide

theorem test_decode_atomics_1 :
    decode [0x50420C0B] = .ok (.atomgAdd (.v 8) (.v 16) (.v 24) true 3) ∧
    decode [0x50420C1B] = .ok (.atomgMinI (.v 8) (.v 16) (.v 24) true 3) ∧
    decode [0x50420C2B] = .ok (.atomgMaxI (.v 8) (.v 16) (.v 24) true 3) ∧
    decode [0x50420C3B] = .ok (.atomgAnd (.v 8) (.v 16) (.v 24) true 3) ∧
    decode [0x50420C4B] = .ok (.atomgOr (.v 8) (.v 16) (.v 24) true 3) ∧
    decode [0x50420C5B] = .ok (.atomgXor (.v 8) (.v 16) (.v 24) true 3) ∧
    decode [0x50420C6B] = .ok (.atomgExch (.v 8) (.v 16) (.v 24) true 3) ∧
    decode [0x50420C7B] = .ok (.atomgCas (.v 8) (.v 16) 24 true 3) ∧
    decode [0x52420C0B] = .ok (.atomgAddB64 (.v 8) (.v 16) (.v 24) true 3) ∧
    decode [0x52420C1B] = .ok (.atomgMinIB64 (.v 8) (.v 16) (.v 24) true 3) ∧
    decode [0x52420C2B] = .ok (.atomgMaxIB64 (.v 8) (.v 16) (.v 24) true 3) ∧
    decode [0x52420C3B] = .ok (.atomgAndB64 (.v 8) (.v 16) (.v 24) true 3) ∧
    decode [0x52420C4B] = .ok (.atomgOrB64 (.v 8) (.v 16) (.v 24) true 3) ∧
    decode [0x52420C5B] = .ok (.atomgXorB64 (.v 8) (.v 16) (.v 24) true 3) ∧
    decode [0x52420C6B] = .ok (.atomgExchB64 (.v 8) (.v 16) (.v 24) true 3) ∧
    decode [0x52420C7B] = .ok (.atomgCasB64 (.v 8) (.v 16) 24 true 3) ∧
    decode [0x54420C0B] = .ok (.atomgIncb (.v 8) (.v 16) (.v 24) true 3) ∧
    decode [0x54420C1B] = .ok (.atomgDecb (.v 8) (.v 16) (.v 24) true 3) ∧
    decode [0x54420C2B] = .ok (.atomgFadd (.v 8) (.v 16) (.v 24) true 3) ∧
    decode [0x54420C3B] = .ok (.atomgFmin (.v 8) (.v 16) (.v 24) true 3) ∧
    decode [0x54420C4B] = .ok (.atomgFmax (.v 8) (.v 16) (.v 24) true 3) ∧
    decode [0x54420C5B] = .ok (.atomgMinN (.v 8) (.v 16) (.v 24) true 3) ∧
    decode [0x54420C6B] = .ok (.atomgMaxN (.v 8) (.v 16) (.v 24) true 3) ∧
    decode [0x56420C03] = .ok (.atomsAdd (.v 8) (.v 16) (.v 24) 3) := by decide

theorem test_decode_atomics_2 :
    decode [0x56420C13] = .ok (.atomsMinI (.v 8) (.v 16) (.v 24) 3) ∧
    decode [0x56420C23] = .ok (.atomsMaxI (.v 8) (.v 16) (.v 24) 3) ∧
    decode [0x56420C33] = .ok (.atomsAnd (.v 8) (.v 16) (.v 24) 3) ∧
    decode [0x56420C43] = .ok (.atomsOr (.v 8) (.v 16) (.v 24) 3) ∧
    decode [0x56420C53] = .ok (.atomsExch (.v 8) (.v 16) (.v 24) 3) ∧
    decode [0x56420C63] = .ok (.atomsCas (.v 8) (.v 16) 24 3) ∧
    decode [0x56420C73] = .ok (.atomsIncb (.v 8) (.v 16) (.v 24) 3) ∧
    decode [0x58420C0A] = .ok (.xidx (.v 8) (.v 16) (.v 24) true 2) ∧
    decode [0x58420C1A] = .ok (.xxor (.v 8) (.v 16) (.v 24) true 2) ∧
    decode [0x58420C2A] = .ok (.xrot (.v 8) (.v 16) (.v 24) true 2) ∧
    decode [0x58420C3A] = .ok (.xshift (.v 8) (.v 16) (.v 24) true 2) ∧
    decode [0x58420C48] = .ok (.xlid (.v 8) (.v 16) (.v 24) true) ∧
    decode [0x58420052] = .ok (.pany 8 16 2) ∧
    decode [0x58420062] = .ok (.pall 8 16 2) ∧
    decode [0x5842007A] = .ok (.pmask (.v 8) 16 true 2) ∧
    decode [0x5A42000A] = .ok (.matchEq (.v 8) (.v 16) true 2) ∧
    decode [0x5A420C1A] = .ok (.compact (.v 8) (.v 16) 24 true 2) ∧
    decode [0x5A42002A] = .ok (.redAdd (.v 8) (.v 16) true 2) ∧
    decode [0x5A42003A] = .ok (.redFadd (.v 8) (.v 16) true 2) ∧
    decode [0x5A42004A] = .ok (.redMinI (.v 8) (.v 16) true 2) ∧
    decode [0x5A4200CA] = .ok (.redMinN (.v 8) (.v 16) true 2) ∧
    decode [0x5A42014A] = .ok (.redMinF (.v 8) (.v 16) true 2) ∧
    decode [0x5A42005A] = .ok (.redMaxI (.v 8) (.v 16) true 2) ∧
    decode [0x5A4200DA] = .ok (.redMaxN (.v 8) (.v 16) true 2) := by decide

theorem test_decode_atomics_3 :
    decode [0x5A42015A] = .ok (.redMaxF (.v 8) (.v 16) true 2) ∧
    decode [0x5A42006A] = .ok (.scanAdd (.v 8) (.v 16) true 2) ∧
    decode [0x5A42007A] = .ok (.mrank (.v 8) (.v 16) true 2) ∧
    decode [0x5C420C0A] = .ok (.garg (.v 8) (.v 16) (.v 24) true 2) ∧
    decode [0x5C420C12] = .ok (.gres (.v 8) (.v 16) (.v 24) 2) ∧
    decode [0x5E420003] = .ok (.rpush 8 (.v 16) 3) := by decide

theorem test_decode_laneControlAndExchanges :
    decode [0x6E420003] = .ok (.jml (.v 8) (.v 16) 3) ∧
    decode [0x60420C4B] = .ok (.mfragBf16 8 16 24 true true 3) ∧
    decode [0x62420C4B] = .ok (.mfragF16 8 16 24 true true 3) ∧
    decode [0x64420C4B] = .ok (.mfragE4m3 8 16 24 true true 3) ∧
    decode [0x66420C4B] = .ok (.mfragE5m2 8 16 24 true true 3) ∧
    decode [0x68420C6B] = .ok (.mfragF4b 8 16 24 true 2 true 3) ∧
    decode [0x6A420C4B] = .ok (.mfragI8 8 16 24 true true 3) ∧
    decode [0x6C2FFFFD] = .ok (.brl 5 true 0x3FFFD#18) := by decide

theorem test_decode_uniformArith :
    decode [0x80420C0B] = .ok (.uAdd (.s 8) (.s 16) (.s 24) true 3) ∧
    decode [0x80420C1B] = .ok (.uSub (.s 8) (.s 16) (.s 24) true 3) ∧
    decode [0x80420C2B] = .ok (.uMinI (.s 8) (.s 16) (.s 24) true 3) ∧
    decode [0x80420C3B] = .ok (.uMaxI (.s 8) (.s 16) (.s 24) true 3) ∧
    decode [0x80420C4B] = .ok (.uMinN (.s 8) (.s 16) (.s 24) true 3) ∧
    decode [0x80420C5B] = .ok (.uMaxN (.s 8) (.s 16) (.s 24) true 3) ∧
    decode [0x80420C6B] = .ok (.uMul (.s 8) (.s 16) (.s 24) true 3) ∧
    decode [0x80420C7B] = .ok (.uMulhN (.s 8) (.s 16) (.s 24) true 3) := by decide

theorem test_decode_uniformLogic :
    decode [0x82420C0B] = .ok (.uAnd (.s 8) (.s 16) (.s 24) true 3) ∧
    decode [0x82420C1B] = .ok (.uOr (.s 8) (.s 16) (.s 24) true 3) ∧
    decode [0x82420C2B] = .ok (.uXor (.s 8) (.s 16) (.s 24) true 3) ∧
    decode [0x82420C3B] = .ok (.uAndn (.s 8) (.s 16) (.s 24) true 3) ∧
    decode [0x82420C4B] = .ok (.uShl (.s 8) (.s 16) (.s 24) true 3) ∧
    decode [0x82420C5B] = .ok (.uShr (.s 8) (.s 16) (.s 24) true 3) ∧
    decode [0x82420C6B] = .ok (.uSar (.s 8) (.s 16) (.s 24) true 3) ∧
    decode [0x8242007B] = .ok (.uClz (.s 8) (.s 16) true 3) := by decide

theorem test_decode_uniformCompare :
    decode [0x84220C03] = .ok (.uEq 4 (.s 16) (.s 24) 3) ∧
    decode [0x84220C13] = .ok (.uNe 4 (.s 16) (.s 24) 3) ∧
    decode [0x84220C23] = .ok (.uLtI 4 (.s 16) (.s 24) 3) ∧
    decode [0x84220C33] = .ok (.uLeI 4 (.s 16) (.s 24) 3) ∧
    decode [0x84220C43] = .ok (.uLtN 4 (.s 16) (.s 24) 3) ∧
    decode [0x84220C53] = .ok (.uLeN 4 (.s 16) (.s 24) 3) ∧
    decode [0x84220C63] = .ok (.uTst 4 (.s 16) (.s 24) 3) := by decide

theorem test_decode_uniformMoves :
    decode [0x8642000B] = .ok (.uMov (.s 8) (.s 16) true 3) ∧
    decode [0x86420C1A] = .ok (.uSel (.s 8) (.s 16) (.s 24) true 2) ∧
    decode [0x8642002B] = .ok (.uMovs (.s 8) (.s 16) true 3) ∧
    decode [0x8620A133] = .ok (.kopAnd 4 5 2 3) ∧
    decode [0x8620A533] = .ok (.kopOr 4 5 2 3) ∧
    decode [0x8620A933] = .ok (.kopXor 4 5 2 3) ∧
    decode [0x8620AD33] = .ok (.kopAndn 4 5 2 3) ∧
    decode [0x8620B033] = .ok (.kopNot 4 5 3) ∧
    decode [0x8642004B] = .ok (.vtos (.s 8) (.v 16) true 3) ∧
    decode [0x8642005B] = .ok (.uPopc (.s 8) (.s 16) true 3) ∧
    decode [0x86420C6B] = .ok (.uDivN (.s 8) (.s 16) (.s 24) true 3) := by decide

theorem test_decode_control_1 :
    decode [0xAC000003] = .ok (.ret 3) ∧
    decode [0xAE010003] = .ok (.calli (.s 8) 3) ∧
    decode [0xB8170000] = .ok (.rep 2 true true true) ∧
    decode [0xBA2C0000] = .ok (.guard 5 true) ∧
    decode [0xBD42ABCD] = .ok (.hdr 2 true 2 0xABCD#16) ∧
    decode [0xA4420000] = .ok (.jseg (.s 8) (.s 16)) ∧
    decode [0xA6420000] = .ok (.cfetch (.s 8) (.s 16)) ∧
    decode [0xA8420000] = .ok (.widen (.s 8) (.v 16)) ∧
    decode [0xAA400001] = .ok (.gather (.s 8) true) ∧
    decode [0xB0000000] = .ok .barTeam ∧
    decode [0xB0000001] = .ok .barTeamYield ∧
    decode [0xB0000002] = .ok .barClus ∧
    decode [0xB0400003] = .ok (.barMask (.s 8)) ∧
    decode [0xB2100000] = .ok (.joinEnrol 2) ∧
    decode [0xB2100001] = .ok (.joinWait 2) ∧
    decode [0xB4400100] = .ok (.elect (.s 8) 2) ∧
    decode [0xB4100001] = .ok (.partitionWhole 2) ∧
    decode [0xB4100081] = .ok (.partitionB4 2) ∧
    decode [0xB4100101] = .ok (.partitionB8 2) ∧
    decode [0xB4100181] = .ok (.partitionB16 2) ∧
    decode [0xB4104201] = .ok (.partitionMask 2 (.s 2)) ∧
    decode [0xB4000002] = .ok .regroup ∧
    decode [0xB4420003] = .ok (.lmap (.s 8) (.s 16)) ∧
    decode [0xBE000000] = .ok .nop := by decide

theorem test_decode_control_2 :
    decode [0xBE000001] = .ok .exit ∧
    decode [0xBE000002] = .ok .brk ∧
    decode [0xBE400003] = .ok (.trap (.s 8)) ∧
    decode [0xBE000004] = .ok .region ∧
    decode [0xBE000005] = .ok .yield ∧
    decode [0xBE420006] = .ok (.cinv (.s 8) (.s 16)) ∧
    decode [0xBE420007] = .ok (.cinvSync (.s 8) (.s 16)) := by decide

theorem test_decode_uniformImmediates :
    decode [0x90421FFB] = .ok (.saddi (.s 8) (.s 16) 0x1FFB#13) ∧
    decode [0x92421FFB] = .ok (.sandi (.s 8) (.s 16) 0x1FFB#13) ∧
    decode [0x94421FFB] = .ok (.sori (.s 8) (.s 16) 0x1FFB#13) ∧
    decode [0x96420002] = .ok (.sshiShl (.s 8) (.s 16) 2) ∧
    decode [0x96420802] = .ok (.sshiShr (.s 8) (.s 16) 2) ∧
    decode [0x96421002] = .ok (.sshiSar (.s 8) (.s 16) 2) ∧
    decode [0x982203F9] = .ok (.scmpiEq 4 (.s 16) 0x3F9#10) ∧
    decode [0x982207F9] = .ok (.scmpiNe 4 (.s 16) 0x3F9#10) ∧
    decode [0x98220BF9] = .ok (.scmpiLtI 4 (.s 16) 0x3F9#10) ∧
    decode [0x98220FF9] = .ok (.scmpiLeI 4 (.s 16) 0x3F9#10) ∧
    decode [0x982213F9] = .ok (.scmpiLtN 4 (.s 16) 0x3F9#10) ∧
    decode [0x982217F9] = .ok (.scmpiLeN 4 (.s 16) 0x3F9#10) ∧
    decode [0x98221BF9] = .ok (.scmpiTst 4 (.s 16) 0x3F9#10) ∧
    decode [0x9A401FFB] = .ok (.smovi (.s 8) 0x1FFB#13) ∧
    decode [0x9C421FFB] = .ok (.sld (.s 8) (.s 16) 0x1FFB#13) := by decide

theorem test_decode_uniformAccessesAndBranches :
    decode [0x9E421FFB] = .ok (.sst (.s 8) (.s 16) 0x1FFB#13) ∧
    decode [0xA0FFFFF7] = .ok (.bra 3 true 0x1FFFF7#21) ∧
    decode [0xA2FFFFF7] = .ok (.call 3 true 0x1FFFF7#21) := by decide

theorem test_decode_engines :
    decode [0xC0420100] = .ok (.tcopy (.s 8) 16 (.s 2)) ∧
    decode [0xC2420100] = .ok (.tcopym (.s 8) 16 (.s 2)) ∧
    decode [0xC4400000] = .ok (.mtask (.s 8)) ∧
    decode [0xC6400001] = .ok (.drain (.s 8) true) ∧
    decode [0xC8420000] = .ok (.ringAcq (.s 8) (.s 16)) ∧
    decode [0xC8400001] = .ok (.ringRel (.s 8)) ∧
    decode [0xCA420110] = .ok (.keySort 8 (.s 16) (.s 2) true) ∧
    decode [0xCA420119] = .ok (.keyMerge 8 (.s 16) (.s 2) true true) ∧
    decode [0xCA420102] = .ok (.keyTopk 8 (.s 16) (.s 2)) ∧
    decode [0xCA420103] = .ok (.keyOffs 8 (.s 16) (.s 2)) ∧
    decode [0xCA420104] = .ok (.keyCheck 8 (.s 16) (.s 2)) := by decide

theorem test_decode_fencesCellsNodes :
    decode [0xCC420100] = .ok (.xlatb (.s 8) (.s 16) (.s 2)) ∧
    decode [0xCE400000] = .ok (.seq (.s 8)) ∧
    decode [0xD0000002] = .ok (.fence 2) ∧
    decode [0xD000000A] = .ok (.fenceAcq 2) ∧
    decode [0xD0000012] = .ok (.fenceRel 2) ∧
    decode [0xD000001A] = .ok (.fenceSc 2) ∧
    decode [0xD2420000] = .ok (.cwait (.s 8) (.s 16)) ∧
    decode [0xD4420000] = .ok (.suspend (.s 8) 16) ∧
    decode [0xD4400001] = .ok (.touch (.s 8)) ∧
    decode [0xD4420002] = .ok (.fulfill (.s 8) 16) ∧
    decode [0xD4420103] = .ok (.celltag (.s 8) (.s 16) (.s 2)) ∧
    decode [0xD6420000] = .ok (.nlaunch (.s 8) (.s 16)) ∧
    decode [0xD6010001] = .ok (.nsignal (.s 8)) ∧
    decode [0xD6420002] = .ok (.nqstat (.s 8) (.s 16)) ∧
    decode [0xD8412000] = .ok (.mrs (.u (.s 8)) 9) ∧
    decode [0xD8408001] = .ok (.msr (.u (.s 8)) 4) ∧
    decode [0xDA420100] = .ok (.adpf (.s 8) (.s 16) (.s 2)) := by decide

theorem test_decode_cox :
    decode [0xE0420100] = .ok (.dbgRd (.s 8) (.s 16) (.s 2)) ∧
    decode [0xE0420101] = .ok (.dbgWr (.s 8) (.s 16) (.s 2)) ∧
    decode [0xE2420000] = .ok (.ctxSave (.s 8) (.s 16)) ∧
    decode [0xE2400001] = .ok (.ctxLoad (.s 8)) ∧
    decode [0xE4400000] = .ok (.place (.s 8)) ∧
    decode [0xE6420000] = .ok (.evq (.s 8) (.s 16)) ∧
    decode [0xE8420000] = .ok (.pmsrRd (.s 8) 16) ∧
    decode [0xE8420001] = .ok (.pmsrWr (.s 8) 16) ∧
    decode [0xEA420000] = .ok (.cload (.s 8) (.s 16)) ∧
    decode [0xEC420000] = .ok (.rte (.s 8) (.s 16)) ∧
    decode [0xEE400000] = .ok (.kill (.s 8)) := by decide
/-- Extension words in the order of R43: code 62 of a lane field, 61 and 62 of a uniform one. -/
theorem test_decode_extensions :
    decode [0x00005F00, 0x12345678] = .ok (.add (.v 0) (.v 2) (.ext 0x12345678) false 0) ∧
    decode [0x80005E80, 0xFFFFFFFE] = .ok (.uAdd (.s 0) (.s 2) (.ext32 0xFFFFFFFE) false 0) ∧
    decode [0x80005F00, 0x00000001, 0x80000000] = .ok (.uAdd (.s 0) (.s 2) (.ext64 0x8000000000000001) false 0) := by decide

/-- Words of no instruction: a reserved major, funct 7 of major 0x04, register code 63, no extension word, ADD64 of an odd pair. -/
theorem test_decode_refuses :
    decode [0x0E000000] = .error .reservedMajor ∧ decode [0x08000070] = .error .unassigned ∧
      (decode [0x00005F80]).isOk = false ∧ (decode [0x00005F00]).isOk = false ∧ (decode [0x0C084240]).isOk = false := by decide

/-! ### Well-formedness: for each check a term that it refuses -/

theorem test_wf_operand :
    (Instr.add (.v 56) (.v 1) (.v 2) false 0).check = .error .operand ∧
      (Instr.add64 (.v 1) (.v 2) (.v 4) false 0).check = .error .operand ∧
      (Instr.uAdd (.s 56) (.s 1) (.s 2) false 0).check = .error .operand := by decide

theorem test_wf_field :
    (Instr.add (.v 1) (.v 2) (.v 3) false 8).check = .error .field ∧ (Instr.guard 64 false).check = .error .field ∧
      (Instr.eq 64 (.v 1) (.v 2) 0).check = .error .field := by decide

theorem test_wf_block : (Instr.tcopy (.s 1) 53 (.s 2)).check = .error .block := by decide

theorem test_wf_size : (Instr.stx (.v 1) (.v 2) (.plain .z) 7 0).check = .error .size := by decide

theorem test_wf_scope : (Instr.fence 6).check = .error .scope := by decide

theorem test_wf_number :
    (Instr.mrs (.u (.s 1)) 10).check = .error .number ∧ (Instr.msr (.u (.s 1)) 1).check = .error .number := by decide

theorem test_wf_fragment : (Instr.mfragBf16 8 8 16 false false 0).check = .error .fragment := by decide

theorem test_wf_extension :
    (Instr.add (.v 1) (.ext 1) (.ext 2) false 0).check = .error .extension ∧
      (Instr.add (.v 1) (.ext 1) (.ext 1) false 0).check = .ok () := by decide

/-! ### Words worked out in the spec (the tables of worked encodings) -/

theorem test_worked_integer :
    decode [0x00282100] = .ok (.add (.v 5) (.v 1) (.v 2) false 0) ∧ decode [0x05E02108] = .ok (.mul .z (.v 1) (.v 2) true 0) ∧
      decode [0x00270180] = .ok (.add (.v 4) (.l 0) (.v 3) false 0) ∧
      decode [0x0030DF00, 0x00010000] = .ok (.add (.v 6) (.v 6) (.ext 65536) false 0) ∧
      decode [0xBA640000] = .ok (.guard 12 true) ∧ decode [0xB8460000] = .ok (.rep 8 true true false) ∧
      decode [0x0C800000] = .ok (.mov (.v 16) (.v 0) false 0) := by decide

theorem test_worked_floats :
    decode [0x20202130] = .ok (.ffma (.v 4) (.v 1) (.v 2) false 0) ∧ decode [0x22286320] = .ok (.fcmpLt 5 (.v 3) (.v 6) 0) ∧
      decode [0x24414630] = .ok (.dfma (.v 8) (.v 10) (.v 12) false 0) ∧
      decode [0x2A384070] = .ok (.cvtE4m3F32Sr (.v 7) (.v 2) false 0) ∧ decode [0x2C204000] = .ok (.packF4b (.v 4) (.v 2) false 0) ∧
      decode [0x30488010] = .ok (.key3 (.v 9) (.v 4) false 0) ∧ decode [0x31E04030] = .ok (.seed (.v 2) 0) := by decide

theorem test_worked_parallel :
    decode [0xA8512000] = .ok (.widen (.s 10) (.v 9)) ∧ decode [0xAA500001] = .ok (.gather (.s 10) true) ∧
      decode [0xB0180003] = .ok (.barMask (.s 3)) ∧ decode [0xB2080001] = .ok (.joinWait 1) ∧
      decode [0xB4200100] = .ok (.elect (.s 4) 2) ∧ decode [0xB4100101] = .ok (.partitionB8 2) ∧
      decode [0xB428C003] = .ok (.lmap (.s 5) (.s 6)) ∧ decode [0x58184091] = .ok (.xxor (.v 3) (.v 2) (.v 1) false 1) ∧
      decode [0x5A288000] = .ok (.matchEq (.v 5) (.v 4) false 0) ∧ decode [0x5A30A070] = .ok (.mrank (.v 6) (.v 5) false 0) ∧
      decode [0x5A386150] = .ok (.redMaxF (.v 7) (.v 3) false 0) ∧ decode [0x5C202100] = .ok (.garg (.v 4) (.v 1) (.v 2) false 0) := by
  decide

theorem test_worked_memory :
    decode [0x44106220] = .ok (.lds (.v 2) (.v 3) (.plain (.v 4)) 2 0) ∧ decode [0x4A40DE30] = .ok (.stk (.v 8) (.v 6) (.plain .z) 3 0) ∧
      decode [0x4E103028] = .ok (.ldp (.v 2) (.v 1) (.ordered 4) 2 0) ∧ decode [0x50204370] = .ok (.atomgCas (.v 4) (.v 2) 6 false 0) ∧
      decode [0x53E04508] = .ok (.atomgAddB64 .z (.v 2) (.v 10) true 0) ∧ decode [0x563101F0] = .ok (.atomsIncb (.v 6) (.v 8) (.v 3) 0) ∧
      decode [0xD000000A] = .ok (.fenceAcq 2) ∧ decode [0xD24FA000, 1] = .ok (.cwait (.s 9) (.ext32 1)) ∧
      decode [0xD4008002] = .ok (.fulfill (.s 0) 4) ∧ decode [0xD4106283] = .ok (.celltag (.s 2) (.s 3) (.s 5)) := by decide

theorem test_worked_engines :
    decode [0xC0418A00] = .ok (.tcopy (.s 8) 12 (.s 20)) ∧ decode [0xC4400000] = .ok (.mtask (.s 8)) ∧
      decode [0xC6480001] = .ok (.drain (.s 9) true) ∧ decode [0xC827A000, 3] = .ok (.ringAcq (.s 4) (.ext32 3)) ∧
      decode [0xC9E80001, 3] = .ok (.ringRel (.ext32 3)) ∧ decode [0xCA278490] = .ok (.keySort 4 .z (.s 9) true) ∧
      decode [0xDA516600] = .ok (.adpf (.s 10) (.s 11) (.s 12)) ∧ decode [0xD628C000] = .ok (.nlaunch (.s 5) (.s 6)) ∧
      decode [0xD8190000] = .ok (.mrs (.u (.s 3)) 8) ∧ decode [0xD810E001] = .ok (.msr (.u (.s 2)) 7) ∧
      decode [0xD8204002] = .ok (.mrs (.v (.v 4)) 2) ∧ decode [0x5E404003] = .ok (.rpush 8 (.v 2) 3) := by decide

/-! ### Single instructions on small states, with values of the spec's examples and tables, or worked by hand -/

/-- Every lane's v0, v1, … hold a list; its predicates are false. -/
def valued (xs : List Word) : Group := groupOf (fun p => { demoLane p with v := Vector.ofFn fun r => xs[r.val]?.getD 0 }) []

/-- Lane 0 after it alone has run an instruction. -/
def run (i : Instr) (xs : List Word) : Lane :=
  match exec i (world (valued xs) (unit 1)) with
  | .next t => ((tget t.groups 0).map fun g => g.lane 0).getD Lane.blank
  | _ => Lane.blank

/-- v3 of a form with operands v1 and v2, v3 holding an old value. -/
def bin (f : LDst → LSrc → LSrc → Bool → Nat → Instr) (a b old : Word) : Word := (run (f (.v 3) (.v 1) (.v 2) false 0) [0, a, b, old]).reg 3

def un (f : LDst → LSrc → Bool → Nat → Instr) (a : Word) : Word := (run (f (.v 3) (.v 1) false 0) [0, a, 0, 0]).reg 3

/-- p9 of a compare of v1 and v2. -/
def cmp (f : Nat → LSrc → LSrc → Nat → Instr) (a b : Word) : Bool := (run (f 9 (.v 1) (.v 2) 0) [0, a, b]).pred 9

/-- R86-R88. -/
theorem test_integer_arithmetic :
    bin .add 0xFFFFFFFF 2 0 = 1 ∧ bin .sub 1 2 0 = 0xFFFFFFFF ∧ bin .minI 0x80000000 1 0 = 0x80000000 ∧ bin .maxI 0x80000000 1 0 = 1 ∧
      bin .minN 0x80000000 1 0 = 1 ∧ bin .maxN 0x80000000 1 0 = 0x80000000 ∧ un .abs 0x80000000 = 0x80000000 ∧
      un .abs 0xFFFFFFFB = 5 ∧ un .neg 5 = 0xFFFFFFFB ∧ bin .mul 0x10001 0x10001 0 = 0x20001 ∧ bin .mulhI 0xFFFFFFFF 0xFFFFFFFF 0 = 0 ∧
      bin .mulhN 0xFFFFFFFF 0xFFFFFFFF 0 = 0xFFFFFFFE ∧ bin .mad 3 4 5 = 17 := by decide +kernel

/-- R88: the borderline table, and signs. -/
theorem test_integer_division :
    bin .divI 5 0 0 = 0xFFFFFFFF ∧ bin .divN 5 0 0 = 0xFFFFFFFF ∧ bin .remI 5 0 0 = 5 ∧ bin .remN 5 0 0 = 5 ∧
      bin .divI 0x80000000 0xFFFFFFFF 0 = 0x80000000 ∧ bin .divN 0x80000000 0xFFFFFFFF 0 = 0 ∧ bin .remI 0x80000000 0xFFFFFFFF 0 = 0 ∧
      bin .remN 0x80000000 0xFFFFFFFF 0 = 0x80000000 ∧ bin .divI 0xFFFFFFF9 2 0 = 0xFFFFFFFD ∧ bin .remI 0xFFFFFFF9 2 0 = 0xFFFFFFFF := by
  decide +kernel

/-- R87, R89; BMIX is the example of R89. -/
theorem test_bits :
    bin .andn 0xF0F0 0xFF00 0 = 0x00F0 ∧ bin .shl 1 32 0 = 0 ∧ bin .shl 1 31 0 = 0x80000000 ∧ bin .shr 0x80000000 32 0 = 0 ∧
      bin .sar 0x80000000 40 0 = 0xFFFFFFFF ∧ bin .rol 0x80000001 33 0 = 3 ∧ un .clz 0 = 32 ∧ un .clz 1 = 31 ∧ un .popc 0xF0F = 8 ∧
      un .brev 1 = 0x80000000 ∧ bin .bfeN 0x12345678 0x0808 0 = 0x56 ∧ bin .bfeI 0xF800 0x0808 0 = 0xFFFFFFF8 ∧
      bin .bfi 0xAB 0x0804 0xFFFFFFFF = 0xFFFFFABF ∧ bin .bmix 0x44332211 0x0000B540 0x88776655 = 0xBB665511 ∧
      bin .sext 0x80 7 0 = 0xFFFFFF80 := by decide +kernel

/-- R90-R93. -/
theorem test_compares_and_moves :
    cmp .ltI 0x80000000 1 = true ∧ cmp .ltN 0x80000000 1 = false ∧ cmp .leN 1 1 = true ∧ cmp .tst 6 1 = false ∧
      (run (.cmpiLtN 9 (.v 1) (BitVec.ofInt 10 (-1))) [0, 5]).pred 9 = true ∧
      (run (.cmpiLtI 9 (.v 1) (BitVec.ofInt 10 (-1))) [0, 5]).pred 9 = false ∧
      (run (.addi (.v 3) (.v 1) (BitVec.ofInt 13 (-1))) [0, 0]).reg 3 = 0xFFFFFFFF ∧
      (run (.andi (.v 3) (.v 1) (BitVec.ofInt 13 (-1))) [0, 0xFFFFFFFF]).reg 3 = 0x1FFF ∧
      (run (.pnot 9 8 0) []).pred 9 = true ∧ un .mov 7 = 7 ∧ (run (.mov (.v 3) .lid false 0) []).reg 3 = 0 ∧
      (run (.sel (.v 3) (.v 1) (.v 2) false 4) [0, 7, 8]).reg 3 = 8 := by decide +kernel

/-- R92: 64-bit forms, v4 and v5 holding the sum of v0:v1 and v2:v3. -/
theorem test_pairs :
    (run (.add64 (.v 4) (.v 0) (.v 2) false 0) [0xFFFFFFFF, 1, 1, 0]).reg 4 = 0 ∧
      (run (.add64 (.v 4) (.v 0) (.v 2) false 0) [0xFFFFFFFF, 1, 1, 0]).reg 5 = 2 ∧
      (run (.shl64 (.v 4) (.v 0) (.v 2) false 0) [1, 0, 33, 0]).reg 5 = 2 ∧
      (run (.lea (.v 4) (.v 0) (.v 2) false 0) [0, 1, 0xFFFFFFFF, 0]).reg 4 = 0xFFFFFFFF ∧
      (run (.lea (.v 4) (.v 0) (.v 2) false 0) [0, 1, 0xFFFFFFFF, 0]).reg 5 = 0 := by decide +kernel

/-- R118-R122. -/
theorem test_floats :
    bin .fadd 0x3F800000 0x40000000 0 = 0x40400000 ∧ bin .fadd 0x7F7FFFFF 0x7F7FFFFF 0 = 0x7F800000 ∧
      bin .fmul 0x7F800000 0 0 = 0x7FC00000 ∧ bin .ffma 0x3F800800 0x3F800800 0xBF801000 = 0x33800000 ∧
      bin .fnma 0x3F800800 0x3F800800 0x3F801000 = 0xB3800000 ∧ bin .fmin 0x80000000 0 0 = 0x80000000 ∧
      bin .fmax 0x7FC00001 0x3F800000 0 = 0x3F800000 ∧ bin .fdiv 0x3F800000 0x40400000 0 = 0x3EAAAAAB ∧
      cmp .fcmpTolt 0x80000000 0 = true ∧ cmp .fcmpLt 0x80000000 0 = false ∧ cmp .fcmpUn 0x7FC00000 0 = true ∧
      bin .haddF16 0x3C007BFF 0x3C007BFF 0 = 0x40007C00 ∧ bin .hmax 0x3F807FC0 0x40000000 0 = 0x40007FC0 ∧
      (run (.dsqrt (.v 4) (.v 0) false 0) [0, 0x40000000]).reg 5 = 0x3FF6A09E ∧
      (run (.dsqrt (.v 4) (.v 0) false 0) [0, 0x40000000]).reg 4 = 0x667F3BCD := by decide +kernel

/-- R123, R124: rows of the spec's table with sat 0, clamps and NaN. -/
theorem test_conversions :
    un .cvtE4m3F32 0x43960000 = 0x79 ∧ un .cvtE4m3F32 0x43FA0000 = 0x7F ∧ un .cvtE4m3F32 0x43E80000 = 0x7E ∧
      un .cvtE5m2F32 0x4788B800 = 0x7C ∧
      (run (.cvtI32F32 (.v 3) (.v 1) 0 false 0) [0, 0x7F800000]).reg 3 = 0x7FFFFFFF ∧
      (run (.cvtI32F32 (.v 3) (.v 1) 0 false 0) [0, 0x7FC00000]).reg 3 = 0 ∧
      (run (.cvtN32F32 (.v 3) (.v 1) 0 false 0) [0, 0xBF800000]).reg 3 = 0 ∧
      (run (.cvtF32I32 (.v 3) (.v 1) 0 false 0) [0, 0xFFFFFFFF]).reg 3 = 0xBF800000 ∧ un .cvtF32E4m3 0x7F = 0x7FC00000 ∧
      un .cvtF32Bf16 0x3F80 = 0x3F800000 := by decide +kernel

/-- R27: the example of stochastic rounding, with its draw. -/
theorem test_stochastic_rounding :
    un .cvtBf16F32Sr 0x3F804000 = 0x3F81 ∧ (run (.cvtBf16F32Sr (.v 3) (.v 1) false 0) [0, 0x3F804000]).lrng = 0x14057B7EF767814F ∧
      (run (.rng (.v 3) false 0) []).reg 3 = 0x14057B7E := by decide +kernel

/-- The sixteen values of R28's example in v2 of lanes 0 to 15. -/
def block : List Word :=
  [0x3F000000, 0xBF800000, 0x40000000, 0x40400000, 0, 0x3E800000, 0xBF400000, 0x3FC00000, 0x41200000, 0x3DCCCCCD, 0x40200000,
    0xC0000000, 0x42200000, 0, 0x3F800000, 0x3E99999A]

def packed (p : Nat) : Word :=
  let g := groupOf (fun p => { demoLane p with v := Vector.ofFn fun r => if r.val = 2 then block[p % 16]?.getD 0 else 0 }) []
  match exec (.packF4b (.v 4) (.v 2) false 0) (world g (unit 0xFFFFFFFF#32)) with
  | .next t => ((tget t.groups 0).map fun g => (g.lane p).reg 4).getD 0
  | _ => 0

/-- R126-R129: the example's words, its element 12, and a scale. -/
theorem test_blocks :
    (packed 0 = 0x29003290 ∧ packed 1 = 0x0108A206 ∧ packed 2 = 0x00005A80 ∧ packed 3 = 0 ∧ packed 4 = 0x29003290) ∧
      bin .unpkF4b 0x0108A206 0x00045A80 0 = 0x42200000 ∧ bin .scaleF4b 0x5A80 0xFFFFFFFF 0 = 0x5A7F ∧ un .mx2f4b 0x7F = 0x807F := by
  decide +kernel

/-- R130-R134; KEY3 is the example of R132, FRND that of R131. -/
theorem test_functions :
    un .rcp 0x40400000 = 0x3EAAAAAB ∧ un .rsq 0x40800000 = 0x3F000000 ∧ un .sqrt 0x80000000 = 0x80000000 ∧
      (run (.frnd (.v 3) (.v 1) 1 false 0) [0, 0xBE99999A]).reg 3 = 0x80000000 ∧
      (run (.key3 (.v 8) (.v 4) false 0) [0, 0, 0, 0, 0x40200000, 0x3F400000, 0x40FCCCCD, 0x3F800000]).reg 8 = 0x12C ∧
      bin .fscale 0x3F800000 0xFFFFFF6B 0 = 1 ∧ un .fexp 1 = 0xFFFFFF6B ∧ un .fexp 0 = 0x80000000 := by decide +kernel

/-- The uniform registers after an instruction of all lanes. -/
def runU (i : Instr) (us : List DWord) (r : Nat) : DWord :=
  match exec i (world (groupOf demoLane us) (unit 0xFFFFFFFF#32)) with
  | .next t => ((tget t.groups 0).map fun g => g.u.reg r).getD 0
  | _ => 0

def binU (f : UDst → USrc → USrc → Bool → Nat → Instr) (a b : DWord) : DWord := runU (f (.s 3) (.s 1) (.s 2) false 0) [0, a, b] 3

/-- R94, R96, R97. -/
theorem test_uniform :
    binU .uAdd 0xFFFFFFFFFFFFFFFF 2 = 1 ∧ binU .uMulhN 0xFFFFFFFFFFFFFFFF 0xFFFFFFFFFFFFFFFF = 0xFFFFFFFFFFFFFFFE ∧
      binU .uShl 1 64 = 0 ∧ binU .uSar 0x8000000000000000 70 = 0xFFFFFFFFFFFFFFFF ∧ binU .uDivN 5 0 = 0xFFFFFFFFFFFFFFFF ∧
      runU (.uMovs (.s 3) (.s 1) false 0) [0, 0x80000000] 3 = 0xFFFFFFFF80000000 ∧ runU (.uClz (.s 3) (.s 1) false 0) [0, 0] 3 = 64 ∧
      runU (.vtos (.s 3) (.v 1) false 0) [] 3 = 0x1000 ∧ runU (.smovi (.s 3) (BitVec.ofInt 13 (-2))) [] 3 = 0xFFFFFFFFFFFFFFFE := by
  decide +kernel

/-- v3 of lanes 0 to 7 after an exchange in partition g1 of blocks of 8: v2 holds 10 plus the lane, v1 a distance. -/
def exchange (f : LDst → LSrc → LSrc → Bool → Nat → Instr) (b : Word) : List Nat :=
  let g := { groupOf (fun p => { demoLane p with v := Vector.ofFn fun r => if r.val = 2 then w32 (10 + p) else b }) [] with
    parts := (Vector.replicate 8 ⟨.whole, 0⟩).set 1 ⟨.b8, 0⟩ }
  match exec (f (.v 3) (.v 2) (.v 1) false 1) (world g (unit 0xFFFFFFFF#32)) with
  | .next t => (List.range 8).map fun p => ((tget t.groups 0).map fun g => ((g.lane p).reg 3).toNat).getD 0
  | _ => []

/-- R167: its example. -/
theorem test_exchanges :
    exchange .xxor 3 = [13, 12, 11, 10, 17, 16, 15, 14] ∧ exchange .xrot 3 = [13, 14, 15, 16, 17, 10, 11, 12] ∧
      exchange .xshift 3 = [13, 14, 15, 16, 17, 15, 16, 17] ∧ exchange .xshift 0xFFFFFFFD = [10, 11, 12, 10, 11, 12, 13, 14] := by
  decide +kernel

/-- The step of MOVI v5, 5 placed at the next fetch. -/
theorem test_step_movi :
    (match step (placed [0x1C280005]) with
      | .next t => ((tget t.groups 0).map fun g => ((g.lane 0).reg 5, (g.lane 0).vpc)) == some (5, 0x10004)
      | _ => false) = true := by decide +kernel

/-- An illegal word and a software trap stop the group with their causes. -/
theorem test_step_traps :
    (match step (placed [0x0E000000]) with
      | .next t => ((tget t.groups 0).bind fun g => g.stop.map fun x => (x.cause, x.d1)) == some (1, 0x0E000000)
      | _ => false) = true ∧
      (match step (placed [0xBE000003 + 60 * 2 ^ 19]) with
        | .next t => ((tget t.groups 0).bind fun g => g.stop.map fun x => (x.cause, x.d1)) == some (5, 0)
        | _ => false) = true := by decide +kernel

end Sys2Proof.Tests
end

section
/-! SUPPORT. Which rows of the opcode map give REP and GUARD: a word that decodes to one has the major of R51 or R46. -/

namespace Sys2Proof.Laws

/-- The major of REP and GUARD words. -/
def prefixMajor : Instr → Option Nat
  | .rep _ _ _ _ => some 0x5C
  | .guard _ _ => some 0x5D
  | _ => none

/-- Where a decoding succeeds, its instruction has a property. -/
def Yields (P : Instr → Prop) (r : Except Reject Instr) : Prop := ∀ i, r = .ok i → P i

theorem Yields.pure {P : Instr → Prop} {i : Instr} (h : P i) : Yields P (pure i) := fun j e => by
  cases e; exact h

theorem Yields.bind {α : Type} {P : Instr → Prop} {r : Except Reject α} {f : α → Except Reject Instr}
    (h : ∀ a, Yields P (f a)) : Yields P (r >>= f) := fun i e => by
  cases r with
  | error x => cases e
  | ok a => exact h a i e

/-- The row a word picks is one of its major's rows. -/
theorem mem_of_pick {w : Word} {r : Row} : ∀ {rs : List Row}, pick w rs = some r → r ∈ rs
  | [], h => by cases h
  | q :: rs, h => by
    unfold pick at h
    split at h
    · cases h; exact List.mem_cons_self
    · exact List.mem_cons_of_mem _ (mem_of_pick h)

/-- What a word decodes to was built by a row of its major. -/
theorem row_of_decode {w : Word} {ext : List Word} {i : Instr} (h : decode (w :: ext) = .ok i) :
    ∃ rs : List Row, rowsOf (fld w 25 7) = some rs ∧ ∃ r ∈ rs, r.build w ext = .ok i := by
  cases hrs : rowsOf (fld w 25 7) with
  | none => simp [decode, hrs] at h
  | some rs =>
    cases hr : pick w rs with
    | none => simp [decode, hrs, hr] at h
    | some r =>
      refine ⟨rs, rfl, r, mem_of_pick hr, ?_⟩
      cases hb : r.build w ext with
      | error x => simp [decode, hrs, hr, hb, Bind.bind, Except.bind] at h
      | ok j =>
        simp only [decode, hrs, hr, hb, Bind.bind, Except.bind] at h
        split at h
        · exact h
        · cases h

/-- Every row of a major builds REP or GUARD only where that major is theirs. A row's builder is a chain of field readings, any of
which may fail, with one constructor at its end: the constructor alone decides. -/
theorem rows_prefixMajor {m : Nat} {rs : List Row} (h : rowsOf m = some rs) :
    ∀ r ∈ rs, ∀ w ext, Yields (fun i => (prefixMajor i).all (· == m) = true) (r.build w ext) := by
  unfold rowsOf at h
  split at h <;> cases h
  all_goals
    repeat' first
      | exact Yields.pure rfl
      | refine Yields.bind fun _ => ?_
      | exact List.forall_mem_nil _
      | refine List.forall_mem_cons.2 ⟨fun _ _ => ?_, ?_⟩

/-- A word that decodes to REP or GUARD has its major. -/
theorem major_of_prefix {w : Word} {ext : List Word} {i : Instr} {m : Nat} (h : decode (w :: ext) = .ok i)
    (hm : prefixMajor i = some m) : fld w 25 7 = m := by
  obtain ⟨rs, hrs, r, hr, hb⟩ := row_of_decode h
  have hp : (prefixMajor i).all (· == fld w 25 7) = true := rows_prefixMajor hrs r hr w ext i hb
  rw [hm] at hp
  exact (beq_iff_eq.1 hp).symm

end Sys2Proof.Laws
end

section
/-! SUPPORT. The words of a unit and its checks (R43, R46, R51, R55), up to the unit that runs. -/

namespace Sys2Proof.Machine

/-! ### Words served from an address on -/

/-- The words from an address on: each at a good address, and its fetch gives it (R11). -/
def Serves (get : Nat → Fetched) (a : DWord) (ws : List Word) : Prop :=
  ∀ j, j < ws.length → (a + BitVec.ofNat 64 (4 * j)) >>> 54 = 0 ∧
    get (a + BitVec.ofNat 64 (4 * j)).toNat = .word (ws[j]?.getD 0)

theorem add_ofNat_add (a : DWord) (m n : Nat) :
    a + BitVec.ofNat 64 m + BitVec.ofNat 64 n = a + BitVec.ofNat 64 (m + n) := by
  rw [BitVec.add_assoc, ← BitVec.ofNat_add]

theorem Serves.head {get : Nat → Fetched} {a : DWord} {w : Word} {ws : List Word} (h : Serves get a (w :: ws)) (c : Issue) :
    readWord get c a = .ok w := by
  obtain ⟨h54, hget⟩ := h 0 (by simp)
  simp only [Nat.mul_zero, BitVec.add_zero, List.getElem?_cons_zero, Option.getD_some] at h54 hget
  simp [readWord, h54, hget]

theorem Serves.tail {get : Nat → Fetched} {a : DWord} {w : Word} {ws : List Word} (h : Serves get a (w :: ws)) :
    Serves get (a + 4) ws := fun j hj => by
  have e : a + 4 + BitVec.ofNat 64 (4 * j) = a + BitVec.ofNat 64 (4 * (j + 1)) := by
    rw [show 4 * (j + 1) = 4 + 4 * j by omega]
    exact add_ofNat_add a 4 (4 * j)
  rw [e]
  simpa using h (j + 1) (by simpa using hj)

theorem Serves.readWords {get : Nat → Fetched} {ws : List Word} {a : DWord} (h : Serves get a ws) (c : Issue) :
    readWords get c a ws.length = .ok ws := by
  induction ws generalizing a with
  | nil => rfl
  | cons w ws ih => simp only [List.length_cons, Machine.readWords, h.head c, ih h.tail]

/-- An address below 64 KiB has no bit above 53. -/
theorem high_zero {a : DWord} (h : a.toNat < 0x10000) : a >>> 54 = 0 := by
  apply BitVec.eq_of_toNat_eq
  rw [BitVec.toNat_ushiftRight, Nat.shiftRight_eq_div_pow]
  exact Nat.div_eq_of_lt (by omega)

/-! ### The words of a unit -/

theorem Serves.readRest {get : Nat → Fetched} {a : DWord} {w : Word} {ws : List Word} (h : Serves get a (w :: ws))
    (hn : ws.length = extensions w.toNat) (c : Issue) (rep guard : Option Word) :
    readRest get c rep guard a w = .ok ⟨rep, guard, a, w :: ws⟩ := by
  simp only [Machine.readRest, ← hn, h.tail.readWords c]

/-- A unit without prefixes. -/
theorem readUnit_plain {get : Nat → Fetched} {c : Issue} {w : Word} {ws : List Word} (h : Serves get c.addr (w :: ws))
    (hn : ws.length = extensions w.toNat) (hr : bits w.toNat 31 25 ≠ 0x5C) (hg : bits w.toNat 31 25 ≠ 0x5D) :
    readUnit get c w = .ok ⟨none, none, c.addr, w :: ws⟩ := by
  simp only [readUnit, readGuarded, hr, hg, if_false, h.readRest hn]

/-- A unit under a GUARD word. -/
theorem readUnit_guard {get : Nat → Fetched} {c : Issue} {x w : Word} {ws : List Word} (h : Serves get c.addr (x :: w :: ws))
    (hn : ws.length = extensions w.toNat) (hx : bits x.toNat 31 25 = 0x5D) :
    readUnit get c x = .ok ⟨none, some x, c.addr + 4, w :: ws⟩ := by
  have hr : bits x.toNat 31 25 ≠ 0x5C := by omega
  rw [readUnit, if_neg hr, readGuarded, if_pos hx]
  simp only [h.tail.head c, h.tail.readRest hn]

/-- A unit under a REP word. -/
theorem readUnit_rep {get : Nat → Fetched} {c : Issue} {x w : Word} {ws : List Word} (h : Serves get c.addr (x :: w :: ws))
    (hn : ws.length = extensions w.toNat) (hx : bits x.toNat 31 25 = 0x5C) (hg : bits w.toNat 31 25 ≠ 0x5D) :
    readUnit get c x = .ok ⟨some x, none, c.addr + 4, w :: ws⟩ := by
  simp only [readUnit, readGuarded, hg, hx, if_false, if_true, h.tail.head c, h.tail.readRest hn]

/-! ### The checks of R55 -/

/-- Whose words were read is checked with the unit's own word and the address after its words. -/
theorem prepare_of_words {get : Nat → Fetched} {c : Issue} {x : Word} {xs : List Word} {u : Words} (rd : Probe)
    (h : Serves get c.addr (x :: xs)) (hu : readUnit get { c with first := x, word := x } x = .ok u) :
    prepare get rd c =
      checkUnit rd { c with
        first := x, word := u.ws.headD 0, next := codeAddr (u.at_ + BitVec.ofNat 64 (4 * u.ws.length)) } u := by
  simp only [prepare, h.head c, hu]

/-- A group's unit that passes every check runs with its prefixes. -/
theorem checkUnit_run {rd : Probe} {c : Issue} {rep guard : Option Word} {a : DWord} {w w' : Word} {ws : List Word}
    {i0 i : Instr} {reps guards : List Instr} (hc : c.cox = false) (hcox : coxOnly w = false)
    (hi0 : decode (w :: ws) = .ok i0) (hf0 : rd.frame i0 = none)
    (hrep : prefixOf rep = .ok reps) (hguard : prefixOf guard = .ok guards)
    (hfits : guardFits w guards = true) (hw' : repWord w i0 c.idx c.kept reps = some w')
    (hi : decode (w' :: ws) = .ok i) (hf : rd.frame i = none) (hl : rd.latch i = none)
    (hb : rd.bad (!w.getLsbD 31) (guardPred w guards) i = none) :
    checkUnit rd c ⟨rep, guard, a, w :: ws⟩ = .run c (reps ++ guards) i := by
  simp [-BitVec.getLsbD_eq_getElem, checkUnit, hc, hcox, hi0, hf0, hrep, hguard, hfits, hw', hi, hf, hl, hb]

/-- A cox's unit without prefixes: a lane-set word is illegal there, any other runs once its checks pass (R341). -/
theorem checkUnit_cox {rd : Probe} {c : Issue} {a : DWord} {w : Word} {ws : List Word} {i : Instr} (hc : c.cox = true)
    (hi : decode (w :: ws) = .ok i) (hf : rd.frame i = none)
    (hu : w.getLsbD 31 = true → rd.latch i = none ∧ rd.bad false (guardPred w []) i = none) :
    checkUnit rd c ⟨none, none, a, w :: ws⟩ = .run c [] (if w.getLsbD 31 then i else .illegalInstruction) := by
  cases hl : w.getLsbD 31 with
  | false => simp [-BitVec.getLsbD_eq_getElem, checkUnit, hc, hi, hf, prefixOf, guardFits, repWord, hl]
  | true =>
    obtain ⟨hlatch, hbad⟩ := hu hl
    simp [-BitVec.getLsbD_eq_getElem, checkUnit, hc, hi, hf, prefixOf, guardFits, repWord, hl, hlatch, hbad]

end Sys2Proof.Machine
end

section
/-! SUPPORT. The turn of a group and of a cox: what it comes to once the unit has passed its checks (R10, R139, R341). -/

namespace Sys2Proof.Machine

/-! ### Prefixes run -/

theorem exec_guard {s : State} {c : Issue} (h : s.cur = some c) (p : Nat) (neg : Bool) :
    exec (.guard p neg) s = .next { s with cur := some { c with guard := some (p, neg) } } := by
  change execGuard p neg s = _
  simp only [execGuard, h]

theorem exec_rep {s : State} {c : Issue} (h : s.cur = some c) (n : Nat) (d a b : Bool) :
    exec (.rep n d a b) s =
      .next { s with cur := some { c with rep := some (if c.idx ≠ 0 then c.kept else if n = 0 then 64 else n, d, a, b) } } := by
  change execRep n d a b s = _
  simp only [execRep, h, bne_iff_ne]

theorem runUnit_guard (s : State) (c : Issue) (p : Nat) (neg : Bool) (i : Instr) :
    runUnit [.guard p neg] i { s with cur := some c } =
      exec i { s with cur := some { c with guard := some (p, neg) } } := by
  simp only [runUnit, exec_guard (s := { s with cur := some c }) rfl]

theorem runUnit_rep (s : State) (c : Issue) (n : Nat) (d a b : Bool) (i : Instr) :
    runUnit [.rep n d a b] i { s with cur := some c } =
      exec i { s with
        cur := some { c with rep := some (if c.idx ≠ 0 then c.kept else if n = 0 then 64 else n, d, a, b) } } := by
  simp only [runUnit, exec_rep (s := { s with cur := some c }) rfl]

/-! ### Preparation -/

/-- A unit whose words were read and whose checks all pass runs, at its own address. -/
theorem prepare_run {get : Nat → Fetched} {rd : Probe} {c : Issue} {x : Word} {xs : List Word} {rep guard : Option Word}
    {a : DWord} {w w' : Word} {ws : List Word} {i0 i : Instr} {reps guards : List Instr}
    (h : Serves get c.addr (x :: xs))
    (hu : readUnit get { c with first := x, word := x } x = .ok ⟨rep, guard, a, w :: ws⟩)
    (hc : c.cox = false) (hcox : coxOnly w = false) (hi0 : decode (w :: ws) = .ok i0) (hf0 : rd.frame i0 = none)
    (hrep : prefixOf rep = .ok reps) (hguard : prefixOf guard = .ok guards)
    (hfits : guardFits w guards = true) (hw' : repWord w i0 c.idx c.kept reps = some w')
    (hi : decode (w' :: ws) = .ok i) (hf : rd.frame i = none) (hl : rd.latch i = none)
    (hb : rd.bad (!w.getLsbD 31) (guardPred w guards) i = none) :
    prepare get rd c =
      .run { c with first := x, word := w, next := codeAddr (a + BitVec.ofNat 64 (4 * (1 + ws.length))) }
        (reps ++ guards) i := by
  rw [prepare_of_words rd h hu, List.length_cons, Nat.add_comm ws.length 1]
  exact checkUnit_run hc hcox hi0 hf0 hrep hguard hfits hw' hi hf hl hb

/-- Its stepped word under a REP that R51 and R52 allow. -/
theorem repWord_rep {w : Word} {i : Instr} {k kept n : Nat} {d a b : Bool} {fs : List StepField}
    (hp : isPrefix w = false) (hr : repable w = true) (hs : steppedFields i d a b = some fs)
    (hok : ∀ f ∈ fs, f.ok w (if k ≠ 0 then kept else if n = 0 then 64 else n) = true) :
    repWord w i k kept [.rep n d a b] = some (stepWord w k fs) := by
  have hall : fs.all (StepField.ok w (if k != 0 then kept else if n = 0 then 64 else n)) = true := by
    simpa only [List.all_eq_true, bne_iff_ne] using hok
  simp only [repWord, hp, hr, hs, hall, Bool.not_true, Bool.or_self, Bool.false_eq_true, if_false, if_true]

/-! ### The turn -/

theorem step_of_agenda {s : State} {t : Turn} {ts : List Turn} (h : s.agenda = t :: ts) :
    step s = State.turn { s with agenda := ts } t := by
  simp only [step, State.nextTurn, h]

/-- A group that is ready issues the unit of its pace lane. -/
theorem State.issueWith_ready {s : State} {k p : Nat} {g : Group} (others : Bool) (hp : (s.core (coreOf k)).posted = [])
    (hg : tget s.groups k = some g) (ho : Group.open_ k g = true) (ha : s.autoLanding k g = false)
    (hpace : g.pace (s.policy g) = some p) :
    s.issueWith others k =
      s.issueUnit g { issueBase k g p with others := others } (if s.policy g then some p else g.leader) := by
  have hpost : s.parkPosted (coreOf k) = s := by simp only [State.parkPosted, hp, List.foldl_nil]
  simp [State.issueWith, hpost, hg, ho, ha, hpace]

theorem State.issueUnit_run {s : State} {g : Group} {c0 c : Issue} {pre : List Instr} {i : Instr} (leader : Option Nat)
    (h : s.prepareGroup g c0 = .run c pre i) :
    s.issueUnit g c0 leader =
      issued s c0.gkey g.region (runUnit pre i { (s.beginIssue c leader).writeHeld c0.gkey i with cur := some c }) := by
  simp only [State.issueUnit, h]

/-- A unit that ran leaves its state, and no trace where a resource held it back. -/
theorem issued_next (before t : State) (k : Nat) (r : DWord) :
    issued before k r (.next t) = .next (if t.cur = none then before else t.stopClosed k r) := by
  simp only [issued, Option.isNone_iff_eq_none]
  split <;> rfl

theorem State.issueCox_run {s : State} {core : Nat} {c : Issue} {i : Instr} (hh : (s.core core).cox.halted = false)
    (hn : core < noCore)
    (h : prepare (s.core core).cox.fetch ⟨fun _ => none, (s.core core).cox.staleLatch, (s.core core).cox.badRegister⟩
      (coxBase core (s.core core).cox) = .run c [] i) :
    s.issueCox core = exec i { s with cur := some c } := by
  simp [State.issueCox, hh, hn, h, runUnit]

end Sys2Proof.Machine
end

section
/-! SUPPORT. The turn of a group: its unit, read and checked with what stands before it (R43, R46, R51, R55, R139). -/

namespace Sys2Proof.Machine

/-- The unit c before its REP or GUARD has run. -/
def Issue.bare (c : Issue) : Issue := { c with guard := none, rep := none }

/-- The bookkeeping of an issue does not look at the unit's guard and count. -/
theorem State.beginIssue_bare (s : State) (c : Issue) (leader : Option Nat) :
    s.beginIssue c.bare leader = s.beginIssue c leader := rfl

/-- The turn of a ready group whose unit passes its checks: exec on the state with the unit under issue, to which the prefixes
have given its guard and its count, then the end of the turn. -/
theorem State.turn_issue {s : State} {k p : Nat} {g : Group} {c : Issue} {pre : List Instr} {i : Instr} {others : Bool}
    (ho : others = (s.groups.map Prod.fst).any fun j => j != k && j / 16 == k / 16 && s.wouldIssue j)
    (hruns : s.runs = true) (hp : (s.core (coreOf k)).posted = []) (hg : tget s.groups k = some g)
    (hopen : Group.open_ k g = true) (ha : s.autoLanding k g = false) (hpace : g.pace (s.policy g) = some p)
    (hprep : s.prepareGroup g { issueBase k g p with others := others } = .run c.bare pre i)
    (hrun : ∀ t : State, runUnit pre i { t with cur := some c.bare } = exec i { t with cur := some c }) :
    s.turn (.issue k) =
      match exec i { (s.beginIssue c (if s.policy g then some p else g.leader)).writeHeld k i with cur := some c } with
      | .next t => .next (s.releaseHolds (if t.cur = none then s else t.stopClosed k g.region)).afterTurn
      | o => o := by
  have htake : s.take (.issue k) = issued s k g.region (exec i
      { (s.beginIssue c (if s.policy g then some p else g.leader)).writeHeld k i with cur := some c }) := by
    rw [← hrun]
    simp only [State.take, hruns, if_true, State.issueGroup, ← ho, State.issueWith_ready others hp hg hopen ha hpace]
    rw [State.issueUnit_run _ hprep, State.beginIssue_bare]
    rfl
  rw [State.turn, htake]
  cases exec i _ with
  | next t => rw [issued_next]
  | fault f => rfl
  | refused r => rfl

/-! ### A unit of a group and its prefixes -/

/-- The unit under issue of a group's pace lane p: the words pre before its own word w, its extension words ws after it. -/
def unitIssue (k : Nat) (g : Group) (p : Nat) (pre : List Word) (w : Word) (ws : List Word) (guard : Option (Nat × Bool))
    (rep : Option (Nat × Bool × Bool × Bool)) (others : Bool) : Issue :=
  { issueBase k g p with
    first := (pre ++ [w])[0]?.getD 0, word := w
    next := codeAddr ((g.lane p).vpc + BitVec.ofNat 64 (4 * (pre.length + 1 + ws.length)))
    guard := guard, rep := rep, others := others }

/-- The address after n words from the second word on is that after n + 1 words from the first on. -/
theorem next_word (a : DWord) (n : Nat) : a + 4#64 + BitVec.ofNat 64 (4 * n) = a + BitVec.ofNat 64 (4 * (1 + n)) := by
  rw [show 4 * (1 + n) = 4 + 4 * n by omega]
  exact add_ofNat_add ..

/-- What the checks ask of a group: its frames, its latches, its registers. -/
def groupProbe (s : State) (k : Nat) (g : Group) (m : Mask) : Probe :=
  ⟨s.frameOver k g m, g.staleLatch m, g.badRegister m⟩

theorem State.prepareGroup_eq (s : State) (k : Nat) (g : Group) (p : Nat) (others : Bool) :
    s.prepareGroup g { issueBase k g p with others := others } =
      prepare ((s.core (coreOf k)).fetchFor k) (groupProbe s k g (g.issuing p)) { issueBase k g p with others := others } :=
  rfl

section

variable {s : State} {k p : Nat} {g : Group} {pre ws : List Word} {w w' : Word} {i0 i : Instr} {others : Bool}
  {guard : Option (Nat × Bool)} {rep : Option (Nat × Bool × Bool × Bool)}

/-- A group's unit with nothing before it is its own word. -/
theorem State.prepareGroup_plain (h : Serves ((s.core (coreOf k)).fetchFor k) (g.lane p).vpc (w :: ws))
    (hlen : ws.length = extensions w.toNat) (h5c : bits w.toNat 31 25 ≠ 0x5C) (h5d : bits w.toNat 31 25 ≠ 0x5D)
    (hcox : coxOnly w = false) (hi : decode (w :: ws) = .ok i) (hf : s.frameOver k g (g.issuing p) i = none)
    (hl : g.staleLatch (g.issuing p) i = none)
    (hb : g.badRegister (g.issuing p) (!w.getLsbD 31) (guardPred w []) i = none) :
    s.prepareGroup g { issueBase k g p with others := others } = .run (unitIssue k g p [] w ws none none others) [] i := by
  rw [State.prepareGroup_eq, prepare_run (c := { issueBase k g p with others := others }) h (readUnit_plain h hlen h5c h5d)
    rfl hcox hi hf rfl rfl rfl rfl hi hf hl hb]
  simp [unitIssue, issueBase, Nat.mul_add]

/-- Under a GUARD word. -/
theorem State.prepareGroup_guard {x : Word} {q : Nat} {neg : Bool}
    (h : Serves ((s.core (coreOf k)).fetchFor k) (g.lane p).vpc (x :: w :: ws))
    (hlen : ws.length = extensions w.toNat) (hx : decode [x] = .ok (.guard q neg)) (hok : guardOk w q = true)
    (hcox : coxOnly w = false) (hi : decode (w :: ws) = .ok i) (hf : s.frameOver k g (g.issuing p) i = none)
    (hl : g.staleLatch (g.issuing p) i = none)
    (hb : g.badRegister (g.issuing p) (!w.getLsbD 31) (guardPred w [.guard q neg]) i = none) :
    s.prepareGroup g { issueBase k g p with others := others } =
      .run (unitIssue k g p [x] w ws none none others) [.guard q neg] i := by
  have hmajor : bits x.toNat 31 25 = 0x5D := Laws.major_of_prefix hx rfl
  have hpre : prefixOf (some x) = .ok [.guard q neg] := by simp only [prefixOf, hx]
  rw [State.prepareGroup_eq, prepare_run (c := { issueBase k g p with others := others }) h (readUnit_guard h hlen hmajor)
    rfl hcox hi hf rfl hpre hok rfl hi hf hl hb]
  simp [unitIssue, issueBase, next_word, ← Nat.add_assoc]

/-- Under a REP word: the stepped word of the issue. -/
theorem State.prepareGroup_rep {x : Word} {n : Nat} {d a b : Bool} {fs : List StepField}
    (h : Serves ((s.core (coreOf k)).fetchFor k) (g.lane p).vpc (x :: w :: ws))
    (hlen : ws.length = extensions w.toNat) (h5d : bits w.toNat 31 25 ≠ 0x5D) (hx : decode [x] = .ok (.rep n d a b))
    (hp : isPrefix w = false) (hr : repable w = true) (hs : steppedFields i0 d a b = some fs)
    (hok : ∀ f ∈ fs, f.ok w (if (g.lane p).rep ≠ 0 then (g.lane p).repN else if n = 0 then 64 else n) = true)
    (hcox : coxOnly w = false) (hi0 : decode (w :: ws) = .ok i0)
    (hi : decode (stepWord w (g.lane p).rep fs :: ws) = .ok i) (hf0 : s.frameOver k g (g.issuing p) i0 = none)
    (hf : s.frameOver k g (g.issuing p) i = none) (hl : g.staleLatch (g.issuing p) i = none)
    (hb : g.badRegister (g.issuing p) (!w.getLsbD 31) (guardPred w []) i = none) :
    s.prepareGroup g { issueBase k g p with others := others } =
      .run (unitIssue k g p [x] w ws none none others) [.rep n d a b] i := by
  have hmajor : bits x.toNat 31 25 = 0x5C := Laws.major_of_prefix hx rfl
  have hpre : prefixOf (some x) = .ok [.rep n d a b] := by simp only [prefixOf, hx]
  rw [State.prepareGroup_eq, prepare_run (c := { issueBase k g p with others := others }) h (readUnit_rep h hlen hmajor h5d)
    rfl hcox hi0 hf0 hpre rfl rfl (repWord_rep hp hr hs hok) hi hf hl hb]
  simp [unitIssue, issueBase, next_word, ← Nat.add_assoc]

end

end Sys2Proof.Machine
end

section
/-! PROOF. A step runs exec of what the words at the address of its turn decode to (O54). -/

namespace Sys2Proof.Machine

/-! ### A unit of a cox -/

/-- The turn of a cox whose unit, without prefixes, passes its checks. -/
theorem State.turn_cox {s : State} {core : Nat} {w : Word} {ws : List Word} {i : Instr} (hruns : s.runs = true)
    (hn : core < noCore) (hh : (s.core core).cox.halted = false)
    (h : Serves (s.core core).cox.fetch (s.core core).cox.pc (w :: ws)) (hlen : ws.length = extensions w.toNat)
    (h5c : bits w.toNat 31 25 ≠ 0x5C) (h5d : bits w.toNat 31 25 ≠ 0x5D) (hi : decode (w :: ws) = .ok i)
    (hu : w.getLsbD 31 = true → (s.core core).cox.staleLatch i = none ∧
      (s.core core).cox.badRegister false (guardPred w []) i = none) :
    s.turn (.cox core) =
      match exec (if w.getLsbD 31 then i else .illegalInstruction) { s with cur := some { coxBase core (s.core core).cox with
        first := w, word := w
        next := codeAddr ((s.core core).cox.pc + BitVec.ofNat 64 (4 * (1 + ws.length))) } } with
      | .next t => .next (s.releaseHolds t).afterTurn
      | o => o := by
  have hprep := prepare_of_words (c := coxBase core (s.core core).cox)
    ⟨fun _ => none, (s.core core).cox.staleLatch, (s.core core).cox.badRegister⟩ h (readUnit_plain h hlen h5c h5d)
  rw [checkUnit_cox rfl hi rfl hu] at hprep
  rw [State.turn, State.take, if_pos hruns, State.issueCox_run hh hn hprep, List.length_cons, Nat.add_comm ws.length 1]
  rfl

/-- The cox fetches the words of its own memory (log entry 11). -/
theorem serves_coxFetch {x : Cox} {ws : List Word}
    (h : ∀ j, j < ws.length → (x.pc + BitVec.ofNat 64 (4 * j)).toNat < 0x10000 ∧
      leNat (mread x.mem (x.pc + BitVec.ofNat 64 (4 * j)).toNat 4) = (ws[j]?.getD 0).toNat) : Serves x.fetch x.pc ws := by
  intro j hj
  obtain ⟨hlt, hword⟩ := h j hj
  refine ⟨high_zero hlt, ?_⟩
  rw [Cox.fetch, if_pos hlt, hword, w32, BitVec.ofNat_toNat, BitVec.setWidth_eq]

/-! ### Events -/

/-- The turn of an event that may come runs it. -/
theorem State.turn_event {s : State} {i : Instr} (hu : ofUnit i = false)
    (h : s.runs = true ∨ fromOutside i = true ∨ i = .strokeTick ∧ s.live = true) :
    s.turn (.event i) = match exec i s with
      | .next t => .next (s.releaseHolds t).afterTurn
      | o => o := by
  have hgo : (ofUnit i || (!s.runs && !fromOutside i && i != .strokeTick) || (!s.live && i == .strokeTick)) = false := by
    rcases h with hr | ho | ⟨rfl, hl⟩
    · have hl : s.live = true := (Bool.and_eq_true_iff.1 hr).1
      simp [hu, hr, hl]
    · have hne : (i == .strokeTick) = false := by
        cases hi : i == .strokeTick with
        | false => rfl
        | true => rw [beq_iff_eq.1 hi] at ho; cases ho
      simp [hu, ho, hne]
    · simp [hu, hl]
  rw [State.turn, State.take, hgo]
  rfl

end Sys2Proof.Machine

open Sys2Proof Sys2Proof.Machine

/-- Settles O54: the words from the pace lane's address on are read and checked as R55 says, so that the turn runs exec of what
they decode to; its prefixes have run before. -/
theorem stepRunsDecodedInstruction : Obligations.StepRunsDecodedInstruction := by
  refine ⟨?_, ?_, ?_⟩
  · intro s k ts g p pre ws w w' i0 i guard rep core s0 va n m count guards hag hruns hg hopen hauto hposted hpace hserve hlen
      hcox h5c h5d hi0 hi hpre hf0 hf hl hb c begun
    have hserves : Serves ((s0.core (coreOf k)).fetchFor k) (g.lane p).vpc (pre ++ w :: ws) := fun j hj =>
      hserve j (by simpa [n, Nat.add_assoc, Nat.add_comm 1] using hj)
    obtain ⟨pre', hprep, hrun⟩ : ∃ pre',
        s0.prepareGroup g { issueBase k g p with others := c.others } = .run c.bare pre' i ∧
        ∀ t : State, runUnit pre' i { t with cur := some c.bare } = exec i { t with cur := some c } := by
      rcases hpre with ⟨rfl, rfl, rfl, rfl⟩ | ⟨x, q, neg, rfl, hx, hok, rfl, rfl, rfl⟩ |
        ⟨x, c0, d, a, b, fs, rfl, hx, hnp, hrep, hsf, hfok, rfl, rfl, rfl⟩
      · exact ⟨[], State.prepareGroup_plain hserves hlen h5c h5d hcox hi hf hl hb, fun t => rfl⟩
      · exact ⟨[.guard q neg], State.prepareGroup_guard hserves hlen hx hok hcox hi hf hl hb,
          fun t => runUnit_guard t c.bare q neg i⟩
      · exact ⟨[.rep c0 d a b], State.prepareGroup_rep hserves hlen h5d hx hnp hrep hsf hfok hcox hi0 hi hf0 hf hl hb,
          fun t => runUnit_rep t c.bare c0 d a b i⟩
    exact (step_of_agenda hag).trans
      (State.turn_issue (s := s0) rfl hruns hposted hg hopen hauto hpace hprep hrun)
  · intro s core ts w ws i s0 x hag hruns hn hh hserve hlen h5c h5d hi hu
    have hserves : Serves (s0.core core).cox.fetch (s0.core core).cox.pc (w :: ws) :=
      serves_coxFetch fun j hj => hserve j (by simpa [Nat.add_comm] using hj)
    exact (step_of_agenda hag).trans (State.turn_cox (s := s0) hruns hn hh hserves hlen h5c h5d hi hu)
  · intro s i ts hag hu h
    exact (step_of_agenda hag).trans (State.turn_event (s := { s with agenda := ts }) hu h)
end

section
/-! SUPPORT. What a lane result writes (R9, R40, R42, R48), and the proof of O10. -/

namespace Sys2Proof.Machine

/-! ### Registers and predicates of a lane -/

theorem Lane.reg_setReg (l : Lane) (d : Nat) (x : Word) {r : Nat} (h : r < 56) :
    (l.setReg d x).reg r = if r = d then x else l.reg r := by
  unfold Lane.reg
  rw [Lane.setReg_v, Vector.getElem?_setIfInBounds]
  by_cases e : r = d
  · subst e; simp [h]
  · simp [e, Ne.symm e]

@[simp] theorem Lane.reg_push (l : Lane) (x : DWord) (r : Nat) : (l.push x).reg r = l.reg r := rfl

@[simp] theorem Lane.setPred_zero (l : Lane) (b : Bool) : l.setPred 0 b = l := rfl

theorem Lane.pred_setPred_self (l : Lane) {p : Nat} (b : Bool) (h0 : 0 < p) (h : p < 64) : (l.setPred p b).pred p = b := by
  have hp : p ≠ 0 := by omega
  simp [Lane.pred, Lane.setPred, hp, h]

theorem Lane.pred_setPred_ne (l : Lane) {p q : Nat} (b : Bool) (h : q ≠ p) : (l.setPred p b).pred q = l.pred q := by
  unfold Lane.pred Lane.setPred
  split
  · rfl
  · simp only [Vector.getElem?_setIfInBounds_ne (Ne.symm h)]

/-- A write to another predicate than p0 changes that predicate and its check bit alone. -/
theorem Lane.setPred_frame (l : Lane) (p : Nat) (b : Bool) :
    l.setPred p b = { l with p := (l.setPred p b).p, bad := (l.setPred p b).bad } := by
  unfold Lane.setPred
  split <;> rfl

/-! ### Pushes -/

/-- The latches of t are those of l after the push of a value (R9). -/
def LatchPushed (l t : Lane) (x : DWord) : Prop :=
  t.l[0] = ⟨x, true⟩ ∧ t.l[1] = l.l[0] ∧ t.l[2] = l.l[1] ∧ t.l[3] = l.l[2]

/-- t is l but for its registers, latches and their check bits. -/
def SameOthers (l t : Lane) : Prop := t = { l with v := t.v, l := t.l, bad := t.bad }

/-! ### Results -/

section

variable (d : LDst) (n : Bool) (x : Word) (y : DWord) (l : Lane)

theorem put32_pushed : LatchPushed l (d.put32 n x l) (x.setWidth 64) := by
  cases n <;> cases d <;> exact ⟨rfl, rfl, rfl, rfl⟩

theorem put64_pushed : LatchPushed l (d.put64 n y l) y := by
  cases n <;> cases d <;> exact ⟨rfl, rfl, rfl, rfl⟩

theorem put32_others : SameOthers l (d.put32 n x l) := by
  cases n <;> cases d <;> rfl

theorem put64_others : SameOthers l (d.put64 n y l) := by
  cases n <;> cases d <;> rfl

variable {d l}

/-- A 32-bit result changes register d alone, and only where n does not suppress it. -/
theorem put32_reg {r : Nat} (h : r < 56) : (d.put32 n x l).reg r = if d = .v r ∧ n = false then x else l.reg r := by
  cases n with
  | true => simp [LDst.put32]
  | false =>
    cases d with
    | z => simp [LDst.put32, LDst.set32]
    | v k => simp [LDst.put32, LDst.set32, Lane.reg_setReg _ _ _ h, @eq_comm _ k r]

/-- A 64-bit result changes the pair from d on, its low half first. -/
theorem put64_reg {r : Nat} (h : r < 56) : (d.put64 n y l).reg r =
    if n = false ∧ d = .v r then y.setWidth 32
    else if n = false ∧ 0 < r ∧ d = .v (r - 1) then (y >>> 32).setWidth 32 else l.reg r := by
  cases n with
  | true => simp [LDst.put64]
  | false =>
    cases d with
    | z => simp [LDst.put64, LDst.set64]
    | v k =>
      have hlow : (LDst.v k = .v r) ↔ r = k := by rw [LDst.v.injEq, eq_comm]
      have hhigh : (0 < r ∧ LDst.v k = .v (r - 1)) ↔ r = k + 1 := by rw [LDst.v.injEq]; omega
      simp only [LDst.put64, LDst.set64, Bool.false_eq_true, if_false, Lane.reg_push, Lane.reg_setReg _ _ _ h, hlow, hhigh,
        true_and]
      by_cases e : r = k
      · have hne : r ≠ k + 1 := by omega
        rw [if_neg hne, if_pos e, if_pos e]
      · rw [if_neg e, if_neg e]

end

end Sys2Proof.Machine

open Sys2Proof Sys2Proof.Machine

/-- Settles O10, from what a push does to the latches and a write to the registers. -/
theorem resultsAndLatchPushes : Obligations.ResultsAndLatchPushes := by
  intro l d n x y pushed others
  refine ⟨put32_pushed d n x l, put32_others d n x l, fun r hr => put32_reg n x hr, put64_pushed d n y l,
    put64_others d n y l, fun _ r hr => put64_reg n y hr, fun p b => ⟨Lane.setPred_zero l b, fun h0 h => ?_⟩⟩
  exact ⟨Lane.setPred_frame l p b, Lane.pred_setPred_self l b h0 h, fun q hq => Lane.pred_setPred_ne l b hq⟩
end

section
/-! SUPPORT. Units that a group and the cox can run, groups that move on or close their region, targets of control transfers:
what O16 and O17 rest on (R10, R11, R13, R104-R106, R327). -/

namespace Sys2Proof.Machine

/-! ### Units of both agents -/

theorem groupOrCox_runs {s : State} {c : Issue} {g : Group} (h : s.Runs c g) (cox : Issue → Out)
    (body : Issue → Group → Res) : groupOrCox s cox body = settle s c (body c g) := by
  rw [← groupUnit_runs h body]
  obtain ⟨hcur, hcox, _⟩ := h
  simp [groupOrCox, hcur, hcox]

theorem groupOrCox_cox {s : State} {c : Issue} (h : s.RunsCox c) (cox : Issue → Out) (body : Issue → Group → Res) :
    groupOrCox s cox body = cox c := by
  obtain ⟨hcur, hcox⟩ := h
  simp [groupOrCox, hcur, hcox]

theorem coxControl_ok {s : State} {c : Issue} {f : Cox → Except Nat Cox} {x : Cox} (h : f (s.core c.core).cox = .ok x) :
    coxControl s c f = .next (s.modCore c.core fun n => { n with cox := x }) := by
  simp only [coxControl, h]

/-- A cause of the cox that finds none standing: the cox notes cause and address and goes to its vector (R341). -/
theorem coxControl_error {s : State} {c : Issue} {f : Cox → Except Nat Cox} {cause : Nat} (hc : c.cox = true)
    (h : f (s.core c.core).cox = .error cause) (h30 : cause ≠ 0x30) (h0 : (s.core c.core).cox.cause = 0) :
    coxControl s c f = .next (s.modCore c.core fun n => { n with cox := { (s.core c.core).cox with
      cause := BitVec.ofNat 64 cause, epc := c.addr, pc := (s.core c.core).cox.vec, rep := 0 } }) := by
  simp only [coxControl, h, State.takeTrap, if_neg h30, State.stopAt, hc, if_true, State.coxCause, h0]

/-! ### Groups after a unit -/

theorem GroupBecomes.of_set {s t : State} {k : Nat} {g' h : Group} {f : Nat → Lane} (ht : t.groups = tset s.groups k g')
    (hg : g' = { h with lanes := g'.lanes }) (hl : ∀ q, q < 32 → g'.lane q = f q) : GroupBecomes s t k h f := by
  refine ⟨⟨g', by rw [ht, tget_tset_self], ?_, hl⟩, fun j hj => by rw [ht, tget_tset_ne _ _ hj]⟩
  rw [congrArg Group.acq hg, congrArg Group.sysAcq hg]
  exact hg

theorem GroupBecomes.congr {s t : State} {k : Nat} {h : Group} {f f' : Nat → Lane} (e : ∀ q, q < 32 → f q = f' q)
    (hb : GroupBecomes s t k h f) : GroupBecomes s t k h f' := by
  obtain ⟨⟨g', hget, heq, hlanes⟩, hothers⟩ := hb
  exact ⟨⟨g', hget, heq, fun q hq => (hlanes q hq).trans (e q hq)⟩, hothers⟩

/-- The lanes of a mask change by a function, the others stay. -/
theorem GroupBecomes.mapLanes {s t : State} {k : Nat} {g : Group} {m : Mask} {f : Lane → Lane}
    (ht : t.groups = tset s.groups k (g.mapLanes m f)) :
    GroupBecomes s t k g fun q => if m.getLsbD q then f (g.lane q) else g.lane q :=
  .of_set ht rfl fun _ hq => Group.lane_mapLanes g m f hq

theorem State.advance_runs {s : State} {c : Issue} {g : Group} (h : s.Runs c g) :
    s.advance c = s.setGroup c.gkey (g.mapLanes c.lanes c.advance) := State.modGroup_some h.2.2 _

/-- A close of the region and what it leaves of the group. -/
theorem Group.close_mapLanes (g : Group) (c : Issue) (m : Mask) (f : Lane → Lane) :
    (g.mapLanes m f).close c = { g.closed c with lanes := ((g.mapLanes m f).close c).lanes } := by
  simp [Group.close, Group.closed, Group.mapLanes]

/-- The lanes of a unit change by a function and its region closes (R327). -/
theorem GroupBecomes.close {s t : State} {c : Issue} {g : Group} {f : Lane → Lane}
    (ht : t.groups = tset s.groups c.gkey ((g.mapLanes c.lanes f).close c)) :
    GroupBecomes s t c.gkey (g.closed c) fun q => if c.lanes.getLsbD q then c.closeLane (f (g.lane q)) else g.lane q := by
  refine .of_set ht (g.close_mapLanes c c.lanes f) fun q hq => ?_
  rw [Group.lane_close c _ hq, Group.lane_mapLanes g c.lanes f hq]
  split <;> rfl

theorem State.setGroup_close (s : State) (c : Issue) (g : Group) :
    (s.setGroup c.gkey g).modGroup c.gkey (Group.close c) = s.setGroup c.gkey (g.close c) := by
  rw [State.modGroup_some (State.tget_setGroup_self s c.gkey g), State.setGroup_setGroup]

/-- What a unit that only moves its lanes answers. -/
theorem settle_advance {s : State} {c : Issue} {g : Group} (h : s.Runs c g) :
    Answers (settle s c (.ok (s.advance c))) fun t =>
      GroupBecomes s t c.gkey g (c.moved g) ∧ t.teams = s.teams ∧ SameMemory s t := by
  rw [State.advance_runs h]
  exact ⟨_, rfl, .mapLanes rfl, rfl, .of_eq rfl rfl rfl⟩

/-- The same where the region closes. -/
theorem settle_advance_close {s : State} {c : Issue} {g : Group} (h : s.Runs c g) :
    Answers (settle s c (.ok ((s.advance c).modGroup c.gkey (Group.close c)))) fun t =>
      GroupBecomes s t c.gkey (g.closed c) (c.movedClosed g) ∧ t.teams = s.teams ∧ SameMemory s t := by
  rw [State.advance_runs h, State.setGroup_close]
  exact ⟨_, rfl, .close rfl, rfl, .of_eq rfl rfl rfl⟩

/-! ### Plain units (R115, R340) -/

theorem plain_runs {i : Instr} (hi : ∀ s, exec i s = plainUnit s) {s : State} {c : Issue} {g : Group} (h : s.Runs c g) :
    LanesAfter (exec i s) s c g fun _ q => c.moved g q := by
  obtain ⟨g', hrun, hg, hlanes⟩ := (uniformDoes_of_uniformUnit hi).1 s c g h
  rw [id, ite_self] at hg
  exact ⟨g', hrun, hg, hlanes⟩

theorem plain_cox {i : Instr} (hi : ∀ s, exec i s = plainUnit s) {s : State} {c : Issue} (h : s.RunsCox c) :
    exec i s = .next (s.modCore c.core fun n => { n with cox := Cox.advance c n.cox }) := by
  rw [(uniformDoes_of_uniformUnit hi).2 s c h]
  simp only [id, ite_self]

/-! ### Latches given up with the seat (R49) -/

theorem Group.lane_clearLatches (g : Group) {q : Nat} (h : q < 32) :
    (g.clearLatches).lane q = { g.lane q with l := Latches.invalid } := by
  have e := Group.lane_mapLanes g 0xFFFFFFFF#32 (fun l => { l with l := Latches.invalid }) h
  have hbit : (0xFFFFFFFF#32).getLsbD q = true :=
    (BitVec.getLsbD_allOnes (v := 32) (i := q)).trans (decide_eq_true h)
  rw [if_pos hbit] at e
  unfold Group.clearLatches
  unfold Group.lane Group.mapLanes at *
  exact e

end Sys2Proof.Machine
end

section
/-! PROOF. Plain forms, prefixes and software traps (O17). -/

namespace Sys2Proof.Machine

/-! ### REGION and YIELD (R115, R327, R340) -/

theorem region_runs {s : State} {c : Issue} {g : Group} (h : s.Runs c g) :
    Answers (exec .region s) fun t =>
      GroupBecomes s t c.gkey (g.closed c) (c.movedClosed g) ∧ t.teams = s.teams ∧ SameMemory s t := by
  change Answers (execRegion s) _
  rw [execRegion, groupOrCox_runs h]
  exact settle_advance_close h

/-- A YIELD that keeps the seat only moves on. -/
theorem yield_keeps {s : State} {c : Issue} {g : Group} (h : s.Runs c g) (hk : (c.kholds 0 g.u && c.others) = false) :
    exec .yield s = .next (s.setGroup c.gkey (g.mapLanes c.lanes c.advance)) := by
  change execYield s = _
  rw [execYield, groupOrCox_runs h, hk, State.advance_runs h]
  rfl

/-- The groups after one that gives its seat up. -/
theorem State.clearedSeat_groups {s : State} {k : Nat} (g : Group) :
    (((s.setGroup k g).leaveSeat k).modGroup k Group.clearLatches).groups = tset s.groups k g.clearLatches := by
  have hg : tget ((s.setGroup k g).leaveSeat k).groups k = some g := State.tget_setGroup_self s k g
  rw [State.modGroup_some hg]
  exact tset_tset ..

/-- A YIELD that gives the seat up clears the latches of its group (R49). -/
theorem yield_gives {s : State} {c : Issue} {g : Group} (h : s.Runs c g) (hk : (c.kholds 0 g.u && c.others) = true) :
    Answers (exec .yield s) fun t => t.teams = s.teams ∧ SameMemory s t ∧
      GroupBecomes s t c.gkey { g with u := { g.u with q := Latches.invalid } }
        fun q => { c.moved g q with l := Latches.invalid } := by
  change Answers (execYield s) _
  rw [execYield, groupOrCox_runs h, hk, State.advance_runs h]
  refine ⟨_, rfl, ?_, ?_, .of_set (State.clearedSeat_groups _) ?_ fun q hq => ?_⟩
  · simp [State.leaveSeat]
  · refine .of_eq ?_ ?_ ?_ <;> simp [State.leaveSeat]
  · simp [Group.clearLatches, Group.mapLanes]
  · rw [Group.lane_clearLatches _ hq, Group.lane_mapLanes _ _ _ hq]
    rfl

/-- On the cox a unit that moves on whatever its guard. -/
theorem coxControl_advance {s : State} {c : Issue} :
    coxControl s c (fun x => .ok (x.advance c)) = .next (s.modCore c.core fun n => { n with cox := Cox.advance c n.cox }) :=
  rfl

/-- The forms of R115 and R340 that on the cox only move on. -/
theorem plainForm_cox {s : State} {c : Issue} (h : s.RunsCox c) {i : Instr}
    (hi : i = .nop ∨ i = .region ∨ i = .yield ∨ ∃ r co f t, i = .hdr r co f t) :
    exec i s = .next (s.modCore c.core fun n => { n with cox := Cox.advance c n.cox }) := by
  rcases hi with rfl | rfl | rfl | ⟨r, co, f, t, rfl⟩
  · exact plain_cox (fun _ => rfl) h
  · change execRegion s = _
    rw [execRegion, groupOrCox_cox h]
    exact coxControl_advance
  · change execYield s = _
    rw [execYield, groupOrCox_cox h]
    exact coxControl_advance
  · exact plain_cox (fun _ => rfl) h

/-! ### BRK and TRAP (R322, R323, R340, R341) -/

/-- The record of a group that the unit under issue stops (R323). -/
def trapStop (c : Issue) (cause : Nat) (d1 d2 : DWord) (m : Mask) : Stop :=
  ⟨cause, c.addr, c.next, c.lanes, if c.word.getLsbD 31 then 0xFFFFFFFF#32 else m, d1, d2, false, 1⟩

/-- Taking a trap of a group, with its record and its report. -/
theorem State.takeTrap_group {s : State} {c : Issue} {g : Group} (h : s.Runs c g) {cause : Nat} (d1 d2 : DWord) (m : Mask)
    (hc : cause ≠ 0x30) :
    s.takeTrap c cause d1 d2 m =
      ((s.setGroup c.gkey { g with stop := some (trapStop c cause d1 d2 m) }).leaveSeat c.gkey).modCore (coreOf c.gkey)
        (·.report (reportOf c.gkey g (trapStop c cause d1 d2 m))) := by
  obtain ⟨_, hcox, hg⟩ := h
  unfold State.takeTrap State.stopAt
  simp only [hc, if_false, hcox, hg, Bool.false_eq_true]
  rfl

/-- Where a core takes a report at once, it joins the queue; otherwise its group waits (R324). -/
theorem Core.report_cases (n : Core) (r : Report) :
    if n.reports.length < 64 ∧ n.trapWait = [] then (n.report r).reports = n.reports ++ [r]
    else (n.report r).reports = n.reports ∧ (n.report r).trapWait = n.trapWait ++ [r.gkey] := by
  unfold Core.report
  by_cases h : n.reports.length < 64 ∧ n.trapWait = []
  · rw [if_pos h, if_pos (by simpa using h)]
  · rw [if_neg h, if_neg (by simpa using h)]
    exact ⟨rfl, rfl⟩

/-- A unit of both agents that raises a cause unless its guard is false. -/
def softTrap (cause : Nat) (d1 : Group → DWord) (s : State) : Out :=
  groupOrCox s (fun c => coxControl s c fun x => if c.kholds 0 x.u then .error cause else .ok (x.advance c))
    fun c g => if c.kholds 0 g.u then .error (.trap cause (d1 g) 0) else .ok (s.advance c)

theorem exec_brk (s : State) : exec .brk s = softTrap 0x04 (fun _ => 0) s := rfl

theorem exec_trap (a : USrc) (s : State) : exec (.trap a) s = softTrap 0x05 (fun g => a.get g.u) s := rfl

theorem softTrap_runs {s : State} {c : Issue} {g : Group} (h : s.Runs c g) (hk : c.kholds 0 g.u = true) {cause : Nat}
    (d1 : Group → DWord) (h08 : cause ≠ 0x08) (h30 : cause ≠ 0x30) :
    softTrap cause d1 s =
      .next (((s.setGroup c.gkey { g with stop := some (trapStop c cause (d1 g) 0 c.lanes) }).leaveSeat c.gkey).modCore
        (coreOf c.gkey) (·.report (reportOf c.gkey g (trapStop c cause (d1 g) 0 c.lanes)))) := by
  rw [softTrap, groupOrCox_runs h, if_pos hk, settle_trap s c (d1 g) 0 none h08, Option.getD_none,
    State.takeTrap_group h (d1 g) 0 c.lanes h30]

theorem softTrap_skips {s : State} {c : Issue} {g : Group} (h : s.Runs c g) (hk : c.kholds 0 g.u = false) (cause : Nat)
    (d1 : Group → DWord) :
    Answers (softTrap cause d1 s) fun t => GroupBecomes s t c.gkey g (c.moved g) ∧ t.teams = s.teams ∧ SameMemory s t := by
  rw [softTrap, groupOrCox_runs h, hk]
  exact settle_advance h

theorem softTrap_cox_skips {s : State} {c : Issue} (h : s.RunsCox c) (hk : c.kholds 0 (s.core c.core).cox.u = false)
    (cause : Nat) (d1 : Group → DWord) :
    softTrap cause d1 s = .next (s.modCore c.core fun n => { n with cox := Cox.advance c (s.core c.core).cox }) := by
  rw [softTrap, groupOrCox_cox h]
  exact coxControl_ok (if_neg (by simp [hk]))

theorem softTrap_cox {s : State} {c : Issue} (h : s.RunsCox c) (hk : c.kholds 0 (s.core c.core).cox.u = true)
    (h0 : (s.core c.core).cox.cause = 0) {cause : Nat} (d1 : Group → DWord) (h30 : cause ≠ 0x30) :
    softTrap cause d1 s = .next (s.modCore c.core fun n => { n with cox := { (s.core c.core).cox with
      cause := BitVec.ofNat 64 cause, epc := c.addr, pc := (s.core c.core).cox.vec, rep := 0 } }) := by
  rw [softTrap, groupOrCox_cox h]
  exact coxControl_error h.2 (if_pos hk) h30 h0

/-- A state after a group's trap: the group stopped, the others as before, the report at the core's cox. -/
theorem stopped_group {s : State} {k : Nat} {g : Group} {x : Stop} {r : Report} :
    let t := ((s.setGroup k { g with stop := some x }).leaveSeat k).modCore (coreOf k) (·.report r)
    tget t.groups k = some { g with stop := some x } ∧ (∀ j, j ≠ k → tget t.groups j = tget s.groups j) ∧
      t.teams = s.teams ∧ SameMemory s t ∧
      if (s.core (coreOf k)).reports.length < 64 ∧ (s.core (coreOf k)).trapWait = [] then
        (t.core (coreOf k)).reports = (s.core (coreOf k)).reports ++ [r]
      else (t.core (coreOf k)).reports = (s.core (coreOf k)).reports ∧
        (t.core (coreOf k)).trapWait = (s.core (coreOf k)).trapWait ++ [r.gkey] := by
  intro t
  have hcore : t.core (coreOf k) = (((s.setGroup k { g with stop := some x }).leaveSeat k).core (coreOf k)).report r := by
    rw [State.core_modCore, if_pos rfl]
  refine ⟨State.tget_setGroup_self .., fun j hj => State.tget_setGroup_ne s _ hj, rfl, .of_eq rfl rfl rfl, ?_⟩
  have hcases := Core.report_cases (((s.setGroup k { g with stop := some x }).leaveSeat k).core (coreOf k)) r
  have hseat : ((s.setGroup k { g with stop := some x }).leaveSeat k).core (coreOf k) =
      (s.core (coreOf k)).modSeat (seatOf k) fun y =>
        { y with
          loop := if (y.loop.map (·.gkey)) = some k then none else y.loop
          opHold := if (y.opHold.map Prod.fst) = some k then none else y.opHold } := by
    rw [State.leaveSeat, State.core_modCore, if_pos rfl]; rfl
  rw [hseat] at hcases hcore
  rw [hcore]
  exact hcases

end Sys2Proof.Machine

open Sys2Proof Sys2Proof.Machine

/-- R13, R46, R51, R115, R340. -/
theorem plainForms : Claims.PlainForms := by
  refine ⟨fun s c p n neg d a b hcur => ⟨exec_guard hcur p neg, exec_rep hcur n d a b⟩, fun s c g h => ⟨?_, ?_, ?_, ?_⟩,
    fun s c h i hi => plainForm_cox h hi⟩
  · rintro i (rfl | ⟨r, co, f, t, rfl⟩) <;> exact plain_runs (fun _ => rfl) h
  · exact region_runs h
  · intro hk
    exact ⟨_, yield_keeps h (by simp [hk]), rfl, fun q hq => Group.lane_mapLanes g _ _ hq⟩
  · cases hk : c.kholds 0 g.u && c.others with
    | false => exact ⟨_, yield_keeps h hk, rfl, .of_eq rfl rfl rfl, .inl (.mapLanes rfl)⟩
    | true =>
      obtain ⟨t, ht, hteams, hmem, hg⟩ := yield_gives h hk
      exact ⟨t, ht, hteams, hmem, .inr hg⟩

/-- R322, R323, R340, R341. -/
theorem softwareTraps : Claims.SoftwareTraps := by
  refine ⟨?_, ?_, ?_⟩
  · intro s c g a i cause d1 h hk hi
    have hrun : ∃ f : Group → DWord, exec i s = softTrap cause f s ∧ f g = d1 ∧ cause ≠ 0x08 ∧ cause ≠ 0x30 := by
      rcases hi with ⟨rfl, rfl, rfl⟩ | ⟨rfl, rfl, rfl⟩
      · exact ⟨_, exec_brk s, rfl, by decide, by decide⟩
      · exact ⟨_, exec_trap a s, rfl, by decide, by decide⟩
    obtain ⟨f, hexec, rfl, h08, h30⟩ := hrun
    obtain ⟨hg, hothers, hteams, hmem, hq⟩ := stopped_group (s := s) (k := c.gkey) (g := g)
      (x := trapStop c cause (f g) 0 c.lanes) (r := reportOf c.gkey g (trapStop c cause (f g) 0 c.lanes))
    refine ⟨_, hexec.trans (softTrap_runs h hk f h08 h30), ⟨_, hg, rfl, rfl, rfl, rfl, rfl, rfl⟩, hothers, hteams, hmem, ?_⟩
    intro q q'
    split at hq
    · rename_i hroom
      rw [if_pos hroom]
      exact ⟨_, hq, rfl, rfl, rfl, rfl, rfl⟩
    · rename_i hroom
      rw [if_neg hroom]
      exact hq
  · rintro s c g a i h hk (rfl | rfl)
    · exact softTrap_skips h hk ..
    · exact softTrap_skips h hk ..
  · intro s c a i cause h hi x
    have hrun : ∃ f : Group → DWord, exec i s = softTrap cause f s ∧ cause ≠ 0x30 := by
      rcases hi with ⟨rfl, rfl⟩ | ⟨rfl, rfl⟩
      · exact ⟨_, exec_brk s, by decide⟩
      · exact ⟨_, exec_trap a s, by decide⟩
    obtain ⟨f, hexec, h30⟩ := hrun
    rw [hexec]
    exact ⟨fun hk => softTrap_cox_skips h hk cause f, fun hk h0 => softTrap_cox h hk h0 f h30⟩

/-- Settles O17, from the plain forms and the software traps. -/
theorem plainFormsAndSoftwareTraps : Obligations.PlainFormsAndSoftwareTraps := ⟨plainForms, softwareTraps⟩
end

section
/-! PROOF. Control transfers (O16). -/

namespace Sys2Proof.Machine

/-! ### Targets (R11, R13, R14) -/

theorem target_ofInt (a : DWord) {n : Nat} (o : BitVec n) :
    a + 4 * o.signExtend 64 = BitVec.ofInt 64 (a.toNat + 4 * o.toInt) := by
  rw [BitVec.ofInt_add, BitVec.ofInt_mul, BitVec.ofInt_natCast, BitVec.ofNat_toNat, BitVec.setWidth_eq]
  rfl

theorem checkTarget_landed {s : State} {k : Nat} {a : DWord} (h : s.Landed k a) : checkTarget (s.core (coreOf k)) k a = none := by
  obtain ⟨h54, h4, w, hw⟩ := h
  simp [checkTarget, h54, h4, hw]

/-- A header word of R13, read. -/
theorem Header.parse_some {w : Word} (h : w.toNat / 2 ^ 25 = 0x5E) (hr : w.toNat / 2 ^ 23 % 4 < 3)
    (hf : 1 ≤ w.toNat / 2 ^ 16 % 64 ∧ w.toNat / 2 ^ 16 % 64 ≤ 56) :
    ∃ x, Header.parse w = some x ∧ x.rule = w.toNat / 2 ^ 23 % 4 := by
  have hmajor : bits w.toNat 31 25 = 0x5E := by have := w.isLt; simp only [bits]; omega
  have hrule : (bits w.toNat 24 23 != 3) = true := bne_iff_ne.2 (Nat.ne_of_lt hr)
  have hm : (bits w.toNat 31 25 == 0x5E && bits w.toNat 24 23 != 3 && decide (1 ≤ bits w.toNat 21 16) &&
      decide (bits w.toNat 21 16 ≤ 56)) = true := by
    obtain ⟨hlow, hhigh⟩ : 1 ≤ bits w.toNat 21 16 ∧ bits w.toNat 21 16 ≤ 56 := hf
    rw [hmajor, hrule, decide_eq_true hlow, decide_eq_true hhigh]
    rfl
  exact ⟨_, if_pos hm, rfl⟩

theorem checkCall_header {s : State} {k : Nat} {a : DWord} {rule : Nat} {w : Word} (h : s.HasHeader k a rule w) :
    ∃ x, checkCall (s.core (coreOf k)) k a rule = .ok x := by
  obtain ⟨hl, hl4, hw, hm, hr, hr3, hf⟩ := h
  obtain ⟨x, hx, hrule⟩ := Header.parse_some hm (by omega) hf
  exact ⟨x, by simp only [checkCall, checkTarget_landed hl, checkTarget_landed hl4, hw, hx, hrule, hr, if_true]⟩

/-- A good address of a cox's code. -/
theorem coxTarget_good {a : DWord} (h : a.toNat < 0x10000) (h4 : a.toNat % 4 = 0) : coxTarget a = none := by
  simp [coxTarget, high_zero h, h4, h]

/-! ### The link register (R14) -/

theorem UFile.setReg_link (u : UFile) (x : DWord) :
    u.setReg 55 x = { u with s := u.s.set 55 x, bad := u.bad &&& ~~~(1#72 <<< 55) } := by
  have e : u.s.setIfInBounds 55 x = u.s.set 55 x := by
    refine Vector.ext fun i hi => ?_
    simp only [Vector.getElem_setIfInBounds, Vector.getElem_set]
  rw [UFile.setReg, e]

/-! ### Branches and jumps (R104-R106) -/

/-- The lanes of a set whose predicate sends them to the target. -/
def takers (c : Issue) (g : Group) (p : Nat) (neg : Bool) : Mask := c.lanes &&& g.where fun l => l.pred p != neg

theorem takers_bit (c : Issue) (g : Group) (p : Nat) (neg : Bool) {q : Nat} (h : q < 32) :
    (takers c g p neg).getLsbD q = (c.lanes.getLsbD q && ((g.lane q).pred p != neg)) := by
  rw [takers, BitVec.getLsbD_and, Group.where_bit _ _ h]

/-- A mask with a position is not zero. -/
theorem exists_bit_of_ne_zero {m : Mask} (h : m ≠ 0) : ∃ q, q < 32 ∧ m.getLsbD q = true := by
  by_contra hn
  refine h (mask_ext fun q hq => ?_)
  cases hb : m.getLsbD q with
  | false => simp
  | true => exact absurd ⟨q, hq, hb⟩ hn

/-- Two changes of lanes are a change of lanes. -/
theorem Group.mapLanes_mapLanes_eq (g : Group) (m n : Mask) (f f' : Lane → Lane) :
    (g.mapLanes m f).mapLanes n f' = { g with lanes := ((g.mapLanes m f).mapLanes n f').lanes } := by
  unfold Group.mapLanes
  rfl

/-- The two sides of a BRL: the lanes that take it, and the rest of the set. -/
theorem Group.lane_sides (c : Issue) (g : Group) (p : Nat) (neg : Bool) (target : DWord) {q : Nat} (h : q < 32) :
    ((g.mapLanes (c.lanes &&& ~~~takers c g p neg) fun l => { l with vpc := c.next }).jump (takers c g p neg) target).lane q =
      if c.lanes.getLsbD q then
        { g.lane q with
          vpc := if (g.lane q).pred p != neg then target else c.next
          rep := if (g.lane q).pred p != neg then 0 else (g.lane q).rep }
      else g.lane q := by
  rw [Group.jump, Group.lane_mapLanes _ _ _ h, Group.lane_mapLanes _ _ _ h, BitVec.getLsbD_and, BitVec.getLsbD_not,
    takers_bit c g p neg h]
  cases hl : c.lanes.getLsbD q <;> cases ht : (g.lane q).pred p != neg <;> simp [h]

theorem brl_runs {s : State} {c : Issue} {g : Group} (h : s.Runs c g) (p : Nat) (neg : Bool) (o : BitVec 18) {target : DWord}
    (ht : target = c.addr + 4 * o.signExtend 64)
    (hland : (∃ q, q < 32 ∧ c.lanes.getLsbD q = true ∧ ((g.lane q).pred p != neg) = true) → s.Landed c.gkey target) :
    Answers (exec (.brl p neg o) s) fun t =>
      GroupBecomes s t c.gkey g (fun q =>
        if c.lanes.getLsbD q then
          { g.lane q with
            vpc := if (g.lane q).pred p != neg then target else c.next
            rep := if (g.lane q).pred p != neg then 0 else (g.lane q).rep }
        else g.lane q) ∧ t.teams = s.teams ∧ SameMemory s t := by
  have hsides := fun q (hq : q < 32) => Group.lane_sides c g p neg target hq
  change Answers (groupUnit s _) _
  rw [groupUnit_runs h, ← ht]
  change Answers (settle s c (if takers c g p neg = 0 then _ else _)) _
  by_cases hm : takers c g p neg = 0
  · rw [if_pos hm]
    refine ⟨_, rfl, .of_set rfl rfl fun q hq => ?_, rfl, .of_eq rfl rfl rfl⟩
    have hstay : (takers c g p neg).getLsbD q = false := by rw [hm]; exact BitVec.getLsbD_zero
    rw [← hsides q hq, Group.jump, Group.lane_mapLanes _ (takers c g p neg) _ hq, hstay]
    rfl
  · obtain ⟨q, hq, hbit⟩ := exists_bit_of_ne_zero hm
    rw [takers_bit c g p neg hq, Bool.and_eq_true] at hbit
    rw [if_neg hm, checkTarget_landed (hland ⟨q, hq, hbit⟩)]
    exact ⟨_, rfl, .of_set rfl (Group.mapLanes_mapLanes_eq ..) hsides, rfl, .of_eq rfl rfl rfl⟩

end Sys2Proof.Machine
end

section
/-! PROOF. Control transfers, continued: BRA, JML, calls and returns, the cox (O16). -/

namespace Sys2Proof.Machine

/-- The whole set goes to a target, where the taken branch may load the loop buffer (R114). -/
theorem settle_jump {s t : State} {c : Issue} {g : Group} {target : DWord} {f : Core → Core}
    (ht : t = (s.setGroup c.gkey (g.jump c.lanes target)).modCore (coreOf c.gkey) f) :
    Answers (settle s c (.ok t)) fun t =>
      GroupBecomes s t c.gkey g (fun q => if c.lanes.getLsbD q then { g.lane q with vpc := target, rep := 0 } else g.lane q) ∧
      t.teams = s.teams ∧ SameMemory s t := by
  subst ht
  exact ⟨_, rfl, .mapLanes (f := fun l => { l with vpc := target, rep := 0 }) rfl, rfl, .of_eq rfl rfl rfl⟩

theorem bra_runs {s : State} {c : Issue} {g : Group} (h : s.Runs c g) (k : Nat) (neg : Bool) (o : BitVec 21) {target : DWord}
    (ht : target = c.addr + 4 * o.signExtend 64) (hland : (g.u.pred k != neg) = true → s.Landed c.gkey target) :
    Answers (exec (.bra k neg o) s) fun t =>
      GroupBecomes s t c.gkey g (fun q =>
        if c.lanes.getLsbD q && (g.u.pred k != neg) then { g.lane q with vpc := target, rep := 0 } else c.moved g q) ∧
      t.teams = s.teams ∧ SameMemory s t := by
  change Answers (execBra k neg o s) _
  rw [execBra, groupOrCox_runs h, ← ht]
  cases htaken : g.u.pred k != neg with
  | false =>
    simp only [Bool.and_false, Bool.false_eq_true, if_false]
    exact settle_advance h
  | true =>
    simp only [checkTarget_landed (hland htaken), Bool.and_true, if_true]
    obtain ⟨t, hrun, hg, hrest⟩ := settle_jump (s := s) (c := c) (g := g) (target := target) rfl
    refine ⟨t, hrun, hg.congr fun q _ => ?_, hrest⟩
    cases hq : c.lanes.getLsbD q with
    | false => simp [Issue.moved, hq]
    | true => rfl

/-! ### JML -/

theorem mem_insertBy {key : Nat → Nat} {x y : Nat} : ∀ {ys : List Nat}, y ∈ insertBy key x ys ↔ y = x ∨ y ∈ ys
  | [] => by simp [insertBy]
  | z :: ys => by
    unfold insertBy
    split
    · simp
    · simp only [List.mem_cons, mem_insertBy]
      tauto

theorem mem_sortBy {key : Nat → Nat} {y : Nat} : ∀ {xs : List Nat}, y ∈ sortBy key xs ↔ y ∈ xs
  | [] => Iff.rfl
  | x :: xs => by rw [sortBy, mem_insertBy, mem_sortBy, List.mem_cons]

theorem Group.mem_order (g : Group) (m : Mask) (p : Nat) : p ∈ g.order m ↔ p < 32 ∧ m.getLsbD p = true := by
  rw [Group.order, mem_sortBy, mem_positions]

theorem firstBadTarget_none {k : Core} {gkey : Nat} : ∀ {as : List DWord}, (∀ a ∈ as, checkTarget k gkey a = none) →
    firstBadTarget k gkey as = none
  | [], _ => rfl
  | a :: as, h => by
    simp only [firstBadTarget, h a (by simp)]
    exact firstBadTarget_none fun b hb => h b (by simp [hb])

theorem taking_bit (c : Issue) (gd : Nat) (g : Group) {q : Nat} (h : q < 32) :
    (c.taking gd g).getLsbD q = (c.lanes.getLsbD q && c.holds gd (g.lane q)) := by
  rw [Issue.taking, BitVec.getLsbD_and, Group.where_bit _ _ h]

theorem jml_runs {s : State} {c : Issue} {g : Group} (h : s.Runs c g) (d : LDst) (a : LSrc) (gd : Nat)
    (hland : ∀ q, (c.taking gd g).getLsbD q = true → s.Landed c.gkey (a.r64 (g.lane q))) :
    Answers (exec (.jml d a gd) s) fun t =>
      GroupBecomes s t c.gkey g (fun q =>
        if (c.taking gd g).getLsbD q then { d.set64 c.next (g.lane q) with vpc := a.r64 (g.lane q), rep := 0 }
        else c.moved g q) ∧ t.teams = s.teams ∧ SameMemory s t := by
  have hgood : firstBadTarget (s.core (coreOf c.gkey)) c.gkey ((g.order (c.taking gd g)).map fun p => a.r64 (g.lane p)) = none :=
    firstBadTarget_none fun x hx => by
      obtain ⟨p, hp, rfl⟩ := List.mem_map.1 hx
      exact checkTarget_landed (hland p ((g.mem_order _ p).1 hp).2)
  change Answers (groupUnit s _) _
  rw [groupUnit_runs h]
  simp only [hgood]
  rw [State.skip, State.modGroup_some h.2.2, State.modGroup_some (State.tget_setGroup_self ..), State.setGroup_setGroup]
  refine ⟨_, rfl, .of_set rfl (Group.mapLanes_mapLanes_eq ..) fun q hq => ?_, rfl, .of_eq rfl rfl rfl⟩
  rw [Group.lane_mapLanes _ _ _ hq, Group.lane_mapLanes _ _ _ hq, BitVec.getLsbD_and, BitVec.getLsbD_not,
    taking_bit c gd g hq, Issue.moved]
  cases hl : c.lanes.getLsbD q <;> cases ht : c.holds gd (g.lane q) <;> simp [hq]

/-! ### Calls and RET of a group (R14) -/

/-- No lane outside callees has a frame of a callee's own (R152). -/
theorem State.frameCheck_outside {s : State} {c : Issue} {g : Group} (hn : ∀ q, q < 32 → (g.lane q).nest = 0) (x : Header) :
    s.frameCheck c g x = none := by
  have hnone : ∀ p ∈ positions c.lanes, ¬ (s.inner c.gkey g p != .none && decide (s.frameAt c.gkey g p < x.frame)) = true := by
    intro p hp
    rw [State.inner, if_pos (hn p ((mem_positions _ p).1 hp).1)]
    simp
  rw [State.frameCheck, List.find?_eq_none.2 hnone]

theorem State.callTo_ok {s : State} {c : Issue} {g : Group} {target : DWord} {w : Word}
    (hn : ∀ q, q < 32 → (g.lane q).nest = 0) (h : s.HasHeader c.gkey target 0 w) :
    s.callTo c g target = .ok (s.setGroup c.gkey ({ g with u := g.u.setReg 55 c.next }.jump c.lanes target)) := by
  obtain ⟨x, hx⟩ := checkCall_header h
  simp only [State.callTo, hx, State.frameCheck_outside hn]

/-- What a call of a group leaves: the link, the target, the region closed. -/
def CallEntered (s : State) (c : Issue) (g : Group) (target : DWord) (t : State) : Prop :=
  GroupBecomes s t c.gkey { g.closed c with u := { g.u with s := g.u.s.set 55 c.next, bad := g.u.bad &&& ~~~(1#72 <<< 55) } }
    (fun q => if c.lanes.getLsbD q then c.closeLane { g.lane q with vpc := target, rep := 0 } else g.lane q) ∧
  t.teams = s.teams ∧ SameMemory s t

theorem settle_call {s : State} {c : Issue} {g : Group} (target : DWord) :
    Answers (settle s c (.ok ((s.setGroup c.gkey ({ g with u := g.u.setReg 55 c.next }.jump c.lanes target)).modGroup c.gkey
      (Group.close c)))) (CallEntered s c g target) := by
  rw [State.setGroup_close]
  have hb := GroupBecomes.close (s := s) (t := s.setGroup c.gkey (({ g with u := g.u.setReg 55 c.next }.jump c.lanes
    target).close c)) (g := { g with u := g.u.setReg 55 c.next }) (f := fun l => { l with vpc := target, rep := 0 }) rfl
  refine ⟨_, rfl, ?_, rfl, .of_eq rfl rfl rfl⟩
  rw [← UFile.setReg_link]
  exact hb

/-- What a closing transfer that is not taken leaves. -/
def TransferPassed (s : State) (c : Issue) (g : Group) (t : State) : Prop :=
  GroupBecomes s t c.gkey (g.closed c) (c.movedClosed g) ∧ t.teams = s.teams ∧ SameMemory s t

section

variable {s : State} {c : Issue} {g : Group} (h : s.Runs c g)
include h

theorem call_taken (hn : ∀ q, q < 32 → (g.lane q).nest = 0) {k : Nat} {neg : Bool} {o : BitVec 21} {w : Word} {target : DWord}
    (ht : target = c.addr + 4 * o.signExtend 64) (hk : (g.u.pred k != neg) = true) (hh : s.HasHeader c.gkey target 0 w) :
    Answers (exec (.call k neg o) s) (CallEntered s c g target) := by
  change Answers (execCall k neg o s) _
  rw [execCall, groupOrCox_runs h, if_pos hk, ← ht, State.callTo_ok hn hh]
  exact settle_call target

theorem call_passed {k : Nat} {neg : Bool} {o : BitVec 21} (hk : (g.u.pred k != neg) = false) :
    Answers (exec (.call k neg o) s) (TransferPassed s c g) := by
  change Answers (execCall k neg o s) _
  rw [execCall, groupOrCox_runs h, hk]
  exact settle_advance_close h

theorem calli_taken (hn : ∀ q, q < 32 → (g.lane q).nest = 0) {a : USrc} {k : Nat} {w : Word} (hk : c.kholds k g.u = true)
    (hh : s.HasHeader c.gkey (a.get g.u) 0 w) : Answers (exec (.calli a k) s) (CallEntered s c g (a.get g.u)) := by
  change Answers (execCalli a k s) _
  rw [execCalli, groupOrCox_runs h, if_pos hk, State.callTo_ok hn hh]
  exact settle_call _

theorem calli_passed {a : USrc} {k : Nat} (hk : c.kholds k g.u = false) : Answers (exec (.calli a k) s) (TransferPassed s c g) := by
  change Answers (execCalli a k s) _
  rw [execCalli, groupOrCox_runs h, hk]
  exact settle_advance_close h

theorem ret_passed {k : Nat} (hk : c.kholds k g.u = false) : Answers (exec (.ret k) s) (TransferPassed s c g) := by
  change Answers (execRet k s) _
  rw [execRet, groupOrCox_runs h, hk]
  exact settle_advance_close h

end

/-- Outside callees s55 is no token of an open call. -/
theorem State.atToken_outside {s : State} {c : Issue} {g : Group} (hn : ∀ q, q < 32 → (g.lane q).nest = 0) :
    s.atToken c g = false := by
  rw [State.atToken, Bool.and_eq_false_iff]
  by_cases hz : c.lanes = 0
  · exact .inl (by simp [hz])
  · obtain ⟨q, hq, hbit⟩ := exists_bit_of_ne_zero hz
    refine .inr (List.all_eq_false.2 ⟨q, (mem_positions _ q).2 ⟨hq, hbit⟩, ?_⟩)
    rw [State.inner, if_pos (hn q hq)]
    simp

theorem ret_taken {s : State} {c : Issue} {g : Group} (h : s.Runs c g) (hn : ∀ q, q < 32 → (g.lane q).nest = 0) {k : Nat}
    (hk : c.kholds k g.u = true) (hl : s.Landed c.gkey (g.u.reg 55)) : Answers (exec (.ret k) s) fun t =>
      GroupBecomes s t c.gkey (g.closed c)
        (fun q => if c.lanes.getLsbD q then c.closeLane { g.lane q with vpc := g.u.reg 55, rep := 0 } else g.lane q) ∧
      t.teams = s.teams ∧ SameMemory s t := by
  change Answers (execRet k s) _
  rw [execRet, groupOrCox_runs h]
  simp only [hk, State.atToken_outside hn, checkTarget_landed hl, Bool.not_true, Bool.false_eq_true, if_false]
  rw [State.setGroup_close]
  exact ⟨_, rfl, .close (f := fun l => { l with vpc := g.u.reg 55, rep := 0 }) rfl, rfl, .of_eq rfl rfl rfl⟩

end Sys2Proof.Machine
end

section
/-! PROOF. Control transfers of the cox, and O16. -/

namespace Sys2Proof.Machine

/-! ### Transfers of the cox (R341) -/

/-- A good address of a cox's code: a word of its own memory (log entry 11). -/
def CoxGood (a : DWord) : Prop := a.toNat < 0x10000 ∧ a.toNat % 4 = 0

theorem CoxGood.target {a : DWord} (h : CoxGood a) : coxTarget a = none := coxTarget_good h.1 h.2

/-- The word of a cox's memory before a function is a header of the plain rule. -/
def CoxHeader (x : Cox) (a : DWord) : Prop :=
  let w := leNat (mread x.mem (a - 4).toNat 4)
  w / 2 ^ 25 = 0x5E ∧ w / 2 ^ 23 % 4 = 0 ∧ 1 ≤ w / 2 ^ 16 % 64 ∧ w / 2 ^ 16 % 64 ≤ 56

theorem CoxHeader.parse {x : Cox} {a : DWord} (h : CoxHeader x a) :
    ∃ y, Header.parse (w32 (leNat (mread x.mem (a - 4).toNat 4))) = some y ∧ y.rule = 0 := by
  obtain ⟨hm, hr, hf⟩ := h
  have hlt : leNat (mread x.mem (a - 4).toNat 4) < 2 ^ 32 := by
    have := leNat_lt (mread x.mem (a - 4).toNat 4)
    rwa [mread_length] at this
  have hw : (w32 (leNat (mread x.mem (a - 4).toNat 4))).toNat = leNat (mread x.mem (a - 4).toNat 4) := by
    rw [w32, BitVec.toNat_ofNat, Nat.mod_eq_of_lt hlt]
  obtain ⟨y, hy, hrule⟩ := Header.parse_some (w := w32 (leNat (mread x.mem (a - 4).toNat 4))) (by rw [hw]; exact hm)
    (by rw [hw]; omega) (by rw [hw]; exact hf)
  exact ⟨y, hy, by rw [hrule, hw]; exact hr⟩

theorem Cox.callTo_ok {c : Issue} {x : Cox} {a : DWord} (hg : CoxGood a) (hg4 : CoxGood (a - 4)) (hh : CoxHeader x a) :
    x.callTo c a = .ok ({ x with u := x.u.setReg 55 c.next }.jump a) := by
  obtain ⟨y, hy, hrule⟩ := hh.parse
  simp only [Cox.callTo, hg.target, hg4.target, hy, hrule, if_true]

section

variable {s : State} {c : Issue} (h : s.RunsCox c)
include h

theorem bra_cox (k : Nat) (neg : Bool) (o : BitVec 21) {target : DWord} (ht : target = c.addr + 4 * o.signExtend 64) :
    (((s.core c.core).cox.u.pred k != neg) = true → CoxGood target →
      exec (.bra k neg o) s = .next (s.modCore c.core fun n => { n with cox := (s.core c.core).cox.jump target })) ∧
    (((s.core c.core).cox.u.pred k != neg) = false →
      exec (.bra k neg o) s = .next (s.modCore c.core fun n => { n with cox := Cox.advance c (s.core c.core).cox })) := by
  change (_ → _ → execBra k neg o s = _) ∧ (_ → execBra k neg o s = _)
  rw [execBra, groupOrCox_cox h, ← ht]
  exact ⟨fun hk hg => coxControl_ok (by simp only [hk, hg.target, if_true]),
    fun hk => coxControl_ok (if_neg (by simp [hk]))⟩

theorem call_cox (k : Nat) (neg : Bool) (o : BitVec 21) {target : DWord} (ht : target = c.addr + 4 * o.signExtend 64) :
    (((s.core c.core).cox.u.pred k != neg) = true → CoxGood target → CoxGood (target - 4) →
      CoxHeader (s.core c.core).cox target → exec (.call k neg o) s = .next (s.modCore c.core fun n => { n with
        cox := { (s.core c.core).cox with u := (s.core c.core).cox.u.setReg 55 c.next }.jump target })) ∧
    (((s.core c.core).cox.u.pred k != neg) = false →
      exec (.call k neg o) s = .next (s.modCore c.core fun n => { n with cox := Cox.advance c (s.core c.core).cox })) := by
  change (_ → _ → _ → _ → execCall k neg o s = _) ∧ (_ → execCall k neg o s = _)
  rw [execCall, groupOrCox_cox h, ← ht]
  exact ⟨fun hk hg hg4 hh => coxControl_ok (by rw [if_pos hk, Cox.callTo_ok hg hg4 hh]),
    fun hk => coxControl_ok (if_neg (by simp [hk]))⟩

theorem calli_cox (a : USrc) (k : Nat) :
    (c.kholds k (s.core c.core).cox.u = true → CoxGood (a.get (s.core c.core).cox.u) →
      CoxGood (a.get (s.core c.core).cox.u - 4) → CoxHeader (s.core c.core).cox (a.get (s.core c.core).cox.u) →
      exec (.calli a k) s = .next (s.modCore c.core fun n => { n with
        cox := { (s.core c.core).cox with u := (s.core c.core).cox.u.setReg 55 c.next }.jump
          (a.get (s.core c.core).cox.u) })) ∧
    (c.kholds k (s.core c.core).cox.u = false →
      exec (.calli a k) s = .next (s.modCore c.core fun n => { n with cox := Cox.advance c (s.core c.core).cox })) := by
  change (_ → _ → _ → _ → execCalli a k s = _) ∧ (_ → execCalli a k s = _)
  rw [execCalli, groupOrCox_cox h]
  exact ⟨fun hk hg hg4 hh => coxControl_ok (by rw [if_pos hk, Cox.callTo_ok hg hg4 hh]),
    fun hk => coxControl_ok (if_neg (by simp [hk]))⟩

theorem ret_cox (k : Nat) :
    (c.kholds k (s.core c.core).cox.u = true → CoxGood ((s.core c.core).cox.u.reg 55) → exec (.ret k) s =
      .next (s.modCore c.core fun n => { n with cox := (s.core c.core).cox.jump ((s.core c.core).cox.u.reg 55) })) ∧
    (c.kholds k (s.core c.core).cox.u = false →
      exec (.ret k) s = .next (s.modCore c.core fun n => { n with cox := Cox.advance c (s.core c.core).cox })) := by
  change (_ → _ → execRet k s = _) ∧ (_ → execRet k s = _)
  rw [execRet, groupOrCox_cox h]
  exact ⟨fun hk hg => coxControl_ok (by simp only [hk, hg.target, if_true]),
    fun hk => coxControl_ok (if_neg (by simp [hk]))⟩

end

end Sys2Proof.Machine

open Sys2Proof Sys2Proof.Machine

/-- R104-R106. -/
theorem branchesAndJumps : Claims.BranchesAndJumps := fun _ c _ h =>
  ⟨fun p neg o => brl_runs h p neg o (target_ofInt c.addr o).symm, fun k neg o => bra_runs h k neg o (target_ofInt c.addr o).symm,
    fun d a gd => jml_runs h d a gd⟩

/-- R14. -/
theorem callsAndReturn : Claims.CallsAndReturn := fun _ c _ h hn =>
  ⟨fun _ _ o _ => ⟨fun hk hh => call_taken h hn (target_ofInt c.addr o).symm hk hh, fun hk => call_passed h hk⟩,
    fun _ _ _ => ⟨fun hk hh => calli_taken h hn hk hh, fun hk => calli_passed h hk⟩,
    fun _ => ⟨fun hk hl => ret_taken h hn hk hl, fun hk => ret_passed h hk⟩⟩

/-- R341. -/
theorem coxControlTransfers : Claims.CoxControl := by
  intro s c h x good put jump linked header
  have hlink : { x with u := x.u.setReg 55 c.next } = linked := by rw [UFile.setReg_link]
  refine ⟨fun k neg o => ?_, fun a k => ?_, fun k => ret_cox h k⟩
  · obtain ⟨hbra, hbra'⟩ := bra_cox h k neg o (target_ofInt c.addr o).symm
    obtain ⟨hcall, hcall'⟩ := call_cox h k neg o (target_ofInt c.addr o).symm
    rw [hlink] at hcall
    exact ⟨hbra, hbra', hcall, hcall'⟩
  · obtain ⟨hcall, hcall'⟩ := calli_cox h a k
    rw [hlink] at hcall
    exact ⟨hcall, hcall'⟩

/-- Settles O16, from the transfers of a group and of the cox. -/
theorem controlTransfers : Obligations.ControlTransfers := ⟨branchesAndJumps, callsAndReturn, coxControlTransfers⟩
end

section
/-! PROOF. MRS and MSR (O33). -/

namespace Sys2Proof.Machine

/-! ### The values that cards refuse (R24, R98, R149, R256) -/

theorem cvmOk_iff (x : Nat) : cvmOk x = true ↔ ∀ i, i < 7 → x / 16 ^ i % 8 < 6 := by
  have hbits : ∀ i, bits x (4 * i + 2) (4 * i) = x / 16 ^ i % 8 := fun i => by
    rw [bits, show 4 * i + 2 + 1 - 4 * i = 3 by omega, Nat.pow_mul]; rfl
  simp [cvmOk, hbits]

theorem cvm_fields (x : DWord) : x.setWidth 32 &&& 0x0FFFFFFF#32 = BitVec.ofNat 32 (x.toNat % 2 ^ 28) := by
  apply BitVec.eq_of_toNat_eq
  rw [BitVec.toNat_and, BitVec.toNat_setWidth, BitVec.toNat_ofNat, BitVec.toNat_ofNat,
    show 0x0FFFFFFF % 2 ^ 32 = 2 ^ 28 - 1 by rfl, Nat.and_two_pow_sub_one_eq_mod]
  omega

/-- `wsave` keeps bits 63:16 (R149). -/
theorem wsave_fields (x : DWord) : x &&& 0xFFFFFFFFFFFF0000#64 = BitVec.ofNat 64 (x.toNat / 2 ^ 16 * 2 ^ 16) := by
  have hshift : x &&& 0xFFFFFFFFFFFF0000#64 = (x >>> 16) <<< 16 := by
    rw [BitVec.shiftLeft_ushiftRight]
    rfl
  rw [hshift]
  apply BitVec.eq_of_toNat_eq
  simp [Nat.shiftLeft_eq, Nat.shiftRight_eq_div_pow]

theorem shiftRight_54_eq_zero_iff (x : DWord) : x >>> 54 = 0 ↔ x.toNat < 2 ^ 54 := by
  rw [← BitVec.toNat_inj, BitVec.toNat_ushiftRight, Nat.shiftRight_eq_div_pow]
  exact Nat.div_eq_zero_iff_lt (by decide)

theorem whereOf_setWidth {k : Nat} (h : coreOf k < 1728) :
    (whereOf k).setWidth 64 =
      BitVec.ofNat 64 (coreOf k + 2 ^ 15 * (coreOf k / 216) + 2 ^ 18 * (k % 16) + 2 ^ 24 * (k / 16 % 4)) := by
  apply BitVec.eq_of_toNat_eq
  rw [whereOf, dieOf, show k % 64 / 16 = k / 16 % 4 by omega, BitVec.toNat_setWidth, BitVec.toNat_ofNat, BitVec.toNat_ofNat,
    Nat.mod_eq_of_lt (b := 2 ^ 32) (by omega)]

/-- The uniform registers by number (R24, R98, R149, R256, R295, R312-R314). -/
theorem State.readRegister_eq {s : State} {k : Nat} {g : Group} {n : Nat} {v : DWord}
    (hv : (n = 0 ∧ v = g.cvm.setWidth 64) ∨ (n = 1 ∧ ∃ tm, tget s.teams g.tid = some tm ∧ v = BitVec.ofNat 64 tm.desc.nbv) ∨
      (n = 4 ∧ v = g.gbase) ∨ (n = 5 ∧ v = g.wsave) ∨ (n = 6 ∧ v = g.efaddr) ∨
      (n = 7 ∧ ∃ tm, tget s.teams g.tid = some tm ∧ v = tm.ringtab) ∨ (n = 8 ∧ v = s.stroke) ∨
      (n = 9 ∧ v = BitVec.ofNat 64 (coreOf k + 2 ^ 15 * (coreOf k / 216) + 2 ^ 18 * (k % 16) + 2 ^ 24 * (k / 16 % 4)) ∧
        coreOf k < 1728)) : v = s.readRegister k g n := by
  rcases hv with ⟨rfl, hv⟩ | ⟨rfl, tm, ht, hv⟩ | ⟨rfl, hv⟩ | ⟨rfl, hv⟩ | ⟨rfl, hv⟩ | ⟨rfl, tm, ht, hv⟩ | ⟨rfl, hv⟩ |
    ⟨rfl, hv, hcore⟩
  · exact hv
  · rw [hv, State.readRegister, ht]; rfl
  · exact hv
  · exact hv
  · exact hv
  · rw [hv, State.readRegister, ht]; rfl
  · exact hv
  · exact hv.trans (whereOf_setWidth hcore).symm

/-- A write of a register by the check of its card (R24, R98, R149, R256): h is the group with the value, ok the check. -/
theorem Group.writeRegister_eq {g h : Group} {x : DWord} {n : Nat} {ok : Prop}
    (hn : (n = 0 ∧ (ok ↔ ∀ i, i < 7 → x.toNat / 16 ^ i % 8 < 6) ∧ h = { g with cvm := BitVec.ofNat 32 (x.toNat % 2 ^ 28) }) ∨
      (n = 4 ∧ (ok ↔ x.toNat < 2 ^ 54) ∧ h = { g with gbase := x }) ∨
      (n = 5 ∧ (ok ↔ x.toNat < 2 ^ 54) ∧ h = { g with wsave := BitVec.ofNat 64 (x.toNat / 2 ^ 16 * 2 ^ 16) }) ∨
      (n = 6 ∧ (ok ↔ x.toNat / 2 ^ 54 % 4 = 0) ∧ h = { g with efaddr := x })) :
    n ≠ 7 ∧ (ok → g.writeRegister n x = some h) ∧ (¬ ok → g.writeRegister n x = none) := by
  rcases hn with ⟨rfl, hok, rfl⟩ | ⟨rfl, hok, rfl⟩ | ⟨rfl, hok, rfl⟩ | ⟨rfl, hok, rfl⟩
  · rw [← cvmOk_iff] at hok
    rw [hok, ← cvm_fields]
    exact ⟨by decide, fun ho => if_pos ho, fun ho => if_neg ho⟩
  · rw [hok, ← shiftRight_54_eq_zero_iff]
    exact ⟨by decide, fun ho => if_pos ho, fun ho => if_neg ho⟩
  · rw [hok, ← shiftRight_54_eq_zero_iff, ← wsave_fields]
    exact ⟨by decide, fun ho => if_pos ho, fun ho => if_neg ho⟩
  · rw [hok]
    exact ⟨by decide, fun ho => if_pos ho, fun ho => if_neg ho⟩

/-- A write of a register changes no lane. -/
theorem Group.writeRegister_lane {g h : Group} {n : Nat} {x : DWord} (hw : g.writeRegister n x = some h) (q : Nat) :
    h.lane q = g.lane q := by
  unfold Group.writeRegister at hw
  split at hw <;> obtain ⟨_, ⟨⟩⟩ := Option.ite_none_right_eq_some.1 hw <;> rfl

/-! ### The frames of MRS and MSR -/

theorem orCox_runs {s : State} {c : Issue} {g : Group} (h : s.Runs c g) (cox : Issue → Out) (group : Out) :
    orCox s cox group = group := by
  obtain ⟨hcur, hcox, _⟩ := h
  simp [orCox, hcur, hcox]

/-- A group is changed and its lanes move on. -/
theorem State.setGroup_advance (s : State) (c : Issue) (g : Group) :
    (s.setGroup c.gkey g).advance c = s.setGroup c.gkey (g.mapLanes c.lanes c.advance) := by
  rw [State.advance, State.modGroup_some (State.tget_setGroup_self ..), State.setGroup_setGroup]

theorem Group.mapLanes_mapLanes (g : Group) (m : Mask) (f f' : Lane → Lane) :
    (g.mapLanes m f).mapLanes m f' = g.mapLanes m fun l => f' (f l) := by
  simp only [Group.mapLanes, Group.mk.injEq, true_and]
  refine Vector.ext fun i hi => ?_
  simp only [Vector.getElem_ofFn, Fin.getElem_fin]
  split <;> rfl

/-- A trap of a group whose cause is no memory error stops it and leaves memory as it is (R323). -/
theorem takeTrap_stops {s : State} {c : Issue} {g : Group} (h : s.Runs c g) {cause : Nat} (d1 d2 : DWord) (m : Mask)
    (hc : cause ≠ 0x30) :
    (∃ y, tget (s.takeTrap c cause d1 d2 m).groups c.gkey = some { g with stop := some y } ∧ y.cause = cause ∧
      y.unit = c.addr) ∧ SameMemory s (s.takeTrap c cause d1 d2 m) := by
  rw [State.takeTrap_group h d1 d2 m hc]
  obtain ⟨hstop, _, _, hmem, _⟩ :=
    stopped_group (s := s) (k := c.gkey) (g := g) (x := trapStop c cause d1 d2 m)
      (r := reportOf c.gkey g (trapStop c cause d1 d2 m))
  exact ⟨⟨_, hstop, rfl, rfl⟩, hmem⟩

theorem closingUnit_error {s : State} {c : Issue} {g : Group} (h : s.Runs c g) {k : Nat} {body : Issue → Group → Res} {e : Halt}
    (hk : c.kholds k g.u = true) (hb : body c g = .error e) : closingUnit k s body = settle s c (.error e) := by
  rw [closingUnit, groupUnit_runs h, hk, if_pos rfl, hb]

/-! ### Units that read and write registers -/

section
variable {s : State} {c : Issue} {g : Group} (h : s.Runs c g) (hk : c.kholds 0 g.u = true)
include h hk

/-- A MRS of a uniform register (R312). -/
theorem mrs_uniform (d : UDst) (n : Nat) : Answers (exec (.mrs (.u d) n) s) fun t =>
    GroupBecomes s t c.gkey { g with u := d.put false (s.readRegister c.gkey g n) g.u } (c.moved g) ∧ t.teams = s.teams ∧
      SameMemory s t := by
  change Answers (orCox s _ (guardedUnit 0 s _)) _
  rw [orCox_runs h, guardedUnit_true h hk]
  dsimp only
  rw [State.modGroup_some h.2.2, State.setGroup_advance]
  exact ⟨_, rfl, .mapLanes rfl, rfl, .of_eq rfl rfl rfl⟩

/-- A MRS of a lane register (R133, R312). -/
theorem mrs_lanes (d : LDst) (n : Nat) : Answers (exec (.mrs (.v d) n) s) fun t =>
    GroupBecomes s t c.gkey g (fun q => if c.lanes.getLsbD q then
      c.advance (d.put64 false (laneRegister c n (g.lane q)) (g.lane q)) else g.lane q) ∧
    t.teams = s.teams ∧ SameMemory s t := by
  change Answers (orCox s _ (guardedUnit 0 s _)) _
  rw [orCox_runs h, guardedUnit_true h hk]
  dsimp only
  rw [State.modGroup_some h.2.2, State.setGroup_advance, Group.mapLanes_mapLanes]
  exact ⟨_, rfl, .mapLanes (f := fun l => c.advance (d.put64 false (laneRegister c n l) l)) rfl, rfl, .of_eq rfl rfl rfl⟩

/-- A MSR of the lanes' random state (R133). -/
theorem msr_lanes (a : LSrc) (n : Nat) : Answers (exec (.msr (.v a) n) s) fun t =>
    GroupBecomes s t c.gkey (g.closed c) (fun q => if c.lanes.getLsbD q then
      c.closeLane (c.advance { g.lane q with lrng := a.r64 (g.lane q) }) else g.lane q) ∧
    t.teams = s.teams ∧ SameMemory s t := by
  change Answers (closingUnit 0 s _) _
  rw [closingUnit_ok h hk rfl, State.modGroup_some h.2.2, State.setGroup_advance, State.setGroup_close, Group.mapLanes_mapLanes]
  exact ⟨_, rfl, .close (f := fun l => c.advance { l with lrng := a.r64 l }) rfl, rfl, .of_eq rfl rfl rfl⟩

/-- A MSR of a value that its card takes (R312). -/
theorem msr_accepted {a : USrc} {n : Nat} {g' : Group} (hn : n ≠ 7) (hw : g.writeRegister n (a.get g.u) = some g') :
    Answers (exec (.msr (.u a) n) s) fun t =>
      GroupBecomes s t c.gkey (g'.closed c) (c.movedClosed g) ∧ t.teams = s.teams ∧ SameMemory s t := by
  change Answers (closingUnit 0 s _) _
  rw [closingUnit_ok (t := (s.setGroup c.gkey g').advance c) h hk (by simp only [if_neg hn, hw]), State.setGroup_advance,
    State.setGroup_close]
  refine ⟨_, rfl, GroupBecomes.congr (fun q _ => ?_) (.close rfl), rfl, .of_eq rfl rfl rfl⟩
  rw [Group.writeRegister_lane hw q]
  rfl

/-- A MSR of a value that its card refuses (R55, R312). -/
theorem msr_refused {a : USrc} {n : Nat} (hn : n ≠ 7) (hw : g.writeRegister n (a.get g.u) = none) :
    Answers (exec (.msr (.u a) n) s) fun t =>
      (∃ y, tget t.groups c.gkey = some { g with stop := some y } ∧ y.cause = 1 ∧ y.unit = c.addr) ∧ SameMemory s t := by
  change Answers (closingUnit 0 s _) _
  rw [closingUnit_error h hk (by simp only [if_neg hn, hw]; rfl), settle_trap _ _ _ _ _ (by decide)]
  exact ⟨_, rfl, takeTrap_stops h _ _ _ (by decide)⟩

end

end Sys2Proof.Machine

open Sys2Proof Sys2Proof.Machine

/-- Settles O33, from what each form of MRS and MSR does. -/
theorem specialRegisterReadsAndWrites : Obligations.SpecialRegisterReadsAndWrites := by
  intro s c g h hk
  refine ⟨fun d n v hv => ?_, fun d n hn => ?_, fun a => msr_lanes h hk a 2, fun a n ok g' hn => ?_⟩
  · rw [State.readRegister_eq hv]
    exact mrs_uniform h hk d n
  · rcases hn with rfl | rfl <;> exact mrs_lanes h hk d _
  · obtain ⟨h7, haccepts, hrefuses⟩ := Group.writeRegister_eq hn
    exact ⟨fun ho => msr_accepted h hk h7 (haccepts ho), fun ho => msr_refused h hk h7 (hrefuses ho)⟩
end

section
/-! SUPPORT. Partitions and rendezvous of a calm group: the members of a partition by position, and an arrival that leaves a
lane of its group active completes collectives alone (R145, R146, R166, R171-R177). -/

namespace Sys2Proof.Machine

/-! ### Members of a partition -/

/-- The members of a partition for a position of a calm group, as a mask. -/
def Group.memberMask (g : Group) (n p : Nat) : Mask :=
  (g.part n).within 0xFFFFFFFF#32 p &&& g.where fun l => l.state != .absent

theorem Group.members_eq (g : Group) (n p : Nat) : g.members n p = positions (g.memberMask n p) := rfl

theorem bit_allOnes {q : Nat} (h : q < 32) : (0xFFFFFFFF#32 : Mask).getLsbD q = true :=
  (BitVec.getLsbD_allOnes (v := 32) (i := q)).trans (decide_eq_true h)

theorem blockMask_bit (a n : Nat) {q : Nat} (h : q < 32) : (blockMask a n).getLsbD q = decide (a ≤ q ∧ q < a + n) := by
  rw [blockMask, maskOf_bit _ h]
  simp [h]

/-- Which part of a layout a position lies in. -/
def Part.label (x : Part) (q : Nat) : Nat :=
  match x.kind with
  | .whole => 0
  | .b4 => q / 4
  | .b8 => q / 8
  | .b16 => q / 16
  | .mask => (x.mask.getLsbD q).toNat

/-- The layout of a partition joins the positions with one label (R146). -/
theorem Part.within_bit (x : Part) {p q : Nat} (hq : q < 32) :
    (x.within 0xFFFFFFFF#32 p).getLsbD q = decide (x.label q = x.label p) := by
  have hblock : ∀ n, 0 < n → ((0xFFFFFFFF#32 &&& blockMask (p / n * n) n).getLsbD q = decide (q / n = p / n)) := fun n hn => by
    rw [BitVec.getLsbD_and, bit_allOnes hq, blockMask_bit _ _ hq, Bool.true_and, decide_eq_decide, Nat.div_eq_iff hn]
    constructor <;> intro h <;> omega
  obtain ⟨kind, mask⟩ := x
  cases kind with
  | whole => exact bit_allOnes hq
  | b4 => exact hblock 4 (by decide)
  | b8 => exact hblock 8 (by decide)
  | b16 => exact hblock 16 (by decide)
  | mask =>
    have hones : ∀ m : Mask, (0xFFFFFFFF#32 &&& m).getLsbD q = m.getLsbD q := fun m => by
      rw [BitVec.getLsbD_and, bit_allOnes hq, Bool.true_and]
    rw [Bool.eq_iff_iff, decide_eq_true_iff]
    simp only [Part.within, Part.label]
    cases mask.getLsbD p with
    | true => rw [if_pos rfl, hones]; cases mask.getLsbD q <;> simp
    | false => rw [if_neg (by decide), hones, BitVec.getLsbD_not]; cases mask.getLsbD q <;> simp [hq]

theorem Group.memberMask_bit (g : Group) (n : Nat) {p q : Nat} (hq : q < 32) :
    (g.memberMask n p).getLsbD q = (decide ((g.part n).label q = (g.part n).label p) && (g.lane q).state != .absent) := by
  rw [Group.memberMask, BitVec.getLsbD_and, Group.where_bit _ _ hq, Part.within_bit _ hq]

/-- A member of a position's part has the same members. -/
theorem Group.memberMask_same (g : Group) (n : Nat) {p q : Nat} (hq : q < 32) (h : (g.memberMask n p).getLsbD q = true) :
    g.memberMask n q = g.memberMask n p := by
  rw [Group.memberMask_bit _ _ hq, Bool.and_eq_true, decide_eq_true_iff] at h
  refine mask_ext fun r hr => ?_
  rw [Group.memberMask_bit _ _ hr, Group.memberMask_bit _ _ hr, h.1]

theorem Group.memberMask_self (g : Group) (n : Nat) {p : Nat} (hp : p < 32) (h : (g.lane p).state ≠ .absent) :
    (g.memberMask n p).getLsbD p = true := by
  rw [Group.memberMask_bit _ _ hp]
  simp [h]

/-! ### A calm group (R145, R152, R166) -/

section
variable {s : State} {g : Group} (h : s.Calm g)
include h

theorem State.Calm.inner {k p : Nat} (hp : p < 32) : s.inner k g p = .none := by
  obtain ⟨_, _, _, _, hnest, _⟩ := h
  rw [State.inner, if_pos (hnest p hp)]

theorem State.Calm.wholeMask {k p : Nat} (hp : p < 32) : s.wholeMask k g p = 0xFFFFFFFF#32 := by
  have hblocks := h.2.1
  rw [State.wholeMask, h.inner hp, Group.blockAt, hblocks]
  rfl

theorem State.Calm.membersOf {k n p : Nat} (hp : p < 32) : s.membersOf k g n p = g.memberMask n p := by
  rw [State.membersOf, h.wholeMask hp]
  rfl

/-- The members a collective has for a position; XLID is of the whole group (R167). -/
theorem State.Calm.collMembers {k p : Nat} {u : CollUnit} (hu : u.op = .xlid → u.part = 0) (hp : p < 32) :
    s.collMembers k g u p = g.memberMask u.part p := by
  have hwhole : u.op = .xlid → g.memberMask u.part p = g.where fun l => l.state != .absent := fun hop => by
    refine mask_ext fun q hq => ?_
    rw [hu hop, Group.memberMask_bit _ _ hq, Group.where_bit _ _ hq]
    simp [Group.part, Part.label]
  unfold State.collMembers
  rw [h.inner hp]
  by_cases hop : u.op = .xlid
  · simp only [hop, hwhole]
  · split
    · contradiction
    · contradiction
    · contradiction
    · exact h.membersOf hp

theorem State.Calm.coupledOnly {c : Issue} (r : Res) : coupledOnly s c g r = r := by
  have hnone : s.uncoupled c.gkey g c.lanes = [] :=
    List.filter_eq_nil_iff.2 fun p hp => by rw [h.inner ((mem_positions _ p).1 hp).1]; simp [State.innerHdr]
  rw [Machine.coupledOnly, hnone]

end

/-! ### An arrival while a lane of the group is active -/

section
variable {s : State} {k : Nat} {g : Group} (hg : tget s.groups k = some g)

/-- No rejoin mask is set: no join completes (R144). -/
theorem Group.finishJoins_none (h : g.joins = Vector.replicate 4 0) : g.finishJoins = g := by
  have hjoin : ∀ j, g.finishJoin j = g := fun j => by
    have hz : g.joins[j]?.getD 0 = 0 := by
      rw [h, Vector.getElem?_replicate]; split <;> rfl
    unfold Group.finishJoin
    rw [hz]
    rfl
  simp [Group.finishJoins, List.range_succ, hjoin]

/-- One active lane keeps every rendezvous of all lanes of its group open (R154, R171, R177). -/
theorem Group.busy {q : Nat} (hq : q < 32) (ha : (g.lane q).state = .active) :
    (∀ ks, g.allAt ks = false) ∧ ((List.range 32).all fun p => (g.lane p).regroupReady) = false ∧
      ((List.range 32).all fun p => (g.lane p).gatherReady) = false := by
  have hin : q ∈ List.range 32 := List.mem_range.2 hq
  refine ⟨fun ks => List.all_eq_false.2 ⟨q, hin, ?_⟩, List.all_eq_false.2 ⟨q, hin, ?_⟩, List.all_eq_false.2 ⟨q, hin, ?_⟩⟩
  · simp [Lane.gone, ha]
  · simp [Lane.regroupReady, Lane.gone, ha]
  · simp [Lane.gatherReady, Lane.gone, ha]

include hg

theorem State.mem_ownGroups (hown : g.kind = .own) : (k, g) ∈ s.ownGroups g.tid :=
  List.mem_filter.2 ⟨mem_of_tget hg, by simp [hown]⟩

theorem State.finishMask_none (hmask : g.barMask = none) (unit : DWord) (lanes : Mask) : s.finishMask k unit lanes = s := by
  simp [State.finishMask, hg, hmask]

variable (hown : g.kind = .own) (hbusy : ∃ q, q < 32 ∧ (g.lane q).state = .active)
include hown hbusy

theorem State.finishTeam_busy (unit : DWord) (lanes : Mask) : s.finishTeam g.tid k unit lanes = s := by
  obtain ⟨q, hq, ha⟩ := hbusy
  have hall : ((s.ownGroups g.tid).all fun x => x.2.allAt [.team, .teamYield]) = false :=
    List.all_eq_false.2 ⟨_, State.mem_ownGroups hg hown, by simp [(Group.busy hq ha).1]⟩
  unfold State.finishTeam
  split
  · rfl
  · simp [hall]

theorem State.finishCluster_busy {tm : Team} (ht : tget s.teams g.tid = some tm) (hin : g.tid ∈ tm.cluster) :
    s.finishCluster g.tid = s := by
  obtain ⟨q, hq, ha⟩ := hbusy
  have hall : ((tm.cluster.flatMap s.ownGroups).all fun x => x.2.allAt [.clus]) = false :=
    List.all_eq_false.2 ⟨_, List.mem_flatMap.2 ⟨_, hin, State.mem_ownGroups hg hown⟩, by simp [(Group.busy hq ha).1]⟩
  simp [State.finishCluster, ht, hall]

theorem State.finishRegroup_busy : s.finishRegroup g.tid = s := by
  obtain ⟨q, hq, ha⟩ := hbusy
  have hall : ((s.ownGroups g.tid).all fun x => (List.range 32).all fun p => (x.2.lane p).regroupReady) = false :=
    List.all_eq_false.2 ⟨_, State.mem_ownGroups hg hown, by simp only [(Group.busy hq ha).2.1]; decide⟩
  unfold State.finishRegroup
  split
  · rfl
  · simp only [hall, Bool.not_false, Bool.or_true, if_true]

theorem State.testGather_busy (team : Bool) : s.testGather k team = s := by
  obtain ⟨q, hq, ha⟩ := hbusy
  have hmem : (k, g) ∈ s.gatherSet k g team := by
    rw [State.gatherSet, hown]
    cases team with
    | false => exact List.mem_singleton.2 rfl
    | true => exact State.mem_ownGroups hg hown
  have hall : ((s.gatherSet k g team).all fun x => (List.range 32).all fun p => (x.2.lane p).gatherReady) = false :=
    List.all_eq_false.2 ⟨_, hmem, by simp only [(Group.busy hq ha).2.2]; decide⟩
  unfold State.testGather
  rw [hg]
  dsimp only
  split
  · rfl
  · simp only [hall, Bool.not_false, if_true]

end

/-- An arrival completes the collectives of its group alone, where some lane of it is active afterwards, no rejoin mask is set
and no masked barrier is under way. -/
theorem State.rendezvous_busy {s : State} {k : Nat} {g g' : Group} {tm : Team} (hg : tget s.groups k = some g)
    (ht : tget s.teams g.tid = some tm) (hin : g.tid ∈ tm.cluster) (hf : g.finishColls tm.desc.nbv = g')
    (htid : g'.tid = g.tid) (hown : g'.kind = .own) (hjoins : g'.joins = Vector.replicate 4 0) (hmask : g'.barMask = none)
    (hbusy : ∃ q, q < 32 ∧ (g'.lane q).state = .active) (unit : DWord) (lanes : Mask) :
    s.rendezvous k unit lanes = s.setGroup k g' := by
  have hg' : tget (s.setGroup k g').groups k = some g' := State.tget_setGroup_self ..
  unfold State.rendezvous
  simp only [hg, ht, Option.map_some, Option.getD_some, hf, Group.finishJoins_none hjoins]
  rw [← htid] at ht hin ⊢
  rw [State.finishMask_none hg' hmask, State.finishTeam_busy hg' hown hbusy, State.finishCluster_busy hg' hown hbusy ht hin,
    State.finishRegroup_busy hg' hown hbusy, State.testGather_busy hg' hown hbusy, State.testGather_busy hg' hown hbusy]

end Sys2Proof.Machine
end

section
/-! SUPPORT. Collectives: the arrivals of an issuing set form one collective for each part, and where every lane that is not
gone has arrived, each contributor gets its result and every lane goes on (R145, R166). -/

namespace Sys2Proof.Machine

/-! ### What a unit's collectives hold -/

/-- The arrival of a position. -/
def Issue.arrival (c : Issue) (g : Group) (u : CollUnit) (p : Nat) : Arrival :=
  ⟨p, c.holds u.g (g.lane p), u.a (g.lane p), u.b (g.lane p), u.pv (g.lane p)⟩

/-- The collective of the part of position r, once the positions ps have arrived. -/
def Issue.collOf (c : Issue) (g : Group) (u : CollUnit) (ps : List Nat) (r : Nat) : Collective where
  addr := c.addr
  op := u.op
  dst := u.dst
  pdst := u.pdst
  nwb := u.nwb
  next := c.next
  again := if c.idx + 1 < c.count then some (c.idx + 1) else none
  members := g.memberMask u.part r
  arrived := (ps.filter (g.memberMask u.part r).getLsbD).map (c.arrival g u)

/-- A list of positions with one for each part of a partition that the positions ps meet. -/
structure PartHeads (g : Group) (n : Nat) (ps rs : List Nat) : Prop where
  mem   : ∀ r ∈ rs, r ∈ ps
  cover : ∀ p ∈ ps, ∃ r ∈ rs, (g.memberMask n r).getLsbD p = true
  apart : rs.Pairwise fun r r' => ∀ q, (g.memberMask n r).getLsbD q = true → (g.memberMask n r').getLsbD q = false

section
variable {c : Issue} {g : Group} {u : CollUnit}

/-- A position of another part leaves a collective as it is. -/
theorem Issue.collOf_outside {ps : List Nat} {r p : Nat} (h : (g.memberMask u.part r).getLsbD p = false) :
    c.collOf g u (ps ++ [p]) r = c.collOf g u ps r := by
  simp [Issue.collOf, List.filter_append, h]

/-- A position that has not arrived joins the collective of its part, where there is one. -/
theorem joinColl_collOf {ps : List Nat} {p : Nat} (hp : p ∉ ps) (hself : (g.memberMask u.part p).getLsbD p = true) : ∀ {rs : List Nat},
    rs.Pairwise (fun r r' => ∀ q, (g.memberMask u.part r).getLsbD q = true → (g.memberMask u.part r').getLsbD q = false) →
    joinColl c u (g.memberMask u.part p) (c.arrival g u p) (rs.map (c.collOf g u ps)) =
      if ∃ r ∈ rs, (g.memberMask u.part r).getLsbD p = true then rs.map (c.collOf g u (ps ++ [p]))
      else rs.map (c.collOf g u (ps ++ [p])) ++ [c.collOf g u [p] p]
  | [], _ => by simp [joinColl, Issue.collOf, hself]
  | r :: rs, hap => by
    obtain ⟨hhead, htail⟩ := List.pairwise_cons.1 hap
    have hnew : (c.collOf g u ps r).arrived.any (·.pos == (c.arrival g u p).pos) = false := by
      simp only [Issue.collOf, List.any_map, List.any_eq_false, List.mem_filter, Function.comp_apply, Issue.arrival, beq_iff_eq]
      rintro q ⟨hq, _⟩ rfl
      exact hp hq
    rw [List.map_cons, joinColl, hnew]
    cases hm : (g.memberMask u.part r).getLsbD p with
    | true =>
      have hrest : rs.map (c.collOf g u (ps ++ [p])) = rs.map (c.collOf g u ps) :=
        List.map_congr_left fun r' hr' => Issue.collOf_outside (hhead r' hr' p hm)
      rw [if_pos (by simp [Issue.collOf, Issue.arrival, hm]), if_pos ⟨r, by simp, hm⟩, List.map_cons, hrest]
      simp [Issue.collOf, List.filter_append, hm]
    | false =>
      rw [if_neg (by simp [Issue.collOf, Issue.arrival, hm]), joinColl_collOf hp hself htail, List.map_cons, Issue.collOf_outside hm]
      simp only [List.mem_cons, exists_eq_or_imp, hm, Bool.false_eq_true, false_or]
      split <;> rfl

/-- The arrivals of some positions, none twice, form one collective for each part. -/
theorem foldl_joinColl (ps : List Nat) (hps : ps.Nodup) (hself : ∀ p ∈ ps, (g.memberMask u.part p).getLsbD p = true) :
    ∃ rs, PartHeads g u.part ps rs ∧
      ps.foldl (fun xs p => joinColl c u (g.memberMask u.part p) (c.arrival g u p) xs) [] = rs.map (c.collOf g u ps) := by
  induction ps using List.reverseRecOn with
  | nil => exact ⟨[], ⟨by simp, by simp, .nil⟩, rfl⟩
  | append_singleton ps p ih =>
    obtain ⟨hnd, _, hdisj⟩ := List.nodup_append.1 hps
    have hp : p ∉ ps := fun hm => hdisj p hm p (by simp) rfl
    obtain ⟨rs, hrs, hfold⟩ := ih hnd fun q hq => hself q (List.mem_append_left _ hq)
    have hpp := hself p (by simp)
    rw [List.foldl_append, hfold, List.foldl_cons, List.foldl_nil, joinColl_collOf hp hpp hrs.apart]
    by_cases hhead : ∃ r ∈ rs, (g.memberMask u.part r).getLsbD p = true
    · rw [if_pos hhead]
      refine ⟨rs, ⟨fun r hr => List.mem_append_left _ (hrs.mem r hr), fun q hq => ?_, hrs.apart⟩, rfl⟩
      rcases List.mem_append.1 hq with hq | hq
      · exact hrs.cover q hq
      · exact List.mem_singleton.1 hq ▸ hhead
    · rw [if_neg hhead]
      have hapart : ∀ r ∈ rs, ∀ q, (g.memberMask u.part r).getLsbD q = true → (g.memberMask u.part p).getLsbD q = false :=
        fun r hr q hrq => by
          by_contra hpq
          have hq : q < 32 := BitVec.lt_of_getLsbD hrq
          refine hhead ⟨r, hr, ?_⟩
          rwa [← g.memberMask_same _ hq hrq, g.memberMask_same _ hq (by simpa using hpq)]
      have hfresh : ps.filter (g.memberMask u.part p).getLsbD = [] := List.filter_eq_nil_iff.2 fun q hq hbit => by
        obtain ⟨r, hr, hrq⟩ := hrs.cover q hq
        rw [hapart r hr q hrq] at hbit
        cases hbit
      refine ⟨rs ++ [p], ⟨fun r hr => ?_, fun q hq => ?_, ?_⟩, ?_⟩
      · exact (List.mem_append.1 hr).elim (fun hr => List.mem_append_left _ (hrs.mem r hr)) (List.mem_append_right _)
      · rcases List.mem_append.1 hq with hq | hq
        · obtain ⟨r, hr, hrq⟩ := hrs.cover q hq
          exact ⟨r, List.mem_append_left _ hr, hrq⟩
        · exact ⟨p, by simp, List.mem_singleton.1 hq ▸ hpp⟩
      · exact List.pairwise_append.2 ⟨hrs.apart, List.pairwise_singleton _ _, fun r hr r' hr' =>
          List.mem_singleton.1 hr' ▸ hapart r hr⟩
      · simp [Issue.collOf, List.filter_append, hfresh, hpp]

end

end Sys2Proof.Machine
end

section
/-! SUPPORT. Results of collectives: the contributors of a part by rank, and what a collective that is complete gives each of them
(R145, R166). -/

namespace Sys2Proof.Machine

/-! ### Contributors by rank -/

/-- A list that a key sorts, put together from its parts by key. -/
theorem flatMap_filter_key {α : Type} (key : α → Nat) (n : Nat) {xs : List α} (hs : xs.Pairwise fun a b => key a < key b) :
    ((List.range n).flatMap fun r => xs.filter fun x => key x == r) = xs.filter fun x => key x < n := by
  induction n with
  | zero => simp
  | succ n ih =>
    rw [List.range_succ, List.flatMap_append, ih, List.flatMap_singleton]
    clear ih
    induction xs with
    | nil => rfl
    | cons x xs ih =>
      obtain ⟨hx, hs⟩ := List.pairwise_cons.1 hs
      rcases Nat.lt_trichotomy (key x) n with hlt | heq | hgt
      · simp [hlt, Nat.le_of_lt hlt, Nat.ne_of_lt hlt, ih hs]
      · have hnone : xs.filter (fun y => key y < n) = [] :=
          List.filter_eq_nil_iff.2 fun y hy => by have := hx y hy; simp; omega
        have hlast := ih hs
        rw [hnone, List.nil_append] at hlast
        simp [heq, hnone, hlast]
      · have h1 : ¬ key x < n := by omega
        have h3 : key x ≠ n := by omega
        simp [h1, h3, Nat.not_le.2 hgt, ih hs]

/-- The members of a position's part that contribute to a collective under guard field gd (R166). -/
def Issue.givers (c : Issue) (gd : Nat) (g : Group) (n p : Nat) : List Nat :=
  (g.members n p).filter fun q => (c.taking gd g).getLsbD q

theorem Issue.contributors_eq (c : Issue) (g : Group) (n p : Nat) : c.contributors g n p = c.givers 0 g n p := rfl

theorem Group.mem_members {g : Group} {n p q : Nat} :
    q ∈ g.members n p ↔ q < 32 ∧ (g.memberMask n p).getLsbD q = true := mem_positions ..

theorem Group.members_sorted (g : Group) (n p : Nat) : (g.members n p).Pairwise (· < ·) :=
  List.pairwise_lt_range.filter _

theorem Group.members_same {g : Group} {n p q : Nat} (h : q ∈ g.members n p) : g.members n q = g.members n p := by
  obtain ⟨hq, hbit⟩ := Group.mem_members.1 h
  rw [Group.members_eq, Group.members_eq, g.memberMask_same n hq hbit]

/-- Ranks rise with positions (R166). -/
theorem Group.rank_lt {g : Group} {n p q q' : Nat} (hq : q ∈ g.members n p) (hq' : q' ∈ g.members n p) (h : q < q') :
    g.rank n q < g.rank n q' := by
  rw [Group.rank, Group.rank, Group.members_same hq, Group.members_same hq']
  have hnest : (g.members n p).filter (· < q) = ((g.members n p).filter (· < q')).filter (· < q) := by
    rw [List.filter_filter]
    refine List.filter_congr fun x _ => ?_
    by_cases hx : x < q <;> simp [hx]
    omega
  rw [hnest]
  exact List.length_filter_lt_length_iff_exists.2 ⟨q, List.mem_filter.2 ⟨hq, by simpa using h⟩, by simp⟩

theorem Group.rank_lt_32 {g : Group} {n p q : Nat} (hq : q ∈ g.members n p) : g.rank n q < 32 := by
  rw [Group.rank, Group.members_same hq]
  calc ((g.members n p).filter (· < q)).length
      < (g.members n p).length := List.length_filter_lt_length_iff_exists.2 ⟨q, hq, by simp⟩
    _ ≤ (List.range 32).length := List.length_filter_le ..
    _ = 32 := List.length_range

/-- The contributors of a position's part with their ranks and what they brought. -/
def Issue.contribs (c : Issue) (g : Group) (u : CollUnit) (p : Nat) : List Contrib :=
  (c.givers u.g g u.part p).map fun q => (g.rank u.part q, c.arrival g u q)

/-- The contributors a collective of an issuing set finds, in the order of their ranks. -/
theorem Issue.collOf_contribs (c : Issue) (g : Group) (u : CollUnit) (r : Nat) :
    ((List.range 32).flatMap fun k =>
      (((c.collOf g u (positions c.lanes) r).arrived.filter (·.contrib)).map fun z =>
        (rankOf (c.collOf g u (positions c.lanes) r).members z.pos, z)).filter fun x => x.1 == k) = c.contribs g u r := by
  have hgivers : ((positions c.lanes).filter (g.memberMask u.part r).getLsbD).filter (fun q => c.holds u.g (g.lane q)) =
      c.givers u.g g u.part r := by
    rw [Issue.givers, Group.members_eq, positions, positions, List.filter_filter, List.filter_filter, List.filter_filter]
    refine List.filter_congr fun q hq => ?_
    rw [taking_bit _ _ _ (List.mem_range.1 hq)]
    cases c.holds u.g (g.lane q) <;> cases c.lanes.getLsbD q <;> cases (g.memberMask u.part r).getLsbD q <;> rfl
  have hmem : ∀ q ∈ c.givers u.g g u.part r, q ∈ g.members u.part r := fun q hq => (List.mem_filter.1 hq).1
  have hcontribs : ((c.collOf g u (positions c.lanes) r).arrived.filter (·.contrib)).map (fun z =>
      (rankOf (c.collOf g u (positions c.lanes) r).members z.pos, z)) = c.contribs g u r := by
    simp only [Issue.collOf, List.filter_map, List.map_map]
    rw [Issue.contribs, ← hgivers]
    refine List.map_congr_left fun q hq => ?_
    rw [Group.rank, Group.members_same (hmem q (hgivers ▸ hq))]
    rfl
  have hsorted : (c.contribs g u r).Pairwise fun a b => a.1 < b.1 :=
    List.pairwise_map.2 (((g.members_sorted u.part r).filter _).imp_of_mem fun ha hb hab =>
      Group.rank_lt (hmem _ ha) (hmem _ hb) hab)
  rw [hcontribs, flatMap_filter_key (fun x : Contrib => x.1) 32 hsorted]
  refine List.filter_eq_self.2 fun x hx => ?_
  obtain ⟨q, hq, rfl⟩ := List.mem_map.1 hx
  exact decide_eq_true (Group.rank_lt_32 (hmem q hq))

/-! ### Lanes that wait for their collective -/

/-- A lane that has arrived and waits. -/
def Issue.waitLane (c : Issue) (l : Lane) : Lane :=
  { l with state := .waiting .collective, repN := if c.idx + 1 < c.count then c.count else l.repN }

theorem Issue.put32_waitLane (c : Issue) (d : LDst) (n : Bool) (x : Word) (l : Lane) :
    d.put32 n x (c.waitLane l) = c.waitLane (d.put32 n x l) := by
  cases n <;> cases d <;> rfl

theorem Issue.setPred_waitLane (c : Issue) (q : Nat) (b : Bool) (l : Lane) :
    (c.waitLane l).setPred q b = c.waitLane (l.setPred q b) := by
  unfold Lane.setPred
  split <;> rfl

/-- A lane that arrived goes on past the unit (R53, R145). -/
theorem Issue.resume_waitLane (c : Issue) (g : Group) (u : CollUnit) (ps : List Nat) (r : Nat) (l : Lane) :
    (c.collOf g u ps r).resume (c.waitLane l) = { c.advance l with state := .active } := by
  unfold Collective.resume Issue.collOf Issue.waitLane Issue.advance
  by_cases h : c.idx + 1 < c.count <;> simp [h]

/-! ### Results read the group's lanes as they were -/

section
variable {g h : Group}

theorem Lane.run_congr {l l' : Lane} (hv : l'.v = l.v) (n r : Nat) : l'.run r n = l.run r n := by
  induction n generalizing r with
  | zero => rfl
  | succ n ih => rw [Lane.run, Lane.run, ih, Lane.reg, Lane.reg, hv]

theorem fragElem_congr (hv : ∀ q, q < 32 → (h.lane q).v = (g.lane q).v) (f : Fmt) (m : Mask) (a : Nat) (share : Bool)
    (r k : Nat) : fragElem f h m a share r k = fragElem f g m a share r k := by
  unfold fragElem
  dsimp only
  split
  · rename_i hbit
    have hlane := hv _ (BitVec.lt_of_getLsbD hbit)
    rw [Lane.run_congr hlane, Lane.reg, Lane.reg, hlane]
  · rfl

theorem fragC_congr (hv : ∀ q, q < 32 → (h.lane q).v = (g.lane q).v) (f : Fmt) (m : Mask) (nbv a b sel : Nat) (x : Word)
    (i j : Nat) : fragC f h m nbv a b sel x i j = fragC f g m nbv a b sel x i j := by
  unfold fragC
  simp only [fragElem_congr hv]

theorem collWord_congr (hl : ∀ q, q < 32 → (h.lane q).lid = (g.lane q).lid) (op : CollOp) (m : Mask) (cs : List Contrib)
    (r : Nat) (x : Arrival) : collWord op h m cs r x = collWord op g m cs r x := by
  have hsource : lidSource h m cs x.b x.a = lidSource g m cs x.b x.a := by
    have hfind : ((positions m).find? fun q => (h.lane q).lid == x.b) = (positions m).find? fun q => (g.lane q).lid == x.b := by
      refine List.find?_congr fun q hq => ?_
      rw [hl q ((mem_positions m q).1 hq).1]
    rw [lidSource, lidSource, hfind]
  cases op with
  | xlid => exact hsource
  | _ => rfl

end

/-! ### The result of a contributor -/

/-- Lane l after its contribution y to a collective of which cs are the contributors by rank (R166-R170, R178-R180). -/
def Collective.give (x : Collective) (g : Group) (nbv : Nat) (cs : List Contrib) (y : Arrival) (l : Lane) : Lane :=
  match x.op with
  | .mfrag f d a b sel acc => fragLane f g (maskOf (cs.map fun c => c.2.pos)) nbv d a b sel acc y.pos l
  | op =>
    match collPred op cs with
    | some v => l.setPred x.pdst v
    | none => x.dst.put32 x.nwb (collWord op g x.members cs (rankOf x.members y.pos) y) l

theorem Collective.result_eq (x : Collective) (g : Group) (nbv : Nat) (y : Arrival) :
    x.result g nbv y =
      if y.contrib then
        x.give g nbv ((List.range 32).flatMap fun r =>
          ((x.arrived.filter (·.contrib)).map fun z => (rankOf x.members z.pos, z)).filter fun c => c.1 == r) y (g.lane y.pos)
      else g.lane y.pos := by
  unfold Collective.result Collective.give
  cases y.contrib <;> rfl

theorem Issue.fragLane_waitLane (c : Issue) {g h : Group} (hv : ∀ q, q < 32 → (h.lane q).v = (g.lane q).v) (f : Fmt) (m : Mask)
    (nbv d a b sel : Nat) (acc : Bool) (p : Nat) (l : Lane) :
    fragLane f h m nbv d a b sel acc p (c.waitLane l) = c.waitLane (fragLane f g m nbv d a b sel acc p l) := by
  unfold fragLane
  simp only [fragC_congr hv]
  apply List.foldl_hom
  intro x j
  rfl

/-- That the lanes wait does not show in a result. -/
theorem Collective.give_waitLane (x : Collective) {g h : Group} (hv : ∀ q, q < 32 → (h.lane q).v = (g.lane q).v)
    (hl : ∀ q, q < 32 → (h.lane q).lid = (g.lane q).lid) (c : Issue) (nbv : Nat) (cs : List Contrib) (y : Arrival) (l : Lane) :
    x.give h nbv cs y (c.waitLane l) = c.waitLane (x.give g nbv cs y l) := by
  unfold Collective.give
  split
  · exact c.fragLane_waitLane hv ..
  · split
    · exact c.setPred_waitLane ..
    · rw [collWord_congr hl, c.put32_waitLane]

/-- Lane p after its contribution to a collective of its group. -/
def Issue.collLane (c : Issue) (g : Group) (u : CollUnit) (nbv p : Nat) : Lane :=
  (c.collOf g u (positions c.lanes) p).give g nbv (c.contribs g u p) (c.arrival g u p) (g.lane p)

/-- What the collective of a part gives one of its members that arrived, where the lanes of its group wait. -/
theorem Issue.collOf_result {c : Issue} {g h : Group} {u : CollUnit} {p r : Nat} (hp : p ∈ g.members u.part r)
    (hv : ∀ q, q < 32 → (h.lane q).v = (g.lane q).v) (hl : ∀ q, q < 32 → (h.lane q).lid = (g.lane q).lid)
    (hwait : h.lane p = c.waitLane (g.lane p)) (nbv : Nat) :
    (c.collOf g u (positions c.lanes) r).result h nbv (c.arrival g u p) =
      c.waitLane (if c.holds u.g (g.lane p) then c.collLane g u nbv p else g.lane p) := by
  obtain ⟨hp32, hbit⟩ := Group.mem_members.1 hp
  have hcoll : c.collOf g u (positions c.lanes) r = c.collOf g u (positions c.lanes) p := by
    unfold Issue.collOf
    rw [g.memberMask_same _ hp32 hbit]
  rw [Collective.result_eq, hcoll, Issue.collOf_contribs]
  change (if c.holds u.g (g.lane p) = true then
    (c.collOf g u (positions c.lanes) p).give h nbv (c.contribs g u p) (c.arrival g u p) (h.lane p) else h.lane p) = _
  rw [hwait, Collective.give_waitLane _ hv hl]
  split <;> rfl

/-! ### Completion -/

/-- Writes of lanes, each the value that a function has for its position. -/
theorem Group.lane_foldl_setLane {α : Type} (pos : α → Nat) (val : α → Lane) (F : Nat → Lane) {ys : List α}
    (h : ∀ y ∈ ys, val y = F (pos y)) (g : Group) {q : Nat} (hq : q < 32) :
    (ys.foldl (fun k y => k.setLane (pos y) (val y)) g).lane q = if q ∈ ys.map pos then F q else g.lane q := by
  induction ys generalizing g with
  | nil => simp
  | cons y ys ih =>
    rw [List.foldl_cons, ih (fun z hz => h z (by simp [hz])), Group.lane_setLane _ _ _ hq, h y (by simp)]
    by_cases he : q = pos y
    · subst he; simp
    · simp [he]

/-- Writes of lanes leave the rest of a group. -/
theorem Group.foldl_setLane_frame {α : Type} (pos : α → Nat) (val : α → Lane) (ys : List α) (g : Group) :
    ys.foldl (fun k y => k.setLane (pos y) (val y)) g =
      { g with lanes := (ys.foldl (fun k y => k.setLane (pos y) (val y)) g).lanes } := by
  induction ys generalizing g with
  | nil => rfl
  | cons y ys ih => rw [List.foldl_cons, ih]; rfl

/-- The writes of the arrivals of several collectives, as one list. -/
def arrivalsOf (xs : List Collective) : List (Collective × Arrival) := xs.flatMap fun x => x.arrived.map (x, ·)

/-- A group with other collectives under way. -/
def Group.withColls (g : Group) (xs : List Collective) : Group := { g with colls := xs }

theorem Group.lane_withColls (g : Group) (xs : List Collective) (q : Nat) : (g.withColls xs).lane q = g.lane q := by
  rw [Group.lane, Group.lane, Group.withColls]

/-- Where all collectives of a group are complete, every arrival is written and none stays under way. -/
theorem Group.finishColls_full {g : Group} (h : ∀ x ∈ g.colls, x.full g = true) (nbv : Nat) :
    g.finishColls nbv =
      ((arrivalsOf g.colls).foldl (fun k y => k.setLane y.2.pos (y.1.resume (y.1.result g nbv y.2))) g).withColls [] := by
  have hdone : g.colls.filter (·.full g) = g.colls := List.filter_eq_self.2 h
  have hleft : g.colls.filter (fun x => !x.full g) = [] := List.filter_eq_nil_iff.2 fun x hx => by simp [h x hx]
  rw [Group.finishColls, hdone, hleft, arrivalsOf, List.foldl_flatMap]
  simp only [List.foldl_map, Group.withColls]

end Sys2Proof.Machine
end

section
/-! SUPPORT. A collective of a calm group that issues whole completes at once (R145, R166): what it answers, for every form. -/

namespace Sys2Proof.Machine

/-- A position of an issuing set after a collective that completed: past the unit and active, with its result where it
contributed. -/
def Issue.collAfter (c : Issue) (g : Group) (u : CollUnit) (nbv q : Nat) : Lane :=
  if c.lanes.getLsbD q then
    { c.advance (if c.holds u.g (g.lane q) then c.collLane g u nbv q else g.lane q) with state := .active }
  else g.lane q

/-- The group while its lanes wait for the collectives of the parts rs. -/
def Group.awaiting (g : Group) (c : Issue) (u : CollUnit) (rs : List Nat) : Group :=
  (g.mapLanes c.lanes c.waitLane).withColls (rs.map (c.collOf g u (positions c.lanes)))

theorem Group.lane_awaiting (g : Group) (c : Issue) (u : CollUnit) (rs : List Nat) {q : Nat} (hq : q < 32) :
    (g.awaiting c u rs).lane q = if c.lanes.getLsbD q then c.waitLane (g.lane q) else g.lane q := by
  rw [Group.awaiting, Group.lane_withColls, Group.lane_mapLanes _ _ _ hq]

theorem Group.awaiting_tid (g : Group) (c : Issue) (u : CollUnit) (rs : List Nat) : (g.awaiting c u rs).tid = g.tid := by
  rw [Group.awaiting, Group.withColls, Group.mapLanes]

section
variable {c : Issue} {g : Group} {u : CollUnit} {rs : List Nat} (hall : c.lanes = g.where fun l => !l.gone)
  (hrs : PartHeads g u.part (positions c.lanes) rs)
include hall

theorem mem_lanes_iff {q : Nat} (hq : q < 32) : c.lanes.getLsbD q = true ↔ (g.lane q).gone = false := by
  rw [hall, Group.where_bit _ _ hq, Bool.not_eq_true']

theorem memberMask_lanes (n : Nat) {q : Nat} (hq : q ∈ positions c.lanes) : (g.memberMask n q).getLsbD q = true := by
  obtain ⟨hq, hbit⟩ := (mem_positions _ q).1 hq
  have hgone := (mem_lanes_iff hall hq).1 hbit
  exact g.memberMask_self _ hq fun habs => by simp [Lane.gone, habs] at hgone

/-- Every member has arrived or is gone. -/
theorem Group.awaiting_full : ∀ x ∈ (g.awaiting c u rs).colls, x.full (g.awaiting c u rs) = true := by
  intro x hx
  obtain ⟨r, _, rfl⟩ := List.mem_map.1 hx
  refine List.all_eq_true.2 fun q hq => ?_
  obtain ⟨hq, hbit⟩ := (mem_positions _ q).1 hq
  rw [Bool.or_eq_true, Group.lane_awaiting _ _ _ _ hq]
  cases hin : c.lanes.getLsbD q with
  | true =>
    refine .inr (List.any_eq_true.2 ⟨c.arrival g u q, List.mem_map.2 ⟨q, List.mem_filter.2 ⟨?_, hbit⟩, rfl⟩, by simp [Issue.arrival]⟩)
    exact (mem_positions _ q).2 ⟨hq, hin⟩
  | false =>
    refine .inl ?_
    have hnot := mt (mem_lanes_iff hall hq).2
    simpa [hin] using hnot

omit hall
include hrs

/-- The arrivals of the collectives are those of the issuing set. -/
theorem mem_arrivalsOf_pos {q : Nat} :
    q ∈ (arrivalsOf (g.awaiting c u rs).colls).map (·.2.pos) ↔ q < 32 ∧ c.lanes.getLsbD q = true := by
  rw [← mem_positions]
  constructor
  · intro h
    obtain ⟨⟨x, y⟩, hy, rfl⟩ := List.mem_map.1 h
    obtain ⟨x', hx', hy⟩ := List.mem_flatMap.1 hy
    obtain ⟨r, _, rfl⟩ := List.mem_map.1 hx'
    obtain ⟨y', hy', he⟩ := List.mem_map.1 hy
    obtain ⟨q, hq, rfl⟩ := List.mem_map.1 hy'
    cases he
    exact (List.mem_filter.1 hq).1
  · intro h
    obtain ⟨r, hr, hbit⟩ := hrs.cover q h
    exact List.mem_map.2 ⟨(c.collOf g u (positions c.lanes) r, c.arrival g u q), List.mem_flatMap.2 ⟨_, List.mem_map.2 ⟨r, hr, rfl⟩,
      List.mem_map.2 ⟨_, List.mem_map.2 ⟨q, List.mem_filter.2 ⟨h, hbit⟩, rfl⟩, rfl⟩⟩, rfl⟩

include hall

/-- The group after its collectives completed. -/
theorem Group.finishColls_awaiting (nbv : Nat) :
    (g.awaiting c u rs).finishColls nbv = { g with colls := [], lanes := ((g.awaiting c u rs).finishColls nbv).lanes } ∧
      ∀ q, q < 32 → ((g.awaiting c u rs).finishColls nbv).lane q = c.collAfter g u nbv q := by
  rw [Group.finishColls_full (Group.awaiting_full hall)]
  refine ⟨?_, fun q hq => ?_⟩
  · rw [Group.foldl_setLane_frame, Group.withColls, Group.awaiting, Group.withColls, Group.mapLanes]
  · rw [Group.lane_withColls, Group.lane_foldl_setLane (fun y : Collective × Arrival => y.2.pos) _ (c.collAfter g u nbv) ?_ _ hq]
    · simp only [mem_arrivalsOf_pos hrs]
      rw [Group.lane_awaiting _ _ _ _ hq]
      by_cases hin : c.lanes.getLsbD q = true
      · rw [if_pos ⟨hq, hin⟩]
      · rw [if_neg (by simp [hin]), if_neg hin, Issue.collAfter, if_neg hin]
    · intro y hy
      obtain ⟨x, hx, hy⟩ := List.mem_flatMap.1 hy
      obtain ⟨r, _, rfl⟩ := List.mem_map.1 hx
      obtain ⟨_, hp, rfl⟩ := List.mem_map.1 hy
      obtain ⟨p, hin, rfl⟩ := List.mem_map.1 hp
      obtain ⟨hp, hbit⟩ := List.mem_filter.1 hin
      obtain ⟨hp32, hin⟩ := (mem_positions _ p).1 hp
      have hlane := fun q (hq : q < 32) => Group.lane_awaiting g c u rs hq
      rw [Issue.collOf_result (Group.mem_members.2 ⟨hp32, hbit⟩) (fun q hq => by rw [hlane q hq]; split <;> rfl)
        (fun q hq => by rw [hlane q hq]; split <;> rfl) (by rw [hlane p hp32, if_pos hin]), Issue.resume_waitLane]
      exact (if_pos hin).symm

end

/-- The arrival of a whole calm group at a collective. -/
theorem State.arrive_whole {s : State} {c : Issue} {g : Group} {u : CollUnit} {tm : Team}
    (hcalm : s.Calm g) (hjoins : g.joins = Vector.replicate 4 0) (hne : c.lanes ≠ 0) (hall : c.lanes = g.where fun l => !l.gone)
    (ht : tget s.teams g.tid = some tm) (hu : u.op = .xlid → u.part = 0) :
    ∃ g', s.arrive c g u = s.setGroup c.gkey g' ∧ g' = { g with lanes := g'.lanes } ∧
      ∀ q, q < 32 → g'.lane q = c.collAfter g u tm.desc.nbv q := by
  obtain ⟨hown, _, hcolls, hmask, _, tm', ht', hin⟩ := id hcalm
  cases Option.some.inj (ht'.symm.trans ht)
  obtain ⟨rs, hrs, hfold⟩ := foldl_joinColl (c := c) (g := g) (u := u) (positions c.lanes) (List.nodup_range.filter _)
    fun p hp => memberMask_lanes hall _ hp
  obtain ⟨hframe, hlanes⟩ := Group.finishColls_awaiting hall hrs tm.desc.nbv
  obtain ⟨q, hq, hbit⟩ := exists_bit_of_ne_zero hne
  have harrive : s.arrive c g u = (s.setGroup c.gkey (g.awaiting c u rs)).rendezvous c.gkey c.addr c.lanes := by
    rw [Group.awaiting, ← hfold, ← hcolls, State.arrive]
    have hmembers : (positions c.lanes).foldl (fun xs p => joinColl c u (s.collMembers c.gkey g u p) (c.arrival g u p) xs) g.colls =
        (positions c.lanes).foldl (fun xs p => joinColl c u (g.memberMask u.part p) (c.arrival g u p) xs) g.colls :=
      List.foldl_ext _ _ _ fun xs p hp => by rw [hcalm.collMembers hu ((mem_positions _ p).1 hp).1]
    rw [← hmembers]
    rfl
  have htid := g.awaiting_tid c u rs
  have hbusy : ∃ q, q < 32 ∧ (((g.awaiting c u rs).finishColls tm.desc.nbv).lane q).state = .active :=
    ⟨q, hq, by rw [hlanes q hq, Issue.collAfter, if_pos hbit]⟩
  refine ⟨(g.awaiting c u rs).finishColls tm.desc.nbv, ?_, ?_, hlanes⟩
  · rw [harrive, State.rendezvous_busy (State.tget_setGroup_self s c.gkey _) (by rw [htid]; exact ht) (by rwa [htid]) rfl (by rw [hframe, htid])
      (by rw [hframe, hown]) (by rw [hframe, hjoins]) (by rw [hframe, hmask]) hbusy, State.setGroup_setGroup]
  · rw [← hcolls] at hframe
    exact hframe

/-- A unit that runs as an arrival of a whole calm group gives each contributor its result. -/
theorem collectiveDoes_of {i : Instr} {u : CollUnit} (hu : u.op = .xlid → u.part = 0)
    (hi : ∀ s c g, s.Runs c g → s.Calm g → ∃ s', exec i s = settle s c (.ok (s'.arrive c g u)) ∧ s'.groups = s.groups ∧
      s'.teams = s.teams ∧ SameMemory s s') :
    CollectiveDoes i u.g fun s c g p _ l' =>
      l' = c.collLane g u (((tget s.teams g.tid).map (·.desc.nbv)).getD 1) p := by
  intro s c g hruns hcalm hjoins hne hall
  obtain ⟨s', hexec, hgroups, hteams, hmem⟩ := hi s c g hruns hcalm
  obtain ⟨tm, ht, _⟩ := hcalm.2.2.2.2.2
  have hcalm' : s'.Calm g := by unfold State.Calm; rw [hteams]; exact hcalm
  obtain ⟨g', harrive, hframe, hlanes⟩ := State.arrive_whole hcalm' hjoins hne hall (hteams ▸ ht) hu
  rw [hexec, harrive]
  simp only [ht, Option.map_some, Option.getD_some]
  refine ⟨_, rfl, hteams, hmem.trans (.of_eq rfl rfl rfl), c.collAfter g u tm.desc.nbv,
    .of_set (by rw [State.setGroup_groups, hgroups]) hframe hlanes, fun p hp => ?_⟩
  rw [taking_bit _ _ _ hp, Issue.collAfter]
  cases c.lanes.getLsbD p <;> cases c.holds u.g (g.lane p) <;> simp

theorem CollectiveDoes.imp {i : Instr} {gd : Nat} {f f' : State → Issue → Group → Nat → Lane → Lane → Prop}
    (h : ∀ s c g p l, (c.lanes = g.where fun l => !l.gone) → p < 32 → (c.taking gd g).getLsbD p = true → f s c g p (g.lane p) l → f' s c g p (g.lane p) l)
    (hdoes : CollectiveDoes i gd f) : CollectiveDoes i gd f' := by
  intro s c g hruns hcalm hjoins hne hall
  obtain ⟨t, hexec, hteams, hmem, k, hbecomes, hlanes⟩ := hdoes s c g hruns hcalm hjoins hne hall
  refine ⟨t, hexec, hteams, hmem, k, hbecomes, fun p hp => ?_⟩
  obtain ⟨hout, htakes, hrest⟩ := hlanes p hp
  refine ⟨hout, fun ht => ?_, hrest⟩
  obtain ⟨l, hl, hk⟩ := htakes ht
  exact ⟨l, h s c g p l hall hp ht hl, hk⟩

end Sys2Proof.Machine
end

section
/-! PROOF. Reductions, the scan and the fragment product (O21). -/

namespace Sys2Proof.Machine

/-! ### Units whose arrival is all they do -/

theorem collectiveDoes_collective {i : Instr} {u : CollUnit} (hu : u.op = .xlid → u.part = 0)
    (hi : ∀ s, exec i s = collective u s) :
    CollectiveDoes i u.g fun s c g p _ l' =>
      l' = c.collLane g u (((tget s.teams g.tid).map (·.desc.nbv)).getD 1) p :=
  collectiveDoes_of hu fun s c g hruns hcalm =>
    ⟨s, by rw [hi, collective, groupUnit_runs hruns, hcalm.coupledOnly], rfl, rfl, .refl s⟩

/-! ### Reductions over the contributed values (R170) -/

/-- The values that the contributors of a position's part bring to a reduction, by rank. -/
def Issue.values (c : Issue) (g : Group) (x : Nat) (a : LSrc) (p : Nat) : List Word :=
  (c.contributors g x p).map fun q => a.r32 (g.lane q)

theorem Issue.values_ne_nil {c : Issue} {g : Group} {p : Nat} (x : Nat) (a : LSrc) (hp : p < 32)
    (ht : (c.taking 0 g).getLsbD p = true) (hall : c.lanes = g.where fun l => !l.gone) : c.values g x a p ≠ [] := by
  have hin : c.lanes.getLsbD p = true := by
    rw [taking_bit _ _ _ hp, Bool.and_eq_true] at ht
    exact ht.1
  have hmem : p ∈ c.contributors g x p := List.mem_filter.2
    ⟨(mem_positions _ p).2 ⟨hp, memberMask_lanes hall x ((mem_positions _ p).2 ⟨hp, hin⟩)⟩, ht⟩
  exact List.ne_nil_of_mem (List.mem_map_of_mem hmem)

/-- What the reductions make of the contributed values. -/
def CollOp.reduction : CollOp → Option (List Word → Word)
  | .redAdd => some fun xs => xs.foldl (· + ·) 0
  | .redFadd => some exactSum
  | .redMinI => some (reduceWords wordMinI)
  | .redMinN => some (reduceWords wordMinN)
  | .redMinF => some (reduceWords wordMinF)
  | .redMaxI => some (reduceWords wordMaxI)
  | .redMaxN => some (reduceWords wordMaxN)
  | .redMaxF => some (reduceWords wordMaxF)
  | _ => none

theorem Collective.give_reduction {x : Collective} {w : List Word → Word} (h : x.op.reduction = some w) (g : Group) (nbv : Nat)
    (cs : List Contrib) (y : Arrival) (l : Lane) :
    x.give g nbv cs y l = x.dst.put32 x.nwb (w (cs.map fun c => c.2.a)) l := by
  obtain ⟨_, op, _, _, _, _, _, _, _⟩ := x
  cases op <;> cases h <;> rfl

/-- The word that a reduction gives a contributor. -/
theorem reductionDoes {i : Instr} {op : CollOp} {d : LDst} {a : LSrc} {n : Bool} {x : Nat} {w : List Word → Word}
    (hi : ∀ s, exec i s = coll1 op d a n x s) (hw : op.reduction = some w) :
    CollectiveDoes i 0 fun _ c g p l l' => l' = d.put32 n (w (c.values g x a p)) l := by
  refine (collectiveDoes_collective (u := ⟨op, d, 0, n, x, 0, fun l => a.r32 l, fun _ => 0, fun _ => false⟩)
    (fun h => ?_) hi).imp fun s c g p l _ _ _ hl => ?_
  · cases (show op = .xlid from h)
    cases hw
  · rw [hl, Issue.collLane, Collective.give_reduction hw, Issue.contribs, List.map_map]
    rfl

theorem foldl_add_words (xs : List Word) (x : Word) :
    xs.foldl (· + ·) x = x + BitVec.ofNat 32 (xs.map (·.toNat)).sum := by
  induction xs generalizing x with
  | nil => simp
  | cons y ys ih => rw [List.foldl_cons, ih, List.map_cons, List.sum_cons, BitVec.ofNat_add, BitVec.ofNat_toNat,
      BitVec.setWidth_eq, BitVec.add_assoc]

/-- A reduction by an operation that answers one of its operands, the better one, answers the best of all. -/
theorem reduceWords_best {le : Word → Word → Prop} {f : Word → Word → Word} (hrefl : ∀ x, le x x)
    (htrans : ∀ x y z, le x y → le y z → le x z) (hf : ∀ x y, (f x y = x ∨ f x y = y) ∧ le (f x y) x ∧ le (f x y) y) :
    ∀ {xs : List Word}, xs ≠ [] → reduceWords f xs ∈ xs ∧ ∀ y ∈ xs, le (reduceWords f xs) y
  | [x], _ => by simp [reduceWords, hrefl]
  | x :: y :: ys, _ => by
    obtain ⟨hmem, hbest⟩ := reduceWords_best hrefl htrans hf (List.cons_ne_nil y ys)
    obtain ⟨hone, hx, hr⟩ := hf x (reduceWords f (y :: ys))
    rw [reduceWords]
    · refine ⟨?_, fun z hz => ?_⟩
      · rcases hone with h | h <;> rw [h]
        · exact List.mem_cons_self
        · exact List.mem_cons_of_mem _ hmem
      · rcases List.mem_cons.1 hz with rfl | hz
        · exact hx
        · exact htrans _ _ _ hr (hbest z hz)
    · simp

/-- A reduction by an operation that picks the operand with the smaller key. -/
theorem reduceWords_min {α : Type} [LinearOrder α] (key : Word → α) {f : Word → Word → Word}
    (hf : ∀ x y, f x y = if key x ≤ key y then x else y) {xs : List Word} (h : xs ≠ []) :
    reduceWords f xs ∈ xs ∧ ∀ y ∈ xs, key (reduceWords f xs) ≤ key y := by
  refine reduceWords_best (le := fun w y => key w ≤ key y) (fun _ => le_refl _) (fun _ _ _ => le_trans) (fun x y => ?_) h
  rw [hf]
  split
  · exact ⟨.inl rfl, le_refl _, ‹_›⟩
  · exact ⟨.inr rfl, le_of_not_ge ‹_›, le_refl _⟩

/-- The same for the larger key. -/
theorem reduceWords_max {α : Type} [LinearOrder α] (key : Word → α) {f : Word → Word → Word}
    (hf : ∀ x y, f x y = if key x ≤ key y then y else x) {xs : List Word} (h : xs ≠ []) :
    reduceWords f xs ∈ xs ∧ ∀ y ∈ xs, key y ≤ key (reduceWords f xs) := by
  refine reduceWords_best (le := fun w y => key y ≤ key w) (fun _ => le_refl _) (fun _ _ _ h h' => le_trans h' h) (fun x y => ?_) h
  rw [hf]
  split
  · exact ⟨.inr rfl, ‹_›, le_refl _⟩
  · exact ⟨.inl rfl, le_refl _, le_of_not_ge ‹_›⟩

theorem wordMinF_eq (x y : Word) : wordMinF x y = if orderKey 32 x.toNat ≤ orderKey 32 y.toNat then x else y := by
  simp only [wordMinF, totalOrder, decide_eq_true_iff]

theorem wordMaxF_eq (x y : Word) : wordMaxF x y = if orderKey 32 x.toNat ≤ orderKey 32 y.toNat then y else x := by
  simp only [wordMaxF, totalOrder, decide_eq_true_iff]

/-- A reduction that answers the best contributed value. -/
theorem bestDoes {i : Instr} {op : CollOp} {d : LDst} {a : LSrc} {n : Bool} {x : Nat} {w : List Word → Word}
    {le : Word → Word → Prop} (hi : ∀ s, exec i s = coll1 op d a n x s) (hw : op.reduction = some w)
    (hbest : ∀ {xs : List Word}, xs ≠ [] → w xs ∈ xs ∧ ∀ y ∈ xs, le (w xs) y) :
    CollectiveDoes i 0 fun _ c g p l l' =>
      ∃ v, v ∈ c.values g x a p ∧ (∀ y ∈ c.values g x a p, le v y) ∧ l' = d.put32 n v l :=
  (reductionDoes hi hw).imp fun _ _ _ _ _ hall hp ht hl =>
    have h := hbest (Issue.values_ne_nil x a hp ht hall)
    ⟨_, h.1, h.2, hl⟩

/-- RED.add adds what contributors bring (R170). -/
theorem redAddDoes (d : LDst) (a : LSrc) (n : Bool) (x : Nat) :
    CollectiveDoes (.redAdd d a n x) 0 fun _ c g p l l' =>
      l' = d.put32 n (BitVec.ofNat 32 ((c.values g x a p).map (·.toNat)).sum) l :=
  (reductionDoes (fun _ => rfl) rfl).imp fun s c g p l _ _ _ hl => by
    rw [hl, foldl_add_words, BitVec.ofNat_eq_ofNat, BitVec.zero_add]

/-- RED.fadd rounds the exact sum once (R33). -/
theorem redFaddDoes (d : LDst) (a : LSrc) (n : Bool) (x : Nat) :
    CollectiveDoes (.redFadd d a n x) 0 fun _ c g p l l' =>
      l' = d.put32 n (w32 (fp32.rne (FVal.sum ((c.values g x a p).map fun y => fp32.value y.toNat)))) l :=
  (reductionDoes (op := .redFadd) (w := exactSum) (fun _ => rfl) rfl).imp fun s c g p l _ _ _ hl => by
    rw [hl, exactSum]

/-- The exclusive scan adds what contributors of lower ranks bring (R170). -/
theorem scanAddDoes (d : LDst) (a : LSrc) (n : Bool) (x : Nat) :
    CollectiveDoes (.scanAdd d a n x) 0 fun _ c g p l l' =>
      l' = d.put32 n (BitVec.ofNat 32
        (((c.contributors g x p).filter fun q => g.rank x q < g.rank x p).map fun q => (a.r32 (g.lane q)).toNat).sum) l := by
  refine (collectiveDoes_collective (u := ⟨.scanAdd, d, 0, n, x, 0, fun l => a.r32 l, fun _ => 0, fun _ => false⟩)
    (by intro h; cases h) fun _ => rfl).imp fun s c g p l _ _ _ hl => ?_
  rw [hl]
  change d.put32 n ((((c.contribs g _ p).filter fun z => z.1 < g.rank x p).map fun z => z.2.a).foldl (· + ·) 0) _ = _
  rw [foldl_add_words, BitVec.ofNat_eq_ofNat, BitVec.zero_add, Issue.contribs, List.filter_map, List.map_map, List.map_map]
  rfl

/-! ### The fragment product (R178-R181) -/

/-- The unit of a fragment product. -/
def fragUnit (f : Fmt) (d a b sel : Nat) (acc : Bool) (gd : Nat) : CollUnit :=
  ⟨.mfrag f d a b sel acc, .z, 0, false, 0, gd, fun _ => 0, fun _ => 0, fun _ => false⟩

theorem mfrag_runs {s : State} {c : Issue} {g : Group} (hruns : s.Runs c g) (hcalm : s.Calm g) (f : Fmt) (d a b sel : Nat)
    (reuse acc : Bool) (gd : Nat) :
    mfrag f d a b sel reuse acc gd s =
      settle s c (.ok ((s.holdOperand c a (if f = .f4b then 5 else 4) reuse).arrive c g (fragUnit f d a b sel acc gd))) := by
  have hnarrow : (positions c.lanes).filter (fun p => decide ((positions (s.wholeMask c.gkey g p)).length < 32)) = [] :=
    List.filter_eq_nil_iff.2 fun p hp => by rw [hcalm.wholeMask ((mem_positions _ p).1 hp).1]; decide
  rw [mfrag, groupUnit_runs hruns]
  dsimp only
  rw [hcalm.coupledOnly, hnarrow]
  rfl

/-- The contributors of a whole group are the lanes that take part. -/
theorem maskOf_contribs {c : Issue} {g : Group} (hall : c.lanes = g.where fun l => !l.gone) {u : CollUnit} (hu : u.part = 0)
    (p : Nat) : maskOf ((c.contribs g u p).map fun x => x.2.pos) = c.taking u.g g := by
  refine mask_ext fun q hq => ?_
  rw [maskOf_bit _ hq, Issue.contribs, List.map_map, hu]
  change decide (q ∈ (c.givers u.g g 0 p).map fun q => q) = _
  rw [List.map_id', Bool.eq_iff_iff, decide_eq_true_iff, Issue.givers, List.mem_filter, Group.mem_members]
  refine ⟨And.right, fun ht => ⟨⟨hq, ?_⟩, ht⟩⟩
  rw [taking_bit _ _ _ hq, Bool.and_eq_true] at ht
  have hself := memberMask_lanes hall 0 ((mem_positions _ q).2 ⟨hq, ht.1⟩)
  rw [Group.memberMask_bit _ _ hq] at hself ⊢
  exact hself

theorem Lane.reg_setReg_ne (l : Lane) {d r : Nat} (x : Word) (h : r ≠ d) : (l.setReg d x).reg r = l.reg r := by
  rw [Lane.reg, Lane.setReg_v, Vector.getElem?_setIfInBounds_ne h.symm, Lane.reg]

/-- Registers d, d + 1, ... of a lane after writes in order. -/
theorem Lane.reg_foldl_setReg (l : Lane) (d : Nat) (F : Nat → Word) (n r : Nat) (hd : d + n ≤ 56) :
    ((List.range n).foldl (fun x j => x.setReg (d + j) (F j)) l).reg r =
      if d ≤ r ∧ r < d + n then F (r - d) else l.reg r := by
  induction n with
  | zero => rw [if_neg (by omega)]; rfl
  | succ n ih =>
    rw [List.range_succ, List.foldl_append, List.foldl_cons, List.foldl_nil]
    by_cases hr : r = d + n
    · subst hr
      rw [Lane.reg_setReg _ _ _ (by omega), if_pos rfl, if_pos (by omega), Nat.add_sub_cancel_left]
    · rw [Lane.reg_setReg_ne _ _ hr, ih (by omega)]
      exact if_congr (by omega) rfl rfl

theorem Lane.foldl_setReg_frame (l : Lane) (d : Nat) (F : Nat → Word) (js : List Nat) :
    js.foldl (fun x j => x.setReg (d + j) (F j)) l =
      { l with v := (js.foldl (fun x j => x.setReg (d + j) (F j)) l).v,
               bad := (js.foldl (fun x j => x.setReg (d + j) (F j)) l).bad } := by
  induction js generalizing l with
  | nil => rfl
  | cons j js ih => rw [List.foldl_cons, ih]; rfl

/-- The lane of a fragment product: its eight elements of C, and nothing else but their check bits (R179, R180). -/
theorem fragLane_regs (f : Fmt) (g : Group) (m : Mask) (nbv : Nat) {d : Nat} (a b sel : Nat) (acc : Bool) (p : Nat) (l : Lane)
    (hd : d + 8 ≤ 56) :
    (∀ j, j < 8 → (fragLane f g m nbv d a b sel acc p l).reg (d + j) =
      fragC f g m nbv a b sel (if acc then l.reg (d + j) else 0) (p % 16) (8 * (p / 16) + j)) ∧
    (∀ r, r < d ∨ d + 8 ≤ r → (fragLane f g m nbv d a b sel acc p l).reg r = l.reg r) ∧
    fragLane f g m nbv d a b sel acc p l =
      { l with v := (fragLane f g m nbv d a b sel acc p l).v, bad := (fragLane f g m nbv d a b sel acc p l).bad } := by
  unfold fragLane
  refine ⟨fun j hj => ?_, fun r hr => ?_, Lane.foldl_setReg_frame l d _ _⟩
  · rw [Lane.reg_foldl_setReg l d _ 8 _ hd, if_pos (by omega), Nat.add_sub_cancel_left]
  · rw [Lane.reg_foldl_setReg l d _ 8 _ hd, if_neg (by omega)]

/-- A fragment product of a format (R178-R181). -/
theorem mfragDoes {i : Instr} {f : Fmt} {d a b sel : Nat} {u acc : Bool} {gd : Nat} (hd : d + 8 ≤ 56)
    (hi : ∀ s, exec i s = mfrag f d a b sel u acc gd s) :
    CollectiveDoes i gd (fun s c g p l l' =>
      let nbv := ((tget s.teams g.tid).map (·.desc.nbv)).getD 1
      (∀ j, j < 8 → l'.reg (d + j) = fragC f g (c.taking gd g) nbv a b sel (if acc then l.reg (d + j) else 0) (p % 16)
        (8 * (p / 16) + j)) ∧
      (∀ r, r < d ∨ d + 8 ≤ r → l'.reg r = l.reg r) ∧ l' = { l with v := l'.v, bad := l'.bad }) := by
  refine (collectiveDoes_of (u := fragUnit f d a b sel acc gd) (fun _ => rfl) fun s c g hruns hcalm =>
    ⟨_, (hi s).trans (mfrag_runs hruns hcalm ..), rfl, rfl, .of_eq rfl rfl rfl⟩).imp fun s c g p l hall _ _ hl => ?_
  have hlane : ∀ nbv, c.collLane g (fragUnit f d a b sel acc gd) nbv p =
      fragLane f g (c.taking gd g) nbv d a b sel acc p (g.lane p) := fun nbv => by
    rw [show c.taking gd g = _ from (maskOf_contribs hall (u := fragUnit f d a b sel acc gd) rfl p).symm]
    rfl
  rw [hl, hlane]
  exact fragLane_regs f g _ _ a b sel acc p _ hd

end Sys2Proof.Machine

open Sys2Proof Sys2Proof.Machine

/-- R33, R170. -/
theorem reductions : Claims.Reductions := by
  intro d a n x
  exact ⟨redAddDoes d a n x, redFaddDoes d a n x,
    bestDoes (fun _ => rfl) rfl (reduceWords_min (·.toInt) fun _ _ => rfl),
    bestDoes (fun _ => rfl) rfl (reduceWords_max (·.toInt) fun _ _ => rfl),
    bestDoes (fun _ => rfl) rfl (reduceWords_min (·.toNat) fun _ _ => rfl),
    bestDoes (fun _ => rfl) rfl (reduceWords_max (·.toNat) fun _ _ => rfl),
    bestDoes (fun _ => rfl) rfl (reduceWords_min (orderKey 32 ·.toNat) wordMinF_eq),
    bestDoes (fun _ => rfl) rfl (reduceWords_max (orderKey 32 ·.toNat) wordMaxF_eq), scanAddDoes d a n x⟩

/-- R178-R180. -/
theorem fragments : Claims.Fragments := by
  intro d a b sel gd u acc f i hi hd
  rcases hi with ⟨rfl, rfl, rfl⟩ | ⟨rfl, rfl, rfl⟩ | ⟨rfl, rfl, rfl⟩ | ⟨rfl, rfl, rfl⟩ | ⟨rfl, rfl⟩ | ⟨rfl, rfl, rfl⟩ <;>
    exact mfragDoes (u := u) hd fun _ => rfl

/-- Settles O21, from what a whole group's arrival at a collective gives. -/
theorem reductionsAndFragments : Obligations.ReductionsAndFragments := ⟨reductions, fragments⟩
end

section
/-! SUPPORT. Accumulator slots read by element, and a core whose one command is a matrix task (R264, R265). -/

namespace Sys2Proof.Machine

/-! ### Elements of a slot -/

/-- Element (i, j) of an accumulator slot. -/
def accGet (a : Tab (BitVec 40)) (i j : Nat) : Nat := ((tget a (128 * i + j)).map BitVec.toNat).getD 0

theorem Core.accAt_eq (k : Core) (slot i j : Nat) : k.accAt slot i j = accGet (k.acc[slot]?.getD []) i j := rfl

theorem accGet_accPut (a : Tab (BitVec 40)) (i j v : Nat) {i' j' : Nat} (hj : j < 128) (hj' : j' < 128) :
    accGet (accPut a i j v) i' j' = if i' = i ∧ j' = j then v % 2 ^ 40 else accGet a i' j' := by
  unfold accGet accPut
  by_cases hij : i' = i ∧ j' = j
  · obtain ⟨rfl, rfl⟩ := hij
    rw [if_pos (And.intro rfl rfl)]
    by_cases hv : v = 0
    · rw [if_pos hv, hv, tget_terase_self]
      rfl
    · rw [if_neg hv, tget_tset_self]
      exact BitVec.toNat_ofNat v 40
  · have hne : 128 * i' + j' ≠ 128 * i + j := by omega
    rw [if_neg hij]
    split
    · rw [tget_terase_ne _ hne]
    · rw [tget_tset_ne _ _ hne]

/-- A slot after results were put, where each result is the value a function has for its row and column. -/
theorem accGet_foldl_accPut (F : Nat → Nat → Nat) {xs : List (Nat × Nat × Nat × Nat × Nat)}
    (hx : ∀ x ∈ xs, x.2.1 < 128 ∧ x.2.2.2.1 = F x.1 x.2.1) (a : Tab (BitVec 40)) (i : Nat) {j : Nat} (hj : j < 128) :
    accGet (xs.foldl (fun a x => accPut a x.1 x.2.1 x.2.2.2.1) a) i j =
      if (i, j) ∈ xs.map (fun x => (x.1, x.2.1)) then F i j % 2 ^ 40 else accGet a i j := by
  induction xs generalizing a with
  | nil => simp
  | cons x xs ih =>
    obtain ⟨hcol, hval⟩ := hx x (by simp)
    rw [List.foldl_cons, ih (fun y hy => hx y (by simp [hy])), accGet_accPut _ _ _ _ hcol hj, hval]
    simp only [List.map_cons, List.mem_cons, Prod.mk.injEq]
    by_cases hhead : i = x.1 ∧ j = x.2.1
    · obtain ⟨rfl, rfl⟩ := hhead
      simp
    · simp only [hhead, if_false, false_or]

/-! ### A core with one task -/

/-- A core that holds one command, a task of the dependency table, with its accumulators and rings. -/
def Core.withTask (k : Core) (acc : Vector (Tab (BitVec 40)) 2) (rings : Vector Ring 16) (y : Cmd) : Core :=
  { k with vq := [], dt := [y], acc := acc, rings := rings }

section
variable (k : Core) (acc : Vector (Tab (BitVec 40)) 2) (rings : Vector Ring 16) (y : Cmd)

theorem Core.eq_withTask {k : Core} {c : Cmd} (hvq : k.vq = []) (hdt : k.dt = [c]) : k = k.withTask k.acc k.rings c := by
  rw [Core.withTask, ← hdt, ← hvq]

theorem Core.cmd_withTask : (k.withTask acc rings y).cmd y.id = some y := by
  simp [Core.withTask, Core.cmd]

theorem Core.modCmd_withTask (f : Cmd → Cmd) : (k.withTask acc rings y).modCmd y.id f = k.withTask acc rings (f y) := by
  simp [Core.modCmd, Core.withTask]

/-- Rings that change one after the other. -/
theorem Core.foldl_modRing_withTask (f : Nat → Ring → Ring) (is : List Nat) :
    ∃ rings', is.foldl (fun k i => k.modRing i (f i)) (k.withTask acc rings y) = k.withTask acc rings' y := by
  induction is generalizing rings with
  | nil => exact ⟨rings, rfl⟩
  | cons i is ih => exact ih _

end

/-- The state where a core holds one command, a task of the dependency table. -/
def State.taskAt (s : State) (core : Nat) (acc : Vector (Tab (BitVec 40)) 2) (rings : Vector Ring 16) (y : Cmd) : State :=
  s.setCore core ((s.core core).withTask acc rings y)

section
variable (s : State) (core : Nat) (acc : Vector (Tab (BitVec 40)) 2) (rings : Vector Ring 16) (y : Cmd)

theorem State.core_taskAt : (s.taskAt core acc rings y).core core = (s.core core).withTask acc rings y := by
  rw [State.taskAt, State.core_setCore, if_pos rfl]

theorem State.cmd_taskAt {id : Nat} (h : id = y.id) : ((s.taskAt core acc rings y).core core).cmd id = some y := by
  rw [State.core_taskAt, h, Core.cmd_withTask]

theorem State.modCore_setCore (k : Core) (f : Core → Core) : (s.setCore core k).modCore core f = s.setCore core (f k) := by
  rw [State.modCore, State.core_setCore, if_pos rfl]
  unfold State.setCore
  rw [tset_tset]

theorem State.modCmd_taskAt {id : Nat} (h : id = y.id) (f : Cmd → Cmd) :
    (s.taskAt core acc rings y).modCmd core id f = s.taskAt core acc rings (f y) := by
  rw [State.modCmd, State.taskAt, State.modCore_setCore, h, Core.modCmd_withTask, State.taskAt]

theorem State.setAcc_taskAt (slot : Nat) (a : Tab (BitVec 40)) :
    (s.taskAt core acc rings y).modCore core (·.setAcc slot a) = s.taskAt core (acc.setIfInBounds slot a) rings y := by
  rw [State.taskAt, State.modCore_setCore, State.taskAt, Core.withTask, Core.withTask, Core.setAcc]

/-- The end of a task's reads changes its rings and of its command only what it has spent (R262). -/
theorem State.readsDone_taskAt {c : Cmd} (hid : c.id = y.id) (is : List Nat) :
    ∃ rings' y', (s.taskAt core acc rings y).readsDone core c is = s.taskAt core acc rings' y' ∧
      y'.id = y.id ∧ y'.status = y.status ∧ y'.rows = y.rows := by
  unfold State.readsDone
  split
  · exact ⟨rings, y, rfl, rfl, rfl, rfl⟩
  · obtain ⟨rings', h⟩ := (s.core core).foldl_modRing_withTask acc rings y
      (fun i r => { r with r := r.r + c.slotCount i }) (is.filter fun i => !c.spent.contains i)
    dsimp only
    rw [State.taskAt, State.modCore_setCore, h]
    exact ⟨rings', _, State.modCmd_taskAt s core acc rings' y hid _, rfl, rfl, rfl⟩

/-- Where its one command is a task already, a state is of this form but for the place of its core in the table. -/
theorem State.modCmd_eq_taskAt {c : Cmd} (hvq : (s.core core).vq = []) (hdt : (s.core core).dt = [c]) (f : Cmd → Cmd) :
    s.modCmd core c.id f = s.taskAt core (s.core core).acc (s.core core).rings (f c) := by
  rw [State.modCmd, State.modCore, State.taskAt, ← Core.modCmd_withTask, ← Core.eq_withTask hvq hdt]

end

end Sys2Proof.Machine
end

section
/-! SUPPORT. The k-steps of a dense task: each element of its slot takes the rounded sums one after the other (R30, R31, R264,
R265). -/

namespace Sys2Proof.Machine

/-- The products that k-step n adds to element (i, j) of a dense task, each with whether an operand is a NaN (R264). -/
def State.products (s : State) (core : Nat) (c : Cmd) (t : Task) (i j n : Nat) : List (FVal × Bool) :=
  ((s.rowA core c t n i).zip (s.colB core c t [] n j)).map fun p => (p.1.mul p.2, p.1.isNan || p.2.isNan)

/-- A task's command at k-step e, with its flags so far. -/
def Cmd.atStep (c : Cmd) (e fl : Nat) : Cmd := { c with elem := e, flags := fl }

/-! ### Operands do not depend on how far the task has come -/

section
variable {k : Core} {c : Cmd} (hdt : k.dt = [c]) (acc : Vector (Tab (BitVec 40)) 2) (e fl : Nat)
include hdt

theorem Core.firstSlot_withTask (i : Nat) :
    (k.withTask acc k.rings (c.atStep e fl)).firstSlot (c.atStep e fl) i = k.firstSlot c i := by
  simp [Core.firstSlot, Core.before, Core.withTask, hdt, Cmd.atStep, Core.ring]

theorem Core.operandA_withTask (t : Task) : (k.withTask acc k.rings (c.atStep e fl)).operandA t (c.atStep e fl) = k.operandA t c := by
  rw [Core.operandA, Core.firstSlot_withTask hdt]
  rfl

theorem Core.operandB_withTask (t : Task) : (k.withTask acc k.rings (c.atStep e fl)).operandB t (c.atStep e fl) = k.operandB t c := by
  rw [Core.operandB, Core.firstSlot_withTask hdt]
  rfl

end

section
variable {s : State} {core : Nat} {c : Cmd} (hdt : (s.core core).dt = [c]) (acc : Vector (Tab (BitVec 40)) 2) (e fl : Nat)
include hdt

theorem State.rowA_taskAt (t : Task) (n i : Nat) :
    (s.taskAt core acc (s.core core).rings (c.atStep e fl)).rowA core (c.atStep e fl) t n i = s.rowA core c t n i := by
  unfold State.rowA
  rw [State.core_taskAt, Core.operandA_withTask hdt]
  rfl

theorem State.colB_taskAt (t : Task) (entry : List Byte) (n j : Nat) :
    (s.taskAt core acc (s.core core).rings (c.atStep e fl)).colB core (c.atStep e fl) t entry n j = s.colB core c t entry n j := by
  unfold State.colB
  rw [State.core_taskAt, Core.operandB_withTask hdt]
  rfl

/-! ### One k-step -/

/-- The results of a k-step: one for each element of the slot, of what it held and its products. -/
theorem State.kStep_taskAt (t : Task) (nbv : Nat) :
    (s.taskAt core acc (s.core core).rings (c.atStep e fl)).kStep core (c.atStep e fl) t nbv [] e =
      (List.range t.m).flatMap fun i => (List.range t.n).map fun j =>
        let old := accGet (acc[t.slot]?.getD []) i j
        (i, j, old, acc40.kStep nbv old (s.products core c t i j e)) := by
  unfold State.kStep
  refine List.flatMap_congr fun i _ => List.map_congr_left fun j hj => ?_
  simp only [State.rowA_taskAt hdt, State.colB_taskAt hdt]
  rw [List.getElem?_map, List.getElem?_range (List.mem_range.1 hj), State.core_taskAt]
  rfl

end

/-- The slot of a dense task after a k-step (R31, R264). -/
theorem accGet_kStep (t : Task) (hn : t.n ≤ 128) (a : Tab (BitVec 40)) (F : Nat → Nat → Nat × Nat) (i : Nat) {j : Nat} (hj : j < 128) :
    accGet (((List.range t.m).flatMap fun i => (List.range t.n).map fun j => (i, j, accGet a i j, F i j)).foldl
      (fun a x => accPut a x.1 x.2.1 x.2.2.2.1) a) i j =
      if i < t.m ∧ j < t.n then (F i j).1 % 2 ^ 40 else accGet a i j := by
  rw [accGet_foldl_accPut (fun i j => (F i j).1) ?_ _ _ hj]
  · refine if_congr ?_ rfl rfl
    simp only [List.map_flatMap, List.map_map, List.mem_flatMap, List.mem_map, List.mem_range, Function.comp_apply, Prod.mk.injEq]
    constructor
    · rintro ⟨i', hi', j', hj', rfl, rfl⟩
      exact ⟨hi', hj'⟩
    · rintro ⟨hi', hj'⟩
      exact ⟨i, hi', j, hj', rfl, rfl⟩
  · intro x hx
    obtain ⟨i', _, hx⟩ := List.mem_flatMap.1 hx
    obtain ⟨j', hj', rfl⟩ := List.mem_map.1 hx
    exact ⟨Nat.lt_of_lt_of_le (List.mem_range.1 hj') hn, rfl⟩

/-! ### All k-steps that are left -/

/-- Element (i, j) of a slot after the k-steps from e up to the task's last. -/
def State.summed (s : State) (core : Nat) (c : Cmd) (t : Task) (nbv e i j v : Nat) : Nat :=
  (List.range (t.ksteps - e)).foldl (fun v n => (acc40.kStep nbv v (s.products core c t i j (e + n))).1 % 2 ^ 40) v

theorem State.summed_last (s : State) (core : Nat) (c : Cmd) (t : Task) (nbv i j v : Nat) :
    s.summed core c t nbv t.ksteps i j v = v := by
  rw [State.summed, Nat.sub_self]
  rfl

theorem State.summed_step (s : State) (core : Nat) (c : Cmd) {t : Task} {e : Nat} (he : e < t.ksteps) (nbv i j v : Nat) :
    s.summed core c t nbv e i j v =
      s.summed core c t nbv (e + 1) i j ((acc40.kStep nbv v (s.products core c t i j e)).1 % 2 ^ 40) := by
  rw [State.summed, State.summed, show t.ksteps - e = t.ksteps - (e + 1) + 1 by omega, List.range_succ_eq_map, List.foldl_cons,
    List.foldl_map]
  simp only [Nat.add_zero, Nat.succ_eq_add_one, Nat.add_assoc, Nat.add_comm 1]

end Sys2Proof.Machine
end

section
/-! PROOF. A dense matrix task runs to its end and leaves the rounded sums in its slot (O41). -/

namespace Sys2Proof.Machine

/-! ### The run through the k-steps -/

theorem Task.parse_slot (x : Nat) : (Task.parse x).slot < 2 := Nat.mod_lt _ (by decide)

theorem Task.parse_n (x : Nat) : (Task.parse x).n ≤ 128 := by
  change (if _ then 128 else 64) ≤ 128
  split <;> omega

/-- A slot after k-step e of a dense task. -/
def State.stepSlot (s : State) (core : Nat) (c : Cmd) (t : Task) (nbv e : Nat) (a : Tab (BitVec 40)) : Tab (BitVec 40) :=
  ((List.range t.m).flatMap fun i => (List.range t.n).map fun j =>
    (i, j, accGet a i j, acc40.kStep nbv (accGet a i j) (s.products core c t i j e))).foldl
      (fun a x => accPut a x.1 x.2.1 x.2.2.2.1) a

theorem State.accGet_stepSlot (s : State) (core : Nat) (c : Cmd) {t : Task} (hn : t.n ≤ 128) (nbv e : Nat)
    (a : Tab (BitVec 40)) (i : Nat) {j : Nat} (hj : j < 128) :
    accGet (s.stepSlot core c t nbv e a) i j =
      if i < t.m ∧ j < t.n then (acc40.kStep nbv (accGet a i j) (s.products core c t i j e)).1 % 2 ^ 40 else accGet a i j :=
  accGet_kStep t hn a (fun i j => acc40.kStep nbv (accGet a i j) (s.products core c t i j e)) i hj

theorem State.putResults_taskAt (s : State) (core : Nat) (acc : Vector (Tab (BitVec 40)) 2) (rings : Vector Ring 16) (c : Cmd)
    (e fl slot : Nat) (xs : List (Nat × Nat × Nat × Nat × Nat)) :
    ∃ first fl', (s.taskAt core acc rings (c.atStep e fl)).putResults core c.id slot xs =
      (first, s.taskAt core (acc.setIfInBounds slot (xs.foldl (fun a x => accPut a x.1 x.2.1 x.2.2.2.1) (acc[slot]?.getD [])))
        rings (c.atStep e fl')) := by
  unfold State.putResults
  dsimp only
  rw [State.setAcc_taskAt, State.modCmd_taskAt s core _ rings (c.atStep e fl) (id := c.id) rfl, State.core_taskAt]
  exact ⟨_, _, rfl⟩

section
variable {s : State} {core : Nat} {c : Cmd} {t : Task} {tm : Team} (hdt : (s.core core).dt = [c]) (hdense : t.sparse = false)
  (ht : tget s.teams c.tid = some tm) (htrap : t.trapNan = false) (htrap' : tm.desc.trapNan = false)
include hdt hdense ht htrap htrap'

/-- One k-step of a dense task that traps at no NaN. -/
theorem State.runSteps_step {e : Nat} (he : e < t.ksteps) (nbv fuel : Nat) (acc : Vector (Tab (BitVec 40)) 2) (fl : Nat) :
    ∃ fl', (s.taskAt core acc (s.core core).rings (c.atStep e fl)).runSteps core c.id t nbv (fuel + 1) =
      (s.taskAt core (acc.setIfInBounds t.slot (s.stepSlot core c t nbv e (acc[t.slot]?.getD []))) (s.core core).rings
        (c.atStep (e + 1) fl')).runSteps core c.id t nbv fuel := by
  have hcmd := s.cmd_taskAt core acc (s.core core).rings (c.atStep e fl) (id := c.id) rfl
  obtain ⟨first, fl', hput⟩ := s.putResults_taskAt core acc (s.core core).rings c e fl t.slot
    ((s.taskAt core acc (s.core core).rings (c.atStep e fl)).kStep core (c.atStep e fl) t nbv [] e)
  have harm : ∀ acc y, (s.taskAt core acc (s.core core).rings y).nanArmed (c.atStep e fl) t = false := fun acc y => by
    rw [State.nanArmed, htrap, show tget (s.taskAt core acc (s.core core).rings y).teams (c.atStep e fl).tid = some tm from ht]
    simp [htrap']
  refine ⟨fl', ?_⟩
  rw [State.runSteps, hcmd]
  dsimp only
  rw [show (c.atStep e fl).elem = e from rfl, if_neg (Nat.not_le.2 he), hdense, Bool.not_false, if_pos rfl, hput]
  dsimp only
  rw [State.modCmd_taskAt s core _ _ (c.atStep e fl') (id := c.id) rfl, harm, if_neg (by decide), State.kStep_taskAt hdt]
  rfl

/-- A dense task that traps at no NaN runs to its last k-step: each element of its slot takes the rounded sums, and its other
slot stays (R30, R31, R264, R265). -/
theorem State.runSteps_dense (hn : t.n ≤ 128) (hslot : t.slot < 2) (nbv : Nat) :
    ∀ (fuel e : Nat) (acc : Vector (Tab (BitVec 40)) 2) (fl : Nat), e ≤ t.ksteps → t.ksteps - e < fuel →
      ∃ acc' fl', (s.taskAt core acc (s.core core).rings (c.atStep e fl)).runSteps core c.id t nbv fuel =
          (s.taskAt core acc' (s.core core).rings (c.atStep t.ksteps fl'), .ok ()) ∧
        (∀ i j, j < 128 → accGet (acc'[t.slot]?.getD []) i j =
          if i < t.m ∧ j < t.n then s.summed core c t nbv e i j (accGet (acc[t.slot]?.getD []) i j)
          else accGet (acc[t.slot]?.getD []) i j) ∧
        ∀ slot, slot ≠ t.slot → acc'[slot]? = acc[slot]?
  | 0, _, _, _, _, hf => absurd hf (Nat.not_lt_zero _)
  | fuel + 1, e, acc, fl, he, hf => by
    rcases Nat.lt_or_eq_of_le he with he | rfl
    · obtain ⟨fl₁, hstep⟩ := State.runSteps_step hdt hdense ht htrap htrap' he nbv fuel acc fl
      obtain ⟨acc', fl', hrun, hsum, hother⟩ := State.runSteps_dense hn hslot nbv fuel (e + 1)
        (acc.setIfInBounds t.slot (s.stepSlot core c t nbv e (acc[t.slot]?.getD []))) fl₁ he (by omega)
      refine ⟨acc', fl', hstep.trans hrun, fun i j hj => ?_, fun slot hne => ?_⟩
      · rw [hsum i j hj, Vector.getElem?_setIfInBounds, if_pos rfl, if_pos hslot, Option.getD_some,
          State.accGet_stepSlot _ _ _ hn _ _ _ _ hj, State.summed_step _ _ _ he]
        split <;> rfl
      · rw [hother slot hne, Vector.getElem?_setIfInBounds_ne (Ne.symm hne)]
    · refine ⟨acc, fl, ?_, fun i j _ => ?_, fun _ _ => rfl⟩
      · rw [State.runSteps, State.cmd_taskAt (y := c.atStep t.ksteps fl) (id := c.id) (h := rfl)]
        exact if_pos (Nat.le_refl _)
      · rw [State.summed_last, ite_self]

end

/-! ### A task from where it stands to its end -/

theorem ERes.next_ok {α β : Type} (s : State) (x : α) (f : α → State → ERes β) : ERes.next (s, .ok x) f = f x s := rfl

/-- A task that has read its block reads it no more. -/
theorem State.blockRead_known {s : State} {core : Nat} {c : Cmd} (h : c.ops ≠ []) : s.blockRead core c = (s, .ok c) := by
  rw [State.blockRead, List.isEmpty_eq_false_iff.2 h]
  rfl

/-- A task that has its slots does not begin again. -/
theorem State.taskBegin_begun {s : State} {core : Nat} {c : Cmd} (h : c.slots ≠ []) : s.taskBegin core c = (s, .ok c) := by
  rw [State.taskBegin, List.isEmpty_eq_false_iff.2 h]
  rfl

/-- A task whose command is not asleep is the one its engine is at. -/
theorem Core.currentTask_running {k : Core} {c : Cmd} (hdt : k.dt = [c]) (hmajor : c.major = 0x22) (hstate : c.state = .running) :
    k.currentTask = some c := by
  simp [Core.currentTask, hdt, hmajor, hstate]

/-- A dense task that has begun may go on while no peer has to answer it. -/
theorem State.taskDue_dense {s : State} {core : Nat} {c : Cmd} (hstate : c.state = .running) (hops : c.ops ≠ [])
    (hslots : c.slots ≠ []) (hwaits : s.peerWaits = []) (hdense : c.task.sparse = false) (helem : c.elem ≤ c.task.ksteps) :
    s.taskDue core c = true := by
  have hmoves : s.taskMoves core c = true := by
    rw [State.taskMoves, List.isEmpty_eq_false_iff.2 hops, List.isEmpty_eq_false_iff.2 hslots]
    simp only [hdense, Bool.false_eq_true, if_false, Bool.not_false, Bool.true_or]
    rcases Nat.lt_or_eq_of_le helem with h | h <;> simp [h]
  simp [State.taskDue, State.cmdAsks, hstate, hmoves, hslots, hwaits]

/-- A task whose k-steps end at its last, without rows to correct and without a drain, has run to its end (R262, R265). -/
theorem State.taskRun_kSteps {s : State} {core : Nat} {c : Cmd} {tm : Team} {acc acc' : Vector (Tab (BitVec 40)) 2}
    {rings : Vector Ring 16} {fl : Nat} (hops : c.ops ≠ []) (hslots : c.slots ≠ []) (hrows : c.rows = [])
    (ht : tget s.teams c.tid = some tm) (hdrain : c.task.drain % 4 = 0)
    (hrun : (s.taskAt core acc rings c).runSteps core c.id c.task tm.desc.nbv (c.task.ksteps + 1) =
      (s.taskAt core acc' rings (c.atStep c.task.ksteps fl), .ok ())) :
    ∃ rings' y, (s.taskAt core acc rings c).taskRun core c = (s.taskAt core acc' rings' y, .ok ()) ∧ y.id = c.id ∧
      y.status = c.status := by
  have hnbv : ((tget (s.taskAt core acc rings c).teams c.tid).map (·.desc.nbv)).getD 1 = tm.desc.nbv := by
    rw [show tget (s.taskAt core acc rings c).teams c.tid = some tm from ht]
    rfl
  have hfirst : Option.any (fun x : Cmd => x.elem == c.task.ksteps) (some (c.atStep c.task.ksteps fl)) = true :=
    beq_self_eq_true c.task.ksteps
  have hnone : (Option.map (fun x : Cmd => x.rows) (some (c.atStep c.task.ksteps fl))).getD [] = [] := hrows
  have hkind : drainKind c.task.drain = 0 := by rw [drainKind, bits, Nat.pow_zero, Nat.div_one]; exact hdrain
  obtain ⟨rings₁, y₁, hdone₁, (hid₁ : y₁.id = c.id), hstatus₁, hrows₁⟩ :=
    s.readsDone_taskAt core acc' rings (c.atStep c.task.ksteps fl) (c := c) rfl
      (c.task.rings.filter fun i => !c.task.ringsLater.contains i)
  obtain ⟨rings₂, y₂, hdone₂, hid₂, hstatus₂, _⟩ := s.readsDone_taskAt core acc' rings₁
    { y₁ with elem := c.task.ksteps + 1 } (c := { y₁ with elem := c.task.ksteps + 1 }) rfl c.task.rings
  unfold State.taskRun
  rw [State.blockRead_known hops, ERes.next_ok, List.isEmpty_eq_false_iff.2 hslots, Bool.false_and, if_neg (by decide),
    State.taskBegin_begun hslots, ERes.next_ok]
  dsimp only
  rw [hnbv, hrun, ERes.next_ok, s.cmd_taskAt core acc' rings (c.atStep c.task.ksteps fl) (id := c.id) rfl]
  simp only [hfirst, hnone, if_true, Bool.true_and, State.rowsPass, ite_self, ERes.next_ok]
  rw [hdone₁, State.modCmd_taskAt s core acc' rings₁ y₁ hid₁.symm,
    State.cmd_taskAt s core acc' rings₁ { y₁ with elem := c.task.ksteps + 1 } hid₁.symm]
  dsimp only
  rw [hdone₂, show y₁.rows = [] from hrows₁.trans hrows, hkind]
  exact ⟨rings₂, y₂, rfl, hid₂.trans hid₁, hstatus₂.trans hstatus₁⟩

/-- MATRIX_TASK_END where the run of its task completes: the task is finished. -/
theorem execMatrixTaskEnd_done {s : State} {core : Nat} {c y : Cmd} {acc : Vector (Tab (BitVec 40)) 2} {rings : Vector Ring 16}
    (hvq : (s.core core).vq = []) (hdt : (s.core core).dt = [c]) (hmajor : c.major = 0x22) (hstate : c.state = .running)
    (hdue : s.taskDue core c = true) (hid : y.id = c.id)
    (hrun : (s.taskAt core (s.core core).acc (s.core core).rings c).taskRun core c = (s.taskAt core acc rings y, .ok ())) :
    execMatrixTaskEnd core s = .next (s.taskAt core acc rings (y.finish 0 0)) := by
  have hsame : ({ c with state := .running } : Cmd) = c := by rw [← hstate]
  rw [execMatrixTaskEnd, Core.currentTask_running hdt hmajor hstate]
  dsimp only
  rw [hdue, State.modCmd_eq_taskAt s core hvq hdt, hsame, hrun, State.settleRun, State.settleCmd,
    State.modCmd_taskAt s core acc rings y hid.symm, State.cmd_taskAt s core acc rings (y.finish 0 0) hid.symm]
  rfl

end Sys2Proof.Machine

open Sys2Proof Sys2Proof.Machine

/-- Settles O41, by induction on the k-steps that are left. -/
theorem matrixTasksAccumulate : Obligations.MatrixTasksAccumulate := by
  intro s core c tm hvq hdt hmajor hstate hops hslots hrows hstatus hwaits _ ht k hdense _ hdrain htrap htrap' helem
  obtain ⟨acc, fl, hsteps, hsum, hother⟩ := State.runSteps_dense hdt hdense ht htrap htrap' (Task.parse_n _) (Task.parse_slot _)
    tm.desc.nbv (k.ksteps + 1) c.elem (s.core core).acc c.flags helem (Nat.lt_succ_of_le (Nat.sub_le ..))
  obtain ⟨rings, y, hrun, hid, hys⟩ := State.taskRun_kSteps hops hslots hrows ht hdrain hsteps
  have hend := execMatrixTaskEnd_done hvq hdt hmajor hstate (State.taskDue_dense hstate hops hslots hwaits hdense helem) hid hrun
  have hslot : 1 - k.slot ≠ k.slot := by have := Task.parse_slot c.block; change 1 - k.slot ≠ k.slot; omega
  refine ⟨_, hend, rfl, rfl, .of_eq rfl rfl rfl, ⟨y.finish 0 0, ?_, hid, rfl, ?_⟩, fun i j _ hj => ?_, fun i j => ?_⟩
  · rw [State.core_taskAt]; rfl
  · rw [Cmd.finish, hys, hstatus]; rfl
  · rw [State.core_taskAt]
    exact hsum i j hj
  · rw [State.core_taskAt, Core.accAt_eq, Core.accAt_eq]
    exact congrArg (fun a => accGet (Option.getD a []) i j) (hother _ hslot)
end

section
/-! PROOF. The round trip of every instruction that has words (O56), and the words that R35-R43 give for twelve instructions
(O55). -/

namespace Sys2Proof.Laws.RoundTrip

/-- By instruction, in the order of the map: the round trip of its format, which asks that the row of its word builds it and
that each operand fits its field, as the checks of a well-formed instruction say. -/
theorem holds (i : Instr) : Statement i := by
  cases i
  exacts [add _ _ _ _ _, sub _ _ _ _ _, minI _ _ _ _ _, maxI _ _ _ _ _, minN _ _ _ _ _, maxN _ _ _ _ _, abs _ _ _ _,
    neg _ _ _ _, and _ _ _ _ _, or _ _ _ _ _, xor _ _ _ _ _, andn _ _ _ _ _, shl _ _ _ _ _, shr _ _ _ _ _, sar _ _ _ _ _,
    rol _ _ _ _ _, mul _ _ _ _ _, mulhI _ _ _ _ _, mulhN _ _ _ _ _, mad _ _ _ _ _, divI _ _ _ _ _, divN _ _ _ _ _,
    remI _ _ _ _ _, remN _ _ _ _ _, clz _ _ _ _, popc _ _ _ _, brev _ _ _ _, bfeI _ _ _ _ _, bfeN _ _ _ _ _, bfi _ _ _ _ _,
    bmix _ _ _ _ _, sext _ _ _ _ _, eq _ _ _ _, ne _ _ _ _, ltI _ _ _ _, leI _ _ _ _, ltN _ _ _ _, leN _ _ _ _, tst _ _ _ _,
    pand _ _ _ _, por _ _ _ _, pxor _ _ _ _, pandn _ _ _ _, pnot _ _ _, ptov _ _ _ _, vtop _ _ _, mov _ _ _ _, sel _ _ _ _ _,
    movs _ _ _ _, movu _ _ _ _, add64 _ _ _ _ _, sub64 _ _ _ _ _, shl64 _ _ _ _ _, lea _ _ _ _ _, addi _ _ _, andi _ _ _,
    ori _ _ _, xori _ _ _, shiShl _ _ _, shiShr _ _ _, shiSar _ _ _, shiRol _ _ _, cmpiEq _ _ _, cmpiNe _ _ _, cmpiLtI _ _ _,
    cmpiLeI _ _ _, cmpiLtN _ _ _, cmpiLeN _ _ _, cmpiTst _ _ _, movi _ _, leai _ _ _, fadd _ _ _ _ _, fsub _ _ _ _ _,
    fmul _ _ _ _ _, ffma _ _ _ _ _, fmin _ _ _ _ _, fmax _ _ _ _ _, fnma _ _ _ _ _, fdiv _ _ _ _ _, fcmpEq _ _ _ _,
    fcmpNe _ _ _ _, fcmpLt _ _ _ _, fcmpLe _ _ _ _, fcmpUn _ _ _ _, fcmpTolt _ _ _ _, fcmpTole _ _ _ _, fcmpClass _ _ _ _,
    dadd _ _ _ _ _, dsub _ _ _ _ _, dmul _ _ _ _ _, dfma _ _ _ _ _, dmin _ _ _ _ _, dmax _ _ _ _ _, ddiv _ _ _ _ _,
    dsqrt _ _ _ _, haddF16 _ _ _ _ _, hmulF16 _ _ _ _ _, hfmaF16 _ _ _ _ _, haddBf16 _ _ _ _ _, hmulBf16 _ _ _ _ _,
    hfmaBf16 _ _ _ _ _, hmin _ _ _ _ _, hmax _ _ _ _ _, cvtI32F32 _ _ _ _ _, cvtN32F32 _ _ _ _ _, cvtF32I32 _ _ _ _ _,
    cvtF32N32 _ _ _ _ _, cvtBf16F32 _ _ _ _, cvtF16F32 _ _ _ _, cvtF32Bf16 _ _ _ _, cvtF32F16 _ _ _ _, cvtE4m3F32 _ _ _ _,
    cvtE5m2F32 _ _ _ _, cvtI8F32 _ _ _ _, cvtI8I32 _ _ _ _, cvtI16F32 _ _ _ _, cvtI16I32 _ _ _ _, cvtF32E4m3 _ _ _ _,
    cvtF32E5m2 _ _ _ _, cvtBf16F32Sr _ _ _ _, cvtE4m3F32Sr _ _ _ _, packF4b _ _ _ _, unpkF4b _ _ _ _ _, scaleF4b _ _ _ _ _,
    mx2f4b _ _ _ _, rcp _ _ _ _, rsq _ _ _ _, sqrt _ _ _ _, exp2 _ _ _ _, log2 _ _ _ _, sin _ _ _ _, cos _ _ _ _,
    tanh _ _ _ _, frnd _ _ _ _ _, key3 _ _ _ _, rng _ _ _, seed _ _, fscale _ _ _ _ _, fexp _ _ _ _, ldg _ _ _ _ _,
    stg _ _ _ _ _, lds _ _ _ _ _, sts _ _ _ _ _, ldk _ _ _ _ _, stk _ _ _ _ _, stx _ _ _ _ _, ldp _ _ _ _ _,
    atomgAdd _ _ _ _ _, atomgMinI _ _ _ _ _, atomgMaxI _ _ _ _ _, atomgAnd _ _ _ _ _, atomgOr _ _ _ _ _, atomgXor _ _ _ _ _,
    atomgExch _ _ _ _ _, atomgCas _ _ _ _ _, atomgAddB64 _ _ _ _ _, atomgMinIB64 _ _ _ _ _, atomgMaxIB64 _ _ _ _ _,
    atomgAndB64 _ _ _ _ _, atomgOrB64 _ _ _ _ _, atomgXorB64 _ _ _ _ _, atomgExchB64 _ _ _ _ _, atomgCasB64 _ _ _ _ _,
    atomgIncb _ _ _ _ _, atomgDecb _ _ _ _ _, atomgFadd _ _ _ _ _, atomgFmin _ _ _ _ _, atomgFmax _ _ _ _ _,
    atomgMinN _ _ _ _ _, atomgMaxN _ _ _ _ _, atomsAdd _ _ _ _, atomsMinI _ _ _ _, atomsMaxI _ _ _ _, atomsAnd _ _ _ _,
    atomsOr _ _ _ _, atomsExch _ _ _ _, atomsCas _ _ _ _, atomsIncb _ _ _ _, xidx _ _ _ _ _, xxor _ _ _ _ _, xrot _ _ _ _ _,
    xshift _ _ _ _ _, xlid _ _ _ _, pany _ _ _, pall _ _ _, pmask _ _ _ _, matchEq _ _ _ _, compact _ _ _ _ _, redAdd _ _ _ _,
    redFadd _ _ _ _, redMinI _ _ _ _, redMinN _ _ _ _, redMinF _ _ _ _, redMaxI _ _ _ _, redMaxN _ _ _ _, redMaxF _ _ _ _,
    scanAdd _ _ _ _, mrank _ _ _ _, garg _ _ _ _ _, gres _ _ _ _, rpush _ _ _, jml _ _ _, mfragBf16 _ _ _ _ _ _,
    mfragF16 _ _ _ _ _ _, mfragE4m3 _ _ _ _ _ _, mfragE5m2 _ _ _ _ _ _, mfragF4b _ _ _ _ _ _ _, mfragI8 _ _ _ _ _ _,
    brl _ _ _, uAdd _ _ _ _ _, uSub _ _ _ _ _, uMinI _ _ _ _ _, uMaxI _ _ _ _ _, uMinN _ _ _ _ _, uMaxN _ _ _ _ _,
    uMul _ _ _ _ _, uMulhN _ _ _ _ _, uAnd _ _ _ _ _, uOr _ _ _ _ _, uXor _ _ _ _ _, uAndn _ _ _ _ _, uShl _ _ _ _ _,
    uShr _ _ _ _ _, uSar _ _ _ _ _, uClz _ _ _ _, uEq _ _ _ _, uNe _ _ _ _, uLtI _ _ _ _, uLeI _ _ _ _, uLtN _ _ _ _,
    uLeN _ _ _ _, uTst _ _ _ _, uMov _ _ _ _, uSel _ _ _ _ _, uMovs _ _ _ _, kopAnd _ _ _ _, kopOr _ _ _ _, kopXor _ _ _ _,
    kopAndn _ _ _ _, kopNot _ _ _, vtos _ _ _ _, uPopc _ _ _ _, uDivN _ _ _ _ _, ret _, calli _ _, saddi _ _ _, sandi _ _ _,
    sori _ _ _, sshiShl _ _ _, sshiShr _ _ _, sshiSar _ _ _, scmpiEq _ _ _, scmpiNe _ _ _, scmpiLtI _ _ _, scmpiLeI _ _ _,
    scmpiLtN _ _ _, scmpiLeN _ _ _, scmpiTst _ _ _, smovi _ _, sld _ _ _, sst _ _ _, bra _ _ _, call _ _ _, rep _ _ _ _,
    guard _ _, hdr _ _ _ _, jseg _ _, cfetch _ _, widen _ _, gather _ _, barTeam, barTeamYield, barClus, barMask _,
    joinEnrol _, joinWait _, elect _ _, partitionWhole _, partitionB4 _, partitionB8 _, partitionB16 _, partitionMask _ _,
    regroup, lmap _ _, nop, exit, brk, trap _, region, yield, cinv _ _, cinvSync _ _, tcopy _ _ _, tcopym _ _ _, mtask _,
    drain _ _, ringAcq _ _, ringRel _, keySort _ _ _ _, keyMerge _ _ _ _ _, keyTopk _ _ _, keyOffs _ _ _, keyCheck _ _ _,
    xlatb _ _ _, seq _, fence _, fenceAcq _, fenceRel _, fenceSc _, cwait _ _, suspend _ _, touch _, fulfill _ _,
    celltag _ _ _, nlaunch _ _, nsignal _, nqstat _ _, mrs _ _, msr _ _, adpf _ _ _, dbgRd _ _ _, dbgWr _ _ _, ctxSave _ _,
    ctxLoad _, place _, evq _ _, pmsrRd _ _, pmsrWr _ _, cload _ _, rte _ _, kill _, landingComplete _ _, trapQueueAdmit _,
    gatherFiring _, phaseRecordWrite _, eventHoldRelease _, evaluatorRequest _, cellStarterRetry _, cellWaiterRetry _,
    cwaitRecheck _, cwaitPoll _, postedAtomicPerform _, postedAtomicFault _, strokeTick, engineCommandStart _ _,
    commandComplete _ _, ringFill _ _, sparsityQueueFill _ _, taskIssue _, matrixTaskEnd _, adapterLineFill _,
    matrixNanTrap _, drainAddition _, nodeSignal _, placementDecision _, teamStart _, priorityAging _, reservation _,
    packageArbiterHandout, recordArrival _ _, flushTimerExpiry _ _, slipwayReturn _, teamEnd _, menuEntryApply _ _,
    ringtabWrite _, tlbinvPage _ _, tlbinvAsid _, tlbinvAll, vacsetAdd _ _, vacsetEmpty _, vacgo _ _, vacateHardStop _,
    vacateComplete _, pgdone _ _ _, eccClear _, wrouteWrite _, evheadWrite _ _, hostQueueDoorbell _ _ _ _, hostSubmit _ _,
    hostSignal _ _, hostCloseQueue _ _, msixCoalesceEnd _ _, eventStatusClear _, deviceRegisterWrite _ _, cxlMemWrite _ _,
    cxlMemRead _ _, wotisRead _, wotisWrite _, wotisAtomic _, wotisResponse _, wotisCopyData _, wotisEvent _, linkRetrained _,
    linkLost _, resync, resyncDone, attestationRequest _, attestationReportReady, throttle _, thermalFreeze, freeze,
    coldReset, warmReset, bootImageCheck, testLogicReset, extest, samplePreload, idcode, daddr _, ddata, dstat, bypass,
    illegalInstruction, codeNotLanded, powerLoss]

end Sys2Proof.Laws.RoundTrip

namespace Sys2Proof.Laws

/-- Words that begin with one, and that a well-formed instruction is encoded as, decode to it. -/
theorem decode_of_encode {i : Instr} {w : Word} {ws : List Word} (hwords : encode i = w :: ws) (h : i.wf = true) :
    decode (w :: ws) = .ok i := by
  rw [← hwords]
  exact RoundTrip.holds i h (by rw [hwords]; exact List.cons_ne_nil w ws)

end Sys2Proof.Laws

open Sys2Proof

/-- Settles O56, by the round trip of each instruction. -/
theorem decodeInvertsEncode : Obligations.DecodeInvertsEncode := Laws.RoundTrip.holds

/-- Settles O55: each word is what its instruction is encoded as, and the instruction is well formed. -/
theorem wordsDecodeAsTheFormatsSay : Obligations.WordsDecodeAsTheFormatsSay := by
  refine ⟨?_, ?_, ?_, ?_, ?_, ?_, ?_, ?_, ?_, ?_, ?_, ?_⟩ <;>
    exact Laws.decode_of_encode (by decide) (by decide)
end

section
/-! SUPPORT. The agents that work by the boathouse leaves alone: events, signals, record queues and the end of a node change no
group, no team and no cox (R278, R282, R287, R339). -/

namespace Sys2Proof.Machine

/-! ### The same groups, teams and coxes -/

/-- The groups, the teams and the cox of every core are the same. -/
def SameAgents (s t : State) : Prop :=
  t.groups = s.groups ∧ t.teams = s.teams ∧ ∀ n, (t.core n).cox = (s.core n).cox

theorem SameAgents.refl (s : State) : SameAgents s s := ⟨rfl, rfl, fun _ => rfl⟩

theorem SameAgents.trans {s t u : State} (h : SameAgents s t) (k : SameAgents t u) : SameAgents s u :=
  ⟨k.1.trans h.1, k.2.1.trans h.2.1, fun n => (k.2.2 n).trans (h.2.2 n)⟩

/-- Equal groups, teams and cores have the same agents. -/
theorem SameAgents.of_eq {s t : State} (hg : t.groups = s.groups) (ht : t.teams = s.teams) (hc : t.cores = s.cores) :
    SameAgents s t :=
  ⟨hg, ht, fun n => by rw [State.core, hc]; rfl⟩

theorem SameAgents.ite {p : Prop} [Decidable p] {s t u : State} (h : SameAgents s t) (k : SameAgents s u) :
    SameAgents s (if p then t else u) := by
  split
  · exact h
  · exact k

theorem tget_mapVal {α : Type} (f : Nat → α → α) (t : Tab α) (n : Nat) :
    tget (t.map fun x => (x.1, f x.1 x.2)) n = (tget t n).map (f n) := by
  induction t with
  | nil => rfl
  | cons x t ih =>
    simp only [List.map_cons, tget, ih]
    split
    · next e => subst e; rfl
    · rfl

/-- A change of every core that leaves each cox. -/
theorem SameAgents.mapCores {s : State} {f : Nat → Core → Core} (h : ∀ n k, (f n k).cox = k.cox) :
    SameAgents s { s with cores := s.cores.map fun x => (x.1, f x.1 x.2) } := by
  refine ⟨rfl, rfl, fun n => ?_⟩
  unfold State.core
  rw [tget_mapVal]
  cases tget s.cores n with
  | none => rfl
  | some k => exact h n k

theorem State.sameAgents_modDie (s : State) (d : Nat) (f : Die → Die) : SameAgents s (s.modDie d f) := .of_eq rfl rfl rfl

theorem State.sameAgents_modNode (s : State) (die entry : Nat) (f : Node → Node) : SameAgents s (s.modNode die entry f) :=
  .of_eq rfl rfl rfl

theorem State.sameAgents_setQueue (s : State) (die q : Nat) (x : RecQueue) : SameAgents s (s.setQueue die q x) :=
  .of_eq rfl rfl rfl

/-! ### Memory and events -/

theorem State.sameAgents_forgetHost (s : State) : SameAgents s s.forgetHost :=
  .mapCores (f := fun _ k => { k with hostStale := [] }) fun _ _ => rfl

theorem Core.cox_outdated (k : Core) (a : Nat) (old new : Byte) : (k.outdated a old new).cox = k.cox := by
  unfold Core.outdated
  split <;> rfl

theorem State.sameAgents_setByte (s : State) (own : Option Nat) (a : Nat) (b : Byte) : SameAgents s (s.setByte own a b) := by
  have hcores : SameAgents s { s with cores := s.cores.map fun x => (x.1,
      if own = some x.1 then { x.2.forgetHost a 1 with stale := terase (x.2.forgetHost a 1).stale a }
      else (x.2.forgetHost a 1).outdated a (s.byte a) b) } :=
    .mapCores (f := fun n k => if own = some n then { k.forgetHost a 1 with stale := terase (k.forgetHost a 1).stale a }
      else (k.forgetHost a 1).outdated a (s.byte a) b) fun n k => by
        split
        · rfl
        · exact Core.cox_outdated ..
  obtain ⟨bad, hbad⟩ := s.rewritten_eq a
  unfold State.setByte
  rw [hbad]
  cases s.bad.isEmpty <;> dsimp only <;> split <;> exact hcores

theorem State.sameAgents_setBytes (s : State) (own : Option Nat) (a : Nat) (bs : List Byte) :
    SameAgents s (s.setBytes own a bs) := by
  induction bs generalizing s a with
  | nil => exact .refl s
  | cons b bs ih => exact (s.sameAgents_setByte own a b).trans (ih _ _)

theorem State.sameAgents_store (s : State) (own : Option Nat) (a : Nat) (bs : List Byte) :
    SameAgents s (s.store own a bs) :=
  (s.sameAgents_setBytes own a bs).trans (.of_eq rfl rfl rfl)

theorem State.sameAgents_mark (s : State) (addr e : Nat) (k : Acc) : SameAgents s (s.mark addr e k) := by
  unfold State.mark
  exact .ite (.refl s) (s.sameAgents_store ..)

theorem State.sameAgents_message (s : State) (port v : Nat) : SameAgents s (s.message port v) := by
  unfold State.message
  exact .ite (.of_eq rfl rfl rfl) (.of_eq rfl rfl rfl)

theorem State.sameAgents_raiseStatus (s : State) (m : Word) : SameAgents s (s.raiseStatus m) := by
  have hset : SameAgents s { s with evStatus := s.evStatus ||| m } := .of_eq rfl rfl rfl
  unfold State.raiseStatus
  exact .ite hset (hset.trans ((State.sameAgents_message ..).trans (State.sameAgents_message ..)))

theorem State.sameAgents_ringPut (s : State) (die : Nat) (e : Event) : SameAgents s (s.ringPut die e) := by
  have hput := fun a f => (s.sameAgents_store none a (e.bytes die)).trans (State.sameAgents_modDie _ die f)
  unfold State.ringPut
  exact .ite ((hput _ _).trans (State.sameAgents_raiseStatus ..)) (hput _ _)

theorem State.sameAgents_ringDrain (s : State) (die n : Nat) : SameAgents s (s.ringDrain die n) := by
  induction n generalizing s with
  | zero => exact .refl s
  | succ n ih =>
    unfold State.ringDrain
    dsimp only
    split
    · split
      · exact (s.sameAgents_modDie ..).trans ((State.sameAgents_ringPut ..).trans ((State.sameAgents_modDie ..).trans (ih _)))
      · exact s.sameAgents_modDie ..
    · exact s.sameAgents_modDie ..

theorem State.sameAgents_raiseEvent (s : State) (die : Nat) (e : Event) : SameAgents s (s.raiseEvent die e) :=
  (s.sameAgents_modDie ..).trans (State.sameAgents_ringDrain ..)

theorem State.sameAgents_faultOnce (s : State) (die asid page kind : Nat) (e : Event) :
    SameAgents s (s.faultOnce die asid page kind e) := by
  unfold State.faultOnce
  exact .ite (.refl s) ((s.sameAgents_modDie ..).trans (State.sameAgents_raiseEvent ..))

/-! ### The ready pool, signals, completion objects -/

theorem State.sameAgents_slipRoom (s : State) (die : Nat) : SameAgents s (s.slipRoom die).2 := by
  unfold State.slipRoom
  dsimp only
  split
  · split
    · exact .refl s
    · exact (s.sameAgents_modDie ..).trans (State.sameAgents_raiseEvent ..)
  · split
    · exact s.sameAgents_faultOnce ..
    · exact .refl s

theorem State.sameAgents_slipAdd (s : State) (die : Nat) (x : SlipItem) : SameAgents s (s.slipAdd die x).2 := by
  have h := s.sameAgents_slipRoom die
  unfold State.slipAdd
  split
  · next hroom =>
    rw [hroom] at h
    exact h.trans (.of_eq rfl rfl rfl)
  · exact h

theorem State.sameAgents_poolAdd (s : State) (die : Nat) (x : PoolItem) (prio : Nat) :
    SameAgents s (s.poolAdd die x prio).2 := by
  unfold State.poolAdd
  dsimp only
  split
  · exact .of_eq rfl rfl rfl
  · exact s.sameAgents_slipAdd ..

theorem State.sameAgents_makeReady (s : State) (die entry : Nat) : SameAgents s (s.makeReady die entry).2 := by
  unfold State.makeReady
  split
  · exact .refl s
  · next n _ =>
    have hpool := s.sameAgents_poolAdd die (.grid (4096 * die + entry) 0 n.desc.clusters) n.desc.prio
    dsimp only
    split
    · exact .of_eq rfl rfl rfl
    · split
      · exact .of_eq rfl rfl rfl
      · split
        · next hadd =>
          rw [hadd] at hpool
          exact hpool.trans (.of_eq rfl rfl rfl)
        · next hadd =>
          rw [hadd] at hpool
          exact hpool

theorem State.sameAgents_signal (s : State) (h : Word) : SameAgents s (s.signal h) := by
  unfold State.signal
  refine .ite (.refl s) ?_
  split
  · exact .ite (s.sameAgents_modDie ..) (.refl s)
  · exact .ite (.refl s) (.ite ((s.sameAgents_modNode ..).trans (State.sameAgents_makeReady ..)) (s.sameAgents_modNode ..))

theorem State.sameAgents_updateObject (s : State) (pa status flags : Nat) :
    SameAgents s (s.updateObject pa status flags) := by
  unfold State.updateObject
  exact .ite ((s.sameAgents_store ..).trans (State.sameAgents_signal ..)) (s.sameAgents_store ..)

theorem State.sameAgents_updateAt (s : State) (die asid va : Nat) (x : Place) (status flags : Nat) (e : Event) :
    SameAgents s (s.updateAt die asid va x status flags e).2 := by
  unfold State.updateAt
  split
  · split
    · exact .of_eq rfl rfl rfl
    · exact s.sameAgents_faultOnce ..
  · exact .ite (.refl s) (s.sameAgents_updateObject ..)

theorem State.sameAgents_dieComplete (s : State) (die asid va status : Nat) (e : Event) :
    SameAgents s (s.dieComplete die asid va status e).2 := by
  unfold State.dieComplete
  dsimp only
  split
  · exact s.sameAgents_faultOnce ..
  · split
    · exact s.sameAgents_faultOnce ..
    · exact (s.sameAgents_mark ..).trans (State.sameAgents_updateAt ..)

/-! ### Record queues and nodes -/

theorem State.sameAgents_closeTile (s : State) (die q : Nat) : SameAgents s (s.closeTile die q).2 := by
  unfold State.closeTile
  dsimp only
  split
  · exact .refl s
  · split
    · exact .refl s
    · next nd entry n _ =>
      have hpool := s.sameAgents_poolAdd die (.tile (4096 * nd + entry) (s.queue die q).opened) n.desc.prio
      split
      · next hadd =>
        rw [hadd] at hpool
        exact hpool
      · next hadd =>
        rw [hadd] at hpool
        exact hpool.trans (.of_eq rfl rfl rfl)

theorem State.sameAgents_expireTile (s : State) (die q : Nat) : SameAgents s (s.expireTile die q).2 := by
  unfold State.expireTile
  split
  · exact .refl s
  · split
    · exact s.sameAgents_closeTile ..
    · exact .refl s

theorem State.sameAgents_joinTile (s : State) (die q : Nat) (r : List Word) : SameAgents s (s.joinTile die q r).2 := by
  have hexpire := s.sameAgents_expireTile die q
  unfold State.joinTile
  split
  · exact .refl s
  · split
    · exact .refl s
    · split
      · next he =>
        rw [he] at hexpire
        exact hexpire
      · next u he =>
        rw [he] at hexpire
        refine hexpire.trans ?_
        dsimp only
        split
        · have hclose := (u.sameAgents_setQueue die q { u.queue die q with
              opened := (u.queue die q).opened ++ [r]
              start := if (u.queue die q).opened.isEmpty then some u.stroke else (u.queue die q).start }).trans
            (State.sameAgents_closeTile _ die q)
          split
          · next hc =>
            rw [hc] at hclose
            exact hclose
          · next hc =>
            rw [hc] at hclose
            exact hclose.trans (.of_eq rfl rfl rfl)
        · exact .of_eq rfl rfl rfl

theorem State.sameAgents_joinAll (s : State) (die q n : Nat) : SameAgents s (s.joinAll die q n) := by
  induction n generalizing s with
  | zero => exact .refl s
  | succ n ih =>
    unfold State.joinAll
    split
    · exact .refl s
    · next r _ _ =>
      have hjoin := s.sameAgents_joinTile die q r
      split
      · next hj =>
        rw [hj] at hjoin
        exact hjoin
      · next hj =>
        rw [hj] at hjoin
        exact hjoin.trans ((State.sameAgents_setQueue ..).trans (ih _))

theorem State.sameAgents_retire (s : State) (die entry : Nat) : SameAgents s (s.retire die entry).2 := by
  unfold State.retire
  split
  · exact .refl s
  · next n _ =>
    split
    · exact .refl s
    · have hobject : SameAgents s (if n.desc.cobj = 0 then (true, s)
          else s.dieComplete die n.desc.asid n.desc.cobj 0 { Event.plain 1 with handle := handleOf die n.gen entry }).2 := by
        split
        · exact .refl s
        · exact s.sameAgents_dieComplete ..
      dsimp only
      split
      · next ho =>
        rw [ho] at hobject
        exact hobject
      · next ho =>
        rw [ho] at hobject
        exact hobject.trans (.ite (.of_eq rfl rfl rfl) (State.sameAgents_modDie ..))

theorem State.sameAgents_closeQueue (s : State) (die entry : Nat) : SameAgents s (s.closeQueue die entry) := by
  unfold State.closeQueue
  split
  · exact .refl s
  · split
    · exact .refl s
    · exact (s.sameAgents_joinAll ..).trans ((State.sameAgents_setQueue ..).trans ((State.sameAgents_modNode ..).trans
        ((State.sameAgents_expireTile ..).trans (State.sameAgents_retire ..))))

theorem State.sameAgents_nsignal (s : State) (die : Nat) (h : Word) : SameAgents s (s.nsignal die h) := by
  unfold State.nsignal
  split
  · exact .ite (.refl s) (.ite (s.sameAgents_closeQueue ..) (s.sameAgents_signal h))
  · exact s.sameAgents_signal h

end Sys2Proof.Machine
end

section
/-! PROOF. Privilege and illegal-instruction traps, the uniform-set words that a cox runs, traps of a fetch and the trap queue
(O38). -/

namespace Sys2Proof.Machine

/-! ### Traps of a group and causes of a cox -/

/-- A trap of a group, but a memory error, stops it with the trap's record; other groups, teams and memory are as before
(R323). -/
theorem takeTrap_record {s : State} {c : Issue} {g : Group} (h : s.Runs c g) {cause : Nat} (d1 d2 : DWord) (m : Mask)
    (hc : cause ≠ 0x30) :
    let t := s.takeTrap c cause d1 d2 m
    tget t.groups c.gkey = some { g with stop := some (trapStop c cause d1 d2 m) } ∧
      (∀ j, j ≠ c.gkey → tget t.groups j = tget s.groups j) ∧ t.teams = s.teams ∧ SameMemory s t := by
  intro t
  obtain ⟨hstop, hothers, hteams, hmem, _⟩ :=
    stopped_group (s := s) (k := c.gkey) (g := g) (x := trapStop c cause d1 d2 m)
      (r := reportOf c.gkey g (trapStop c cause d1 d2 m))
  rw [← State.takeTrap_group h d1 d2 m hc] at hstop hothers hteams hmem
  exact ⟨hstop, hothers, hteams, hmem⟩

/-- The state after the cox of unit c has raised a cause (R341). -/
def State.coxRaised (s : State) (c : Issue) (cause : Nat) : State :=
  s.modCore c.core fun k => { k with cox := { (s.core c.core).cox with
    cause := BitVec.ofNat 64 cause, epc := c.addr, pc := (s.core c.core).cox.vec, rep := 0 } }

/-- A cause of the cox that finds none standing, but a memory error, is all its trap comes to. -/
theorem takeTrap_cox {s : State} {c : Issue} (h : s.RunsCox c) (h0 : (s.core c.core).cox.cause = 0) {cause : Nat}
    (d1 d2 : DWord) (m : Mask) (hc : cause ≠ 0x30) : s.takeTrap c cause d1 d2 m = s.coxRaised c cause := by
  simp only [State.takeTrap, if_neg hc, State.stopAt, h.2, if_true, State.coxCause, h0]
  rfl

/-- A cox-only unit of a group is its privilege trap (R344). -/
theorem coxAct_runs {s : State} {c : Issue} {g : Group} (h : s.Runs c g) (body : Issue → UFile → CoxRes) :
    coxAct s body = .next (s.takeTrap c 0x02 (c.word.setWidth 64) 0) := by
  obtain ⟨hcur, hcox, _⟩ := h
  simp [coxAct, hcur, hcox]

theorem rte_runs {s : State} {c : Issue} {g : Group} (h : s.Runs c g) (a b : USrc) :
    exec (.rte a b) s = .next (s.takeTrap c 0x02 (c.word.setWidth 64) 0) := by
  change execRte a b s = _
  rw [execRte, h.1]
  dsimp only
  rw [h.2.1, if_neg (by simp)]
  exact coxAct_runs h _

/-- A unit that only a group can run raises the illegal-instruction cause (R341). -/
theorem groupUnit_raises {s : State} {c : Issue} (h : s.RunsCox c) (h0 : (s.core c.core).cox.cause = 0)
    (body : Issue → Group → Res) : groupUnit s body = .next (s.coxRaised c 0x01) := by
  rw [groupUnit_cox h, takeTrap_cox h h0 _ _ _ (by decide)]

/-! ### Units of a cox -/

theorem orCox_cox {s : State} {c : Issue} (h : s.RunsCox c) (cox : Issue → Out) (group : Out) :
    orCox s cox group = cox c := by
  obtain ⟨hcur, hcox⟩ := h
  simp [orCox, hcur, hcox]

/-- The cox of unit c has passed it with the uniform file u; groups, teams and memory are as before. -/
def CoxPasses (s : State) (c : Issue) (u : UFile) (o : Out) : Prop :=
  Answers o fun t => (t.core c.core).cox = Cox.advance c { (s.core c.core).cox with u := u } ∧ t.groups = s.groups ∧
    t.teams = s.teams ∧ SameMemory s t

section

variable {s t : State} {c : Issue} {f : Cox → Except Nat State} {a : USrc} {n : Nat} {f' : Cox → Nat → Except Nat State}

theorem coxGuarded_false (hk : c.kholds 0 (s.core c.core).cox.u = false) :
    CoxPasses s c (s.core c.core).cox.u (coxGuarded s c f) := by
  simp only [coxGuarded, coxUnit, hk, Bool.false_eq_true, if_false]
  exact ⟨_, rfl, by rw [State.core_modCore, if_pos rfl], rfl, rfl, .of_eq rfl rfl rfl⟩

theorem coxGuarded_ok (hk : c.kholds 0 (s.core c.core).cox.u = true) (hf : f (s.core c.core).cox = .ok t) :
    coxGuarded s c f = .next (t.modCore c.core fun k => { k with cox := k.cox.advance c }) := by
  simp only [coxGuarded, coxUnit, hk, if_true, hf]

theorem coxGuarded_error (hk : c.kholds 0 (s.core c.core).cox.u = true) {cause : Nat}
    (hf : f (s.core c.core).cox = .error cause) : coxGuarded s c f = .next (s.takeTrap c cause 0 0) := by
  simp only [coxGuarded, coxUnit, hk, if_true, hf]

/-- An effect on a cox's own registers, or on none. -/
theorem coxGuarded_passes {u : UFile} (hk : c.kholds 0 (s.core c.core).cox.u = true) (hf : f (s.core c.core).cox = .ok t)
    (hcox : (t.core c.core).cox = { (s.core c.core).cox with u := u }) (hg : t.groups = s.groups) (ht : t.teams = s.teams)
    (hm : SameMemory s t) : CoxPasses s c u (coxGuarded s c f) := by
  rw [coxGuarded_ok hk hf]
  refine ⟨_, rfl, ?_, hg, ht, hm.trans (.of_eq rfl rfl rfl)⟩
  rw [State.core_modCore, if_pos rfl, ← hcox]

/-- A result in a register of the cox. -/
theorem coxResult_passes (hk : c.kholds 0 (s.core c.core).cox.u = true) (d : UDst) (v : Cox → DWord) :
    CoxPasses s c (d.put false (v (s.core c.core).cox) (s.core c.core).cox.u)
      (coxGuarded s c fun x => .ok (s.modCore c.core fun k => { k with cox := { k.cox with u := d.put false (v x) k.cox.u } })) := by
  refine coxGuarded_passes hk rfl ?_ rfl rfl (.of_eq rfl rfl rfl)
  rw [State.core_modCore, if_pos rfl]

end

/-! ### Fences, cells, CWAIT, nodes and `stroke` on the cox (log entry 11) -/

/-- The addresses of a cox's memories lie below 2^54. -/
theorem coxAddress_high {a : DWord} (h : a.toNat < 0x10000 ∨ populated a.toNat = true) : a >>> 54 = 0 := by
  rcases h with h | h
  · exact high_zero h
  · apply BitVec.eq_of_toNat_eq
    rw [BitVec.toNat_ushiftRight, Nat.shiftRight_eq_div_pow]
    refine Nat.div_eq_of_lt ?_
    unfold populated rangeOf at h
    split at h
    · omega
    · split at h
      · omega
      · split at h
        · omega
        · split at h
          · omega
          · cases h

section

variable {a : DWord} {n : Nat}

theorem coxBad_good (hn : a.toNat % n = 0) (h : a.toNat < 0x10000 ∨ populated a.toNat = true) : coxBad a n = none := by
  rw [coxBad, if_neg (by simp [coxAddress_high h]), if_neg (by simp [hn]), if_pos (by simpa using h)]

theorem coxBad_high (h : a >>> 54 ≠ 0) : coxBad a n = some 0x16 := by
  rw [coxBad, if_pos (bne_iff_ne.2 h)]

theorem coxBad_misaligned (h : a >>> 54 = 0) (hn : a.toNat % n ≠ 0) : coxBad a n = some 0x17 := by
  rw [coxBad, if_neg (by simp [h]), if_pos (by simp [hn])]

theorem coxBad_unpopulated (h : a >>> 54 = 0) (hn : a.toNat % n = 0) (hlow : 0x10000 ≤ a.toNat)
    (hp : populated a.toNat = false) : coxBad a n = some 0x16 := by
  rw [coxBad, if_neg (by simp [h]), if_neg (by simp [hn]), if_neg (by simp [hp, hlow])]

end

section

variable {s : State} {c : Issue} (h : s.RunsCox c)
include h

theorem fence_cox {n : Nat} {i : Instr} (hi : i ∈ [Instr.fence n, .fenceAcq n, .fenceRel n, .fenceSc n]) :
    CoxPasses s c (s.core c.core).cox.u (exec i s) := by
  have hfence (n : Nat) : CoxPasses s c (s.core c.core).cox.u (coxFence n s c) := by
    cases hk : c.kholds 0 (s.core c.core).cox.u with
    | false => exact coxGuarded_false hk
    | true =>
      obtain ⟨hg, ht, hcox⟩ : SameAgents s (if n = 5 then s.forgetHost else s) := .ite s.sameAgents_forgetHost (.refl s)
      refine coxGuarded_passes hk rfl (hcox c.core) hg ht ?_
      split
      · exact .of_eq rfl rfl rfl
      · exact .refl s
  have hexec : ∃ n, exec i s = coxFence n s c := by
    simp only [List.mem_cons, List.not_mem_nil, or_false] at hi
    rcases hi with rfl | rfl | rfl | rfl
    exacts [⟨n, orCox_cox h ..⟩, ⟨n, orCox_cox h ..⟩, ⟨0, orCox_cox h ..⟩, ⟨n, orCox_cox h ..⟩]
  obtain ⟨m, hm⟩ := hexec
  rw [hm]
  exact hfence m

/-- TOUCH and the forms of cells check the address first; then TOUCH passes and the others find no tagged page. -/
theorem cells_cox {a w : USrc} {b : Nat} {d : UDst} {i : Instr}
    (hi : i ∈ [Instr.touch a, .suspend a b, .fulfill a b, .celltag a w d]) :
    exec i s = coxAt s c a 32 fun _ _ => if i = .touch a then .ok s else .error 0x1A := by
  simp only [List.mem_cons, List.not_mem_nil, or_false] at hi
  rcases hi with rfl | rfl | rfl | rfl
  · rw [if_pos rfl]
    exact orCox_cox h ..
  all_goals
    rw [if_neg (by simp)]
    exact orCox_cox h ..

theorem coxAt_raises {a : USrc} {n cause : Nat} {f : Cox → Nat → Except Nat State}
    (hk : c.kholds 0 (s.core c.core).cox.u = true) (h0 : (s.core c.core).cox.cause = 0)
    (hbad : coxBad (a.get (s.core c.core).cox.u) n = some cause) (h30 : cause ≠ 0x30) :
    coxAt s c a n f = .next (s.coxRaised c cause) := by
  rw [coxAt, coxGuarded_error (cause := cause) hk (by simp only [hbad]), takeTrap_cox h h0 _ _ _ h30]

/-- CWAIT of a good address: it passes once the count is there, and is withdrawn until then. -/
theorem cwait_cox {a w : USrc} (hk : c.kholds 0 (s.core c.core).cox.u = true)
    (hn : (a.get (s.core c.core).cox.u).toNat % 16 = 0) (hp : populated (a.get (s.core c.core).cox.u).toNat = true)
    (hlow : 0x10000 ≤ (a.get (s.core c.core).cox.u).toNat)
    (ho : s.owned 0 0 (a.get (s.core c.core).cox.u).toNat 4 = false) :
    if (w.get (s.core c.core).cox.u).toNat % 2 ^ 32 ≤ s.num (a.get (s.core c.core).cox.u).toNat 4 then
      CoxPasses s c (s.core c.core).cox.u (exec (.cwait a w) s)
    else exec (.cwait a w) s = .next { s with cur := none } := by
  have hgood := coxBad_good hn (.inr hp)
  have hread : leNat (s.coxRead c.core (a.get (s.core c.core).cox.u).toNat 4) =
      s.num (a.get (s.core c.core).cox.u).toNat 4 := by
    rw [State.coxRead, if_neg (by omega), State.num]
  have hexec : exec (.cwait a w) s = coxCwait a w s c := orCox_cox h ..
  rw [hexec, coxCwait, hread, BitVec.toNat_setWidth]
  simp only [State.coxWaits, hk, hgood, ho, Bool.and_false, Bool.or_false, Option.isNone_none, Bool.true_and, decide_eq_true_eq]
  split
  · next hle =>
    rw [if_neg (by omega)]
    exact coxGuarded_passes hk (by simp only [hgood]) rfl rfl rfl (.refl s)
  · next hle => rw [if_pos (by omega)]

/-- NSIGNAL signals for the partition of the core's die. -/
theorem nsignal_cox (hk : c.kholds 0 (s.core c.core).cox.u = true) (a : USrc) : Answers (exec (.nsignal a) s) fun t =>
    (t.core c.core).cox = Cox.advance c (s.core c.core).cox ∧ t.groups = s.groups ∧ t.teams = s.teams ∧
      t.dies = (s.nsignal (c.core / 216) (BitVec.setWidth 32 (a.get (s.core c.core).cox.u))).dies := by
  have hexec : exec (.nsignal a) s =
      coxGuarded s c fun x => .ok (s.nsignal (dieOf c.core) ((a.get x.u).setWidth 32)) := orCox_cox h ..
  obtain ⟨hg, ht, hcox⟩ := s.sameAgents_nsignal (dieOf c.core) ((a.get (s.core c.core).cox.u).setWidth 32)
  rw [hexec, coxGuarded_ok hk rfl]
  refine ⟨_, rfl, ?_, hg, ht, rfl⟩
  rw [State.core_modCore, if_pos rfl]
  exact congrArg (Cox.advance c) (hcox c.core)

theorem nqstat_cox (hk : c.kholds 0 (s.core c.core).cox.u = true) (a : USrc) (d : UDst) :
    CoxPasses s c (d.put false (s.nodeStatus (c.core / 216) (BitVec.setWidth 32 (a.get (s.core c.core).cox.u)))
      (s.core c.core).cox.u) (exec (.nqstat d a) s) := by
  have hexec : exec (.nqstat d a) s = coxGuarded s c fun x => .ok (s.modCore c.core fun k => { k with
      cox := { k.cox with u := d.put false (s.nodeStatus (dieOf c.core) ((a.get x.u).setWidth 32)) k.cox.u } }) :=
    orCox_cox h ..
  rw [hexec]
  exact coxResult_passes hk d fun x => s.nodeStatus (dieOf c.core) ((a.get x.u).setWidth 32)

theorem mrsStroke_cox (hk : c.kholds 0 (s.core c.core).cox.u = true) (d : UDst) :
    CoxPasses s c (d.put false s.stroke (s.core c.core).cox.u) (exec (.mrs (.u d) 8) s) := by
  have hexec : exec (.mrs (.u d) 8) s = coxGuarded s c fun _ => .ok (s.modCore c.core fun k => { k with
      cox := { k.cox with u := d.put false s.stroke k.cox.u } }) := orCox_cox h ..
  rw [hexec]
  exact coxResult_passes hk d fun _ => s.stroke

/-- A false guard: the cox only moves on (R47). -/
theorem skipped_cox (hk : c.kholds 0 (s.core c.core).cox.u = false) {a w : USrc} {b : Nat} {d : UDst} {i : Instr}
    (hi : i ∈ [Instr.touch a, .suspend a b, .fulfill a b, .celltag a w d, .cwait a w, .nsignal a, .nqstat d a,
      .mrs (.u d) 8]) : CoxPasses s c (s.core c.core).cox.u (exec i s) := by
  have hexec : ∃ f, exec i s = coxGuarded s c f := by
    by_cases hcell : i ∈ [Instr.touch a, .suspend a b, .fulfill a b, .celltag a w d]
    · exact ⟨_, cells_cox h hcell⟩
    · have hi' : i ∈ [Instr.cwait a w, .nsignal a, .nqstat d a, .mrs (.u d) 8] := by
        simp only [List.mem_cons, List.not_mem_nil, or_false] at hi hcell ⊢
        tauto
      simp only [List.mem_cons, List.not_mem_nil, or_false] at hi'
      rcases hi' with rfl | rfl | rfl | rfl
      · have hwait : exec (.cwait a w) s = coxCwait a w s c := orCox_cox h ..
        exact ⟨_, hwait.trans (if_neg (by simp [hk]))⟩
      all_goals exact ⟨_, orCox_cox h ..⟩
  obtain ⟨f, hf⟩ := hexec
  rw [hf]
  exact coxGuarded_false hk

/-! ### Illegal words and fetches that fail -/

/-- Words that only a group can run, or only lanes, raise the illegal-instruction cause on the cox (log entry 11). -/
theorem groupOnly_cox (h0 : (s.core c.core).cox.cause = 0) {d : LDst} {a b : LSrc} {u : USrc} {p n : Nat} {z : Bool}
    {o : BitVec 18} {i : Instr}
    (hi : i ∈ [Instr.add d a b z n, .mov d a z n, .fadd d a b z n, .brl p z o, .jml d a n, .exit, .barTeam, .joinWait n,
      .widen u b, .mtask u, .seq u]) : exec i s = .next (s.coxRaised c 0x01) := by
  have hexec : ∃ body, exec i s = groupUnit s body := by
    simp only [List.mem_cons, List.not_mem_nil, or_false] at hi
    rcases hi with rfl | rfl | rfl | rfl | rfl | rfl | rfl | rfl | rfl | rfl | rfl <;> exact ⟨_, rfl⟩
  obtain ⟨body, hbody⟩ := hexec
  rw [hbody]
  exact groupUnit_raises h h0 body

end

/-- Words of a cox take the privilege trap in a group (R344). -/
theorem coxOnly_runs {s : State} {c : Issue} {g : Group} (h : s.Runs c g) {r : UDst} {a b w : USrc} {n : Nat} {i : Instr}
    (hi : i ∈ [Instr.evq r a, .pmsrRd r n, .pmsrWr a n, .dbgRd r a b, .dbgWr a b w, .ctxSave a b, .ctxLoad a, .place a,
      .cload a b, .rte a b, .kill a]) : exec i s = .next (s.takeTrap c 0x02 (c.word.setWidth 64) 0) := by
  by_cases hrte : i = .rte a b
  · rw [hrte]
    exact rte_runs h a b
  · simp only [List.mem_cons, List.not_mem_nil, or_false, hrte, false_or] at hi
    rcases hi with rfl | rfl | rfl | rfl | rfl | rfl | rfl | rfl | rfl | rfl
    all_goals
      unfold exec
      exact coxAct_runs h _

/-- A code-not-landed trap that no landing serves, of a team without auto-land, is taken (R107, R325). -/
theorem settle_notLanded {s : State} {c : Issue} {g : Group} {tm : Team} (h : s.Runs c g) (htm : tget s.teams g.tid = some tm)
    (hauto : tm.desc.autoLand = false) (d1 : DWord) :
    settle s c (.error (.trap 0x08 d1 0 none)) = .next (s.takeTrap c 0x08 d1 0) := by
  have hnone : s.autoLand c d1 = none := by simp [State.autoLand, h.2.2, htm, hauto]
  simp [settle, hnone]

theorem fetchTrap_runs {s : State} {c : Issue} {g : Group} {tm : Team} (h : s.Runs c g) (htm : tget s.teams g.tid = some tm)
    (hauto : tm.desc.autoLand = false) {i : Instr} {cause : Nat} {d1 : DWord}
    (hi : i = .illegalInstruction ∧ cause = 1 ∧ d1 = c.first.setWidth 64 ∨ i = .codeNotLanded ∧ cause = 8 ∧ d1 = c.next) :
    exec i s = .next (s.takeTrap c cause d1 0) := by
  rcases hi with ⟨rfl, rfl, rfl⟩ | ⟨rfl, rfl, rfl⟩
  · change execIllegalInstruction s = _
    simp only [execIllegalInstruction, h.1]
  · change execCodeNotLanded s = _
    rw [execCodeNotLanded, groupOrCox_runs h, settle_notLanded h htm hauto]

theorem fetchTrap_cox {s : State} {c : Issue} (h : s.RunsCox c) (h0 : (s.core c.core).cox.cause = 0) {i : Instr} {cause : Nat}
    (hi : i = .illegalInstruction ∧ cause = 1 ∨ i = .codeNotLanded ∧ cause = 8) : exec i s = .next (s.coxRaised c cause) := by
  rcases hi with ⟨rfl, rfl⟩ | ⟨rfl, rfl⟩
  · change execIllegalInstruction s = _
    simp only [execIllegalInstruction, h.1, takeTrap_cox h h0 _ _ _ (by decide : 0x01 ≠ 0x30)]
  · change execCodeNotLanded s = _
    rw [execCodeNotLanded, groupOrCox_cox h, takeTrap_cox h h0 _ _ _ (by decide)]

/-! ### The trap queue (R324) -/

section

variable {s : State} {core : Nat} {k : Nat} {ks : List Nat} (hwait : (s.core core).trapWait = k :: ks)
include hwait

theorem trapQueueAdmit_full (hfull : 64 ≤ (s.core core).reports.length) : exec (.trapQueueAdmit core) s = .next s := by
  change execTrapQueueAdmit core s = _
  have hdue : s.admitDue core = false := by simp [State.admitDue, hfull]
  simp [execTrapQueueAdmit, hwait, hdue]

theorem trapQueueAdmit_enters {g : Group} {x : Stop} (hg : tget s.groups k = some g) (hx : g.stop = some x)
    (hreason : x.reason = 1) (hroom : (s.core core).reports.length < 64) :
    exec (.trapQueueAdmit core) s = .next ((s.modCore core fun n => { n with trapWait := ks }).modCore core fun n =>
      { n with reports := n.reports ++ [reportOf k g x] }) := by
  change execTrapQueueAdmit core s = _
  have hdue : s.admitDue core = true := by simp [State.admitDue, hroom, hwait]
  simp [execTrapQueueAdmit, hwait, hdue, hg, hx, hreason]

end

/-- Two changes of a core leave the others. -/
theorem onlyCore_modCore (s : State) (n : Nat) (f f' : Core → Core) : OnlyCore s ((s.modCore n f).modCore n f') n :=
  ⟨rfl, fun k hk => by simp [State.modCore_cores, tget_tset_ne _ _ hk]⟩

/-! ### The three claims -/

theorem privilegeTraps : Claims.PrivilegeTraps := by
  refine ⟨fun s c g r a b w n i h hi => ?_, fun s c d a b u p n z o i h hi h0 => groupOnly_cox h h0 hi⟩
  obtain ⟨hstop, hothers, hteams, hmem⟩ := takeTrap_record h (c.word.setWidth 64) 0 c.lanes (by decide : 0x02 ≠ 0x30)
  exact ⟨_, coxOnly_runs h hi, ⟨_, hstop, rfl, rfl, rfl, rfl, rfl⟩, hothers, hteams, hmem⟩

theorem coxUniformWords : Claims.CoxUniformWords := by
  intro s c h _ x passes raises
  refine ⟨fun n i hi => fence_cox h hi, fun a w b d hk i hi => skipped_cox h hk hi, fun hk => ⟨fun a w b d i hi => ?_,
    fun a w hn hp hlow ho => cwait_cox h hk hn hp hlow ho, nsignal_cox h hk,
    fun a d => ⟨nqstat_cox h hk a d, mrsStroke_cox h hk d⟩⟩⟩
  have hraises {cause : Nat} (hbad : coxBad (a.get x.u) 32 = some cause) (h30 : cause ≠ 0x30) : raises i cause := fun h0 =>
    (cells_cox h hi).trans (coxAt_raises h hk h0 hbad h30)
  refine ⟨fun hhigh => hraises (coxBad_high hhigh) (by decide), fun h54 hn => hraises (coxBad_misaligned h54 hn) (by decide),
    fun h54 hn hlow hp => hraises (coxBad_unpopulated h54 hn hlow hp) (by decide), fun hn hplace => ?_⟩
  have hgood : coxBad (a.get (s.core c.core).cox.u) 32 = none := coxBad_good hn hplace
  refine ⟨fun hi' => ?_, fun hi' h0 => ?_⟩
  · change CoxPasses s c x.u (exec i s)
    rw [cells_cox h hi]
    exact coxGuarded_passes hk (by simp only [hgood, if_pos hi']) rfl rfl rfl (.refl s)
  · rw [cells_cox h hi, coxAt, coxGuarded_error (cause := 0x1A) hk (by simp only [hgood, if_neg hi']),
      takeTrap_cox h h0 _ _ _ (by decide)]
    rfl

theorem fetchTraps : Claims.FetchTraps := by
  refine ⟨fun s c g tm i cause d1 h htm hauto hi => ?_, fun s c i cause h h0 hi => fetchTrap_cox h h0 hi,
    fun s core k ks g x hwait hg hx hreason => ⟨fun hroom => ?_, trapQueueAdmit_full hwait⟩⟩
  · have h30 : cause ≠ 0x30 := by omega
    obtain ⟨hstop, hothers, hteams, hmem⟩ := takeTrap_record h d1 0 c.lanes h30
    exact ⟨_, fetchTrap_runs h htm hauto hi, ⟨_, hstop, rfl, rfl, rfl, rfl, rfl, rfl⟩, hothers, hteams, hmem⟩
  · refine ⟨_, trapQueueAdmit_enters hwait hg hx hreason hroom, onlyCore_modCore .., ?_, reportOf k g x, ?_, rfl, rfl, rfl,
      rfl, rfl, rfl⟩
    all_goals simp [State.core_modCore]

end Sys2Proof.Machine

open Sys2Proof Sys2Proof.Machine

/-- Settles O38, from what a trap of a group and a cause of the cox leave, and the units that a cox runs. -/
theorem privilegeAndFetchTraps : Obligations.PrivilegeAndFetchTraps := ⟨privilegeTraps, coxUniformWords, fetchTraps⟩
end

section
/-! PROOF. Which words decode to no instruction, and what a decoded word is (O57): what a row reads, which bits the rows of a
major fix in funct and f7, and the decoder put together from both (R74, R75, R79, R80). -/

namespace Sys2Proof.Laws

/-! ### Field readings past the choice of the major -/

/-- A decoding that succeeds only with a property, and where it fails gives another reason than the major's. -/
def Reads (P : Instr → Prop) (r : Except Reject Instr) : Prop := Yields P r ∧ r ≠ .error .reservedMajor

theorem Reads.pure {P : Instr → Prop} {i : Instr} (h : P i) : Reads P (pure i) := ⟨Yields.pure h, fun e => by cases e⟩

theorem Reads.bind {α : Type} {P : Instr → Prop} {r : Except Reject α} {f : α → Except Reject Instr}
    (hr : r ≠ .error .reservedMajor) (h : ∀ a, Reads P (f a)) : Reads P (r >>= f) := by
  refine ⟨Yields.bind fun a => (h a).1, ?_⟩
  cases r with
  | error e => simpa [Bind.bind, Except.bind] using hr
  | ok a => exact (h a).2

theorem Reads.error {P : Instr → Prop} {e : Reject} (h : e ≠ .reservedMajor) : Reads P (.error e) := by
  refine ⟨fun i he => ?_, fun he => h ?_⟩
  · cases he
  · injection he

theorem map_ne_reserved {α β : Type} {x : Except Reject α} (f : α → β) (h : x ≠ .error .reservedMajor) :
    (do let a ← x; pure (f a) : Except Reject β) ≠ .error .reservedMajor := by
  cases x with
  | error e => simpa [Bind.bind, Except.bind] using h
  | ok a => exact fun e => by cases e

@[simp] theorem ldst_ne_reserved (c : Nat) : ldst c ≠ .error .reservedMajor := by
  unfold ldst
  split_ifs <;> simp

@[simp] theorem udst_ne_reserved (c : Nat) : udst c ≠ .error .reservedMajor := by
  unfold udst
  split_ifs <;> simp

@[simp] theorem lsrc_ne_reserved (ext : List Word) (c : Nat) : lsrc ext c ≠ .error .reservedMajor := by
  unfold lsrc
  cases ext <;> split_ifs <;> simp

@[simp] theorem usrc_ne_reserved (ext : List Word) (c : Nat) : usrc ext c ≠ .error .reservedMajor := by
  unfold usrc
  rcases ext with _ | ⟨lo, _ | ⟨hi, t⟩⟩ <;> split_ifs <;> simp

@[simp] theorem uniformExt_ne_reserved (cs : List Nat) : uniformExt cs ≠ .error .reservedMajor := by
  unfold uniformExt
  split <;> simp

@[simp] theorem addr_ne_reserved (ext : List Word) (w : Word) : addr ext w ≠ .error .reservedMajor := by
  unfold addr
  split_ifs
  · exact map_ne_reserved _ (lsrc_ne_reserved _ _)
  · simp
  · simp

@[simp] theorem mdst_ne_reserved (w : Word) : mdst w ≠ .error .reservedMajor := by
  unfold mdst
  split_ifs
  · exact map_ne_reserved _ (udst_ne_reserved _)
  · exact map_ne_reserved _ (ldst_ne_reserved _)

@[simp] theorem msrc_ne_reserved (ext : List Word) (w : Word) : msrc ext w ≠ .error .reservedMajor := by
  unfold msrc
  split_ifs
  · exact map_ne_reserved _ (usrc_ne_reserved _ _)
  · exact map_ne_reserved _ (lsrc_ne_reserved _ _)

/-- Every row reads an instruction that has words. A builder is a chain of field readings with one constructor at its end: none of
the readings fails by the major, and the constructor has words. -/
theorem rows_read {m : Nat} {rs : List Row} (h : rowsOf m = some rs) :
    ∀ r ∈ rs, ∀ w ext, Reads (encode · ≠ []) (r.build w ext) := by
  unfold rowsOf at h
  split at h <;> cases h
  all_goals
    repeat' first
      | exact Reads.pure (List.cons_ne_nil _ _)
      | refine Reads.bind (by simp) fun _ => ?_
      | exact List.forall_mem_nil _
      | refine List.forall_mem_cons.2 ⟨fun _ _ => ?_, ?_⟩

/-! ### What a decoded word is -/

theorem firstError_ok_iff {cs : List (Bool × WfError)} : firstError cs = .ok () ↔ cs.all (·.1) = true := by
  refine ⟨fun h => ?_, firstError_ok⟩
  induction cs with
  | nil => rfl
  | cons c cs ih =>
    obtain ⟨_ | _, e⟩ := c
    · cases h
    · exact ih h

theorem value_of_pick {w : Word} {r : Row} : ∀ {rs : List Row}, pick w rs = some r → w.toNat &&& r.mask = r.value
  | q :: rs, h => by
    unfold pick at h
    split at h
    · next e => cases h; exact e
    · exact value_of_pick h

/-- A row of the map decodes a word to an instruction: the word has its fixed bits, and its builder reads the instruction. -/
structure Takes (r : Row) (w : Word) (ws : List Word) (i : Instr) : Prop where
  fixed : w.toNat &&& r.mask = r.value
  built : r.build w ws = .ok i

/-- A word of a major with rows is decoded by one of them to a well-formed instruction that has words, or it fails by another
name than the major's. -/
theorem decode_reads {w : Word} {rs : List Row} (ws : List Word) (hrs : rowsOf (fld w 25 7) = some rs) :
    Reads (fun i => i.wf = true ∧ encode i ≠ [] ∧ ∃ r ∈ rs, Takes r w ws i) (decode (w :: ws)) := by
  cases hr : pick w rs with
  | none =>
    simp only [decode, hrs, hr]
    exact Reads.error (by decide)
  | some r =>
    obtain ⟨hwords, hnamed⟩ := rows_read hrs r (mem_of_pick hr) w ws
    cases hb : r.build w ws with
    | error e =>
      simp only [decode, hrs, hr, hb, Bind.bind, Except.bind]
      exact Reads.error fun he => hnamed (by rw [hb, he])
    | ok i =>
      simp only [decode, hrs, hr, hb, Bind.bind, Except.bind]
      split
      · next hc => exact Reads.pure ⟨firstError_ok_iff.1 hc, hwords i hb, r, mem_of_pick hr, value_of_pick hr, hb⟩
      · exact Reads.error nofun

theorem decode_of_reserved {w : Word} (ws : List Word) (h : rowsOf (fld w 25 7) = none) :
    decode (w :: ws) = .error .reservedMajor := by
  simp only [decode, h]

theorem decode_reserved_iff (w : Word) (ws : List Word) :
    decode (w :: ws) = .error .reservedMajor ↔ rowsOf (fld w 25 7) = none := by
  refine ⟨fun h => ?_, decode_of_reserved ws⟩
  cases hrs : rowsOf (fld w 25 7) with
  | none => rfl
  | some rs => exact absurd h (decode_reads ws hrs).2

/-- A decoded word is a well-formed instruction that has words, read by a row of its major. -/
theorem decode_ok {w : Word} {ws : List Word} {i : Instr} (h : decode (w :: ws) = .ok i) :
    i.wf = true ∧ encode i ≠ [] ∧ ∃ rs, rowsOf (fld w 25 7) = some rs ∧ ∃ r ∈ rs, Takes r w ws i := by
  cases hrs : rowsOf (fld w 25 7) with
  | none => rw [decode_of_reserved ws hrs] at h; cases h
  | some rs =>
    obtain ⟨hwf, hwords, hr⟩ := (decode_reads ws hrs).1 i h
    exact ⟨hwf, hwords, rs, rfl, hr⟩

/-! ### Reserved majors, unassigned functs and unassigned values of f7 -/

/-- Majors without rows (R74). -/
theorem rowsOf_none_iff : ∀ m < 128, rowsOf m = none ↔
    m ∈ [0x07, 0x19, 0x1A, 0x1B, 0x1C, 0x1D, 0x1E, 0x1F, 0x38, 0x39, 0x3A, 0x3B, 0x3C, 0x3D, 0x3E, 0x3F, 0x44, 0x45, 0x46, 0x47,
      0x5B, 0x6E, 0x6F, 0x78, 0x79, 0x7A, 0x7B, 0x7C, 0x7D, 0x7E, 0x7F] := by
  simp only [← Option.isNone_iff_eq_none]
  decide

/-- Some row of a major takes words whose field of k bits at bit lo is x. -/
noncomputable def fits (m lo k x : Nat) : Bool :=
  ((rowsOf m).getD []).any fun r => x * 2 ^ lo &&& r.mask == r.value &&& (2 ^ k - 1) * 2 ^ lo

theorem fits_of_decode {w : Word} {ws : List Word} {i : Instr} (h : decode (w :: ws) = .ok i) (lo k : Nat) :
    fits (fld w 25 7) lo k (fld w lo k) = true := by
  obtain ⟨-, -, rs, hrs, r, hr, ht⟩ := decode_ok h
  refine List.any_eq_true.2 ⟨r, by simpa [hrs] using hr, ?_⟩
  rw [beq_iff_eq, ← ht.fixed, fld, ← land_run, Nat.and_assoc, Nat.and_assoc, Nat.and_comm r.mask]

/-- The majors and functs to which R75 and R79 give no instruction. -/
def UnassignedFunct (m f : Nat) : Prop :=
  (m ∈ [0x04, 0x05, 0x2A, 0x42, 0x43] ∧ f = 7) ∨ (m = 0x16 ∧ 4 ≤ f) ∨ (m = 0x18 ∧ 6 ≤ f) ∨ (m = 0x2E ∧ 2 ≤ f) ∨
    (m ∈ [0x2F, 0x37, 0x56, 0x57] ∧ 1 ≤ f)

/-- The majors and values of f7 to which R80 gives no instruction. -/
def UnassignedF7 (m f7 : Nat) : Prop :=
  (m ∈ [0x52, 0x53, 0x54, 0x60, 0x61, 0x62, 0x66, 0x67, 0x69, 0x6D, 0x72, 0x73, 0x75, 0x76, 0x77] ∧ 1 ≤ f7) ∨
    (m ∈ [0x55, 0x59, 0x63, 0x64, 0x70, 0x71, 0x74] ∧ 2 ≤ f7) ∨ (m = 0x6B ∧ 3 ≤ f7) ∨
    (m ∈ [0x58, 0x5A, 0x6A, 0x6C] ∧ 4 ≤ f7) ∨ (m = 0x5F ∧ 8 ≤ f7) ∨
    (m = 0x65 ∧ f7 ∉ [0, 1, 2, 3, 4, 0x09, 0x10, 0x11, 0x19]) ∨
    (m = 0x68 ∧ (32 ≤ f7 ∨ 6 ≤ f7 % 8 ∨ f7 / 8 = 3 ∧ 5 ≤ f7 % 8))

theorem not_fits_funct {m f : Nat} (h : UnassignedFunct m f) (hlt : f < 8) : fits m 4 3 f = false := by
  obtain ⟨hm, rfl⟩ | ⟨rfl, hf⟩ | ⟨rfl, hf⟩ | ⟨rfl, hf⟩ | ⟨hm, hf⟩ := h
  · exact (by decide : ∀ m ∈ [0x04, 0x05, 0x2A, 0x42, 0x43], fits m 4 3 7 = false) m hm
  · exact (by decide : ∀ f < 8, 4 ≤ f → fits 0x16 4 3 f = false) f hlt hf
  · exact (by decide : ∀ f < 8, 6 ≤ f → fits 0x18 4 3 f = false) f hlt hf
  · exact (by decide : ∀ f < 8, 2 ≤ f → fits 0x2E 4 3 f = false) f hlt hf
  · exact (by decide : ∀ m ∈ [0x2F, 0x37, 0x56, 0x57], ∀ f < 8, 1 ≤ f → fits m 4 3 f = false) m hm f hlt hf

/-- The f7 of a FENCE word is 8 times its kind plus a scope, which the checks keep below 6, and below 5 for FENCE.sc (R80). -/
theorem fence_scope_of_decode {w : Word} {ws : List Word} {i : Instr} (hm : fld w 25 7 = 0x68) (h : decode (w :: ws) = .ok i) :
    fld w 0 7 < 32 ∧ fld w 0 7 % 8 < 6 ∧ (fld w 0 7 / 8 = 3 → fld w 0 7 % 8 < 5) := by
  obtain ⟨hwf, -, rs, hrs, r, hr, hfixed, hbuilt⟩ := decode_ok h
  rw [hm] at hrs
  cases hrs
  simp only [rows68, List.mem_cons, List.not_mem_nil, or_false] at hr
  obtain rfl | rfl | rfl | rfl := hr
  all_goals
    simp only [land_FFFFFFF8] at hfixed
    cases hbuilt
    obtain ⟨hscope, -⟩ := conj_of_wf hwf
    have hlt := of_decide_eq_true hscope
    simp only [fld] at hlt ⊢
    omega

theorem not_fits_f7 {m f : Nat} (h : UnassignedF7 m f) (hm : m ≠ 0x68) (hlt : f < 128) : fits m 0 7 f = false := by
  obtain ⟨hm, hf⟩ | ⟨hm, hf⟩ | ⟨rfl, hf⟩ | ⟨hm, hf⟩ | ⟨rfl, hf⟩ | ⟨rfl, hf⟩ | ⟨rfl, -⟩ := h
  · exact (by decide +kernel : ∀ m ∈ [0x52, 0x53, 0x54, 0x60, 0x61, 0x62, 0x66, 0x67, 0x69, 0x6D, 0x72, 0x73, 0x75, 0x76, 0x77],
      ∀ f < 128, 1 ≤ f → fits m 0 7 f = false) m hm f hlt hf
  · exact (by decide +kernel : ∀ m ∈ [0x55, 0x59, 0x63, 0x64, 0x70, 0x71, 0x74], ∀ f < 128, 2 ≤ f → fits m 0 7 f = false)
      m hm f hlt hf
  · exact (by decide +kernel : ∀ f < 128, 3 ≤ f → fits 0x6B 0 7 f = false) f hlt hf
  · exact (by decide +kernel : ∀ m ∈ [0x58, 0x5A, 0x6A, 0x6C], ∀ f < 128, 4 ≤ f → fits m 0 7 f = false) m hm f hlt hf
  · exact (by decide +kernel : ∀ f < 128, 8 ≤ f → fits 0x5F 0 7 f = false) f hlt hf
  · exact (by decide +kernel : ∀ f < 128, f ∉ [0, 1, 2, 3, 4, 0x09, 0x10, 0x11, 0x19] → fits 0x65 0 7 f = false) f hlt hf
  · exact absurd rfl hm

theorem not_decode_of_funct {w : Word} {ws : List Word} {i : Instr} (h : UnassignedFunct (fld w 25 7) (fld w 4 3)) :
    decode (w :: ws) ≠ .ok i := fun hi =>
  Bool.false_ne_true ((not_fits_funct h (Nat.mod_lt _ (by decide))).symm.trans (fits_of_decode hi 4 3))

theorem not_decode_of_f7 {w : Word} {ws : List Word} {i : Instr} (h : UnassignedF7 (fld w 25 7) (fld w 0 7)) :
    decode (w :: ws) ≠ .ok i := fun hi => by
  by_cases hm : fld w 25 7 = 0x68
  · obtain ⟨hlt, hscope, hsc⟩ := fence_scope_of_decode hm hi
    simp only [UnassignedF7, hm, List.mem_cons, List.not_mem_nil, or_false] at h
    omega
  · exact Bool.false_ne_true ((not_fits_f7 h hm (Nat.mod_lt _ (by decide))).symm.trans (fits_of_decode hi 0 7))

end Sys2Proof.Laws

open Sys2Proof Sys2Proof.Laws

/-- Settles O57: a major is reserved where the map has no rows for it, a code is unassigned where no row of its major fits it (or,
for FENCE, where the scope is ill formed), and what a row reads and the checks pass is well formed and has words. -/
theorem unassignedWordsDecodeToNothing : Obligations.UnassignedWordsDecodeToNothing := by
  intro w ws m f f7
  have hm : m = fld w 25 7 := (Nat.mod_eq_of_lt (by have := w.isLt; omega)).symm
  have hf7 : f7 = fld w 0 7 := by simp [f7, fld]
  refine ⟨?_, fun h i => not_decode_of_funct (hm ▸ h), fun h i => not_decode_of_f7 (hm ▸ hf7 ▸ h), fun i hi => ?_⟩
  · rw [decode_reserved_iff, hm]
    exact (rowsOf_none_iff _ (Nat.mod_lt _ (by decide))).symm
  · obtain ⟨hwf, hwords, -⟩ := decode_ok hi
    exact ⟨hwf, hwords⟩
end

section
/-! SUPPORT. Integer operations by their bits and by the numbers they stand for (R86-R90, R94-R97). -/

namespace Sys2Proof.Machine

variable {w : Nat}

/-! ### Words from bits -/

theorem sum_bits_lt (f : Nat → Bool) (n : Nat) :
    ((List.range n).map fun i => if f i then 2 ^ i else 0).sum < 2 ^ n := by
  induction n with
  | zero => simp
  | succ n ih =>
    rw [List.range_succ, List.map_append, List.sum_append, Nat.pow_succ]
    simp only [List.map_cons, List.map_nil, List.sum_cons, List.sum_nil]
    split <;> omega

theorem testBit_sum_bits (f : Nat → Bool) (n i : Nat) :
    ((List.range n).map fun i => if f i then 2 ^ i else 0).sum.testBit i = (decide (i < n) && f i) := by
  induction n with
  | zero => simp
  | succ n ih =>
    have hlt := sum_bits_lt f n
    rw [List.range_succ, List.map_append, List.sum_append]
    simp only [List.map_cons, List.map_nil, List.sum_cons, List.sum_nil, Nat.add_zero]
    by_cases hf : f n
    · rw [if_pos hf, Nat.add_comm]
      rcases Nat.lt_trichotomy i n with h | h | h
      · rw [Nat.testBit_two_pow_add_gt h, ih]; simp [h, Nat.lt_succ_of_lt h]
      · subst h; rw [Nat.testBit_two_pow_add_eq, ih]; simp [hf]
      · rw [Nat.testBit_lt_two_pow (Nat.lt_of_lt_of_le (by omega : _ < 2 ^ (n + 1)) (Nat.pow_le_pow_right (by decide) h))]
        simp [show ¬ i < n + 1 by omega]
    · rw [if_neg hf, Nat.add_zero, ih]
      by_cases h : i = n
      · subst h; simp [hf]
      · simp [show (i < n + 1) = (i < n) by simp; omega]

@[simp] theorem getLsbD_ofBits (f : Nat → Bool) (i : Nat) : (ofBits f : BitVec w).getLsbD i = (decide (i < w) && f i) := by
  rw [ofBits, BitVec.getLsbD_ofNat, testBit_sum_bits]
  simp

/-- A word is the word of its bits. -/
theorem eq_ofBits {x : BitVec w} {f : Nat → Bool} (h : ∀ i, i < w → x.getLsbD i = f i) : x = ofBits f :=
  BitVec.eq_of_getLsbD_eq fun i hi => by rw [getLsbD_ofBits, h i hi]; simp [hi]

theorem and_eq_ofBits (a b : BitVec w) : a &&& b = ofBits fun i => a.getLsbD i && b.getLsbD i :=
  eq_ofBits fun _ _ => BitVec.getLsbD_and

theorem or_eq_ofBits (a b : BitVec w) : a ||| b = ofBits fun i => a.getLsbD i || b.getLsbD i :=
  eq_ofBits fun _ _ => BitVec.getLsbD_or

theorem xor_eq_ofBits (a b : BitVec w) : a ^^^ b = ofBits fun i => a.getLsbD i != b.getLsbD i :=
  eq_ofBits fun _ _ => BitVec.getLsbD_xor

theorem andn_eq_ofBits (a b : BitVec w) : a &&& ~~~b = ofBits fun i => a.getLsbD i && !b.getLsbD i :=
  eq_ofBits fun i hi => by simp [hi]

/-! ### Numbers -/

theorem minI_eq (a b : BitVec w) : minI a b = if a.toInt ≤ b.toInt then a else b := by
  unfold minI
  by_cases h : a.toInt ≤ b.toInt
  · simp [BitVec.slt_iff_toInt_lt, h, Int.not_lt.mpr h]
  · simp [BitVec.slt_iff_toInt_lt, h, Int.not_le.mp h]

theorem maxI_eq (a b : BitVec w) : maxI a b = if a.toInt ≤ b.toInt then b else a := by
  unfold maxI
  rcases Int.lt_trichotomy a.toInt b.toInt with h | h | h
  · simp [BitVec.slt_iff_toInt_lt, h, Int.le_of_lt h]
  · simp [BitVec.eq_of_toInt_eq h]
  · simp [BitVec.slt_iff_toInt_lt, Int.not_lt.mpr (Int.le_of_lt h), Int.not_le.mpr h]

theorem minN_eq (a b : BitVec w) : minN a b = if a.toNat ≤ b.toNat then a else b := by
  unfold minN
  by_cases h : a.toNat ≤ b.toNat
  · simp [BitVec.lt_def, h, Nat.not_lt.mpr h]
  · simp [BitVec.lt_def, h, Nat.not_le.mp h]

theorem maxN_eq (a b : BitVec w) : maxN a b = if a.toNat ≤ b.toNat then b else a := by
  unfold maxN
  rcases Nat.lt_trichotomy a.toNat b.toNat with h | h | h
  · simp [BitVec.lt_def, h, Nat.le_of_lt h]
  · simp [BitVec.eq_of_toNat_eq h]
  · simp [BitVec.lt_def, Nat.not_lt.mpr (Nat.le_of_lt h), Nat.not_le.mpr h]

theorem add_eq_ofNat (a b : BitVec w) : a + b = BitVec.ofNat w (a.toNat + b.toNat) := by
  simp [BitVec.ofNat_add]

theorem sub_eq_ofInt (a b : BitVec w) : a - b = BitVec.ofInt w (a.toInt - b.toInt) := by
  rw [Int.sub_eq_add_neg, BitVec.ofInt_add, BitVec.ofInt_neg, BitVec.ofInt_toInt, BitVec.ofInt_toInt, BitVec.sub_eq_add_neg]

theorem neg_eq_ofInt (a : BitVec w) : -a = BitVec.ofInt w (0 - a.toInt) := by
  rw [Int.zero_sub, BitVec.ofInt_neg, BitVec.ofInt_toInt]

theorem absI_eq (a : BitVec w) : absI a = BitVec.ofInt w |a.toInt| := by
  unfold absI
  rw [BitVec.msb_eq_toInt]
  by_cases h : a.toInt < 0
  · rw [if_pos (by simpa using h), abs_of_neg h, BitVec.ofInt_neg, BitVec.ofInt_toInt]
  · rw [if_neg (by simpa using h), abs_of_nonneg (Int.not_lt.mp h), BitVec.ofInt_toInt]

theorem mul_eq_ofNat (a b : BitVec w) : a * b = BitVec.ofNat w (a.toNat * b.toNat) := by
  simp [BitVec.ofNat_mul]

theorem mulAdd_eq_ofNat (a b c : BitVec w) : a * b + c = BitVec.ofNat w (a.toNat * b.toNat + c.toNat) := by
  simp [BitVec.ofNat_add, BitVec.ofNat_mul]

theorem divI_eq (a b : BitVec w) :
    divI a b = if b = 0 then BitVec.allOnes w else BitVec.ofInt w (a.toInt.tdiv b.toInt) := by
  unfold divI
  split
  · rfl
  · exact BitVec.eq_of_toInt_eq (by rw [BitVec.toInt_sdiv, BitVec.toInt_ofInt])

theorem divN_eq (a b : BitVec w) :
    divN a b = if b = 0 then BitVec.allOnes w else BitVec.ofNat w (a.toNat / b.toNat) := by
  unfold divN
  split
  · rfl
  · exact BitVec.eq_of_toNat_eq (by
      rw [BitVec.toNat_udiv, BitVec.toNat_ofNat, Nat.mod_eq_of_lt (Nat.lt_of_le_of_lt (Nat.div_le_self _ _) a.isLt)])

theorem remI_eq (a b : BitVec w) :
    remI a b = if b = 0 then a else BitVec.ofInt w (a.toInt - b.toInt * a.toInt.tdiv b.toInt) := by
  unfold remI
  split
  · rfl
  · rw [← Int.tmod_def, ← BitVec.toInt_srem, BitVec.ofInt_toInt]

theorem remN_eq (a b : BitVec w) : remN a b = BitVec.ofNat w (a.toNat % b.toNat) := by
  unfold remN
  split
  · rename_i h; subst h; simp
  · exact BitVec.eq_of_toNat_eq (by
      rw [BitVec.toNat_umod, BitVec.toNat_ofNat, Nat.mod_eq_of_lt (Nat.lt_of_le_of_lt (Nat.mod_le _ _) a.isLt)])

/-! ### Shifts -/

theorem shiftL_eq (a : BitVec w) (n : Nat) : shiftL a n = if w ≤ n then 0 else a <<< n := by
  unfold shiftL
  by_cases h : n < w
  · rw [if_pos h, if_neg (Nat.not_le.mpr h)]
  · rw [if_neg h, if_pos (Nat.not_lt.mp h)]

theorem shiftR_eq (a : BitVec w) (n : Nat) : shiftR a n = if w ≤ n then 0 else a >>> n := by
  unfold shiftR
  by_cases h : n < w
  · rw [if_pos h, if_neg (Nat.not_le.mpr h)]
  · rw [if_neg h, if_pos (Nat.not_lt.mp h)]

/-- Bit i of an arithmetic shift is the bit n places up, or the sign. -/
theorem getLsbD_shiftA (a : BitVec w) (n : Nat) {i : Nat} (hi : i < w) :
    (shiftA a n).getLsbD i = a.getLsbD (min (i + n) (w - 1)) := by
  rw [shiftA, BitVec.getLsbD_sshiftRight]
  by_cases h : i + n < w
  · rw [Nat.min_eq_left (by omega : n ≤ w - 1), Nat.min_eq_left (by omega : i + n ≤ w - 1)]
    simp [Nat.add_comm n i, h, Nat.not_le.mpr hi]
  · rw [Nat.min_eq_right (by omega : w - 1 ≤ i + n)]
    by_cases e : min n (w - 1) + i < w
    · simp [show min n (w - 1) + i = w - 1 by omega, show 0 < w by omega, Nat.not_le.mpr hi]
    · simp [e, BitVec.msb_eq_getLsbD_last, Nat.not_le.mpr hi]

theorem shiftA_eq_ofBits_min (a : BitVec w) (n : Nat) : shiftA a n = ofBits fun i => a.getLsbD (min (i + n) (w - 1)) :=
  eq_ofBits fun _ hi => getLsbD_shiftA a n hi

theorem shiftA_eq_ofBits (a : BitVec w) (n : Nat) :
    shiftA a n = ofBits fun i => if i + n < w then a.getLsbD (i + n) else a.getLsbD (w - 1) :=
  eq_ofBits fun i hi => by
    rw [getLsbD_shiftA a n hi]
    split
    · rw [Nat.min_eq_left (by omega)]
    · rw [Nat.min_eq_right (by omega)]

theorem rotateLeft_eq_ofBits (a : Word) (n : Nat) :
    Machine.rotateLeft a n = ofBits fun i => a.getLsbD ((i + 32 - n % 32) % 32) :=
  eq_ofBits fun i hi => by
    have hn : n % 32 < 32 := Nat.mod_lt _ (by decide)
    rw [Machine.rotateLeft, BitVec.getLsbD_or, BitVec.getLsbD_shiftLeft, BitVec.getLsbD_ushiftRight]
    by_cases h : i < n % 32
    · rw [Nat.mod_eq_of_lt (by omega : i + 32 - n % 32 < 32), show 32 - n % 32 + i = i + 32 - n % 32 by omega]
      simp [hi, h]
    · rw [show i + 32 - n % 32 = (i - n % 32) + 32 by omega, Nat.add_mod_right, Nat.mod_eq_of_lt (by omega : i - n % 32 < 32),
        BitVec.getLsbD_of_ge a (32 - n % 32 + i) (by omega)]
      simp [hi, h]

/-! ### Counts and reversal -/

theorem onesFrom_eq (x n : Nat) : onesFrom x n = ((List.range n).filter x.testBit).length := by
  induction n generalizing x with
  | zero => rfl
  | succ n ih =>
    have hodd : x.testBit 0 = decide (x % 2 = 1) := Nat.testBit_zero x
    have htail : ((List.range n).map Nat.succ).filter x.testBit = ((List.range n).filter (x / 2).testBit).map Nat.succ := by
      rw [List.filter_map]
      exact congrArg _ (List.filter_congr fun i _ => Nat.testBit_succ x i)
    rw [onesFrom, ih, List.range_succ_eq_map, List.filter_cons, htail, hodd]
    by_cases h : x % 2 = 1
    · simp [h]; omega
    · simp [show x % 2 = 0 by omega]

theorem ones_eq (a : BitVec w) : ones a = BitVec.ofNat w ((List.range w).filter fun i => a.getLsbD i).length := by
  rw [ones, onesFrom_eq]; rfl

theorem length_takeWhile_range {p : Nat → Bool} {k n : Nat} (h : ∀ i, i < k → p i = true) (hk : k < n → p k = false)
    (hkn : k ≤ n) : ((List.range n).takeWhile p).length = k := by
  obtain ⟨m, rfl⟩ := Nat.exists_eq_add_of_le hkn
  rw [List.range_add, List.takeWhile_append_of_pos fun i hi => h i (List.mem_range.mp hi)]
  cases m with
  | zero => simp
  | succ m => simp [List.range_succ_eq_map, hk (by omega)]

theorem leadingZeros_eq (a : BitVec w) :
    leadingZeros a = BitVec.ofNat w ((List.range w).takeWhile fun i => !a.getLsbD (w - 1 - i)).length := by
  unfold leadingZeros
  by_cases h : a = 0
  · subst h
    rw [if_pos rfl, length_takeWhile_range (k := w) (fun i _ => by simp) (fun h => absurd h (Nat.lt_irrefl _)) (Nat.le_refl _)]
  · have h0 : a.toNat ≠ 0 := fun e => h (BitVec.eq_of_toNat_eq (by simpa using e))
    have hlog : Nat.log2 a.toNat < w := (Nat.log2_lt h0).mpr a.isLt
    rw [if_neg h, length_takeWhile_range (k := w - 1 - Nat.log2 a.toNat)]
    · intro i hi
      rw [BitVec.getLsbD, Nat.testBit_lt_two_pow (Nat.lt_of_lt_of_le Nat.lt_log2_self (Nat.pow_le_pow_right (by decide) (by omega)))]
      rfl
    · intro _
      rw [BitVec.getLsbD, show w - 1 - (w - 1 - Nat.log2 a.toNat) = Nat.log2 a.toNat by omega, Nat.testBit_log2 h0]
      rfl
    · omega

/-- Bits taken in from the lowest on come out in reverse. -/
theorem testBit_foldl_double (x n i : Nat) :
    ((List.range n).foldl (fun y i => 2 * y + x / 2 ^ i % 2) 0).testBit i = (decide (i < n) && x.testBit (n - 1 - i)) := by
  induction n generalizing i with
  | zero => simp
  | succ n ih =>
    rw [List.range_succ, List.foldl_append]
    simp only [List.foldl_cons, List.foldl_nil]
    cases i with
    | zero => simp [Nat.testBit_eq_decide_div_mod_eq]
    | succ i =>
      rw [Nat.testBit_succ, show ∀ y, (2 * y + x / 2 ^ n % 2) / 2 = y from fun y => by omega, ih,
        show n + 1 - 1 - (i + 1) = n - 1 - i by omega]
      simp

theorem reverse_eq_ofBits (a : Word) : Machine.reverse a = ofBits fun i => a.getLsbD (31 - i) :=
  eq_ofBits fun i hi => by
    rw [Machine.reverse, BitVec.getLsbD_ofNat, testBit_foldl_double]
    simp [hi, BitVec.getLsbD]

/-! ### Bit fields (R89) -/

theorem getLsbD_signExtend_min {v : Nat} (a : BitVec v) {i : Nat} (hi : i < w) (hv : 0 < v) :
    (a.signExtend w).getLsbD i = a.getLsbD (min i (v - 1)) := by
  rw [BitVec.getLsbD_signExtend]
  by_cases h : i < v
  · simp [h, hi, Nat.min_eq_left (Nat.le_sub_one_of_lt h)]
  · simp [h, hi, Nat.min_eq_right (show v - 1 ≤ i by omega), BitVec.msb_eq_getLsbD_last]

/-- Bit i of the field that an extraction cuts out, before it is extended to a word. -/
theorem testBit_field (isSigned : Bool) (a : Word) (st n i : Nat) (hn : n ≤ 32) :
    ((shiftA (if isSigned then a.signExtend 64 else a.setWidth 64 : DWord) st).toNat % 2 ^ n).testBit i =
      (decide (i < n) && if isSigned then a.getLsbD (min (st + i) 31) else a.getLsbD (st + i)) := by
  rw [Nat.testBit_mod_two_pow]
  by_cases h : i < n
  · rw [show ∀ y : DWord, y.toNat.testBit i = y.getLsbD i from fun _ => rfl, getLsbD_shiftA _ _ (by omega), Nat.add_comm i st]
    cases isSigned with
    | true =>
      rw [if_pos rfl, getLsbD_signExtend_min a (by omega) (by decide), if_pos rfl, Nat.min_assoc]
      rfl
    | false =>
      rw [if_neg (by decide), if_neg (by decide), BitVec.getLsbD_setWidth]
      by_cases e : st + i < 64
      · simp [h, Nat.min_eq_left (show st + i ≤ 63 by omega), e]
      · simp [h, Nat.min_eq_right (show 63 ≤ st + i by omega), show 32 ≤ st + i by omega]
  · simp [h]

theorem fieldStart_eq (b : Word) : fieldStart b = b.toNat % 256 := by simp [fieldStart, bits]

theorem fieldLen_eq (b : Word) : fieldLen b = min (b.toNat / 256 % 256) 32 := rfl

theorem fieldLen_le (b : Word) : fieldLen b ≤ 32 := Nat.min_le_right _ _

theorem extractN_eq (a b : Word) :
    extract false a b = ofBits fun i => decide (i < fieldLen b) && (decide (fieldStart b + i < 32) && a.getLsbD (fieldStart b + i)) :=
  eq_ofBits fun i hi => by
    unfold extract
    by_cases h : fieldLen b = 0
    · simp [h]
    · have hf := testBit_field false a (fieldStart b) (fieldLen b) i (fieldLen_le b)
      simp only [Bool.false_eq_true, if_false] at hf
      simp only [h, Bool.false_eq_true, if_false, Bool.false_and, BitVec.getLsbD_ofNat, hf, hi, decide_true, Bool.true_and]
      by_cases e : fieldStart b + i < 32
      · simp [e]
      · simp [e, Nat.not_lt.mp e]

/-- The two ways of extending a signed field of n bits. -/
theorem signed_field {f n : Nat} (h0 : n ≠ 0) (hf : f < 2 ^ n) :
    (if 2 ^ (n - 1) ≤ f then BitVec.ofInt w ((f : Int) - 2 ^ n) else BitVec.ofNat w f) = (BitVec.ofNat n f).signExtend w := by
  have hp : 2 ^ n = 2 * 2 ^ (n - 1) := by rw [← Nat.pow_succ', Nat.succ_eq_add_one, Nat.sub_add_cancel (by omega)]
  rw [BitVec.signExtend, BitVec.toInt_eq_toNat_cond, BitVec.toNat_ofNat, Nat.mod_eq_of_lt hf]
  by_cases h : 2 ^ (n - 1) ≤ f
  · rw [if_pos h, if_neg (by omega), Nat.cast_pow, Nat.cast_ofNat]
  · rw [if_neg h, if_pos (by omega), BitVec.ofInt_natCast]

theorem extractI_eq (a b : Word) :
    extract true a b = if fieldLen b = 0 then 0
      else ofBits fun i => a.getLsbD (min (fieldStart b + min i (fieldLen b - 1)) 31) := by
  unfold extract
  by_cases h : fieldLen b = 0
  · simp [h]
  · have hf := fun i => testBit_field true a (fieldStart b) (fieldLen b) i (fieldLen_le b)
    simp only [if_true] at hf
    simp only [h, if_false, if_true, Bool.true_and, decide_eq_true_iff, ge_iff_le]
    rw [signed_field h (Nat.mod_lt _ (Nat.two_pow_pos _))]
    refine eq_ofBits fun i hi => ?_
    rw [getLsbD_signExtend_min _ hi (by omega), BitVec.getLsbD_ofNat, hf]
    simp [show min i (fieldLen b - 1) < fieldLen b by omega]

theorem getLsbD_fieldMask (b : Word) {i : Nat} (hi : i < 32) :
    (shiftL (BitVec.ofNat 32 (2 ^ fieldLen b - 1)) (fieldStart b)).getLsbD i =
      decide (fieldStart b ≤ i ∧ i < fieldStart b + fieldLen b) := by
  rw [shiftL_eq]
  by_cases h : fieldStart b ≤ i
  · rw [if_neg (by omega), BitVec.getLsbD_shiftLeft, BitVec.getLsbD_ofNat, Nat.testBit_two_pow_sub_one]
    have hlen : i - fieldStart b < fieldLen b ↔ i < fieldStart b + fieldLen b := by omega
    simp [hi, h, show i - fieldStart b < 32 by omega, hlen]
  · split
    · simp [h]
    · simp [h, Nat.not_le.mp h]

theorem insert_eq (a b old : Word) :
    Machine.insert a b old = ofBits fun i =>
      if fieldStart b ≤ i ∧ i < fieldStart b + fieldLen b then a.getLsbD (i - fieldStart b) else old.getLsbD i :=
  eq_ofBits fun i hi => by
    unfold Machine.insert
    dsimp only
    rw [BitVec.getLsbD_or, BitVec.getLsbD_and, BitVec.getLsbD_and, BitVec.getLsbD_not, getLsbD_fieldMask b hi]
    by_cases h : fieldStart b ≤ i ∧ i < fieldStart b + fieldLen b
    · have hst : ¬ 32 ≤ fieldStart b := by omega
      simp [hi, h, shiftL_eq, hst, Nat.not_lt.mpr h.1, BitVec.getLsbD_eq_getElem (show i - fieldStart b < 32 by omega)]
    · simp [hi, h]

theorem extendFrom_eq (a : Word) {k : Nat} (hk : k < 32) : extendFrom a k = ofBits fun i => a.getLsbD (min i k) :=
  eq_ofBits fun i hi => by
    rw [extendFrom, BitVec.getLsbD_sshiftRight, BitVec.msb_eq_getLsbD_last, BitVec.getLsbD_shiftLeft, BitVec.getLsbD_shiftLeft]
    by_cases h : i ≤ k
    · simp [Nat.min_eq_left h, show 31 - k + i < 32 by omega, Nat.not_le.mpr hi]
    · simp [Nat.min_eq_right (Nat.le_of_not_le h), show ¬ 31 - k + i < 32 by omega, Nat.not_le.mpr hi,
        show 31 - (31 - k) = k by omega]

/-! ### Bytes mixed by control nibbles (R89) -/

theorem testBit_nibble (x j : Nat) {k : Nat} (hk : k < 4) : (bits x (4 * j + 3) (4 * j)).testBit k = x.testBit (4 * j + k) := by
  rw [bits, show 4 * j + 3 + 1 - 4 * j = 4 by omega, Nat.testBit_mod_two_pow, Nat.testBit_div_two_pow]
  simp [hk, Nat.add_comm]

theorem testBit_eq_decide (c k : Nat) : c.testBit k = decide (c / 2 ^ k % 2 = 1) := Nat.testBit_eq_decide_div_mod_eq

theorem getLsbD_mixByte (a old : Word) {c k : Nat} (hk : k < 8) :
    (mixByte a old c).getLsbD k =
      ((if c.testBit 2 then old else a).getLsbD (8 * (2 * (c.testBit 1).toNat + (c.testBit 0).toNat) + k) != c.testBit 3) := by
  have hsel : c % 4 = 2 * (c.testBit 1).toNat + (c.testBit 0).toNat := by
    rw [Nat.toNat_testBit, Nat.toNat_testBit]; omega
  have hside : (if c / 4 % 2 = 0 then a else old) = if c.testBit 2 then old else a := by
    rcases Nat.mod_two_eq_zero_or_one (c / 4) with h | h <;> simp [testBit_eq_decide, h]
  unfold mixByte
  rw [hsel, hside]
  simp only [testBit_eq_decide c 3, show 2 ^ 3 = 8 from rfl]
  split <;> simp [*]

/-- Bit i of four bytes is bit i mod 8 of byte i div 8. -/
theorem getLsbD_fourBytes (y : Nat → Byte) {i : Nat} (hi : i < 32) :
    (y 3 ++ y 2 ++ y 1 ++ y 0).getLsbD i = (y (i / 8)).getLsbD (i % 8) := by
  simp only [BitVec.getLsbD_append]
  rcases (by omega : i / 8 = 0 ∨ i / 8 = 1 ∨ i / 8 = 2 ∨ i / 8 = 3) with h | h | h | h
  · rw [h, if_pos (by omega), show i % 8 = i by omega]
  · rw [h, if_neg (by omega), if_pos (by omega), show i % 8 = i - 8 by omega]
  · rw [h, if_neg (by omega), if_neg (by omega), if_pos (by omega), show i % 8 = i - 8 - 8 by omega]
  · rw [h, if_neg (by omega), if_neg (by omega), if_neg (by omega), show i % 8 = i - 8 - 8 - 8 by omega]

theorem mixBytes_eq (a b old : Word) :
    mixBytes a b old = ofBits fun i =>
      (if b.getLsbD (4 * (i / 8) + 2) then old else a).getLsbD
        (8 * (2 * (b.getLsbD (4 * (i / 8) + 1)).toNat + (b.getLsbD (4 * (i / 8) + 0)).toNat) + i % 8) !=
          b.getLsbD (4 * (i / 8) + 3) :=
  eq_ofBits fun i hi => by
    have hbit : ∀ k, k < 4 → (bits b.toNat (4 * (i / 8) + 3) (4 * (i / 8))).testBit k = b.getLsbD (4 * (i / 8) + k) :=
      fun k hk => testBit_nibble _ _ hk
    rw [mixBytes, getLsbD_fourBytes (fun j => mixByte a old (bits b.toNat (4 * j + 3) (4 * j))) hi,
      getLsbD_mixByte a old (Nat.mod_lt _ (by decide)), hbit 0 (by decide), hbit 1 (by decide), hbit 2 (by decide), hbit 3 (by decide)]

/-! ### Conditions (R90, R95) -/

theorem holds_eq (a b : BitVec w) : Cond.eq.holds a b = decide (a = b) := rfl

theorem holds_ne (a b : BitVec w) : Cond.ne.holds a b = decide (a ≠ b) := (decide_not ..).symm

theorem holds_ltI (a b : BitVec w) : Cond.ltI.holds a b = decide (a.toInt < b.toInt) := rfl

theorem holds_leI (a b : BitVec w) : Cond.leI.holds a b = decide (a.toInt ≤ b.toInt) := rfl

theorem holds_ltN (a b : BitVec w) : Cond.ltN.holds a b = decide (a.toNat < b.toNat) := rfl

theorem holds_leN (a b : BitVec w) : Cond.leN.holds a b = decide (a.toNat ≤ b.toNat) := rfl

theorem holds_tst (a b : BitVec w) : Cond.tst.holds a b = (List.range w).any fun i => a.getLsbD i && b.getLsbD i := by
  have hzero : a &&& b = 0 ↔ ∀ i, i < w → (a.getLsbD i && b.getLsbD i) = false :=
    ⟨fun h i _ => by rw [← BitVec.getLsbD_and, h]; exact BitVec.getLsbD_zero,
      fun h => BitVec.eq_of_getLsbD_eq fun i hi => by rw [BitVec.getLsbD_and, h i hi]; exact BitVec.getLsbD_zero.symm⟩
  cases h : (List.range w).any fun i => a.getLsbD i && b.getLsbD i with
  | false =>
    have hz := hzero.mpr fun i hi => by simpa using List.any_eq_false.mp h i (List.mem_range.mpr hi)
    exact bne_eq_false_iff_eq.mpr hz
  | true =>
    obtain ⟨i, hi, hb⟩ := List.any_eq_true.mp h
    exact bne_iff_ne.mpr fun hz => by simp [hzero.mp hz i (List.mem_range.mp hi)] at hb

/-! ### Conditions with an immediate, extended to the width of the register (R93, R97) -/

section
variable {v : Nat} (a : BitVec w) (y : BitVec v)

theorem toInt_extended (h : v ≤ w) : (y.signExtend w).toInt = y.toInt := BitVec.toInt_signExtend_of_le h

theorem holds_eq_imm (h : v ≤ w) : Cond.eq.holds a (y.signExtend w) = decide (a.toInt = y.toInt) := by
  rw [holds_eq, ← toInt_extended y h, decide_eq_decide, BitVec.toInt_inj]

theorem holds_ne_imm (h : v ≤ w) : Cond.ne.holds a (y.signExtend w) = decide (a.toInt ≠ y.toInt) := by
  rw [holds_ne, ← toInt_extended y h, decide_eq_decide, ne_eq, ne_eq, BitVec.toInt_inj]

theorem holds_ltI_imm (h : v ≤ w) : Cond.ltI.holds a (y.signExtend w) = decide (a.toInt < y.toInt) := by
  rw [holds_ltI, toInt_extended y h]

theorem holds_leI_imm (h : v ≤ w) : Cond.leI.holds a (y.signExtend w) = decide (a.toInt ≤ y.toInt) := by
  rw [holds_leI, toInt_extended y h]

theorem holds_tst_imm (h : 0 < v) :
    Cond.tst.holds a (y.signExtend w) = (List.range w).any fun i => a.getLsbD i && y.getLsbD (min i (v - 1)) := by
  rw [holds_tst, Bool.eq_iff_iff, List.any_eq_true, List.any_eq_true]
  exact exists_congr fun i => and_congr_right fun hi => by rw [getLsbD_signExtend_min y (List.mem_range.mp hi) h]

theorem add_imm : a + y.signExtend w = BitVec.ofInt w (a.toInt + y.toInt) := by
  rw [BitVec.ofInt_add, BitVec.ofInt_toInt]; rfl

theorem getLsbD_imm {i : Nat} (hi : i < w) : (y.setWidth w).getLsbD i = (decide (i < v) && y.getLsbD i) := by
  rw [BitVec.getLsbD_setWidth]
  by_cases e : i < v
  · simp [e, hi]
  · simp [e, Nat.not_lt.mp e]

theorem and_imm : a &&& y.setWidth w = ofBits fun i => a.getLsbD i && (decide (i < v) && y.getLsbD i) :=
  eq_ofBits fun i hi => by rw [BitVec.getLsbD_and, getLsbD_imm y hi]

theorem or_imm : a ||| y.setWidth w = ofBits fun i => a.getLsbD i || (decide (i < v) && y.getLsbD i) :=
  eq_ofBits fun i hi => by rw [BitVec.getLsbD_or, getLsbD_imm y hi]

theorem xor_imm : a ^^^ y.setWidth w = ofBits fun i => a.getLsbD i ^^ (decide (i < v) && y.getLsbD i) :=
  eq_ofBits fun i hi => by rw [BitVec.getLsbD_xor, getLsbD_imm y hi]

end

/-! ### Halves of a 64-bit word -/

theorem low_word (x : DWord) : x.setWidth 32 = BitVec.ofNat 32 (x.toNat % 2 ^ 32) :=
  BitVec.eq_of_toNat_eq (by simp)

theorem high_word (x : DWord) : (x >>> 32).setWidth 32 = BitVec.ofNat 32 (x.toNat / 2 ^ 32) :=
  BitVec.eq_of_toNat_eq (by simp [Nat.shiftRight_eq_div_pow])

theorem low_word_extended (x : DWord) : (x.setWidth 32).signExtend 64 = ofBits fun i => x.getLsbD (min i 31) :=
  eq_ofBits fun i hi => by
    rw [getLsbD_signExtend_min _ hi (by decide), BitVec.getLsbD_setWidth]
    simp [show min i 31 < 32 by omega]

/-! ### Shifts by an immediate -/

theorem shiftL_lt (a : BitVec w) {n : Nat} (h : n < w) : shiftL a n = a <<< n := if_pos h

theorem shiftR_lt (a : BitVec w) {n : Nat} (h : n < w) : shiftR a n = a >>> n := if_pos h

theorem rotateLeft_lt (a : Word) {n : Nat} (h : n < 32) :
    Machine.rotateLeft a n = ofBits fun i => a.getLsbD ((i + 32 - n) % 32) := by
  rw [rotateLeft_eq_ofBits, Nat.mod_eq_of_lt h]

end Sys2Proof.Machine
end

section
/-! PROOF. Lane integer results, compares, moves and immediate forms (O1, O2). -/

namespace Sys2Proof.Machine

/-! ### Units of lane work, by the result they write -/

section
variable {i : Instr} {gd : Nat}

theorem LaneDoes.of_put32 {d : LDst} {n : Bool} {F G : Lane → Word}
    (hi : ∀ s, exec i s = lanesUnit gd (fun _ l => d.put32 n (F l) l) s) (h : ∀ l, F l = G l) :
    LaneDoes i gd fun l => d.put32 n (G l) l := funext h ▸ laneDoes_of_lanesUnit hi

theorem LaneDoes.of_put64 {d : LDst} {n : Bool} {F G : Lane → DWord}
    (hi : ∀ s, exec i s = lanesUnit gd (fun _ l => d.put64 n (F l) l) s) (h : ∀ l, F l = G l) :
    LaneDoes i gd fun l => d.put64 n (G l) l := funext h ▸ laneDoes_of_lanesUnit hi

theorem LaneDoes.of_setPred {d : Nat} {F G : Lane → Bool}
    (hi : ∀ s, exec i s = lanesUnit gd (fun _ l => l.setPred d (F l)) s) (h : ∀ l, F l = G l) :
    LaneDoes i gd fun l => l.setPred d (G l) := funext h ▸ laneDoes_of_lanesUnit hi

end

theorem laneArithmetic : Claims.LaneArithmetic := fun _ _ _ _ _ =>
  ⟨.of_put32 (fun _ => rfl) fun _ => rfl,
   .of_put32 (fun _ => rfl) fun _ => rfl,
   .of_put32 (fun _ => rfl) fun _ => minI_eq _ _,
   .of_put32 (fun _ => rfl) fun _ => maxI_eq _ _,
   .of_put32 (fun _ => rfl) fun _ => minN_eq _ _,
   .of_put32 (fun _ => rfl) fun _ => maxN_eq _ _,
   .of_put32 (fun _ => rfl) fun _ => absI_eq _,
   .of_put32 (fun _ => rfl) fun _ => neg_eq_ofInt _⟩

theorem laneLogicAndShifts : Claims.LaneLogicAndShifts := fun _ _ _ _ _ =>
  ⟨.of_put32 (fun _ => rfl) fun _ => and_eq_ofBits _ _,
   .of_put32 (fun _ => rfl) fun _ => or_eq_ofBits _ _,
   .of_put32 (fun _ => rfl) fun _ => xor_eq_ofBits _ _,
   .of_put32 (fun _ => rfl) fun _ => andn_eq_ofBits _ _,
   .of_put32 (fun _ => rfl) fun _ => shiftL_eq _ _,
   .of_put32 (fun _ => rfl) fun _ => shiftR_eq _ _,
   .of_put32 (fun _ => rfl) fun _ => shiftA_eq_ofBits _ _,
   .of_put32 (fun _ => rfl) fun _ => rotateLeft_eq_ofBits _ _⟩

theorem laneProductsAndQuotients : Claims.LaneProductsAndQuotients := fun _ _ _ _ _ =>
  ⟨.of_put32 (fun _ => rfl) fun _ => mul_eq_ofNat _ _,
   .of_put32 (fun _ => rfl) fun _ => rfl,
   .of_put32 (fun _ => rfl) fun _ => rfl,
   .of_put32 (fun _ => rfl) fun _ => mulAdd_eq_ofNat _ _ _,
   .of_put32 (fun _ => rfl) fun _ => divI_eq _ _,
   .of_put32 (fun _ => rfl) fun _ => divN_eq _ _,
   .of_put32 (fun _ => rfl) fun _ => remI_eq _ _,
   .of_put32 (fun _ => rfl) fun _ => remN_eq _ _⟩

theorem laneBitFields : Claims.LaneBitFields := fun _ _ _ _ _ =>
  ⟨.of_put32 (fun _ => rfl) fun _ => leadingZeros_eq _,
   .of_put32 (fun _ => rfl) fun _ => ones_eq _,
   .of_put32 (fun _ => rfl) fun _ => reverse_eq_ofBits _,
   .of_put32 (fun _ => rfl) fun _ => (extractI_eq _ _).trans (by rw [fieldStart_eq, fieldLen_eq]),
   .of_put32 (fun _ => rfl) fun _ => (extractN_eq _ _).trans (by rw [fieldStart_eq, fieldLen_eq]),
   .of_put32 (fun _ => rfl) fun _ => (insert_eq _ _ _).trans (by rw [fieldStart_eq, fieldLen_eq]),
   .of_put32 (fun _ => rfl) fun _ => mixBytes_eq _ _ _,
   .of_put32 (fun _ => rfl) fun _ => extendFrom_eq _ (Nat.mod_lt _ (by decide))⟩

end Sys2Proof.Machine

open Sys2Proof Sys2Proof.Machine

/-- Settles O1, from what each integer operation gives by bits or by numbers. -/
theorem laneIntegerResults : Obligations.LaneIntegerResults :=
  ⟨laneArithmetic, laneLogicAndShifts, laneProductsAndQuotients, laneBitFields⟩
end

section
/-! PROOF. Lane compares, predicate logic, moves, 64-bit and immediate forms (O2). -/

namespace Sys2Proof.Machine

theorem laneCompares : Claims.LaneCompares := fun _ _ _ _ =>
  ⟨.of_setPred (fun _ => rfl) fun _ => holds_eq _ _,
   .of_setPred (fun _ => rfl) fun _ => holds_ne _ _,
   .of_setPred (fun _ => rfl) fun _ => holds_ltI _ _,
   .of_setPred (fun _ => rfl) fun _ => holds_leI _ _,
   .of_setPred (fun _ => rfl) fun _ => holds_ltN _ _,
   .of_setPred (fun _ => rfl) fun _ => holds_leN _ _,
   .of_setPred (fun _ => rfl) fun _ => holds_tst _ _⟩

theorem word_of_pred (b : Bool) : (if b then 1 else 0 : Word) = BitVec.ofNat 32 b.toNat := by cases b <;> rfl

theorem ne_zero_eq_toNat (x : Word) : (x != 0) = decide (x.toNat ≠ 0) :=
  (holds_ne x 0).trans (decide_eq_decide.mpr (not_congr (BitVec.toNat_inj (x := x) (y := 0)).symm))

theorem lanePredicates : Claims.LanePredicates := fun _ _ _ _ _ _ _ =>
  ⟨.of_setPred (fun _ => rfl) fun _ => rfl,
   .of_setPred (fun _ => rfl) fun _ => rfl,
   .of_setPred (fun _ => rfl) fun _ => rfl,
   .of_setPred (fun _ => rfl) fun _ => rfl,
   .of_setPred (fun _ => rfl) fun _ => rfl,
   .of_put32 (fun _ => rfl) fun _ => word_of_pred _,
   .of_setPred (fun _ => rfl) fun _ => ne_zero_eq_toNat _⟩

/-- A unit of lane work that reads the group's uniform registers, by the result it writes. -/
theorem LaneDoesIn.of_put32 {i : Instr} {gd : Nat} {d : LDst} {n : Bool} {F G : Group → Lane → Word}
    (hi : ∀ s, exec i s = lanesUnit gd (fun g l => d.put32 n (F g l) l) s) (h : ∀ g l, F g l = G g l) :
    LaneDoesIn i gd fun g l => d.put32 n (G g l) l := funext (fun g => funext (h g)) ▸ laneDoesIn_of_lanesUnit hi

theorem laneMovesAndPairs : Claims.LaneMovesAndPairs := fun _ _ _ _ _ _ _ =>
  ⟨.of_put32 (fun _ => rfl) fun _ => rfl,
   .of_put32 (fun _ => rfl) fun _ => rfl,
   .of_put32 (fun _ => rfl) fun _ _ => low_word _,
   .of_put32 (fun _ => rfl) fun _ _ => high_word _,
   .of_put64 (fun _ => rfl) fun _ => add_eq_ofNat _ _,
   .of_put64 (fun _ => rfl) fun _ => sub_eq_ofInt _ _,
   .of_put64 (fun _ => rfl) fun _ => shiftL_eq _ _,
   .of_put64 (fun _ => rfl) fun _ => add_imm _ _⟩

theorem laneImmediates : Claims.LaneImmediates := fun _ _ _ _ _ _ hk =>
  ⟨.of_put32 (fun _ => rfl) fun _ => add_imm _ _,
   .of_put32 (fun _ => rfl) fun _ => and_imm _ _,
   .of_put32 (fun _ => rfl) fun _ => or_imm _ _,
   .of_put32 (fun _ => rfl) fun _ => xor_imm _ _,
   .of_put32 (fun _ => rfl) fun _ => shiftL_lt _ hk,
   .of_put32 (fun _ => rfl) fun _ => shiftR_lt _ hk,
   .of_put32 (fun _ => rfl) fun _ => shiftA_eq_ofBits_min _ _,
   .of_put32 (fun _ => rfl) fun _ => rotateLeft_lt _ hk,
   .of_setPred (fun _ => rfl) fun _ => holds_eq_imm _ _ (by decide),
   .of_setPred (fun _ => rfl) fun _ => holds_ne_imm _ _ (by decide),
   .of_setPred (fun _ => rfl) fun _ => holds_ltI_imm _ _ (by decide),
   .of_setPred (fun _ => rfl) fun _ => holds_leI_imm _ _ (by decide),
   .of_setPred (fun _ => rfl) fun _ => holds_ltN _ _,
   .of_setPred (fun _ => rfl) fun _ => holds_leN _ _,
   .of_setPred (fun _ => rfl) fun _ => holds_tst_imm _ _ (by decide),
   .of_put32 (fun _ => rfl) fun _ => rfl,
   .of_put64 (fun _ => rfl) fun _ => add_imm _ _⟩

end Sys2Proof.Machine

open Sys2Proof Sys2Proof.Machine

/-- Settles O2, from what each compare, move and immediate form gives by bits or by numbers. -/
theorem laneComparesAndMoves : Obligations.LaneComparesAndMoves :=
  ⟨laneCompares, lanePredicates, laneMovesAndPairs, laneImmediates⟩
end

section
/-! SUPPORT. Logical order (R6, R142): the elected lane of a set, and a set of one lane. -/

namespace Sys2Proof.Machine

theorem head?_insertBy (key : Nat → Nat) (x : Nat) (ys : List Nat) :
    (insertBy key x ys).head? = some (match ys.head? with | some y => if key x < key y then x else y | none => x) := by
  cases ys with
  | nil => rfl
  | cons y ys => rw [insertBy]; dsimp only [List.head?_cons]; split <;> rfl

/-- What has the one least key comes first. -/
theorem head?_sortBy {key : Nat → Nat} {p : Nat} : ∀ {xs : List Nat}, p ∈ xs → (∀ q ∈ xs, q = p ∨ key p < key q) →
    (sortBy key xs).head? = some p
  | [], hp, _ => by simp at hp
  | x :: xs, hp, h => by
    rw [sortBy, head?_insertBy]
    by_cases hmem : p ∈ xs
    · rw [head?_sortBy hmem fun q hq => h q (List.mem_cons_of_mem _ hq)]
      rcases h x (by simp) with rfl | hx
      · simp
      · simp [Nat.not_lt.mpr (Nat.le_of_lt hx)]
    · obtain rfl : x = p := by simpa [hmem, eq_comm] using hp
      cases hh : (sortBy key xs).head? with
      | none => rfl
      | some y =>
        have hy : y ∈ xs := mem_sortBy.mp (List.mem_of_mem_head? hh)
        rcases h y (List.mem_cons_of_mem _ hy) with rfl | hlt
        · exact absurd hy hmem
        · simp [hlt]

/-- The elected lane has the lowest lid, and among equal lids the lowest position (R142, log entry 42). -/
theorem Group.elected_eq {g : Group} {m : Mask} {p : Nat} (hp : p < 32) (hm : m.getLsbD p = true)
    (h : ∀ q, q < 32 → m.getLsbD q = true → (g.lane p).lid.toNat < (g.lane q).lid.toNat ∨
      ((g.lane p).lid = (g.lane q).lid ∧ p ≤ q)) : g.elected m = some p := by
  refine head?_sortBy ((mem_positions m p).mpr ⟨hp, hm⟩) fun q hq => ?_
  obtain ⟨hq, hmq⟩ := (mem_positions m q).mp hq
  rcases h q hq hmq with hlt | ⟨heq, hle⟩
  · exact .inr (by omega)
  · rw [heq]
    exact (Nat.eq_or_lt_of_le hle).elim (fun e => .inl e.symm) fun e => .inr (by omega)

theorem positions_single {p : Nat} (hp : p < 32) : positions (1#32 <<< p) = [p] := by
  have hbits : ∀ q ∈ List.range 32, (1#32 <<< p : Mask).getLsbD q = (q == p) := fun q hq => by
    rw [bit_shift p q (List.mem_range.mp hq)]; rfl
  rw [positions, List.filter_congr hbits, List.filter_beq, List.count_eq_one_of_mem List.nodup_range (List.mem_range.mpr hp)]
  rfl

theorem Group.order_single (g : Group) {p : Nat} (hp : p < 32) : g.order (1#32 <<< p) = [p] := by
  rw [Group.order, positions_single hp]; rfl

end Sys2Proof.Machine
end

section
/-! PROOF. Uniform arithmetic, compares, moves and immediate forms (O9). -/

namespace Sys2Proof.Machine

/-! ### Units of uniform work, by the shape of their unit -/

section
variable {i : Instr} {k d : Nat} {x : UDst} {a b : USrc} {n : Bool} {G : UFile → DWord} {P : UFile → Bool}

theorem UniformDoes.of_uni1 {f : DWord → DWord} (hi : ∀ s, exec i s = uni1 f x a n k s) (h : ∀ u, f (a.get u) = G u) :
    UniformDoes i k fun u => x.put n (G u) u := funext h ▸ uniformDoes_of_uniformUnit hi

theorem UniformDoes.of_uni2 {f : DWord → DWord → DWord} (hi : ∀ s, exec i s = uni2 f x a b n k s)
    (h : ∀ u, f (a.get u) (b.get u) = G u) : UniformDoes i k fun u => x.put n (G u) u :=
  funext h ▸ uniformDoes_of_uniformUnit hi

theorem UniformDoes.of_uniPred {f : DWord → DWord → Bool} (hi : ∀ s, exec i s = uniPred f d a b k s)
    (h : ∀ u, f (a.get u) (b.get u) = P u) : UniformDoes i k fun u => u.setPred d (P u) :=
  funext h ▸ uniformDoes_of_uniformUnit hi

theorem UniformDoes.of_uniImm {f : DWord → DWord} (hi : ∀ s, exec i s = uniImm f x a s) (h : ∀ u, f (a.get u) = G u) :
    UniformDoes i 0 fun u => x.put false (G u) u := .of_uni1 hi h

theorem UniformDoes.of_uniCmp {c : Cond} {y : BitVec 10} (hi : ∀ s, exec i s = uniCmp c d a y s)
    (h : ∀ u, c.holds (a.get u) (y.signExtend 64) = P u) : UniformDoes i 0 fun u => u.setPred d (P u) :=
  funext h ▸ uniformDoes_of_uniformUnit hi

end

theorem uniformArithmetic : Claims.UniformArithmetic := fun _ _ _ _ _ =>
  ⟨.of_uni2 (fun _ => rfl) fun _ => rfl,
   .of_uni2 (fun _ => rfl) fun _ => rfl,
   .of_uni2 (fun _ => rfl) fun _ => minI_eq _ _,
   .of_uni2 (fun _ => rfl) fun _ => maxI_eq _ _,
   .of_uni2 (fun _ => rfl) fun _ => minN_eq _ _,
   .of_uni2 (fun _ => rfl) fun _ => maxN_eq _ _,
   .of_uni2 (fun _ => rfl) fun _ => mul_eq_ofNat _ _,
   .of_uni2 (fun _ => rfl) fun _ => rfl,
   .of_uni2 (fun _ => rfl) fun _ => and_eq_ofBits _ _,
   .of_uni2 (fun _ => rfl) fun _ => or_eq_ofBits _ _,
   .of_uni2 (fun _ => rfl) fun _ => xor_eq_ofBits _ _,
   .of_uni2 (f := fun x y => x &&& ~~~y) (fun _ => rfl) fun _ => andn_eq_ofBits _ _,
   .of_uni2 (f := fun x y => shiftL x y.toNat) (fun _ => rfl) fun _ => shiftL_eq _ _,
   .of_uni2 (f := fun x y => shiftR x y.toNat) (fun _ => rfl) fun _ => shiftR_eq _ _,
   .of_uni2 (f := fun x y => shiftA x y.toNat) (fun _ => rfl) fun _ => shiftA_eq_ofBits _ _,
   .of_uni1 (fun _ => rfl) fun _ => leadingZeros_eq _⟩

theorem uniformCompares : Claims.UniformCompares := fun _ _ _ _ =>
  ⟨.of_uniPred (fun _ => rfl) fun _ => holds_eq _ _,
   .of_uniPred (fun _ => rfl) fun _ => holds_ne _ _,
   .of_uniPred (fun _ => rfl) fun _ => holds_ltI _ _,
   .of_uniPred (fun _ => rfl) fun _ => holds_leI _ _,
   .of_uniPred (fun _ => rfl) fun _ => holds_ltN _ _,
   .of_uniPred (fun _ => rfl) fun _ => holds_leN _ _,
   .of_uniPred (fun _ => rfl) fun _ => holds_tst _ _,
   fun _ _ => ⟨rfl, rfl⟩⟩

/-- VTOS gives the value of the elected lane (R96, R142). -/
theorem vtos_runs {s : State} {c : Issue} {g : Group} {p k : Nat} (h : s.Runs c g) (hk : c.kholds k g.u = true)
    (he : g.elected c.lanes = some p) (d : UDst) (v : LSrc) (n : Bool) :
    exec (.vtos d v n k) s = .next (s.setGroup c.gkey
      ({ g with u := d.put n ((v.r32 (g.lane p)).setWidth 64) g.u }.mapLanes c.lanes c.advance)) := by
  refine (guardedUnit_true h hk _).trans ?_
  rw [he]
  exact congrArg Host.Outcome.next (by
    rw [State.advance, State.modGroup_some (State.tget_setGroup_self ..), State.setGroup_setGroup])

theorem uniformMoves : Claims.UniformMoves := fun d _ _ n k _ _ _ _ =>
  ⟨.of_uni1 (fun _ => rfl) fun _ => rfl,
   uniformDoes_of_uniformUnit fun _ => rfl,
   .of_uni1 (f := fun x => (x.setWidth 32).signExtend 64) (fun _ => rfl) fun _ => low_word_extended _,
   uniformDoes_of_uniformUnit fun _ => rfl,
   uniformDoes_of_uniformUnit fun _ => rfl,
   uniformDoes_of_uniformUnit fun _ => rfl,
   uniformDoes_of_uniformUnit fun _ => rfl,
   uniformDoes_of_uniformUnit fun _ => rfl,
   .of_uni1 (fun _ => rfl) fun _ => ones_eq _,
   .of_uni2 (fun _ => rfl) fun _ => divN_eq _ _,
   fun v s c g p hr hk hp hm hlow =>
    ⟨_, vtos_runs hr hk (Group.elected_eq hp hm hlow) d v n, by
      rw [BitVec.ofNat_toNat]; unfold Group.mapLanes; rfl, fun q hq => Group.lane_mapLanes _ _ _ hq⟩⟩

theorem uniformImmediates : Claims.UniformImmediates := fun _ _ _ x _ m hm =>
  ⟨.of_uniImm (f := (· + x.signExtend 64)) (fun _ => rfl) fun _ => add_imm _ _,
   .of_uniImm (f := (· &&& x.setWidth 64)) (fun _ => rfl) fun _ => and_imm _ _,
   .of_uniImm (f := (· ||| x.setWidth 64)) (fun _ => rfl) fun _ => or_imm _ _,
   .of_uniImm (f := (shiftL · m)) (fun _ => rfl) fun _ => shiftL_lt _ hm,
   .of_uniImm (f := (shiftR · m)) (fun _ => rfl) fun _ => shiftR_lt _ hm,
   .of_uniImm (f := (shiftA · m)) (fun _ => rfl) fun _ => shiftA_eq_ofBits_min _ _,
   .of_uniCmp (fun _ => rfl) fun _ => holds_eq_imm _ _ (by decide),
   .of_uniCmp (fun _ => rfl) fun _ => holds_ne_imm _ _ (by decide),
   .of_uniCmp (fun _ => rfl) fun _ => holds_ltI_imm _ _ (by decide),
   .of_uniCmp (fun _ => rfl) fun _ => holds_leI_imm _ _ (by decide),
   .of_uniCmp (fun _ => rfl) fun _ => holds_ltN _ _,
   .of_uniCmp (fun _ => rfl) fun _ => holds_leN _ _,
   .of_uniCmp (fun _ => rfl) fun _ => holds_tst_imm _ _ (by decide),
   uniformDoes_of_uniformUnit fun _ => rfl⟩

end Sys2Proof.Machine

open Sys2Proof Sys2Proof.Machine

/-- Settles O9, from what each uniform form gives by bits or by numbers, and the lane that VTOS takes. -/
theorem uniformResults : Obligations.UniformResults := ⟨uniformArithmetic, uniformCompares, uniformMoves, uniformImmediates⟩
end

section
/-! SUPPORT. A group with nothing outstanding: what waits for its posted atomics and for its peers goes on (R215, R239). -/

namespace Sys2Proof.Machine

section
variable {s : State} {k : Nat} (h : s.quiet k)
include h

/-- No posted atomic of the group passes a test that speaks of the group. -/
theorem State.quiet.posted_any {f : Posted → Bool} (hf : ∀ x, f x = true → x.gkey = k) :
    (s.core (coreOf k)).posted.any f = false :=
  List.any_eq_false.2 fun x hx hfx => h.1 x hx (hf x hfx)

theorem State.quiet.complete (m : Mask) : s.complete k (Posted.of k m) = .ok s := by
  have hof : ∀ x, Posted.of k m x = true → x.gkey = k := fun x hx => by simp_all [Posted.of]
  have hnone : ((s.core (coreOf k)).posted.filter fun x => x.wait.isNone && x.trap.isNone && Posted.of k m x) = [] :=
    List.filter_eq_nil_iff.2 fun x hx hfx => h.1 x hx (hof x (by simp_all))
  simp only [State.complete, State.flushPosted, hnone, eachRes, h.posted_any hof, Bool.false_eq_true, if_false]

theorem State.quiet.settled {c : Issue} (hk : k = c.gkey) (f : State → Res) : settled s c f = f s := by
  subst hk
  simp only [Machine.settled, h.complete]

theorem State.quiet.settleLane (p va n : Nat) : s.settleLane k p va n = .ok s := by
  have hof : ∀ x : Posted, (x.of k (1#32 <<< p) && overlap x.va 8 va n) = true → x.gkey = k := fun x hx => by
    simp_all [Posted.of]
  simp only [State.settleLane, h.posted_any hof, Bool.false_eq_true, if_false]

theorem State.quiet.release (m : Mask) (scope : Nat) : s.release k m scope = .ok s := by
  simp only [State.release, h.complete, State.unacknowledged, h.2, List.any_nil, Bool.false_eq_true, if_false]

end

end Sys2Proof.Machine
end

section
/-! PROOF. EXIT, JOIN, ELECT, PARTITION and LMAP (O18; R115, R140-R146, R174-R177). -/

namespace Sys2Proof.Machine

/-! ### An arrival that leaves a lane of its group active -/

theorem Group.finishColls_none {g : Group} (h : g.colls = []) (nbv : Nat) : g.finishColls nbv = g := by
  simp only [Group.finishColls, h, List.filter_nil, List.foldl_nil]
  rw [← h]

/-- An arrival in a group with no collective completes at most joins of the group, where some lane of it is active
afterwards and no masked barrier is under way. -/
theorem State.rendezvous_joins {s : State} {k : Nat} {g g' : Group} {tm : Team} (hg : tget s.groups k = some g)
    (ht : tget s.teams g.tid = some tm) (hin : g.tid ∈ tm.cluster) (hcolls : g.colls = []) (hf : g.finishJoins = g')
    (htid : g'.tid = g.tid) (hown : g'.kind = .own) (hmask : g'.barMask = none)
    (hbusy : ∃ q, q < 32 ∧ (g'.lane q).state = .active) (unit : DWord) (lanes : Mask) :
    s.rendezvous k unit lanes = s.setGroup k g' := by
  have hg' : tget (s.setGroup k g').groups k = some g' := State.tget_setGroup_self ..
  unfold State.rendezvous
  simp only [hg, Group.finishColls_none hcolls, hf]
  rw [← htid] at ht hin ⊢
  rw [State.finishMask_none hg' hmask, State.finishTeam_busy hg' hown hbusy, State.finishCluster_busy hg' hown hbusy ht hin,
    State.finishRegroup_busy hg' hown hbusy, State.testGather_busy hg' hown hbusy, State.testGather_busy hg' hown hbusy]

/-- The same of a state that is that of a calm group but for the group's lanes. -/
theorem State.Calm.rendezvous {s t : State} {k : Nat} {g g₁ g₂ : Group} (h : s.Calm g) (ht : tget t.groups k = some g₁)
    (hset : ∀ x, t.setGroup k x = s.setGroup k x) (h₁ : g₁ = { g with lanes := g₁.lanes }) (hf : g₁.finishJoins = g₂)
    (h₂ : g₂ = { g with lanes := g₂.lanes, joins := g₂.joins }) (hbusy : ∃ q, q < 32 ∧ (g₂.lane q).state = .active)
    (unit : DWord) (lanes : Mask) : t.rendezvous k unit lanes = s.setGroup k g₂ := by
  obtain ⟨hown, _, hcolls, hmask, _, tm, htm, hin⟩ := h
  have hteams : t.teams = s.teams := by
    have e := congrArg State.teams (hset g)
    rwa [State.setGroup_teams, State.setGroup_teams] at e
  have htid₁ : g₁.tid = g.tid := by rw [h₁]
  have htid₂ : g₂.tid = g.tid := by rw [h₂]
  rw [State.rendezvous_joins ht (by rw [hteams, htid₁]; exact htm) (by rw [htid₁]; exact hin) (by rw [h₁]; exact hcolls) hf
    (htid₂.trans htid₁.symm) (by rw [h₂]; exact hown) (by rw [h₂]; exact hmask) hbusy, hset]

/-! ### EXIT (R115, R140) -/

/-- The lanes of some positions have exited. -/
def Group.exits (g : Group) (ps : List Nat) : Group :=
  ps.foldl (fun g p => g.setLane p { g.lane p with state := .exited }) g

theorem Group.exits_lanes (g : Group) (ps : List Nat) : g.exits ps = { g with lanes := (g.exits ps).lanes } := by
  induction ps generalizing g with
  | nil => rfl
  | cons p ps ih => exact ih (g.setLane p { g.lane p with state := .exited })

theorem Group.lane_exits (g : Group) (ps : List Nat) {q : Nat} (hq : q < 32) :
    (g.exits ps).lane q = if q ∈ ps then { g.lane q with state := .exited } else g.lane q := by
  induction ps generalizing g with
  | nil => simp [Group.exits]
  | cons p ps ih =>
    have hstep : g.exits (p :: ps) = (g.setLane p { g.lane p with state := .exited }).exits ps := rfl
    rw [hstep, ih, Group.lane_setLane _ _ _ hq]
    by_cases hqp : q = p
    · subst hqp; simp
    · simp [hqp]

/-- Lanes outside every call exit one after another, and their group alone changes (R140). -/
theorem State.foldl_exitLane {c : Issue} {ps : List Nat} (hps : ∀ p ∈ ps, p < 32) {s t : State} {g : Group}
    (ht : tget t.groups c.gkey = some g) (hset : ∀ x, t.setGroup c.gkey x = s.setGroup c.gkey x)
    (hnest : ∀ p, p < 32 → (g.lane p).nest = 0) :
    let t' := ps.foldl (fun s p => s.exitLane c p) t
    tget t'.groups c.gkey = some (g.exits ps) ∧ ∀ x, t'.setGroup c.gkey x = s.setGroup c.gkey x := by
  induction ps generalizing g t with
  | nil => exact ⟨ht, hset⟩
  | cons p ps ih =>
    have hinner : t.inner c.gkey g p = .none := by rw [State.inner, if_pos (hnest p (hps p (by simp)))]
    have hstep : t.exitLane c p = t.setGroup c.gkey (g.setLane p { g.lane p with state := .exited }) := by
      simp only [State.exitLane, ht, hinner, State.modLane, State.modGroup_some ht]
    rw [List.foldl_cons, hstep]
    refine ih (fun q hq => hps q (by simp [hq])) (State.tget_setGroup_self ..)
      (fun x => (State.setGroup_setGroup ..).trans (hset x)) fun q hq => ?_
    rw [Group.lane_setLane _ _ _ hq]
    split <;> simp_all

theorem State.Calm.exitTrap {s : State} {g : Group} (h : s.Calm g) (c : Issue) : s.exitTrap c g = none :=
  List.findSome?_eq_none_iff.2 fun p hp => by rw [h.inner ((mem_positions _ p).1 hp).1]

theorem exit_runs {s : State} {c : Issue} {g : Group} (h : s.Runs c g) (hcalm : s.Calm g) (hothers : c.Others g)
    (hquiet : s.quiet c.gkey) (hk : c.kholds 0 g.u = true) (hjoins : g.joins = Vector.replicate 4 0) :
    Answers (exec .exit s) fun t =>
      GroupBecomes s t c.gkey g (fun q => if c.lanes.getLsbD q then { g.lane q with state := .exited } else g.lane q) ∧
      t.teams = s.teams ∧ SameMemory s t := by
  have hlanes : ∀ q, q < 32 → (g.exits (g.order c.lanes)).lane q =
      if c.lanes.getLsbD q then { g.lane q with state := .exited } else g.lane q := fun q hq => by
    simp only [Group.lane_exits g _ hq, Group.mem_order, hq, true_and]
  have hexits := g.exits_lanes (g.order c.lanes)
  have hbusy : ∃ q, q < 32 ∧ ((g.exits (g.order c.lanes)).lane q).state = .active := by
    obtain ⟨q, hq, hout, hactive⟩ := hothers
    exact ⟨q, hq, by rw [hlanes q hq, hout]; exact hactive⟩
  obtain ⟨_, _, _, _, hnest, _⟩ := id hcalm
  obtain ⟨hget, hset⟩ := State.foldl_exitLane (fun p hp => ((g.mem_order c.lanes p).1 hp).1) h.2.2 (fun _ => rfl) hnest
  have hrun : exec .exit s = .next (s.setGroup c.gkey (g.exits (g.order c.lanes))) := by
    change guardedUnit 0 s _ = _
    rw [guardedUnit_true h hk]
    simp only [hcalm.exitTrap, hquiet.settled rfl, settle_ok]
    rw [hcalm.rendezvous hget hset hexits (Group.finishJoins_none (by rw [hexits]; exact hjoins))
      (by rw [hexits]) hbusy]
  exact ⟨_, hrun, .of_set rfl hexits hlanes, rfl, .of_eq rfl rfl rfl⟩

/-! ### JOIN (R144, R174) -/

theorem Group.finishJoin_zero {g : Group} {i : Nat} (h : g.joins[i]?.getD 0 = 0) : g.finishJoin i = g := by
  unfold Group.finishJoin
  rw [h]
  rfl

theorem Group.finishJoin_other (g : Group) {i j : Nat} (h : i ≠ j) :
    (g.finishJoin j).joins[i]?.getD 0 = g.joins[i]?.getD 0 := by
  unfold Group.finishJoin
  dsimp only
  split
  · rw [Vector.getElem?_setIfInBounds_ne (Ne.symm h)]
  · rfl

/-- Where no other rejoin mask is set, one join alone can complete. -/
theorem Group.finishJoins_one {g : Group} {j : Nat} (hj : j < 4) (h : ∀ i, i ≠ j → g.joins[i]?.getD 0 = 0) :
    g.finishJoins = g.finishJoin j := by
  have hpre : ∀ i, i ≠ j → g.finishJoin i = g := fun i hi => Group.finishJoin_zero (h i hi)
  have hpost : ∀ i, i ≠ j → (g.finishJoin j).finishJoin i = g.finishJoin j := fun i hi =>
    Group.finishJoin_zero ((g.finishJoin_other hi).trans (h i hi))
  have hfold : g.finishJoins = (((g.finishJoin 0).finishJoin 1).finishJoin 2).finishJoin 3 := by
    simp only [Group.finishJoins, List.range_succ, List.range_zero, List.nil_append, List.cons_append,
      List.foldl_cons, List.foldl_nil]
  rw [hfold]
  obtain rfl | rfl | rfl | rfl : j = 0 ∨ j = 1 ∨ j = 2 ∨ j = 3 := by omega
  · rw [hpost 1 (by decide), hpost 2 (by decide), hpost 3 (by decide)]
  · rw [hpre 0 (by decide), hpost 2 (by decide), hpost 3 (by decide)]
  · rw [hpre 0 (by decide), hpre 1 (by decide), hpost 3 (by decide)]
  · rw [hpre 0 (by decide), hpre 1 (by decide), hpre 2 (by decide)]

/-- Lane q waits at a rejoin mask m once the lanes of unit c that are in it do. -/
def Issue.waitsAt (c : Issue) (g : Group) (j : Nat) (m : Mask) (q : Nat) : Bool :=
  m.getLsbD q && c.lanes.getLsbD q || (g.lane q).state == .waiting (.join j) && !c.lanes.getLsbD q

/-- The group at its JOIN.wait: its set has moved on, and the lanes of the rejoin mask wait. -/
def Group.joining (c : Issue) (g : Group) (j : Nat) : Group :=
  (g.mapLanes c.lanes c.advance).mapLanes (c.lanes &&& g.joins[j]?.getD 0) fun l => { l with state := .waiting (.join j) }

@[simp] theorem Issue.advance_state (c : Issue) (l : Lane) : (c.advance l).state = l.state := by
  unfold Issue.advance; split <;> rfl

theorem Issue.moved_state (c : Issue) (g : Group) (q : Nat) : (c.moved g q).state = (g.lane q).state := by
  unfold Issue.moved; split <;> simp

theorem Group.joining_eq (c : Issue) (g : Group) (j : Nat) : g.joining c j = { g with lanes := (g.joining c j).lanes } :=
  Group.mapLanes_mapLanes_eq ..

section
variable {c : Issue} {g : Group} {j : Nat} {m : Mask} (hm : g.joins[j]?.getD 0 = m)
include hm

theorem Group.lane_joining {q : Nat} (hq : q < 32) : (g.joining c j).lane q =
    if m.getLsbD q && c.lanes.getLsbD q then { c.moved g q with state := .waiting (.join j) } else c.moved g q := by
  rw [Group.joining, Group.lane_mapLanes _ _ _ hq, Group.lane_mapLanes _ _ _ hq, BitVec.getLsbD_and, hm, Bool.and_comm]
  rfl

theorem Group.joining_waits {q : Nat} (hq : q < 32) (hin : m.getLsbD q = true) :
    ((g.joining c j).where fun l => l.state == .waiting (.join j)).getLsbD q = c.waitsAt g j m q := by
  rw [Group.where_bit _ _ hq, Group.lane_joining hm hq, Issue.waitsAt, hin]
  cases hc : c.lanes.getLsbD q <;> simp [Issue.moved, hc]

theorem Group.joining_gone {q : Nat} (hq : q < 32) (hin : m.getLsbD q = true) :
    (c.waitsAt g j m q || ((g.joining c j).lane q).gone) = (c.waitsAt g j m q || (g.lane q).gone) := by
  rw [Group.lane_joining hm hq, Issue.waitsAt, hin]
  cases hc : c.lanes.getLsbD q <;> simp [Issue.moved, hc]

/-- All lanes of the rejoin mask wait or are gone. -/
def Issue.joinDone (c : Issue) (g : Group) (j : Nat) (m : Mask) : Prop :=
  m ≠ 0 ∧ ∀ q, q < 32 → m.getLsbD q = true → c.waitsAt g j m q = true ∨ (g.lane q).gone = true

omit hm in
/-- A join completes when its mask is not empty and all its lanes wait or are gone. -/
theorem Group.finishJoin_eq (g : Group) (j : Nat) {m : Mask} (hm : g.joins[j]?.getD 0 = m) : g.finishJoin j =
    if m ≠ 0 ∧ ∀ q, q < 32 → m.getLsbD q = true →
        ((g.where fun l => l.state == .waiting (.join j)).getLsbD q || (g.lane q).gone) = true then
      { g.mapLanes ((g.where fun l => l.state == .waiting (.join j)) &&& m) (fun l => { l with state := .active }) with
        joins := g.joins.setIfInBounds j 0 }
    else g := by
  unfold Group.finishJoin
  simp only [hm, bne_iff_ne, Bool.and_eq_true, List.all_eq_true, mem_positions, and_imp]

theorem Issue.joinDone_iff : c.joinDone g j m ↔ m ≠ 0 ∧ ∀ q, q < 32 → m.getLsbD q = true →
    (((g.joining c j).where fun l => l.state == .waiting (.join j)).getLsbD q || ((g.joining c j).lane q).gone) = true := by
  refine and_congr_right fun _ => forall_congr' fun q => forall_congr' fun hq => forall_congr' fun hin => ?_
  rw [Group.joining_waits hm hq hin, Group.joining_gone hm hq hin, Bool.or_eq_true]

end

theorem Group.lane_of_lanes {g h : Group} (e : g.lanes = h.lanes) (q : Nat) : g.lane q = h.lane q := by
  unfold Group.lane
  rw [e]

/-- The group when its join completes: the waiting lanes of the rejoin mask go on and the mask is clear. -/
def Group.joinedAll (c : Issue) (g : Group) (j : Nat) (m : Mask) : Group :=
  { (g.joining c j).mapLanes (((g.joining c j).where fun l => l.state == .waiting (.join j)) &&& m)
      (fun l => { l with state := .active }) with
    joins := (g.joining c j).joins.setIfInBounds j 0 }

theorem Group.joinedAll_eq (c : Issue) (g : Group) (j : Nat) (m : Mask) : g.joinedAll c j m =
    { g with joins := g.joins.setIfInBounds j 0, lanes := (g.joinedAll c j m).lanes } := by
  unfold Group.joinedAll Group.joining Group.mapLanes
  rfl

theorem Group.lane_joinedAll {c : Issue} {g : Group} {j : Nat} {m : Mask} (hm : g.joins[j]?.getD 0 = m) {q : Nat}
    (hq : q < 32) : (g.joinedAll c j m).lane q =
      if m.getLsbD q && c.waitsAt g j m q then { c.moved g q with state := .active } else c.moved g q := by
  have hlanes : (g.joinedAll c j m).lanes = ((g.joining c j).mapLanes
      (((g.joining c j).where fun l => l.state == .waiting (.join j)) &&& m) fun l => { l with state := .active }).lanes := rfl
  rw [Group.lane_of_lanes hlanes, Group.lane_mapLanes _ _ _ hq, BitVec.getLsbD_and]
  cases hin : m.getLsbD q with
  | false => rw [Group.lane_joining hm hq, hin, Bool.and_false, Bool.false_and, Bool.false_and]; rfl
  | true =>
    rw [Group.joining_waits hm hq hin, Group.lane_joining hm hq, hin, Bool.and_true, Bool.true_and, Bool.true_and]
    cases hc : c.lanes.getLsbD q with
    | false => rfl
    | true => rw [show c.waitsAt g j m q = true by simp [Issue.waitsAt, hin, hc]]; rfl

theorem joinWait_next {s : State} {c : Issue} {g g₂ : Group} {j : Nat} (h : s.Runs c g) (hcalm : s.Calm g)
    (hk : c.kholds 0 g.u = true) (hf : (g.joining c j).finishJoins = g₂)
    (h₂ : g₂ = { g with lanes := g₂.lanes, joins := g₂.joins }) (hbusy : ∃ q, q < 32 ∧ (g₂.lane q).state = .active) :
    exec (.joinWait j) s = .next (s.setGroup c.gkey g₂) := by
  change guardedUnit 0 s _ = _
  rw [guardedUnit_true h hk]
  exact congrArg Host.Outcome.next (hcalm.rendezvous (State.tget_setGroup_self ..) (State.setGroup_setGroup s c.gkey _)
    (Group.joining_eq c g j) hf h₂ hbusy c.addr c.lanes)

theorem joinEnrol_runs {s : State} {c : Issue} {g : Group} (h : s.Runs c g) (hk : c.kholds 0 g.u = true) (j : Nat) :
    Answers (exec (.joinEnrol j) s) fun t =>
      GroupBecomes s t c.gkey { g with joins := g.joins.setIfInBounds j (g.joins[j]?.getD 0 ||| c.lanes) } (c.moved g) ∧
      t.teams = s.teams ∧ SameMemory s t := by
  change Answers (guardedUnit 0 s _) _
  rw [guardedUnit_true h hk]
  exact ⟨_, rfl, .mapLanes rfl, rfl, .of_eq rfl rfl rfl⟩

theorem joinWait_runs {s : State} {c : Issue} {g : Group} (h : s.Runs c g) (hcalm : s.Calm g) (hothers : c.Others g)
    (hk : c.kholds 0 g.u = true) {j : Nat} (hj : j < 4) (hzero : ∀ i, i ≠ j → g.joins[i]?.getD 0 = 0) {m : Mask}
    (hm : g.joins[j]?.getD 0 = m) :
    Answers (exec (.joinWait j) s) fun t =>
      t.teams = s.teams ∧ SameMemory s t ∧
      (c.joinDone g j m → GroupBecomes s t c.gkey { g with joins := g.joins.setIfInBounds j 0 } (fun q =>
        if m.getLsbD q && c.waitsAt g j m q then { c.moved g q with state := .active } else c.moved g q)) ∧
      (¬ c.joinDone g j m → GroupBecomes s t c.gkey g (fun q =>
        if m.getLsbD q && c.lanes.getLsbD q then { c.moved g q with state := .waiting (.join j) } else c.moved g q)) := by
  have hjoins : (g.joining c j).joins = g.joins := by rw [Group.joining_eq]
  have hfinish : (g.joining c j).finishJoins = (g.joining c j).finishJoin j :=
    Group.finishJoins_one hj fun i hi => by rw [hjoins]; exact hzero i hi
  obtain ⟨q₀, hq₀, hout, hactive⟩ := hothers
  by_cases hdone : c.joinDone g j m
  · have hg₂ : (g.joining c j).finishJoins = g.joinedAll c j m := by
      rw [hfinish, Group.finishJoin_eq _ j (m := m) (by rw [hjoins, hm]), if_pos ((Issue.joinDone_iff hm).1 hdone)]
      rfl
    have hrun := joinWait_next h hcalm hk hg₂ (by rw [Group.joinedAll_eq])
      ⟨q₀, hq₀, by rw [Group.lane_joinedAll hm hq₀, apply_ite Lane.state, c.moved_state, hactive, ite_self]⟩
    exact ⟨_, hrun, rfl, .of_eq rfl rfl rfl,
      fun _ => .of_set rfl (Group.joinedAll_eq ..) fun q hq => Group.lane_joinedAll hm hq, fun hn => absurd hdone hn⟩
  · have hg₂ : (g.joining c j).finishJoins = g.joining c j := by
      rw [hfinish, Group.finishJoin_eq _ j (m := m) (by rw [hjoins, hm]), if_neg fun hd => hdone ((Issue.joinDone_iff hm).2 hd)]
    have hrun := joinWait_next h hcalm hk hg₂ (by rw [Group.joining_eq])
      ⟨q₀, hq₀, by rw [Group.lane_joining hm hq₀, hout, Bool.and_false, if_neg Bool.false_ne_true, c.moved_state, hactive]⟩
    exact ⟨_, hrun, rfl, .of_eq rfl rfl rfl, fun hd => absurd hd hdone,
      fun _ => .of_set rfl (Group.joining_eq ..) fun q hq => Group.lane_joining hm hq⟩

theorem exitAndJoin : Claims.ExitAndJoin := fun _ _ _ h hcalm hothers hquiet hk =>
  ⟨exit_runs h hcalm hothers hquiet hk, fun _ hj =>
    ⟨joinEnrol_runs h hk _, fun hzero => joinWait_runs h hcalm hothers hk hj hzero rfl⟩⟩

/-! ### ELECT, PARTITION and LMAP (R142, R146, R175-R177) -/

theorem Lane.setPred_setPred (l : Lane) (n : Nat) (a b : Bool) : (l.setPred n a).setPred n b = l.setPred n b := by
  unfold Lane.setPred
  by_cases h : n = 0
  · simp only [h, if_true]
  · have hbad : ∀ x y : BitVec 128, x &&& y &&& y = x &&& y := fun x y => by rw [BitVec.and_assoc, BitVec.and_self]
    simp only [h, if_false, Vector.setIfInBounds_setIfInBounds, hbad]

theorem Issue.advance_setPred (c : Issue) (l : Lane) (n : Nat) (b : Bool) :
    (c.advance l).setPred n b = c.advance (l.setPred n b) := by
  unfold Issue.advance Lane.setPred
  by_cases h : n = 0 <;> by_cases hrep : c.idx + 1 < c.count <;> simp only [h, hrep, if_true, if_false]

/-- The group after an ELECT of lane p with the uniform registers u. -/
def Group.electing (c : Issue) (g : Group) (n p : Nat) (u : UFile) : Group :=
  { (g.mapLanes c.lanes fun l => c.advance (l.setPred n false)).mapLanes (1#32 <<< p) (fun l => l.setPred n true) with u := u }

theorem Group.electing_eq (c : Issue) (g : Group) (n p : Nat) (u : UFile) :
    g.electing c n p u = { g with u := u, lanes := (g.electing c n p u).lanes } := by
  unfold Group.electing Group.mapLanes
  rfl

theorem Group.lane_electing (c : Issue) (g : Group) (n : Nat) {p : Nat} (u : UFile) (hin : c.lanes.getLsbD p = true) {q : Nat}
    (hq : q < 32) : (g.electing c n p u).lane q =
      if c.lanes.getLsbD q then (c.advance (g.lane q)).setPred n (decide (q = p)) else g.lane q := by
  have hlanes : (g.electing c n p u).lanes = ((g.mapLanes c.lanes fun l => c.advance (l.setPred n false)).mapLanes (1#32 <<< p)
    fun l => l.setPred n true).lanes := rfl
  rw [Group.lane_of_lanes hlanes, Group.lane_mapLanes _ _ _ hq, Group.lane_mapLanes _ _ _ hq, bit_shift p q hq]
  by_cases hqp : q = p
  · subst hqp
    simp only [hin, if_true, decide_true, ← Issue.advance_setPred, Lane.setPred_setPred]
  · simp only [hqp, decide_false, Issue.advance_setPred, Bool.false_eq_true, if_false]

theorem elect_runs {s : State} {c : Issue} {g : Group} (h : s.Runs c g) (hk : c.kholds 0 g.u = true) (d : UDst) (n : Nat)
    {p : Nat} (hin : c.lanes.getLsbD p = true) (he : g.elected c.lanes = some p) :
    Answers (exec (.elect d n) s) fun t =>
      GroupBecomes s t c.gkey { g with u := d.put false (BitVec.ofNat 64 (g.lane p).lid.toNat) g.u } (fun q =>
        if c.lanes.getLsbD q then (c.advance (g.lane q)).setPred n (decide (q = p)) else g.lane q) ∧
      t.teams = s.teams ∧ SameMemory s t := by
  have hrun : exec (.elect d n) s =
      .next (s.setGroup c.gkey (g.electing c n p (d.put false (BitVec.ofNat 64 (g.lane p).lid.toNat) g.u))) := by
    change guardedUnit 0 s _ = _
    rw [guardedUnit_true h hk, he, BitVec.ofNat_toNat]
    rfl
  exact ⟨_, hrun, .of_set rfl (Group.electing_eq ..) fun q hq => Group.lane_electing c g n _ hin hq, rfl, .of_eq rfl rfl rfl⟩

theorem partition_runs {i : Instr} {n : Nat} {x : Group → Part} (hi : ∀ s, exec i s = partition n x s) {s : State}
    {c : Issue} {g : Group} (h : s.Runs c g) (hk : c.kholds 0 g.u = true) :
    Answers (exec i s) fun t =>
      GroupBecomes s t c.gkey { g with parts := g.parts.setIfInBounds n (x g) } (c.moved g) ∧ t.teams = s.teams ∧
      SameMemory s t := by
  rw [hi, partition, guardedUnit_true h hk]
  exact ⟨_, rfl, .mapLanes rfl, rfl, .of_eq rfl rfl rfl⟩

theorem lmap_runs {s : State} {c : Issue} {g : Group} (h : s.Runs c g) (hk : c.kholds 0 g.u = true) (d : UDst) (b : USrc) :
    let l := g.lane ((b.get g.u).toNat % 32)
    Answers (exec (.lmap d b) s) fun t =>
      GroupBecomes s t c.gkey
        { g with u := d.put false (if l.state = .absent then BitVec.allOnes 64 else BitVec.ofNat 64 l.lid.toNat) g.u }
        (c.moved g) ∧
      t.teams = s.teams ∧ SameMemory s t := by
  intro l
  have hones : BitVec.allOnes 64 = 0xFFFFFFFFFFFFFFFF#64 := rfl
  change Answers (guardedUnit 0 s _) _
  rw [guardedUnit_true h hk, BitVec.ofNat_toNat, hones]
  exact ⟨_, rfl, .mapLanes rfl, rfl, .of_eq rfl rfl rfl⟩

theorem electionAndLayout : Claims.ElectionAndLayout := fun _ _ _ h hk => by
  refine ⟨fun d n p hp hin hlow => elect_runs h hk d n hin (Group.elected_eq hp hin hlow), ?_, lmap_runs h hk⟩
  rintro n b i x (⟨rfl, rfl⟩ | ⟨rfl, rfl⟩ | ⟨rfl, rfl⟩ | ⟨rfl, rfl⟩ | ⟨rfl, rfl⟩)
  · exact partition_runs (x := fun _ => ⟨.whole, 0⟩) (fun _ => rfl) h hk
  · exact partition_runs (x := fun _ => ⟨.b4, 0⟩) (fun _ => rfl) h hk
  · exact partition_runs (x := fun _ => ⟨.b8, 0⟩) (fun _ => rfl) h hk
  · exact partition_runs (x := fun _ => ⟨.b16, 0⟩) (fun _ => rfl) h hk
  · exact partition_runs (x := fun g => ⟨.mask, (b.get g.u).setWidth 32⟩) (fun _ => rfl) h hk

end Sys2Proof.Machine

open Sys2Proof Sys2Proof.Machine

/-- Settles O18: EXIT and the joins because the arrivals complete nothing of the whole group while a lane is active (R144,
R174), the others from the unit's frame (R142, R146, R175-R177). -/
theorem exitsJoinsAndElections : Obligations.ExitsJoinsAndElections := ⟨exitAndJoin, electionAndLayout⟩
end

section
/-! SUPPORT. Accesses to memory: a translation neither reads nor changes groups, teams and code bays; what a load and a store
leave when nothing hinders them; what an acquire leaves (R193-R202, R236). -/

namespace Sys2Proof.Machine

/-! ### The same state with other groups -/

/-- The state with other groups: accesses neither read nor change them. -/
def State.withGroups (s : State) (G : Tab Group) : State := { s with groups := G }

section
variable (s : State) (G : Tab Group)

theorem State.rewritten_withGroups (a : Nat) : (s.withGroups G).rewritten a = (s.rewritten a).withGroups G := by
  unfold State.rewritten State.withGroups
  dsimp only
  cases tget s.bad (lineOf a) <;> rfl

theorem State.setByte_withGroups (own : Option Nat) (a : Nat) (b : Byte) :
    (s.withGroups G).setByte own a b = (s.setByte own a b).withGroups G := by
  unfold State.setByte
  rw [State.rewritten_withGroups]
  obtain ⟨bad, hbad⟩ := s.rewritten_eq a
  rw [hbad]
  by_cases h : s.bad.isEmpty <;> by_cases k : a < hostBase <;>
    simp only [State.withGroups, h, k, if_true, if_false, Bool.false_eq_true] <;> rfl

theorem State.setBytes_withGroups (own : Option Nat) (a : Nat) (bs : List Byte) :
    (s.withGroups G).setBytes own a bs = (s.setBytes own a bs).withGroups G := by
  induction bs generalizing s a with
  | nil => rfl
  | cons b bs ih => rw [State.setBytes, State.setByte_withGroups, ih, State.setBytes]

theorem State.store_withGroups (own : Option Nat) (a : Nat) (bs : List Byte) :
    (s.withGroups G).store own a bs = (s.store own a bs).withGroups G := by
  rw [State.store, State.setBytes_withGroups]; rfl

theorem State.mark_withGroups (addr e : Nat) (k : Acc) : (s.withGroups G).mark addr e k = (s.mark addr e k).withGroups G := by
  unfold State.mark
  dsimp only
  rw [State.store_withGroups, apply_ite (State.withGroups · G)]

theorem walkFrom_withGroups (die va : Nat) (n table level : Nat) :
    walkFrom (s.withGroups G) die va table level n = walkFrom s die va table level n := by
  induction n generalizing table level with
  | zero => rfl
  | succ n ih => simp only [walkFrom, ih]; rfl

theorem State.walk_withGroups (die asid va : Nat) : (s.withGroups G).walk die asid va = s.walk die asid va := by
  unfold State.walk
  dsimp only
  rw [walkFrom_withGroups]
  rfl

theorem State.cached_withGroups (core asid page : Nat) :
    (s.withGroups G).cached core asid page = ((s.cached core asid page).1, (s.cached core asid page).2.withGroups G) := by
  unfold State.cached State.core State.die State.withGroups
  dsimp only
  cases ((((tget s.cores core).getD Core.reset).tlb ++ (s.dies[dieOf core]?.getD Die.reset).tlb).find? fun x =>
    x.covers asid page) with
  | none => rfl
  | some t => dsimp only; cases Config.tlbStays s.fresh <;> rfl

theorem State.translate_withGroups (core asid va : Nat) (k : Acc) :
    (s.withGroups G).translate core asid va k =
      ((s.translate core asid va k).1, (s.translate core asid va k).2.withGroups G) := by
  unfold State.translate
  rw [State.cached_withGroups]
  obtain ⟨x, u⟩ := s.cached core asid (va / 65536)
  cases x with
  | some t => dsimp only; cases permission t.pte.toNat k <;> rfl
  | none =>
    dsimp only
    rw [State.walk_withGroups]
    cases u.walk (dieOf core) asid va with
    | fault f => rfl
    | leaf addr level e =>
      dsimp only
      rw [State.mark_withGroups]
      cases permission e k <;> rfl

theorem State.peekSpot_withGroups (die asid va : Nat) : (s.withGroups G).peekSpot die asid va = s.peekSpot die asid va := by
  unfold State.peekSpot; rw [State.walk_withGroups]

theorem State.ownMeets_withGroups (core : Nat) (o : Own) (space tid a n : Nat) :
    (s.withGroups G).ownMeets core o space tid a n = s.ownMeets core o space tid a n := by
  unfold State.ownMeets; simp only [State.peekSpot_withGroups]; rfl

theorem State.owned_withGroups (space tid a n : Nat) : (s.withGroups G).owned space tid a n = s.owned space tid a n := by
  unfold State.owned State.ownedBy
  simp only [State.ownMeets_withGroups]
  rfl

theorem State.ownsPlace_withGroups (asid : Nat) (x : Place) (n : Nat) :
    (s.withGroups G).ownsPlace asid x n = s.ownsPlace asid x n := by
  simp only [State.ownsPlace, State.unknownIn, State.owned_withGroups]

end

/-! ### What an access changes of the cores: copies of lines and translations -/

/-- A core but for what it keeps of memory: its translations and its copies of lines. -/
def Core.work (k : Core) : Core := { k with tlb := [], l1 := [], l1Time := 0, stale := [], hostStale := [] }

/-- The same groups and teams, and the same cores but for what they keep of memory. -/
structure SameWork (s t : State) : Prop where
  groups : t.groups = s.groups
  teams : t.teams = s.teams
  cores : ∀ n, (t.core n).work = (s.core n).work

theorem SameWork.refl (s : State) : SameWork s s := ⟨rfl, rfl, fun _ => rfl⟩

theorem SameWork.trans {s t u : State} (h : SameWork s t) (k : SameWork t u) : SameWork s u :=
  ⟨k.groups.trans h.groups, k.teams.trans h.teams, fun n => (k.cores n).trans (h.cores n)⟩

theorem SameWork.of_eq {s t : State} (hg : t.groups = s.groups) (ht : t.teams = s.teams) (hc : t.cores = s.cores) :
    SameWork s t := ⟨hg, ht, fun n => by rw [State.core, hc]; rfl⟩

theorem SameWork.mapCores {s t : State} {f : Nat → Core → Core} (hg : t.groups = s.groups) (ht : t.teams = s.teams)
    (hc : t.cores = s.cores.map fun x => (x.1, f x.1 x.2)) (h : ∀ n k, (f n k).work = k.work) : SameWork s t := by
  refine ⟨hg, ht, fun n => ?_⟩
  unfold State.core
  rw [hc, tget_mapVal]
  cases tget s.cores n with
  | none => rfl
  | some k => exact h n k

theorem SameWork.modCore {s : State} {n : Nat} {f : Core → Core} (h : ∀ k, (f k).work = k.work) :
    SameWork s (s.modCore n f) := by
  refine ⟨rfl, rfl, fun m => ?_⟩
  rw [State.core_modCore]
  split
  · next e => subst e; exact h _
  · rfl

theorem SameWork.modDie (s : State) (d : Nat) (f : Die → Die) : SameWork s (s.modDie d f) := .of_eq rfl rfl rfl

/-- Core n after a byte was written at home for core `own` (R193). -/
def Core.byteWritten (own : Option Nat) (a : Nat) (old new : Byte) (n : Nat) (k : Core) : Core :=
  if own = some n then { k.forgetHost a 1 with stale := terase (k.forgetHost a 1).stale a }
  else (k.forgetHost a 1).outdated a old new

theorem Core.work_byteWritten (own : Option Nat) (a : Nat) (old new : Byte) (n : Nat) (k : Core) :
    (k.byteWritten own a old new n).work = k.work := by
  unfold Core.byteWritten Core.outdated
  split
  · rfl
  · split <;> rfl

theorem SameWork.setByte (s : State) (own : Option Nat) (a : Nat) (b : Byte) : SameWork s (s.setByte own a b) := by
  have hwork := fun n k => Core.work_byteWritten own a (s.byte a) b n k
  obtain ⟨bad, hbad⟩ := s.rewritten_eq a
  unfold State.setByte
  rw [hbad]
  cases s.bad.isEmpty <;> dsimp only <;> split <;>
    exact .mapCores (f := fun n k => k.byteWritten own a (s.byte a) b n) rfl rfl rfl hwork

theorem SameWork.setBytes (s : State) (own : Option Nat) (a : Nat) (bs : List Byte) : SameWork s (s.setBytes own a bs) := by
  induction bs generalizing s a with
  | nil => exact .refl s
  | cons b bs ih => exact (SameWork.setByte s own a b).trans (ih _ _)

theorem SameWork.store (s : State) (own : Option Nat) (a : Nat) (bs : List Byte) : SameWork s (s.store own a bs) :=
  (SameWork.setBytes s own a bs).trans (.of_eq rfl rfl rfl)

theorem SameWork.mark (s : State) (addr e : Nat) (k : Acc) : SameWork s (s.mark addr e k) := by
  unfold State.mark
  dsimp only
  by_cases h : (e ||| 2 ^ 42 ||| if k.writes then 2 ^ 41 else 0) = e
  · rw [if_pos h]
    exact .refl s
  · rw [if_neg h]
    exact .store ..

theorem SameWork.tlbFill (s : State) (core : Nat) (t : TlbEntry) : SameWork s (s.tlbFill core t) :=
  (SameWork.modCore (f := fun k => { k with tlb := tlbAdd 256 t k.tlb }) fun _ => rfl).trans (.modDie ..)

theorem SameWork.cached (s : State) (core asid page : Nat) : SameWork s (s.cached core asid page).2 := by
  unfold State.cached
  split
  · exact .refl s
  · split <;> exact .of_eq rfl rfl rfl

theorem SameWork.translate (s : State) (core asid va : Nat) (k : Acc) : SameWork s (s.translate core asid va k).2 := by
  have hcached := SameWork.cached s core asid (va / 65536)
  unfold State.translate
  generalize s.cached core asid (va / 65536) = x at hcached
  obtain ⟨y, u⟩ := x
  cases y with
  | some t => dsimp only; cases permission t.pte.toNat k <;> exact hcached
  | none =>
    dsimp only
    cases u.walk (dieOf core) asid va with
    | fault f => exact hcached
    | leaf addr level e =>
      dsimp only
      cases permission e k with
      | some f => exact hcached
      | none => exact hcached.trans ((SameWork.mark ..).trans (.tlbFill ..))

theorem Core.work_fillLine (k : Core) (line : Nat) : (k.fillLine line).work = k.work := by
  unfold Core.fillLine
  split
  · rfl
  · dsimp only
    split
    · rfl
    · split <;> rfl

theorem SameWork.metHost (s : State) (a n : Nat) : SameWork s (s.metHost a n) := by
  unfold State.metHost
  split
  · exact .mapCores (f := fun _ k => k.forgetHost a n) rfl rfl rfl fun _ _ => rfl
  · exact .refl s

theorem SameWork.refresh (s : State) (core a n : Nat) : SameWork s (s.refresh core a n) := by
  unfold State.refresh
  dsimp only
  split
  · exact (SameWork.metHost s a n).trans (.modCore fun _ => rfl)
  · exact .metHost ..

/-! ### A load that nothing hinders (R100, R193) -/

theorem SameMemory.withGroups (s : State) (G : Tab Group) : SameMemory s (s.withGroups G) := .of_eq rfl rfl rfl

theorem SameMemory.metHost (s : State) (a n : Nat) : SameMemory s (s.metHost a n) := by
  unfold State.metHost
  split <;> exact .of_eq rfl rfl rfl

theorem SameMemory.refresh (s : State) (core a n : Nat) : SameMemory s (s.refresh core a n) := by
  unfold State.refresh
  dsimp only
  split <;> exact (SameMemory.metHost s a n).trans (.of_eq rfl rfl rfl)

theorem State.bytes_withGroups (s : State) (G : Tab Group) (a n : Nat) : (s.withGroups G).bytes a n = s.bytes a n :=
  State.bytes_congr a n fun _ _ => rfl

/-- Every cell of a range is in VALUE. -/
theorem State.openCell_none {s : State} {pa n : Nat} (h : ∀ i, i < (n + 31) / 32 → s.tag (pa + 32 * i) = tagValue) :
    s.openCell pa n = none :=
  List.find?_eq_none.2 fun i hi => by simp [h i (List.mem_range.1 hi)]

theorem Core.onlyHostOld_false {k : Core} {a n : Nat} (h : k.hostOld a n = false) : k.onlyHostOld a n = false := by
  rw [Core.onlyHostOld, h, Bool.false_and]

/-- The translation of an access leaves groups, teams and the work of the cores. -/
theorem State.Reaches.work {s s1 : State} {c : Issue} {g : Group} {va : DWord} {n pa : Nat} {k : Acc}
    (h : s.Reaches c g va n k pa s1) : SameWork s s1 := by
  obtain ⟨_, _, _, ⟨_, htrans, _⟩, _⟩ := h
  have hkept := SameWork.translate s (coreOf c.gkey) (s.asidOf g) va.toNat k
  rw [htrans] at hkept
  exact hkept

/-- A load that nothing hinders gives the bytes at its address and leaves groups, teams and memory, whatever the groups are
that it runs in. -/
theorem State.Reaches.laneLoad {s s1 : State} {c : Issue} {g : Group} {va : DWord} {n pa : Nat}
    (h : s.Reaches c g va n .load pa s1) (G : Tab Group) (l1 : Bool) (p : Nat) (set : Option Mask) (near : Nat → Mask) :
    ∃ u, (s.withGroups G).laneLoad l1 c.gkey g p va.toNat n set near = .ok (some (s1.bytes pa n), u) ∧
      SameWork (s1.withGroups G) u ∧ SameMemory s1 u := by
  obtain ⟨_, _, _, ⟨tagged, htrans, hvalue⟩, howned, hbad, hstale, hhost⟩ := h
  have hopen : (if tagged then (s1.withGroups G).openCell pa n else none) = none := by
    cases tagged with
    | false => rfl
    | true => exact State.openCell_none (hvalue rfl)
  have hfree : (s1.withGroups G).ownsPlace ((s1.withGroups G).asidOf g) (.here pa tagged) n = false :=
    (State.ownsPlace_withGroups ..).trans howned
  have hgood : ((s1.withGroups G).badLine pa n).isSome = false := congrArg Option.isSome hbad
  have hcopy : (((s1.withGroups G).core (coreOf c.gkey)).isStale pa n || (none : Option Nat).isSome) = false :=
    congrArg (· || false) hstale
  have hhost' : ((s1.withGroups G).core (coreOf c.gkey)).hostOld pa n = false := hhost
  unfold State.laneLoad
  dsimp only
  rw [State.translate_withGroups]
  rw [show (s.withGroups G).asidOf g = s.asidOf g from rfl, htrans]
  dsimp only
  rw [hopen]
  simp only [hcopy, hhost', Core.onlyHostOld_false hhost', hfree, hgood, Bool.and_false, Bool.false_and, Bool.false_eq_true,
    if_false, Bool.not_false, if_true]
  split
  · exact ⟨_, by rw [State.bytes_withGroups], .refl _, .withGroups ..⟩
  · split
    · exact ⟨_, by rw [State.bytes_withGroups], (SameWork.metHost ..).trans (.modCore fun k => k.work_fillLine _),
        (SameMemory.withGroups s1 G).trans ((SameMemory.metHost ..).trans (.of_eq rfl rfl rfl))⟩
    · exact ⟨_, by rw [State.bytes_withGroups], .refresh .., (SameMemory.withGroups s1 G).trans (.refresh ..)⟩

/-! ### Acquires (R195, R236) -/

theorem GroupBecomes.modGroup {s t : State} {k : Nat} {h : Group} {f : Nat → Lane} {F : Group → Group}
    (hb : GroupBecomes s t k h f) (hF : ∀ g, F g = { g with acq := (F g).acq, sysAcq := (F g).sysAcq }) :
    GroupBecomes s (t.modGroup k F) k h f := by
  obtain ⟨⟨g', hget, heq, hlanes⟩, hothers⟩ := hb
  rw [State.modGroup_some hget]
  have hlanes' : (F g').lanes = g'.lanes := by rw [hF]
  refine ⟨⟨F g', State.tget_setGroup_self .., ?_, fun q hq => ?_⟩, fun j hj => ?_⟩
  · rw [hlanes', hF, heq]
  · rw [Group.lane_of_lanes hlanes', hlanes q hq]
  · rw [State.tget_setGroup_ne _ _ hj, hothers j hj]

theorem GroupBecomes.of_groups {s t u : State} {k : Nat} {h : Group} {f : Nat → Lane} (hb : GroupBecomes s t k h f)
    (hg : u.groups = t.groups) : GroupBecomes s u k h f := by
  unfold GroupBecomes
  rw [hg]
  exact hb

/-- What a group has learnt from others are times of acquires alone. -/
theorem Group.foldl_learn (g : Group) (hs : List (Nat × Group)) : hs.foldl (fun g x => g.learn x.2) g =
    { g with acq := (hs.foldl (fun g x => g.learn x.2) g).acq, sysAcq := (hs.foldl (fun g x => g.learn x.2) g).sysAcq } := by
  induction hs generalizing g with
  | nil => rfl
  | cons h hs ih => rw [List.foldl_cons, ih]; rfl

theorem State.modGroup_teams_memory (s : State) (k : Nat) (F : Group → Group) :
    (s.modGroup k F).teams = s.teams ∧ SameMemory s (s.modGroup k F) :=
  ⟨State.modGroup_teams .., .of_eq (State.modGroup_mem ..) (State.modGroup_hostMem ..) (State.modGroup_tags ..)⟩

/-- An acquire changes of groups, teams and memory only the times of acquires of its group. -/
theorem GroupBecomes.acquire {s t : State} {k : Nat} {h : Group} {f : Nat → Lane} (hb : GroupBecomes s t k h f) (scope : Nat) :
    GroupBecomes s (t.acquire k scope) k h f ∧ (t.acquire k scope).teams = t.teams ∧ SameMemory t (t.acquire k scope) := by
  unfold State.acquire
  split
  · have hforget : (if scope = 5 then t.forgetHost else t).groups = t.groups ∧
        (if scope = 5 then t.forgetHost else t).teams = t.teams ∧ SameMemory t (if scope = 5 then t.forgetHost else t) := by
      split
      · exact ⟨rfl, rfl, .of_eq rfl rfl rfl⟩
      · exact ⟨rfl, rfl, .refl t⟩
    obtain ⟨hgroups, hteams, hmem⟩ := hforget
    obtain ⟨hmodTeams, hmodMem⟩ := State.modGroup_teams_memory
      ((if scope = 5 then t.forgetHost else t).modCore (coreOf k) fun x => { x with l1Time := (t.core (coreOf k)).l1Time + 1 }) k
      fun g => { g with acq := (t.core (coreOf k)).l1Time + 1,
                        sysAcq := if scope = 5 then (t.core (coreOf k)).l1Time + 1 else g.sysAcq }
    exact ⟨(hb.of_groups (u := (if scope = 5 then t.forgetHost else t).modCore (coreOf k) _) hgroups).modGroup fun _ => rfl,
      hmodTeams.trans hteams, hmem.trans ((SameMemory.of_eq rfl rfl rfl).trans hmodMem)⟩
  · split
    · obtain ⟨hmodTeams, hmodMem⟩ := State.modGroup_teams_memory t k fun g =>
        (t.groups.filter fun x => x.2.tid == g.tid).foldl (fun g x => g.learn x.2) g
      exact ⟨hb.modGroup fun g => Group.foldl_learn g _, hmodTeams, hmodMem⟩
    · exact ⟨hb, rfl, .refl t⟩

theorem acquireAfter_becomes {s t : State} {c : Issue} {h : Group} {f : Nat → Lane} (hb : GroupBecomes s t c.gkey h f)
    (m : Addr) : ∃ u, acquireAfter c m (.ok t) = .ok u ∧
      GroupBecomes s u c.gkey h f ∧ u.teams = t.teams ∧ SameMemory t u := by
  cases m with
  | plain b => exact ⟨t, rfl, hb, rfl, .refl t⟩
  | ordered n => exact ⟨t.acquire c.gkey n, rfl, hb.acquire n⟩

/-! ### Addresses (R99) -/

theorem effective_eq (gbase : DWord) (a i : Word) (n : Nat) :
    effective gbase a i n = BitVec.ofInt 64 (gbase.toNat + a.toNat + i.toInt * n) := by
  have hbase : BitVec.ofInt 64 gbase.toNat = gbase := by rw [BitVec.ofInt_natCast, BitVec.ofNat_toNat, BitVec.setWidth_eq]
  have ha : BitVec.ofInt 64 a.toNat = a.setWidth 64 := by rw [BitVec.ofInt_natCast, BitVec.ofNat_toNat]
  have hi : BitVec.ofInt 64 i.toInt = i.signExtend 64 := rfl
  rw [effective, BitVec.ofInt_add, BitVec.ofInt_add, BitVec.ofInt_mul, hbase, ha, hi, BitVec.ofInt_natCast]

/-- An address that passes the checks. -/
theorem badAddress_none {n : Nat} {a : DWord} (hhigh : a >>> 54 = 0) (halign : a.toNat % n = 0) : badAddress n [a] = none := by
  simp [badAddress, hhigh, halign]

theorem badLanes_none {n p : Nat} {a : DWord} (hhigh : a >>> 54 = 0) (halign : a.toNat % n = 0) :
    badLanes n [(p, a)] = none := by
  rw [badLanes, List.map_singleton, badAddress_none hhigh halign]

theorem addresses_single (g : Group) {p : Nat} (hp : p < 32) (f : Lane → DWord) :
    addresses g (1#32 <<< p) f = [(p, f (g.lane p))] := by
  rw [addresses, Group.order_single g hp]
  rfl

/-! ### One lane that takes part -/

/-- The group whose lanes outside position p have moved on. -/
def Group.skipped (c : Issue) (g : Group) (p : Nat) : Group := g.mapLanes (c.lanes &&& ~~~(1#32 <<< p)) c.advance

/-- The group after lane p, changed by f, has moved on as well. -/
def Group.oneMoved (c : Issue) (g : Group) (p : Nat) (f : Lane → Lane) : Group :=
  (g.skipped c p).setLane p (c.advance (f (g.lane p)))

theorem Group.lane_skipped (c : Issue) (g : Group) {p q : Nat} (hq : q < 32) :
    (g.skipped c p).lane q = if c.lanes.getLsbD q && !decide (q = p) then c.advance (g.lane q) else g.lane q := by
  rw [Group.skipped, Group.lane_mapLanes _ _ _ hq, BitVec.getLsbD_and, BitVec.getLsbD_not, bit_shift p q hq,
    decide_eq_true hq, Bool.true_and]

theorem Group.lane_skipped_self (c : Issue) (g : Group) {p : Nat} (hp : p < 32) : (g.skipped c p).lane p = g.lane p := by
  rw [Group.lane_skipped c g hp, decide_eq_true rfl, Bool.not_true, Bool.and_false, if_neg Bool.false_ne_true]

theorem Group.lane_oneMoved (c : Issue) (g : Group) (p : Nat) (f : Lane → Lane) {q : Nat} (hq : q < 32) :
    (g.oneMoved c p f).lane q = c.oneAfter p f q (g.lane q) := by
  rw [Group.oneMoved, Group.lane_setLane _ _ _ hq, Group.lane_skipped c g hq, Issue.oneAfter]
  by_cases h : q = p
  · subst h; simp
  · simp [h]

theorem Group.oneMoved_eq (c : Issue) (g : Group) (p : Nat) (f : Lane → Lane) :
    g.oneMoved c p f = { g with lanes := (g.oneMoved c p f).lanes } := by
  unfold Group.oneMoved Group.skipped Group.setLane Group.mapLanes
  rfl

theorem State.skip_one {s : State} {c : Issue} {g : Group} (h : s.Runs c g) (p : Nat) :
    s.skip c (1#32 <<< p) = s.setGroup c.gkey (g.skipped c p) := State.modGroup_some h.2.2 _

/-- The lane that takes part still runs once the others have moved on. -/
theorem State.laneRuns_skipped {s : State} {c : Issue} {g : Group} {p : Nat} (hp : p < 32)
    (hrun : (g.lane p).runnable = true) : (s.setGroup c.gkey (g.skipped c p)).laneRuns c.gkey p = true := by
  rw [State.laneRuns, State.tget_setGroup_self]
  exact (congrArg Lane.runnable (Group.lane_skipped_self c g hp)).trans hrun

/-- A lane completes its part in a state whose group is g with the other lanes moved on. -/
theorem State.finish_one {u : State} {c : Issue} {g : Group} {p : Nat} (hp : p < 32)
    (hu : tget u.groups c.gkey = some (g.skipped c p)) (f : Lane → Lane) :
    u.finish c p f = u.setGroup c.gkey (g.oneMoved c p f) := by
  rw [State.finish, State.modLane, State.modGroup_some hu, Group.lane_skipped_self c g hp]
  rfl

/-! ### A store that nothing hinders (R101, R193, R225) -/

/-- A cell in VALUE takes a store and stays in VALUE (R225). -/
theorem State.storeCell_value {s : State} {pa : Nat} (h : s.tag pa = tagValue) (g : Option Group) (full : Bool) :
    s.storeCell g pa full = .ok tagValue := by
  unfold State.storeCell
  rw [h]
  rfl

theorem State.tag_cell (s : State) {a x : Nat} (h : x / 32 = a / 32) : s.tag x = s.tag a := by
  unfold State.tag
  rw [h]

/-- A store whose cell is in VALUE writes its bytes and nothing else. -/
theorem MemoryBut.store_value {s : State} (own : Option Nat) {pa : Nat} (n x : Nat) (h : s.tag pa = tagValue) :
    MemoryBut s ((s.store own pa (leBytes n x)).setTag pa tagValue) pa n x := by
  obtain ⟨hin, hout, htag⟩ := s.memoryBut_store own pa n x
  refine ⟨hin, hout, fun y => ?_⟩
  rw [State.tag_setTag]
  split
  · next hy => rw [← h, s.tag_cell hy]
  · exact htag y

theorem MemoryBut.of_same {s t u : State} {pa n x : Nat} (h : MemoryBut s t pa n x) (k : SameMemory t u) :
    MemoryBut s u pa n x := by
  obtain ⟨hin, hout, htag⟩ := h
  obtain ⟨hbytes, htags⟩ := k
  exact ⟨fun j hj => (hbytes _).trans (hin j hj), fun a ha => (hbytes a).trans (hout a ha), fun a => (htags a).trans (htag a)⟩

/-- The store itself, where the tags of its cell are in force or not. -/
def State.storeHere (s : State) (core pa : Nat) (tagged : Bool) (bs : List Byte) : State :=
  if tagged then (s.store (some core) pa bs).setTag pa tagValue else s.store (some core) pa bs

theorem MemoryBut.storeHere {s : State} (core : Nat) {pa : Nat} {tagged : Bool} (n x : Nat)
    (h : tagged = true → s.tag pa = tagValue) : MemoryBut s (s.storeHere core pa tagged (leBytes n x)) pa n x := by
  unfold State.storeHere
  cases tagged with
  | false => exact s.memoryBut_store (some core) pa n x
  | true => exact .store_value _ n x (h rfl)

theorem SameWork.storeHere (s : State) (core pa : Nat) (tagged : Bool) (bs : List Byte) :
    SameWork s (s.storeHere core pa tagged bs) := by
  unfold State.storeHere
  cases tagged with
  | false => exact .store ..
  | true => exact (SameWork.store ..).trans (.of_eq rfl rfl rfl)

end Sys2Proof.Machine
end

section
/-! PROOF. Loads and stores of global memory (O12; R99-R101, R237). -/

namespace Sys2Proof.Machine

/-! ### Loads -/

theorem loadPut_eq {z : Nat} (hz : z ≤ 6) (d : LDst) (bs : List Byte) : loadPut d z bs = loaded d z (leNat bs) := by
  funext l
  obtain rfl | rfl | rfl | rfl | rfl | rfl | rfl : z = 0 ∨ z = 1 ∨ z = 2 ∨ z = 3 ∨ z = 4 ∨ z = 5 ∨ z = 6 := by omega
  all_goals rfl

/-- A load unit in which one lane takes part and nothing hinders it. -/
theorem State.Reaches.loadLanes {s s1 : State} {c : Issue} {g : Group} {gd p n pa : Nat} {addr : Lane → DWord}
    (hruns : s.Runs c g) (hone : c.One gd g p) (h : s.Reaches c g (addr (g.lane p)) n .load pa s1) (l1 : Bool)
    (put : List Byte → Lane → Lane) :
    ∃ t, s.loadLanes l1 c g (c.taking gd g) n addr put = .ok t ∧
      t.groups = tset s.groups c.gkey (g.oneMoved c p (put (s1.bytes pa n))) ∧ t.teams = s.teams ∧ SameMemory s1 t := by
  obtain ⟨hp, htaking, hrun⟩ := hone
  obtain ⟨u, hload, hwork, hmem⟩ := h.laneLoad (tset s.groups c.gkey (g.skipped c p)) l1 p none
    (fun k => sameGranule k [(p, addr (g.lane p))] (addr (g.lane p)))
  have hteams := h.work.teams
  obtain ⟨hhigh, halign, hquiet, _⟩ := h
  have hskip : tget (s.setGroup c.gkey (g.skipped c p)).groups c.gkey = some (g.skipped c p) := State.tget_setGroup_self ..
  have hquiet' : (s.setGroup c.gkey (g.skipped c p)).quiet c.gkey := hquiet
  have hruns' : (s.setGroup c.gkey (g.skipped c p)).laneRuns c.gkey p = true := State.laneRuns_skipped hp hrun
  have hu : tget u.groups c.gkey = some (g.skipped c p) := by rw [hwork.groups]; exact hskip
  have hrun : s.loadLanes l1 c g (c.taking gd g) n addr put =
      .ok (u.setGroup c.gkey (g.oneMoved c p (put (s1.bytes pa n)))) := by
    rw [State.loadLanes, htaking, addresses_single g hp]
    simp only [badLanes_none hhigh halign, State.skip_one hruns, eachLane, eachRes, hquiet'.settleLane, hruns', if_true]
    rw [show s.setGroup c.gkey (g.skipped c p) = s.withGroups (tset s.groups c.gkey (g.skipped c p)) from rfl, hload]
    simp only [State.finish_one hp hu]
  refine ⟨_, hrun, ?_, hwork.teams.trans hteams, hmem.trans (.of_eq rfl rfl rfl)⟩
  rw [State.setGroup_groups, hwork.groups]
  exact tset_tset ..

/-- The groups of such a load unit. -/
theorem GroupBecomes.oneMoved {s t : State} {c : Issue} {g : Group} {p : Nat} {f : Lane → Lane}
    (ht : t.groups = tset s.groups c.gkey (g.oneMoved c p f)) :
    GroupBecomes s t c.gkey g fun q => c.oneAfter p f q (g.lane q) :=
  .of_set ht (Group.oneMoved_eq ..) fun _ hq => Group.lane_oneMoved c g p f hq

theorem ldg_runs {s s1 : State} {c : Issue} {g : Group} {gd p pa z : Nat} {d : LDst} {a : LSrc} {m : Addr} (hz : z ≤ 6)
    (hruns : s.Runs c g) (hone : c.One gd g p)
    (h : s.Reaches c g (effective g.gbase (a.r32 (g.lane p)) (m.index.r32 (g.lane p)) (szBytes z)) (szBytes z) .load pa s1) :
    Answers (exec (.ldg d a m z gd) s) fun t =>
      GroupBecomes s t c.gkey g (fun q => c.oneAfter p (loaded d z (s1.num pa (szBytes z))) q (g.lane q)) ∧
      t.teams = s.teams ∧ SameMemory s1 t := by
  obtain ⟨t, hload, hgroups, hteams, hmem⟩ := State.Reaches.loadLanes hruns hone
    (addr := fun l => effective g.gbase (a.r32 l) (m.index.r32 l) (szBytes z)) h true (loadPut d z)
  rw [loadPut_eq hz] at hgroups
  obtain ⟨u, hacq, hbecomes, hteams', hmem'⟩ := acquireAfter_becomes (.oneMoved hgroups) m
  change Answers (groupUnit s _) _
  rw [groupUnit_runs hruns, hload, hacq]
  exact ⟨u, rfl, hbecomes, hteams'.trans hteams, hmem.trans hmem'⟩

/-! ### Demotion (R147) -/

theorem Group.demote_eq (g : Group) (set m : Mask) : g.demote set m = { g with lanes := (g.demote set m).lanes } := by
  unfold Group.demote
  rfl

theorem Group.lane_demote (g : Group) (set m : Mask) {q : Nat} (hq : q < 32) :
    let run := g.where Lane.runnable
    let same := m &&& run ||| set &&& g.where fun l => l.state == .demoted
    (g.demote set m).lane q =
      if m.getLsbD q && (g.lane q).runnable then { g.lane q with state := .demoted, dem := run &&& ~~~same }
      else if same.getLsbD q then { g.lane q with dem := (g.lane q).dem &&& ~~~same }
      else g.lane q := by
  intro run same
  have hlane : g.lane q = g.lanes[q] := by rw [Group.lane, Vector.getElem?_eq_getElem hq]; rfl
  rw [hlane]
  unfold Group.demote Group.lane
  dsimp only
  rw [Vector.getElem?_eq_getElem hq, Option.getD_some, Vector.getElem_ofFn]
  rfl

@[simp] theorem Lane.setRun_state (l : Lane) (r n x : Nat) : (l.setRun r n x).state = l.state := by
  induction n generalizing l r x with
  | zero => rfl
  | succ n ih => rw [Lane.setRun, ih]; rfl

theorem loaded_state {z : Nat} (hz : z ≤ 6) (d : LDst) (x : Nat) (l : Lane) : (loaded d z x l).state = l.state := by
  have h32 : ∀ y, (d.put32 false y l).state = l.state := fun y => by rw [put32_others]
  have h64 : ∀ y, (d.put64 false y l).state = l.state := fun y => by rw [put64_others]
  obtain rfl | rfl | rfl | rfl | rfl | rfl | rfl : z = 0 ∨ z = 1 ∨ z = 2 ∨ z = 3 ∨ z = 4 ∨ z = 5 ∨ z = 6 := by omega
  case inr.inr.inr.inl => exact h64 _
  case inr.inr.inr.inr.inl => cases d with
    | z => rfl
    | v r => exact Lane.setRun_state ..
  all_goals exact h32 _

theorem Lane.runnable_of_state {l l' : Lane} (h : l'.state = l.state) : l'.runnable = l.runnable := by
  rw [Lane.runnable, h]
  rfl

section
variable {c : Issue} {g x : Group} {p : Nat} {f : Lane → Lane} (hx : ∀ q, q < 32 → x.lane q = c.oneAfter p f q (g.lane q))
  (hf : ∀ l, (f l).state = l.state)
include hx hf

theorem Issue.oneAfter_state {q : Nat} (hq : q < 32) : (x.lane q).state = (g.lane q).state := by
  rw [hx q hq, Issue.oneAfter]
  split
  · rw [c.advance_state, hf]
  · split
    · exact c.advance_state _
    · rfl

/-- The demotion of the lane that took part, in a group whose lanes have moved on. -/
theorem Group.lane_demote_one (hp : p < 32) (hrun : (g.lane p).runnable = true) {q : Nat} (hq : q < 32) :
    (x.demote c.lanes (1#32 <<< p &&& x.where Lane.runnable)).lane q = c.demoted g p q (c.oneAfter p f q (g.lane q)) := by
  have hstate := fun r (hr : r < 32) => Issue.oneAfter_state (x := x) (c := c) hx hf hr
  have hruns : x.where Lane.runnable = g.where Lane.runnable :=
    Group.where_congr fun r hr => Lane.runnable_of_state (hstate r hr)
  have hdemoted : (x.where fun l => l.state == .demoted) = g.where fun l => l.state == .demoted :=
    Group.where_congr fun r hr => by rw [hstate r hr]
  have hself : 1#32 <<< p &&& g.where Lane.runnable = 1#32 <<< p := mask_ext fun r hr => by
    rw [BitVec.getLsbD_and, bit_shift p r hr, Group.where_bit _ _ hr]
    by_cases hrp : r = p
    · subst hrp; simp [hrun]
    · simp [hrp]
  have hq' : (x.lane q).runnable = (g.lane q).runnable := Lane.runnable_of_state (hstate q hq)
  rw [Group.lane_demote _ _ _ hq, hruns, hdemoted, hself, hself, hq', bit_shift p q hq, Issue.demoted, hx q hq]
  by_cases hqp : q = p
  · subst hqp
    simp [hrun]
  · simp [hqp]

end

theorem ldp_runs {s s1 : State} {c : Issue} {g : Group} {gd p pa z : Nat} {d : LDst} {a : LSrc} {m : Addr} (hz : z ≤ 6)
    (hruns : s.Runs c g) (hone : c.One gd g p)
    (h : s.Reaches c g (effective g.gbase (a.r32 (g.lane p)) (m.index.r32 (g.lane p)) (szBytes z)) (szBytes z) .load pa s1) :
    Answers (exec (.ldp d a m z gd) s) fun t =>
      GroupBecomes s t c.gkey g (fun q => c.demoted g p q (c.oneAfter p (loaded d z (s1.num pa (szBytes z))) q (g.lane q))) ∧
      t.teams = s.teams ∧ SameMemory s1 t := by
  obtain ⟨t, hload, hgroups, hteams, hmem⟩ := State.Reaches.loadLanes hruns hone
    (addr := fun l => effective g.gbase (a.r32 l) (m.index.r32 l) (szBytes z)) h false (loadPut d z)
  rw [loadPut_eq hz] at hgroups
  obtain ⟨hp, htaking, hrun⟩ := hone
  have hget : tget t.groups c.gkey = some (g.oneMoved c p (loaded d z (s1.num pa (szBytes z)))) := by
    rw [hgroups]; exact tget_tset_self ..
  have hbecomes : GroupBecomes s (t.modGroup c.gkey fun x => x.demote c.lanes (1#32 <<< p &&& x.where Lane.runnable)) c.gkey g
      fun q => c.demoted g p q (c.oneAfter p (loaded d z (s1.num pa (szBytes z))) q (g.lane q)) := by
    rw [State.modGroup_some hget]
    refine .of_set ?_ ?_ fun q hq => Group.lane_demote_one (fun r hr => Group.lane_oneMoved c g p _ hr) (loaded_state hz d _) hp
      hrun hq
    · rw [State.setGroup_groups, hgroups]; exact tset_tset ..
    · rw [Group.demote_eq, Group.oneMoved_eq]
  obtain ⟨hmodTeams, hmodMem⟩ := State.modGroup_teams_memory t c.gkey
    fun x => x.demote c.lanes (1#32 <<< p &&& x.where Lane.runnable)
  obtain ⟨u, hacq, hbecomes', hteams', hmem'⟩ := acquireAfter_becomes hbecomes m
  change Answers (groupUnit s _) _
  rw [groupUnit_runs hruns]
  dsimp only
  rw [hload]
  dsimp only
  rw [htaking, hacq]
  exact ⟨u, rfl, hbecomes', hteams'.trans (hmodTeams.trans hteams), hmem.trans (hmodMem.trans hmem')⟩

theorem globalLoads : Claims.GlobalLoads := fun d a m z gd s c g p pa s1 hz hruns hone h => by
  rw [← effective_eq] at h
  exact ⟨ldg_runs hz hruns hone h, ldp_runs hz hruns hone h⟩

/-! ### Stores -/

theorem storeData_eq {z : Nat} (hz : z ≤ 4) (d : LSrc) (l : Lane) : storeData d z l = leBytes (szBytes z) (stored d z l) := by
  have h1 : d.wide l 1 = (d.r32 l).toNat := by cases d <;> rfl
  have h2 : d.wide l 2 = (d.r64 l).toNat := by
    cases d with
    | v r =>
      have hlow := (l.reg r).isLt
      simp only [LSrc.wide, LSrc.r64, Lane.run, BitVec.toNat_append]
      rw [← Nat.shiftLeft_add_eq_or_of_lt hlow, Nat.shiftLeft_eq]
      omega
    | _ => rfl
  obtain rfl | rfl | rfl | rfl | rfl : z = 0 ∨ z = 1 ∨ z = 2 ∨ z = 3 ∨ z = 4 := by omega
  case inr.inr.inr.inl => exact congrArg (leBytes 8) h2
  case inr.inr.inr.inr => rfl
  all_goals exact congrArg (leBytes _) h1

theorem szBytes_cells {z : Nat} (hz : z ≤ 4) : 0 < (szBytes z + 31) / 32 := by
  obtain rfl | rfl | rfl | rfl | rfl : z = 0 ∨ z = 1 ∨ z = 2 ∨ z = 3 ∨ z = 4 := by omega
  all_goals decide

theorem releaseBefore_quiet {s : State} {c : Issue} {g : Group} (hruns : s.Runs c g) (hrunning : c.Running g)
    (hquiet : s.quiet c.gkey) (m : Addr) (f : Issue → State → Res) : releaseBefore s c m f = f c s := by
  have hlanes : c.lanes &&& maskOf ((positions c.lanes).filter fun p => s.laneRuns c.gkey p) = c.lanes := by
    have hrun : ∀ p ∈ positions c.lanes, s.laneRuns c.gkey p = true := fun p hp => by
      obtain ⟨hp32, hin⟩ := (mem_positions _ p).1 hp
      rw [State.laneRuns, hruns.2.2]
      exact hrunning p hp32 hin
    rw [List.filter_eq_self.2 hrun]
    refine mask_ext fun q hq => ?_
    rw [BitVec.getLsbD_and, maskOf_bit _ hq]
    simp [mem_positions, hq]
  cases m with
  | plain b => rfl
  | ordered n => simp only [releaseBefore, scopeOf, hquiet.release, hlanes]

/-- The target of the one lane that stores, where its translation leads to memory here. -/
theorem State.storeTargets_one {s s1 : State} {k p pa : Nat} {g : Group} {G : Tab Group} {xs : List (Nat × DWord)} {a : DWord}
    {tagged : Bool} (hrun : (s.withGroups G).laneRuns k p = true)
    (ht : s.translate (coreOf k) (s.asidOf g) a.toNat .store = (.to (.here pa tagged), s1)) :
    (s.withGroups G).storeTargets k g xs [(p, a)] = ([.here p a.toNat pa tagged], s1.withGroups G) := by
  have ht' : (s.withGroups G).translate (coreOf k) ((s.withGroups G).asidOf g) a.toNat .store =
      (.to (.here pa tagged), s1.withGroups G) := by
    rw [State.translate_withGroups, show (s.withGroups G).asidOf g = s.asidOf g from rfl, ht]
  simp only [State.storeTargets, hrun, ht', Bool.not_true, Bool.false_eq_true, if_false]

section
variable {s : State} {g : Group} {pa : Nat} {tagged : Bool} (h : tagged = true → s.tag pa = tagValue)
include h

theorem State.cellsOk_value (size p va : Nat) (ts : List Target) : s.cellsOk g size ts [.here p va pa tagged] = none := by
  cases tagged with
  | false => rfl
  | true => simp only [State.cellsOk, State.storeCell_value (h rfl)]

theorem State.storeAll_value (c : Issue) (size p va : Nat) (data : Lane → List Byte) (ts : List Target) :
    s.storeAll c g size data ts [.here p va pa tagged] =
      (s.storeHere (coreOf c.gkey) pa tagged (data (g.lane p))).finish c p id := by
  cases tagged with
  | false => rfl
  | true => simp only [State.storeAll, State.storeCell_value (h rfl), if_true]; rfl

end

/-- A store unit in which one lane takes part and nothing hinders it. -/
theorem State.Reaches.storeLanes {s s1 : State} {c : Issue} {g : Group} {gd p n x pa : Nat} {addr : Lane → DWord}
    {data : Lane → List Byte} (hruns : s.Runs c g) (hone : c.One gd g p) (hn : 0 < (n + 31) / 32)
    (hdata : data (g.lane p) = leBytes n x) (h : s.Reaches c g (addr (g.lane p)) n .store pa s1) :
    ∃ t, s.storeLanes c g (c.taking gd g) n addr data = .ok t ∧
      t.groups = tset s.groups c.gkey (g.oneMoved c p id) ∧ t.teams = s.teams ∧ MemoryBut s1 t pa n x := by
  obtain ⟨hp, htaking, hrun⟩ := hone
  have hkept := h.work
  obtain ⟨hhigh, halign, hquiet, ⟨tagged, htrans, hvalue⟩, howned, _⟩ := h
  have hskip : tget (s.setGroup c.gkey (g.skipped c p)).groups c.gkey = some (g.skipped c p) := State.tget_setGroup_self ..
  have hquiet' : (s.setGroup c.gkey (g.skipped c p)).quiet c.gkey := hquiet
  have hruns' : (s.withGroups (tset s.groups c.gkey (g.skipped c p))).laneRuns c.gkey p = true :=
    State.laneRuns_skipped hp hrun
  have hfirst : tagged = true → (s1.withGroups (tset s.groups c.gkey (g.skipped c p))).tag pa = tagValue :=
    fun ht => hvalue ht 0 hn
  have hfree : (s1.withGroups (tset s.groups c.gkey (g.skipped c p))).ownsPlace
      ((s1.withGroups (tset s.groups c.gkey (g.skipped c p))).asidOf g) (.here pa tagged) n = false :=
    (State.ownsPlace_withGroups ..).trans howned
  obtain ⟨v, hv⟩ : ∃ v, v = (s1.withGroups (tset s.groups c.gkey (g.skipped c p))).storeHere (coreOf c.gkey) pa tagged
    (leBytes n x) := ⟨_, rfl⟩
  have hwork := SameWork.storeHere (s1.withGroups (tset s.groups c.gkey (g.skipped c p))) (coreOf c.gkey) pa tagged (leBytes n x)
  have hmem := MemoryBut.storeHere (coreOf c.gkey) n x hfirst
  rw [← hv] at hwork hmem
  have hget : tget v.groups c.gkey = some (g.skipped c p) := by rw [hwork.groups]; exact hskip
  have hrun : s.storeLanes c g (c.taking gd g) n addr data = .ok (v.setGroup c.gkey (g.oneMoved c p id)) := by
    rw [State.storeLanes, htaking, addresses_single g hp]
    simp only [badLanes_none hhigh halign, State.skip_one hruns, eachRes, hquiet'.settleLane]
    rw [show s.setGroup c.gkey (g.skipped c p) = s.withGroups (tset s.groups c.gkey (g.skipped c p)) from rfl,
      State.storeTargets_one hruns' htrans]
    simp only [List.any_cons, List.any_nil, Target.place, hfree, Bool.or_false, Bool.false_eq_true, if_false,
      State.cellsOk_value hfirst, State.storeAll_value hfirst, hdata, ← hv, State.finish_one hp hget]
  refine ⟨_, hrun, ?_, hwork.teams.trans hkept.teams, hmem.of_same (.of_eq rfl rfl rfl)⟩
  rw [State.setGroup_groups, hwork.groups]
  exact tset_tset ..

theorem globalStores : Claims.GlobalStores := fun d a m z gd s c g p pa s1 hz hruns hrunning hone h => by
  rw [← effective_eq] at h
  obtain ⟨t, hstore, hgroups, hteams, hmem⟩ := State.Reaches.storeLanes (gd := gd) hruns hone (szBytes_cells hz)
    (addr := fun l => effective g.gbase (a.r32 l) (m.index.r32 l) (szBytes z)) (data := storeData d z)
    (storeData_eq hz d (g.lane p)) h
  change Answers (groupUnit s _) _
  rw [groupUnit_runs hruns, releaseBefore_quiet hruns hrunning h.2.2.1, hstore]
  exact ⟨t, rfl, .oneMoved hgroups, hteams, hmem⟩

end Sys2Proof.Machine

open Sys2Proof Sys2Proof.Machine

/-- Settles O12, by following the one access from its translation to the bytes it reads or writes. -/
theorem globalAccessesMeetTheirBytes : Obligations.GlobalAccessesMeetTheirBytes := ⟨globalLoads, globalStores⟩
end

section
/-! PROOF. Uniform loads and stores of a group and of the cox (O14; R103, R341). -/

namespace Sys2Proof.Machine

/-! ### The access of an issuing set -/

theorem State.Reaches.noBadAddress {s s1 : State} {c : Issue} {g : Group} {va : DWord} {n pa : Nat} {k : Acc}
    (h : s.Reaches c g va n k pa s1) : badAddress n [va] = none := by
  obtain ⟨hhigh, halign, _⟩ := h
  exact badAddress_none hhigh halign

/-- No lane of a group with nothing outstanding holds an access back. -/
theorem State.quiet.settleLanes {s : State} {k : Nat} (h : s.quiet k) (va n : Nat) (ps : List Nat) :
    eachRes (fun p s => s.settleLane k p va n) ps s = .ok s := by
  induction ps with
  | nil => rfl
  | cons p ps ih => simp only [eachRes, h.settleLane, ih]

theorem positions_cons {m : Mask} {p : Nat} (hp : p < 32) (hin : m.getLsbD p = true) : ∃ q qs, positions m = q :: qs :=
  List.exists_cons_of_ne_nil (List.ne_nil_of_mem ((mem_positions m p).2 ⟨hp, hin⟩))

section
variable {s s1 : State} {c : Issue} {g : Group} {va : DWord} {n pa p : Nat} (hp : p < 32) (hin : c.lanes.getLsbD p = true)
include hp hin

theorem State.Reaches.uniformLoad (h : s.Reaches c g va n .load pa s1) :
    ∃ u, s.uniformLoad c g va.toNat n = .ok (some (s1.bytes pa n), u) ∧ SameWork s u ∧ SameMemory s1 u := by
  obtain ⟨q, qs, hpositions⟩ := positions_cons hp hin
  obtain ⟨r, rs, hlist⟩ : ∃ r rs,
      (positions c.lanes).filter (fun p => (g.lane p).reply.isSome) ++ positions c.lanes = r :: rs :=
    List.exists_cons_of_ne_nil (by simp [hpositions])
  obtain ⟨u, hload, hwork, hmem⟩ := h.laneLoad s.groups true r (some c.lanes) fun _ => c.lanes
  have hkept := h.work
  refine ⟨u, ?_, ⟨hwork.groups, hwork.teams.trans hkept.teams, fun n => (hwork.cores n).trans (hkept.cores n)⟩, hmem⟩
  rw [State.uniformLoad, State.uniformRead]
  simp only [hlist]
  rw [show s.withGroups s.groups = s from rfl] at hload
  rw [hload]

theorem State.Reaches.uniformStore (h : s.Reaches c g va n .store pa s1) (hn : 0 < (n + 31) / 32) (x : Nat) :
    ∃ u, s.uniformStore c g va.toNat (leBytes n x) = .ok (u.advance c) ∧ SameWork s u ∧ MemoryBut s1 u pa n x := by
  have hkept := h.work
  obtain ⟨_, _, _, ⟨tagged, htrans, hvalue⟩, howned, _⟩ := h
  obtain ⟨q, qs, hpositions⟩ := positions_cons hp hin
  have hfirst : tagged = true → s1.tag pa = tagValue := fun ht => hvalue ht 0 hn
  have hfree : s1.ownsPlace (s1.asidOf g) (.here pa tagged) n = false := howned
  refine ⟨s1.storeHere (coreOf c.gkey) pa tagged (leBytes n x), ?_, hkept.trans (.storeHere ..), .storeHere _ n x hfirst⟩
  unfold State.uniformStore
  simp only [hpositions, htrans, leBytes_length, hfree, Bool.false_eq_true, if_false]
  cases tagged with
  | false => rfl
  | true => simp only [State.storeCell_value (hfirst rfl), if_true]; rfl

end

/-! ### SLD and SST of a group -/

theorem uniformAddress_eq (a : USrc) (i : BitVec 13) (u : UFile) :
    uniformAddress a i u = BitVec.ofInt 64 ((a.get u).toInt + i.toInt) := add_imm ..

section
variable {s s1 : State} {c : Issue} {g : Group} {pa p : Nat} {a : USrc} {i : BitVec 13} (hruns : s.Runs c g)
  (hk : c.kholds 0 g.u = true) (hp : p < 32) (hin : c.lanes.getLsbD p = true)
include hruns hk hp hin

theorem sld_runs (d : UDst) (h : s.Reaches c g (uniformAddress a i g.u) 8 .load pa s1) :
    Answers (exec (.sld d a i) s) fun t =>
      GroupBecomes s t c.gkey { g with u := d.put false (BitVec.ofNat 64 (s1.num pa 8)) g.u } (c.moved g) ∧
      t.teams = s.teams ∧ SameMemory s1 t := by
  obtain ⟨u, hload, hwork, hmem⟩ := h.uniformLoad hp hin
  have hget : tget u.groups c.gkey = some g := by rw [hwork.groups]; exact hruns.2.2
  change Answers (groupOrCox s _ _) _
  rw [groupOrCox_runs hruns]
  simp only [hk, Bool.not_true, Bool.false_eq_true, if_false, h.noBadAddress, h.2.2.1.settleLanes, hload,
    State.modGroup_some hget, State.setGroup_advance, settle_ok]
  refine ⟨_, rfl, .mapLanes ?_, hwork.teams, hmem.trans (.of_eq rfl rfl rfl)⟩
  rw [State.setGroup_groups, hwork.groups]
  rfl

theorem sst_runs (x : USrc) (h : s.Reaches c g (uniformAddress a i g.u) 8 .store pa s1) :
    Answers (exec (.sst x a i) s) fun t =>
      GroupBecomes s t c.gkey g (c.moved g) ∧ t.teams = s.teams ∧ MemoryBut s1 t pa 8 (x.get g.u).toNat := by
  obtain ⟨u, hstore, hwork, hmem⟩ := h.uniformStore hp hin (by decide) (x.get g.u).toNat
  have hget : tget u.groups c.gkey = some g := by rw [hwork.groups]; exact hruns.2.2
  change Answers (groupOrCox s _ _) _
  rw [groupOrCox_runs hruns]
  simp only [hk, Bool.not_true, Bool.false_eq_true, if_false, h.noBadAddress, h.2.2.1.settleLanes, hstore, settle_ok]
  rw [State.advance, State.modGroup_some hget]
  refine ⟨_, rfl, .mapLanes ?_, hwork.teams, hmem.of_same (.of_eq rfl rfl rfl)⟩
  rw [State.setGroup_groups, hwork.groups]

end

/-! ### SLD and SST of the cox -/

/-- Two changes of a core are one. -/
theorem State.modCore_modCore (s : State) (n : Nat) (f f' : Core → Core) :
    (s.modCore n f).modCore n f' = s.modCore n fun k => f' (f k) := by
  have hcore : (s.modCore n f).core n = f (s.core n) := by rw [State.core_modCore, if_pos rfl]
  rw [State.modCore, hcore]
  unfold State.modCore State.setCore
  dsimp only
  rw [tset_tset]

section
variable {s : State} {c : Issue} {a : USrc} {i : BitVec 13} {va : DWord} (hruns : s.RunsCox c)
  (hk : c.kholds 0 (s.core c.core).cox.u = true) (hva : uniformAddress a i (s.core c.core).cox.u = va)
  (halign : va.toNat % 8 = 0)
  (hmem : va.toNat < 0x10000 ∨ populated va.toNat = true ∧ s.owned 0 0 va.toNat 8 = false)
include hk hmem

/-- No command has still to write the bytes of a cox access. -/
theorem State.coxWaits_free : s.coxWaits c va 0 8 = false := by
  rw [State.coxWaits, hk]
  rcases hmem with hlow | ⟨_, hfree⟩
  · simp [hlow]
  · simp [hfree]

include hruns hva halign

theorem sld_cox (d : UDst) : exec (.sld d a i) s = .next (s.modCore c.core fun n =>
    { n with cox := Cox.advance c { (s.core c.core).cox with
      u := d.put false (BitVec.ofNat 64 (leNat (s.coxRead c.core va.toNat 8))) (s.core c.core).cox.u } }) := by
  have hgood : coxBad va 8 = none := coxBad_good halign (hmem.imp_right And.left)
  change groupOrCox s _ _ = _
  rw [groupOrCox_cox hruns, hva, State.coxWaits_free hk hmem]
  simp only [coxUnit, Bool.false_eq_true, if_false, hk, if_true, hva, hgood]
  rw [State.modCore_modCore]
  rfl

theorem sst_cox (x : USrc) : exec (.sst x a i) s = .next
    ((s.coxWrite c.core va.toNat (leBytes 8 (x.get (s.core c.core).cox.u).toNat)).modCore c.core fun n =>
      { n with cox := n.cox.advance c }) := by
  have hgood : coxBad va 8 = none := coxBad_good halign (hmem.imp_right And.left)
  change groupOrCox s _ _ = _
  rw [groupOrCox_cox hruns, hva, State.coxWaits_free hk hmem]
  simp only [coxUnit, Bool.false_eq_true, if_false, hk, if_true, hva, hgood]

end

/-- What the cox reads: its own memory, or the bytes at their home. -/
theorem leNat_coxRead (s : State) (core a : Nat) : leNat (s.coxRead core a 8) =
    if a < 0x10000 then leNat (mread (s.core core).cox.mem a 8) else s.num a 8 := by
  rw [State.coxRead, apply_ite leNat]
  rfl

/-- What the cox writes in its own memory, or at home. -/
theorem State.coxWrite_keeps (s : State) (core a x : Nat) :
    let u := s.coxWrite core a (leBytes 8 x)
    u.groups = s.groups ∧ u.teams = s.teams ∧
      (a < 0x10000 → SameMemory s u ∧
        (u.core core).cox = { (s.core core).cox with mem := mwrite (s.core core).cox.mem a (leBytes 8 x) }) ∧
      (0x10000 ≤ a → MemoryBut s u a 8 x ∧ (u.core core).cox = (s.core core).cox) := by
  intro u
  by_cases hlow : a < 0x10000
  · have hu : u = s.modCore core fun k => { k with cox := { k.cox with mem := mwrite k.cox.mem a (leBytes 8 x) } } :=
      if_pos hlow
    rw [hu, State.core_modCore, if_pos rfl]
    exact ⟨rfl, rfl, fun _ => ⟨.of_eq rfl rfl rfl, rfl⟩, fun h => absurd hlow (by omega)⟩
  · have hu : u = s.store none a (leBytes 8 x) := if_neg hlow
    obtain ⟨hgroups, hteams, hcoxes⟩ := s.sameAgents_store none a (leBytes 8 x)
    rw [hu]
    exact ⟨hgroups, hteams, fun h => absurd h hlow, fun _ => ⟨s.memoryBut_store none a 8 x, hcoxes core⟩⟩

/-- The cox passes its store. -/
theorem coxStore_passes (s : State) (c : Issue) (a x : Nat) :
    let t := (s.coxWrite c.core a (leBytes 8 x)).modCore c.core fun n => { n with cox := n.cox.advance c }
    t.groups = s.groups ∧ t.teams = s.teams ∧
      (a < 0x10000 → SameMemory s t ∧ (t.core c.core).cox =
        Cox.advance c { (s.core c.core).cox with mem := mwrite (s.core c.core).cox.mem a (leBytes 8 x) }) ∧
      (0x10000 ≤ a → MemoryBut s t a 8 x ∧ (t.core c.core).cox = Cox.advance c (s.core c.core).cox) := by
  obtain ⟨hgroups, hteams, hlow, hhigh⟩ := s.coxWrite_keeps c.core a x
  generalize s.coxWrite c.core a (leBytes 8 x) = u at hgroups hteams hlow hhigh
  dsimp only
  rw [State.core_modCore, if_pos rfl]
  refine ⟨hgroups, hteams, fun h => ?_, fun h => ?_⟩
  · obtain ⟨hmem, hcox⟩ := hlow h
    exact ⟨hmem.trans (.of_eq rfl rfl rfl), congrArg (Cox.advance c) hcox⟩
  · obtain ⟨hmem, hcox⟩ := hhigh h
    exact ⟨hmem.of_same (.of_eq rfl rfl rfl), congrArg (Cox.advance c) hcox⟩

end Sys2Proof.Machine

open Sys2Proof Sys2Proof.Machine

/-- Settles O14: the set's one access by its translation (R103), the cox's by the memory its address names (R341). -/
theorem uniformAccessesMeetTheirBytes : Obligations.UniformAccessesMeetTheirBytes := by
  intro d x a i
  refine ⟨fun s c g p pa s1 hruns hk hp hin _ => ?_, fun s c hruns => ?_⟩
  · intro va
    have hva : uniformAddress a i g.u = va := uniformAddress_eq ..
    rw [← hva]
    exact ⟨sld_runs hruns hk hp hin d, sst_runs hruns hk hp hin x⟩
  · intro k va hk halign hmem
    have hva : uniformAddress a i k.u = va := uniformAddress_eq ..
    refine ⟨?_, _, sst_cox hruns hk hva halign hmem x, coxStore_passes ..⟩
    rw [sld_cox hruns hk hva halign hmem d, leNat_coxRead]
end

section
/-! PROOF. JSEG, CFETCH, CINV and the end of a landing (O22; R108-R113). -/

namespace Sys2Proof.Machine

/-! ### The landing table of a core (R107-R110) -/

section
variable {k k' : Core} (h : k'.work = k.work)
include h

theorem Core.land_of_work : k'.land = k.land := by
  change k'.work.land = k.work.land
  rw [h]

theorem Core.bay_of_work : k'.bay = k.bay := by
  change k'.work.bay = k.work.bay
  rw [h]

theorem Core.equalEntry_of_work (d : SegDesc) : k'.equalEntry d = k.equalEntry d := by
  unfold Core.equalEntry
  rw [Core.land_of_work h]

/-- Where a landing starts is a matter of the landing table alone. -/
theorem Core.startLanding_of_work {tid asid allot : Nat} {d : SegDesc} {cobjs : List (Nat × Nat)} {l : Core}
    (hl : k.startLanding tid asid allot d cobjs = some l) :
    ∃ l', k'.startLanding tid asid allot d cobjs = some l' ∧ l'.land = l.land := by
  have hage : k'.landAge = k.landAge := by
    change k'.work.landAge = k.work.landAge
    rw [h]
  have hsame : (k'.startLanding tid asid allot d cobjs).map Core.land =
      (k.startLanding tid asid allot d cobjs).map Core.land := by
    unfold Core.startLanding
    dsimp only
    rw [Core.land_of_work h, hage, apply_ite (Option.map Core.land), apply_ite (Option.map Core.land)]
    rfl
  rw [hl] at hsame
  exact Option.map_eq_some_iff.1 hsame

end

/-! ### Units that read a segment descriptor (R108) -/

/-- What a unit leaves once it has read its descriptor: groups and teams as before, the cores but for copies and
translations, and the memory after the translation. -/
structure SegmentRead (s s1 u : State) : Prop where
  work : SameWork s u
  memory : SameMemory s1 u

section
variable {s s1 : State} {c : Issue} {g : Group} {tm : Team} {p pa : Nat} {a : DWord} {d : SegDesc}
  (hfirst : c.First p) (hread : s.Reaches c g a 16 .load pa s1) (hparse : SegDesc.parse (s1.num pa 16) = some d)
  (hlow : tm.winFirst ≤ d.bayline) (hhigh : d.bayline + d.lines ≤ tm.winFirst + tm.winLines)
include hfirst hread hparse hlow hhigh

theorem State.Reaches.readSegment : ∃ u, s.readSegment c g tm a = .ok (some d, u) ∧ SegmentRead s s1 u := by
  obtain ⟨hp, hin, _⟩ := hfirst
  obtain ⟨u, hload, hwork, hmem⟩ := hread.uniformLoad hp hin
  have hwindow : tm.inWindow d = true := by
    rw [Team.inWindow, decide_eq_true hlow, decide_eq_true hhigh]
    rfl
  refine ⟨u, ?_, hwork, hmem⟩
  rw [State.num] at hparse
  simp only [State.readSegment, hread.noBadAddress, hload, hparse, hwindow, if_true]

end

section
variable {s s1 u : State} {c : Issue} {g : Group} (h : SegmentRead s s1 u) (hget : tget s.groups c.gkey = some g)
include h hget

theorem SegmentRead.group : tget u.groups c.gkey = some g := by rw [h.work.groups]; exact hget

/-- The group is changed as a function says, its landing table becoming that of another core. -/
theorem SegmentRead.setCore {F : Group → Group} {h' : Group} {f : Nat → Lane} (l : Core)
    (hF : F g = { h' with lanes := (F g).lanes }) (hlanes : ∀ q, q < 32 → (F g).lane q = f q) :
    let t := (u.setCore (coreOf c.gkey) l).modGroup c.gkey F
    GroupBecomes s t c.gkey h' f ∧ (t.core (coreOf c.gkey)).land = l.land ∧ t.teams = s.teams ∧ SameMemory s1 t := by
  have hget' : tget (u.setCore (coreOf c.gkey) l).groups c.gkey = some g := h.group hget
  have ht : (u.setCore (coreOf c.gkey) l).modGroup c.gkey F = (u.setCore (coreOf c.gkey) l).setGroup c.gkey (F g) :=
    State.modGroup_some hget' F
  dsimp only
  rw [ht]
  refine ⟨.of_set ?_ hF hlanes, ?_, h.work.teams, h.memory.trans (.of_eq rfl rfl rfl)⟩
  · rw [State.setGroup_groups, State.setCore_groups, h.work.groups]
  · change ((u.setCore (coreOf c.gkey) l).core (coreOf c.gkey)).land = l.land
    rw [State.core_setCore, if_pos rfl]

/-- The group alone is changed. -/
theorem SegmentRead.modGroup {F : Group → Group} {h' : Group} {f : Nat → Lane} (hF : F g = { h' with lanes := (F g).lanes })
    (hlanes : ∀ q, q < 32 → (F g).lane q = f q) :
    GroupBecomes s (u.modGroup c.gkey F) c.gkey h' f ∧ (u.modGroup c.gkey F).teams = s.teams ∧
      SameMemory s1 (u.modGroup c.gkey F) := by
  rw [State.modGroup_some (h.group hget)]
  refine ⟨.of_set ?_ hF hlanes, h.work.teams, h.memory.trans (.of_eq rfl rfl rfl)⟩
  rw [State.setGroup_groups, h.work.groups]

end

/-! ### JSEG and CFETCH (R110, R111) -/

section
variable {s s1 : State} {c : Issue} {g : Group} {tm : Team} {p pa : Nat} {a b : USrc} {d : SegDesc} (hruns : s.Runs c g)
  (hk : c.kholds 0 g.u = true) (hteam : tget s.teams g.tid = some tm) (hfirst : c.First p)
  (hread : s.Reaches c g (a.get g.u) 16 .load pa s1) (hparse : SegDesc.parse (s1.num pa 16) = some d)
  (hlow : tm.winFirst ≤ d.bayline) (hhigh : d.bayline + d.lines ≤ tm.winFirst + tm.winLines)
include hruns hk hteam hfirst hread hparse hlow hhigh

/-- A JSEG that held no group before it and has a good target goes on with its descriptor. -/
theorem jseg_reads (hhold : g.hold = none) (hzero : b.get g.u >>> 54 = 0) (halign : (b.get g.u).toNat % 4 = 0)
    (hfrom : d.base ≤ (b.get g.u).toNat) (hto : (b.get g.u).toNat < d.base + 256 * d.lines) :
    ∃ u, SegmentRead s s1 u ∧ exec (.jseg a b) s = .next (u.jsegWait c g tm d (b.get g.u)) := by
  obtain ⟨u, hsegment, hkept⟩ := hread.readSegment hfirst hparse hlow hhigh
  have hcovers : d.covers (b.get g.u).toNat = true := by
    rw [SegDesc.covers, decide_eq_true hfrom, decide_eq_true hto]
    rfl
  refine ⟨u, hkept, ?_⟩
  change guardedUnit 0 s _ = _
  rw [guardedUnit_true hruns hk]
  simp only [hteam, hhold, hsegment, hzero, halign, hcovers, bne_self_eq_false, Bool.not_true, Bool.false_eq_true, if_false,
    settle_ok]

theorem cfetch_reads (hzero : b.get g.u >>> 54 = 0) (halign : (b.get g.u).toNat % 16 = 0)
    (hentry : (s.core (coreOf c.gkey)).equalEntry d = none) {k' : Core}
    (hstart : (s.core (coreOf c.gkey)).startLanding g.tid tm.desc.asid tm.allot d
      (if b.get g.u = 0 then [] else [(tm.desc.asid, (b.get g.u).toNat)]) = some k') :
    Answers (exec (.cfetch a b) s) fun t =>
      GroupBecomes s t c.gkey g (c.moved g) ∧ (t.core (coreOf c.gkey)).land = k'.land ∧ t.teams = s.teams ∧
        SameMemory s1 t := by
  obtain ⟨u, hsegment, hkept⟩ := hread.readSegment hfirst hparse hlow hhigh
  have hwork := hkept.work.cores (coreOf c.gkey)
  obtain ⟨l, hl, hland⟩ := Core.startLanding_of_work hwork hstart
  have hrun : exec (.cfetch a b) s = .next ((u.setCore (coreOf c.gkey) l).advance c) := by
    change guardedUnit 0 s _ = _
    rw [guardedUnit_true hruns hk]
    simp only [hteam, badAddress_none hzero halign, hsegment, Core.equalEntry_of_work hwork, hentry, hl, settle_ok]
  rw [← hland]
  exact ⟨_, hrun, hkept.setCore hruns.2.2 (F := fun g => g.mapLanes c.lanes c.advance) l rfl fun q hq =>
    Group.lane_mapLanes g _ _ hq⟩

end

/-- The group after its JSEG: the issuing set at its target, and nothing held. -/
def Group.jumped (c : Issue) (target : DWord) (g : Group) : Group := { g.jump c.lanes target with hold := none }

theorem Group.jumped_eq {g : Group} (h : g.hold = none) (c : Issue) (target : DWord) :
    g.jumped c target = { g with lanes := (g.jumped c target).lanes } := by
  unfold Group.jumped Group.jump Group.mapLanes
  rw [← h]

theorem Group.lane_jumped (g : Group) (c : Issue) (target : DWord) {q : Nat} (hq : q < 32) :
    (g.jumped c target).lane q = if c.lanes.getLsbD q then { g.lane q with vpc := target, rep := 0 } else g.lane q := by
  have hlanes : (g.jumped c target).lanes = (g.jump c.lanes target).lanes := rfl
  rw [Group.lane_of_lanes hlanes, Group.jump, Group.lane_mapLanes _ _ _ hq]

section
variable {s s1 u : State} {c : Issue} {g : Group} {tm : Team} {d : SegDesc} {target : DWord} (h : SegmentRead s s1 u)
  (hget : tget s.groups c.gkey = some g)
include h hget

theorem SegmentRead.jseg_landed (hhold : g.hold = none) {e : LandEntry} (he : (s.core (coreOf c.gkey)).equalEntry d = some e)
    (hlanded : e.state = .landed) :
    let t := u.jsegWait c g tm d target
    GroupBecomes s t c.gkey g (fun q => if c.lanes.getLsbD q then { g.lane q with vpc := target, rep := 0 } else g.lane q) ∧
      t.teams = s.teams ∧ SameMemory s1 t := by
  have hwait : u.jsegWait c g tm d target = u.modGroup c.gkey (Group.jumped c target) := by
    rw [State.jsegWait, Core.equalEntry_of_work (h.work.cores _), he]
    simp only [hlanded, if_true]
    rfl
  rw [hwait]
  exact h.modGroup hget (Group.jumped_eq hhold ..) fun q hq => g.lane_jumped c target hq

theorem SegmentRead.jseg_starts (he : (s.core (coreOf c.gkey)).equalEntry d = none) {k' : Core}
    (hstart : (s.core (coreOf c.gkey)).startLanding g.tid tm.desc.asid tm.allot d [] = some k') :
    let t := u.jsegWait c g tm d target
    GroupBecomes s t c.gkey { g with hold := some (.jseg c.addr c.lanes target d.lines d.bayline d.base) } g.lane ∧
      (t.core (coreOf c.gkey)).land = k'.land ∧ t.teams = s.teams ∧ SameMemory s1 t := by
  obtain ⟨l, hl, hland⟩ := Core.startLanding_of_work (h.work.cores (coreOf c.gkey)) hstart
  have hwait : u.jsegWait c g tm d target = (u.setCore (coreOf c.gkey) l).modGroup c.gkey fun g =>
      { g with hold := some (.jseg c.addr c.lanes target d.lines d.bayline d.base) } := by
    rw [State.jsegWait, Core.equalEntry_of_work (h.work.cores _), he]
    simp only [hl]
  rw [hwait, ← hland]
  exact h.setCore hget (F := fun g => { g with hold := some (.jseg c.addr c.lanes target d.lines d.bayline d.base) }) l rfl
    fun _ _ => rfl

end

theorem codeLanding : Claims.CodeLanding := by
  intro a b s c g tm p pa s1 d hruns hk hhold hteam hfirst hread hparse hlow hhigh k target
  refine ⟨fun hzero halign hfrom hto => ?_, fun k' hzero halign hentry hstart =>
    cfetch_reads hruns hk hteam hfirst hread hparse hlow hhigh hzero halign hentry hstart⟩
  obtain ⟨u, hkept, hrun⟩ := jseg_reads hruns hk hteam hfirst hread hparse hlow hhigh hhold hzero halign hfrom hto
  exact ⟨fun e he hlanded => ⟨_, hrun, hkept.jseg_landed hruns.2.2 hhold he hlanded⟩,
    fun k' he hstart => ⟨_, hrun, hkept.jseg_starts hruns.2.2 he hstart⟩⟩

/-! ### CINV (R112, R113) -/

/-- The entries that a CINV of a team meets up to an address. -/
theorem cinvHits_upTo (tid : Nat) (tm : Team) (lo hi : Nat) (e : LandEntry) : cinvHits tid tm lo (hi - lo) e =
    ((e.tid == tid || (e.bayline < tm.winFirst + tm.winLines && tm.winFirst < e.bayline + e.lines)) &&
      (lo < hi && (e.base < hi && lo < e.base + 256 * e.lines))) := by
  have hsome : (hi - lo != 0) = decide (lo < hi) := by rw [Bool.eq_iff_iff, bne_iff_ne, decide_eq_true_iff]; omega
  simp only [cinvHits, overlap, hsome, Bool.and_assoc]
  by_cases h : lo < hi
  · rw [Nat.add_sub_of_le h.le]
  · simp only [h, decide_false, Bool.false_and]

theorem cinvHits_eq (tid : Nat) (tm : Team) (a b : DWord) :
    cinvHits tid tm (cinvRange a b).1 (cinvRange a b).2 = cinvNames tid tm a b :=
  funext fun e => cinvHits_upTo tid tm a.toNat (min (a.toNat + b.toNat) (2 ^ 54)) e

/-- What an invalidation leaves: entries it does not name, and those still LANDING, marked (R113). -/
theorem invalidate_eq (f : LandEntry → Bool) (es : List LandEntry) : invalidate f es =
    (es.filter fun e => !f e || e.state == .landing).map fun e => if f e then { e with dead := true } else e := by
  induction es with
  | nil => rfl
  | cons e es ih =>
    rw [invalidate, ih]
    cases hf : f e with
    | false => simp [hf]
    | true => cases hs : e.state <;> simp [hf, hs]

/-- Where no named entry is LANDING, the named ones are gone. -/
theorem invalidate_landed {f : LandEntry → Bool} {es : List LandEntry} (h : ∀ e ∈ es, f e = true → e.state = .landed) :
    invalidate f es = es.filter fun e => !f e := by
  induction es with
  | nil => rfl
  | cons e es ih =>
    obtain ⟨hhead, htail⟩ := List.forall_mem_cons.1 h
    rw [invalidate, ih htail]
    cases hf : f e with
    | false => simp [hf]
    | true => simp [hf, hhead hf]

/-- A group moves on after its core changed. -/
theorem State.modCore_advance {s : State} {c : Issue} {g : Group} (hruns : s.Runs c g) (F : Core → Core) :
    let t := (s.modCore (coreOf c.gkey) F).advance c
    GroupBecomes s t c.gkey g (c.moved g) ∧ t.teams = s.teams ∧ SameMemory s t ∧
      t.core (coreOf c.gkey) = F (s.core (coreOf c.gkey)) := by
  have hget : tget (s.modCore (coreOf c.gkey) F).groups c.gkey = some g := hruns.2.2
  dsimp only
  rw [State.advance, State.modGroup_some hget]
  refine ⟨.mapLanes rfl, rfl, .of_eq rfl rfl rfl, ?_⟩
  change (s.modCore (coreOf c.gkey) F).core (coreOf c.gkey) = _
  rw [State.core_modCore, if_pos rfl]

section
variable {s : State} {c : Issue} {g : Group} {tm : Team} (hruns : s.Runs c g) (hk : c.kholds 0 g.u = true)
  (hteam : tget s.teams g.tid = some tm) (a b : USrc)
include hruns hk hteam

theorem cinv_runs : Answers (exec (.cinv a b) s) fun t =>
    GroupBecomes s t c.gkey g (c.moved g) ∧ t.teams = s.teams ∧ SameMemory s t ∧
      (t.core (coreOf c.gkey)).land =
        ((s.core (coreOf c.gkey)).land.filter fun e => !cinvNames g.tid tm (a.get g.u) (b.get g.u) e || e.state == .landing).map
          fun e => if cinvNames g.tid tm (a.get g.u) (b.get g.u) e then { e with dead := true } else e := by
  obtain ⟨hgroup, hteams, hmem, hcore⟩ := State.modCore_advance hruns fun k =>
    { k with land := invalidate (cinvNames g.tid tm (a.get g.u) (b.get g.u)) k.land }
  have hrun : exec (.cinv a b) s = .next ((s.modCore (coreOf c.gkey) fun k =>
      { k with land := invalidate (cinvNames g.tid tm (a.get g.u) (b.get g.u)) k.land }).advance c) := by
    change guardedUnit 0 s _ = _
    rw [guardedUnit_true hruns hk]
    simp only [hteam, cinvHits_eq, settle_ok]
  refine ⟨_, hrun, hgroup, hteams, hmem, ?_⟩
  rw [hcore]
  exact invalidate_eq ..

end

/-! ### CINV.sync -/

/-- A core after a CINV.sync has invalidated. -/
def Core.synced (k : Core) (gkey : Nat) (names : LandEntry → Bool) (lo n : Nat) : Core :=
  ({ k with land := invalidate names k.land }).dropLoops gkey lo n

theorem Core.dropLoops_invalidate (k : Core) (gkey : Nat) (names : LandEntry → Bool) (lo n : Nat) :
    ({ k with land := invalidate names k.land }).dropLoops gkey lo n = k.synced gkey names lo n := rfl

/-- Where no loop buffer of another group meets a range, none is left that does. -/
theorem Core.synced_loops {k : Core} {gkey lo n : Nat} (names : LandEntry → Bool)
    (h : ∀ x ∈ k.seats.toList, ∀ y, x.loop = some y → y.gkey ≠ gkey → y.meets lo n = false) (i : Nat) :
    ((((k.synced gkey names lo n).seats[i]?.bind (·.loop)).map (·.meets lo n)).getD false) = false := by
  by_cases hi : i < 4
  · have hmem : k.seats[i] ∈ k.seats.toList := by simp
    rw [Vector.getElem?_eq_getElem hi]
    unfold Core.synced Core.dropLoops
    simp only [Vector.getElem_ofFn, Option.bind_some]
    cases hloop : k.seats[i].loop with
    | none => simp [hloop]
    | some y =>
      dsimp only
      cases hmeets : y.meets lo n with
      | false => simp [hloop, hmeets]
      | true =>
        have hown : y.gkey = gkey := by
          by_contra hne
          exact absurd hmeets (by rw [h _ hmem y hloop hne]; decide)
        simp [hown]
  · rw [Vector.getElem?_eq_none (by omega)]
    rfl

theorem LoopBuf.meets_apart {y : LoopBuf} {lo n : Nat} (h : y.base + 4 * y.words.length ≤ lo ∨ lo + n ≤ y.base ∨ n = 0) :
    y.meets lo n = false := by
  rw [← Bool.not_eq_true, LoopBuf.meets, overlap, Bool.and_eq_true, Bool.and_eq_true, bne_iff_ne, decide_eq_true_iff,
    decide_eq_true_iff]
  omega

theorem LoopBuf.meets_range {y : LoopBuf} {a b : DWord} (h : y.base + 4 * y.words.length ≤ a.toNat ∨
    min (a.toNat + b.toNat) (2 ^ 54) ≤ y.base) : y.meets (cinvRange a b).1 (cinvRange a b).2 = false := by
  have hlo : (cinvRange a b).1 = a.toNat := rfl
  have hn : (cinvRange a b).2 = min (a.toNat + b.toNat) (2 ^ 54) - a.toNat := rfl
  exact LoopBuf.meets_apart (by omega)

section
variable {s : State} {c : Issue} {g : Group} {tm : Team} (hruns : s.Runs c g) (hk : c.kholds 0 g.u = true)
  (hteam : tget s.teams g.tid = some tm) (hhold : g.hold = none) (a b : USrc)
include hruns hk hteam hhold

/-- A CINV.sync that finds nothing to wait for moves on. -/
theorem cinvSync_next {names : LandEntry → Bool} {lo n : Nat} (hrange : cinvRange (a.get g.u) (b.get g.u) = (lo, n))
    (hnames : cinvHits g.tid tm lo n = names)
    (hdead : (((s.core (coreOf c.gkey)).synced c.gkey names lo n).land.any fun e => e.dead && names e) = false)
    (hloops : ∀ i : Nat, (((((s.core (coreOf c.gkey)).synced c.gkey names lo n).seats[i]?.bind (·.loop)).map (·.meets lo n)).getD
      false) = false) :
    exec (.cinvSync a b) s = .next ((s.modCore (coreOf c.gkey) fun k => k.synced c.gkey names lo n).advance c) := by
  have hnone : ((List.range 4).any fun _ => false) = false := rfl
  have hget : tget (s.modCore (coreOf c.gkey) fun k => k.synced c.gkey names lo n).groups c.gkey = some g := hruns.2.2
  have hunheld : { g with hold := none } = g := by rw [← hhold]
  change guardedUnit 0 s _ = _
  rw [guardedUnit_true hruns hk]
  simp only [hteam, hhold, hrange, hnames, reduceCtorEq, if_false, State.core_modCore, if_true, Core.dropLoops_invalidate,
    hdead, hloops, hnone, Bool.or_false, Bool.false_and, Bool.false_eq_true, settle_ok, State.modGroup_some hget, hunheld]
  rw [State.setGroup_advance, State.advance, State.modGroup_some hget]

theorem cinvSync_runs
    (hlanded : ∀ e ∈ (s.core (coreOf c.gkey)).land, cinvNames g.tid tm (a.get g.u) (b.get g.u) e = true → e.state = .landed)
    (hloops : ∀ x ∈ (s.core (coreOf c.gkey)).seats.toList, ∀ y, x.loop = some y → y.gkey ≠ c.gkey →
      y.base + 4 * y.words.length ≤ (a.get g.u).toNat ∨ min ((a.get g.u).toNat + (b.get g.u).toNat) (2 ^ 54) ≤ y.base) :
    Answers (exec (.cinvSync a b) s) fun t =>
      GroupBecomes s t c.gkey g (c.moved g) ∧ t.teams = s.teams ∧ SameMemory s t ∧
        (t.core (coreOf c.gkey)).land =
          (s.core (coreOf c.gkey)).land.filter fun e => !cinvNames g.tid tm (a.get g.u) (b.get g.u) e := by
  have hland := invalidate_landed hlanded
  have hseats := Core.synced_loops (cinvNames g.tid tm (a.get g.u) (b.get g.u)) fun x hx y hy hne =>
    LoopBuf.meets_range (hloops x hx y hy hne)
  have hdead : ((invalidate (cinvNames g.tid tm (a.get g.u) (b.get g.u)) (s.core (coreOf c.gkey)).land).any fun e =>
      e.dead && cinvNames g.tid tm (a.get g.u) (b.get g.u) e) = false := by
    rw [hland]
    refine List.any_eq_false.2 fun e he => ?_
    have hnot := (List.mem_filter.1 he).2
    rw [Bool.not_eq_true'] at hnot
    rw [hnot, Bool.and_false]
    decide
  have hrun := cinvSync_next hruns hk hteam hhold a b rfl (cinvHits_eq ..) hdead hseats
  obtain ⟨hgroup, hteams, hmem, hcore⟩ := State.modCore_advance hruns fun k =>
    k.synced c.gkey (cinvNames g.tid tm (a.get g.u) (b.get g.u)) (cinvRange (a.get g.u) (b.get g.u)).1
      (cinvRange (a.get g.u) (b.get g.u)).2
  exact ⟨_, hrun, hgroup, hteams, hmem, (congrArg Core.land hcore).trans hland⟩

end

theorem codeInvalidation : Claims.CodeInvalidation := fun a b _ _ _ _ hruns hk hteam =>
  ⟨cinv_runs hruns hk hteam a b, fun hhold hlanded hloops => cinvSync_runs hruns hk hteam hhold a b hlanded hloops⟩

/-! ### The end of a landing (R109, R113) -/

/-- Reading a segment changes no group and no team, and of the cores only what they keep of memory. -/
theorem SameWork.segmentBytes {core asid : Nat} : ∀ {n va : Nat} {s s1 : State} {bs : List Byte},
    s.segmentBytes core asid va n = .ok (bs, s1) → SameWork s s1 := by
  intro n
  induction n with
  | zero =>
    intro va s s1 bs h
    rw [State.segmentBytes] at h
    cases h
    exact .refl s
  | succ n ih =>
    intro va s s1 bs h
    have hkept := SameWork.translate s core asid va .land
    rw [State.segmentBytes] at h
    generalize s.translate core asid va .land = x at h hkept
    obtain ⟨(⟨pa, tagged⟩ | ⟨dev, pa⟩) | f, u⟩ := x
    · dsimp only at h
      split at h
      · cases h
      · split at h
        · cases h
        · split at h
          · cases h
          · next hsegment =>
            cases h
            exact hkept.trans (ih hsegment)
    · dsimp only at h
      split at h
      · split at h
        · cases h
        · next hsegment =>
          cases h
          exact hkept.trans ((SameWork.modDie ..).trans (ih hsegment))
      · cases h
    · cases h

theorem landingEnds : Claims.LandingEnds := by
  intro s core slot e bs s1 he hstate hobjs hbytes
  have hkept := SameWork.segmentBytes hbytes
  have hwork := hkept.cores core
  have hcopied : (e.state != LandState.landing) = false := by rw [hstate]; rfl
  have hrun : exec (.landingComplete core slot) s = .next ((s1.modCore core fun k =>
      { k with land := k.land.filter fun x => x.age != e.age }).modCore core fun k =>
        { k with
          bay := mwrite k.bay (256 * e.bayline) bs
          land := k.land ++ (if e.dead then [] else [{ e with state := .landed, cobjs := [], held := false }]) }) := by
    change execLandingComplete core slot s = _
    unfold execLandingComplete
    simp only [he, hcopied, hbytes, hobjs, State.landObjects, Bool.false_eq_true, if_false]
  refine ⟨_, hrun, hkept.groups, hkept.teams, .of_eq rfl rfl rfl, ?_, fun i => ?_⟩
  · rw [State.modCore_modCore, State.core_modCore, if_pos rfl, hobjs]
    exact congrArg (fun es : List LandEntry => es.filter _ ++ _) (Core.land_of_work hwork)
  · rw [State.modCore_modCore, State.core_modCore, if_pos rfl]
    dsimp only
    rw [mrd_mwrite, Core.bay_of_work hwork]

end Sys2Proof.Machine

open Sys2Proof Sys2Proof.Machine

/-- Settles O22: a landing starts, is dropped and ends by the landing table alone, which the read of a descriptor and the
copy of a segment leave as it is (R107-R113). -/
theorem codeLandsAndIsInvalidated : Obligations.CodeLandsAndIsInvalidated := ⟨codeLanding, codeInvalidation, landingEnds⟩
end

section
/-! SUPPORT. Values of encodings by their fields, totalOrder, comparisons and fields of a word (R4, R17, R19, R119, R120). -/

namespace Sys2Proof.Machine

/-! ### Fields of a number -/

theorem bits_low (x n : Nat) : bits x n 0 = x % 2 ^ (n + 1) := by simp [bits]

/-- A field of one bit is that bit. -/
theorem bits_single_beq {w : Nat} (x : BitVec w) (k : Nat) : (bits x.toNat k k == 1) = x.getLsbD k := by
  rw [bits, Nat.add_sub_cancel_left, BitVec.getLsbD, Nat.testBit_eq_decide_div_mod_eq]
  rfl

/-! ### Values (R17) -/

/-- The sign, exponent and fraction fields of an FP32 encoding give its value. -/
theorem fp32_value (x : Nat) : fp32.value x =
    if x / 2 ^ 23 % 2 ^ 8 = 255 then if x % 2 ^ 23 = 0 then .inf (x / 2 ^ 31 % 2 == 1) else .nan
    else if x / 2 ^ 23 % 2 ^ 8 = 0 then .fin (x / 2 ^ 31 % 2 == 1) (x % 2 ^ 23) (-149)
    else .fin (x / 2 ^ 31 % 2 == 1) (2 ^ 23 + x % 2 ^ 23) (-149 + (x / 2 ^ 23 % 2 ^ 8 - 1 : Nat)) := by
  have hexp : x % 2 ^ 31 / 2 ^ 23 = x / 2 ^ 23 % 2 ^ 8 := by omega
  have hfrac : x % 2 ^ 31 % 2 ^ 23 = x % 2 ^ 23 := by omega
  have hunfold : fp32.value x =
      if some 0x7F800000 = some (x % 2 ^ 31) then .inf (x / 2 ^ 31 % 2 == 1)
      else if x % 2 ^ 31 > 0x7F7FFFFF then .nan
      else if x % 2 ^ 31 / 2 ^ 23 = 0 then .fin (x / 2 ^ 31 % 2 == 1) (x % 2 ^ 31 % 2 ^ 23) (-149)
      else .fin (x / 2 ^ 31 % 2 == 1) (2 ^ 23 + x % 2 ^ 31 % 2 ^ 23) (-149 + (x % 2 ^ 31 / 2 ^ 23 - 1 : Nat)) := rfl
  rw [hunfold, hexp, hfrac]
  by_cases he : x / 2 ^ 23 % 2 ^ 8 = 255
  · rw [if_pos he, if_pos (by omega : x % 2 ^ 31 > 0x7F7FFFFF)]
    exact if_congr (Option.some_inj.trans (by omega)) rfl rfl
  · rw [if_neg he, if_neg fun h => he (by have := Option.some_inj.mp h; omega), if_neg (by omega)]

/-- An encoding's value rests on the bits of the format alone. -/
theorem FFmt.value_mod (f : FFmt) (b : Nat) : f.value (b % 2 ^ f.width) = f.value b := by
  have hcode : b % 2 ^ f.width % 2 ^ (f.exp + f.frac) = b % 2 ^ (f.exp + f.frac) :=
    Nat.mod_mod_of_dvd b (Nat.pow_dvd_pow 2 (Nat.le_succ _))
  have hsign : b % 2 ^ f.width / 2 ^ (f.exp + f.frac) % 2 = b / 2 ^ (f.exp + f.frac) % 2 := by
    rw [FFmt.width, Nat.pow_succ, Nat.mod_mul_right_div_self, Nat.mod_mod]
  rw [FFmt.value, FFmt.value, hcode, hsign]

/-! ### Comparisons (R120) -/

theorem FVal.eq?_eq (a b : FVal) : a.eq? b = (a.lt? b == some false && b.lt? a == some false) := by
  unfold FVal.eq?
  rcases a.lt? b with _ | _ | _ <;> rcases b.lt? a with _ | _ | _ <;> rfl

/-- The class of an encoding, by its fields. -/
theorem classOf_eq {x : Nat} (hx : x < 2 ^ 32) : classOf x =
    if x / 2 ^ 23 % 2 ^ 8 = 255 then
      if x % 2 ^ 23 = 0 then if 2 ^ 31 ≤ x then 2 else 9 else if x % 2 ^ 23 < 2 ^ 22 then 0 else 1
    else if x / 2 ^ 23 % 2 ^ 8 = 0 then
      if x % 2 ^ 23 = 0 then if 2 ^ 31 ≤ x then 5 else 6 else if 2 ^ 31 ≤ x then 4 else 7
    else if 2 ^ 31 ≤ x then 3 else 8 := by
  have hneg : (x / 2 ^ 31 % 2 == 1) = decide (2 ^ 31 ≤ x) := by rw [beq_eq_decide, decide_eq_decide]; omega
  have hquiet : bits x 22 22 = 0 ↔ x % 2 ^ 23 < 2 ^ 22 := by unfold bits; omega
  unfold classOf
  rw [show bits x 31 31 = x / 2 ^ 31 % 2 from rfl, show bits x 30 23 = x / 2 ^ 23 % 2 ^ 8 from rfl, fp32_value, hneg]
  generalize x / 2 ^ 23 % 2 ^ 8 = e, x % 2 ^ 23 = m at *
  by_cases he : e = 255
  · by_cases hm : m = 0
    · simp [he, hm]
    · simp [he, hm, hquiet]
  · by_cases hz : e = 0
    · simp [hz]
    · simp [he, hz]

/-! ### totalOrder (R19) -/

theorem orderKey_mod (w b : Nat) (hw : 0 < w) : orderKey w (b % 2 ^ w) = orderKey w b := by
  obtain ⟨v, rfl⟩ := Nat.exists_eq_succ_of_ne_zero (Nat.pos_iff_ne_zero.mp hw)
  rw [orderKey, orderKey, Nat.mod_mod, Nat.succ_sub_one, Nat.pow_succ, Nat.mod_mul_right_div_self, Nat.mod_mod]

theorem orderKey_inj {x y : Nat} (hx : x < 2 ^ 32) (hy : y < 2 ^ 32) (h : orderKey 32 x = orderKey 32 y) : x = y := by
  unfold orderKey at h
  split at h <;> split at h <;> omega

/-- totalOrder of two distinct encodings puts their keys in strict order. -/
theorem totalOrder_ne {x y : Nat} (hx : x < 2 ^ 32) (hy : y < 2 ^ 32) :
    (totalOrder 32 x y && x != y) = decide (orderKey 32 x < orderKey 32 y) := by
  have hne : x ≠ y ↔ orderKey 32 x ≠ orderKey 32 y :=
    not_congr ⟨congrArg _, orderKey_inj hx hy⟩
  rw [Bool.eq_iff_iff, Bool.and_eq_true, bne_iff_ne, hne, totalOrder, decide_eq_true_iff, decide_eq_true_iff]
  omega

/-- The smaller or larger of two encodings, as words: a NaN gives way, and otherwise totalOrder decides (R119). -/
theorem FFmt.ofNat_minMax (f : FFmt) (max : Bool) (x y : BitVec f.width) : BitVec.ofNat f.width (f.minMax max x.toNat y.toNat) =
    match f.value x.toNat, f.value y.toNat with
    | .nan, .nan => BitVec.ofNat f.width f.nan
    | .nan, _ => y
    | _, .nan => x
    | _, _ => if orderKey f.width x.toNat ≤ orderKey f.width y.toNat then cond max y x else cond max x y := by
  have hpick : BitVec.ofNat f.width (if max then orderMax f.width x.toNat y.toNat else orderMin f.width x.toNat y.toNat) =
      if orderKey f.width x.toNat ≤ orderKey f.width y.toNat then cond max y x else cond max x y := by
    unfold orderMax orderMin totalOrder
    cases max <;> by_cases h : orderKey f.width x.toNat ≤ orderKey f.width y.toNat <;> simp [h]
  unfold FFmt.minMax
  cases f.value x.toNat with
  | nan => cases f.value y.toNat <;> simp
  | inf _ => cases f.value y.toNat <;> simp [hpick]
  | fin _ _ _ => cases f.value y.toNat <;> simp [hpick]

/-! ### Products and sums -/

theorem FVal.neg_mul (a b : FVal) : a.neg.mul b = (a.mul b).neg := by
  cases a with
  | nan => rfl
  | inf s =>
    cases b with
    | nan => rfl
    | inf t => simp [FVal.neg, FVal.mul]
    | fin t n f => by_cases h : n = 0 <;> simp [FVal.neg, FVal.mul, h]
  | fin s m e =>
    cases b with
    | nan => rfl
    | inf t => by_cases h : m = 0 <;> simp [FVal.neg, FVal.mul, h]
    | fin t n f => simp [FVal.neg, FVal.mul]

end Sys2Proof.Machine
end

section
/-! PROOF. FP32 arithmetic and comparisons (O3). -/

namespace Sys2Proof.Machine

theorem floatArithmetic : Claims.FloatArithmetic := fun _ _ _ _ _ =>
  ⟨.of_put32 (fun _ => rfl) fun _ => rfl,
   .of_put32 (fun _ => rfl) fun _ => rfl,
   .of_put32 (fun _ => rfl) fun _ => rfl,
   .of_put32 (fun _ => rfl) fun _ => rfl,
   .of_put32 (fun _ => rfl) fun _ => congrArg (fun p => w32 (fp32.rne (FVal.sum [p, _]))) (FVal.neg_mul _ _),
   .of_put32 (fun _ => rfl) fun _ => rfl,
   .of_put32 (fun _ => rfl) fun _ => fp32.ofNat_minMax false _ _,
   .of_put32 (fun _ => rfl) fun _ => fp32.ofNat_minMax true _ _⟩

theorem floatComparisons : Claims.FloatComparisons := fun _ _ _ _ =>
  ⟨.of_setPred (fun _ => rfl) fun _ => FVal.eq?_eq _ _,
   .of_setPred (fun _ => rfl) fun _ => congrArg _ (FVal.eq?_eq _ _),
   .of_setPred (fun _ => rfl) fun _ => rfl,
   .of_setPred (fun _ => rfl) fun _ => rfl,
   .of_setPred (fun _ => rfl) fun _ => rfl,
   .of_setPred (fun _ => rfl) fun _ => totalOrder_ne (BitVec.isLt _) (BitVec.isLt _),
   .of_setPred (fun _ => rfl) fun _ => rfl,
   .of_setPred (fun _ => rfl) fun _ =>
     (bits_single_beq _ _).trans (congrArg _ (classOf_eq (BitVec.isLt _)))⟩

end Sys2Proof.Machine

open Sys2Proof Sys2Proof.Machine

/-- Settles O3, from the exact operations rounded once, and from what the fields of an encoding say of its class and order. -/
theorem floatResultsAndComparisons : Obligations.FloatResultsAndComparisons := ⟨floatArithmetic, floatComparisons⟩
end

section
/-! PROOF. FP64 and packed 16-bit arithmetic (O4). -/

namespace Sys2Proof.Machine

theorem doubleArithmetic : Claims.DoubleArithmetic := fun _ _ _ _ _ =>
  ⟨.of_put64 (fun _ => rfl) fun _ => rfl,
   .of_put64 (fun _ => rfl) fun _ => rfl,
   .of_put64 (fun _ => rfl) fun _ => rfl,
   .of_put64 (fun _ => rfl) fun _ => rfl,
   .of_put64 (fun _ => rfl) fun _ => rfl,
   .of_put64 (fun _ => rfl) fun _ => rfl,
   .of_put64 (fun _ => rfl) fun _ => fp64.ofNat_minMax false _ _,
   .of_put64 (fun _ => rfl) fun _ => fp64.ofNat_minMax true _ _⟩

/-- An operation on halves, by the numbers that hold them (R122). -/
theorem halves2_eq (f : Nat → Nat → Nat) (x y : Nat) : halves2 f x y =
    f (x % 2 ^ 16) (y % 2 ^ 16) + 2 ^ 16 * f (x / 2 ^ 16 % 2 ^ 16) (y / 2 ^ 16 % 2 ^ 16) := by
  rw [halves2, bits_low, bits_low]; rfl

theorem halves3_eq (f : Nat → Nat → Nat → Nat) (x y z : Nat) : halves3 f x y z =
    f (x % 2 ^ 16) (y % 2 ^ 16) (z % 2 ^ 16) +
      2 ^ 16 * f (x / 2 ^ 16 % 2 ^ 16) (y / 2 ^ 16 % 2 ^ 16) (z / 2 ^ 16 % 2 ^ 16) := by
  rw [halves3, bits_low, bits_low, bits_low]; rfl

/-- The earlier and the later half by totalOrder (R19). -/
theorem orderMin_half (x y : Nat) : orderMin 16 (x % 2 ^ 16) (y % 2 ^ 16) =
    if orderKey 16 x ≤ orderKey 16 y then x % 2 ^ 16 else y % 2 ^ 16 := by
  simp only [orderMin, totalOrder, orderKey_mod 16 _ (by decide), decide_eq_true_eq]

theorem orderMax_half (x y : Nat) : orderMax 16 (x % 2 ^ 16) (y % 2 ^ 16) =
    if orderKey 16 x ≤ orderKey 16 y then y % 2 ^ 16 else x % 2 ^ 16 := by
  simp only [orderMax, totalOrder, orderKey_mod 16 _ (by decide), decide_eq_true_eq]

theorem halfArithmetic : Claims.HalfArithmetic := fun _ _ _ _ _ _ =>
  ⟨fun hf => hf ▸ .of_put32 (fun _ => rfl) fun _ => congrArg w32 (halves2_eq _ _ _),
   fun hf => hf ▸ .of_put32 (fun _ => rfl) fun _ => congrArg w32 (halves2_eq _ _ _),
   fun hf => hf ▸ .of_put32 (fun _ => rfl) fun _ => congrArg w32 (halves3_eq _ _ _ _),
   fun hf => hf ▸ .of_put32 (fun _ => rfl) fun _ => congrArg w32 (halves2_eq _ _ _),
   fun hf => hf ▸ .of_put32 (fun _ => rfl) fun _ => congrArg w32 (halves2_eq _ _ _),
   fun hf => hf ▸ .of_put32 (fun _ => rfl) fun _ => congrArg w32 (halves3_eq _ _ _ _),
   .of_put32 (fun _ => rfl) fun _ => congrArg w32 ((halves2_eq _ _ _).trans (by rw [orderMin_half, orderMin_half])),
   .of_put32 (fun _ => rfl) fun _ => congrArg w32 ((halves2_eq _ _ _).trans (by rw [orderMax_half, orderMax_half]))⟩

end Sys2Proof.Machine

open Sys2Proof Sys2Proof.Machine

/-- Settles O4: the FP64 operations on pairs, and each half as the same operation of its format. -/
theorem doubleAndHalfResults : Obligations.DoubleAndHalfResults := ⟨doubleArithmetic, halfArithmetic⟩
end

section
/-! PROOF. Conversions between integers and floating-point formats (O5; R24, R25, R123, R124). -/

namespace Sys2Proof.Machine

/-! ### The fields of `cvm` (R24) -/

theorem cvmMode_eq (cvm : Word) (lo : Nat) : cvmMode cvm lo = RMode.ofCode (cvm.toNat / 2 ^ lo % 8) := by
  rw [cvmMode, bits, Nat.add_assoc, Nat.add_sub_cancel_left]; rfl

theorem cvmSat_eq (cvm : Word) (lo : Nat) : cvmSat cvm lo = cvm.getLsbD (lo + 3) := bits_single_beq cvm _

/-! ### Conversions of a lane -/

/-- A conversion to a format draws once under SR, rounds, and applies the range rule (R25, R26). -/
theorem convert_eq (f : FFmt) (mode : RMode) (sat : Bool) (x : FVal) (d : LDst) (n : Bool) (l : Lane) :
    convert f mode sat x d n l = d.put32 n (w32 (f.narrow mode sat (l.draw mode).1 x)) (l.draw mode).2 := rfl

theorem convertInt_eq (mode : RMode) (lo hi : Int) (x : FVal) (d : LDst) (n : Bool) (l : Lane) :
    convertInt mode lo hi x d n l =
      d.put32 n (BitVec.ofInt 32 ((x.toInt mode (l.draw mode).1).clamp lo hi)) (l.draw mode).2 := rfl

/-- A wider integer clamped, or kept in its low bits with their sign extended (R25). -/
theorem shorten_eq {w : Nat} (hw : 0 < w) (sat : Bool) (x : Word) : shorten w sat x =
    if sat then BitVec.ofInt 32 (max (-(2 ^ (w - 1) : Int)) (min (2 ^ (w - 1) - 1) x.toInt))
    else ofBits fun i => x.getLsbD (min i (w - 1)) := by
  unfold shorten
  split
  · rfl
  · refine eq_ofBits fun i hi => ?_
    rw [getLsbD_signExtend_min _ hi hw, BitVec.getLsbD_setWidth]
    simp [show min i (w - 1) < w by omega]

/-! ### Units, by the `cvm` field they read -/

section
variable {i : Instr} {gd : Nat} {d : LDst} {a : LSrc} {n : Bool} {field : Nat}

theorem cvtUnder_does {f : FFmt} (hi : ∀ s, exec i s = cvtUnder f field d a n gd s) :
    LaneDoesIn i gd fun g l =>
      let x := l.draw (RMode.ofCode (g.cvm.toNat / 2 ^ field % 8))
      d.put32 n (w32 (f.narrow (RMode.ofCode (g.cvm.toNat / 2 ^ field % 8)) (g.cvm.getLsbD (field + 3)) x.1
        (fp32.value (a.r32 l).toNat))) x.2 := by
  simpa only [cvmMode_eq, cvmSat_eq, convert_eq, v32] using laneDoesIn_of_lanesUnit hi

theorem cvtSr_does {f : FFmt}
    (hi : ∀ s, exec i s = lanesUnit gd (fun g l => convert f .sr (cvmSat g.cvm field) (v32 (a.r32 l)) d n l) s) :
    LaneDoesIn i gd fun g l =>
      let x := l.draw .sr
      d.put32 n (w32 (f.narrow .sr (g.cvm.getLsbD (field + 3)) x.1 (fp32.value (a.r32 l).toNat))) x.2 := by
  simpa only [cvmSat_eq, convert_eq, v32] using laneDoesIn_of_lanesUnit hi

theorem cvtInt_does {lo hi : Int}
    (h : ∀ s, exec i s = lanesUnit gd (fun g l => convertInt (cvmMode g.cvm field) lo hi (v32 (a.r32 l)) d n l) s) :
    LaneDoesIn i gd fun g l =>
      let x := l.draw (RMode.ofCode (g.cvm.toNat / 2 ^ field % 8))
      d.put32 n (BitVec.ofInt 32 (((fp32.value (a.r32 l).toNat).toInt (RMode.ofCode (g.cvm.toNat / 2 ^ field % 8)) x.1).clamp
        lo hi)) x.2 := by
  simpa only [cvmMode_eq, convertInt_eq, v32] using laneDoesIn_of_lanesUnit h

end

end Sys2Proof.Machine

open Sys2Proof Sys2Proof.Machine

/-- Settles O5: each conversion draws, rounds and clamps by the mode and sat bit that it or its field of `cvm` names. -/
theorem convertedValues : Obligations.ConvertedValues := fun _ _ _ _ _ =>
  ⟨laneDoes_of_lanesUnit fun _ => rfl,
   laneDoes_of_lanesUnit fun _ => rfl,
   laneDoes_of_lanesUnit fun _ => rfl,
   laneDoes_of_lanesUnit fun _ => rfl,
   cvtUnder_does (field := cvmBf16) fun _ => rfl,
   cvtUnder_does (field := cvmFp16) fun _ => rfl,
   cvtUnder_does (field := cvmE4m3) fun _ => rfl,
   cvtUnder_does (field := cvmE5m2) fun _ => rfl,
   cvtInt_does (field := cvmI8) fun _ => rfl,
   cvtInt_does (field := cvmI16) fun _ => rfl,
   .of_put32 (fun _ => rfl) fun _ _ => (shorten_eq (by decide) _ _).trans (by rw [cvmSat_eq]; rfl),
   .of_put32 (fun _ => rfl) fun _ _ => (shorten_eq (by decide) _ _).trans (by rw [cvmSat_eq]; rfl),
   .of_put32 (fun _ => rfl) fun _ => rfl,
   .of_put32 (fun _ => rfl) fun _ => rfl,
   .of_put32 (fun _ => rfl) fun _ => rfl,
   .of_put32 (fun _ => rfl) fun _ => rfl,
   cvtSr_does (field := cvmBf16) fun _ => rfl,
   cvtSr_does (field := cvmE4m3) fun _ => rfl⟩
end

section
/-! PROOF. The instructions of the F4B block (O6; R126-R129). -/

namespace Sys2Proof.Machine

/-! ### PACK (R126) -/

/-- What an absent member, or one that does not take part, leaves out of a block. -/
theorem map_bind_if {α : Type} (o : Option Nat) (b : Nat → Bool) (lane : Nat → Lane) (f : Lane → α) :
    (o.bind fun p => if b p then some (lane p) else none).map f = (o.filter b).map fun q => f (lane q) := by
  cases o with
  | none => rfl
  | some p => cases h : b p <;> simp [h]

theorem packOf_eq (mode : RMode) (sat : Bool) (g : Group) (taking members : Mask) (a : LSrc) (first : Nat) :
    packOf mode sat g taking members a first =
      packF4b mode sat
        ((List.range 16).map fun i =>
          ((((positions members)[first + i]?).filter taking.getLsbD).map fun q => (a.r32 (g.lane q)).toNat).getD 0)
        ((List.range 16).map fun i =>
          ((((positions members)[first + i]?).filter taking.getLsbD).map fun q => ((g.lane q).draw mode).1).getD 0) := by
  unfold packOf atRank
  simp only [map_bind_if]

/-- The word of a rank depends on its place among four ranks alone. -/
theorem F4Block.word_mod (b : F4Block) (r : Nat) : b.word (r % 16) = b.word r := by
  rw [F4Block.word, F4Block.word, Nat.mod_mod_of_dvd r (by decide : 4 ∣ 16)]

/-- A lane after a PACK (R126). -/
def packLane (s : State) (c : Issue) (g : Group) (d : LDst) (a : LSrc) (n : Bool) (gd p : Nat) : Lane :=
  if (c.taking gd g).getLsbD p then
    let members := s.membersOf c.gkey g 0 p
    let r := rankOf members p
    let b := packOf (cvmMode g.cvm cvmF4b) (cvmSat g.cvm cvmF4b) g (c.taking gd g) members a (r / 16 * 16)
    c.advance (d.put32 n (w32 (b.word (r % 16))) ((g.lane p).draw (cvmMode g.cvm cvmF4b)).2)
  else c.advance (g.lane p)

theorem packF4b_runs {s : State} {c : Issue} {g : Group} (h : s.Runs c g) (hc : s.uncoupled c.gkey g c.lanes = [])
    (d : LDst) (a : LSrc) (n : Bool) (gd : Nat) :
    exec (.packF4b d a n gd) s = .next (s.setGroup c.gkey
      ((positions c.lanes).foldl (fun x p => x.setLane p (packLane s c g d a n gd p)) g)) := by
  change groupUnit s _ = _
  rw [groupUnit_runs h]
  unfold coupledOnly
  rw [hc]
  refine congrArg (fun x => Host.Outcome.next (s.setGroup c.gkey x)) (List.foldl_ext _ _ _ fun x p _ => ?_)
  unfold packLane
  split <;> rfl

theorem packF4b_after {s : State} {c : Issue} {g : Group} (h : s.Runs c g) (hc : s.uncoupled c.gkey g c.lanes = [])
    (d : LDst) (a : LSrc) (n : Bool) (gd : Nat) :
    LanesAfter (exec (.packF4b d a n gd) s) s c g fun l p =>
      if c.lanes.getLsbD p then packLane s c g d a n gd p else l :=
  ⟨_, packF4b_runs h hc d a n gd, Group.foldl_setLane_frame id _ _ g, fun p hp => by
    refine (Group.lane_foldl_setLane id _ (packLane s c g d a n gd) (fun _ _ => rfl) g hp).trans ?_
    simp [mem_positions, hp]⟩

/-! ### UNPK and SCALE (R127, R128) -/

theorem unpackF4b_eq (a b : Nat) : unpackF4b a b =
    fp32.rne (f4bValue (a / 2 ^ (4 * (b / 2 ^ 16 % 8)) % 16) (b % 256) (b / 256 % 256)) := by
  have hnibble (i : Nat) : bits a (4 * i + 3) (4 * i) = a / 2 ^ (4 * i) % 16 := by
    rw [bits, Nat.add_assoc, Nat.add_sub_cancel_left]; rfl
  rw [unpackF4b, hnibble, bits_low]
  rfl

theorem scaleF4b_eq (sat : Bool) (a : Nat) (k : Int) : scaleF4b sat a k =
    a - a % 256 + (if a % 256 = 255 then 255
      else if 254 < ((a % 256 : Nat) : Int) + k then (if sat then 254 else 255)
      else if ((a % 256 : Nat) : Int) + k < 0 then 0 else (((a % 256 : Nat) : Int) + k).toNat) := by
  have hlow : ∀ t : Int, (if t < 0 then 0 else t.toNat) = t.toNat := fun t => by split <;> omega
  rw [hlow, scaleF4b, bits_low, show a / 256 * 256 = a - a % 256 by omega]
  rfl

end Sys2Proof.Machine

open Sys2Proof Sys2Proof.Machine

/-- Settles O6: PACK by the lanes of each block's ranks, the others by the bytes and nibbles of their operands. -/
theorem fourBitBlockWords : Obligations.FourBitBlockWords := by
  refine ⟨fun d a n gd s c g hruns hc => ?_, fun _ _ _ _ _ =>
    ⟨.of_put32 (fun _ => rfl) fun _ => congrArg w32 (unpackF4b_eq _ _),
     .of_put32 (fun _ => rfl) fun _ _ => congrArg w32 ((scaleF4b_eq _ _ _).trans (by rw [cvmSat_eq]; rfl)),
     .of_put32 (fun _ => rfl) fun _ => congrArg (fun x => w32 (x + 0x8000)) (bits_low _ _)⟩⟩
  obtain ⟨g', hrun, hframe, hlanes⟩ := packF4b_after hruns hc d a n gd
  refine ⟨g', hrun, hframe, fun p hp => (hlanes p hp).trans ?_⟩
  unfold Issue.laneAfter packLane
  dsimp only
  rw [taking_bit c gd g hp, F4Block.word_mod, packOf_eq, cvmMode_eq, cvmSat_eq]
  cases hl : c.lanes.getLsbD p with
  | false => rfl
  | true => cases c.holds gd (g.lane p) <;> rfl
end

section
/-! SUPPORT. Ratios of powers of two: a number m 2^e and a quotient scaled by 2^q as fractions, and what the fields of an FP32
encoding say of its m and e (R17, R23). -/

namespace Sys2Proof.Machine

theorem dyadic_eq (m : Nat) (e : Int) : dyadic m e = (m * 2 ^ e.toNat, 2 ^ (-e).toNat) := by
  cases e with
  | ofNat k => simp [dyadic]
  | negSucc k => simp [dyadic]

theorem scaleDown_eq (num den : Nat) (q : Int) : scaleDown num den q = (num * 2 ^ (-q).toNat, den * 2 ^ q.toNat) := by
  cases q with
  | ofNat k => simp [scaleDown]
  | negSucc k => simp [scaleDown]

/-- A quotient by h of a number m 2^t, at every a and b with t = a - b. -/
theorem dyadic_div (m h a b : Nat) {t : Int} (ht : t = a - b) :
    (dyadic m t).1 / ((dyadic m t).2 * h) = m * 2 ^ a / (h * 2 ^ b) := by
  rw [dyadic_eq]
  rcases Nat.le_total b a with hab | hab
  · obtain ⟨k, rfl⟩ := Nat.exists_eq_add_of_le hab
    rw [show t.toNat = k by omega, show (-t).toNat = 0 by omega, pow_zero, one_mul, pow_add, Nat.mul_comm (2 ^ b),
      ← Nat.mul_assoc, Nat.mul_div_mul_right _ _ (Nat.two_pow_pos b)]
  · obtain ⟨k, rfl⟩ := Nat.exists_eq_add_of_le hab
    rw [show t.toNat = 0 by omega, show (-t).toNat = k by omega, pow_zero, mul_one, pow_add, Nat.mul_comm (2 ^ a),
      ← Nat.mul_assoc, Nat.mul_div_mul_right _ _ (Nat.two_pow_pos a), Nat.mul_comm h]

/-- An FP32 number m 2^e has fewer than 25 bits in m, and all 24 of them where e is not negative. -/
theorem fp32_value_fin {x m : Nat} {neg : Bool} {e : Int} (h : fp32.value x = .fin neg m e) :
    m < 2 ^ 24 ∧ (0 ≤ e → 2 ^ 23 ≤ m) := by
  rw [fp32_value] at h
  split at h
  · split at h <;> cases h
  · split at h <;> cases h <;> omega

end Sys2Proof.Machine
end

section
/-! PROOF. Rounding to integers, Morton keys, the random stream and exponents (O8; R131-R134). -/

namespace Sys2Proof.Machine

/-! ### FRND (R131) -/

theorem toInt_fin (mode : RMode) (u : Word) (neg : Bool) (m : Nat) (e : Int) :
    (FVal.fin neg m e).toInt mode u =
      .int (if neg then -(roundAt mode neg (dyadic m e).1 (dyadic m e).2 0 u : Int)
        else (roundAt mode neg (dyadic m e).1 (dyadic m e).2 0 u : Int)) := rfl

theorem natAbs_signed (neg : Bool) (k : Nat) : (if neg then -(k : Int) else (k : Int)).natAbs = k := by split <;> simp

theorem rne_whole (neg : Bool) (k : Nat) : fp32.rne (.fin neg k 0) = fp32.round .rne false neg k 1 0 := by
  rw [FFmt.rne, FFmt.narrow, dyadic_eq]
  simp

theorem roundIntegral_eq (mode : RMode) (x : Nat) : roundIntegral mode x =
    match fp32.value x with
    | .nan => 0x7FC00000
    | .inf _ => x
    | .fin neg m e => if m = 0 ∨ 2 ^ 23 * 2 ^ (-e).toNat ≤ m * 2 ^ e.toNat then x
      else match (FVal.fin neg m e).toInt mode 0 with
        | .int i => fp32.rne (.fin neg i.natAbs 0)
        | _ => x := by
  unfold roundIntegral
  cases hv : fp32.value x with
  | nan => rfl
  | inf _ => rfl
  | fin neg m e =>
    obtain ⟨hm, hfull⟩ := fp32_value_fin hv
    have hwhole : 2 ^ 23 * 2 ^ (-e).toNat ≤ m * 2 ^ e.toNat ↔ 0 ≤ e := by
      rcases Int.lt_or_le e 0 with he | he
      · have hpow : 2 ^ 1 ≤ 2 ^ (-e).toNat := Nat.pow_le_pow_right (by decide) (by omega)
        rw [show e.toNat = 0 by omega]
        omega
      · have hpow : 0 < 2 ^ e.toNat := Nat.two_pow_pos _
        rw [show (-e).toNat = 0 by omega]
        exact iff_of_true (Nat.mul_le_mul (hfull he) hpow) he
    simp only [hwhole, toInt_fin, natAbs_signed, rne_whole, Bool.or_eq_true, decide_eq_true_eq, ge_iff_le]

/-! ### KEY3 (R132) -/

theorem keyCoord_eq (w : FVal) (hm : Nat) (he : Int) : keyCoord w hm he =
    match w with
    | .nan => (0, true)
    | .inf neg => (if neg then 0 else 1023, true)
    | .fin neg m e =>
      let k := e.natAbs + he.natAbs
      let num := m * 2 ^ (e + k).toNat
      let den := hm * 2 ^ (he + k).toNat
      if neg ∧ m ≠ 0 then (0, true) else (min (num / den) 1023, decide (1023 < num / den)) := by
  cases w with
  | nan => rfl
  | inf neg => cases neg <;> rfl
  | fin neg m e =>
    have hquot := dyadic_div m hm (e + (e.natAbs + he.natAbs : Nat)).toNat (he + (e.natAbs + he.natAbs : Nat)).toNat
      (t := e - he) (by omega)
    simp only [keyCoord, hquot]
    by_cases h0 : m = 0
    · simp [h0]
    · cases neg with
      | true => simp [h0]
      | false =>
        simp only [h0, if_false, Bool.false_eq_true, false_and]
        split
        · next hbig => rw [Nat.min_eq_right (Nat.le_of_lt hbig), decide_eq_true hbig]
        · next hsmall => rw [Nat.min_eq_left (Nat.le_of_not_lt hsmall), decide_eq_false hsmall]

theorem interleave_eq (x y z n : Nat) : interleave x y z n = ((List.range n).map fun i =>
    x / 2 ^ i % 2 * 2 ^ (3 * i) + y / 2 ^ i % 2 * 2 ^ (3 * i + 1) + z / 2 ^ i % 2 * 2 ^ (3 * i + 2)).sum := by
  induction n with
  | zero => rfl
  | succ n ih =>
    rw [List.range_succ, List.map_append, List.sum_append, interleave, ih]
    simp only [bits, Nat.add_sub_cancel_left, List.map_cons, List.map_nil, List.sum_cons, List.sum_nil]
    generalize x / 2 ^ n % 2 = i, y / 2 ^ n % 2 = j, z / 2 ^ n % 2 = k
    ring

theorem mortonKey_eq (q : Nat) : mortonKey q =
    match fp32.value (q / 2 ^ 96) with
    | .fin false hm he =>
      if hm = 0 then 2 ^ 31
      else
        let x := keyCoord (fp32.value (q % 2 ^ 32)) hm he
        let y := keyCoord (fp32.value (q / 2 ^ 32 % 2 ^ 32)) hm he
        let z := keyCoord (fp32.value (q / 2 ^ 64 % 2 ^ 32)) hm he
        ((List.range 10).map fun i =>
          x.1 / 2 ^ i % 2 * 2 ^ (3 * i) + y.1 / 2 ^ i % 2 * 2 ^ (3 * i + 1) + z.1 / 2 ^ i % 2 * 2 ^ (3 * i + 2)).sum +
          (if x.2 || y.2 || z.2 then 2 ^ 31 else 0)
    | _ => 2 ^ 31 := by
  rw [mortonKey, show fp32.value (bits q 127 96) = fp32.value (q / 2 ^ 96) from fp32.value_mod _]
  simp only [interleave_eq, bits_low]
  rfl

/-! ### The random stream (R26, R133) -/

/-- A draw steps the stream and returns its upper half. -/
theorem Lane.draw_sr (l : Lane) : l.draw .sr =
    (BitVec.ofNat 32 ((l.lrng * 6364136223846793005#64 + 1442695040888963407#64).toNat / 2 ^ 32),
      { l with lrng := l.lrng * 6364136223846793005#64 + 1442695040888963407#64 }) :=
  congrArg (Prod.mk · _) (high_word _)

theorem seed_eq (x : DWord) (lid : Word) :
    x + lid.setWidth 64 * 0x9E3779B97F4A7C15#64 = BitVec.ofNat 64 (x.toNat + lid.toNat * 0x9E3779B97F4A7C15) := by
  rw [BitVec.add_comm, mulAdd_eq_ofNat, BitVec.toNat_setWidth_of_le (by decide), Nat.add_comm]
  rfl

end Sys2Proof.Machine

open Sys2Proof Sys2Proof.Machine

/-- Settles O8: whole numbers of the exact value, keys from floors of quotients, one step of the stream, shifted exponents. -/
theorem roundedValuesKeysAndExponents : Obligations.RoundedValuesKeysAndExponents := by
  intro d a b r n gd _
  refine ⟨.of_put32 (fun _ => rfl) fun _ => congrArg w32 (roundIntegral_eq _ _),
   .of_put32 (fun _ => rfl) fun l => ?_,
   ?_,
   ?_,
   .of_put32 (fun _ => rfl) fun _ => rfl,
   .of_put32 (fun _ => rfl) fun _ => rfl⟩
  · rw [mortonKey_eq]
    simp only [keyCoord_eq] <;> rfl
  · simpa only [Lane.draw_sr] using laneDoes_of_lanesUnit (i := .rng d n gd) fun _ => rfl
  · simpa only [seed_eq] using laneDoes_of_lanesUnit (i := .seed a gd) fun _ => rfl
end

section
/-! SUPPORT. Rounding of quotients that are powers of two (R23, R25): their exponent, their place on a format's grid, and their
FP32 code. -/

namespace Sys2Proof.Machine

/-- num / den is 2^k. -/
def IsPow (num den : Nat) (k : Int) : Prop := 0 < den ∧ ∃ a b : Nat, k = b - a ∧ num * 2 ^ a = den * 2 ^ b

theorem isPow_dyadic (j : Nat) (e : Int) : IsPow (dyadic (2 ^ j) e).1 (dyadic (2 ^ j) e).2 (e + j) := by
  rw [dyadic_eq]
  refine ⟨Nat.two_pow_pos _, (-e).toNat, j + e.toNat, by omega, ?_⟩
  rw [← pow_add, ← pow_add, ← pow_add]
  congr 1
  omega

theorem isPow_one (k : Int) : IsPow (dyadic 1 k).1 (dyadic 1 k).2 k := by simpa using isPow_dyadic 0 k

theorem isPow_two_pow (a b : Nat) : IsPow (2 ^ a) (2 ^ b) (a - b) :=
  ⟨Nat.two_pow_pos b, b, a, rfl, Nat.mul_comm _ _⟩

theorem log2_mul_two_pow {n : Nat} (hn : n ≠ 0) (a : Nat) : Nat.log2 (n * 2 ^ a) = Nat.log2 n + a := by
  induction a with
  | zero => simp
  | succ a ih =>
    rw [pow_succ', Nat.mul_left_comm, Nat.log2_two_mul (Nat.mul_ne_zero hn (Nat.two_pow_pos a).ne'), ih, Nat.add_assoc]

section
variable {num den : Nat} {k : Int} (h : IsPow num den k)
include h

/-- The quotient by 2^j more. -/
theorem IsPow.mul_two_pow (j : Nat) : IsPow num (den * 2 ^ j) (k - j) := by
  obtain ⟨hden, a, b, hk, hmul⟩ := h
  refine ⟨Nat.mul_pos hden (Nat.two_pow_pos j), a + j, b, by omega, ?_⟩
  rw [pow_add, ← Nat.mul_assoc, hmul]
  exact Nat.mul_right_comm ..

theorem IsPow.scaleDown (q : Int) : IsPow (scaleDown num den q).1 (scaleDown num den q).2 (k - q) := by
  obtain ⟨hden, a, b, hk, hmul⟩ := h
  rw [scaleDown_eq]
  refine ⟨Nat.mul_pos hden (Nat.two_pow_pos _), a + q.toNat, b + (-q).toNat, by omega, ?_⟩
  calc num * 2 ^ (-q).toNat * 2 ^ (a + q.toNat)
      _ = num * 2 ^ a * 2 ^ (-q).toNat * 2 ^ q.toNat := by ring
      _ = den * 2 ^ q.toNat * 2 ^ (b + (-q).toNat) := by rw [hmul]; ring

theorem IsPow.eq_mul (hk : 0 ≤ k) : num = den * 2 ^ k.toNat := by
  obtain ⟨_, a, b, hab, hmul⟩ := h
  refine Nat.eq_of_mul_eq_mul_right (Nat.two_pow_pos a) ?_
  rw [hmul, Nat.mul_assoc, ← pow_add]
  congr 2
  omega

theorem IsPow.mul_eq (hk : k ≤ 0) : num * 2 ^ (-k).toNat = den := by
  obtain ⟨_, a, b, hab, hmul⟩ := h
  refine Nat.eq_of_mul_eq_mul_right (Nat.two_pow_pos b) ?_
  rw [← hmul, Nat.mul_assoc, ← pow_add]
  congr 2
  omega

theorem IsPow.num_pos : 0 < num := by
  obtain ⟨hden, a, b, _, hmul⟩ := h
  exact Nat.pos_of_mul_pos_right (hmul ▸ Nat.mul_pos hden (Nat.two_pow_pos b))

theorem IsPow.ratioExp_eq : ratioExp num den = k := by
  have hlog : (Nat.log2 num : Int) - Nat.log2 den = k := by
    obtain ⟨hden, a, b, hk, hmul⟩ := id h
    have := congrArg Nat.log2 hmul
    rw [log2_mul_two_pow h.num_pos.ne', log2_mul_two_pow hden.ne'] at this
    omega
  have hone := (h.scaleDown k).eq_mul (by omega)
  rw [Int.sub_self, Int.toNat_zero, pow_zero, Nat.mul_one] at hone
  have hunfold : ratioExp num den = if (Machine.scaleDown num den (Nat.log2 num - Nat.log2 den)).1 <
      (Machine.scaleDown num den (Nat.log2 num - Nat.log2 den)).2
    then (Nat.log2 num - Nat.log2 den : Int) - 1 else Nat.log2 num - Nat.log2 den := rfl
  rw [hunfold, hlog, hone, if_neg (Nat.lt_irrefl _)]

/-- Rounding at a place not above 2^k is exact, whatever the mode. -/
theorem IsPow.roundAt_exact (mode : RMode) (neg : Bool) {q : Int} (hq : q ≤ k) (u : Word) :
    roundAt mode neg num den q u = 2 ^ (k - q).toNat := by
  have hpow := h.scaleDown q
  unfold roundAt
  generalize Machine.scaleDown num den q = r at hpow ⊢
  obtain ⟨n, d⟩ := r
  have hnum : n = d * 2 ^ (k - q).toNat := hpow.eq_mul (by omega)
  have hden : 0 < d := hpow.1
  have hup : ∀ odd, roundsUp mode neg odd 0 d u = false := fun odd => by
    cases mode <;> simp [roundsUp, hden.ne]
  dsimp only
  rw [hnum, Nat.mul_mod_right, Nat.mul_div_cancel_left _ hden, hup]
  rfl

/-- What is at most half of the last place goes to 0: the tie is even. -/
theorem IsPow.roundAt_below (neg : Bool) {q : Int} (hq : k < q) (u : Word) : roundAt .rne neg num den q u = 0 := by
  have hpow := h.scaleDown q
  unfold roundAt
  generalize Machine.scaleDown num den q = r at hpow ⊢
  obtain ⟨n, d⟩ := r
  have hden : n * 2 ^ (-(k - q)).toNat = d := hpow.mul_eq (by omega)
  have hnum : 0 < n := hpow.num_pos
  have htwo : 2 ^ 1 ≤ 2 ^ (-(k - q)).toNat := Nat.pow_le_pow_right (by decide) (by omega)
  have hhalf : n * 2 ^ 1 ≤ d := hden ▸ Nat.mul_le_mul_left n htwo
  dsimp only
  have hlt : n < d := by omega
  rw [Nat.div_eq_of_lt hlt, Nat.mod_eq_of_lt hlt]
  exact if_neg (by simp [roundsUp]; omega)

/-! ### FP32 codes -/

theorem IsPow.roundCode_eq (neg : Bool) : fp32.roundCode .rne neg num den 0 =
    (max (k - 23) (-149) + 149).toNat * 2 ^ 23 + roundAt .rne neg num den (max (k - 23) (-149)) 0 := by
  rw [FFmt.roundCode, if_neg h.num_pos.ne', h.ratioExp_eq]
  rfl

/-- A normal power of two is its biased exponent. -/
theorem IsPow.round_normal (neg : Bool) (hlow : -126 ≤ k) (hhigh : k ≤ 127) :
    fp32.round .rne false neg num den 0 = fp32.sign neg ((k + 127).toNat * 2 ^ 23) := by
  have hcode : fp32.roundCode .rne neg num den 0 = (k + 127).toNat * 2 ^ 23 := by
    rw [h.roundCode_eq neg, Int.max_eq_left (by omega), h.roundAt_exact _ _ (by omega), show (k - (k - 23)).toNat = 23 by omega]
    omega
  rw [FFmt.round, hcode]
  exact if_pos (show _ ≤ 0x7F7FFFFF by omega)

/-- A subnormal power of two is one bit of the fraction. -/
theorem IsPow.round_subnormal (neg : Bool) (hlow : -149 ≤ k) (hhigh : k < -126) :
    fp32.round .rne false neg num den 0 = fp32.sign neg (2 ^ (k + 149).toNat) := by
  have hcode : fp32.roundCode .rne neg num den 0 = 2 ^ (k + 149).toNat := by
    rw [h.roundCode_eq neg, Int.max_eq_right (by omega), h.roundAt_exact _ _ hlow, show k - -149 = k + 149 by omega]
    simp
  have hle : 2 ^ (k + 149).toNat ≤ 2 ^ 23 := Nat.pow_le_pow_right (by decide) (by omega)
  rw [FFmt.round, hcode]
  exact if_pos (show _ ≤ 0x7F7FFFFF by omega)

theorem IsPow.round_zero (neg : Bool) (hhigh : k < -149) : fp32.round .rne false neg num den 0 = fp32.sign neg 0 := by
  have hcode : fp32.roundCode .rne neg num den 0 = 0 := by
    rw [h.roundCode_eq neg, Int.max_eq_right (by omega), h.roundAt_below _ hhigh]
    rfl
  rw [FFmt.round, hcode]
  exact if_pos (Nat.zero_le _)

theorem IsPow.round_over (neg : Bool) (hlow : 128 ≤ k) :
    fp32.round .rne false neg num den 0 = fp32.sign neg 0x7F800000 := by
  have hcode : ¬ fp32.roundCode .rne neg num den 0 ≤ fp32.top := by
    rw [h.roundCode_eq neg, Int.max_eq_left (by omega), h.roundAt_exact _ _ (by omega), show (k - (k - 23)).toNat = 23 by omega]
    exact Nat.not_le.mpr (show 0x7F7FFFFF < _ by omega)
  rw [FFmt.round]
  exact (if_neg hcode).trans rfl

end

end Sys2Proof.Machine
end

section
/-! PROOF. The special functions at their special values and exact cases (O7; R130). -/

namespace Sys2Proof.Machine

/-! ### EXP2 of a whole number -/

/-- 2^k or 2^-k for a whole number k = m 2^e: past the range the limit, and within it the power rounded. -/
theorem exp2Fp32_whole {m k : Nat} {e : Int} (hk : 0 < k) (h : m * 2 ^ e.toNat = k * 2 ^ (-e).toNat) (neg : Bool) :
    exp2Fp32 (.fin neg m e) =
      if 160 ≤ k then (if neg then 0 else 0x7F800000)
      else fp32.round .rne false false (dyadic 1 (if neg then -(k : Int) else k)).1
        (dyadic 1 (if neg then -(k : Int) else k)).2 0 := by
  have hd : 0 < 2 ^ (-e).toNat := Nat.two_pow_pos _
  have hm : m ≠ 0 := fun h0 => by
    have := Nat.mul_pos hk hd
    rw [← h, h0] at this
    omega
  have hbig : k * 2 ^ (-e).toNat ≥ 160 * 2 ^ (-e).toNat ↔ 160 ≤ k := Nat.mul_le_mul_right_iff hd
  have hceil : (k * 2 ^ (-e).toNat + 2 ^ (-e).toNat - 1) / 2 ^ (-e).toNat = k := by
    rw [Nat.add_sub_assoc hd, Nat.add_comm, Nat.add_mul_div_right _ _ hd, Nat.div_eq_of_lt (by omega), Nat.zero_add]
  have hfrac : (if neg then k * 2 ^ (-e).toNat - k * 2 ^ (-e).toNat else k * 2 ^ (-e).toNat % 2 ^ (-e).toNat) = 0 := by
    rw [Nat.sub_self, Nat.mul_mod_left, ite_self]
  unfold exp2Fp32
  dsimp only
  rw [if_neg hm, dyadic_eq m e]
  simp only [h, hbig, hceil, hfrac, Nat.mul_div_cancel _ hd, if_true]

theorem exp2Fp32_up {m k : Nat} {e : Int} (hk : 0 < k) (h : m * 2 ^ e.toNat = k * 2 ^ (-e).toNat) :
    (k ≤ 127 → exp2Fp32 (.fin false m e) = (127 + k) * 2 ^ 23) ∧ (128 ≤ k → exp2Fp32 (.fin false m e) = 0x7F800000) := by
  have hpow := isPow_one k
  rw [exp2Fp32_whole hk h]
  constructor <;> intro hr
  · rw [if_neg (by omega)]
    refine (hpow.round_normal false (by omega) (by omega)).trans ?_
    show (k + 127 : Int).toNat * 2 ^ 23 = _
    omega
  · split
    · rfl
    · exact hpow.round_over false (by omega)

theorem exp2Fp32_down {m k : Nat} {e : Int} (hk : 0 < k) (h : m * 2 ^ e.toNat = k * 2 ^ (-e).toNat) :
    (k ≤ 126 → exp2Fp32 (.fin true m e) = (127 - k) * 2 ^ 23) ∧
      (127 ≤ k → k ≤ 149 → exp2Fp32 (.fin true m e) = 2 ^ (149 - k)) ∧ (150 ≤ k → exp2Fp32 (.fin true m e) = 0) := by
  have hpow := isPow_one (-k)
  rw [exp2Fp32_whole hk h]
  refine ⟨fun hr => ?_, fun hr hr' => ?_, fun hr => ?_⟩
  · rw [if_neg (by omega)]
    refine (hpow.round_normal false (by omega) (by omega)).trans ?_
    show (-k + 127 : Int).toNat * 2 ^ 23 = _
    omega
  · rw [if_neg (by omega)]
    refine (hpow.round_subnormal false (by omega) (by omega)).trans ?_
    show 2 ^ (-k + 149 : Int).toNat = _
    congr 1
    omega
  · split
    · rfl
    · exact hpow.round_zero false (by omega)

/-! ### Powers of two -/

theorem log2Fp32_two_pow (j : Nat) (e : Int) :
    log2Fp32 (.fin false (2 ^ j) e) = fp32.rne (.fin (decide (e + j < 0)) (e + j).natAbs 0) := by
  have hlog : Nat.log2 (2 ^ j) = j := Nat.log2_two_pow
  have hpos := Nat.two_pow_pos j
  unfold log2Fp32
  dsimp only
  rw [if_neg hpos.ne', hlog, if_pos (show 2 * 2 ^ j < 3 * 2 ^ j by omega), if_pos rfl]
  rfl

theorem rcpFp32_two_pow (s : Bool) (j : Nat) (e : Int) (hlow : -127 ≤ e + j) (hhigh : e + j ≤ 126) :
    rcpFp32 (.fin s (2 ^ j) e) = (127 - (e + j)).toNat * 2 ^ 23 + if s then 2 ^ 31 else 0 := by
  have hpow := (isPow_one (0 - e)).mul_two_pow j
  have hdiv : rcpFp32 (.fin s (2 ^ j) e) =
      fp32.round .rne false (false != s) (dyadic 1 (0 - e)).1 ((dyadic 1 (0 - e)).2 * 2 ^ j) 0 := by
    unfold rcpFp32 FFmt.div
    exact if_neg (Nat.two_pow_pos j).ne'
  rw [hdiv, hpow.round_normal _ (by omega) (by omega),
    show (0 - e - j + 127 : Int) = 127 - (e + j) by omega]
  cases s
  · exact (Nat.add_zero _).symm
  · exact Nat.add_comm _ _

/-- 2^s / 2^k where the root is exact, as the root functions round it. -/
theorem round_sticky (s k : Nat) {h : Int} (hs : h = s - k) (hlow : -126 ≤ h) (hhigh : h ≤ 127) :
    fp32.round .rne false false (sticky (2 ^ s) true k).1 (sticky (2 ^ s) true k).2 0 = (127 + h).toNat * 2 ^ 23 := by
  rw [Int.add_comm]
  subst hs
  exact (isPow_two_pow s k).round_normal false hlow hhigh

/-- The root of 2^(2h) at k places is 2^(h+k), exactly. -/
theorem sqrt_two_pow (j : Nat) (e h : Int) (hh : e + j = 2 * h) (hlow : -126 ≤ h) (hhigh : h ≤ 127) :
    fp32.sqrt (.fin false (2 ^ j) e) = (127 + h).toNat * 2 ^ 23 := by
  unfold FFmt.sqrt
  dsimp only
  rw [if_neg (Nat.two_pow_pos j).ne', if_neg Bool.false_ne_true, dyadic_eq]
  generalize hk : fp32.frac + 4 + e.natAbs = k
  have hquot : 2 ^ j * 2 ^ (e + 2 * k).toNat / 2 ^ (-(e + 2 * k)).toNat = 2 ^ (h + k).toNat * 2 ^ (h + k).toNat := by
    rw [show (-(e + 2 * k)).toNat = 0 by omega, pow_zero, Nat.div_one, ← pow_add, ← pow_add]
    congr 1
    omega
  dsimp only
  rw [hquot, Nat.sqrt_eq, beq_self_eq_true]
  exact round_sticky _ _ (by omega) hlow hhigh

theorem rsqrt_two_pow (j : Nat) (e h : Int) (hh : e + j = 2 * h) (hlow : -127 ≤ h) (hhigh : h ≤ 126) :
    fp32.rsqrt (.fin false (2 ^ j) e) = (127 - h).toNat * 2 ^ 23 := by
  unfold FFmt.rsqrt
  dsimp only
  rw [if_neg (Nat.two_pow_pos j).ne', if_neg Bool.false_ne_true, dyadic_eq, Nat.log2_two_pow]
  generalize hk : fp32.frac + 8 + e.natAbs + j = k
  have hden : (-(2 * (k : Int) - e)).toNat = 0 := by omega
  have hsq : 2 ^ (2 * (k : Int) - e).toNat = 2 ^ (k - h).toNat * 2 ^ (k - h).toNat * 2 ^ j := by
    rw [← pow_add, ← pow_add]
    congr 1
    omega
  dsimp only
  rw [hden, pow_zero, Nat.one_mul, Nat.one_mul, Nat.mul_one, hsq, Nat.mul_div_cancel _ (Nat.two_pow_pos j), Nat.sqrt_eq,
    beq_self_eq_true, Int.sub_eq_add_neg (a := 127)]
  exact round_sticky _ _ (by omega) (by omega) (by omega)

/-! ### Special values -/

theorem special_nan : ∀ f ∈ [rcpFp32, fp32.rsqrt, fp32.sqrt, exp2Fp32, log2Fp32, trigFp32 0, trigFp32 1, tanhFp32],
    f .nan = 0x7FC00000 := by
  simp only [List.forall_mem_cons]
  exact ⟨rfl, rfl, rfl, rfl, rfl, rfl, rfl, rfl, nofun⟩

theorem signed_zero (s : Bool) : fp32.sign s 0 = if s then 0x80000000 else 0 := by cases s <;> rfl

theorem signed_inf (s : Bool) : fp32.beyond false s = if s then 0xFF800000 else 0x7F800000 := by cases s <;> rfl

theorem special_zero (s : Bool) (e : Int) :
    rcpFp32 (.fin s 0 e) = (if s then 0xFF800000 else 0x7F800000) ∧
      fp32.rsqrt (.fin s 0 e) = (if s then 0xFF800000 else 0x7F800000) ∧
      fp32.sqrt (.fin s 0 e) = (if s then 0x80000000 else 0) ∧
      exp2Fp32 (.fin s 0 e) = 0x3F800000 ∧ log2Fp32 (.fin s 0 e) = 0xFF800000 ∧
      trigFp32 0 (.fin s 0 e) = (if s then 0x80000000 else 0) ∧ trigFp32 1 (.fin s 0 e) = 0x3F800000 ∧
      tanhFp32 (.fin s 0 e) = (if s then 0x80000000 else 0) := by
  refine ⟨?_, ?_, ?_, ?_, ?_, ?_, ?_, ?_⟩
  · rw [rcpFp32, FFmt.div, if_pos rfl, if_neg Nat.one_ne_zero, Bool.false_bne]; exact signed_inf s
  · rw [FFmt.rsqrt, if_pos rfl]; exact signed_inf s
  · rw [FFmt.sqrt, if_pos rfl]; exact signed_zero s
  · rw [exp2Fp32, if_pos rfl]
  · rw [log2Fp32, if_pos rfl]
  · rw [trigFp32, if_pos rfl]; exact signed_zero s
  · rw [trigFp32, if_pos rfl]; rfl
  · rw [tanhFp32, if_pos rfl]; exact signed_zero s

theorem special_inf (s : Bool) :
    rcpFp32 (.inf s) = (if s then 0x80000000 else 0) ∧ exp2Fp32 (.inf s) = (if s then 0 else 0x7F800000) ∧
      trigFp32 0 (.inf s) = 0x7FC00000 ∧ trigFp32 1 (.inf s) = 0x7FC00000 ∧
      tanhFp32 (.inf s) = (if s then 0xBF800000 else 0x3F800000) := by
  cases s <;> exact ⟨rfl, rfl, rfl, rfl, rfl⟩

/-- Roots and logarithms of negative numbers are NaN. -/
theorem special_negative : ∀ f ∈ [fp32.rsqrt, fp32.sqrt, log2Fp32],
    f (.inf true) = 0x7FC00000 ∧ ∀ m e, 0 < m → f (.fin true m e) = 0x7FC00000 := by
  simp only [List.forall_mem_cons]
  exact ⟨⟨rfl, fun _ _ hm => if_neg hm.ne'⟩, ⟨rfl, fun _ _ hm => if_neg hm.ne'⟩, ⟨rfl, fun _ _ hm => if_neg hm.ne'⟩, nofun⟩

end Sys2Proof.Machine

open Sys2Proof Sys2Proof.Machine

/-- Settles O7: the special values by the cases of each function, the exact ones because a quotient that is a power of two
rounds to its own code. -/
theorem specialFunctionValues : Obligations.SpecialFunctionValues := fun _ _ _ _ =>
  ⟨rcpFp32, fp32.rsqrt, fp32.sqrt, exp2Fp32, log2Fp32, trigFp32 0, trigFp32 1, tanhFp32,
   .of_put32 (fun _ => rfl) fun _ => rfl,
   .of_put32 (fun _ => rfl) fun _ => rfl,
   .of_put32 (fun _ => rfl) fun _ => rfl,
   .of_put32 (fun _ => rfl) fun _ => rfl,
   .of_put32 (fun _ => rfl) fun _ => rfl,
   .of_put32 (fun _ => rfl) fun _ => rfl,
   .of_put32 (fun _ => rfl) fun _ => rfl,
   .of_put32 (fun _ => rfl) fun _ => rfl,
   special_nan, special_zero, special_inf, rfl, rfl, rfl, special_negative, fun _ => ⟨rfl, rfl⟩,
   fun m k e hk h => ⟨(exp2Fp32_up hk h).1, (exp2Fp32_up hk h).2, exp2Fp32_down hk h⟩,
   fun j e k hj hlow hhigh hk => ⟨hk ▸ log2Fp32_two_pow j e,
    fun s hl hu => hk ▸ rcpFp32_two_pow s j e (hk ▸ hl) (hk ▸ hu),
    fun h hh => ⟨sqrt_two_pow j e h (hk ▸ hh) (by omega) (by omega), rsqrt_two_pow j e h (hk ▸ hh) (by omega) (by omega)⟩⟩⟩
end

section
/-! SUPPORT. Memories stay in canonical form (R190): the parts of the state, events, traps, cells and translations.
Only a byte written at its home touches a memory; every other part of the state is free. -/

namespace Sys2Proof.Machine

-- One proof at a time: a compile of the whole text stays within its memory.
set_option Elab.async false

/-! ### Parts of the state -/

/-- A fold of steps that each keep the memories in canonical form keeps them so. -/
theorem memoryOk_foldl {α : Type} {f : State → α → State}
    (hf : ∀ s x, s.memoryOk = true → (f s x).memoryOk = true) (xs : List α) {s : State} (h : s.memoryOk = true) :
    (xs.foldl f s).memoryOk = true := by
  induction xs generalizing s with
  | nil => exact h
  | cons x xs ih => exact ih (hf s x h)

section
variable {s : State} (h : s.memoryOk = true)
include h

theorem State.memoryOk_choose (n : Nat) : (s.choose n).2.memoryOk = true := h
theorem State.memoryOk_draw : s.draw.2.memoryOk = true := h
theorem State.memoryOk_setCore (n : Nat) (k : Core) : (s.setCore n k).memoryOk = true := h
theorem State.memoryOk_modCore (n : Nat) (f : Core → Core) : (s.modCore n f).memoryOk = true := h
theorem State.memoryOk_modDie (d : Nat) (f : Die → Die) : (s.modDie d f).memoryOk = true := h
theorem State.memoryOk_setGroup (k : Nat) (g : Group) : (s.setGroup k g).memoryOk = true := h
theorem State.memoryOk_setTeam (k : Nat) (t : Team) : (s.setTeam k t).memoryOk = true := h
theorem State.memoryOk_leaveSeat (gkey : Nat) : (s.leaveSeat gkey).memoryOk = true := h
theorem State.memoryOk_dropGroup (k : Nat) : (s.dropGroup k).memoryOk = true := h
theorem State.memoryOk_setTag (pa : Nat) (t : BitVec 2) : (s.setTag pa t).memoryOk = true := h
theorem State.memoryOk_forgetHost : s.forgetHost.memoryOk = true := h

theorem State.memoryOk_modGroup (k : Nat) (f : Group → Group) : (s.modGroup k f).memoryOk = true := by
  unfold State.modGroup; split <;> exact h

theorem State.memoryOk_modTeam (k : Nat) (f : Team → Team) : (s.modTeam k f).memoryOk = true := by
  unfold State.modTeam; split <;> exact h

theorem State.memoryOk_modLane (k p : Nat) (f : Lane → Lane) : (s.modLane k p f).memoryOk = true :=
  State.memoryOk_modGroup h k _

theorem State.memoryOk_advance (c : Issue) : (s.advance c).memoryOk = true := State.memoryOk_modGroup h ..

theorem State.memoryOk_finish (c : Issue) (p : Nat) (f : Lane → Lane) : (s.finish c p f).memoryOk = true :=
  State.memoryOk_modLane h ..

theorem State.memoryOk_park (gkey p : Nat) (w : ParkWhy) : (s.park gkey p w).memoryOk = true := State.memoryOk_modLane h ..

theorem State.memoryOk_metHost (a n : Nat) : (s.metHost a n).memoryOk = true := by
  unfold State.metHost; split <;> exact h

/-! ### Messages and events (R339, R368) -/

theorem State.memoryOk_message (port v : Nat) : (s.message port v).memoryOk = true := by
  unfold State.message; dsimp only; split <;> exact h

theorem State.memoryOk_raiseStatus (m : Word) : (s.raiseStatus m).memoryOk = true := by
  grind [State.raiseStatus, State.tellHost, State.memoryOk_message, State.memoryOk]

theorem State.memoryOk_ringPut (die : Nat) (e : Event) : (s.ringPut die e).memoryOk = true := by
  grind [State.ringPut, State.memoryOk_store, State.memoryOk_modDie, State.memoryOk_raiseStatus]

theorem State.memoryOk_ringDrain (die n : Nat) : (s.ringDrain die n).memoryOk = true := by
  induction n generalizing s with
  | zero => exact h
  | succ n ih =>
    unfold State.ringDrain
    grind [State.memoryOk_modDie, State.memoryOk_ringPut]

theorem State.memoryOk_raiseEvent (die : Nat) (e : Event) : (s.raiseEvent die e).memoryOk = true :=
  State.memoryOk_ringDrain (s := s.modDie die _) h ..

theorem State.memoryOk_reportError (die line kind : Nat) (who : Event → Event) :
    (s.reportError die line kind who).memoryOk = true :=
  State.memoryOk_raiseStatus (State.memoryOk_raiseEvent (s := s.modDie _ _) h ..) _

theorem State.memoryOk_faultOnce (die asid page kind : Nat) (e : Event) :
    (s.faultOnce die asid page kind e).memoryOk = true := by
  unfold State.faultOnce
  split
  · exact h
  · exact State.memoryOk_raiseEvent (s := s.modDie _ _) h ..

/-! ### Traps (R322-R325, R336) -/

theorem State.memoryOk_bankError (c : Issue) (kind : Nat) (la : DWord) (lanes : Mask) :
    (s.bankError c kind la lanes).memoryOk = true :=
  State.memoryOk_raiseStatus (State.memoryOk_raiseEvent (s := s.modDie _ _) h ..) _

theorem State.memoryOk_coxCause (core : Nat) (pc : DWord) (cause : Nat) : (s.coxCause core pc cause).memoryOk = true := by
  grind [State.coxCause, State.memoryOk_modCore, State.memoryOk_raiseEvent, State.memoryOk_raiseStatus]

theorem State.memoryOk_stopAt (c : Issue) (cause : Nat) (d1 d2 : DWord) (lanes : Mask) :
    (s.stopAt c cause d1 d2 lanes).memoryOk = true := by
  grind [State.stopAt, State.memoryOk_coxCause, State.memoryOk_setGroup, State.memoryOk_leaveSeat, State.memoryOk_modCore]

theorem State.memoryOk_takeTrap (c : Issue) (cause : Nat) (d1 d2 : DWord) (lanes : Mask) :
    (s.takeTrap c cause d1 d2 lanes).memoryOk = true := by
  grind [State.takeTrap, State.memoryError, State.memoryOk_reportError, State.memoryOk_stopAt]

theorem State.memoryOk_trapGroup (gkey : Nat) (unit : DWord) (lanes shown : Mask) (cause : Nat) (d1 d2 : DWord) :
    (s.trapGroup gkey unit lanes shown cause d1 d2).memoryOk = true := by
  grind [State.trapGroup, State.memoryError, State.memoryOk_reportError, State.memoryOk_setGroup, State.memoryOk_leaveSeat,
    State.memoryOk_modCore]

/-! ### Requests to peers (R360, R363) -/

theorem State.memoryOk_sendFlit (kind dev : Nat) (r : PeerReq) : (s.sendFlit kind dev r).memoryOk = true := h
theorem State.memoryOk_answer (dev : Nat) (r : PeerReq) : (s.answer dev r).memoryOk = true := h

theorem State.memoryOk_requestOf (w : Nat × Nat × Option Nat) (m : List (Nat × Nat) × Mask) (dev va : Nat) (r : PeerReq) :
    (s.requestOf w m dev va r).2.memoryOk = true := h

/-! ### Translation (R197-R202) -/

theorem State.memoryOk_mark (addr e : Nat) (k : Acc) : (s.mark addr e k).memoryOk = true := by
  grind [State.mark, State.memoryOk_store]

theorem State.memoryOk_tlbFill (core : Nat) (t : TlbEntry) : (s.tlbFill core t).memoryOk = true := h

theorem State.memoryOk_cached (core asid page : Nat) : (s.cached core asid page).2.memoryOk = true := by
  unfold State.cached
  split
  · exact h
  · split <;> exact h

theorem State.memoryOk_translate (core asid va : Nat) (k : Acc) : (s.translate core asid va k).2.memoryOk = true := by
  unfold State.translate
  grind [State.memoryOk_cached, State.memoryOk_mark, State.memoryOk_tlbFill]

theorem State.memoryOk_laneFault (gkey : Nat) (g : Group) (p va cause : Nat) (k : Acc) (mask : Mask) :
    (s.laneFault gkey g p va cause k mask).memoryOk = true := State.memoryOk_faultOnce (State.memoryOk_park h ..) ..

theorem State.memoryOk_peerFault (gkey : Nat) (g : Group) (p va dev : Nat) (k : Acc) (mask : Mask) :
    (s.peerFault gkey g p va dev k mask).memoryOk = true := State.memoryOk_faultOnce (State.memoryOk_park h ..) ..

/-! ### Reads by a die's units (R202, R217, R336) -/

theorem State.memoryOk_diePlace {die asid va : Nat} {k : Acc} {x : Place} {t : State}
    (e : s.diePlace die asid va k = .ok (x, t)) : t.memoryOk = true := by
  grind [State.diePlace, State.memoryOk_mark]

theorem State.memoryOk_dieRead {die asid va n : Nat} {k : Acc} {bs : List Byte} {t : State}
    (e : s.dieRead die asid va n k = .ok (bs, t)) : t.memoryOk = true := by
  grind [State.dieRead, State.memoryOk_diePlace, State.memoryOk_metHost, State.memoryOk_modDie]

theorem State.memoryOk_dieFault (die : Nat) (x : DieStop) (k : Acc) (e : Event) : (s.dieFault die x k e).memoryOk = true := by
  grind [State.dieFault, State.memoryOk_diePlace, State.memoryOk_modDie, State.memoryOk_requestOf, State.memoryOk_faultOnce]

theorem State.memoryOk_readNode {die asid va : Nat} {k : Acc} {n : Nat} {d : NodeDesc} {b : Bool} {t : State}
    (e : s.readNode die asid va k = .ok (n, d, b, t)) : t.memoryOk = true := by
  unfold State.readNode at e
  split at e
  · cases e
  · have := State.memoryOk_dieRead h ‹_›
    grind [State.memoryOk_dieRead]

end
end Sys2Proof.Machine
end

section
/-! SUPPORT. Memories stay in canonical form, continued: deferred cells and landings (R108-R113, R222-R230). -/

namespace Sys2Proof.Machine

-- One proof at a time: a compile of the whole text stays within its memory.
set_option Elab.async false

section
variable {s : State} (h : s.memoryOk = true)
include h

/-! ### Ending an evaluation (R226, R228, R230) -/

theorem State.memoryOk_unlink (gkey pa : Nat) : (s.unlink gkey pa).memoryOk = true := by
  unfold State.unlink; split <;> exact h

theorem State.memoryOk_modEvaluation (pa : Nat) (f : CellEntry → CellEntry) : (s.modEvaluation pa f).memoryOk = true := h

theorem State.memoryOk_modChain (c : Nat) (f : Chain → Chain) : (s.modChain c f).memoryOk = true := h

theorem State.memoryOk_freeEvaluation (e : CellEntry) : (s.freeEvaluation e).memoryOk = true := by
  unfold State.freeEvaluation
  dsimp only
  split
  · exact h
  · split <;> exact h

theorem State.memoryOk_postedTraps (gkey : Nat) (xs : List Posted) (cause : Nat) (d1 : Posted → DWord) (d2 : DWord) :
    (s.postedTraps gkey xs cause d1 d2).memoryOk = true := by
  unfold State.postedTraps
  split
  · extract_lets now late s' m
    split
    · exact h
    · exact State.memoryOk_trapGroup (s := s') h ..
  · exact h

theorem State.memoryOk_wakeCell (pa gkey : Nat) (f : Group → Group) : ((s.unlink gkey pa).modGroup gkey f).memoryOk = true :=
  State.memoryOk_modGroup (State.memoryOk_unlink h ..) ..

theorem State.memoryOk_failWaiter (pa : Nat) (w : Waiter) : (s.failWaiter pa w).memoryOk = true := by
  unfold State.failWaiter
  split
  · exact h
  · split
    · exact h
    · have := State.memoryOk_wakeCell h pa w.gkey (·.wakeCell pa w.lanes)
      grind [State.memoryOk_postedTraps, State.memoryOk_trapGroup]

theorem State.memoryOk_failCell (pa : Nat) (notify : Bool) (chain : Nat) : (s.failCell pa notify chain).memoryOk = true := by
  have hw : ∀ e : CellEntry, (e.waiters.foldl (fun s w => s.failWaiter e.pa w)
      ((s.setTag pa tagFailed).freeEvaluation e)).memoryOk = true := fun e =>
    memoryOk_foldl (fun _ w h => State.memoryOk_failWaiter h e.pa w) _ (State.memoryOk_freeEvaluation (s := s.setTag _ _) h e)
  grind [State.failCell, State.memoryOk_setTag, State.memoryOk_raiseEvent]

theorem State.memoryOk_wakeWaiter (pa : Nat) (w : Waiter) : (s.wakeWaiter pa w).memoryOk = true := by
  grind [State.wakeWaiter, State.memoryOk_wakeCell, State.memoryOk_modCore]

theorem State.memoryOk_wakeWaiters (e : CellEntry) : (s.wakeWaiters e).memoryOk = true :=
  memoryOk_foldl (fun _ w h => State.memoryOk_wakeWaiter h e.pa w) (e.waiters.filter (·.peer.isNone)) h

theorem State.memoryOk_endWaits (gkey : Nat) : (s.endWaits gkey).memoryOk = true := by
  unfold State.endWaits
  extract_lets parked left ended starting s'
  exact memoryOk_foldl (fun _ pa h => State.memoryOk_unlink h gkey pa) ended (s := s') h

/-! ### The trigger (R224-R227) -/

theorem State.memoryOk_raisePrio (pa p n : Nat) : (s.raisePrio pa p n).memoryOk = true := by
  induction n generalizing s pa with
  | zero => exact h
  | succ n ih =>
    unfold State.raisePrio
    split
    · exact h
    · split
      · exact h
      · extract_lets s1 s2
        split
        · exact h
        · exact memoryOk_foldl (fun _ q h => ih h q) _ (State.memoryOk_modTeam (s := s2) h ..)

theorem State.memoryOk_hintDie (hint home starter : Nat) : (s.hintDie hint home starter).2.memoryOk = true := by
  unfold State.hintDie; split <;> exact h

theorem State.memoryOk_beginEvaluation (pa chain starter prio : Nat) (r : CellRec) (d : NodeDesc) (first : Waiter) :
    (s.beginEvaluation pa chain starter prio r d first).memoryOk = true := by
  unfold State.beginEvaluation
  extract_lets home p s1 s2 s3
  exact State.memoryOk_hintDie (s := s3) h ..

theorem State.memoryOk_newChain {die c : Nat} {t : State} (e : s.newChain die = some (c, t)) : t.memoryOk = true := by
  unfold State.newChain at e
  split at e
  · cases e
  · split at e <;> cases e
    exact h

theorem State.memoryOk_startCell (pa starter : Nat) (chain : Option Nat) (prio : Nat) (first : Waiter) :
    (s.startCell pa starter chain prio first).2.memoryOk = true := by
  unfold State.startCell
  dsimp only
  split
  · exact h
  · split
    · exact h
    · split
      · split <;> exact h
      · have := State.memoryOk_readNode h ‹_›
        grind [State.memoryOk_newChain, State.memoryOk_beginEvaluation]

theorem State.memoryOk_trigger (g : Group) (w : Waiter) (pa : Nat) : (s.trigger g w pa).2.memoryOk = true := by
  grind [State.trigger, State.memoryOk_startCell, State.memoryOk_modDie, State.memoryOk_modChain,
    State.memoryOk_modEvaluation, State.memoryOk_raisePrio]

/-! ### Auto-land and the end of a unit (R139, R323, R325) -/

theorem State.memoryOk_findSegment (die asid target va n : Nat) : (s.findSegment die asid target va n).2.memoryOk = true := by
  induction n generalizing s va with
  | zero => exact h
  | succ n ih =>
    unfold State.findSegment
    split
    · exact h
    · have := State.memoryOk_dieRead h ‹_›
      grind

theorem State.memoryOk_autoLand {c : Issue} {target : DWord} {t : State} (e : s.autoLand c target = some t) :
    t.memoryOk = true := by
  unfold State.autoLand at e
  split at e
  · cases e
  split at e
  · cases e
  rename_i tm _
  have := State.memoryOk_findSegment h tm.die tm.desc.asid target.toNat tm.desc.seg 64
  grind [State.memoryOk_takeTrap, State.memoryOk_modGroup, State.memoryOk_dieFault, State.memoryOk_setCore]

/-- However a unit ends, if its body completes with memories in canonical form they are so afterwards. -/
theorem memoryOk_settle {c : Issue} {r : Res} {t : State} (hr : ∀ t, r = .ok t → t.memoryOk = true)
    (e : settle s c r = .next t) : t.memoryOk = true := by
  unfold settle at e
  split at e
  · cases e; exact hr _ rfl
  · cases e; exact h
  · cases e; exact State.memoryOk_takeTrap (State.memoryOk_failCell h ..) ..
  · cases e; exact State.memoryOk_stopAt (State.memoryOk_bankError h ..) ..
  · split at e <;> cases e
    · rename_i hland
      split at hland
      · exact State.memoryOk_autoLand h hland
      · cases hland
    · exact State.memoryOk_takeTrap h ..

end
end Sys2Proof.Machine
end

section
/-! SUPPORT. Memories stay in canonical form, continued: the frames of units, posted atomics, loads, stores and atomics
(R10, R99-R103, R233-R242). -/

namespace Sys2Proof.Machine

-- One proof at a time: a compile of the whole text stays within its memory.
set_option Elab.async false

/-! ### Folds and frames -/

section
variable {s t : State} (h : s.memoryOk = true)
include h

theorem memoryOk_eachRes {α : Type} {f : α → State → Res}
    (hf : ∀ x s t, s.memoryOk = true → f x s = .ok t → t.memoryOk = true) {xs : List α} (e : eachRes f xs s = .ok t) :
    t.memoryOk = true := by
  induction xs generalizing s with
  | nil => cases e; exact h
  | cons x xs ih =>
    unfold eachRes at e
    split at e
    · exact ih (hf x s _ h ‹_›) e
    · cases e

theorem memoryOk_groupUnit {body : Issue → Group → Res} (hb : ∀ c g t, body c g = .ok t → t.memoryOk = true)
    (e : groupUnit s body = .next t) : t.memoryOk = true := by
  unfold groupUnit at e
  split at e
  · cases e
  · split at e
    · cases e; exact State.memoryOk_takeTrap h ..
    · split at e
      · cases e
      · exact memoryOk_settle h (hb _ _) e

theorem memoryOk_lanesUnit {gd : Nat} {f : Group → Lane → Lane} (e : lanesUnit gd f s = .next t) : t.memoryOk = true :=
  memoryOk_groupUnit h (fun _ _ _ e => by cases e; exact h) e

theorem memoryOk_uniformUnit {k : Nat} {f : UFile → UFile} (e : uniformUnit k f s = .next t) : t.memoryOk = true := by
  unfold uniformUnit at e
  split at e
  · cases e
  · split at e
    · cases e; exact h
    · split at e <;> cases e
      exact h

theorem memoryOk_guardedUnit {k : Nat} {body : Issue → Group → Res} (hb : ∀ c g t, body c g = .ok t → t.memoryOk = true)
    (e : guardedUnit k s body = .next t) : t.memoryOk = true :=
  memoryOk_groupUnit h (fun c g t e => by
    split at e
    · exact hb c g t e
    · cases e; exact h) e

theorem memoryOk_closingUnit {k : Nat} {body : Issue → Group → Res} (hb : ∀ c g t, body c g = .ok t → t.memoryOk = true)
    (e : closingUnit k s body = .next t) : t.memoryOk = true :=
  memoryOk_groupUnit h (fun c g t e => by
    split at e
    · cases e
      rename_i hres
      split at hres
      · exact State.memoryOk_modGroup (hb c g _ hres) ..
      · cases hres; exact State.memoryOk_modGroup (s := s.setGroup _ _) h ..
    · cases e) e

theorem memoryOk_closingLanes {body : Issue → Group → Res} (hb : ∀ c g t, body c g = .ok t → t.memoryOk = true)
    (e : closingLanes s body = .next t) : t.memoryOk = true :=
  memoryOk_groupUnit h (fun c g t e => by
    split at e <;> cases e
    exact State.memoryOk_modGroup (hb c g _ ‹_›) ..) e

theorem memoryOk_groupOrCox {cox : Issue → Out} {body : Issue → Group → Res}
    (hc : ∀ c t, cox c = .next t → t.memoryOk = true) (hb : ∀ c g t, body c g = .ok t → t.memoryOk = true)
    (e : groupOrCox s cox body = .next t) : t.memoryOk = true := by
  unfold groupOrCox at e
  split at e
  · cases e
  · split at e
    · exact hc _ _ e
    · exact memoryOk_groupUnit h hb e

theorem memoryOk_coxUnit {c : Issue} {f : Cox → Except Nat State} (hf : ∀ x t, f x = .ok t → t.memoryOk = true)
    (e : coxUnit s c f = .next t) : t.memoryOk = true := by
  unfold coxUnit at e
  split at e <;> cases e
  · exact State.memoryOk_takeTrap h ..
  · rename_i hok
    exact State.memoryOk_modCore (hf _ _ hok) ..

theorem memoryOk_coxGuarded {c : Issue} {f : Cox → Except Nat State} (hf : ∀ x t, f x = .ok t → t.memoryOk = true)
    (e : coxGuarded s c f = .next t) : t.memoryOk = true :=
  memoryOk_coxUnit h (fun x t e => by
    split at e
    · exact hf x t e
    · cases e; exact h) e

theorem memoryOk_coxAt {c : Issue} {a : USrc} {n : Nat} {f : Cox → Nat → Except Nat State}
    (hf : ∀ x y t, f x y = .ok t → t.memoryOk = true) (e : coxAt s c a n f = .next t) : t.memoryOk = true :=
  memoryOk_coxGuarded h (fun x t e => by
    split at e
    · cases e
    · exact hf _ _ t e) e

omit h in
theorem memoryOk_orCox {cox : Issue → Out} {group : Out} (hc : ∀ c t, cox c = .next t → t.memoryOk = true)
    (hg : ∀ t, group = .next t → t.memoryOk = true) (e : orCox s cox group = .next t) : t.memoryOk = true := by
  unfold orCox at e
  split at e
  · cases e
  · split at e
    · exact hc _ _ e
    · exact hg _ e

theorem memoryOk_coxControl {c : Issue} {f : Cox → Except Nat Cox} (e : coxControl s c f = .next t) :
    t.memoryOk = true := by
  unfold coxControl at e
  split at e <;> cases e
  · exact State.memoryOk_takeTrap h ..
  · exact h

omit h in
theorem coupledOnly_ok {c : Issue} {g : Group} {r : Res} (e : coupledOnly s c g r = .ok t) : r = .ok t := by
  unfold coupledOnly at e
  split at e
  · exact e
  · cases e

omit h in
theorem outsideOnly_ok {c : Issue} {g : Group} {r : Res} (e : outsideOnly s c g r = .ok t) : r = .ok t := by
  unfold outsideOnly at e
  split at e
  · cases e
  · exact e

end

/-! ### Posted atomics (R239) -/

section
variable {s : State} (h : s.memoryOk = true)
include h

theorem State.memoryOk_parkAll (gkey : Nat) (m : Mask) (w : ParkWhy) : (s.parkAll gkey m w).memoryOk = true :=
  State.memoryOk_modGroup h ..

theorem State.memoryOk_skip (c : Issue) (m : Mask) : (s.skip c m).memoryOk = true := State.memoryOk_modGroup h ..

theorem State.memoryOk_refresh (core a n : Nat) : (s.refresh core a n).memoryOk = true := by
  unfold State.refresh
  dsimp only
  split
  · exact State.memoryOk_metHost h a n
  · exact State.memoryOk_metHost h a n

theorem State.memoryOk_acquire (gkey scope : Nat) : (s.acquire gkey scope).memoryOk = true := by
  unfold State.acquire
  dsimp only
  split
  · split
    · exact State.memoryOk_modGroup (s := (State.forgetHost s).modCore _ _) h ..
    · exact State.memoryOk_modGroup (s := s.modCore _ _) h ..
  · split
    · exact State.memoryOk_modGroup h ..
    · exact h

theorem State.memoryOk_rmw (own : Option Nat) (pa major funct : Nat) (b swap : DWord) :
    (s.rmw own pa major funct b swap).2.memoryOk = true := by
  grind [State.rmw, State.memoryOk_store]

theorem State.memoryOk_postedWaits (x : Posted) (w : ParkWhy) : (s.postedWaits x w).memoryOk = true := h
theorem State.memoryOk_dropPosted (x : Posted) : (s.dropPosted x).memoryOk = true := h

theorem State.memoryOk_performOne {x : Posted} {t : State} (e : s.performOne x = .ok t) : t.memoryOk = true := by
  unfold State.performOne at e
  split at e
  · cases e; exact h
  have htr := State.memoryOk_translate h (coreOf x.gkey) (s.asidOf ‹_›) x.va .atomic
  dsimp only at e
  split at e
  · grind [State.memoryOk_postedWaits, State.memoryOk_faultOnce]
  · grind [State.memoryOk_postedWaits, State.memoryOk_faultOnce, State.memoryOk_requestOf]
  · grind [State.memoryOk_postedWaits, State.memoryOk_trigger, State.memoryOk_dieFault, State.memoryOk_rmw,
      State.memoryOk_refresh, State.memoryOk_dropPosted, State.memoryOk_modGroup]

/-- Posted atomics performed one after another, the first that cannot be holding the unit back. -/
theorem State.memoryOk_performAll {f : State → Posted → Except Halt State} {xs : List Posted} {t : State}
    (hf : ∀ s x t, s.memoryOk = true → f s x = .ok t → t.memoryOk = true)
    (e : eachRes (fun x s => match f s x with | .ok s => .ok s | .error _ => .error .hold) xs s = .ok t) :
    t.memoryOk = true :=
  memoryOk_eachRes h (fun x s t h e => by
    split at e <;> cases e
    exact hf s x t h ‹_›) e

theorem State.memoryOk_performPosted {x : Posted} {t : State} (e : s.performPosted x = .ok t) : t.memoryOk = true := by
  unfold State.performPosted at e
  extract_lets before at e
  split at e
  · exact State.memoryOk_performOne h e
  · split at e
    · cases e
    · split at e
      · exact State.memoryOk_performOne (State.memoryOk_performAll h (fun _ _ _ h e => State.memoryOk_performOne h e) ‹_›) e
      · cases e

theorem State.memoryOk_complete {gkey : Nat} {f : Posted → Bool} {t : State} (e : s.complete gkey f = .ok t) :
    t.memoryOk = true := by
  unfold State.complete State.flushPosted at e
  split at e
  · cases e
  · split at e <;> cases e
    exact State.memoryOk_performAll h (fun _ _ _ h e => State.memoryOk_performPosted h e) ‹_›

theorem memoryOk_settled {c : Issue} {f : State → Res} {t : State}
    (hf : ∀ s t, s.memoryOk = true → f s = .ok t → t.memoryOk = true) (e : settled s c f = .ok t) : t.memoryOk = true := by
  unfold settled at e
  split at e
  · cases e
  · exact hf _ _ (State.memoryOk_complete h ‹_›) e

theorem State.memoryOk_settleLane {gkey p va n : Nat} {t : State} (e : s.settleLane gkey p va n = .ok t) :
    t.memoryOk = true := by
  grind [State.settleLane, State.memoryOk_complete]

theorem State.memoryOk_release {gkey scope : Nat} {lanes : Mask} {t : State} (e : s.release gkey lanes scope = .ok t) :
    t.memoryOk = true := by
  grind [State.release, State.memoryOk_complete]

theorem State.memoryOk_lateTrap (x : Posted) (w : Nat × DWord × DWord × Mask) : (s.lateTrap x w).memoryOk = true := by
  grind [State.lateTrap, State.memoryOk_dropPosted, State.memoryOk_trapGroup]

theorem State.memoryOk_postedTrap (x : Posted) (cause : Nat) (d1 d2 : DWord) : (s.postedTrap x cause d1 d2).memoryOk = true :=
  State.memoryOk_postedTraps h ..

theorem State.memoryOk_tryPosted (x : Posted) : (s.tryPosted x).memoryOk = true := by
  grind [State.tryPosted, State.memoryOk_lateTrap, State.memoryOk_performPosted, State.memoryOk_postedTrap,
    State.memoryOk_failCell]

theorem State.memoryOk_retryPosted (core : Nat) (f : Posted → Bool) : (s.retryPosted core f).memoryOk = true :=
  memoryOk_foldl (fun s _ h => State.memoryOk_tryPosted (s := s.modCore core _) h _) _ h

theorem State.memoryOk_parkPosted (core : Nat) : (s.parkPosted core).memoryOk = true :=
  memoryOk_foldl (fun s x h => by
    split
    · exact h
    · exact h
    · exact State.memoryOk_modGroup h ..) _ h

/-! ### Loads (R100, R193, R202, R224) -/

theorem State.memoryOk_meetCell {gkey : Nat} {g : Group} {m : Mask} {pa va : Nat} {t : State}
    (e : s.meetCell gkey g m pa va = .ok t) : t.memoryOk = true := by
  unfold State.meetCell at e
  dsimp only at e
  split at e
  · cases e
  · have := State.memoryOk_complete h ‹_›
    grind [State.memoryOk_trigger, State.memoryOk_parkAll, State.memoryOk_dieFault]

theorem State.memoryOk_askPeer (gkey : Nat) (g : Group) (p va dev : Nat) (k : Acc) (r : PeerReq) (set : Option Mask)
    (mask : Mask) : (s.askPeer gkey g p va dev k r set mask).2.memoryOk = true := by
  grind [State.askPeer, State.memoryOk_modLane, State.memoryOk_requestOf, State.memoryOk_park, State.memoryOk_peerFault]

theorem State.memoryOk_laneLoad {l1 : Bool} {gkey : Nat} {g : Group} {p va n : Nat} {set : Option Mask} {near : Nat → Mask}
    {bs : Option (List Byte)} {t : State} (e : s.laneLoad l1 gkey g p va n set near = .ok (bs, t)) : t.memoryOk = true := by
  unfold State.laneLoad at e
  dsimp only at e
  have htr := State.memoryOk_translate h (coreOf gkey) (s.asidOf g) va .load
  split at e
  · grind [State.memoryOk_laneFault]
  · grind [State.memoryOk_askPeer]
  · grind [State.memoryOk_meetCell, State.memoryOk_metHost, State.memoryOk_modCore, State.memoryOk_refresh,
      State.memoryOk_draw]

end
end Sys2Proof.Machine
end

section
/-! SUPPORT. Memories stay in canonical form, continued: the accesses of units (R99-R103, R233-R242). -/

namespace Sys2Proof.Machine

-- One proof at a time: a compile of the whole text stays within its memory.
set_option Elab.async false

section
variable {s t : State} (h : s.memoryOk = true)
include h

/-! ### Units of lane accesses -/

theorem memoryOk_eachLane {c : Issue} {size : Nat} {xs : List (Nat × DWord)}
    {act : Nat → Nat → (Nat → Mask) → State → Res}
    (ha : ∀ p va near s t, s.memoryOk = true → act p va near s = .ok t → t.memoryOk = true)
    (e : eachLane c size xs act s = .ok t) : t.memoryOk = true :=
  memoryOk_eachRes h (fun x s t h e => by
    split at e
    · cases e
    · have := State.memoryOk_settleLane h ‹_›
      split at e
      · exact ha _ _ _ _ _ this e
      · cases e; exact this) e

theorem State.memoryOk_loadLanes {l1 : Bool} {c : Issue} {g : Group} {m : Mask} {size : Nat} {addr : Lane → DWord}
    {put : List Byte → Lane → Lane} (e : s.loadLanes l1 c g m size addr put = .ok t) : t.memoryOk = true := by
  unfold State.loadLanes at e
  dsimp only at e
  split at e
  · cases e
  · exact memoryOk_eachLane (State.memoryOk_skip h ..) (fun p va near s t h e => by
      grind [State.memoryOk_laneLoad, State.memoryOk_finish]) e

omit h in
theorem memoryOk_acquireAfter {c : Issue} {m : Addr} {r : Res} (hr : ∀ t, r = .ok t → t.memoryOk = true)
    (e : acquireAfter c m r = .ok t) : t.memoryOk = true := by
  cases r with
  | ok t => cases e; split <;> grind [State.memoryOk_acquire]
  | error _ => cases e

theorem memoryOk_releaseBefore {c : Issue} {m : Addr} {f : Issue → State → Res}
    (hf : ∀ c s t, s.memoryOk = true → f c s = .ok t → t.memoryOk = true) (e : releaseBefore s c m f = .ok t) :
    t.memoryOk = true := by
  unfold releaseBefore at e
  split at e
  · split at e
    · cases e
    · exact hf _ _ _ (State.memoryOk_release h ‹_›) e
  · exact hf _ _ _ h e

theorem State.memoryOk_storeTargets (gkey : Nat) (g : Group) (xs ys : List (Nat × DWord)) :
    (s.storeTargets gkey g xs ys).2.memoryOk = true := by
  induction ys generalizing s with
  | nil => exact h
  | cons y ys ih =>
    unfold State.storeTargets
    have htr := State.memoryOk_translate h (coreOf gkey) (s.asidOf g) y.2.toNat .store
    grind [State.memoryOk_laneFault, State.memoryOk_peerFault]

theorem State.memoryOk_storeAll (c : Issue) (g : Group) (size : Nat) (data : Lane → List Byte) (ts us : List Target) :
    (s.storeAll c g size data ts us).memoryOk = true := by
  induction us generalizing s with
  | nil => exact h
  | cons u us ih =>
    cases u with
    | here p va pa tagged =>
      grind [State.storeAll, State.memoryOk_store, State.memoryOk_setTag, State.memoryOk_finish]
    | peer p va dev pa => grind [State.storeAll, State.memoryOk_requestOf, State.memoryOk_finish]

theorem State.memoryOk_storeLanes {c : Issue} {g : Group} {m : Mask} {size : Nat} {addr : Lane → DWord}
    {data : Lane → List Byte} (e : s.storeLanes c g m size addr data = .ok t) : t.memoryOk = true := by
  unfold State.storeLanes at e
  dsimp only at e
  split at e
  · cases e
  · split at e
    · cases e
    · have := memoryOk_eachRes (State.memoryOk_skip h ..) (fun _ _ _ h e => State.memoryOk_settleLane h e) ‹_›
      grind [State.memoryOk_storeTargets, State.memoryOk_storeAll]

theorem State.memoryOk_localLanes {c : Issue} {g : Group} {m : Mask} {size : Nat} {kind : Option Nat} {sp : Lane → Space}
    {la : Lane → Word} {act : Nat → Space → Nat → Nat → State → State}
    (ha : ∀ p sp tid x s, s.memoryOk = true → (act p sp tid x s).memoryOk = true)
    (e : s.localLanes c g m size kind sp la act = .ok t) : t.memoryOk = true := by
  unfold State.localLanes at e
  split at e
  · cases e
  dsimp only at e
  split at e
  · cases e
  split at e
  · cases e
  split at e <;> cases e
  refine memoryOk_foldl (fun s x h => ?_) _ (State.memoryOk_skip h ..)
  split <;> exact ha _ _ _ _ s h

theorem State.memoryOk_setLocal (tid : Nat) (sp : Space) (a : Nat) (bs : List Byte) : (s.setLocal tid sp a bs).memoryOk = true :=
  State.memoryOk_modTeam h ..

theorem memoryOk_localLoad {sp : Space} {d : LDst} {a : LSrc} {m : Addr} {z g : Nat}
    (e : localLoad sp d a m z g s = .next t) : t.memoryOk = true :=
  memoryOk_groupUnit h (fun _ _ _ e => memoryOk_acquireAfter
    (fun _ e => State.memoryOk_localLanes h (fun _ _ _ _ _ h => State.memoryOk_finish h ..) e) e) e

theorem memoryOk_localStore {sp : Space} {d a : LSrc} {m : Addr} {z g : Nat}
    (e : localStore sp d a m z g s = .next t) : t.memoryOk = true :=
  memoryOk_groupUnit h (fun _ _ _ e => memoryOk_releaseBefore h (fun _ _ _ h e =>
    State.memoryOk_localLanes h (fun _ _ _ _ _ h => State.memoryOk_finish (State.memoryOk_setLocal h ..) ..) e) e) e

theorem memoryOk_execLdg {d : LDst} {a : LSrc} {m : Addr} {z g : Nat} (e : execLdg d a m z g s = .next t) :
    t.memoryOk = true :=
  memoryOk_groupUnit h (fun _ _ _ e => memoryOk_acquireAfter (fun _ e => State.memoryOk_loadLanes h e) e) e

theorem memoryOk_execStg {d a : LSrc} {m : Addr} {z g : Nat} (e : execStg d a m z g s = .next t) : t.memoryOk = true :=
  memoryOk_groupUnit h (fun _ _ _ e => memoryOk_releaseBefore h (fun _ _ _ h e => State.memoryOk_storeLanes h e) e) e

theorem memoryOk_execLdp {d : LDst} {a : LSrc} {m : Addr} {z g : Nat} (e : execLdp d a m z g s = .next t) :
    t.memoryOk = true :=
  memoryOk_groupUnit h (fun _ _ _ e => by
    dsimp only at e
    split at e
    · cases e
    · refine memoryOk_acquireAfter (fun _ e => ?_) e
      cases e
      exact State.memoryOk_modGroup (State.memoryOk_loadLanes h ‹_›) ..) e

/-! ### Atomics (R238-R242) -/

theorem State.memoryOk_laneRmw {gkey : Nat} {g : Group} {p va major funct : Nat} {b swap : DWord} {near : Nat → Mask}
    {old : Option Nat} (e : s.laneRmw gkey g p va major funct b swap near = .ok (old, t)) : t.memoryOk = true := by
  unfold State.laneRmw at e
  dsimp only at e
  have htr := State.memoryOk_translate h (coreOf gkey) (s.asidOf g) va .atomic
  split at e
  · grind [State.memoryOk_laneFault]
  · grind [State.memoryOk_askPeer]
  · grind [State.memoryOk_meetCell, State.memoryOk_rmw, State.memoryOk_refresh]

theorem State.memoryOk_rmwDone (c : Issue) (p major funct : Nat) (d : LDst) (old : Nat) (b : DWord) :
    (s.rmwDone c p major funct d old b).memoryOk = true := by
  grind [State.rmwDone, State.memoryOk_finish, State.memoryOk_modGroup]

theorem memoryOk_atomG {major funct : Nat} {d : LDst} {a : LSrc} {b swap : Lane → DWord} {r : Bool} {g : Nat}
    (e : atomG major funct d a b swap r g s = .next t) : t.memoryOk = true :=
  memoryOk_closingLanes h (fun c _ t e => by
    dsimp only at e
    split at e
    · cases e
    · split at e
      · cases e; exact State.memoryOk_advance (s := s.modCore _ _) h c
      · exact memoryOk_eachLane (State.memoryOk_skip h ..) (fun p va near s t h e => by
          grind [State.memoryOk_laneRmw, State.memoryOk_rmwDone]) e) e

theorem memoryOk_atomS {funct : Nat} {d : LDst} {a : LSrc} {b swap : Lane → DWord} {g : Nat}
    (e : atomS funct d a b swap g s = .next t) : t.memoryOk = true :=
  memoryOk_closingLanes h (fun _ _ _ e => State.memoryOk_localLanes h (fun p sp tid x s h => by
    dsimp only
    split
    · exact State.memoryOk_rmwDone (State.memoryOk_setLocal h ..) ..
    · exact State.memoryOk_rmwDone h ..) e) e

/-! ### Uniform accesses (R103, R341) -/

theorem State.memoryOk_uniformRead {l1 : Bool} {c : Issue} {g : Group} {va n : Nat} {bs : Option (List Byte)}
    (e : s.uniformRead l1 c g va n = .ok (bs, t)) : t.memoryOk = true := by
  unfold State.uniformRead at e
  dsimp only at e
  split at e
  · cases e; exact h
  · grind [State.memoryOk_laneLoad, State.memoryOk_parkAll]

theorem State.memoryOk_uniformLoad {c : Issue} {g : Group} {va n : Nat} {bs : Option (List Byte)}
    (e : s.uniformLoad c g va n = .ok (bs, t)) : t.memoryOk = true := State.memoryOk_uniformRead h e

theorem State.memoryOk_uniformStore {c : Issue} {g : Group} {va : Nat} {bs : List Byte}
    (e : s.uniformStore c g va bs = .ok t) : t.memoryOk = true := by
  unfold State.uniformStore at e
  split at e
  · cases e; exact h
  have htr := State.memoryOk_translate h (coreOf c.gkey) (s.asidOf g) va .store
  split at e
  · grind [State.memoryOk_laneFault, State.memoryOk_parkAll]
  · grind [State.memoryOk_requestOf, State.memoryOk_advance, State.memoryOk_peerFault, State.memoryOk_parkAll]
  · grind [State.memoryOk_store, State.memoryOk_setTag, State.memoryOk_advance]

theorem State.memoryOk_coxWrite (core a : Nat) (bs : List Byte) : (s.coxWrite core a bs).memoryOk = true := by
  grind [State.coxWrite, State.memoryOk_modCore, State.memoryOk_store]

/-- The accesses of an issuing set come after the lanes' own posted atomics. -/
theorem State.memoryOk_settleAll {c : Issue} {va n : Nat} {ps : List Nat}
    (e : eachRes (fun p s => s.settleLane c.gkey p va n) ps s = .ok t) : t.memoryOk = true :=
  memoryOk_eachRes h (fun _ _ _ h e => State.memoryOk_settleLane h e) e

theorem memoryOk_execSld {d : UDst} {a : USrc} {i : BitVec 13} (e : execSld d a i s = .next t) : t.memoryOk = true := by
  refine memoryOk_groupOrCox h (fun c t e => ?_) (fun c g t e => ?_) e
  · split at e
    · cases e; exact h
    · exact memoryOk_coxUnit h (fun x t e => by grind [State.memoryOk_modCore]) e
  · have hs := fun s' => State.memoryOk_settleAll h (c := c) (va := (uniformAddress a i g.u).toNat) (n := 8)
      (ps := positions c.lanes) (t := s')
    grind [State.memoryOk_advance, State.memoryOk_uniformLoad, State.memoryOk_modGroup]

theorem memoryOk_execSst {d a : USrc} {i : BitVec 13} (e : execSst d a i s = .next t) : t.memoryOk = true := by
  refine memoryOk_groupOrCox h (fun c t e => ?_) (fun c g t e => ?_) e
  · split at e
    · cases e; exact h
    · exact memoryOk_coxUnit h (fun x t e => by grind [State.memoryOk_coxWrite]) e
  · have hs := fun s' => State.memoryOk_settleAll h (c := c) (va := (uniformAddress a i g.u).toNat) (n := 8)
      (ps := positions c.lanes) (t := s')
    grind [State.memoryOk_advance, State.memoryOk_uniformStore]

end
end Sys2Proof.Machine
end

section
/-! SUPPORT. Memories stay in canonical form, continued: arrivals, width calls and gathers (R144-R177, R148-R165). -/

namespace Sys2Proof.Machine

-- One proof at a time: a compile of the whole text stays within its memory.
set_option Elab.async false

section
variable {s t : State} (h : s.memoryOk = true)
include h

theorem State.memoryOk_newSlot {core key : Nat} (e : s.newSlot core = some (key, t)) : t.memoryOk = true := by
  unfold State.newSlot at e
  split at e <;> cases e
  exact h

/-! ### What an arrival completes (R144-R146, R154, R166, R171-R177) -/

theorem State.memoryOk_finishMask (gkey : Nat) (unit : DWord) (lanes : Mask) : (s.finishMask gkey unit lanes).memoryOk = true := by
  grind [State.finishMask, State.memoryOk_setGroup, State.memoryOk_trapGroup]

theorem State.memoryOk_wakeGroups (ks : List Nat) (b : BarKind) (scope : Nat) : (s.wakeGroups ks b scope).memoryOk = true :=
  memoryOk_foldl (fun _ k h => State.memoryOk_modGroup (State.memoryOk_acquire h k scope) k _) ks h

/-- One change of each group of a list. -/
theorem State.memoryOk_modGroups {α : Type} (k : α → Nat) (f : α → Group → Group) (xs : List α) :
    (xs.foldl (fun s x => s.modGroup (k x) (f x)) s).memoryOk = true :=
  memoryOk_foldl (fun _ _ h => State.memoryOk_modGroup h ..) xs h

theorem State.memoryOk_finishTeam (tid gkey : Nat) (unit : DWord) (lanes : Mask) :
    (s.finishTeam tid gkey unit lanes).memoryOk = true := by
  unfold State.finishTeam
  split
  · exact h
  extract_lets gs
  split
  · exact h
  split
  · split
    · exact h
    · exact State.memoryOk_trapGroup (s := s.setTeam _ _) h ..
  split
  · exact State.memoryOk_setTeam (State.memoryOk_wakeGroups h ..) ..
  · exact State.memoryOk_setTeam (State.memoryOk_modGroups h (fun k => k) _ _) ..

theorem State.memoryOk_finishCluster (tid : Nat) : (s.finishCluster tid).memoryOk = true := by
  grind [State.finishCluster, State.memoryOk_wakeGroups]

theorem State.memoryOk_regroupParts (tm : Team) (gs : List (Nat × Group)) (ps : List (Nat × List (Nat × Lane))) :
    (s.regroupParts tm gs ps).memoryOk = true := by
  induction ps generalizing s with
  | nil => exact h
  | cons p ps ih =>
    unfold State.regroupParts
    grind [State.regroupSlot, State.memoryOk_newSlot, State.memoryOk_setGroup]

theorem State.memoryOk_moveWaits (before : State) (tid : Nat) : (before.moveWaits s tid).memoryOk = true := h

theorem State.memoryOk_dropGroups {α : Type} (k : α → Nat) (xs : List α) :
    (xs.foldl (fun s x => s.dropGroup (k x)) s).memoryOk = true :=
  memoryOk_foldl (fun _ _ h => State.memoryOk_dropGroup h _) xs h

theorem State.memoryOk_finishRegroup (tid : Nat) : (s.finishRegroup tid).memoryOk = true := by
  unfold State.finishRegroup
  split
  · exact h
  extract_lets gs parked
  split
  · exact h
  split
  · exact State.memoryOk_modGroups h Prod.fst _ _
  · exact State.memoryOk_dropGroups (State.memoryOk_moveWaits (State.memoryOk_regroupParts
      (State.memoryOk_modGroups h Prod.fst _ _) ..) ..) Prod.fst _

theorem State.memoryOk_testGather (gkey : Nat) (team : Bool) : (s.testGather gkey team).memoryOk = true := by
  unfold State.testGather
  split
  · exact h
  split
  · exact h
  dsimp only
  split <;> exact h

theorem State.memoryOk_rendezvous (gkey : Nat) (unit : DWord) (lanes : Mask) : (s.rendezvous gkey unit lanes).memoryOk = true := by
  unfold State.rendezvous
  split
  · exact h
  · exact State.memoryOk_testGather (State.memoryOk_testGather (State.memoryOk_finishRegroup (State.memoryOk_finishCluster
      (State.memoryOk_finishTeam (State.memoryOk_finishMask (State.memoryOk_setGroup h ..) ..) ..) _) _) ..) ..

theorem State.memoryOk_holdOperand (c : Issue) (a n : Nat) (reuse : Bool) : (s.holdOperand c a n reuse).memoryOk = true := by
  unfold State.holdOperand; split <;> exact h

theorem State.memoryOk_arrive (c : Issue) (g : Group) (u : CollUnit) : (s.arrive c g u).memoryOk = true :=
  State.memoryOk_rendezvous (State.memoryOk_setGroup h ..) ..

theorem memoryOk_collective {u : CollUnit} (e : collective u s = .next t) : t.memoryOk = true :=
  memoryOk_groupUnit h (fun c g _ e => by
    cases coupledOnly_ok e
    exact State.memoryOk_arrive h c g u) e

theorem memoryOk_barArrive {b : BarKind} {scope : Nat} {mark : TeamBar → TeamBar} (e : barArrive b scope mark s = .next t) :
    t.memoryOk = true :=
  memoryOk_closingUnit h (fun c g t e => by
    have hres := outsideOnly_ok e
    split at hres
    · cases hres
    · cases hres
      exact State.memoryOk_rendezvous (State.memoryOk_modTeam (State.memoryOk_modGroup (State.memoryOk_release h ‹_›) ..) ..) ..) e

theorem memoryOk_execBarMask {a : USrc} (e : execBarMask a s = .next t) : t.memoryOk = true :=
  memoryOk_closingUnit h (fun c g t e => by
    have hres := outsideOnly_ok e
    split at hres
    · cases hres; exact State.memoryOk_advance h c
    · split at hres
      · cases hres
      · cases hres
        exact State.memoryOk_rendezvous (State.memoryOk_modGroup (State.memoryOk_release h ‹_›) ..) ..) e

theorem memoryOk_mfrag {f : Fmt} {d a b sel : Nat} {reuse acc : Bool} {gd : Nat}
    (e : mfrag f d a b sel reuse acc gd s = .next t) : t.memoryOk = true :=
  memoryOk_groupUnit h (fun c g _ e => by
    have hres := coupledOnly_ok e
    split at hres <;> cases hres
    exact State.memoryOk_arrive (State.memoryOk_holdOperand h ..) ..) e

/-! ### Width calls (R148-R153) -/

theorem State.memoryOk_modCaller (id i : Nat) (f : Caller → Caller) : (s.modCaller id i f).memoryOk = true := h

theorem State.memoryOk_finishWiden (id : Nat) : (s.finishWiden id).memoryOk = true := by
  unfold State.finishWiden
  split
  · exact h
  split
  · exact h
  extract_lets m s1 s2 s3
  have h1 : s1.memoryOk = true := State.memoryOk_modGroup h ..
  have h2 : s2.memoryOk = true := State.memoryOk_dropGroups h1 (fun k => k) _
  exact State.memoryOk_modTeam (s := s2) h2 ..

theorem State.memoryOk_callerDone (id i : Nat) : (s.callerDone id i).memoryOk = true := by
  unfold State.callerDone
  split
  · exact h
  · exact State.memoryOk_finishWiden (State.memoryOk_modCaller (State.memoryOk_modLane h ..) ..) _

theorem State.memoryOk_fillReserve (id i base key : Nat) : (s.fillReserve id i base key).memoryOk = true := by
  unfold State.fillReserve
  split
  · exact h
  · split <;> exact h

theorem State.memoryOk_startReserve (tid level : Nat) : (s.startReserve tid level).memoryOk = true := by
  unfold State.startReserve
  split
  · exact h
  split
  · exact h
  split
  · have := State.memoryOk_newSlot h ‹_›
    split
    · exact this
    · exact State.memoryOk_fillReserve (State.memoryOk_modLane (State.memoryOk_modTeam this ..) ..) ..
  · exact h

theorem State.memoryOk_calleeEnded (id i gkey : Nat) : (s.calleeEnded id i gkey).memoryOk = true := by
  have := State.memoryOk_modCaller h id i
  grind [State.calleeEnded, State.memoryOk_modGroup, State.memoryOk_dropGroup, State.memoryOk_modTeam,
    State.memoryOk_callerDone, State.memoryOk_startReserve, State.memoryOk_fillReserve]

theorem State.memoryOk_slotPlace {gkey : Nat} {g : Group} {p va frame : Nat} {x : Option Place}
    (e : s.slotPlace gkey g p va frame = .ok (x, t)) : t.memoryOk = true := by
  have htr := State.memoryOk_translate h (coreOf gkey) (s.asidOf g) va .store
  unfold State.slotPlace at e
  dsimp only at e
  split at e
  · cases e
  split at e
  · grind [State.memoryOk_laneFault]
  · grind [State.memoryOk_peerFault]
  · grind

theorem State.memoryOk_slotPlaces {gkey : Nat} {g : Group} {level : Nat} {frame : Nat → Nat} {ps : List Nat}
    {x : Option (List (Nat × Place))} (e : s.slotPlaces gkey g level frame ps = .ok (x, t)) : t.memoryOk = true := by
  induction ps generalizing s t x with
  | nil => cases e; exact h
  | cons p ps ih =>
    unfold State.slotPlaces at e
    split at e
    · cases e
    · have := State.memoryOk_slotPlace h ‹_›
      split at e <;> cases e
      exact ih this ‹_›

theorem State.memoryOk_openGroups {core id : Nat} {g : Group} {level : Nat} {hdr : Word} {target : DWord}
    {callers : List Caller} {spots : List Spot} {gi n : Nat}
    (e : s.openGroups core id g level hdr target callers spots gi n = some t) : t.memoryOk = true := by
  induction n generalizing s gi with
  | zero => cases e; exact h
  | succ n ih =>
    unfold State.openGroups at e
    split at e
    · cases e
    · rename_i hslot
      have hnew := State.memoryOk_newSlot h hslot
      refine ih ?_ e
      exact hnew

theorem State.memoryOk_saveLane (gkey : Nat) (g : Group) (p va : Nat) (l : Lane) (frame : Nat) (s55 : DWord) (x : Place) :
    (s.saveLane gkey g p va l frame s55 x).memoryOk = true := by
  unfold State.saveLane
  split
  · refine State.memoryOk_store _ _ _ (State.memoryOk_store _ _ _ ?_)
    split
    · refine memoryOk_foldl (fun s x h => ?_) _ h
      split
      · exact State.memoryOk_setTag h ..
      · exact h
    · exact h
  · exact memoryOk_foldl (fun _ _ h => State.memoryOk_requestOf h ..) _ h

theorem State.memoryOk_startSerial (c : Issue) (g : Group) (hdr : Word) (target : DWord) (level : Nat)
    (callers : List Caller) (places : List (Nat × Place)) :
    (s.startSerial c g hdr target level callers places).memoryOk = true :=
  memoryOk_foldl (fun s x h => by
    dsimp only
    split
    · exact h
    · exact State.memoryOk_modGroup (State.memoryOk_saveLane h ..) ..) _ h

theorem State.memoryOk_widen {c : Issue} {g : Group} {target : DWord} {counts : Lane → Nat}
    (e : s.widen c g target counts = .ok t) : t.memoryOk = true := by
  unfold State.widen at e
  extract_lets core at e
  split at e
  · cases e
  split at e
  · cases e
  split at e
  · cases e
  split at e
  · cases e
  extract_lets claims fall at e
  split at e
  · cases e
  split at e
  · cases e
  · cases e
    exact State.memoryOk_modGroup (State.memoryOk_slotPlaces h ‹_›) ..
  · have h1 := State.memoryOk_slotPlaces h ‹_›
    extract_lets callers id w s1 s2 at e
    split at e <;> cases e
    have h2 := State.memoryOk_openGroups (s := s2) h1 ‹_›
    refine State.memoryOk_modGroup (State.memoryOk_finishWiden (State.memoryOk_startReserve
      (memoryOk_foldl (fun s x h => ?_) _ (State.memoryOk_startSerial (State.memoryOk_modGroup h2 ..) ..)) ..) _) ..
    split
    · exact State.memoryOk_modLane h ..
    · exact h

theorem memoryOk_execWiden {a : USrc} {b : LSrc} (e : execWiden a b s = .next t) : t.memoryOk = true :=
  memoryOk_groupUnit h (fun c _ _ e => by
    split at e
    · cases e; exact State.memoryOk_modGroup (State.memoryOk_advance h c) ..
    · exact memoryOk_settled h (fun _ _ h e => State.memoryOk_widen h e) e) e

/-! ### GATHER (R154-R159) -/

theorem memoryOk_execGather {a : USrc} {team : Bool} (e : execGather a team s = .next t) : t.memoryOk = true :=
  memoryOk_closingUnit h (fun _ _ _ e => by
    dsimp only at e
    split at e
    · cases e
    · exact memoryOk_settled h (fun _ _ h e => by
        cases e; exact State.memoryOk_rendezvous (State.memoryOk_modGroup h ..) ..) e) e

theorem State.memoryOk_startHere (tid : Nat) (tm : Team) (f : Firing) (r : GatherRun) (hdr : Word) (v : List Word)
    (area : Tab Word) (k p : Nat) (g : Group) : (s.startHere tid tm f r hdr v area k p g).memoryOk = true := by
  unfold State.startHere
  dsimp only
  split
  · exact State.memoryOk_trapGroup h ..
  · exact h
  · exact State.memoryOk_setTeam (State.memoryOk_slotPlace h ‹_›) ..
  · exact State.memoryOk_setTeam (State.memoryOk_modGroup (State.memoryOk_saveLane (State.memoryOk_slotPlace h ‹_›) ..) ..) ..

theorem State.memoryOk_startRun (tid : Nat) (tm : Team) (f : Firing) (r : GatherRun) (k p : Nat) :
    (s.startRun tid tm f r k p).memoryOk = true := by
  unfold State.startRun
  split
  · exact h
  dsimp only
  split
  · rename_i hslot
    split at hslot
    · exact State.memoryOk_setTeam (State.memoryOk_setGroup (State.memoryOk_newSlot h hslot) ..) ..
    · cases hslot
  · exact State.memoryOk_startHere h ..

theorem State.memoryOk_retryRuns : s.retryRuns.memoryOk = true :=
  memoryOk_foldl (fun _ x h => memoryOk_foldl (fun s f h => by
    split
    · split
      · exact State.memoryOk_modTeam (State.memoryOk_modLane h ..) ..
      · exact h
    · exact h) x.2.firings h) s.teams h

theorem memoryOk_execGatherFiring {tid : Nat} (e : execGatherFiring tid s = .next t) : t.memoryOk = true := by
  unfold execGatherFiring at e
  split at e
  · cases e; exact h
  split at e
  · cases e; exact h
  split at e
  · cases e; exact h
  split at e
  · dsimp only at e
    split at e <;> cases e
    · rename_i hland
      split at hland
      · exact State.memoryOk_autoLand h hland
      · cases hland
    · exact State.memoryOk_trapGroup (State.memoryOk_setTeam h ..) ..
  · cases e; exact h
  · split at e <;> cases e
    · exact h
    · exact State.memoryOk_startRun (State.memoryOk_setTeam h ..) ..

theorem State.memoryOk_gatherResults (tm : Team) (hdr : Word) (v : List Word) (i : Nat) (xs : List (Nat × Nat)) :
    (s.gatherResults tm hdr v i xs).memoryOk = true := by
  induction xs generalizing s i with
  | nil => exact h
  | cons x xs ih => exact ih (State.memoryOk_modLane h ..) _

theorem State.memoryOk_endFiring (tid : Nat) (f : Firing) : (s.endFiring tid f).memoryOk = true :=
  State.memoryOk_modTeam (memoryOk_foldl (fun _ _ h => State.memoryOk_modLane h ..) f.callers h) ..

theorem State.memoryOk_gatherRet {c : Issue} {tid level p : Nat} (e : s.gatherRet c tid level p = .ok t) :
    t.memoryOk = true := by
  unfold State.gatherRet at e
  split at e
  swap
  · cases e
  split at e
  · cases e
  extract_lets run v f' finish at e
  have hfin : ∀ u : State, u.memoryOk = true → (finish u).memoryOk = true := fun u hu => by
    simp only [finish]
    split
    · exact State.memoryOk_endFiring (State.memoryOk_modTeam
        (State.memoryOk_modGroups (State.memoryOk_gatherResults hu ..) (fun k => k) _ _) ..) ..
    · exact State.memoryOk_modTeam (State.memoryOk_modGroups (State.memoryOk_gatherResults hu ..) (fun k => k) _ _) ..
  split at e
  · cases e
    exact hfin _ (State.memoryOk_modTeam (State.memoryOk_dropGroup h _) ..)
  · split at e
    · cases e
    · cases e; exact State.memoryOk_laneLoad h ‹_›
    · cases e; exact hfin _ (State.memoryOk_modGroup (State.memoryOk_laneLoad h ‹_›) ..)

/-! ### RET, GARG, GRES and EXIT (R115, R152, R153, R164, R165) -/

theorem State.memoryOk_parallelRet (c : Issue) (g : Group) (id p : Nat) : (s.parallelRet c g id p).memoryOk = true := by
  unfold State.parallelRet
  split
  · exact h
  · exact State.memoryOk_calleeEnded (State.memoryOk_modLane (State.memoryOk_modCaller (State.memoryOk_modCaller h ..) ..) ..) ..

theorem State.memoryOk_serialRet {c : Issue} {g : Group} {id p : Nat} (e : s.serialRet c g id p = .ok t) :
    t.memoryOk = true := by
  unfold State.serialRet at e
  split at e
  · cases e
  split at e
  · cases e
  split at e
  · cases e
  dsimp only at e
  split at e
  · cases e; exact State.memoryOk_modGroup (State.memoryOk_modCaller h ..) ..
  split at e
  · cases e
  · cases e; exact State.memoryOk_laneLoad h ‹_›
  · cases e
    exact State.memoryOk_callerDone (State.memoryOk_modCaller (State.memoryOk_modLane (State.memoryOk_laneLoad h ‹_›) ..) ..) ..

theorem State.memoryOk_widthRet {c : Issue} {p : Nat} (e : s.widthRet c p = .ok t) : t.memoryOk = true := by
  grind [State.widthRet, State.memoryOk_parallelRet, State.memoryOk_serialRet, State.memoryOk_gatherRet]

theorem memoryOk_execRet {k : Nat} (e : execRet k s = .next t) : t.memoryOk = true := by
  refine memoryOk_groupOrCox h (fun _ _ e => memoryOk_coxControl h e) (fun c g t e => ?_) e
  dsimp only at e
  split at e <;> cases e
  rename_i hres
  refine State.memoryOk_modGroup ?_ ..
  split at hres
  · cases hres; exact State.memoryOk_advance h c
  split at hres
  · exact memoryOk_settled h (fun _ _ h e => memoryOk_eachRes h (fun _ _ _ h e => State.memoryOk_widthRet h e) e) hres
  · split at hres <;> cases hres
    exact h

theorem memoryOk_gatherUnit {f : Issue → Group → Nat → Nat → Firing → State → State}
    (hf : ∀ c g p tid x s, s.memoryOk = true → (f c g p tid x s).memoryOk = true) (e : gatherUnit s f = .next t) :
    t.memoryOk = true :=
  memoryOk_groupUnit h (fun c g t e => by
    have hres := coupledOnly_ok e
    split at hres <;> cases hres
    refine memoryOk_foldl (fun s p h => ?_) _ h
    split
    · exact hf _ _ _ _ _ _ h
    · exact h) e

theorem memoryOk_execGarg {d : LDst} {a b : LSrc} {n : Bool} {x : Nat} (e : execGarg d a b n x s = .next t) :
    t.memoryOk = true :=
  memoryOk_gatherUnit h (fun _ _ _ _ _ _ h => by
    dsimp only
    split <;> exact State.memoryOk_finish h ..) e

theorem memoryOk_execGres {d a b : LSrc} {x : Nat} (e : execGres d a b x s = .next t) : t.memoryOk = true :=
  memoryOk_gatherUnit h (fun _ _ _ _ _ _ h => by
    dsimp only
    split
    · exact State.memoryOk_modTeam (State.memoryOk_finish h ..) ..
    · exact State.memoryOk_finish h ..) e

theorem State.memoryOk_exitLane (c : Issue) (p : Nat) : (s.exitLane c p).memoryOk = true := by
  grind [State.exitLane, State.memoryOk_modLane, State.memoryOk_calleeEnded]

theorem memoryOk_execExit (e : execExit s = .next t) : t.memoryOk = true :=
  memoryOk_guardedUnit h (fun _ _ _ e => by
    split at e
    · cases e
    · exact memoryOk_settled h (fun _ _ h e => by
        cases e
        exact State.memoryOk_rendezvous (memoryOk_foldl (fun _ _ h => State.memoryOk_exitLane h ..) _ h) ..) e) e

end
end Sys2Proof.Machine
end

section
/-! SUPPORT. Memories stay in canonical form (R190): the slipway, the pool, readiness and the ends of nodes, completion objects, landings. -/

namespace Sys2Proof.Machine

-- One proof at a time: a compile of the whole text stays within its memory.
set_option Elab.async false

section
variable {s : State} (h : s.memoryOk = true)
include h

/-! ### The slipway, the pool and readiness (R278, R283, R287) -/

theorem State.memoryOk_modNode (die entry : Nat) (f : Node → Node) : (s.modNode die entry f).memoryOk = true := h

theorem State.memoryOk_slipRoom (die : Nat) : (s.slipRoom die).2.memoryOk = true := by
  grind [State.slipRoom, State.memoryOk_raiseEvent, State.memoryOk_modDie, State.memoryOk_faultOnce]

theorem State.memoryOk_slipAdd (die : Nat) (x : SlipItem) : (s.slipAdd die x).2.memoryOk = true := by
  grind [State.slipAdd, State.memoryOk_slipRoom, State.memoryOk_modDie]

theorem State.memoryOk_poolRoom (die : Nat) : (s.poolRoom die).2.memoryOk = true := by
  grind [State.poolRoom, State.memoryOk_slipRoom]

theorem State.memoryOk_poolAdd (die : Nat) (item : PoolItem) (prio : Nat) : (s.poolAdd die item prio).2.memoryOk = true := by
  grind [State.poolAdd, State.memoryOk_slipAdd, State.memoryOk_modDie]

theorem State.memoryOk_makeReady (die entry : Nat) : (s.makeReady die entry).2.memoryOk = true := by
  unfold State.makeReady
  split
  · exact h
  · dsimp only
    split
    · exact h
    split
    · exact h
    grind [State.memoryOk_poolAdd, State.memoryOk_modNode]

theorem State.memoryOk_signal (x : Word) : (s.signal x).memoryOk = true := by
  grind [State.signal, State.memoryOk_modDie, State.memoryOk_modNode, State.memoryOk_makeReady]

/-! ### Completion objects (R254) -/

theorem State.memoryOk_updateObject (pa status flags : Nat) : (s.updateObject pa status flags).memoryOk = true := by
  unfold State.updateObject
  extract_lets x count st s' x'
  have hs : s'.memoryOk = true := State.memoryOk_store none pa _ h
  split
  · exact State.memoryOk_signal hs x'
  · exact hs

theorem State.memoryOk_updateAt (die asid va : Nat) (x : Place) (status flags : Nat) (e : Event) :
    (s.updateAt die asid va x status flags e).2.memoryOk = true := by
  unfold State.updateAt
  split
  · split
    · exact State.memoryOk_requestOf h ..
    · exact State.memoryOk_faultOnce h ..
  · dsimp only
    split
    · exact h
    · exact State.memoryOk_updateObject h ..

theorem State.memoryOk_dieComplete (die asid va status : Nat) (ev : Event) :
    (s.dieComplete die asid va status ev).2.memoryOk = true := by
  grind [State.dieComplete, State.memoryOk_updateAt, State.memoryOk_mark, State.memoryOk_faultOnce]

theorem State.memoryOk_coreComplete (core asid va status flags : Nat) (e : Event) :
    (s.coreComplete core asid va status flags e).2.memoryOk = true := by
  grind [State.coreComplete, State.memoryOk_translate, State.memoryOk_updateAt, State.memoryOk_faultOnce]

/-! ### Tiles and the end of a node (R280-R282, R288) -/

theorem State.memoryOk_setQueue (die q : Nat) (x : RecQueue) : (s.setQueue die q x).memoryOk = true := h

theorem State.memoryOk_closeTile (die q : Nat) : (s.closeTile die q).2.memoryOk = true := by
  grind [State.closeTile, State.memoryOk_poolAdd, State.memoryOk_setQueue, State.memoryOk_modNode]

theorem State.memoryOk_expireTile (die q : Nat) : (s.expireTile die q).2.memoryOk = true := by
  grind [State.expireTile, State.memoryOk_closeTile]

theorem State.memoryOk_joinTile (die q : Nat) (r : List Word) : (s.joinTile die q r).2.memoryOk = true := by
  grind [State.joinTile, State.memoryOk_expireTile, State.memoryOk_setQueue, State.memoryOk_closeTile]

theorem State.memoryOk_joinAll (die q n : Nat) : (s.joinAll die q n).memoryOk = true := by
  induction n generalizing s with
  | zero => exact h
  | succ n ih =>
    unfold State.joinAll
    grind [State.memoryOk_joinTile, State.memoryOk_setQueue]

theorem State.memoryOk_retire (die entry : Nat) : (s.retire die entry).2.memoryOk = true := by
  grind [State.retire, State.memoryOk_dieComplete, State.memoryOk_modDie]

theorem State.memoryOk_closeQueue (die entry : Nat) : (s.closeQueue die entry).memoryOk = true := by
  unfold State.closeQueue
  split
  · exact h
  · split
    · exact h
    · exact State.memoryOk_retire (State.memoryOk_expireTile (State.memoryOk_modNode
        (State.memoryOk_setQueue (State.memoryOk_joinAll h ..) ..) ..) ..) ..

/-! ### Submission (R275, R276) -/

theorem State.memoryOk_reject (die : Nat) (d : NodeDesc) (cause : Nat) : (s.reject die d cause).2.memoryOk = true := by
  grind [State.reject, State.memoryOk_dieComplete]

theorem State.memoryOk_submit (die : Nat) (owner : Option Nat) (n : Nat) (d : NodeDesc) (frameOk : Bool) :
    (s.submit die owner n d frameOk).2.memoryOk = true := by
  unfold State.submit
  extract_lets d
  split
  · exact State.memoryOk_reject h ..
  split
  · exact h
  have hp : (if d.npred = 0 && !d.rqen && d.dies = 2 ^ die then s.poolRoom die else (true, s)).2.memoryOk = true := by
    split
    · exact State.memoryOk_poolRoom h die
    · exact h
  split <;> rename_i hres <;> rw [hres] at hp
  · exact hp
  · dsimp -zeta only
    extract_lets entry gen node s1 s2
    have h1 : s1.memoryOk = true := State.memoryOk_modDie (State.memoryOk_choose hp _) ..
    have h2 : s2.memoryOk = true := by
      unfold s2
      split
      · exact State.memoryOk_setQueue h1 ..
      · exact h1
    split
    · exact State.memoryOk_makeReady h2 ..
    · exact h2

/-! ### JSEG, CFETCH and CINV (R108-R112) -/

theorem State.memoryOk_jsegWait (c : Issue) (g : Group) (t : Team) (d : SegDesc) (target : DWord) :
    (s.jsegWait c g t d target).memoryOk = true := by
  grind [State.jsegWait, State.memoryOk_modGroup, State.memoryOk_setCore]

end

section
variable {s t : State} (h : s.memoryOk = true)
include h

theorem State.memoryOk_readSegment {c : Issue} {g : Group} {tm : Team} {a : DWord} {d : Option SegDesc}
    (e : s.readSegment c g tm a = .ok (d, t)) : t.memoryOk = true := by
  unfold State.readSegment at e
  split at e
  · cases e
  split at e
  · cases e
  · cases e; exact State.memoryOk_uniformLoad h ‹_›
  · split at e
    · cases e
    · split at e <;> cases e
      exact State.memoryOk_uniformLoad h ‹_›

theorem memoryOk_execJseg {a b : USrc} (e : execJseg a b s = .next t) : t.memoryOk = true :=
  memoryOk_guardedUnit h (fun c g t e => by
    split at e
    · cases e
    · grind [State.memoryOk_jsegWait, State.memoryOk_readSegment]) e

theorem memoryOk_execCfetch {a b : USrc} (e : execCfetch a b s = .next t) : t.memoryOk = true :=
  memoryOk_guardedUnit h (fun c g t e => by
    split at e
    · cases e
    extract_lets cobj at e
    split at e
    · cases e
    split at e
    · cases e
    · cases e; exact State.memoryOk_readSegment h ‹_›
    rename_i hseg
    have hd := State.memoryOk_readSegment h hseg
    grind [State.memoryOk_advance, State.memoryOk_coreComplete, State.memoryOk_parkAll, State.memoryOk_modCore,
      State.memoryOk_setCore]) e

theorem memoryOk_execCinv {a b : USrc} (e : execCinv a b s = .next t) : t.memoryOk = true :=
  memoryOk_guardedUnit h (fun c g t e => by
    split at e <;> cases e
    exact State.memoryOk_advance (State.memoryOk_modCore h ..) c) e

theorem memoryOk_execCinvSync {a b : USrc} (e : execCinvSync a b s = .next t) : t.memoryOk = true :=
  memoryOk_guardedUnit h (fun c g t e => by
    grind [State.memoryOk_modCore, State.memoryOk_modGroup, State.memoryOk_advance]) e

/-! ### The end of a landing (R109, R113) -/

theorem State.memoryOk_landObjects (core tid : Nat) (xs : List (Nat × Nat)) :
    (s.landObjects core tid xs).2.memoryOk = true := by
  induction xs generalizing s with
  | nil => exact h
  | cons x xs ih =>
    unfold State.landObjects
    grind [State.memoryOk_coreComplete]

theorem State.memoryOk_segmentBytes {core asid va n : Nat} {bs : List Byte}
    (e : s.segmentBytes core asid va n = .ok (bs, t)) : t.memoryOk = true := by
  induction n generalizing s t va bs with
  | zero => cases e; exact h
  | succ n ih =>
    have ht := State.memoryOk_translate h core asid va .land
    unfold State.segmentBytes at e
    grind [State.memoryOk_modDie]

theorem State.memoryOk_memoryError (core line kind : Nat) (who : Event → Event) :
    (s.memoryError core line kind who).memoryOk = true := State.memoryOk_reportError h ..

theorem State.memoryOk_landingError (core : Nat) (e : LandEntry) (line : Nat) :
    (s.landingError core e line).memoryOk = true := by
  unfold State.landingError
  extract_lets unit waits who
  split
  · exact State.memoryOk_modTeam (State.memoryOk_memoryError h ..) ..
  · exact memoryOk_foldl (fun s x h => State.memoryOk_trapGroup (State.memoryOk_modGroup h ..) ..) waits h

theorem memoryOk_execLandingComplete {core slot : Nat} (e : execLandingComplete core slot s = .next t) :
    t.memoryOk = true := by
  unfold execLandingComplete at e
  grind [State.memoryOk_modCore, State.memoryOk_dieFault, State.memoryOk_landObjects, State.memoryOk_landingError,
    State.memoryOk_segmentBytes]

end
end Sys2Proof.Machine
end

section
/-! SUPPORT. Memories stay in canonical form (R190): fences, CWAIT, cells, requests of peers, watchers and posted atomics. -/

namespace Sys2Proof.Machine

-- One proof at a time: a compile of the whole text stays within its memory.
set_option Elab.async false

section
variable {s : State} (h : s.memoryOk = true)
include h

/-! ### Writes from outside the device (R203, R221, R231) -/

theorem State.memoryOk_hostByte (a : Nat) (b : Byte) : (s.hostByte a b).memoryOk = true :=
  State.memoryOk_setByte (s := s) none a b h

theorem State.memoryOk_hostBytes (a : Nat) (bs : List Byte) : (s.hostBytes a bs).memoryOk = true := by
  induction bs generalizing s a with
  | nil => exact h
  | cons b bs ih => exact ih (State.memoryOk_hostByte h a b) (a + 1)

theorem State.memoryOk_hostStore (a : Nat) (bs : List Byte) : (s.hostStore a bs).memoryOk = true :=
  State.memoryOk_hostBytes (s := s) h a bs

theorem State.memoryOk_hostAtomic (pa major funct : Nat) (b swap : DWord) :
    (s.hostAtomic pa major funct b swap).2.memoryOk = true := by
  grind [State.hostAtomic, State.memoryOk_hostStore]

theorem State.memoryOk_dieError (die line kind : Nat) : (s.dieError die line kind).memoryOk = true :=
  State.memoryOk_reportError h ..

theorem State.memoryOk_armCells (pa n : Nat) : (s.armCells pa n).memoryOk = true :=
  memoryOk_foldl (fun _ x h => by
    split
    · exact State.memoryOk_setTag h ..
    · exact h) _ h

theorem State.memoryOk_peerAct (dev : Nat) (r : PeerReq) : (s.peerAct dev r).memoryOk = true := by
  grind [State.peerAct, State.memoryOk_answer, State.memoryOk_updateObject, State.memoryOk_hostAtomic]

theorem State.memoryOk_peerWrite (dev : Nat) (r : PeerReq) : (s.peerWrite dev r).memoryOk = true := by
  grind [State.peerWrite, State.memoryOk_answer, State.memoryOk_armCells, State.memoryOk_hostStore]

theorem State.memoryOk_servePeer (dev : Nat) (r : PeerReq) : (s.servePeer dev r).memoryOk = true := by
  unfold State.servePeer
  extract_lets refuse keep
  have hrefuse : ∀ s : State, s.memoryOk = true → (refuse s).memoryOk = true := fun s h => State.memoryOk_answer h ..
  have hkeep : ∀ (s : State) f, s.memoryOk = true → (keep s f).memoryOk = true := fun s f h => State.memoryOk_modDie h ..
  clear_value refuse keep
  split
  · exact hrefuse _ h
  split
  · exact hkeep _ _ h
  split
  · exact State.memoryOk_peerWrite h ..
  split
  · exact State.memoryOk_peerAct h ..
  grind [State.memoryOk_modEvaluation, State.memoryOk_startCell, State.memoryOk_failCell, State.memoryOk_dieError,
    State.memoryOk_dieFault]

/-! ### Wakes and retries (R219, R226, R228, R239, R244) -/

theorem State.memoryOk_wakeAll (e : CellEntry) : (s.wakeAll e).memoryOk = true :=
  memoryOk_foldl (fun _ w h => State.memoryOk_acquire h w.gkey 4) _ (State.memoryOk_wakeWaiters h e)

theorem State.memoryOk_performWoken (gkey : Nat) (m : Mask) : (s.performWoken gkey m).memoryOk = true :=
  State.memoryOk_retryPosted h ..

theorem State.memoryOk_wake (gkey : Nat) (f : ParkWhy → Bool) : (s.wake gkey f).memoryOk = true :=
  State.memoryOk_retryPosted (State.memoryOk_modGroup h ..) ..

theorem State.memoryOk_retryStarter (x : Starter) : (s.retryStarter x).memoryOk = true := by
  grind [State.retryStarter, State.memoryOk_setGroup, State.memoryOk_retryPosted, State.memoryOk]

theorem State.memoryOk_watch (gkey pa : Nat) : (s.watch gkey pa).memoryOk = true := by
  unfold State.watch; split <;> exact h

end

section
variable {s t : State} (h : s.memoryOk = true)
include h

/-! ### Fences (R213, R243) -/

omit h in
theorem memoryOk_released {r : Res} {f : State → Res} (hr : ∀ t, r = .ok t → t.memoryOk = true)
    (hf : ∀ s t, s.memoryOk = true → f s = .ok t → t.memoryOk = true) (e : released r f = .ok t) : t.memoryOk = true := by
  unfold released at e
  split at e
  · cases e
  · exact hf _ _ (hr _ rfl) e

theorem memoryOk_coxFence {n : Nat} {c : Issue} (e : coxFence n s c = .next t) : t.memoryOk = true :=
  memoryOk_coxGuarded h (fun _ t e => by
    split at e <;> cases e <;> exact h) e

theorem memoryOk_execFence {n : Nat} (e : execFence n s = .next t) : t.memoryOk = true :=
  memoryOk_orCox (fun _ _ e => memoryOk_coxFence h e)
    (fun _ e => memoryOk_guardedUnit h (fun c g t e =>
      memoryOk_released (fun _ e => State.memoryOk_release h e) (fun _ _ h e => by
        cases e; exact State.memoryOk_advance (State.memoryOk_acquire h ..) c) e) e) e

theorem memoryOk_execFenceAcq {n : Nat} (e : execFenceAcq n s = .next t) : t.memoryOk = true :=
  memoryOk_orCox (fun _ _ e => memoryOk_coxFence h e)
    (fun _ e => memoryOk_guardedUnit h (fun c g t e =>
      memoryOk_settled h (fun _ _ h e => by
        cases e; exact State.memoryOk_advance (State.memoryOk_acquire h ..) c) e) e) e

theorem memoryOk_execFenceRel {n : Nat} (e : execFenceRel n s = .next t) : t.memoryOk = true :=
  memoryOk_orCox (fun _ _ e => memoryOk_coxFence h e)
    (fun _ e => memoryOk_guardedUnit h (fun c g t e =>
      memoryOk_released (fun _ e => State.memoryOk_release h e) (fun _ _ h e => by
        cases e; exact State.memoryOk_advance h c) e) e) e

theorem State.memoryOk_scDrain {c : Issue} {i : Nat} (e : s.scDrain c i = .ok t) : t.memoryOk = true := by
  grind [State.scDrain, State.memoryOk_complete, State.memoryOk_modGroup]

theorem memoryOk_execFenceSc {n : Nat} (e : execFenceSc n s = .next t) : t.memoryOk = true :=
  memoryOk_orCox (fun _ _ e => memoryOk_coxFence h e)
    (fun _ e => memoryOk_guardedUnit h (fun c g t e => by
      have hn : State.memoryOk { s with nextId := s.nextId + 1 } = true := h
      have ho : ∀ x, State.memoryOk { s with scOrder := x } = true := fun _ => h
      grind [State.memoryOk_scDrain, State.memoryOk_modGroup, State.memoryOk_acquire, State.memoryOk_advance]) e) e

/-! ### CWAIT (R244) -/

theorem memoryOk_coxCwait {a b : USrc} {c : Issue} (e : coxCwait a b s c = .next t) : t.memoryOk = true := by
  unfold coxCwait at e
  extract_lets u short at e
  split at e
  · cases e; exact h
  · exact memoryOk_coxAt h (fun _ _ _ e => by cases e; exact h) e

theorem memoryOk_execCwait {a b : USrc} (e : execCwait a b s = .next t) : t.memoryOk = true :=
  memoryOk_orCox (fun _ _ e => memoryOk_coxCwait h e)
    (fun _ e => memoryOk_guardedUnit h (fun c g t e => by
      extract_lets va at e
      split at e
      · cases e
      split at e
      · cases e
      rename_i hset
      have h1 := memoryOk_eachRes h (fun _ _ _ h e => State.memoryOk_settleLane h e) hset
      grind [State.memoryOk_uniformRead, State.memoryOk_acquire, State.memoryOk_advance, State.memoryOk_parkAll,
        State.memoryOk_watch]) e) e

/-! ### Cell forms (R245-R249) -/

theorem State.memoryOk_cellAccess {c : Issue} {g : Group} {va : DWord} {k : Acc} {x : Option (Nat × Bool)}
    (e : s.cellAccess c g va k = .ok (x, t)) : t.memoryOk = true := by
  have htr := State.memoryOk_translate h (coreOf c.gkey) (s.asidOf g) va.toNat k
  unfold State.cellAccess at e
  split at e
  · cases e
  split at e <;> rename_i hx <;> rw [hx] at htr
  · split at e <;> cases e
    · exact htr
    · exact State.memoryOk_parkAll (State.memoryOk_laneFault htr ..) ..
  · cases e; exact htr
  · split at e <;> cases e
    exact htr

theorem memoryOk_coxCell {a : USrc} {c : Issue} (e : coxCell a s c = .next t) : t.memoryOk = true :=
  memoryOk_coxAt h (fun _ _ _ e => by cases e) e

theorem memoryOk_cellForm {a : USrc} {k : Acc} {body : Issue → Group → DWord → Nat → State → Res}
    (hb : ∀ c g va pa s t, s.memoryOk = true → body c g va pa s = .ok t → t.memoryOk = true)
    (e : cellForm s a k body = .next t) : t.memoryOk = true :=
  memoryOk_orCox (fun _ _ e => memoryOk_coxCell h e)
    (fun _ e => memoryOk_closingUnit h (fun c g t e => by
      extract_lets va at e
      split at e
      · cases e
      · cases e; exact State.memoryOk_cellAccess h ‹_›
      · cases e
      · exact hb _ _ _ _ _ _ (State.memoryOk_cellAccess h ‹_›) e) e) e

theorem memoryOk_execSuspend {a : USrc} {b : Nat} (e : execSuspend a b s = .next t) : t.memoryOk = true :=
  memoryOk_cellForm h (fun c g va pa s t h e => by
    extract_lets n at e
    split at e
    · cases e
    split at e
    · cases e
    exact memoryOk_released (fun _ e => State.memoryOk_release h e) (fun s _ h e => by
      cases e
      exact State.memoryOk_advance (State.memoryOk_setTag (State.memoryOk_store _ _ _ h) ..) c) e) e

theorem memoryOk_execTouch {a : USrc} (e : execTouch a s = .next t) : t.memoryOk = true :=
  memoryOk_orCox (fun _ _ e => memoryOk_coxAt h (fun _ _ _ e => by cases e; exact h) e)
    (fun _ e => memoryOk_closingUnit h (fun c g t e => by
      extract_lets va at e
      split at e
      · cases e
      · cases e; exact State.memoryOk_cellAccess h ‹_›
      · cases e; exact State.memoryOk_advance (State.memoryOk_cellAccess h ‹_›) c
      · have := State.memoryOk_cellAccess h ‹_›
        grind [State.memoryOk_advance, State.memoryOk_acquire, State.memoryOk_meetCell]) e) e

theorem memoryOk_execFulfill {a : USrc} {b : Nat} (e : execFulfill a b s = .next t) : t.memoryOk = true :=
  memoryOk_cellForm h (fun c g va pa s t h e => by
    split at e
    · cases e
    split at e
    · cases e
    split at e
    · cases e
    exact memoryOk_released (fun _ e => State.memoryOk_release h e) (fun s _ h e => by
      cases e
      exact State.memoryOk_advance (State.memoryOk_wakeAll (State.memoryOk_freeEvaluation
        (State.memoryOk_setTag (State.memoryOk_store _ _ _ h) ..) ..) ..) c) e) e

theorem memoryOk_execCelltag {a b : USrc} {d : UDst} (e : execCelltag a b d s = .next t) : t.memoryOk = true :=
  memoryOk_orCox (fun _ _ e => memoryOk_coxCell h e)
    (fun _ e => memoryOk_closingUnit h (fun c g t e => by
      grind [State.memoryOk_cellAccess, State.memoryOk_advance, State.memoryOk_modGroup, State.memoryOk_setTag]) e) e

/-! ### Events of cells, watchers, posted atomics and the stroke counter -/

theorem memoryOk_execEvaluatorRequest {die : Nat} (e : execEvaluatorRequest die s = .next t) : t.memoryOk = true := by
  grind [execEvaluatorRequest, State.memoryOk_modDie]

theorem memoryOk_execCellStarterRetry {die : Nat} (e : execCellStarterRetry die s = .next t) : t.memoryOk = true := by
  grind [execCellStarterRetry, State.memoryOk_modDie, State.memoryOk_servePeer, State.memoryOk_retryStarter]

theorem memoryOk_execCellWaiterRetry {group : Nat} (e : execCellWaiterRetry group s = .next t) : t.memoryOk = true := by
  cases e
  exact memoryOk_foldl (fun s x h => by
    grind [State.memoryOk_modEvaluation, State.memoryOk_wakeWaiter, State.memoryOk_performWoken]) _ h

theorem memoryOk_execCwaitRecheck {group : Nat} (e : execCwaitRecheck group s = .next t) : t.memoryOk = true := by
  cases e
  exact State.memoryOk_wake (by exact h) ..

theorem memoryOk_execCwaitPoll {group : Nat} (e : execCwaitPoll group s = .next t) : t.memoryOk = true := by
  cases e
  exact State.memoryOk_wake h ..

theorem memoryOk_execPostedAtomicPerform {core : Nat} (e : execPostedAtomicPerform core s = .next t) :
    t.memoryOk = true := by
  grind [execPostedAtomicPerform, State.memoryOk_choose, State.memoryOk_tryPosted]

theorem memoryOk_execPostedAtomicFault {core : Nat} (e : execPostedAtomicFault core s = .next t) : t.memoryOk = true := by
  cases e
  exact State.memoryOk_parkPosted h core

theorem memoryOk_execStrokeTick (e : execStrokeTick s = .next t) : t.memoryOk = true := by
  cases e
  exact h

end
end Sys2Proof.Machine
end

section
/-! SUPPORT. Memories stay in canonical form (R190): engine reads and writes, copies, keyed operations, batch translation, adapters, drains
and matrix tasks. -/

namespace Sys2Proof.Machine

-- One proof at a time: a compile of the whole text stays within its memory.
set_option Elab.async false

/-- Engine work goes on from a state with its memories in canonical form to one. -/
theorem memoryOk_next {α β : Type} {x : ERes α} {f : α → State → ERes β} (hx : x.1.memoryOk = true)
    (hf : ∀ a s, s.memoryOk = true → (f a s).1.memoryOk = true) : (x.next f).1.memoryOk = true := by
  unfold ERes.next
  split
  · exact hf _ _ hx
  · exact hx

/-- The state that engine work leaves, named by an equation. -/
theorem memoryOk_of_eq {α : Type} {x : ERes α} {t : State} {r : Except EStop α} (hx : x.1.memoryOk = true)
    (e : x = (t, r)) : t.memoryOk = true := by
  subst e
  exact hx

section
variable {s : State} (h : s.memoryOk = true)
include h

/-! ### Engine accesses (R202, R217, R231) -/

theorem memoryOk_efail {α : Type} (status detail : Nat) : (efail (α := α) s status detail).1.memoryOk = true := h

theorem State.memoryOk_modCmd (core id : Nat) (f : Cmd → Cmd) : (s.modCmd core id f).memoryOk = true := h

theorem State.memoryOk_cmdFault (core : Nat) (c : Cmd) (va cause : Nat) (k : Acc) :
    (s.cmdFault core c va cause k).1.memoryOk = true := State.memoryOk_faultOnce h ..

theorem State.memoryOk_cmdPeer (core : Nat) (c : Cmd) (va dev : Nat) (k : Acc) :
    (s.cmdPeer core c va dev k).1.memoryOk = true := State.memoryOk_faultOnce h ..

theorem State.memoryOk_engTranslate (core : Nat) (c : Cmd) (va : Nat) (k : Acc) :
    (s.engTranslate core c va k).2.memoryOk = true := by
  unfold State.engTranslate
  split
  · exact h
  · exact State.memoryOk_translate h ..

theorem State.memoryOk_engineStore (core a : Nat) (bs : List Byte) : (s.engineStore core a bs).memoryOk = true :=
  State.memoryOk_store none a bs h

theorem State.memoryOk_engRead (core : Nat) (c : Cmd) (va n fuel : Nat) : (s.engRead core c va n fuel).1.memoryOk = true := by
  induction fuel generalizing s va n with
  | zero => exact h
  | succ fuel ih =>
    unfold State.engRead
    split
    · exact h
    extract_lets m
    have htr := State.memoryOk_engTranslate h core c va .engRead
    split <;> rename_i hx <;> rw [hx] at htr
    · exact State.memoryOk_cmdFault htr ..
    · split
      · exact htr
      split
      · exact memoryOk_next (ih htr ..) fun _ _ h => h
      split
      · exact memoryOk_foldl (fun s x h => State.memoryOk_requestOf h ..) _ htr
      · exact State.memoryOk_cmdPeer htr ..
    · split
      · exact htr
      split
      · exact htr
      split
      · exact State.memoryOk_memoryError htr ..
      · exact memoryOk_next (ih htr ..) fun _ _ h => State.memoryOk_metHost h ..

theorem State.memoryOk_engWrite (core : Nat) (c : Cmd) (whole : Nat → Bool) (va : Nat) (bs : List Byte) (fuel : Nat) :
    (s.engWrite core c whole va bs fuel).1.memoryOk = true := by
  induction fuel generalizing s va bs with
  | zero => exact h
  | succ fuel ih =>
    unfold State.engWrite
    split
    · exact h
    extract_lets m
    have htr := State.memoryOk_engTranslate h core c va .engWrite
    split <;> rename_i hx <;> rw [hx] at htr
    · exact State.memoryOk_cmdFault htr ..
    · split
      · exact htr
      split
      · exact ih (memoryOk_foldl (fun s x h => State.memoryOk_requestOf h ..) _ htr) ..
      · exact State.memoryOk_cmdPeer htr ..
    · split
      · exact htr
      extract_lets bad s1
      clear_value bad
      split
      · exact htr
      · refine ih (State.memoryOk_engineStore ?_ ..) ..
        unfold s1
        split
        · exact State.memoryOk_armCells htr ..
        · exact htr

theorem State.memoryOk_localPut (tid sp a : Nat) (bs : List Byte) : (s.localPut tid sp a bs).memoryOk = true := by
  unfold State.localPut
  split
  · exact h
  · exact State.memoryOk_modTeam h ..

theorem State.memoryOk_localError {α : Type} (core : Nat) (c : Cmd) (a : Nat) :
    (s.localError (α := α) core c a).1.memoryOk = true :=
  State.memoryOk_raiseStatus (State.memoryOk_raiseEvent (State.memoryOk_modDie h ..) ..) _

theorem State.memoryOk_wakeRing (tid i : Nat) : (s.wakeRing tid i).memoryOk = true :=
  memoryOk_foldl (fun _ x h => State.memoryOk_wake h x.1 _) _ h

theorem State.memoryOk_settleCmd (core id : Nat) (r : Except EStop Unit) : (s.settleCmd core id r).memoryOk = true := by
  unfold State.settleCmd
  split <;> exact h

theorem State.memoryOk_recordFailure (core : Nat) (c : Cmd) : (s.recordFailure core c).memoryOk = true := by
  unfold State.recordFailure
  split
  · exact h
  · dsimp only
    split
    · exact h
    · exact State.memoryOk_modGroup (State.memoryOk_modCmd h ..) ..

/-! ### Copies (R258, R261, R267, R293, R294) -/

theorem State.memoryOk_readPieces (core : Nat) (c : Cmd) (ps : List (Nat × Nat × Nat)) :
    (s.readPieces core c ps).1.memoryOk = true := by
  induction ps generalizing s with
  | nil => exact h
  | cons p ps ih =>
    exact memoryOk_next (State.memoryOk_engRead h ..) fun _ _ h => memoryOk_next (ih h) fun _ _ h => h

theorem State.memoryOk_writePieces (core : Nat) (c : Cmd) (whole : Nat → Bool) (ps : List (Nat × List Byte)) :
    (s.writePieces core c whole ps).1.memoryOk = true := by
  induction ps generalizing s with
  | nil => exact h
  | cons p ps ih => exact memoryOk_next (State.memoryOk_engWrite h ..) fun _ _ h => ih h

theorem State.memoryOk_unitBytes (core : Nat) (c : Cmd) (r : Shape) (k : Nat) :
    (s.unitBytes core c r k).1.memoryOk = true := by
  unfold State.unitBytes
  split
  · exact h
  · exact State.memoryOk_readPieces h ..

theorem State.memoryOk_putUnit (r : Shape) (ds : List Dest) (xs : List (Nat × List Byte)) :
    (s.putUnit r ds xs).memoryOk = true :=
  memoryOk_foldl (fun _ _ h => memoryOk_foldl (fun _ _ h => State.memoryOk_localPut h ..) xs h) ds h

theorem State.memoryOk_copyIn (core : Nat) (c : Cmd) (r : Shape) (ds : List Dest) (k n : Nat) :
    (s.copyIn core c r ds k n).1.memoryOk = true := by
  induction n generalizing s k with
  | zero => exact h
  | succ n ih =>
    have hu := State.memoryOk_unitBytes h core c r k
    unfold State.copyIn
    split <;> rename_i hx <;> rw [hx] at hu
    · exact hu
    · exact ih (State.memoryOk_putUnit hu ..) _

theorem State.memoryOk_copyOutFrom (core : Nat) (c : Cmd) (r : Shape) (sp a k n : Nat) :
    (s.copyOutFrom core c r sp a k n).1.memoryOk = true := by
  induction n generalizing s k with
  | zero => exact h
  | succ n ih =>
    unfold State.copyOutFrom
    extract_lets ps from_ bs
    split <;> rename_i hx
    all_goals
      have hw := memoryOk_of_eq (by
        split
        · exact State.memoryOk_localError h ..
        · exact State.memoryOk_writePieces h ..) hx
    · exact hw
    · exact ih hw _

theorem State.memoryOk_copyRecord (core : Nat) (c : Cmd) : (s.copyRecord core c).1.memoryOk = true := by
  unfold State.copyRecord
  extract_lets check
  have hc : ∀ (c : Cmd) (s : State), s.memoryOk = true → (check c s).1.memoryOk = true := fun c s h => by
    unfold check
    split
    · exact h
    · split <;> exact h
  split
  · exact hc c s h
  · exact memoryOk_next (State.memoryOk_engRead h ..) fun _ _ h => hc _ _ (State.memoryOk_modCmd h ..)

theorem State.memoryOk_copyStart (core : Nat) (c : Cmd) : (s.copyStart core c).1.memoryOk = true :=
  memoryOk_next (State.memoryOk_copyRecord h ..) fun c s h => by
    grind [State.memoryOk_copyOutFrom, State.memoryOk_copyIn, memoryOk_efail]

theorem State.memoryOk_ringFill (core : Nat) (c : Cmd) : (s.ringFill core c).memoryOk = true := by
  unfold State.ringFill
  extract_lets ds s1 r
  have hc := State.memoryOk_copyIn (s := s1) h core c r (ds.map RingDest.place) (c.elem / r.step) (r.units - c.elem / r.step)
  split <;> rename_i hx <;> rw [hx] at hc
  · exact State.memoryOk_settleCmd hc ..
  · exact State.memoryOk_settleCmd
      (memoryOk_foldl (fun _ d h => State.memoryOk_wakeRing (State.memoryOk_modCore h ..) ..) ds hc) ..

theorem State.memoryOk_entryBytes (core : Nat) (c : Cmd) (r : Shape) (n : Nat) (bs : List Byte) (ks : List Nat) :
    (s.entryBytes core c r n bs ks).1.memoryOk = true := by
  induction ks generalizing s bs with
  | nil => exact h
  | cons k ks ih => exact memoryOk_next (State.memoryOk_unitBytes h ..) fun _ _ h => ih h _

theorem State.memoryOk_queueFill (core : Nat) (c : Cmd) : (s.queueFill core c).memoryOk = true := by
  unfold State.queueFill
  extract_lets r
  have he := fun i => State.memoryOk_entryBytes (State.memoryOk_draw h) core c r c.elem
    ((List.range 1024).map fun j => Config.freeByte (1024 * i + j)) (r.entryUnits c.elem)
  split
  rename_i i s1 hdraw
  specialize he i
  rw [hdraw] at he
  split <;> rename_i hx <;> rw [hx] at he
  · exact State.memoryOk_settleCmd he ..
  · dsimp only
    split
    · exact he
    · exact State.memoryOk_settleCmd (State.memoryOk_modCore he ..) ..

/-! ### Keyed operations and batch translation (R271, R272) -/

theorem State.memoryOk_keyStart (core : Nat) (c : Cmd) : (s.keyStart core c).1.memoryOk = true := by
  unfold State.keyStart
  extract_lets t
  split
  · exact h
  split
  · exact State.memoryOk_localError h ..
  · have hw := fun ws : List (Nat × List Byte) =>
      memoryOk_foldl (f := fun s w => s.localPut c.tid 1 w.1 w.2) (fun _ _ h => State.memoryOk_localPut h ..) ws h
    split <;> exact hw _

theorem State.memoryOk_fillPages (core asid : Nat) (skip : Option Nat) (ps : List Nat) :
    (s.fillPages core asid skip ps).2.memoryOk = true := by
  induction ps generalizing s skip with
  | nil => exact h
  | cons p ps ih =>
    unfold State.fillPages
    split
    · exact ih h _
    · exact ih (State.memoryOk_tlbFill (State.memoryOk_mark h ..) ..) _

theorem State.memoryOk_xlatbStart (core : Nat) (c : Cmd) : (s.xlatbStart core c).1.memoryOk = true := by
  unfold State.xlatbStart
  extract_lets n a bs xs
  split
  · exact h
  split
  · exact h
  split
  · exact h
  split
  · exact h
  split
  · exact State.memoryOk_localError h ..
  have hf := State.memoryOk_fillPages h core (s.teamAsid c.tid) none (pagesOf c.gbase.toNat xs)
  split <;> rename_i hx <;> rw [hx] at hf <;> exact hf

/-! ### Adapters (R268-R270, R306) -/

theorem State.memoryOk_adapterLine (core : Nat) (c : Cmd) (e : AdEntry) (id layer block part : Nat) (pin : Bool) :
    (s.adapterLine core c e id layer block part pin).1.memoryOk = true := by
  unfold State.adapterLine
  split
  · exact h
  · exact memoryOk_next (State.memoryOk_engRead h ..) fun _ _ h => h

theorem State.memoryOk_adapterEntry (core : Nat) (c : Cmd) (table id : Nat) :
    (s.adapterEntry core c table id).1.memoryOk = true :=
  memoryOk_next (State.memoryOk_engRead h ..) fun _ _ h => h

theorem State.memoryOk_fillLines (core : Nat) (c : Cmd) (e : AdEntry) (id layer i : Nat) (xs : List (Nat × Nat)) :
    (s.fillLines core c e id layer i xs).1.memoryOk = true := by
  induction xs generalizing s i with
  | nil => exact h
  | cons x xs ih =>
    have hl := State.memoryOk_adapterLine h core c e id layer x.1 x.2 false
    unfold State.fillLines
    split <;> rename_i hx <;> rw [hx] at hl
    · exact hl
    · exact ih hl _

theorem State.memoryOk_adpfStart (core : Nat) (c : Cmd) : (s.adpfStart core c).1.memoryOk = true := by
  unfold State.adpfStart
  extract_lets w id
  split
  · exact h
  split
  · exact h
  · exact memoryOk_next (State.memoryOk_adapterEntry h ..) fun e s h => by
      split
      · exact h
      · exact State.memoryOk_fillLines h ..

theorem State.memoryOk_linesA (core : Nat) (c : Cmd) (e : AdEntry) (t : Task) (id b n : Nat) :
    (s.linesA core c e t id b n).1.memoryOk = true := by
  induction n generalizing s b with
  | zero => exact h
  | succ n ih =>
    exact memoryOk_next (State.memoryOk_adapterLine h ..) fun _ _ h => memoryOk_next (ih h _) fun _ _ h => h

theorem State.memoryOk_putResults (core id slot : Nat) (xs : List (Nat × Nat × Nat × Nat × Nat)) :
    (s.putResults core id slot xs).2.memoryOk = true := h

theorem State.memoryOk_correct (core : Nat) (c : Cmd) (e : AdEntry) (t : Task) (i id : Nat) :
    (s.correct core c e t i id).1.memoryOk = true :=
  memoryOk_next (State.memoryOk_linesA h ..) fun _ _ h => memoryOk_next (State.memoryOk_adapterLine h ..) fun _ _ h => h

theorem State.memoryOk_nanStop (core id step i j : Nat) (corr : Bool) : (s.nanStop core id step i j corr).memoryOk = true := h

theorem State.memoryOk_rowStep (core id : Nat) (t : Task) (fill : Bool) (i : Nat) :
    (s.rowStep core id t fill i).1.memoryOk = true := by
  unfold State.rowStep
  split
  · exact h
  extract_lets a off
  rename_i c _
  have ho : ∀ s : State, s.memoryOk = true → (off s).memoryOk = true := fun s h => by
    unfold off
    dsimp only
    split <;> exact h
  clear_value off
  split
  · exact ho s h
  refine memoryOk_next (State.memoryOk_adapterEntry h ..) fun e s h => ?_
  split
  · exact ho _ h
  split
  · exact h
  refine memoryOk_next (State.memoryOk_correct h ..) fun first s h => ?_
  split
  · exact State.memoryOk_nanStop (ho s h) ..
  · exact ho s h

theorem State.memoryOk_rowsPass (core id : Nat) (t : Task) (rows : List Nat) :
    (s.rowsPass core id t rows).1.memoryOk = true := by
  induction rows generalizing s with
  | nil => exact h
  | cons i rows ih => exact memoryOk_next (State.memoryOk_rowStep h ..) fun _ _ h => ih h

/-! ### k-steps and drains (R264-R266, R300, R301) -/

theorem State.memoryOk_runSteps (core id : Nat) (t : Task) (nbv n : Nat) : (s.runSteps core id t nbv n).1.memoryOk = true := by
  induction n generalizing s with
  | zero => exact h
  | succ n ih =>
    unfold State.runSteps
    split
    · exact h
    split
    · exact h
    extract_lets go
    have hg : ∀ (s : State) entry, s.memoryOk = true → (go s entry).1.memoryOk = true := fun s entry h => by
      unfold go
      split
      rename_i first s1 hp
      have hr := State.memoryOk_putResults h core id t.slot (s.kStep core ‹Cmd› t nbv entry (‹Cmd›).elem)
      rw [hp] at hr
      dsimp only
      split
      · exact hr
      · exact ih (State.memoryOk_modCmd hr ..)
    clear_value go
    split
    · exact hg _ _ h
    split
    · exact h
    · dsimp only
      split
      · exact h
      · exact hg _ _ (State.memoryOk_modCore h ..)

theorem State.memoryOk_drainFrom (core id d : Nat) (r : Shape) (nbv off e n : Nat) :
    (s.drainFrom core id d r nbv off e n).1.memoryOk = true := by
  induction n generalizing s e with
  | zero => exact h
  | succ n ih =>
    unfold State.drainFrom
    split
    · exact h
    have hp := fun c : Cmd => State.memoryOk_localPut h c.tid
    have hw := fun c : Cmd => State.memoryOk_engWrite h core c
    extract_lets i j
    grind [State.memoryOk_modCmd]

theorem State.memoryOk_sendTile (core id d : Nat) (ord : Bool) (c : Cmd) : (s.sendTile core id d ord c).1.memoryOk = true := by
  grind [State.sendTile, memoryOk_efail, State.memoryOk_modCore]

theorem State.memoryOk_drainRun (core : Nat) (c : Cmd) (d : Nat) (ord : Bool) (off : Nat) :
    (s.drainRun core c d ord off).1.memoryOk = true := by
  unfold State.drainRun
  extract_lets nbv e total sp n va
  split
  · exact h
  split
  · exact h
  split
  · split
    · exact h
    split
    · exact h
    · exact State.memoryOk_drainFrom h ..
  split
  · split
    · exact h
    refine memoryOk_next (State.memoryOk_engRead h ..) fun bs s h => ?_
    dsimp only
    split
    · exact h
    split
    · exact h
    · exact State.memoryOk_drainFrom h ..
  · exact State.memoryOk_sendTile h ..

theorem State.memoryOk_blockRead (core : Nat) (c : Cmd) : (s.blockRead core c).1.memoryOk = true := by
  unfold State.blockRead
  split
  · exact h
  · exact memoryOk_next (State.memoryOk_engRead h ..) fun _ _ h => h

theorem State.memoryOk_drainStart (core : Nat) (c : Cmd) : (s.drainStart core c).1.memoryOk = true :=
  memoryOk_next (State.memoryOk_blockRead h ..) fun c s h => by
    split
    · exact h
    · exact State.memoryOk_drainRun h ..

theorem State.memoryOk_readsDone (core : Nat) (c : Cmd) (rings : List Nat) : (s.readsDone core c rings).memoryOk = true := by
  unfold State.readsDone
  split <;> exact h

theorem State.memoryOk_taskBegin (core : Nat) (c : Cmd) : (s.taskBegin core c).1.memoryOk = true := by
  unfold State.taskBegin
  split
  · exact h
  extract_lets t k
  split
  · exact h
  split
  · exact h
  extract_lets f s1
  split
  · exact h
  rename_i bad _ _
  clear_value bad
  split
  · exact State.memoryOk_localError (State.memoryOk_modCmd (State.memoryOk_setCore h ..) ..) ..
  · dsimp only
    split <;> exact h

theorem State.memoryOk_taskRun (core : Nat) (c : Cmd) : (s.taskRun core c).1.memoryOk = true := by
  refine memoryOk_next (State.memoryOk_blockRead h ..) fun c s h => memoryOk_next ?_ fun c s h =>
    memoryOk_next (State.memoryOk_runSteps h ..) fun _ s h => memoryOk_next ?_ fun _ s h => ?_
  · split
    · exact h
    · exact State.memoryOk_taskBegin h ..
  · split
    · exact State.memoryOk_rowsPass h ..
    · exact h
  · grind [State.memoryOk_modCmd, State.memoryOk_readsDone, State.memoryOk_drainRun]

theorem State.memoryOk_commandRun (core : Nat) (c : Cmd) : (s.commandRun core c).1.memoryOk = true := by
  grind [State.commandRun, State.memoryOk_copyStart, State.memoryOk_keyStart, State.memoryOk_xlatbStart,
    State.memoryOk_adpfStart, State.memoryOk_drainStart]

end
end Sys2Proof.Machine
end

section
/-! SUPPORT. Memories stay in canonical form (R190): the events of the engines, the instructions that hand them commands, and those of
nodes and record queues. -/

namespace Sys2Proof.Machine

-- One proof at a time: a compile of the whole text stays within its memory.
set_option Elab.async false

section
variable {s t : State} (h : s.memoryOk = true)
include h

/-! ### Events of the engines (R253-R256, R261-R270, R273, R301) -/

omit h in
theorem State.memoryOk_settleRun (core id : Nat) {x : ERes Unit} (hx : x.1.memoryOk = true) :
    (State.settleRun core id x).memoryOk = true := State.memoryOk_settleCmd hx ..

theorem memoryOk_execRingFill {core id : Nat} (e : execRingFill core id s = .next t) : t.memoryOk = true := by
  grind [execRingFill, State.memoryOk_ringFill]

theorem memoryOk_execSparsityQueueFill {core id : Nat} (e : execSparsityQueueFill core id s = .next t) :
    t.memoryOk = true := by
  grind [execSparsityQueueFill, State.memoryOk_queueFill]

theorem State.memoryOk_readRecord (core : Nat) (c : Cmd) : (s.readRecord core c).memoryOk = true := by
  unfold State.readRecord
  extract_lets r
  have hr : r.1.memoryOk = true := by
    unfold r
    split
    · exact State.memoryOk_blockRead h ..
    · exact State.memoryOk_copyRecord h ..
  clear_value r
  split <;> exact hr

theorem memoryOk_execEngineCommandStart {core id : Nat} (e : execEngineCommandStart core id s = .next t) :
    t.memoryOk = true := by
  unfold execEngineCommandStart at e
  split at e <;> cases e
  · exact h
  · split
    · exact State.memoryOk_settleRun core id (State.memoryOk_commandRun (State.memoryOk_modCmd h ..) ..)
    split
    · exact State.memoryOk_readRecord h ..
    · exact h

theorem memoryOk_execTaskIssue {core : Nat} (e : execTaskIssue core s = .next t) : t.memoryOk = true := by
  unfold execTaskIssue at e
  split at e <;> cases e
  · exact h
  · exact State.memoryOk_modCore (by exact h) ..

theorem memoryOk_execMatrixTaskEnd {core : Nat} (e : execMatrixTaskEnd core s = .next t) : t.memoryOk = true := by
  unfold execMatrixTaskEnd at e
  split at e
  · cases e; exact h
  split at e
  · cases e; exact h
  have hr := fun c : Cmd => State.memoryOk_settleRun core c.id
    (State.memoryOk_taskRun (State.memoryOk_modCmd h core c.id fun c => { c with state := .running }) core c)
  dsimp only at e
  split at e
  · cases e; exact hr _
  · split at e <;> cases e
    · exact State.memoryOk_modCmd (hr _) ..
    · exact hr _

theorem memoryOk_execAdapterLineFill {core : Nat} (e : execAdapterLineFill core s = .next t) : t.memoryOk = true := by
  unfold execAdapterLineFill at e
  split at e
  · cases e; exact h
  split at e
  · cases e; exact h
  split at e <;> cases e
  · exact memoryOk_of_eq (State.memoryOk_rowStep h ..) ‹_›
  · exact State.memoryOk_settleCmd (memoryOk_of_eq (State.memoryOk_rowStep h ..) ‹_›) ..

theorem memoryOk_execMatrixNanTrap {core : Nat} (e : execMatrixNanTrap core s = .next t) : t.memoryOk = true := by
  unfold execMatrixNanTrap at e
  split at e
  · cases e; exact h
  split at e <;> cases e
  · exact h
  · exact State.memoryOk_modCmd (State.memoryOk_trapGroup h ..) ..

theorem memoryOk_execDrainAddition {core : Nat} (e : execDrainAddition core s = .next t) : t.memoryOk = true := by
  unfold execDrainAddition at e
  dsimp only at e
  split at e <;> cases e
  · exact h
  · exact State.memoryOk_settleCmd (State.memoryOk_setCore h ..) ..

theorem State.memoryOk_readObjects (core : Nat) (c : Cmd) : (s.readObjects core c).memoryOk = true := by
  unfold State.readObjects
  have hb := State.memoryOk_blockRead h core c
  split <;> rename_i hx <;> rw [hx] at hb <;> exact hb

theorem State.memoryOk_cmdObject (core : Nat) (c : Cmd) (o : Nat × Nat × Nat) : (s.cmdObject core c o).2.memoryOk = true := by
  grind [State.cmdObject, State.memoryOk_recordFailure, State.memoryOk_coreComplete]

theorem State.memoryOk_freeCmd (core : Nat) (c : Cmd) : (s.freeCmd core c).memoryOk = true := by
  refine State.memoryOk_modCore (State.memoryOk_modCore ?_ ..) ..
  split
  · exact State.memoryOk_readsDone h ..
  · exact h

theorem State.memoryOk_completeCmd (core : Nat) (c : Cmd) : (s.completeCmd core c).memoryOk = true := by
  have hr := State.memoryOk_recordFailure h core c
  unfold State.completeCmd
  dsimp only
  split
  · exact State.memoryOk_freeCmd hr ..
  rename_i o rest _
  have ho := State.memoryOk_cmdObject hr core c o
  split <;> rename_i hx <;> rw [hx] at ho
  · exact ho
  rename_i s1
  split
  · exact State.memoryOk_freeCmd ho ..
  rename_i o' _ _
  have ho' := State.memoryOk_cmdObject (s := s1.modCmd core c.id fun x => { x with cobj := 0 }) ho core c o'
  split <;> rename_i hx <;> rw [hx] at ho'
  · exact ho'
  · exact State.memoryOk_freeCmd ho' ..

theorem memoryOk_execCommandComplete {core id : Nat} (e : execCommandComplete core id s = .next t) : t.memoryOk = true := by
  grind [execCommandComplete, State.memoryOk_readObjects, State.memoryOk_completeCmd]

/-! ### Commands for the engines (R253, R289-R306) and lane rings (R297) -/

theorem State.memoryOk_enterCmd (core : Nat) (x : Cmd) : (s.enterCmd core x).memoryOk = true := by
  unfold State.enterCmd
  extract_lets x1 s1 s2
  have h2 : s2.memoryOk = true := h
  split
  · exact State.memoryOk_modTeam h2 ..
  · exact h2

theorem State.memoryOk_accept {c : Issue} {x : Cmd} (e : s.accept c x = .ok t) : t.memoryOk = true := by
  unfold State.accept at e
  dsimp only at e
  split at e
  · cases e
  · exact memoryOk_released (fun _ e => State.memoryOk_release h e) (fun _ _ h e => by
      cases e; exact State.memoryOk_advance (State.memoryOk_enterCmd h ..) c) e

theorem memoryOk_engineUnit {addrs : UFile → List (DWord × Nat)} {control : Issue → Group → Option DWord}
    {f : Issue → Group → Cmd} (e : engineUnit s addrs control f = .next t) : t.memoryOk = true :=
  memoryOk_closingUnit h (fun c g t e => by
    split at e
    · cases e
    split at e
    · cases e
    · exact State.memoryOk_accept h e) e

theorem memoryOk_execSeq {a : USrc} (e : execSeq a s = .next t) : t.memoryOk = true :=
  memoryOk_closingUnit h (fun c g t e => by
    extract_lets va at e
    split at e
    · cases e
    split at e
    · cases e
    · cases e; exact State.memoryOk_uniformLoad h ‹_›
    rename_i hload
    have hl := State.memoryOk_uniformLoad h hload
    grind [State.memoryOk_accept]) e

theorem memoryOk_execRingAcq {d : UDst} {b : USrc} (e : execRingAcq d b s = .next t) : t.memoryOk = true :=
  memoryOk_closingUnit h (fun c g t e => by
    grind [State.memoryOk_parkAll, State.memoryOk_modCore, State.memoryOk_modGroup, State.memoryOk_acquire,
      State.memoryOk_advance]) e

theorem memoryOk_execRingRel {a : USrc} (e : execRingRel a s = .next t) : t.memoryOk = true :=
  memoryOk_closingUnit h (fun c g t e => by
    extract_lets x core r at e
    split at e
    · cases e
    · exact memoryOk_released (fun _ e => State.memoryOk_release h e) (fun _ _ h e => by
        cases e; exact State.memoryOk_advance (State.memoryOk_modCore h ..) c) e) e

/-! ### RPUSH (R280, R281, R287, R307, R308) -/

theorem State.memoryOk_takeRecords (die q : Nat) (rs : List (List Word)) : (s.takeRecords die q rs).2.memoryOk = true := by
  induction rs generalizing s with
  | nil => exact h
  | cons r rs ih =>
    unfold State.takeRecords
    grind [State.memoryOk_setQueue, State.memoryOk_slipAdd]

theorem State.memoryOk_pushRecords (replay : Bool) (die q : Nat) (rs : List (List Word)) :
    (s.pushRecords replay die q rs).2.memoryOk = true := by
  have ht := State.memoryOk_takeRecords h die q rs
  unfold State.pushRecords
  split <;> rename_i hx <;> rw [hx] at ht
  · split
    · exact h
    · exact ht
  · exact h

omit h in
theorem memoryOk_pushAll {own : Nat} {replay : Bool} {record : Nat → List Word} {a : Pushed} (ha : a.after.memoryOk = true)
    (xs : List (Nat × List Nat)) : (pushAll own replay record a xs).after.memoryOk = true := by
  induction xs generalizing a with
  | nil => exact ha
  | cons x xs ih =>
    have hp := State.memoryOk_pushRecords ha replay (bits x.1 12 10) (bits x.1 9 0) (x.2.map record)
    unfold pushAll
    dsimp only
    split
    · exact ih (by exact ha)
    · split <;> rename_i hx <;> rw [hx] at hp <;> exact ih (by exact hp)

theorem State.memoryOk_stall (gkey : Nat) (replay : Bool) (m : Mask) (dies : List Nat) :
    (s.stall gkey replay m dies).memoryOk = true :=
  memoryOk_foldl (fun _ _ h => State.memoryOk_modDie h ..) dies (State.memoryOk_parkAll h ..)

theorem memoryOk_execRpush {d : Nat} {a : LSrc} {gd : Nat} (e : execRpush d a gd s = .next t) : t.memoryOk = true :=
  memoryOk_closingLanes h (fun c g t e => by
    extract_lets m xs skip wide broken at e
    split at e
    · cases e
    clear_value broken
    split at e
    · cases e
    refine memoryOk_released (fun _ e => State.memoryOk_release h e) (fun s t h e => ?_) e
    have hp := memoryOk_pushAll (own := dieOf (coreOf c.gkey)) (replay := c.again != 0)
      (record := fun p => ((g.lane p).record d).1) (a := ⟨0, 0, 0, [], s⟩) h (selectors xs)
    dsimp only at e
    split at e
    · cases e
      exact State.memoryOk_stall (State.memoryOk_modGroup (State.memoryOk_skip hp ..) ..) ..
    split at e <;> cases e
    · exact State.memoryOk_takeTrap hp ..
    · exact State.memoryOk_advance hp c) e

/-! ### NLAUNCH, NSIGNAL and NQSTAT (R309-R311) -/

theorem State.memoryOk_launchResult (c : Issue) (d : UDst) (x : DWord) : (s.launchResult c d x).memoryOk = true :=
  State.memoryOk_advance (State.memoryOk_modGroup h ..) c

theorem memoryOk_execNlaunch {d : UDst} {b : USrc} (e : execNlaunch d b s = .next t) : t.memoryOk = true :=
  memoryOk_closingUnit h (fun c g t e => by
    extract_lets va die at e
    split at e
    · cases e
    split at e
    · split at e
      · cases e
      split at e <;> cases e
      exact State.memoryOk_dieFault (State.memoryOk_parkAll h ..) ..
    · rename_i n desc frameOk s1 hread
      refine memoryOk_released (fun _ e => State.memoryOk_release (State.memoryOk_readNode h hread) e) (fun s t h e => ?_) e
      have hsub := State.memoryOk_submit h die (s.die die).owner n desc frameOk
      grind [State.memoryOk_stall, State.memoryOk_launchResult, State.memoryOk_parkAll]) e

theorem State.memoryOk_nsignal (own : Nat) (x : Word) : (s.nsignal own x).memoryOk = true := by
  grind [State.nsignal, State.memoryOk_closeQueue, State.memoryOk_signal]

theorem memoryOk_execNsignal {b : USrc} (e : execNsignal b s = .next t) : t.memoryOk = true :=
  memoryOk_orCox (fun _ _ e => memoryOk_coxGuarded h (fun _ _ e => by cases e; exact State.memoryOk_nsignal h ..) e)
    (fun _ e => memoryOk_closingUnit h (fun c g t e =>
      memoryOk_released (fun _ e => State.memoryOk_release h e) (fun _ _ h e => by
        cases e; exact State.memoryOk_advance (State.memoryOk_nsignal h ..) c) e) e) e

theorem memoryOk_execNqstat {d : UDst} {b : USrc} (e : execNqstat d b s = .next t) : t.memoryOk = true :=
  memoryOk_orCox (fun _ _ e => memoryOk_coxGuarded h (fun _ _ e => by cases e; exact h) e)
    (fun _ e => memoryOk_guardedUnit h (fun c g t e => by
      cases e; exact State.memoryOk_advance (State.memoryOk_modGroup h ..) c) e) e

end
end Sys2Proof.Machine
end

section
/-! SUPPORT. Memories stay in canonical form (R190): MRS, MSR and ring lists, the moves of teams, placement and the boathouse. -/

namespace Sys2Proof.Machine

-- One proof at a time: a compile of the whole text stays within its memory.
set_option Elab.async false

section
variable {s t : State} (h : s.memoryOk = true)
include h

/-! ### Registers and ring lists (R295, R296, R312-R314) -/

theorem State.memoryOk_readRings {c : Issue} {g : Group} {va n : Nat} {xs : Option (List Nat)}
    (e : s.readRings c g va n = .ok (xs, t)) : t.memoryOk = true := by
  induction n generalizing s t va xs with
  | zero => cases e; exact h
  | succ n ih =>
    unfold State.readRings at e
    split at e
    · cases e
    · cases e; exact State.memoryOk_uniformLoad h ‹_›
    · have hl := State.memoryOk_uniformLoad h ‹_›
      split at e <;> cases e <;> exact ih hl ‹_›

theorem State.memoryOk_enableRings {c : Issue} {g : Group} {tm : Team} {v : DWord} {b : Bool}
    (e : s.enableRings c g tm v = .ok (b, t)) : t.memoryOk = true := by
  unfold State.enableRings at e
  dsimp only at e
  split at e
  · cases e
  · cases e; exact State.memoryOk_readRings h ‹_›
  · split at e <;> cases e
    exact State.memoryOk_modTeam (State.memoryOk_modCore (State.memoryOk_readRings h ‹_›) ..) ..

theorem State.memoryOk_writeRingtab {c : Issue} {g : Group} {v : DWord} (e : s.writeRingtab c g v = .ok t) :
    t.memoryOk = true := by
  unfold State.writeRingtab at e
  split at e
  · cases e
  split at e
  · cases e
  dsimp only at e
  split at e
  · cases e; exact State.memoryOk_advance (State.memoryOk_modTeam (State.memoryOk_modCore h ..) ..) c
  split at e
  · cases e; exact State.memoryOk_modGroup h ..
  split at e
  · cases e
  · cases e; exact State.memoryOk_enableRings h ‹_›
  · cases e; exact State.memoryOk_advance (State.memoryOk_enableRings h ‹_›) c

theorem memoryOk_execRingtabWrite {group : Nat} (e : execRingtabWrite group s = .next t) : t.memoryOk = true := by
  have hm := State.memoryOk_modGroup h group fun g => { g with hold := none }
  unfold execRingtabWrite at e
  split at e
  · cases e; exact h
  split at e
  · cases e; exact h
  split at e
  · dsimp only at e
    split at e
    · exact memoryOk_settle hm (fun _ e => by cases e) e
    · cases e; exact State.memoryOk_enableRings hm ‹_›
    · cases e
      exact State.memoryOk_modGroup (State.memoryOk_advance (State.memoryOk_enableRings hm ‹_›) _) ..
  · cases e; exact h

theorem memoryOk_coxMrs {a : MDst} {n : Nat} {c : Issue} (e : coxMrs a n s c = .next t) : t.memoryOk = true := by
  unfold coxMrs at e
  split at e
  · exact memoryOk_coxGuarded h (fun _ _ e => by cases e; exact h) e
  · cases e; exact State.memoryOk_takeTrap h ..

theorem memoryOk_execMrs {a : MDst} {n : Nat} (e : execMrs a n s = .next t) : t.memoryOk = true :=
  memoryOk_orCox (fun _ _ e => memoryOk_coxMrs h e)
    (fun _ e => memoryOk_guardedUnit h (fun c g t e => by
      split at e <;> cases e <;> exact State.memoryOk_advance (State.memoryOk_modGroup h ..) c) e) e

theorem memoryOk_execMsr {a : MSrc} {n : Nat} (e : execMsr a n s = .next t) : t.memoryOk = true :=
  memoryOk_closingUnit h (fun c g t e => by
    split at e
    · cases e; exact State.memoryOk_advance (State.memoryOk_modGroup h ..) c
    dsimp only at e
    split at e
    · exact State.memoryOk_writeRingtab h e
    split at e <;> cases e
    exact State.memoryOk_advance (State.memoryOk_setGroup h ..) c) e

/-! ### Teams that leave and enter cores (R329-R335) -/

theorem State.memoryOk_renameGroup (a b : Nat) : (s.renameGroup a b).memoryOk = true := by
  unfold State.renameGroup
  split <;> exact h

theorem State.memoryOk_setNextId (n : Nat) : State.memoryOk { s with nextId := n } = true := h
theorem State.memoryOk_moveCommands (tid a b : Nat) : (s.moveCommands tid a b).memoryOk = true := h
theorem State.memoryOk_clearCore (core tid : Nat) : (s.clearCore core tid).memoryOk = true := h

theorem State.memoryOk_leaveCore (tid base reason : Nat) : (s.leaveCore tid base reason).2.memoryOk = true := by
  unfold State.leaveCore
  split
  · exact h
  extract_lets gs s1 hard kept s2 s3 s4 s5
  have h1 : s1.memoryOk = true :=
    memoryOk_foldl (fun _ _ h => State.memoryOk_leaveSeat (State.memoryOk_modGroup h ..) _) gs h
  have h3 : s3.memoryOk = true :=
    State.memoryOk_moveCommands (State.memoryOk_clearCore (State.memoryOk_store none base _ h1) ..) ..
  have h4 : s4.memoryOk = true := by
    unfold s4
    split
    · exact State.memoryOk_modCore h3 ..
    · exact h3
  clear_value s4
  have h5 : s5.memoryOk = true :=
    memoryOk_foldl (fun _ k h => State.memoryOk_setNextId (State.memoryOk_renameGroup h k _) _) gs h4
  exact State.memoryOk_setTeam h5 ..

theorem State.memoryOk_placeGroups (core : Nat) (f : Reader) (i : Nat) (ks : List Nat) :
    (s.placeGroups core f i ks).memoryOk = true := by
  induction ks generalizing s i with
  | nil => exact h
  | cons k ks ih =>
    unfold State.placeGroups
    split
    · exact h
    · rename_i key s1 hnew
      extract_lets n s2 s3 s4
      have h3 : s3.memoryOk = true := State.memoryOk_endWaits (State.memoryOk_modGroup
        (State.memoryOk_renameGroup (State.memoryOk_modCore (State.memoryOk_newSlot h hnew) ..) ..) ..) ..
      refine ih ?_ _
      unfold s4
      split
      · exact h3
      · split <;> exact h3

theorem State.memoryOk_enterCore (kept : Kept) (base core : Nat) : (s.enterCore kept base core).memoryOk = true := by
  unfold State.enterCore
  split
  · exact h
  extract_lets f tid gs e im s1 images s2 s3 s4 s5 s6 home s7
  have h2 : s2.memoryOk = true := memoryOk_foldl (fun _ _ h => State.memoryOk_modCmd h ..) _ h
  have h3 : s3.memoryOk = true := by
    unfold s3
    split
    · exact State.memoryOk_modCmd h2 ..
    · exact h2
  have h5 : s5.memoryOk = true := State.memoryOk_modCore (State.memoryOk_moveCommands h3 ..) ..
  have h6 : s6.memoryOk = true := by
    unfold s6
    split
    · exact h5
    · exact State.memoryOk_modCore h5 ..
  clear_value s6
  exact State.memoryOk_finishRegroup (State.memoryOk_placeGroups (s := s7) h6 ..) ..

/-! ### Placement (R188-R192, R277, R279, R283-R286) -/

theorem State.memoryOk_serve (die level key : Nat) : (s.serve die level key).memoryOk = true := h

theorem State.memoryOk_addGroups (core : Nat) (gs : List Group) : (s.addGroups core gs).memoryOk = true := by
  induction gs generalizing s with
  | nil => exact h
  | cons g gs ih =>
    unfold State.addGroups
    split
    · exact ih (State.memoryOk_setGroup (State.memoryOk_newSlot h ‹_›) ..)
    · exact h

theorem State.memoryOk_addTeam (tid : Nat) (tm : Team) (gs : List Group) : (s.addTeam tid tm gs).memoryOk = true :=
  State.memoryOk_addGroups (State.memoryOk_modCore (State.memoryOk_setTeam h ..) ..) ..

theorem State.memoryOk_newTids (n : Nat) : (s.newTids n).2.memoryOk = true := h

theorem State.memoryOk_placeCluster (die : Nat) (handle : Word) (d : NodeDesc) (index : Nat) (cores : List Nat) :
    (s.placeCluster die handle d index cores).memoryOk = true :=
  memoryOk_foldl (fun _ _ h => State.memoryOk_addTeam h ..) _ (State.memoryOk_newTids h _)

theorem State.memoryOk_placeTile (die core : Nat) (handle : Word) (d : NodeDesc) (rs : List (List Word)) :
    (s.placeTile die core handle d rs).memoryOk = true := State.memoryOk_addTeam (State.memoryOk_newTids h 1) ..

theorem State.memoryOk_placeEvaluator (die core pa : Nat) (d : NodeDesc) (us : List DWord) :
    (s.placeEvaluator die core pa d us).memoryOk = true :=
  State.memoryOk_addTeam (State.memoryOk_modEvaluation (State.memoryOk_newTids h 1) ..) ..

theorem State.memoryOk_placePhase (die core tid record : Nat) (tm : Team) :
    (s.placePhase die core tid record tm).memoryOk = true :=
  State.memoryOk_addTeam (State.memoryOk_modCore (State.memoryOk_modDie h ..) ..) ..

theorem State.memoryOk_placeMoved (die core record prio : Nat) (k : Kept) :
    (s.placeMoved die core record prio k).memoryOk = true :=
  State.memoryOk_modCore (State.memoryOk_modTeam (State.memoryOk_enterCore h ..) ..) ..

theorem State.memoryOk_placeItem (die prio : Nat) (x : PoolItem) (cores : List Nat) :
    (s.placeItem die prio x cores).1.memoryOk = true := by
  unfold State.placeItem
  dsimp only
  split
  · split
    · exact h
    · exact State.memoryOk_placeCluster h ..
  · split
    · exact h
    · exact State.memoryOk_modNode (State.memoryOk_placeTile h ..) ..
  · exact State.memoryOk_placeEvaluator h ..
  · exact memoryOk_foldl (fun _ _ h => State.memoryOk_placePhase h ..) _ h
  · exact memoryOk_foldl (fun _ _ h => State.memoryOk_placeMoved h ..) _ h

theorem State.memoryOk_markPrio (before p : Nat) : (s.markPrio before p).memoryOk = true := h

theorem State.memoryOk_placeFromPool (die : Nat) (c : Candidate) (cores : List Nat) :
    (s.placeFromPool die c cores).memoryOk = true := by
  unfold State.placeFromPool
  split
  · exact h
  · exact State.memoryOk_modDie (State.memoryOk_markPrio
      (State.memoryOk_placeItem (State.memoryOk_serve h ..) ..) ..) ..

theorem memoryOk_execPlacementDecision {die : Nat} (e : execPlacementDecision die s = .next t) : t.memoryOk = true := by
  grind [execPlacementDecision, State.memoryOk_placeFromPool]

theorem memoryOk_execPackageArbiterHandout (e : execPackageArbiterHandout s = .next t) : t.memoryOk = true := by
  unfold execPackageArbiterHandout at e
  split at e
  · cases e; exact h
  split at e
  · cases e; exact h
  split at e
  · cases e; exact h
  cases e
  exact memoryOk_foldl (fun _ d h => State.memoryOk_modDie h d _) _
    (State.memoryOk_placeCluster (State.memoryOk_serve h ..) ..)

theorem memoryOk_execPriorityAging {die : Nat} (e : execPriorityAging die s = .next t) : t.memoryOk = true := by
  cases e; exact h

theorem memoryOk_execReservation {die : Nat} (e : execReservation die s = .next t) : t.memoryOk = true := by
  unfold execReservation at e
  split at e
  · cases e; exact h
  split at e
  · cases e; exact h
  cases e
  split <;> exact h

theorem memoryOk_execMenuEntryApply {core entry : Nat} (e : execMenuEntryApply core entry s = .next t) :
    t.memoryOk = true := by
  unfold execMenuEntryApply at e
  dsimp only at e
  split at e <;> cases e <;> exact h

theorem State.memoryOk_landSegment (tid : Nat) : (s.landSegment tid).memoryOk = true := by
  unfold State.landSegment
  split
  · exact h
  extract_lets done
  have hd : ∀ s : State, s.memoryOk = true → (done s).memoryOk = true := fun s h => State.memoryOk_modTeam h ..
  clear_value done
  split
  · exact h
  split
  · exact hd s h
  split
  · dsimp only
    split
    · exact hd _ (State.memoryOk_memoryError h ..)
    · exact State.memoryOk_dieFault h ..
  · have hr := State.memoryOk_dieRead h ‹_›
    grind [State.memoryOk_setCore]

theorem State.memoryOk_releaseTeam (tid : Nat) : (s.releaseTeam tid).memoryOk = true :=
  memoryOk_foldl (fun _ x h => State.memoryOk_modGroup (State.memoryOk_acquire h x.1 4) ..) _ h

theorem memoryOk_execTeamStart {team : Nat} (e : execTeamStart team s = .next t) : t.memoryOk = true := by
  have hl := State.memoryOk_landSegment h team
  unfold execTeamStart at e
  dsimp only at e
  split at e
  · cases e; exact hl
  split at e <;> cases e
  · exact memoryOk_foldl (fun _ tid h => State.memoryOk_releaseTeam h tid) _ hl
  · exact hl

/-! ### The boathouse (R281, R282, R287, R288, R324, R337, R339) -/

theorem memoryOk_execNodeSignal {handle : BitVec 32} (e : execNodeSignal handle s = .next t) : t.memoryOk = true := by
  cases e; exact State.memoryOk_signal h handle

theorem memoryOk_execRecordArrival {die queue : Nat} (e : execRecordArrival die queue s = .next t) : t.memoryOk = true := by
  have hj := State.memoryOk_joinAll h die queue (s.queue die queue).arrive.length
  unfold execRecordArrival at e
  dsimp only at e
  split at e <;> cases e
  · split
    · exact State.memoryOk_retire hj ..
    · exact hj
  · exact hj

theorem memoryOk_execFlushTimerExpiry {die queue : Nat} (e : execFlushTimerExpiry die queue s = .next t) :
    t.memoryOk = true := by
  cases e; exact State.memoryOk_expireTile h die queue

theorem State.memoryOk_queuePhases (die n : Nat) : (s.queuePhases die n).memoryOk = true := by
  induction n generalizing s with
  | zero => exact h
  | succ n ih =>
    unfold State.queuePhases
    grind [State.memoryOk_poolAdd, State.memoryOk_modDie]

theorem State.memoryOk_queueWaiting (die n : Nat) : (s.queueWaiting die n).memoryOk = true := by
  induction n generalizing s with
  | zero => exact h
  | succ n ih =>
    unfold State.queueWaiting
    grind [State.memoryOk_poolAdd, State.memoryOk_modDie]

theorem State.memoryOk_slipTake (die : Nat) : (s.slipTake die).memoryOk = true := by
  unfold State.slipTake
  split
  · exact h
  · dsimp only
    split
    · exact h
    · split <;> exact h

theorem State.memoryOk_wakeStalled (die : Nat) : (s.wakeStalled die).memoryOk = true := by
  unfold State.wakeStalled
  split
  · exact h
  · exact State.memoryOk_wake (State.memoryOk_modDie h ..) _ _

theorem memoryOk_execSlipwayReturn {die : Nat} (e : execSlipwayReturn die s = .next t) : t.memoryOk = true := by
  unfold execSlipwayReturn at e
  extract_lets s1 s2 s3 at e
  have h1 : s1.memoryOk = true := by
    unfold s1
    split
    · exact State.memoryOk_slipTake h die
    · exact h
  have h3 : s3.memoryOk = true :=
    memoryOk_foldl (fun _ e h => State.memoryOk_makeReady h die e) _ (State.memoryOk_queueWaiting h1 ..)
  clear_value s1 s3
  split at e <;> cases e
  · exact State.memoryOk_wakeStalled (State.memoryOk_queuePhases h3 ..) die
  · exact h1

theorem State.memoryOk_endEvaluation (tid : Nat) : (s.endEvaluation tid).memoryOk = true :=
  memoryOk_foldl (fun _ d h => memoryOk_foldl (fun _ e h => by
    split
    · exact State.memoryOk_failCell h ..
    · exact h) d.cells h) _ h

theorem State.memoryOk_countEnd (tid : Nat) (tm : Team) : (s.countEnd tid tm).2.memoryOk = true := by
  grind [State.countEnd, State.memoryOk_dieComplete, State.memoryOk_modTeam, State.memoryOk_modNode]

theorem State.memoryOk_freeTeam (tid : Nat) (tm : Team) : (s.freeTeam tid tm).memoryOk = true :=
  memoryOk_foldl (fun _ k h => State.memoryOk_dropGroup h k) _ (State.memoryOk_clearCore h tm.core tid)

theorem State.memoryOk_endTeam (tid : Nat) (tm : Team) : (s.endTeam tid tm).memoryOk = true := by
  have hc := State.memoryOk_countEnd (State.memoryOk_endEvaluation h tid) tid tm
  unfold State.endTeam
  split <;> rename_i hx <;> rw [hx] at hc
  · exact hc
  rename_i s1
  split
  · exact State.memoryOk_freeTeam hc ..
  rename_i die entry _ _
  have hr := State.memoryOk_retire (s := s1) hc die entry
  split <;> rename_i hx <;> rw [hx] at hr
  · exact hr
  · exact State.memoryOk_queuePhases (State.memoryOk_freeTeam hr ..) ..

theorem memoryOk_execTeamEnd {team : Nat} (e : execTeamEnd team s = .next t) : t.memoryOk = true := by
  grind [execTeamEnd, State.memoryOk_endTeam]

theorem memoryOk_execPhaseRecordWrite {team : Nat} (e : execPhaseRecordWrite team s = .next t) : t.memoryOk = true := by
  unfold execPhaseRecordWrite at e
  split at e
  · cases e; exact h
  split at e <;> cases e
  · exact h
  · exact State.memoryOk_queuePhases (State.memoryOk_modDie
      (State.memoryOk_freeTeam (State.memoryOk_store none _ _ h) ..) ..) ..

theorem memoryOk_execEventHoldRelease {die : Nat} (e : execEventHoldRelease die s = .next t) : t.memoryOk = true := by
  cases e; exact State.memoryOk_ringDrain h die _

theorem memoryOk_execTrapQueueAdmit {core : Nat} (e : execTrapQueueAdmit core s = .next t) : t.memoryOk = true := by
  grind [execTrapQueueAdmit, State.memoryOk_modCore]

end
end Sys2Proof.Machine
end

section
/-! SUPPORT. Memories stay in canonical form (R190): what system software does through privileged registers, and the instructions of the
cox. -/

namespace Sys2Proof.Machine

-- One proof at a time: a compile of the whole text stays within its memory.
set_option Elab.async false

/-- A fold that carries a result beside the state, of steps that each keep the memories in canonical form. -/
theorem memoryOk_foldl_snd {α β : Type} {f : β × State → α → β × State}
    (hf : ∀ x a, x.2.memoryOk = true → (f x a).2.memoryOk = true) (xs : List α) {x : β × State} (h : x.2.memoryOk = true) :
    (xs.foldl f x).2.memoryOk = true := by
  induction xs generalizing x with
  | nil => exact h
  | cons a xs ih => exact ih (hf x a h)

/-- What a cox-only unit comes to leaves the memories in canonical form. -/
def CoxRes.MemoryOk : CoxRes → Prop
  | .done s => s.memoryOk = true
  | .result _ _ s => s.memoryOk = true
  | .fail _ s => s.memoryOk = true
  | .wait s => s.memoryOk = true
  | .refuse _ => True
  | .cause _ => True

section
variable {s t : State} (h : s.memoryOk = true)
include h

/-! ### Stops for a move and vacates (R330, R334, R353) -/

theorem State.memoryOk_tlbinv (f : TlbEntry → Bool) : (s.tlbinv f).memoryOk = true := h
theorem State.memoryOk_vacsetAdd (die core : Nat) : (s.vacsetAdd die core).memoryOk = true := h
theorem State.memoryOk_vacsetEmpty (die : Nat) : (s.vacsetEmpty die).memoryOk = true := h

theorem State.memoryOk_stopGroup (gkey reason : Nat) (hard : Bool) : (s.stopGroup gkey reason hard).memoryOk = true := by
  grind [State.stopGroup, State.memoryOk_leaveSeat, State.memoryOk_setGroup]

theorem State.memoryOk_stopMoving (f : Team → Group → Bool) (hard : Bool) : (s.stopMoving f hard).memoryOk = true :=
  memoryOk_foldl (fun _ x h => by
    split
    · exact h
    split
    · split
      · exact State.memoryOk_stopGroup h ..
      · exact h
    · exact h) _ h

theorem State.memoryOk_stopParked : s.stopParked.memoryOk = true := State.memoryOk_stopMoving h ..

theorem State.memoryOk_vacgo (die : Nat) (cobj : DWord) : (s.vacgo die cobj).memoryOk = true :=
  State.memoryOk_stopParked (State.memoryOk_modDie h ..)

theorem State.memoryOk_vacateCore (die core : Nat) (tids : List Nat) : (s.vacateCore die core tids).2.memoryOk = true := by
  unfold State.vacateCore
  extract_lets order xs slot s1
  split
  · exact h
  · refine memoryOk_foldl_snd (fun _ _ h => ?_) xs ?_
    · exact State.memoryOk_leaveCore h ..
    · exact State.memoryOk_store none _ _ h

theorem State.memoryOk_queueMoved (die : Nat) (xs : List (Nat × Nat × Kept)) : (s.queueMoved die xs).memoryOk = true :=
  State.memoryOk_queueWaiting (memoryOk_foldl (fun _ c h => by
    dsimp only
    split
    · exact h
    · exact State.memoryOk_modDie h ..) _ h) ..

theorem State.memoryOk_vacateWrite (die : Nat) (v : Vacate) : (s.vacateWrite die v).memoryOk = true := by
  unfold State.vacateWrite
  refine State.memoryOk_queueMoved (memoryOk_foldl_snd (fun _ _ h => ?_) _ ?_) ..
  · exact State.memoryOk_vacateCore h ..
  · exact h

theorem memoryOk_execVacateComplete {die : Nat} (e : execVacateComplete die s = .next t) : t.memoryOk = true := by
  unfold execVacateComplete at e
  split at e
  · cases e; exact h
  rename_i v _
  have hv := State.memoryOk_vacateWrite h die v
  have hc : (if v.cobj = 0 then (true, s.vacateWrite die v)
      else (s.vacateWrite die v).dieComplete die 0 v.cobj.toNat 0 (Event.plain 1)).2.memoryOk = true := by
    split
    · exact hv
    · exact State.memoryOk_dieComplete hv ..
  dsimp only at e
  split at e <;> rename_i hx <;> rw [hx] at hc <;> cases e <;> exact State.memoryOk_modDie hc ..

/-! ### Resolved pages, routes, the event ring (R202, R339, R353, R362) -/

theorem State.memoryOk_replayDie (die : Nat) (f : ParkWhy → Bool) (g : CmdState → Bool) :
    (s.replayDie die f g).memoryOk = true := by
  unfold State.replayDie
  extract_lets s1 r
  have h1 : s1.memoryOk = true := memoryOk_foldl (fun _ x h => by
    split
    · exact State.memoryOk_wake h ..
    · exact h) _ h
  exact h1

theorem State.memoryOk_replayPosted (die : Nat) (f : ParkWhy → Bool) : (s.replayPosted die f).memoryOk = true :=
  memoryOk_foldl (fun _ x h => State.memoryOk_retryPosted h x.1 _) _ (State.memoryOk_modCore h ..)

theorem State.memoryOk_setCores (ks : Tab Core) : State.memoryOk { s with cores := ks } = true := h

theorem State.memoryOk_pageDone (die asid page : Nat) : (s.pageDone die asid page).memoryOk = true :=
  State.memoryOk_retryRuns (State.memoryOk_setCores
    (State.memoryOk_replayDie (State.memoryOk_replayPosted (State.memoryOk_modDie h ..) ..) ..) _)

theorem State.memoryOk_routeSet (dev die : Nat) : (s.routeSet dev die).memoryOk = true :=
  memoryOk_foldl (fun _ x h => by
    split
    · exact State.memoryOk_pageDone h ..
    · exact h) _ (State.memoryOk_replayDie (State.memoryOk_replayPosted (State.memoryOk_modDie h ..) ..) ..)

theorem State.memoryOk_wroute (v : Word) : (s.wroute v).memoryOk = true := by
  unfold State.wroute
  extract_lets dev v
  exact State.memoryOk_retryRuns (memoryOk_foldl (s := { s with routes := tset s.routes dev v })
    (fun _ die h => State.memoryOk_routeSet h dev die) (List.range 8) h)

theorem State.memoryOk_evheadSet (die : Nat) (v : Word) : (s.evheadSet die v).memoryOk = true :=
  State.memoryOk_ringDrain (State.memoryOk_modDie h ..) ..

theorem State.memoryOk_setTroots (ts : Tab DWord) : State.memoryOk { s with troots := ts } = true := h
theorem State.memoryOk_setDevid (x : BitVec 16) : State.memoryOk { s with devid := x } = true := h
theorem State.memoryOk_setWrsel (x : BitVec 16) : State.memoryOk { s with wrsel := x } = true := h

theorem State.memoryOk_writePriv (core n : Nat) (x : DWord) : (s.writePriv core n x).memoryOk = true := by
  unfold State.writePriv
  extract_lets die cox put
  have hcox : ∀ f, (cox f).memoryOk = true := fun f => State.memoryOk_modCore h ..
  have hput : ∀ f, (put f).memoryOk = true := fun f => State.memoryOk_modDie h ..
  clear_value cox put
  split
  · exact hcox _
  · exact hput _
  · exact hput _
  · exact hput _
  · exact hput _
  · exact hput _
  · exact State.memoryOk_setTroots h _
  · split <;> exact State.memoryOk_tlbinv h _
  · split
    · exact State.memoryOk_vacsetEmpty h _
    · exact State.memoryOk_vacsetAdd h ..
  · exact State.memoryOk_vacgo h ..
  · exact hput _
  · exact State.memoryOk_pageDone h ..
  · exact State.memoryOk_setDevid h _
  · exact State.memoryOk_setWrsel h _
  · exact State.memoryOk_wroute h _
  · exact hput _
  · exact hput _
  · exact State.memoryOk_evheadSet h ..
  · exact h

/-! ### Instructions of the cox (R341-R353) -/

theorem State.memoryOk_coxNext (c : Issue) (f : Cox → Cox) : (s.coxNext c f).memoryOk = true := h
theorem State.memoryOk_coxRefuse (c : Issue) (code : Nat) : (s.coxRefuse c code).memoryOk = true := h

theorem memoryOk_coxAct {body : Issue → UFile → CoxRes} (hb : ∀ c u, (body c u).MemoryOk) (e : coxAct s body = .next t) :
    t.memoryOk = true := by
  unfold coxAct at e
  split at e
  · cases e
  rename_i c _
  split at e
  · cases e; exact State.memoryOk_takeTrap h ..
  dsimp only at e
  split at e
  · cases e; exact State.memoryOk_coxNext h ..
  have hr := hb c (s.core c.core).cox.u
  split at e <;> rename_i hx <;> rw [hx] at hr <;> cases e
  · exact State.memoryOk_coxNext hr ..
  · exact State.memoryOk_coxNext hr ..
  · exact State.memoryOk_coxRefuse h ..
  · exact State.memoryOk_coxRefuse hr ..
  · exact State.memoryOk_takeTrap h ..
  · exact hr

omit h in
theorem withGroup_memoryOk {core : Nat} {x : DWord} {f : Nat → Group → CoxRes} (hf : ∀ k g, (f k g).MemoryOk) :
    (withGroup s core x f).MemoryOk := by
  unfold withGroup
  split
  · trivial
  · exact hf _ _

omit h in
theorem withStopped_memoryOk {core : Nat} {x : DWord} {f : Nat → Group → Stop → CoxRes}
    (hf : ∀ k g x, (f k g x).MemoryOk) : (withStopped s core x f).MemoryOk :=
  withGroup_memoryOk fun k g => by
    split
    · exact hf _ _ _
    · trivial

theorem memoryOk_execDbgRd {a : UDst} {b c : USrc} (e : execDbgRd a b c s = .next t) : t.memoryOk = true :=
  memoryOk_coxAct h (fun _ _ => withStopped_memoryOk fun _ _ _ => by
    dsimp only
    split
    · trivial
    split
    · trivial
    · exact h) e

theorem memoryOk_execDbgWr {a b c : USrc} (e : execDbgWr a b c s = .next t) : t.memoryOk = true :=
  memoryOk_coxAct h (fun _ _ => withStopped_memoryOk fun _ _ _ => by
    dsimp only
    split
    · trivial
    split
    · trivial
    split
    · trivial
    · exact State.memoryOk_setGroup h ..) e

theorem State.memoryOk_setCoxBytes (core a : Nat) (bs : List Byte) : (s.setCoxBytes core a bs).memoryOk = true := h

theorem memoryOk_execEvq {a : UDst} {b : USrc} (e : execEvq a b s = .next t) : t.memoryOk = true :=
  memoryOk_coxAct h (fun _ _ => by
    dsimp only
    split
    · trivial
    split
    · exact h
    · exact State.memoryOk_setCoxBytes (State.memoryOk_modCore h ..) ..
    · exact State.memoryOk_setCoxBytes (State.memoryOk_modCore h ..) ..) e

theorem memoryOk_execPlace {a : USrc} (e : execPlace a s = .next t) : t.memoryOk = true :=
  memoryOk_coxAct h (fun _ _ => by
    extract_lets x f
    clear_value f
    split
    · trivial
    split
    · trivial
    split
    split
    · trivial
    split
    · trivial
    · extract_lets s1 s2
      have h1 : s1.memoryOk = true := State.memoryOk_modTeam h ..
      have h2 : s2.memoryOk = true := memoryOk_foldl (fun _ _ h => State.memoryOk_modGroup h ..) _ h1
      exact State.memoryOk_landSegment h2 _) e

theorem memoryOk_execCload {a b : USrc} (e : execCload a b s = .next t) : t.memoryOk = true :=
  memoryOk_coxAct h (fun i u => withGroup_memoryOk fun k g => by
    split
    · trivial
    extract_lets va
    split
    · trivial
    split
    · trivial
    split
    · dsimp only
      split
      · exact State.memoryOk_memoryError h ..
      · exact State.memoryOk_dieFault h ..
    · have hr := State.memoryOk_dieRead h ‹_›
      split
      · trivial
      split
      · trivial
      extract_lets start
      have hs : (start ()).MemoryOk := by
        unfold start
        split
        · exact State.memoryOk_setCore hr ..
        · exact hr
      clear_value start
      split
      · exact hs
      split
      · split <;> exact hr
      · exact hs) e

theorem State.memoryOk_resumeTasks (gkey : Nat) : (s.resumeTasks gkey).memoryOk = true := h

theorem State.memoryOk_holdStop (gkey : Nat) : (s.holdStop gkey).memoryOk = true := by
  grind [State.holdStop, State.memoryOk_stopGroup]

theorem memoryOk_execRte {a b : USrc} (e : execRte a b s = .next t) : t.memoryOk = true := by
  unfold execRte at e
  split at e
  · cases e
  dsimp only at e
  split at e
  · cases e; exact State.memoryOk_modCore h ..
  · exact memoryOk_coxAct h (fun _ _ => by
      split
      · trivial
      · refine withStopped_memoryOk fun k g x => ?_
        split
        · trivial
        · have hw := State.memoryOk_endWaits (State.memoryOk_setGroup h k ‹Group›) k
          refine State.memoryOk_finishRegroup (State.memoryOk_holdStop ?_ ..) ..
          split
          · exact hw
          · exact State.memoryOk_resumeTasks hw ..) e

theorem State.memoryOk_forgetGroup (k : Nat) : (s.forgetGroup k).memoryOk = true := h

theorem State.memoryOk_setCallsCores (cs : Tab WidenCall) (ks : Tab Core) :
    State.memoryOk { s with calls := cs, cores := ks } = true := h

theorem State.memoryOk_killTeam (tid : Nat) : (s.killTeam tid).memoryOk = true := by
  unfold State.killTeam
  split
  · exact h
  · exact State.memoryOk_finishCluster (State.memoryOk_endEvaluation (State.memoryOk_modTeam
      (State.memoryOk_setCallsCores (State.memoryOk_modCore (memoryOk_foldl (fun _ k h =>
        State.memoryOk_endWaits (State.memoryOk_modGroup (State.memoryOk_leaveSeat (State.memoryOk_forgetGroup h k) _) ..) _)
        _ h) ..) ..) ..) _) _

theorem memoryOk_execKill {a : USrc} (e : execKill a s = .next t) : t.memoryOk = true :=
  memoryOk_coxAct h (fun _ _ => withGroup_memoryOk fun _ _ => by exact State.memoryOk_killTeam h _) e

theorem State.memoryOk_setSaved (ks : List Kept) : State.memoryOk { s with saved := ks } = true := h

theorem memoryOk_execCtxSave {a b : USrc} (e : execCtxSave a b s = .next t) : t.memoryOk = true :=
  memoryOk_coxAct h (fun i u => by
    dsimp only
    split
    · trivial
    refine withGroup_memoryOk fun _ g => ?_
    split
    · trivial
    split
    · trivial
    have hp := State.memoryOk_stopParked (State.memoryOk_modCore h i.core fun k =>
      { k with cox := { k.cox with saving := some g.tid } })
    split
    · exact State.memoryOk_modCore (State.memoryOk_setSaved (State.memoryOk_leaveCore hp ..) _) ..
    · exact hp) e

theorem memoryOk_execCtxLoad {a : USrc} (e : execCtxLoad a s = .next t) : t.memoryOk = true :=
  memoryOk_coxAct h (fun _ _ => by
    dsimp only
    split
    · trivial
    split
    · trivial
    split
    · trivial
    split
    · trivial
    split
    · trivial
    · exact State.memoryOk_modTeam (State.memoryOk_enterCore (State.memoryOk_setSaved h _) ..) ..) e

theorem memoryOk_execPmsrRd {a : UDst} {b : Nat} (e : execPmsrRd a b s = .next t) : t.memoryOk = true :=
  memoryOk_coxAct h (fun _ _ => by
    split
    · trivial
    split
    · exact h
    · trivial) e

theorem memoryOk_execPmsrWr {a : USrc} {b : Nat} (e : execPmsrWr a b s = .next t) : t.memoryOk = true :=
  memoryOk_coxAct h (fun _ _ => by
    split
    · trivial
    split
    · trivial
    split
    · trivial
    · exact State.memoryOk_writePriv h ..) e

end
end Sys2Proof.Machine
end

section
/-! SUPPORT. Memories stay in canonical form (R190): the host, peers, the links, and the device as a module. -/

namespace Sys2Proof.Machine

-- One proof at a time: a compile of the whole text stays within its memory.
set_option Elab.async false

section
variable {s t : State} (h : s.memoryOk = true)
include h

/-! ### Work queues of the host (R366-R368) -/

omit h in
theorem memoryOk_outside {f : State → State} (h : s.memoryOk = true) (hf : ∀ s : State, s.memoryOk = true → (f s).memoryOk = true)
    (e : outside s f = .next t) : t.memoryOk = true := by
  cases e
  split
  · exact hf s h
  · exact h

omit h in
theorem memoryOk_running {f : State → State} (h : s.memoryOk = true) (hf : ∀ s : State, s.memoryOk = true → (f s).memoryOk = true)
    (e : running s f = .next t) : t.memoryOk = true :=
  memoryOk_outside h (fun s h => by
    split
    · exact hf s h
    · exact h) e

theorem State.memoryOk_modHostQueue (die q : Nat) (f : HostQueue → HostQueue) : (s.modHostQueue die q f).memoryOk = true := h

theorem memoryOk_execHostQueueDoorbell {die queue port : Nat} {tail : BitVec 32}
    (e : execHostQueueDoorbell die queue port tail s = .next t) : t.memoryOk = true :=
  memoryOk_running h (fun _ h => State.memoryOk_modHostQueue h ..) e

theorem State.memoryOk_hostDone (die q e handle cause : Nat) : (s.hostDone die q e handle cause).memoryOk = true := by
  unfold State.hostDone
  extract_lets x a s1 s2
  have h2 : s2.memoryOk = true := State.memoryOk_modHostQueue (State.memoryOk_store none a _ h) ..
  split
  · exact State.memoryOk_message h2 ..
  · exact h2

theorem State.memoryOk_hostHeld (die q asid page : Nat) : (s.hostHeld die q asid page).memoryOk = true :=
  State.memoryOk_modHostQueue h ..

theorem State.memoryOk_hostSubmit (die q e : Nat) : (s.hostSubmit die q e).memoryOk = true := by
  unfold State.hostSubmit
  extract_lets va asid
  split
  · exact State.memoryOk_hostDone h ..
  split
  · split
    · exact State.memoryOk_hostDone (State.memoryOk_dieError h ..) ..
    · split
      · exact h
      · exact State.memoryOk_hostHeld (State.memoryOk_dieFault h ..) ..
  rename_i n d frameOk s1 hread
  have h1 := State.memoryOk_readNode h hread
  have hs := State.memoryOk_submit h1 die (s1.die die).owner n d frameOk
  split <;> rename_i hx <;> rw [hx] at hs
  · exact State.memoryOk_hostDone (State.memoryOk_forgetHost hs) ..
  · exact State.memoryOk_hostDone hs ..
  · rename_i s2
    have hr := State.memoryOk_reject (s := s2) hs die d 7
    generalize s2.reject die d 7 = r at hr
    obtain ⟨_ | _ | _ | _ | a, s3⟩ := r
    all_goals dsimp only at hr ⊢
    case fault => exact State.memoryOk_hostHeld hr ..
    all_goals exact State.memoryOk_hostDone hr ..
  · exact hs
  · exact State.memoryOk_hostHeld hs ..

theorem memoryOk_execHostSubmit {die queue : Nat} (e : execHostSubmit die queue s = .next t) : t.memoryOk = true :=
  memoryOk_running h (fun _ h => by
    split
    · split
      · exact State.memoryOk_poolRoom h die
      · exact h
    split
    · exact State.memoryOk_hostSubmit h ..
    split
    · exact h
    · exact State.memoryOk_hostDone h ..) e

theorem memoryOk_execHostSignal {die queue : Nat} (e : execHostSignal die queue s = .next t) : t.memoryOk = true :=
  memoryOk_running h (fun _ h => by
    split
    · exact h
    split
    · exact State.memoryOk_hostDone (State.memoryOk_nsignal h ..) ..
    · exact h) e

theorem memoryOk_execHostCloseQueue {die queue : Nat} (e : execHostCloseQueue die queue s = .next t) : t.memoryOk = true :=
  memoryOk_running h (fun _ h => by
    split
    · exact h
    split
    · refine State.memoryOk_hostDone ?_ ..
      split
      · exact State.memoryOk_closeQueue h ..
      · exact h
    · exact h) e

/-! ### Messages, registers of the device (R364, R368, R370, R371) -/

theorem State.memoryOk_setVec (port v : Nat) (m : MsiVec) : (s.setVec port v m).memoryOk = true := by
  unfold State.setVec
  split <;> exact h

theorem State.memoryOk_sendHeld (port v : Nat) : (s.sendHeld port v).memoryOk = true := by
  unfold State.sendHeld
  dsimp only
  split
  · exact State.memoryOk_setVec h ..
  · exact h

theorem memoryOk_execMsixCoalesceEnd {port vector : Nat} (e : execMsixCoalesceEnd port vector s = .next t) :
    t.memoryOk = true :=
  memoryOk_outside h (fun _ h => State.memoryOk_sendHeld (State.memoryOk_setVec h ..) ..) e

theorem memoryOk_execEventStatusClear {m : BitVec 32} (e : execEventStatusClear m s = .next t) : t.memoryOk = true :=
  memoryOk_outside h (fun _ h => by exact h) e

theorem State.memoryOk_resyncStart : s.resyncStart.memoryOk = true := by
  unfold State.resyncStart
  split <;> exact h

theorem State.memoryOk_writeDevice (offset : Nat) (v : DWord) (r : Config.DevReg) :
    (s.writeDevice offset v r).memoryOk = true := by
  unfold State.writeDevice
  split
  case h_5 => exact State.memoryOk_sendHeld (State.memoryOk_setVec h ..) ..
  case h_6 | h_8 => split <;> exact h
  all_goals exact h

theorem State.memoryOk_tellHost : s.tellHost.memoryOk = true := State.memoryOk_message (State.memoryOk_message h 0 0) 1 0

theorem memoryOk_execDeviceRegisterWrite {offset : Nat} {v : BitVec 64} (e : execDeviceRegisterWrite offset v s = .next t) :
    t.memoryOk = true :=
  memoryOk_outside h (fun s h => by
    extract_lets m s1
    have h1 : s1.memoryOk = true := h
    split
    · exact h
    split
    · exact h
    split
    · exact h
    split
    · split
      · exact State.memoryOk_resyncStart h
      · exact h
    split
    · exact h
    split
    · split
      · exact h1
      · exact State.memoryOk_tellHost h1
    · exact State.memoryOk_writeDevice h ..) e

/-! ### Accesses of the host (R211, R217, R364, R365) -/

theorem State.memoryOk_hostRmw (pa : Nat) (x : HostRmw) : (s.hostRmw pa x).memoryOk = true :=
  State.memoryOk_hostAtomic h pa x.major x.funct x.operand x.swap

theorem State.memoryOk_hostPerform (x : HostAccess) : (s.hostPerform x).memoryOk = true := by
  cases x with
  | write pa data =>
    unfold State.hostPerform
    dsimp only
    split
    · exact State.memoryOk_hostStore h ..
    · exact h
  | rmw pa x =>
    unfold State.hostPerform
    dsimp only
    split
    · exact State.memoryOk_hostRmw h ..
    · exact h
  | read pa n => exact h

theorem State.memoryOk_hostRetry (xs : List HostAccess) : (s.hostRetry xs).memoryOk = true := by
  induction xs generalizing s with
  | nil => exact h
  | cons x xs ih =>
    unfold State.hostRetry
    split
    · exact h
    · exact ih (State.memoryOk_hostPerform h x)

theorem State.memoryOk_hostAccess (x : HostAccess) : (s.hostAccess x).memoryOk = true := State.memoryOk_hostRetry h _

theorem memoryOk_execCxlMemWrite {pa : Nat} {data : HostStore} (e : execCxlMemWrite pa data s = .next t) :
    t.memoryOk = true :=
  memoryOk_outside h (fun _ h => State.memoryOk_hostAccess h _) e

theorem memoryOk_execCxlMemRead {pa len : Nat} (e : execCxlMemRead pa len s = .next t) : t.memoryOk = true := by
  cases e
  split
  · exact State.memoryOk_hostAccess h _
  · exact h

/-! ### Flits and links (R231, R360, R363) -/

theorem State.memoryOk_eachReq (f : Flit) {g : PeerReq → State → State}
    (hg : ∀ r (s : State), s.memoryOk = true → (g r s).memoryOk = true) : (s.eachReq f g).memoryOk = true :=
  memoryOk_foldl (fun s r h => hg r s h) f.reqs h

theorem memoryOk_execWotisRead {f : Flit} (e : execWotisRead f s = .next t) : t.memoryOk = true :=
  memoryOk_outside h (fun _ h => State.memoryOk_eachReq h f fun _ _ h => State.memoryOk_servePeer h ..) e

theorem memoryOk_execWotisAtomic {f : Flit} (e : execWotisAtomic f s = .next t) : t.memoryOk = true :=
  memoryOk_outside h (fun _ h => State.memoryOk_eachReq h f fun _ _ h => State.memoryOk_servePeer h ..) e

theorem memoryOk_execWotisWrite {f : Flit} (e : execWotisWrite f s = .next t) : t.memoryOk = true :=
  memoryOk_outside h (fun _ h => State.memoryOk_eachReq h f fun _ _ h => State.memoryOk_servePeer h ..) e

theorem memoryOk_execWotisCopyData {f : Flit} (e : execWotisCopyData f s = .next t) : t.memoryOk = true :=
  memoryOk_outside h (fun _ h => State.memoryOk_eachReq h f fun _ _ h => State.memoryOk_servePeer h ..) e

theorem State.memoryOk_commandAnswer (w : PeerWait) (r : PeerReq) : (s.commandAnswer w r).memoryOk = true := by
  unfold State.commandAnswer
  split
  · exact h
  · exact State.memoryOk_modCmd h ..

theorem State.memoryOk_unitAnswer (w : PeerWait) (asid : Nat) (r : PeerReq) : (s.unitAnswer w asid r).memoryOk = true := by
  unfold State.unitAnswer
  split
  · exact h
  · refine State.memoryOk_pageDone ?_ ..
    split
    · exact h
    · exact State.memoryOk_modDie h ..

theorem State.memoryOk_postedAnswer (w : PeerWait) (r : PeerReq) (x : Posted) : (s.postedAnswer w r x).memoryOk = true := by
  unfold State.postedAnswer
  split
  · exact State.memoryOk_postedTrap h ..
  · dsimp only
    split
    · exact State.memoryOk_modGroup (State.memoryOk_dropPosted h x) ..
    · exact State.memoryOk_dropPosted h x

theorem State.memoryOk_storeRefused (w : PeerWait) (unit : DWord) (cause : Nat) (d1 : DWord) :
    (s.storeRefused w unit cause d1).memoryOk = true := State.memoryOk_lateTrap (State.memoryOk_modCore h ..) ..

theorem State.memoryOk_laneAnswer (w : PeerWait) (r : PeerReq) : (s.laneAnswer w r).memoryOk = true := by
  unfold State.laneAnswer
  split
  · exact State.memoryOk_postedAnswer h ..
  split
  · exact h
  rename_i g _
  extract_lets l here woken answered s1 d1
  have h1 : s1.memoryOk = true := by
    unfold s1
    split
    · exact h
    · exact State.memoryOk_setGroup h ..
  clear_value s1
  split
  · exact h1
  split
  · exact State.memoryOk_storeRefused h1 ..
  · exact State.memoryOk_trapGroup h1 ..

theorem State.memoryOk_setPeerWaits (ws : Tab PeerWait) : State.memoryOk { s with peerWaits := ws } = true := h

theorem memoryOk_execWotisResponse {f : Flit} (e : execWotisResponse f s = .next t) : t.memoryOk = true :=
  memoryOk_outside h (fun _ h => State.memoryOk_eachReq h f fun r s h => by
    split
    · exact h
    · have hw := State.memoryOk_setPeerWaits h (terase s.peerWaits r.tag)
      dsimp only
      split
      · exact State.memoryOk_unitAnswer hw ..
      · split
        · exact State.memoryOk_commandAnswer hw ..
        · exact State.memoryOk_laneAnswer hw ..) e

theorem memoryOk_execWotisEvent {f : Flit} (e : execWotisEvent f s = .next t) : t.memoryOk = true :=
  memoryOk_outside h (fun _ h => h) e

theorem State.memoryOk_setLostLinks (ls : List Nat) : State.memoryOk { s with lostLinks := ls } = true := h

theorem memoryOk_execLinkRetrained {link : Nat} (e : execLinkRetrained link s = .next t) : t.memoryOk = true :=
  memoryOk_outside h (fun _ h => State.memoryOk_raiseEvent (State.memoryOk_setLostLinks h _) ..) e

theorem memoryOk_execLinkLost {link : Nat} (e : execLinkLost link s = .next t) : t.memoryOk = true :=
  memoryOk_outside h (fun _ h => State.memoryOk_raiseStatus (State.memoryOk_raiseEvent (State.memoryOk_setLostLinks h _) ..) _) e

/-! ### The device as a module (R371-R377) -/

theorem memoryOk_execResync (e : execResync s = .next t) : t.memoryOk = true :=
  memoryOk_outside h (fun _ h => State.memoryOk_resyncStart h) e

theorem State.memoryOk_setRsStat (n : Nat) : State.memoryOk { s with rsStat := n } = true := h

theorem memoryOk_execResyncDone (e : execResyncDone s = .next t) : t.memoryOk = true :=
  memoryOk_outside h (fun _ h => by
    split
    · exact h
    split
    · exact State.memoryOk_raiseStatus (State.memoryOk_setRsStat h 3) 1
    · exact State.memoryOk_raiseStatus (State.memoryOk_setRsStat (State.memoryOk_store none _ _ h) 2) 1) e

theorem memoryOk_execAttestationRequest {nonce : BitVec 256} (e : execAttestationRequest nonce s = .next t) :
    t.memoryOk = true :=
  memoryOk_outside h (fun _ h => by split <;> exact h) e

theorem State.memoryOk_setReport (n : Option (BitVec 256)) (bs : List Byte) :
    State.memoryOk { s with nonce := n, report := bs } = true := h

theorem memoryOk_execAttestationReportReady (e : execAttestationReportReady s = .next t) : t.memoryOk = true :=
  memoryOk_outside h (fun _ h => by
    split
    · exact h
    · exact State.memoryOk_raiseStatus (State.memoryOk_setReport h none _) _) e

theorem memoryOk_execThrottle {die : Nat} (e : execThrottle die s = .next t) : t.memoryOk = true :=
  memoryOk_outside h (fun _ h => by
    dsimp only
    split
    · exact State.memoryOk_raiseStatus (State.memoryOk_modDie h ..) _
    · exact State.memoryOk_modDie h ..) e

theorem memoryOk_execFreeze (e : execFreeze s = .next t) : t.memoryOk = true :=
  memoryOk_outside h (fun _ h => by exact h) e

theorem State.memoryOk_setAlert (a f : Bool) : State.memoryOk { s with alert := a, frozen := f } = true := h

theorem memoryOk_execThermalFreeze (e : execThermalFreeze s = .next t) : t.memoryOk = true :=
  memoryOk_outside h (fun _ h => State.memoryOk_setAlert (State.memoryOk_raiseStatus h _) ..) e

theorem memoryOk_execPowerLoss (e : execPowerLoss s = .next t) : t.memoryOk = true := by
  cases e
  exact h

/-- A reset makes the device's memory zero, which is in canonical form, and leaves the host's. -/
theorem State.memoryOk_resetAgain : s.resetAgain.memoryOk = true := by
  unfold State.memoryOk at h ⊢
  rw [Bool.and_eq_true] at h ⊢
  have hr := State.memoryOk_reset
  unfold State.memoryOk at hr
  rw [Bool.and_eq_true] at hr
  exact ⟨hr.1, h.2⟩

theorem memoryOk_execColdReset (e : execColdReset s = .next t) : t.memoryOk = true := by
  cases e
  exact State.memoryOk_resetAgain h

theorem memoryOk_execWarmReset (e : execWarmReset s = .next t) : t.memoryOk = true := by
  cases e
  split
  · exact State.memoryOk_resetAgain h
  · exact h

theorem State.memoryOk_boot (m : List Byte) : (s.boot m).memoryOk = true := by
  unfold State.boot
  extract_lets mem
  exact memoryOk_foldl (fun _ n h => State.memoryOk_modCore h n _) _ (by exact h)

theorem State.memoryOk_setBoxStat (m : List Byte) (n : Nat) : State.memoryOk { s with mailbox := m, boxStat := n } = true := h

theorem memoryOk_execBootImageCheck (e : execBootImageCheck s = .next t) : t.memoryOk = true :=
  memoryOk_outside h (fun _ h => by
    split
    · exact h
    split
    · exact State.memoryOk_boot h _
    · exact State.memoryOk_raiseStatus (State.memoryOk_setBoxStat h ..) _) e

/-! ### The debug port (R373) -/

omit h in
theorem memoryOk_atPort {f : State → State} (h : s.memoryOk = true) (hf : ∀ s : State, s.memoryOk = true → (f s).memoryOk = true)
    (e : atPort s f = .next t) : t.memoryOk = true := by
  cases e
  split
  · exact hf s h
  · exact h

theorem State.memoryOk_selectIr (code : BitVec 6) (dr : DWord) : (s.selectIr code dr).memoryOk = true := h

theorem memoryOk_execTestLogicReset (e : execTestLogicReset s = .next t) : t.memoryOk = true :=
  memoryOk_atPort h (fun _ h => State.memoryOk_selectIr h ..) e

theorem memoryOk_execExtest (e : execExtest s = .next t) : t.memoryOk = true :=
  memoryOk_atPort h (fun _ h => State.memoryOk_selectIr (State.memoryOk_draw h) ..) e

theorem memoryOk_execSamplePreload (e : execSamplePreload s = .next t) : t.memoryOk = true :=
  memoryOk_atPort h (fun _ h => State.memoryOk_selectIr (State.memoryOk_draw h) ..) e

theorem memoryOk_execIdcode (e : execIdcode s = .next t) : t.memoryOk = true :=
  memoryOk_atPort h (fun _ h => State.memoryOk_selectIr h ..) e

theorem memoryOk_execDaddr {v : BitVec 64} (e : execDaddr v s = .next t) : t.memoryOk = true :=
  memoryOk_atPort h (fun _ h => by exact h) e

theorem memoryOk_execDdata (e : execDdata s = .next t) : t.memoryOk = true :=
  memoryOk_atPort h (fun _ h => by
    dsimp only
    split <;> exact h) e

theorem memoryOk_execDstat (e : execDstat s = .next t) : t.memoryOk = true :=
  memoryOk_atPort h (fun _ h => State.memoryOk_selectIr h ..) e

theorem memoryOk_execBypass (e : execBypass s = .next t) : t.memoryOk = true :=
  memoryOk_atPort h (fun _ h => State.memoryOk_selectIr h ..) e

end
end Sys2Proof.Machine
end

section
/-! SUPPORT. Memories stay in canonical form (R190): the control instructions, and every instruction, operation and event. -/

namespace Sys2Proof.Machine

-- One proof at a time: a compile of the whole text stays within its memory.
set_option Elab.async false

section
variable {s t : State} (h : s.memoryOk = true)
include h

theorem State.memoryOk_setCur (c : Option Issue) : State.memoryOk { s with cur := c } = true := h

theorem memoryOk_partition {n : Nat} {x : Group → Part} (e : partition n x s = .next t) : t.memoryOk = true :=
  memoryOk_guardedUnit h (fun _ _ _ e => by cases e; exact State.memoryOk_setGroup h ..) e

theorem memoryOk_uni1 {f : DWord → DWord} {d : UDst} {a : USrc} {n : Bool} {k : Nat} (e : uni1 f d a n k s = .next t) :
    t.memoryOk = true := memoryOk_uniformUnit h e

theorem memoryOk_uni2 {f : DWord → DWord → DWord} {d : UDst} {a b : USrc} {n : Bool} {k : Nat}
    (e : uni2 f d a b n k s = .next t) : t.memoryOk = true := memoryOk_uniformUnit h e

theorem memoryOk_uniPred {f : DWord → DWord → Bool} {d : Nat} {a b : USrc} {k : Nat}
    (e : uniPred f d a b k s = .next t) : t.memoryOk = true := memoryOk_uniformUnit h e

theorem memoryOk_kLogic {f : Bool → Bool → Bool} {d a b k : Nat} (e : kLogic f d a b k s = .next t) : t.memoryOk = true :=
  memoryOk_uniformUnit h e

theorem memoryOk_uniImm {f : DWord → DWord} {d : UDst} {a : USrc} (e : uniImm f d a s = .next t) : t.memoryOk = true :=
  memoryOk_uni1 h e

theorem memoryOk_uniCmp {c : Cond} {d : Nat} {a : USrc} {i : BitVec 10} (e : uniCmp c d a i s = .next t) :
    t.memoryOk = true := memoryOk_uniformUnit h e

theorem memoryOk_execUSel {d : UDst} {a b : USrc} {n : Bool} {c : Nat} (e : execUSel d a b n c s = .next t) :
    t.memoryOk = true := memoryOk_uniformUnit h e

theorem memoryOk_plainUnit (e : plainUnit s = .next t) : t.memoryOk = true := memoryOk_uniformUnit h e

theorem memoryOk_execBarTeam (e : execBarTeam s = .next t) : t.memoryOk = true := memoryOk_barArrive h e
theorem memoryOk_execBarTeamYield (e : execBarTeamYield s = .next t) : t.memoryOk = true := memoryOk_barArrive h e
theorem memoryOk_execBarClus (e : execBarClus s = .next t) : t.memoryOk = true := memoryOk_barArrive h e

theorem memoryOk_atomS32 {funct : Nat} {d : LDst} {a b : LSrc} {g : Nat} (e : atomS32 funct d a b g s = .next t) :
    t.memoryOk = true := memoryOk_atomS h e

theorem memoryOk_execAtomsCas {d : LDst} {a : LSrc} {b g : Nat} (e : execAtomsCas d a b g s = .next t) :
    t.memoryOk = true := memoryOk_atomS h e

theorem memoryOk_copyUnit {major : Nat} {a : USrc} {b : Nat} {cobj : USrc} (e : copyUnit major a b cobj s = .next t) :
    t.memoryOk = true := memoryOk_engineUnit h e

theorem memoryOk_keyUnit {f7 a : Nat} {b cobj : USrc} (e : keyUnit f7 a b cobj s = .next t) : t.memoryOk = true :=
  memoryOk_engineUnit h e

theorem memoryOk_execMtask {a : USrc} (e : execMtask a s = .next t) : t.memoryOk = true := memoryOk_engineUnit h e

theorem memoryOk_execDrain {a : USrc} {ord : Bool} (e : execDrain a ord s = .next t) : t.memoryOk = true :=
  memoryOk_engineUnit h e

theorem memoryOk_execXlatb {a b c : USrc} (e : execXlatb a b c s = .next t) : t.memoryOk = true := memoryOk_engineUnit h e
theorem memoryOk_execAdpf {a b c : USrc} (e : execAdpf a b c s = .next t) : t.memoryOk = true := memoryOk_engineUnit h e

theorem memoryOk_execPackF4b {d : LDst} {a : LSrc} {n : Bool} {g : Nat} (e : execPackF4b d a n g s = .next t) :
    t.memoryOk = true :=
  memoryOk_groupUnit h (fun _ _ _ e => by
    cases coupledOnly_ok e
    exact State.memoryOk_setGroup h ..) e

/-! ### Control (R56-R64, R114, R115) -/

theorem memoryOk_execJml {d : LDst} {a : LSrc} {g : Nat} (e : execJml d a g s = .next t) : t.memoryOk = true :=
  memoryOk_groupUnit h (fun c _ _ e => by
    dsimp only at e
    split at e <;> cases e
    exact State.memoryOk_modGroup (State.memoryOk_skip h c _) ..) e

theorem memoryOk_execBrl {p : Nat} {neg : Bool} {o : BitVec 18} (e : execBrl p neg o s = .next t) : t.memoryOk = true :=
  memoryOk_groupUnit h (fun _ _ _ e => by
    dsimp only at e
    split at e
    · cases e; exact State.memoryOk_setGroup h ..
    split at e <;> cases e
    exact State.memoryOk_modCore (State.memoryOk_setGroup h ..) ..) e

theorem memoryOk_execBra {k : Nat} {neg : Bool} {o : BitVec 21} (e : execBra k neg o s = .next t) : t.memoryOk = true :=
  memoryOk_groupOrCox h (fun _ _ e => memoryOk_coxControl h e) (fun c _ _ e => by
    dsimp only at e
    split at e
    · split at e <;> cases e
      exact State.memoryOk_modCore (State.memoryOk_setGroup h ..) ..
    · cases e; exact State.memoryOk_advance h c) e

theorem State.memoryOk_callTo {c : Issue} {g : Group} {target : DWord} (e : s.callTo c g target = .ok t) :
    t.memoryOk = true := by
  unfold State.callTo at e
  split at e
  · cases e
  · split at e <;> cases e
    exact State.memoryOk_setGroup h ..

/-- A call that is taken or not closes its region. -/
theorem memoryOk_callBody {c : Issue} {g : Group} {taken : Prop} [Decidable taken] {target : DWord}
    (e : (match if taken then s.callTo c g target else .ok (s.advance c) with
      | .error x => .error x
      | .ok s => .ok (s.modGroup c.gkey (Group.close c)) : Res) = .ok t) : t.memoryOk = true := by
  split at e <;> rename_i hx <;> cases e
  refine State.memoryOk_modGroup ?_ ..
  split at hx
  · exact State.memoryOk_callTo h hx
  · cases hx; exact State.memoryOk_advance h c

theorem memoryOk_execCall {k : Nat} {neg : Bool} {o : BitVec 21} (e : execCall k neg o s = .next t) : t.memoryOk = true :=
  memoryOk_groupOrCox h (fun _ _ e => memoryOk_coxControl h e) (fun _ _ _ e => memoryOk_callBody h e) e

theorem memoryOk_execCalli {a : USrc} {k : Nat} (e : execCalli a k s = .next t) : t.memoryOk = true :=
  memoryOk_groupOrCox h (fun _ _ e => memoryOk_coxControl h e) (fun _ _ _ e => memoryOk_callBody h e) e

theorem memoryOk_execBrk (e : execBrk s = .next t) : t.memoryOk = true :=
  memoryOk_groupOrCox h (fun _ _ e => memoryOk_coxControl h e) (fun c _ _ e => by
    split at e <;> cases e
    exact State.memoryOk_advance h c) e

theorem memoryOk_execTrap {a : USrc} (e : execTrap a s = .next t) : t.memoryOk = true :=
  memoryOk_groupOrCox h (fun _ _ e => memoryOk_coxControl h e) (fun c _ _ e => by
    split at e <;> cases e
    exact State.memoryOk_advance h c) e

theorem memoryOk_execRegion (e : execRegion s = .next t) : t.memoryOk = true :=
  memoryOk_groupOrCox h (fun _ _ e => memoryOk_coxControl h e) (fun c _ _ e => by
    cases e
    exact State.memoryOk_modGroup (State.memoryOk_advance h c) ..) e

theorem memoryOk_execYield (e : execYield s = .next t) : t.memoryOk = true :=
  memoryOk_groupOrCox h (fun _ _ e => memoryOk_coxControl h e) (fun c _ _ e => by
    dsimp only at e
    split at e <;> cases e
    · exact State.memoryOk_modGroup (State.memoryOk_leaveSeat (State.memoryOk_advance h c) _) ..
    · exact State.memoryOk_advance h c) e

theorem memoryOk_execCodeNotLanded (e : execCodeNotLanded s = .next t) : t.memoryOk = true :=
  memoryOk_groupOrCox h (fun _ _ e => by cases e; exact State.memoryOk_takeTrap h ..) (fun _ _ _ e => by cases e) e

theorem memoryOk_execIllegalInstruction (e : execIllegalInstruction s = .next t) : t.memoryOk = true := by
  unfold execIllegalInstruction at e
  split at e <;> cases e
  exact State.memoryOk_takeTrap h ..

theorem memoryOk_execRep {n : Nat} {d a b : Bool} (e : execRep n d a b s = .next t) : t.memoryOk = true := by
  unfold execRep at e
  split at e <;> cases e
  exact h

theorem memoryOk_execGuard {p : Nat} {n : Bool} (e : execGuard p n s = .next t) : t.memoryOk = true := by
  unfold execGuard at e
  split at e <;> cases e
  exact h

/-! ### Groups: joins, partitions, layout (R144, R174-R177) -/

theorem memoryOk_execVtos {d : UDst} {a : LSrc} {n : Bool} {k : Nat} (e : execVtos d a n k s = .next t) : t.memoryOk = true :=
  memoryOk_guardedUnit h (fun c _ _ e => by cases e; exact State.memoryOk_advance (State.memoryOk_setGroup h ..) c) e

theorem memoryOk_execJoinEnrol {j : Nat} (e : execJoinEnrol j s = .next t) : t.memoryOk = true :=
  memoryOk_guardedUnit h (fun _ _ _ e => by cases e; exact State.memoryOk_setGroup h ..) e

theorem memoryOk_execJoinWait {j : Nat} (e : execJoinWait j s = .next t) : t.memoryOk = true :=
  memoryOk_guardedUnit h (fun _ _ _ e => by
    cases e; exact State.memoryOk_rendezvous (State.memoryOk_setGroup h ..) ..) e

theorem memoryOk_execElect {d : UDst} {p : Nat} (e : execElect d p s = .next t) : t.memoryOk = true :=
  memoryOk_guardedUnit h (fun c _ _ e => by
    split at e <;> cases e
    · exact State.memoryOk_advance h c
    · exact State.memoryOk_setGroup h ..) e

theorem memoryOk_execLmap {d : UDst} {b : USrc} (e : execLmap d b s = .next t) : t.memoryOk = true :=
  memoryOk_guardedUnit h (fun _ _ _ e => by cases e; exact State.memoryOk_setGroup h ..) e

theorem memoryOk_execRegroup (e : execRegroup s = .next t) : t.memoryOk = true :=
  memoryOk_groupUnit h (fun c _ _ e => by
    split at e
    · cases e; exact State.memoryOk_modGroup (State.memoryOk_advance h c) ..
    · exact memoryOk_settled h (fun _ _ h e => by
        cases e; exact State.memoryOk_rendezvous (State.memoryOk_modGroup h ..) ..) (outsideOnly_ok e)) e

/-! ### Uniform forms whose function is written out (R94-R97) -/

theorem memoryOk_execUAndn {d : UDst} {a b : USrc} {n : Bool} {k : Nat} (e : execUAndn d a b n k s = .next t) :
    t.memoryOk = true := memoryOk_uni2 h e

theorem memoryOk_execUShl {d : UDst} {a b : USrc} {n : Bool} {k : Nat} (e : execUShl d a b n k s = .next t) :
    t.memoryOk = true := memoryOk_uni2 h e

theorem memoryOk_execUShr {d : UDst} {a b : USrc} {n : Bool} {k : Nat} (e : execUShr d a b n k s = .next t) :
    t.memoryOk = true := memoryOk_uni2 h e

theorem memoryOk_execUSar {d : UDst} {a b : USrc} {n : Bool} {k : Nat} (e : execUSar d a b n k s = .next t) :
    t.memoryOk = true := memoryOk_uni2 h e

theorem memoryOk_execUMovs {d : UDst} {a : USrc} {n : Bool} {k : Nat} (e : execUMovs d a n k s = .next t) :
    t.memoryOk = true := memoryOk_uni1 h e

theorem memoryOk_execKopAndn {d a b k : Nat} (e : execKopAndn d a b k s = .next t) :
    t.memoryOk = true := memoryOk_kLogic h e

theorem memoryOk_execKopNot {d a k : Nat} (e : execKopNot d a k s = .next t) : t.memoryOk = true := memoryOk_kLogic h e

theorem memoryOk_execSaddi {d : UDst} {a : USrc} {i : BitVec 13} (e : execSaddi d a i s = .next t) :
    t.memoryOk = true := memoryOk_uniImm h e

theorem memoryOk_execSandi {d : UDst} {a : USrc} {i : BitVec 13} (e : execSandi d a i s = .next t) :
    t.memoryOk = true := memoryOk_uniImm h e

theorem memoryOk_execSori {d : UDst} {a : USrc} {i : BitVec 13} (e : execSori d a i s = .next t) :
    t.memoryOk = true := memoryOk_uniImm h e

theorem memoryOk_execSmovi {d : UDst} {i : BitVec 13} (e : execSmovi d i s = .next t) :
    t.memoryOk = true := memoryOk_uniImm h e

theorem memoryOk_execSshiShl {d : UDst} {a : USrc} {k : Nat} (e : execSshiShl d a k s = .next t) :
    t.memoryOk = true := memoryOk_uniImm h e

theorem memoryOk_execSshiShr {d : UDst} {a : USrc} {k : Nat} (e : execSshiShr d a k s = .next t) :
    t.memoryOk = true := memoryOk_uniImm h e

theorem memoryOk_execSshiSar {d : UDst} {a : USrc} {k : Nat} (e : execSshiSar d a k s = .next t) :
    t.memoryOk = true := memoryOk_uniImm h e

theorem memoryOk_ofNext (e : (Host.Outcome.next s : Out) = .next t) : t.memoryOk = true := by
  cases e
  exact h

/-! ### Every instruction, operation and event -/

/-- Every instruction, operation and event leaves the memories in canonical form: the arms of `exec`, by the frame that runs
them. -/
theorem memoryOk_exec {i : Instr} (e : exec i s = .next t) : t.memoryOk = true := by
  cases i with
  | add | sub | minI | maxI | minN | maxN | abs | neg | and | or | xor | andn | shl | shr | sar | rol | mul | mulhI
  | mulhN | mad | divI | divN | remI | remN | clz | popc | brev | bfeI | bfeN | bfi | bmix | sext | eq | ne | ltI
  | leI | ltN | leN | tst | pand | por | pxor | pandn | pnot | ptov | vtop | mov | sel | movs | movu | add64
  | sub64 | shl64 | lea | addi | andi | ori | xori | shiShl | shiShr | shiSar | shiRol | cmpiEq | cmpiNe | cmpiLtI
  | cmpiLeI | cmpiLtN | cmpiLeN | cmpiTst | movi | leai | fadd | fsub | fmul | ffma | fmin | fmax | fnma | fdiv
  | fcmpEq | fcmpNe | fcmpLt | fcmpLe | fcmpUn | fcmpTolt | fcmpTole | fcmpClass | dadd | dsub | dmul | dfma | dmin
  | dmax | ddiv | dsqrt | haddF16 | hmulF16 | hfmaF16 | haddBf16 | hmulBf16 | hfmaBf16 | hmin | hmax | cvtI32F32
  | cvtN32F32 | cvtF32I32 | cvtF32N32 | cvtBf16F32 | cvtF16F32 | cvtF32Bf16 | cvtF32F16 | cvtE4m3F32 | cvtE5m2F32
  | cvtI8F32 | cvtI8I32 | cvtI16F32 | cvtI16I32 | cvtF32E4m3 | cvtF32E5m2 | cvtBf16F32Sr | cvtE4m3F32Sr | unpkF4b
  | scaleF4b | mx2f4b | rcp | rsq | sqrt | exp2 | log2 | sin | cos | tanh | frnd | key3 | rng | seed | fscale
  | fexp =>
    exact memoryOk_lanesUnit h e
  | lds | ldk => exact memoryOk_localLoad h e
  | sts | stk | stx => exact memoryOk_localStore h e
  | atomgAdd | atomgMinI | atomgMaxI | atomgAnd | atomgOr | atomgXor | atomgExch | atomgCas | atomgAddB64
  | atomgMinIB64 | atomgMaxIB64 | atomgAndB64 | atomgOrB64 | atomgXorB64 | atomgExchB64 | atomgCasB64 | atomgIncb
  | atomgDecb | atomgFadd | atomgFmin | atomgFmax | atomgMinN | atomgMaxN =>
    exact memoryOk_atomG h e
  | atomsAdd | atomsMinI | atomsMaxI | atomsAnd | atomsOr | atomsExch | atomsIncb => exact memoryOk_atomS32 h e
  | xidx | xxor | xrot | xshift | xlid | pany | pall | pmask | matchEq | compact | redAdd | redFadd | redMinI
  | redMinN | redMinF | redMaxI | redMaxN | redMaxF | scanAdd | mrank =>
    exact memoryOk_collective h e
  | mfragBf16 | mfragF16 | mfragE4m3 | mfragE5m2 | mfragF4b | mfragI8 => exact memoryOk_mfrag h e
  | uAdd | uSub | uMinI | uMaxI | uMinN | uMaxN | uMul | uMulhN | uAnd | uOr | uXor | uDivN =>
    exact memoryOk_uni2 h e
  | uClz | uMov | uPopc => exact memoryOk_uni1 h e
  | uEq | uNe | uLtI | uLeI | uLtN | uLeN | uTst => exact memoryOk_uniPred h e
  | kopAnd | kopOr | kopXor => exact memoryOk_kLogic h e
  | scmpiEq | scmpiNe | scmpiLtI | scmpiLeI | scmpiLtN | scmpiLeN | scmpiTst => exact memoryOk_uniCmp h e
  | hdr | nop => exact memoryOk_plainUnit h e
  | partitionWhole | partitionB4 | partitionB8 | partitionB16 | partitionMask => exact memoryOk_partition h e
  | tcopy | tcopym => exact memoryOk_copyUnit h e
  | keySort | keyMerge | keyTopk | keyOffs | keyCheck => exact memoryOk_keyUnit h e
  | packF4b => exact memoryOk_execPackF4b h e
  | ldg => exact memoryOk_execLdg h e
  | stg => exact memoryOk_execStg h e
  | ldp => exact memoryOk_execLdp h e
  | atomsCas => exact memoryOk_execAtomsCas h e
  | garg _ _ _ _ x => exact memoryOk_execGarg (x := x) h e
  | gres _ _ _ x => exact memoryOk_execGres (x := x) h e
  | rpush => exact memoryOk_execRpush h e
  | jml => exact memoryOk_execJml h e
  | brl => exact memoryOk_execBrl h e
  | uAndn => exact memoryOk_execUAndn h e
  | uShl => exact memoryOk_execUShl h e
  | uShr => exact memoryOk_execUShr h e
  | uSar => exact memoryOk_execUSar h e
  | uMovs => exact memoryOk_execUMovs h e
  | kopAndn => exact memoryOk_execKopAndn h e
  | kopNot => exact memoryOk_execKopNot h e
  | saddi => exact memoryOk_execSaddi h e
  | sandi => exact memoryOk_execSandi h e
  | sori => exact memoryOk_execSori h e
  | smovi => exact memoryOk_execSmovi h e
  | sshiShl => exact memoryOk_execSshiShl h e
  | sshiShr => exact memoryOk_execSshiShr h e
  | sshiSar => exact memoryOk_execSshiSar h e
  | uSel => exact memoryOk_execUSel h e
  | vtos => exact memoryOk_execVtos h e
  | ret => exact memoryOk_execRet h e
  | calli => exact memoryOk_execCalli h e
  | sld => exact memoryOk_execSld h e
  | sst => exact memoryOk_execSst h e
  | bra => exact memoryOk_execBra h e
  | call => exact memoryOk_execCall h e
  | rep => exact memoryOk_execRep h e
  | guard => exact memoryOk_execGuard h e
  | jseg => exact memoryOk_execJseg h e
  | cfetch => exact memoryOk_execCfetch h e
  | widen => exact memoryOk_execWiden h e
  | gather => exact memoryOk_execGather h e
  | barTeam => exact memoryOk_execBarTeam h e
  | barTeamYield => exact memoryOk_execBarTeamYield h e
  | barClus => exact memoryOk_execBarClus h e
  | barMask => exact memoryOk_execBarMask h e
  | joinEnrol => exact memoryOk_execJoinEnrol h e
  | joinWait => exact memoryOk_execJoinWait h e
  | elect => exact memoryOk_execElect h e
  | regroup => exact memoryOk_execRegroup h e
  | lmap => exact memoryOk_execLmap h e
  | exit => exact memoryOk_execExit h e
  | brk => exact memoryOk_execBrk h e
  | trap => exact memoryOk_execTrap h e
  | region => exact memoryOk_execRegion h e
  | yield => exact memoryOk_execYield h e
  | cinv => exact memoryOk_execCinv h e
  | cinvSync => exact memoryOk_execCinvSync h e
  | mtask => exact memoryOk_execMtask h e
  | drain => exact memoryOk_execDrain h e
  | ringAcq => exact memoryOk_execRingAcq h e
  | ringRel => exact memoryOk_execRingRel h e
  | xlatb => exact memoryOk_execXlatb h e
  | seq => exact memoryOk_execSeq h e
  | fence => exact memoryOk_execFence h e
  | fenceAcq => exact memoryOk_execFenceAcq h e
  | fenceRel => exact memoryOk_execFenceRel h e
  | fenceSc => exact memoryOk_execFenceSc h e
  | cwait => exact memoryOk_execCwait h e
  | suspend => exact memoryOk_execSuspend h e
  | touch => exact memoryOk_execTouch h e
  | fulfill => exact memoryOk_execFulfill h e
  | celltag => exact memoryOk_execCelltag h e
  | nlaunch => exact memoryOk_execNlaunch h e
  | nsignal => exact memoryOk_execNsignal h e
  | nqstat => exact memoryOk_execNqstat h e
  | mrs => exact memoryOk_execMrs h e
  | msr => exact memoryOk_execMsr h e
  | adpf => exact memoryOk_execAdpf h e
  | dbgRd => exact memoryOk_execDbgRd h e
  | dbgWr => exact memoryOk_execDbgWr h e
  | ctxSave => exact memoryOk_execCtxSave h e
  | ctxLoad => exact memoryOk_execCtxLoad h e
  | place => exact memoryOk_execPlace h e
  | evq => exact memoryOk_execEvq h e
  | pmsrRd => exact memoryOk_execPmsrRd h e
  | pmsrWr => exact memoryOk_execPmsrWr h e
  | cload => exact memoryOk_execCload h e
  | rte => exact memoryOk_execRte h e
  | kill => exact memoryOk_execKill h e
  | landingComplete => exact memoryOk_execLandingComplete h e
  | trapQueueAdmit => exact memoryOk_execTrapQueueAdmit h e
  | gatherFiring => exact memoryOk_execGatherFiring h e
  | phaseRecordWrite => exact memoryOk_execPhaseRecordWrite h e
  | eventHoldRelease => exact memoryOk_execEventHoldRelease h e
  | evaluatorRequest => exact memoryOk_execEvaluatorRequest h e
  | cellStarterRetry => exact memoryOk_execCellStarterRetry h e
  | cellWaiterRetry => exact memoryOk_execCellWaiterRetry h e
  | cwaitRecheck => exact memoryOk_execCwaitRecheck h e
  | cwaitPoll => exact memoryOk_execCwaitPoll h e
  | postedAtomicPerform => exact memoryOk_execPostedAtomicPerform h e
  | postedAtomicFault => exact memoryOk_execPostedAtomicFault h e
  | strokeTick => exact memoryOk_execStrokeTick h e
  | engineCommandStart => exact memoryOk_execEngineCommandStart h e
  | commandComplete => exact memoryOk_execCommandComplete h e
  | ringFill => exact memoryOk_execRingFill h e
  | sparsityQueueFill => exact memoryOk_execSparsityQueueFill h e
  | taskIssue => exact memoryOk_execTaskIssue h e
  | matrixTaskEnd => exact memoryOk_execMatrixTaskEnd h e
  | adapterLineFill => exact memoryOk_execAdapterLineFill h e
  | matrixNanTrap => exact memoryOk_execMatrixNanTrap h e
  | drainAddition => exact memoryOk_execDrainAddition h e
  | nodeSignal => exact memoryOk_execNodeSignal h e
  | placementDecision => exact memoryOk_execPlacementDecision h e
  | teamStart => exact memoryOk_execTeamStart h e
  | priorityAging => exact memoryOk_execPriorityAging h e
  | reservation => exact memoryOk_execReservation h e
  | packageArbiterHandout => exact memoryOk_execPackageArbiterHandout h e
  | recordArrival => exact memoryOk_execRecordArrival h e
  | flushTimerExpiry => exact memoryOk_execFlushTimerExpiry h e
  | slipwayReturn => exact memoryOk_execSlipwayReturn h e
  | teamEnd => exact memoryOk_execTeamEnd h e
  | menuEntryApply => exact memoryOk_execMenuEntryApply h e
  | ringtabWrite => exact memoryOk_execRingtabWrite h e
  | vacateComplete => exact memoryOk_execVacateComplete h e
  | hostQueueDoorbell => exact memoryOk_execHostQueueDoorbell h e
  | hostSubmit => exact memoryOk_execHostSubmit h e
  | hostSignal => exact memoryOk_execHostSignal h e
  | hostCloseQueue => exact memoryOk_execHostCloseQueue h e
  | msixCoalesceEnd => exact memoryOk_execMsixCoalesceEnd h e
  | eventStatusClear => exact memoryOk_execEventStatusClear h e
  | deviceRegisterWrite => exact memoryOk_execDeviceRegisterWrite h e
  | cxlMemWrite => exact memoryOk_execCxlMemWrite h e
  | cxlMemRead => exact memoryOk_execCxlMemRead h e
  | wotisRead => exact memoryOk_execWotisRead h e
  | wotisWrite => exact memoryOk_execWotisWrite h e
  | wotisAtomic => exact memoryOk_execWotisAtomic h e
  | wotisResponse => exact memoryOk_execWotisResponse h e
  | wotisCopyData => exact memoryOk_execWotisCopyData h e
  | wotisEvent f => exact memoryOk_execWotisEvent (f := f) h e
  | linkRetrained => exact memoryOk_execLinkRetrained h e
  | linkLost => exact memoryOk_execLinkLost h e
  | resync => exact memoryOk_execResync h e
  | resyncDone => exact memoryOk_execResyncDone h e
  | attestationRequest => exact memoryOk_execAttestationRequest h e
  | attestationReportReady => exact memoryOk_execAttestationReportReady h e
  | throttle => exact memoryOk_execThrottle h e
  | thermalFreeze => exact memoryOk_execThermalFreeze h e
  | freeze => exact memoryOk_execFreeze h e
  | coldReset => exact memoryOk_execColdReset h e
  | warmReset => exact memoryOk_execWarmReset h e
  | bootImageCheck => exact memoryOk_execBootImageCheck h e
  | testLogicReset => exact memoryOk_execTestLogicReset h e
  | extest => exact memoryOk_execExtest h e
  | samplePreload => exact memoryOk_execSamplePreload h e
  | idcode => exact memoryOk_execIdcode h e
  | daddr => exact memoryOk_execDaddr h e
  | ddata => exact memoryOk_execDdata h e
  | dstat => exact memoryOk_execDstat h e
  | bypass => exact memoryOk_execBypass h e
  | illegalInstruction => exact memoryOk_execIllegalInstruction h e
  | codeNotLanded => exact memoryOk_execCodeNotLanded h e
  | powerLoss => exact memoryOk_execPowerLoss h e
  | tlbinvPage | tlbinvAsid | tlbinvAll => exact memoryOk_ofNext (State.memoryOk_tlbinv h _) e
  | vacsetAdd => exact memoryOk_ofNext (State.memoryOk_vacsetAdd h ..) e
  | vacsetEmpty => exact memoryOk_ofNext (State.memoryOk_vacsetEmpty h _) e
  | vacgo => exact memoryOk_ofNext (State.memoryOk_vacgo h ..) e
  | vacateHardStop => exact memoryOk_ofNext (State.memoryOk_stopMoving h ..) e
  | pgdone => exact memoryOk_ofNext (State.memoryOk_pageDone h ..) e
  | eccClear => exact memoryOk_ofNext (State.memoryOk_modDie h ..) e
  | wrouteWrite => exact memoryOk_ofNext (State.memoryOk_wroute h _) e
  | evheadWrite => exact memoryOk_ofNext (State.memoryOk_evheadSet h ..) e

end
end Sys2Proof.Machine
end

section
/-! SUPPORT. Memories stay in canonical form (R190): the issue of a unit, a replay, every turn, and the step. -/

namespace Sys2Proof.Machine

-- One proof at a time: a compile of the whole text stays within its memory.
set_option Elab.async false

section
variable {s t : State} (h : s.memoryOk = true)
include h

/-! ### Prefixes and the close of a region -/

/-- A unit, its prefixes first, leaves the memories in canonical form. -/
theorem memoryOk_runUnit {pre : List Instr} {i : Instr} (e : runUnit pre i s = .next t) : t.memoryOk = true := by
  induction pre generalizing s with
  | nil => exact memoryOk_exec h e
  | cons p ps ih =>
    unfold runUnit at e
    split at e
    · exact ih (memoryOk_exec h ‹_›) e
    · rename_i ho; exact absurd e (ho _)

theorem State.memoryOk_stopClosed (gkey : Nat) (region : DWord) : (s.stopClosed gkey region).memoryOk = true := by
  unfold State.stopClosed
  split
  · exact h
  split
  · exact h
  split
  · exact h
  · exact State.memoryOk_stopGroup h ..

/-- What an issue leaves is the state before it or the outcome, perhaps with the group stopped. -/
theorem memoryOk_issued {gkey : Nat} {region : DWord} {o : Out} (ho : ∀ u, o = .next u → u.memoryOk = true)
    (e : issued s gkey region o = .next t) : t.memoryOk = true := by
  unfold issued at e
  split at e
  · split at e <;> cases e
    · exact h
    · exact State.memoryOk_stopClosed (ho _ rfl) ..
  · exact ho _ e

/-! ### The issue of a group and of a cox (R139, R341) -/

theorem State.memoryOk_switchSeat (gkey : Nat) : (s.switchSeat gkey).memoryOk = true := by
  unfold State.switchSeat
  extract_lets core last s'
  refine State.memoryOk_modCore ?_ ..
  unfold s'
  clear_value last
  split
  · exact h
  split
  · exact h
  split
  · exact h
  split
  · exact h
  · exact State.memoryOk_setGroup (State.memoryOk_leaveSeat h _) ..

theorem State.memoryOk_beginIssue (c : Issue) (leader : Option Nat) : (s.beginIssue c leader).memoryOk = true :=
  State.memoryOk_modGroup (State.memoryOk_modCore (State.memoryOk_switchSeat h _) ..) ..

theorem State.memoryOk_writeHeld (gkey : Nat) (i : Instr) : (s.writeHeld gkey i).memoryOk = true := by
  unfold State.writeHeld
  extract_lets meets
  split
  · exact State.memoryOk_modCore h ..
  · exact h

theorem State.memoryOk_issueUnit {g : Group} {c : Issue} {leader : Option Nat} (e : s.issueUnit g c leader = .next t) :
    t.memoryOk = true := by
  unfold State.issueUnit at e
  split at e
  · cases e; exact h
  · refine memoryOk_issued h (fun u hu => ?_) e
    cases hu
    exact State.memoryOk_takeTrap (State.memoryOk_setCur (State.memoryOk_beginIssue h ..) _) ..
  · exact memoryOk_issued h (fun u hu => memoryOk_runUnit
      (State.memoryOk_setCur (State.memoryOk_writeHeld (State.memoryOk_beginIssue h ..) ..) _) hu) e

theorem State.memoryOk_issueWith {others : Bool} {gkey : Nat} (e : s.issueWith others gkey = .next t) :
    t.memoryOk = true := by
  unfold State.issueWith at e
  have hp := State.memoryOk_parkPosted h (coreOf gkey)
  dsimp only at e
  split at e
  · cases e; exact h
  split at e
  · cases e; exact h
  split at e
  · cases e; exact hp
  · exact State.memoryOk_issueUnit hp e

theorem State.memoryOk_issueCox {core : Nat} (e : s.issueCox core = .next t) : t.memoryOk = true := by
  unfold State.issueCox at e
  dsimp only at e
  split at e
  · cases e; exact h
  split at e
  · cases e; exact h
  · cases e; exact State.memoryOk_takeTrap (State.memoryOk_setCur h _) ..
  · exact memoryOk_runUnit (State.memoryOk_setCur h _) e

/-! ### Replays (R228, R231, R239) -/

theorem State.memoryOk_replayUnit {g : Group} {c : Issue} (e : s.replayUnit g c = .next t) : t.memoryOk = true := by
  unfold State.replayUnit at e
  split at e
  · dsimp only at e
    split at e
    · have hu := memoryOk_issued h (fun u hu => memoryOk_runUnit
        (State.memoryOk_setCur (State.memoryOk_writeHeld (State.memoryOk_modGroup h ..) ..) _) hu) ‹_›
      split at e <;> cases e
      · exact h
      · exact hu
    · rename_i ho; exact absurd e (ho _)
  · cases e; exact h

theorem State.memoryOk_replay {w : Waiter} (e : s.replay w = .next t) : t.memoryOk = true := by
  unfold State.replay at e
  split at e
  · cases e; exact State.memoryOk_servePeer h ..
  split at e
  · cases e; exact State.memoryOk_performWoken h ..
  split at e
  · cases e; exact h
  split at e
  · cases e; exact h
  split at e
  · cases e; exact h
  · exact State.memoryOk_replayUnit h e

/-! ### Turns and the step -/

theorem State.memoryOk_take {x : Turn} (e : s.take x = .next t) : t.memoryOk = true := by
  unfold State.take at e
  cases x with
  | event i =>
    dsimp only at e
    split at e
    · cases e; exact h
    · exact memoryOk_exec h e
  | issue gkey =>
    dsimp only at e
    split at e
    · exact State.memoryOk_issueWith h e
    · cases e; exact h
  | replay w =>
    dsimp only at e
    split at e
    · exact State.memoryOk_replay h e
    · cases e; exact h
  | cox core =>
    dsimp only at e
    split at e
    · exact State.memoryOk_issueCox h e
    · cases e; exact h
  | corrected die =>
    cases e
    split
    · exact State.memoryOk_modDie h ..
    · exact h
  | spoiled pa =>
    cases e
    split <;> exact h

theorem State.memoryOk_afterTurn : s.afterTurn.memoryOk = true := by
  unfold State.afterTurn
  extract_lets a b
  have hb : b.memoryOk = true := by
    unfold b
    split
    · exact h
    · exact State.memoryOk_hostRetry (by exact h) _
  split
  · exact State.memoryOk_stopParked hb
  · exact hb

theorem State.memoryOk_releaseHolds (before : State) : (State.releaseHolds before s).memoryOk = true := by
  unfold State.releaseHolds
  dsimp only
  split <;> exact h

theorem State.memoryOk_turn {x : Turn} (e : s.turn x = .next t) : t.memoryOk = true := by
  unfold State.turn at e
  split at e
  · cases e
    exact State.memoryOk_afterTurn (State.memoryOk_releaseHolds (State.memoryOk_take h ‹_›) _)
  · rename_i ho; exact absurd e (ho _)

theorem State.memoryOk_nextTurn : s.nextTurn.2.memoryOk = true := by
  unfold State.nextTurn
  split
  · exact h
  · dsimp only; split <;> exact h

/-- A step leaves the memories in canonical form. -/
theorem memoryOk_step (e : step s = .next t) : t.memoryOk = true := by
  have hn := State.memoryOk_nextTurn h
  unfold step at e
  split at e <;> rename_i hx <;> rw [hx] at hn
  · exact State.memoryOk_turn hn e
  · cases e; exact hn

end
end Sys2Proof.Machine
end

section
/-! PROOF. Every turn leaves a state between turns (R139, R147): what follows a turn puts no unit under issue and counts the lanes
that stopped running as seen by the demoted ones. O59. -/

namespace Sys2Proof.Machine

-- One proof at a time: a compile of the whole text stays within its memory.
set_option Elab.async false

/-! ### Demoted lanes after a turn -/

/-- A demoted lane that stays demoted waits for those it waited for that are in the mask; a lane that runs goes on running. -/
theorem Lane.seen_dem (m : Mask) (l : Lane) (h : (l.seen m).state = .demoted) : (l.seen m).dem = l.dem &&& m := by
  unfold Lane.seen at h ⊢
  split at h
  · rename_i hd
    rw [if_pos hd]
    split at h
    · cases h
    · rw [if_neg ‹_›]
  · exact absurd h ‹_›

theorem Lane.seen_runnable (m : Mask) (l : Lane) : (l.seen m).runnable = l.runnable := by
  unfold Lane.seen
  split
  · rename_i hd
    split <;> simp [Lane.runnable, hd]
  · rfl

/-- The lanes of a group after its demoted ones have seen the lanes outside a mask issue or stop. -/
def Group.allSeen (g : Group) (m : Mask) : Group := { g with lanes := Vector.ofFn fun p => g.lanes[p].seen m }

theorem Group.lane_allSeen (g : Group) (m : Mask) {p : Nat} (h : p < 32) : (g.allSeen m).lane p = (g.lane p).seen m := by
  simp [Group.allSeen, Group.lane, Vector.getElem?_eq_getElem h]

theorem Group.settleDem_eq (g : Group) :
    g.settleDem = if (g.where fun l => l.state == .demoted) = 0 then g else g.allSeen (g.where Lane.runnable) := rfl

/-- Who runs depends on who runs at each position only. -/
theorem Group.where_runnable_allSeen (g : Group) (m : Mask) : (g.allSeen m).where Lane.runnable = g.where Lane.runnable := by
  refine BitVec.eq_of_getLsbD_eq fun p hp => ?_
  rw [Group.where_bit _ _ hp, Group.where_bit _ _ hp, Group.lane_allSeen g m hp, Lane.seen_runnable]

theorem Group.demOk_settleDem (g : Group) : g.settleDem.demOk := by
  intro p hp hd
  rw [Group.settleDem_eq] at hd ⊢
  by_cases hz : (g.where fun l => l.state == .demoted) = 0
  · rw [if_pos hz] at hd
    have hb := Group.where_bit g (fun l => l.state == .demoted) hp
    simp [hz, hd] at hb
  · rw [if_neg hz] at hd ⊢
    rw [Group.lane_allSeen _ _ hp] at hd ⊢
    rw [Lane.seen_dem _ _ hd, Group.where_runnable_allSeen, BitVec.and_assoc, BitVec.and_not_self]
    exact BitVec.and_zero

/-- What demoted lanes wait for does not depend on the leader, nor on a stop. -/
theorem Group.demOk_of_lanes {g h : Group} (e : h.lanes = g.lanes) (hg : g.demOk) : h.demOk := by
  have hl : ∀ p, h.lane p = g.lane p := Group.lane_of_lanes e
  intro p hp hd
  have hw : h.where Lane.runnable = g.where Lane.runnable := by simp only [Group.where, hl]
  rw [hw, hl]
  exact hg p hp (by rw [← hl]; exact hd)

theorem State.lanes_settleLeader (s : State) (g : Group) : (s.settleLeader g).lanes = g.lanes := by
  unfold State.settleLeader
  split
  · split
    · split <;> rfl
    · rfl
  · rfl

/-! ### What follows a turn -/

/-- Host accesses change neither the groups nor which unit is under issue. -/
theorem State.hostBytes_groups (s : State) (a : Nat) (bs : List Byte) :
    (s.hostBytes a bs).groups = s.groups ∧ (s.hostBytes a bs).cur = s.cur := by
  induction bs generalizing s a with
  | nil => exact ⟨rfl, rfl⟩
  | cons b bs ih =>
    obtain ⟨bad, cores, hx⟩ := State.setByte_eq s none a b
    obtain ⟨hg, hc⟩ := ih (s.hostByte a b) (a + 1)
    have hb : (s.hostByte a b).groups = s.groups ∧ (s.hostByte a b).cur = s.cur := by
      unfold State.hostByte
      dsimp only
      rw [hx]
      exact ⟨rfl, rfl⟩
    exact ⟨hg.trans hb.1, hc.trans hb.2⟩

theorem State.hostPerform_groups (s : State) (x : HostAccess) :
    (s.hostPerform x).groups = s.groups ∧ (s.hostPerform x).cur = s.cur := by
  cases x with
  | read pa n => exact ⟨rfl, rfl⟩
  | write pa data =>
    unfold State.hostPerform
    dsimp only
    split
    · exact State.hostBytes_groups s pa data
    · exact ⟨rfl, rfl⟩
  | rmw pa x =>
    unfold State.hostPerform State.hostRmw State.hostAtomic
    dsimp only
    split
    · split
      · exact State.hostBytes_groups s pa _
      · exact ⟨rfl, rfl⟩
    · exact ⟨rfl, rfl⟩

theorem State.hostRetry_groups (s : State) (xs : List HostAccess) :
    (s.hostRetry xs).groups = s.groups ∧ (s.hostRetry xs).cur = s.cur := by
  induction xs generalizing s with
  | nil => exact ⟨rfl, rfl⟩
  | cons x xs ih =>
    unfold State.hostRetry
    split
    · exact ⟨rfl, rfl⟩
    · obtain ⟨hg, hc⟩ := ih (s.hostPerform x)
      obtain ⟨hpg, hpc⟩ := State.hostPerform_groups s x
      exact ⟨hg.trans hpg, hc.trans hpc⟩

theorem State.Settled.of_eq {s t : State} (h : s.Settled) (hg : t.groups = s.groups) (hc : t.cur = s.cur) : t.Settled :=
  ⟨hc.trans h.1, hg ▸ h.2⟩

theorem State.Settled.stopGroup {s : State} (h : s.Settled) (gkey reason : Nat) (hard : Bool) :
    (s.stopGroup gkey reason hard).Settled := by
  unfold State.stopGroup
  split
  · exact h
  · rename_i g hg
    split
    · exact h
    · refine State.Settled.of_eq (s := s.setGroup gkey _) ⟨h.1, fun x hx => ?_⟩ rfl rfl
      obtain rfl | hx := mem_tset hx
      · exact Group.demOk_of_lanes (g := g) rfl (h.2 _ (mem_of_tget hg))
      · exact h.2 x hx

theorem State.Settled.stopMoving {s : State} (h : s.Settled) (f : Team → Group → Bool) (hard : Bool) :
    (s.stopMoving f hard).Settled := by
  unfold State.stopMoving
  generalize s.groups = gs
  induction gs generalizing s with
  | nil => exact h
  | cons x xs ih =>
    refine ih ?_
    dsimp only
    split
    · exact h
    split
    · split
      · exact h.stopGroup ..
      · exact h
    · exact h

/-- After a turn no unit is under issue, and demoted lanes wait only for lanes that still run. -/
theorem State.settled_afterTurn (s : State) : s.afterTurn.Settled := by
  unfold State.afterTurn
  extract_lets a b
  have ha : a.Settled := by
    refine ⟨rfl, fun x hx => ?_⟩
    obtain ⟨y, -, rfl⟩ := List.mem_map.mp hx
    exact Group.demOk_of_lanes (State.lanes_settleLeader s _) (Group.demOk_settleDem _)
  have hb : b.Settled := by
    unfold b
    split
    · exact ha
    · exact ha.of_eq (State.hostRetry_groups a _).1 (State.hostRetry_groups a _).2
  split
  · exact hb.stopMoving ..
  · exact hb

/-! ### The step -/

/-- Every turn that is taken ends settled. -/
theorem State.settled_turn {s t : State} {x : Turn} (e : s.turn x = .next t) : t.Settled := by
  unfold State.turn at e
  split at e
  · cases e; exact State.settled_afterTurn _
  · rename_i ho; exact absurd e (ho _)

/-- A choice among turns changes neither the groups nor which unit is under issue. -/
theorem State.Settled.nextTurn {s : State} (h : s.Settled) : s.nextTurn.2.Settled := by
  unfold State.nextTurn
  split
  · exact h
  · dsimp only; split <;> exact h

theorem settled_step {s t : State} (h : s.Settled) (e : step s = .next t) : t.Settled := by
  have hn := h.nextTurn
  unfold step at e
  split at e <;> rename_i hx <;> rw [hx] at hn
  · exact State.settled_turn e
  · cases e; exact hn

end Sys2Proof.Machine

open Sys2Proof.Machine in
/-- Settles O59: `State.settled_afterTurn` gives the settled state after every turn, `memoryOk_exec` and the frames of the issue
the canonical memories. -/
theorem stepKeepsMachineSettled : Obligations.StepKeepsMachineSettled := by
  unfold Obligations.StepKeepsMachineSettled
  intro s t e
  exact ⟨fun h => settled_step h e, fun h => memoryOk_step h e⟩

end

section
/-! PROOF. Arrivals at barriers, REGROUP and GATHER, and the team barrier that completes (O19; R146, R154, R171-R173, R177). -/

namespace Sys2Proof.Machine

-- One proof at a time: a compile of the whole text stays within its memory.
set_option Elab.async false

/-! ### Arrivals -/

theorem Group.lane_parkAfter (c : Issue) (g : Group) (m : Mask) (w : ParkWhy) {q : Nat} (hq : q < 32) :
    (g.parkAfter c m w).lane q = if m.getLsbD q then { c.advance (g.lane q) with state := .parked w } else g.lane q :=
  Group.lane_mapLanes _ _ _ hq

/-- Lanes that park change nothing else of their group. -/
theorem Group.parkAfter_eq (c : Issue) (g : Group) (m : Mask) (w : ParkWhy) : g.parkAfter c m w =
    { g with lanes := (g.parkAfter c m w).lanes, region := (g.parkAfter c m w).region, entryQ := (g.parkAfter c m w).entryQ } := by
  unfold Group.parkAfter Group.mapLanes
  rfl

theorem State.Calm.outsideOnly {s : State} {c : Issue} {g : Group} (h : s.Calm g) (r : Res) : outsideOnly s c g r = r := by
  have hnone : s.anyInner c.gkey g c.lanes = false :=
    List.any_eq_false.2 fun p hp => by rw [h.inner ((mem_positions _ p).1 hp).1]; decide
  rw [Machine.outsideOnly, hnone]
  rfl

/-- Lanes of an issuing set that run go on running while the release of an arrival leaves their group alone. -/
theorem Issue.Running.stillRunning {s : State} {c : Issue} {g : Group} (h : c.Running g)
    (hg : tget s.groups c.gkey = some g) : s.stillRunning c.gkey c.lanes = c.lanes := by
  unfold State.stillRunning
  rw [hg]
  refine mask_ext fun q hq => ?_
  rw [BitVec.getLsbD_and, Group.where_bit _ _ hq]
  cases hc : c.lanes.getLsbD q with
  | false => rfl
  | true => rw [h q hq hc, Bool.true_and]

/-- An arrival completes nothing while another lane of its calm group is active: of a state that is s but for the group's lanes
and region and for the marks of its team. -/
theorem State.Calm.rendezvous_others {s t : State} {c : Issue} {g g' : Group} (hcalm : s.Calm g)
    (hjoins : g.joins = Vector.replicate 4 0) (hothers : c.Others g) (ht : tget t.groups c.gkey = some g')
    (hteam : ∃ tm, tget t.teams g.tid = some tm ∧ g.tid ∈ tm.cluster)
    (hg' : g' = { g with lanes := g'.lanes, region := g'.region, entryQ := g'.entryQ })
    (hlanes : ∀ q, q < 32 → c.lanes.getLsbD q = false → g'.lane q = g.lane q) :
    t.rendezvous c.gkey c.addr c.lanes = t.setGroup c.gkey g' := by
  obtain ⟨hown, _, hcolls, hmask, _, _⟩ := hcalm
  obtain ⟨q, hq, hout, hact⟩ := hothers
  obtain ⟨tm, htm, hin⟩ := hteam
  have htid : g'.tid = g.tid := by rw [hg']
  exact State.rendezvous_joins ht (by rw [htid]; exact htm) (by rw [htid]; exact hin) (by rw [hg']; exact hcolls)
    (Group.finishJoins_none (by rw [hg']; exact hjoins)) rfl (by rw [hg']; exact hown) (by rw [hg']; exact hmask)
    ⟨q, hq, by rw [hlanes q hq hout]; exact hact⟩ ..

section
variable {s : State} {c : Issue} {g : Group} (h : s.Runs c g) (hcalm : s.Calm g) (hjoins : g.joins = Vector.replicate 4 0)
  (hothers : c.Others g) (hrunning : c.Running g) (hquiet : s.quiet c.gkey) (hk : c.kholds 0 g.u = true)
include h hcalm hjoins hothers hquiet hk

include hrunning in
/-- An arrival at a barrier of the team or of the cluster parks its lanes and notes its form, and nothing else (R171, R173). -/
theorem barArrive_runs (b : BarKind) (scope : Nat) (mark : TeamBar → TeamBar) {g₁ : Group} {tm tm₁ : Team}
    (htm : tget s.teams g.tid = some tm) (hin : g.tid ∈ tm₁.cluster) (hg₁ : g.parkAfter c c.lanes (.barrier b) = g₁)
    (htm₁ : { tm with bar := mark tm.bar } = tm₁) : barArrive b scope mark s =
      .next (((s.setGroup c.gkey g₁).setTeam g.tid tm₁).setGroup c.gkey (g₁.close c)) := by
  have hout : ∀ q, q < 32 → c.lanes.getLsbD q = false → g₁.lane q = g.lane q :=
    fun q hq hout => by rw [← hg₁, Group.lane_parkAfter _ _ _ _ hq, hout]; rfl
  have hrun : s.stillRunning c.gkey c.lanes = c.lanes := hrunning.stillRunning h.2.2
  have hteam : tget (s.setGroup c.gkey g₁).teams g.tid = some tm := htm
  have hmeet : ((s.setGroup c.gkey g₁).setTeam g.tid tm₁).rendezvous c.gkey c.addr c.lanes =
      ((s.setGroup c.gkey g₁).setTeam g.tid tm₁).setGroup c.gkey g₁ :=
    hcalm.rendezvous_others hjoins hothers (tget_tset_self s.groups c.gkey g₁) ⟨tm₁, tget_tset_self .., hin⟩
      (hg₁ ▸ Group.parkAfter_eq c g c.lanes (.barrier b)) hout
  unfold barArrive
  rw [closingUnit_ok h hk (t := ((s.setGroup c.gkey g₁).setTeam g.tid tm₁).setGroup c.gkey g₁)]
  · rw [State.setGroup_close]
  · rw [hcalm.outsideOnly, hquiet.release]
    dsimp only
    rw [hrun, State.modGroup_some h.2.2, hg₁, State.modTeam_some hteam, htm₁, hmeet]

include hrunning in
/-- The lanes of an arrival at a barrier of the team or of the cluster park, and its form is noted (R171, R173). -/
theorem barArrive_parks (b : BarKind) (scope : Nat) (mark : TeamBar → TeamBar) :
    Answers (barArrive b scope mark s) fun t =>
      GroupBecomes s t c.gkey (g.closed c) (fun q =>
        if c.lanes.getLsbD q then c.closeLane { c.advance (g.lane q) with state := .parked (.barrier b) } else g.lane q) ∧
      SameMemory s t ∧ ∀ tm, tget s.teams g.tid = some tm → tget t.teams g.tid = some { tm with bar := mark tm.bar } := by
  obtain ⟨tm, htm, hin⟩ := hcalm.2.2.2.2.2
  refine ⟨_, barArrive_runs h hcalm hjoins hothers hrunning hquiet hk b scope mark (tm₁ := { tm with bar := mark tm.bar }) htm hin rfl rfl,
    GroupBecomes.close (f := fun l => { c.advance l with state := .parked (.barrier b) }) (tset_tset ..), .of_eq rfl rfl rfl,
    fun tm' htm' => ?_⟩
  cases htm.symm.trans htm'
  exact tget_tset_self ..

/-- The lanes of a REGROUP park, and its region closes (R125, R146). -/
theorem regroup_parks : Answers (exec .regroup s) fun t =>
    GroupBecomes s t c.gkey (g.closed c) (fun q =>
      if c.lanes.getLsbD q then c.closeLane { c.advance (g.lane q) with state := .parked .regroup } else g.lane q) ∧
    SameMemory s t := by
  have hmeet := hcalm.rendezvous_others hjoins hothers
    (t := s.setGroup c.gkey ((g.parkAfter c c.lanes .regroup).close c))
    (State.tget_setGroup_self ..) hcalm.2.2.2.2.2 (by simp [Group.close, Group.parkAfter, Group.mapLanes])
    fun q hq hout => by rw [Group.lane_close _ _ hq, hout, Group.lane_parkAfter _ _ _ _ hq, hout]; rfl
  have hrun : exec .regroup s = .next (s.setGroup c.gkey ((g.parkAfter c c.lanes .regroup).close c)) := by
    change groupUnit s _ = _
    rw [groupUnit_runs h]
    simp only [hk, Bool.not_true, Bool.false_eq_true, if_false, hcalm.outsideOnly, hquiet.settled rfl,
      State.modGroup_some h.2.2, hmeet, State.setGroup_setGroup, settle_ok]
  exact ⟨_, hrun, GroupBecomes.close (f := fun l => { c.advance l with state := .parked .regroup }) rfl, .of_eq rfl rfl rfl⟩

/-- A GATHER parks its lanes, and nothing else (R154). -/
theorem gather_runs (a : USrc) (team : Bool) {g₁ : Group} (hg₁ : g.parkAfter c c.lanes (.gather team (a.get g.u) c.addr) = g₁) :
    exec (.gather a team) s = .next (s.setGroup c.gkey (g₁.close c)) := by
  have hout : ∀ q, q < 32 → c.lanes.getLsbD q = false → g₁.lane q = g.lane q :=
    fun q hq hout => by rw [← hg₁, Group.lane_parkAfter _ _ _ _ hq, hout]; rfl
  have hmeet : (s.setGroup c.gkey g₁).rendezvous c.gkey c.addr c.lanes = (s.setGroup c.gkey g₁).setGroup c.gkey g₁ :=
    hcalm.rendezvous_others hjoins hothers (State.tget_setGroup_self ..) hcalm.2.2.2.2.2 (hg₁ ▸ Group.parkAfter_eq ..) hout
  have hdepth : ((positions c.lanes).any fun p => decide ((g.lane p).nest + 1 > 8)) = false :=
    List.any_eq_false.2 fun p hp => by simp [hcalm.2.2.2.2.1 p ((mem_positions _ p).1 hp).1]
  change closingUnit 0 s _ = _
  rw [closingUnit_ok h hk (t := s.setGroup c.gkey g₁)]
  · rw [State.setGroup_close]
  · dsimp only
    rw [hdepth, if_neg Bool.false_ne_true, hquiet.settled rfl, State.modGroup_some h.2.2, hg₁, hmeet, State.setGroup_setGroup]

/-- The lanes of a GATHER park with its target and address (R154). -/
theorem gather_parks (a : USrc) (team : Bool) : Answers (exec (.gather a team) s) fun t =>
    GroupBecomes s t c.gkey (g.closed c) (fun q => if c.lanes.getLsbD q then
      c.closeLane { c.advance (g.lane q) with state := .parked (.gather team (a.get g.u) c.addr) } else g.lane q) ∧
    SameMemory s t ∧ t.teams = s.teams :=
  ⟨_, gather_runs h hcalm hjoins hothers hquiet hk a team rfl,
    GroupBecomes.close (f := fun l => { c.advance l with state := .parked (.gather team (a.get g.u) c.addr) }) rfl,
    .of_eq rfl rfl rfl, rfl⟩

end

end Sys2Proof.Machine
end

section
/-! PROOF. BAR.mask (O19; R172): its lanes inside the mask park, and go on at once where all lanes of the mask are there. -/

namespace Sys2Proof.Machine

-- One proof at a time: a compile of the whole text stays within its memory.
set_option Elab.async false

/-- The rank of a position in its whole group. -/
theorem Group.rankOf_present (g : Group) (q : Nat) : rankOf (g.where fun l => l.state != .absent) q = g.rank 0 q := by
  rw [rankOf, Group.rank, Group.members_eq, Group.memberMask]
  refine congrArg (fun m => ((positions m).filter (· < q)).length) (mask_ext fun p hp => ?_)
  rw [BitVec.getLsbD_and]
  change _ = ((0xFFFFFFFF#32 : Mask).getLsbD p && _)
  rw [bit_allOnes hp, Bool.true_and]

/-- The lanes of unit c whose rank is in a mask. -/
def Issue.inside (c : Issue) (g : Group) (m : Mask) : Mask :=
  maskOf ((positions c.lanes).filter fun p => m.getLsbD (g.rank 0 p))

theorem Issue.inside_bit (c : Issue) (g : Group) (m : Mask) {q : Nat} (hq : q < 32) :
    (c.inside g m).getLsbD q = (c.lanes.getLsbD q && m.getLsbD (g.rank 0 q)) := by
  rw [Issue.inside, maskOf_bit _ hq, Bool.eq_iff_iff]
  simp [mem_positions, hq]

/-- The group of a BAR.mask on its arrival: the first of its masked barrier. -/
def Group.masked (c : Issue) (g : Group) (m : Mask) : Group :=
  { (g.parkAfter c (c.inside g m) (.barrier .mask)).mapLanes (c.lanes &&& ~~~c.inside g m) c.advance with
    barMask := some ⟨m, m, none⟩ }

theorem Group.masked_eq (c : Issue) (g : Group) (m : Mask) :
    g.masked c m = { g with lanes := (g.masked c m).lanes, barMask := some ⟨m, m, none⟩ } := by
  unfold Group.masked Group.parkAfter Group.mapLanes
  rfl

theorem Group.lane_masked (c : Issue) (g : Group) (m : Mask) {q : Nat} (hq : q < 32) : (g.masked c m).lane q =
    if c.lanes.getLsbD q && m.getLsbD (g.rank 0 q) then { c.advance (g.lane q) with state := .parked (.barrier .mask) }
    else c.moved g q := by
  have hlanes : (g.masked c m).lanes =
      ((g.parkAfter c (c.inside g m) (.barrier .mask)).mapLanes (c.lanes &&& ~~~c.inside g m) c.advance).lanes := by
    unfold Group.masked; rfl
  rw [Group.lane_of_lanes hlanes, Group.lane_mapLanes _ _ _ hq, Group.lane_parkAfter _ _ _ _ hq, BitVec.getLsbD_and, BitVec.getLsbD_not,
    decide_eq_true hq, Bool.true_and, Issue.inside_bit _ _ _ hq, Issue.moved]
  cases c.lanes.getLsbD q <;> cases m.getLsbD (g.rank 0 q) <;> rfl

theorem Lane.runnable_iff {l : Lane} : l.runnable = true ↔ l.state = .active ∨ l.state = .demoted := by
  unfold Lane.runnable
  cases l.state <;> simp

section
variable {c : Issue} {g : Group} (hrunning : c.Running g) (m : Mask)
include hrunning

/-- An arrival at BAR.mask leaves who is gone and who is absent. -/
theorem Group.masked_gone {q : Nat} (hq : q < 32) : ((g.masked c m).lane q).gone = (g.lane q).gone ∧
    (((g.masked c m).lane q).state != .absent) = ((g.lane q).state != .absent) := by
  rw [Group.lane_masked c g m hq]
  split
  · rename_i hin
    obtain hs | hs := Lane.runnable_iff.1 (hrunning q hq (Bool.and_eq_true_iff.1 hin).1)
    · exact ⟨by simp [Lane.gone, hs], by rw [hs]; rfl⟩
    · exact ⟨by simp [Lane.gone, hs], by rw [hs]; rfl⟩
  · simp [Lane.gone, Issue.moved_state]

/-- A masked barrier at which no lane of its calm group waited is complete once unit c has every lane of the mask. -/
theorem Group.masked_arrived (hnone : ∀ q, (g.lane q).state ≠ .parked (.barrier .mask)) :
    (g.masked c m).maskArrived m = true ↔
      ∀ q, q < 32 → (g.lane q).gone = false → m.getLsbD (g.rank 0 q) = true → c.lanes.getLsbD q = true := by
  have hwhere : (g.masked c m).where (fun l => l.state != .absent) = g.where fun l => l.state != .absent :=
    mask_ext fun q hq => by rw [Group.where_bit _ _ hq, Group.where_bit _ _ hq, (Group.masked_gone hrunning m hq).2]
  have hparked : ∀ q, q < 32 → (((g.masked c m).lane q).state == .parked (.barrier .mask)) =
      (c.lanes.getLsbD q && m.getLsbD (g.rank 0 q)) := fun q hq => by
    rw [Group.lane_masked c g m hq]
    cases c.lanes.getLsbD q && m.getLsbD (g.rank 0 q) with
    | true => simp
    | false => simp [Issue.moved_state, hnone q]
  simp only [Group.maskArrived, hwhere, Group.rankOf_present, List.all_eq_true, mem_positions]
  constructor
  · intro h q hq hgone hrank
    have hpresent : ((g.lane q).state != .absent) = true :=
      bne_iff_ne.2 fun habsent => by simp [Lane.gone, habsent] at hgone
    have hx := h q ⟨hq, by rw [Group.where_bit _ _ hq]; exact hpresent⟩
    rw [hparked q hq, (Group.masked_gone hrunning m hq).1, hrank, hgone, Bool.and_true] at hx
    exact hx
  · rintro h q ⟨hq, -⟩
    rw [hparked q hq, (Group.masked_gone hrunning m hq).1]
    cases hrank : m.getLsbD (g.rank 0 q) with
    | false => rfl
    | true =>
      cases hgone : (g.lane q).gone with
      | true => rfl
      | false => rw [h q hq hgone hrank]; rfl

end

/-- The group once a masked barrier has completed. -/
def Group.maskPassed (g : Group) : Group := { g.wakeBarrier .mask with barMask := none }

theorem Group.maskPassed_eq (c : Issue) (g : Group) (m : Mask) :
    (g.masked c m).maskPassed = { g with lanes := (g.masked c m).maskPassed.lanes, barMask := none } := by
  unfold Group.maskPassed Group.wakeBarrier Group.masked Group.parkAfter Group.mapLanes
  rfl

theorem Group.lane_maskPassed (c : Issue) (g : Group) (m : Mask) (hnone : ∀ q, (g.lane q).state ≠ .parked (.barrier .mask))
    {q : Nat} (hq : q < 32) : (g.masked c m).maskPassed.lane q =
      if c.lanes.getLsbD q && m.getLsbD (g.rank 0 q) then { c.advance (g.lane q) with state := .active } else c.moved g q := by
  have hlanes : (g.masked c m).maskPassed.lanes = ((g.masked c m).mapLanes ((g.masked c m).atBarrier .mask)
      fun l => { l with state := .active }).lanes := by
    unfold Group.maskPassed Group.wakeBarrier; rfl
  rw [Group.lane_of_lanes hlanes, Group.lane_mapLanes _ _ _ hq, Group.atBarrier, Group.where_bit _ _ hq, Group.lane_masked c g m hq]
  cases hin : c.lanes.getLsbD q && m.getLsbD (g.rank 0 q)
  · simp [Issue.moved_state, hnone q]
  · simp

theorem State.finishMask_some {s : State} {k : Nat} {g : Group} {m : Mask} (hm : g.barMask = some ⟨m, m, none⟩) (unit : DWord)
    (lanes : Mask) : (s.setGroup k g).finishMask k unit lanes =
      s.setGroup k (if g.maskArrived m then g.maskPassed else g) := by
  unfold State.finishMask
  rw [State.tget_setGroup_self]
  simp only [hm]
  cases g.maskArrived m with
  | false => rfl
  | true => exact State.setGroup_setGroup ..

/-- An arrival at a masked barrier completes at most that barrier, where some lane of its group is active afterwards. -/
theorem State.rendezvous_masked {s : State} {k : Nat} {g g' : Group} {tm : Team} (hg : tget s.groups k = some g)
    (ht : tget s.teams g.tid = some tm) (hin : g.tid ∈ tm.cluster) (hcolls : g.colls = [])
    (hjoins : g.joins = Vector.replicate 4 0) {unit : DWord} {lanes : Mask}
    (hm : (s.setGroup k g).finishMask k unit lanes = s.setGroup k g') (htid : g'.tid = g.tid) (hown : g'.kind = .own)
    (hbusy : ∃ q, q < 32 ∧ (g'.lane q).state = .active) : s.rendezvous k unit lanes = s.setGroup k g' := by
  have hg' : tget (s.setGroup k g').groups k = some g' := State.tget_setGroup_self ..
  unfold State.rendezvous
  simp only [hg, Group.finishColls_none hcolls, Group.finishJoins_none hjoins, hm]
  rw [← htid] at ht hin ⊢
  rw [State.finishTeam_busy hg' hown hbusy, State.finishCluster_busy hg' hown hbusy ht hin,
    State.finishRegroup_busy hg' hown hbusy, State.testGather_busy hg' hown hbusy, State.testGather_busy hg' hown hbusy]

/-- The region of a lane that runs closes alike whether it is demoted or active (R327). -/
theorem Issue.closeLane_active (c : Issue) {l : Lane} (h : l.runnable = true) :
    c.closeLane { l with state := .active } = { c.closeLane l with state := .active } := by
  have hactive : ({ l with state := .active } : Lane).runnable = true := rfl
  simp [Issue.closeLane, h, hactive]

/-- What the close of a region makes of a group whose lanes and masked barrier have changed. -/
theorem Group.close_masked {c : Issue} {g g' : Group} {ls : Vector Lane 32} {b : Option BarMask}
    (e : g' = { g with lanes := ls, barMask := b }) :
    g'.close c = { g.closed c with lanes := (g'.close c).lanes, barMask := b } := by
  subst e
  simp [Group.close, Group.closed, Group.mapLanes]

theorem Lane.runnable_advance (c : Issue) (l : Lane) : (c.advance l).runnable = l.runnable :=
  Lane.runnable_of_state (Issue.advance_state c l)

section
variable {s : State} {c : Issue} {g : Group} (h : s.Runs c g) (hcalm : s.Calm g) (hjoins : g.joins = Vector.replicate 4 0)
  (hothers : c.Others g) (hrunning : c.Running g) (hquiet : s.quiet c.gkey) (hk : c.kholds 0 g.u = true)
include h hcalm hjoins hothers hrunning hquiet hk

/-- A BAR.mask that names some lane leaves its group with its lanes inside the mask parked, or past the barrier (R172). -/
theorem barMask_runs (a : USrc) {m : Mask} (hm : (a.get g.u).setWidth 32 = m) (hzero : m ≠ 0) {g₁ g₂ : Group}
    (hnone : ∀ q, (g.lane q).state ≠ .parked (.barrier .mask)) (hg₁ : g.masked c m = g₁)
    (hg₂ : (if g₁.maskArrived m then g₁.maskPassed else g₁) = g₂) :
    exec (.barMask a) s = .next (s.setGroup c.gkey (g₂.close c)) := by
  obtain ⟨hown, _, hcolls, hmask, _, tm, htm, hin⟩ := id hcalm
  have hsame := hg₁ ▸ Group.masked_eq c g m
  have hsame₂ : g₂ = { g₁ with lanes := g₂.lanes, barMask := g₂.barMask } := by
    rw [← hg₂]
    split
    · unfold Group.maskPassed Group.wakeBarrier Group.mapLanes; rfl
    · rfl
  have htid : g₁.tid = g.tid := by rw [hsame]
  have hbusy : ∃ q, q < 32 ∧ (g₂.lane q).state = .active := by
    obtain ⟨q, hq, hout, hact⟩ := hothers
    refine ⟨q, hq, ?_⟩
    rw [← hg₂, ← hg₁]
    split
    · rw [Group.lane_maskPassed c g m hnone hq, hout]; simpa [Issue.moved_state] using hact
    · rw [Group.lane_masked c g m hq, hout]; simpa [Issue.moved_state] using hact
  have hmeet : (s.setGroup c.gkey g₁).rendezvous c.gkey c.addr c.lanes = (s.setGroup c.gkey g₁).setGroup c.gkey g₂ :=
    State.rendezvous_masked (State.tget_setGroup_self ..) (by rw [htid]; exact htm) (by rw [htid]; exact hin)
      (by rw [hsame]; exact hcolls) (by rw [hsame]; exact hjoins)
      (by rw [State.finishMask_some (m := m) (by rw [hsame]), hg₂]) (by rw [hsame₂]) (by rw [hsame₂, hsame]; exact hown) hbusy
  change closingUnit 0 s _ = _
  rw [closingUnit_ok h hk (t := s.setGroup c.gkey g₂)]
  · rw [State.setGroup_close]
  · dsimp only
    rw [hcalm.outsideOnly, hm, if_neg hzero, hquiet.release]
    dsimp only
    simp only [hrunning.stillRunning h.2.2, Group.rankOf_present]
    rw [State.modGroup_some h.2.2, hmask]
    change Except.ok ((s.setGroup c.gkey (g.masked c m)).rendezvous c.gkey c.addr c.lanes) = _
    rw [hg₁, hmeet, State.setGroup_setGroup]

/-- What a BAR.mask leaves (R172). -/
theorem barMask_answers (a : USrc) {m : Mask} (hm : (a.get g.u).setWidth 32 = m)
    (hnone : ∀ q, (g.lane q).state ≠ .parked (.barrier .mask)) :
    let inside := fun q => c.lanes.getLsbD q && m.getLsbD (g.rank 0 q)
    let all := ∀ q, q < 32 → (g.lane q).gone = false → m.getLsbD (g.rank 0 q) = true → c.lanes.getLsbD q = true
    Answers (exec (.barMask a) s) fun t => SameMemory s t ∧ t.teams = s.teams ∧
      (m = 0 ∨ all → GroupBecomes s t c.gkey (g.closed c)
        (fun q => if inside q then { c.movedClosed g q with state := .active } else c.movedClosed g q)) ∧
      (m ≠ 0 → ¬ all → GroupBecomes s t c.gkey { g.closed c with barMask := some ⟨m, m, none⟩ }
        (fun q => if inside q then
            if c.lanes.getLsbD q then c.closeLane { c.advance (g.lane q) with state := .parked (.barrier .mask) } else g.lane q
          else c.movedClosed g q)) := by
  intro inside all
  by_cases hzero : m = 0
  · have hrun : exec (.barMask a) s = .next (s.setGroup c.gkey ((g.mapLanes c.lanes c.advance).close c)) := by
      change closingUnit 0 s _ = _
      rw [closingUnit_ok h hk (t := s.advance c), State.advance_runs h, State.setGroup_close]
      dsimp only
      rw [hcalm.outsideOnly, hm, if_pos hzero]
    refine ⟨_, hrun, .of_eq rfl rfl rfl, rfl, fun _ => (GroupBecomes.close (f := c.advance) rfl).congr fun q hq => ?_,
      fun hm => absurd hzero hm⟩
    simp [inside, hzero, Issue.movedClosed]
  · refine ⟨_, barMask_runs h hcalm hjoins hothers hrunning hquiet hk a hm hzero hnone rfl rfl, .of_eq rfl rfl rfl, rfl, ?_, ?_⟩
    · intro hdone
      rw [if_pos ((Group.masked_arrived hrunning m hnone).2 (hdone.resolve_left hzero))]
      have hsame : (g.closed c).barMask = none := hcalm.2.2.2.1
      refine .of_set rfl ((Group.close_masked (b := none) (Group.maskPassed_eq c g m)).trans (by rw [← hsame])) fun q hq => ?_
      rw [Group.lane_close c _ hq, Group.lane_maskPassed c g m hnone hq]
      by_cases hin : c.lanes.getLsbD q = true
      · by_cases hm : m.getLsbD (g.rank 0 q) = true
        · simp only [inside, hin, hm, Bool.and_self, if_true, Issue.movedClosed]
          exact c.closeLane_active ((Lane.runnable_advance c _).trans (hrunning q hq hin))
        · simp only [inside, hin, hm, Bool.and_false, if_true, Bool.false_eq_true, if_false, Issue.moved, Issue.movedClosed]
      · simp only [inside, hin, Bool.false_and, Bool.false_eq_true, if_false, Issue.moved, Issue.movedClosed]
    · intro _ hopen
      rw [if_neg fun harr => hopen ((Group.masked_arrived hrunning m hnone).1 harr)]
      refine .of_set rfl (Group.close_masked (Group.masked_eq c g m)) fun q hq => ?_
      rw [Group.lane_close c _ hq, Group.lane_masked c g m hq]
      by_cases hin : c.lanes.getLsbD q = true
      · by_cases hm : m.getLsbD (g.rank 0 q) = true
        · simp only [inside, hin, hm, Bool.and_self, if_true]
        · simp only [inside, hin, hm, Bool.and_false, if_true, Bool.false_eq_true, if_false, Issue.moved, Issue.movedClosed]
      · simp only [inside, hin, Bool.false_and, Bool.false_eq_true, if_false, Issue.moved, Issue.movedClosed]

end

end Sys2Proof.Machine
end

section
/-! PROOF. A team barrier that all lanes of the only group of a team reach completes at once (O19; R171). -/

namespace Sys2Proof.Machine

-- One proof at a time: a compile of the whole text stays within its memory.
set_option Elab.async false

/-- Where one entry of a table passes a test, its update is the one that does. -/
theorem filter_tset {α : Type} {t : Tab α} (hr : rising t = true) {f : Nat × α → Bool} {k : Nat} {v w : α}
    (h : t.filter f = [(k, w)]) (hv : f (k, v) = true) : (tset t k v).filter f = [(k, v)] := by
  induction t with
  | nil => cases h
  | cons x t ih =>
    obtain ⟨a, y⟩ := x
    obtain ⟨hlt, hrt⟩ := (rising_cons (a, y) t).1 hr
    have hin : (k, w) ∈ ((a, y) :: t).filter f := h ▸ List.mem_singleton.2 rfl
    unfold tset
    by_cases hk : k = a
    · subst hk
      rw [if_pos rfl, List.filter_cons_of_pos hv]
      by_cases hy : f (k, y) = true
      · rw [List.filter_cons_of_pos hy] at h
        rw [(List.cons.inj h).2]
      · rw [List.filter_cons_of_neg hy] at hin
        exact absurd (hlt _ (List.mem_filter.1 hin).1) (Nat.lt_irrefl k)
    · have hak : a < k := by
        obtain e | e := List.mem_cons.1 (List.mem_filter.1 hin).1
        · exact absurd (congrArg Prod.fst e) hk
        · exact hlt _ e
      rw [if_neg hk, if_neg (Nat.lt_asymm hak)]
      by_cases hy : f (a, y) = true
      · rw [List.filter_cons_of_pos hy] at h
        exact absurd (congrArg Prod.fst (List.cons.inj h).1).symm hk
      · rw [List.filter_cons_of_neg hy] at h ⊢
        exact ih hrt h

theorem State.ownGroups_setGroup {s : State} {k : Nat} {g g' : Group} (hr : rising s.groups = true)
    (h : s.ownGroups g.tid = [(k, g)]) (htid : g'.tid = g.tid) (hown : g'.kind = .own) :
    (s.setGroup k g').ownGroups g.tid = [(k, g')] :=
  filter_tset hr h (by simp [htid, hown])

/-- An arrival completes at most the team barrier, where some lane of its group is active after it. -/
theorem State.rendezvous_team {s u : State} {k : Nat} {g g' : Group} {tm : Team} (hg : tget s.groups k = some g)
    (hcolls : g.colls = []) (hjoins : g.joins = Vector.replicate 4 0) (hmask : g.barMask = none) {unit : DWord} {lanes : Mask}
    (hfin : (s.setGroup k g).finishTeam g.tid k unit lanes = u) (hu : tget u.groups k = some g') (htid : g'.tid = g.tid)
    (hown : g'.kind = .own) (hbusy : ∃ q, q < 32 ∧ (g'.lane q).state = .active) (hteam : tget u.teams g.tid = some tm)
    (hin : g.tid ∈ tm.cluster) : s.rendezvous k unit lanes = u := by
  unfold State.rendezvous
  simp only [hg, Group.finishColls_none hcolls, Group.finishJoins_none hjoins]
  rw [State.finishMask_none (State.tget_setGroup_self ..) hmask, hfin]
  rw [← htid] at hteam hin ⊢
  rw [State.finishCluster_busy hu hown hbusy hteam hin, State.finishRegroup_busy hu hown hbusy,
    State.testGather_busy hu hown hbusy, State.testGather_busy hu hown hbusy]

/-- The only group of a team is all at its barrier in the plain form: its lanes go on, and the arrival is forgotten. -/
theorem State.finishTeam_only {s : State} {k : Nat} {g g' : Group} {tm : Team} (hown : s.ownGroups g.tid = [(k, g)])
    (hall : g.allAt [.team, .teamYield] = true) (hteam : tget s.teams g.tid = some tm) (hplain : tm.bar = ⟨true, false⟩)
    (hg' : tget (s.acquire k 1).groups k = some g') (unit : DWord) (lanes : Mask) : s.finishTeam g.tid k unit lanes =
      ((s.acquire k 1).setGroup k (g'.wakeBarrier .team)).setTeam g.tid { tm with bar := ⟨false, false⟩ } := by
  unfold State.finishTeam
  simp only [hteam, hown, hplain, List.all_cons, List.all_nil, hall, Bool.or_false, Bool.and_true, Bool.not_true,
    Bool.false_eq_true, if_false, Bool.and_false, if_true, List.map_cons, List.map_nil, State.wakeGroups, List.foldl_cons,
    List.foldl_nil, State.modGroup_some hg']

theorem Group.parkAfter_lanes (c : Issue) (g : Group) (m : Mask) (w : ParkWhy) :
    g.parkAfter c m w = { g with lanes := (g.parkAfter c m w).lanes } := by
  unfold Group.parkAfter Group.mapLanes
  rfl

/-- Every lane of a group that is not gone is at a barrier once unit c has parked them there. -/
theorem Group.allAt_parkAfter {c : Issue} {g : Group} {b : BarKind} {ks : List BarKind} (hset : c.lanes = g.where fun l => !l.gone)
    (hb : b ∈ ks) : (g.parkAfter c c.lanes (.barrier b)).allAt ks = true := by
  refine List.all_eq_true.2 fun q hq => ?_
  have hq := List.mem_range.1 hq
  have hbit : c.lanes.getLsbD q = !(g.lane q).gone := by rw [hset, Group.where_bit _ _ hq]
  rw [Group.lane_parkAfter _ _ _ _ hq, hbit]
  cases hgone : (g.lane q).gone with
  | true => simp [hgone]
  | false =>
    rw [Bool.not_false, if_pos rfl, Bool.or_eq_true]
    exact .inr (List.any_eq_true.2 ⟨b, hb, beq_self_eq_true _⟩)

theorem Group.wakeBarrier_lanes (g : Group) (b : BarKind) :
    g.wakeBarrier b = { g with lanes := (g.wakeBarrier b).lanes } := by
  unfold Group.wakeBarrier Group.mapLanes
  rfl

theorem Group.lane_wakeBarrier (g : Group) (b : BarKind) {q : Nat} (hq : q < 32) : (g.wakeBarrier b).lane q =
    if (g.lane q).state == .parked (.barrier b) then { g.lane q with state := .active } else g.lane q := by
  rw [Group.wakeBarrier, Group.lane_mapLanes _ _ _ hq, Group.atBarrier, Group.where_bit _ _ hq]

/-- The close of a region of a group whose lanes and acquires have changed. -/
theorem Group.close_acquired {c : Issue} {g g' : Group} {ls : Vector Lane 32} {x y : Nat}
    (e : g' = { g with lanes := ls, acq := x, sysAcq := y }) :
    g'.close c = { g.closed c with lanes := (g'.close c).lanes, acq := (g'.close c).acq, sysAcq := (g'.close c).sysAcq } := by
  subst e
  simp [Group.close, Group.closed, Group.mapLanes]

/-- The arrival of the last lanes of the only group of a team in the plain form: its barrier completes, and the group has what
its team has acquired (R171, R173). -/
theorem State.rendezvous_teamBarrier {s t : State} {k : Nat} {g g₁ : Group} {tm : Team} (hcalm : s.Calm g)
    (hjoins : g.joins = Vector.replicate 4 0) (hr : rising s.groups = true) (hown : s.ownGroups g.tid = [(k, g)])
    (ht : t.groups = tset s.groups k g₁) (hset : (t.setGroup k g₁) = t) (hlanes : g₁ = { g with lanes := g₁.lanes })
    (hteam : tget t.teams g.tid = some tm) (hbar : tm.bar = ⟨true, false⟩) (hin : g.tid ∈ tm.cluster)
    (hall : g₁.allAt [.team, .teamYield] = true) (hbusy : ∃ q, q < 32 ∧ ((g₁.wakeBarrier .team).lane q).state = .active)
    (unit : DWord) (lanes : Mask) : ∃ u g₃, t.rendezvous k unit lanes = u ∧ tget u.groups k = some g₃ ∧
      g₃ = { g with lanes := g₃.lanes, acq := g₃.acq, sysAcq := g₃.sysAcq } ∧
      (∀ q, q < 32 → g₃.lane q = (g₁.wakeBarrier .team).lane q) ∧ (∀ j, j ≠ k → tget u.groups j = tget s.groups j) ∧
      SameMemory t u ∧ tget u.teams g.tid = some { tm with bar := ⟨false, false⟩ } := by
  obtain ⟨hkind, _, hcolls, hmask, _⟩ := hcalm
  have htid₁ : g₁.tid = g.tid := by rw [hlanes]
  have hkind₁ : g₁.kind = .own := by rw [hlanes]; exact hkind
  have hget₁ : tget t.groups k = some g₁ := by rw [ht]; exact tget_tset_self ..
  obtain ⟨⟨⟨g', hget, hg', hlane'⟩, hothers⟩, hteams, hmem⟩ :=
    GroupBecomes.acquire (s := s) (t := t) (h := g) (f := g₁.lane) (.of_set ht hlanes fun _ _ => rfl) 1
  have hownt : t.ownGroups g₁.tid = [(k, g₁)] := by
    rw [htid₁, ← State.ownGroups_setGroup hr hown htid₁ hkind₁]
    exact congrArg (fun G : Tab Group => G.filter fun x => x.2.tid == g.tid && x.2.kind == .own) ht
  have hfin := State.finishTeam_only hownt hall (by rw [htid₁]; exact hteam) hbar hget unit lanes
  have hwoken : ∀ q, q < 32 → (g'.wakeBarrier .team).lane q = (g₁.wakeBarrier .team).lane q := fun q hq => by
    rw [Group.lane_wakeBarrier _ _ hq, Group.lane_wakeBarrier _ _ hq, hlane' q hq]
  have hg₃ : g'.wakeBarrier .team = { g with
      lanes := (g'.wakeBarrier .team).lanes, acq := (g'.wakeBarrier .team).acq, sysAcq := (g'.wakeBarrier .team).sysAcq } := by
    rw [Group.wakeBarrier_lanes, hg']
  generalize g'.wakeBarrier .team = g₃ at hfin hwoken hg₃
  have htid₃ : g₃.tid = g₁.tid := by rw [hg₃, htid₁]
  have hkind₃ : g₃.kind = .own := by rw [hg₃]; exact hkind
  have hbusy₃ : ∃ q, q < 32 ∧ (g₃.lane q).state = .active := by
    obtain ⟨q, hq, hact⟩ := hbusy
    exact ⟨q, hq, by rw [hwoken q hq]; exact hact⟩
  rw [htid₁] at hfin
  generalize hU : ((t.acquire k 1).setGroup k g₃).setTeam g.tid { tm with bar := ⟨false, false⟩ } = u at hfin
  have hgetU : tget u.groups k = some g₃ := by rw [← hU]; exact State.tget_setGroup_self ..
  have hteamU : tget u.teams g.tid = some { tm with bar := ⟨false, false⟩ } := by rw [← hU]; exact tget_tset_self ..
  refine ⟨u, g₃, State.rendezvous_team hget₁ (by rw [hlanes]; exact hcolls) (by rw [hlanes]; exact hjoins)
    (by rw [hlanes]; exact hmask) (by rw [hset, htid₁]; exact hfin) hgetU htid₃ hkind₃ hbusy₃ (by rw [htid₁]; exact hteamU)
    (by rw [htid₁]; exact hin), hgetU, hg₃, hwoken, fun j hj => ?_, ?_, hteamU⟩
  · rw [← hU]; exact (State.tget_setGroup_ne _ _ hj).trans (hothers j hj)
  · rw [← hU]; exact hmem.trans (.of_eq rfl rfl rfl)

section
variable {s : State} {c : Issue} {g : Group} {tm : Team} (h : s.Runs c g) (hcalm : s.Calm g)
  (hjoins : g.joins = Vector.replicate 4 0) (hrunning : c.Running g) (hquiet : s.quiet c.gkey) (hk : c.kholds 0 g.u = true)
  (hsome : c.lanes ≠ 0) (hset : c.lanes = g.where fun l => !l.gone) (hrising : rising s.groups = true)
  (hown : s.ownGroups g.tid = [(c.gkey, g)]) (hteam : tget s.teams g.tid = some tm) (hyield : tm.bar.yield = false)

/-- The lanes that arrive at a team barrier as all of their group are those that go on once it completes. -/
theorem Group.lane_woken (hset : c.lanes = g.where fun l => !l.gone) {q : Nat} (hq : q < 32) :
    ((g.parkAfter c c.lanes (.barrier .team)).wakeBarrier .team).lane q =
      if c.lanes.getLsbD q then { c.advance (g.lane q) with state := .active } else g.lane q := by
  rw [Group.lane_wakeBarrier _ _ hq, Group.lane_parkAfter _ _ _ _ hq]
  by_cases hin : c.lanes.getLsbD q = true
  · simp only [hin, if_true, beq_self_eq_true]
  · have hgone : (g.lane q).gone = true := by
      rw [hset, Group.where_bit _ _ hq] at hin
      simpa using hin
    have hpast : ((g.lane q).state == .parked (.barrier .team)) = false :=
      beq_eq_false_iff_ne.2 fun e => by simp [Lane.gone, e] at hgone
    simp only [hin, if_false, hpast, Bool.false_eq_true]

include h hcalm hjoins hrunning hquiet hk hsome hset hrising hown hteam hyield

theorem barTeam_completes : Answers (exec .barTeam s) fun t =>
    GroupBecomes s t c.gkey (g.closed c)
      (fun q => if c.lanes.getLsbD q then c.closeLane { c.advance (g.lane q) with state := .active } else g.lane q) ∧
    SameMemory s t ∧ tget t.teams g.tid = some { tm with bar := ⟨false, false⟩ } := by
  obtain ⟨_, _, _, _, _, tm', htm', hin⟩ := id hcalm
  cases hteam.symm.trans htm'
  have hlanes := Group.parkAfter_lanes c g c.lanes (.barrier .team)
  have hall := Group.allAt_parkAfter (c := c) (g := g) (ks := [.team, .teamYield]) hset (List.mem_cons_self)
  have hwoken := fun q (hq : q < 32) => Group.lane_woken hset hq
  generalize hg₁ : g.parkAfter c c.lanes (.barrier .team) = g₁ at hlanes hall hwoken
  generalize htm₁ : ({ tm with bar := { tm.bar with plain := true } } : Team) = tm₁
  have hbar : tm₁.bar = ⟨true, false⟩ := by rw [← htm₁, ← hyield]
  have hclear : ({ tm₁ with bar := ⟨false, false⟩ } : Team) = { tm with bar := ⟨false, false⟩ } := by rw [← htm₁]
  have hin₁ : g.tid ∈ tm₁.cluster := by rw [← htm₁]; exact hin
  have hparked : tget (s.setGroup c.gkey g₁).teams g.tid = some tm := hteam
  have hagain : ((s.setGroup c.gkey g₁).setTeam g.tid tm₁).setGroup c.gkey g₁ = (s.setGroup c.gkey g₁).setTeam g.tid tm₁ :=
    congrArg (fun x => State.setTeam x g.tid tm₁) (State.setGroup_setGroup s c.gkey g₁ g₁)
  obtain ⟨q, hq, hbit⟩ := exists_bit_of_ne_zero hsome
  obtain ⟨u, g₃, hmeet, hget, hg₃, hlane, hothers, hmem, hteamU⟩ := State.rendezvous_teamBarrier
    (t := (s.setGroup c.gkey g₁).setTeam g.tid tm₁) hcalm hjoins hrising hown rfl hagain hlanes
    (tget_tset_self ..) hbar hin₁ hall ⟨q, hq, by rw [hwoken q hq, hbit]; rfl⟩ c.addr c.lanes
  rw [hclear] at hteamU
  have hrun : exec .barTeam s = .next (u.setGroup c.gkey (g₃.close c)) := by
    change closingUnit 0 s _ = _
    rw [closingUnit_ok h hk (t := u), State.modGroup_some hget]
    rw [hcalm.outsideOnly, hquiet.release]
    dsimp only
    rw [hrunning.stillRunning h.2.2, State.modGroup_some h.2.2, hg₁, State.modTeam_some hparked, htm₁, hmeet]
  refine ⟨_, hrun, ⟨⟨g₃.close c, State.tget_setGroup_self .., Group.close_acquired hg₃, fun q hq => ?_⟩, fun j hj => ?_⟩,
    hmem.trans (.of_eq rfl rfl rfl), hteamU⟩
  · rw [Group.lane_close c _ hq, hlane q hq, hwoken q hq]
    by_cases hin : c.lanes.getLsbD q = true
    · simp only [hin, if_true]
    · simp only [hin, if_false, Bool.false_eq_true]
  · exact (State.tget_setGroup_ne _ _ hj).trans (hothers j hj)

end

end Sys2Proof.Machine
end

section
/-! PROOF. O19 from what each arrival leaves and from the team barrier that completes. -/

namespace Sys2Proof.Machine

-- One proof at a time: a compile of the whole text stays within its memory.
set_option Elab.async false

theorem barrierArrivals : Claims.BarrierArrivals := by
  intro s c g h hcalm hjoins hothers hrunning hquiet hk parks noted
  have hteam := barArrive_parks h hcalm hjoins hothers hrunning hquiet hk .team 1 fun x => { x with plain := true }
  have hyield := barArrive_parks h hcalm hjoins hothers hrunning hquiet hk .teamYield 1 fun x => { x with yield := true }
  have hclus := barArrive_parks h hcalm hjoins hothers hrunning hquiet hk .clus 2 id
  refine ⟨?_, regroup_parks h hcalm hjoins hothers hquiet hk, gather_parks h hcalm hjoins hothers hquiet hk, fun a => ?_⟩
  · rintro i b f (⟨rfl, rfl, rfl⟩ | ⟨rfl, rfl, rfl⟩ | ⟨rfl, rfl, rfl⟩)
    · exact hteam
    · exact hyield
    · exact hclus
  · intro m inside all hnone
    have hm : (a.get g.u).setWidth 32 = m := (BitVec.ofNat_toNat 32 _).symm
    exact barMask_answers h hcalm hjoins hothers hrunning hquiet hk a hm hnone

theorem teamBarrierCompletes : Claims.TeamBarrierCompletes := fun _ _ _ _ h hcalm hjoins hrunning hquiet hk hsome hset hrising
    hown hteam hyield =>
  barTeam_completes h hcalm hjoins hrunning hquiet hk hsome hset hrising hown hteam hyield

end Sys2Proof.Machine

open Sys2Proof.Machine in
/-- Settles O19, from the arrivals while another lane of the group is active, and from the team barrier's completion. -/
theorem barriersParkAndComplete : Obligations.BarriersParkAndComplete := ⟨barrierArrivals, teamBarrierCompletes⟩

end

section
/-! PROOF. The argument area of gather callees (O24; R165). -/

namespace Sys2Proof.Machine

-- One proof at a time: a compile of the whole text stays within its memory.
set_option Elab.async false

/-- A lane that a unit finishes is the only one of its group that changes. -/
theorem State.finish_runs {s : State} {c : Issue} {g : Group} (h : s.Runs c g) (p : Nat) (f : Lane → Lane) :
    s.finish c p f = s.setGroup c.gkey (g.setLane p (c.advance (f (g.lane p)))) := State.modGroup_some h.2.2 _

/-- A unit of one lane that finishes it. -/
theorem GroupBecomes.finished {s t : State} {c : Issue} {g : Group} {p : Nat} {f : Lane → Lane} (hp : p < 32)
    (hone : c.lanes = 1#32 <<< p) (ht : t.groups = tset s.groups c.gkey (g.setLane p (c.advance (f (g.lane p))))) :
    GroupBecomes s t c.gkey g fun q => c.oneAfter p f q (g.lane q) := by
  refine .of_set ht rfl fun q hq => ?_
  rw [Group.lane_setLane _ _ _ hq, Issue.oneAfter]
  by_cases hqp : q = p
  · subst hqp; rw [if_pos rfl, if_pos rfl]
  · rw [if_neg hqp, if_neg hqp, hone, bit_shift p q hq, decide_eq_false hqp]; rfl

/-- A unit of the gather area of one lane, that is a gather callee thread (R165). -/
theorem gatherUnit_runs {s : State} {c : Issue} {g : Group} {p tid : Nat} {x : Firing} (h : s.Runs c g) (hp : p < 32)
    (hone : c.lanes = 1#32 <<< p) (hfiring : s.threadFiring c.gkey g p = some (tid, x))
    (hcoupled : s.uncoupled c.gkey g c.lanes = []) (f : Issue → Group → Nat → Nat → Firing → State → State) :
    gatherUnit s f = .next (f c g p tid x s) := by
  have hall : ((positions c.lanes).any fun p => (s.threadFiring c.gkey g p).isNone) = false :=
    List.any_eq_false.2 fun q hq => by
      obtain ⟨hq, hbit⟩ := (mem_positions _ q).1 hq
      rw [hone, bit_shift p q hq, decide_eq_true_iff] at hbit
      rw [hbit, hfiring]
      simp
  rw [gatherUnit, groupUnit_runs h, coupledOnly, hcoupled]
  simp only [hall, Bool.false_eq_true, if_false, settle_ok]
  rw [hone, Group.order_single g hp, List.foldl_cons, List.foldl_nil, hfiring]

section
variable {s : State} {c : Issue} {g : Group} {p tid : Nat} {f : Firing} {tm : Team} (h : s.Runs c g) (hp : p < 32)
  (hone : c.lanes = 1#32 <<< p) (hfiring : s.threadFiring c.gkey g p = some (tid, f))
  (hcoupled : s.uncoupled c.gkey g c.lanes = []) (hteam : tget s.teams tid = some tm)
include h hp hone hfiring hcoupled hteam

theorem garg_answers (d : LDst) (a b : LSrc) (n : Bool) (x : Nat) : Answers (exec (.garg d a b n x) s) fun t =>
    GroupBecomes s t c.gkey g (fun q => c.oneAfter p (fun l => if c.holds 0 l then d.put32 n
      (if (a.r32 (g.lane p)).toNat < f.size then
        (tget tm.gather (8 * (a.r32 (g.lane p)).toNat + (b.r32 (g.lane p)).toNat % 8)).getD 0 else 0) l else l) q (g.lane q)) ∧
    t.teams = s.teams ∧ SameMemory s t := by
  generalize hw : (if (a.r32 (g.lane p)).toNat < f.size then
    (tget tm.gather (8 * (a.r32 (g.lane p)).toNat + (b.r32 (g.lane p)).toNat % 8)).getD 0 else 0) = w
  have hrun : exec (.garg d a b n x) s =
      .next (s.setGroup c.gkey (g.setLane p (c.advance (if c.holds 0 (g.lane p) then d.put32 n w (g.lane p) else g.lane p)))) := by
    change gatherUnit s _ = _
    rw [gatherUnit_runs h hp hone hfiring hcoupled]
    dsimp only
    rw [hteam, Option.map_some, Option.getD_some, hw, State.finish_runs h, State.finish_runs h]
    split <;> rfl
  exact ⟨_, hrun, .finished (f := fun l => if c.holds 0 l then d.put32 n w l else l) hp hone rfl, rfl, .of_eq rfl rfl rfl⟩

theorem gres_answers (v a b : LSrc) (x : Nat) : Answers (exec (.gres v a b x) s) fun t =>
    GroupBecomes s t c.gkey g (fun q => c.oneAfter p (fun l => l) q (g.lane q)) ∧ SameMemory s t ∧
    tget t.teams tid = some (if c.holds 0 (g.lane p) && (a.r32 (g.lane p)).toNat < f.size then { tm with
      gather := tset tm.gather (8 * (a.r32 (g.lane p)).toNat + (b.r32 (g.lane p)).toNat % 8) (v.r32 (g.lane p)) } else tm) := by
  have hbecomes : ∀ t : State, t.groups = (s.setGroup c.gkey (g.setLane p (c.advance (g.lane p)))).groups →
      GroupBecomes s t c.gkey g fun q => c.oneAfter p (fun l => l) q (g.lane q) := fun t ht =>
    .finished (f := fun l => l) hp hone ht
  have hmoved : tget (s.setGroup c.gkey (g.setLane p (c.advance (g.lane p)))).teams tid = some tm := hteam
  change Answers (gatherUnit s _) _
  rw [gatherUnit_runs h hp hone hfiring hcoupled]
  dsimp only
  rw [State.finish_runs h, id_eq, State.modTeam_some hmoved]
  split
  · exact ⟨_, rfl, hbecomes _ rfl, .of_eq rfl rfl rfl, tget_tset_self ..⟩
  · exact ⟨_, rfl, hbecomes _ rfl, .of_eq rfl rfl rfl, hteam⟩

end

theorem gatherArea_answers : Claims.GatherArea := fun _ _ _ _ _ _ _ h hp hone hfiring hcoupled hteam d v a b n x =>
  ⟨garg_answers h hp hone hfiring hcoupled hteam d a b n x, gres_answers h hp hone hfiring hcoupled hteam v a b x⟩

end Sys2Proof.Machine
end

section
/-! PROOF. The last return of a widened call of one caller (O24; R153, R164). -/

namespace Sys2Proof.Machine

-- One proof at a time: a compile of the whole text stays within its memory.
set_option Elab.async false

/-! ### An open call of one caller -/

/-- An open WIDEN has an entry in the table of calls. -/
def State.setCall (s : State) (id : Nat) (w : WidenCall) : State := { s with calls := tset s.calls id w }

theorem State.tget_setCall (s : State) (id : Nat) (w : WidenCall) : tget (s.setCall id w).calls id = some w :=
  tget_tset_self ..

theorem State.setCall_setCall (s : State) (id : Nat) (v w : WidenCall) : (s.setCall id v).setCall id w = s.setCall id w := by
  unfold State.setCall
  rw [tset_tset]

theorem State.modCaller_only {s : State} {id : Nat} {w : WidenCall} {x : Caller} (hcall : tget s.calls id = some w)
    (hw : w.callers = [x]) (f : Caller → Caller) : s.modCaller id 0 f = s.setCall id { w with callers := [f x] } := by
  unfold State.modCaller State.setCall tmod
  rw [hcall]
  simp only [hw, List.getElem?_cons_zero, List.set_cons_zero]

/-- The caller of a call that has one. -/
theorem State.caller_only {s : State} {id : Nat} {w : WidenCall} {x : Caller} (hcall : tget s.calls id = some w)
    (hw : w.callers = [x]) : ((tget s.calls id).bind fun w => (w.callers[0]?).map fun x => (w, x)) = some (w, x) := by
  simp [hcall, hw]

/-! ### The end of the call (R153) -/

/-- Acquires of others change no lane. -/
theorem State.learnFrom_lanes (s : State) (ks : List Nat) (g : Group) : (s.learnFrom ks g).lanes = g.lanes := by
  unfold State.learnFrom
  induction ks generalizing g with
  | nil => rfl
  | cons k ks ih =>
    rw [List.foldl_cons, ih]
    split <;> rfl

/-- A caller that goes on after its WIDEN. -/
def Lane.resumed (l : Lane) (next : DWord) : Lane :=
  { l with state := .active, vpc := next, l := Latches.invalid, entryL := Latches.invalid, rep := 0 }

/-- The state t after the call id of one caller x of group gc has ended: the caller is l, and what the call held is free. -/
def CallEnded (s t : State) (id : Nat) (w : WidenCall) (x : Caller) (gc : Group) (tm : Team) (k : Nat) (l : Lane) : Prop :=
  (∃ g', tget t.groups w.gkey = some g' ∧ (∀ q, q < 32 → q ≠ x.pos → g'.lane q = gc.lane q) ∧
    g'.lane x.pos = l.resumed w.next) ∧
  tget t.groups k = none ∧ tget t.calls id = none ∧ SameMemory s t ∧
  tget t.teams w.tid = some { tm with quota := tm.quota + w.charge, wslots := tm.wslots + 1 }

/-- What the end of a call leaves does not depend on what its record, its caller and the caller's lane were before it. -/
theorem CallEnded.of_before {s s₂ t : State} {id k : Nat} {w w₂ : WidenCall} {x x₂ : Caller} {gc gc₂ : Group} {tm : Team}
    {l l₂ : Lane} (h : CallEnded s₂ t id w₂ x₂ gc₂ tm k l₂) (hw : w₂ = { w with callers := w₂.callers }) (hx : x₂.pos = x.pos)
    (hmem : SameMemory s s₂) (hlane : ∀ q, q < 32 → q ≠ x.pos → gc₂.lane q = gc.lane q)
    (hl : l₂.resumed w.next = l.resumed w.next) : CallEnded s t id w x gc tm k l := by
  obtain ⟨⟨g', hget, hothers, hcaller⟩, hgone, hcalls, hmem', hteam⟩ := h
  rw [hw] at hget hcaller hteam
  rw [hx] at hothers hcaller
  exact ⟨⟨g', hget, fun q hq hqx => (hothers q hq hqx).trans (hlane q hq hqx), hcaller.trans hl⟩, hgone, hcalls,
    hmem.trans hmem', hteam⟩

/-- The callers' group once the call has ended: its callers that are there go on after the WIDEN. -/
def WidenCall.resume (w : WidenCall) (s : State) (g : Group) : Group :=
  let g := g.mapLanes (maskOf (w.callers.map (·.pos)) &&& g.where fun l => !l.gone) (Lane.resumed · w.next)
  let u := match w.callers.findSome? (·.s55) with | some x => g.u.setReg 55 x | none => g.u
  s.learnFrom w.groups { g with u := u }

theorem WidenCall.resume_lanes (w : WidenCall) (s : State) (g : Group) : (w.resume s g).lanes =
    (g.mapLanes (maskOf (w.callers.map (·.pos)) &&& g.where fun l => !l.gone) (Lane.resumed · w.next)).lanes := by
  unfold WidenCall.resume
  rw [State.learnFrom_lanes]

/-- A call leaves the table. -/
def State.dropCall (s : State) (id : Nat) : State := { s with calls := terase s.calls id }

theorem SameMemory.dropGroup (s : State) (k : Nat) : SameMemory s (s.dropGroup k) :=
  .of_eq (by simp [State.dropGroup, State.leaveSeat]) (by simp [State.dropGroup, State.leaveSeat])
    (by simp [State.dropGroup, State.leaveSeat])

theorem SameMemory.setTeamDropCall (s : State) (k id : Nat) (t : Team) : SameMemory s ((s.setTeam k t).dropCall id) :=
  .of_eq rfl rfl rfl

theorem State.dropCall_teams (s : State) (id : Nat) : (s.dropCall id).teams = s.teams := rfl

theorem State.finishWiden_done {s : State} {id : Nat} {w : WidenCall} (hcall : tget s.calls id = some w)
    (hdone : (w.callers.all fun y => y.mode == .none) = true) : s.finishWiden id =
      ((w.groups.foldl State.dropGroup (s.modGroup w.gkey (w.resume s))).modTeam w.tid fun t =>
        { t with quota := t.quota + w.charge, wslots := t.wslots + w.groups.length }).dropCall id := by
  unfold State.finishWiden
  rw [hcall]
  dsimp only
  rw [hdone]
  rfl

/-- What a group held at its seat and in its core's queues ends with it. -/
theorem State.dropGroup_groups (s : State) (k : Nat) : (s.dropGroup k).groups = terase s.groups k := rfl

section
variable {s : State} {id k : Nat} {w : WidenCall} {x : Caller} {gc : Group} {tm : Team}
  (hcall : tget s.calls id = some w) (hw : w.callers = [x]) (hgroups : w.groups = [k]) (hown : w.gkey ≠ k)
  (hg : tget s.groups w.gkey = some gc) (hpos : x.pos < 32) (hteam : tget s.teams w.tid = some tm)
include hcall hw hgroups hown hg hpos hteam

/-- Its caller has its results: the call ends. -/
theorem State.finishWiden_only (hmode : x.mode = .none) (hgone : (gc.lane x.pos).gone = false) :
    CallEnded s (s.finishWiden id) id w x gc tm k (gc.lane x.pos) := by
  have hlane : ∀ q, q < 32 → (w.resume s gc).lane q = if q = x.pos then (gc.lane q).resumed w.next else gc.lane q :=
    fun q hq => by
      rw [Group.lane_of_lanes (w.resume_lanes s gc), Group.lane_mapLanes _ _ _ hq, BitVec.getLsbD_and, Group.where_bit _ _ hq,
        hw, List.map_singleton, maskOf_bit _ hq]
      by_cases hqx : q = x.pos
      · subst hqx; simp [hgone]
      · simp [hqx]
  rw [State.finishWiden_done hcall (by simp [hw, hmode]), State.modGroup_some hg, hgroups]
  generalize w.resume s gc = g' at hlane
  have hteam' : tget ((s.setGroup w.gkey g').dropGroup k).teams w.tid = some tm := hteam
  rw [List.foldl_cons, List.foldl_nil, State.modTeam_some hteam', List.length_singleton]
  have hgroups' : ((((s.setGroup w.gkey g').dropGroup k).setTeam w.tid
      { tm with quota := tm.quota + w.charge, wslots := tm.wslots + 1 }).dropCall id).groups =
        terase (tset s.groups w.gkey g') k := rfl
  unfold CallEnded
  rw [hgroups', tget_terase_ne _ hown, tget_tset_self, tget_terase_self]
  refine ⟨⟨g', rfl, fun q hq hqx => ?_, ?_⟩, rfl, ?_, ?_, ?_⟩
  · rw [hlane q hq, if_neg hqx]
  · rw [hlane _ hpos, if_pos rfl]
  · exact tget_terase_self ..
  · exact (SameMemory.of_eq rfl rfl rfl).trans ((SameMemory.dropGroup _ k).trans (.setTeamDropCall ..))
  · rw [State.dropCall_teams, State.setTeam_teams, tget_tset_self]

/-- The caller's results are formed in its lane, and with it the call ends. -/
theorem State.callerDone_only : CallEnded s (s.callerDone id 0) id w x gc tm k
    ((gc.lane x.pos).results w.hdr x.got) := by
  have hgone : ∀ l : Lane, ({ l with state := .waiting (.widen id) } : Lane).gone = false := fun _ => rfl
  have hstate : ∀ l : Lane, ({ l with state := .waiting (.widen id) } : Lane).resumed w.next = l.resumed w.next := fun _ => rfl
  unfold State.callerDone
  rw [State.caller_only hcall hw]
  dsimp only
  generalize hl : (gc.lane x.pos).results w.hdr x.got = l
  have hset : s.modLane w.gkey x.pos (fun l => { l.results w.hdr x.got with state := .waiting (.widen id) }) =
      s.setGroup w.gkey (gc.setLane x.pos { l with state := .waiting (.widen id) }) := by
    rw [State.modLane, State.modGroup_some hg, hl]
  have hlane := fun q (hq : q < 32) => Group.lane_setLane gc x.pos { l with state := .waiting (.widen id) } hq
  rw [hset]
  generalize gc.setLane x.pos { l with state := .waiting (.widen id) } = gc' at hlane
  rw [State.modCaller_only (s := s.setGroup w.gkey gc') hcall hw]
  have hcaller : gc'.lane x.pos = { l with state := .waiting (.widen id) } := by rw [hlane _ hpos, if_pos rfl]
  have hend := State.finishWiden_only
    (s := (s.setGroup w.gkey gc').setCall id { w with callers := [{ x with mode := .none }] }) (State.tget_setCall ..) rfl hgroups
    hown (State.tget_setGroup_self s w.gkey gc') hpos hteam rfl (by rw [hcaller]; exact hgone l)
  exact hend.of_before rfl rfl (.of_eq rfl rfl rfl) (fun q hq hqx => by rw [hlane q hq, if_neg hqx])
    (by rw [hcaller]; exact hstate l)

end

/-! ### The last return -/

section
variable {s : State} {c : Issue} {g gc : Group} {p id : Nat} {w : WidenCall} {x : Caller} {tm : Team} {b : Block}
  (hcall : tget s.calls id = some w) (hw : w.callers = [x]) (hgroups : w.groups = [c.gkey]) (hown : w.gkey ≠ c.gkey)
  (hg : tget s.groups w.gkey = some gc) (hpos : x.pos < 32) (hteam : tget s.teams w.tid = some tm)
  (hget : tget s.groups c.gkey = some g) (hblock : g.blockAt p = some b) (hfirst : b.caller = 0) (hmode : x.mode = .fresh)
  (hlast : x.ended + 1 = x.count)
include hcall hw hgroups hown hg hpos hteam hget hblock hfirst hmode hlast

/-- The contribution of the lane that returns. -/
theorem State.parallelRet_last : CallEnded s (s.parallelRet c g id p) id w x gc tm c.gkey
    ((gc.lane x.pos).results w.hdr (x.got ++ [⟨b.base + (p - b.start), (g.lane p).args.take 4⟩])) := by
  unfold State.parallelRet
  rw [hblock]
  dsimp only
  rw [hfirst, State.modCaller_only hcall hw, State.modCaller_only (State.tget_setCall ..) rfl, State.setCall_setCall]
  simp only [List.dropLast_concat, List.getLast?_concat]
  generalize hx₂ : ({ x with got := x.got ++ [⟨b.base + (p - b.start), (g.lane p).args.take 4⟩] } : Caller) = x₂
  generalize hw₂ : ({ w with callers := [x₂] } : WidenCall) = w₂
  have hgetw : tget (s.setCall id w₂).groups c.gkey = some g := hget
  rw [State.modLane, State.modGroup_some hgetw]
  generalize g.setLane p { g.lane p with state := .waiting (.callee id) } = g₂
  have hcall₂ : tget ((s.setCall id w₂).setGroup c.gkey g₂).calls id = some w₂ := State.tget_setCall s id w₂
  unfold State.calleeEnded
  rw [State.modCaller_only hcall₂ (x := x₂) (by rw [← hw₂])]
  generalize hx₃ : ({ x₂ with ended := x₂.ended + 1 } : Caller) = x₃
  generalize hw₃ : ({ w₂ with callers := [x₃] } : WidenCall) = w₃
  dsimp only
  rw [State.caller_only (State.tget_setCall ..) (x := x₃) (by rw [← hw₃])]
  dsimp only
  have hfresh : x₃.mode = .fresh := by rw [← hx₃, ← hx₂]; exact hmode
  have hcount : x₃.ended = x₃.count := by rw [← hx₃, ← hx₂]; exact hlast
  have hnot : ¬x₃.mode = .reserve := by rw [hfresh]; decide
  rw [if_neg hnot, if_pos hcount]
  have hsame : w₃ = { w with callers := [x₃] } := by rw [← hw₃, ← hw₂]
  have hkey : w₃.gkey = w.gkey := by rw [hsame]
  have hgot : (gc.lane x₃.pos).results w₃.hdr x₃.got = (gc.lane x.pos).results w.hdr x₂.got := by rw [hsame, ← hx₃, ← hx₂]
  have hgot₂ : x₂.got = x.got ++ [⟨b.base + (p - b.start), (g.lane p).args.take 4⟩] := by rw [← hx₂]
  have hcallers : tget (((s.setCall id w₂).setGroup c.gkey g₂).setCall id w₃).groups w₃.gkey = some gc := by
    rw [hkey]; exact (State.tget_setGroup_ne _ _ hown).trans hg
  have hend := State.callerDone_only (s := ((s.setCall id w₂).setGroup c.gkey g₂).setCall id w₃) (State.tget_setCall ..)
    (by rw [hsame]) (by rw [hsame]; exact hgroups) (by rw [hkey]; exact hown) hcallers (by rw [← hx₃, ← hx₂]; exact hpos)
    (tm := tm) (by rw [hsame]; exact hteam)
  rw [hgot, hgot₂] at hend
  exact hend.of_before (by rw [hsame]) (by rw [← hx₃, ← hx₂]) (.of_eq rfl rfl rfl) (fun _ _ _ => rfl) rfl

end

end Sys2Proof.Machine
end

section
/-! PROOF. What the RET of the last lane of a widened call of one caller leaves, and a state in which the statement O24 says something
else (R153, R164). -/

namespace Sys2Proof.Machine

-- One proof at a time: a compile of the whole text stays within its memory.
set_option Elab.async false

/-! ### The caller's registers (R33, R153) -/

/-- The values a call's contributions give for a register, in widen-index order. -/
def contributed (got : List Contribution) (r : Nat) : List Word :=
  (sortBy id (got.map (·.idx))).filterMap fun i => (got.find? fun x => x.idx == i).map fun x => x.v[r]?.getD 0

theorem Lane.results_reg (l : Lane) (hdr : Word) (got : List Contribution) (r : Nat) : (l.results hdr got).reg r =
    if r < 4 then reduceCode (hdrCode hdr r) (contributed got r) (l.reg r) else l.reg r := by
  have h := Lane.reg_foldl_setReg l 0 (fun r => reduceCode (hdrCode hdr r) (contributed got r) (l.reg r)) 4 r (by decide)
  simp only [Nat.zero_add, Nat.zero_le, true_and, Nat.sub_zero] at h
  exact h

theorem hdrCode_eq (w : Word) (r : Nat) : hdrCode w r = w.toNat / 16 ^ r % 16 := by
  rw [hdrCode, bits, show 4 * r + 3 + 1 - 4 * r = 4 by omega, Nat.pow_mul]
  rfl

/-! ### The return (R164) -/

theorem token_eq (level : Nat) : token level = BitVec.ofNat 64 (2 ^ 63 + level) := by
  rw [token, BitVec.ofNat_add]
  rfl

section
variable {s : State} {c : Issue} {g : Group} {p : Nat} (h : s.Runs c g) (hp : p < 32) (hone : c.lanes = 1#32 <<< p)
include hp hone

/-- A lane that runs in a call returns from it where s55 holds the token of its level. -/
theorem State.atToken_one (hinner : s.inner c.gkey g p ≠ .none) (htoken : g.u.reg 55 = token (g.lane p).nest) :
    s.atToken c g = true := by
  have hlanes : (c.lanes != 0) = true := bne_iff_ne.2 fun e => by
    have hbit := bit_shift p p hp
    rw [← hone, e] at hbit
    simp at hbit
  rw [State.atToken, hlanes, hone, positions_single hp]
  simp [hinner, htoken]

include h in
/-- A RET of one lane in a parallel callee. -/
theorem ret_widened {k id : Nat} (hk : c.kholds k g.u = true) (hinner : s.inner c.gkey g p = .widened id)
    (htoken : g.u.reg 55 = token (g.lane p).nest) (hquiet : s.quiet c.gkey) :
    exec (.ret k) s = .next ((s.parallelRet c g id p).modGroup c.gkey (Group.close c)) := by
  change execRet k s = _
  rw [execRet, groupOrCox_runs h, hk]
  simp only [Bool.not_true, Bool.false_eq_true, if_false,
    State.atToken_one hp hone (by rw [hinner]; exact Inner.noConfusion) htoken, if_true, hquiet.settled rfl, hone,
    Group.order_single g hp, eachRes, State.widthRet, h.2.2, hinner, settle_ok]

end

/-- What the RET of the last lane of a parallel invocation leaves, its call having one caller x in another group: the caller's v0
to v3 come from the contributions in widen-index order. -/
theorem ret_lastOfCall {s : State} {c : Issue} {g gc : Group} {p id k : Nat} {w : WidenCall} {x : Caller} {tm : Team} {b : Block}
    (h : s.Runs c g) (hk : c.kholds k g.u = true) (hp : p < 32) (hone : c.lanes = 1#32 <<< p)
    (hinner : s.inner c.gkey g p = .widened id) (htoken : g.u.reg 55 = BitVec.ofNat 64 (2 ^ 63 + (g.lane p).nest))
    (hblock : g.blockAt p = some b) (hfirst : b.caller = 0) (hcall : tget s.calls id = some w) (hw : w.callers = [x])
    (hmode : x.mode = .fresh) (hlast : x.ended + 1 = x.count) (hgroups : w.groups = [c.gkey]) (hown : w.gkey ≠ c.gkey)
    (hg : tget s.groups w.gkey = some gc) (hpos : x.pos < 32) (hteam : tget s.teams w.tid = some tm) (hquiet : s.quiet c.gkey) :
    Answers (exec (.ret k) s) fun t => ∃ g', tget t.groups w.gkey = some g' ∧ ∀ r, r < 4 → (g'.lane x.pos).reg r =
      reduceCode (hdrCode w.hdr r) (contributed (x.got ++ [⟨b.base + (p - b.start), (g.lane p).args.take 4⟩]) r)
        ((gc.lane x.pos).reg r) := by
  obtain ⟨⟨g', hget, _, hcaller⟩, hdropped, _⟩ := State.parallelRet_last (c := c) hcall hw hgroups hown hg hpos hteam h.2.2
    hblock hfirst hmode hlast
  have hrun := ret_widened h hp hone hk hinner (htoken.trans (token_eq _).symm) hquiet
  rw [State.modGroup_none hdropped] at hrun
  refine ⟨_, hrun, g', hget, fun r hr => ?_⟩
  have hresults := Lane.results_reg (gc.lane x.pos) w.hdr
    (x.got ++ [⟨b.base + (p - b.start), (g.lane p).args.take 4⟩]) r
  rw [if_pos hr] at hresults
  rw [hcaller]
  exact hresults

/-! ### A call whose last return is not its first contribution

Lane 0 of group 0 has called two invocations, which run in group 1; that of widen index 0 has contributed 7, that of widen index 1
returns 100, and v0 is to be the first contribution (code 12). -/

def lastReturn.lane (p : Nat) : Lane :=
  { startLane 0x10010 (w32 p) 0 with nest := 1, v := (Vector.replicate 56 0).set 0 100#32 }

def lastReturn.callee : Group :=
  { startGroup 0 64 56 [] (Vector.ofFn fun p => if p.val < 2 then lastReturn.lane p.val else Lane.blank) with
    kind := .fresh 5, blocks := [⟨0, 4, 0, 0⟩]
    u := { UFile.reset with s := (Vector.replicate 56 0).set 55 (BitVec.ofNat 64 (2 ^ 63 + 1)) } }

def lastReturn.caller : Group :=
  startGroup 0 0 56 [] (Vector.ofFn fun _ => { startLane 0x10000 0 0 with state := .waiting (.widen 5) })

def lastReturn.record : Caller := ⟨0, 2, .fresh, 1, [⟨0, [7, 0, 0, 0]⟩], ⟨0, 0, 56, [], 0, 0, 0⟩, none⟩

def lastReturn.call : WidenCall :=
  { tid := 0, level := 1, target := 0x10010, hdr := 12, gkey := 0, next := 0x10008, callers := [lastReturn.record]
    groups := [1], charge := 1 }

def lastReturn.unit : Issue := ⟨false, 0, 1, 0x10020, 0, 0, 0x10024, 1#32 <<< 1, none, none, 0, 0, 0, false⟩

def lastReturn : State :=
  { State.reset with
    cur := some lastReturn.unit, teams := [(0, loadTeam)]
    groups := [(0, lastReturn.caller), (1, lastReturn.callee)], calls := [(5, lastReturn.call)] }

theorem lastReturn_runs : lastReturn.Runs lastReturn.unit lastReturn.callee := ⟨rfl, rfl, rfl⟩

theorem lastReturn_inner : lastReturn.inner 1 lastReturn.callee 1 = .widened 5 := by decide +kernel

theorem lastReturn_token :
    lastReturn.callee.u.reg 55 = BitVec.ofNat 64 (2 ^ 63 + (lastReturn.callee.lane 1).nest) := by decide +kernel

theorem lastReturn_quiet : lastReturn.quiet 1 := ⟨fun _ hx => absurd hx List.not_mem_nil, rfl⟩

end Sys2Proof.Machine

open Sys2Proof.Machine in
/-- Refutes O24: in WidenReturns the bound variable `id`, the number of the call, stands where the sort of the widen indices has
its key, so that the statement's order is not that of the indices. In `lastReturn` its v0 is 100, of widen index 1; the RET
leaves 7, of widen index 0, as R153 says (`ret_lastOfCall`). GatherArea, the other half, holds (`gatherArea_answers`). -/
theorem not_widenedCallsReturn : ¬ Obligations.WidenedCallsReturn := by
  intro h
  obtain ⟨t, hrun, _, _, _, _, g', hget, _, _, _, _, _, hclaim⟩ := h.1 lastReturn lastReturn.unit lastReturn.callee 1 5 lastReturn.call
    lastReturn.record lastReturn.caller loadTeam ⟨0, 4, 0, 0⟩ 0 lastReturn_runs (by decide +kernel) (by decide) rfl lastReturn_inner
    lastReturn_token rfl rfl rfl rfl rfl rfl rfl rfl (by decide) rfl (by decide) (by decide +kernel) rfl lastReturn_quiet
  obtain ⟨t', hrun', g'', hget', hreal⟩ := ret_lastOfCall (k := 0) (b := ⟨0, 4, 0, 0⟩) (tm := loadTeam) (w := lastReturn.call)
    (x := lastReturn.record) (gc := lastReturn.caller) lastReturn_runs (by decide +kernel) (by decide) rfl lastReturn_inner
    lastReturn_token rfl rfl rfl rfl rfl rfl rfl (by decide) rfl (by decide) rfl lastReturn_quiet
  cases hrun.symm.trans hrun'
  cases hget.symm.trans hget'
  have hv := (hclaim 0 (by decide)).symm.trans (hreal 0 (by decide))
  revert hv
  decide +kernel

end

section
/-! PROOF. A WIDEN of one caller for up to 32 invocations (O23; R148-R150, R152). -/

namespace Sys2Proof.Machine

-- One proof at a time: a compile of the whole text stays within its memory.
set_option Elab.async false

/-! ### The header and the claim (R13, R150) -/

theorem headerWord_header {s : State} {k rule : Nat} {a : DWord} {w : Word} (h : s.HasHeader k a rule w) :
    headerWord (s.core (coreOf k)) k a = w := by
  obtain ⟨_, _, hw, _⟩ := h
  rw [headerWord, hw]

/-- The result codes of a header that passes the checks of a call. -/
theorem checkCall_codes {s : State} {k rule : Nat} {a : DWord} {w : Word} {x : Header} (h : s.HasHeader k a rule w)
    (hx : checkCall (s.core (coreOf k)) k a rule = .ok x) : x.codes = [0, 1, 2, 3].map (hdrCode w) := by
  obtain ⟨hl, hl4, hw, -⟩ := h
  simp only [checkCall, checkTarget_landed hl, checkTarget_landed hl4, hw] at hx
  split at hx
  · cases hx
  · rename_i y hy
    split at hx
    · cases hx
      unfold Header.parse at hy
      dsimp only at hy
      split at hy
      · cases hy; rfl
      · cases hy
    · cases hx

theorem checkWidth_header {s : State} {k rule : Nat} {a : DWord} {w : Word} {f : Nat → Bool} (h : s.HasHeader k a rule w)
    (hf : ∀ r, r < 4 → f (hdrCode w r) = true) : ∃ x, checkWidth (s.core (coreOf k)) k a rule f = .ok x := by
  obtain ⟨x, hx⟩ := checkCall_header h
  have hall : x.codes.all f = true := by
    rw [checkCall_codes h hx]
    simp [hf 0, hf 1, hf 2, hf 3]
  exact ⟨x, by simp only [checkWidth, hx, hall, if_true]⟩

theorem blockSize_le (n : Nat) (h : n ≤ 32) : n ≤ blockSize n ∧ blockSize n ≤ 32 := by
  unfold blockSize
  split
  · omega
  split
  · omega
  split
  · omega
  · omega

/-- The claim of the first caller of a WIDEN for 1 to 32 invocations: a block of a group of its own. -/
theorem Claims.add_first {n q m : Nat} (h1 : 1 ≤ n) (h32 : n ≤ 32) (hq : blockSize n / 4 ≤ q) (hm : 1 ≤ m) :
    (⟨q, m, 0, none, []⟩ : Claims).add n =
      ⟨q - blockSize n / 4, m - 1, 1, some (0, blockSize n), [.block 0 0 (blockSize n)]⟩ := by
  unfold Claims.add
  rw [if_neg (by omega), if_neg (by omega)]
  dsimp only
  rw [if_pos (by simp [hq, hm])]
  rfl

/-! ### A free group slot (R137) -/

/-- A group slot of a core that has one free. -/
theorem State.newSlot_some {s : State} {core : Nat} (h : ∃ k, k < 64 ∧ tget s.groups (64 * core + k) = none) :
    ∃ key n, s.newSlot core = some (key, { s with fresh := n }) ∧ coreOf key = core ∧ tget s.groups key = none := by
  obtain ⟨k, hk, hnone⟩ := h
  have hmem : k ∈ (List.range 64).filter fun k => (tget s.groups (64 * core + k)).isNone := by
    simp [hk, hnone]
  have hfree : ∀ i ∈ (List.range 64).filter fun k => (tget s.groups (64 * core + k)).isNone,
      coreOf (64 * core + i) = core ∧ tget s.groups (64 * core + i) = none := fun i hi => by
    obtain ⟨hi, hgroup⟩ := List.mem_filter.1 hi
    have := List.mem_range.1 hi
    exact ⟨by unfold coreOf; omega, Option.isNone_iff_eq_none.1 hgroup⟩
  unfold State.newSlot
  generalize (List.range 64).filter (fun k => (tget s.groups (64 * core + k)).isNone) = ks at hmem hfree
  cases ks with
  | nil => cases hmem
  | cons j js =>
    have hin : (j :: js)[Config.pick s.fresh % (js.length + 1)]?.getD j ∈ j :: js := by
      have hlt : Config.pick s.fresh % (js.length + 1) < (j :: js).length := Nat.mod_lt _ (Nat.succ_pos _)
      rw [List.getElem?_eq_getElem hlt, Option.getD_some]
      exact List.getElem_mem _
    exact ⟨_, s.fresh + 1, rfl, hfree _ hin⟩

/-! ### The fresh group (R152) -/

/-- The lane of widen index q of the only block of a fresh group whose one caller makes n invocations. -/
theorem blockLanes_one {x : Caller} {frame level q : Nat} {target : DWord} (hn : x.count ≤ blockSize x.count) (hq : q < 32) :
    (blockLanes [x] [⟨0, blockSize x.count, 0, 0⟩] frame target level)[q]?.getD Lane.blank =
      if q < x.count then Lane.blank.enter frame target level q x.saved.v x.saved.lrng else Lane.blank := by
  unfold blockLanes
  rw [Vector.getElem?_eq_getElem hq, Vector.getElem_ofFn, Option.getD_some]
  by_cases hsize : q < blockSize x.count
  · simp [hsize]
  · simp [hsize, show ¬q < x.count by omega]

/-- A callee lane at its entry (R152). -/
theorem Lane.enter_reg (l : Lane) (frame : Nat) (target : DWord) (level i : Nat) (v : List Word) (lrng : DWord) {r : Nat}
    (hr : r < 56) : (l.enter frame target level i v lrng).reg r = if r < frame then v[r]?.getD 0 else l.reg r := by
  unfold Lane.reg Lane.enter
  dsimp only
  rw [Vector.getElem?_eq_getElem hr, Vector.getElem_ofFn, Option.getD_some, Vector.getElem?_eq_getElem hr, Option.getD_some]
  rfl

theorem Lane.enter_pred (l : Lane) (frame : Nat) (target : DWord) (level i : Nat) (v : List Word) (lrng : DWord) {r : Nat}
    (hr : 0 < r) : (l.enter frame target level i v lrng).pred r = false := by
  unfold Lane.pred Lane.enter
  dsimp only
  rw [Vector.getElem?_replicate, beq_eq_false_iff_ne.2 (Nat.ne_of_gt hr)]
  split <;> rfl

theorem Lane.reg_args (l : Lane) {r : Nat} (hr : r < 8) : l.args[r]?.getD 0 = l.reg r := by
  simp [Lane.args, hr]

theorem Lane.reg_args_high (l : Lane) {r : Nat} (hr : 8 ≤ r) : l.args[r]?.getD 0 = 0 := by
  simp [Lane.args, hr]

theorem Lane.reg_blank (r : Nat) : Lane.blank.reg r = 0 := by
  unfold Lane.reg Lane.blank
  dsimp only
  rw [Vector.getElem?_replicate]
  split <;> rfl

end Sys2Proof.Machine
end

section
/-! PROOF. O23: what a WIDEN of one caller leaves (R148-R150, R152). -/

namespace Sys2Proof.Machine

-- One proof at a time: a compile of the whole text stays within its memory.
set_option Elab.async false

/-- No lanes, no change. -/
theorem Group.mapLanes_zero (g : Group) (f : Lane → Lane) : g.mapLanes 0 f = g := by
  have hlanes : (g.mapLanes 0 f).lanes = g.lanes := by
    unfold Group.mapLanes
    refine Vector.ext fun i hi => ?_
    simp
  calc g.mapLanes 0 f = { g with lanes := (g.mapLanes 0 f).lanes } := by unfold Group.mapLanes; rfl
    _ = g := by rw [hlanes]

/-- One group that opens on a core with a free slot. -/
theorem State.openGroups_one {s s' : State} {core id key level : Nat} {g : Group} {hdr : Word} {target : DWord}
    {callers : List Caller} {spots : List Spot} (hslot : s.newSlot core = some (key, s')) :
    s.openGroups core id g level hdr target callers spots 0 1 =
      some { s'.setGroup key (calleeGroup g (.fresh id) (s'.wideSlot g.tid) (blocksOf 0 spots) hdr level
          (blockLanes callers (blocksOf 0 spots) (hdrFrame hdr) target level)) with
        calls := tmod s'.calls id fun w => { w with groups := w.groups ++ [key] } } := by
  unfold State.openGroups
  dsimp only
  rw [hslot]
  dsimp only
  unfold State.openGroups
  rfl

/-- Where the only call has one caller with a fresh group, no caller waits for a reserve group. -/
theorem State.reserveNext_fresh {s : State} {tid level id : Nat} {w : WidenCall} {x : Caller} (hcalls : s.calls = [(id, w)])
    (hw : w.callers = [x]) (hmode : x.mode = .fresh) : s.reserveNext tid level = none := by
  unfold State.reserveNext
  rw [hcalls, List.findSome?_eq_none_iff]
  intro y hy
  have hmem : y ∈ [(id, w)] := (List.mem_filter.1 hy).1
  rw [List.mem_singleton.1 hmem]
  simp [hw, List.range_succ, hmode]

/-- No caller waits for the reserve group of a level. -/
theorem State.startReserve_idle {s : State} {tid level : Nat} (h : s.reserveNext tid level = none) :
    s.startReserve tid level = s := by
  unfold State.startReserve
  split
  · rfl
  · rw [h]
    split <;> rfl

/-- A call whose caller has not got its results goes on. -/
theorem State.finishWiden_open {s : State} {id : Nat} {w : WidenCall} {x : Caller} (hcall : tget s.calls id = some w)
    (hw : w.callers = [x]) (hmode : x.mode = .fresh) : s.finishWiden id = s := by
  unfold State.finishWiden
  rw [hcall]
  simp [hw, hmode]

/-- The state after a WIDEN has noted its call and charged its team. -/
def State.openCall (s : State) (w : WidenCall) (tm : Team) : State :=
  ({ s with nextId := s.nextId + 1, calls := tset s.calls s.nextId w }).setTeam w.tid tm

/-- The call of the one caller at p that makes n invocations of target in a block of its own. -/
def widenCallOf (s : State) (c : Issue) (g : Group) (hdr : Word) (target : DWord) (p n : Nat) : WidenCall :=
  ⟨g.tid, (g.lane p).nest + 1, target, hdr, c.gkey, c.next,
    [callerOf c g (s.frameAt c.gkey g) (hdrCoupled hdr) ((g.lane p).nest + 1) p n (.block 0 0 (blockSize n))], [], blockSize n / 4⟩

/-- The caller's group once its lane waits. -/
def Issue.callerWaits (c : Issue) (id : Nat) (g : Group) : Group :=
  (g.mapLanes c.lanes fun l => { l with state := .waiting (.widen id), vpc := c.next, rep := 0 }).close c

section
variable {s : State} {c : Issue} {g : Group} {tm : Team} {p n : Nat} {w : Word} {target : DWord} {counts : Lane → Nat}
  (hp : p < 32) (hone : c.lanes = 1#32 <<< p) (hh : s.HasHeader c.gkey target 1 w)
  (hcodes : ∀ r, r < 4 → w.toNat / 16 ^ r % 16 ≠ 15) (hnest : (g.lane p).nest < 8) (hn : counts (g.lane p) = n) (h1 : 1 ≤ n)
  (h32 : n ≤ 32) (hteam : tget s.teams g.tid = some tm) (hquota : blockSize n / 4 ≤ tm.quota)
  (hslots : 1 ≤ tm.wslots)
include hp hone hh hcodes hnest hn h1 h32 hteam hquota hslots

/-- A WIDEN of one caller for 1 to 32 invocations passes its checks and claims a block of a group of its own (R150). -/
theorem State.widen_one : s.widen c g target counts =
    let call := widenCallOf s c g w target p n
    match (s.openCall call { tm with quota := tm.quota - blockSize n / 4, wslots := tm.wslots - 1 }).openGroups (coreOf c.gkey)
      s.nextId g call.level call.hdr call.target call.callers [.block 0 0 (blockSize n)] 0 1 with
    | none => .error .hold
    | some t => .ok ((((t.modGroup c.gkey fun h =>
        (h.mapLanes c.lanes fun l => { l with state := .waiting (.widen s.nextId), vpc := c.next, rep := 0 }).mapLanes 0 fun l =>
          { l with state := .parked .reserve }).startReserve g.tid call.level).finishWiden s.nextId).modGroup
            c.gkey (Group.close c)) := by
  obtain ⟨x, hx⟩ := checkWidth_header (f := (· != 15)) hh fun r hr => by rw [hdrCode_eq]; exact bne_iff_ne.2 (hcodes r hr)
  have hbig : ([p].filter fun p => decide (counts (g.lane p) > 1024)) = [] :=
    List.filter_eq_nil_iff.2 fun q hq => by rw [List.mem_singleton.1 hq]; simp; omega
  have hlevel : ¬max 0 (g.lane p).nest + 1 > 8 := by omega
  have hfall : ([(p, Spot.block 0 0 (blockSize n))].filter fun x => x.2 == .fall) = [] := rfl
  have hcharge : tm.quota - (tm.quota - blockSize n / 4) = blockSize n / 4 := by omega
  unfold State.widen
  dsimp only
  rw [hx]
  dsimp only
  rw [headerWord_header hh, hone, Group.order_single g hp, hbig, hteam]
  dsimp only
  rw [List.foldl_cons, List.foldl_nil, List.foldl_cons, List.foldl_nil, hn, Claims.add_first h1 h32 hquota hslots,
    if_neg hlevel, if_neg (by decide), Nat.zero_max, List.zip_cons_cons, List.zip_nil_left, hfall, List.map_nil, List.isEmpty_nil,
    Bool.not_true, Bool.and_false, Bool.false_and, if_neg (by decide), ite_self,
    State.slotPlaces]
  dsimp only
  rw [List.map_cons, List.map_nil, hn, hcharge]
  unfold State.openCall widenCallOf
  dsimp only
  generalize State.openGroups _ _ _ _ _ _ _ _ _ _ _ = opened
  cases opened with
  | none => rfl
  | some t =>
    dsimp only [List.foldl_cons, List.foldl_nil]
    have hmode : ¬(callerOf c g (s.frameAt c.gkey g) (hdrCoupled w) ((g.lane p).nest + 1) p n (.block 0 0 (blockSize n))).mode =
        .none := CallerMode.noConfusion
    have hmask : (if hdrCoupled w = true then maskOf [] else (0 : Mask)) = 0 := ite_self _
    rw [if_neg hmode, hmask]
    unfold State.startSerial
    rfl

end

/-- The fresh group that the call opens: its block runs the invocations. -/
def openedGroup (g : Group) (call : WidenCall) (id ix n : Nat) : Group :=
  calleeGroup g (.fresh id) ix [⟨0, blockSize n, 0, 0⟩] call.hdr call.level
    (blockLanes call.callers [⟨0, blockSize n, 0, 0⟩] (hdrFrame call.hdr) call.target call.level)

/-- A call noted when none was open opens its group. -/
theorem State.openGroups_opens {s : State} {core n : Nat} {g : Group} {tm : Team} {call : WidenCall} (hcalls : s.calls = [])
    (hgroups : call.groups = []) (hfree : ∃ k, k < 64 ∧ tget s.groups (64 * core + k) = none) :
    ∃ t key ix, (s.openCall call tm).openGroups core s.nextId g call.level call.hdr call.target call.callers
        [.block 0 0 (blockSize n)] 0 1 = some t ∧
      SameMemory s t ∧ t.teams = tset s.teams call.tid tm ∧ t.calls = [(s.nextId, { call with groups := [key] })] ∧
      t.groups = tset s.groups key (openedGroup g call s.nextId ix n) ∧ coreOf key = core ∧ tget s.groups key = none := by
  obtain ⟨key, m, hslot, hcore, hnone⟩ := State.newSlot_some (s := s.openCall call tm) hfree
  refine ⟨_, key, _, State.openGroups_one hslot, .of_eq rfl rfl rfl, rfl, ?_, rfl, hcore, hnone⟩
  have hnoted : (s.openCall call tm).calls = [(s.nextId, call)] := by
    unfold State.openCall
    rw [State.setTeam_calls, hcalls]
    rfl
  dsimp only
  rw [hnoted]
  simp [tmod, tget, tset, hgroups]

/-- The caller of the only open call waits: no other caller can start, and the call does not end. -/
theorem State.callerWaits {t : State} {c : Issue} {g : Group} {call : WidenCall} {x : Caller} {id tid level : Nat}
    (hg : tget t.groups c.gkey = some g) (hcalls : t.calls = [(id, call)]) (hx : call.callers = [x]) (hmode : x.mode = .fresh) :
    (((t.modGroup c.gkey fun h =>
      (h.mapLanes c.lanes fun l => { l with state := .waiting (.widen id), vpc := c.next, rep := 0 }).mapLanes 0 fun l =>
        { l with state := .parked .reserve }).startReserve tid level).finishWiden id).modGroup c.gkey (Group.close c) =
      t.setGroup c.gkey (c.callerWaits id g) := by
  rw [State.modGroup_some hg, Group.mapLanes_zero]
  unfold Issue.callerWaits
  generalize g.mapLanes c.lanes _ = g'
  have hopen : (t.setGroup c.gkey g').calls = [(id, call)] := hcalls
  rw [State.startReserve_idle (State.reserveNext_fresh hopen hx hmode),
    State.finishWiden_open (by rw [hopen]; simp [tget]) hx hmode, State.modGroup_some (State.tget_setGroup_self ..),
    State.setGroup_setGroup]

end Sys2Proof.Machine
end

section
/-! PROOF. O23: the caller that waits, the fresh group and its lanes (R148-R150, R152). -/

namespace Sys2Proof.Machine

-- One proof at a time: a compile of the whole text stays within its memory.
set_option Elab.async false

theorem hdrFrame_eq (w : Word) : hdrFrame w = w.toNat / 2 ^ 16 % 64 := rfl

/-- The group of a single caller: its lane waits and the region closes. -/
theorem Issue.callerWaits_becomes {c : Issue} {g : Group} {p id : Nat} (hone : c.lanes = 1#32 <<< p) :
    c.callerWaits id g = { g.closed c with lanes := (c.callerWaits id g).lanes } ∧
      ∀ q, q < 32 → (c.callerWaits id g).lane q =
        if q = p then c.closeLane { g.lane p with state := .waiting (.widen id), vpc := c.next, rep := 0 } else g.lane q := by
  refine ⟨Group.close_mapLanes .., fun q hq => ?_⟩
  unfold Issue.callerWaits
  rw [Group.lane_close _ _ hq, Group.lane_mapLanes _ _ _ hq, hone, bit_shift _ _ hq]
  by_cases hqp : q = p
  · simp [hqp]
  · simp [hqp]

/-! ### The uniform registers of the fresh group (R152) -/

theorem calleeGroup_reg_token (g : Group) (kind : GroupKind) (ix : Nat) (blocks : List Block) (hdr : Word) (level : Nat)
    (lanes : Vector Lane 32) : (calleeGroup g kind ix blocks hdr level lanes).u.reg 55 = token level := by
  simp [calleeGroup, UFile.reg]

theorem calleeGroup_reg {g : Group} {kind : GroupKind} {ix : Nat} {blocks : List Block} {hdr : Word} {level : Nat}
    {lanes : Vector Lane 32} {r : Nat} (hr : r < 55) : (calleeGroup g kind ix blocks hdr level lanes).u.reg r = g.u.reg r := by
  have hne : ¬55 = r := by omega
  simp [calleeGroup, UFile.reg, hne]

/-! ### The lanes of the fresh group (R152) -/

/-- A lane enters with its caller's v0 to v7 below the frame. -/
theorem Lane.enter_args {l : Lane} {frame level i r : Nat} {target lrng : DWord} (hr : r < 8) (hf : r < frame) :
    (Lane.blank.enter frame target level i l.args lrng).reg r = l.reg r := by
  rw [Lane.enter_reg _ _ _ _ _ _ _ (by omega), if_pos hf, Lane.reg_args l hr]

/-- Its other registers are 0. -/
theorem Lane.enter_rest {l : Lane} {frame level i r : Nat} {target lrng : DWord} (hr : 8 ≤ r) :
    (Lane.blank.enter frame target level i l.args lrng).reg r = 0 := by
  by_cases hr56 : r < 56
  · rw [Lane.enter_reg _ _ _ _ _ _ _ hr56, Lane.reg_args_high l hr, Lane.reg_blank, ite_self]
  · unfold Lane.reg
    rw [Vector.getElem?_eq_none (by omega)]
    rfl

theorem lrng_of_index (r : DWord) (q : Nat) : r + w64 q * golden = BitVec.ofNat 64 (r.toNat + q * 0x9E3779B97F4A7C15) := by
  rw [BitVec.ofNat_add, BitVec.ofNat_mul, BitVec.ofNat_toNat, BitVec.setWidth_eq]
  rfl

/-- The lane of widen index q in the group that a call of one caller opens. -/
theorem openedGroup_lane {s : State} {c : Issue} {g : Group} {w : Word} {target : DWord} {p n id ix q : Nat} (h32 : n ≤ 32)
    (hq : q < 32) : (openedGroup g (widenCallOf s c g w target p n) id ix n).lane q =
      if q < n then Lane.blank.enter (hdrFrame w) target ((g.lane p).nest + 1) q (g.lane p).args (g.lane p).lrng
      else Lane.blank :=
  blockLanes_one (x := callerOf c g (s.frameAt c.gkey g) (hdrCoupled w) ((g.lane p).nest + 1) p n (.block 0 0 (blockSize n)))
    (blockSize_le n h32).1 hq

end Sys2Proof.Machine

open Sys2Proof.Machine in
/-- Settles O23: the call is noted, its group opened and its caller left waiting; no other caller can start, and no result is
formed yet. -/
theorem widenedCallsOpen : Obligations.WidenedCallsOpen := by
  unfold Obligations.WidenedCallsOpen
  intro a b s c g tm p w h hk hp hone l n size frame hh hcodes hnest h1 h32 hquiet hteam hcore hquota hslots hcalls hfree
  have hwiden := State.widen_one (counts := fun l => (b.r32 l).toNat) hp hone hh hcodes hnest rfl h1 h32 hteam hquota hslots
  obtain ⟨t, key, ix, hopen, hmem, hteams, hcalled, hgroups, hkey, hnone⟩ := State.openGroups_opens
    (tm := { tm with quota := tm.quota - blockSize n / 4, wslots := tm.wslots - 1 }) (n := n) (g := g)
    (call := widenCallOf s c g w (a.get g.u) p n) hcalls rfl hfree
  have hne : c.gkey ≠ key := fun e => by rw [← e, h.2.2] at hnone; cases hnone
  have hg : tget t.groups c.gkey = some g := by rw [hgroups, tget_tset_ne _ _ hne]; exact h.2.2
  have hrun : exec (.widen a b) s = .next (t.setGroup c.gkey (c.callerWaits s.nextId g)) := by
    change execWiden a b s = _
    rw [execWiden, groupUnit_runs h, hk]
    simp only [Bool.not_true, Bool.false_eq_true, if_false, hquiet.settled rfl]
    rw [hwiden]
    dsimp only
    rw [hopen]
    exact congrArg (fun t => settle s c (.ok t)) (State.callerWaits hg hcalled rfl rfl)
  refine ⟨_, hrun, hmem.trans (.of_eq rfl rfl rfl), ?_, key, s.nextId, openedGroup g (widenCallOf s c g w (a.get g.u) p n) s.nextId ix n,
    hkey, hnone, ?_, ⟨_, State.tget_setGroup_self .., Issue.callerWaits_becomes hone⟩, rfl, rfl, hdrFrame_eq w, ?_, ?_, ?_⟩
  · rw [State.setGroup_teams, hteams]
    exact tget_tset_self ..
  · rw [State.tget_setGroup_ne _ _ hne.symm, hgroups, tget_tset_self]
  · exact (calleeGroup_reg_token ..).trans (token_eq _)
  · exact fun r hr => calleeGroup_reg hr
  · intro q hq
    rw [openedGroup_lane h32 hq]
    split
    · exact ⟨rfl, rfl, rfl, rfl, lrng_of_index _ _, fun r hr hf => Lane.enter_args hr hf, fun r hr => Lane.enter_rest hr,
        fun r hr => Lane.enter_pred _ _ _ _ _ _ _ hr⟩
    · rfl
end

section
/-! SUPPORT. Rules of a die's part of the state: its nodes, and what the end of a team leaves of it (R276, R288, R337). -/

namespace Sys2Proof.Machine

-- One proof at a time: a compile of the whole text stays within its memory.
set_option Elab.async false

/-! ### A die -/

theorem State.die_modDie (s : State) {d : Nat} (f : Die → Die) (h : d < 8) (i : Nat) :
    (s.modDie d f).die i = if i = d then f (s.die d) else s.die i := by
  unfold State.modDie State.die
  dsimp only
  rw [Vector.getElem?_setIfInBounds]
  by_cases hi : i = d
  · subst hi
    rw [if_pos rfl, if_pos h, if_pos rfl]
    rfl
  · rw [if_neg (Ne.symm hi), if_neg hi]

theorem State.die_of_dies {s t : State} (h : t.dies = s.dies) (i : Nat) : t.die i = s.die i := by
  unfold State.die
  rw [h]

@[simp] theorem State.modTeam_die (s : State) (k : Nat) (f : Team → Team) (i : Nat) : (s.modTeam k f).die i = s.die i :=
  State.die_of_dies (by simp) i

/-! ### The node that a handle names (R276) -/

theorem handleDie_lt (h : Word) : handleDie h < 8 := by
  unfold handleDie bits
  omega

theorem State.findNode_some {s : State} {h : Word} {die e : Nat} {n : Node} (hf : s.findNode h = some (die, e, n)) :
    bits h.toNat 31 28 = 0 ∧ die = handleDie h ∧ e = handleEntry h ∧ tget (s.die die).nodes e = some n ∧
      n.gen = bits h.toNat 24 12 := by
  unfold State.findNode at hf
  split at hf
  · cases hf
  · rename_i hhigh
    split at hf
    · rename_i m hm
      split at hf
      · rename_i hgen
        cases hf
        exact ⟨by simpa using hhigh, rfl, rfl, hm, hgen⟩
      · cases hf
    · cases hf

/-- A live node stays the one its handle names when its entry changes. -/
theorem State.findNode_of {s t : State} {h : Word} {die e : Nat} {n m : Node} (hf : s.findNode h = some (die, e, n))
    (ht : tget (t.die die).nodes e = some m) (hgen : m.gen = n.gen) : t.findNode h = some (die, e, m) := by
  obtain ⟨hhigh, rfl, rfl, -, hg⟩ := State.findNode_some hf
  unfold State.findNode
  rw [hhigh, ht]
  simp [hgen, hg]

theorem State.modNode_node {s : State} {die e : Nat} {n : Node} (f : Node → Node) (hdie : die < 8)
    (h : tget (s.die die).nodes e = some n) : tget ((s.modNode die e f).die die).nodes e = some (f n) := by
  rw [State.modNode, State.die_modDie _ _ hdie, if_pos rfl]
  exact (tget_tmod_self ..).trans (by rw [h]; rfl)

/-! ### What a team held is free (R113, R337) -/

theorem State.tget_dropGroups (k : Nat) : ∀ (ks : List Nat) (s : State),
    tget (ks.foldl State.dropGroup s).groups k = if k ∈ ks then none else tget s.groups k
  | [], s => by simp
  | j :: ks, s => by
    rw [List.foldl_cons, State.tget_dropGroups k ks, State.dropGroup_groups]
    by_cases hk : k = j
    · subst hk; simp
    · simp [hk, tget_terase_ne _ hk]

theorem SameMemory.dropGroups : ∀ (ks : List Nat) (s : State), SameMemory s (ks.foldl State.dropGroup s)
  | [], s => .refl s
  | k :: ks, s => (SameMemory.dropGroup s k).trans (SameMemory.dropGroups ks _)

theorem State.dropGroups_dies : ∀ (ks : List Nat) (s : State), (ks.foldl State.dropGroup s).dies = s.dies
  | [], _ => rfl
  | k :: ks, s => (State.dropGroups_dies ks (s.dropGroup k)).trans rfl

theorem State.dropGroups_teams : ∀ (ks : List Nat) (s : State), (ks.foldl State.dropGroup s).teams = s.teams
  | [], _ => rfl
  | k :: ks, s => (State.dropGroups_teams ks (s.dropGroup k)).trans rfl

/-- The groups of a team's record are its groups. -/
theorem State.mem_recordGroups {s : State} {tid k : Nat} :
    k ∈ s.recordGroups tid ↔ ∃ g, (k, g) ∈ s.groups ∧ g.tid = tid := by
  unfold State.recordGroups
  simp only [List.mem_append, mem_sortBy, List.mem_map, List.mem_filter, beq_iff_eq, bne_iff_ne, Prod.exists, exists_and_right,
    exists_eq_right]
  constructor
  · rintro (⟨g, ⟨hg, htid⟩, -⟩ | ⟨g, ⟨hg, htid⟩, -⟩)
    · exact ⟨g, hg, htid⟩
    · exact ⟨g, hg, htid⟩
  · rintro ⟨g, hg, htid⟩
    by_cases hkind : g.kind = .own
    · exact .inl ⟨g, ⟨hg, htid⟩, hkind⟩
    · exact .inr ⟨g, ⟨hg, htid⟩, hkind⟩

theorem State.freeTeam_teams (s : State) (tid : Nat) (t : Team) : (s.freeTeam tid t).teams = terase s.teams tid :=
  congrArg (terase · tid) (State.dropGroups_teams ..)

theorem State.freeTeam_groups (s : State) (tid : Nat) (t : Team) (h : rising s.groups = true) (k : Nat) :
    tget (s.freeTeam tid t).groups k = (tget s.groups k).bind fun g => if g.tid = tid then none else some g := by
  refine (State.tget_dropGroups k _ _).trans ?_
  change (if k ∈ s.recordGroups tid then none else tget s.groups k) = _
  cases hget : tget s.groups k with
  | none => simp
  | some g =>
    have hmem : k ∈ s.recordGroups tid ↔ g.tid = tid := by
      rw [State.mem_recordGroups]
      constructor
      · rintro ⟨g', hg', htid⟩
        cases hget.symm.trans (tget_of_mem h hg')
        exact htid
      · exact fun htid => ⟨g, mem_of_tget hget, htid⟩
    simp [hmem]

/-- Of a die, a team's end changes only the vacates that wait for the team. -/
theorem State.freeTeam_die (s : State) (tid : Nat) (t : Team) (i : Nat) :
    ∃ v, (s.freeTeam tid t).die i = { s.die i with vacates := v } := by
  by_cases hi : i < 8
  · refine ⟨(s.die i).vacates.map fun v => { v with teams := v.teams.filter (· != tid) }, ?_⟩
    have hdies := State.dropGroups_dies ((s.clearCore t.core tid).recordGroups tid) (s.clearCore t.core tid)
    unfold State.freeTeam State.die
    dsimp only
    rw [hdies, Vector.getElem?_eq_getElem hi, Vector.getElem_ofFn, Option.getD_some, Vector.getElem?_eq_getElem hi,
      Option.getD_some]
    rfl
  · refine ⟨Die.reset.vacates, ?_⟩
    unfold State.die
    rw [Vector.getElem?_eq_none (by omega), Vector.getElem?_eq_none (by omega)]
    rfl

theorem SameMemory.freeTeam (s : State) (tid : Nat) (t : Team) : SameMemory s (s.freeTeam tid t) :=
  (SameMemory.of_eq rfl rfl rfl : SameMemory s (s.clearCore t.core tid)).trans
    ((SameMemory.dropGroups _ _).trans (.of_eq rfl rfl rfl))

end Sys2Proof.Machine
end

section
/-! PROOF. The end of a grid team (O47; R288, R337). -/

namespace Sys2Proof.Machine

-- One proof at a time: a compile of the whole text stays within its memory.
set_option Elab.async false

theorem foldl_fixed {α β : Type} {f : β → α → β} {b : β} : ∀ {xs : List α}, (∀ x ∈ xs, f b x = b) → xs.foldl f b = b
  | [], _ => rfl
  | x :: xs, h => by
    rw [List.foldl_cons, h x (List.mem_cons_self ..)]
    exact foldl_fixed fun y hy => h y (List.mem_cons_of_mem _ hy)

/-- A team that computes no evaluation leaves none to fail (R230). -/
theorem State.endEvaluation_idle {s : State} {tid : Nat} (h : ∀ i, ∀ x ∈ (s.die i).cells, x.team ≠ some tid) :
    s.endEvaluation tid = s := by
  refine foldl_fixed fun d hd => foldl_fixed fun x hx => if_neg ?_
  obtain ⟨i, hi, rfl⟩ := Vector.mem_iff_getElem.1 (Vector.mem_toList_iff.1 hd)
  refine h i x ?_
  rw [State.die, Vector.getElem?_eq_getElem hi]
  exact hx

section
variable {s : State} {tid die e : Nat} {tm : Team} {n : Node}
  (hkind : tm.kind = .grid) (hcounted : tm.counted = false) (hnode : s.findNode tm.handle = some (die, e, n))
  (hqueue : n.desc.rqen = false) (hobj : n.desc.cobj = 0)
include hkind hnode

include hcounted in
/-- A grid team has no object of its own: its end is counted at once. -/
theorem State.countEnd_grid : s.countEnd tid tm =
    (true, (s.modTeam tid fun t => { t with counted := true }).modNode die e fun n => { n with ended := n.ended + 1 }) := by
  have hobject : tm.endObject = 0 := by rw [Team.endObject, hkind]
  have hfound : (s.modTeam tid fun t => { t with counted := true }).findNode tm.handle = some (die, e, n) := by
    obtain ⟨-, -, -, hget, -⟩ := State.findNode_some hnode
    exact State.findNode_of hnode (by rw [State.modTeam_die]; exact hget) rfl
  have hlive : ∀ m : Node, (if tm.kind = .tile then m.live - 1 else m.live) = m.live := fun m => if_neg (by rw [hkind]; exact nofun)
  unfold State.countEnd
  rw [hcounted, if_neg (by decide), hobject, if_pos rfl]
  dsimp only
  rw [hfound]
  dsimp only
  simp only [hlive]

include hobj in
theorem State.endBlocked_grid : s.endBlocked tm = false := by
  have hobject : tm.endObject = 0 := by rw [Team.endObject, hkind]
  unfold State.endBlocked
  rw [hobject, hnode]
  dsimp only
  rw [hobj]
  simp

end

/-- The entry of a node is free. -/
def Die.dropNode (d : Die) (die e : Nat) : Die :=
  { d with nodes := terase d.nodes e, served := d.served.filter fun x => x.2 != 4096 * die + e }

/-- A node without a queue or an object retires where all its teams have ended. -/
theorem State.retire_grid {s : State} {die e : Nat} {n : Node} (hget : tget (s.die die).nodes e = some n)
    (hqueue : n.desc.rqen = false) (hobj : n.desc.cobj = 0) : s.retire die e = (true,
      if n.desc.clusters * n.desc.cw * n.desc.ch ≤ n.ended then s.modDie die fun d => d.dropNode die e else s) := by
  have hdone : s.nodeDone die e n = decide (n.desc.clusters * n.desc.cw * n.desc.ch ≤ n.ended) := by
    rw [State.nodeDone, hqueue]
    rfl
  unfold State.retire
  rw [hget]
  dsimp only
  rw [hdone, hobj, if_pos rfl, hqueue]
  by_cases hall : n.desc.clusters * n.desc.cw * n.desc.ch ≤ n.ended
  · rw [if_pos hall, decide_eq_true hall]
    rfl
  · rw [if_neg hall, decide_eq_false hall]
    rfl

/-- What the end of a grid team does to the other teams, the groups, its node and the memory. -/
def TeamEnded (s t : State) (tid die e : Nat) (n : Node) : Prop :=
  SameMemory s t ∧ tget t.teams tid = none ∧ (∀ k, k ≠ tid → tget t.teams k = tget s.teams k) ∧
    (∀ k, tget t.groups k = (tget s.groups k).bind fun g => if g.tid = tid then none else some g) ∧
    tget (t.die die).nodes e =
      if n.desc.gx * n.desc.gy * n.desc.gz * n.desc.cw * n.desc.ch ≤ n.ended + 1 then none
      else some { n with ended := n.ended + 1 }

section
variable {s : State} {tid die e : Nat} {tm : Team} {n : Node} (hget : tget s.teams tid = some tm)
  (hkind : tm.kind = .grid) (hcounted : tm.counted = false) (hnode : s.findNode tm.handle = some (die, e, n))
  (hqueue : n.desc.rqen = false) (hobj : n.desc.cobj = 0) (hcells : ∀ i, ∀ x ∈ (s.die i).cells, x.team ≠ some tid)
  (hyielded : ∀ i, (s.die i).yielded = []) (hrising : rising s.groups = true)
include hget hkind hcounted hnode hqueue hobj hcells hyielded hrising

theorem State.endTeam_grid : TeamEnded s (s.endTeam tid tm) tid die e n := by
  obtain ⟨-, hdie, -, hentry, -⟩ := State.findNode_some hnode
  have hdie : die < 8 := hdie ▸ handleDie_lt _
  unfold State.endTeam
  rw [State.endEvaluation_idle hcells, State.countEnd_grid hkind hcounted hnode]
  dsimp only
  generalize hu : (s.modTeam tid fun t => { t with counted := true }).modNode die e (fun n => { n with ended := n.ended + 1 }) = u
  have hcount : tget (u.die die).nodes e = some { n with ended := n.ended + 1 } := by
    rw [← hu]
    exact State.modNode_node (n := n) _ hdie (by rw [State.modTeam_die]; exact hentry)
  have hgroups : u.groups = s.groups := by rw [← hu, State.modTeam_some hget]; rfl
  have hteams : ∀ k, k ≠ tid → tget u.teams k = tget s.teams k := fun k hk => by
    rw [← hu, State.modTeam_some hget]
    exact tget_tset_ne _ _ hk
  have hidle : ∀ i, (u.die i).yielded = [] := fun i => by
    rw [← hu, State.modNode, State.die_modDie _ _ hdie]
    split <;> simp [hyielded]
  have hmem : SameMemory s u := by rw [← hu, State.modTeam_some hget]; exact .of_eq rfl rfl rfl
  rw [State.findNode_of hnode hcount rfl]
  dsimp only
  rw [State.retire_grid hcount hqueue hobj]
  dsimp only
  generalize hv : (if n.desc.clusters * n.desc.cw * n.desc.ch ≤ n.ended + 1 then u.modDie die fun d => d.dropNode die e else u) = v
  have hnodes : tget (v.die die).nodes e = if n.desc.clusters * n.desc.cw * n.desc.ch ≤ n.ended + 1 then none
      else some { n with ended := n.ended + 1 } := by
    rw [← hv]
    split
    · rw [State.die_modDie _ _ hdie, if_pos rfl]
      exact tget_terase_self ..
    · exact hcount
  have hgroups : v.groups = s.groups := by rw [← hgroups, ← hv]; split <;> rfl
  have hteams : ∀ k, k ≠ tid → tget v.teams k = tget s.teams k := fun k hk => by
    rw [← hteams k hk, ← hv]
    split <;> rfl
  have hidle : (v.die tm.die).yielded = [] := by
    rw [← hv]
    split
    · rw [State.die_modDie _ _ hdie]
      split
      · exact hidle die
      · exact hidle _
    · exact hidle _
  have hmem : SameMemory s v := hmem.trans (by rw [← hv]; split <;> exact .of_eq rfl rfl rfl)
  rw [hidle, List.length_nil]
  obtain ⟨_, hfree⟩ := State.freeTeam_die v tid tm die
  refine ⟨hmem.trans (.freeTeam ..), ?_, fun k hk => ?_, fun k => ?_, ?_⟩
  · change tget (v.freeTeam tid tm).teams tid = none
    rw [State.freeTeam_teams, tget_terase_self]
  · change tget (v.freeTeam tid tm).teams k = _
    rw [State.freeTeam_teams, tget_terase_ne _ hk, hteams k hk]
  · change tget (v.freeTeam tid tm).groups k = _
    rw [State.freeTeam_groups _ _ _ (by rw [hgroups]; exact hrising), hgroups]
  · change tget ((v.freeTeam tid tm).die die).nodes e = _
    rw [hfree]
    exact hnodes

/-- TEAM_END of a grid team whose lanes have exited and whose operations are done. -/
theorem teamEnd_grid (hcore : tm.core < 1728) (hgone : s.teamGone tid = true) (hbusy : s.teamBusy tid = false) :
    Answers (exec (.teamEnd tid) s) fun t => TeamEnded s t tid die e n := by
  have hdue : s.teamEndDue tid = true := by
    unfold State.teamEndDue
    rw [hget]
    dsimp only
    rw [hgone, hbusy, State.endBlocked_grid hkind hnode hobj]
    simp [noCore, hcore]
  refine ⟨_, ?_, State.endTeam_grid hget hkind hcounted hnode hqueue hobj hcells hyielded hrising⟩
  change execTeamEnd tid s = _
  unfold execTeamEnd
  rw [hget]
  dsimp only
  rw [hdue, if_pos rfl]

end

end Sys2Proof.Machine
end

section
/-! PROOF. A team all of whose lanes wait for the next phase leaves its core for its phase record (O47; R160, R284). -/

namespace Sys2Proof.Machine

-- One proof at a time: a compile of the whole text stays within its memory.
set_option Elab.async false

/-! ### What a store leaves at its home (R193) -/

/-- A run of bytes within those that a store wrote. -/
theorem State.bytes_store (s : State) (own : Option Nat) (a : Nat) (bs : List Byte) : ∀ (n k : Nat), k + n ≤ bs.length →
    (s.store own a bs).bytes (a + k) n = (bs.drop k).take n
  | 0, _, _ => by rw [List.take_zero, State.bytes]
  | n + 1, k, h => by
    have hk : k < bs.length := by omega
    rw [State.bytes, State.byte_store, if_pos (by omega), Nat.add_sub_cancel_left, Nat.add_assoc,
      State.bytes_store s own a bs n (k + 1) (by omega), List.drop_eq_getElem_cons hk, List.take_succ_cons,
      List.getElem?_eq_getElem hk, Option.getD_some]

/-- A number among the fields that a store wrote. -/
theorem State.num_store (s : State) (own : Option Nat) (a n x : Nat) (before after : List Byte) :
    (s.store own a (before ++ (leBytes n x ++ after))).num (a + before.length) n = x % 256 ^ n := by
  have hlength : (leBytes n x).length = n := by simp
  rw [State.num, State.bytes_store _ _ _ _ _ _ (by simp), List.drop_left, List.take_left' hlength, leNat_leBytes]

/-- Of a die, a store changes only its watches (R244). -/
theorem State.store_die (s : State) (own : Option Nat) (a : Nat) (bs : List Byte) (i : Nat) :
    ∃ w, (s.store own a bs).die i = { s.die i with watches := w } := by
  obtain ⟨m, hm, bad, cores, hset⟩ := State.setBytes_eq s own a bs
  rw [State.store, hset]
  by_cases hi : i < 8
  · refine ⟨(s.die i).watches.map fun w =>
      if lineOf a ≤ w.2.1 ∧ 128 * w.2.1 < a + bs.length ∧ homeDie (128 * w.2.1) = i then (w.1, w.2.1, true) else w, ?_⟩
    unfold State.notice State.die
    dsimp only
    rw [Vector.getElem?_eq_getElem hi, Vector.getElem_ofFn, Option.getD_some, Vector.getElem?_eq_getElem hi, Option.getD_some]
    rfl
  · refine ⟨Die.reset.watches, ?_⟩
    unfold State.die
    rw [Vector.getElem?_eq_none (by omega), Vector.getElem?_eq_none (by omega)]
    rfl

theorem SameMemory.modDie (s : State) (d : Nat) (f : Die → Die) : SameMemory s (s.modDie d f) := .of_eq rfl rfl rfl

/-! ### The phase that enters the pool (R284) -/

/-- The only yielded team of a die, in a cluster of its own, is the next to enter the pool. -/
theorem State.nextPhase_only {s : State} {d tid i : Nat} {t : Team} (hy : (s.die d).yielded = [(tid, i, t)])
    (hcluster : t.cluster = [tid]) : s.nextPhase d = some [(tid, i, t)] := by
  have hwhole : s.phaseWhole d t = true := by
    unfold State.phaseWhole
    rw [hy, hcluster]
    simp
  unfold State.nextPhase
  rw [hy, List.find?_cons_of_pos (by exact hwhole)]
  simp [hcluster]

/-- With room in the pool, the phase enters it. -/
theorem State.queuePhases_only {s : State} {d tid i : Nat} {t : Team} (hy : (s.die d).yielded = [(tid, i, t)])
    (hcluster : t.cluster = [tid]) (hroom : (s.die d).pool.length < 8192) : s.queuePhases d 1 =
      (s.modDie d fun x => { x with pool := x.pool ++ [PoolEntry.enter (.phase [i] [t]) (s.phasePrio t) s.stroke] }).modDie d
        fun x => { x with yielded := x.yielded.filter fun z => !t.cluster.contains z.1 } := by
  unfold State.queuePhases
  rw [State.nextPhase_only hy hcluster]
  dsimp only [List.head?_cons, List.map_cons, List.map_nil]
  unfold State.poolAdd
  dsimp only
  rw [if_pos hroom]
  rfl

/-! ### The record of a phase (R160) -/

/-- The team as it goes on with its next phase. -/
def Team.nextPhase (t : Team) : Team := { t with phase := t.phase + 1 }

/-- The state once a team has left its core for phase record i. -/
def State.phaseLeft (s : State) (tid : Nat) (tm : Team) (i : Nat) : State :=
  ((s.store none ((s.die tm.die).phaseAddr i) (s.phaseRecord tid tm)).freeTeam tid tm).modDie tm.die fun d =>
    { d with phases := d.phases ++ [i], yielded := d.yielded ++ [(tid, i, tm.nextPhase)] }

theorem execPhaseRecordWrite_due {s : State} {tid i : Nat} {tm : Team} (hget : tget s.teams tid = some tm)
    (hdue : s.phaseDue tid = true) (hfree : (s.die tm.die).freePhase = some i) : exec (.phaseRecordWrite tid) s =
      .next ((s.phaseLeft tid tm i).queuePhases tm.die ((s.phaseLeft tid tm i).die tm.die).yielded.length) := by
  change execPhaseRecordWrite tid s = _
  unfold execPhaseRecordWrite
  rw [hget]
  dsimp only
  rw [hdue, if_pos rfl, hfree]
  rfl

/-- Of a die, a team that leaves changes its records, its yielded teams, and what watches and vacates note. -/
theorem State.phaseLeft_die (s : State) (tid : Nat) {tm : Team} (i : Nat) (hdie : tm.die < 8) (j : Nat) :
    ∃ v w, (s.phaseLeft tid tm i).die j =
      if j = tm.die then
        { s.die j with vacates := v, watches := w, phases := (s.die j).phases ++ [i],
                       yielded := (s.die j).yielded ++ [(tid, i, tm.nextPhase)] }
      else { s.die j with vacates := v, watches := w } := by
  unfold State.phaseLeft
  generalize (s.die tm.die).phaseAddr i = pa
  generalize s.phaseRecord tid tm = bs
  obtain ⟨w, hw⟩ := State.store_die s none pa bs j
  obtain ⟨v, hv⟩ := State.freeTeam_die (s.store none pa bs) tid tm j
  refine ⟨v, w, ?_⟩
  rw [State.die_modDie _ _ hdie]
  split
  · rename_i hj
    subst hj
    rw [hv, hw]
  · rw [hv, hw]

theorem State.phaseLeft_teams (s : State) (tid : Nat) (tm : Team) (i : Nat) :
    tget (s.phaseLeft tid tm i).teams tid = none := by
  unfold State.phaseLeft
  rw [State.modDie_teams, State.freeTeam_teams, tget_terase_self]

theorem SameMemory.phaseLeft (s : State) (tid : Nat) (tm : Team) (i : Nat) :
    SameMemory (s.store none ((s.die tm.die).phaseAddr i) (s.phaseRecord tid tm)) (s.phaseLeft tid tm i) := by
  unfold State.phaseLeft
  generalize s.store none _ _ = u
  exact (SameMemory.freeTeam u tid tm).trans (.modDie ..)

/-- The evaluations are those of before. -/
theorem State.phaseLeft_evaluation (s : State) (tid : Nat) {tm : Team} (i : Nat) (hdie : tm.die < 8) (pa : Nat) :
    (s.phaseLeft tid tm i).evaluation pa = s.evaluation pa := by
  have hcells : ((s.phaseLeft tid tm i).die (homeDie pa)).cells = (s.die (homeDie pa)).cells := by
    obtain ⟨v, w, h⟩ := State.phaseLeft_die s tid (tm := tm) i hdie (homeDie pa)
    rw [h]
    split <;> rfl
  unfold State.evaluation
  rw [hcells]

/-- The head of a team's phase record: its handle, its phase and its index. -/
theorem State.phaseRecord_fields (s : State) (tid : Nat) (t : Team) : ∃ rest, s.phaseRecord tid t =
    leBytes 4 t.handle.toNat ++ (leBytes 4 t.phase ++ (leBytes 4 t.tidx ++ rest)) := by
  unfold State.phaseRecord
  simp only [List.append_assoc]
  exact ⟨_, rfl⟩

/-- The fields of the record at its home. -/
theorem State.phaseRecord_stored (s : State) (tid : Nat) (t : Team) (pa : Nat) :
    let u := s.store none pa (s.phaseRecord tid t)
    u.num pa 4 = t.handle.toNat ∧ u.num (pa + 4) 4 = t.phase % 2 ^ 32 ∧ u.num (pa + 8) 4 = t.tidx % 2 ^ 32 ∧
      ∀ a, a < pa → u.byte a = s.byte a := by
  obtain ⟨rest, hrecord⟩ := s.phaseRecord_fields tid t
  have hlow : ∀ a, a < pa → (s.store none pa (s.phaseRecord tid t)).byte a = s.byte a := fun a ha => by
    rw [State.byte_store, if_neg (by omega)]
  refine ⟨?_, ?_, ?_, hlow⟩
  · rw [hrecord]
    exact (State.num_store s none pa 4 t.handle.toNat [] _).trans (Nat.mod_eq_of_lt t.handle.isLt)
  · rw [hrecord]
    exact State.num_store s none pa 4 t.phase (leBytes 4 t.handle.toNat) _
  · rw [hrecord, ← List.append_assoc]
    exact State.num_store s none pa 4 t.tidx (leBytes 4 t.handle.toNat ++ leBytes 4 t.phase) _

theorem State.num_of_same {s t : State} (h : SameMemory s t) (a n : Nat) : t.num a n = s.num a n :=
  State.num_congr a n fun _ _ => h.1 _

end Sys2Proof.Machine
end

section
/-! PROOF. The end of a team and the end of its phase (O47; R160, R284, R288, R337). -/

namespace Sys2Proof.Machine

-- One proof at a time: a compile of the whole text stays within its memory.
set_option Elab.async false

/-- The priority of a team's next phase: of an evaluator, that of its cell where that is higher (R227, R284). -/
theorem State.phaseLeft_prio (s : State) (tid : Nat) {tm : Team} (i : Nat) (hdie : tm.die < 8) :
    match tm.kind with
    | .evaluator q => ∀ ev, s.evaluation q = some ev → (s.phaseLeft tid tm i).phasePrio tm.nextPhase = max tm.prio ev.prio
    | _ => (s.phaseLeft tid tm i).phasePrio tm.nextPhase = tm.desc.prio := by
  have hkind : tm.nextPhase.kind = tm.kind := rfl
  unfold State.phasePrio State.entryPrio
  rw [hkind]
  cases tm.kind with
  | evaluator q =>
    intro ev hev
    dsimp only
    rw [State.phaseLeft_evaluation s tid i hdie, hev]
    rfl
  | _ => rfl

/-- A team of a cluster of its own, all of whose lanes wait for the next phase, leaves its core. -/
theorem phaseRecordWrite_only {s : State} {tid i : Nat} {tm : Team} (hget : tget s.teams tid = some tm) (hdie : tm.die < 8)
    (hdue : s.phaseDue tid = true) (hfree : (s.die tm.die).freePhase = some i) (hcluster : tm.cluster = [tid])
    (hyielded : (s.die tm.die).yielded = []) (hroom : (s.die tm.die).pool.length < 8192) :
    Answers (exec (.phaseRecordWrite tid) s) fun t =>
      tget t.teams tid = none ∧ (t.die tm.die).phases = (s.die tm.die).phases ++ [i] ∧
      (t.die tm.die).pool = (s.die tm.die).pool ++
        [PoolEntry.enter (.phase [i] [tm.nextPhase]) ((s.phaseLeft tid tm i).phasePrio tm.nextPhase) (s.phaseLeft tid tm i).stroke] ∧
      SameMemory (s.store none ((s.die tm.die).phaseAddr i) (s.phaseRecord tid tm)) t := by
  obtain ⟨v, w, hleft⟩ := State.phaseLeft_die s tid i hdie tm.die
  rw [if_pos rfl, hyielded, List.nil_append] at hleft
  have hone : ((s.phaseLeft tid tm i).die tm.die).yielded = [(tid, i, tm.nextPhase)] := by rw [hleft]
  have hpool : ((s.phaseLeft tid tm i).die tm.die).pool = (s.die tm.die).pool := by rw [hleft]
  have hphases : ((s.phaseLeft tid tm i).die tm.die).phases = (s.die tm.die).phases ++ [i] := by rw [hleft]
  have hteams := State.phaseLeft_teams s tid tm i
  have hmem := SameMemory.phaseLeft s tid tm i
  have hrun := execPhaseRecordWrite_due hget hdue hfree
  generalize s.phaseLeft tid tm i = u at *
  rw [hone, List.length_singleton, State.queuePhases_only hone hcluster (by rw [hpool]; exact hroom)] at hrun
  refine ⟨_, hrun, hteams, ?_, ?_, hmem.trans ((SameMemory.modDie ..).trans (.modDie ..))⟩
  · rw [State.die_modDie _ _ hdie, if_pos rfl, State.die_modDie _ _ hdie, if_pos rfl]
    exact hphases
  · rw [State.die_modDie _ _ hdie, if_pos rfl, State.die_modDie _ _ hdie, if_pos rfl]
    exact congrArg (· ++ _) hpool

theorem endsOfTeams : Claims.EndsOfTeams := by
  refine ⟨fun s tid tm die e n hget hcore hgone hbusy hkind hcounted hnode hqueue hobj hcells hyielded hrising =>
    teamEnd_grid hget hkind hcounted hnode hqueue hobj hcells hyielded hrising hcore hgone hbusy, ?_⟩
  intro s tid tm i hget hdie hdue hfree hcluster hyielded hroom
  obtain ⟨t, hrun, hteams, hphases, hpool, hmem⟩ := phaseRecordWrite_only hget hdie hdue hfree hcluster hyielded hroom
  obtain ⟨hhandle, hphase, hindex, hlow⟩ := s.phaseRecord_stored tid tm ((s.die tm.die).phaseAddr i)
  refine ⟨t, hrun, hteams, hphases, ⟨_, hpool, State.phaseLeft_prio s tid i hdie, rfl⟩, ?_, ?_, ?_, fun a ha => ?_⟩
  · exact (State.num_of_same hmem _ _).trans hhandle
  · exact (State.num_of_same hmem _ _).trans hphase
  · exact (State.num_of_same hmem _ _).trans hindex
  · exact (hmem.1 a).trans (hlow a ha)

end Sys2Proof.Machine
end

section
/-! PROOF. A gather firing starts its run (O47; R155, R156, R158). -/

namespace Sys2Proof.Machine

-- One proof at a time: a compile of the whole text stays within its memory.
set_option Elab.async false

/-! ### The gather area (R156) -/

/-- Registers written to the slots from a place on. -/
theorem tget_foldl_tset {α : Type} (area : Tab α) (a x : Nat) (v : Nat → α) : ∀ n : Nat,
    tget ((List.range n).foldl (fun t r => tset t (a + r) (v r)) area) x =
      if a ≤ x ∧ x < a + n then some (v (x - a)) else tget area x
  | 0 => by rw [if_neg (by omega)]; rfl
  | n + 1 => by
    rw [List.range_succ, List.foldl_append, List.foldl_cons, List.foldl_nil, tget_tset, tget_foldl_tset area a x v n]
    by_cases hx : x = a + n
    · subst hx
      rw [if_pos rfl, if_pos (by omega), Nat.add_sub_cancel_left]
    · rw [if_neg hx]
      by_cases hlow : a ≤ x ∧ x < a + n
      · rw [if_pos hlow, if_pos (by omega)]
      · rw [if_neg hlow, if_neg (by omega)]

/-- The lane of a caller; a blank one for a caller that is not there. -/
def State.callerLane (s : State) (c : Nat × Nat) : Lane := ((tget s.groups c.1).map (·.lane c.2)).getD Lane.blank

/-- Callers leave the slots below theirs as they were. -/
theorem gatherArea_below (s : State) {x : Nat} : ∀ (callers : List (Nat × Nat)) (area : Tab Word) (n : Nat), x < 8 * n →
    tget (gatherArea s area n callers) x = tget area x
  | [], _, _, _ => rfl
  | c :: cs, area, n, h => by
    rw [gatherArea]
    rw [gatherArea_below s cs _ (n + 1) (by omega), tget_foldl_tset, if_neg (by omega)]

/-- Caller i has its v0 to v7 in slot i. -/
theorem gatherArea_slot (s : State) {c : Nat × Nat} {j : Nat} (hj : j < 8) : ∀ (callers : List (Nat × Nat)) (area : Tab Word)
    (n i : Nat), callers[i]? = some c → tget (gatherArea s area n callers) (8 * (n + i) + j) = some ((s.callerLane c).reg j)
  | [], _, _, _, h => by simp at h
  | d :: ds, area, n, 0, h => by
    rw [List.getElem?_cons_zero] at h
    cases h
    rw [gatherArea]
    rw [gatherArea_below s ds _ (n + 1) (by omega), tget_foldl_tset, if_pos (by omega), Nat.add_zero, Nat.add_sub_cancel_left]
    rfl
  | d :: ds, area, n, i + 1, h => by
    rw [List.getElem?_cons_succ] at h
    rw [gatherArea]
    rw [show n + (i + 1) = n + 1 + i by omega]
    exact gatherArea_slot s hj ds _ (n + 1) i h

/-! ### The firing (R155) -/

/-- The only firing of a team is the next, if its run may start. -/
theorem State.nextFiring_only {s : State} {tm : Team} {f : Firing} (h : tm.firings = [f]) (hrun : s.runnable f = true) :
    s.nextFiring tm = some f := by
  unfold State.nextFiring
  rw [h]
  simp [hrun]

theorem State.runnable_of {s : State} {f : Firing} {r : GatherRun} {rs : List GatherRun} {k p : Nat} {g : Group}
    (hthread : f.thread = none) (hwait : f.wait = none) (hstuck : f.stuck = false) (hruns : f.runs = r :: rs)
    (hhead : r.callers.head? = some (k, p)) (hg : tget s.groups k = some g) (hstop : g.stop = none) :
    s.runnable f = true := by
  unfold State.runnable
  rw [hthread, hwait, hstuck, hruns]
  simp [hhead, hg, hstop]

/-! ### The run (R158) -/

theorem State.learnFrom_tid (s : State) (ks : List Nat) (g : Group) : (s.learnFrom ks g).tid = g.tid := by
  unfold State.learnFrom
  induction ks generalizing g with
  | nil => rfl
  | cons k ks ih =>
    rw [List.foldl_cons, ih]
    split <;> rfl

theorem State.learnFrom_kind (s : State) (ks : List Nat) (g : Group) : (s.learnFrom ks g).kind = g.kind := by
  unfold State.learnFrom
  induction ks generalizing g with
  | nil => rfl
  | cons k ks ih =>
    rw [List.foldl_cons, ih]
    split <;> rfl

/-- The group of a callee thread: its first lane runs the callee, with the number of its callers in v0. -/
def threadGroup (g : Group) (f : Firing) (r : GatherRun) (hdr : Word) (lrng : DWord) (ix : Nat) : Group :=
  calleeGroup g (.thread f.level) ix [⟨0, 4, 0, 0⟩] hdr f.level
    (Vector.ofFn fun i => if i.val = 0 then
      Lane.blank.enter (hdrFrame hdr) r.callee f.level 0 (w32 r.callers.length :: List.replicate 7 0) lrng else Lane.blank)

theorem threadGroup_lane (g : Group) (f : Firing) (r : GatherRun) (hdr : Word) (lrng : DWord) (ix : Nat) {q : Nat} (hq : q < 32) :
    (threadGroup g f r hdr lrng ix).lane q = if q = 0 then
      Lane.blank.enter (hdrFrame hdr) r.callee f.level 0 (w32 r.callers.length :: List.replicate 7 0) lrng else Lane.blank := by
  unfold threadGroup calleeGroup Group.lane
  dsimp only
  rw [Vector.getElem?_eq_getElem hq, Vector.getElem_ofFn, Option.getD_some]

section
variable {s : State} {tid : Nat} {tm : Team} {f : Firing} {r : GatherRun} {rs : List GatherRun} {k p : Nat} {g : Group} {w : Word}
  (hget : tget s.teams tid = some tm) (hg : tget s.groups k = some g) (hquota : 1 ≤ tm.quota) (hslots : 1 ≤ tm.wslots)
  (hfree : ∃ j, j < 64 ∧ tget s.groups (64 * tm.core + j) = none)

include hg hquota hslots hfree in
/-- With a block and a group slot free, the run starts in a group of its own. -/
theorem State.startRun_block (hhdr : headerWord (s.core tm.core) k r.callee = w) : ∃ key h fire,
    SameMemory s (s.startRun tid tm f r k p) ∧
      (s.startRun tid tm f r k p).teams = tset s.teams tid ({ tm with
        quota := tm.quota - 1, wslots := tm.wslots - 1, gather := gatherArea s tm.gather 0 r.callers }.modFiring f.level fire) ∧
      (s.startRun tid tm f r k p).groups = tset s.groups key h ∧ coreOf key = tm.core ∧ tget s.groups key = none ∧
      ∃ u ix, h = State.learnFrom u r.groups (threadGroup g f r w (g.lane p).lrng ix) := by
  obtain ⟨key, m, hslot, hcore, hnone⟩ := State.newSlot_some hfree
  have hroom : (decide (1 ≤ tm.quota) && decide (1 ≤ tm.wslots)) = true := by simp [hquota, hslots]
  unfold State.startRun
  rw [hg]
  dsimp only
  rw [hroom, if_pos rfl, hslot, hhdr]
  exact ⟨key, _, _, .of_eq rfl rfl rfl, rfl, rfl, hcore, hnone, _, _, rfl⟩

/-- GATHER_FIRING where the headers of the only firing have been read. -/
theorem execGatherFiring_begun {cs : List (Nat × Nat)} (hget : tget s.teams tid = some tm) (hf : s.nextFiring tm = some f)
    (hruns : f.runs = r :: rs) (hbegun : f.begun = true) (hcallers : r.callers = (k, p) :: cs) :
    let tm' := tm.modFiring f.level fun x => { x with begun := true }
    exec (.gatherFiring tid) s = .next ((s.setTeam tid tm').startRun tid tm' f r k p) := by
  change execGatherFiring tid s = _
  unfold execGatherFiring
  rw [hget]
  dsimp only
  rw [hf]
  dsimp only
  rw [hruns]
  dsimp only
  rw [hbegun, if_pos rfl]
  dsimp only
  rw [hcallers]

end

theorem gatherFirings : Claims.GatherFirings := by
  intro s tid tm f r rs k p g w hget hfirings hruns hbegun hthread hstuck hwait hstop hhead hg htid hcore hh hquota hslots hfree
  obtain ⟨cs, hcallers⟩ := List.head?_eq_some_iff.1 hhead
  have hnext := State.nextFiring_only hfirings (State.runnable_of hthread hwait hstuck hruns hhead hg hstop)
  have hrun := execGatherFiring_begun hget hnext hruns hbegun hcallers
  have hframe : 0 < hdrFrame w := by
    obtain ⟨-, -, -, -, -, -, hlow, -⟩ := hh
    exact hlow
  dsimp only at hrun
  generalize htm : (tm.modFiring f.level fun x => { x with begun := true }) = tm' at hrun
  have hsame : tm'.quota = tm.quota ∧ tm'.wslots = tm.wslots ∧ tm'.core = tm.core := by subst htm; exact ⟨rfl, rfl, rfl⟩
  obtain ⟨hq, hs, hc⟩ := hsame
  obtain ⟨key, h, fire, hmem, hteams, hgroups, hkey, hnone, u, ix, hh'⟩ := State.startRun_block (s := s.setTeam tid tm') (tid := tid)
    (tm := tm') (f := f) (r := r) (w := w) (p := p) hg (by rw [hq]; exact hquota) (by rw [hs]; exact hslots) (by rw [hc]; exact hfree)
    (by rw [hc, ← hcore]; exact headerWord_header hh)
  have hlane : ∀ q, q < 32 → h.lane q = (threadGroup g f r w (g.lane p).lrng ix).lane q := fun q _ => by
    rw [hh', Group.lane_of_lanes (State.learnFrom_lanes ..)]
  have hfirst := (hlane 0 (by decide)).trans ((threadGroup_lane g f r w (g.lane p).lrng ix (by decide)).trans (if_pos rfl))
  have hteam := (congrArg (tget · tid) hteams).trans (tget_tset_self ..)
  refine ⟨_, hrun, (SameMemory.of_eq rfl rfl rfl).trans hmem, _, key, h, hteam, congrArg (· - 1) hq, congrArg (· - 1) hs,
    hkey.trans hc, hnone, ?_, ?_, ?_, ?_, ?_, ?_, fun q h1 hq => ?_, fun i c j hi hj => ?_, fun j hj => ?_⟩
  · rw [hgroups, tget_tset_self]
  · rw [hh', State.learnFrom_tid]
    exact htid
  · rw [hh', State.learnFrom_kind]
    rfl
  · rw [hfirst]
    rfl
  · rw [hfirst]
    rfl
  · rw [hfirst, Lane.enter_reg _ _ _ _ _ _ _ (by decide), if_pos hframe]
    rfl
  · rw [hlane q hq, threadGroup_lane _ _ _ _ _ _ hq, if_neg (by omega)]
    rfl
  · have hslot := gatherArea_slot (s.setTeam tid tm') hj r.callers tm'.gather 0 i hi
    rw [Nat.zero_add] at hslot
    refine (congrArg (·.getD 0) hslot).trans ?_
    unfold State.callerLane
    rw [State.setTeam_groups]
    cases tget s.groups c.1 with
    | none => rfl
    | some x => rfl
  · rw [hgroups, tget_tset_ne _ _ hj]
    rfl

end Sys2Proof.Machine

open Sys2Proof.Machine in
/-- Settles O47: the end of a team and of its phase, and the start of a gather's run, each as the state that its event leaves. -/
theorem teamsEndAndGathersFire : Obligations.TeamsEndAndGathersFire := ⟨endsOfTeams, gatherFirings⟩
end
